-- ==== Sys2Proof/Word.lean ====
section
/-! DEFINITION. The word types and the small closed sets of names that instruction words, descriptors and engine
messages are made of (R2 to R7, R46, R85, R51, R64, R254 of the spec). -/

namespace Sys2Proof

/-- A 32-bit slot or header word (R72). -/
abbrev Word := BitVec 32
/-- A 64-bit scalar register value (R104). -/
abbrev Dbl := BitVec 64
/-- A vector register: lane i is bits [32i+31 : 32i] (R135). -/
abbrev VReg := BitVec 2048
/-- A tile, an operand latch or a 4 KiB block: byte j is bits [8j+7 : 8j] (R180, R162, R414). -/
abbrev Block := BitVec 32768

/-- The nine element types of a word's type field (R85). -/
inductive ElemType where
  | i8 | n8 | i16 | n16 | i32 | n32 | bf | f32 | d8
  deriving DecidableEq, Repr

/-- The four rounding modes (R51), in the order of their codes (R147). -/
inductive RMode where
  | rne | rtz | rdn | rup
  deriving DecidableEq, Repr

/-- The cell operations of the matrix engine (R64), in the order of their codes (R163). -/
inductive CellOp where
  | mac | ada | mxp | mnp
  deriving DecidableEq, Repr

/-- The atomic operations of `amo` and `vamo` (R254). -/
inductive AtomicOp where
  | swap | add | and | or | xor | minI | maxI | minN | maxN | fadd
  deriving DecidableEq, Repr

/-- Memory policy (R243). -/
inductive Policy where
  | c | b | s
  deriving DecidableEq, Repr

/-- Task or supervisor mode (R104). -/
inductive Mode where
  | task | supervisor
  deriving DecidableEq, Repr

/-- The slots in slot order C, S, X, T, V0, V1, M (R74). -/
inductive Slot where
  | c | s | x | t | v0 | v1 | m
  deriving DecidableEq, Repr

/-- Accumulator kind (R160). -/
inductive AccKind where
  | none | f40 | i40
  deriving DecidableEq, Repr

/-- A slot predicate: register and negate bit (R82). -/
structure Pred where
  qp : BitVec 3
  ng : Bool
  deriving DecidableEq, Repr

/-- A cause with the detail that its rule puts into TINFO0 to TINFO3 (R331). -/
structure FaultInfo where
  cause : BitVec 8
  i0 : Dbl := 0
  i1 : Dbl := 0
  i2 : Dbl := 0
  i3 : Dbl := 0
  deriving DecidableEq, Repr

/-- A tile by space, tensor and packed coordinate (R187, R211). -/
structure TileId where
  space : BitVec 6
  tensor : BitVec 20
  coord : Dbl
  deriving DecidableEq, Repr

/-- A version requirement (R192). -/
inductive Want where
  | atLeast (n : BitVec 32)
  | latest
  | exactly (m : BitVec 32)
  deriving DecidableEq, Repr

/-- Who waits for a tile request: a parked context, a task input, a probe (itinerary 0) or an itinerary's entry, a re-acquire, another device,
or an `snew` with C = 1. -/
inductive TileUser where
  | ctx (c : Nat)
  | input (cluster entry map : Nat)
  | prefetch (cluster itin : Nat)
  | reacquire (cluster entry idx : Nat)
  | peer (dev : Nat)
  | opening (c : Nat)
  deriving DecidableEq, Repr

/-- A request for a tile (R192): who asks, from which cluster and slice slot, for which version. -/
structure TileReq where
  tile : TileId
  want : Want
  user : TileUser
  cluster : Nat
  deriving DecidableEq, Repr

/-- A flit's header fields with the data of its transaction, at most four data flits (R357, R358); the link check code is
not part of it. -/
structure Flit where
  type : BitVec 8
  src : BitVec 8
  dst : BitVec 8
  tag : BitVec 12
  ord : Bool
  cz : Bool
  len : BitVec 3
  space : BitVec 6
  key : BitVec 4
  seq : BitVec 12
  gpa : BitVec 60
  aux : BitVec 64
  inl : BitVec 256
  data : BitVec 2048
  deriving DecidableEq, Repr

/-- A live node of a graph instance: die of the Beacon, instance, level and node address (R301). -/
structure NodeRef where
  die : Nat
  inst : Nat
  level : Nat
  addr : BitVec 64
  deriving DecidableEq, Repr

end Sys2Proof
end

