-- ==== Sys2Proof/Config.lean ====
section
/-! DEFINITION. What an implementation fixes and the spec leaves open: constants without a body, so that no proof can
see their values. -/

namespace Sys2Proof.Config

/-- The free values: choices among due engine actions, and values the spec leaves open. Applied to State.tick, which
the step advances (log 4). -/
opaque freeValue : Nat → BitVec 64
/-- How many sectors Silt's private encoding of a block needs, before the bounds of R414 (log 6). -/
opaque siltSectors : Block → Nat
/-- Silt's private encoding: sector n of a block (R414; log 6). -/
opaque siltSector : Block → Nat → BitVec 4096
/-- The free bytes that memory holds after a HILMAP change took effect (R407; log 5). -/
opaque scrambled : Nat → BitVec 8
/-- The 57-byte Ed448 private key derived from fused secrets (R434; log 7). -/
opaque identitySecret : BitVec 456
/-- The 56-byte ephemeral X448 private key of the n-th reset (R434; log 7). -/
opaque ephemeralSecret : Nat → BitVec 448
/-- The fused 64-byte SHAKE256 digest of the vendor key (R433; log 7). -/
opaque vendorDigest : BitVec 512
/-- The fused minimum security version (R433; log 7). -/
opaque minSecurityVersion : BitVec 32
/-- The serial number of the report (R435; log 7). -/
opaque serialNumber : BitVec 32
/-- The certificate chain: its length and its bytes (R430; log 7). -/
opaque certLength : BitVec 16
opaque certByte : Nat → BitVec 8
/-- Where a staged firmware image keeps the parts that R433 names: the manifest's layout is not given (log 7). Each
answers from the image bytes. -/
opaque imageVendorKey : List (BitVec 8) → BitVec 456
opaque imageManifest : List (BitVec 8) → List (BitVec 8)
opaque imageSignature : List (BitVec 8) → BitVec 912
opaque imageSecurityVersion : List (BitVec 8) → BitVec 32
opaque imageComponent : List (BitVec 8) → Nat → List (BitVec 8)
opaque imageDigest : List (BitVec 8) → Nat → BitVec 512
/-- The unit whose training fails at a boot, if one does: unit in [7:0], instance in [15:8] (R433; log 7). -/
opaque trainingFailure : Nat → Option (BitVec 16)

end Sys2Proof.Config
end

