-- ==== Sys2Proof/Syntax.lean ====
section
/-! DEFINITION. The one inductive of instructions: a constructor for every row of the opcode table. A slot word's
constructor holds its predicate `p` (R82), its fields under the table's names, and, where the word owns a literal
(R76), the literal. An engine event's constructor holds what names the event: context c (64 x cluster + 4 x core +
context), cluster cl (16 x die + cluster), home and queue numbers, and the data an outside agent supplies. -/

namespace Sys2Proof

/-- Every instruction word and every engine event of the device. -/
inductive Instr where
  /-- EMPTY_BUNDLE (R81): A header-only bundle with PRESENT = 0 issues as a no-op that advances bundle time. -/
  | emptyBundle (d : Bool) (c : BitVec 2)
  /-- ADD (R109): Writes xa + xb to xd, wrapping, with the 32-bit form selected by W. -/
  | add (p : Pred) (d : BitVec 5) (a : BitVec 5) (b : BitVec 5) (w : Bool)
  /-- SUB (R109): Writes xa − xb to xd, wrapping. -/
  | sub (p : Pred) (d : BitVec 5) (a : BitVec 5) (b : BitVec 5) (w : Bool)
  /-- AND (R109): Writes the bitwise AND of xa and xb to xd. -/
  | and (p : Pred) (d : BitVec 5) (a : BitVec 5) (b : BitVec 5) (w : Bool)
  /-- OR (R109): Writes the bitwise OR of xa and xb to xd. -/
  | or (p : Pred) (d : BitVec 5) (a : BitVec 5) (b : BitVec 5) (w : Bool)
  /-- XOR (R109): Writes the bitwise XOR of xa and xb to xd. -/
  | xor (p : Pred) (d : BitVec 5) (a : BitVec 5) (b : BitVec 5) (w : Bool)
  /-- ANDN (R109): Writes xa AND NOT xb to xd. -/
  | andn (p : Pred) (d : BitVec 5) (a : BitVec 5) (b : BitVec 5) (w : Bool)
  /-- SHL (R109): Shifts xa left by xb[5:0] and writes xd. -/
  | shl (p : Pred) (d : BitVec 5) (a : BitVec 5) (b : BitVec 5) (w : Bool)
  /-- SHR (R109): Shifts xa right with zero fill and writes xd. -/
  | shr (p : Pred) (d : BitVec 5) (a : BitVec 5) (b : BitVec 5) (w : Bool)
  /-- SAR (R109): Shifts xa right with sign fill and writes xd. -/
  | sar (p : Pred) (d : BitVec 5) (a : BitVec 5) (b : BitVec 5) (w : Bool)
  /-- ROL (R109): Rotates xa left within the operand width and writes xd. -/
  | rol (p : Pred) (d : BitVec 5) (a : BitVec 5) (b : BitVec 5) (w : Bool)
  /-- MIN_I (R109): Writes the signed minimum of xa and xb to xd. -/
  | minI (p : Pred) (d : BitVec 5) (a : BitVec 5) (b : BitVec 5) (w : Bool)
  /-- MAX_I (R109): Writes the signed maximum of xa and xb to xd. -/
  | maxI (p : Pred) (d : BitVec 5) (a : BitVec 5) (b : BitVec 5) (w : Bool)
  /-- MIN_N (R109): Writes the unsigned minimum of xa and xb to xd. -/
  | minN (p : Pred) (d : BitVec 5) (a : BitVec 5) (b : BitVec 5) (w : Bool)
  /-- MAX_N (R109): Writes the unsigned maximum of xa and xb to xd. -/
  | maxN (p : Pred) (d : BitVec 5) (a : BitVec 5) (b : BitVec 5) (w : Bool)
  /-- MUL (R109): Writes the low bits of xa × xb to xd with latency 3. -/
  | mul (p : Pred) (d : BitVec 5) (a : BitVec 5) (b : BitVec 5) (w : Bool)
  /-- MULH_I (R109): Writes the high half of the signed product to xd. -/
  | mulhI (p : Pred) (d : BitVec 5) (a : BitVec 5) (b : BitVec 5) (w : Bool)
  /-- MULH_N (R109): Writes the high half of the unsigned product to xd. -/
  | mulhN (p : Pred) (d : BitVec 5) (a : BitVec 5) (b : BitVec 5) (w : Bool)
  /-- DIV_I (R110): Signed division toward zero, with fixed results for a zero divisor and for overflow. -/
  | divI (p : Pred) (d : BitVec 5) (a : BitVec 5) (b : BitVec 5) (w : Bool)
  /-- DIV_N (R110): Unsigned division, giving all ones for a zero divisor. -/
  | divN (p : Pred) (d : BitVec 5) (a : BitVec 5) (b : BitVec 5) (w : Bool)
  /-- REM_I (R110): Signed remainder, taking the dividend's sign. -/
  | remI (p : Pred) (d : BitVec 5) (a : BitVec 5) (b : BitVec 5) (w : Bool)
  /-- REM_N (R110): Unsigned remainder, giving the dividend for a zero divisor. -/
  | remN (p : Pred) (d : BitVec 5) (a : BitVec 5) (b : BitVec 5) (w : Bool)
  /-- CLZ (R109): Counts the leading zero bits of xa into xd. -/
  | clz (p : Pred) (d : BitVec 5) (a : BitVec 5) (w : Bool)
  /-- CTZ (R109): Counts the trailing zero bits of xa into xd. -/
  | ctz (p : Pred) (d : BitVec 5) (a : BitVec 5) (w : Bool)
  /-- POPC (R109): Counts the one bits of xa into xd. -/
  | popc (p : Pred) (d : BitVec 5) (a : BitVec 5) (w : Bool)
  /-- BREV (R109): Reverses the bit order of xa into xd. -/
  | brev (p : Pred) (d : BitVec 5) (a : BitVec 5) (w : Bool)
  /-- BSWAP (R109): Reverses the byte order of xa into xd. -/
  | bswap (p : Pred) (d : BitVec 5) (a : BitVec 5) (w : Bool)
  /-- SEL (R109): Writes xa to xd if the named predicate is true, and xb otherwise. -/
  | sel (p : Pred) (d : BitVec 5) (a : BitVec 5) (b : BitVec 5) (w : Bool) (q : BitVec 3)
  /-- ADDS (R109): Writes xa + (xb << shift) to xd. -/
  | adds (p : Pred) (d : BitVec 5) (a : BitVec 5) (b : BitVec 5) (w : Bool) (s : BitVec 6)
  /-- EXT_I (R111): Extracts a sign-extended bit field of xa into xd. -/
  | extI (p : Pred) (d : BitVec 5) (a : BitVec 5) (b : BitVec 5)
  /-- EXT_N (R111): Extracts a zero-extended bit field of xa into xd. -/
  | extN (p : Pred) (d : BitVec 5) (a : BitVec 5) (b : BitVec 5)
  /-- INS (R111): Inserts the low bits of xa into a field of xd. -/
  | ins (p : Pred) (d : BitVec 5) (a : BitVec 5) (b : BitVec 5)
  /-- CMP (R114): Writes a register comparison result to predicate qd. -/
  | cmp (p : Pred) (q : BitVec 3) (a : BitVec 5) (b : BitVec 5) (w : Bool) (c : BitVec 3)
  /-- ADDI (R112): Writes xa plus the sign-extended immediate to xd. -/
  | addi (p : Pred) (d : BitVec 5) (a : BitVec 5) (i : BitVec 12) (lit : Option Word)
  /-- ANDI (R112): Writes xa AND the sign-extended immediate to xd. -/
  | andi (p : Pred) (d : BitVec 5) (a : BitVec 5) (i : BitVec 12) (lit : Option Word)
  /-- ORI (R112): Writes xa OR the sign-extended immediate to xd. -/
  | ori (p : Pred) (d : BitVec 5) (a : BitVec 5) (i : BitVec 12) (lit : Option Word)
  /-- XORI (R112): Writes xa XOR the sign-extended immediate to xd. -/
  | xori (p : Pred) (d : BitVec 5) (a : BitVec 5) (i : BitVec 12) (lit : Option Word)
  /-- SHLI (R112): Shifts xa left by an immediate amount. -/
  | shli (p : Pred) (d : BitVec 5) (a : BitVec 5) (i : BitVec 12) (lit : Option Word)
  /-- SHRI (R112): Shifts xa right with zero fill by an immediate amount. -/
  | shri (p : Pred) (d : BitVec 5) (a : BitVec 5) (i : BitVec 12) (lit : Option Word)
  /-- SARI (R112): Shifts xa right with sign fill by an immediate amount. -/
  | sari (p : Pred) (d : BitVec 5) (a : BitVec 5) (i : BitVec 12) (lit : Option Word)
  /-- CMPI (R115): Writes the comparison of xa with an immediate to predicate qd. -/
  | cmpi (p : Pred) (c : BitVec 2) (q : BitVec 3) (a : BitVec 5) (i : BitVec 12) (lit : Option Word)
  /-- LI (R113): Writes a sign-extended immediate or literal to xd. -/
  | li (p : Pred) (d : BitVec 5) (i : BitVec 12) (lit : Option Word)
  /-- LIH (R113): Writes the value into bits [63:32] of xd and keeps the low half. -/
  | lih (p : Pred) (d : BitVec 5) (i : BitVec 12) (lit : Option Word)
  /-- QLOG (R116): Writes a truth-table function of two predicates to qd. -/
  | qlog (p : Pred) (d : BitVec 3) (a : BitVec 3) (b : BitVec 3) (t : BitVec 4)
  /-- PBR (R117): Writes a PC-relative bundle target to a b register. -/
  | pbr (p : Pred) (b : BitVec 3) (o : BitVec 19) (lit : Option Word)
  /-- PBX (R117): Writes xa[55:0] to a b register as a target. -/
  | pbx (p : Pred) (b : BitVec 3) (a : BitVec 5)
  /-- BR (R118): Transfers to the target in b after two delay bundles. -/
  | br (p : Pred) (b : BitVec 3)
  /-- CALL (R118): Transfers to b and writes the return header address to xd. -/
  | call (p : Pred) (d : BitVec 5) (b : BitVec 3)
  /-- LOOP (R120): Decrements the count, rotates VROT and KROT, and transfers while the count is non-zero. -/
  | loop (p : Pred) (b : BitVec 3) (a : BitVec 5)
  /-- VANY (R122): Sets qd when any lane of ka AND kb is set. -/
  | vany (p : Pred) (d : BitVec 3) (a : BitVec 4) (b : BitVec 4)
  /-- VALL (R122): Sets qd when every lane of kb is set in ka. -/
  | vall (p : Pred) (d : BitVec 3) (a : BitVec 4) (b : BitVec 4)
  /-- TEND (R123): Ends the issuing member once its interlocked operations complete. -/
  | tend (p : Pred)
  /-- TRAP (R124): Traps with cause 0xF0 + n. -/
  | trap (p : Pred) (c : BitVec 12) (lit : Option Word)
  /-- BRK (R124): Traps with BREAKPOINT, or halts when BRKHALT is set. -/
  | brk (p : Pred) (c : BitVec 12)
  /-- NAP (R126): Pauses the context for xa + imm cycles, advancing bundle time. -/
  | nap (p : Pred) (a : BitVec 5) (i : BitVec 12) (lit : Option Word)
  /-- SRD (R127): Reads a special register into xd, with privilege checks. -/
  | srd (p : Pred) (d : BitVec 5) (r : BitVec 12) (lit : Option Word)
  /-- SWR (R127): Writes xa to a special register, with privilege checks. -/
  | swr (p : Pred) (a : BitVec 5) (r : BitVec 12) (lit : Option Word)
  /-- FENCE (R133): Stalls later successor-set accesses until predecessor-set accesses are complete at the fence's scope. -/
  | fence (p : Pred) (c : BitVec 2) (e : BitVec 5) (f : BitVec 5)
  /-- TRET (R134): Returns to task mode at TPC and restores any pending transfer. -/
  | tret (p : Pred)
  /-- TRET_SKIP (R134): Returns to task mode at the bundle after TPC's bundle. -/
  | tretSkip (p : Pred)
  /-- TRET_END (R134): Ends the member, as tend does. -/
  | tretEnd (p : Pred)
  /-- TRET_TO (R134): Returns to task mode at xa[55:0] and clears TXFER.V. -/
  | tretTo (p : Pred) (a : BitVec 5)
  /-- SYS (R124): Traps with SYS_CALL, carrying the service number. -/
  | sys (p : Pred) (s : BitVec 12) (lit : Option Word)
  /-- XTOV_BC (R157): Broadcasts xa, cast to the type, into every lane of vd. -/
  | xtovBc (p : Pred) (v : BitVec 6) (x : BitVec 5) (t : ElemType)
  /-- XTOV_INS (R157): Writes xa, cast to the type, into one lane of vd. -/
  | xtovIns (p : Pred) (v : BitVec 6) (x : BitVec 5) (l : BitVec 6) (t : ElemType)
  /-- VTOX (R157): Widens lane l of va into xd. -/
  | vtox (p : Pred) (v : BitVec 6) (x : BitVec 5) (l : BitVec 6) (t : ElemType)
  /-- VTOX_R (R157): Widens the lane of va that xb selects into xd. -/
  | vtoxR (p : Pred) (v : BitVec 6) (x : BitVec 5) (b : BitVec 5) (t : ElemType)
  /-- KTOX (R157): Copies mask ka into xd. -/
  | ktox (p : Pred) (k : BitVec 4) (x : BitVec 5)
  /-- XTOK (R157): Copies xa into mask kd. -/
  | xtok (p : Pred) (k : BitVec 4) (x : BitVec 5)
  /-- SPAWN (R316): Starts a co-task on an idle sibling context, or traps with SPAWN_BUSY. -/
  | spawn (p : Pred) (b : BitVec 3) (c : BitVec 2) (a : BitVec 5)
  /-- BINIT (R264): Initialises a barrier object with EXPECTED := xb. -/
  | binit (p : Pred) (a : BitVec 5) (b : BitVec 5)
  /-- BARRIVE (R264): Counts one arrival at a barrier and tests the object for a flip. -/
  | barrive (p : Pred) (a : BitVec 5)
  /-- BEXPECT (R264): Adds xb bytes to a barrier's PENDING. -/
  | bexpect (p : Pred) (a : BitVec 5) (b : BitVec 5)
  /-- BWAIT (R264): Waits for a phase flip or a fault, then writes qd := not FAULT. -/
  | bwait (p : Pred) (q : BitVec 3) (a : BitVec 5) (b : BitVec 5)
  /-- BTEST (R264): Samples half of a barrier object into xd. -/
  | btest (p : Pred) (d : BitVec 5) (a : BitVec 5) (h : Bool)
  /-- BRESET (R270): Waits for the object's copies to end, then clears its counts and fault while keeping PHASE. -/
  | breset (p : Pred) (a : BitVec 5)
  /-- TOKSIG (R318): Adds tokens to a token word at its home, as a release. -/
  | toksig (p : Pred) (a : BitVec 5) (b : BitVec 5)
  /-- TOKWAIT (R319): Takes one token at home, waiting while there is none, as an acquire. -/
  | tokwait (p : Pred) (d : BitVec 5) (a : BitVec 5)
  /-- GSTART (R321): Creates a graph instance on the die's Beacon. -/
  | gstart (p : Pred) (a : BitVec 5) (b : BitVec 5)
  /-- LEASE_REQ (R367): Requests a wavelength-channel lease toward a peer and returns the lease word. -/
  | leaseReq (p : Pred) (d : BitVec 5) (a : BitVec 5) (b : BitVec 5) (c : BitVec 5)
  /-- LEASE_REL (R372): Ends or frees a lease of the space. -/
  | leaseRel (p : Pred) (a : BitVec 5)
  /-- LEASE_QRY (R373): Returns a lease word. -/
  | leaseQry (p : Pred) (d : BitVec 5) (a : BitVec 5)
  /-- MQPUSH (R397): Forms a queue packet from vector lanes and appends it to a guest queue. -/
  | mqpush (p : Pred) (v : BitVec 6) (s : BitVec 3)
  /-- MQSTAT (R397): Returns a guest queue's status word. -/
  | mqstat (p : Pred) (d : BitVec 5) (s : BitVec 3)
  /-- SBIND (R214): Binds a stream for reading to a tile meeting the requirement, parking on a miss. -/
  | sbind (p : Pred) (w : BitVec 4) (a : BitVec 5) (b : BitVec 5) (r : BitVec 2) (h : BitVec 2)
  /-- SPROBE (R215): Makes a local lookup that binds on a hit and never parks. -/
  | sprobe (p : Pred) (w : BitVec 4) (a : BitVec 5) (b : BitVec 5) (h : BitVec 2) (q : BitVec 3) (f : Bool)
  /-- SNEW (R216): Asks the home for an open version and binds it read-write. -/
  | snew (p : Pred) (w : BitVec 4) (a : BitVec 5) (b : BitVec 5) (c : Bool) (x : Bool)
  /-- SPUB (R217): Publishes the open version bound to the stream. -/
  | spub (p : Pred) (w : BitVec 4)
  /-- SREL (R218): Releases a stream binding, abandoning an open version. -/
  | srel (p : Pred) (w : BitVec 4)
  /-- SPIN (R219): Adds one spin to the slot bound to the stream. -/
  | spin (p : Pred) (w : BitVec 4)
  /-- SPIN_REF (R219): Resolves a tile by reference, parking on a miss, and adds one spin. -/
  | spinRef (p : Pred) (a : BitVec 5) (b : BitVec 5) (r : BitVec 2) (h : BitVec 2)
  /-- SUNPIN (R219): Removes one spin of this task from the slot bound to the stream. -/
  | sunpin (p : Pred) (w : BitVec 4)
  /-- SUNPIN_REF (R219): Removes one spin of this task on a tile named by reference. -/
  | sunpinRef (p : Pred) (a : BitVec 5) (b : BitVec 5)
  /-- SSEEK (R220): Sets a stream's cursor. -/
  | sseek (p : Pred) (w : BitVec 4) (a : BitVec 5) (i : BitVec 12) (lit : Option Word)
  /-- SINFO (R221): Reads part of a stream register, tag or scale field into xd. -/
  | sinfo (p : Pred) (d : BitVec 5) (w : BitVec 4) (t : BitVec 4)
  /-- SEDGE (R222): Clears bits of a stream's edge masks. -/
  | sedge (p : Pred) (w : BitVec 4) (a : BitVec 5) (b : BitVec 5)
  /-- TLDV (R223): Loads the cursor group of a bound tile into a vector. -/
  | tldv (p : Pred) (v : BitVec 6) (w : BitVec 4) (k : BitVec 4) (h : Bool)
  /-- TSTV (R224): Stores vector lanes into the cursor group of an open tile, re-encoding D8 blocks as needed. -/
  | tstv (p : Pred) (v : BitVec 6) (w : BitVec 4) (k : BitVec 4) (h : Bool)
  /-- TLDX (R225): Loads a tile column into a vector. -/
  | tldx (p : Pred) (v : BitVec 6) (w : BitVec 4) (k : BitVec 4) (a : BitVec 5)
  /-- TWB (R226): Writes back a DIRTY bound slot. -/
  | twb (p : Pred) (w : BitVec 4)
  /-- TPREF (R227): Starts a prefetch itinerary walk. -/
  | tpref (p : Pred) (a : BitVec 5) (i : BitVec 12) (lit : Option Word)
  /-- WAYCONV (R228): Converts Loam ways into cluster scratch. -/
  | wayconv (p : Pred) (d : BitVec 5) (i : BitVec 12) (lit : Option Word)
  /-- WAYREST (R228): Returns converted ways to caching. -/
  | wayrest (p : Pred) (d : BitVec 5) (i : BitVec 12) (lit : Option Word)
  /-- LDS (R230): Loads from cluster scratch into xd. -/
  | lds (p : Pred) (d : BitVec 5) (a : BitVec 5) (z : BitVec 2) (s : Bool) (o : BitVec 9) (lit : Option Word)
  /-- STS (R230): Stores xs into cluster scratch. -/
  | sts (p : Pred) (d : BitVec 5) (a : BitVec 5) (z : BitVec 2) (o : BitVec 9) (lit : Option Word)
  /-- LD (R247): Loads a linear value into xd under the selected policy. -/
  | ld (p : Pred) (d : BitVec 5) (a : BitVec 5) (z : BitVec 2) (s : Bool) (l : Policy) (o : Bool) (f : BitVec 6) (lit : Option Word)
  /-- LDP (R247): Loads at xa and post-increments xa. -/
  | ldp (p : Pred) (d : BitVec 5) (a : BitVec 5) (z : BitVec 2) (s : Bool) (l : Policy) (o : Bool) (f : BitVec 6) (lit : Option Word)
  /-- ST (R247): Stores xs to linear memory. -/
  | st (p : Pred) (d : BitVec 5) (a : BitVec 5) (z : BitVec 2) (l : Policy) (o : Bool) (f : BitVec 6) (lit : Option Word)
  /-- STP (R247): Stores at xa and post-increments xa. -/
  | stp (p : Pred) (d : BitVec 5) (a : BitVec 5) (z : BitVec 2) (l : Policy) (o : Bool) (f : BitVec 6) (lit : Option Word)
  /-- VLD (R250): Loads strided vector lanes. -/
  | vld (p : Pred) (v : BitVec 6) (k : BitVec 4) (a : BitVec 5) (b : BitVec 5) (z : BitVec 2)
  /-- VGLD (R250): Gathers vector lanes by index. -/
  | vgld (p : Pred) (v : BitVec 6) (k : BitVec 4) (a : BitVec 5) (b : BitVec 5) (z : BitVec 2)
  /-- VST (R250): Stores strided vector lanes. -/
  | vst (p : Pred) (v : BitVec 6) (k : BitVec 4) (a : BitVec 5) (b : BitVec 5) (z : BitVec 2)
  /-- VSST (R250): Scatters vector lanes by index. -/
  | vsst (p : Pred) (v : BitVec 6) (k : BitVec 4) (a : BitVec 5) (b : BitVec 5) (z : BitVec 2)
  /-- AMO (R254): Performs an atomic read-modify-write at the home and returns the old value. -/
  | amo (p : Pred) (d : BitVec 5) (a : BitVec 5) (b : BitVec 5) (o : AtomicOp) (z : Bool) (r : BitVec 2)
  /-- CAS (R255): Compares and swaps at the home and returns the old value. -/
  | cas (p : Pred) (d : BitVec 5) (a : BitVec 5) (b : BitVec 5) (z : Bool) (r : BitVec 2)
  /-- VAMO (R256): Performs one 4-byte atomic for each active lane. -/
  | vamo (p : Pred) (v : BitVec 5) (a : BitVec 5) (i : BitVec 5) (k : BitVec 3) (o : AtomicOp)
  /-- MCAS (R258): Performs a multi-location compare and swap as one event. -/
  | mcas (p : Pred) (d : BitVec 5) (a : BitVec 5) (c : BitVec 3)
  /-- RWB (R259): Writes back the lines of a range in the core's line cache. -/
  | rwb (p : Pred) (a : BitVec 5) (b : BitVec 5)
  /-- RINV (R259): Invalidates the lines of a range, discarding untracked dirty bytes. -/
  | rinv (p : Pred) (a : BitVec 5) (b : BitVec 5)
  /-- RWBINV (R259): Writes back and invalidates the lines of a range. -/
  | rwbinv (p : Pred) (a : BitVec 5) (b : BitVec 5)
  /-- RSTF (R376): Writes vector lanes at a data home, then increments a flag as a release. -/
  | rstf (p : Pred) (v : BitVec 6) (k : BitVec 4) (a : BitVec 5) (b : BitVec 5)
  /-- ACOPY (R262): Checks a copy descriptor and hands the copy to the cluster's async copy unit. -/
  | acopy (p : Pred) (a : BitVec 5) (i : BitVec 12) (lit : Option Word)
  /-- PFL (R260): Prefetches a line into the line cache. -/
  | pfl (p : Pred) (e : Bool) (a : BitVec 5) (i : BitVec 12) (lit : Option Word)
  /-- VADD (R140): Adds two vectors lane by lane. -/
  | vadd (k : BitVec 4) (d : BitVec 6) (a : BitVec 6) (b : BitVec 6) (t : ElemType)
  /-- VSUB (R140): Subtracts two vectors lane by lane. -/
  | vsub (k : BitVec 4) (d : BitVec 6) (a : BitVec 6) (b : BitVec 6) (t : ElemType)
  /-- VMUL (R140): Multiplies two vectors lane by lane. -/
  | vmul (k : BitVec 4) (d : BitVec 6) (a : BitVec 6) (b : BitVec 6) (t : ElemType)
  /-- VFMA (R140): Computes a fused multiply-add into vd. -/
  | vfma (k : BitVec 4) (d : BitVec 6) (a : BitVec 6) (b : BitVec 6) (t : ElemType)
  /-- VFMS (R140): Computes d − a × b with one rounding. -/
  | vfms (k : BitVec 4) (d : BitVec 6) (a : BitVec 6) (b : BitVec 6) (t : ElemType)
  /-- VMIN (R140): Takes the lane-wise minimum. -/
  | vmin (k : BitVec 4) (d : BitVec 6) (a : BitVec 6) (b : BitVec 6) (t : ElemType)
  /-- VMAX (R140): Takes the lane-wise maximum. -/
  | vmax (k : BitVec 4) (d : BitVec 6) (a : BitVec 6) (b : BitVec 6) (t : ElemType)
  /-- VABS (R141): Takes the lane-wise absolute value. -/
  | vabs (k : BitVec 4) (d : BitVec 6) (a : BitVec 6) (t : ElemType)
  /-- VNEG (R141): Negates each lane. -/
  | vneg (k : BitVec 4) (d : BitVec 6) (a : BitVec 6) (t : ElemType)
  /-- VABD (R140): Takes the lane-wise absolute difference. -/
  | vabd (k : BitVec 4) (d : BitVec 6) (a : BitVec 6) (b : BitVec 6) (t : ElemType)
  /-- VADDS (R140): Adds lane by lane with saturation. -/
  | vadds (k : BitVec 4) (d : BitVec 6) (a : BitVec 6) (b : BitVec 6) (t : ElemType)
  /-- VSUBS (R140): Subtracts lane by lane with saturation. -/
  | vsubs (k : BitVec 4) (d : BitVec 6) (a : BitVec 6) (b : BitVec 6) (t : ElemType)
  /-- VMULH (R140): Takes the high half of each lane product. -/
  | vmulh (k : BitVec 4) (d : BitVec 6) (a : BitVec 6) (b : BitVec 6) (t : ElemType)
  /-- VSHL (R142): Shifts each lane left by a per-lane amount. -/
  | vshl (k : BitVec 4) (d : BitVec 6) (a : BitVec 6) (b : BitVec 6) (t : ElemType)
  /-- VSHR (R142): Shifts each lane right with zero fill by a per-lane amount. -/
  | vshr (k : BitVec 4) (d : BitVec 6) (a : BitVec 6) (b : BitVec 6) (t : ElemType)
  /-- VSAR (R142): Shifts each lane right with sign fill by a per-lane amount. -/
  | vsar (k : BitVec 4) (d : BitVec 6) (a : BitVec 6) (b : BitVec 6) (t : ElemType)
  /-- VAND (R143): Takes the bitwise AND of the lane containers. -/
  | vand (k : BitVec 4) (d : BitVec 6) (a : BitVec 6) (b : BitVec 6) (t : ElemType)
  /-- VOR (R143): Takes the bitwise OR of the lane containers. -/
  | vor (k : BitVec 4) (d : BitVec 6) (a : BitVec 6) (b : BitVec 6) (t : ElemType)
  /-- VXOR (R143): Takes the bitwise XOR of the lane containers. -/
  | vxor (k : BitVec 4) (d : BitVec 6) (a : BitVec 6) (b : BitVec 6) (t : ElemType)
  /-- VANDN (R143): Takes a AND NOT b of the lane containers. -/
  | vandn (k : BitVec 4) (d : BitVec 6) (a : BitVec 6) (b : BitVec 6) (t : ElemType)
  /-- VPOPC (R141): Counts the one bits of each lane. -/
  | vpopc (k : BitVec 4) (d : BitVec 6) (a : BitVec 6) (t : ElemType)
  /-- VCLZ (R141): Counts the leading zero bits of each lane. -/
  | vclz (k : BitVec 4) (d : BitVec 6) (a : BitVec 6) (t : ElemType)
  /-- VCEQ (R144): Writes a lane-wise equality mask. -/
  | vceq (k : BitVec 4) (d : BitVec 4) (a : BitVec 6) (b : BitVec 6) (t : ElemType)
  /-- VCNE (R144): Writes a lane-wise inequality mask. -/
  | vcne (k : BitVec 4) (d : BitVec 4) (a : BitVec 6) (b : BitVec 6) (t : ElemType)
  /-- VCLT (R144): Writes a lane-wise less-than mask. -/
  | vclt (k : BitVec 4) (d : BitVec 4) (a : BitVec 6) (b : BitVec 6) (t : ElemType)
  /-- VCLE (R144): Writes a lane-wise less-or-equal mask. -/
  | vcle (k : BitVec 4) (d : BitVec 4) (a : BitVec 6) (b : BitVec 6) (t : ElemType)
  /-- VSEL (R145): Selects va or vb in each lane by a mask. -/
  | vsel (k : BitVec 4) (d : BitVec 6) (a : BitVec 6) (b : BitVec 6) (t : ElemType)
  /-- VMOV (R145): Copies the containers of the active lanes. -/
  | vmov (k : BitVec 4) (d : BitVec 6) (a : BitVec 6) (t : ElemType)
  /-- VIMM (R146): Writes an immediate or literal into the active lanes. -/
  | vimm (k : BitVec 4) (d : BitVec 6) (i : BitVec 6) (t : ElemType) (lit : Option Word)
  /-- VIOTA (R146): Writes base + lane index into each active lane. -/
  | viota (k : BitVec 4) (d : BitVec 6) (i : BitVec 6) (t : ElemType) (lit : Option Word)
  /-- VCVT (R147): Converts each active lane between element types. -/
  | vcvt (k : BitVec 4) (d : BitVec 6) (a : BitVec 6) (m : RMode) (s : ElemType) (t : ElemType)
  /-- VRND (R148): Rounds each active float lane to an integral value. -/
  | vrnd (k : BitVec 4) (d : BitVec 6) (a : BitVec 6) (m : RMode) (t : ElemType)
  /-- VEXP2 (R149): Computes 2^a in each bf lane. -/
  | vexp2 (k : BitVec 4) (d : BitVec 6) (a : BitVec 6) (t : ElemType)
  /-- VLOG2 (R149): Computes log2(a) in each bf lane. -/
  | vlog2 (k : BitVec 4) (d : BitVec 6) (a : BitVec 6) (t : ElemType)
  /-- VRCP (R149): Computes 1/a in each bf lane. -/
  | vrcp (k : BitVec 4) (d : BitVec 6) (a : BitVec 6) (t : ElemType)
  /-- VRSQ (R149): Computes 1/√a in each bf lane. -/
  | vrsq (k : BitVec 4) (d : BitVec 6) (a : BitVec 6) (t : ElemType)
  /-- VREDSUM (R150): Sums the lanes in tree order into every lane of vd. -/
  | vredsum (k : BitVec 4) (d : BitVec 6) (a : BitVec 6) (t : ElemType)
  /-- VREDMIN (R150): Reduces the lanes to their minimum. -/
  | vredmin (k : BitVec 4) (d : BitVec 6) (a : BitVec 6) (t : ElemType)
  /-- VREDMAX (R150): Reduces the lanes to their maximum. -/
  | vredmax (k : BitVec 4) (d : BitVec 6) (a : BitVec 6) (t : ElemType)
  /-- VSCAN (R151): Forms an inclusive scan of the lanes. -/
  | vscan (k : BitVec 4) (d : BitVec 6) (a : BitVec 6) (o : BitVec 2) (t : ElemType)
  /-- VPERM (R152): Permutes lanes of va by the indices in vb. -/
  | vperm (k : BitVec 4) (d : BitVec 6) (a : BitVec 6) (b : BitVec 6) (t : ElemType)
  /-- VSLIDE (R152): Slides lanes of va by an immediate. -/
  | vslide (k : BitVec 4) (d : BitVec 6) (a : BitVec 6) (i : BitVec 6) (t : ElemType) (lit : Option Word)
  /-- VTOPK (R154): Merges (score, id) pairs and keeps the best 64. -/
  | vtopk (k : BitVec 4) (d : BitVec 6) (a : BitVec 6) (t : ElemType)
  /-- VBSET (R153): Writes 1 << (vb & 31) into each active lane. -/
  | vbset (k : BitVec 4) (d : BitVec 6) (b : BitVec 6)
  /-- VKAND (R155): Writes the AND of two masks. -/
  | vkand (d : BitVec 4) (a : BitVec 4) (b : BitVec 4)
  /-- VKOR (R155): Writes the OR of two masks. -/
  | vkor (d : BitVec 4) (a : BitVec 4) (b : BitVec 4)
  /-- VKXOR (R155): Writes the XOR of two masks. -/
  | vkxor (d : BitVec 4) (a : BitVec 4) (b : BitVec 4)
  /-- VKANDN (R155): Writes ka AND NOT kb. -/
  | vkandn (d : BitVec 4) (a : BitVec 4) (b : BitVec 4)
  /-- VKPOP (R155): Writes a mask's popcount to every lane. -/
  | vkpop (d : BitVec 6) (a : BitVec 4)
  /-- VKFIRST (R155): Writes the index of a mask's lowest set bit to every lane. -/
  | vkfirst (d : BitVec 6) (a : BitVec 4)
  /-- VSHLI (R142): Shifts each lane left by an immediate. -/
  | vshli (k : BitVec 4) (d : BitVec 6) (a : BitVec 6) (i : BitVec 6) (t : ElemType) (lit : Option Word)
  /-- VSHRI (R142): Shifts each lane right with zero fill by an immediate. -/
  | vshri (k : BitVec 4) (d : BitVec 6) (a : BitVec 6) (i : BitVec 6) (t : ElemType) (lit : Option Word)
  /-- VSARI (R142): Shifts each lane right with sign fill by an immediate. -/
  | vsari (k : BitVec 4) (d : BitVec 6) (a : BitVec 6) (i : BitVec 6) (t : ElemType) (lit : Option Word)
  /-- MPASS (R170): Loads or reuses the latches and starts a 32-step matrix pass into an accumulator. -/
  | mpass (p : Pred) (a : BitVec 2) (w : BitVec 4) (b : BitVec 4) (o : CellOp) (k : Bool) (j : Bool)
  /-- MOP (R171): Changes the cell operation in force for the current pass. -/
  | mop (p : Pred) (o : CellOp)
  /-- MGATH (R172): Gathers 64 tile rows into the A latch by index. -/
  | mgath (p : Pred) (v : BitVec 6) (w : BitVec 4) (k : BitVec 4)
  /-- MINIT (R174): Writes every element of an accumulator and sets its KIND. -/
  | minit (p : Pred) (a : BitVec 2) (s : BitVec 2) (i : Bool) (x : BitVec 5)
  /-- MRD (R175): Reads an accumulator row into a vector. -/
  | mrd (p : Pred) (a : BitVec 2) (r : BitVec 6) (t : ElemType) (v : BitVec 6) (k : BitVec 4)
  /-- MWR (R175): Writes an accumulator row from a vector. -/
  | mwr (p : Pred) (a : BitVec 2) (r : BitVec 6) (t : ElemType) (v : BitVec 6) (k : BitVec 4)
  /-- MST (R176): Stores an accumulator region into a writable tile. -/
  | mst (p : Pred) (a : BitVec 2) (w : BitVec 4) (q : BitVec 2)
  /-- MQPUSH_FULL_TIMEOUT (R397): A push has stalled 4,096 cycles on a full queue, and it traps with GUEST_QUEUE. -/
  | mqpushFullTimeout (c : Nat)
  /-- MCAS_LOCK_TIMEOUT (R258): Locks held for 2 µs without compare are released and xd is deferred with MCAS_ABORT. -/
  | mcasLockTimeout (m : Nat)
  /-- MST_COMPLETE (R176): The 32-cycle store ends and releases waiting T and M words. -/
  | mstComplete (c : Nat)
  /-- INTERLOCKED_COMPLETION (R94): An interlocked operation completes into its destination and clears the scoreboard. -/
  | interlockedCompletion (c : Nat) (id : Nat)
  /-- LANTERN_ACCEPT (R27): Lantern accepts a descriptor, checks it and its maps, and sends its input requests. -/
  | lanternAccept (cl : Nat) (desc : BitVec 512) (addr : Dbl) (graph : (Option NodeRef))
  /-- INPUT_ARRIVAL (R323): A requested input arrives in Loam with a retained pin. -/
  | inputArrival (cl : Nat) (entry : Nat) (map : Nat)
  /-- TASK_DISPATCH (R325): Lantern dispatches the highest-ranked ready task that fits to a context. -/
  | taskDispatch (cl : Nat)
  /-- CLASS_AGEING (R324): A class 1 to 3 task ready for 10 ms is promoted one class. -/
  | classAgeing (cl : Nat) (entry : Nat)
  /-- CLASS0_PREEMPT_DECISION (R326): Lantern chooses class 1 to 3 victims to pre-empt for a class-0 task that fits nowhere. -/
  | class0PreemptDecision (cl : Nat) (entry : Nat)
  /-- VERSION_WAIT_TIMEOUT (R32): A wait for a version exceeds the space's VWAIT and the bind or input traps. -/
  | versionWaitTimeout (u : TileUser)
  /-- PARKED_TASK_RESUME (R32): The awaited tile is served and the parked bundle is presented again. -/
  | parkedTaskResume (c : Nat)
  /-- MEMBER_END (R123): A member ends once every interlocked operation it issued has completed. -/
  | memberEnd (c : Nat)
  /-- PREEMPTION (R40): A task is stopped, drained, saved to its record and freed from its core. -/
  | preemption (cl : Nat) (entry : Nat)
  /-- SAVE_RECORD_COMPLETE (R41): The last in-flight interlocked result reaches the save record, making the task eligible to be ready. -/
  | saveRecordComplete (cl : Nat) (entry : Nat)
  /-- TASK_RESUME (R342): A pre-empted member's record is restored after its retained versions are re-acquired. -/
  | taskResume (cl : Nat) (entry : Nat)
  /-- LOAM_ALLOCATION (R204): An allocation chooses a victim slot or is served from the slice's allocation queue. -/
  | loamAllocation (cl : Nat) (slice : Nat)
  /-- ALLOCATION_TIMEOUT (R204): A bind's allocation waiting 4,096 cycles is refused with LOAM_PIN_OVERFLOW. -/
  | allocationTimeout (cl : Nat) (id : Nat)
  /-- HOME_TILE_REQUEST (R193): The home Daymark resolves a tile request by fill, forward, await or refusal. -/
  | homeTileRequest (r : TileReq)
  /-- AWAIT_LIST_RETRY (R194): A refused request's back-off expires and the fill engine retries. -/
  | awaitListRetry (r : TileReq) (wait : Nat)
  /-- TILE_FILL (R199): A fill completes, converting memory into the slot. -/
  | tileFill (cl : Nat) (slot : Nat)
  /-- TILE_FORWARD (R193): A forward order reaches a holder, which copies its slot or replies absent. -/
  | tileForward (r : TileReq) (holder : Nat) (v : BitVec 32)
  /-- SNEW_AT_HOME (R195): The home grants or refuses an open version. -/
  | snewAtHome (c : Nat) (tile : TileId) (n : BitVec 32) (next : Bool)
  /-- PUBLISH_AT_HOME (R195): A publish sets P and serves the awaiting list. -/
  | publishAtHome (tile : TileId) (v : BitVec 32) (cl : Nat)
  /-- ABANDON_AT_HOME (R195): An abandon message clears the tile's open version at home. -/
  | abandonAtHome (tile : TileId) (v : BitVec 32)
  /-- TILE_WRITEBACK_MERGE (R196): A tile write-back is merged or discarded at home by version. -/
  | tileWritebackMerge (cl : Nat) (slot : Nat)
  /-- WAYCONV_PIN_TIMEOUT (R207): Pins still held after 65,536 cycles make the conversion fail with WAYCONV_DENIED. -/
  | wayconvPinTimeout (cl : Nat)
  /-- WAY_WAKE (R209): A gated way finishes waking with zeroed storage and INVALID tags. -/
  | wayWake (cl : Nat) (slice : Nat) (way : Nat)
  /-- ITINERARY_ENTRY (R205): The fill engine takes the next itinerary entry and prefetches its tile. -/
  | itineraryEntry (cl : Nat) (id : Nat)
  /-- LINE_WRITE_MISS (R239): The home invalidates other copies and grants M. -/
  | lineWriteMiss (core : Nat) (id : Nat)
  /-- COPY_UNIT_LANDS (R262): A copy's destination unit lands and decrements its barrier's PENDING. -/
  | copyUnitLands (cl : Nat) (copy : Nat)
  /-- BWAIT_POLL (R268): A bwait without a waiter-table entry polls its object when its interval expires. -/
  | bwaitPoll (c : Nat) (id : Nat)
  /-- LAUNCH_NODE (R306): A ready LAUNCH node clears CNT, sets a watch and creates one task per coordinate. -/
  | launchNode (b : NodeRef)
  /-- IF_NODE (R304): A ready IF node reads its condition and sends one arrival. -/
  | ifNode (b : NodeRef)
  /-- WHILE_NODE (R304): A ready WHILE node reads its condition and opens a body level or finishes. -/
  | whileNode (b : NodeRef)
  /-- SWITCH_NODE (R304): A ready SWITCH node sends an arrival to the selected list entry. -/
  | switchNode (b : NodeRef)
  /-- SIGNAL_NODE (R304): A ready SIGNAL node adds tokens to its token word. -/
  | signalNode (b : NodeRef)
  /-- WAIT_NODE (R304): A ready WAIT node takes a token from its token word. -/
  | waitNode (b : NodeRef)
  /-- CALL_NODE (R304): A ready CALL node opens a level at BODY. -/
  | callNode (b : NodeRef)
  /-- END_NODE (R304): An END node ends its level once every ready node has finished. -/
  | endNode (b : NodeRef)
  /-- LAUNCH_WATCH_MET (R306): A write at home leaves the counter at the watched value and the LAUNCH node finishes. -/
  | launchWatchMet (b : NodeRef)
  /-- LIVE_NODE_TIMEOUT (R305): No live-node entry is free within 2 ms, so the instance fails. -/
  | liveNodeTimeout (b : NodeRef)
  /-- CMD_START (R314): A START entry creates a graph instance. -/
  | cmdStart (q : BitVec 6)
  /-- CMD_TASK (R314): A TASK entry hands a descriptor to a placed Lantern. -/
  | cmdTask (q : BitVec 6)
  /-- CMD_SIGNAL (R314): A SIGNAL entry adds tokens to a token word. -/
  | cmdSignal (q : BitVec 6)
  /-- TOKEN_WAIT_RETRY (R319): A tokwait refused for a full waiter list retries when its back-off expires. -/
  | tokenWaitRetry (id : Nat) (wait : Nat)
  /-- TOKEN_REEXAMINE (R319): Listed token waiters are re-examined every 8,192 cycles. -/
  | tokenReexamine (gpa : Nat)
  /-- TRANSACTION_RESEND (R360): No completion after 50 µs makes the source resend the transaction. -/
  | transactionResend (id : Nat)
  /-- FABRIC_TIMEOUT (R360): No completion after 200 µs ends the transaction with FABRIC_TIMEOUT. -/
  | fabricTimeout (id : Nat)
  /-- LEASE_HEAD_GRANT (R369): A queued lease reaching the head with free channels starts negotiation. -/
  | leaseHeadGrant (dim : Bool)
  /-- LEASE_TUNED (R369): Both ends have retuned and the lease becomes ACTIVE. -/
  | leaseTuned (id : BitVec 8)
  /-- LEASE_TERM_EXPIRY (R369): REMAIN reaches 0 and the lease goes to ENDING. -/
  | leaseTermExpiry (id : BitVec 8)
  /-- LEASE_NOTICE_EXPIRY (R369): 10 µs of notice pass and the lease goes to ENDING. -/
  | leaseNoticeExpiry (id : BitVec 8)
  /-- LEASE_DRAINED (R369): In-flight flits drain and the channels retune home, ending the lease. -/
  | leaseDrained (id : BitVec 8)
  /-- LEASE_QUEUE_EXPIRY (R369): A queued lease's term elapses and it is refused with reason 6. -/
  | leaseQueueExpiry (id : BitVec 8)
  /-- LEASE_ENTRY_TIMEOUT (R369): An ENDED or REFUSED entry is freed 10 ms later. -/
  | leaseEntryTimeout (id : BitVec 8)
  /-- GUEST_PREEMPT_LATE (R401): STOPPED or SAVED misses its deadline and the port fences the guest. -/
  | guestPreemptLate (space : BitVec 6)
  /-- ROW_REPAIR (R422): A row reaching 16 corrected errors in 24 hours is repaired to a spare row. -/
  | rowRepair (ch : BitVec 8) (row : Nat) (last : Bool)
  /-- NAP_END (R126): The pause count expires and the bundle after the nap becomes eligible to issue. -/
  | napEnd (c : Nat)
  /-- MPASS_LANDS (R165): A pass lands its result at p + 38 and updates PDONE and SAT. -/
  | mpassLands (c : Nat)
  /-- AGE_OVERRIDE (R106): A ready context's wait count reaches 64 and it is made primary in an override cycle. -/
  | ageOverride (core : Nat)
  /-- GUEST_COHERENT_REQUEST (R398): A guest memory request is translated and checked by the Mooring unit. -/
  | guestCoherentRequest (q : BitVec 3) (idx : BitVec 8) (space : BitVec 6) (va : Dbl) (write : Bool) (data : BitVec 1024) (mask : BitVec 128)
  /-- EXPOSED_RESULT_LANDS (R93): An exposed result lands when its context's bundle time reaches issue time plus latency. -/
  | exposedResultLands (c : Nat)
  /-- DEFERRED_FAILURE (R332): An interlocked operation fails after issue and marks its destination deferred. -/
  | deferredFailure (c : Nat) (id : Nat) (f : FaultInfo)
  /-- TRAP_ENTRY (R331): The context drains, sets trap state and enters supervisor mode at TRAPVEC. -/
  | trapEntry (c : Nat) (f : FaultInfo)
  /-- WAY_GATE (R209): Firmware empties and power-gates a way. -/
  | wayGate (cl : Nat) (slice : Nat) (way : Nat)
  /-- LINE_READ_MISS (R239): The home serves a tracked read miss, recalling an M copy. -/
  | lineReadMiss (core : Nat) (line : Nat)
  /-- LINE_INVALIDATION (R240): A core receives an invalidation and acknowledges it. -/
  | lineInvalidation (core : Nat) (line : Nat)
  /-- LINE_EVICTION (R239): A line leaves a line cache, writing back an M line or untracked dirty bytes. -/
  | lineEviction (core : Nat) (line : Nat)
  /-- BYTE_MASK_MERGE (R242): The home merges an untracked line's dirty bytes. -/
  | byteMaskMerge (line : Nat) (mask : BitVec 128) (data : BitVec 1024)
  /-- COPY_FAULT (R266): A copy meets a fault, stops and faults its barrier. -/
  | copyFault (cl : Nat) (copy : Nat) (cause : BitVec 8)
  /-- QTAIL_DOORBELL (R310): A write of QTAIL makes the device read new queue entries. -/
  | qtailDoorbell (q : BitVec 6) (tail : BitVec 32)
  /-- DBGCTL_HALTREQ (R343): A write of HALTREQ requests a halt at the next bundle boundary. -/
  | dbgctlHaltreq (c : Nat)
  /-- DBGCTL_RESUME (R343): A write of RESUME ends a context's halt. -/
  | dbgctlResume (c : Nat)
  /-- DBGCTL_STEP (R343): A write of STEP issues one bundle of a halted context, then halts again. -/
  | dbgctlStep (c : Nat)
  /-- DEBUG_HALT (R343): A context halts at a bundle boundary, draining and suspending any pass. -/
  | debugHalt (c : Nat) (reason : BitVec 4)
  /-- DEBUG_WINDOW_WRITE (R344): A debugger write changes a halted context's state through its window. -/
  | debugWindowWrite (c : Nat) (off : Nat) (val : Dbl)
  /-- TLBINV_ALL (R350): A TLBINV write with ALL removes every translation. -/
  | tlbinvAll
  /-- TLBINV_SPACE (R350): A TLBINV write with WHOLE removes every translation of one space. -/
  | tlbinvSpace (space : BitVec 6)
  /-- TLBINV_PAGE (R350): A TLBINV write removes the translations covering one page of a space. -/
  | tlbinvPage (space : BitVec 6) (page : BitVec 40)
  /-- FLIT_REPLAY (R359): A corrupted or out-of-turn flit is refused and the sender replays. -/
  | flitReplay (peer : BitVec 8) (dim : Bool) (ch : BitVec 6)
  /-- CHANNEL_RETRAIN (R359): A flit replayed 16 times makes its channel retrain. -/
  | channelRetrain (peer : BitVec 8) (dim : Bool) (ch : BitVec 6)
  /-- CHANNEL_SPARE (R359): A channel failing three retrains is spared out for a pool channel. -/
  | channelSpare (dim : Bool) (ch : BitVec 6)
  /-- FLIT_AGE_DISCARD (R360): A router discards a flit that has been in the fabric more than 60 µs. -/
  | flitAgeDiscard (f : Flit)
  /-- RD (R358): A read of up to 8 bytes is performed at the remote home. -/
  | rd (f : Flit)
  /-- RDL (R358): A line read is performed at the remote home. -/
  | rdl (f : Flit)
  /-- WR (R358): A write of up to 8 bytes is performed at the remote home in SEQ order. -/
  | wr (f : Flit)
  /-- WRM (R358): A byte-mask line merge is performed at the remote home. -/
  | wrm (f : Flit)
  /-- FABRIC_AMO (R358): A remote atomic is performed at its home. -/
  | fabricAmo (f : Flit)
  /-- FABRIC_RSTF (R376): A flagged store writes its data, then increments its flag. -/
  | fabricRstf (f : Flit)
  /-- GREQ (R378): A page-grant request is served by the home after revoking conflicting holders. -/
  | greq (f : Flit)
  /-- GREV (R378): A holder recalls the page's lines, writes back M lines and acknowledges. -/
  | grev (f : Flit)
  /-- GACK (R378): The home counts a revoke acknowledgement and grants once all have arrived. -/
  | gack (f : Flit)
  /-- MLOCK (R380): An entry's home locks, compares and replies for a cross-device mcas. -/
  | mlock (f : Flit)
  /-- MDEC (R358): A cross-device mcas message of type MDEC is received. -/
  | mdec (f : Flit)
  /-- MCOMMIT (R380): A home applies the coordinator's decision, writes if told to and unlocks. -/
  | mcommit (f : Flit)
  /-- MQUERY (R381): A locked home asks the other participants for the decision after the issuer is lost. -/
  | mquery (f : Flit)
  /-- TREQ (R358): A tile request or forward order arrives over the fabric. -/
  | treq (f : Flit)
  /-- TWB_TXN (R358): A tile write-back arrives at a remote home. -/
  | twbTxn (f : Flit)
  /-- TOK (R358): A remote token add or take is performed at its home. -/
  | tok (f : Flit)
  /-- CPL (R358): A completion returns status and data to the source. -/
  | cpl (f : Flit)
  /-- HB (R385): A heartbeat flit arrives and keeps its link from silence. -/
  | hb (f : Flit)
  /-- FLIT_BAD_TYPE (R358): A flit of an undefined TYPE is discarded and counted as a REPLAY event. -/
  | flitBadType (f : Flit) (dim : Bool) (ch : BitVec 6)
  /-- HEARTBEAT_DUE (R385): A channel silent for 500 ns sends a heartbeat. -/
  | heartbeatDue (peer : BitVec 8) (dim : Bool) (ch : BitVec 6)
  /-- LINK_SILENCE (R387): A link silent for 4 µs declares its peer dead and floods a death notice. -/
  | linkSilence (peer : BitVec 8)
  /-- DEATH_NOTICE (R386): A new death notice is flooded, links to the dead device are fenced and its requests ended. -/
  | deathNotice (dead : BitVec 8) (reporter : BitVec 8) (epoch : BitVec 32)
  /-- JOIN_NOTICE (R439): A join notice with a higher epoch makes peers unfence the device. -/
  | joinNotice (dev : BitVec 8) (epoch : BitVec 32)
  /-- LEASE_RESERVE_REPLY (R369): The destination reserves receive channels or has none, moving the lease on or back. -/
  | leaseReserveReply (id : BitVec 8) (ok : Bool)
  /-- GUEST_TAKE_PACKET (R395): The guest takes the next packet from a queue. -/
  | guestTakePacket (q : BitVec 3)
  /-- GUEST_COMPLETION (R399): A guest completion writes the record and performs the credit. -/
  | guestCompletion (q : BitVec 3) (idx : BitVec 8) (result : Dbl)
  /-- GUEST_FAULT (R399): A guest fault message writes the record, credits with error and logs. -/
  | guestFault (q : BitVec 3) (idx : BitVec 8) (translation : Bool) (detail : Dbl)
  /-- GUEST_STOPPED (R401): The guest reports STOPPED for a pre-empted space. -/
  | guestStopped (space : BitVec 6)
  /-- GUEST_SAVED (R401): The guest reports SAVED after writing the space's state. -/
  | guestSaved (space : BitVec 6)
  /-- GUEST_POWER_OVERRUN (R437): A guest over its allowance for 10 ms is fenced. -/
  | guestPowerOverrun
  /-- MGPRE_REQUEST (R401): A write of MGPRE with REQ requests pre-emption of a space's guest work. -/
  | mgpreRequest (space : BitVec 6)
  /-- MGPRE_RESUME (R401): A write of MGPRE with RESUME lets the guest take a space's packets again. -/
  | mgpreResume (space : BitVec 6)
  /-- CXLWIN_WRITE (R409): A CXLWIN write updates a window and disables overlapping or oversized ones. -/
  | cxlwinWrite (p : BitVec 2) (val : Dbl)
  /-- PATROL_SCRUB (R420): The daily patrol scrub reads a channel's backed space. -/
  | patrolScrub (ch : BitVec 8)
  /-- SPACE_RELEASE (R426): A write of SPCTL.GO releases a space or is refused. -/
  | spaceRelease (space : BitVec 6)
  /-- NSSET (R425): A write loads NSTIME on every die. -/
  | nsset (val : Dbl)
  /-- PRECTL_REQUEST (R426): A PRECTL write with REQ = 1 requests pre-emption of a Lantern entry. -/
  | prectlRequest (cl : Nat) (entry : BitVec 11)
  /-- PRECTL_WITHDRAW (R426): A PRECTL write with REQ = 0 withdraws a pre-emption request. -/
  | prectlWithdraw (cl : Nat) (entry : BitVec 11)
  /-- FABRIC_ENABLE (R432): Writing FABCTL.EN fixes DEVID, trains the links and opens the fabric. -/
  | fabricEnable
  /-- LIGHTVESSEL_ENABLE (R432): Writing FABCTL.LVEN enables the management network. -/
  | lightvesselEnable
  /-- PRESENCE_WRITE (R432): A PRESENCE write trains links to added devices and fences removed ones. -/
  | presenceWrite (val : BitVec 256)
  /-- ATTEST_REQUEST (R435): Writing the last bytes of ATTNONCE starts an attestation report. -/
  | attestRequest (last : Dbl)
  /-- ATTEST_READY (R435): A signed report is complete in ATTBUF. -/
  | attestReady
  /-- KEY_LOAD (R436): A KEYCMD write unwraps a key blob into a space's key slot. -/
  | keyLoad (space : BitVec 6) (slot : BitVec 4)
  /-- KEY_CLEAR (R436): A KEYCMD write with CLR empties a key slot. -/
  | keyClear (space : BitVec 6) (slot : BitVec 4)
  /-- FIRMWARE_STAGE (R439): A FWSTAGE write verifies a staged image and boots or updates firmware. -/
  | firmwareStage (len : Dbl)
  /-- DEVICE_RESET (R433): After reset the root of trust verifies firmware, trains the units and lists the blocks. -/
  | deviceReset
  /-- DIE_FENCE (R439): Setting a DIEFENCE bit fences a die and moves its tasks. -/
  | dieFence (die : BitVec 2)
  /-- DIE_UNFENCE (R439): Clearing a DIEFENCE bit returns a die to service. -/
  | dieUnfence (die : BitVec 2)
  /-- LASER_OUT (R439): A LASERSVC write takes a laser module out of service. -/
  | laserOut (dim : Bool) (mod : Bool)
  /-- LASER_IN (R439): A LASERSVC write returns a laser module to service. -/
  | laserIn (dim : Bool) (mod : Bool)
  /-- FABRIC_LEAVE (R439): FABSVC.LEAVE floods a death notice naming the device itself. -/
  | fabricLeave
  /-- FABRIC_JOIN (R439): FABSVC.JOIN raises EPOCH and floods a join notice. -/
  | fabricJoin
  /-- SPARE_CORE (R14): A cluster's spare core takes a failed core's number and identity. -/
  | spareCore (core : Nat)
  /-- POWER_LIMIT_EXCEEDED (R437): A die over PWRLIM has issue cycles withheld from classes 1 to 3. -/
  | powerLimitExceeded (die : BitVec 2) (watts : BitVec 16)
  /-- THERMAL_THROTTLE (R438): A junction at 105 °C lowers the die's limit to 100 W. -/
  | thermalThrottle (die : BitVec 2) (temp : BitVec 8)
  /-- THERMAL_FENCE (R438): A junction at 115 °C fences the die and logs THERMAL_LIMIT. -/
  | thermalFence (die : BitVec 2) (temp : BitVec 8)
  /-- REGISTER_WRITE (R8): A write to a control register that has no behaviour of its own sets its fields per their Access codes. -/
  | registerWrite (off : BitVec 32) (size : BitVec 4) (val : Dbl)
  /-- GUEST_LINK_FAILURE (R402): A Mooring module fails link training or repair and is left out, and a link that cannot be retrained fences the guest. -/
  | guestLinkFailure (module : BitVec 3) (dead : Bool)
  /-- RETRAIN_COMPLETE (R359): A Fresnel channel's retrain ends within 10 µs, with the channel back in service or counted as a failed retrain. -/
  | retrainComplete (peer : BitVec 8) (dim : Bool) (ch : BitVec 6) (ok : Bool)
  /-- THERMAL_RECOVERY (R438): The die junction temperature falls below 100 °C and the die's 100 W limit is lifted. -/
  | thermalRecovery (die : BitVec 2) (temp : BitVec 8)
  /-- POWER_BELOW_LIMIT (R437): A die's 1 ms average power falls below PWRLIM and firmware stops withholding issue cycles from classes 1 to 3. -/
  | powerBelowLimit (die : BitVec 2) (watts : BitVec 16)
  /-- HOST_SNOOP (R410): A CXL.cache snoop arrives from the host over the host link for a host-memory line that the device caches. -/
  | hostSnoop (line : Nat) (inv : Bool)
  deriving DecidableEq, Repr

end Sys2Proof
end

