-- ==== Sys2Proof/WellFormed.lean ====
section
/-! DEFINITION. What an instruction must satisfy beyond its layout: the types each word accepts, the sub values it
defines and the fields it must leave 0 (R81 order 4 and the rules of each word). A word that breaks one is
RESERVED_OPERAND. Engine events carry no such condition. -/

namespace Sys2Proof

/-- Type group I: the integers (R139). -/
def ElemType.isInt : ElemType → Bool
  | .i8 | .n8 | .i16 | .n16 | .i32 | .n32 => true
  | _ => false
/-- Type group S: the signed integers (R139). -/
def ElemType.isSigned : ElemType → Bool
  | .i8 | .i16 | .i32 => true
  | _ => false
/-- Type group F: the floats (R139). -/
def ElemType.isFloat : ElemType → Bool
  | .bf | .f32 => true
  | _ => false

/-- The special registers of the map, by number (R128). -/
def srNumbers : List Nat :=
  [0x000, 0x001, 0x002, 0x003, 0x004, 0x005, 0x006, 0x007, 0x008, 0x010, 0x011, 0x012, 0x018, 0x019, 0x020, 0x030,
   0x031, 0x032, 0x033, 0x034, 0x035, 0x036, 0x040, 0x100, 0x101, 0x102, 0x103]
/-- The special registers that some mode may write (R127, R128). -/
def srWritable : List Nat :=
  [0x018, 0x019, 0x020, 0x030, 0x031, 0x032, 0x033, 0x034, 0x035, 0x036, 0x100, 0x101, 0x102, 0x103]

/-- The unsigned value a word uses: its literal in place of its immediate field (R76, R124, R127, R228). -/
def immN {w : Nat} (imm : BitVec w) : Option Word → Nat
  | some l => l.toNat
  | none => imm.toNat

/-- The conditions a word's operands meet (R81 order 4). -/
def Instr.wf : Instr → Bool
  | .cmp _ _ _ _ _ c => c.toNat < 6
  | .adds _ _ _ _ w s => !w || s.toNat < 32
  | .shli _ _ _ i lit | .shri _ _ _ i lit | .sari _ _ _ i lit => immN i lit < 64
  | .loop _ _ a => a != 0
  | .trap _ c lit => immN c lit < 16
  | .srd _ _ r lit => srNumbers.contains (immN r lit)
  | .swr _ _ r lit => srWritable.contains (immN r lit)
  | .spawn _ _ _ a => a.toNat ≤ 24
  | .sbind _ _ _ _ r h => r.toNat < 2 && h.toNat < 3
  | .sprobe _ _ _ _ h _ _ => h.toNat < 3
  | .spinRef _ _ _ r h => r.toNat < 2 && h.toNat < 3
  | .sinfo _ _ _ t => t.toNat ≤ 12
  | .wayconv _ _ i lit | .wayrest _ _ i lit => immN i lit ≤ 8
  | .lds _ _ _ z s _ _ => z != 3 || !s
  | .ld _ _ _ z s _ _ _ _ => z != 3 || !s
  | .ldp _ d a z s _ _ _ _ => (z != 3 || !s) && d != a
  | .amo _ _ _ _ o z _ => o != .fadd || !z
  | .mcas _ _ _ c => c != 0
  | .vadd _ _ _ _ t | .vsub _ _ _ _ t | .vmul _ _ _ _ t | .vmin _ _ _ _ t | .vmax _ _ _ _ t | .vabd _ _ _ _ t
  | .vceq _ _ _ _ t | .vcne _ _ _ _ t | .vclt _ _ _ _ t | .vcle _ _ _ _ t => t.isInt || t.isFloat
  | .vredsum _ _ _ t | .vredmin _ _ _ t | .vredmax _ _ _ t => t.isInt || t.isFloat
  | .vscan _ _ _ o t => o != 3 && (t.isInt || t.isFloat)
  | .vfma _ _ _ _ t | .vfms _ _ _ _ t => t.isFloat
  | .vrnd _ _ _ _ t => t.isFloat
  | .vabs _ _ _ t | .vneg _ _ _ t => t.isSigned || t.isFloat
  | .vadds _ _ _ _ t | .vsubs _ _ _ _ t | .vmulh _ _ _ _ t | .vshl _ _ _ _ t | .vshr _ _ _ _ t
  | .vsar _ _ _ _ t => t.isInt
  | .vpopc _ _ _ t | .vclz _ _ _ t => t.isInt
  | .vand _ _ _ _ t | .vor _ _ _ _ t | .vxor _ _ _ _ t | .vandn _ _ _ _ t => t == .i32 || t == .n32
  | .vimm _ _ _ t lit => t != .d8 || lit.isSome
  | .viota _ _ _ t _ => t.isInt
  | .vexp2 _ _ _ t | .vlog2 _ _ _ t | .vrcp _ _ _ t | .vrsq _ _ _ t => t == .bf
  | .vtopk _ d a t => d.toNat % 2 == 0 && a.toNat % 2 == 0 && (t == .i32 || t == .n32 || t == .f32)
  | .vshli _ _ _ _ t _ | .vshri _ _ _ _ t _ | .vsari _ _ _ _ t _ => t.isInt
  | .mpass _ _ w b _ k j => (!k || w == 0) && (!j || b == 0)
  | .minit _ _ s _ x => s == 3 || x == 0
  | _ => true

end Sys2Proof
end

