-- ==== Sys2Proof/Decode.lean ====
section
/-! DEFINITION. From bits to instructions and back: the bit fields of every slot word (R83, R84 and the layouts of each
engine's chapter), the opcode maps (R87 to R91), the header and the checks of a whole bundle in the order of R81, and
the encoder written from the same layouts. -/

namespace Sys2Proof

/-- Cut a word into fields of the given widths, from bit 0 upward (R2). -/
def unpack : List Nat → Nat → List Nat
  | [], _ => []
  | w :: ws, n => n % 2 ^ w :: unpack ws (n / 2 ^ w)

/-- Join fields, each with its width, from bit 0 upward (R2). -/
def pack : List (Nat × Nat) → Nat
  | [] => 0
  | (w, v) :: r => v % 2 ^ w + 2 ^ w * pack r

/-- Element type codes (R85). -/
def ElemType.code : ElemType → Nat
  | .i8 => 0 | .n8 => 1 | .i16 => 2 | .n16 => 3 | .i32 => 4 | .n32 => 5 | .bf => 6 | .f32 => 7 | .d8 => 8
/-- The element type of a code; 9 to 15 are reserved (R85). -/
def elemOf? : Nat → Option ElemType
  | 0 => some .i8 | 1 => some .n8 | 2 => some .i16 | 3 => some .n16 | 4 => some .i32 | 5 => some .n32
  | 6 => some .bf | 7 => some .f32 | 8 => some .d8 | _ => none
/-- Rounding mode codes (R147). -/
def RMode.code : RMode → Nat
  | .rne => 0 | .rtz => 1 | .rdn => 2 | .rup => 3
def rmodeOf? : Nat → Option RMode
  | 0 => some .rne | 1 => some .rtz | 2 => some .rdn | 3 => some .rup | _ => none
/-- Cell operation codes (R163). -/
def CellOp.code : CellOp → Nat
  | .mac => 0 | .ada => 1 | .mxp => 2 | .mnp => 3
def cellOpOf? : Nat → Option CellOp
  | 0 => some .mac | 1 => some .ada | 2 => some .mxp | 3 => some .mnp | _ => none
/-- Atomic operation codes; 10 to 15 are reserved (R254). -/
def AtomicOp.code : AtomicOp → Nat
  | .swap => 0 | .add => 1 | .and => 2 | .or => 3 | .xor => 4 | .minI => 5 | .maxI => 6 | .minN => 7 | .maxN => 8
  | .fadd => 9
def atomicOf? : Nat → Option AtomicOp
  | 0 => some .swap | 1 => some .add | 2 => some .and | 3 => some .or | 4 => some .xor | 5 => some .minI
  | 6 => some .maxI | 7 => some .minN | 8 => some .maxN | 9 => some .fadd | _ => none
/-- Policy codes; 3 is reserved (R243). -/
def Policy.code : Policy → Nat
  | .c => 0 | .b => 1 | .s => 2
def policyOf? : Nat → Option Policy
  | 0 => some .c | 1 => some .b | 2 => some .s | _ => none

/-- EMPTY_BUNDLE: the word's fields from bit 0 upward (R81). -/
def rowEmptyBundle (_lit : Option Word) (wd : Nat) : Option Instr :=
  match unpack [14, 2, 1, 15] wd with
  | [z0, c, d, z1] =>
    if z0 == 0 && z1 == 20480 then some (.emptyBundle (d == 1) (BitVec.ofNat 2 c)) else none
  | _ => none

/-- ADD: the word's fields from bit 0 upward (R109). -/
def rowAdd (_lit : Option Word) (wd : Nat) : Option Instr :=
  match unpack [6, 1, 5, 5, 5, 1, 3, 6] wd with
  | [z0, w, b, a, d, ng, qp, op] =>
    if z0 == 0 && op == 0 then some (.add ⟨BitVec.ofNat 3 qp, ng == 1⟩ (BitVec.ofNat 5 d) (BitVec.ofNat 5 a) (BitVec.ofNat 5 b) (w == 1)) else none
  | _ => none

/-- SUB: the word's fields from bit 0 upward (R109). -/
def rowSub (_lit : Option Word) (wd : Nat) : Option Instr :=
  match unpack [6, 1, 5, 5, 5, 1, 3, 6] wd with
  | [z0, w, b, a, d, ng, qp, op] =>
    if z0 == 0 && op == 1 then some (.sub ⟨BitVec.ofNat 3 qp, ng == 1⟩ (BitVec.ofNat 5 d) (BitVec.ofNat 5 a) (BitVec.ofNat 5 b) (w == 1)) else none
  | _ => none

/-- AND: the word's fields from bit 0 upward (R109). -/
def rowAnd (_lit : Option Word) (wd : Nat) : Option Instr :=
  match unpack [6, 1, 5, 5, 5, 1, 3, 6] wd with
  | [z0, w, b, a, d, ng, qp, op] =>
    if z0 == 0 && op == 2 then some (.and ⟨BitVec.ofNat 3 qp, ng == 1⟩ (BitVec.ofNat 5 d) (BitVec.ofNat 5 a) (BitVec.ofNat 5 b) (w == 1)) else none
  | _ => none

/-- OR: the word's fields from bit 0 upward (R109). -/
def rowOr (_lit : Option Word) (wd : Nat) : Option Instr :=
  match unpack [6, 1, 5, 5, 5, 1, 3, 6] wd with
  | [z0, w, b, a, d, ng, qp, op] =>
    if z0 == 0 && op == 3 then some (.or ⟨BitVec.ofNat 3 qp, ng == 1⟩ (BitVec.ofNat 5 d) (BitVec.ofNat 5 a) (BitVec.ofNat 5 b) (w == 1)) else none
  | _ => none

/-- XOR: the word's fields from bit 0 upward (R109). -/
def rowXor (_lit : Option Word) (wd : Nat) : Option Instr :=
  match unpack [6, 1, 5, 5, 5, 1, 3, 6] wd with
  | [z0, w, b, a, d, ng, qp, op] =>
    if z0 == 0 && op == 4 then some (.xor ⟨BitVec.ofNat 3 qp, ng == 1⟩ (BitVec.ofNat 5 d) (BitVec.ofNat 5 a) (BitVec.ofNat 5 b) (w == 1)) else none
  | _ => none

/-- ANDN: the word's fields from bit 0 upward (R109). -/
def rowAndn (_lit : Option Word) (wd : Nat) : Option Instr :=
  match unpack [6, 1, 5, 5, 5, 1, 3, 6] wd with
  | [z0, w, b, a, d, ng, qp, op] =>
    if z0 == 0 && op == 5 then some (.andn ⟨BitVec.ofNat 3 qp, ng == 1⟩ (BitVec.ofNat 5 d) (BitVec.ofNat 5 a) (BitVec.ofNat 5 b) (w == 1)) else none
  | _ => none

/-- SHL: the word's fields from bit 0 upward (R109). -/
def rowShl (_lit : Option Word) (wd : Nat) : Option Instr :=
  match unpack [6, 1, 5, 5, 5, 1, 3, 6] wd with
  | [z0, w, b, a, d, ng, qp, op] =>
    if z0 == 0 && op == 6 then some (.shl ⟨BitVec.ofNat 3 qp, ng == 1⟩ (BitVec.ofNat 5 d) (BitVec.ofNat 5 a) (BitVec.ofNat 5 b) (w == 1)) else none
  | _ => none

/-- SHR: the word's fields from bit 0 upward (R109). -/
def rowShr (_lit : Option Word) (wd : Nat) : Option Instr :=
  match unpack [6, 1, 5, 5, 5, 1, 3, 6] wd with
  | [z0, w, b, a, d, ng, qp, op] =>
    if z0 == 0 && op == 7 then some (.shr ⟨BitVec.ofNat 3 qp, ng == 1⟩ (BitVec.ofNat 5 d) (BitVec.ofNat 5 a) (BitVec.ofNat 5 b) (w == 1)) else none
  | _ => none

/-- SAR: the word's fields from bit 0 upward (R109). -/
def rowSar (_lit : Option Word) (wd : Nat) : Option Instr :=
  match unpack [6, 1, 5, 5, 5, 1, 3, 6] wd with
  | [z0, w, b, a, d, ng, qp, op] =>
    if z0 == 0 && op == 8 then some (.sar ⟨BitVec.ofNat 3 qp, ng == 1⟩ (BitVec.ofNat 5 d) (BitVec.ofNat 5 a) (BitVec.ofNat 5 b) (w == 1)) else none
  | _ => none

/-- ROL: the word's fields from bit 0 upward (R109). -/
def rowRol (_lit : Option Word) (wd : Nat) : Option Instr :=
  match unpack [6, 1, 5, 5, 5, 1, 3, 6] wd with
  | [z0, w, b, a, d, ng, qp, op] =>
    if z0 == 0 && op == 9 then some (.rol ⟨BitVec.ofNat 3 qp, ng == 1⟩ (BitVec.ofNat 5 d) (BitVec.ofNat 5 a) (BitVec.ofNat 5 b) (w == 1)) else none
  | _ => none

/-- MIN_I: the word's fields from bit 0 upward (R109). -/
def rowMinI (_lit : Option Word) (wd : Nat) : Option Instr :=
  match unpack [6, 1, 5, 5, 5, 1, 3, 6] wd with
  | [z0, w, b, a, d, ng, qp, op] =>
    if z0 == 0 && op == 10 then some (.minI ⟨BitVec.ofNat 3 qp, ng == 1⟩ (BitVec.ofNat 5 d) (BitVec.ofNat 5 a) (BitVec.ofNat 5 b) (w == 1)) else none
  | _ => none

/-- MAX_I: the word's fields from bit 0 upward (R109). -/
def rowMaxI (_lit : Option Word) (wd : Nat) : Option Instr :=
  match unpack [6, 1, 5, 5, 5, 1, 3, 6] wd with
  | [z0, w, b, a, d, ng, qp, op] =>
    if z0 == 0 && op == 11 then some (.maxI ⟨BitVec.ofNat 3 qp, ng == 1⟩ (BitVec.ofNat 5 d) (BitVec.ofNat 5 a) (BitVec.ofNat 5 b) (w == 1)) else none
  | _ => none

/-- MIN_N: the word's fields from bit 0 upward (R109). -/
def rowMinN (_lit : Option Word) (wd : Nat) : Option Instr :=
  match unpack [6, 1, 5, 5, 5, 1, 3, 6] wd with
  | [z0, w, b, a, d, ng, qp, op] =>
    if z0 == 0 && op == 12 then some (.minN ⟨BitVec.ofNat 3 qp, ng == 1⟩ (BitVec.ofNat 5 d) (BitVec.ofNat 5 a) (BitVec.ofNat 5 b) (w == 1)) else none
  | _ => none

/-- MAX_N: the word's fields from bit 0 upward (R109). -/
def rowMaxN (_lit : Option Word) (wd : Nat) : Option Instr :=
  match unpack [6, 1, 5, 5, 5, 1, 3, 6] wd with
  | [z0, w, b, a, d, ng, qp, op] =>
    if z0 == 0 && op == 13 then some (.maxN ⟨BitVec.ofNat 3 qp, ng == 1⟩ (BitVec.ofNat 5 d) (BitVec.ofNat 5 a) (BitVec.ofNat 5 b) (w == 1)) else none
  | _ => none

/-- MUL: the word's fields from bit 0 upward (R109). -/
def rowMul (_lit : Option Word) (wd : Nat) : Option Instr :=
  match unpack [6, 1, 5, 5, 5, 1, 3, 6] wd with
  | [z0, w, b, a, d, ng, qp, op] =>
    if z0 == 0 && op == 14 then some (.mul ⟨BitVec.ofNat 3 qp, ng == 1⟩ (BitVec.ofNat 5 d) (BitVec.ofNat 5 a) (BitVec.ofNat 5 b) (w == 1)) else none
  | _ => none

/-- MULH_I: the word's fields from bit 0 upward (R109). -/
def rowMulhI (_lit : Option Word) (wd : Nat) : Option Instr :=
  match unpack [6, 1, 5, 5, 5, 1, 3, 6] wd with
  | [z0, w, b, a, d, ng, qp, op] =>
    if z0 == 0 && op == 15 then some (.mulhI ⟨BitVec.ofNat 3 qp, ng == 1⟩ (BitVec.ofNat 5 d) (BitVec.ofNat 5 a) (BitVec.ofNat 5 b) (w == 1)) else none
  | _ => none

/-- MULH_N: the word's fields from bit 0 upward (R109). -/
def rowMulhN (_lit : Option Word) (wd : Nat) : Option Instr :=
  match unpack [6, 1, 5, 5, 5, 1, 3, 6] wd with
  | [z0, w, b, a, d, ng, qp, op] =>
    if z0 == 0 && op == 16 then some (.mulhN ⟨BitVec.ofNat 3 qp, ng == 1⟩ (BitVec.ofNat 5 d) (BitVec.ofNat 5 a) (BitVec.ofNat 5 b) (w == 1)) else none
  | _ => none

/-- DIV_I: the word's fields from bit 0 upward (R110). -/
def rowDivI (_lit : Option Word) (wd : Nat) : Option Instr :=
  match unpack [6, 1, 5, 5, 5, 1, 3, 6] wd with
  | [z0, w, b, a, d, ng, qp, op] =>
    if z0 == 0 && op == 17 then some (.divI ⟨BitVec.ofNat 3 qp, ng == 1⟩ (BitVec.ofNat 5 d) (BitVec.ofNat 5 a) (BitVec.ofNat 5 b) (w == 1)) else none
  | _ => none

/-- DIV_N: the word's fields from bit 0 upward (R110). -/
def rowDivN (_lit : Option Word) (wd : Nat) : Option Instr :=
  match unpack [6, 1, 5, 5, 5, 1, 3, 6] wd with
  | [z0, w, b, a, d, ng, qp, op] =>
    if z0 == 0 && op == 18 then some (.divN ⟨BitVec.ofNat 3 qp, ng == 1⟩ (BitVec.ofNat 5 d) (BitVec.ofNat 5 a) (BitVec.ofNat 5 b) (w == 1)) else none
  | _ => none

/-- REM_I: the word's fields from bit 0 upward (R110). -/
def rowRemI (_lit : Option Word) (wd : Nat) : Option Instr :=
  match unpack [6, 1, 5, 5, 5, 1, 3, 6] wd with
  | [z0, w, b, a, d, ng, qp, op] =>
    if z0 == 0 && op == 19 then some (.remI ⟨BitVec.ofNat 3 qp, ng == 1⟩ (BitVec.ofNat 5 d) (BitVec.ofNat 5 a) (BitVec.ofNat 5 b) (w == 1)) else none
  | _ => none

/-- REM_N: the word's fields from bit 0 upward (R110). -/
def rowRemN (_lit : Option Word) (wd : Nat) : Option Instr :=
  match unpack [6, 1, 5, 5, 5, 1, 3, 6] wd with
  | [z0, w, b, a, d, ng, qp, op] =>
    if z0 == 0 && op == 20 then some (.remN ⟨BitVec.ofNat 3 qp, ng == 1⟩ (BitVec.ofNat 5 d) (BitVec.ofNat 5 a) (BitVec.ofNat 5 b) (w == 1)) else none
  | _ => none

/-- CLZ: the word's fields from bit 0 upward (R109). -/
def rowClz (_lit : Option Word) (wd : Nat) : Option Instr :=
  match unpack [6, 1, 5, 5, 5, 1, 3, 6] wd with
  | [z0, w, z1, a, d, ng, qp, op] =>
    if z0 == 0 && z1 == 0 && op == 21 then some (.clz ⟨BitVec.ofNat 3 qp, ng == 1⟩ (BitVec.ofNat 5 d) (BitVec.ofNat 5 a) (w == 1)) else none
  | _ => none

/-- CTZ: the word's fields from bit 0 upward (R109). -/
def rowCtz (_lit : Option Word) (wd : Nat) : Option Instr :=
  match unpack [6, 1, 5, 5, 5, 1, 3, 6] wd with
  | [z0, w, z1, a, d, ng, qp, op] =>
    if z0 == 0 && z1 == 0 && op == 22 then some (.ctz ⟨BitVec.ofNat 3 qp, ng == 1⟩ (BitVec.ofNat 5 d) (BitVec.ofNat 5 a) (w == 1)) else none
  | _ => none

/-- POPC: the word's fields from bit 0 upward (R109). -/
def rowPopc (_lit : Option Word) (wd : Nat) : Option Instr :=
  match unpack [6, 1, 5, 5, 5, 1, 3, 6] wd with
  | [z0, w, z1, a, d, ng, qp, op] =>
    if z0 == 0 && z1 == 0 && op == 23 then some (.popc ⟨BitVec.ofNat 3 qp, ng == 1⟩ (BitVec.ofNat 5 d) (BitVec.ofNat 5 a) (w == 1)) else none
  | _ => none

/-- BREV: the word's fields from bit 0 upward (R109). -/
def rowBrev (_lit : Option Word) (wd : Nat) : Option Instr :=
  match unpack [6, 1, 5, 5, 5, 1, 3, 6] wd with
  | [z0, w, z1, a, d, ng, qp, op] =>
    if z0 == 0 && z1 == 0 && op == 24 then some (.brev ⟨BitVec.ofNat 3 qp, ng == 1⟩ (BitVec.ofNat 5 d) (BitVec.ofNat 5 a) (w == 1)) else none
  | _ => none

/-- BSWAP: the word's fields from bit 0 upward (R109). -/
def rowBswap (_lit : Option Word) (wd : Nat) : Option Instr :=
  match unpack [6, 1, 5, 5, 5, 1, 3, 6] wd with
  | [z0, w, z1, a, d, ng, qp, op] =>
    if z0 == 0 && z1 == 0 && op == 25 then some (.bswap ⟨BitVec.ofNat 3 qp, ng == 1⟩ (BitVec.ofNat 5 d) (BitVec.ofNat 5 a) (w == 1)) else none
  | _ => none

/-- SEL: the word's fields from bit 0 upward (R109). -/
def rowSel (_lit : Option Word) (wd : Nat) : Option Instr :=
  match unpack [3, 3, 1, 5, 5, 5, 1, 3, 6] wd with
  | [q, z0, w, b, a, d, ng, qp, op] =>
    if z0 == 0 && op == 26 then some (.sel ⟨BitVec.ofNat 3 qp, ng == 1⟩ (BitVec.ofNat 5 d) (BitVec.ofNat 5 a) (BitVec.ofNat 5 b) (w == 1) (BitVec.ofNat 3 q)) else none
  | _ => none

/-- ADDS: the word's fields from bit 0 upward (R109). -/
def rowAdds (_lit : Option Word) (wd : Nat) : Option Instr :=
  match unpack [6, 1, 5, 5, 5, 1, 3, 6] wd with
  | [s, w, b, a, d, ng, qp, op] =>
    if op == 27 then some (.adds ⟨BitVec.ofNat 3 qp, ng == 1⟩ (BitVec.ofNat 5 d) (BitVec.ofNat 5 a) (BitVec.ofNat 5 b) (w == 1) (BitVec.ofNat 6 s)) else none
  | _ => none

/-- EXT_I: the word's fields from bit 0 upward (R111). -/
def rowExtI (_lit : Option Word) (wd : Nat) : Option Instr :=
  match unpack [7, 5, 5, 5, 1, 3, 6] wd with
  | [z0, b, a, d, ng, qp, op] =>
    if z0 == 0 && op == 28 then some (.extI ⟨BitVec.ofNat 3 qp, ng == 1⟩ (BitVec.ofNat 5 d) (BitVec.ofNat 5 a) (BitVec.ofNat 5 b)) else none
  | _ => none

/-- EXT_N: the word's fields from bit 0 upward (R111). -/
def rowExtN (_lit : Option Word) (wd : Nat) : Option Instr :=
  match unpack [7, 5, 5, 5, 1, 3, 6] wd with
  | [z0, b, a, d, ng, qp, op] =>
    if z0 == 0 && op == 29 then some (.extN ⟨BitVec.ofNat 3 qp, ng == 1⟩ (BitVec.ofNat 5 d) (BitVec.ofNat 5 a) (BitVec.ofNat 5 b)) else none
  | _ => none

/-- INS: the word's fields from bit 0 upward (R111). -/
def rowIns (_lit : Option Word) (wd : Nat) : Option Instr :=
  match unpack [7, 5, 5, 5, 1, 3, 6] wd with
  | [z0, b, a, d, ng, qp, op] =>
    if z0 == 0 && op == 30 then some (.ins ⟨BitVec.ofNat 3 qp, ng == 1⟩ (BitVec.ofNat 5 d) (BitVec.ofNat 5 a) (BitVec.ofNat 5 b)) else none
  | _ => none

/-- CMP: the word's fields from bit 0 upward (R114). -/
def rowCmp (_lit : Option Word) (wd : Nat) : Option Instr :=
  match unpack [3, 3, 1, 5, 5, 3, 2, 1, 3, 6] wd with
  | [c, z0, w, b, a, q, z1, ng, qp, op] =>
    if z0 == 0 && z1 == 0 && op == 31 then some (.cmp ⟨BitVec.ofNat 3 qp, ng == 1⟩ (BitVec.ofNat 3 q) (BitVec.ofNat 5 a) (BitVec.ofNat 5 b) (w == 1) (BitVec.ofNat 3 c)) else none
  | _ => none

/-- ADDI: the word's fields from bit 0 upward (R112). -/
def rowAddi (lit : Option Word) (wd : Nat) : Option Instr :=
  match unpack [12, 5, 5, 1, 3, 6] wd with
  | [i, a, d, ng, qp, op] =>
    if op == 32 then some (.addi ⟨BitVec.ofNat 3 qp, ng == 1⟩ (BitVec.ofNat 5 d) (BitVec.ofNat 5 a) (BitVec.ofNat 12 i) lit) else none
  | _ => none

/-- ANDI: the word's fields from bit 0 upward (R112). -/
def rowAndi (lit : Option Word) (wd : Nat) : Option Instr :=
  match unpack [12, 5, 5, 1, 3, 6] wd with
  | [i, a, d, ng, qp, op] =>
    if op == 33 then some (.andi ⟨BitVec.ofNat 3 qp, ng == 1⟩ (BitVec.ofNat 5 d) (BitVec.ofNat 5 a) (BitVec.ofNat 12 i) lit) else none
  | _ => none

/-- ORI: the word's fields from bit 0 upward (R112). -/
def rowOri (lit : Option Word) (wd : Nat) : Option Instr :=
  match unpack [12, 5, 5, 1, 3, 6] wd with
  | [i, a, d, ng, qp, op] =>
    if op == 34 then some (.ori ⟨BitVec.ofNat 3 qp, ng == 1⟩ (BitVec.ofNat 5 d) (BitVec.ofNat 5 a) (BitVec.ofNat 12 i) lit) else none
  | _ => none

/-- XORI: the word's fields from bit 0 upward (R112). -/
def rowXori (lit : Option Word) (wd : Nat) : Option Instr :=
  match unpack [12, 5, 5, 1, 3, 6] wd with
  | [i, a, d, ng, qp, op] =>
    if op == 35 then some (.xori ⟨BitVec.ofNat 3 qp, ng == 1⟩ (BitVec.ofNat 5 d) (BitVec.ofNat 5 a) (BitVec.ofNat 12 i) lit) else none
  | _ => none

/-- SHLI: the word's fields from bit 0 upward (R112). -/
def rowShli (lit : Option Word) (wd : Nat) : Option Instr :=
  match unpack [12, 5, 5, 1, 3, 6] wd with
  | [i, a, d, ng, qp, op] =>
    if op == 36 then some (.shli ⟨BitVec.ofNat 3 qp, ng == 1⟩ (BitVec.ofNat 5 d) (BitVec.ofNat 5 a) (BitVec.ofNat 12 i) lit) else none
  | _ => none

/-- SHRI: the word's fields from bit 0 upward (R112). -/
def rowShri (lit : Option Word) (wd : Nat) : Option Instr :=
  match unpack [12, 5, 5, 1, 3, 6] wd with
  | [i, a, d, ng, qp, op] =>
    if op == 37 then some (.shri ⟨BitVec.ofNat 3 qp, ng == 1⟩ (BitVec.ofNat 5 d) (BitVec.ofNat 5 a) (BitVec.ofNat 12 i) lit) else none
  | _ => none

/-- SARI: the word's fields from bit 0 upward (R112). -/
def rowSari (lit : Option Word) (wd : Nat) : Option Instr :=
  match unpack [12, 5, 5, 1, 3, 6] wd with
  | [i, a, d, ng, qp, op] =>
    if op == 38 then some (.sari ⟨BitVec.ofNat 3 qp, ng == 1⟩ (BitVec.ofNat 5 d) (BitVec.ofNat 5 a) (BitVec.ofNat 12 i) lit) else none
  | _ => none

/-- CMPI: the word's fields from bit 0 upward (R115). -/
def rowCmpi (lit : Option Word) (wd : Nat) : Option Instr :=
  match unpack [12, 5, 3, 2, 1, 3, 6] wd with
  | [i, a, q, c, ng, qp, op] =>
    if op == 39 then some (.cmpi ⟨BitVec.ofNat 3 qp, ng == 1⟩ (BitVec.ofNat 2 c) (BitVec.ofNat 3 q) (BitVec.ofNat 5 a) (BitVec.ofNat 12 i) lit) else none
  | _ => none

/-- LI: the word's fields from bit 0 upward (R113). -/
def rowLi (lit : Option Word) (wd : Nat) : Option Instr :=
  match unpack [12, 5, 5, 1, 3, 6] wd with
  | [i, z0, d, ng, qp, op] =>
    if z0 == 0 && op == 40 then some (.li ⟨BitVec.ofNat 3 qp, ng == 1⟩ (BitVec.ofNat 5 d) (BitVec.ofNat 12 i) lit) else none
  | _ => none

/-- LIH: the word's fields from bit 0 upward (R113). -/
def rowLih (lit : Option Word) (wd : Nat) : Option Instr :=
  match unpack [12, 5, 5, 1, 3, 6] wd with
  | [i, z0, d, ng, qp, op] =>
    if z0 == 0 && op == 41 then some (.lih ⟨BitVec.ofNat 3 qp, ng == 1⟩ (BitVec.ofNat 5 d) (BitVec.ofNat 12 i) lit) else none
  | _ => none

/-- QLOG: the word's fields from bit 0 upward (R116). -/
def rowQlog (_lit : Option Word) (wd : Nat) : Option Instr :=
  match unpack [4, 3, 3, 2, 3, 2, 3, 2, 1, 3, 6] wd with
  | [t, z0, b, z1, a, z2, d, z3, ng, qp, op] =>
    if z0 == 0 && z1 == 0 && z2 == 0 && z3 == 0 && op == 42 then some (.qlog ⟨BitVec.ofNat 3 qp, ng == 1⟩ (BitVec.ofNat 3 d) (BitVec.ofNat 3 a) (BitVec.ofNat 3 b) (BitVec.ofNat 4 t)) else none
  | _ => none

/-- PBR: the word's fields from bit 0 upward (R117). -/
def rowPbr (lit : Option Word) (wd : Nat) : Option Instr :=
  match unpack [19, 3, 1, 3, 6] wd with
  | [o, b, ng, qp, op] =>
    if op == 48 then some (.pbr ⟨BitVec.ofNat 3 qp, ng == 1⟩ (BitVec.ofNat 3 b) (BitVec.ofNat 19 o) lit) else none
  | _ => none

/-- PBX: the word's fields from bit 0 upward (R117). -/
def rowPbx (_lit : Option Word) (wd : Nat) : Option Instr :=
  match unpack [12, 5, 2, 3, 1, 3, 6] wd with
  | [z0, a, z1, b, ng, qp, op] =>
    if z0 == 0 && z1 == 0 && op == 49 then some (.pbx ⟨BitVec.ofNat 3 qp, ng == 1⟩ (BitVec.ofNat 3 b) (BitVec.ofNat 5 a)) else none
  | _ => none

/-- BR: the word's fields from bit 0 upward (R118). -/
def rowBr (_lit : Option Word) (wd : Nat) : Option Instr :=
  match unpack [19, 3, 1, 3, 6] wd with
  | [z0, b, ng, qp, op] =>
    if z0 == 0 && op == 50 then some (.br ⟨BitVec.ofNat 3 qp, ng == 1⟩ (BitVec.ofNat 3 b)) else none
  | _ => none

/-- CALL: the word's fields from bit 0 upward (R118). -/
def rowCall (_lit : Option Word) (wd : Nat) : Option Instr :=
  match unpack [7, 3, 7, 5, 1, 3, 6] wd with
  | [z0, b, z1, d, ng, qp, op] =>
    if z0 == 0 && z1 == 0 && op == 51 then some (.call ⟨BitVec.ofNat 3 qp, ng == 1⟩ (BitVec.ofNat 5 d) (BitVec.ofNat 3 b)) else none
  | _ => none

/-- LOOP: the word's fields from bit 0 upward (R120). -/
def rowLoop (_lit : Option Word) (wd : Nat) : Option Instr :=
  match unpack [12, 5, 2, 3, 1, 3, 6] wd with
  | [z0, a, z1, b, ng, qp, op] =>
    if z0 == 0 && z1 == 0 && op == 52 then some (.loop ⟨BitVec.ofNat 3 qp, ng == 1⟩ (BitVec.ofNat 3 b) (BitVec.ofNat 5 a)) else none
  | _ => none

/-- VANY: the word's fields from bit 0 upward (R122). -/
def rowVany (_lit : Option Word) (wd : Nat) : Option Instr :=
  match unpack [7, 4, 1, 4, 1, 3, 2, 1, 3, 6] wd with
  | [z0, b, z1, a, z2, d, z3, ng, qp, op] =>
    if z0 == 0 && z1 == 0 && z2 == 0 && z3 == 0 && op == 53 then some (.vany ⟨BitVec.ofNat 3 qp, ng == 1⟩ (BitVec.ofNat 3 d) (BitVec.ofNat 4 a) (BitVec.ofNat 4 b)) else none
  | _ => none

/-- VALL: the word's fields from bit 0 upward (R122). -/
def rowVall (_lit : Option Word) (wd : Nat) : Option Instr :=
  match unpack [7, 4, 1, 4, 1, 3, 2, 1, 3, 6] wd with
  | [z0, b, z1, a, z2, d, z3, ng, qp, op] =>
    if z0 == 0 && z1 == 0 && z2 == 0 && z3 == 0 && op == 54 then some (.vall ⟨BitVec.ofNat 3 qp, ng == 1⟩ (BitVec.ofNat 3 d) (BitVec.ofNat 4 a) (BitVec.ofNat 4 b)) else none
  | _ => none

/-- TEND: the word's fields from bit 0 upward (R123). -/
def rowTend (_lit : Option Word) (wd : Nat) : Option Instr :=
  match unpack [22, 1, 3, 6] wd with
  | [z0, ng, qp, op] =>
    if z0 == 0 && op == 55 then some (.tend ⟨BitVec.ofNat 3 qp, ng == 1⟩) else none
  | _ => none

/-- TRAP: the word's fields from bit 0 upward (R124). -/
def rowTrap (lit : Option Word) (wd : Nat) : Option Instr :=
  match unpack [12, 10, 1, 3, 6] wd with
  | [c, z0, ng, qp, op] =>
    if z0 == 0 && op == 56 then some (.trap ⟨BitVec.ofNat 3 qp, ng == 1⟩ (BitVec.ofNat 12 c) lit) else none
  | _ => none

/-- BRK: the word's fields from bit 0 upward (R124). -/
def rowBrk (_lit : Option Word) (wd : Nat) : Option Instr :=
  match unpack [12, 10, 1, 3, 6] wd with
  | [c, z0, ng, qp, op] =>
    if z0 == 0 && op == 57 then some (.brk ⟨BitVec.ofNat 3 qp, ng == 1⟩ (BitVec.ofNat 12 c)) else none
  | _ => none

/-- NAP: the word's fields from bit 0 upward (R126). -/
def rowNap (lit : Option Word) (wd : Nat) : Option Instr :=
  match unpack [12, 5, 5, 1, 3, 6] wd with
  | [i, a, z0, ng, qp, op] =>
    if z0 == 0 && op == 58 then some (.nap ⟨BitVec.ofNat 3 qp, ng == 1⟩ (BitVec.ofNat 5 a) (BitVec.ofNat 12 i) lit) else none
  | _ => none

/-- SRD: the word's fields from bit 0 upward (R127). -/
def rowSrd (lit : Option Word) (wd : Nat) : Option Instr :=
  match unpack [12, 5, 5, 1, 3, 6] wd with
  | [r, z0, d, ng, qp, op] =>
    if z0 == 0 && op == 48 then some (.srd ⟨BitVec.ofNat 3 qp, ng == 1⟩ (BitVec.ofNat 5 d) (BitVec.ofNat 12 r) lit) else none
  | _ => none

/-- SWR: the word's fields from bit 0 upward (R127). -/
def rowSwr (lit : Option Word) (wd : Nat) : Option Instr :=
  match unpack [12, 5, 5, 1, 3, 6] wd with
  | [r, a, z0, ng, qp, op] =>
    if z0 == 0 && op == 49 then some (.swr ⟨BitVec.ofNat 3 qp, ng == 1⟩ (BitVec.ofNat 5 a) (BitVec.ofNat 12 r) lit) else none
  | _ => none

/-- FENCE: the word's fields from bit 0 upward (R133). -/
def rowFence (_lit : Option Word) (wd : Nat) : Option Instr :=
  match unpack [5, 5, 2, 10, 1, 3, 6] wd with
  | [f, e, c, z0, ng, qp, op] =>
    if z0 == 0 && op == 50 then some (.fence ⟨BitVec.ofNat 3 qp, ng == 1⟩ (BitVec.ofNat 2 c) (BitVec.ofNat 5 e) (BitVec.ofNat 5 f)) else none
  | _ => none

/-- TRET: the word's fields from bit 0 upward (R134). -/
def rowTret (_lit : Option Word) (wd : Nat) : Option Instr :=
  match unpack [22, 1, 3, 6] wd with
  | [z0, ng, qp, op] =>
    if z0 == 0 && op == 51 then some (.tret ⟨BitVec.ofNat 3 qp, ng == 1⟩) else none
  | _ => none

/-- TRET_SKIP: the word's fields from bit 0 upward (R134). -/
def rowTretSkip (_lit : Option Word) (wd : Nat) : Option Instr :=
  match unpack [22, 1, 3, 6] wd with
  | [z0, ng, qp, op] =>
    if z0 == 1 && op == 51 then some (.tretSkip ⟨BitVec.ofNat 3 qp, ng == 1⟩) else none
  | _ => none

/-- TRET_END: the word's fields from bit 0 upward (R134). -/
def rowTretEnd (_lit : Option Word) (wd : Nat) : Option Instr :=
  match unpack [22, 1, 3, 6] wd with
  | [z0, ng, qp, op] =>
    if z0 == 2 && op == 51 then some (.tretEnd ⟨BitVec.ofNat 3 qp, ng == 1⟩) else none
  | _ => none

/-- TRET_TO: the word's fields from bit 0 upward (R134). -/
def rowTretTo (_lit : Option Word) (wd : Nat) : Option Instr :=
  match unpack [12, 5, 5, 1, 3, 6] wd with
  | [z0, a, z1, ng, qp, op] =>
    if z0 == 3 && z1 == 0 && op == 51 then some (.tretTo ⟨BitVec.ofNat 3 qp, ng == 1⟩ (BitVec.ofNat 5 a)) else none
  | _ => none

/-- SYS: the word's fields from bit 0 upward (R124). -/
def rowSys (lit : Option Word) (wd : Nat) : Option Instr :=
  match unpack [12, 10, 1, 3, 6] wd with
  | [s, z0, ng, qp, op] =>
    if z0 == 0 && op == 52 then some (.sys ⟨BitVec.ofNat 3 qp, ng == 1⟩ (BitVec.ofNat 12 s) lit) else none
  | _ => none

/-- XTOV_BC: the word's fields from bit 0 upward (R157). -/
def rowXtovBc (_lit : Option Word) (wd : Nat) : Option Instr :=
  match unpack [1, 4, 6, 5, 6, 1, 3, 6] wd with
  | [z0, t, z1, x, v, ng, qp, op] =>
    if z0 == 0 && z1 == 0 && op == 0 then (elemOf? t).bind fun t => some (.xtovBc ⟨BitVec.ofNat 3 qp, ng == 1⟩ (BitVec.ofNat 6 v) (BitVec.ofNat 5 x) t) else none
  | _ => none

/-- XTOV_INS: the word's fields from bit 0 upward (R157). -/
def rowXtovIns (_lit : Option Word) (wd : Nat) : Option Instr :=
  match unpack [1, 4, 6, 5, 6, 1, 3, 6] wd with
  | [z0, t, l, x, v, ng, qp, op] =>
    if z0 == 0 && op == 1 then (elemOf? t).bind fun t => some (.xtovIns ⟨BitVec.ofNat 3 qp, ng == 1⟩ (BitVec.ofNat 6 v) (BitVec.ofNat 5 x) (BitVec.ofNat 6 l) t) else none
  | _ => none

/-- VTOX: the word's fields from bit 0 upward (R157). -/
def rowVtox (_lit : Option Word) (wd : Nat) : Option Instr :=
  match unpack [1, 4, 6, 5, 6, 1, 3, 6] wd with
  | [z0, t, l, x, v, ng, qp, op] =>
    if z0 == 0 && op == 2 then (elemOf? t).bind fun t => some (.vtox ⟨BitVec.ofNat 3 qp, ng == 1⟩ (BitVec.ofNat 6 v) (BitVec.ofNat 5 x) (BitVec.ofNat 6 l) t) else none
  | _ => none

/-- VTOX_R: the word's fields from bit 0 upward (R157). -/
def rowVtoxR (_lit : Option Word) (wd : Nat) : Option Instr :=
  match unpack [1, 4, 1, 5, 5, 6, 1, 3, 6] wd with
  | [z0, t, z1, b, x, v, ng, qp, op] =>
    if z0 == 0 && z1 == 0 && op == 3 then (elemOf? t).bind fun t => some (.vtoxR ⟨BitVec.ofNat 3 qp, ng == 1⟩ (BitVec.ofNat 6 v) (BitVec.ofNat 5 x) (BitVec.ofNat 5 b) t) else none
  | _ => none

/-- KTOX: the word's fields from bit 0 upward (R157). -/
def rowKtox (_lit : Option Word) (wd : Nat) : Option Instr :=
  match unpack [11, 5, 4, 2, 1, 3, 6] wd with
  | [z0, x, k, z1, ng, qp, op] =>
    if z0 == 0 && z1 == 0 && op == 4 then some (.ktox ⟨BitVec.ofNat 3 qp, ng == 1⟩ (BitVec.ofNat 4 k) (BitVec.ofNat 5 x)) else none
  | _ => none

/-- XTOK: the word's fields from bit 0 upward (R157). -/
def rowXtok (_lit : Option Word) (wd : Nat) : Option Instr :=
  match unpack [11, 5, 4, 2, 1, 3, 6] wd with
  | [z0, x, k, z1, ng, qp, op] =>
    if z0 == 0 && z1 == 0 && op == 5 then some (.xtok ⟨BitVec.ofNat 3 qp, ng == 1⟩ (BitVec.ofNat 4 k) (BitVec.ofNat 5 x)) else none
  | _ => none

/-- SPAWN: the word's fields from bit 0 upward (R316). -/
def rowSpawn (_lit : Option Word) (wd : Nat) : Option Instr :=
  match unpack [12, 5, 2, 3, 1, 3, 6] wd with
  | [z0, a, c, b, ng, qp, op] =>
    if z0 == 0 && op == 6 then some (.spawn ⟨BitVec.ofNat 3 qp, ng == 1⟩ (BitVec.ofNat 3 b) (BitVec.ofNat 2 c) (BitVec.ofNat 5 a)) else none
  | _ => none

/-- BINIT: the word's fields from bit 0 upward (R264). -/
def rowBinit (_lit : Option Word) (wd : Nat) : Option Instr :=
  match unpack [7, 5, 5, 5, 1, 3, 6] wd with
  | [z0, b, a, z1, ng, qp, op] =>
    if z0 == 0 && z1 == 0 && op == 8 then some (.binit ⟨BitVec.ofNat 3 qp, ng == 1⟩ (BitVec.ofNat 5 a) (BitVec.ofNat 5 b)) else none
  | _ => none

/-- BARRIVE: the word's fields from bit 0 upward (R264). -/
def rowBarrive (_lit : Option Word) (wd : Nat) : Option Instr :=
  match unpack [12, 5, 5, 1, 3, 6] wd with
  | [z0, a, z1, ng, qp, op] =>
    if z0 == 0 && z1 == 0 && op == 9 then some (.barrive ⟨BitVec.ofNat 3 qp, ng == 1⟩ (BitVec.ofNat 5 a)) else none
  | _ => none

/-- BEXPECT: the word's fields from bit 0 upward (R264). -/
def rowBexpect (_lit : Option Word) (wd : Nat) : Option Instr :=
  match unpack [7, 5, 5, 5, 1, 3, 6] wd with
  | [z0, b, a, z1, ng, qp, op] =>
    if z0 == 0 && z1 == 0 && op == 10 then some (.bexpect ⟨BitVec.ofNat 3 qp, ng == 1⟩ (BitVec.ofNat 5 a) (BitVec.ofNat 5 b)) else none
  | _ => none

/-- BWAIT: the word's fields from bit 0 upward (R264). -/
def rowBwait (_lit : Option Word) (wd : Nat) : Option Instr :=
  match unpack [7, 5, 5, 3, 2, 1, 3, 6] wd with
  | [z0, b, a, q, z1, ng, qp, op] =>
    if z0 == 0 && z1 == 0 && op == 11 then some (.bwait ⟨BitVec.ofNat 3 qp, ng == 1⟩ (BitVec.ofNat 3 q) (BitVec.ofNat 5 a) (BitVec.ofNat 5 b)) else none
  | _ => none

/-- BTEST: the word's fields from bit 0 upward (R264). -/
def rowBtest (_lit : Option Word) (wd : Nat) : Option Instr :=
  match unpack [1, 11, 5, 5, 1, 3, 6] wd with
  | [h, z0, a, d, ng, qp, op] =>
    if z0 == 0 && op == 12 then some (.btest ⟨BitVec.ofNat 3 qp, ng == 1⟩ (BitVec.ofNat 5 d) (BitVec.ofNat 5 a) (h == 1)) else none
  | _ => none

/-- BRESET: the word's fields from bit 0 upward (R270). -/
def rowBreset (_lit : Option Word) (wd : Nat) : Option Instr :=
  match unpack [12, 5, 5, 1, 3, 6] wd with
  | [z0, a, z1, ng, qp, op] =>
    if z0 == 0 && z1 == 0 && op == 13 then some (.breset ⟨BitVec.ofNat 3 qp, ng == 1⟩ (BitVec.ofNat 5 a)) else none
  | _ => none

/-- TOKSIG: the word's fields from bit 0 upward (R318). -/
def rowToksig (_lit : Option Word) (wd : Nat) : Option Instr :=
  match unpack [7, 5, 5, 5, 1, 3, 6] wd with
  | [z0, b, a, z1, ng, qp, op] =>
    if z0 == 0 && z1 == 0 && op == 16 then some (.toksig ⟨BitVec.ofNat 3 qp, ng == 1⟩ (BitVec.ofNat 5 a) (BitVec.ofNat 5 b)) else none
  | _ => none

/-- TOKWAIT: the word's fields from bit 0 upward (R319). -/
def rowTokwait (_lit : Option Word) (wd : Nat) : Option Instr :=
  match unpack [12, 5, 5, 1, 3, 6] wd with
  | [z0, a, d, ng, qp, op] =>
    if z0 == 0 && op == 17 then some (.tokwait ⟨BitVec.ofNat 3 qp, ng == 1⟩ (BitVec.ofNat 5 d) (BitVec.ofNat 5 a)) else none
  | _ => none

/-- GSTART: the word's fields from bit 0 upward (R321). -/
def rowGstart (_lit : Option Word) (wd : Nat) : Option Instr :=
  match unpack [7, 5, 5, 5, 1, 3, 6] wd with
  | [z0, b, a, z1, ng, qp, op] =>
    if z0 == 0 && z1 == 0 && op == 18 then some (.gstart ⟨BitVec.ofNat 3 qp, ng == 1⟩ (BitVec.ofNat 5 a) (BitVec.ofNat 5 b)) else none
  | _ => none

/-- LEASE_REQ: the word's fields from bit 0 upward (R367). -/
def rowLeaseReq (_lit : Option Word) (wd : Nat) : Option Instr :=
  match unpack [2, 5, 5, 5, 5, 1, 3, 6] wd with
  | [z0, c, b, a, d, ng, qp, op] =>
    if z0 == 0 && op == 24 then some (.leaseReq ⟨BitVec.ofNat 3 qp, ng == 1⟩ (BitVec.ofNat 5 d) (BitVec.ofNat 5 a) (BitVec.ofNat 5 b) (BitVec.ofNat 5 c)) else none
  | _ => none

/-- LEASE_REL: the word's fields from bit 0 upward (R372). -/
def rowLeaseRel (_lit : Option Word) (wd : Nat) : Option Instr :=
  match unpack [12, 5, 5, 1, 3, 6] wd with
  | [z0, a, z1, ng, qp, op] =>
    if z0 == 0 && z1 == 0 && op == 25 then some (.leaseRel ⟨BitVec.ofNat 3 qp, ng == 1⟩ (BitVec.ofNat 5 a)) else none
  | _ => none

/-- LEASE_QRY: the word's fields from bit 0 upward (R373). -/
def rowLeaseQry (_lit : Option Word) (wd : Nat) : Option Instr :=
  match unpack [12, 5, 5, 1, 3, 6] wd with
  | [z0, a, d, ng, qp, op] =>
    if z0 == 0 && op == 26 then some (.leaseQry ⟨BitVec.ofNat 3 qp, ng == 1⟩ (BitVec.ofNat 5 d) (BitVec.ofNat 5 a)) else none
  | _ => none

/-- MQPUSH: the word's fields from bit 0 upward (R397). -/
def rowMqpush (_lit : Option Word) (wd : Nat) : Option Instr :=
  match unpack [13, 3, 6, 1, 3, 6] wd with
  | [z0, s, v, ng, qp, op] =>
    if z0 == 0 && op == 32 then some (.mqpush ⟨BitVec.ofNat 3 qp, ng == 1⟩ (BitVec.ofNat 6 v) (BitVec.ofNat 3 s)) else none
  | _ => none

/-- MQSTAT: the word's fields from bit 0 upward (R397). -/
def rowMqstat (_lit : Option Word) (wd : Nat) : Option Instr :=
  match unpack [13, 3, 1, 5, 1, 3, 6] wd with
  | [z0, s, z1, d, ng, qp, op] =>
    if z0 == 0 && z1 == 0 && op == 33 then some (.mqstat ⟨BitVec.ofNat 3 qp, ng == 1⟩ (BitVec.ofNat 5 d) (BitVec.ofNat 3 s)) else none
  | _ => none

/-- SBIND: the word's fields from bit 0 upward (R214). -/
def rowSbind (_lit : Option Word) (wd : Nat) : Option Instr :=
  match unpack [4, 2, 2, 5, 5, 4, 1, 3, 6] wd with
  | [z0, h, r, b, a, w, ng, qp, op] =>
    if z0 == 0 && op == 0 then some (.sbind ⟨BitVec.ofNat 3 qp, ng == 1⟩ (BitVec.ofNat 4 w) (BitVec.ofNat 5 a) (BitVec.ofNat 5 b) (BitVec.ofNat 2 r) (BitVec.ofNat 2 h)) else none
  | _ => none

/-- SPROBE: the word's fields from bit 0 upward (R215). -/
def rowSprobe (_lit : Option Word) (wd : Nat) : Option Instr :=
  match unpack [1, 3, 2, 2, 5, 5, 4, 1, 3, 6] wd with
  | [f, q, h, z0, b, a, w, ng, qp, op] =>
    if z0 == 1 && op == 1 then some (.sprobe ⟨BitVec.ofNat 3 qp, ng == 1⟩ (BitVec.ofNat 4 w) (BitVec.ofNat 5 a) (BitVec.ofNat 5 b) (BitVec.ofNat 2 h) (BitVec.ofNat 3 q) (f == 1)) else none
  | _ => none

/-- SNEW: the word's fields from bit 0 upward (R216). -/
def rowSnew (_lit : Option Word) (wd : Nat) : Option Instr :=
  match unpack [6, 1, 1, 5, 5, 4, 1, 3, 6] wd with
  | [z0, x, c, b, a, w, ng, qp, op] =>
    if z0 == 0 && op == 2 then some (.snew ⟨BitVec.ofNat 3 qp, ng == 1⟩ (BitVec.ofNat 4 w) (BitVec.ofNat 5 a) (BitVec.ofNat 5 b) (c == 1) (x == 1)) else none
  | _ => none

/-- SPUB: the word's fields from bit 0 upward (R217). -/
def rowSpub (_lit : Option Word) (wd : Nat) : Option Instr :=
  match unpack [18, 4, 1, 3, 6] wd with
  | [z0, w, ng, qp, op] =>
    if z0 == 0 && op == 3 then some (.spub ⟨BitVec.ofNat 3 qp, ng == 1⟩ (BitVec.ofNat 4 w)) else none
  | _ => none

/-- SREL: the word's fields from bit 0 upward (R218). -/
def rowSrel (_lit : Option Word) (wd : Nat) : Option Instr :=
  match unpack [18, 4, 1, 3, 6] wd with
  | [z0, w, ng, qp, op] =>
    if z0 == 0 && op == 4 then some (.srel ⟨BitVec.ofNat 3 qp, ng == 1⟩ (BitVec.ofNat 4 w)) else none
  | _ => none

/-- SPIN: the word's fields from bit 0 upward (R219). -/
def rowSpin (_lit : Option Word) (wd : Nat) : Option Instr :=
  match unpack [18, 4, 1, 3, 6] wd with
  | [z0, w, ng, qp, op] =>
    if z0 == 0 && op == 5 then some (.spin ⟨BitVec.ofNat 3 qp, ng == 1⟩ (BitVec.ofNat 4 w)) else none
  | _ => none

/-- SPIN_REF: the word's fields from bit 0 upward (R219). -/
def rowSpinRef (_lit : Option Word) (wd : Nat) : Option Instr :=
  match unpack [4, 2, 2, 5, 5, 4, 1, 3, 6] wd with
  | [z0, h, r, b, a, z1, ng, qp, op] =>
    if z0 == 8 && z1 == 0 && op == 5 then some (.spinRef ⟨BitVec.ofNat 3 qp, ng == 1⟩ (BitVec.ofNat 5 a) (BitVec.ofNat 5 b) (BitVec.ofNat 2 r) (BitVec.ofNat 2 h)) else none
  | _ => none

/-- SUNPIN: the word's fields from bit 0 upward (R219). -/
def rowSunpin (_lit : Option Word) (wd : Nat) : Option Instr :=
  match unpack [18, 4, 1, 3, 6] wd with
  | [z0, w, ng, qp, op] =>
    if z0 == 0 && op == 6 then some (.sunpin ⟨BitVec.ofNat 3 qp, ng == 1⟩ (BitVec.ofNat 4 w)) else none
  | _ => none

/-- SUNPIN_REF: the word's fields from bit 0 upward (R219). -/
def rowSunpinRef (_lit : Option Word) (wd : Nat) : Option Instr :=
  match unpack [8, 5, 5, 4, 1, 3, 6] wd with
  | [z0, b, a, z1, ng, qp, op] =>
    if z0 == 8 && z1 == 0 && op == 6 then some (.sunpinRef ⟨BitVec.ofNat 3 qp, ng == 1⟩ (BitVec.ofNat 5 a) (BitVec.ofNat 5 b)) else none
  | _ => none

/-- SSEEK: the word's fields from bit 0 upward (R220). -/
def rowSseek (lit : Option Word) (wd : Nat) : Option Instr :=
  match unpack [12, 5, 1, 4, 1, 3, 6] wd with
  | [i, a, z0, w, ng, qp, op] =>
    if z0 == 0 && op == 7 then some (.sseek ⟨BitVec.ofNat 3 qp, ng == 1⟩ (BitVec.ofNat 4 w) (BitVec.ofNat 5 a) (BitVec.ofNat 12 i) lit) else none
  | _ => none

/-- SINFO: the word's fields from bit 0 upward (R221). -/
def rowSinfo (_lit : Option Word) (wd : Nat) : Option Instr :=
  match unpack [4, 4, 5, 4, 5, 1, 3, 6] wd with
  | [z0, t, z1, w, d, ng, qp, op] =>
    if z0 == 0 && z1 == 0 && op == 8 then some (.sinfo ⟨BitVec.ofNat 3 qp, ng == 1⟩ (BitVec.ofNat 5 d) (BitVec.ofNat 4 w) (BitVec.ofNat 4 t)) else none
  | _ => none

/-- SEDGE: the word's fields from bit 0 upward (R222). -/
def rowSedge (_lit : Option Word) (wd : Nat) : Option Instr :=
  match unpack [8, 5, 5, 4, 1, 3, 6] wd with
  | [z0, b, a, w, ng, qp, op] =>
    if z0 == 0 && op == 9 then some (.sedge ⟨BitVec.ofNat 3 qp, ng == 1⟩ (BitVec.ofNat 4 w) (BitVec.ofNat 5 a) (BitVec.ofNat 5 b)) else none
  | _ => none

/-- TLDV: the word's fields from bit 0 upward (R223). -/
def rowTldv (_lit : Option Word) (wd : Nat) : Option Instr :=
  match unpack [7, 1, 4, 4, 6, 1, 3, 6] wd with
  | [z0, h, k, w, v, ng, qp, op] =>
    if z0 == 0 && op == 10 then some (.tldv ⟨BitVec.ofNat 3 qp, ng == 1⟩ (BitVec.ofNat 6 v) (BitVec.ofNat 4 w) (BitVec.ofNat 4 k) (h == 1)) else none
  | _ => none

/-- TSTV: the word's fields from bit 0 upward (R224). -/
def rowTstv (_lit : Option Word) (wd : Nat) : Option Instr :=
  match unpack [7, 1, 4, 4, 6, 1, 3, 6] wd with
  | [z0, h, k, w, v, ng, qp, op] =>
    if z0 == 0 && op == 11 then some (.tstv ⟨BitVec.ofNat 3 qp, ng == 1⟩ (BitVec.ofNat 6 v) (BitVec.ofNat 4 w) (BitVec.ofNat 4 k) (h == 1)) else none
  | _ => none

/-- TLDX: the word's fields from bit 0 upward (R225). -/
def rowTldx (_lit : Option Word) (wd : Nat) : Option Instr :=
  match unpack [3, 5, 4, 4, 6, 1, 3, 6] wd with
  | [z0, a, k, w, v, ng, qp, op] =>
    if z0 == 0 && op == 12 then some (.tldx ⟨BitVec.ofNat 3 qp, ng == 1⟩ (BitVec.ofNat 6 v) (BitVec.ofNat 4 w) (BitVec.ofNat 4 k) (BitVec.ofNat 5 a)) else none
  | _ => none

/-- TWB: the word's fields from bit 0 upward (R226). -/
def rowTwb (_lit : Option Word) (wd : Nat) : Option Instr :=
  match unpack [18, 4, 1, 3, 6] wd with
  | [z0, w, ng, qp, op] =>
    if z0 == 0 && op == 13 then some (.twb ⟨BitVec.ofNat 3 qp, ng == 1⟩ (BitVec.ofNat 4 w)) else none
  | _ => none

/-- TPREF: the word's fields from bit 0 upward (R227). -/
def rowTpref (lit : Option Word) (wd : Nat) : Option Instr :=
  match unpack [12, 5, 5, 1, 3, 6] wd with
  | [i, a, z0, ng, qp, op] =>
    if z0 == 0 && op == 14 then some (.tpref ⟨BitVec.ofNat 3 qp, ng == 1⟩ (BitVec.ofNat 5 a) (BitVec.ofNat 12 i) lit) else none
  | _ => none

/-- WAYCONV: the word's fields from bit 0 upward (R228). -/
def rowWayconv (lit : Option Word) (wd : Nat) : Option Instr :=
  match unpack [12, 5, 5, 1, 3, 6] wd with
  | [i, z0, d, ng, qp, op] =>
    if z0 == 0 && op == 15 then some (.wayconv ⟨BitVec.ofNat 3 qp, ng == 1⟩ (BitVec.ofNat 5 d) (BitVec.ofNat 12 i) lit) else none
  | _ => none

/-- WAYREST: the word's fields from bit 0 upward (R228). -/
def rowWayrest (lit : Option Word) (wd : Nat) : Option Instr :=
  match unpack [12, 5, 5, 1, 3, 6] wd with
  | [i, z0, d, ng, qp, op] =>
    if z0 == 0 && op == 16 then some (.wayrest ⟨BitVec.ofNat 3 qp, ng == 1⟩ (BitVec.ofNat 5 d) (BitVec.ofNat 12 i) lit) else none
  | _ => none

/-- LDS: the word's fields from bit 0 upward (R230). -/
def rowLds (lit : Option Word) (wd : Nat) : Option Instr :=
  match unpack [9, 1, 2, 5, 5, 1, 3, 6] wd with
  | [o, s, z, a, d, ng, qp, op] =>
    if op == 17 then some (.lds ⟨BitVec.ofNat 3 qp, ng == 1⟩ (BitVec.ofNat 5 d) (BitVec.ofNat 5 a) (BitVec.ofNat 2 z) (s == 1) (BitVec.ofNat 9 o) lit) else none
  | _ => none

/-- STS: the word's fields from bit 0 upward (R230). -/
def rowSts (lit : Option Word) (wd : Nat) : Option Instr :=
  match unpack [9, 1, 2, 5, 5, 1, 3, 6] wd with
  | [o, z0, z, a, d, ng, qp, op] =>
    if z0 == 0 && op == 18 then some (.sts ⟨BitVec.ofNat 3 qp, ng == 1⟩ (BitVec.ofNat 5 d) (BitVec.ofNat 5 a) (BitVec.ofNat 2 z) (BitVec.ofNat 9 o) lit) else none
  | _ => none

/-- LD: the word's fields from bit 0 upward (R247). -/
def rowLd (lit : Option Word) (wd : Nat) : Option Instr :=
  match unpack [6, 1, 2, 1, 2, 5, 5, 1, 3, 6] wd with
  | [f, o, l, s, z, a, d, ng, qp, op] =>
    if op == 20 then (policyOf? l).bind fun l => some (.ld ⟨BitVec.ofNat 3 qp, ng == 1⟩ (BitVec.ofNat 5 d) (BitVec.ofNat 5 a) (BitVec.ofNat 2 z) (s == 1) l (o == 1) (BitVec.ofNat 6 f) lit) else none
  | _ => none

/-- LDP: the word's fields from bit 0 upward (R247). -/
def rowLdp (lit : Option Word) (wd : Nat) : Option Instr :=
  match unpack [6, 1, 2, 1, 2, 5, 5, 1, 3, 6] wd with
  | [f, o, l, s, z, a, d, ng, qp, op] =>
    if op == 21 then (policyOf? l).bind fun l => some (.ldp ⟨BitVec.ofNat 3 qp, ng == 1⟩ (BitVec.ofNat 5 d) (BitVec.ofNat 5 a) (BitVec.ofNat 2 z) (s == 1) l (o == 1) (BitVec.ofNat 6 f) lit) else none
  | _ => none

/-- ST: the word's fields from bit 0 upward (R247). -/
def rowSt (lit : Option Word) (wd : Nat) : Option Instr :=
  match unpack [6, 1, 2, 1, 2, 5, 5, 1, 3, 6] wd with
  | [f, o, l, z0, z, a, d, ng, qp, op] =>
    if z0 == 0 && op == 22 then (policyOf? l).bind fun l => some (.st ⟨BitVec.ofNat 3 qp, ng == 1⟩ (BitVec.ofNat 5 d) (BitVec.ofNat 5 a) (BitVec.ofNat 2 z) l (o == 1) (BitVec.ofNat 6 f) lit) else none
  | _ => none

/-- STP: the word's fields from bit 0 upward (R247). -/
def rowStp (lit : Option Word) (wd : Nat) : Option Instr :=
  match unpack [6, 1, 2, 1, 2, 5, 5, 1, 3, 6] wd with
  | [f, o, l, z0, z, a, d, ng, qp, op] =>
    if z0 == 0 && op == 23 then (policyOf? l).bind fun l => some (.stp ⟨BitVec.ofNat 3 qp, ng == 1⟩ (BitVec.ofNat 5 d) (BitVec.ofNat 5 a) (BitVec.ofNat 2 z) l (o == 1) (BitVec.ofNat 6 f) lit) else none
  | _ => none

/-- VLD: the word's fields from bit 0 upward (R250). -/
def rowVld (_lit : Option Word) (wd : Nat) : Option Instr :=
  match unpack [2, 5, 5, 4, 6, 1, 3, 6] wd with
  | [z, b, a, k, v, ng, qp, op] =>
    if op == 24 then some (.vld ⟨BitVec.ofNat 3 qp, ng == 1⟩ (BitVec.ofNat 6 v) (BitVec.ofNat 4 k) (BitVec.ofNat 5 a) (BitVec.ofNat 5 b) (BitVec.ofNat 2 z)) else none
  | _ => none

/-- VGLD: the word's fields from bit 0 upward (R250). -/
def rowVgld (_lit : Option Word) (wd : Nat) : Option Instr :=
  match unpack [2, 5, 5, 4, 6, 1, 3, 6] wd with
  | [z, b, a, k, v, ng, qp, op] =>
    if op == 25 then some (.vgld ⟨BitVec.ofNat 3 qp, ng == 1⟩ (BitVec.ofNat 6 v) (BitVec.ofNat 4 k) (BitVec.ofNat 5 a) (BitVec.ofNat 5 b) (BitVec.ofNat 2 z)) else none
  | _ => none

/-- VST: the word's fields from bit 0 upward (R250). -/
def rowVst (_lit : Option Word) (wd : Nat) : Option Instr :=
  match unpack [2, 5, 5, 4, 6, 1, 3, 6] wd with
  | [z, b, a, k, v, ng, qp, op] =>
    if op == 26 then some (.vst ⟨BitVec.ofNat 3 qp, ng == 1⟩ (BitVec.ofNat 6 v) (BitVec.ofNat 4 k) (BitVec.ofNat 5 a) (BitVec.ofNat 5 b) (BitVec.ofNat 2 z)) else none
  | _ => none

/-- VSST: the word's fields from bit 0 upward (R250). -/
def rowVsst (_lit : Option Word) (wd : Nat) : Option Instr :=
  match unpack [2, 5, 5, 4, 6, 1, 3, 6] wd with
  | [z, b, a, k, v, ng, qp, op] =>
    if op == 27 then some (.vsst ⟨BitVec.ofNat 3 qp, ng == 1⟩ (BitVec.ofNat 6 v) (BitVec.ofNat 4 k) (BitVec.ofNat 5 a) (BitVec.ofNat 5 b) (BitVec.ofNat 2 z)) else none
  | _ => none

/-- AMO: the word's fields from bit 0 upward (R254). -/
def rowAmo (_lit : Option Word) (wd : Nat) : Option Instr :=
  match unpack [2, 1, 4, 5, 5, 5, 1, 3, 6] wd with
  | [r, z, o, b, a, d, ng, qp, op] =>
    if op == 28 then (atomicOf? o).bind fun o => some (.amo ⟨BitVec.ofNat 3 qp, ng == 1⟩ (BitVec.ofNat 5 d) (BitVec.ofNat 5 a) (BitVec.ofNat 5 b) o (z == 1) (BitVec.ofNat 2 r)) else none
  | _ => none

/-- CAS: the word's fields from bit 0 upward (R255). -/
def rowCas (_lit : Option Word) (wd : Nat) : Option Instr :=
  match unpack [2, 1, 4, 5, 5, 5, 1, 3, 6] wd with
  | [r, z, z0, b, a, d, ng, qp, op] =>
    if z0 == 0 && op == 29 then some (.cas ⟨BitVec.ofNat 3 qp, ng == 1⟩ (BitVec.ofNat 5 d) (BitVec.ofNat 5 a) (BitVec.ofNat 5 b) (z == 1) (BitVec.ofNat 2 r)) else none
  | _ => none

/-- VAMO: the word's fields from bit 0 upward (R256). -/
def rowVamo (_lit : Option Word) (wd : Nat) : Option Instr :=
  match unpack [4, 3, 5, 5, 5, 1, 3, 6] wd with
  | [o, k, i, a, v, ng, qp, op] =>
    if op == 30 then (atomicOf? o).bind fun o => some (.vamo ⟨BitVec.ofNat 3 qp, ng == 1⟩ (BitVec.ofNat 5 v) (BitVec.ofNat 5 a) (BitVec.ofNat 5 i) (BitVec.ofNat 3 k) o) else none
  | _ => none

/-- MCAS: the word's fields from bit 0 upward (R258). -/
def rowMcas (_lit : Option Word) (wd : Nat) : Option Instr :=
  match unpack [9, 3, 5, 5, 1, 3, 6] wd with
  | [z0, c, a, d, ng, qp, op] =>
    if z0 == 0 && op == 31 then some (.mcas ⟨BitVec.ofNat 3 qp, ng == 1⟩ (BitVec.ofNat 5 d) (BitVec.ofNat 5 a) (BitVec.ofNat 3 c)) else none
  | _ => none

/-- RWB: the word's fields from bit 0 upward (R259). -/
def rowRwb (_lit : Option Word) (wd : Nat) : Option Instr :=
  match unpack [7, 5, 5, 5, 1, 3, 6] wd with
  | [z0, b, a, z1, ng, qp, op] =>
    if z0 == 0 && z1 == 0 && op == 32 then some (.rwb ⟨BitVec.ofNat 3 qp, ng == 1⟩ (BitVec.ofNat 5 a) (BitVec.ofNat 5 b)) else none
  | _ => none

/-- RINV: the word's fields from bit 0 upward (R259). -/
def rowRinv (_lit : Option Word) (wd : Nat) : Option Instr :=
  match unpack [7, 5, 5, 5, 1, 3, 6] wd with
  | [z0, b, a, z1, ng, qp, op] =>
    if z0 == 0 && z1 == 0 && op == 33 then some (.rinv ⟨BitVec.ofNat 3 qp, ng == 1⟩ (BitVec.ofNat 5 a) (BitVec.ofNat 5 b)) else none
  | _ => none

/-- RWBINV: the word's fields from bit 0 upward (R259). -/
def rowRwbinv (_lit : Option Word) (wd : Nat) : Option Instr :=
  match unpack [7, 5, 5, 5, 1, 3, 6] wd with
  | [z0, b, a, z1, ng, qp, op] =>
    if z0 == 0 && z1 == 0 && op == 34 then some (.rwbinv ⟨BitVec.ofNat 3 qp, ng == 1⟩ (BitVec.ofNat 5 a) (BitVec.ofNat 5 b)) else none
  | _ => none

/-- RSTF: the word's fields from bit 0 upward (R376). -/
def rowRstf (_lit : Option Word) (wd : Nat) : Option Instr :=
  match unpack [2, 5, 5, 4, 6, 1, 3, 6] wd with
  | [z0, b, a, k, v, ng, qp, op] =>
    if z0 == 0 && op == 35 then some (.rstf ⟨BitVec.ofNat 3 qp, ng == 1⟩ (BitVec.ofNat 6 v) (BitVec.ofNat 4 k) (BitVec.ofNat 5 a) (BitVec.ofNat 5 b)) else none
  | _ => none

/-- ACOPY: the word's fields from bit 0 upward (R262). -/
def rowAcopy (lit : Option Word) (wd : Nat) : Option Instr :=
  match unpack [12, 5, 5, 1, 3, 6] wd with
  | [i, a, z0, ng, qp, op] =>
    if z0 == 0 && op == 36 then some (.acopy ⟨BitVec.ofNat 3 qp, ng == 1⟩ (BitVec.ofNat 5 a) (BitVec.ofNat 12 i) lit) else none
  | _ => none

/-- PFL: the word's fields from bit 0 upward (R260). -/
def rowPfl (lit : Option Word) (wd : Nat) : Option Instr :=
  match unpack [12, 5, 1, 4, 1, 3, 6] wd with
  | [i, a, e, z0, ng, qp, op] =>
    if z0 == 0 && op == 37 then some (.pfl ⟨BitVec.ofNat 3 qp, ng == 1⟩ (e == 1) (BitVec.ofNat 5 a) (BitVec.ofNat 12 i) lit) else none
  | _ => none

/-- VADD: the word's fields from bit 0 upward (R140). -/
def rowVadd (_lit : Option Word) (wd : Nat) : Option Instr :=
  match unpack [4, 6, 6, 6, 4, 6] wd with
  | [t, b, a, d, k, op] =>
    if op == 0 then (elemOf? t).bind fun t => some (.vadd (BitVec.ofNat 4 k) (BitVec.ofNat 6 d) (BitVec.ofNat 6 a) (BitVec.ofNat 6 b) t) else none
  | _ => none

/-- VSUB: the word's fields from bit 0 upward (R140). -/
def rowVsub (_lit : Option Word) (wd : Nat) : Option Instr :=
  match unpack [4, 6, 6, 6, 4, 6] wd with
  | [t, b, a, d, k, op] =>
    if op == 1 then (elemOf? t).bind fun t => some (.vsub (BitVec.ofNat 4 k) (BitVec.ofNat 6 d) (BitVec.ofNat 6 a) (BitVec.ofNat 6 b) t) else none
  | _ => none

/-- VMUL: the word's fields from bit 0 upward (R140). -/
def rowVmul (_lit : Option Word) (wd : Nat) : Option Instr :=
  match unpack [4, 6, 6, 6, 4, 6] wd with
  | [t, b, a, d, k, op] =>
    if op == 2 then (elemOf? t).bind fun t => some (.vmul (BitVec.ofNat 4 k) (BitVec.ofNat 6 d) (BitVec.ofNat 6 a) (BitVec.ofNat 6 b) t) else none
  | _ => none

/-- VFMA: the word's fields from bit 0 upward (R140). -/
def rowVfma (_lit : Option Word) (wd : Nat) : Option Instr :=
  match unpack [4, 6, 6, 6, 4, 6] wd with
  | [t, b, a, d, k, op] =>
    if op == 3 then (elemOf? t).bind fun t => some (.vfma (BitVec.ofNat 4 k) (BitVec.ofNat 6 d) (BitVec.ofNat 6 a) (BitVec.ofNat 6 b) t) else none
  | _ => none

/-- VFMS: the word's fields from bit 0 upward (R140). -/
def rowVfms (_lit : Option Word) (wd : Nat) : Option Instr :=
  match unpack [4, 6, 6, 6, 4, 6] wd with
  | [t, b, a, d, k, op] =>
    if op == 4 then (elemOf? t).bind fun t => some (.vfms (BitVec.ofNat 4 k) (BitVec.ofNat 6 d) (BitVec.ofNat 6 a) (BitVec.ofNat 6 b) t) else none
  | _ => none

/-- VMIN: the word's fields from bit 0 upward (R140). -/
def rowVmin (_lit : Option Word) (wd : Nat) : Option Instr :=
  match unpack [4, 6, 6, 6, 4, 6] wd with
  | [t, b, a, d, k, op] =>
    if op == 5 then (elemOf? t).bind fun t => some (.vmin (BitVec.ofNat 4 k) (BitVec.ofNat 6 d) (BitVec.ofNat 6 a) (BitVec.ofNat 6 b) t) else none
  | _ => none

/-- VMAX: the word's fields from bit 0 upward (R140). -/
def rowVmax (_lit : Option Word) (wd : Nat) : Option Instr :=
  match unpack [4, 6, 6, 6, 4, 6] wd with
  | [t, b, a, d, k, op] =>
    if op == 6 then (elemOf? t).bind fun t => some (.vmax (BitVec.ofNat 4 k) (BitVec.ofNat 6 d) (BitVec.ofNat 6 a) (BitVec.ofNat 6 b) t) else none
  | _ => none

/-- VABS: the word's fields from bit 0 upward (R141). -/
def rowVabs (_lit : Option Word) (wd : Nat) : Option Instr :=
  match unpack [4, 6, 6, 6, 4, 6] wd with
  | [t, z0, a, d, k, op] =>
    if z0 == 0 && op == 7 then (elemOf? t).bind fun t => some (.vabs (BitVec.ofNat 4 k) (BitVec.ofNat 6 d) (BitVec.ofNat 6 a) t) else none
  | _ => none

/-- VNEG: the word's fields from bit 0 upward (R141). -/
def rowVneg (_lit : Option Word) (wd : Nat) : Option Instr :=
  match unpack [4, 6, 6, 6, 4, 6] wd with
  | [t, z0, a, d, k, op] =>
    if z0 == 0 && op == 8 then (elemOf? t).bind fun t => some (.vneg (BitVec.ofNat 4 k) (BitVec.ofNat 6 d) (BitVec.ofNat 6 a) t) else none
  | _ => none

/-- VABD: the word's fields from bit 0 upward (R140). -/
def rowVabd (_lit : Option Word) (wd : Nat) : Option Instr :=
  match unpack [4, 6, 6, 6, 4, 6] wd with
  | [t, b, a, d, k, op] =>
    if op == 9 then (elemOf? t).bind fun t => some (.vabd (BitVec.ofNat 4 k) (BitVec.ofNat 6 d) (BitVec.ofNat 6 a) (BitVec.ofNat 6 b) t) else none
  | _ => none

/-- VADDS: the word's fields from bit 0 upward (R140). -/
def rowVadds (_lit : Option Word) (wd : Nat) : Option Instr :=
  match unpack [4, 6, 6, 6, 4, 6] wd with
  | [t, b, a, d, k, op] =>
    if op == 10 then (elemOf? t).bind fun t => some (.vadds (BitVec.ofNat 4 k) (BitVec.ofNat 6 d) (BitVec.ofNat 6 a) (BitVec.ofNat 6 b) t) else none
  | _ => none

/-- VSUBS: the word's fields from bit 0 upward (R140). -/
def rowVsubs (_lit : Option Word) (wd : Nat) : Option Instr :=
  match unpack [4, 6, 6, 6, 4, 6] wd with
  | [t, b, a, d, k, op] =>
    if op == 11 then (elemOf? t).bind fun t => some (.vsubs (BitVec.ofNat 4 k) (BitVec.ofNat 6 d) (BitVec.ofNat 6 a) (BitVec.ofNat 6 b) t) else none
  | _ => none

/-- VMULH: the word's fields from bit 0 upward (R140). -/
def rowVmulh (_lit : Option Word) (wd : Nat) : Option Instr :=
  match unpack [4, 6, 6, 6, 4, 6] wd with
  | [t, b, a, d, k, op] =>
    if op == 12 then (elemOf? t).bind fun t => some (.vmulh (BitVec.ofNat 4 k) (BitVec.ofNat 6 d) (BitVec.ofNat 6 a) (BitVec.ofNat 6 b) t) else none
  | _ => none

/-- VSHL: the word's fields from bit 0 upward (R142). -/
def rowVshl (_lit : Option Word) (wd : Nat) : Option Instr :=
  match unpack [4, 6, 6, 6, 4, 6] wd with
  | [t, b, a, d, k, op] =>
    if op == 13 then (elemOf? t).bind fun t => some (.vshl (BitVec.ofNat 4 k) (BitVec.ofNat 6 d) (BitVec.ofNat 6 a) (BitVec.ofNat 6 b) t) else none
  | _ => none

/-- VSHR: the word's fields from bit 0 upward (R142). -/
def rowVshr (_lit : Option Word) (wd : Nat) : Option Instr :=
  match unpack [4, 6, 6, 6, 4, 6] wd with
  | [t, b, a, d, k, op] =>
    if op == 14 then (elemOf? t).bind fun t => some (.vshr (BitVec.ofNat 4 k) (BitVec.ofNat 6 d) (BitVec.ofNat 6 a) (BitVec.ofNat 6 b) t) else none
  | _ => none

/-- VSAR: the word's fields from bit 0 upward (R142). -/
def rowVsar (_lit : Option Word) (wd : Nat) : Option Instr :=
  match unpack [4, 6, 6, 6, 4, 6] wd with
  | [t, b, a, d, k, op] =>
    if op == 15 then (elemOf? t).bind fun t => some (.vsar (BitVec.ofNat 4 k) (BitVec.ofNat 6 d) (BitVec.ofNat 6 a) (BitVec.ofNat 6 b) t) else none
  | _ => none

/-- VAND: the word's fields from bit 0 upward (R143). -/
def rowVand (_lit : Option Word) (wd : Nat) : Option Instr :=
  match unpack [4, 6, 6, 6, 4, 6] wd with
  | [t, b, a, d, k, op] =>
    if op == 16 then (elemOf? t).bind fun t => some (.vand (BitVec.ofNat 4 k) (BitVec.ofNat 6 d) (BitVec.ofNat 6 a) (BitVec.ofNat 6 b) t) else none
  | _ => none

/-- VOR: the word's fields from bit 0 upward (R143). -/
def rowVor (_lit : Option Word) (wd : Nat) : Option Instr :=
  match unpack [4, 6, 6, 6, 4, 6] wd with
  | [t, b, a, d, k, op] =>
    if op == 17 then (elemOf? t).bind fun t => some (.vor (BitVec.ofNat 4 k) (BitVec.ofNat 6 d) (BitVec.ofNat 6 a) (BitVec.ofNat 6 b) t) else none
  | _ => none

/-- VXOR: the word's fields from bit 0 upward (R143). -/
def rowVxor (_lit : Option Word) (wd : Nat) : Option Instr :=
  match unpack [4, 6, 6, 6, 4, 6] wd with
  | [t, b, a, d, k, op] =>
    if op == 18 then (elemOf? t).bind fun t => some (.vxor (BitVec.ofNat 4 k) (BitVec.ofNat 6 d) (BitVec.ofNat 6 a) (BitVec.ofNat 6 b) t) else none
  | _ => none

/-- VANDN: the word's fields from bit 0 upward (R143). -/
def rowVandn (_lit : Option Word) (wd : Nat) : Option Instr :=
  match unpack [4, 6, 6, 6, 4, 6] wd with
  | [t, b, a, d, k, op] =>
    if op == 19 then (elemOf? t).bind fun t => some (.vandn (BitVec.ofNat 4 k) (BitVec.ofNat 6 d) (BitVec.ofNat 6 a) (BitVec.ofNat 6 b) t) else none
  | _ => none

/-- VPOPC: the word's fields from bit 0 upward (R141). -/
def rowVpopc (_lit : Option Word) (wd : Nat) : Option Instr :=
  match unpack [4, 6, 6, 6, 4, 6] wd with
  | [t, z0, a, d, k, op] =>
    if z0 == 0 && op == 20 then (elemOf? t).bind fun t => some (.vpopc (BitVec.ofNat 4 k) (BitVec.ofNat 6 d) (BitVec.ofNat 6 a) t) else none
  | _ => none

/-- VCLZ: the word's fields from bit 0 upward (R141). -/
def rowVclz (_lit : Option Word) (wd : Nat) : Option Instr :=
  match unpack [4, 6, 6, 6, 4, 6] wd with
  | [t, z0, a, d, k, op] =>
    if z0 == 0 && op == 21 then (elemOf? t).bind fun t => some (.vclz (BitVec.ofNat 4 k) (BitVec.ofNat 6 d) (BitVec.ofNat 6 a) t) else none
  | _ => none

/-- VCEQ: the word's fields from bit 0 upward (R144). -/
def rowVceq (_lit : Option Word) (wd : Nat) : Option Instr :=
  match unpack [4, 6, 6, 4, 2, 4, 6] wd with
  | [t, b, a, d, z0, k, op] =>
    if z0 == 0 && op == 22 then (elemOf? t).bind fun t => some (.vceq (BitVec.ofNat 4 k) (BitVec.ofNat 4 d) (BitVec.ofNat 6 a) (BitVec.ofNat 6 b) t) else none
  | _ => none

/-- VCNE: the word's fields from bit 0 upward (R144). -/
def rowVcne (_lit : Option Word) (wd : Nat) : Option Instr :=
  match unpack [4, 6, 6, 4, 2, 4, 6] wd with
  | [t, b, a, d, z0, k, op] =>
    if z0 == 0 && op == 23 then (elemOf? t).bind fun t => some (.vcne (BitVec.ofNat 4 k) (BitVec.ofNat 4 d) (BitVec.ofNat 6 a) (BitVec.ofNat 6 b) t) else none
  | _ => none

/-- VCLT: the word's fields from bit 0 upward (R144). -/
def rowVclt (_lit : Option Word) (wd : Nat) : Option Instr :=
  match unpack [4, 6, 6, 4, 2, 4, 6] wd with
  | [t, b, a, d, z0, k, op] =>
    if z0 == 0 && op == 24 then (elemOf? t).bind fun t => some (.vclt (BitVec.ofNat 4 k) (BitVec.ofNat 4 d) (BitVec.ofNat 6 a) (BitVec.ofNat 6 b) t) else none
  | _ => none

/-- VCLE: the word's fields from bit 0 upward (R144). -/
def rowVcle (_lit : Option Word) (wd : Nat) : Option Instr :=
  match unpack [4, 6, 6, 4, 2, 4, 6] wd with
  | [t, b, a, d, z0, k, op] =>
    if z0 == 0 && op == 25 then (elemOf? t).bind fun t => some (.vcle (BitVec.ofNat 4 k) (BitVec.ofNat 4 d) (BitVec.ofNat 6 a) (BitVec.ofNat 6 b) t) else none
  | _ => none

/-- VSEL: the word's fields from bit 0 upward (R145). -/
def rowVsel (_lit : Option Word) (wd : Nat) : Option Instr :=
  match unpack [4, 6, 6, 6, 4, 6] wd with
  | [t, b, a, d, k, op] =>
    if op == 26 then (elemOf? t).bind fun t => some (.vsel (BitVec.ofNat 4 k) (BitVec.ofNat 6 d) (BitVec.ofNat 6 a) (BitVec.ofNat 6 b) t) else none
  | _ => none

/-- VMOV: the word's fields from bit 0 upward (R145). -/
def rowVmov (_lit : Option Word) (wd : Nat) : Option Instr :=
  match unpack [4, 6, 6, 6, 4, 6] wd with
  | [t, z0, a, d, k, op] =>
    if z0 == 0 && op == 27 then (elemOf? t).bind fun t => some (.vmov (BitVec.ofNat 4 k) (BitVec.ofNat 6 d) (BitVec.ofNat 6 a) t) else none
  | _ => none

/-- VIMM: the word's fields from bit 0 upward (R146). -/
def rowVimm (lit : Option Word) (wd : Nat) : Option Instr :=
  match unpack [4, 6, 6, 6, 4, 6] wd with
  | [t, i, z0, d, k, op] =>
    if z0 == 0 && op == 28 then (elemOf? t).bind fun t => some (.vimm (BitVec.ofNat 4 k) (BitVec.ofNat 6 d) (BitVec.ofNat 6 i) t lit) else none
  | _ => none

/-- VIOTA: the word's fields from bit 0 upward (R146). -/
def rowViota (lit : Option Word) (wd : Nat) : Option Instr :=
  match unpack [4, 6, 6, 6, 4, 6] wd with
  | [t, i, z0, d, k, op] =>
    if z0 == 0 && op == 29 then (elemOf? t).bind fun t => some (.viota (BitVec.ofNat 4 k) (BitVec.ofNat 6 d) (BitVec.ofNat 6 i) t lit) else none
  | _ => none

/-- VCVT: the word's fields from bit 0 upward (R147). -/
def rowVcvt (_lit : Option Word) (wd : Nat) : Option Instr :=
  match unpack [4, 4, 2, 6, 6, 4, 6] wd with
  | [t, s, m, a, d, k, op] =>
    if op == 30 then (rmodeOf? m).bind fun m => (elemOf? s).bind fun s => (elemOf? t).bind fun t => some (.vcvt (BitVec.ofNat 4 k) (BitVec.ofNat 6 d) (BitVec.ofNat 6 a) m s t) else none
  | _ => none

/-- VRND: the word's fields from bit 0 upward (R148). -/
def rowVrnd (_lit : Option Word) (wd : Nat) : Option Instr :=
  match unpack [4, 2, 4, 6, 6, 4, 6] wd with
  | [t, m, z0, a, d, k, op] =>
    if z0 == 0 && op == 31 then (rmodeOf? m).bind fun m => (elemOf? t).bind fun t => some (.vrnd (BitVec.ofNat 4 k) (BitVec.ofNat 6 d) (BitVec.ofNat 6 a) m t) else none
  | _ => none

/-- VEXP2: the word's fields from bit 0 upward (R149). -/
def rowVexp2 (_lit : Option Word) (wd : Nat) : Option Instr :=
  match unpack [4, 6, 6, 6, 4, 6] wd with
  | [t, z0, a, d, k, op] =>
    if z0 == 0 && op == 32 then (elemOf? t).bind fun t => some (.vexp2 (BitVec.ofNat 4 k) (BitVec.ofNat 6 d) (BitVec.ofNat 6 a) t) else none
  | _ => none

/-- VLOG2: the word's fields from bit 0 upward (R149). -/
def rowVlog2 (_lit : Option Word) (wd : Nat) : Option Instr :=
  match unpack [4, 6, 6, 6, 4, 6] wd with
  | [t, z0, a, d, k, op] =>
    if z0 == 0 && op == 33 then (elemOf? t).bind fun t => some (.vlog2 (BitVec.ofNat 4 k) (BitVec.ofNat 6 d) (BitVec.ofNat 6 a) t) else none
  | _ => none

/-- VRCP: the word's fields from bit 0 upward (R149). -/
def rowVrcp (_lit : Option Word) (wd : Nat) : Option Instr :=
  match unpack [4, 6, 6, 6, 4, 6] wd with
  | [t, z0, a, d, k, op] =>
    if z0 == 0 && op == 34 then (elemOf? t).bind fun t => some (.vrcp (BitVec.ofNat 4 k) (BitVec.ofNat 6 d) (BitVec.ofNat 6 a) t) else none
  | _ => none

/-- VRSQ: the word's fields from bit 0 upward (R149). -/
def rowVrsq (_lit : Option Word) (wd : Nat) : Option Instr :=
  match unpack [4, 6, 6, 6, 4, 6] wd with
  | [t, z0, a, d, k, op] =>
    if z0 == 0 && op == 35 then (elemOf? t).bind fun t => some (.vrsq (BitVec.ofNat 4 k) (BitVec.ofNat 6 d) (BitVec.ofNat 6 a) t) else none
  | _ => none

/-- VREDSUM: the word's fields from bit 0 upward (R150). -/
def rowVredsum (_lit : Option Word) (wd : Nat) : Option Instr :=
  match unpack [4, 6, 6, 6, 4, 6] wd with
  | [t, z0, a, d, k, op] =>
    if z0 == 0 && op == 36 then (elemOf? t).bind fun t => some (.vredsum (BitVec.ofNat 4 k) (BitVec.ofNat 6 d) (BitVec.ofNat 6 a) t) else none
  | _ => none

/-- VREDMIN: the word's fields from bit 0 upward (R150). -/
def rowVredmin (_lit : Option Word) (wd : Nat) : Option Instr :=
  match unpack [4, 6, 6, 6, 4, 6] wd with
  | [t, z0, a, d, k, op] =>
    if z0 == 0 && op == 37 then (elemOf? t).bind fun t => some (.vredmin (BitVec.ofNat 4 k) (BitVec.ofNat 6 d) (BitVec.ofNat 6 a) t) else none
  | _ => none

/-- VREDMAX: the word's fields from bit 0 upward (R150). -/
def rowVredmax (_lit : Option Word) (wd : Nat) : Option Instr :=
  match unpack [4, 6, 6, 6, 4, 6] wd with
  | [t, z0, a, d, k, op] =>
    if z0 == 0 && op == 38 then (elemOf? t).bind fun t => some (.vredmax (BitVec.ofNat 4 k) (BitVec.ofNat 6 d) (BitVec.ofNat 6 a) t) else none
  | _ => none

/-- VSCAN: the word's fields from bit 0 upward (R151). -/
def rowVscan (_lit : Option Word) (wd : Nat) : Option Instr :=
  match unpack [4, 2, 4, 6, 6, 4, 6] wd with
  | [t, o, z0, a, d, k, op] =>
    if z0 == 0 && op == 39 then (elemOf? t).bind fun t => some (.vscan (BitVec.ofNat 4 k) (BitVec.ofNat 6 d) (BitVec.ofNat 6 a) (BitVec.ofNat 2 o) t) else none
  | _ => none

/-- VPERM: the word's fields from bit 0 upward (R152). -/
def rowVperm (_lit : Option Word) (wd : Nat) : Option Instr :=
  match unpack [4, 6, 6, 6, 4, 6] wd with
  | [t, b, a, d, k, op] =>
    if op == 40 then (elemOf? t).bind fun t => some (.vperm (BitVec.ofNat 4 k) (BitVec.ofNat 6 d) (BitVec.ofNat 6 a) (BitVec.ofNat 6 b) t) else none
  | _ => none

/-- VSLIDE: the word's fields from bit 0 upward (R152). -/
def rowVslide (lit : Option Word) (wd : Nat) : Option Instr :=
  match unpack [4, 6, 6, 6, 4, 6] wd with
  | [t, i, a, d, k, op] =>
    if op == 41 then (elemOf? t).bind fun t => some (.vslide (BitVec.ofNat 4 k) (BitVec.ofNat 6 d) (BitVec.ofNat 6 a) (BitVec.ofNat 6 i) t lit) else none
  | _ => none

/-- VTOPK: the word's fields from bit 0 upward (R154). -/
def rowVtopk (_lit : Option Word) (wd : Nat) : Option Instr :=
  match unpack [4, 6, 6, 6, 4, 6] wd with
  | [t, z0, a, d, k, op] =>
    if z0 == 0 && op == 42 then (elemOf? t).bind fun t => some (.vtopk (BitVec.ofNat 4 k) (BitVec.ofNat 6 d) (BitVec.ofNat 6 a) t) else none
  | _ => none

/-- VBSET: the word's fields from bit 0 upward (R153). -/
def rowVbset (_lit : Option Word) (wd : Nat) : Option Instr :=
  match unpack [4, 6, 6, 6, 4, 6] wd with
  | [z0, b, z1, d, k, op] =>
    if z0 == 5 && z1 == 0 && op == 43 then some (.vbset (BitVec.ofNat 4 k) (BitVec.ofNat 6 d) (BitVec.ofNat 6 b)) else none
  | _ => none

/-- VKAND: the word's fields from bit 0 upward (R155). -/
def rowVkand (_lit : Option Word) (wd : Nat) : Option Instr :=
  match unpack [4, 4, 2, 4, 2, 4, 6, 6] wd with
  | [z0, b, z1, a, z2, d, z3, op] =>
    if z0 == 0 && z1 == 0 && z2 == 0 && z3 == 0 && op == 44 then some (.vkand (BitVec.ofNat 4 d) (BitVec.ofNat 4 a) (BitVec.ofNat 4 b)) else none
  | _ => none

/-- VKOR: the word's fields from bit 0 upward (R155). -/
def rowVkor (_lit : Option Word) (wd : Nat) : Option Instr :=
  match unpack [4, 4, 2, 4, 2, 4, 6, 6] wd with
  | [z0, b, z1, a, z2, d, z3, op] =>
    if z0 == 0 && z1 == 0 && z2 == 0 && z3 == 0 && op == 45 then some (.vkor (BitVec.ofNat 4 d) (BitVec.ofNat 4 a) (BitVec.ofNat 4 b)) else none
  | _ => none

/-- VKXOR: the word's fields from bit 0 upward (R155). -/
def rowVkxor (_lit : Option Word) (wd : Nat) : Option Instr :=
  match unpack [4, 4, 2, 4, 2, 4, 6, 6] wd with
  | [z0, b, z1, a, z2, d, z3, op] =>
    if z0 == 0 && z1 == 0 && z2 == 0 && z3 == 0 && op == 46 then some (.vkxor (BitVec.ofNat 4 d) (BitVec.ofNat 4 a) (BitVec.ofNat 4 b)) else none
  | _ => none

/-- VKANDN: the word's fields from bit 0 upward (R155). -/
def rowVkandn (_lit : Option Word) (wd : Nat) : Option Instr :=
  match unpack [4, 4, 2, 4, 2, 4, 6, 6] wd with
  | [z0, b, z1, a, z2, d, z3, op] =>
    if z0 == 0 && z1 == 0 && z2 == 0 && z3 == 0 && op == 47 then some (.vkandn (BitVec.ofNat 4 d) (BitVec.ofNat 4 a) (BitVec.ofNat 4 b)) else none
  | _ => none

/-- VKPOP: the word's fields from bit 0 upward (R155). -/
def rowVkpop (_lit : Option Word) (wd : Nat) : Option Instr :=
  match unpack [10, 4, 2, 6, 4, 6] wd with
  | [z0, a, z1, d, z2, op] =>
    if z0 == 5 && z1 == 0 && z2 == 0 && op == 48 then some (.vkpop (BitVec.ofNat 6 d) (BitVec.ofNat 4 a)) else none
  | _ => none

/-- VKFIRST: the word's fields from bit 0 upward (R155). -/
def rowVkfirst (_lit : Option Word) (wd : Nat) : Option Instr :=
  match unpack [10, 4, 2, 6, 4, 6] wd with
  | [z0, a, z1, d, z2, op] =>
    if z0 == 5 && z1 == 0 && z2 == 0 && op == 49 then some (.vkfirst (BitVec.ofNat 6 d) (BitVec.ofNat 4 a)) else none
  | _ => none

/-- VSHLI: the word's fields from bit 0 upward (R142). -/
def rowVshli (lit : Option Word) (wd : Nat) : Option Instr :=
  match unpack [4, 6, 6, 6, 4, 6] wd with
  | [t, i, a, d, k, op] =>
    if op == 50 then (elemOf? t).bind fun t => some (.vshli (BitVec.ofNat 4 k) (BitVec.ofNat 6 d) (BitVec.ofNat 6 a) (BitVec.ofNat 6 i) t lit) else none
  | _ => none

/-- VSHRI: the word's fields from bit 0 upward (R142). -/
def rowVshri (lit : Option Word) (wd : Nat) : Option Instr :=
  match unpack [4, 6, 6, 6, 4, 6] wd with
  | [t, i, a, d, k, op] =>
    if op == 51 then (elemOf? t).bind fun t => some (.vshri (BitVec.ofNat 4 k) (BitVec.ofNat 6 d) (BitVec.ofNat 6 a) (BitVec.ofNat 6 i) t lit) else none
  | _ => none

/-- VSARI: the word's fields from bit 0 upward (R142). -/
def rowVsari (lit : Option Word) (wd : Nat) : Option Instr :=
  match unpack [4, 6, 6, 6, 4, 6] wd with
  | [t, i, a, d, k, op] =>
    if op == 52 then (elemOf? t).bind fun t => some (.vsari (BitVec.ofNat 4 k) (BitVec.ofNat 6 d) (BitVec.ofNat 6 a) (BitVec.ofNat 6 i) t lit) else none
  | _ => none

/-- MPASS: the word's fields from bit 0 upward (R170). -/
def rowMpass (_lit : Option Word) (wd : Nat) : Option Instr :=
  match unpack [8, 1, 1, 2, 4, 4, 2, 1, 3, 6] wd with
  | [z0, j, k, o, b, w, a, ng, qp, op] =>
    if z0 == 0 && op == 0 then (cellOpOf? o).bind fun o => some (.mpass ⟨BitVec.ofNat 3 qp, ng == 1⟩ (BitVec.ofNat 2 a) (BitVec.ofNat 4 w) (BitVec.ofNat 4 b) o (k == 1) (j == 1)) else none
  | _ => none

/-- MOP: the word's fields from bit 0 upward (R171). -/
def rowMop (_lit : Option Word) (wd : Nat) : Option Instr :=
  match unpack [10, 2, 10, 1, 3, 6] wd with
  | [z0, o, z1, ng, qp, op] =>
    if z0 == 0 && z1 == 0 && op == 1 then (cellOpOf? o).bind fun o => some (.mop ⟨BitVec.ofNat 3 qp, ng == 1⟩ o) else none
  | _ => none

/-- MGATH: the word's fields from bit 0 upward (R172). -/
def rowMgath (_lit : Option Word) (wd : Nat) : Option Instr :=
  match unpack [8, 4, 4, 6, 1, 3, 6] wd with
  | [z0, k, w, v, ng, qp, op] =>
    if z0 == 0 && op == 2 then some (.mgath ⟨BitVec.ofNat 3 qp, ng == 1⟩ (BitVec.ofNat 6 v) (BitVec.ofNat 4 w) (BitVec.ofNat 4 k)) else none
  | _ => none

/-- MINIT: the word's fields from bit 0 upward (R174). -/
def rowMinit (_lit : Option Word) (wd : Nat) : Option Instr :=
  match unpack [12, 5, 1, 2, 2, 1, 3, 6] wd with
  | [z0, x, i, s, a, ng, qp, op] =>
    if z0 == 0 && op == 3 then some (.minit ⟨BitVec.ofNat 3 qp, ng == 1⟩ (BitVec.ofNat 2 a) (BitVec.ofNat 2 s) (i == 1) (BitVec.ofNat 5 x)) else none
  | _ => none

/-- MRD: the word's fields from bit 0 upward (R175). -/
def rowMrd (_lit : Option Word) (wd : Nat) : Option Instr :=
  match unpack [4, 6, 4, 6, 2, 1, 3, 6] wd with
  | [k, v, t, r, a, ng, qp, op] =>
    if op == 4 then (elemOf? t).bind fun t => some (.mrd ⟨BitVec.ofNat 3 qp, ng == 1⟩ (BitVec.ofNat 2 a) (BitVec.ofNat 6 r) t (BitVec.ofNat 6 v) (BitVec.ofNat 4 k)) else none
  | _ => none

/-- MWR: the word's fields from bit 0 upward (R175). -/
def rowMwr (_lit : Option Word) (wd : Nat) : Option Instr :=
  match unpack [4, 6, 4, 6, 2, 1, 3, 6] wd with
  | [k, v, t, r, a, ng, qp, op] =>
    if op == 5 then (elemOf? t).bind fun t => some (.mwr ⟨BitVec.ofNat 3 qp, ng == 1⟩ (BitVec.ofNat 2 a) (BitVec.ofNat 6 r) t (BitVec.ofNat 6 v) (BitVec.ofNat 4 k)) else none
  | _ => none

/-- MST: the word's fields from bit 0 upward (R176). -/
def rowMst (_lit : Option Word) (wd : Nat) : Option Instr :=
  match unpack [14, 2, 4, 2, 1, 3, 6] wd with
  | [z0, q, w, a, ng, qp, op] =>
    if z0 == 0 && op == 6 then some (.mst ⟨BitVec.ofNat 3 qp, ng == 1⟩ (BitVec.ofNat 2 a) (BitVec.ofNat 4 w) (BitVec.ofNat 2 q)) else none
  | _ => none

/-- A row of an opcode map: how many bits it fixes, and its decoder. -/
abbrev Row := Nat × (Option Word → Nat → Option Instr)

/-- The opcode map of R87, C slot; an opcode without a row is reserved. -/
def rowsC : Nat → List Row
  | 0 => [(12, rowAdd)]
  | 1 => [(12, rowSub)]
  | 2 => [(12, rowAnd)]
  | 3 => [(12, rowOr)]
  | 4 => [(12, rowXor)]
  | 5 => [(12, rowAndn)]
  | 6 => [(12, rowShl)]
  | 7 => [(12, rowShr)]
  | 8 => [(12, rowSar)]
  | 9 => [(12, rowRol)]
  | 10 => [(12, rowMinI)]
  | 11 => [(12, rowMaxI)]
  | 12 => [(12, rowMinN)]
  | 13 => [(12, rowMaxN)]
  | 14 => [(12, rowMul)]
  | 15 => [(12, rowMulhI)]
  | 16 => [(12, rowMulhN)]
  | 17 => [(12, rowDivI)]
  | 18 => [(12, rowDivN)]
  | 19 => [(12, rowRemI)]
  | 20 => [(12, rowRemN)]
  | 21 => [(17, rowClz)]
  | 22 => [(17, rowCtz)]
  | 23 => [(17, rowPopc)]
  | 24 => [(17, rowBrev)]
  | 25 => [(17, rowBswap)]
  | 26 => [(9, rowSel)]
  | 27 => [(6, rowAdds)]
  | 28 => [(13, rowExtI)]
  | 29 => [(13, rowExtN)]
  | 30 => [(13, rowIns)]
  | 31 => [(11, rowCmp)]
  | 32 => [(6, rowAddi)]
  | 33 => [(6, rowAndi)]
  | 34 => [(6, rowOri)]
  | 35 => [(6, rowXori)]
  | 36 => [(6, rowShli)]
  | 37 => [(6, rowShri)]
  | 38 => [(6, rowSari)]
  | 39 => [(6, rowCmpi)]
  | 40 => [(11, rowLi)]
  | 41 => [(11, rowLih)]
  | 42 => [(15, rowQlog)]
  | 48 => [(6, rowPbr)]
  | 49 => [(20, rowPbx)]
  | 50 => [(25, rowBr)]
  | 51 => [(20, rowCall)]
  | 52 => [(20, rowLoop)]
  | 53 => [(17, rowVany)]
  | 54 => [(17, rowVall)]
  | 55 => [(28, rowTend)]
  | 56 => [(16, rowTrap)]
  | 57 => [(16, rowBrk)]
  | 58 => [(11, rowNap)]
  | _ => []

/-- The opcode map of R87, S slot; an opcode without a row is reserved. -/
def rowsS : Nat → List Row
  | 0 => [(12, rowAdd)]
  | 1 => [(12, rowSub)]
  | 2 => [(12, rowAnd)]
  | 3 => [(12, rowOr)]
  | 4 => [(12, rowXor)]
  | 5 => [(12, rowAndn)]
  | 6 => [(12, rowShl)]
  | 7 => [(12, rowShr)]
  | 8 => [(12, rowSar)]
  | 9 => [(12, rowRol)]
  | 10 => [(12, rowMinI)]
  | 11 => [(12, rowMaxI)]
  | 12 => [(12, rowMinN)]
  | 13 => [(12, rowMaxN)]
  | 14 => [(12, rowMul)]
  | 15 => [(12, rowMulhI)]
  | 16 => [(12, rowMulhN)]
  | 17 => [(12, rowDivI)]
  | 18 => [(12, rowDivN)]
  | 19 => [(12, rowRemI)]
  | 20 => [(12, rowRemN)]
  | 21 => [(17, rowClz)]
  | 22 => [(17, rowCtz)]
  | 23 => [(17, rowPopc)]
  | 24 => [(17, rowBrev)]
  | 25 => [(17, rowBswap)]
  | 26 => [(9, rowSel)]
  | 27 => [(6, rowAdds)]
  | 28 => [(13, rowExtI)]
  | 29 => [(13, rowExtN)]
  | 30 => [(13, rowIns)]
  | 31 => [(11, rowCmp)]
  | 32 => [(6, rowAddi)]
  | 33 => [(6, rowAndi)]
  | 34 => [(6, rowOri)]
  | 35 => [(6, rowXori)]
  | 36 => [(6, rowShli)]
  | 37 => [(6, rowShri)]
  | 38 => [(6, rowSari)]
  | 39 => [(6, rowCmpi)]
  | 40 => [(11, rowLi)]
  | 41 => [(11, rowLih)]
  | 42 => [(15, rowQlog)]
  | 48 => [(11, rowSrd)]
  | 49 => [(11, rowSwr)]
  | 50 => [(16, rowFence)]
  | 51 => [(28, rowTret), (28, rowTretSkip), (28, rowTretEnd), (23, rowTretTo)]
  | 52 => [(16, rowSys)]
  | _ => []

/-- The opcode map of R88; an opcode without a row is reserved. -/
def rowsX : Nat → List Row
  | 0 => [(13, rowXtovBc)]
  | 1 => [(7, rowXtovIns)]
  | 2 => [(7, rowVtox)]
  | 3 => [(8, rowVtoxR)]
  | 4 => [(19, rowKtox)]
  | 5 => [(19, rowXtok)]
  | 6 => [(18, rowSpawn)]
  | 8 => [(18, rowBinit)]
  | 9 => [(23, rowBarrive)]
  | 10 => [(18, rowBexpect)]
  | 11 => [(15, rowBwait)]
  | 12 => [(17, rowBtest)]
  | 13 => [(23, rowBreset)]
  | 16 => [(18, rowToksig)]
  | 17 => [(18, rowTokwait)]
  | 18 => [(18, rowGstart)]
  | 24 => [(8, rowLeaseReq)]
  | 25 => [(23, rowLeaseRel)]
  | 26 => [(18, rowLeaseQry)]
  | 32 => [(19, rowMqpush)]
  | 33 => [(20, rowMqstat)]
  | _ => []

/-- The opcode map of R89; an opcode without a row is reserved. -/
def rowsT : Nat → List Row
  | 0 => [(10, rowSbind)]
  | 1 => [(8, rowSprobe)]
  | 2 => [(12, rowSnew)]
  | 3 => [(24, rowSpub)]
  | 4 => [(24, rowSrel)]
  | 5 => [(24, rowSpin), (14, rowSpinRef)]
  | 6 => [(24, rowSunpin), (18, rowSunpinRef)]
  | 7 => [(7, rowSseek)]
  | 8 => [(15, rowSinfo)]
  | 9 => [(14, rowSedge)]
  | 10 => [(13, rowTldv)]
  | 11 => [(13, rowTstv)]
  | 12 => [(9, rowTldx)]
  | 13 => [(24, rowTwb)]
  | 14 => [(11, rowTpref)]
  | 15 => [(11, rowWayconv)]
  | 16 => [(11, rowWayrest)]
  | 17 => [(6, rowLds)]
  | 18 => [(7, rowSts)]
  | 20 => [(6, rowLd)]
  | 21 => [(6, rowLdp)]
  | 22 => [(7, rowSt)]
  | 23 => [(7, rowStp)]
  | 24 => [(6, rowVld)]
  | 25 => [(6, rowVgld)]
  | 26 => [(6, rowVst)]
  | 27 => [(6, rowVsst)]
  | 28 => [(6, rowAmo)]
  | 29 => [(10, rowCas)]
  | 30 => [(6, rowVamo)]
  | 31 => [(15, rowMcas)]
  | 32 => [(18, rowRwb)]
  | 33 => [(18, rowRinv)]
  | 34 => [(18, rowRwbinv)]
  | 35 => [(8, rowRstf)]
  | 36 => [(11, rowAcopy)]
  | 37 => [(10, rowPfl)]
  | _ => []

/-- The opcode map of R90; an opcode without a row is reserved. -/
def rowsV : Nat → List Row
  | 0 => [(6, rowVadd)]
  | 1 => [(6, rowVsub)]
  | 2 => [(6, rowVmul)]
  | 3 => [(6, rowVfma)]
  | 4 => [(6, rowVfms)]
  | 5 => [(6, rowVmin)]
  | 6 => [(6, rowVmax)]
  | 7 => [(12, rowVabs)]
  | 8 => [(12, rowVneg)]
  | 9 => [(6, rowVabd)]
  | 10 => [(6, rowVadds)]
  | 11 => [(6, rowVsubs)]
  | 12 => [(6, rowVmulh)]
  | 13 => [(6, rowVshl)]
  | 14 => [(6, rowVshr)]
  | 15 => [(6, rowVsar)]
  | 16 => [(6, rowVand)]
  | 17 => [(6, rowVor)]
  | 18 => [(6, rowVxor)]
  | 19 => [(6, rowVandn)]
  | 20 => [(12, rowVpopc)]
  | 21 => [(12, rowVclz)]
  | 22 => [(8, rowVceq)]
  | 23 => [(8, rowVcne)]
  | 24 => [(8, rowVclt)]
  | 25 => [(8, rowVcle)]
  | 26 => [(6, rowVsel)]
  | 27 => [(12, rowVmov)]
  | 28 => [(12, rowVimm)]
  | 29 => [(12, rowViota)]
  | 30 => [(6, rowVcvt)]
  | 31 => [(10, rowVrnd)]
  | 32 => [(12, rowVexp2)]
  | 33 => [(12, rowVlog2)]
  | 34 => [(12, rowVrcp)]
  | 35 => [(12, rowVrsq)]
  | 36 => [(12, rowVredsum)]
  | 37 => [(12, rowVredmin)]
  | 38 => [(12, rowVredmax)]
  | 39 => [(10, rowVscan)]
  | 40 => [(6, rowVperm)]
  | 41 => [(6, rowVslide)]
  | 42 => [(12, rowVtopk)]
  | 43 => [(16, rowVbset)]
  | 44 => [(20, rowVkand)]
  | 45 => [(20, rowVkor)]
  | 46 => [(20, rowVkxor)]
  | 47 => [(20, rowVkandn)]
  | 48 => [(22, rowVkpop)]
  | 49 => [(22, rowVkfirst)]
  | 50 => [(6, rowVshli)]
  | 51 => [(6, rowVshri)]
  | 52 => [(6, rowVsari)]
  | _ => []

/-- The opcode map of R91; an opcode without a row is reserved. -/
def rowsM : Nat → List Row
  | 0 => [(14, rowMpass)]
  | 1 => [(26, rowMop)]
  | 2 => [(14, rowMgath)]
  | 3 => [(18, rowMinit)]
  | 4 => [(6, rowMrd)]
  | 5 => [(6, rowMwr)]
  | 6 => [(20, rowMst)]
  | _ => []

/-- The slot word of an instruction (its literal, if any, is a word of its own); 0 for an engine event, which has no
word. -/
def encodeNat : Instr → Nat
  | .emptyBundle d c => pack [(14, 0), (2, c.toNat), (1, d.toNat), (15, 20480)]
  | .add p d a b w => pack [(6, 0), (1, w.toNat), (5, b.toNat), (5, a.toNat), (5, d.toNat), (1, p.ng.toNat), (3, p.qp.toNat), (6, 0)]
  | .sub p d a b w => pack [(6, 0), (1, w.toNat), (5, b.toNat), (5, a.toNat), (5, d.toNat), (1, p.ng.toNat), (3, p.qp.toNat), (6, 1)]
  | .and p d a b w => pack [(6, 0), (1, w.toNat), (5, b.toNat), (5, a.toNat), (5, d.toNat), (1, p.ng.toNat), (3, p.qp.toNat), (6, 2)]
  | .or p d a b w => pack [(6, 0), (1, w.toNat), (5, b.toNat), (5, a.toNat), (5, d.toNat), (1, p.ng.toNat), (3, p.qp.toNat), (6, 3)]
  | .xor p d a b w => pack [(6, 0), (1, w.toNat), (5, b.toNat), (5, a.toNat), (5, d.toNat), (1, p.ng.toNat), (3, p.qp.toNat), (6, 4)]
  | .andn p d a b w => pack [(6, 0), (1, w.toNat), (5, b.toNat), (5, a.toNat), (5, d.toNat), (1, p.ng.toNat), (3, p.qp.toNat), (6, 5)]
  | .shl p d a b w => pack [(6, 0), (1, w.toNat), (5, b.toNat), (5, a.toNat), (5, d.toNat), (1, p.ng.toNat), (3, p.qp.toNat), (6, 6)]
  | .shr p d a b w => pack [(6, 0), (1, w.toNat), (5, b.toNat), (5, a.toNat), (5, d.toNat), (1, p.ng.toNat), (3, p.qp.toNat), (6, 7)]
  | .sar p d a b w => pack [(6, 0), (1, w.toNat), (5, b.toNat), (5, a.toNat), (5, d.toNat), (1, p.ng.toNat), (3, p.qp.toNat), (6, 8)]
  | .rol p d a b w => pack [(6, 0), (1, w.toNat), (5, b.toNat), (5, a.toNat), (5, d.toNat), (1, p.ng.toNat), (3, p.qp.toNat), (6, 9)]
  | .minI p d a b w => pack [(6, 0), (1, w.toNat), (5, b.toNat), (5, a.toNat), (5, d.toNat), (1, p.ng.toNat), (3, p.qp.toNat), (6, 10)]
  | .maxI p d a b w => pack [(6, 0), (1, w.toNat), (5, b.toNat), (5, a.toNat), (5, d.toNat), (1, p.ng.toNat), (3, p.qp.toNat), (6, 11)]
  | .minN p d a b w => pack [(6, 0), (1, w.toNat), (5, b.toNat), (5, a.toNat), (5, d.toNat), (1, p.ng.toNat), (3, p.qp.toNat), (6, 12)]
  | .maxN p d a b w => pack [(6, 0), (1, w.toNat), (5, b.toNat), (5, a.toNat), (5, d.toNat), (1, p.ng.toNat), (3, p.qp.toNat), (6, 13)]
  | .mul p d a b w => pack [(6, 0), (1, w.toNat), (5, b.toNat), (5, a.toNat), (5, d.toNat), (1, p.ng.toNat), (3, p.qp.toNat), (6, 14)]
  | .mulhI p d a b w => pack [(6, 0), (1, w.toNat), (5, b.toNat), (5, a.toNat), (5, d.toNat), (1, p.ng.toNat), (3, p.qp.toNat), (6, 15)]
  | .mulhN p d a b w => pack [(6, 0), (1, w.toNat), (5, b.toNat), (5, a.toNat), (5, d.toNat), (1, p.ng.toNat), (3, p.qp.toNat), (6, 16)]
  | .divI p d a b w => pack [(6, 0), (1, w.toNat), (5, b.toNat), (5, a.toNat), (5, d.toNat), (1, p.ng.toNat), (3, p.qp.toNat), (6, 17)]
  | .divN p d a b w => pack [(6, 0), (1, w.toNat), (5, b.toNat), (5, a.toNat), (5, d.toNat), (1, p.ng.toNat), (3, p.qp.toNat), (6, 18)]
  | .remI p d a b w => pack [(6, 0), (1, w.toNat), (5, b.toNat), (5, a.toNat), (5, d.toNat), (1, p.ng.toNat), (3, p.qp.toNat), (6, 19)]
  | .remN p d a b w => pack [(6, 0), (1, w.toNat), (5, b.toNat), (5, a.toNat), (5, d.toNat), (1, p.ng.toNat), (3, p.qp.toNat), (6, 20)]
  | .clz p d a w => pack [(6, 0), (1, w.toNat), (5, 0), (5, a.toNat), (5, d.toNat), (1, p.ng.toNat), (3, p.qp.toNat), (6, 21)]
  | .ctz p d a w => pack [(6, 0), (1, w.toNat), (5, 0), (5, a.toNat), (5, d.toNat), (1, p.ng.toNat), (3, p.qp.toNat), (6, 22)]
  | .popc p d a w => pack [(6, 0), (1, w.toNat), (5, 0), (5, a.toNat), (5, d.toNat), (1, p.ng.toNat), (3, p.qp.toNat), (6, 23)]
  | .brev p d a w => pack [(6, 0), (1, w.toNat), (5, 0), (5, a.toNat), (5, d.toNat), (1, p.ng.toNat), (3, p.qp.toNat), (6, 24)]
  | .bswap p d a w => pack [(6, 0), (1, w.toNat), (5, 0), (5, a.toNat), (5, d.toNat), (1, p.ng.toNat), (3, p.qp.toNat), (6, 25)]
  | .sel p d a b w q => pack [(3, q.toNat), (3, 0), (1, w.toNat), (5, b.toNat), (5, a.toNat), (5, d.toNat), (1, p.ng.toNat), (3, p.qp.toNat), (6, 26)]
  | .adds p d a b w s => pack [(6, s.toNat), (1, w.toNat), (5, b.toNat), (5, a.toNat), (5, d.toNat), (1, p.ng.toNat), (3, p.qp.toNat), (6, 27)]
  | .extI p d a b => pack [(7, 0), (5, b.toNat), (5, a.toNat), (5, d.toNat), (1, p.ng.toNat), (3, p.qp.toNat), (6, 28)]
  | .extN p d a b => pack [(7, 0), (5, b.toNat), (5, a.toNat), (5, d.toNat), (1, p.ng.toNat), (3, p.qp.toNat), (6, 29)]
  | .ins p d a b => pack [(7, 0), (5, b.toNat), (5, a.toNat), (5, d.toNat), (1, p.ng.toNat), (3, p.qp.toNat), (6, 30)]
  | .cmp p q a b w c => pack [(3, c.toNat), (3, 0), (1, w.toNat), (5, b.toNat), (5, a.toNat), (3, q.toNat), (2, 0), (1, p.ng.toNat), (3, p.qp.toNat), (6, 31)]
  | .addi p d a i _ => pack [(12, i.toNat), (5, a.toNat), (5, d.toNat), (1, p.ng.toNat), (3, p.qp.toNat), (6, 32)]
  | .andi p d a i _ => pack [(12, i.toNat), (5, a.toNat), (5, d.toNat), (1, p.ng.toNat), (3, p.qp.toNat), (6, 33)]
  | .ori p d a i _ => pack [(12, i.toNat), (5, a.toNat), (5, d.toNat), (1, p.ng.toNat), (3, p.qp.toNat), (6, 34)]
  | .xori p d a i _ => pack [(12, i.toNat), (5, a.toNat), (5, d.toNat), (1, p.ng.toNat), (3, p.qp.toNat), (6, 35)]
  | .shli p d a i _ => pack [(12, i.toNat), (5, a.toNat), (5, d.toNat), (1, p.ng.toNat), (3, p.qp.toNat), (6, 36)]
  | .shri p d a i _ => pack [(12, i.toNat), (5, a.toNat), (5, d.toNat), (1, p.ng.toNat), (3, p.qp.toNat), (6, 37)]
  | .sari p d a i _ => pack [(12, i.toNat), (5, a.toNat), (5, d.toNat), (1, p.ng.toNat), (3, p.qp.toNat), (6, 38)]
  | .cmpi p c q a i _ => pack [(12, i.toNat), (5, a.toNat), (3, q.toNat), (2, c.toNat), (1, p.ng.toNat), (3, p.qp.toNat), (6, 39)]
  | .li p d i _ => pack [(12, i.toNat), (5, 0), (5, d.toNat), (1, p.ng.toNat), (3, p.qp.toNat), (6, 40)]
  | .lih p d i _ => pack [(12, i.toNat), (5, 0), (5, d.toNat), (1, p.ng.toNat), (3, p.qp.toNat), (6, 41)]
  | .qlog p d a b t => pack [(4, t.toNat), (3, 0), (3, b.toNat), (2, 0), (3, a.toNat), (2, 0), (3, d.toNat), (2, 0), (1, p.ng.toNat), (3, p.qp.toNat), (6, 42)]
  | .pbr p b o _ => pack [(19, o.toNat), (3, b.toNat), (1, p.ng.toNat), (3, p.qp.toNat), (6, 48)]
  | .pbx p b a => pack [(12, 0), (5, a.toNat), (2, 0), (3, b.toNat), (1, p.ng.toNat), (3, p.qp.toNat), (6, 49)]
  | .br p b => pack [(19, 0), (3, b.toNat), (1, p.ng.toNat), (3, p.qp.toNat), (6, 50)]
  | .call p d b => pack [(7, 0), (3, b.toNat), (7, 0), (5, d.toNat), (1, p.ng.toNat), (3, p.qp.toNat), (6, 51)]
  | .loop p b a => pack [(12, 0), (5, a.toNat), (2, 0), (3, b.toNat), (1, p.ng.toNat), (3, p.qp.toNat), (6, 52)]
  | .vany p d a b => pack [(7, 0), (4, b.toNat), (1, 0), (4, a.toNat), (1, 0), (3, d.toNat), (2, 0), (1, p.ng.toNat), (3, p.qp.toNat), (6, 53)]
  | .vall p d a b => pack [(7, 0), (4, b.toNat), (1, 0), (4, a.toNat), (1, 0), (3, d.toNat), (2, 0), (1, p.ng.toNat), (3, p.qp.toNat), (6, 54)]
  | .tend p => pack [(22, 0), (1, p.ng.toNat), (3, p.qp.toNat), (6, 55)]
  | .trap p c _ => pack [(12, c.toNat), (10, 0), (1, p.ng.toNat), (3, p.qp.toNat), (6, 56)]
  | .brk p c => pack [(12, c.toNat), (10, 0), (1, p.ng.toNat), (3, p.qp.toNat), (6, 57)]
  | .nap p a i _ => pack [(12, i.toNat), (5, a.toNat), (5, 0), (1, p.ng.toNat), (3, p.qp.toNat), (6, 58)]
  | .srd p d r _ => pack [(12, r.toNat), (5, 0), (5, d.toNat), (1, p.ng.toNat), (3, p.qp.toNat), (6, 48)]
  | .swr p a r _ => pack [(12, r.toNat), (5, a.toNat), (5, 0), (1, p.ng.toNat), (3, p.qp.toNat), (6, 49)]
  | .fence p c e f => pack [(5, f.toNat), (5, e.toNat), (2, c.toNat), (10, 0), (1, p.ng.toNat), (3, p.qp.toNat), (6, 50)]
  | .tret p => pack [(22, 0), (1, p.ng.toNat), (3, p.qp.toNat), (6, 51)]
  | .tretSkip p => pack [(22, 1), (1, p.ng.toNat), (3, p.qp.toNat), (6, 51)]
  | .tretEnd p => pack [(22, 2), (1, p.ng.toNat), (3, p.qp.toNat), (6, 51)]
  | .tretTo p a => pack [(12, 3), (5, a.toNat), (5, 0), (1, p.ng.toNat), (3, p.qp.toNat), (6, 51)]
  | .sys p s _ => pack [(12, s.toNat), (10, 0), (1, p.ng.toNat), (3, p.qp.toNat), (6, 52)]
  | .xtovBc p v x t => pack [(1, 0), (4, t.code), (6, 0), (5, x.toNat), (6, v.toNat), (1, p.ng.toNat), (3, p.qp.toNat), (6, 0)]
  | .xtovIns p v x l t => pack [(1, 0), (4, t.code), (6, l.toNat), (5, x.toNat), (6, v.toNat), (1, p.ng.toNat), (3, p.qp.toNat), (6, 1)]
  | .vtox p v x l t => pack [(1, 0), (4, t.code), (6, l.toNat), (5, x.toNat), (6, v.toNat), (1, p.ng.toNat), (3, p.qp.toNat), (6, 2)]
  | .vtoxR p v x b t => pack [(1, 0), (4, t.code), (1, 0), (5, b.toNat), (5, x.toNat), (6, v.toNat), (1, p.ng.toNat), (3, p.qp.toNat), (6, 3)]
  | .ktox p k x => pack [(11, 0), (5, x.toNat), (4, k.toNat), (2, 0), (1, p.ng.toNat), (3, p.qp.toNat), (6, 4)]
  | .xtok p k x => pack [(11, 0), (5, x.toNat), (4, k.toNat), (2, 0), (1, p.ng.toNat), (3, p.qp.toNat), (6, 5)]
  | .spawn p b c a => pack [(12, 0), (5, a.toNat), (2, c.toNat), (3, b.toNat), (1, p.ng.toNat), (3, p.qp.toNat), (6, 6)]
  | .binit p a b => pack [(7, 0), (5, b.toNat), (5, a.toNat), (5, 0), (1, p.ng.toNat), (3, p.qp.toNat), (6, 8)]
  | .barrive p a => pack [(12, 0), (5, a.toNat), (5, 0), (1, p.ng.toNat), (3, p.qp.toNat), (6, 9)]
  | .bexpect p a b => pack [(7, 0), (5, b.toNat), (5, a.toNat), (5, 0), (1, p.ng.toNat), (3, p.qp.toNat), (6, 10)]
  | .bwait p q a b => pack [(7, 0), (5, b.toNat), (5, a.toNat), (3, q.toNat), (2, 0), (1, p.ng.toNat), (3, p.qp.toNat), (6, 11)]
  | .btest p d a h => pack [(1, h.toNat), (11, 0), (5, a.toNat), (5, d.toNat), (1, p.ng.toNat), (3, p.qp.toNat), (6, 12)]
  | .breset p a => pack [(12, 0), (5, a.toNat), (5, 0), (1, p.ng.toNat), (3, p.qp.toNat), (6, 13)]
  | .toksig p a b => pack [(7, 0), (5, b.toNat), (5, a.toNat), (5, 0), (1, p.ng.toNat), (3, p.qp.toNat), (6, 16)]
  | .tokwait p d a => pack [(12, 0), (5, a.toNat), (5, d.toNat), (1, p.ng.toNat), (3, p.qp.toNat), (6, 17)]
  | .gstart p a b => pack [(7, 0), (5, b.toNat), (5, a.toNat), (5, 0), (1, p.ng.toNat), (3, p.qp.toNat), (6, 18)]
  | .leaseReq p d a b c => pack [(2, 0), (5, c.toNat), (5, b.toNat), (5, a.toNat), (5, d.toNat), (1, p.ng.toNat), (3, p.qp.toNat), (6, 24)]
  | .leaseRel p a => pack [(12, 0), (5, a.toNat), (5, 0), (1, p.ng.toNat), (3, p.qp.toNat), (6, 25)]
  | .leaseQry p d a => pack [(12, 0), (5, a.toNat), (5, d.toNat), (1, p.ng.toNat), (3, p.qp.toNat), (6, 26)]
  | .mqpush p v s => pack [(13, 0), (3, s.toNat), (6, v.toNat), (1, p.ng.toNat), (3, p.qp.toNat), (6, 32)]
  | .mqstat p d s => pack [(13, 0), (3, s.toNat), (1, 0), (5, d.toNat), (1, p.ng.toNat), (3, p.qp.toNat), (6, 33)]
  | .sbind p w a b r h => pack [(4, 0), (2, h.toNat), (2, r.toNat), (5, b.toNat), (5, a.toNat), (4, w.toNat), (1, p.ng.toNat), (3, p.qp.toNat), (6, 0)]
  | .sprobe p w a b h q f => pack [(1, f.toNat), (3, q.toNat), (2, h.toNat), (2, 1), (5, b.toNat), (5, a.toNat), (4, w.toNat), (1, p.ng.toNat), (3, p.qp.toNat), (6, 1)]
  | .snew p w a b c x => pack [(6, 0), (1, x.toNat), (1, c.toNat), (5, b.toNat), (5, a.toNat), (4, w.toNat), (1, p.ng.toNat), (3, p.qp.toNat), (6, 2)]
  | .spub p w => pack [(18, 0), (4, w.toNat), (1, p.ng.toNat), (3, p.qp.toNat), (6, 3)]
  | .srel p w => pack [(18, 0), (4, w.toNat), (1, p.ng.toNat), (3, p.qp.toNat), (6, 4)]
  | .spin p w => pack [(18, 0), (4, w.toNat), (1, p.ng.toNat), (3, p.qp.toNat), (6, 5)]
  | .spinRef p a b r h => pack [(4, 8), (2, h.toNat), (2, r.toNat), (5, b.toNat), (5, a.toNat), (4, 0), (1, p.ng.toNat), (3, p.qp.toNat), (6, 5)]
  | .sunpin p w => pack [(18, 0), (4, w.toNat), (1, p.ng.toNat), (3, p.qp.toNat), (6, 6)]
  | .sunpinRef p a b => pack [(8, 8), (5, b.toNat), (5, a.toNat), (4, 0), (1, p.ng.toNat), (3, p.qp.toNat), (6, 6)]
  | .sseek p w a i _ => pack [(12, i.toNat), (5, a.toNat), (1, 0), (4, w.toNat), (1, p.ng.toNat), (3, p.qp.toNat), (6, 7)]
  | .sinfo p d w t => pack [(4, 0), (4, t.toNat), (5, 0), (4, w.toNat), (5, d.toNat), (1, p.ng.toNat), (3, p.qp.toNat), (6, 8)]
  | .sedge p w a b => pack [(8, 0), (5, b.toNat), (5, a.toNat), (4, w.toNat), (1, p.ng.toNat), (3, p.qp.toNat), (6, 9)]
  | .tldv p v w k h => pack [(7, 0), (1, h.toNat), (4, k.toNat), (4, w.toNat), (6, v.toNat), (1, p.ng.toNat), (3, p.qp.toNat), (6, 10)]
  | .tstv p v w k h => pack [(7, 0), (1, h.toNat), (4, k.toNat), (4, w.toNat), (6, v.toNat), (1, p.ng.toNat), (3, p.qp.toNat), (6, 11)]
  | .tldx p v w k a => pack [(3, 0), (5, a.toNat), (4, k.toNat), (4, w.toNat), (6, v.toNat), (1, p.ng.toNat), (3, p.qp.toNat), (6, 12)]
  | .twb p w => pack [(18, 0), (4, w.toNat), (1, p.ng.toNat), (3, p.qp.toNat), (6, 13)]
  | .tpref p a i _ => pack [(12, i.toNat), (5, a.toNat), (5, 0), (1, p.ng.toNat), (3, p.qp.toNat), (6, 14)]
  | .wayconv p d i _ => pack [(12, i.toNat), (5, 0), (5, d.toNat), (1, p.ng.toNat), (3, p.qp.toNat), (6, 15)]
  | .wayrest p d i _ => pack [(12, i.toNat), (5, 0), (5, d.toNat), (1, p.ng.toNat), (3, p.qp.toNat), (6, 16)]
  | .lds p d a z s o _ => pack [(9, o.toNat), (1, s.toNat), (2, z.toNat), (5, a.toNat), (5, d.toNat), (1, p.ng.toNat), (3, p.qp.toNat), (6, 17)]
  | .sts p d a z o _ => pack [(9, o.toNat), (1, 0), (2, z.toNat), (5, a.toNat), (5, d.toNat), (1, p.ng.toNat), (3, p.qp.toNat), (6, 18)]
  | .ld p d a z s l o f _ => pack [(6, f.toNat), (1, o.toNat), (2, l.code), (1, s.toNat), (2, z.toNat), (5, a.toNat), (5, d.toNat), (1, p.ng.toNat), (3, p.qp.toNat), (6, 20)]
  | .ldp p d a z s l o f _ => pack [(6, f.toNat), (1, o.toNat), (2, l.code), (1, s.toNat), (2, z.toNat), (5, a.toNat), (5, d.toNat), (1, p.ng.toNat), (3, p.qp.toNat), (6, 21)]
  | .st p d a z l o f _ => pack [(6, f.toNat), (1, o.toNat), (2, l.code), (1, 0), (2, z.toNat), (5, a.toNat), (5, d.toNat), (1, p.ng.toNat), (3, p.qp.toNat), (6, 22)]
  | .stp p d a z l o f _ => pack [(6, f.toNat), (1, o.toNat), (2, l.code), (1, 0), (2, z.toNat), (5, a.toNat), (5, d.toNat), (1, p.ng.toNat), (3, p.qp.toNat), (6, 23)]
  | .vld p v k a b z => pack [(2, z.toNat), (5, b.toNat), (5, a.toNat), (4, k.toNat), (6, v.toNat), (1, p.ng.toNat), (3, p.qp.toNat), (6, 24)]
  | .vgld p v k a b z => pack [(2, z.toNat), (5, b.toNat), (5, a.toNat), (4, k.toNat), (6, v.toNat), (1, p.ng.toNat), (3, p.qp.toNat), (6, 25)]
  | .vst p v k a b z => pack [(2, z.toNat), (5, b.toNat), (5, a.toNat), (4, k.toNat), (6, v.toNat), (1, p.ng.toNat), (3, p.qp.toNat), (6, 26)]
  | .vsst p v k a b z => pack [(2, z.toNat), (5, b.toNat), (5, a.toNat), (4, k.toNat), (6, v.toNat), (1, p.ng.toNat), (3, p.qp.toNat), (6, 27)]
  | .amo p d a b o z r => pack [(2, r.toNat), (1, z.toNat), (4, o.code), (5, b.toNat), (5, a.toNat), (5, d.toNat), (1, p.ng.toNat), (3, p.qp.toNat), (6, 28)]
  | .cas p d a b z r => pack [(2, r.toNat), (1, z.toNat), (4, 0), (5, b.toNat), (5, a.toNat), (5, d.toNat), (1, p.ng.toNat), (3, p.qp.toNat), (6, 29)]
  | .vamo p v a i k o => pack [(4, o.code), (3, k.toNat), (5, i.toNat), (5, a.toNat), (5, v.toNat), (1, p.ng.toNat), (3, p.qp.toNat), (6, 30)]
  | .mcas p d a c => pack [(9, 0), (3, c.toNat), (5, a.toNat), (5, d.toNat), (1, p.ng.toNat), (3, p.qp.toNat), (6, 31)]
  | .rwb p a b => pack [(7, 0), (5, b.toNat), (5, a.toNat), (5, 0), (1, p.ng.toNat), (3, p.qp.toNat), (6, 32)]
  | .rinv p a b => pack [(7, 0), (5, b.toNat), (5, a.toNat), (5, 0), (1, p.ng.toNat), (3, p.qp.toNat), (6, 33)]
  | .rwbinv p a b => pack [(7, 0), (5, b.toNat), (5, a.toNat), (5, 0), (1, p.ng.toNat), (3, p.qp.toNat), (6, 34)]
  | .rstf p v k a b => pack [(2, 0), (5, b.toNat), (5, a.toNat), (4, k.toNat), (6, v.toNat), (1, p.ng.toNat), (3, p.qp.toNat), (6, 35)]
  | .acopy p a i _ => pack [(12, i.toNat), (5, a.toNat), (5, 0), (1, p.ng.toNat), (3, p.qp.toNat), (6, 36)]
  | .pfl p e a i _ => pack [(12, i.toNat), (5, a.toNat), (1, e.toNat), (4, 0), (1, p.ng.toNat), (3, p.qp.toNat), (6, 37)]
  | .vadd k d a b t => pack [(4, t.code), (6, b.toNat), (6, a.toNat), (6, d.toNat), (4, k.toNat), (6, 0)]
  | .vsub k d a b t => pack [(4, t.code), (6, b.toNat), (6, a.toNat), (6, d.toNat), (4, k.toNat), (6, 1)]
  | .vmul k d a b t => pack [(4, t.code), (6, b.toNat), (6, a.toNat), (6, d.toNat), (4, k.toNat), (6, 2)]
  | .vfma k d a b t => pack [(4, t.code), (6, b.toNat), (6, a.toNat), (6, d.toNat), (4, k.toNat), (6, 3)]
  | .vfms k d a b t => pack [(4, t.code), (6, b.toNat), (6, a.toNat), (6, d.toNat), (4, k.toNat), (6, 4)]
  | .vmin k d a b t => pack [(4, t.code), (6, b.toNat), (6, a.toNat), (6, d.toNat), (4, k.toNat), (6, 5)]
  | .vmax k d a b t => pack [(4, t.code), (6, b.toNat), (6, a.toNat), (6, d.toNat), (4, k.toNat), (6, 6)]
  | .vabs k d a t => pack [(4, t.code), (6, 0), (6, a.toNat), (6, d.toNat), (4, k.toNat), (6, 7)]
  | .vneg k d a t => pack [(4, t.code), (6, 0), (6, a.toNat), (6, d.toNat), (4, k.toNat), (6, 8)]
  | .vabd k d a b t => pack [(4, t.code), (6, b.toNat), (6, a.toNat), (6, d.toNat), (4, k.toNat), (6, 9)]
  | .vadds k d a b t => pack [(4, t.code), (6, b.toNat), (6, a.toNat), (6, d.toNat), (4, k.toNat), (6, 10)]
  | .vsubs k d a b t => pack [(4, t.code), (6, b.toNat), (6, a.toNat), (6, d.toNat), (4, k.toNat), (6, 11)]
  | .vmulh k d a b t => pack [(4, t.code), (6, b.toNat), (6, a.toNat), (6, d.toNat), (4, k.toNat), (6, 12)]
  | .vshl k d a b t => pack [(4, t.code), (6, b.toNat), (6, a.toNat), (6, d.toNat), (4, k.toNat), (6, 13)]
  | .vshr k d a b t => pack [(4, t.code), (6, b.toNat), (6, a.toNat), (6, d.toNat), (4, k.toNat), (6, 14)]
  | .vsar k d a b t => pack [(4, t.code), (6, b.toNat), (6, a.toNat), (6, d.toNat), (4, k.toNat), (6, 15)]
  | .vand k d a b t => pack [(4, t.code), (6, b.toNat), (6, a.toNat), (6, d.toNat), (4, k.toNat), (6, 16)]
  | .vor k d a b t => pack [(4, t.code), (6, b.toNat), (6, a.toNat), (6, d.toNat), (4, k.toNat), (6, 17)]
  | .vxor k d a b t => pack [(4, t.code), (6, b.toNat), (6, a.toNat), (6, d.toNat), (4, k.toNat), (6, 18)]
  | .vandn k d a b t => pack [(4, t.code), (6, b.toNat), (6, a.toNat), (6, d.toNat), (4, k.toNat), (6, 19)]
  | .vpopc k d a t => pack [(4, t.code), (6, 0), (6, a.toNat), (6, d.toNat), (4, k.toNat), (6, 20)]
  | .vclz k d a t => pack [(4, t.code), (6, 0), (6, a.toNat), (6, d.toNat), (4, k.toNat), (6, 21)]
  | .vceq k d a b t => pack [(4, t.code), (6, b.toNat), (6, a.toNat), (4, d.toNat), (2, 0), (4, k.toNat), (6, 22)]
  | .vcne k d a b t => pack [(4, t.code), (6, b.toNat), (6, a.toNat), (4, d.toNat), (2, 0), (4, k.toNat), (6, 23)]
  | .vclt k d a b t => pack [(4, t.code), (6, b.toNat), (6, a.toNat), (4, d.toNat), (2, 0), (4, k.toNat), (6, 24)]
  | .vcle k d a b t => pack [(4, t.code), (6, b.toNat), (6, a.toNat), (4, d.toNat), (2, 0), (4, k.toNat), (6, 25)]
  | .vsel k d a b t => pack [(4, t.code), (6, b.toNat), (6, a.toNat), (6, d.toNat), (4, k.toNat), (6, 26)]
  | .vmov k d a t => pack [(4, t.code), (6, 0), (6, a.toNat), (6, d.toNat), (4, k.toNat), (6, 27)]
  | .vimm k d i t _ => pack [(4, t.code), (6, i.toNat), (6, 0), (6, d.toNat), (4, k.toNat), (6, 28)]
  | .viota k d i t _ => pack [(4, t.code), (6, i.toNat), (6, 0), (6, d.toNat), (4, k.toNat), (6, 29)]
  | .vcvt k d a m s t => pack [(4, t.code), (4, s.code), (2, m.code), (6, a.toNat), (6, d.toNat), (4, k.toNat), (6, 30)]
  | .vrnd k d a m t => pack [(4, t.code), (2, m.code), (4, 0), (6, a.toNat), (6, d.toNat), (4, k.toNat), (6, 31)]
  | .vexp2 k d a t => pack [(4, t.code), (6, 0), (6, a.toNat), (6, d.toNat), (4, k.toNat), (6, 32)]
  | .vlog2 k d a t => pack [(4, t.code), (6, 0), (6, a.toNat), (6, d.toNat), (4, k.toNat), (6, 33)]
  | .vrcp k d a t => pack [(4, t.code), (6, 0), (6, a.toNat), (6, d.toNat), (4, k.toNat), (6, 34)]
  | .vrsq k d a t => pack [(4, t.code), (6, 0), (6, a.toNat), (6, d.toNat), (4, k.toNat), (6, 35)]
  | .vredsum k d a t => pack [(4, t.code), (6, 0), (6, a.toNat), (6, d.toNat), (4, k.toNat), (6, 36)]
  | .vredmin k d a t => pack [(4, t.code), (6, 0), (6, a.toNat), (6, d.toNat), (4, k.toNat), (6, 37)]
  | .vredmax k d a t => pack [(4, t.code), (6, 0), (6, a.toNat), (6, d.toNat), (4, k.toNat), (6, 38)]
  | .vscan k d a o t => pack [(4, t.code), (2, o.toNat), (4, 0), (6, a.toNat), (6, d.toNat), (4, k.toNat), (6, 39)]
  | .vperm k d a b t => pack [(4, t.code), (6, b.toNat), (6, a.toNat), (6, d.toNat), (4, k.toNat), (6, 40)]
  | .vslide k d a i t _ => pack [(4, t.code), (6, i.toNat), (6, a.toNat), (6, d.toNat), (4, k.toNat), (6, 41)]
  | .vtopk k d a t => pack [(4, t.code), (6, 0), (6, a.toNat), (6, d.toNat), (4, k.toNat), (6, 42)]
  | .vbset k d b => pack [(4, 5), (6, b.toNat), (6, 0), (6, d.toNat), (4, k.toNat), (6, 43)]
  | .vkand d a b => pack [(4, 0), (4, b.toNat), (2, 0), (4, a.toNat), (2, 0), (4, d.toNat), (6, 0), (6, 44)]
  | .vkor d a b => pack [(4, 0), (4, b.toNat), (2, 0), (4, a.toNat), (2, 0), (4, d.toNat), (6, 0), (6, 45)]
  | .vkxor d a b => pack [(4, 0), (4, b.toNat), (2, 0), (4, a.toNat), (2, 0), (4, d.toNat), (6, 0), (6, 46)]
  | .vkandn d a b => pack [(4, 0), (4, b.toNat), (2, 0), (4, a.toNat), (2, 0), (4, d.toNat), (6, 0), (6, 47)]
  | .vkpop d a => pack [(10, 5), (4, a.toNat), (2, 0), (6, d.toNat), (4, 0), (6, 48)]
  | .vkfirst d a => pack [(10, 5), (4, a.toNat), (2, 0), (6, d.toNat), (4, 0), (6, 49)]
  | .vshli k d a i t _ => pack [(4, t.code), (6, i.toNat), (6, a.toNat), (6, d.toNat), (4, k.toNat), (6, 50)]
  | .vshri k d a i t _ => pack [(4, t.code), (6, i.toNat), (6, a.toNat), (6, d.toNat), (4, k.toNat), (6, 51)]
  | .vsari k d a i t _ => pack [(4, t.code), (6, i.toNat), (6, a.toNat), (6, d.toNat), (4, k.toNat), (6, 52)]
  | .mpass p a w b o k j => pack [(8, 0), (1, j.toNat), (1, k.toNat), (2, o.code), (4, b.toNat), (4, w.toNat), (2, a.toNat), (1, p.ng.toNat), (3, p.qp.toNat), (6, 0)]
  | .mop p o => pack [(10, 0), (2, o.code), (10, 0), (1, p.ng.toNat), (3, p.qp.toNat), (6, 1)]
  | .mgath p v w k => pack [(8, 0), (4, k.toNat), (4, w.toNat), (6, v.toNat), (1, p.ng.toNat), (3, p.qp.toNat), (6, 2)]
  | .minit p a s i x => pack [(12, 0), (5, x.toNat), (1, i.toNat), (2, s.toNat), (2, a.toNat), (1, p.ng.toNat), (3, p.qp.toNat), (6, 3)]
  | .mrd p a r t v k => pack [(4, k.toNat), (6, v.toNat), (4, t.code), (6, r.toNat), (2, a.toNat), (1, p.ng.toNat), (3, p.qp.toNat), (6, 4)]
  | .mwr p a r t v k => pack [(4, k.toNat), (6, v.toNat), (4, t.code), (6, r.toNat), (2, a.toNat), (1, p.ng.toNat), (3, p.qp.toNat), (6, 5)]
  | .mst p a w q => pack [(14, 0), (2, q.toNat), (4, w.toNat), (2, a.toNat), (1, p.ng.toNat), (3, p.qp.toNat), (6, 6)]
  | _ => 0

/-- The encoder: the 32-bit word of an instruction. -/
def encode (i : Instr) : Word := BitVec.ofNat 32 (encodeNat i)

/-- The slots whose opcode map has the word (R87 to R91); none for a header-only bundle and for an engine event. -/
def Instr.slots : Instr → List Slot
  | .add .. | .sub .. | .and .. | .or .. | .xor .. | .andn .. | .shl .. | .shr .. | .sar .. | .rol .. | .minI ..
  | .maxI .. | .minN .. | .maxN .. | .mul .. | .mulhI .. | .mulhN .. | .divI .. | .divN .. | .remI .. | .remN ..
  | .clz .. | .ctz .. | .popc .. | .brev .. | .bswap .. | .sel .. | .adds .. | .extI .. | .extN .. | .ins ..
  | .cmp .. | .addi .. | .andi .. | .ori .. | .xori .. | .shli .. | .shri .. | .sari .. | .cmpi .. | .li ..
  | .lih .. | .qlog .. => [.c, .s]
  | .pbr .. | .pbx .. | .br .. | .call .. | .loop .. | .vany .. | .vall .. | .tend .. | .trap .. | .brk ..
  | .nap .. => [.c]
  | .srd .. | .swr .. | .fence .. | .tret .. | .tretSkip .. | .tretEnd .. | .tretTo .. | .sys .. => [.s]
  | .xtovBc .. | .xtovIns .. | .vtox .. | .vtoxR .. | .ktox .. | .xtok .. | .spawn .. | .binit .. | .barrive ..
  | .bexpect .. | .bwait .. | .btest .. | .breset .. | .toksig .. | .tokwait .. | .gstart .. | .leaseReq ..
  | .leaseRel .. | .leaseQry .. | .mqpush .. | .mqstat .. => [.x]
  | .sbind .. | .sprobe .. | .snew .. | .spub .. | .srel .. | .spin .. | .spinRef .. | .sunpin .. | .sunpinRef ..
  | .sseek .. | .sinfo .. | .sedge .. | .tldv .. | .tstv .. | .tldx .. | .twb .. | .tpref .. | .wayconv ..
  | .wayrest .. | .lds .. | .sts .. | .ld .. | .ldp .. | .st .. | .stp .. | .vld .. | .vgld .. | .vst ..
  | .vsst .. | .amo .. | .cas .. | .vamo .. | .mcas .. | .rwb .. | .rinv .. | .rwbinv .. | .rstf .. | .acopy ..
  | .pfl .. => [.t]
  | .vadd .. | .vsub .. | .vmul .. | .vfma .. | .vfms .. | .vmin .. | .vmax .. | .vabs .. | .vneg .. | .vabd ..
  | .vadds .. | .vsubs .. | .vmulh .. | .vshl .. | .vshr .. | .vsar .. | .vand .. | .vor .. | .vxor ..
  | .vandn .. | .vpopc .. | .vclz .. | .vceq .. | .vcne .. | .vclt .. | .vcle .. | .vsel .. | .vmov .. | .vimm ..
  | .viota .. | .vcvt .. | .vrnd .. | .vexp2 .. | .vlog2 .. | .vrcp .. | .vrsq .. | .vredsum .. | .vredmin ..
  | .vredmax .. | .vscan .. | .vperm .. | .vslide .. | .vtopk .. | .vbset .. | .vkand .. | .vkor .. | .vkxor ..
  | .vkandn .. | .vkpop .. | .vkfirst .. | .vshli .. | .vshri .. | .vsari .. => [.v0, .v1]
  | .mpass .. | .mop .. | .mgath .. | .minit .. | .mrd .. | .mwr .. | .mst .. => [.m]
  | _ => []
/-- The literal a word owns (R76). -/
def Instr.literal : Instr → Option Word
  | .addi _ _ _ _ l => l
  | .andi _ _ _ _ l => l
  | .ori _ _ _ _ l => l
  | .xori _ _ _ _ l => l
  | .shli _ _ _ _ l => l
  | .shri _ _ _ _ l => l
  | .sari _ _ _ _ l => l
  | .cmpi _ _ _ _ _ l => l
  | .li _ _ _ l => l
  | .lih _ _ _ l => l
  | .pbr _ _ _ l => l
  | .trap _ _ l => l
  | .nap _ _ _ l => l
  | .srd _ _ _ l => l
  | .swr _ _ _ l => l
  | .sys _ _ l => l
  | .sseek _ _ _ _ l => l
  | .tpref _ _ _ l => l
  | .wayconv _ _ _ l => l
  | .wayrest _ _ _ l => l
  | .lds _ _ _ _ _ _ l => l
  | .sts _ _ _ _ _ l => l
  | .ld _ _ _ _ _ _ _ _ l => l
  | .ldp _ _ _ _ _ _ _ _ l => l
  | .st _ _ _ _ _ _ _ l => l
  | .stp _ _ _ _ _ _ _ l => l
  | .acopy _ _ _ l => l
  | .pfl _ _ _ _ l => l
  | .vimm _ _ _ _ l => l
  | .viota _ _ _ _ l => l
  | .vslide _ _ _ _ _ l => l
  | .vshli _ _ _ _ _ l => l
  | .vshri _ _ _ _ _ l => l
  | .vsari _ _ _ _ _ l => l
  | _ => none

/-- The first row of an opcode's rows that reads the word. -/
def firstRow : List Row → Option Word → Nat → Option (Nat × Instr)
  | [], _, _ => none
  | (k, f) :: r, lit, wd =>
    match f lit wd with
    | some i => if i.wf then some (k, i) else firstRow r lit wd
    | none => firstRow r lit wd

/-- The opcode map of a slot (R87 to R91). -/
def rowsOf : Slot → Nat → List Row
  | .c => rowsC | .s => rowsS | .x => rowsX | .t => rowsT | .v0 => rowsV | .v1 => rowsV | .m => rowsM

/-- What a slot word reads as. -/
inductive WordRead where
  | ok (i : Instr)
  /-- The opcode is reserved in its slot (R81 order 3). -/
  | opcode
  /-- A reserved type, an undefined sub value or a non-zero unused field (R81 order 4). -/
  | operand
  deriving DecidableEq, Repr

/-- Decode one slot word with the literal it owns, if any (R81 orders 3 and 4). -/
def decodeWord (sl : Slot) (lit : Option Word) (wd : Word) : WordRead :=
  match rowsOf sl (wd.toNat / 2 ^ 26) with
  | [] => .opcode
  | rs =>
    match firstRow rs lit wd.toNat with
    | some (_, i) => .ok i
    | none => .operand

/-- The opcodes of a slot whose words own a literal (R76, R118, R124, R133, R210). -/
def ownsLiteral : Slot → Nat → Bool
  | .c, op => (0x20 ≤ op && op ≤ 0x29) || op == 0x30 || op == 0x38 || op == 0x3A
  | .s, op => (0x20 ≤ op && op ≤ 0x29) || op == 0x30 || op == 0x31 || op == 0x34
  | .x, _ => false
  | .t, op => op == 0x07 || (0x0E ≤ op && op ≤ 0x12) || (0x14 ≤ op && op ≤ 0x17) || op == 0x24 || op == 0x25
  | .v0, op | .v1, op => op == 0x1C || op == 0x1D || op == 0x29 || (0x32 ≤ op && op ≤ 0x34)
  | .m, _ => false

/-- How many vector registers a word reads, and so how many ports it needs (R80). -/
def Instr.vreads : Instr → Nat
  | .vadd .. | .vsub .. | .vmul .. | .vmin .. | .vmax .. | .vabd .. | .vadds .. | .vsubs .. | .vmulh .. | .vshl ..
  | .vshr .. | .vsar .. | .vand .. | .vor .. | .vxor .. | .vandn .. | .vceq .. | .vcne .. | .vclt .. | .vcle ..
  | .vsel .. | .vperm .. => 2
  | .vfma .. | .vfms .. => 3
  | .vtopk .. => 4
  | .vabs .. | .vneg .. | .vpopc .. | .vclz .. | .vmov .. | .vcvt .. | .vrnd .. | .vexp2 .. | .vlog2 .. | .vrcp ..
  | .vrsq .. | .vredsum .. | .vredmin .. | .vredmax .. | .vscan .. | .vslide .. | .vshli .. | .vshri .. | .vsari ..
  | .vbset .. => 1
  | .vtox .. | .vtoxR .. | .mqpush .. | .tstv .. | .vst .. | .vgld .. | .rstf .. | .mgath .. | .mwr .. => 1
  | .vsst .. | .vamo .. => 2
  | _ => 0

/-- The slots in order with their index (R74). -/
def slotList : List (Nat × Slot) :=
  [(0, .c), (1, .s), (2, .x), (3, .t), (4, .v0), (5, .v1), (6, .m)]
/-- The port owner code of a slot (R75); C and S own no port. -/
def portCode : Slot → Nat
  | .v0 => 1 | .v1 => 2 | .x => 3 | .t => 4 | .m => 5 | .c => 9 | .s => 9

/-- A header word's fields (R75). -/
structure Header where
  check : Nat
  ports : List Nat
  drain : Bool
  scope : BitVec 2
  lit : Nat
  present : Nat
  deriving DecidableEq, Repr

/-- Read a header word (R75). -/
def readHeader (h : Word) : Header :=
  match unpack [7, 7, 2, 1, 3, 3, 3, 3, 3] h.toNat with
  | [pr, li, sc, dr, p0, p1, p2, p3, ck] => ⟨ck, [p0, p1, p2, p3], dr == 1, BitVec.ofNat 2 sc, li, pr⟩
  | _ => ⟨0, [], false, 0, 0, 0⟩

/-- How many words follow the header: one for each bit of PRESENT (R72). -/
def presentCount (h : Word) : Nat :=
  (slotList.filter fun p => h.toNat.testBit p.1).length

/-- A slot's word in a bundle: its index, its slot, whether LIT marks it, the word (R72, R76). -/
abbrev RawSlot := Nat × Slot × Bool × Word

/-- Give each present slot its word, in slot order (R72). -/
def assignWords (h : Header) : List (Nat × Slot) → List Word → List RawSlot
  | (n, sl) :: r, w :: ws =>
    if h.present.testBit n then (n, sl, h.lit.testBit n, w) :: assignWords h r ws
    else assignWords h r (w :: ws)
  | _, _ => []

/-- Order 1: the header itself (R81). -/
def headerBad (h : Header) : Bool :=
  h.check != 5 || (List.range 7).any (fun n => h.lit.testBit n && !h.present.testBit n)
    || h.ports.any (fun p => p == 6 || p == 7)

/-- Order 2: the first literal without an owner, owned by a word that owns none, or a second literal of one owner
(R76, R81). `own` is the nearest lower operation word and whether it already owns a literal; a reserved opcode is not
examined. The slot named is that of the literal, the lowest of several: R81 does not say (DESIGN CHOICE, log 40). -/
def literalBad : List RawSlot → Option (Slot × Word × Bool) → Option Nat
  | [], _ => none
  | (_, sl, false, w) :: r, _ => literalBad r (some (sl, w, false))
  | (n, _, true, _) :: r, own =>
    match own with
    | none => some n
    | some (sl, w, taken) =>
      let op := w.toNat / 2 ^ 26
      if beqEmpty (rowsOf sl op) then literalBad r own
      else if taken || !ownsLiteral sl op then some n
      else literalBad r (some (sl, w, true))
where
  /-- Rows compare only as empty or not. -/
  beqEmpty : List Row → Bool
    | [] => true
    | _ => false

/-- The literal that an operation word owns: the word after it when LIT marks that (R76). -/
def literalOf : List RawSlot → Option Word
  | (_, _, true, w) :: _ => some w
  | _ => none

/-- The operation words with the literals they own. -/
def operations : List RawSlot → List (Nat × Slot × Option Word × Word)
  | [] => []
  | (n, sl, false, w) :: r => (n, sl, literalOf r, w) :: operations r
  | (_, _, true, _) :: r => operations r

/-- A decoded bundle: the header's fields and its operation words in slot order. -/
structure Bundle where
  header : Word
  scope : BitVec 2
  drain : Bool
  present : Nat
  ports : List Nat
  ops : List (Nat × Slot × Instr)
  deriving DecidableEq, Repr

/-- Why a bundle is refused, with the slot index of R81 (7 for the header). -/
inductive DecodeError where
  | bundleHeader
  | bundleLiteral (slot : Nat)
  | reservedOpcode (slot : Nat)
  | reservedOperand (slot : Nat)
  | bundlePorts (slot : Nat)
  deriving DecidableEq, Repr

/-- The decode cause and the slot index that TINFO1 holds (R81). -/
def DecodeError.causeSlot : DecodeError → BitVec 8 × Nat
  | .bundleHeader => (0x01, 7)
  | .bundleLiteral n => (0x03, n)
  | .reservedOpcode n => (0x04, n)
  | .reservedOperand n => (0x05, n)
  | .bundlePorts n => (0x02, n)

/-- The first operation word of a kind of finding. -/
def firstRead (k : WordRead) : List (Nat × Slot × Option Word × Word) → Option Nat
  | [] => none
  | (n, sl, lit, w) :: r => if decodeWord sl lit w == k then some n else firstRead k r

/-- The instructions of the operation words. -/
def readOps : List (Nat × Slot × Option Word × Word) → List (Nat × Slot × Instr)
  | [] => []
  | (n, sl, lit, w) :: r =>
    match decodeWord sl lit w with
    | .ok i => (n, sl, i) :: readOps r
    | _ => readOps r

/-- Order 5: a port given to an absent or literal slot, or a slot with fewer ports than reads (R81): the lowest such slot, of
either kind, for which R81 names no order (DESIGN CHOICE, log 40). -/
def portsBad (h : Header) (ops : List (Nat × Slot × Instr)) : Option Nat :=
  let given := fun sl => (h.ports.filter (· == portCode sl)).length
  (slotList.find? fun (n, sl) =>
    match ops.find? (fun o => o.1 == n) with
    | some (_, _, i) => given sl < i.vreads
    | none => 0 < given sl).map Prod.fst

/-- Decode a bundle: the header word and the words after it, in the order of checks of R81. -/
def decodeBundle (hw : Word) (ws : List Word) : Except DecodeError Bundle :=
  let h := readHeader hw
  if headerBad h then .error .bundleHeader else
  let raw := assignWords h slotList ws
  match literalBad raw none with
  | some n => .error (.bundleLiteral n)
  | none =>
    let os := operations raw
    match firstRead .opcode os with
    | some n => .error (.reservedOpcode n)
    | none =>
      match firstRead .operand os with
      | some n => .error (.reservedOperand n)
      | none =>
        let ops := readOps os
        match portsBad h ops with
        | some n => .error (.bundlePorts n)
        | none => .ok ⟨hw, h.scope, h.drain, h.present, h.ports, ops⟩

/-- The slot a lone instruction word is placed in by decodeTableWord and withFetchWord. -/
def tableSlots : List Slot := [.c, .s, .x, .t, .v0, .m]

/-- Among the slots that read a lone word as a well-formed instruction, the one whose row fixes the most bits, the
earliest slot among equals; a header-only bundle comes first. A lone word names no slot, so this is the model's choice
(log 10). -/
def tableChoice (w : Nat) : Option (Slot × Instr) :=
  let cands := tableSlots.filterMap fun sl =>
    (firstRow (rowsOf sl (w / 2 ^ 26)) none w).map fun p => (p.1, sl, p.2)
  (cands.foldl (fun best c =>
    match best with
    | none => some c
    | some b => if b.1 < c.1 then some c else some b) none).map Prod.snd

/-- The instruction that the decoder reads from a table row's word (bit 0 the least significant bit of the word). -/
def decodeTableWord (nbits w : Nat) : Option Instr :=
  if nbits != 32 then none
  else match rowEmptyBundle none w with
    | some i => some i
    | none => (tableChoice w).map Prod.snd

/-- A bundle of one operation word for a lone table word: its header gives the slot the ports the word reads (R79). -/
def tableBundle (w : Nat) : List Word :=
  match rowEmptyBundle none w with
  | some _ => [BitVec.ofNat 32 w]
  | none =>
    match tableChoice w with
    | none => [BitVec.ofNat 32 w]
    | some (sl, i) =>
      let idx := (slotList.find? fun p => p.2 == sl).elim 0 Prod.fst
      let port := fun j => if j < i.vreads then portCode sl else 0
      let h := pack [(7, 2 ^ idx), (7, 0), (2, 0), (1, 0), (3, port 0), (3, port 1), (3, port 2), (3, port 3), (3, 5)]
      [BitVec.ofNat 32 h, BitVec.ofNat 32 w]

end Sys2Proof
end

