-- ==== Sys2Proof/Machine/Numeric.lean ====
section
/-! DEFINITION. Exact arithmetic and the number formats of chapter 03: the binary floats and their rounding (R49 to
R53), D8 (R54 to R61), the integers (R46), conversions (R59) and lane containers (R47, R48). -/

namespace Sys2Proof.Machine

/-- An exact fraction; the denominator is positive in every value the definitions form (R10). -/
structure Frac where
  n : Int
  d : Nat
  deriving DecidableEq, Repr

namespace Frac
def ofInt (i : Int) : Frac := ⟨i, 1⟩
def add (a b : Frac) : Frac := if a.d == b.d then ⟨a.n + b.n, a.d⟩ else ⟨a.n * b.d + b.n * a.d, a.d * b.d⟩
def neg (a : Frac) : Frac := ⟨-a.n, a.d⟩
def mul (a b : Frac) : Frac := ⟨a.n * b.n, a.d * b.d⟩
def abs (a : Frac) : Frac := ⟨a.n.natAbs, a.d⟩
def lt (a b : Frac) : Bool := a.n * b.d < b.n * a.d
def le (a b : Frac) : Bool := a.n * b.d ≤ b.n * a.d
def isZero (a : Frac) : Bool := a.n == 0
/-- a × 2^e. -/
def scale2 (a : Frac) : Int → Frac
  | .ofNat k => ⟨a.n * 2 ^ k, a.d⟩
  | .negSucc k => ⟨a.n, a.d * 2 ^ (k + 1)⟩
/-- a × 10^e. -/
def scale10 (a : Frac) : Int → Frac
  | .ofNat k => ⟨a.n * 10 ^ k, a.d⟩
  | .negSucc k => ⟨a.n, a.d * 10 ^ (k + 1)⟩
end Frac

/-- A value of a float or D8 operand: not a number, an infinity, or an exact number whose sign bit `neg` matters when
it is zero (R49, R52, R62). -/
inductive Val where
  | nan
  | inf (neg : Bool)
  | fin (neg : Bool) (q : Frac)
  deriving DecidableEq, Repr

namespace Val
/-- A number with the sign of its value, `zneg` when it is zero. -/
def mk (zneg : Bool) (q : Frac) : Val := .fin (if q.isZero then zneg else q.n < 0) q
def ofInt (i : Int) : Val := mk false (.ofInt i)
def neg : Val → Val
  | .nan => .nan | .inf s => .inf !s | .fin s q => .fin (!s) q.neg
def abs : Val → Val
  | .nan => .nan | .inf _ => .inf false | .fin _ q => .fin false q.abs
/-- Exact sum (R52, R62): a zero sum is −0 only when both operands are negative. -/
def add : Val → Val → Val
  | .nan, _ | _, .nan => .nan
  | .inf a, .inf b => if a == b then .inf a else .nan
  | .inf a, _ => .inf a
  | _, .inf b => .inf b
  | .fin a p, .fin b q => mk (a && b) (p.add q)
def sub (a b : Val) : Val := a.add b.neg
/-- Exact product (R52, R62). -/
def mul : Val → Val → Val
  | .nan, _ | _, .nan => .nan
  | .inf a, .inf b => .inf (a != b)
  | .inf a, .fin b q | .fin b q, .inf a => if q.isZero then .nan else .inf (a != b)
  | .fin a p, .fin b q => mk (a != b) (p.mul q)
/-- Numeric order with −0 equal to +0; false when either is NaN. -/
def lt : Val → Val → Bool
  | .nan, _ | _, .nan => false
  | .inf a, .inf b => a && !b
  | .inf a, .fin .. => a
  | .fin .., .inf b => !b
  | .fin _ p, .fin _ q => p.lt q
def eq : Val → Val → Bool
  | .nan, _ | _, .nan => false
  | .inf a, .inf b => a == b
  | .inf _, .fin .. | .fin .., .inf _ => false
  | .fin _ p, .fin _ q => p.le q && q.le p
def sign : Val → Bool
  | .nan => false | .inf s => s | .fin s _ => s
def isNan : Val → Bool
  | .nan => true | _ => false
/-- Minimum: −0 below +0, NaN from a NaN (R140). -/
def min (a b : Val) : Val :=
  if a.isNan || b.isNan then .nan else if a.lt b then a else if b.lt a then b else if a.sign then a else b
def max (a b : Val) : Val :=
  if a.isNan || b.isNan then .nan else if b.lt a then a else if a.lt b then b else if a.sign then b else a
end Val

/-- n / d rounded to an integer in a mode; `neg` is the sign of the value whose magnitude this is (R51). -/
def roundDiv (mode : RMode) (neg : Bool) (n d : Nat) : Nat :=
  let k := n / d
  let r := n % d
  if r == 0 then k else
  match mode with
  | .rne => if 2 * r > d || (2 * r == d && k % 2 == 1) then k + 1 else k
  | .rtz => k
  | .rdn => if neg then k + 1 else k
  | .rup => if neg then k else k + 1

/-- floor(log2 (a / b)) for positive a and b. -/
def floorLog2 (a b : Nat) : Int :=
  let e : Int := (a.log2 : Int) - (b.log2 : Int)
  if Frac.lt ⟨a, b⟩ ((Frac.ofInt 1).scale2 e) then e - 1 else e

/-- Round an exact value to a binary float of 8 exponent bits and `fb` fraction bits: its bits (R49 to R52). -/
def rndBits (fb : Nat) (mode : RMode) : Val → Nat
  | .nan => 255 * 2 ^ fb + 2 ^ (fb - 1)
  | .inf s => (if s then 2 ^ (fb + 8) else 0) + 255 * 2 ^ fb
  | .fin s q =>
    let sb := if s then 2 ^ (fb + 8) else 0
    if q.isZero then sb else
    let a := q.n.natAbs
    let e := max (floorLog2 a q.d) (-126)
    let t := (Frac.mk a q.d).scale2 (fb - e)
    let m := roundDiv mode s t.n.natAbs t.d
    let bits := (e + 126).toNat * 2 ^ fb + m
    if bits < 255 * 2 ^ fb then sb + bits else
    match mode, s with
    | .rne, _ | .rdn, true | .rup, false => sb + 255 * 2 ^ fb
    | _, _ => sb + 255 * 2 ^ fb - 1

/-- The value of a binary float's bits (R49). -/
def floatVal (fb : Nat) (bits : Nat) : Val :=
  let s := bits.testBit (fb + 8)
  let e := bits / 2 ^ fb % 256
  let f := bits % 2 ^ fb
  if e == 255 then (if f == 0 then .inf s else .nan) else
  let m : Int := if e == 0 then f else 2 ^ fb + f
  let q := (Frac.ofInt (if s then -m else m)).scale2 ((max e 1 : Nat) - 127 - fb)
  .fin s q

/-- bf, f32 and f40 fraction widths (R49). -/
def fbBf : Nat := 7
def fbF32 : Nat := 23
def fbF40 : Nat := 31

/-- A saturating or wrapping integer range of a width (R46). -/
def satSigned (w : Nat) (i : Int) : Int := max (-(2 ^ (w - 1))) (min (2 ^ (w - 1) - 1) i)
def satUnsigned (w : Nat) (i : Int) : Int := max 0 (min (2 ^ w - 1) i)
def sat (w : Nat) (signed : Bool) (i : Int) : Int := if signed then satSigned w i else satUnsigned w i

/-- Round to an integer in a mode, then saturate; NaN gives 0 (R59, R62). -/
def valToInt (w : Nat) (signed : Bool) (mode : RMode) : Val → Int
  | .nan => 0
  | .inf s => sat w signed (if s then -(2 ^ 200) else 2 ^ 200)
  | .fin s q =>
    let m : Int := roundDiv mode s q.n.natAbs q.d
    sat w signed (if s then -m else m)

/-! D8 (R54 to R61). -/

/-- The run length of a D8 code: bits equal to bit 6, from bit 6 downward (R54). -/
def d8Run (c : Nat) : Nat → Nat
  | 0 => 0
  | n + 1 => if c.testBit n == c.testBit 6 then d8Run c n + 1 else 0
/-- The magnitude of a code at σ = 0 (R54). -/
def d8Mag (c : Nat) : Frac :=
  let k := d8Run c 7
  let fb := 6 - k
  let f := c % 2 ^ fb
  let e : Int := if c.testBit 6 then (k : Int) - 1 else -(k : Int)
  (Frac.mk (2 ^ fb + 9 * f) (2 ^ fb)).scale10 e
/-- `d8_value(byte, σ)` (R54). -/
def d8Val (byte : Nat) (sigma : Int) : Val :=
  let c := byte % 128
  let s := byte / 128 % 2 == 1
  if c == 0 then (if s then .nan else .fin false ⟨0, 1⟩)
  else
    let q := (d8Mag c).scale10 sigma
    .fin s (if s then q.neg else q)

/-- `xs64_next` (R61). -/
def xs64 (s0 : BitVec 64) : BitVec 64 :=
  let s1 := s0 ^^^ (s0 <<< 13)
  let s2 := s1 ^^^ (s1 >>> 7)
  s2 ^^^ (s2 <<< 17)

/-- The largest magnitude among the finite, non-zero values of a scale group (R60). -/
def groupMax : List Val → Option Frac
  | [] => none
  | .fin _ q :: r =>
    if q.isZero then groupMax r else
    match groupMax r with
    | none => some q.abs
    | some m => some (if m.lt q.abs then q.abs else m)
  | _ :: r => groupMax r

/-- The smallest σ from s upward with m / 10^σ ≤ 10^6. -/
def sigmaFrom (m : Frac) (s : Int) : Nat → Int
  | 0 => s
  | n + 1 => if (m.scale10 (-s)).le (Frac.ofInt 1000000) then s else sigmaFrom m (s + 1) n
/-- `choose_sigma` (R60). -/
def chooseSigma (g : List Val) : Int :=
  match groupMax g with
  | none => -128
  | some m => sigmaFrom m (-128) 255

/-- The nearest code among 1 to n; on a tie the even code (R60). -/
def d8Nearest (y : Frac) : Nat → Nat
  | 0 => 1
  | 1 => 1
  | n + 1 =>
    let best := d8Nearest y n
    let dn := ((d8Mag (n + 1)).add y.neg).abs
    let db := ((d8Mag best).add y.neg).abs
    if dn.lt db then n + 1 else if db.lt dn then best else if (n + 1) % 2 == 0 then n + 1 else best

/-- `to_d8`: the byte and the generator after it (R60, R61). -/
def toD8 (x : Val) (sigma : Int) (gen : BitVec 64) : BitVec 8 × BitVec 64 :=
  match x with
  | .nan | .inf _ => (0x80, gen)
  | .fin s q =>
    let y := (q.scale10 (-sigma)).abs
    let sb : Nat := if s then 128 else 0
    if y.isZero then (0, gen)
    else if y.lt ⟨1, 1000000⟩ then
      let g := xs64 gen
      let u : Nat := g.toNat / 2 ^ 40
      if (Frac.mk u 1).lt (y.mul (Frac.ofInt (1000000 * 2 ^ 24))) then (BitVec.ofNat 8 (sb + 1), g) else (0, g)
    else (BitVec.ofNat 8 (sb + d8Nearest y 127), gen)

/-- Convert a list of values in order under one σ, drawing from the generator (R61). -/
def toD8List (sigma : Int) : List Val → BitVec 64 → List (BitVec 8) × BitVec 64
  | [], g => ([], g)
  | v :: r, g =>
    let (b, g') := toD8 v sigma g
    let (bs, g'') := toD8List sigma r g'
    (b :: bs, g'')

/-! Lane containers (R47, R48). -/

/-- Width in bits of a type's value in memory and in a lane (R46, R49, R54). -/
def ElemType_width : ElemType → Nat
  | .i8 | .n8 | .d8 => 8
  | .i16 | .n16 | .bf => 16
  | .i32 | .n32 | .f32 => 32
/-- Element size in bytes. -/
def esize (t : ElemType) : Nat := ElemType_width t / 8

/-- The integer a container holds as an I type (R47, R48). -/
def laneInt (t : ElemType) (c : BitVec 32) : Int :=
  let w := ElemType_width t
  if t.isSigned then (c.setWidth w).toInt else (c.setWidth w).toNat
/-- The σ of a d8 container. -/
def laneSigma (c : BitVec 32) : Int := ((c >>> 8).setWidth 8).toInt
/-- The exact value of a container read as a type (R48). -/
def laneVal (t : ElemType) (c : BitVec 32) : Val :=
  match t with
  | .bf => floatVal fbBf (c.setWidth 16).toNat
  | .f32 => floatVal fbF32 c.toNat
  | .d8 => d8Val (c.setWidth 8).toNat (laneSigma c)
  | _ => .ofInt (laneInt t c)
/-- The container of an integer, wrapped to the type's width (R46, R47). -/
def intLane (t : ElemType) (i : Int) : BitVec 32 :=
  let w := ElemType_width t
  if t.isSigned then (BitVec.ofInt w i).signExtend 32 else (BitVec.ofInt w i).setWidth 32
/-- The container of a value rounded into a float type (R51). -/
def floatLane (t : ElemType) (mode : RMode) (v : Val) : BitVec 32 :=
  BitVec.ofNat 32 (rndBits (if t == .bf then fbBf else fbF32) mode v)
/-- The container of a d8 code and its σ (R47). -/
def d8Lane (code : BitVec 8) (sigma : Int) : BitVec 32 := BitVec.ofNat 32 (code.toNat + 256 * (BitVec.ofInt 8 sigma).toNat)

/-- Convert a value to a type other than d8 under a mode (R59). -/
def convLane (t : ElemType) (mode : RMode) (v : Val) : BitVec 32 :=
  if t.isFloat then floatLane t mode v else intLane t (valToInt (ElemType_width t) t.isSigned mode v)

/-- The containers of a register's lanes 0 to n − 1, lane 0 first. -/
def lanesFrom (v : VReg) (i : Nat) : Nat → List (BitVec 32)
  | 0 => []
  | n + 1 => v.extractLsb' (32 * i) 32 :: lanesFrom v (i + 1) n
def lanes (v : VReg) : List (BitVec 32) := lanesFrom v 0 64
/-- A lane of a register (R135). -/
def lane (v : VReg) (i : Nat) : BitVec 32 := v.extractLsb' (32 * i) 32
/-- The number whose 32-bit digits are the containers, lane 0 lowest. -/
def packLanes : List (BitVec 32) → Nat
  | [] => 0
  | c :: r => c.toNat + 2 ^ 32 * packLanes r
/-- The register of a list of containers. -/
def ofLanes (l : List (BitVec 32)) : VReg := BitVec.ofNat 2048 (packLanes l)
/-- A register with every lane from a function of the index. -/
def mkVReg (f : Nat → BitVec 32) : VReg := ofLanes ((List.range 64).map f)
/-- The bits of a mask from a function of the index. -/
def mkMask (f : Nat → Bool) : BitVec 64 :=
  BitVec.ofNat 64 ((List.range 64).foldl (fun a i => if f i then a + 2 ^ i else a) 0)
/-- A 2,048-bit selector with all bits of each active lane. -/
def laneSelect (m : BitVec 64) : VReg := mkVReg fun i => if m.getLsbD i then BitVec.allOnes 32 else 0

/-- The value of an identity for a reduction (R70). -/
def redIdentity (t : ElemType) (op : Nat) : BitVec 32 :=
  match op, t.isFloat with
  | 0, _ => 0
  | 1, true => floatLane t .rne (.inf false)
  | 2, true => floatLane t .rne (.inf true)
  | 1, false => intLane t (if t.isSigned then 2 ^ (ElemType_width t - 1) - 1 else 2 ^ ElemType_width t - 1)
  | _, false => intLane t (if t.isSigned then -(2 ^ (ElemType_width t - 1)) else 0)
  | _, _ => 0
/-- One step of a reduction: sum, minimum or maximum in the element type (R68). -/
def redOp (t : ElemType) (op : Nat) (a b : BitVec 32) : BitVec 32 :=
  if t.isFloat then
    let x := laneVal t a
    let y := laneVal t b
    floatLane t .rne (match op with | 0 => x.add y | 1 => x.min y | _ => x.max y)
  else
    let x := laneInt t a
    let y := laneInt t b
    intLane t (match op with | 0 => x + y | 1 => min x y | _ => max x y)
/-- One level of the tree of R68: neighbours combined. -/
def treeLevel (f : BitVec 32 → BitVec 32 → BitVec 32) : List (BitVec 32) → List (BitVec 32)
  | a :: b :: r => f a b :: treeLevel f r
  | l => l
/-- `tree_reduce` (R68): six levels. -/
def treeReduce (f : BitVec 32 → BitVec 32 → BitVec 32) (l : List (BitVec 32)) : BitVec 32 :=
  ((List.range 6).foldl (fun a _ => treeLevel f a) l).headD 0
/-- One step of the scan of R69 at distance h. -/
def scanStep (f : BitVec 32 → BitVec 32 → BitVec 32) (h : Nat) (l : List (BitVec 32)) : List (BitVec 32) :=
  l.take h ++ List.zipWith f l (l.drop h)
/-- The inclusive scan (R69). -/
def scanAll (f : BitVec 32 → BitVec 32 → BitVec 32) (l : List (BitVec 32)) : List (BitVec 32) :=
  (List.range 6).foldl (fun a j => scanStep f (2 ^ j) a) l

/-! Correctly rounded bf functions (R51, R149): the result is found by comparing exact candidates with the function. -/

/-- The largest bf code in [lo, lo + 2^n) whose value is at most the function, where `le q` says q ≤ f. -/
def codeSearch (le : Frac → Bool) (lo : Nat) : Nat → Nat
  | 0 => lo
  | n + 1 => if le (match floatVal fbBf (lo + 2 ^ n) with | .fin _ q => q | _ => ⟨1, 0⟩) then codeSearch le (lo + 2 ^ n) n else codeSearch le lo n
/-- Round a positive function value to bf: `cmp q` orders q against the function. Codes from `lo` up to `lo + 2^n`. -/
def roundFn (cmp : Frac → Ordering) (lo n : Nat) : Nat :=
  let c := codeSearch (fun q => q.d != 0 && cmp q != .gt) lo n
  let fv := fun k => match floatVal fbBf k with | .fin _ q => q | _ => (Frac.ofInt 1).scale2 128
  let a := fv c
  let b := fv (c + 1)
  match cmp ((a.add b).mul ⟨1, 2⟩) with
  | .lt => c + 1
  | .gt => c
  | .eq => if c % 2 == 0 then c else c + 1
def cmpNat (a b : Nat) : Ordering := if a < b then .lt else if a == b then .eq else .gt
/-- Order q against 2^(k / 2^j). -/
def cmpExp2 (k : Int) (j : Nat) (q : Frac) : Ordering :=
  let l := q.n.natAbs ^ 2 ^ j
  let r := q.d ^ 2 ^ j
  match k with
  | .ofNat n => cmpNat l (r * 2 ^ n)
  | .negSucc n => cmpNat (l * 2 ^ (n + 1)) r
/-- Order q against log2 a for a > 1: 2^q against a. -/
def cmpLog2 (a : Frac) (q : Frac) : Ordering :=
  cmpNat (2 ^ q.n.natAbs * a.d ^ q.d) (a.n.natAbs ^ q.d)
/-- Order q against 1/√a. -/
def cmpRsq (a : Frac) (q : Frac) : Ordering :=
  cmpNat (q.n.natAbs * q.n.natAbs * a.n.natAbs) (q.d * q.d * a.d)
/-- Reduce a dyadic fraction to an odd numerator or denominator 1. -/
def dyadic (n : Int) : Nat → Int × Nat
  | 0 => (n, 0)
  | j + 1 => if n % 2 == 0 then dyadic (n / 2) j else (n, j + 1)
/-- The bf bits of a float lane function (R149). -/
def bfExp2 : Val → Nat
  | .nan => rndBits fbBf .rne .nan
  | .inf false => 0x7F80
  | .inf true => 0
  | .fin _ q =>
    if (q.abs).lt ⟨1, 512⟩ then 0x3F80
    else if (Frac.ofInt 128).le q then 0x7F80
    else if q.le (Frac.ofInt (-135)) then 0
    else let (k, j) := dyadic q.n q.d.log2; roundFn (cmpExp2 k j) 0 15
def bfLog2 : Val → Nat
  | .nan => rndBits fbBf .rne .nan
  | .inf false => 0x7F80
  | .inf true => rndBits fbBf .rne .nan
  | .fin _ q =>
    if q.isZero then 0xFF80
    else if q.n < 0 then rndBits fbBf .rne .nan
    else
      let one := Frac.ofInt 1
      if q.le one && one.le q then 0
      else
        let big := one.lt q
        let a : Frac := if big then q else ⟨q.d, q.n.natAbs⟩
        let bits := roundFn (fun c => if c.isZero then .lt else if (Frac.ofInt 256).lt c then .gt else let (k, j) := dyadic c.n c.d.log2; cmpLog2 a ⟨k, 2 ^ j⟩) 0x3B00 12
        if big then bits else bits + 0x8000
def bfRcp : Val → Nat
  | .nan => rndBits fbBf .rne .nan
  | .inf s => if s then 0x8000 else 0
  | .fin s q => if q.isZero then rndBits fbBf .rne (.inf s)
    else rndBits fbBf .rne (.fin s ⟨if s then -(q.d : Int) else q.d, q.n.natAbs⟩)
def bfRsq : Val → Nat
  | .nan => rndBits fbBf .rne .nan
  | .inf s => if s then rndBits fbBf .rne .nan else 0
  | .fin s q => if q.isZero then rndBits fbBf .rne (.inf s)
    else if s then rndBits fbBf .rne .nan
    else roundFn (cmpRsq q) 0 15

end Sys2Proof.Machine
end

