-- ==== Sys2Proof/Machine/Crypto.lean ====
section
/-! DEFINITION. The algorithms that R383, R384, R433 to R436 name: AES-256-XTS, KMAC256 and SHAKE256, AES key wrap
(RFC 3394), X448 and Ed448 (RFC 8032). The spec names them and does not restate them: they are taken from the published
standards (PRESUMED, log 12). Byte strings are lists, byte 0 first. -/

namespace Sys2Proof.Machine

/-- Bytes of a little-endian number (R3). -/
def toBytes : Nat → Nat → List (BitVec 8)
  | 0, _ => []
  | n + 1, v => BitVec.ofNat 8 v :: toBytes n (v / 256)
/-- The little-endian number of bytes (R3). -/
def ofBytes : List (BitVec 8) → Nat
  | [] => 0
  | b :: r => b.toNat + 256 * ofBytes r

/-! AES-256 on blocks of 16 bytes, byte 0 the lowest. -/

def gfDouble (a : Nat) : Nat := let d := 2 * a; if d ≥ 256 then d.xor 0x11B else d
def gfMul (a : Nat) : Nat → Nat → Nat
  | 0, _ => 0
  | n + 1, b => (if b % 2 == 1 then a else 0).xor (gfMul (gfDouble a) n (b / 2))
def gfm (a b : Nat) : Nat := gfMul a 8 b
def rotl8 (a k : Nat) : Nat := (a * 2 ^ k + a / 2 ^ (8 - k)) % 256
/-- The substitution: the inverse a^254, then the affine map. -/
def sbox (a : Nat) : Nat :=
  let i := if a == 0 then 0 else (List.range 6).foldl (fun r _ => gfm (gfm r r) a) a |> fun r => gfm r r
  ((((i.xor (rotl8 i 1)).xor (rotl8 i 2)).xor (rotl8 i 3)).xor (rotl8 i 4)).xor 0x63
/-- The substitution as tables, so that each is computed once. -/
def sboxTable : List Nat := (List.range 256).map sbox
def invSbox (a : Nat) : Nat := sboxTable.findIdx (· == a)
def subByte (a : Nat) : Nat := sboxTable.getD a 0
def xorList (a b : List Nat) : List Nat := List.zipWith Nat.xor a b
/-- Expand a key of eight words to sixty (words of four bytes, byte 0 first). -/
def keyWords (w : List (List Nat)) (rcon : Nat) : Nat → List (List Nat)
  | 0 => w
  | n + 1 =>
    let i := w.length
    let prev := w.getD (i - 1) []
    let t := if i % 8 == 0 then
        match prev with
        | [a, b, c, d] => [(subByte b).xor rcon, subByte c, subByte d, subByte a]
        | l => l
      else if i % 8 == 4 then prev.map subByte else prev
    keyWords (w ++ [xorList (w.getD (i - 8) []) t]) (if i % 8 == 0 then gfDouble rcon else rcon) n
def bytesNat (n v : Nat) : List Nat := (toBytes n v).map BitVec.toNat
def ofNatBytes (l : List Nat) : Nat := ofBytes (l.map (BitVec.ofNat 8))
def chunk (k : Nat) : Nat → List Nat → List (List Nat)
  | 0, _ => []
  | n + 1, l => l.take k :: chunk k n (l.drop k)
/-- The fifteen round keys of a 256-bit key, each 16 bytes. -/
def roundKeys (key : BitVec 256) : List (List Nat) :=
  let w := keyWords (chunk 4 8 (bytesNat 32 key.toNat)) 1 52
  (List.range 15).map fun r => ((w.drop (4 * r)).take 4).flatten
def shiftRows (inv : Bool) (s : List Nat) : List Nat :=
  (List.range 16).map fun i => let r := i % 4; let c := i / 4; s.getD (4 * ((c + (if inv then 4 - r else r)) % 4) + r) 0
def mixColumn (m : List Nat) (col : List Nat) : List Nat :=
  (List.range 4).map fun r => (List.range 4).foldl (fun a j => a.xor (gfm (m.getD ((j + 4 - r) % 4) 0) (col.getD j 0))) 0
def mixColumns (m : List Nat) (s : List Nat) : List Nat := ((chunk 4 4 s).map (mixColumn m)).flatten
def aesEnc (ks : List (List Nat)) (b : List Nat) : List Nat :=
  let s := (List.range 13).foldl (fun s r => xorList (mixColumns [2, 3, 1, 1] (shiftRows false (s.map subByte))) (ks.getD (r + 1) [])) (xorList b (ks.getD 0 []))
  xorList (shiftRows false (s.map subByte)) (ks.getD 14 [])
def aesDec (ks : List (List Nat)) (b : List Nat) : List Nat :=
  let s := (List.range 13).foldl (fun s r => mixColumns [14, 11, 13, 9] (xorList ((shiftRows true s).map invSbox) (ks.getD (13 - r) []))) (xorList b (ks.getD 14 []))
  xorList ((shiftRows true s).map invSbox) (ks.getD 0 [])
/-- The next XTS tweak: multiplication by x in GF(2^128), little-endian. -/
def xtsNext (t : Nat) : Nat := let d := 2 * t; if d ≥ 2 ^ 128 then (d - 2 ^ 128).xor 0x87 else d
/-- XTS over the blocks of a unit, from tweak t. -/
def xtsBlocks (f : List Nat → List Nat) (t : Nat) : Nat → Nat → Nat
  | 0, _ => 0
  | n + 1, v =>
    let o := (ofNatBytes (f (bytesNat 16 ((v % 2 ^ 128).xor t)))).xor t
    o + 2 ^ 128 * xtsBlocks f (xtsNext t) n (v / 2 ^ 128)
/-- Encrypt a 128-byte line (R383): the tweak is the line's address. -/
def xtsEncrypt (k1 k2 : BitVec 256) (addr : Nat) (d : BitVec 1024) : BitVec 1024 :=
  let ks := roundKeys k1
  BitVec.ofNat 1024 (xtsBlocks (aesEnc ks) (ofNatBytes (aesEnc (roundKeys k2) (bytesNat 16 addr))) 8 d.toNat)
def xtsDecrypt (k1 k2 : BitVec 256) (addr : Nat) (d : BitVec 1024) : BitVec 1024 :=
  let ks := roundKeys k1
  BitVec.ofNat 1024 (xtsBlocks (aesDec ks) (ofNatBytes (aesEnc (roundKeys k2) (bytesNat 16 addr))) 8 d.toNat)
/-- One inverse step of RFC 3394 for counter t. -/
def unwrapStep (ks : List (List Nat)) (n t : Nat) (st : List Nat × List (List Nat)) : List Nat × List (List Nat) :=
  let i := (t - 1) % n
  let a := xorList st.1 ((bytesNat 8 t).reverse)
  let b := aesDec ks (a ++ st.2.getD i [])
  (b.take 8, st.2.set i (b.drop 8))
/-- Unwrap `n` 64-bit words under a key-encryption key (RFC 3394): none when the check value differs. -/
def keyUnwrap (kek : BitVec 256) (n : Nat) (c : List Nat) : Option (List Nat) :=
  let ks := roundKeys kek
  let st := (List.range (6 * n)).foldl (fun st j => unwrapStep ks n (6 * n - j) st) (c.take 8, chunk 8 n (c.drop 8))
  if st.1 == List.replicate 8 0xA6 then some st.2.flatten else none

/-! Keccak. A state is 25 lanes of 64 bits. -/

def rot64 (a k : Nat) : Nat := let k := k % 64; (a * 2 ^ k + a / 2 ^ (64 - k)) % 2 ^ 64
/-- Rotation offsets of rho along the walk of pi. -/
def keccakRho (t : Nat) : Nat := (t + 1) * (t + 2) / 2 % 64
/-- The bit of the round-constant register at time t. -/
def keccakRc : Nat → Nat → Nat
  | 0, r => r % 2
  | n + 1, r => let d := 2 * r; keccakRc n (if d ≥ 256 then d.xor 0x171 else d)
def keccakConst (ir : Nat) : Nat :=
  (List.range 7).foldl (fun a j => a + keccakRc ((j + 7 * ir) % 255) 1 * 2 ^ (2 ^ j - 1)) 0
/-- rho and pi: the lane that starts at (1, 0) walks through the state. -/
def rhoPi (s : List Nat) : Nat → Nat → Nat → Nat → List Nat → List Nat
  | 0, _, _, _, o => o
  | n + 1, t, x, y, o =>
    let nx := y
    let ny := (2 * x + 3 * y) % 5
    rhoPi s n (t + 1) nx ny (o.set (nx + 5 * ny) (rot64 (s.getD (x + 5 * y) 0) (keccakRho t)))
def keccakRound (s : List Nat) (ir : Nat) : List Nat :=
  let g := fun (l : List Nat) (x y : Nat) => l.getD (x % 5 + 5 * (y % 5)) 0
  let c := (List.range 5).map fun x => ((((g s x 0).xor (g s x 1)).xor (g s x 2)).xor (g s x 3)).xor (g s x 4)
  let d := (List.range 5).map fun x => (c.getD ((x + 4) % 5) 0).xor (rot64 (c.getD ((x + 1) % 5) 0) 1)
  let a := (List.range 25).map fun i => (s.getD i 0).xor (d.getD (i % 5) 0)
  let b := rhoPi a 24 0 1 0 a
  let e := (List.range 25).map fun i =>
    let x := i % 5; let y := i / 5
    (g b x y).xor ((2 ^ 64 - 1 - g b (x + 1) y).land (g b (x + 2) y))
  e.set 0 ((e.getD 0 0).xor (keccakConst ir))
def keccakF (s : List Nat) : List Nat := (List.range 24).foldl keccakRound s
def absorb (s : List Nat) (block : List Nat) : List Nat :=
  keccakF (xorList s ((chunk 8 17 block).map ofNatBytes ++ List.replicate 8 0))
def absorbAll (s : List Nat) : Nat → List Nat → List Nat
  | 0, _ => s
  | n + 1, m => absorbAll (absorb s (m.take 136)) n (m.drop 136)
def squeeze (s : List Nat) : Nat → List Nat
  | 0 => []
  | n + 1 => ((s.take 17).map (bytesNat 8)).flatten ++ squeeze (keccakF s) n
/-- The sponge at rate 136 bytes with a domain byte, giving `out` bytes. -/
def sponge (dom : Nat) (m : List Nat) (out : Nat) : List Nat :=
  let n := m.length / 136 + 1
  let padLen := n * 136 - m.length
  let pad := if padLen == 1 then [dom + 128] else dom :: List.replicate (padLen - 2) 0 ++ [128]
  (squeeze (absorbAll (List.replicate 25 0) n (m ++ pad)) ((out + 135) / 136)).take out
def shake256 (m : List Nat) (out : Nat) : List Nat := sponge 0x1F m out
/-- left_encode and right_encode of a length below 2^16, and encode_string. -/
def encLen (n : Nat) : List Nat := if n < 256 then [n] else [n / 256, n % 256]
def leftEncode (n : Nat) : List Nat := (encLen n).length :: encLen n
def rightEncode (n : Nat) : List Nat := encLen n ++ [(encLen n).length]
def encodeString (l : List Nat) : List Nat := leftEncode (8 * l.length) ++ l
def bytepad (l : List Nat) : List Nat :=
  let x := leftEncode 136 ++ l
  x ++ List.replicate ((136 - x.length % 136) % 136) 0
/-- KMAC256 with `bits` of output. -/
def kmac256 (key x : List Nat) (bits : Nat) (custom : List Nat) : List Nat :=
  let m := bytepad (encodeString [0x4B, 0x4D, 0x41, 0x43] ++ encodeString custom) ++ bytepad (encodeString key) ++ x ++ rightEncode bits
  sponge 0x04 m (bits / 8)
/-- "FRESNEL LINE" in ASCII (R384). -/
def fresnelLine : List Nat := [0x46, 0x52, 0x45, 0x53, 0x4E, 0x45, 0x4C, 0x20, 0x4C, 0x49, 0x4E, 0x45]
/-- The integrity tag of a line (R384). -/
def lineTag (km : BitVec 256) (addr : Nat) (c : BitVec 1024) : BitVec 64 :=
  BitVec.ofNat 64 (ofNatBytes (kmac256 (bytesNat 32 km.toNat) (bytesNat 8 addr ++ bytesNat 128 c.toNat) 64 fresnelLine))

/-! The field and curves of X448 and Ed448. -/

def p448 : Nat := 2 ^ 448 - 2 ^ 224 - 1
def l448 : Nat := 2 ^ 446 - 13818066809895115352007386748515426880336692474882178609894547503885
def powMod (m b : Nat) : Nat → Nat → Nat
  | 0, _ => 1
  | n + 1, e => (powMod m (b * b % m) n (e / 2)) * (if e % 2 == 1 then b else 1) % m
def inv448 (a : Nat) : Nat := powMod p448 a 448 (p448 - 2)
def sub448 (a b : Nat) : Nat := (a + p448 - b % p448) % p448
/-- One step of the Montgomery ladder on (x2, z2, x3, z3). -/
def ladderStep (u : Nat) (s : Nat × Nat × Nat × Nat) (bit : Bool) : Nat × Nat × Nat × Nat :=
  let (x2, z2, x3, z3) := if bit then (s.2.2.1, s.2.2.2, s.1, s.2.1) else s
  let a := (x2 + z2) % p448
  let aa := a * a % p448
  let b := sub448 x2 z2
  let bb := b * b % p448
  let e := sub448 aa bb
  let da := sub448 x3 z3 * a % p448
  let cb := (x3 + z3) * b % p448
  let f := (da + cb) % p448
  let g := sub448 da cb
  let r := (aa * bb % p448, e * (aa + 39081 * e) % p448, f * f % p448, u * (g * g % p448) % p448)
  if bit then (r.2.2.1, r.2.2.2, r.1, r.2.1) else r
/-- X448: the shared secret of a 56-byte private key and a peer's u coordinate. -/
def x448 (k u : Nat) : Nat :=
  let k := (k - k % 4) % 2 ^ 447 + 2 ^ 447
  let u := u % p448
  let (x2, z2, _, _) := (List.range 448).foldl (fun s i => ladderStep u s (k.testBit (447 - i))) (1, 0, u, 1)
  x2 * inv448 z2 % p448
/-- Edwards addition on projective points with d = −39081. -/
def edAdd (p q : Nat × Nat × Nat) : Nat × Nat × Nat :=
  let (x1, y1, z1) := p
  let (x2, y2, z2) := q
  let a := z1 * z2 % p448
  let b := a * a % p448
  let c := x1 * x2 % p448
  let d := y1 * y2 % p448
  let e := sub448 0 (39081 * (c * d % p448))
  let f := sub448 b e
  let g := (b + e) % p448
  let h := (x1 + y1) * (x2 + y2) % p448
  (a * (f * sub448 h (c + d) % p448) % p448, a * (g * sub448 d c % p448) % p448, f * g % p448)
def edMul (p : Nat × Nat × Nat) : Nat → Nat → Nat × Nat × Nat
  | 0, _ => (0, 1, 1)
  | n + 1, k => let r := edMul (edAdd p p) n (k / 2); if k % 2 == 1 then edAdd p r else r
def edBase : Nat × Nat × Nat :=
  (224580040295924300187604334099896036246789641632564134246125461686950415467406032909029192869357953282578032075146446173674602635247710,
   298819210078481492676017930443930673437544040154080242095928241372331506189835876003536878655418784733982303233503462500531545062832660, 1)
def edEncode (p : Nat × Nat × Nat) : List Nat :=
  let zi := inv448 p.2.2
  let x := p.1 * zi % p448
  bytesNat 56 (p.2.1 * zi % p448) ++ [if x % 2 == 1 then 128 else 0]
/-- Decode a point: none when it is not on the curve. -/
def edDecode (b : List Nat) : Option (Nat × Nat × Nat) :=
  let y := ofNatBytes (b.take 56)
  let s := b.getD 56 0 / 128
  if y ≥ p448 || b.getD 56 0 % 128 != 0 then none else
  let u := sub448 (y * y) 1
  let v := sub448 (p448 - (39081 * (y * y % p448)) % p448) 1
  let x2 := u * inv448 v % p448
  let x := powMod p448 x2 448 ((p448 + 1) / 4)
  if x * x % p448 != x2 then none
  else if x == 0 && s == 1 then none
  else some (if x % 2 == s then x else p448 - x, y, 1)
/-- dom4(0, "") of Ed448. -/
def dom4 : List Nat := [0x53, 0x69, 0x67, 0x45, 0x64, 0x34, 0x34, 0x38, 0, 0]
def edSecret (sk : List Nat) : Nat × List Nat :=
  let h := shake256 sk 114
  let a := ofNatBytes (h.take 56)
  ((a - a % 4) % 2 ^ 447 + 2 ^ 447, (h.drop 57))
def edPublic (sk : List Nat) : List Nat := edEncode (edMul edBase 448 (edSecret sk).1)
/-- Sign (RFC 8032, pure Ed448): 114 bytes. -/
def edSign (sk m : List Nat) : List Nat :=
  let (a, pre) := edSecret sk
  let pk := edPublic sk
  let r := ofNatBytes (shake256 (dom4 ++ pre ++ m) 114) % l448
  let rr := edEncode (edMul edBase 448 r)
  let k := ofNatBytes (shake256 (dom4 ++ rr ++ pk ++ m) 114) % l448
  rr ++ bytesNat 57 ((r + k * a) % l448)
/-- Verify: S·B = R + k·A, cofactor 4 cleared. -/
def edVerify (pk m sig : List Nat) : Bool :=
  match edDecode pk, edDecode (sig.take 57) with
  | some a, some r =>
    let s := ofNatBytes (sig.drop 57)
    let k := ofNatBytes (shake256 (dom4 ++ sig.take 57 ++ pk ++ m) 114) % l448
    s < l448 && edEncode (edMul (edMul edBase 448 s) 3 4) == edEncode (edMul (edAdd r (edMul a 448 k)) 3 4)
  | _, _ => false

end Sys2Proof.Machine
end

