-- ==== Sys2Proof/Machine/State.lean ====
section
/-! DEFINITION. The state of the machine: a context, the cores' caches, the clusters, the dies, the Daymark homes, the
device's registers, the fabric, Mooring and Silt. Plain data throughout. Tables indexed by a number are lists of pairs
that list only what differs from the entry's reset value. -/

namespace Sys2Proof.Machine

/-- A sparse table keyed by a number. -/
abbrev Table (α : Type) := List (Nat × α)

/-- A register that an interlocked word scoreboards (R94): physical numbers for v. -/
inductive Reg where
  | x (r : BitVec 5) | q (r : BitVec 3) | v (r : BitVec 6) | w (r : BitVec 4)
  deriving DecidableEq, Repr

/-- A latched matrix operand (R162): rows (A) or columns (B) of 64 bytes, masks, scales, format code (0 none, 1 i8,
2 d8, 3 bf, 4 f32, 5 any other, R177). `mask` is RMASK of A and CMASK of B. -/
structure Latch where
  data : Block := 0
  mask : BitVec 64 := 0
  kmask : BitVec 64 := 0
  scale : BitVec 512 := 0
  fmt : BitVec 4 := 0
  deriving DecidableEq, Repr

/-- An accumulator tile (R160): element (i, j) is bits [40(64i+j)+39 : 40(64i+j)]. -/
structure AccTile where
  data : BitVec 163840 := 0
  kind : AccKind := .none
  deriving DecidableEq, Repr

/-- A register write with its value: `v` writes the lanes of its mask; v and k numbers are physical. -/
inductive Write where
  | x (r : BitVec 5) (d : Dbl)
  | q (r : BitVec 3) (d : Bool)
  | b (r : BitVec 3) (d : BitVec 56)
  | v (r : BitVec 6) (lanes : BitVec 64) (d : VReg)
  | k (r : BitVec 4) (d : BitVec 64)
  | w (r : BitVec 4) (d : BitVec 512)
  | rot (vrot : BitVec 5) (krot : BitVec 3)
  | sr (n : Nat) (d : Dbl)
  | latchA (l : Latch)
  | mopx
  deriving DecidableEq, Repr

/-- An exposed result that has not landed (R37, R93): when it lands, and whether it takes the shared vector path of
R97. The list order is program order. -/
structure Pending where
  due : Nat
  shared : Bool
  write : Write
  deriving DecidableEq, Repr

/-- One access of a load or an atomic that has not been performed: lane, address, the leaf it was translated by, the
operand and expected value of an atomic, and whether a transaction for it is under way (R247, R250, R254 to R256). -/
structure Lane where
  i : Nat
  va : Dbl
  gpa : Nat
  leaf : Dbl
  operand : Dbl := 0
  expected : Dbl := 0
  sent : Bool := false
  deriving DecidableEq, Repr

/-- What the accesses of one load or atomic word have in common; `after` lists the accesses a release waits for, at core
scope when `coreOnly` (R276, R280); `fail` is the lowest failing lane so far (R252). -/
structure MemOp where
  size : Nat
  sext : Bool := false
  policy : Policy := .c
  amo : Option AtomicOp := none
  cas : Bool := false
  after : List Nat := []
  coreOnly : Bool := false
  fail : Option (Nat × FaultInfo) := none
  deriving DecidableEq, Repr

/-- What an interlocked operation in flight is waiting for. -/
inductive FlightKind where
  /-- Its value is bound; it completes at any time. -/
  | bound
  /-- A load or atomic with accesses still to perform. -/
  | mem (lanes : List Lane) (op : MemOp)
  /-- A `tokwait` listed at the home of its word (R319). -/
  | token (gpa : Nat) (va : Dbl)
  /-- A `bwait` on the barrier object at a cluster scratch offset (R264). -/
  | barrier (off : Nat) (phase : Bool)
  /-- A cross-device or lock-waiting `mcas` (R258, R380). -/
  | mcas (id : Nat)
  deriving DecidableEq, Repr

/-- An interlocked operation in flight (R94, R332): its destinations, its result once bound, the header of its
bundle. -/
structure Flight where
  id : Nat
  kind : FlightKind
  dests : List Reg
  result : List Write
  header : BitVec 56
  deriving DecidableEq, Repr

/-- A pass of the matrix engine that has not landed (R164, R165, R169). `shadow` is the A latch of an `mpass.ka` issued in
the shadow of an `mgath` (R172). -/
structure Pass where
  tile : BitVec 2
  op : CellOp
  fmt : BitVec 2
  step : Nat
  landsAt : Nat
  issuedAt : Nat
  cells : BitVec 163840
  kind : AccKind
  sat : Bool
  suspended : Bool
  landed : Bool
  shadow : Option Latch
  deriving DecidableEq, Repr

/-- An access that is not complete (R276): its fence sets R, W, T, D, F as bits 0 to 4, whether it is complete at
core scope, and, for an `spub`, the version it publishes. -/
structure OpenAccess where
  id : Nat
  sets : BitVec 5
  coreDone : Bool
  pub : Option (TileId × BitVec 32)
  deriving DecidableEq, Repr

/-- A failure that a later fence reports (R200, R375, R418, R457): the access that failed, and its fence sets. -/
structure Unreported where
  id : Nat
  sets : BitVec 5
  fault : FaultInfo
  deriving DecidableEq, Repr

/-- A control transfer that has not reached its target (R119, R131): bundles left before the target, and the header of
the transfer bundle unless the transfer was restored from a TXFER that a program wrote. -/
structure Xfer where
  target : BitVec 56
  left : Nat
  source : Option (BitVec 56)
  drain : Bool
  deriving DecidableEq, Repr

/-- The registers a trap writes (R331), and what TXFER has no field for: the transfer bundle and the DRAIN
bit of the transfer that it records. -/
structure TrapRegs where
  tcause : Dbl := 0
  tinfo0 : Dbl := 0
  tinfo1 : Dbl := 0
  tinfo2 : Dbl := 0
  tinfo3 : Dbl := 0
  tpc : Dbl := 0
  txfer : Dbl := 0
  xsrc : Option (BitVec 56) := none
  xdrain : Bool := false
  deriving DecidableEq, Repr

/-- Who the context works for (R128, R31): the task, its space and class, its resources. -/
structure Ident where
  taskid : BitVec 17 := 0
  coord : Dbl := 0
  space : BitVec 6 := 0
  klass : BitVec 2 := 0
  cotask : Bool := false
  nacc : Nat := 0
  mown : Bool := false
  scratchBase : Nat := 0
  scratchLen : Nat := 0
  deriving DecidableEq, Repr

/-- Idle, reserved for a dispatch, or occupied by a member (R35). -/
inductive Occupancy where
  | idle | reserved | occupied
  deriving DecidableEq, Repr

/-- An `snew` that waits before issue (R216): its tile, the version the home granted, and the slot once it is OPEN with
its contents. -/
structure Opening where
  tile : TileId
  copy : Bool
  granted : Option (BitVec 32)
  slot : Option Nat
  deriving DecidableEq, Repr

/-- A context's DBGCTL fields and standing requests (R343). -/
structure Debug where
  reason : BitVec 4 := 0
  halted : Bool := false
  trapHalt : Bool := false
  brkHalt : Bool := false
  haltReq : Bool := false
  step : Bool := false
  deriving DecidableEq, Repr

/-- The matrix status bits that are not part of a pass (R163), the time of the latest mgath (R168), and the slots
whose `mst` has not ended (R176). -/
structure MatStat where
  pdone : BitVec 16 := 0
  mopx : Bool := false
  sat : Bool := false
  mgathAt : Option Nat := none
  gatherWait : Option (Nat × Nat) := none
  storing : List Nat := []
  deriving DecidableEq, Repr

/-- What became of the latest word or bundle: performed, held before issue, parked, or a trap or halt taken at it; `late`
when words of a bundle wait for an acquire of its X word (R279). -/
inductive Verdict where
  | done | stall | park | trap | halt | ended | late
  deriving DecidableEq, Repr

/-- The bundle being issued (R72 to R78): header address and word, length in bytes, SCOPE, DRAIN, the slot of the word
being performed, the transfer it makes, whether the pc is already set (R134), what became of it, the page-table entries whose
A (and D) its translations set (R347), and the fence sets of the accesses it has opened (R275). The model's own latch. -/
structure Issue where
  pc : BitVec 56 := 0
  header : Word := 0
  len : Nat := 4
  scope : BitVec 2 := 0
  drain : Bool := false
  slot : Nat := 0
  transfer : Option (BitVec 56) := none
  resumed : Bool := false
  verdict : Verdict := .done
  marks : List (Nat × Bool) := []
  touched : BitVec 5 := 0
  deriving DecidableEq, Repr

/-- A fence, acquire or waiting point in force: later words of these sets stall while a listed access is open
(R133, R279). -/
structure Barrier where
  succ : BitVec 5
  waits : List Nat
  coreOnly : Bool
  deriving DecidableEq, Repr

/-- Words of a bundle that follow an acquire of its X word, held until the acquire completes (R279). -/
structure Late where
  issue : Issue
  waits : List Barrier
  words : List (Nat × Instr)
  deriving DecidableEq, Repr

/-- A context (R104 and the state each engine's chapter adds to it). -/
structure Context where
  occ : Occupancy := .idle
  id : Ident := ⟨0, 0, 0, 0, false, 0, false, 0, 0⟩
  x : Vector (BitVec 64) 32 := Vector.replicate 32 0
  q : BitVec 8 := 0
  b : Vector (BitVec 56) 8 := Vector.replicate 8 0
  vrot : BitVec 5 := 0
  krot : BitVec 3 := 0
  mode : Mode := .task
  v : Vector (BitVec 2048) 64 := Vector.replicate 64 0
  k : Vector (BitVec 64) 16 := Vector.replicate 16 0
  w : Vector (BitVec 512) 16 := Vector.replicate 16 0
  pc : BitVec 56 := 0
  xfer : Option Xfer := none
  btime : Nat := 0
  stoch : Dbl := 1
  trap : TrapRegs := ⟨0, 0, 0, 0, 0, 0, 0, none, false⟩
  sscratch : Vector (BitVec 64) 4 := Vector.replicate 4 0
  acc : Vector AccTile 4 := Vector.replicate 4 ⟨0, .none⟩
  latchA : Latch := ⟨0, 0, 0, 0, 0⟩
  latchB : Latch := ⟨0, 0, 0, 0, 0⟩
  mat : MatStat := ⟨0, false, false, none, none, []⟩
  passes : List Pass := []
  pending : List Pending := []
  flights : List Flight := []
  deferred : List (Reg × FaultInfo) := []
  unreported : List Unreported := []
  opens : List OpenAccess := []
  barriers : List Barrier := []
  nap : Nat := 0
  parked : Option TileReq := none
  parkedAs : Nat := 0
  push : Option (Nat × Bool) := none
  opening : Option Opening := none
  served : Option Nat := none
  handing : List Nat := []
  timedOut : Bool := false
  fault : Option FaultInfo := none
  ending : Bool := false
  entryTrap : Bool := false
  atVector : Bool := false
  draining : Bool := false
  waitSince : Option Nat := none
  waited : Nat := 0
  tstvs : List (BitVec 4 × Nat × Nat) := []
  dbg : Debug := ⟨0, false, false, false, false, false⟩
  late : Option Late := none
  deriving DecidableEq, Repr

/-- A tracked line's state in a core (R239). -/
inductive Mesi where
  | m | e | s | i
  deriving DecidableEq, Repr

/-- A line of a line cache (R237 to R241); `line` is its global physical address divided by 128. -/
structure Line where
  line : Nat
  tracked : Bool
  mesi : Mesi
  valid : BitVec 128
  dirty : BitVec 128
  data : BitVec 1024
  space : BitVec 6
  key : BitVec 8
  deriving DecidableEq, Repr

/-- A write waiting in a core's write queue (R276): the number of its access, which rises in its
context's program order, the bytes, the accesses a release waits for, and the lane of a vector store (R252). -/
structure QueuedWrite where
  id : Nat
  ctx : Nat
  va : Dbl
  gpa : Nat
  leaf : Dbl
  size : Nat
  value : Nat
  policy : Policy
  space : BitVec 6
  after : List Nat
  coreOnly : Bool
  header : BitVec 56
  lane : Nat
  deriving DecidableEq, Repr

/-- A cached translation (R349): virtual page base and size exponent, the leaf with A and D as the device set them. -/
structure TlbEntry where
  space : BitVec 6
  base : Nat
  size : Nat
  leaf : Dbl
  deriving DecidableEq, Repr

/-- A core's own state beside its contexts; `failedFills` lists lines of other devices whose fill failed, with the cause. Whether its
last selection was an override, and the context that an AGE_OVERRIDE has made primary in the next (R106). -/
structure Core where
  lines : List Line := []
  failedFills : List (Nat × BitVec 8) := []
  queue : List QueuedWrite := []
  tlb : List TlbEntry := []
  lastOverride : Bool := false
  override : Option Nat := none
  failed : Bool := false
  deriving DecidableEq, Repr

/-- A slot's state (R188). -/
inductive SlotState where
  | invalid | filling | clean | dirty | openV | writeback
  deriving DecidableEq, Repr

/-- A key slot's keys K1, K2 and KM (R382). -/
structure KeySlot where
  space : BitVec 6
  slot : BitVec 4
  k1 : BitVec 256
  k2 : BitVec 256
  km : BitVec 256
  deriving DecidableEq, Repr

/-- A Loam slot: its tag (R187), data and scale field, the users a FILLING slot serves (R192), and what its fill or
write-back has on other devices (R374): the lines read, the first line that failed, once a write-back has sent its merges the
number that have not ended, and the home it has told; `backoff` is the wait before the next retry at a full awaiting list
(R194), and `keys` are emptied key slots that its fill or write-back goes on with (R436). -/
structure LoamSlot where
  state : SlotState := .invalid
  tile : TileId := ⟨0, 0, 0⟩
  version : BitVec 32 := 0
  klass : BitVec 2 := 0
  pins : Nat := 0
  clock : BitVec 2 := 0
  hint : BitVec 2 := 0
  data : Block := 0
  scale : BitVec 128 := 0
  users : List TileReq := []
  wbCtx : Option (Nat × Nat × BitVec 56) := none
  lines : Table (BitVec 1024) := []
  lineFail : Option (Nat × BitVec 8) := none
  puts : Option Nat := none
  home : Option Nat := none
  backoff : Nat := 256
  desc : Option (BitVec 512) := none
  keys : List KeySlot := []
  deriving DecidableEq, Repr

/-- A waiting allocation (R204): `way` is the way whose victim's write-back or whose wake it waits for. -/
structure AllocWait where
  id : Nat
  slice : Nat
  set : Nat
  klass : BitVec 2
  req : TileReq
  since : Nat
  openV : Bool
  way : Option Nat
  deriving DecidableEq, Repr

/-- A task's state (R30). -/
inductive TaskState where
  | pending | ready | running | preempting | preempted | completed
  deriving DecidableEq, Repr

/-- An input of a task (R323): its tile, requirement, whether it is requested and resident, the version pinned, and its tensor
descriptor as Lantern read it (R27). -/
structure Input where
  tile : TileId
  want : Want
  requested : Bool
  resident : Bool
  version : BitVec 32
  slot : Nat
  desc : BitVec 512
  deriving DecidableEq, Repr

/-- A spin-table entry (R219): `slots` lists, for each spin in force, the slot that holds its pin; `held` counts the waiting
spins by reference that reserve the entry (R212). It is free while both are empty. -/
structure Spin where
  tile : TileId
  version : BitVec 32
  slots : List Nat
  held : Nat
  deriving DecidableEq, Repr

/-- A version that a pre-empted task's pins retain (R33), with TINFO0's code of how; whether it is held again, or no longer exists. -/
structure Retained where
  tile : TileId
  version : BitVec 32
  code : Nat
  member : Nat
  slot : Nat
  have_ : Bool
  lost : Bool
  deriving DecidableEq, Repr

/-- A pre-empted member's record (R339, R340): its index in the pool, the context it left, the request of a parked member (R341)
with the retained version of the tile that had served it (R328), and the member's context. What the record in memory has a
field for is read back from there; the rest (operations in flight, the pending transfer, passes) is kept here (log 11). -/
structure Saved where
  record : Nat
  left : Nat
  parked : Option (TileReq × Option Nat)
  cx : Context
  deriving DecidableEq, Repr

/-- A Lantern entry (R322). `claim` is a core with the accumulators and the matrix ownership that the running task has on it until
it completes or is pre-empted (R34, R161), or that are held for a class-0 task (R326), and `prey` lists the contexts whose
freeing is held for that task. -/
structure Entry where
  desc : BitVec 512
  addr : Dbl
  state : TaskState
  inputs : List Input := []
  spins : List Spin := []
  retained : List Retained := []
  members : List Nat := []
  saved : List Saved := []
  fault : Option FaultInfo := none
  graph : Option NodeRef := none
  scratchBase : Nat := 0
  readyAt : Nat := 0
  dispatchedAt : Nat := 0
  acceptedAt : Nat := 0
  aged : Bool := false
  started : Bool := false
  pinned : Bool := false
  hold : Bool := false
  prey : List Nat := []
  claim : Option (Nat × Nat × Bool) := none
  deriving DecidableEq, Repr

/-- A running copy (R261, R262): the accesses it follows, its window and barrier object as cluster offsets, the destination
units that have landed or are on their way to another device, the lines of other devices it has read, and the fault that it has
met, which stops it once the units on their way have landed (R266). -/
structure CopyJob where
  id : Nat
  ctx : Nat
  desc : BitVec 256
  space : BitVec 6
  base : Nat
  limit : Nat
  bar : Nat
  after : List Nat
  landed : List Nat
  sent : List Nat
  lines : Table (BitVec 1024)
  fault : Option (BitVec 8 × Dbl)
  deriving DecidableEq, Repr

/-- A walking itinerary (R205, R227). -/
structure Itinerary where
  id : Nat
  va : Dbl
  space : BitVec 6
  klass : BitVec 2
  deriving DecidableEq, Repr

/-- A waiter on a barrier object (R268). -/
structure BarWait where
  ctx : Nat
  flight : Nat
  off : Nat
  tabled : Bool
  interval : Nat
  deriving DecidableEq, Repr

/-- A way conversion in progress (R207): the context whose word waits, the new N, when pins stop being waited for. -/
structure WayConv where
  ctx : Nat
  n : Nat
  since : Nat
  failed : Bool
  deriving DecidableEq, Repr

/-- A cluster. `dispatched` is the cycle of its latest dispatch (R325), `barBefore` what the barrier objects changed in a cycle
held before it, by offset and cycle (R269). `convQueue` lists the contexts whose way words wait,
in arrival order (R228). Loam slots are keyed by 128 x slice + z; gated ways by 16 x slice + way. -/
structure Cluster where
  loam : Table LoamSlot := []
  hands : Table Nat := []
  allocs : List AllocWait := []
  converted : Nat := 0
  conv : Option WayConv := none
  convQueue : List Nat := []
  gated : List Nat := []
  waking : List Nat := []
  loampart : Dbl := 0x0000FFF0FFF0FFF0
  scratch : List Host.Cell := []
  waiters : List BarWait := []
  barBefore : List (Nat × Nat × BitVec 128) := []
  copies : List CopyJob := []
  itineraries : List Itinerary := []
  tlb : List TlbEntry := []
  entries : Table Entry := []
  savepool : Dbl := 0
  prectl : Dbl := 0
  usedRecords : List Nat := []
  spared : Bool := false
  dispatched : Option Nat := none
  deriving DecidableEq, Repr

/-- A node of a level that has received an arrival (R301, R304): arrivals so far, whether it became ready, finished, or
waits for one of the Beacon's live-node entries. `count` is how far its action has come: a WHILE's levels opened, 1 for a LAUNCH that
expands, and for a SIGNAL or a WAIT 1 done, 2 failed, 3 under way. `cond` is a condition word of another device, or the write of a
LAUNCH's counter there: asked for, and the value once it has come. `atEnd` marks an END that waits for its level. -/
structure LiveNode where
  addr : Dbl
  arrivals : Nat
  ready : Bool
  finished : Bool
  queued : Bool
  count : Nat
  cond : Option (Option Dbl)
  atEnd : Bool := false
  deriving DecidableEq, Repr

/-- The expansion of a LAUNCH (R306): its node, the space and class of its instance, and the next coordinate of its box. It goes on
when the node has finished. -/
structure Expansion where
  node : NodeRef
  space : BitVec 6
  klass : BitVec 2
  next : Nat
  deriving DecidableEq, Repr

/-- A level of an instance (R301): its number (unique in the instance), depth, opener and live nodes. -/
structure Level where
  num : Nat
  depth : Nat
  opener : Option NodeRef
  nodes : List LiveNode
  ending : Option Dbl
  deriving DecidableEq, Repr

/-- A graph instance (R301). -/
structure Instance where
  id : Nat
  space : BitVec 6
  klass : BitVec 2
  done : Dbl
  failed : Bool
  levels : List Level
  nextLevel : Nat
  deriving DecidableEq, Repr

/-- A watch on a completion counter (R306). -/
structure Watch where
  gpa : Nat
  space : BitVec 6
  key : BitVec 8
  expect : Dbl
  node : NodeRef
  deriving DecidableEq, Repr

/-- An event presented to a die's fault log in this cycle (R352, R353). -/
structure LogEvent where
  at_ : Nat
  kind : Nat
  index : Nat
  space : BitVec 6
  cause : BitVec 8
  d0 : Dbl
  d1 : Dbl
  count : BitVec 32
  deriving DecidableEq, Repr

/-- A die: Beacon (R301), fault log (R351) with the events that are not written yet (R353) and `logging` while an entry's bytes
are on their way to another device, power and thermal registers (R427). -/
structure Die where
  instances : List Instance := []
  watches : List Watch := []
  expansions : List Expansion := []
  events : List LogEvent := []
  logging : Bool := false
  flogBase : Dbl := 0
  flogCtl : Dbl := 0
  flogHead : BitVec 32 := 0
  flogTail : BitVec 32 := 0
  flogStat : Dbl := 0
  seq : Dbl := 0
  pwrlim : Dbl := 520
  pwravg : BitVec 16 := 0
  temp : BitVec 8 := 0
  throttled : Bool := false
  withheld : Bool := false
  deriving DecidableEq, Repr

/-- A tile's entry in the version directory (R191, R193): holders are clusters, oldest first. -/
structure VerEntry where
  p : BitVec 32 := 0
  m : BitVec 32 := 0
  openV : Option (BitVec 32 × Nat) := none
  owner : Option Nat := none
  holders : List Nat := []
  lostPeer : Bool := false
  deriving DecidableEq, Repr

/-- State of a page grant (R377). -/
inductive GrantState where
  | none | shared | exclusive
  deriving DecidableEq, Repr

/-- A page-grant entry (R377): the request being served, the acknowledgements it awaits, and the requests that wait. For a
page of another device it is the grant this device holds. -/
structure Grant where
  state : GrantState
  holders : List (BitVec 8)
  bcast : Bool
  pendingReq : Option Flit
  awaiting : List (BitVec 8)
  waiting : List Flit
  deriving DecidableEq, Repr

/-- A token waiter (R319): a context's flight, a WAIT node, or a peer's transaction. -/
inductive TokenUser where
  | ctx (c flight : Nat)
  | node (b : NodeRef)
  | peer (f : Flit)
  deriving DecidableEq, Repr

/-- A waiting take: its word and page, who waits, and whether it is on the home's list. -/
structure TokenWait where
  id : Nat
  gpa : Nat
  space : BitVec 6
  key : BitVec 8
  tracked : Bool
  user : TokenUser
  listed : Bool
  deriving DecidableEq, Repr

/-- An entry of an `mcas` (R257): virtual and physical address, size in bytes, expected and new value, its
page's key and whether it is tracked. -/
structure McasEntry where
  va : Dbl
  gpa : Nat
  size : Nat
  expected : Dbl
  new : Dbl
  key : BitVec 8
  tracked : Bool
  deriving DecidableEq, Repr

/-- A coordinated `mcas` (R258, R380): what its homes answered, in entry order. -/
structure McasOp where
  id : Nat
  ctx : Nat
  flight : Nat
  space : BitVec 6
  entries : List McasEntry
  header : BitVec 56
  locked : List Nat
  mismatch : Dbl
  failure : Option (Nat × FaultInfo)
  decided : Option Bool
  lost : Bool
  waiting : List Nat
  started : Nat
  deriving DecidableEq, Repr

/-- A line lock: the line, and the `mcas` that holds it, a local id or a peer's device and tag (R258, R380). -/
structure Lock where
  line : Nat
  space : BitVec 6
  peer : Option (BitVec 8 × BitVec 12)
  op : Nat
  news : List (Nat × Nat × Dbl)
  homes : List (BitVec 8)
  deriving DecidableEq, Repr

/-- A channel's counters (R353, R420, R422); `rows` lists the row of each corrected error with its cycle. -/
structure ChanCount where
  corrected : BitVec 32 := 0
  uncorrected : BitVec 32 := 0
  aliasCount : BitVec 32 := 0
  scrubbed : Nat := 0
  rows : List (Nat × Nat) := []
  repaired : List Nat := []
  deriving DecidableEq, Repr

/-- A tile write-back of another device that this home is taking (R358): the parts that have come, or 16 while the writer merges
its lines itself. -/
structure TileIn where
  src : BitVec 8
  tile : TileId
  version : BitVec 32
  got : Nat
  data : Block
  deriving DecidableEq, Repr

/-- The homes' directories. Lines are keyed by address / 128, pages by address / 65,536. `held` are peers' accesses that wait
for a lock or a revoke; `decisions` are the `mcas` decisions received, by coordinator and operation (R381). -/
structure Homes where
  lineDir : Table (List Nat) := []
  versions : List (TileId × VerEntry) := []
  awaiting : List (Nat × TileReq) := []
  grants : Table Grant := []
  locks : List Lock := []
  mcas : List McasOp := []
  tokens : List TokenWait := []
  counts : Table ChanCount := []
  poison : List Nat := []
  tags : Table (BitVec 64) := []
  held : List Flit := []
  decisions : List (BitVec 8 × Nat × Bool) := []
  incoming : List TileIn := []
  deriving DecidableEq, Repr

/-- A Silt region's descriptor and managers (R413 to R415): free runs as (first sector, class) by pool, the blocks it
stores. -/
structure Silt where
  desc : BitVec 512 := 0
  freeP : List (Nat × Nat) := []
  freeO : List (Nat × Nat) := []
  blocks : Table Block := []
  lowLogged : Bool := false
  deriving DecidableEq, Repr

/-- A host command queue's registers (R310 to R312); `entry` while a command is in progress. -/
structure CmdQueue where
  qbase : Dbl := 0
  qctl : Dbl := 0
  qhead : BitVec 32 := 0
  qtail : BitVec 32 := 0
  waiting : Bool := false
  rejects : BitVec 16 := 0
  entry : Bool := false
  deriving DecidableEq, Repr

/-- The device control block (R425). -/
structure DevRegs where
  devid : BitVec 8 := 0
  sptbase : Dbl := 0
  spSpace : BitVec 6 := 0
  spRefused : Bool := false
  spBusy : Bool := false
  presence : BitVec 256 := 0
  hilmap : BitVec 28 := 0x1111111
  hilmapLive : BitVec 28 := 0x1111111
  fabEn : Bool := false
  lvEn : Bool := false
  cxlwin : Vector (BitVec 64) 4 := Vector.replicate 4 0
  nsBase : Dbl := 0
  nsCycle : Dbl := 0
  released : List (BitVec 6) := []
  deriving DecidableEq, Repr

/-- The security block (R430), the nonce of the report under way, and the device's reset count, which picks the ephemeral key. -/
structure Security where
  nonce : BitVec 512 := 0
  latched : BitVec 512 := 0
  busy : Bool := false
  complete : Bool := false
  report : BitVec 4048 := 0
  keyblob : Dbl := 0
  keystat : BitVec 3 := 0
  keys : List KeySlot := []
  resets : Nat := 0
  measurements : BitVec 2048 := 0
  secVersion : BitVec 32 := 0
  deriving DecidableEq, Repr

/-- The service block (R431); `action` is the action under way, 0 for none. -/
structure Service where
  fwstat : BitVec 8 := 0
  fwdetail : BitVec 16 := 0
  diefence : BitVec 4 := 0
  lasers : BitVec 4 := 0xF
  epoch : BitVec 32 := 0
  svcstat : BitVec 16 := 0
  action : Nat := 0
  staging : List Host.Cell := []
  deriving DecidableEq, Repr

/-- A packet in the port (R396). `owner` is the pushing task, by its Lantern entry and when that was accepted: none for a push in
supervisor mode, whose offsets are the cluster's. -/
structure GuestPacket where
  bits : BitVec 512 := 0
  owner : Option (Nat × Nat) := none
  deriving DecidableEq, Repr

/-- A packet that the guest has ended, on its way through the steps of R399: what it reports, whether that is logged, and the step: 0
before the record, 1 with the record on its way to another device, 2 at the credit. -/
structure GuestEnd where
  id : Nat
  queue : BitVec 3
  packet : GuestPacket
  status : BitVec 8
  result : Dbl
  logIt : Bool
  stage : Nat := 0
  deriving DecidableEq, Repr

/-- A Mooring queue (R395): the packets queued and those that the guest holds; HEAD and TAIL count packets. -/
structure GuestQueue where
  ctl : Dbl := 0
  packets : Table GuestPacket := []
  held : Table GuestPacket := []
  head : BitVec 32 := 0
  tail : BitVec 32 := 0
  deriving DecidableEq, Repr

/-- A pre-emption of a space's guest work (R401). -/
structure GuestPre where
  space : BitVec 6
  at_ : Nat
  stopped : Bool
  saved : Bool
  base : Dbl
  len : BitVec 32
  deriving DecidableEq, Repr

/-- The Mooring port (R393 to R402). -/
structure Mooring where
  queues : Table GuestQueue := []
  fenced : Bool := false
  saveBase : Dbl := 0
  saveLen : BitVec 32 := 0
  pre : List GuestPre := []
  statSpace : BitVec 6 := 0
  statStopped : Bool := false
  statSaved : Bool := false
  statLate : Bool := false
  tlb : List TlbEntry := []
  ends : List GuestEnd := []
  modules : BitVec 8 := 0xFF
  deriving DecidableEq, Repr

/-- A λ-channel of one dimension (R364): the slot it belongs to (15 for the free pool), the slot it serves now, the
lease that holds it, its link state, whether it is its slot's floor, and when it last sent (R385). `buffer` is the replay buffer:
the latest transactions it has sent, each with the replays of its flits (R359). -/
structure Channel where
  home : Nat
  serves : Nat
  lease : Nat
  retrains : Nat
  training : Bool
  spared : Bool
  floor : Bool
  lastSent : Nat
  buffer : List (Flit × Nat)
  deriving DecidableEq, Repr

/-- A lease's state (R369), in the order of the lease word's STATE codes (R368). -/
inductive LeaseState where
  | free | queued | negotiate | tuning | active | notice | ending | ended | refused
  deriving DecidableEq, Repr

/-- A lease-table entry (R367 to R371): when it was queued, became ACTIVE, and the rank of its grant; `doomed` when it is
released before its grant is complete; the channels it holds. -/
structure Lease where
  id : Nat
  space : BitVec 6
  klass : BitVec 2
  dest : BitVec 8
  want : Nat
  term : Nat
  state : LeaseState
  reason : BitVec 4
  since : Nat
  activeAt : Nat
  granted : Nat
  doomed : Bool
  channels : List Nat
  deriving DecidableEq, Repr

/-- What a transaction's completion serves. `rmw` is a partial write of an encrypted line: the locked line comes back, is
merged and goes out whole (R384), for the use it names. -/
inductive TxnUse where
  | lane (c flight i : Nat)
  | store (c access : Nat) (va : Dbl) (header : BitVec 56)
  | flagged (c access : Nat) (va : Dbl) (header : BitVec 56) (flag : Option Flit)
  | lineFill (core line : Nat) (space : BitVec 6) (key : BitVec 8) (tracked : Bool)
  | merge (core : Nat) (space : BitVec 6) (line : Nat)
  | tileLine (cl slot line : Nat)
  | tilePut (cl slot : Nat) (va : Dbl)
  | tilePart (r : TileReq) (v : BitVec 32) (part : Nat)
  | cond (b : NodeRef)
  | counter (b : NodeRef)
  | graphDone (die inst : Nat) (space : BitVec 6)
  | logged (die : Nat)
  | engine (line : Nat) (space : BitVec 6) (key : BitVec 8)
  | handed (access core : Nat) (space : BitVec 6) (line : Nat)
  | rmw (space : BitVec 6) (key : BitVec 8) (line : Nat) (mask : BitVec 128) (data : BitVec 1024) (then_ : TxnUse)
  | mlock (op idx : Nat)
  | mcommit (op idx : Nat)
  | mquery (line : Nat)
  | grant (page core line : Nat)
  | tile (r : TileReq)
  | tileWrite (cl slot : Nat)
  | copyRead (cl id line : Nat) (va : Dbl)
  | copyWrite (cl id unit n : Nat) (va : Dbl)
  | publish (t : TileId) (v : BitVec 32)
  | token (c flight : Nat)
  | node (b : NodeRef)
  | count (cl : Nat) (space : BitVec 6) (va : Dbl) (taskid : BitVec 17) (graph : Option NodeRef)
  | packet (queue : BitVec 3) (space : BitVec 6) (id : Nat) (va : Dbl)
  | plain
  deriving DecidableEq, Repr

/-- A transaction that awaits its completion (R360); `tracked` is the T value of a line-cache merge (R348). -/
structure Txn where
  id : Nat
  flit : Flit
  use_ : TxnUse
  firstSend : Nat
  lastSend : Nat
  sends : Nat
  tracked : Option Bool
  keys : List KeySlot := []
  deriving DecidableEq, Repr

/-- Per source: next SEQ expected, early arrivals, the duplicate window by TAG: the cycle of each entry, the transaction without its
data, and its completion (R361, R362).
Per destination: next SEQ and TAG, the tags too recent to reuse, with their last send, and those whose completion has not
arrived (R360). -/
structure Peer where
  expectSeq : BitVec 12 := 0
  early : List Flit := []
  window : Table (Nat × Flit × Flit) := []
  sendSeq : BitVec 12 := 0
  tagNext : BitVec 12 := 0
  tagUsed : List (Nat × Nat) := []
  tagLost : List Nat := []
  replay : BitVec 32 := 0
  retrain : BitVec 32 := 0
  sparedC : BitVec 32 := 0
  resend : BitVec 32 := 0
  duplicate : BitVec 32 := 0
  tagfail : BitVec 32 := 0
  silence : BitVec 32 := 0
  fenced : Bool := false
  lastFlit : Nat := 0
  deadEpoch : Option (BitVec 32) := none
  deriving DecidableEq, Repr

/-- The first link of a flit's route: the next device, and the dimension and channel the flit leaves by (R356, R357). -/
structure Hop where
  next : BitVec 8
  dim : Bool
  ch : Nat
  deriving DecidableEq, Repr

/-- A line of another device that an engine has read for an action of its own (R347, R374): the plaintext or the cause, the cycle
in which it came, and whether the action under way has used it. -/
structure AwayLine where
  line : Nat
  space : BitVec 6
  key : BitVec 8
  fail : BitVec 8
  data : BitVec 1024
  since : Nat
  used : Bool
  deriving DecidableEq, Repr

/-- What an engine's access waits for before the action that needs it is taken (R258, R347, R374, R378): the grants of a page,
the lock of a line, a line of another device. -/
inductive HomeWait where
  | grant (page : Nat) (write : Bool) (space : BitVec 6)
  | lock (line : Nat)
  | away (line : Nat) (space : BitVec 6) (key : BitVec 8)
  deriving DecidableEq, Repr

/-- Fresnel (R355 to R392). `row` and `col` are the transmit channels of the two dimensions, `rowRx` and `colRx` the receive
channels (R364). `hops` is the link of each flit of `outbox`, `link` the peer by whose link the latest flit has come, `away` what
engines have read of other devices. -/
structure Fabric where
  row : Table Channel := []
  col : Table Channel := []
  rowRx : Table Channel := []
  colRx : Table Channel := []
  leases : List Lease := []
  grants : Nat := 0
  txns : List Txn := []
  nextTxn : Nat := 1
  outbox : List Flit := []
  hops : List Hop := []
  link : BitVec 8 := 0
  away : List AwayLine := []
  notices : List (BitVec 8 × BitVec 8 × BitVec 32) := []
  joins : List (BitVec 8 × BitVec 32) := []
  peers : Table Peer := []
  fencedSelf : Bool := false
  deriving DecidableEq, Repr

/-- Why the machine stops with a fault. No rule of the spec stops the device; the one fault guards the model's own
data. -/
inductive Fault where
  /-- Raised by `step` when its turn list names a context number that no core has: no run from reset meets it (safe). -/
  | noContext
  deriving DecidableEq, Repr

/-- Why an instruction has no meaning. -/
inductive Refusal where
  /-- Raised by an arm of `exec` for an instruction that is not modelled (safe). -/
  | notModelled (mnemonic : String)
  deriving DecidableEq, Repr

/-- The memory of a pooled port by device physical address (R409), with the poison and the tags of its lines: what lies under an enabled
window is in the machine's memory meanwhile. -/
structure PortMem where
  cells : List Host.Cell := []
  poison : List Nat := []
  tags : Table (BitVec 64) := []
  deriving DecidableEq, Repr

/-- The machine. `here` names the context held in `cx` (64 x cluster + 4 x core + context); every other occupied
context is in `others`. `ports` holds the memory of the pooled ports that no window shows, by port (R409). `inputs`,
`agenda`, `turn`, `tick` and `waits` are the model's own: events from outside, engine actions with the cycle from which they
may happen, the contexts chosen for this cycle, the free-value counter, and what the action under way waits for. -/
structure State where
  here : Nat := 0
  cx : Context := {}
  issue : Issue := {}
  others : Table Context := []
  cores : Table Core := []
  clusters : Table Cluster := []
  dies : Table Die := []
  homes : Homes := {}
  mem : List Host.Cell := []
  silt : Table Silt := []
  ports : Table PortMem := []
  dev : DevRegs := {}
  queues : Table CmdQueue := []
  sec : Security := {}
  svc : Service := {}
  moor : Mooring := {}
  fab : Fabric := {}
  cycle : Nat := 0
  booted : Bool := false
  inputs : List Instr := []
  agenda : List (Nat × Instr) := []
  turn : List Nat := []
  tick : Nat := 0
  waits : List HomeWait := []
  deriving DecidableEq, Repr

/-- Four channels for each of the fifteen slots of a dimension, the first its floor, channels 60 to 63 free (R364). -/
def resetChannels : Nat → Table Channel
  | 0 => []
  | n + 1 => resetChannels n ++ [(n, ⟨n / 4, n / 4, 0, 0, false, false, n % 4 == 0 && n < 60, 0, []⟩)]

/-- The machine right after reset: in recovery at step 1 of R433, nothing listed, no task. Values the spec does not
give are those of log 1. -/
def State.reset : State :=
  { fab := { row := resetChannels 64, col := resetChannels 64, rowRx := resetChannels 64, colRx := resetChannels 64 } }

end Sys2Proof.Machine
end

