-- ==== Sys2Proof/Machine/Mem.lean ====
section
/-! DEFINITION. Tables, the parts of the machine, memory bytes and lines at their homes, home channels, the space
table, key slots and the fault log: the operations every engine shares (R3, R351 to R354, R382 to R384, R404 to R410). -/

namespace Sys2Proof.Machine

/-! Sparse tables: ascending keys. -/

def tget {α : Type} (d : α) : Table α → Nat → α
  | [], _ => d
  | (k, v) :: r, n => if k == n then v else tget d r n
def tset {α : Type} : Table α → Nat → α → Table α
  | [], n, v => [(n, v)]
  | (k, u) :: r, n, v =>
    if n < k then (n, v) :: (k, u) :: r else if n == k then (n, v) :: r else (k, u) :: tset r n v
def tdel {α : Type} (t : Table α) (n : Nat) : Table α := t.filter (·.1 != n)

/-! Memory bytes (R3, R404): ascending addresses, no listed byte equal to what an unlisted address reads as. -/

/-- What an address nothing has written reads as (DESIGN CHOICE, log 2). -/
def blankByte : BitVec 8 := 0
/-- The byte at an address. -/
def cellRead : List Host.Cell → Nat → BitVec 8
  | [], _ => blankByte
  | (k, b) :: r, a => if k == a then b else cellRead r a
/-- Write one byte, keeping the canonical form. -/
def cellWrite : List Host.Cell → Nat → BitVec 8 → List Host.Cell
  | [], a, b => if b == blankByte then [] else [(a, b)]
  | (k, c) :: r, a, b =>
    if a < k then (if b == blankByte then (k, c) :: r else (a, b) :: (k, c) :: r)
    else if a == k then (if b == blankByte then r else (a, b) :: r)
    else (k, c) :: cellWrite r a b
/-- The little-endian value of n bytes from an address. -/
def cellsRead (m : List Host.Cell) (a : Nat) : Nat → Nat
  | 0 => 0
  | n + 1 => (cellRead m a).toNat + 256 * cellsRead m (a + 1) n
/-- Write the n low bytes of a value from an address upward. -/
def cellsWrite (m : List Host.Cell) (a : Nat) : Nat → Nat → List Host.Cell
  | 0, _ => m
  | n + 1, v => cellsWrite (cellWrite m a (BitVec.ofNat 8 v)) (a + 1) n (v / 256)
/-- Write the bytes of a value whose mask bit is set. -/
def cellsMask (m : List Host.Cell) (a : Nat) : Nat → Nat → Nat → List Host.Cell
  | 0, _, _ => m
  | n + 1, mask, v =>
    cellsMask (if mask % 2 == 1 then cellWrite m a (BitVec.ofNat 8 v) else m) (a + 1) n (mask / 2) (v / 256)
/-- The canonical form: addresses strictly rising, no byte equal to the blank byte. -/
def Memory.wf : List Host.Cell → Bool
  | [] => true
  | [(_, b)] => b != blankByte
  | (k, b) :: (j, c) :: r => k < j && b != blankByte && Memory.wf ((j, c) :: r)

namespace State

/-! The parts of the machine. Context c is 64 x cluster + 4 x core + context. -/

def core (s : State) (n : Nat) : Core := tget {} s.cores n
def setCore (s : State) (n : Nat) (c : Core) : State := { s with cores := tset s.cores n c }
def cluster (s : State) (n : Nat) : Cluster := tget {} s.clusters n
def setCluster (s : State) (n : Nat) (c : Cluster) : State := { s with clusters := tset s.clusters n c }
def die (s : State) (n : Nat) : Die := tget {} s.dies n
def setDie (s : State) (n : Nat) (d : Die) : State := { s with dies := tset s.dies n d }
def queue (s : State) (n : Nat) : CmdQueue := tget {} s.queues n
def setQueue (s : State) (n : Nat) (q : CmdQueue) : State := { s with queues := tset s.queues n q }
def gqueue (s : State) (n : Nat) : GuestQueue := tget {} s.moor.queues n
def setGqueue (s : State) (n : Nat) (q : GuestQueue) : State :=
  { s with moor := { s.moor with queues := tset s.moor.queues n q } }
def peer (s : State) (n : Nat) : Peer := tget {} s.fab.peers n
def setPeer (s : State) (n : Nat) (p : Peer) : State := { s with fab := { s.fab with peers := tset s.fab.peers n p } }
def chan (s : State) (n : Nat) : ChanCount := tget {} s.homes.counts n
def setChan (s : State) (n : Nat) (c : ChanCount) : State :=
  { s with homes := { s.homes with counts := tset s.homes.counts n c } }
/-- The state of a context, wherever it is held. -/
def ctx (s : State) (c : Nat) : Context := if c == s.here then s.cx else tget {} s.others c
def setCtx (s : State) (c : Nat) (x : Context) : State :=
  if c == s.here then { s with cx := x } else { s with others := tset s.others c x }
/-- Make context c the one held in `cx`. -/
def switch (s : State) (c : Nat) : State :=
  if c == s.here then s
  else { s with here := c, cx := tget {} s.others c, others := tset (tdel s.others c) s.here s.cx }
/-- The core, cluster and die of the context held in `cx`. -/
def hereCore (s : State) : Nat := s.here / 4
def hereCluster (s : State) : Nat := s.here / 64
def hereDie (s : State) : Nat := s.here / 1024
/-- Put an engine action on the agenda, not before `delay` cycles from now (log 3). -/
def later (s : State) (delay : Nat) (i : Instr) : State := { s with agenda := s.agenda ++ [(s.cycle + delay, i)] }
def dropAgenda (s : State) (i : Instr) : State := { s with agenda := s.agenda.filter (·.2 != i) }
/-- The accesses that wait at this device for a lock or a revoke are looked at again by TRANSACTION_RESEND with number 0, which
no transaction has. -/
def wakeAfter (s : State) (delay : Nat) : State :=
  if s.homes.held.isEmpty || s.agenda.any (fun (_, i) => i == .transactionResend 0) then s else s.later delay (.transactionResend 0)
def wakeHeld (s : State) : State := s.wakeAfter 0
/-- Take the next free value (log 4). -/
def free (s : State) : BitVec 64 × State := (Config.freeValue s.tick, { s with tick := s.tick + 1 })
/-- The number of a new operation: unique, and rising in each context's program order. -/
def newId (s : State) : Nat × State := (s.tick, { s with tick := s.tick + 1 })
/-- Change every context, wherever its state is held: running ones and those in save records. -/
def mapContexts (s : State) (f : Context → Context) : State :=
  let sv (y : Saved) : Saved := { y with cx := f y.cx }
  let en (e : Entry) : Entry := { e with saved := e.saved.map sv }
  { s with
    cx := f s.cx,
    others := s.others.map fun (c, x) => (c, f x),
    clusters := s.clusters.map fun (n, c) => (n, { c with entries := c.entries.map fun (k, e) => (k, en e) }) }

/-! Raw bytes at the homes. -/

def byte (s : State) (a : Nat) : BitVec 8 := cellRead s.mem a
def bytes (s : State) (a n : Nat) : Nat := cellsRead s.mem a n
def lineRaw (s : State) (l : Nat) : BitVec 1024 := BitVec.ofNat 1024 (s.bytes (128 * l) 128)

end State

/-! The local address map (R404 to R410). -/

/-- The windows of the local address map (R404). -/
inductive Window where
  | hbm | pooled | silt | control | host | hole
  deriving DecidableEq, Repr

def devOf (gpa : Nat) : BitVec 8 := BitVec.ofNat 8 (gpa / 2 ^ 52)
def localOf (gpa : Nat) : Nat := gpa % 2 ^ 52
/-- The window of a local address (R404). Region 7 of HBM belongs to the Daymarks: an access finds it unbacked at its home. -/
def windowOf (a : Nat) : Window :=
  if a < 0x8000000000 then .hbm
  else if a < 0x1000000000000 then .hole
  else if a < 0x2000000000000 then .pooled
  else if a < 0x3000000000000 then .silt
  else if a < 0x3000100000000 then .control
  else if a < 0x8000000000000 then .hole
  else .host
/-- fold8: the exclusive OR of the bytes of g (R406). -/
def fold8 : Nat → Nat → Nat
  | 0, _ => 0
  | n + 1, g => (g % 256).xor (fold8 n (g / 256))
/-- The granule exponent of a region's mode; codes other than 1 to 3 are read as 1 (R406, R407). -/
def granuleBits (hilmap : BitVec 28) (r : Nat) : Nat :=
  match (hilmap.toNat / 16 ^ r) % 16 with
  | 2 => 12 | 3 => 16 | _ => 7
/-- `hbm_home` with a granule: the channel and the offset in it (R406). -/
def hbmHome (k a : Nat) : Nat × Nat :=
  let r := a / 2 ^ 36 % 8
  let u := a % 2 ^ 36
  let g := u / 2 ^ k
  (fold8 8 g, r * 2 ^ 28 + g / 256 * 2 ^ k + u % 2 ^ k)

namespace State

/-- The pooled window offset is served by an enabled port (R409). -/
def pooledBacked (s : State) (off : Nat) : Bool :=
  s.dev.cxlwin.toList.any fun w =>
    let size := (w.toNat / 2 ^ 32) % 2 ^ 15
    let base := w.toNat % 2 ^ 14
    w.getLsbD 63 && 1 ≤ size && size ≤ 16384 && base * 2 ^ 30 ≤ off && off < (base + size) * 2 ^ 30
/-- The enabled Silt region of a window offset, with the block number in it (R412, R413). -/
def siltRegion (s : State) (off : Nat) : Option (Nat × Nat) :=
  (List.range 4).findSome? fun n =>
    let d := (tget {} s.silt n).desc
    let lbase := (d.extractLsb' 0 18).toNat * 2 ^ 30
    let lsize := (d.extractLsb' 64 44).toNat
    if d.getLsbD 63 && lbase ≤ off && (off - lbase) / 4096 < lsize then some (n, (off - lbase) / 4096) else none
/-- A local address is backed (R404, R409, R412); the control window and Silt are decided by their own rules. -/
def backed (s : State) (a : Nat) : Bool :=
  match windowOf a with
  | .hbm => a < 0x7000000000
  | .host => true
  | .pooled => s.pooledBacked (a - 0x1000000000000)
  | .silt => (s.siltRegion (a - 0x2000000000000)).isSome
  | .control => true
  | .hole => false
/-- The home channel of a local address (R406, R410, R412). -/
def channelOf (s : State) (a : Nat) : Nat :=
  match windowOf a with
  | .hbm => (hbmHome (granuleBits s.dev.hilmapLive (a / 2 ^ 36 % 8)) a).1
  | .silt => fold8 8 ((a - 0x2000000000000) / 4096)
  | _ => (hbmHome 7 a).1
def ownDevice (s : State) (gpa : Nat) : Bool := devOf gpa == s.dev.devid
/-- The writes of the other contexts of a context's core that are complete at core scope only: they are still in the core's
write queue (R276). The context may have acquired them, so what it releases at a wider scope follows them (R282). -/
def coreQueued (s : State) (c : Nat) : List Nat :=
  ((s.core (c / 4)).queue.filter fun (q : QueuedWrite) => q.ctx != c && s.ownDevice q.gpa && q.leaf.getLsbD 4 && q.policy != .b
    && windowOf (localOf q.gpa) != .silt).map QueuedWrite.id
/-- The accesses that a release of the context in `cx` follows: its own that are not complete and, beyond core scope, those of
`coreQueued`. -/
def earlier (s : State) (coreOnly : Bool) : List Nat :=
  s.cx.opens.map OpenAccess.id ++ (if coreOnly then [] else s.coreQueued s.here)
/-- The device is absent from the presence map, or its links are fenced: it has been declared dead or removed (R374, R432). -/
def deviceLost (s : State) (d : BitVec 8) : Bool :=
  !s.dev.presence.getLsbD d.toNat || (s.peer d.toNat).fenced || s.fab.fencedSelf

/-! The fault log (R351 to R354). -/

/-- Present an event to a die's fault log. Its counter has been incremented; the events of a cycle take their SEQs and their
places when the cycle ends (R352, R353). -/
def log (s : State) (die kind index : Nat) (space : BitVec 6) (cause : BitVec 8) (d0 d1 : Dbl) (count : BitVec 32) : State :=
  let d := s.die die
  s.setDie die { d with events := d.events ++ [⟨s.cycle, kind, index, space, cause, d0, d1, count⟩] }
/-- The KIND 0 index of a context (R453). -/
def ctxIndex (c : Nat) : Nat := c % 1024
/-- Log an event of a context on its die (R453). -/
def logCtx (s : State) (c : Nat) (cause : BitVec 8) (d0 d1 : Dbl) : State :=
  s.log (c / 1024) 0 (ctxIndex c) (s.ctx c).id.space cause d0 d1 0
/-- Log a fabric event on die C0 (R458). -/
def logFab (s : State) (dev : BitVec 8) (space : BitVec 6) (cause : BitVec 8) (d0 d1 : Dbl) (count : BitVec 32) : State :=
  s.log 0 2 dev.toNat space cause d0 d1 count

/-! What a read at home gives of a line that a core may hold in M (R239, R243). -/

def lineOf (s : State) (core l : Nat) : Option Line := (s.core core).lines.find? (·.line == l)
def dirCores (s : State) (l : Nat) : List Nat := tget [] s.homes.lineDir l
/-- n bytes within a line, as a `.b` read by an engine finds them: those of the listed copy in M, or of memory. -/
def peek (s : State) (a n : Nat) : Nat :=
  let l := a / 128
  let held := (s.dirCores l).findSome? fun c => match s.lineOf c l with
    | some ln => if ln.tracked && ln.mesi == .m && ln.key == 0 then some ln.data else none
    | none => none
  match held with
  | some d => d.toNat / 2 ^ (8 * (a % 128)) % 2 ^ (8 * n)
  | none => s.bytes a n

/-! The space table (R24). -/

/-- Where a space's entry stands (R24). -/
def entryAt (s : State) (sp : BitVec 6) : Nat := s.dev.sptbase.toNat % 2 ^ 60 + 64 * sp.toNat
/-- The 64-byte entry of a space, read at its home; a released space reads VALID = 0 (R24, R426), and so does an entry in a poisoned
line, which is no data (R421; DESIGN CHOICE, log 41). -/
def spaceEntry (s : State) (sp : BitVec 6) : BitVec 512 :=
  if s.homes.poison.contains (s.entryAt sp / 128) then 0
  else
    let e := BitVec.ofNat 512 (s.peek (s.entryAt sp) 64)
    if s.dev.released.contains sp then e &&& ~~~(1#512 <<< 63) else e
/-- PTROOT's top table: a physical address of 52 bits on this device, which the field's 56 bits can name (DEDUCED, log 13). -/
def ptRoot (s : State) (ent : BitVec 512) : Nat := s.dev.devid.toNat * 2 ^ 52 + (ent.extractLsb' 0 52).toNat
def spaceValid (s : State) (sp : BitVec 6) : Bool := (s.spaceEntry sp).getLsbD 63
def trapVec (s : State) (sp : BitVec 6) : BitVec 56 := (s.spaceEntry sp).extractLsb' 192 56
/-- The version-wait limit in cycles; 0 µs is read as 1,000,000 µs (R24, R6). -/
def vwaitCycles (s : State) (sp : BitVec 6) : Nat :=
  let v := ((s.spaceEntry sp).extractLsb' 160 32).toNat
  (if v == 0 then 1000000 else v) * 1400
def sclass (s : State) (sp : BitVec 6) : BitVec 2 := (s.spaceEntry sp).extractLsb' 148 2
def tcount (s : State) (sp : BitVec 6) : Nat := ((s.spaceEntry sp).extractLsb' 128 20).toNat
def ttroot (s : State) (sp : BitVec 6) : Nat := ((s.spaceEntry sp).extractLsb' 64 56).toNat

/-! Key slots and encrypted lines (R382 to R384). -/

def keySlot (s : State) (sp : BitVec 6) (k : BitVec 8) : Option KeySlot :=
  s.sec.keys.find? fun e => e.space == sp && e.slot.toNat == k.toNat
/-- What was in flight when a key slot was emptied goes on with the keys it has kept (R436). -/
def underKeys (s : State) (ks : List KeySlot) (f : State → State) : State :=
  if ks.isEmpty then f s
  else
    let t := f { s with sec := { s.sec with keys := ks ++ s.sec.keys } }
    { t with sec := { t.sec with keys := s.sec.keys } }
/-- Empty key slots: fills and write-backs in flight keep the keys (R436). -/
def dropKeys (s : State) (p : KeySlot → Bool) : State :=
  let dead := s.sec.keys.filter p
  let of_ := fun (sp : BitVec 6) => dead.filter fun k => k.space == sp
  let slot := fun (x : LoamSlot) =>
    if x.state == .filling || x.state == .writeback then ({ x with keys := x.keys ++ of_ x.tile.space } : LoamSlot) else x
  { s with
    sec := { s.sec with keys := s.sec.keys.filter fun k => !p k },
    clusters := s.clusters.map fun (n, c) => (n, { c with loam := c.loam.map fun (k, x) => (k, slot x) }),
    fab := { s.fab with txns := s.fab.txns.map fun (x : Txn) => { x with keys := x.keys ++ of_ x.flit.space } } }
/-- The line's plaintext as its home holds it: checked and decrypted when a key is given (R383, R384). -/
def homePlain (s : State) (sp : BitVec 6) (key : BitVec 8) (l : Nat) : Except (BitVec 8) (BitVec 1024) :=
  if s.homes.poison.contains l then .error 0x26
  else if key == 0 then .ok (s.lineRaw l)
  else match s.keySlot sp key with
    | none => .error 0x28
    | some ks =>
      let c := s.lineRaw l
      if lineTag ks.km (128 * l) c == tget 0 s.homes.tags l then .ok (xtsDecrypt ks.k1 ks.k2 (128 * l) c)
      else .error 0x29

end State

/-- Spread a 128-bit byte mask to bits. -/
def spreadMask : Nat → Nat → Nat
  | 0, _ => 0
  | n + 1, m => (if m % 2 == 1 then 255 else 0) + 256 * spreadMask n (m / 2)
/-- The bytes of `new` where the mask is set, of `old` elsewhere. -/
def mergeLine (mask : BitVec 128) (old new : BitVec 1024) : BitVec 1024 :=
  let m := BitVec.ofNat 1024 (spreadMask 128 mask.toNat)
  (new &&& m) ||| (old &&& ~~~m)
/-- A byte mask of n bytes from byte o. -/
def byteMask (o n : Nat) : BitVec 128 := BitVec.ofNat 128 ((2 ^ n - 1) * 2 ^ o)
/-- A value placed at byte o of a line. -/
def lineValue (o : Nat) (v : Nat) : BitVec 1024 := BitVec.ofNat 1024 (v * 2 ^ (8 * o))

namespace State

/-- The watches on counters that have reached their expectation are met (R306): `read` gives what a counter holds. -/
def meetWatches (s : State) (read : Watch → Option Nat) : State :=
  let hits := s.dies.flatMap fun (d, x) =>
    x.watches.filterMap fun w => if read w == some w.expect.toNat then some (d, w) else none
  hits.foldl (fun s (d, w) =>
    let x := s.die d
    (s.setDie d { x with watches := x.watches.filter (· != w) }).later 0 (.launchWatchMet w.node)) s
/-- The 8 bytes of a watched counter as its home reads them, decrypted on a keyed page (R306, R383). -/
def watchValue (s : State) (w : Watch) : Option Nat :=
  match s.homePlain w.space w.key (w.gpa / 128) with
  | .ok d => some (d.toNat / 2 ^ (8 * (w.gpa % 128)) % 2 ^ 64)
  | .error _ => none
/-- After a write of masked bytes at home: watches met by it (R306), and the entries of released spaces that it has rewritten. -/
def afterHomeWrite (s : State) (l : Nat) (mask : BitVec 128) : State :=
  let s := s.meetWatches fun w => if w.gpa / 128 == l then s.watchValue w else none
  let written := fun (sp : BitVec 6) => s.entryAt sp / 128 == l && mask.extractLsb' (s.entryAt sp % 128) 64 != 0
  { s with dev := { s.dev with released := s.dev.released.filter fun sp => !written sp } }
/-- Re-examine the token waiters of a word soon (R319). -/
def wakeTokens (s : State) (l : Nat) : State :=
  (s.homes.tokens.filter fun t => t.listed && t.gpa / 128 == l).foldl (fun s t => s.later 0 (.tokenReexamine t.gpa)) s
/-- Poison goes from a line when the whole line is covered (R421). -/
def unpoison (s : State) (l : Nat) (whole : Bool) : State :=
  if whole then { s with homes := { s.homes with poison := s.homes.poison.filter (· != l) } } else s
/-- Store a line's ciphertext with its tag (R383, R384). -/
def storeCipher (s : State) (l : Nat) (c : BitVec 1024) (tag : BitVec 64) (whole : Bool) : State :=
  let s : State := { s with
    mem := cellsMask s.mem (128 * l) 128 (2 ^ 128 - 1) c.toNat, homes := { s.homes with tags := tset s.homes.tags l tag } }
  ((s.unpoison l whole).afterHomeWrite l (BitVec.allOnes 128)).wakeTokens l
/-- Write masked bytes of a line at its home (R242, R384, R421): the key's ciphertext and tag for an encrypted line;
poison goes only when the whole line is covered. -/
def homeWrite (s : State) (sp : BitVec 6) (key : BitVec 8) (l : Nat) (mask : BitVec 128) (d : BitVec 1024) :
    Except (BitVec 8) State :=
  let whole := mask == BitVec.allOnes 128
  if !s.backed (localOf (128 * l)) then .error 0x2D
  else if key == 0 then
    let s : State := { s with mem := cellsMask s.mem (128 * l) 128 mask.toNat d.toNat }
    .ok (((s.unpoison l whole).afterHomeWrite l mask).wakeTokens l)
  else match s.keySlot sp key with
    | none => .error 0x28
    | some ks =>
      match (if whole then .ok d else (s.homePlain sp key l).map fun o => mergeLine mask o d) with
      | .error e => .error e
      | .ok p =>
        let c := xtsEncrypt ks.k1 ks.k2 (128 * l) p
        .ok (s.storeCipher l c (lineTag ks.km (128 * l) c) whole)
/-- Poison a line and log the error (R421). -/
def poisonLine (s : State) (l : Nat) : State :=
  let ch := s.channelOf (localOf (128 * l))
  let c := s.chan ch
  let s := s.setChan ch { c with uncorrected := if c.uncorrected == BitVec.allOnes 32 then c.uncorrected else c.uncorrected + 1 }
  let s := { s with homes := { s.homes with poison := if s.homes.poison.contains l then s.homes.poison else l :: s.homes.poison } }
  s.log (ch / 64) 1 ch 0 0xB1 (BitVec.ofNat 64 (128 * l)) 0 (s.chan ch).uncorrected

/-- The corrected errors of a row that its channel remembers: those of the last 24 hours (R422). -/
def rowErrors (s : State) (ch row : Nat) : Nat := ((s.chan ch).rows.filter fun (r, t) => r == row && s.cycle < t + 120960000000000).length
/-- A corrected error of a channel (R420): the data are right and written back; it is counted, logged and remembered for its row. A
row's 16th within 24 hours has it repaired (R422); whether its bank then has a spare left is a free value (log 4). -/
def correctError (s : State) (ch row : Nat) : State :=
  let c := s.chan ch
  let n := if c.corrected == BitVec.allOnes 32 then c.corrected else c.corrected + 1
  let rows := (row, s.cycle) :: c.rows.filter fun (_, t) => s.cycle < t + 120960000000000
  let s := (s.setChan ch { c with corrected := n, rows := rows }).log (ch / 64) 1 ch 0 0xB0 0 0 n
  if s.rowErrors ch row < 16 then s
  else
    let (v, s) := s.free
    s.later 0 (.rowRepair (BitVec.ofNat 8 ch) row (v.getLsbD 0))
/-- A read of a line at its home may meet a corrected error of HBM, or an uncorrectable one there or that a pooled or host port
reports: whether it does, and in which row, are free values (R420, R421; log 4). -/
def lineErrors (s : State) (l : Nat) : State :=
  let a := localOf (128 * l)
  let w := windowOf a
  if !s.backed a || !(w == .hbm || w == .pooled || w == .host) then s
  else
    let (v, s) := s.free
    let s := if v.getLsbD 0 && w == .hbm then s.correctError (s.channelOf a) (v.toNat / 4 % 65536) else s
    if v.getLsbD 1 then s.poisonLine l else s

/-! Line caches (R237 to R243). -/

/-- Put or replace a line in a core's cache. -/
def putLine (s : State) (core : Nat) (ln : Line) : State :=
  let c := s.core core
  s.setCore core { c with lines := ln :: c.lines.filter (·.line != ln.line) }
def dropLine (s : State) (core l : Nat) : State :=
  let c := s.core core
  s.setCore core { c with lines := c.lines.filter (·.line != l) }
def setDir (s : State) (l : Nat) (cs : List Nat) : State :=
  { s with homes := { s.homes with lineDir := if cs.isEmpty then tdel s.homes.lineDir l else tset s.homes.lineDir l cs } }

end State

/-! Devices, links and routes (R355, R356, R364). A dimension is named by false for the row and true for the column. -/

def devRow (d : BitVec 8) : Nat := d.toNat / 16
def devCol (d : BitVec 8) : Nat := d.toNat % 16
/-- The device of a row and a column (R355). -/
def devAt (r c : Nat) : BitVec 8 := BitVec.ofNat 8 (16 * r + c)

namespace State

/-- The dimension in which a device is a peer of this one (R355). -/
def peerDim (s : State) (d : BitVec 8) : Option Bool :=
  let o := s.dev.devid
  if d == o then none
  else if devRow d == devRow o then some false
  else if devCol d == devCol o then some true
  else none
/-- The slot of a peer in a dimension: ascending coordinates without the device's own (R355). -/
def peerSlot (s : State) (dim : Bool) (d : BitVec 8) : Nat :=
  let o := s.dev.devid
  let (x, me) := if dim then (devRow d, devRow o) else (devCol d, devCol o)
  if x < me then x else x - 1
/-- The peer that a slot of a dimension names (R355). -/
def slotPeer (s : State) (dim : Bool) (slot : Nat) : Option (BitVec 8) :=
  if 15 ≤ slot then none
  else
    let o := s.dev.devid
    let me := if dim then devRow o else devCol o
    let x := if slot < me then slot else slot + 1
    some (if dim then devAt x (devCol o) else devAt (devRow o) x)
def channels (s : State) (dim : Bool) : Table Channel := if dim then s.fab.col else s.fab.row
def setChannels (s : State) (dim : Bool) (t : Table Channel) : State :=
  { s with fab := if dim then { s.fab with col := t } else { s.fab with row := t } }
/-- The channels of a dimension with one changed. -/
def mapChannel (s : State) (dim : Bool) (ch : Nat) (f : Channel → Channel) : State :=
  s.setChannels dim ((s.channels dim).map fun (n, c) => if n == ch then (n, f c) else (n, c))
/-- The channel's lease is ENDING: its flits drain, and no new one goes on it (R369). -/
def leaseEnding (s : State) (c : Channel) : Bool :=
  c.lease != 0 && s.fab.leases.any fun (l : Lease) => l.id == c.lease && l.state == .ending
/-- The channels of the link to a peer; those that retrain are passed over while others are left (R359). -/
def linkChannels (s : State) (dim : Bool) (d : BitVec 8) : List Nat :=
  let up := (s.channels dim).filter fun (_, c) => c.serves == s.peerSlot dim d && !c.spared && !s.leaseEnding c
  let idle := up.filter fun (_, c) => !c.training
  (if idle.isEmpty then up else idle).map Prod.fst
/-- A peer that flits can be sent to: present, not fenced, and its link has a channel. -/
def linkUp (s : State) (d : BitVec 8) : Bool :=
  match s.peerDim d with
  | some dim => s.dev.fabEn && !s.deviceLost d && !(s.linkChannels dim d).isEmpty
  | none => false
/-- The next devices of detours of at most three hops: along the row to another column, or along the column to another row,
then across, with a last hop where one is left (R356). -/
def detours (s : State) (d : BitVec 8) : List (BitVec 8) :=
  let o := s.dev.devid
  let ok := fun (a b : BitVec 8) => a != d && s.linkUp a && (b == d || !s.deviceLost b)
  let row := (((List.range 16).filter fun c => c != devCol o && c != devCol d).map fun c =>
    (devAt (devRow o) c, devAt (devRow d) c)).filter fun (a, b) => ok a b
  let col := (((List.range 16).filter fun r => r != devRow o && r != devRow d).map fun r =>
    (devAt r (devCol o), devAt r (devCol d))).filter fun (a, b) => ok a b
  (row ++ col).map Prod.fst
/-- The devices that a flit may go to next (R356). The ordered class: a peer directly, else row first, column first when that
intermediate is fenced, a detour when both are; the unordered class, from its source, any of these. -/
def nextHops (s : State) (f : Flit) : List (BitVec 8) :=
  let o := s.dev.devid
  let own := f.src == o
  if (s.peerDim f.dst).isSome then
    if !s.linkUp f.dst then s.detours f.dst
    else if f.ord || !own then [f.dst] else f.dst :: s.detours f.dst
  else
    let two := [devAt (devRow o) (devCol f.dst), devAt (devRow f.dst) (devCol o)].filter s.linkUp
    if two.isEmpty then s.detours f.dst
    else if f.ord then two.take 1
    else if own then two ++ s.detours f.dst else two
/-- One of a list, a free choice where there are several (congestion on the links and channels is not part of the model). -/
def pick (s : State) (l : List Nat) : Option Nat × State :=
  if l.length ≤ 1 then (l.head?, s)
  else
    let (v, s) := s.free
    (l[v.toNat % l.length]?, s)
/-- The latest transactions whose flits fill a replay buffer of n flits: each has a header flit and LEN data flits (R357, R359). -/
def replayFit : Nat → List (Flit × Nat) → List (Flit × Nat)
  | _, [] => []
  | n, (f, k) :: r => if 1 + f.len.toNat ≤ n then (f, k) :: replayFit (n - 1 - f.len.toNat) r else []
/-- Put a flit on the fabric: onto a channel of the link to the next device of its route, whose replay buffer keeps it (R356,
R357, R359). A flit that no route is left for is lost. -/
def emit (s : State) (f : Flit) : State :=
  match s.pick ((s.nextHops f).map BitVec.toNat) with
  | (none, s) => s
  | (some n, s) =>
    let d := BitVec.ofNat 8 n
    let dim := (s.peerDim d).getD false
    let (ch, s) := s.pick (s.linkChannels dim d)
    let s := s.mapChannel dim (ch.getD 0) fun c => { c with lastSent := s.cycle, buffer := replayFit 512 ((f, 0) :: c.buffer) }
    { s with fab := { s.fab with outbox := s.fab.outbox ++ [f], hops := s.fab.hops ++ [⟨d, dim, ch.getD 0⟩] } }

/-! Sending over the fabric (R357, R360). -/

/-- A flit toward the home of an address (R357); whoever sends it for a space or a keyed page sets SPACE and KEY. -/
def flitTo (s : State) (type : BitVec 8) (ord : Bool) (gpa : Nat) : Flit :=
  { type := type, src := s.dev.devid, dst := devOf gpa, tag := 0, ord := ord, cz := false, len := 0,
    space := 0, key := 0, seq := 0, gpa := BitVec.ofNat 60 gpa, aux := 0, inl := 0, data := 0 }
/-- The class of the member whose access has a number, running or in a record. -/
def accessClass (s : State) (c access : Nat) : Option (BitVec 2) :=
  let has := fun (x : Context) => x.opens.any (fun (o : OpenAccess) => o.id == access) || x.flights.any (fun (f : Flight) => f.id == access)
  let saved := s.clusters.flatMap fun (_, k) => k.entries.flatMap fun (_, e) => e.saved.map Saved.cx
  ((s.ctx c :: saved).find? has).map fun x => x.id.klass
/-- A core has a member of class 0. -/
def core0 (s : State) (core : Nat) : Bool :=
  (List.range 4).any fun i => let x := s.ctx (4 * core + i); x.occ == .occupied && x.id.klass == 0
/-- The class of the task that a tile request serves. -/
def userClass (s : State) : TileUser → BitVec 2
  | .ctx c | .opening c => (s.ctx c).id.klass
  | .input cl e _ | .reacquire cl e _ =>
    match (s.cluster cl).entries.find? fun (k, _) => k == e with | some (_, x) => x.desc.extractLsb' 200 2 | none => 3
  | .prefetch _ _ | .peer _ => 3
/-- A transaction is of class 0 (CZ, R357): that of the access, task or tile it serves. The rules name no class for a line
fill, a merge or an action of a home: a line's is that of its core's members, the others' is 1 (DESIGN CHOICE, log 15). -/
def class0 (s : State) : TxnUse → Bool
  | .lane c a _ | .store c a _ _ | .flagged c a _ _ _ | .token c a => s.accessClass c a == some 0
  | .lineFill core _ _ _ _ | .grant _ core _ | .merge core _ _ | .handed _ core _ _ => s.core0 core
  | .rmw _ _ _ _ _ u => s.class0 u
  | .mlock op _ | .mcommit op _ =>
    match s.homes.mcas.find? fun (m : McasOp) => m.id == op with | some m => s.accessClass m.ctx m.flight == some 0 | none => false
  | .tile r | .tilePart r _ _ => s.userClass r.user == 0
  | .tileWrite cl slot | .tileLine cl slot _ | .tilePut cl slot _ => (tget {} (s.cluster cl).loam slot).klass == 0
  | .copyRead cl id _ _ | .copyWrite cl id _ _ _ =>
    match (s.cluster cl).copies.find? fun (j : CopyJob) => j.id == id with | some j => (s.ctx j.ctx).id.klass == 0 | none => false
  | .node b | .cond b | .counter b =>
    match (s.die b.die).instances.find? fun (i : Instance) => i.id == b.inst with | some i => i.klass == 0 | none => false
  | .graphDone _ _ _ | .publish _ _ | .count _ _ _ _ _ | .packet _ _ _ _ | .mquery _ | .logged _ | .engine _ _ _ | .plain => false
/-- A tag toward a destination is in use, its completion has not come, or its last send is less than 60 µs ago (R360). -/
def tagBusy (s : State) (d : Nat) (tag : BitVec 12) : Bool :=
  (s.fab.txns.any fun x => x.flit.dst.toNat == d && x.flit.tag == tag && 0 < x.sends)
    || (s.peer d).tagLost.contains tag.toNat
    || ((s.peer d).tagUsed.any fun (t, at_) => t == tag.toNat && s.cycle - at_ < 84000)
/-- The first free tag from a tag upward. -/
def freeTag (s : State) (d : Nat) (tag : BitVec 12) : Nat → Option (BitVec 12)
  | 0 => none
  | n + 1 => if s.tagBusy d tag then s.freeTag d (tag + 1) n else some tag
/-- Put the first copy of a transaction on the fabric, with its SEQ and TAG: false while no TAG is free. -/
def firstSend (s : State) (x : Txn) : State × Bool :=
  let d := x.flit.dst.toNat
  let p := s.peer d
  match s.freeTag d p.tagNext 4096 with
  | none => (s, false)
  | some tag =>
    let f : Flit := { x.flit with tag := tag, seq := if x.flit.ord then p.sendSeq else 0, cz := s.class0 x.use_ }
    let s := s.setPeer d { p with tagNext := tag + 1, sendSeq := if f.ord then p.sendSeq + 1 else p.sendSeq }
    let x1 : Txn := { x with flit := f, firstSend := s.cycle, lastSend := s.cycle, sends := 1 }
    let s : State := { s with fab := { s.fab with txns := s.fab.txns.map fun (y : Txn) => if y.id == x.id then x1 else y } }
    (((s.emit f).later 70000 (.transactionResend x.id)).later 280000 (.fabricTimeout x.id), true)
/-- Send a transaction that expects a completion. It waits while an earlier one waits for a TAG. -/
def send (s : State) (f : Flit) (u : TxnUse) : Nat × State :=
  let id := s.fab.nextTxn
  let x : Txn := ⟨id, { f with src := s.dev.devid, cz := s.class0 u }, u, s.cycle, s.cycle, 0, none, []⟩
  let queued := s.fab.txns.any fun y => y.sends == 0 && y.flit.dst == f.dst
  let s := { s with fab := { s.fab with nextTxn := id + 1, txns := s.fab.txns ++ [x] } }
  if queued then (id, s.later 64 (.transactionResend id))
  else match s.firstSend x with
    | (s, true) => (id, s)
    | (s, false) => (id, s.later 64 (.transactionResend id))

/-! Lines going home (R239, R241, R383, R384). -/

/-- Send masked bytes of a line to another device's home as WRM: the whole line encrypted with its tag, or a partial write of
an encrypted line as a locked read-modify-write (R384). The cause of a refusal on this device. -/
def sendMerge (s : State) (sp : BitVec 6) (key : BitVec 8) (l : Nat) (mask : BitVec 128) (d : BitVec 1024) (u : TxnUse) :
    State × Option (BitVec 8) :=
  let f0 : Flit := s.flitTo 0x04 true (128 * l)
  -- a cache's own write-back passes a grant of this device; another merge has it revoked as a `.b` write does (R378)
  let own := match u with | .merge _ _ _ | .handed _ _ _ _ => true | _ => false
  let f : Flit := { f0 with
    space := sp, key := key.setWidth 4, len := 2, inl := mask.setWidth 256 ||| (if own then 0 else 1#256 <<< 129), data := d.setWidth 2048 }
  if s.deviceLost f.dst then (s, some 0x80)
  else if key == 0 then ((s.send f u).2, none)
  else match s.keySlot sp key with
    | none => (s, some 0x28)
    | some ks =>
      if mask == BitVec.allOnes 128 then
        let c := xtsEncrypt ks.k1 ks.k2 (128 * l) d
        ((s.send { f with data := c.setWidth 2048, aux := lineTag ks.km (128 * l) c } u).2, none)
      else
        let g0 : Flit := s.flitTo 0x02 true (128 * l)
        let g : Flit := { g0 with space := sp, key := key.setWidth 4, inl := 1 }
        ((s.send g (.rmw sp key l mask d u)).2, none)
/-- Merge masked bytes of a line at its home, wherever that is; a merge toward another device ends by `u`. -/
def mergeTo (s : State) (sp : BitVec 6) (key : BitVec 8) (l : Nat) (mask : BitVec 128) (d : BitVec 1024) (u : TxnUse) :
    State × Option (BitVec 8) :=
  if s.ownDevice (128 * l) then
    match s.homeWrite sp key l mask d with
    | .ok s => (s, none)
    | .error e => (s, some e)
  else s.sendMerge sp key l mask d u
/-- What of a line must go home before it leaves the cache: an M line whole, an untracked line's dirty bytes. -/
def outMask (ln : Line) : BitVec 128 :=
  if ln.tracked then (if ln.mesi == .m then BitVec.allOnes 128 else 0) else ln.dirty
/-- The line cache of the Mooring guest, an agent beside the device's 1,024 cores (R394). -/
def guestCore : Nat := 1024
/-- A merge that belongs to no word has failed: it is logged only, for context 0 of the core (R457). -/
def mergeFailed (s : State) (core : Nat) (sp : BitVec 6) (l : Nat) (e : BitVec 8) : State :=
  if core == guestCore then s.log 0 7 0 sp e (BitVec.ofNat 64 (128 * l)) 0 0 else s.log (core / 256) 0 (ctxIndex (4 * core)) sp e (BitVec.ofNat 64 (128 * l)) 0 0
/-- Merge the dirty content of a cached line at its home; a merge toward another device is in flight under the line's T value
until it completes (R348). -/
def mergeLineTo (s : State) (ln : Line) (u : TxnUse) : State × Option (BitVec 8) :=
  let n := s.fab.nextTxn
  let (s, r) := s.mergeTo ln.space ln.key ln.line (outMask ln) ln.data u
  ({ s with fab := { s.fab with txns := s.fab.txns.map fun (x : Txn) => if x.id == n then { x with tracked := some ln.tracked } else x } }, r)
/-- Send a line's dirty content to its home (R239, R241): a merge that no word waits for. -/
def mergeOut (s : State) (core : Nat) (ln : Line) : State :=
  if outMask ln == 0 then s
  else match s.mergeLineTo ln (.merge core ln.space ln.line) with
    | (s, none) => s
    | (s, some e) => s.mergeFailed core ln.space ln.line e
/-- A line leaves a core's cache (R239, R241): an M line or dirty bytes are merged at home, and the core of an M line leaves
the home's list; an S or E line goes silently. -/
def evictLine (s : State) (core : Nat) (ln : Line) : State :=
  let s1 := (s.mergeOut core ln).dropLine core ln.line
  if ln.tracked && ln.mesi == .m then s1.setDir ln.line ((s1.dirCores ln.line).filter (· != core)) else s1
/-- The lines of a core's cache in the set of a line: 64 sets, by bits [12:7] of the address (R296). -/
def setLines (s : State) (core l : Nat) : List Line := (s.core core).lines.filter fun x => x.line % 64 == l % 64
/-- An `mcas` or a read-modify-write holds the line at its home (R258, R384). -/
def lineLocked (s : State) (l : Nat) : Bool := s.homes.locks.any fun k => k.line == l
/-- A line of the page is locked (R379). -/
def pageLocked (s : State) (page : Nat) : Bool := s.homes.locks.any fun k => k.line / 512 == page
/-- The dirty bytes of an untracked line cannot merge now: the line is locked at its home (R258). -/
def mergeHeld (s : State) (ln : Line) : Bool := !ln.tracked && ln.dirty != 0 && s.lineLocked ln.line
/-- An allocation must wait: the 8 ways of its set all hold lines whose merges wait for a lock (R258, R296). -/
def roomHeld (s : State) (core l : Nat) : Bool :=
  core != guestCore && (s.lineOf core l).isNone && 8 ≤ (s.setLines core l).length && (s.setLines core l).all s.mergeHeld
/-- An allocation needs one of the 8 ways of its set (R237, R296): when all hold other lines, one whose merge need not wait is
chosen (a free choice) and leaves; `roomHeld` says that there is none. The guest's cache has no stated size. -/
def makeRoom (s : State) (core l : Nat) : State :=
  if core == guestCore || (s.lineOf core l).isSome || (s.setLines core l).length < 8 then s
  else
    let out := (s.setLines core l).filter fun ln => !s.mergeHeld ln
    let (v, s) := s.free
    match out[v.toNat % max 1 out.length]? with
    | some ln => s.evictLine core ln
    | none => s
/-- The issuing core's untracked copy follows a `.b` write: the bytes are updated and no longer dirty (R243). -/
def copyPut (s : State) (core l : Nat) (m : BitVec 128) (d : BitVec 1024) : State :=
  match s.lineOf core l with
  | some ln =>
    if ln.tracked then s
    else s.putLine core { ln with data := mergeLine m ln.data d, valid := ln.valid ||| m, dirty := ln.dirty &&& ~~~m }
  | none => s
/-- Recall an M copy of a tracked line: write it back; its core goes to `to` (R239). -/
def recallTo (s : State) (l : Nat) (dest : Mesi) : State :=
  (s.dirCores l).foldl (fun s c =>
    match s.lineOf c l with
    | some ln =>
      if ln.tracked && (ln.mesi == .m || ln.mesi == .e) then
        let s := s.mergeOut c ln
        if dest == .i then s.dropLine c l else s.putLine c { ln with mesi := dest }
      else s
    | none => s) s
/-- Invalidate every listed copy of a tracked line but the given core's (R239, R240). -/
def invalidateOthers (s : State) (l : Nat) (keep : Option Nat) : State :=
  let s := (s.dirCores l).foldl (fun s c =>
    if keep == some c then s else
    match s.lineOf c l with
    | some ln => if ln.tracked then (s.mergeOut c ln).dropLine c l else s
    | none => s) s
  s.setDir l ((s.dirCores l).filter fun c => keep == some c)
/-- Read a line at its home as a `.b` read does: any M copy is written back first (R243). -/
def homeLine (s : State) (sp : BitVec 6) (key : BitVec 8) (l : Nat) : State × Except (BitVec 8) (BitVec 1024) :=
  let s := s.recallTo l .s
  if s.backed (localOf (128 * l)) then (s, s.homePlain sp key l) else (s, .error 0x2D)
/-- Read n bytes within a line at home. -/
def homeBytes (s : State) (sp : BitVec 6) (key : BitVec 8) (a n : Nat) : State × Except (BitVec 8) Nat :=
  let (s, r) := s.homeLine sp key (a / 128)
  (s, r.map fun d => d.toNat / 2 ^ (8 * (a % 128)) % 2 ^ (8 * n))
/-- Write n bytes within a line at home as a `.b` write does: M copies are written back, listed copies invalidated
(R243). -/
def homePut (s : State) (sp : BitVec 6) (key : BitVec 8) (a n v : Nat) : Except (BitVec 8) State :=
  let l := a / 128
  ((s.recallTo l .s).invalidateOthers l none).homeWrite sp key l (byteMask (a % 128) n) (lineValue (a % 128) (v % 2 ^ (8 * n)))


/-! Lines of other devices (R374, R377). -/

/-- The page's attributes that an access needs: its space and key, and whether it is tracked. -/
structure PageKind where
  space : BitVec 6
  key : BitVec 8
  tracked : Bool
  deriving DecidableEq, Repr
/-- Take away the record of a failed fill. -/
def dropFailed (s : State) (core l : Nat) : State :=
  let c := s.core core
  s.setCore core { c with failedFills := c.failedFills.filter (·.1 != l) }
/-- The grant of a page: for a page of another device, the one this device holds. -/
def grantOf (s : State) (page : Nat) : Grant := tget ⟨.none, [], false, none, [], []⟩ s.homes.grants page
def setGrant (s : State) (page : Nat) (g : Grant) : State :=
  let empty := g.state == .none && g.pendingReq.isNone && g.waiting.isEmpty
  { s with homes := { s.homes with grants := if empty then tdel s.homes.grants page else tset s.homes.grants page g } }
/-- This device holds the grant that an access to a tracked page of another device needs. -/
def holdsGrant (s : State) (page : Nat) (w : Bool) : Bool :=
  match (s.grantOf page).state with | .exclusive => true | .shared => !w | .none => false
/-- Ask for the grant of a line's page, once at a time (R378). -/
def askGrant (s : State) (core : Nat) (k : PageKind) (l : Nat) (w : Bool) : State :=
  if s.fab.txns.any fun x => match x.use_ with | .grant p _ _ => p == l / 512 | _ => false then s
  else
    let f0 : Flit := s.flitTo 0x08 true (128 * l)
    let f : Flit := { f0 with space := k.space, key := k.key.setWidth 4, inl := if w then 1 else 0 }
    (s.send f (.grant (l / 512) core l)).2
/-- The line of a flag that a transaction raises once its data is written (R376). -/
def flagLine : TxnUse → Option Nat
  | .flagged _ _ _ _ (some g) => some (g.gpa.toNat / 128)
  | .rmw _ _ _ _ _ (.flagged _ _ _ _ (some g)) => some (g.gpa.toNat / 128)
  | _ => none
/-- A transaction writes the line, or leads to a write of it: WR, WRM, AMO, RSTF with its flag, TOK, or the locked read of a
read-modify-write (R384). -/
def txnWrites (x : Txn) (l : Nat) : Bool :=
  (x.flit.gpa.toNat / 128 == l && ([(3 : BitVec 8), 4, 5, 6, 18].contains x.flit.type || (x.flit.type == 2 && x.flit.inl.toNat % 4 == 1)))
    || (x.flit.type == 6 && x.flit.gpa.toNat / 128 + 1 == l)
    || (x.flit.type == 6 && x.flit.inl.getLsbD 64 && x.flit.aux.toNat / 128 == l)
    || flagLine x.use_ == some l
/-- A write of the line that has left for another device is not complete. -/
def writeUnderway (s : State) (l : Nat) : Bool := s.fab.txns.any fun x => txnWrites x l
/-- Ask for a line of another device, with the grant a tracked line needs first; once at a time, and not before the writes of
the line that have left for its home are complete (R244, R279). -/
def askLine (s : State) (core : Nat) (k : PageKind) (l : Nat) : State :=
  let busy := s.fab.txns.any fun x => match x.use_ with | .lineFill c m _ _ _ => c == core && m == l | _ => false
  if busy || s.writeUnderway l then s
  else if k.tracked && !s.holdsGrant (l / 512) false then s.askGrant core k l false
  else
    let f0 : Flit := s.flitTo 0x02 false (128 * l)
    let f : Flit := { f0 with space := k.space, key := k.key.setWidth 4 }
    (s.send f (.lineFill core l k.space k.key k.tracked)).2

/-! Grants at home (R377, R378). -/

/-- An access performed at home must first have grants of other devices revoked. -/
def grantBlocks (s : State) (page : Nat) (w : Bool) : Bool :=
  let g := s.grantOf page
  g.pendingReq.isSome || (match g.state with | .none => false | .shared => w | .exclusive => true)
/-- Recall every line of a page in this device's caches: to S, or to I (R378 step 3). -/
def recallPage (s : State) (page : Nat) (keep : Bool) : State :=
  let all := s.cores.flatMap fun (n, c) => (c.lines.filter fun l => l.tracked && l.line / 512 == page).map fun l => (n, l)
  all.foldl (fun s (n, ln) =>
    let s := s.mergeOut n ln
    if keep then s.putLine n { ln with mesi := .s }
    else (s.dropLine n ln.line).setDir ln.line ((s.dirCores ln.line).filter (· != n))) s
/-- The present devices of the fabric but this one. -/
def presentPeers (s : State) : List (BitVec 8) :=
  (((List.range 256).map fun n => BitVec.ofNat 8 n).filter fun (d : BitVec 8) => d != s.dev.devid && !s.deviceLost d)
/-- Begin to serve a request for a page: GREV goes to each device whose grant stands in its way (R378). The request is a
GREQ, a peer's access that revokes, or a local one (type 0, this device as source); INLINE [0] asks for exclusive. -/
def startRevoke (s : State) (page : Nat) (f : Flit) : State :=
  let g := s.grantOf page
  let w := f.inl.getLsbD 0
  let inTheWay : List (BitVec 8) :=
    match g.state with
    | .none => []
    | .shared => if !w then [] else if g.bcast then s.presentPeers else g.holders
    | .exclusive => g.holders
  let targets := inTheWay.filter fun d => d != f.src && !s.deviceLost d
  let own := f.src != s.dev.devid && f.type == 0x08
  let s := if own then s.recallPage page (!w) else s
  let s := s.setGrant page { g with pendingReq := some f, awaiting := targets }
  targets.foldl (fun s d =>
    let r0 : Flit := s.flitTo 0x09 true (65536 * page)
    let r : Flit := { r0 with dst := d, space := f.space, inl := if w then 1 else 0 }
    (s.send r .plain).2) s
/-- The grants of a page once a request has been served: those of `f`'s kind. -/
def afterRevoke (s : State) (page : Nat) (f : Flit) : State :=
  let g := s.grantOf page
  let w := f.inl.getLsbD 0
  let (st, hs, bc) : GrantState × List (BitVec 8) × Bool :=
    if f.type == 0x08 then
      if w then (.exclusive, [f.src], false)
      else
        let l := if g.holders.contains f.src then g.holders else g.holders ++ [f.src]
        (.shared, l.take 4, g.bcast || 4 < l.length)
    else if w then (.none, [], false)
    else if g.state == .exclusive then (.shared, g.holders, false) else (g.state, g.holders, g.bcast)
  s.setGrant page { g with state := st, holders := hs, bcast := bc, pendingReq := none, awaiting := [] }
/-- A local access of a space to a page that grants block: the revoke is started unless a request is being served. -/
def revokeFor (s : State) (page : Nat) (w : Bool) (sp : BitVec 6) : State :=
  if (s.grantOf page).pendingReq.isSome then s
  else
    let f0 : Flit := s.flitTo 0 true (65536 * page)
    let f : Flit := { f0 with space := sp, inl := if w then 1 else 0 }
    let s := s.startRevoke page f
    if (s.grantOf page).awaiting.isEmpty then s.afterRevoke page f else s

/-! The alias detector (R348). -/

/-- A copy of a line of the frame is held, or asked for, or its merge is in flight, under the other T value (R348). -/
def aliased (s : State) (page : Nat) (tracked : Bool) : Bool :=
  s.cores.any (fun (_, c) => c.lines.any fun ln => ln.line / 512 == page && ln.tracked != tracked)
    || s.fab.txns.any fun x => (x.flit.gpa.toNat / 65536 == page && x.tracked == some (!tracked))
      || (match x.use_ with | .lineFill _ l _ _ t => l / 512 == page && t != tracked | _ => false)
/-- The alias detector refuses: counted and logged with the frame, by the Daymark of the frame's channel (R348, R353); that of
another device's frame is not this device's. -/
def logAlias (s : State) (gpa : Nat) (sp : BitVec 6) : State :=
  if !s.ownDevice gpa then s
  else
    let ch := s.channelOf (localOf gpa)
    let c := s.chan ch
    let n := if c.aliasCount == BitVec.allOnes 32 then c.aliasCount else c.aliasCount + 1
    (s.setChan ch { c with aliasCount := n }).log (ch / 64) 1 ch sp 0x25 (BitVec.ofNat 64 (gpa / 65536 * 65536)) 0 n

/-! What an engine's action waits for (R347, R374). An action that meets such a wait is given up whole, what it waits for is begun,
and it is taken again (`settleWaits`); what it had come to is no part of the state. -/

def waitFor (s : State) (w : HomeWait) : State := { s with waits := s.waits ++ [w] }
/-- A `.b` access by an engine to a line of this device finds no lock and no grant in its way; else it waits for that (R258, R378). -/
def lineReady (s : State) (l : Nat) (w : Bool) (sp : BitVec 6) : State × Bool :=
  if s.lineLocked l then (s.waitFor (.lock l), false)
  else if s.grantBlocks (l / 512) w then (s.waitFor (.grant (l / 512) w sp), false)
  else (s, true)
/-- The entry of a space is read by the action under way. -/
def entryReady (s : State) (sp : BitVec 6) : State :=
  if s.ownDevice (s.entryAt sp) then (s.lineReady (s.entryAt sp / 128) false sp).1 else s
/-- A line of another device as an engine's action reads it: what has come for it, or a wait for that (R374). A line that no action
has taken within 256 cycles is read again. -/
def awayLine (s : State) (sp : BitVec 6) (key : BitVec 8) (l : Nat) : State × Except (BitVec 8) (BitVec 1024) :=
  if s.deviceLost (devOf (128 * l)) then (s, .error 0x80)
  else
    let mine := fun (a : AwayLine) => a.line == l && a.space == sp && a.key == key
    match s.fab.away.find? fun a => mine a && s.cycle ≤ a.since + 256 with
    | none => (s.waitFor (.away l sp key), .error 0)
    | some a =>
      ({ s with fab := { s.fab with away := s.fab.away.map fun b => if mine b then { b with used := true } else b } },
        if a.fail == 0 then .ok a.data else .error a.fail)
/-- Begin what an action waits for: a revoke, or the read of a line of another device once no write of it is under way. -/
def beginWait (s : State) : HomeWait → State
  | .grant page w sp => s.revokeFor page w sp
  | .lock _ => s
  | .away l sp key =>
    let asked := s.fab.txns.any fun x => x.use_ == .engine l sp key
    if asked || s.writeUnderway l || s.deviceLost (devOf (128 * l)) then s
    else
      let f0 : Flit := s.flitTo 0x02 false (128 * l)
      (s.send { f0 with space := sp, key := key.setWidth 4, inl := 2 } (.engine l sp key)).2
/-- The lines of other devices that an action has read are used up. -/
def useUp (s : State) : State :=
  if s.fab.away.isEmpty then s else { s with fab := { s.fab with away := s.fab.away.filter fun a => !a.used } }
/-- An action that has led from `s0` to `t` and waits for nothing has happened; of one that waits only what it waits for is begun. -/
def unlessWaits (s0 t : State) : State := if t.waits.isEmpty then t.useUp else t.waits.foldl beginWait s0
/-- The same of an outcome; `again` sees to it that an action which waits is taken again. -/
def settleWaits (s0 : State) (again : State → State) : Host.Outcome State Fault Refusal → Host.Outcome State Fault Refusal
  | .next t => .next (if t.waits.isEmpty then s0.unlessWaits t else again (s0.unlessWaits t))
  | o => o

end State

end Sys2Proof.Machine
end

