-- ==== Sys2Proof/Machine/Operands.lean ====
section
/-! DEFINITION. Operand forms: register names and their mapping through VROT and KROT (R104, R121, R136), immediates and
literals (R76, R83), and register reads. -/

namespace Sys2Proof.Machine

/-- Physical vector register of a name (R136). -/
def physV (n : BitVec 6) (vrot : BitVec 5) : BitVec 6 :=
  if n.toNat < 32 then n else BitVec.ofNat 6 (32 + (n.toNat - 32 + vrot.toNat) % 32)
/-- Physical mask register of a name (R136). -/
def physK (n : BitVec 4) (krot : BitVec 3) : BitVec 4 :=
  if n.toNat < 8 then n else BitVec.ofNat 4 (8 + (n.toNat - 8 + krot.toNat) % 8)

/-- imm12 sign-extended, or the literal sign-extended in its place (R76, R83). -/
def immS {w : Nat} (imm : BitVec w) : Option Word → Dbl
  | some l => l.signExtend 64
  | none => imm.signExtend 64
/-- A scaled or plain signed offset: off × s, or the literal unscaled (R246). -/
def immScaled {w : Nat} (off : BitVec w) (size : Nat) : Option Word → Dbl
  | some l => l.signExtend 64
  | none => BitVec.ofInt 64 (off.toInt * size)
/-- off9 unsigned, or the literal signed (R230). -/
def immU {w : Nat} (off : BitVec w) : Option Word → Dbl
  | some l => l.signExtend 64
  | none => off.setWidth 64

/-- x0 reads 0 (R104). -/
def Context.getX (c : Context) (r : BitVec 5) : Dbl := if r == 0 then 0 else c.x[r.toNat]
/-- q0 reads true (R104). -/
def Context.getQ (c : Context) (r : BitVec 3) : Bool := r == 0 || c.q.getLsbD r.toNat
def Context.getB (c : Context) (r : BitVec 3) : BitVec 56 := c.b[r.toNat]
/-- A vector register by name (R136). -/
def Context.getV (c : Context) (n : BitVec 6) : VReg := c.v[(physV n c.vrot).toNat]
/-- A mask register by name; k0 reads all ones (R135). -/
def Context.getK (c : Context) (n : BitVec 4) : BitVec 64 :=
  if n == 0 then BitVec.allOnes 64 else c.k[(physK n c.krot).toNat]
def Context.getW (c : Context) (r : BitVec 4) : BitVec 512 := c.w[r.toNat]

namespace State
def rx (s : State) (r : BitVec 5) : Dbl := s.cx.getX r
def rq (s : State) (r : BitVec 3) : Bool := s.cx.getQ r
def rb (s : State) (r : BitVec 3) : BitVec 56 := s.cx.getB r
def rv (s : State) (n : BitVec 6) : VReg := s.cx.getV n
def rk (s : State) (n : BitVec 4) : BitVec 64 := s.cx.getK n
def rw (s : State) (r : BitVec 4) : BitVec 512 := s.cx.getW r
/-- The word's slot predicate holds (R82). -/
def holds (s : State) (p : Pred) : Bool := s.rq p.qp != p.ng
end State

end Sys2Proof.Machine
end

