-- ==== Sys2Proof/Machine/Flags.lean ====
section
/-! DEFINITION. Predicate computations: the conditions of `cmp` and `cmpi` (R114, R115), `qlog` (R116) and the votes
(R122). The machine's predicates are its only flags (R53). -/

namespace Sys2Proof.Machine

/-- The conditions of `cmp` (R114) on values of one width. -/
def cond {w : Nat} (c : Nat) (a b : BitVec w) : Bool :=
  match c with
  | 0 => a == b
  | 1 => a != b
  | 2 => a.slt b
  | 3 => !a.slt b
  | 4 => a.ult b
  | _ => !a.ult b
/-- `cmp` at the width W selects (R114). -/
def cmpCond (c : Nat) (w : Bool) (a b : Dbl) : Bool :=
  if w then cond c (a.setWidth 32) (b.setWidth 32) else cond c a b
/-- The conditions of `cmpi`: eq, ne, lt.i, lt.n (R115). -/
def cmpiCond (c : Nat) (a b : Dbl) : Bool :=
  match c with
  | 0 => cond 0 a b
  | 1 => cond 1 a b
  | 2 => cond 2 a b
  | _ => cond 4 a b
/-- The truth-table bit of `qlog` (R116). -/
def qlogBit (tt : BitVec 4) (a b : Bool) : Bool := tt.getLsbD (2 * a.toNat + b.toNat)
/-- `vany` (R122). -/
def voteAny (a b : BitVec 64) : Bool := (a &&& b) != 0
/-- `vall` (R122). -/
def voteAll (a b : BitVec 64) : Bool := (a ||| ~~~b) == BitVec.allOnes 64

end Sys2Proof.Machine
end

