-- ==== Sys2Proof/Machine/Silt.lean ====
section
/-! DEFINITION. Silt: compressed blocks, their table and the free-sector managers (R412 to R419). A block's content is
held as last written, for an encrypted page as ciphertext (R383); what its sectors hold is Silt's private encoding (log 6). -/

namespace Sys2Proof.Machine

/-- The run class that holds n sectors: 1, 2, 4 or 8 (R414). -/
def runClass (n : Nat) : Nat := if n ≤ 1 then 1 else if n ≤ 2 then 2 else if n ≤ 4 then 4 else 8
/-- Insert a free run in ascending order. -/
def runInsert (r : Nat × Nat) : List (Nat × Nat) → List (Nat × Nat)
  | [] => [r]
  | q :: t => if r.1 < q.1 then r :: q :: t else q :: runInsert r t
/-- Take the low part of class n from the run, giving back the halves split off (R415). -/
def runSplit (n first : Nat) : Nat → Nat → List (Nat × Nat) → List (Nat × Nat)
  | 0, _, l => l
  | fuel + 1, k, l => if k ≤ n then l else runSplit n first fuel (k / 2) (runInsert (first + k / 2, k / 2) l)
/-- Allocate a run of class n: the lowest run of that class, else the lowest larger one, split (R415). -/
def runAlloc (n : Nat) (l : List (Nat × Nat)) : Option (Nat × List (Nat × Nat)) :=
  match l.find? (·.2 == n) with
  | some r => some (r.1, l.filter (· != r))
  | none =>
    match l.find? (fun r => n < r.2) with
    | some r => some (r.1, runSplit n r.1 4 r.2 (l.filter (· != r)))
    | none => none
/-- Free a run, merging with free buddies up to class 8 (R415). -/
def runFree (first k : Nat) (l : List (Nat × Nat)) : Nat → List (Nat × Nat)
  | 0 => runInsert (first, k) l
  | n + 1 =>
    let buddy := first.xor k
    if k < 8 && l.contains (buddy, k) then runFree (min first buddy) (2 * k) (l.filter (· != (buddy, k))) n
    else runInsert (first, k) l
/-- All of a pool of n sectors as free runs, the largest classes first from sector 0 (R414). -/
def poolRuns (n first : Nat) : Nat → List (Nat × Nat)
  | 0 => []
  | fuel + 1 =>
    let k := if 8 ≤ n then 8 else if 4 ≤ n then 4 else if 2 ≤ n then 2 else 1
    if n == 0 then [] else (first, k) :: poolRuns (n - k) (first + k) fuel
def sectorsFree (l : List (Nat × Nat)) : Nat := l.foldl (fun a r => a + r.2) 0

/-- Descriptor fields (R413). -/
def siltLowwm (d : BitVec 512) : Nat := (d.extractLsb' 416 48).toNat
def siltOsize (d : BitVec 512) : Nat := (d.extractLsb' 368 48).toNat
def siltPsize (d : BitVec 512) : Nat := (d.extractLsb' 320 48).toNat
def siltObase (d : BitVec 512) : Nat := (d.extractLsb' 256 52).toNat
def siltPbase (d : BitVec 512) : Nat := (d.extractLsb' 192 52).toNat
def siltBtbase (d : BitVec 512) : Nat := (d.extractLsb' 128 52).toNat

namespace State

def devBase (s : State) : Nat := s.dev.devid.toNat * 2 ^ 52
/-- The home channel of a region's block: fold8 of its number in the window (R412). -/
def siltHome (s : State) (n blk : Nat) : Nat :=
  fold8 8 (((tget ({} : Silt) s.silt n).desc.extractLsb' 0 18).toNat * 2 ^ 18 + blk)
/-- The block-table entry of a block (R414). -/
def siltEntry (s : State) (n blk : Nat) : Dbl :=
  BitVec.ofNat 64 (s.bytes (s.devBase + siltBtbase (tget ({} : Silt) s.silt n).desc + 8 * blk) 8)
/-- The lines that hold a block's entry and run (R419, R421). -/
def siltLines (s : State) (n blk : Nat) : List Nat :=
  let d := (tget ({} : Silt) s.silt n).desc
  let e := s.siltEntry n blk
  let base := if e.getLsbD 61 then siltObase d else siltPbase d
  let a := s.devBase + base + 512 * (e.toNat % 2 ^ 48)
  (s.devBase + siltBtbase d + 8 * blk) / 128 :: (List.range (4 * (e.toNat / 2 ^ 52 % 16))).map fun i => a / 128 + i
/-- A line of the block's entry or run is poisoned (R419, R421). -/
def siltPoisoned (s : State) (n blk : Nat) : Bool := (s.siltLines n blk).any s.homes.poison.contains
/-- Decode a block (R416, R417). -/
def siltRead (s : State) (n blk : Nat) : Except (BitVec 8) Block :=
  if s.siltPoisoned n blk then .error 0x26
  else .ok (tget 0 (tget ({} : Silt) s.silt n).blocks blk)
/-- Log SILT_FULL: the block keeps its contents (R418). -/
def siltFull (s : State) (n blk : Nat) : State :=
  let ch := s.siltHome n blk
  s.log (ch / 64) 1 ch 0 0xB2 (BitVec.ofNat 64 n) (BitVec.ofNat 64 blk) 0
/-- Log SILT_LOW once when the free primary sectors fall below LOWWM (R415). -/
def siltLow (s : State) (n blk : Nat) : State :=
  let r := tget ({} : Silt) s.silt n
  let low := sectorsFree r.freeP < siltLowwm r.desc
  let above := siltLowwm r.desc < sectorsFree r.freeP
  let ch := s.siltHome n blk
  let s := { s with silt := tset s.silt n { r with lowLogged := if low then true else if above then false else r.lowLogged } }
  if low && !r.lowLogged then s.log (ch / 64) 1 ch 0 0xB3 (BitVec.ofNat 64 n) 0 0 else s
/-- Replace a block: encode, allocate and write a run, change the entry, then free the old run (R414 to R416, R418); the lines of the
new run are written whole, and a poisoned run is not freed (R419, R421). -/
def siltWrite (s : State) (n blk : Nat) (b : Block) : Except (BitVec 8 × State) State :=
  let r := tget ({} : Silt) s.silt n
  let d := r.desc
  let ns := if b == 0 then 0 else
    let k := Config.siltSectors b
    if 1 ≤ k && k ≤ 7 then k else 8
  let raw := ns == 8
  let k := runClass ns
  let got :=
    if ns == 0 then some (false, 0, r.freeP, r.freeO)
    else match runAlloc k r.freeP with
      | some (f, l) => some (false, f, l, r.freeO)
      | none => (runAlloc k r.freeO).map fun (f, l) => (true, f, r.freeP, l)
  match got with
  | none => .error (0xB2, s.siltFull n blk)
  | some (ov, first, fp, fo) =>
    let old := s.siltEntry n blk
    let ons := old.toNat / 2 ^ 52 % 16
    let base := s.devBase + (if ov then siltObase d else siltPbase d) + 512 * first
    let mem := (List.range ns).foldl (fun m i =>
      cellsWrite m (base + 512 * i) 512
        (if raw then (b.extractLsb' (4096 * i) 4096).toNat else (Config.siltSector b i).toNat)) s.mem
    let ent := if ns == 0 then 0
      else first + ns * 2 ^ 52 + (if raw then 2 ^ 60 else 0) + (if ov then 2 ^ 61 else 0)
    let mem := cellsWrite mem (s.devBase + siltBtbase d + 8 * blk) 8 ent
    let keep := ons == 0 || s.siltPoisoned n blk
    let fp := if keep || old.getLsbD 61 then fp else runFree (old.toNat % 2 ^ 48) (runClass ons) fp 4
    let fo := if keep || !old.getLsbD 61 then fo else runFree (old.toNat % 2 ^ 48) (runClass ons) fo 4
    let fresh := fun (l : Nat) => base / 128 ≤ l && l < base / 128 + 4 * ns
    let taken : State := { s with
      mem := mem,
      homes := { s.homes with poison := s.homes.poison.filter fun l => !fresh l },
      silt := tset s.silt n { r with freeP := (if ov || ns == 0 then r.freeP else (runAlloc k r.freeP).elim r.freeP Prod.snd) } }
    let s := taken.siltLow n blk
    let r := tget ({} : Silt) s.silt n
    let s := { s with silt := tset s.silt n { r with
      freeP := fp, freeO := fo, blocks := if b == 0 then tdel r.blocks blk else tset r.blocks blk b } }
    .ok (s.siltLow n blk)
/-- Read n bytes at a Silt address within a block as it stands (R417). -/
def siltBytes (s : State) (a n : Nat) : Except (BitVec 8) Nat :=
  let off := localOf a - 0x2000000000000
  match s.siltRegion off with
  | none => .error 0x2D
  | some (r, blk) => (s.siltRead r blk).map fun b => b.toNat / 2 ^ (8 * (off % 4096)) % 2 ^ (8 * n)
/-- A line of an encrypted Silt page: checked and decrypted, or its cause (R383, R384). -/
def siltPlain (s : State) (ks : KeySlot) (l : Nat) : Except (BitVec 8) (BitVec 1024) :=
  match s.siltBytes (128 * l) 128 with
  | .error e => .error e
  | .ok v =>
    let c := BitVec.ofNat 1024 v
    if lineTag ks.km (128 * l) c == tget 0 s.homes.tags l then .ok (xtsDecrypt ks.k1 ks.k2 (128 * l) c) else .error 0x29
/-- Read n bytes within a line of a Silt page under the page's key (R383, R417). -/
def siltGet (s : State) (sp : BitVec 6) (key : BitVec 8) (a n : Nat) : Except (BitVec 8) Nat :=
  if key == 0 then s.siltBytes a n
  else match s.keySlot sp key with
    | none => .error 0x28
    | some ks => (s.siltPlain ks (a / 128)).map fun d => d.toNat / 2 ^ (8 * (a % 128)) % 2 ^ (8 * n)
/-- After a write in a Silt block: watches on counters in it (R306), token waiters of its lines (R319). -/
def afterSiltWrite (s : State) (a n : Nat) : State :=
  let s := s.meetWatches fun w => if w.gpa / 4096 == a / 4096 then (s.siltGet w.space w.key w.gpa 8).toOption else none
  ((List.range ((a % 128 + n + 127) / 128)).map (a / 128 + ·)).foldl wakeTokens s
/-- Write n bytes at a Silt address within a block: decode, modify, re-encode (R417). -/
def siltPut (s : State) (a n v : Nat) : Except (BitVec 8 × State) State :=
  let off := localOf a - 0x2000000000000
  match s.siltRegion off with
  | none => .error (0x2D, s)
  | some (r, blk) =>
    match s.siltRead r blk with
    | .error e => .error (e, s)
    | .ok b =>
      let m : Block := BitVec.ofNat 32768 ((2 ^ (8 * n) - 1) * 2 ^ (8 * (off % 4096)))
      (s.siltWrite r blk ((b &&& ~~~m) ||| (BitVec.ofNat 32768 (v % 2 ^ (8 * n) * 2 ^ (8 * (off % 4096)))))).map
        fun s => s.afterSiltWrite a n
/-- Store a line's ciphertext with its tag in a Silt block (R383, R384). -/
def siltCipher (s : State) (l : Nat) (c : BitVec 1024) (tag : BitVec 64) : Except (BitVec 8 × State) State :=
  match ({ s with homes := { s.homes with tags := tset s.homes.tags l tag } } : State).siltPut (128 * l) 128 c.toNat with
  | .ok t => .ok t
  | .error (e, t) => .error (e, { t with homes := { t.homes with tags := s.homes.tags } })
/-- Write n bytes within a line of a Silt page under the page's key: the line is decrypted, merged and encrypted whole (R384, R417). -/
def siltSet (s : State) (sp : BitVec 6) (key : BitVec 8) (a n v : Nat) : Except (BitVec 8 × State) State :=
  if key == 0 then s.siltPut a n v
  else match s.keySlot sp key with
    | none => .error (0x28, s)
    | some ks =>
      let l := a / 128
      match (if n == 128 then .ok 0 else s.siltPlain ks l) with
      | .error e => .error (e, s)
      | .ok o =>
        let c := xtsEncrypt ks.k1 ks.k2 (128 * l)
          (mergeLine (byteMask (a % 128) n) o (lineValue (a % 128) (v % 2 ^ (8 * n))))
        s.siltCipher l c (lineTag ks.km (128 * l) c)

end State

end Sys2Proof.Machine
end

