-- ==== Sys2Proof/Machine/Ops.lean ====
section
/-! DEFINITION. The operations every meaning shares: writing registers after a latency (R37, R93, R96, R97), bundle time
(R36), the drain (R333), the matrix steps that follow bundle time (R165, R166), taking a trap (R330, R331) and returning
from one (R134), holding a bundle, and translation (R346 to R350). -/

namespace Sys2Proof.Machine

/-- A cause code that is unassigned (R452): no event writes it anywhere. -/
def State.unassigned (c : BitVec 8) : Bool :=
  [(0x0D, 0x1F), (0x27, 0x27), (0x2A, 0x2A), (0x2E, 0x3F), (0x49, 0x5F), (0x64, 0x7F), (0x86, 0x8F), (0x94, 0x9F), (0xA5, 0xAF),
   (0xB6, 0xDF), (0xE2, 0xEF)].any fun (lo, hi) => lo ≤ c.toNat && c.toNat ≤ hi

/-! Landing writes. -/

/-- Write the special registers that `swr` reaches (R127, R128, R130 to R132). A write to TXFER drops the DRAIN of the transfer
that it held: TXFER has no field for it, and R78 and R131 do not say (DESIGN CHOICE, log 40). -/
def Context.putSr (c : Context) (n : Nat) (d : Dbl) : Context :=
  match n with
  | 0x018 => { c with stoch := if d == 0 then 1 else d }
  | 0x019 => { c with vrot := d.setWidth 5, krot := (d >>> 8).setWidth 3 }
  | 0x020 =>
    if c.id.mown then
      { c with mat := { c.mat with mopx := c.mat.mopx && !d.getLsbD 1, sat := c.mat.sat && !d.getLsbD 0 } }
    else c
  | 0x030 => { c with trap := { c.trap with tcause := d &&& 0xFF } }
  | 0x031 => { c with trap := { c.trap with tinfo0 := d } }
  | 0x032 => { c with trap := { c.trap with tinfo1 := d } }
  | 0x033 => { c with trap := { c.trap with tinfo2 := d } }
  | 0x034 => { c with trap := { c.trap with tinfo3 := d } }
  | 0x035 => { c with trap := { c.trap with tpc := d } }
  | 0x036 => { c with trap := { c.trap with txfer := d &&& 0x83FFFFFFFFFFFFFF, xsrc := none, xdrain := false } }
  | 0x100 => { c with sscratch := c.sscratch.set 0 d }
  | 0x101 => { c with sscratch := c.sscratch.set 1 d }
  | 0x102 => { c with sscratch := c.sscratch.set 2 d }
  | 0x103 => { c with sscratch := c.sscratch.set 3 d }
  | _ => c

/-- The A latch after an `mgath`: rows and scales of lanes that were not present keep what they held (R172). -/
def gatherOver (old new : Latch) : Latch :=
  if new.mask == BitVec.allOnes 64 then new
  else
    let rows : Block := BitVec.ofNat 32768 ((List.range 64).foldr (fun i n => (if new.mask.getLsbD i then 2 ^ 512 - 1 else 0) + 2 ^ 512 * n) 0)
    let sg : BitVec 512 := BitVec.ofNat 512 (spreadMask 64 new.mask.toNat)
    { new with data := (new.data &&& rows) ||| (old.data &&& ~~~rows), scale := (new.scale &&& sg) ||| (old.scale &&& ~~~sg) }
/-- Land one write; x0, q0 and k0 discard theirs (R96). -/
def Context.land (c : Context) : Write → Context
  | .x r d => if r == 0 then c else { c with x := c.x.set r.toNat d }
  | .q r d => if r == 0 then c
    else { c with q := (c.q &&& ~~~(1#8 <<< r.toNat)) ||| (if d then 1#8 <<< r.toNat else 0) }
  | .b r d => { c with b := c.b.set r.toNat d }
  | .v r m d =>
    if m == BitVec.allOnes 64 then { c with v := c.v.set r.toNat d }
    else
      let k := laneSelect m
      { c with v := c.v.set r.toNat ((d &&& k) ||| (c.v[r.toNat] &&& ~~~k)) }
  | .k r d => if r == 0 then c else { c with k := c.k.set r.toNat d }
  | .w r d => { c with w := c.w.set r.toNat d }
  | .rot v k => { c with vrot := v, krot := k }
  | .sr n d => c.putSr n d
  | .latchA l => { c with latchA := gatherOver c.latchA l }
  | .mopx => { c with mat := { c.mat with mopx := true } }

/-- What lands at bundle time t, in program order: every due write of its own path, and of the shared path the
earliest due one (R97). `took` says the shared path has landed one. -/
def landDue (t : Nat) : Bool → List Pending → Context → Context × List Pending
  | _, [], c => (c, [])
  | took, p :: r, c =>
    if p.due ≤ t && !(p.shared && took) then landDue t (took || p.shared) r (c.land p.write)
    else
      let (c', r') := landDue t took r c
      (c', p :: r')
/-- Land what is due at bundle time t (R37, R93). -/
def Context.landAt (c : Context) (t : Nat) : Context :=
  let (c', r) := landDue t false c.pending { c with pending := [] }
  { c' with pending := r }
/-- Land everything, bundle time by bundle time from t, as empty bundles would (R333). -/
def drainFrom (t : Nat) : Nat → Context → Context
  | 0, c => c
  | n + 1, c => if c.pending.isEmpty then c else drainFrom (t + 1) n (c.landAt t)
/-- How many bundle times a drain takes at most. -/
def drainFuel (c : Context) : Nat :=
  c.pending.foldl (fun m p => max m (p.due - c.btime)) 0 + c.pending.length + 1

/-! The matrix engine's steps (R164 to R167). -/

/-- Bits of a vector's slice as a number: element size e bytes at byte o of a block. -/
def blockElem (b : Block) (o e : Nat) : Nat := (b.extractLsb' (8 * o) (8 * e)).toNat
/-- K depth of a format code 0 i8, 1 d8, 2 bf, 3 f32 (R164). -/
def kDepth (fmt : BitVec 2) : Nat := match fmt.toNat with | 0 | 1 => 64 | 2 => 32 | _ => 16
/-- The K indices that step s takes (R164). -/
def stepKs (fmt : BitVec 2) (s : Nat) : List Nat :=
  match fmt.toNat with
  | 0 | 1 => [2 * s, 2 * s + 1]
  | 2 => [s]
  | _ => if s % 2 == 0 then [s / 2] else []
/-- The value of K element k of row (or column) i of a latch (R162, R166). -/
def latchVal (l : Latch) (fmt : BitVec 2) (i k : Nat) : Val :=
  match fmt.toNat with
  | 0 => .ofInt ((l.data.extractLsb' (8 * (64 * i + k)) 8).toInt)
  | 1 => d8Val (blockElem l.data (64 * i + k) 1) ((l.scale.extractLsb' (8 * i) 8).toInt)
  | 2 => floatVal fbBf (blockElem l.data (64 * i + 2 * k) 2)
  | _ => floatVal fbF32 (blockElem l.data (64 * i + 4 * k) 4)
/-- The identity term of an operation, already combined (R65). -/
def identityTerm : CellOp → Val
  | .mac | .ada => .fin false ⟨0, 1⟩
  | .mxp => .inf true
  | .mnp => .inf false
/-- One term of an operation (R64). -/
def cellTerm (op : CellOp) (a b : Val) : Val :=
  match op with
  | .mac => a.mul b
  | .ada => (a.sub b).abs
  | .mxp | .mnp => a.add b
/-- Combine an accumulator with a term (R64). -/
def cellCombine (op : CellOp) (acc t : Val) : Val :=
  match op with
  | .mac | .ada => acc.add t
  | .mxp => acc.max t
  | .mnp => acc.min t
/-- The sum or extreme of a cycle's terms with the accumulator, exact (R64, R65): an i40 accumulator is unchanged by an
identity. -/
def cellExact (op : CellOp) (acc : Val) (terms : List Val) : Val := terms.foldl (cellCombine op) acc
/-- The value of an accumulator element (R160). -/
def accVal (kind : AccKind) (bits : BitVec 40) : Val :=
  if kind == .i40 then .ofInt bits.toInt else floatVal fbF40 bits.toNat
/-- Round into the accumulator: the bits, and whether sat_i40 clamped (R63, R67). -/
def accRound (kind : AccKind) (v : Val) : BitVec 40 × Bool :=
  if kind == .i40 then
    match v with
    | .fin _ q => let i := q.n / q.d; (BitVec.ofInt 40 (satSigned 40 i), satSigned 40 i != i)
    | .inf s => (BitVec.ofInt 40 (satSigned 40 (if s then -(2 ^ 60) else 2 ^ 60)), true)
    | .nan => (0, false)
  else (BitVec.ofNat 40 (rndBits fbF40 .rne v), false)
/-- An accumulator element. -/
def accElem (d : BitVec 163840) (i j : Nat) : BitVec 40 := d.extractLsb' (40 * (64 * i + j)) 40
/-- Assemble 4,096 elements of 40 bits. -/
def packAcc : List (BitVec 40) → Nat
  | [] => 0
  | e :: r => e.toNat + 2 ^ 40 * packAcc r
/-- One step of a cell (R166). -/
def cellStep (p : Pass) (a b : Latch) (i j : Nat) : BitVec 40 × Bool :=
  let old := accElem p.cells i j
  let ks := stepKs p.fmt p.step
  if ks.isEmpty then (old, false) else
  let terms := ks.map fun k =>
    if a.mask.getLsbD i && b.mask.getLsbD j && a.kmask.getLsbD k && b.kmask.getLsbD k then
      cellTerm p.op (latchVal a p.fmt i k) (latchVal b p.fmt j k)
    else identityTerm p.op
  let present := ks.any fun k => a.mask.getLsbD i && b.mask.getLsbD j && a.kmask.getLsbD k && b.kmask.getLsbD k
  if !present && p.kind == .i40 then (old, false)
  else
    let t := if p.kind == .i40 then terms.filter (fun v => match v with | .inf _ => false | _ => true) else terms
    accRound p.kind (cellExact p.op (accVal p.kind old) t)
/-- One step of a pass over all cells (R165, R166). -/
def Pass.advance (p : Pass) (a b : Latch) : Pass :=
  let cs := (List.range 4096).map fun n => cellStep p a b (n / 64) (n % 64)
  { p with cells := BitVec.ofNat 163840 (packAcc (cs.map Prod.fst)), sat := p.sat || cs.any Prod.snd, step := p.step + 1 }
/-- Perform the step of each running pass that this bundle time reaches: a pass has one step for each bundle time
after its issue until 32 are done (R165); in supervisor mode a task's pass is suspended (R169). -/
def Context.matrixSteps (c : Context) : Context :=
  { c with passes := c.passes.map fun p =>
      if !p.suspended && p.step < 32 then p.advance (p.shadow.getD c.latchA) c.latchB else p }
/-- What becomes of the passes at bundle time t (R165, R178): at its landing time a pass writes its tile; PDONE and SAT
change, and the pass is gone, one bundle time later, as `srd` sees it. -/
def landPasses (t : Nat) : List Pass → Context → Context × List Pass
  | [], c => (c, [])
  | p :: r, c =>
    if p.landed && p.landsAt < t then
      landPasses t r { c with mat := { c.mat with pdone := c.mat.pdone + 1, sat := c.mat.sat || p.sat } }
    else if p.step == 32 && !p.landed && p.landsAt ≤ t then
      let (c', r') := landPasses t r { c with acc := c.acc.set p.tile.toNat ⟨p.cells, p.kind⟩ }
      (c', { p with landed := true } :: r')
    else
      let (c', r') := landPasses t r c
      (c', p :: r')
def Context.landPassesAt (c : Context) (t : Nat) : Context :=
  let (c', r) := landPasses t c.passes c
  { c' with passes := r }
/-- Suspend the passes that still have steps and land those that have none left (R169): partial values go into the
tile. A pass in the shadow of an `mgath` goes on with the gathered rows (R172). -/
def Context.suspendPasses (c : Context) : Context :=
  let c := (c.landPassesAt (c.btime + 64)).landPassesAt (c.btime + 65)
  (c.passes.filter fun p => !p.suspended).foldl (fun c p =>
    { c with acc := c.acc.set p.tile.toNat ⟨p.cells, p.kind⟩ })
    { c with passes := c.passes.map fun p => { p with suspended := true, shadow := none } }
/-- Let suspended passes go on: cells reload from the tile, landing 7 bundle times after the last step (R169). -/
def Context.resumePasses (c : Context) : Context :=
  { c with passes := c.passes.map fun p =>
      if p.suspended then
        { p with suspended := false, cells := c.acc[p.tile.toNat].data, landsAt := c.btime + 38 - p.step }
      else p }

/-- Drain: every exposed result lands, that of an `mgath` with them, and no bundle time passes (R168, R333). -/
def Context.drain (c : Context) : Context :=
  let d := drainFrom (c.btime + 1) (drainFuel c) c
  { d with mat := { d.mat with mgathAt := none } }
/-- One bundle time passes: matrix steps, then what is due lands (R36, R37). -/
def Context.advance (c : Context) : Context :=
  let c := c.matrixSteps
  let c := { c with btime := c.btime + 1 }
  (c.landAt c.btime).landPassesAt c.btime
/-- n bundle times pass. -/
def Context.advanceN (c : Context) : Nat → Context
  | 0 => c
  | n + 1 => c.advance.advanceN n

namespace State

/-! Register writes. -/

/-- Queue a write that lands after `lat` bundle times on its own path (R93, R96). -/
def push (s : State) (lat : Nat) (w : Write) : State :=
  { s with cx := { s.cx with pending := s.cx.pending ++ [⟨s.cx.btime + lat, false, w⟩] } }
/-- Queue a vector write on the path that X, T and M share (R97). -/
def pushShared (s : State) (lat : Nat) (w : Write) : State :=
  { s with cx := { s.cx with pending := s.cx.pending ++ [⟨s.cx.btime + lat, true, w⟩] } }
def wx (s : State) (lat : Nat) (r : BitVec 5) (d : Dbl) : State := s.push lat (.x r d)
def wq (s : State) (lat : Nat) (r : BitVec 3) (d : Bool) : State := s.push lat (.q r d)
/-- A vector result of a V word, with the lanes it writes (R137). -/
def wv (s : State) (lat : Nat) (n : BitVec 6) (lanes : BitVec 64) (d : VReg) : State :=
  s.push lat (.v (physV n s.cx.vrot) lanes d)
/-- A vector result of an X, T or M word (R97). -/
def wvShared (s : State) (lat : Nat) (n : BitVec 6) (lanes : BitVec 64) (d : VReg) : State :=
  s.pushShared lat (.v (physV n s.cx.vrot) lanes d)
def wk (s : State) (lat : Nat) (n : BitVec 4) (d : BitVec 64) : State := s.push lat (.k (physK n s.cx.krot) d)

/-! Holding a bundle. -/

/-- The word's bundle does not issue now: a stall (R94). -/
def stall (s : State) : State := { s with issue := { s.issue with verdict := .stall } }
/-- The word's task parks (R32). -/
def park (s : State) : State := { s with issue := { s.issue with verdict := .park } }

/-! Taking a trap (R330, R331). -/

/-- TXFER for a trap at this bundle: the transfer still pending (R125, R131). -/
def txferOf (x : Option Xfer) : Dbl :=
  match x with
  | some t => BitVec.ofNat 64 (2 ^ 63 + t.left % 4 * 2 ^ 56 + t.target.toNat)
  | none => 0
/-- TRAPVEC in task mode, TRAPVEC + 64 in supervisor mode (R331). -/
def trapTarget (s : State) : BitVec 56 :=
  if s.cx.mode == .task then s.trapVec s.cx.id.space else s.trapVec s.cx.id.space + 64
/-- DEBUG_HALT for the context in `cx`, with the header address of its resume bundle (R72, R453). -/
def logHalt (s : State) : State := s.logCtx s.here 0xE0 ((s.cx.pc &&& ~~~3#56).setWidth 64) (s.cx.id.taskid.setWidth 64)
/-- Take a trap at the bundle in `issue`: drain and suspend, save cause, detail, TPC and TXFER, enter supervisor mode
at the trap vector (R331); a halt request or TRAPHALT halts before the first handler bundle (R343, R345). -/
def takeTrap (s : State) (f : FaultInfo) : State :=
  let s := s.entryReady s.cx.id.space
  let c := s.cx.drain.suspendPasses
  let why : BitVec 4 := if c.dbg.step then 3 else if c.dbg.haltReq then 1 else if c.dbg.trapHalt then 4 else 0
  let s' := { s with
    cx := { c with
      trap := ⟨f.cause.setWidth 64, f.i0, f.i1, f.i2, f.i3, s.issue.pc.setWidth 64, txferOf c.xfer,
        c.xfer.bind Xfer.source, c.xfer.elim false Xfer.drain⟩,
      mode := .supervisor,
      pc := s.trapTarget,
      xfer := none,
      atVector := true,
      parked := none, push := none, served := none, timedOut := false, fault := none, waitSince := none, late := none,
      dbg := if why == 0 then c.dbg
        else { c.dbg with halted := true, haltReq := false, step := false, reason := why } },
    issue := { s.issue with verdict := .trap } }
  if why == 1 || why == 3 then s'.logHalt else s'
/-- A trap with a cause and TINFO0, TINFO1. -/
def trap (s : State) (cause : BitVec 8) (i0 : Dbl := 0) (i1 : Dbl := 0) (i2 : Dbl := 0) (i3 : Dbl := 0) : State :=
  s.takeTrap ⟨cause, i0, i1, i2, i3⟩

/-! Returning from a trap (R134). -/

/-- The pending transfer that TXFER holds (R131). LEFT is the delay bundles left; a LEFT of 3, which only a program writes and R131
gives no meaning, is three of them (DESIGN CHOICE, log 40). -/
def xferOf (t : TrapRegs) : Option Xfer :=
  if t.txfer.getLsbD 63 then some ⟨t.txfer.setWidth 56, ((t.txfer >>> 56).setWidth 2).toNat, t.xsrc, t.xdrain⟩ else none
/-- Leave supervisor mode for `pc` with a pending transfer: what was issued has landed; suspended passes go on from
the next bundle time (R134, R169, `retire`). -/
def leaveTo (s : State) (pc : BitVec 56) (x : Option Xfer) : State :=
  let c := s.cx.drain
  { s with
    cx := { c with mode := .task, pc := pc, xfer := x }
    issue := { s.issue with resumed := true } }

/-! The words of the bundle. -/

/-- A performed word has its effect; a word whose predicate is false is inert (R82, R98). -/
def perform (s : State) (p : Pred) (f : State → State) : Host.Outcome State Fault Refusal :=
  .next (if s.holds p then f s else s)

/-- Where a context goes after the bundle before `seq`: the sequential bundle while delay bundles are left, then the
target of a pending transfer (R119). A drain asked for by the transfer comes before the target (R78). -/
def stepPast (c : Context) (seq : BitVec 56) : Context :=
  match c.xfer with
  | some x =>
    if 2 ≤ x.left then { c with pc := seq, xfer := some { x with left := x.left - 1 } }
    else if x.left == 1 then { c with pc := x.target, xfer := some { x with left := 0 }, draining := x.drain }
    else { c with pc := seq, xfer := none }
  | none => { c with pc := seq }
/-- The header address after the bundle in `issue` (R72). -/
def seqPc (s : State) : BitVec 56 := s.issue.pc + BitVec.ofNat 56 s.issue.len
/-- The bundle has issued: bundle time advances, and the next bundle is the sequential one, the target of a pending
transfer, or the one a return chose (R36, R119). A transfer made beside a `tret` that returns is dropped: the bundles after it do
not issue (R134; DESIGN CHOICE, log 40). -/
def retire (s : State) : State :=
  let c := s.cx.advance
  let c :=
    if s.issue.resumed then c.resumePasses
    else match s.issue.transfer with
      | some t => { c with pc := s.seqPc, xfer := some ⟨t, 2, some s.issue.pc, s.issue.drain⟩ }
      | none => stepPast c s.seqPc
  { s with cx := { c with atVector := false }, issue := { s.issue with transfer := none, resumed := false } }

end State

/-! Translation (R346 to R350). -/

/-- The access kinds of TINFO2 (R331). -/
inductive Access where
  | read | write | fetch | atomic | fill | walk | writeback
  deriving DecidableEq, Repr
def accessCode : Access → Nat
  | .read => 0 | .write => 1 | .fetch => 2 | .atomic => 3 | .fill => 4 | .walk => 5 | .writeback => 6
def writes : Access → Bool
  | .write | .atomic | .writeback => true
  | _ => false

/-- The memory and translation causes (R331). -/
def memoryCause (c : BitVec 8) : Bool := c.toNat / 16 == 2

namespace State

/-- The detail of a memory cause (R331): address, slot, kind and level, last entry. Of the causes that are not memory
causes, such as PEER_DEAD (R374), the rules give the address alone. -/
def memFault (s : State) (cause : BitVec 8) (va : Dbl) (kind level : Nat) (entry : Dbl) : FaultInfo :=
  if memoryCause cause then ⟨cause, 0, va, BitVec.ofNat 64 (s.issue.slot % 8 + 16 * kind + 256 * level), entry⟩
  else ⟨cause, 0, va, 0, 0⟩
/-- The detail of a failure found after issue, as the trap of the word that meets it gives it: the slot of a memory cause
is that of the word in the faulting bundle (R331, R332; log 19). -/
def atSlot (s : State) (f : FaultInfo) : FaultInfo :=
  if memoryCause f.cause then { f with i2 := (f.i2 &&& ~~~7) ||| BitVec.ofNat 64 (s.issue.slot % 8) } else f

/-- The leaf size exponent of a level (R346). -/
def leafBits (level : Nat) : Nat := 16 + 10 * level
/-- A pointer's reserved bits are 0, and it is not at level 0 (R346). -/
def pointerOk (level : Nat) (e : Dbl) : Bool := level != 0 && e.extractLsb' 60 4 == 0 && e.extractLsb' 1 12 == 0
/-- A leaf is well-formed: W needs R, reserved and alignment bits 0, Silt frames match C, and the level allows a leaf
(R346, R412). -/
def leafOk (level : Nat) (e : Dbl) : Bool :=
  let frame := e.toNat / 2 ^ 16 % 2 ^ 44 * 2 ^ 16
  let silt := windowOf (localOf frame) == .silt
  level != 3 && e.extractLsb' 60 4 == 0 && (e.getLsbD 1 || !e.getLsbD 2)
    && frame % 2 ^ leafBits level == 0 && (e.getLsbD 5 == silt)
/-- Read n bytes within a line as an engine's `.b` read, at their home on whatever device, in any window that holds memory (R243,
R347, R374, R417). While it must wait, the action that it serves is given up (`settleWaits`), and what it answers here counts for
nothing. -/
def homeGet (s : State) (sp : BitVec 6) (key : BitVec 8) (a n : Nat) : State × Except (BitVec 8) Nat :=
  if !s.ownDevice a then
    let (s, r) := s.awayLine sp key (a / 128)
    (s, r.map fun d => d.toNat / 2 ^ (8 * (a % 128)) % 2 ^ (8 * n))
  else match windowOf (localOf a) with
    | .control | .hole => (s, .error 0x2D)
    | .silt => if s.lineLocked (a / 128) then (s.waitFor (.lock (a / 128)), .error 0) else (s, s.siltGet sp key a n)
    | _ =>
      match s.lineReady (a / 128) false sp with
      | (s, true) => s.homeBytes sp key a n
      | (s, false) => (s, .error 0)
/-- Read a page-table entry at its home (R347). -/
def tableRead (s : State) (a : Nat) : State × Except (BitVec 8) Nat := s.homeGet 0 0 a 8
/-- Walk from a level down: the leaf with its level and home address (R346, R347). `last` is the entry read before (TINFO3 of an
entry that cannot be read). -/
def walk (s : State) (va : Dbl) (kind : Access) (last : Dbl) : Nat → Nat → State × Except FaultInfo (Nat × Nat × Dbl)
  | 0, table =>
    let a := table + 8 * (va.toNat / 2 ^ 16 % 1024)
    match s.tableRead a with
    | (s, .error e) => (s, .error (s.memFault e va (if e == 0x26 then 5 else accessCode kind) 0 last))
    | (s, .ok v) =>
      let e := BitVec.ofNat 64 v
      if !e.getLsbD 0 then (s, .error (s.memFault 0x20 va (accessCode kind) 0 e))
      else if e.extractLsb' 1 3 == 0 then (s, .error (s.memFault 0x20 va (accessCode kind) 0 e))
      else if !leafOk 0 e then (s, .error (s.memFault 0x20 va (accessCode kind) 0 e))
      else (s, .ok (0, a, e))
  | level + 1, table =>
    let a := table + 8 * (va.toNat / 2 ^ leafBits (level + 1) % 1024)
    match s.tableRead a with
    | (s, .error e) => (s, .error (s.memFault e va (if e == 0x26 then 5 else accessCode kind) (level + 1) last))
    | (s, .ok v) =>
      let e := BitVec.ofNat 64 v
      if !e.getLsbD 0 then (s, .error (s.memFault 0x20 va (accessCode kind) (level + 1) e))
      else if e.extractLsb' 1 3 == 0 then
        if pointerOk (level + 1) e then s.walk va kind e level (e.toNat / 2 ^ 13 % 2 ^ 47 * 2 ^ 13)
        else (s, .error (s.memFault 0x20 va (accessCode kind) (level + 1) e))
      else if !leafOk (level + 1) e then (s, .error (s.memFault 0x20 va (accessCode kind) (level + 1) e))
      else (s, .ok (level + 1, a, e))

/-- A cached leaf for an address (R349). -/
def tlbFind (t : List TlbEntry) (sp : BitVec 6) (va : Nat) : Option TlbEntry :=
  t.find? fun e => e.space == sp && e.base == va / 2 ^ e.size
/-- Put a leaf first in a TLB, replacing its own older entry; a set of `ways` entries that is full loses its oldest (R349; the
set of an entry and the choice: log 9). -/
def tlbPut (t : List TlbEntry) (sets ways : Nat) (e : TlbEntry) : List TlbEntry :=
  let rest := t.filter fun o => !(o.space == e.space && o.base == e.base && o.size == e.size)
  let mine := rest.filter fun o => o.base % sets == e.base % sets
  e :: (if mine.length < ways then rest else match mine.getLast? with | some o => rest.filter (· != o) | none => rest)
/-- A permission is missing: the cause (R347 order 4). -/
def permission (e : Dbl) : Access → Option (BitVec 8)
  | .read | .fill | .walk => if e.getLsbD 1 then none else some 0x21
  | .write | .writeback => if e.getLsbD 2 then none else some 0x22
  | .fetch => if e.getLsbD 3 then none else some 0x23
  | .atomic => if !e.getLsbD 1 then some 0x21 else if e.getLsbD 2 then none else some 0x22
/-- Store a leaf in the TLBs an access uses: the core's L1 (unless a cluster engine translates) and the cluster's L2. -/
def tlbStore (s : State) (core : Option Nat) (cl : Nat) (e : TlbEntry) : State :=
  let s := match core with
    | some n => let c := s.core n; s.setCore n { c with tlb := tlbPut c.tlb 1 128 e }
    | none => s
  let c := s.cluster cl
  s.setCluster cl { c with tlb := tlbPut c.tlb 1024 8 e }
/-- An atomic OR of A, and D for a write, into a leaf at its home, which revokes the grants of its page; another device's home is
sent it (R347, R378). -/
def orAD (s : State) (a : Nat) (w : Bool) : State :=
  let bits := 0x40 + (if w then 0x80 else 0)
  if s.ownDevice a then
    match s.lineReady (a / 128) true 0 with
    | (s, false) => s
    | (s, true) =>
      if windowOf (localOf a) == .silt then
        match s.siltBytes a 8 with
        | .error _ => s
        | .ok old => match s.siltPut a 8 (old.lor bits) with | .ok s => s | .error (_, s) => s
      else match s.homeBytes 0 0 a 8 with
        | (s, .error _) => s
        | (s, .ok old) => match s.homePut 0 0 a 8 (old.lor bits) with | .ok s => s | .error _ => s
  else
    let f0 : Flit := s.flitTo 0x05 true a
    (s.send { f0 with inl := BitVec.ofNat 256 (3 + 2 ^ 8 * 8 + 2 ^ 64 * bits) } .plain).2
/-- Set A, and D for a write, in a leaf at its home (R347); the bundle being issued remembers it. -/
def setAD (s : State) (a : Nat) (e : Dbl) (w : Bool) : State × Dbl :=
  let e' := e ||| 0x40 ||| (if w then 0x80 else 0)
  if e' == e then (s, e)
  else
    let s := s.orAD a w
    ({ s with issue := { s.issue with marks := s.issue.marks ++ [(a, w)] } }, e')
/-- What a bundle's translations have set stays set when the bundle has no effect (R347). -/
def marked (s : State) (l : List (Nat × Bool)) : State :=
  let s := l.foldl (fun s (a, w) => s.orAD a w) s
  { s with issue := { s.issue with marks := l } }
/-- A translated access: global physical address, leaf size exponent and leaf. -/
structure Xlat where
  gpa : Nat
  leaf : Dbl
  deriving DecidableEq, Repr
/-- The checks of a leaf that a walk or a TLB gave: permission, then the key slot (R347 orders 4 and 5). -/
def leafCheck (s : State) (sp : BitVec 6) (va : Dbl) (kind : Access) (level : Nat) (e : Dbl) : Option FaultInfo :=
  match permission e kind with
  | some c => some (s.memFault c va (accessCode kind) level e)
  | none =>
    let key := e.extractLsb' 8 8
    if key == 0 then none
    else if key.toNat ≤ 8 && (s.keySlot sp key).isSome then none
    else some (s.memFault 0x28 va (accessCode kind) level e)
/-- An access whose leaf a TLB holds (R349): its checks, then D in the table for a first write. -/
def translateHit (s : State) (core : Option Nat) (cl : Nat) (sp : BitVec 6) (va : Dbl) (kind : Access) (e : TlbEntry) :
    State × Except FaultInfo Xlat :=
  match s.leafCheck sp va kind 15 e.leaf with
  | some f => (s, .error f)
  | none =>
    let need := writes kind && !e.leaf.getLsbD 7
    let s1 := if need then
        match (s.entryReady sp).walk va kind 0 3 (s.ptRoot (s.spaceEntry sp)) with
        | (s, .ok (_, a, _)) => s.setAD a e.leaf true |>.1
        | (s, .error _) => s
      else s
    let leaf := if writes kind then e.leaf ||| 0xC0 else e.leaf ||| 0x40
    (s1.tlbStore core cl { e with leaf := leaf },
      .ok ⟨e.leaf.toNat / 2 ^ 16 % 2 ^ 44 * 2 ^ 16 + va.toNat % 2 ^ 56 % 2 ^ e.size, leaf⟩)
/-- What a walk gave an access: the checks of the leaf, then A and D in the table and the leaf in the TLBs (R347). -/
def walked (s : State) (core : Option Nat) (cl : Nat) (sp : BitVec 6) (va : Dbl) (kind : Access) (level a : Nat) (e : Dbl) :
    State × Except FaultInfo Xlat :=
  match s.leafCheck sp va kind level e with
  | some f => (s, .error { f with i2 := (f.i2 &&& ~~~0xF00) ||| 0xF00 })
  | none =>
    let (s, e) := s.setAD a e (writes kind)
    let k := leafBits level
    (s.tlbStore core cl ⟨sp, va.toNat % 2 ^ 56 / 2 ^ k, k, e⟩,
      .ok ⟨e.toNat / 2 ^ 16 % 2 ^ 44 * 2 ^ 16 + va.toNat % 2 ^ 56 % 2 ^ k, e⟩)
/-- A space has a table to walk: it is valid and its root is aligned (R24, R346). -/
def rootOk (s : State) (sp : BitVec 6) : Bool := s.spaceValid sp && s.ptRoot (s.spaceEntry sp) % 2 ^ 13 == 0
/-- An access whose leaf no TLB holds (R346, R347). The walk reads the space's entry as it stands. -/
def translateMiss (s : State) (core : Option Nat) (cl : Nat) (sp : BitVec 6) (va : Dbl) (kind : Access) :
    State × Except FaultInfo Xlat :=
  let s := s.entryReady sp
  if !s.rootOk sp then (s, .error (s.memFault 0x20 va (accessCode kind) 3 ((s.spaceEntry sp).extractLsb' 0 64)))
  else
    match s.walk va kind 0 3 (s.ptRoot (s.spaceEntry sp)) with
    | (s, .error f) => (s, .error f)
    | (s, .ok (level, a, e)) => s.walked core cl sp va kind level a e
/-- The leaf that the TLBs of an access hold for its address. It stays in use until TLBINV or another leaf displaces it (R350): while
software moves a page, accesses find the old frame here or the new one by a walk, and no event of the device moves a page (R411). -/
def tlbHit (s : State) (core : Option Nat) (cl : Nat) (sp : BitVec 6) (va : Dbl) : Option TlbEntry :=
  match core.bind fun n => tlbFind (s.core n).tlb sp (va.toNat % 2 ^ 56) with
  | some e => some e
  | none => tlbFind (s.cluster cl).tlb sp (va.toNat % 2 ^ 56)
/-- Translate an address of a space for one access (R346, R347, R349, R456). -/
def translate (s : State) (core : Option Nat) (cl : Nat) (sp : BitVec 6) (va : Dbl) (kind : Access) :
    State × Except FaultInfo Xlat :=
  match s.tlbHit core cl sp va with
  | some e => s.translateHit core cl sp va kind e
  | none => s.translateMiss core cl sp va kind
/-- Translate for the context in `cx`. -/
def xlat (s : State) (va : Dbl) (kind : Access) : State × Except FaultInfo Xlat :=
  s.translate (some s.hereCore) s.hereCluster s.cx.id.space va kind

end State

end Sys2Proof.Machine
end

