-- ==== Sys2Proof/Machine/Alu.lean ====
section
/-! DEFINITION. The scalar ALU group of the C and S slots (R108 to R116). -/

namespace Sys2Proof.Machine

/-- A two-operand result at the width W selects: 64 bits, or 32 bits sign-extended (R108). -/
def alu2 (w : Bool) (f64 : BitVec 64 → BitVec 64 → BitVec 64) (f32 : BitVec 32 → BitVec 32 → BitVec 32) (a b : Dbl) : Dbl :=
  if w then (f32 (a.setWidth 32) (b.setWidth 32)).signExtend 64 else f64 a b
/-- A one-operand result at the width W selects. -/
def alu1 (w : Bool) (f64 : BitVec 64 → BitVec 64) (f32 : BitVec 32 → BitVec 32) (a : Dbl) : Dbl :=
  if w then (f32 (a.setWidth 32)).signExtend 64 else f64 a
/-- The shift amount: xb[5:0], or xb[4:0] under W (R109). -/
def shiftAmt {w : Nat} (b : BitVec w) : Nat := b.toNat % w
def minI {w : Nat} (a b : BitVec w) : BitVec w := if b.slt a then b else a
def maxI {w : Nat} (a b : BitVec w) : BitVec w := if a.slt b then b else a
def minN {w : Nat} (a b : BitVec w) : BitVec w := if b.ult a then b else a
def maxN {w : Nat} (a b : BitVec w) : BitVec w := if a.ult b then b else a
/-- High half of the signed and unsigned products (R109). -/
def mulhI {w : Nat} (a b : BitVec w) : BitVec w := BitVec.ofInt w (a.toInt * b.toInt / 2 ^ w)
def mulhN {w : Nat} (a b : BitVec w) : BitVec w := BitVec.ofNat w (a.toNat * b.toNat / 2 ^ w)
/-- Division rounds towards zero; a zero divisor gives all ones and the dividend (R110). -/
def divI {w : Nat} (a b : BitVec w) : BitVec w :=
  if b == 0 then BitVec.allOnes w else BitVec.ofInt w (a.toInt.tdiv b.toInt)
def divN {w : Nat} (a b : BitVec w) : BitVec w := if b == 0 then BitVec.allOnes w else BitVec.ofNat w (a.toNat / b.toNat)
def remI {w : Nat} (a b : BitVec w) : BitVec w := if b == 0 then a else BitVec.ofInt w (a.toInt.tmod b.toInt)
def remN {w : Nat} (a b : BitVec w) : BitVec w := if b == 0 then a else BitVec.ofNat w (a.toNat % b.toNat)
/-- Count of leading zero bits among the n low bits of v. -/
def clzN (v : Nat) : Nat → Nat
  | 0 => 0
  | n + 1 => if v.testBit n then 0 else clzN v n + 1
/-- Count of one bits among the n low bits. -/
def popN (v : Nat) : Nat → Nat
  | 0 => 0
  | n + 1 => (if v.testBit n then 1 else 0) + popN v n
/-- The n low bits in reverse order. -/
def brevN (v : Nat) : Nat → Nat
  | 0 => 0
  | n + 1 => brevN (v / 2) n + (v % 2) * 2 ^ n
/-- The n low bytes in reverse order. -/
def bswapN (v : Nat) : Nat → Nat
  | 0 => 0
  | n + 1 => bswapN (v / 256) n + (v % 256) * 256 ^ n
def clzB {w : Nat} (a : BitVec w) : BitVec w := BitVec.ofNat w (clzN a.toNat w)
def ctzB {w : Nat} (a : BitVec w) : BitVec w := BitVec.ofNat w (clzN (brevN a.toNat w) w)
def popB {w : Nat} (a : BitVec w) : BitVec w := BitVec.ofNat w (popN a.toNat w)
def brevB {w : Nat} (a : BitVec w) : BitVec w := BitVec.ofNat w (brevN a.toNat w)
def bswapB {w : Nat} (a : BitVec w) : BitVec w := BitVec.ofNat w (bswapN a.toNat (w / 8))
/-- Field position and length of `ext` and `ins` (R111). -/
def fieldPos (b : Dbl) : Nat := b.toNat % 64
def fieldLen (b : Dbl) : Nat := min (b.toNat / 256 % 128) (64 - fieldPos b)
def extN (a b : Dbl) : Dbl := BitVec.ofNat 64 (a.toNat / 2 ^ fieldPos b % 2 ^ fieldLen b)
def extI (a b : Dbl) : Dbl :=
  if fieldLen b == 0 then 0 else (BitVec.ofNat (fieldLen b) (a.toNat / 2 ^ fieldPos b)).signExtend 64
def insF (d a b : Dbl) : Dbl :=
  let m : Dbl := BitVec.ofNat 64 ((2 ^ fieldLen b - 1) * 2 ^ fieldPos b)
  (d &&& ~~~m) ||| ((a <<< fieldPos b) &&& m)

/-- A scalar ALU result: xd := v after `lat` bundle times (R93, R108). -/
def aluResult (p : Pred) (lat : Nat) (d : BitVec 5) (v : State → Dbl) (s : State) : Host.Outcome State Fault Refusal :=
  s.perform p fun s => s.wx lat d (v s)

def execAdd (p : Pred) (d a b : BitVec 5) (w : Bool) (s : State) := aluResult p 1 d (fun s => alu2 w (· + ·) (· + ·) (s.rx a) (s.rx b)) s
def execSub (p : Pred) (d a b : BitVec 5) (w : Bool) (s : State) := aluResult p 1 d (fun s => alu2 w (· - ·) (· - ·) (s.rx a) (s.rx b)) s
def execAnd (p : Pred) (d a b : BitVec 5) (w : Bool) (s : State) := aluResult p 1 d (fun s => alu2 w (· &&& ·) (· &&& ·) (s.rx a) (s.rx b)) s
def execOr (p : Pred) (d a b : BitVec 5) (w : Bool) (s : State) := aluResult p 1 d (fun s => alu2 w (· ||| ·) (· ||| ·) (s.rx a) (s.rx b)) s
def execXor (p : Pred) (d a b : BitVec 5) (w : Bool) (s : State) := aluResult p 1 d (fun s => alu2 w (· ^^^ ·) (· ^^^ ·) (s.rx a) (s.rx b)) s
def execAndn (p : Pred) (d a b : BitVec 5) (w : Bool) (s : State) := aluResult p 1 d (fun s => alu2 w (fun x y => x &&& ~~~y) (fun x y => x &&& ~~~y) (s.rx a) (s.rx b)) s
def execShl (p : Pred) (d a b : BitVec 5) (w : Bool) (s : State) := aluResult p 1 d (fun s => alu2 w (fun x y => x <<< shiftAmt y) (fun x y => x <<< shiftAmt y) (s.rx a) (s.rx b)) s
def execShr (p : Pred) (d a b : BitVec 5) (w : Bool) (s : State) := aluResult p 1 d (fun s => alu2 w (fun x y => x >>> shiftAmt y) (fun x y => x >>> shiftAmt y) (s.rx a) (s.rx b)) s
def execSar (p : Pred) (d a b : BitVec 5) (w : Bool) (s : State) := aluResult p 1 d (fun s => alu2 w (fun x y => x.sshiftRight (shiftAmt y)) (fun x y => x.sshiftRight (shiftAmt y)) (s.rx a) (s.rx b)) s
def execRol (p : Pred) (d a b : BitVec 5) (w : Bool) (s : State) := aluResult p 1 d (fun s => alu2 w (fun x y => x.rotateLeft (shiftAmt y)) (fun x y => x.rotateLeft (shiftAmt y)) (s.rx a) (s.rx b)) s
def execMinI (p : Pred) (d a b : BitVec 5) (w : Bool) (s : State) := aluResult p 1 d (fun s => alu2 w minI minI (s.rx a) (s.rx b)) s
def execMaxI (p : Pred) (d a b : BitVec 5) (w : Bool) (s : State) := aluResult p 1 d (fun s => alu2 w maxI maxI (s.rx a) (s.rx b)) s
def execMinN (p : Pred) (d a b : BitVec 5) (w : Bool) (s : State) := aluResult p 1 d (fun s => alu2 w minN minN (s.rx a) (s.rx b)) s
def execMaxN (p : Pred) (d a b : BitVec 5) (w : Bool) (s : State) := aluResult p 1 d (fun s => alu2 w maxN maxN (s.rx a) (s.rx b)) s
def execMul (p : Pred) (d a b : BitVec 5) (w : Bool) (s : State) := aluResult p 3 d (fun s => alu2 w (· * ·) (· * ·) (s.rx a) (s.rx b)) s
def execMulhI (p : Pred) (d a b : BitVec 5) (w : Bool) (s : State) := aluResult p 3 d (fun s => alu2 w mulhI mulhI (s.rx a) (s.rx b)) s
def execMulhN (p : Pred) (d a b : BitVec 5) (w : Bool) (s : State) := aluResult p 3 d (fun s => alu2 w mulhN mulhN (s.rx a) (s.rx b)) s
def execDivI (p : Pred) (d a b : BitVec 5) (w : Bool) (s : State) := aluResult p 34 d (fun s => alu2 w divI divI (s.rx a) (s.rx b)) s
def execDivN (p : Pred) (d a b : BitVec 5) (w : Bool) (s : State) := aluResult p 34 d (fun s => alu2 w divN divN (s.rx a) (s.rx b)) s
def execRemI (p : Pred) (d a b : BitVec 5) (w : Bool) (s : State) := aluResult p 34 d (fun s => alu2 w remI remI (s.rx a) (s.rx b)) s
def execRemN (p : Pred) (d a b : BitVec 5) (w : Bool) (s : State) := aluResult p 34 d (fun s => alu2 w remN remN (s.rx a) (s.rx b)) s
def execClz (p : Pred) (d a : BitVec 5) (w : Bool) (s : State) := aluResult p 1 d (fun s => alu1 w clzB clzB (s.rx a)) s
def execCtz (p : Pred) (d a : BitVec 5) (w : Bool) (s : State) := aluResult p 1 d (fun s => alu1 w ctzB ctzB (s.rx a)) s
def execPopc (p : Pred) (d a : BitVec 5) (w : Bool) (s : State) := aluResult p 1 d (fun s => alu1 w popB popB (s.rx a)) s
def execBrev (p : Pred) (d a : BitVec 5) (w : Bool) (s : State) := aluResult p 1 d (fun s => alu1 w brevB brevB (s.rx a)) s
def execBswap (p : Pred) (d a : BitVec 5) (w : Bool) (s : State) := aluResult p 1 d (fun s => alu1 w bswapB bswapB (s.rx a)) s
def execSel (p : Pred) (d a b : BitVec 5) (w : Bool) (q : BitVec 3) (s : State) :=
  aluResult p 1 d (fun s => alu1 w id id (if s.rq q then s.rx a else s.rx b)) s
def execAdds (p : Pred) (d a b : BitVec 5) (w : Bool) (n : BitVec 6) (s : State) :=
  aluResult p 1 d (fun s => alu2 w (fun x y => x + (y <<< n.toNat)) (fun x y => x + (y <<< n.toNat)) (s.rx a) (s.rx b)) s
def execExtI (p : Pred) (d a b : BitVec 5) (s : State) := aluResult p 1 d (fun s => extI (s.rx a) (s.rx b)) s
def execExtN (p : Pred) (d a b : BitVec 5) (s : State) := aluResult p 1 d (fun s => extN (s.rx a) (s.rx b)) s
def execIns (p : Pred) (d a b : BitVec 5) (s : State) := aluResult p 1 d (fun s => insF (s.rx d) (s.rx a) (s.rx b)) s

def execCmp (p : Pred) (q : BitVec 3) (a b : BitVec 5) (w : Bool) (c : BitVec 3) (s : State) : Host.Outcome State Fault Refusal :=
  s.perform p fun s => s.wq 1 q (cmpCond c.toNat w (s.rx a) (s.rx b))

def execAddi (p : Pred) (d a : BitVec 5) (i : BitVec 12) (l : Option Word) (s : State) := aluResult p 1 d (fun s => s.rx a + immS i l) s
def execAndi (p : Pred) (d a : BitVec 5) (i : BitVec 12) (l : Option Word) (s : State) := aluResult p 1 d (fun s => s.rx a &&& immS i l) s
def execOri (p : Pred) (d a : BitVec 5) (i : BitVec 12) (l : Option Word) (s : State) := aluResult p 1 d (fun s => s.rx a ||| immS i l) s
def execXori (p : Pred) (d a : BitVec 5) (i : BitVec 12) (l : Option Word) (s : State) := aluResult p 1 d (fun s => s.rx a ^^^ immS i l) s
def execShli (p : Pred) (d a : BitVec 5) (i : BitVec 12) (l : Option Word) (s : State) := aluResult p 1 d (fun s => s.rx a <<< shiftAmt (immS i l)) s
def execShri (p : Pred) (d a : BitVec 5) (i : BitVec 12) (l : Option Word) (s : State) := aluResult p 1 d (fun s => s.rx a >>> shiftAmt (immS i l)) s
def execSari (p : Pred) (d a : BitVec 5) (i : BitVec 12) (l : Option Word) (s : State) := aluResult p 1 d (fun s => (s.rx a).sshiftRight (shiftAmt (immS i l))) s
def execCmpi (p : Pred) (c : BitVec 2) (q : BitVec 3) (a : BitVec 5) (i : BitVec 12) (l : Option Word) (s : State) : Host.Outcome State Fault Refusal :=
  s.perform p fun s => s.wq 1 q (cmpiCond c.toNat (s.rx a) (immS i l))
def execLi (p : Pred) (d : BitVec 5) (i : BitVec 12) (l : Option Word) (s : State) := aluResult p 1 d (fun _ => immS i l) s
/-- `lih` keeps xd[31:0] (R113). -/
def execLih (p : Pred) (d : BitVec 5) (i : BitVec 12) (l : Option Word) (s : State) :=
  aluResult p 1 d (fun s => (immS i l <<< 32) ||| (s.rx d &&& 0xFFFFFFFF)) s
def execQlog (p : Pred) (d a b : BitVec 3) (t : BitVec 4) (s : State) : Host.Outcome State Fault Refusal :=
  s.perform p fun s => s.wq 1 d (qlogBit t (s.rq a) (s.rq b))

end Sys2Proof.Machine
end

