-- ==== Sys2Proof/Machine/Cache.lean ====
section
/-! DEFINITION. Line caches and homes: accesses of a core to its own device's lines under each policy (R237 to R244, R253),
and the events of lines. -/

namespace Sys2Proof.Machine

/-- What performing an access comes to: a value, a wait for a locked line or another device (R258, R378), a transaction
whose completion ends the access, or a cause. -/
inductive Perf where
  | done (v : Nat)
  | wait
  | sent
  | fail (cause : BitVec 8)
  deriving DecidableEq, Repr

/-- Bytes o to o + n − 1 of a line as a number. -/
def lineBytes (d : BitVec 1024) (o n : Nat) : Nat := d.toNat / 2 ^ (8 * o) % 2 ^ (8 * n)
/-- A masked value written into a line. -/
def lineStore (d : BitVec 1024) (o n v : Nat) : BitVec 1024 := mergeLine (byteMask o n) d (lineValue o (v % 2 ^ (8 * n)))

namespace State

/-- A line cache may hold a line of the window (R410, R417, R455). -/
def cacheable (a : Nat) : Bool := match windowOf a with | .hbm | .pooled | .host => true | _ => false
/-- A tracked read miss at home (R239): the line as granted to a core, E when no core is listed and no other device holds the
page (R377). -/
def readMiss (s : State) (core : Nat) (k : PageKind) (l : Nat) : State × Except (BitVec 8) Line :=
  let s := s.recallTo l .s
  if !State.cacheable (localOf (128 * l)) || !s.backed (localOf (128 * l)) then (s, .error 0x2D)
  else match s.homePlain k.space k.key l with
    | .error e => (s, .error e)
    | .ok d =>
      let alone := (s.dirCores l).isEmpty && (s.grantOf (l / 512)).state == .none
      let ln : Line := ⟨l, true, if alone then .e else .s, BitVec.allOnes 128, 0, d, k.space, k.key⟩
      (((s.makeRoom core l).putLine core ln).setDir l (core :: (s.dirCores l).filter (· != core)), .ok ln)
/-- The line with every byte valid, read from home if needed (R239, R241). -/
def fillLine (s : State) (core : Nat) (k : PageKind) (l : Nat) : State × Except (BitVec 8) Line :=
  match s.lineOf core l with
  | some ln =>
    if ln.tracked then (s, .ok ln)
    else if ln.valid == BitVec.allOnes 128 then (s, .ok ln)
    else match s.homeLine k.space k.key l with
      | (s, .error e) => (s, .error e)
      | (s, .ok d) =>
        let ln := { ln with data := mergeLine ln.dirty d ln.data, valid := BitVec.allOnes 128 }
        (s.putLine core ln, .ok ln)
  | none =>
    if k.tracked then s.readMiss core k l
    else match s.homeLine k.space k.key l with
      | (s, .error e) => (s, .error e)
      | (s, .ok d) =>
        let ln : Line := ⟨l, false, .i, BitVec.allOnes 128, 0, d, k.space, k.key⟩
        ((s.makeRoom core l).putLine core ln, .ok ln)
/-- The core holds what a read of these bytes needs. -/
def readHit (s : State) (core : Nat) (a n : Nat) : Bool :=
  match s.lineOf core (a / 128) with
  | some ln => ln.tracked || ln.valid &&& byteMask (a % 128) n == byteMask (a % 128) n
  | none => false
/-- A line that `.s` does not retain (R243): an M line or dirty bytes go home, and the line is dropped. A refused merge gives
its cause (R457). -/
def dropStream (s : State) (core l : Nat) (u : TxnUse) : State × Perf :=
  match s.lineOf core l with
  | none => (s, .done 0)
  | some ln =>
    let mask := outMask ln
    let s := s.dropLine core l
    if mask == 0 then (s, .done 0)
    else
      let s := if ln.tracked then s.setDir l ((s.dirCores l).filter (· != core)) else s
      match s.mergeLineTo ln u with
      | (s, none) => (s, if s.ownDevice (128 * l) then .done 0 else .sent)
      | (s, some e) => (s, .fail e)
/-- Perform a read of n bytes within a line of this device (R243). -/
def readAt (s : State) (core : Nat) (k : PageKind) (p : Policy) (a n : Nat) : State × Perf :=
  let l := a / 128
  if p == .b then
    if s.lineLocked l then (s, .wait)
    else if s.grantBlocks (l / 512) false then (s.revokeFor (l / 512) false k.space, .wait)
    else match s.homeBytes k.space k.key a n with
      | (s, .ok v) => (s, .done v)
      | (s, .error e) => (s, .fail e)
  else
    match s.lineOf core l with
    | some ln =>
      if p == .s && s.mergeHeld ln then (s, .wait)
      else if s.readHit core a n then (s, .done (lineBytes ln.data (a % 128) n))
      else if s.lineLocked l then (s, .wait)
      else match s.fillLine core k l with
        | (s, .error e) => (s, .fail e)
        | (s, .ok ln) => (s, .done (lineBytes ln.data (a % 128) n))
    | none =>
      if s.lineLocked l || s.roomHeld core l then (s, .wait)
      else if k.tracked && s.grantBlocks (l / 512) false then (s.revokeFor (l / 512) false k.space, .wait)
      else match s.fillLine core k l with
        | (s, .error e) => (s, .fail e)
        | (s, .ok ln) => (s, .done (lineBytes ln.data (a % 128) n))
/-- Write into a line that the core may write, and drop it for `.s`; a line that is not in the cache waits for a way (R296). -/
def storeLine (s : State) (core : Nat) (p : Policy) (ln : Line) (a n v : Nat) (u : TxnUse) : State × Perf :=
  let m := byteMask (a % 128) n
  let d := lineStore ln.data (a % 128) n v
  if s.roomHeld core ln.line then (s, .wait)
  else
    let s := s.makeRoom core ln.line
    let s := if ln.tracked then (s.putLine core { ln with data := d, mesi := .m }).setDir ln.line [core]
      else s.putLine core { ln with mesi := .i, data := d, valid := ln.valid ||| m, dirty := ln.dirty ||| m }
    if p == .s then s.dropStream core ln.line u else (s, .done 0)
/-- The core's line in a state that allows a write without a message. -/
def ownedLine (s : State) (core l : Nat) : Option Line :=
  match s.lineOf core l with
  | some ln => if ln.tracked && (ln.mesi == .m || ln.mesi == .e) then some ln else none
  | none => none
/-- An untracked line to store into: the core's copy, or a fresh one without a valid byte (R241). -/
def looseLine (s : State) (core : Nat) (k : PageKind) (l : Nat) : Line :=
  match s.lineOf core l with
  | some ln => { ln with tracked := false, mesi := .i }
  | none => ⟨l, false, .i, 0, 0, 0, k.space, k.key⟩
/-- Perform a write of n bytes within a line of this device (R243). -/
def writeAt (s : State) (core : Nat) (k : PageKind) (p : Policy) (a n v : Nat) : State × Perf :=
  let l := a / 128
  let o := a % 128
  let v := v % 2 ^ (8 * n)
  let m := byteMask o n
  if p == .b then
    if s.lineLocked l then (s, .wait)
    else if s.grantBlocks (l / 512) true then (s.revokeFor (l / 512) true k.space, .wait)
    else if k.tracked then
      match s.homePut k.space k.key a n v with
      | .ok s => (s, .done 0)
      | .error e => (s, .fail e)
    else match s.homeWrite k.space k.key l m (lineValue o v) with
      | .error e => (s, .fail e)
      | .ok s => (s.copyPut core l m (lineValue o v), .done 0)
  else if k.tracked then
    match s.ownedLine core l with
    | some ln => s.storeLine core p ln a n v .plain
    | none =>
      if s.lineLocked l || s.roomHeld core l then (s, .wait)
      else if s.grantBlocks (l / 512) true then (s.revokeFor (l / 512) true k.space, .wait)
      else
        match ((s.recallTo l .s).invalidateOthers l (some core)).fillLine core k l with
        | (s, .error e) => (s, .fail e)
        | (s, .ok ln) => s.storeLine core p ln a n v .plain
  else if p == .s && s.lineLocked l then (s, .wait)
  else s.storeLine core p (s.looseLine core k l) a n v .plain

/-! Lines of other devices (R374, R378): cached here under a grant, or untracked. -/

/-- A copy of a tracked line in another core of this device. -/
def otherCopy (s : State) (core l : Nat) : Option Line :=
  (s.dirCores l).findSome? fun c => if c == core then none else (s.lineOf c l).bind fun ln => if ln.tracked then some ln else none
/-- A core takes a shared copy of a tracked line from another core of its device: an M copy is written back first (R239). -/
def shareLine (s : State) (core : Nat) (ln : Line) : State :=
  let s := (s.recallTo ln.line .s).makeRoom core ln.line
  (s.putLine core { ln with mesi := .s }).setDir ln.line (core :: (s.dirCores ln.line).filter (· != core))
/-- Perform a `.c` or `.s` read of another device's line. -/
def remoteRead (s : State) (core : Nat) (k : PageKind) (a n : Nat) : State × Perf :=
  let l := a / 128
  match (s.core core).failedFills.find? (·.1 == l) with
  | some (_, e) => (s.dropFailed core l, .fail e)
  | none =>
    match s.lineOf core l with
    | some ln => if s.readHit core a n then (s, .done (lineBytes ln.data (a % 128) n)) else (s.askLine core k l, .wait)
    | none =>
      match (if k.tracked then s.otherCopy core l else none) with
      | some ln =>
        if s.roomHeld core l then (s, .wait)
        else (s.shareLine core ln, .done (lineBytes ln.data (a % 128) n))
      | none => (s.askLine core k l, .wait)
/-- Perform a `.c` or `.s` write of another device's line; an `.s` merge ends by `u`. -/
def remoteWrite (s : State) (core : Nat) (k : PageKind) (p : Policy) (a n v : Nat) (u : TxnUse) : State × Perf :=
  let l := a / 128
  match (s.core core).failedFills.find? (·.1 == l) with
  | some (_, e) => (s.dropFailed core l, .fail e)
  | none =>
    if !k.tracked then s.storeLine core p (s.looseLine core k l) a n v u
    else match s.ownedLine core l with
      | some ln => s.storeLine core p ln a n v u
      | none =>
        if !s.holdsGrant (l / 512) true then (s.askGrant core k l true, .wait)
        else match (s.lineOf core l).orElse (fun _ => s.otherCopy core l) with
          | some ln => ((s.recallTo l .s).invalidateOthers l (some core)).storeLine core p ln a n v u
          | none => (s.askLine core k l, .wait)

/-- Bring a line to its home before an atomic (R253): copies of a tracked line are recalled and invalidated, the issuing
core's own untracked copy is written back and dropped. -/
def atomicRecall (s : State) (core : Option Nat) (k : PageKind) (l : Nat) : State :=
  if k.tracked then (s.recallTo l .s).invalidateOthers l none
  else match core with
    | some c => match s.lineOf c l with
      | some ln => (s.mergeOut c ln).dropLine c l
      | none => s
    | none => s
/-- Perform an atomic read-modify-write of n bytes at home: the old value (R253). `f` gives the new value, none to write
nothing. -/
def atomicAt (s : State) (core : Option Nat) (k : PageKind) (a n : Nat) (f : Nat → Option Nat) : State × Perf :=
  let l := a / 128
  if s.lineLocked l then (s, .wait)
  else if s.grantBlocks (l / 512) true then (s.revokeFor (l / 512) true k.space, .wait)
  else
    let s := s.atomicRecall core k l
    match s.homeBytes k.space k.key a n with
    | (s, .error e) => (s, .fail e)
    | (s, .ok old) =>
      match f old with
      | none => (s, .done old)
      | some v =>
        match s.homeWrite k.space k.key l (byteMask (a % 128) n) (lineValue (a % 128) (v % 2 ^ (8 * n))) with
        | .ok s => (s, .done old)
        | .error e => (s, .fail e)
/-- An atomic at home, in any window that holds memory (R253, R417). -/
def atomicHome (s : State) (core : Option Nat) (k : PageKind) (gpa n : Nat) (f : Nat → Option Nat) : State × Perf :=
  match windowOf (localOf gpa) with
  | .control | .hole => (s, .fail 0x2D)
  | .silt =>
    if s.lineLocked (gpa / 128) then (s, .wait)
    else match s.siltGet k.space k.key gpa n with
      | .error e => (s, .fail e)
      | .ok old =>
        match f old with
        | none => (s, .done old)
        | some v => match s.siltSet k.space k.key gpa n v with
          | .ok s => (s, .done old)
          | .error (e, s) => (s, .fail e)
  | _ => s.atomicAt core k gpa n f
/-- Write back a line by a range word (R259): the line kept clean, or dropped; `discard` drops untracked dirty bytes. A merge
toward another device ends by `u`; a merge into a locked line waits (R258). -/
def rangeLine (s : State) (core l : Nat) (keep discard : Bool) (u : TxnUse) : State × Perf :=
  match s.lineOf core l with
  | none => (s, .done 0)
  | some ln =>
    let mask := if discard && !ln.tracked then 0 else outMask ln
    let after (s : State) : State :=
      if keep then s.putLine core { ln with mesi := if ln.mesi == .m then .e else ln.mesi, dirty := 0 }
      else s.dropLine core l
    if mask == 0 then (after s, .done 0)
    else if s.mergeHeld ln then (s, .wait)
    else
      let s := if ln.tracked && !keep then s.setDir l ((s.dirCores l).filter (· != core)) else s
      match s.mergeLineTo ln u with
      | (s, none) => (after s, if s.ownDevice (128 * l) then .done 0 else .sent)
      | (s, some e) => (after s, .fail e)

/-! What engines read and write by themselves, as `.b` accesses of their own device, and the fault log's ring (R351 to R354). -/

/-- A line that comes in from another device: decrypted under the page's key, or the cause when the key is absent or its tag does not
match, which TAGFAIL of the link that it came by counts (R384, R390). -/
def ingress (s : State) (sp : BitVec 6) (key : BitVec 8) (l : Nat) (f : Flit) : State × Except (BitVec 8) (BitVec 1024) :=
  let raw : BitVec 1024 := f.data.setWidth 1024
  if key == 0 then (s, .ok raw)
  else match s.keySlot sp key with
    | none => (s, .error 0x28)
    | some ks =>
      if lineTag ks.km (128 * l) raw == f.aux then (s, .ok (xtsDecrypt ks.k1 ks.k2 (128 * l) raw))
      else
        let p := s.peer s.fab.link.toNat
        let n := if p.tagfail == BitVec.allOnes 32 then p.tagfail else p.tagfail + 1
        ((s.setPeer s.fab.link.toNat { p with tagfail := n }).logFab s.fab.link sp 0x84 0 0 n, .error 0x29)
/-- A load from a Silt page, at its block's home (R417). -/
def siltLoad (s : State) (sp : BitVec 6) (key : BitVec 8) (gpa n : Nat) : State × Perf :=
  if s.lineLocked (gpa / 128) then (s, .wait)
  else match s.siltGet sp key gpa n with
    | .error e => (s, .fail e)
    | .ok v => (s, .done v)
/-- Read n bytes within a line of this device. -/
def engineGet (s : State) (sp : BitVec 6) (key : BitVec 8) (a n : Nat) : State × Perf :=
  match windowOf (localOf a) with
  | .control | .hole => (s, .fail 0x2D)
  | .silt => s.siltLoad sp key a n
  | _ => s.readAt guestCore ⟨sp, key, true⟩ .b a n
/-- Write n bytes within a line, as the `.b` write of an engine, wherever their home is. -/
def enginePut (s : State) (sp : BitVec 6) (key : BitVec 8) (a n v : Nat) (u : TxnUse) : State × Perf :=
  if !s.ownDevice a then
    match s.sendMerge sp key (a / 128) (byteMask (a % 128) n) (lineValue (a % 128) (v % 2 ^ (8 * n))) u with
    | (s, none) => (s, .sent)
    | (s, some e) => (s, .fail e)
  else match windowOf (localOf a) with
    | .control | .hole => (s, .fail 0x2D)
    | .silt =>
      if s.lineLocked (a / 128) then (s, .wait)
      else match s.siltSet sp key a n v with
        | .ok s => (s, .done 0)
        | .error (e, s) => (s, .fail e)
    | _ => s.writeAt guestCore ⟨sp, key, true⟩ .b a n v
/-- Events of one cycle go by KIND, then by INDEX (R353). -/
def eventLe (a b : LogEvent) : Bool :=
  a.at_ < b.at_ || (a.at_ == b.at_ && (a.kind < b.kind || (a.kind == b.kind && a.index ≤ b.index)))
def insertEvent (e : LogEvent) : List LogEvent → List LogEvent
  | [] => [e]
  | x :: r => if eventLe x e then x :: insertEvent e r else e :: x :: r
/-- The 32 bytes of an entry (R352). -/
def eventBits (e : LogEvent) (seq : Dbl) : Nat :=
  seq.toNat + 2 ^ 64 * (e.cause.toNat + 2 ^ 8 * e.space.toNat + 2 ^ 16 * e.index + 2 ^ 28 * e.kind + 2 ^ 32 * e.count.toNat)
    + 2 ^ 128 * e.d0.toNat + 2 ^ 192 * e.d1.toNat
/-- An entry of a die's log is written: FLOGHEAD passes it (R353). -/
def logWritten (s : State) (die : Nat) : State :=
  let d := s.die die
  s.setDie die { d with seq := d.seq + 1, flogHead := d.flogHead + 1, logging := false }
/-- Give a die's events their SEQs in order and write them, or count them lost (R353, R354). A write that waits for a revoke or a
lock keeps it and the events after it; one on its way to another device keeps those after it until it has ended. One that the home
refuses uses up its place in the ring (DESIGN CHOICE, log 40). -/
def writeEvents (s : State) (die : Nat) : List LogEvent → State
  | [] => s
  | e :: r =>
    let d := s.die die
    let lg := d.flogCtl.toNat % 32
    let ok := d.flogCtl.getLsbD 8 && 6 ≤ lg && lg ≤ 16
    if ok && (d.flogHead - d.flogTail).toNat != 2 ^ lg then
      match s.enginePut 0 0 (d.flogBase.toNat % 2 ^ 60 + 32 * (d.flogHead.toNat % 2 ^ lg)) 32 (eventBits e d.seq)
          (.logged die) with
      | (s, .wait) => s.setDie die { s.die die with events := e :: r ++ (s.die die).events }
      | (s, .sent) => s.setDie die { s.die die with logging := true, events := r ++ (s.die die).events }
      | (s, _) => (s.logWritten die).writeEvents die r
    else
      let lost := min (d.flogStat.toNat % 2 ^ 32 + 1) (2 ^ 32 - 1)
      (s.setDie die { d with seq := d.seq + 1, flogStat := BitVec.ofNat 64 (lost + 2 ^ 32) }).writeEvents die r
/-- The cycle ends: every die's log takes the events presented in it. -/
def flushLogs (s : State) : State :=
  s.dies.foldl (fun s (n, d) =>
    if d.events.isEmpty || d.logging then s
    else (s.setDie n { s.die n with events := [] }).writeEvents n (d.events.foldl (fun l e => insertEvent e l) [])) s

end State

/-! The operation of an atomic (R254). -/

/-- The new value of an atomic of n bytes. -/
def atomicNew (op : AtomicOp) (n old : Nat) (b : Dbl) : Nat :=
  let w := 8 * n
  let o : BitVec 64 := BitVec.ofNat 64 old
  let x : BitVec 64 := b.setWidth 64 &&& BitVec.ofNat 64 (2 ^ w - 1)
  let sg := fun (v : BitVec 64) => if n == 4 then (v.setWidth 32).toInt else v.toInt
  match op with
  | .swap => x.toNat
  | .add => (o + x).toNat % 2 ^ w
  | .and => (o &&& x).toNat
  | .or => (o ||| x).toNat
  | .xor => (o ^^^ x).toNat
  | .minI => if sg x < sg o then x.toNat else old
  | .maxI => if sg o < sg x then x.toNat else old
  | .minN => min old x.toNat
  | .maxN => max old x.toNat
  | .fadd => rndBits fbF32 .rne ((floatVal fbF32 old).add (floatVal fbF32 x.toNat))

def amoCode : AtomicOp → Nat
  | .swap => 0 | .add => 1 | .and => 2 | .or => 3 | .xor => 4 | .minI => 5 | .maxI => 6 | .minN => 7 | .maxN => 8 | .fadd => 9

namespace State

/-- An engine's atomic on an 8-byte counter, at its home on whatever device (R34, R305, R308; payload: log 15). -/
def engineAtomic (s : State) (cl : Nat) (sp : BitVec 6) (va : Dbl) (op : AtomicOp) (x : Dbl) (u : TxnUse) : State × Perf :=
  match s.translate none cl sp va .atomic with
  | (s, .error f) => (s, .fail f.cause)
  | (s, .ok t) =>
    if s.ownDevice t.gpa then
      s.atomicHome none ⟨sp, t.leaf.extractLsb' 8 8, t.leaf.getLsbD 4⟩ t.gpa 8 (fun v => some (atomicNew op 8 v x))
    else if s.deviceLost (devOf t.gpa) then (s, .fail 0x80)
    else
      let f0 : Flit := s.flitTo 0x05 true t.gpa
      let f : Flit := { f0 with
        space := sp, key := t.leaf.extractLsb' 8 4, inl := BitVec.ofNat 256 (amoCode op + 2 ^ 8 * 8 + 2 ^ 64 * x.toNat) }
      ((s.send f u).2, .sent)

end State

/-! The events of lines. -/

/-- LINE_READ_MISS (R239): the home serves a tracked read miss of a core, once a grant of another device that stands in its way is
revoked (R378). The line's key is that of a copy another core holds, or none; a keyed line that no core holds is served by its own
access. The read of memory may meet an error (R420, R421). -/
def execLineReadMiss (core line : Nat) (s : State) : Host.Outcome State Fault Refusal :=
  let held := (s.dirCores line).findSome? fun c => s.lineOf c line
  let sp := held.elim 0 Line.space
  .next (if (s.lineOf core line).isSome || !s.ownDevice (128 * line) || !State.cacheable (localOf (128 * line)) || s.lineLocked line
      || s.roomHeld core line then s
    else if s.aliased (line / 512) true then s.logAlias (128 * line) sp
    else if s.grantBlocks (line / 512) false then s.revokeFor (line / 512) false sp
    else
      let s := s.lineErrors line
      match held with
      | some ln => if ln.tracked then (s.readMiss core ⟨ln.space, ln.key, true⟩ line).1 else s
      | none => if (s.homes.tags.any (·.1 == line)) then s else (s.readMiss core ⟨0, 0, true⟩ line).1)
/-- LINE_INVALIDATION (R240): a tracked line leaves the core, an M line written back first; a line not held is acknowledged
without effect. -/
def execLineInvalidation (core line : Nat) (s : State) : Host.Outcome State Fault Refusal :=
  .next (match s.lineOf core line with
    | some ln =>
      if ln.tracked then ((s.mergeOut core ln).dropLine core line).setDir line ((s.dirCores line).filter (· != core)) else s
    | none => s)
/-- An access of the core waits to bring a line into the set of a line: a queued write, a load's lane or a fill (R296). -/
def State.allocWanted (s : State) (core line : Nat) : Bool :=
  let new := fun (gpa : Nat) (p : Policy) =>
    p != .b && State.cacheable (localOf gpa) && gpa / 128 % 64 == line % 64 && (s.lineOf core (gpa / 128)).isNone
  let lanes := fun (f : Flight) => match f.kind with
    | .mem l op => if op.amo.isSome || op.cas then false else l.any fun (a : Lane) => new a.gpa op.policy
    | _ => false
  (s.core core).queue.any (fun (q : QueuedWrite) => new q.gpa q.policy)
    || (List.range 4).any (fun i => (s.ctx (4 * core + i)).flights.any lanes)
    || s.fab.txns.any fun x => match x.use_ with | .lineFill c l _ _ _ => c == core && new (128 * l) .c | _ => false
/-- LINE_EVICTION (R239, R241): a line leaves for an allocation, whose set has its 8 ways full (R296), unless its merge must
wait. -/
def execLineEviction (core line : Nat) (s : State) : Host.Outcome State Fault Refusal :=
  .next (match s.lineOf core line with
    | some ln =>
      if 8 ≤ (s.setLines core line).length && s.allocWanted core line && !s.mergeHeld ln then s.evictLine core ln else s
    | none => s)
/-- BYTE_MASK_MERGE (R242): the home merges the bytes of the mask; an unbacked line is not written, a locked one is held until it
is unlocked (R258). -/
def execByteMaskMerge (line : Nat) (mask : BitVec 128) (data : BitVec 1024) (s : State) : Host.Outcome State Fault Refusal :=
  .next (if s.lineLocked line then
      let f0 : Flit := s.flitTo 0x04 true (128 * line)
      let f : Flit := { f0 with space := 0, inl := mask.setWidth 256, data := data.setWidth 2048 }
      ({ s with homes := { s.homes with held := s.homes.held ++ [f] } } : State).wakeHeld
    else match s.homeWrite 0 0 line mask data with | .ok s => s | .error _ => s)
/-- HOST_SNOOP (R410): copies of a host-memory line are written back; an invalidating snoop drops them, another leaves them
shared. -/
def execHostSnoop (line : Nat) (inv : Bool) (s : State) : Host.Outcome State Fault Refusal :=
  .next (if windowOf (localOf (128 * line)) != .host then s
    else if inv then (s.recallTo line .s).invalidateOthers line none
    else s.recallTo line .s)

end Sys2Proof.Machine
end

