-- ==== Sys2Proof/Machine/Fetch.lean ====
section
/-! DEFINITION. Fetching the words of a bundle (R72, R73): each word is translated with fetch permission; local memory
is read at its home. -/

namespace Sys2Proof.Machine

/-- What a fetch gives. -/
inductive Fetched (α : Type) where
  | ok (a : α)
  | fault (f : FaultInfo)
  /-- A word on another device has been asked for and has not arrived (R374). -/
  | wait
  deriving Repr

namespace State

/-- The completion of a transaction: status in INLINE [255:248], value below it, an integrity tag in AUX (R358; payload:
log 15). -/
def completion (s : State) (f : Flit) (status : BitVec 8) (v : Nat) (tag : Dbl) (data : Nat) (len : BitVec 3) : Flit :=
  { type := 0x20, src := s.dev.devid, dst := f.src, tag := f.tag, ord := false, cz := f.cz, len := len,
    space := f.space, key := f.key, seq := 0, gpa := f.gpa, aux := tag,
    inl := BitVec.ofNat 256 (v % 2 ^ 248 + 2 ^ 248 * status.toNat), data := BitVec.ofNat 2048 data }
/-- Send the completion of a transaction and keep both in the source's duplicate window (R361). -/
def reply (s : State) (f : Flit) (status : BitVec 8) (v : Nat) (tag : Dbl := 0) (data : Nat := 0) (len : BitVec 3 := 0) : State :=
  let c := s.completion f status v tag data len
  let p := s.peer f.src.toNat
  (s.setPeer f.src.toNat { p with window := tset p.window f.tag.toNat (s.cycle, { f with data := 0 }, c) }).emit c

/-- Fetch one word of the context in `cx`. -/
def fetchWord (s : State) (va : BitVec 56) : State × Fetched Word :=
  let v : Dbl := va.setWidth 64
  match s.xlat v .fetch with
  | (s, .error f) => (s, .fault f)
  | (s, .ok t) =>
    let key := t.leaf.extractLsb' 8 8
    let bad := fun (s : State) e => (s, Fetched.fault (s.memFault e v 2 15 t.leaf))
    if !s.ownDevice t.gpa then
      if s.deviceLost (devOf t.gpa) then bad s 0x80
      else if windowOf (localOf t.gpa) == .silt then
        -- no line cache holds a line of a Silt page (R417)
        match s.homeGet s.cx.id.space key t.gpa 4 with
        | (s, .ok w) => (s, .ok (BitVec.ofNat 32 w))
        | (s, .error e) => bad s e
      else match s.lineOf s.hereCore (t.gpa / 128) with
        | some ln => (s, .ok (BitVec.ofNat 32 (ln.data.toNat / 2 ^ (8 * (t.gpa % 128)))))
        | none =>
          match (s.core s.hereCore).failedFills.find? (·.1 == t.gpa / 128) with
          | some (_, e) => bad (s.dropFailed s.hereCore (t.gpa / 128)) e
          | none =>
            if s.aliased (t.gpa / 65536) (t.leaf.getLsbD 4) then bad (s.logAlias t.gpa s.cx.id.space) 0x25
            else (s.askLine s.hereCore ⟨s.cx.id.space, key, t.leaf.getLsbD 4⟩ (t.gpa / 128), .wait)
    else match s.homeGet s.cx.id.space key t.gpa 4 with
      | (s, .ok w) => (s, .ok (BitVec.ofNat 32 w))
      | (s, .error e) => bad s e
/-- Fetch n words from an address upward: the lowest failing word's fault (R73). -/
def fetchWords (s : State) (va : BitVec 56) : Nat → State × Fetched (List Word)
  | 0 => (s, .ok [])
  | n + 1 =>
    match s.fetchWord va with
    | (s, .fault f) => (s, .fault f)
    | (s, .wait) => (s, .wait)
    | (s, .ok w) =>
      match s.fetchWords (va + 4) n with
      | (s, .ok ws) => (s, .ok (w :: ws))
      | r => r
/-- Fetch a bundle whole: header and words (R72, R73). -/
def fetchBundle (s : State) (pc : BitVec 56) : State × Fetched (Word × List Word) :=
  let pc := pc &&& ~~~3#56
  match s.fetchWord pc with
  | (s, .fault f) => (s, .fault f)
  | (s, .wait) => (s, .wait)
  | (s, .ok h) =>
    match s.fetchWords (pc + 4) (presentCount h) with
    | (s, .ok ws) => (s, .ok (h, ws))
    | (s, .fault f) => (s, .fault f)
    | (s, .wait) => (s, .wait)
/-- The address after a bundle whose words can all be fetched (R118, R134). -/
def bundleEnd (s : State) (pc : BitVec 56) : State × Fetched (BitVec 56) :=
  match s.fetchBundle pc with
  | (s, .ok (_, ws)) => (s, .ok ((pc &&& ~~~3#56) + BitVec.ofNat 56 (4 * (1 + ws.length))))
  | (s, .fault f) => (s, .fault f)
  | (s, .wait) => (s, .wait)

end State

end Sys2Proof.Machine
end

