-- ==== Sys2Proof/Machine/Control.lean ====
section
/-! DEFINITION. Control words of the C and S slots (R117 to R134) and the end of a pause. -/

namespace Sys2Proof.Machine
namespace State

/-- MSTAT as its owner reads it; 0 without ownership (R163). The current pass is the latest that has not landed. -/
def mstat (s : State) : Dbl :=
  if !s.cx.id.mown then 0 else
  let m := s.cx.mat
  let base := m.pdone.toNat * 2 ^ 16 + (if m.mopx then 2 else 0) + (if m.sat then 1 else 0)
  match s.cx.passes.getLast? with
  | none => BitVec.ofNat 64 base
  | some p =>
    let op := match p.op with | .mac => 0 | .ada => 1 | .mxp => 2 | .mnp => 3
    BitVec.ofNat 64 (base + p.fmt.toNat * 2 ^ 14 + op * 2 ^ 12 + p.tile.toNat * 2 ^ 10 + p.step * 2 ^ 4 + 4)
/-- Nanoseconds of the device clock: 5 in every 7 cycles (R128). -/
def nstime (s : State) : Dbl := s.dev.nsBase + BitVec.ofNat 64 ((s.cycle - s.dev.nsCycle.toNat) * 5 / 7)
/-- What `srd` samples (R127 to R132). -/
def srValue (s : State) (n : Nat) : Dbl :=
  match n with
  | 0x000 => s.cx.id.taskid.setWidth 64
  | 0x001 => s.cx.id.coord
  | 0x002 => BitVec.ofNat 64 (s.here % 4)
  | 0x003 => BitVec.ofNat 64 (s.here / 4 % 16)
  | 0x004 => BitVec.ofNat 64 (s.here / 64 % 16)
  | 0x005 => BitVec.ofNat 64 (s.here / 1024 % 4)
  | 0x006 => s.dev.devid.setWidth 64
  | 0x007 => s.cx.id.space.setWidth 64
  | 0x008 => s.cx.id.klass.setWidth 64
  | 0x010 => BitVec.ofNat 64 s.cx.btime
  | 0x011 => BitVec.ofNat 64 s.cycle
  | 0x012 => s.nstime
  | 0x018 => s.cx.stoch
  | 0x019 => s.cx.vrot.setWidth 64 ||| (s.cx.krot.setWidth 64 <<< 8)
  | 0x020 => s.mstat
  | 0x030 => s.cx.trap.tcause
  | 0x031 => s.cx.trap.tinfo0
  | 0x032 => s.cx.trap.tinfo1
  | 0x033 => s.cx.trap.tinfo2
  | 0x034 => s.cx.trap.tinfo3
  | 0x035 => s.cx.trap.tpc
  | 0x036 => s.cx.trap.txfer
  | 0x040 => if s.cx.mode == .supervisor then 1 else 0
  | 0x100 => s.cx.sscratch[0]
  | 0x101 => s.cx.sscratch[1]
  | 0x102 => s.cx.sscratch[2]
  | 0x103 => s.cx.sscratch[3]
  | _ => 0
/-- Registers that task mode may neither read nor write (R128). -/
def srPrivileged (n : Nat) : Bool := (0x030 ≤ n && n ≤ 0x036) || (0x100 ≤ n && n ≤ 0x103)
/-- The register number of `srd` and `swr`: imm12 unsigned, or the literal (R127). -/
def srNumber (imm : BitVec 12) (lit : Option Word) : Nat := match lit with | some l => l.toNat | none => imm.toNat

/-- Transfer to a target under R119; in a delay bundle of an earlier transfer, BRANCH_IN_DELAY with that transfer's
header (a free value where no transfer bundle made it: log 4). -/
def transferTo (s : State) (t : BitVec 56) : State :=
  match s.cx.xfer with
  | some x =>
    if x.left == 0 then { s with issue := { s.issue with transfer := some t } }
    else match x.source with
      | some a => s.trap 0x09 (a.setWidth 64)
      | none => let (v, s) := s.free; s.trap 0x09 ((v.setWidth 56).setWidth 64)
  | none => { s with issue := { s.issue with transfer := some t } }
/-- A transfer word would be performed inside a delay bundle. -/
def inDelay (s : State) : Bool := match s.cx.xfer with | some x => x.left != 0 | none => false
/-- The member ends once its interlocked operations have completed (R123). -/
def endMember (s : State) (entry : Bool) : State :=
  { s with cx := { s.cx with ending := true, entryTrap := entry } }.later 0 (.memberEnd s.here)
/-- A trap of R124: TINFO0 is the next sequential header. -/
def callOut (s : State) (cause : BitVec 8) (i1 : Dbl) : State := s.trap cause (s.seqPc.setWidth 64) i1
/-- Halt the context at the bundle boundary before `pc`: drain, suspend passes, log (R343, R453). -/
def haltAt (s : State) (reason : BitVec 4) (f : Context → Context) : State :=
  let c := s.cx.drain.suspendPasses
  { s with cx := f { c with dbg :=
      { c.dbg with halted := true, haltReq := false, step := false, reason := reason } } }.logHalt
/-- One paused cycle: bundle time advances by 1 (R126). -/
def napTick (s : State) : State := { s with cx := { s.cx.advance with nap := s.cx.nap - 1 } }

end State

/-- `pbr` (R117). -/
def execPbr (p : Pred) (b : BitVec 3) (o : BitVec 19) (lit : Option Word) (s : State) : Host.Outcome State Fault Refusal :=
  s.perform p fun s =>
    let off : Int := match lit with | some l => l.toInt | none => o.toInt
    s.push 2 (.b b (s.issue.pc + BitVec.ofInt 56 (4 * off)))
/-- `pbx` (R117). -/
def execPbx (p : Pred) (b : BitVec 3) (a : BitVec 5) (s : State) : Host.Outcome State Fault Refusal :=
  s.perform p fun s => s.push 2 (.b b ((s.rx a).setWidth 56))
/-- `br` (R118, R119). -/
def execBr (p : Pred) (b : BitVec 3) (s : State) : Host.Outcome State Fault Refusal :=
  s.perform p fun s => s.transferTo (s.rb b)
/-- `call`: the link is the header after the second delay bundle, whose words must be fetchable (R118). -/
def execCall (p : Pred) (d : BitVec 5) (b : BitVec 3) (s : State) : Host.Outcome State Fault Refusal :=
  s.perform p fun s =>
    if s.inDelay then s.transferTo (s.rb b) else
    match s.bundleEnd s.seqPc with
    | (s, .fault f) => s.takeTrap f
    | (s, .wait) => s.stall
    | (s, .ok e) =>
      match s.bundleEnd e with
      | (s, .fault f) => s.takeTrap f
      | (s, .wait) => s.stall
      | (s, .ok link) => (s.wx 1 d (link.setWidth 64)).transferTo (s.rb b)
/-- `loop` (R120). -/
def execLoop (p : Pred) (b : BitVec 3) (a : BitVec 5) (s : State) : Host.Outcome State Fault Refusal :=
  s.perform p fun s =>
    let n := s.rx a - 1
    if n != 0 && s.inDelay then s.transferTo (s.rb b) else
    let r := (s.wx 1 a n).push 1 (.rot (s.cx.vrot - 1) (s.cx.krot - 1))
    if n != 0 then r.transferTo (s.rb b) else r
/-- `vany` (R122). -/
def execVany (p : Pred) (d : BitVec 3) (a b : BitVec 4) (s : State) : Host.Outcome State Fault Refusal :=
  s.perform p fun s => s.wq 1 d (voteAny (s.rk a) (s.rk b))
/-- `vall` (R122). -/
def execVall (p : Pred) (d : BitVec 3) (a b : BitVec 4) (s : State) : Host.Outcome State Fault Refusal :=
  s.perform p fun s => s.wq 1 d (voteAll (s.rk a) (s.rk b))
/-- `tend` (R123). -/
def execTend (p : Pred) (s : State) : Host.Outcome State Fault Refusal := s.perform p fun s => s.endMember false
/-- `trap #n` (R124). -/
def execTrap (p : Pred) (c : BitVec 12) (lit : Option Word) (s : State) : Host.Outcome State Fault Refusal :=
  s.perform p fun s => s.callOut (0xF0 + BitVec.ofNat 8 (State.srNumber c lit)) 0
/-- `brk #c`: a trap, or a halt when a debugger asked for one (R124, R343). -/
def execBrk (p : Pred) (c : BitVec 12) (s : State) : Host.Outcome State Fault Refusal :=
  s.perform p fun s =>
    if s.cx.dbg.brkHalt then
      let h := s.haltAt 2 fun c => State.stepPast c s.seqPc
      { h with issue := { h.issue with verdict := .halt } }
    else s.callOut 0xE1 (c.setWidth 64)
/-- `nap` (R126). -/
def execNap (p : Pred) (a : BitVec 5) (i : BitVec 12) (lit : Option Word) (s : State) : Host.Outcome State Fault Refusal :=
  s.perform p fun s =>
    let c := (s.rx a + immS i lit).toInt
    { s with cx := { s.cx with nap := if c ≤ 0 then 0 else min c.toNat (2 ^ 20 - 1) } }
/-- NAP_END: the last paused cycle of a context (R126). -/
def execNapEnd (c : Nat) (s : State) : Host.Outcome State Fault Refusal :=
  let s' := s.switch c
  .next (if s'.cx.nap == 1 && !s'.cx.dbg.halted then s'.napTick else s)
/-- `srd` (R127). -/
def execSrd (p : Pred) (d : BitVec 5) (r : BitVec 12) (lit : Option Word) (s : State) : Host.Outcome State Fault Refusal :=
  s.perform p fun s =>
    let n := State.srNumber r lit
    if State.srPrivileged n && s.cx.mode == .task then s.trap 0x07 (BitVec.ofNat 64 n) else s.wx 1 d (s.srValue n)
/-- `swr`: the write takes effect for the next bundle (R127). -/
def execSwr (p : Pred) (a : BitVec 5) (r : BitVec 12) (lit : Option Word) (s : State) : Host.Outcome State Fault Refusal :=
  s.perform p fun s =>
    let n := State.srNumber r lit
    if State.srPrivileged n && s.cx.mode == .task then s.trap 0x07 (BitVec.ofNat 64 n) else s.push 1 (.sr n (s.rx a))
/-- `fence`: reports one failure of an earlier access in its predecessor set (R200, R375, R418, R457); otherwise later
words of its successor set wait for the predecessor accesses still open (R133). -/
def execFence (p : Pred) (c : BitVec 2) (e f : BitVec 5) (s : State) : Host.Outcome State Fault Refusal :=
  s.perform p fun s =>
    match s.cx.unreported.find? (fun u => u.sets &&& e != 0) with
    | some u =>
      { s with cx := { s.cx with unreported := s.cx.unreported.filter (·.id != u.id) } }.takeTrap (s.atSlot u.fault)
    | none =>
      let open_ := s.cx.opens.filter fun o => o.sets &&& e != 0
      -- beyond core scope, linear accesses bring with them what the core's other contexts have completed at core scope (R282)
      let more := if c == 0 || e &&& 3 == 0 then [] else s.coreQueued s.here
      { s with cx := { s.cx with barriers := s.cx.barriers ++ [⟨f, open_.map OpenAccess.id ++ more, c == 0⟩] } }
/-- A `tret` form in task mode is PRIVILEGE; for a task that trapped at its entry, a resuming form returns it to pending
(R28, R134). -/
def tretForm (p : Pred) (s : State) (resume : State → State) : Host.Outcome State Fault Refusal :=
  s.perform p fun s =>
    if s.cx.mode == .task then s.trap 0x07
    else if s.cx.entryTrap then s.endMember true
    else resume s
/-- `tret` (R134). -/
def execTret (p : Pred) (s : State) : Host.Outcome State Fault Refusal :=
  tretForm p s fun s => s.leaveTo (s.cx.trap.tpc.setWidth 56) (State.xferOf s.cx.trap)
/-- `tret.skip` (R134). LEFT is reduced in the transfer that is restored; the register TXFER keeps what it holds (the spec does not
say; DESIGN CHOICE, log 40). -/
def execTretSkip (p : Pred) (s : State) : Host.Outcome State Fault Refusal :=
  tretForm p s fun s =>
    match s.bundleEnd (s.cx.trap.tpc.setWidth 56) with
    | (s, .fault f) => s.takeTrap f
    | (s, .wait) => s.stall
    | (s, .ok e) =>
      let c := State.stepPast { s.cx with xfer := State.xferOf s.cx.trap } e
      let r := s.leaveTo c.pc c.xfer
      { r with cx := { r.cx with draining := c.draining } }
/-- `tret.end` (R134). -/
def execTretEnd (p : Pred) (s : State) : Host.Outcome State Fault Refusal :=
  s.perform p fun s => if s.cx.mode == .task then s.trap 0x07 else s.endMember false
/-- `tret.to` (R134). -/
def execTretTo (p : Pred) (a : BitVec 5) (s : State) : Host.Outcome State Fault Refusal :=
  tretForm p s fun s =>
    let r := s.leaveTo ((s.rx a).setWidth 56) none
    { r with cx := { r.cx with trap := { r.cx.trap with txfer := r.cx.trap.txfer &&& ~~~(1#64 <<< 63) } } }
/-- `sys #s` (R124). -/
def execSys (p : Pred) (i : BitVec 12) (lit : Option Word) (s : State) : Host.Outcome State Fault Refusal :=
  s.perform p fun s => s.callOut 0x08 (BitVec.ofNat 64 (State.srNumber i lit))
/-- EMPTY_BUNDLE: a header with PRESENT 0 advances bundle time and nothing else (R81). -/
def execEmptyBundle (_d : Bool) (_c : BitVec 2) (s : State) : Host.Outcome State Fault Refusal := .next s.retire

end Sys2Proof.Machine
end

