-- ==== Sys2Proof/Machine/Tensor.lean ====
section
/-! DEFINITION. Tensor descriptors, tile geometry, streams, Loam slots, and the conversions of fills and write-backs
(R57, R58, R180 to R191, R199, R200). -/

namespace Sys2Proof.Machine

/-! Reads and writes at home by global physical address, in any window that holds memory. -/

namespace State

/-- Read n bytes within a line, at home, decrypted with the page's key (R243, R383, R417, R455). -/
def homeRead (s : State) (sp : BitVec 6) (key : BitVec 8) (a n : Nat) : State × Except (BitVec 8) Nat :=
  match windowOf (localOf a) with
  | .control | .hole => (s, .error 0x2D)
  | .silt => (s, s.siltGet sp key a n)
  | _ => s.homeBytes sp key a n
/-- Write n bytes within a line, at home. -/
def homeStore (s : State) (sp : BitVec 6) (key : BitVec 8) (a n v : Nat) : State × Option (BitVec 8) :=
  match windowOf (localOf a) with
  | .control | .hole => (s, some 0x2D)
  | .silt => match s.siltSet sp key a n v with | .ok s => (s, none) | .error (e, s) => (s, some e)
  | _ => match s.homePut sp key a n v with | .ok s => (s, none) | .error e => (s, some e)
/-- Read n bytes of a space at a virtual address within a line, as an engine of a cluster does, at their home on whatever device
(R243, R374). -/
def readVa (s : State) (cl : Nat) (sp : BitVec 6) (va : Dbl) (n : Nat) (kind : Access) : State × Except FaultInfo Nat :=
  match s.translate none cl sp va kind with
  | (s, .error f) => (s, .error f)
  | (s, .ok t) =>
    match s.homeGet sp (t.leaf.extractLsb' 8 8) t.gpa n with
    | (s, .ok v) => (s, .ok v)
    | (s, .error e) => (s, .error (s.memFault e va (accessCode kind) 15 t.leaf))

end State

/-! Placement (R181). -/

/-- `loam_place`: slice and set (R181). -/
def loamPlace (t : TileId) : Nat × Nat :=
  let c := fun i => (t.coord.extractLsb' (16 * i) 16).setWidth 32
  let x : BitVec 32 := t.tensor.setWidth 32 ^^^ c 0 ^^^ (c 1 <<< 5) ^^^ (c 2 <<< 10) ^^^ (c 3 <<< 15)
  let h := (x.toNat % 65536).xor (x.toNat / 65536) * 0x2C35 % 65536
  (h / 4096, h / 512 % 8)
/-- A coordinate of a packed coordinate word. -/
def coordAt (c : Dbl) (i : Nat) : Nat := (c.extractLsb' (16 * i) 16).toNat
def packCoord (a b c d : Nat) : Dbl := BitVec.ofNat 64 (a % 65536 + 2 ^ 16 * (b % 65536) + 2 ^ 32 * (c % 65536) + 2 ^ 48 * (d % 65536))

/-! Descriptors (R182 to R184). -/

/-- A valid tensor descriptor. -/
structure Tensor where
  hil : Nat
  silt : Bool
  smode : Bool
  geom : Nat
  layout : Nat
  lfmt : ElemType
  mfmt : ElemType
  s3 : Nat
  s2 : Nat
  s0 : Nat
  ext3 : Nat
  ext2 : Nat
  ext1 : Nat
  ext0 : Nat
  sbase : Nat
  base : Nat
  deriving DecidableEq, Repr

/-- Rows and columns of a geometry code (R182). -/
def geomRows (g : Nat) : Nat := match g with | 2 | 5 => 32 | 4 => 16 | _ => 64
def geomCols (g : Nat) : Nat := match g with | 1 | 5 => 32 | 3 => 16 | _ => 64
/-- The geometry suits the element size of LFMT (R184). -/
def geomFits (g : Nat) (t : ElemType) : Bool :=
  match esize t with | 1 => g == 0 | 2 => g == 1 || g == 2 | _ => g == 3 || g == 4 || g == 5
/-- Read a descriptor; none when it is invalid (R184). -/
def tensorOf (d : BitVec 512) : Option Tensor :=
  let f := fun lo n => (d.extractLsb' lo n).toNat
  match elemOf? (f 452 4), elemOf? (f 448 4) with
  | some l, some m =>
    let t : Tensor := {
      hil := f 464 4, silt := d.getLsbD 462, smode := d.getLsbD 461, geom := f 458 3, layout := f 456 2, lfmt := l,
      mfmt := m, s3 := f 384 48, s2 := f 320 48, s0 := f 256 48, ext3 := max 1 (f 224 32), ext2 := max 1 (f 192 32),
      ext1 := f 160 32, ext0 := f 128 32, sbase := f 64 56, base := f 0 56 }
    let e := esize m
    let ok := d.getLsbD 463 && t.geom < 6 && t.layout < 3 && geomFits t.geom l
      && (m != .d8 || t.layout == 2) && (t.layout != 2 || m == l) && (!t.silt || t.layout == 2)
      && t.ext0 != 0 && t.ext1 != 0 && t.hil < 4
      && (if t.layout == 2 then t.base % 4096 == 0 && (m != .d8 || t.sbase % 16 == 0)
          else t.base % e == 0 && t.s0 % e == 0 && t.s2 % e == 0 && t.s3 % e == 0)
      && f 468 44 == 0 && f 432 16 == 0 && f 368 16 == 0 && f 304 16 == 0 && f 120 8 == 0 && f 56 8 == 0
    if ok then some t else none
  | _, _ => none

namespace Tensor
def rows (t : Tensor) : Nat := geomRows t.geom
def cols (t : Tensor) : Nat := geomCols t.geom
/-- Tile counts (R183). -/
def nt0 (t : Tensor) : Nat := (t.ext0 + t.rows - 1) / t.rows
def nt1 (t : Tensor) : Nat := (t.ext1 + t.cols - 1) / t.cols
def coordOk (t : Tensor) (c : Dbl) : Bool :=
  coordAt c 0 < t.nt0 && coordAt c 1 < t.nt1 && coordAt c 2 < t.ext2 && coordAt c 3 < t.ext3
def tileIndex (t : Tensor) (c : Dbl) : Nat :=
  coordAt c 0 + t.nt0 * (coordAt c 1 + t.nt1 * (coordAt c 2 + t.ext2 * coordAt c 3))
/-- The virtual address of element (r, k) of a tile (R183). -/
def elemVa (t : Tensor) (c : Dbl) (r k : Nat) : Dbl :=
  let i0 := t.rows * coordAt c 0 + r
  let i1 := t.cols * coordAt c 1 + k
  let e := esize t.mfmt
  BitVec.ofNat 64 (match t.layout with
    | 0 => t.base + i0 * t.s0 + i1 * e + coordAt c 2 * t.s2 + coordAt c 3 * t.s3
    | 1 => t.base + i1 * t.s0 + i0 * e + coordAt c 2 * t.s2 + coordAt c 3 * t.s3
    | _ => t.base + 4096 * t.tileIndex c + (r * t.cols + k) * esize t.lfmt)
/-- Rows or columns present in a tile (R190). -/
def edge (n c ext : Nat) : BitVec 64 := BitVec.ofNat 64 (2 ^ min n (ext - n * c) - 1)
def edgeR (t : Tensor) (c : Dbl) : BitVec 64 := edge t.rows (coordAt c 0) t.ext0
def edgeC (t : Tensor) (c : Dbl) : BitVec 64 := edge t.cols (coordAt c 1) t.ext1
/-- The present elements of a tile in row-major order. -/
def present (t : Tensor) (c : Dbl) : List (Nat × Nat) :=
  ((List.range (t.rows * t.cols)).map fun n => (n / t.cols, n % t.cols)).filter fun (r, k) =>
    (t.edgeR c).getLsbD r && (t.edgeC c).getLsbD k
end Tensor

/-- The block of element (r, k) of a d8 tile: SMODE 0 by rows, 1 by columns (R57). -/
def blockOf (smode : Bool) (r k : Nat) : Nat := if smode then k / 4 else r / 4

namespace State

/-- Read tensor t's descriptor for a space (R184): none for an id that is not below TCOUNT, a fault is the read's own with TINFO0
the tensor id. -/
def tensorWord (s : State) (cl : Nat) (sp : BitVec 6) (t : BitVec 20) : State × Except FaultInfo (Option (BitVec 512)) :=
  let s := s.entryReady sp
  if s.tcount sp ≤ t.toNat then (s, .ok none)
  else
    let va : Dbl := BitVec.ofNat 64 (s.ttroot sp + 64 * t.toNat)
    match s.readVa cl sp va 64 .read with
    | (s, .error f) => (s, .error { f with i0 := t.setWidth 64, i1 := va })
    | (s, .ok v) => (s, .ok (some (BitVec.ofNat 512 v)))
/-- Read a tensor's descriptor: none stands for TENSOR_INVALID (R184). -/
def tensor (s : State) (cl : Nat) (sp : BitVec 6) (t : BitVec 20) : State × Except FaultInfo (Option Tensor) :=
  match s.tensorWord cl sp t with
  | (s, .error f) => (s, .error f)
  | (s, .ok w) => (s, .ok (w.bind tensorOf))
/-- The home of a tile: the physical address of its first element (R183). -/
def tileHome (s : State) (cl : Nat) (tn : Tensor) (t : TileId) (kind : Access := .fill) : State × Except FaultInfo Nat :=
  match s.translate none cl t.space (tn.elemVa t.coord 0 0) kind with
  | (s, .error f) => (s, .error f)
  | (s, .ok x) => (s, .ok x.gpa)

/-! The memory of a tile (R199, R200): its pages are translated once, then its bytes are read or written. -/

/-- The page of a virtual address. -/
def vaPage (va : Dbl) : Nat := va.toNat % 2 ^ 56 / 65536
/-- Translate the pages of these addresses, each once: its frame and leaf, or the first fault (R199, R349). -/
def mapPages (s : State) (cl : Nat) (sp : BitVec 6) (kind : Access) : List Dbl → Table Xlat → State × Except FaultInfo (Table Xlat)
  | [], pg => (s, .ok pg)
  | va :: rest, pg =>
    if pg.any (·.1 == vaPage va) then s.mapPages cl sp kind rest pg
    else match s.translate none cl sp va kind with
      | (s, .error f) => (s, .error f)
      | (s, .ok x) => s.mapPages cl sp kind rest (tset pg (vaPage va) { x with gpa := x.gpa / 65536 * 65536 })
/-- An address through translated pages. -/
def mapped (pg : Table Xlat) (va : Dbl) : Xlat :=
  let x := tget ⟨0, 0⟩ pg (vaPage va)
  { x with gpa := x.gpa + va.toNat % 65536 }
/-- The virtual address of a tile's 16 σ bytes in memory, where it has them (R183). -/
def sigmaVa (tn : Tensor) (c : Dbl) : Option Dbl :=
  if tn.layout == 2 && tn.lfmt == .d8 then some (BitVec.ofNat 64 (tn.sbase + 16 * tn.tileIndex c)) else none
/-- The addresses of a tile's present elements in row-major order, then of its σ bytes. -/
def tileVas (tn : Tensor) (c : Dbl) : List Dbl :=
  ((tn.present c).map fun (r, k) => tn.elemVa c r k) ++ (sigmaVa tn c).toList
/-- Read n bytes of a tile: at home, or from the lines read of another device (R374). -/
def tileRead (s : State) (sp : BitVec 6) (pg : Table Xlat) (ls : Table (BitVec 1024)) (va : Dbl) (n : Nat) :
    State × Except FaultInfo Nat :=
  let x := mapped pg va
  if !s.ownDevice x.gpa then (s, .ok ((tget 0 ls (x.gpa / 128)).toNat / 2 ^ (8 * (x.gpa % 128)) % 2 ^ (8 * n)))
  else match s.homeRead sp (x.leaf.extractLsb' 8 8) x.gpa n with
    | (s, .ok v) => (s, .ok v)
    | (s, .error e) => (s, .error (s.memFault e va (accessCode .fill) 15 x.leaf))
/-- The lines of other devices that hold some of these addresses, with the first address in each and its page's leaf. -/
def awayLines (s : State) (pg : Table Xlat) (vas : List Dbl) : List (Nat × Dbl × Dbl) :=
  vas.foldl (fun l va =>
    let x := mapped pg va
    if s.ownDevice x.gpa || l.any (·.1 == x.gpa / 128) then l else l ++ [(x.gpa / 128, va, x.leaf)]) []

/-! Fills (R199). -/

/-- Read the present elements in row-major order: their bits, or the first fault. -/
def readElems (s : State) (sp : BitVec 6) (pg : Table Xlat) (ls : Table (BitVec 1024)) (tn : Tensor) (c : Dbl) :
    List (Nat × Nat) → State × Except FaultInfo (List (Nat × Nat × Nat))
  | [] => (s, .ok [])
  | (r, k) :: rest =>
    match s.tileRead sp pg ls (tn.elemVa c r k) (esize tn.mfmt) with
    | (s, .error f) => (s, .error f)
    | (s, .ok v) =>
      match s.readElems sp pg ls tn c rest with
      | (s, .ok l) => (s, .ok ((r, k, v) :: l))
      | (s, .error f) => (s, .error f)

end State

/-- The value of an element's bits as a type; d8 under a σ. -/
def elemVal (t : ElemType) (sigma : Int) (v : Nat) : Val :=
  match t with
  | .d8 => d8Val v sigma
  | _ => laneVal t (BitVec.ofNat 32 v)
/-- The bits of a value converted to a type other than d8 with RNE (R59). -/
def valElem (t : ElemType) (v : Val) : Nat := (convLane t .rne v).toNat % 2 ^ ElemType_width t
/-- The σ byte b of a scale field. -/
def sigmaOf (scale : BitVec 128) (b : Nat) : Int := (scale.extractLsb' (8 * b) 8).toInt
def setSigma (scale : BitVec 128) (b : Nat) (sg : Int) : BitVec 128 :=
  (scale &&& ~~~(0xFF#128 <<< (8 * b))) ||| (((BitVec.ofInt 8 sg).setWidth 128) <<< (8 * b))
/-- Bits [8o + w − 1 : 8o] of a block replaced. -/
def putElem (b : Block) (o w v : Nat) : Block :=
  let m : Block := BitVec.ofNat 32768 ((2 ^ w - 1) * 2 ^ (8 * o))
  (b &&& ~~~m) ||| BitVec.ofNat 32768 (v % 2 ^ w * 2 ^ (8 * o))
/-- An element of a slot: geometry columns, type, row and column. -/
def slotElem (b : Block) (cols : Nat) (t : ElemType) (r k : Nat) : Nat := blockElem b ((r * cols + k) * esize t) (esize t)
/-- Convert values to d8 in order, each under its block's σ. -/
def d8Draw : List (Nat × Nat × Int × Val) → BitVec 64 → List (Nat × Nat × BitVec 8) × BitVec 64
  | [], g => ([], g)
  | (r, k, sg, v) :: rest, g =>
    let (c, g) := toD8 v sg g
    let (l, g) := d8Draw rest g
    ((r, k, c) :: l, g)
/-- The slot contents of a list of elements. -/
def assemble (cols : Nat) (t : ElemType) (l : List (Nat × Nat × Nat)) : Block :=
  l.foldl (fun b (r, k, v) => putElem b ((r * cols + k) * esize t) (ElemType_width t) v) 0
/-- The seed of the fill generator (R61). -/
def fillSeed (t : TileId) (v : BitVec 32) : BitVec 64 :=
  let g := t.coord ^^^ (v.setWidth 64 <<< 20) ^^^ t.tensor.setWidth 64
  if g == 0 then 1 else g

namespace State

/-- The tensor's HIL field fits the interleave of a tile's home (R408). -/
def hilFits (s : State) (tn : Tensor) (home : Nat) : Bool :=
  let a := localOf home
  tn.hil == 0 || windowOf a != .hbm
    || (match granuleBits s.dev.hilmapLive (a / 2 ^ 36 % 8) with | 12 => 2 | 16 => 3 | _ => 1) == tn.hil
/-- Perform a fill of a version: contents and scale field (R199, R408). `ls` are the lines that the fill has read of other
devices. -/
def fillData (s : State) (cl : Nat) (tn : Tensor) (t : TileId) (v : BitVec 32) (ls : Table (BitVec 1024) := []) :
    State × Except FaultInfo (Block × BitVec 128) :=
  match s.mapPages cl t.space .fill (tileVas tn t.coord) [] with
  | (s, .error f) => (s, .error f)
  | (s, .ok pg) =>
    if !s.hilFits tn (mapped pg (tn.elemVa t.coord 0 0)).gpa then
      (s, .error { cause := 0x40, i0 := t.tensor.setWidth 64 })
    else
    match s.readElems t.space pg ls tn t.coord (tn.present t.coord) with
    | (s, .error f) => (s, .error f)
    | (s, .ok l) =>
      if tn.layout == 2 then
        match sigmaVa tn t.coord with
        | some sva =>
          match s.tileRead t.space pg ls sva 16 with
          | (s, .error f) => (s, .error f)
          | (s, .ok sc) => (s, .ok (assemble tn.cols .d8 l, BitVec.ofNat 128 sc))
        | none => (s, .ok (assemble tn.cols tn.lfmt l, 0))
      else if tn.lfmt == .d8 then
        let vals := l.map fun (r, k, b) => (r, k, elemVal tn.mfmt 0 b)
        let sg := fun b => chooseSigma ((vals.filter fun (r, k, _) => blockOf tn.smode r k == b).map fun (_, _, x) => x)
        let scale := (List.range 16).foldl (fun sc b => setSigma sc b (sg b)) (0 : BitVec 128)
        let (codes, _) := d8Draw (vals.map fun (r, k, x) => (r, k, sigmaOf scale (blockOf tn.smode r k), x)) (fillSeed t v)
        (s, .ok (assemble tn.cols .d8 (codes.map fun (r, k, c) => (r, k, c.toNat)), scale))
      else
        (s, .ok (assemble tn.cols tn.lfmt (l.map fun (r, k, b) =>
          (r, k, if tn.lfmt == tn.mfmt && !tn.lfmt.isFloat then b
                 else (cvtBits tn.mfmt tn.lfmt b))), 0))
where
  /-- One element of a fill: an integer widened by extension, otherwise rounded and saturated (R59). -/
  cvtBits (m l : ElemType) (b : Nat) : Nat :=
    if m.isInt && l.isInt && ElemType_width m < ElemType_width l then
      (intLane l (laneInt m (BitVec.ofNat 32 b))).toNat % 2 ^ ElemType_width l
    else valElem l (elemVal m 0 b)

/-! Write-backs (R200). -/

/-- An address that a write-back cannot reach: a window that holds no memory (R404). -/
def unwritable (s : State) (pg : Table Xlat) (va : Dbl) : Option FaultInfo :=
  let x := mapped pg va
  let a := localOf x.gpa
  if windowOf a == .control || windowOf a == .hole || (s.ownDevice x.gpa && !s.backed a) then
    some (s.memFault 0x2D va (accessCode .writeback) 15 x.leaf)
  else none
/-- Write n bytes of a tile whose home is this device; bytes homed on other devices go as merges of their lines. -/
def tileStore (s : State) (sp : BitVec 6) (pg : Table Xlat) (va : Dbl) (n v : Nat) : State × Option FaultInfo :=
  let x := mapped pg va
  if !s.ownDevice x.gpa then (s, none)
  else match s.homeStore sp (x.leaf.extractLsb' 8 8) x.gpa n v with
    | (s, none) => (s, none)
    | (s, some e) => (s, some (s.memFault e va (accessCode .writeback) 15 x.leaf))
/-- Write present elements in order; the first fault stops it. -/
def writeElems (s : State) (sp : BitVec 6) (pg : Table Xlat) (tn : Tensor) (c : Dbl) :
    List (Nat × Nat × Nat) → State × Option FaultInfo
  | [] => (s, none)
  | (r, k, v) :: rest =>
    match s.tileStore sp pg (tn.elemVa c r k) (esize tn.mfmt) v with
    | (s, some f) => (s, some f)
    | (s, none) => s.writeElems sp pg tn c rest
/-- The memory bits of a slot's present elements (R200). -/
def outElems (tn : Tensor) (c : Dbl) (b : Block) (scale : BitVec 128) : List (Nat × Nat × Nat) :=
  (tn.present c).map fun (r, k) =>
    let v := slotElem b tn.cols tn.lfmt r k
    (r, k, if tn.lfmt == tn.mfmt && !tn.lfmt.isFloat then v
      else if tn.lfmt.isInt && tn.mfmt.isInt && ElemType_width tn.lfmt < ElemType_width tn.mfmt then
        (intLane tn.mfmt (laneInt tn.lfmt (BitVec.ofNat 32 v))).toNat % 2 ^ ElemType_width tn.mfmt
      else if tn.layout == 2 then v
      else valElem tn.mfmt (elemVal tn.lfmt (sigmaOf scale (blockOf tn.smode r k)) v))
/-- The byte mask and the data of parts of one line: offset in the line, size and value of each. -/
def lineParts (l : List (Nat × Nat × Nat)) : BitVec 128 × BitVec 1024 :=
  l.foldl (fun (m, d) (o, n, v) => (m ||| byteMask o n, mergeLine (byteMask o n) d (lineValue o (v % 2 ^ (8 * n))))) (0, 0)
/-- Parts of an encrypted Silt block, by offset in it, line by line from line l0 on: each line that they touch is merged with what
it held and encrypted whole. The block as stored, and the lines' tags (R383, R384). -/
def sealLines (s : State) (ks : KeySlot) (l0 : Nat) (els : List (Nat × Nat × Nat)) :
    List Nat → Block → Table (BitVec 64) → Except (BitVec 8) (Block × Table (BitVec 64))
  | [], b, tags => .ok (b, tags)
  | i :: r, b, tags =>
    let mine := els.filter fun (o, _, _) => o / 128 == i
    if mine.isEmpty then s.sealLines ks l0 els r b tags
    else
      let (m, d) := lineParts (mine.map fun (o, n, v) => (o % 128, n, v))
      match (if m == BitVec.allOnes 128 then .ok 0 else s.siltPlain ks (l0 + i)) with
      | .error e => .error e
      | .ok o =>
        let c := xtsEncrypt ks.k1 ks.k2 (128 * (l0 + i)) (mergeLine m o d)
        s.sealLines ks l0 els r (putElem b (128 * i) 1024 c.toNat) (tset tags (l0 + i) (lineTag ks.km (128 * (l0 + i)) c))
/-- A Silt block with parts replaced, under the page's key, and the tags of its lines. -/
def siltBlock (s : State) (sp : BitVec 6) (key : BitVec 8) (l0 : Nat) (els : List (Nat × Nat × Nat)) (old : Block) :
    Except (BitVec 8) (Block × Table (BitVec 64)) :=
  if key == 0 then .ok (els.foldl (fun b (o, n, v) => putElem b o (8 * n) v) old, s.homes.tags)
  else match s.keySlot sp key with
    | none => .error 0x28
    | some ks => s.sealLines ks l0 els (List.range 32) old s.homes.tags
/-- Write a tile into its Silt block, which it replaces whole (R416), encrypted with the page's key (R383). -/
def writeSilt (s : State) (tn : Tensor) (t : TileId) (x : Xlat) (l : List (Nat × Nat × Nat)) : State × Option FaultInfo :=
  let bad := fun (s : State) e => (s, some (s.memFault e (tn.elemVa t.coord 0 0) (accessCode .writeback) 15 x.leaf))
  match s.siltRegion (localOf x.gpa - 0x2000000000000) with
  | none => bad s 0x2D
  | some (rg, blk) =>
    match (if l.length == tn.rows * tn.cols then .ok 0 else s.siltRead rg blk) with
    | .error e => bad s e
    | .ok old =>
      let els := l.map fun (r, k, v) => ((r * tn.cols + k) * esize tn.lfmt, esize tn.lfmt, v)
      match s.siltBlock t.space (x.leaf.extractLsb' 8 8) (x.gpa / 4096 * 32) els old with
      | .error e => bad s e
      | .ok (nb, tags) =>
        match s.siltWrite rg blk nb with
        | .ok s => (({ s with homes := { s.homes with tags := tags } } : State).afterSiltWrite (x.gpa / 4096 * 4096) 4096, none)
        | .error (e, s) => bad s e
/-- Merge into memory what of a tile is homed here, its pages translated: nothing when some of it fails (R200). -/
def writeMapped (s : State) (pg : Table Xlat) (tn : Tensor) (t : TileId) (b : Block) (scale : BitVec 128) :
    State × Option FaultInfo :=
  match (tileVas tn t.coord).findSome? (s.unwritable pg) with
  | some f => (s, some f)
  | none =>
    let l := outElems tn t.coord b scale
    let x := mapped pg (tn.elemVa t.coord 0 0)
    let silt := s.ownDevice x.gpa && windowOf (localOf x.gpa) == .silt
    let sigma := fun (s : State) => match sigmaVa tn t.coord with
      | some sva => s.tileStore t.space pg sva 16 scale.toNat
      | none => (s, none)
    if silt then
      match sigma s with
      | (_, some f) => (s, some f)
      | (u, none) => match u.writeSilt tn t x l with
        | (u, none) => (u, none)
        | (_, some f) => ((s.writeSilt tn t x l).1, some f)
    else match s.writeElems t.space pg tn t.coord l with
      | (_, some f) => (s, some f)
      | (u, none) => match sigma u with
        | (_, some f) => (s, some f)
        | (u, none) => (u, none)
/-- Merge a tile's present elements and σ bytes into this device's memory (R200). -/
def writeTile (s : State) (cl : Nat) (tn : Tensor) (t : TileId) (b : Block) (scale : BitVec 128) :
    State × Option FaultInfo :=
  match s.mapPages cl t.space .writeback (tileVas tn t.coord) [] with
  | (s, .error f) => (s, some f)
  | (s, .ok pg) => s.writeMapped pg tn t b scale
/-- What a write-back merges on other devices: line, first address, leaf, byte mask and data. -/
def awayMerges (s : State) (pg : Table Xlat) (tn : Tensor) (t : TileId) (b : Block) (scale : BitVec 128) :
    List (Nat × Dbl × Dbl × BitVec 128 × BitVec 1024) :=
  let els := (outElems tn t.coord b scale).map fun (r, k, v) => (tn.elemVa t.coord r k, esize tn.mfmt, v)
  let all := els ++ (sigmaVa tn t.coord).toList.map fun va => (va, 16, scale.toNat)
  (s.awayLines pg (tileVas tn t.coord)).map fun (l, va, leaf) =>
    let mine := all.filter fun (va, _, _) => (mapped pg va).gpa / 128 == l
    let (m, d) := lineParts (mine.map fun (va, n, v) => ((mapped pg va).gpa % 128, n, v))
    (l, va, leaf, m, d)

/-! Loam slots: keyed by 128 x slice + z, z = 8 x way + set (R180). -/

def slot (s : State) (cl key : Nat) : LoamSlot := tget {} (s.cluster cl).loam key
def setSlot (s : State) (cl key : Nat) (x : LoamSlot) : State :=
  let c := s.cluster cl
  s.setCluster cl { c with loam := tset c.loam key x }
/-- Empty a slot: every field 0 (R187). -/
def clearSlot (s : State) (cl key : Nat) : State :=
  let c := s.cluster cl
  s.setCluster cl { c with loam := tdel c.loam key }
/-- The slots of a tile's set, by ascending way. -/
def setKeys (t : TileId) : List Nat :=
  let (sl, st) := loamPlace t
  (List.range 16).map fun w => 128 * sl + 8 * w + st
def isPublished : SlotState → Bool
  | .clean | .dirty | .writeback => true
  | _ => false
/-- A local hit: the newest published version that meets the requirement (R192). -/
def localHit (s : State) (cl : Nat) (t : TileId) (w : Want) : Option Nat :=
  let ok := fun (x : LoamSlot) => isPublished x.state && x.tile == t && (match w with
    | .atLeast n => n.toNat ≤ x.version.toNat
    | .exactly m => x.version == m
    | .latest => false)
  (setKeys t).foldl (fun best k =>
    let x := s.slot cl k
    if !ok x then best
    else match best with
      | some b => if (s.slot cl b).version.toNat < x.version.toNat then some k else best
      | none => some k) none
/-- A later allocation may succeed in a slice: serve its queue (R204). -/
def wakeSlice (s : State) (cl key : Nat) : State :=
  if (s.cluster cl).allocs.any (fun a => a.slice == key / 128) then s.later 0 (.loamAllocation cl (key / 128)) else s
/-- Add one pin (R201); none when PINS is 255. An allocation that waits for the slot's write-back chooses again (R204). -/
def pin (s : State) (cl key : Nat) : Option State :=
  let x := s.slot cl key
  if x.pins == 255 then none
  else
    let t := s.setSlot cl key { x with pins := x.pins + 1 }
    some (if x.state == .writeback then t.wakeSlice cl key else t)
/-- Drop one pin. -/
def unpin (s : State) (cl key : Nat) : State :=
  let x := s.slot cl key
  let s := s.setSlot cl key { x with pins := x.pins - 1 }
  if x.pins ≤ 1 then s.wakeSlice cl key else s

end State

/-! Streams (R189). -/

/-- Fields of a stream register. -/
def wBound (w : BitVec 512) : Bool := w.getLsbD 257
def wRights (w : BitVec 512) : Nat := (w.extractLsb' 258 2).toNat
def wSmode (w : BitVec 512) : Bool := w.getLsbD 260
def wGeom (w : BitVec 512) : Nat := (w.extractLsb' 261 3).toNat
def wType (w : BitVec 512) : ElemType := (elemOf? (w.extractLsb' 264 4).toNat).getD .i8
def wTensor (w : BitVec 512) : BitVec 20 := w.extractLsb' 268 20
def wVersion (w : BitVec 512) : BitVec 32 := w.extractLsb' 288 32
def wCoord (w : BitVec 512) : Dbl := w.extractLsb' 320 64
def wEdgeR (w : BitVec 512) : BitVec 64 := w.extractLsb' 384 64
def wEdgeC (w : BitVec 512) : BitVec 64 := w.extractLsb' 448 64
def wCursor (w : BitVec 512) : Nat := (w.extractLsb' 250 6).toNat
/-- The key of the bound slot: 128 x SLICE + SLOT. -/
def wSlot (w : BitVec 512) : Nat := 128 * (w.extractLsb' 246 4).toNat + (w.extractLsb' 239 7).toNat
def wRows (w : BitVec 512) : Nat := geomRows (wGeom w)
def wCols (w : BitVec 512) : Nat := geomCols (wGeom w)
/-- Groups of 64 elements in a tile (R220). -/
def wGroups (w : BitVec 512) : Nat := 64 / esize (wType w)
/-- A stream with a field replaced. -/
def wPut (w : BitVec 512) (lo n v : Nat) : BitVec 512 :=
  (w &&& ~~~BitVec.ofNat 512 ((2 ^ n - 1) * 2 ^ lo)) ||| BitVec.ofNat 512 (v % 2 ^ n * 2 ^ lo)
/-- A bound stream (R213). -/
def bindStream (tn : Tensor) (t : TileId) (v : BitVec 32) (key rights : Nat) : BitVec 512 :=
  let sstr := if tn.lfmt == .d8 then (if tn.smode then 4 else 256) else 0
  [(384, 64, (tn.edgeR t.coord).toNat), (448, 64, (tn.edgeC t.coord).toNat), (320, 64, t.coord.toNat),
   (288, 32, v.toNat), (268, 20, t.tensor.toNat), (264, 4, tn.lfmt.code), (261, 3, tn.geom),
   (260, 1, if tn.smode then 1 else 0), (258, 2, rights), (257, 1, 1), (246, 4, key / 128), (239, 7, key % 128),
   (230, 9, sstr)].foldl (fun w (lo, n, x) => wPut w lo n x) 0

end Sys2Proof.Machine
end

