-- ==== Sys2Proof/Machine/Loam.lean ====
section
/-! DEFINITION. Loam's engines: allocation (R203, R204), the version directory at the homes (R191 to R198, R459), fills,
forwards, publishes, write-backs, parked binds (R32) and itineraries (R205). -/

namespace Sys2Proof.Machine
namespace State

/-! Flights (R94). -/

/-- Start an interlocked operation of the context in `cx` with its results already bound; it completes later. -/
def flightBound (s : State) (dests : List Reg) (result : List Write) : State :=
  let (id, s) := s.newId
  let r : State := { s with cx := { s.cx with flights := s.cx.flights ++ [⟨id, .bound, dests, result, s.issue.pc⟩] } }
  r.later 0 (.interlockedCompletion s.here id)
/-- Every earlier event of the context is complete at a scope: what a release waits for (R276, R280). Beyond core scope this
takes in what the core's other contexts have completed at core scope (R282). -/
def settled (s : State) (scope : BitVec 2) : Bool :=
  (s.cx.opens.all fun o => scope == 0 && o.coreDone) && (scope == 0 || (s.coreQueued s.here).isEmpty)
/-- An access that is not complete is listed (R276). -/
def openAccess (s : State) (sets : BitVec 5) (coreDone : Bool) : Nat × State :=
  let (id, s) := s.newId
  (id, { s with
    cx := { s.cx with opens := s.cx.opens ++ [⟨id, sets, coreDone, none⟩] },
    issue := { s.issue with touched := s.issue.touched ||| sets } })
/-- An access is complete (R276). -/
def closeAccess (s : State) (id : Nat) : State := s.mapContexts fun x => { x with opens := x.opens.filter (·.id != id) }
/-- Enter a failure among those of a context, in program order (log 23). -/
def addFailure (u : Unreported) : List Unreported → List Unreported
  | [] => [u]
  | v :: r => if u.id < v.id then u :: v :: r else v :: addFailure u r
/-- An access that is still listed has failed: a later fence of its sets reports it (R200, R375, R418, R457). -/
def reportFail (s : State) (id : Nat) (sets : BitVec 5) (f : FaultInfo) : State :=
  s.mapContexts fun x => if x.opens.any (·.id == id) then { x with unreported := addFailure ⟨id, sets, f⟩ x.unreported } else x
/-- The publish of a version has been performed: the `spub` that made it is complete (R276). -/
def closePublish (s : State) (t : TileId) (v : BitVec 32) : State :=
  s.mapContexts fun x => { x with opens := x.opens.filter (·.pub != some (t, v)) }

/-! Allocation (R203, R204). -/

/-- Ways that LOAMPART and conversion allow to a class (R203); ways being converted take no allocation (R207). -/
def allowedWays (s : State) (cl : Nat) (klass : BitVec 2) : List Nat :=
  let c := s.cluster cl
  let m := fun k => (c.loampart.extractLsb' (4 + 16 * (k - 1)) 12).toNat
  let free := 16 - max c.converted (c.conv.elim 0 WayConv.n)
  (List.range free).filter fun w =>
    if klass == 0 then w < 4 || ((m 1).lor ((m 2).lor (m 3))).testBit (w - 4)
    else 4 ≤ w && (m klass.toNat).testBit (w - 4)

/-- What an allocation comes to: a free way, a way whose victim's write-back or wake it waits for, or the queue. -/
inductive Alloc where
  | got (way : Nat)
  | waitFor (way : Nat)
  | full
  deriving Repr

/-- The clock of R204: from the hand, circularly, the first victim with CLOCK 0; others lose one. -/
def clockScan (s : State) (cl slice set : Nat) (v : List Nat) : Nat → Nat → State × Option Nat
  | 0, _ => (s, none)
  | fuel + 1, w =>
    let next := (w + 1) % 16
    if v.contains w then
      let k := 128 * slice + 8 * w + set
      let x := s.slot cl k
      if x.clock == 0 then
        let c := s.cluster cl
        (s.setCluster cl { c with hands := tset c.hands (8 * slice + set) next }, some w)
      else (s.setSlot cl k { x with clock := x.clock - 1 }).clockScan cl slice set v fuel next
    else s.clockScan cl slice set v fuel next
/-- `choose_victim` and its effects (R204): a CLEAN victim is emptied, a DIRTY one starts its write-back, a gated way
starts to wake. -/
def allocate (s : State) (cl slice set : Nat) (klass : BitVec 2) : State × Alloc :=
  let a := s.allowedWays cl klass
  let c := s.cluster cl
  let gated := fun w => c.gated.contains (16 * slice + w) || c.waking.contains (16 * slice + w)
  let g := a.filter fun w => c.gated.contains (16 * slice + w)
  let w := a.filter fun w => !gated w
  let st := fun w => s.slot cl (128 * slice + 8 * w + set)
  match w.find? fun w => (st w).state == .invalid with
  | some x => (s, .got x)
  | none =>
    let v := w.filter fun w => ((st w).state == .clean || (st w).state == .dirty) && (st w).pins == 0
    if v.isEmpty then
      match g.head? with
      | some x =>
        ((s.setCluster cl { c with gated := c.gated.filter (· != 16 * slice + x), waking := (16 * slice + x) :: c.waking }).later
          0 (.wayWake cl slice x), .waitFor x)
      | none => (s, .full)
    else
      let (s, pick) := match v.find? fun w => (st w).hint == 1 with
        | some x => (s, some x)
        | none => match v.find? fun w => (st w).hint == 2 with
          | some x => (s, some x)
          | none => s.clockScan cl slice set v 64 (tget 0 c.hands (8 * slice + set))
      match pick with
      | none => (s, .full)
      | some x =>
        let k := 128 * slice + 8 * x + set
        let sl := s.slot cl k
        if sl.state == .clean then (s.clearSlot cl k, .got x)
        else ((s.setSlot cl k { sl with state := .writeback, wbCtx := none }).later 0 (.tileWritebackMerge cl k), .waitFor x)

/-! The version directory (R191, R193). -/

def verOf (s : State) (t : TileId) : VerEntry := ((s.homes.versions.find? (·.1 == t)).map Prod.snd).getD {}
def setVer (s : State) (t : TileId) (e : VerEntry) : State :=
  { s with homes := { s.homes with versions := (t, e) :: s.homes.versions.filter (·.1 != t) } }
/-- Enter a holder of P; the earliest of three further holders leaves (R193). -/
def addHolder (s : State) (t : TileId) (h : Nat) : State :=
  let e := s.verOf t
  if e.owner == some h || e.holders.contains h then s
  else s.setVer t { e with holders := (e.holders ++ [h]).drop (e.holders.length - 2) }
/-- A holder answered absent (R193). -/
def dropHolder (s : State) (t : TileId) (h : Nat) : State :=
  let e := s.verOf t
  s.setVer t { e with owner := if e.owner == some h then none else e.owner, holders := e.holders.filter (· != h) }
/-- How the home resolves a request (R193, R459). -/
inductive Resolved where
  | fill (v : BitVec 32)
  | forward (v : BitVec 32) (holder : Nat)
  | local_ (key : Nat)
  | await
  | absent
  | fail (f : FaultInfo)
  deriving Repr
/-- Resolve a requirement for a requester's cluster (1000 + d for device d). -/
def resolve (s : State) (t : TileId) (w : Want) (cl : Nat) : Resolved :=
  let e := s.verOf t
  let listed := e.owner.toList ++ e.holders
  let least (n : BitVec 32) : Resolved :=
    if e.p.toNat < n.toNat then .await
    else match (if cl < 64 then s.localHit cl t (.exactly e.p) else none) with
      | some k => .local_ k
      | none =>
        if e.m == e.p then
          match listed.find? fun h => h < 64 && h / 16 == cl / 16 with
          | some h => .forward e.p h
          | none => .fill e.p
        else match listed.head? with
          | some h => .forward e.p h
          | none =>
            if n.toNat ≤ e.m.toNat then .fill e.m
            else .fail { cause := if e.lostPeer then 0x80 else 0x42, i1 := n.setWidth 64, i2 := e.p.setWidth 64 }
  match w with
  | .atLeast n => least n
  | .latest => least e.p
  | .exactly m =>
    if m == e.p && !listed.isEmpty then .forward m (listed.headD 0)
    else if m == e.m then .fill m
    else .absent

/-! Requests (R192). -/

/-- The request is an `snew`'s copy: it fills a slot of its own, which becomes OPEN (R216). -/
def opens_ : TileUser → Bool | .opening _ => true | _ => false
/-- The request is one of a probe or an itinerary, which nothing waits for (R205, R215). -/
def onlyHint : TileUser → Bool | .prefetch _ _ => true | _ => false
/-- The FILLING slot that serves a request (R192). -/
def fillingFor (s : State) (r : TileReq) : Option Nat :=
  (setKeys r.tile).find? fun k =>
    let x := s.slot r.cluster k
    x.state == .filling && x.tile == r.tile
      && x.users.any fun u => u.want == r.want && (if opens_ r.user then u.user == r.user else !opens_ u.user)
/-- Enter a request, and those coalesced with it, into a slot that was just freed: FILLING, on its way to the home (R192). -/
def startFilling (s : State) (r : TileReq) (key : Nat) (klass : BitVec 2) (more : List TileReq := []) : State :=
  (s.setSlot r.cluster key { state := .filling, tile := r.tile, klass := klass, users := r :: more }).later 0 (.homeTileRequest r)
/-- Queue an allocation, which LOAM_ALLOCATION serves in arrival order; one made by a bind is refused after 4,096 cycles
(R204). -/
def queueAlloc (s : State) (r : TileReq) (klass : BitVec 2) (openV : Bool) : State :=
  let c := s.cluster r.cluster
  let id := s.tick
  let (slice, set) := loamPlace r.tile
  let s1 : State := { s with tick := s.tick + 1 }
  let s := (s1.setCluster r.cluster { c with allocs := c.allocs ++ [⟨id, slice, set, klass, r, s.cycle, openV, none⟩] }).later
    0 (.loamAllocation r.cluster slice)
  match r.user with
  | .ctx _ => s.later 4096 (.allocationTimeout r.cluster id)
  | _ => s
/-- Something of a FILLING slot's request is on its way: to the home, as a fill or a forward, or a transaction for one. A slot
for which nothing is waits for its version to be published. -/
def underway (s : State) (cl key : Nat) : Bool :=
  let mine := fun (r : TileReq) => r.cluster == cl && s.fillingFor r == some key
  (s.agenda.any fun (_, i) => match i with
    | .homeTileRequest r | .tileForward r _ _ => mine r
    | .tileFill c k => c == cl && k == key
    | _ => false)
  || s.fab.txns.any fun x => match x.use_ with
    | .tile r | .tilePart r _ _ => mine r && x.flit.inl.toNat % 256 != 1
    | .tileLine c k _ => c == cl && k == key
    | _ => false
/-- A request waits for a version that has not been published (R27, R32). -/
def awaitsVersion (s : State) (r : TileReq) : Bool :=
  match s.fillingFor r with | some key => !s.underway r.cluster key | none => false
/-- A request of no one that would await a version is not made (R205). -/
def idleHint (s : State) (r : TileReq) : Bool := onlyHint r.user && s.awaitsVersion r
/-- Send a request that missed locally: coalesced into a FILLING slot, or with a slot of its own (R192, R204). -/
def requestTile (s : State) (r : TileReq) (klass : BitVec 2) : State :=
  if s.idleHint r then s
  else match s.fillingFor r with
  | some k => let x := s.slot r.cluster k; s.setSlot r.cluster k { x with users := x.users ++ [r] }
  | none => s.queueAlloc r klass false
/-- A FILLING slot's request is given up: the slot is INVALID and the home awaits nothing for it. -/
def dropFilling (s : State) (cl key : Nat) : State :=
  let mine := fun (r : TileReq) => r.cluster == cl && s.fillingFor r == some key
  let s1 : State := { s with homes := { s.homes with awaiting := s.homes.awaiting.filter fun (_, r) => !mine r } }
  (s1.clearSlot cl key).wakeSlice cl key
/-- The hints among a slot's requests, which must not await a version, are skipped; with none but them the slot is given up (R205). -/
def skipHints (s : State) (cl key : Nat) : State :=
  let x := s.slot cl key
  let l := x.users.filter fun r => !onlyHint r.user
  if l.isEmpty then s.dropFilling cl key else s.setSlot cl key { x with users := l }
/-- Users that wait no longer: what is on its way for them fills Loam only, and what awaits a version for none but them is given
up (R32). -/
def forget (s : State) (cl : Nat) (gone : TileUser → Bool) : State :=
  let hint := fun (r : TileReq) => if gone r.user then { r with user := .prefetch cl 0 } else r
  let c := s.cluster cl
  let s := s.setCluster cl { c with
    allocs := c.allocs.filter fun a => !gone a.req.user,
    loam := c.loam.map fun (k, x) => (k, { x with users := x.users.map hint }) }
  let idle := (s.cluster cl).loam.filter fun (k, x) =>
    x.state == .filling && !x.users.isEmpty && (x.users.all fun r => onlyHint r.user) && !s.underway cl k
  idle.foldl (fun s (k, _) => s.dropFilling cl k) s
/-- The slot of a granted `snew` is asked for (R195, R204). -/
def askOpen (s : State) (c : Nat) : State :=
  let x := s.ctx c
  match x.opening with
  | some o => s.queueAlloc ⟨o.tile, .exactly (o.granted.getD 0), .ctx c, c / 64⟩ x.id.klass true
  | none => s
/-- A granted `snew` takes a slot (R195, R204). -/
def grantOpen (s : State) (c : Nat) (n : BitVec 32) : State :=
  let x := s.ctx c
  match x.opening with
  | none => s
  | some o => (s.setCtx c { x with opening := some { o with granted := some n } }).askOpen c

/-! Serving (R32, R214, R323). -/

def entry (s : State) (cl e : Nat) : Option Entry := ((s.cluster cl).entries.find? (·.1 == e)).map Prod.snd
def setEntry (s : State) (cl e : Nat) (x : Entry) : State :=
  let c := s.cluster cl
  s.setCluster cl { c with entries := tset c.entries e x }
/-- The failure of a context's parked word: it is presented again and traps (R212). -/
def failCtx (s : State) (c : Nat) (f : FaultInfo) : State :=
  let x := s.ctx c
  if x.parked.isSome || x.opening.isSome then (s.setCtx c { x with fault := some f }).later 0 (.parkedTaskResume c) else s
/-- The `snew` of a context waits for this slot's contents. -/
def waitsOpen (s : State) (c : Nat) (t : TileId) : Bool :=
  match (s.ctx c).opening with | some o => o.tile == t && o.granted.isSome && o.slot.isNone | none => false
/-- An input of an entry is the one that a request was made for. -/
def asksFor (i : Input) (r : TileReq) : Bool :=
  i.requested && !i.resident && i.tile == r.tile && (i.want == r.want || i.want == .latest)
/-- A user's request failed (R27, R198, R205, R212). A re-acquire that fails by absence has the detail of R33; one that fails
otherwise, of which R33 does not speak, resumes its task into a trap with that cause (DESIGN CHOICE, log 40). -/
def failUser (s : State) (r : TileReq) (f : FaultInfo) : State :=
  match r.user with
  | .ctx c => if (s.ctx c).parked == some r then s.failCtx c f else s
  | .opening c => if s.waitsOpen c r.tile then s.failCtx c f else s
  | .input cl e m =>
    match s.entry cl e with
    | some x =>
      if (x.inputs[m]?).elim false (asksFor · r) then
        (s.setEntry cl e { x with fault := x.fault <|> some { f with i0 := BitVec.ofNat 64 m } }).later 0 (.inputArrival cl e m)
      else s
    | none => s
  | .reacquire cl e i =>
    match s.entry cl e with
    | some x =>
      let g : FaultInfo := match x.retained[i]? with
        | some q =>
          if f.cause == 0x42 then
            ⟨0x42, BitVec.ofNat 64 q.code, q.version.setWidth 64, f.i2,
              q.tile.tensor.setWidth 64 ||| ((q.tile.coord &&& 0xFFFF) <<< 48) ||| (((q.tile.coord >>> 16) &&& 0xFFFF) <<< 32)⟩
          else f
        | none => f
      (s.setEntry cl e { x with
        fault := x.fault <|> some g, retained := x.retained.modify i fun (q : Retained) => { q with lost := true } }).later
        0 (.taskResume cl e)
    | none => s
  | .prefetch _ _ | .peer _ => s
/-- A request finds its slot: CLOCK becomes 3 (R202). -/
def hitSlot (s : State) (cl key : Nat) : State := s.setSlot cl key { s.slot cl key with clock := 3 }
/-- Give a user the slot that serves it: a pin on its behalf, and word of it. A re-acquire that meets PINS at 255 is taken up again by
TASK_RESUME (R201). -/
def serveUser (s : State) (r : TileReq) (key : Nat) : State :=
  let v := (s.slot r.cluster key).version
  match r.user with
  | .ctx c =>
    let x := s.ctx c
    if x.parked == some r && x.served.isNone && x.fault.isNone then
      match (s.hitSlot r.cluster key).pin r.cluster key with
      | some s => (s.setCtx c { x with parked := some { r with want := .exactly v }, served := some key }).later 0 (.parkedTaskResume c)
      | none => s.failCtx c { cause := 0x46 }
    else s
  | .input cl e m =>
    match s.entry cl e with
    | some x =>
      match x.inputs[m]? with
      | some i =>
        if asksFor i r then
          ((s.hitSlot cl key).setEntry cl e { x with
            inputs := x.inputs.set m { i with resident := true, version := v, slot := key } }).later 0 (.inputArrival cl e m)
        else s
      | none => s
    | none => s
  | .reacquire cl e i =>
    match s.entry cl e with
    | some x =>
      match x.retained[i]? with
      | some q =>
        if q.have_ || x.hold then s else
        match (s.hitSlot cl key).pin r.cluster key with
        | some s => (s.setEntry cl e { x with retained := x.retained.set i { q with slot := key, have_ := true } }).later 0 (.taskResume cl e)
        | none => (s.dropAgenda (.taskResume cl e)).later 64 (.taskResume cl e)
      | none => s
    | none => s
  | .prefetch _ _ | .peer _ | .opening _ => s
/-- A slot fails its users and returns to INVALID (R198). -/
def failSlot (s : State) (cl key : Nat) (f : FaultInfo) : State :=
  let us := (s.slot cl key).users
  (us.foldl (fun s r => s.failUser r f) (s.clearSlot cl key)).wakeSlice cl key
/-- The slot lies in a way that is being converted (R207). -/
def converting (s : State) (cl key : Nat) : Bool :=
  match (s.cluster cl).conv with | some v => 16 - v.n ≤ key % 128 / 8 | none => false
/-- A request is made again, into another slot (R207 step 2): one that nothing waits for is given up. -/
def askElsewhere (s : State) (r : TileReq) (klass : BitVec 2) : State :=
  match r.user with
  | .prefetch _ _ => s
  | .opening c => if s.waitsOpen c r.tile then s.askOpen c else s
  | _ => s.requestTile r klass
/-- The OPEN slot of a granted `snew` is ready (R216). -/
def openSlot (s : State) (c key : Nat) (b : Block) (scale : BitVec 128) : State :=
  let x := s.ctx c
  let cl := c / 64
  match x.opening with
  | none => (s.clearSlot cl key).wakeSlice cl key
  | some o =>
    let y : LoamSlot := { state := .openV, tile := o.tile, version := o.granted.getD 0, klass := x.id.klass, pins := 1, clock := 3,
                          data := b, scale := scale }
    (s.setSlot cl key y).setCtx c { x with opening := some { o with slot := some key } }
/-- A slot has its contents: CLEAN, listed, its users served (R193, R199, R205), or OPEN for an `snew` (R216); in a way being
converted it is flushed and its users ask again (R207). -/
def landSlot (s : State) (cl key : Nat) (v : BitVec 32) (b : Block) (scale : BitVec 128) : State :=
  let x := s.slot cl key
  if s.converting cl key then
    x.users.foldl (fun s r => s.askElsewhere r x.klass) ((s.clearSlot cl key).wakeSlice cl key)
  else match x.users.map TileReq.user with
    | .opening c :: _ => if s.waitsOpen c x.tile then s.openSlot c key b scale else (s.clearSlot cl key).wakeSlice cl key
    | us =>
      let s := s.setSlot cl key { x with state := .clean, version := v, data := b, scale := scale, users := [], lines := [], keys := [],
                                         clock := if us.all onlyHint then 1 else 3, hint := 0, desc := none }
      let s := if (s.verOf x.tile).p == v then s.addHolder x.tile cl else s
      (x.users.foldl (fun s r => s.serveUser r key) s).wakeSlice cl key

/-! Homes on other devices: the request goes as TREQ, its operation in INLINE (R358; payload: log 15). -/

/-- The TREQ of a tile operation: 0 request, 1 snew, 2 publish, 3 abandon, 4 forward order, 5 a version
that a peer waits for is there, 6 whether memory still holds a version. -/
def treqFlit (s : State) (gpa : Nat) (t : TileId) (op : Nat) (w : Nat) (v : BitVec 32) (extra : Nat) : Flit :=
  { s.flitTo 0x10 false gpa with
    space := t.space, aux := t.coord,
    inl := BitVec.ofNat 256 (op + 2 ^ 8 * w + 2 ^ 16 * t.tensor.toNat + 2 ^ 40 * v.toNat + 2 ^ 72 * extra) }
/-- A TREQ to a device that is not the tile's home. -/
def treqTo (s : State) (d : Nat) (t : TileId) (op w : Nat) (v : BitVec 32) : Flit :=
  { s.treqFlit 0 t op w v 0 with dst := BitVec.ofNat 8 d }
def wantCode : Want → Nat × BitVec 32
  | .atLeast n => (0, n) | .latest => (1, 0) | .exactly m => (2, m)
/-- Where the home of a tile of a tensor is: none when it is this device's. Fails as the translation of its first element does. -/
def homeOf (s : State) (cl : Nat) (t : TileId) (kind : Access) : Option Tensor → State × Except FaultInfo (Option Nat × Tensor)
  | none => (s, .error { cause := 0x40, i0 := t.tensor.setWidth 64 })
  | some tn =>
    match s.tileHome cl tn t kind with
    | (s, .error f) => (s, .error f)
    | (s, .ok g) => (s, .ok (if s.ownDevice g then none else some g, tn))
/-- Where a tile's home is, by its tensor's descriptor as it is now. -/
def tileAway (s : State) (cl : Nat) (t : TileId) (kind : Access := .fill) : State × Except FaultInfo (Option Nat × Tensor) :=
  match s.tensor cl t.space t.tensor with
  | (s, .error f) => (s, .error f)
  | (s, .ok tn) => s.homeOf cl t kind tn
/-- The same for a slot's fill or write-back, which works with one descriptor from beginning to end: that of its first look
(R186). -/
def slotAway (s : State) (cl key : Nat) (kind : Access) : State × Except FaultInfo (Option Nat × Tensor) :=
  let x := s.slot cl key
  match x.desc with
  | some w => s.homeOf cl x.tile kind (tensorOf w)
  | none =>
    match s.tensorWord cl x.tile.space x.tile.tensor with
    | (s, .error f) => (s, .error f)
    | (s, .ok w) => (s.setSlot cl key { x with desc := w }).homeOf cl x.tile kind (w.bind tensorOf)
/-- The home of a tile is lost: the detail is that of its first element (R212, R374). -/
def homeLost (s : State) (tn : Tensor) (t : TileId) : FaultInfo :=
  s.memFault 0x80 (tn.elemVa t.coord 0 0) (accessCode .fill) 15 0

/-- The channel whose awaiting list holds a tile's requests (R183, R194). -/
def tileChannel (s : State) (cl : Nat) (t : TileId) : Nat :=
  match s.tensor cl t.space t.tensor with
  | (s, .ok (some tn)) => match s.tileHome cl tn t with
    | (s, .ok g) => s.channelOf (localOf g)
    | _ => 0
  | _ => 0
/-- A "latest" request has come to the home, where P was `p`: it and those coalesced with it are requests for at least that from
then on (R193, R214). -/
def arrivedAt (s : State) (r : TileReq) (key : Nat) (p : BitVec 32) : State × TileReq :=
  if r.want != .latest then (s, r)
  else
    let x := s.slot r.cluster key
    let now := fun (u : TileReq) => { u with want := .atLeast p }
    let s := s.setSlot r.cluster key { x with users := x.users.map now }
    (x.users.foldl (fun s u => match u.user with
      | .ctx c => let cx := s.ctx c
                  if cx.parked == some u then s.setCtx c { cx with parked := some (now u) } else s
      | _ => s) s, now r)
/-- Enter a request in the awaiting list of its channel, or make it again later (R194). -/
def listRequest (s : State) (r : TileReq) (wait : Nat) : State :=
  let ch := s.tileChannel r.cluster r.tile
  if (s.homes.awaiting.filter (·.1 == ch)).length < 64 then
    { s with homes := { s.homes with awaiting := s.homes.awaiting ++ [(ch, r)] } }
  else s.later wait (.awaitListRetry r (min 16384 (2 * wait)))
/-- Resolve a request at its home (R193, R194). `wait` is the back-off of a refused request. -/
def homeRequest (s : State) (r : TileReq) (wait : Nat) : State :=
  match s.fillingFor r with
  | none => s
  | some key =>
    match s.slotAway r.cluster key .fill with
    | (s, .error f) => s.failSlot r.cluster key f
    | (s, .ok (some g, tn)) =>
      let (w, n) := wantCode r.want
      if s.deviceLost (devOf g) then s.failSlot r.cluster key (s.homeLost tn r.tile)
      else
        let s := s.setSlot r.cluster key { s.slot r.cluster key with backoff := wait }
        (s.send (s.treqFlit g r.tile 0 w n 0) (.tile r)).2
    | (s, .ok (none, _)) =>
      let (s, r) := s.arrivedAt r key (s.verOf r.tile).p
      let x := s.slot r.cluster key
      match s.resolve r.tile r.want r.cluster with
      | .local_ k =>
        if opens_ r.user then
          let y := s.slot r.cluster k
          s.landSlot r.cluster key y.version y.data y.scale
        else x.users.foldl (fun s u => s.serveUser u k) ((s.clearSlot r.cluster key).wakeSlice r.cluster key)
      | .fill v => (s.setSlot r.cluster key { x with version := v }).later 0 (.tileFill r.cluster key)
      | .forward v h => s.later 0 (.tileForward r h v)
      | .absent => s.failSlot r.cluster key { cause := 0x42, i2 := (s.verOf r.tile).m.setWidth 64 }
      | .fail f => s.failSlot r.cluster key f
      | .await =>
        let s := s.skipHints r.cluster key
        if (s.slot r.cluster key).users.isEmpty then s else s.listRequest r wait
/-- Serve the awaiting list after a publish, in arrival order (R194). -/
def serveAwaiting (s : State) (t : TileId) : State :=
  let p := (s.verOf t).p
  let ready := fun (r : TileReq) => r.tile == t && (match r.want with | .atLeast n => n.toNat ≤ p.toNat | _ => true)
  let l := s.homes.awaiting.filter fun (_, r) => ready r
  let s := { s with homes := { s.homes with awaiting := s.homes.awaiting.filter fun (_, r) => !ready r } }
  l.foldl (fun s (_, r) => match r.user with
    | .peer d => (s.send (s.treqTo d t 5 0 p) .plain).2
    | _ => s.homeRequest r 256) s

/-! Open versions (R195, R216). -/

/-- The home's answer to an `snew` (R195, R216). -/
def snewHome (s : State) (t : TileId) (n : BitVec 32) (next : Bool) : Except FaultInfo (BitVec 32) :=
  let e := s.verOf t
  if next then
    if e.p == BitVec.allOnes 32 then .error { cause := 0x42, i1 := 0, i2 := e.p.setWidth 64 }
    else if e.openV.isSome then .error { cause := 0x42, i1 := (e.p + 1).setWidth 64, i2 := e.p.setWidth 64 }
    else .ok (e.p + 1)
  else if e.p.toNat < n.toNat && e.openV.isNone then .ok n
  else .error { cause := 0x42, i1 := n.setWidth 64, i2 := e.p.setWidth 64 }
/-- A publish at its home (R195). -/
def publishHome (s : State) (t : TileId) (v : BitVec 32) (owner : Nat) : State :=
  let e := s.verOf t
  (s.setVer t { e with p := v, openV := none, owner := some owner, holders := [], lostPeer := false }).serveAwaiting t
/-- The publish of a version of a tile by this device is on its way to the home (R217). -/
def publishing (s : State) (t : TileId) (v : Option (BitVec 32)) : Bool :=
  let is := fun (u : TileId) (n : BitVec 32) => u == t && (match v with | some m => m == n | none => true)
  (s.agenda.any fun (_, i) => match i with | .publishAtHome u n _ => is u n | _ => false)
    || s.fab.txns.any fun x => match x.use_ with | .publish u n => is u n | _ => false
/-- The tile has no open version at its home any more (R195). -/
def abandonHome (s : State) (t : TileId) (v : BitVec 32) : State :=
  let e := s.verOf t
  if (e.openV.map Prod.fst) == some v then s.setVer t { e with openV := none } else s

/-! Write-backs (R196, R200). -/

/-- M := v when a merge is performed; the owner's slot is then a holder's, and the earliest of more than three holders leaves
(R193, R196). -/
def mergedHome (s : State) (t : TileId) (v : BitVec 32) : State :=
  let e := s.verOf t
  let e := { e with m := v }
  let l := e.owner.toList ++ e.holders
  s.setVer t (if v == e.p then { e with owner := none, holders := l.drop (l.length - 3) } else e)
/-- A write-back has ended: the slot's new state, the `twb`'s access complete (R196, R226). -/
def endWriteback (s : State) (cl key : Nat) (st : SlotState) : State :=
  let x := s.slot cl key
  let s := s.setSlot cl key { x with
    state := st, wbCtx := none, lineFail := none, puts := none, home := none, desc := none, keys := [] }
  let s := match x.wbCtx with | some (_, id, _) => s.closeAccess id | none => s
  s.wakeSlice cl key
/-- A failing write-back is discarded (R200, R418). -/
def failWriteback (s : State) (cl key : Nat) (f : FaultInfo) : State :=
  let x := s.slot cl key
  if f.cause == 0xB2 then s.endWriteback cl key .dirty
  else
    let s := s.log (cl / 16) 5 (cl % 16) x.tile.space f.cause f.i1 0 0
    let s : State := match x.wbCtx with
      | some (_, id, h) => s.reportFail id 4 { f with i0 := 0, i3 := h.setWidth 64 }
      | none => s
    s.endWriteback cl key .clean
/-- The slot is being evicted (R198). -/
def evicting (x : LoamSlot) : Bool := x.state == .writeback && x.wbCtx.isNone && x.pins == 0
/-- A write-back of the tile has merged lines on other devices and not yet set M. -/
def merging (s : State) (t : TileId) : Bool :=
  (s.homes.incoming.any fun (i : TileIn) => i.tile == t)
    || s.clusters.any fun (_, c) => c.loam.any fun (_, x) => x.tile == t && x.state == .writeback && x.puts.isSome

/-- The first page of a tile's addresses, its σ bytes' among them, that grants of other devices block: they must be revoked before a
fill or a write-back (R196, R286, R378). -/
def tileBlocked (s : State) (pg : Table Xlat) (tn : Tensor) (t : TileId) (w : Bool) : Option Nat :=
  if s.homes.grants.any fun (p, _) => s.ownDevice (65536 * p) then
    ((tileVas tn t.coord).map fun va => mapped pg va).findSome? fun x =>
      if s.ownDevice x.gpa && s.grantBlocks (x.gpa / 65536) w then some (x.gpa / 65536) else none
  else none
/-- The TWB of a slot (R358): the part of its data, or 16 when the writer is about to merge the tile's lines itself, 17 when they
are all merged, 18 when that failed (payload: log 15). -/
def twbFlit (s : State) (gpa : Nat) (x : LoamSlot) (part : Nat) : Flit :=
  let f := s.flitTo 0x11 true gpa
  { f with
    space := x.tile.space, aux := x.tile.coord, len := if part < 16 then 4 else 0,
    inl := BitVec.ofNat 256 (part + 2 ^ 16 * x.tile.tensor.toNat + 2 ^ 40 * x.version.toNat + 2 ^ 128 * x.scale.toNat),
    data := if part < 16 then x.data.extractLsb' (2048 * part) 2048 else 0 }
/-- A write-back whose lines the writer merges has failed (R200). -/
def failMerge (s : State) (cl key : Nat) (f : FaultInfo) : State :=
  let x := s.slot cl key
  let s := match x.home with | some g => (s.send (s.twbFlit g x 18) .plain).2 | none => s
  s.failWriteback cl key f
/-- The lines of other devices are merged: what is homed here follows, and M := v at the tile's home (R196, R200). -/
def finishMerge (s : State) (cl key : Nat) (tn : Tensor) (pg : Table Xlat) : State :=
  let x := s.slot cl key
  match x.lineFail with
  | some (l, e) =>
    let (va, leaf) := (((s.awayLines pg (tileVas tn x.tile.coord)).find? (·.1 == l)).map Prod.snd).getD (0, 0)
    s.failMerge cl key (s.memFault e va (accessCode .writeback) 15 leaf)
  | none =>
    match s.tileBlocked pg tn x.tile true with
    | some page => (s.revokeFor page true x.tile.space).later 16 (.tileWritebackMerge cl key)
    | none =>
      match s.writeMapped pg tn x.tile x.data x.scale with
      | (s, some f) => s.failMerge cl key f
      | (s, none) =>
        match x.home with
        | some g => (s.send (s.twbFlit g x 17) (.tileWrite cl key)).2
        | none => (s.mergedHome x.tile x.version).endWriteback cl key .clean
/-- Merge a tile line by line on other devices (R374, R383): the merges go out, and their ends let the rest follow. -/
def sendMerges (s : State) (cl key : Nat) (tn : Tensor) (pg : Table Xlat) : State :=
  let x := s.slot cl key
  let l := s.awayMerges pg tn x.tile x.data x.scale
  match (tileVas tn x.tile.coord).findSome? (s.unwritable pg), l.find? fun (l, _) => s.deviceLost (devOf (128 * l)) with
  | some f, _ => s.failMerge cl key f
  | none, some (_, va, leaf, _) => s.failMerge cl key (s.memFault 0x80 va (accessCode .writeback) 15 leaf)
  | none, none =>
    let s := s.setSlot cl key { x with puts := some 0 }
    let s := l.foldl (fun s (l, va, leaf, m, d) =>
      let k := leaf.extractLsb' 8 8
      match s.sendMerge x.tile.space k l m d (.tilePut cl key va) with
      | (s, none) =>
        let y := s.slot cl key
        s.setSlot cl key { y with puts := y.puts.map (· + 1) }
      | (s, some e) =>
        let y := s.slot cl key
        s.setSlot cl key { y with lineFail := y.lineFail <|> some (l, e) }) s
    if (s.slot cl key).puts == some 0 then s.finishMerge cl key tn pg else s
/-- A fill of the tile from this device's memory is going on: a merge that would take the version it reads from memory waits (R193,
R214). -/
def fillGoing (s : State) (t : TileId) : Bool :=
  s.clusters.any fun (cl, c) => c.loam.any fun (k, x) => x.state == .filling && x.tile == t
    && ((s.agenda.any fun (_, i) => i == .tileFill cl k)
      || s.fab.txns.any fun y => match y.use_ with | .tileLine c j _ => c == cl && j == k | _ => false)
/-- Every address of the tile is plain memory of the device of its home. -/
def wholeAway (pg : Table Xlat) (g : Nat) : Bool := pg.all fun (_, x) => devOf x.gpa == devOf g && x.leaf.extractLsb' 8 8 == 0
/-- Take a write-back one step further (R196, R200): merged when v > M, else discarded. It follows this device's publish of the
version (R279). -/
def mergeSlot (s : State) (cl key : Nat) : State :=
  let x := s.slot cl key
  let sent := s.fab.txns.any fun y => match y.use_ with | .tileWrite c k => c == cl && k == key | _ => false
  if x.state != .writeback || sent || x.puts.any (0 < ·) then s
  else if s.publishing x.tile (some x.version) then s.later 1 (.tileWritebackMerge cl key)
  else match s.slotAway cl key .writeback with
    | (s, .error f) => s.failWriteback cl key f
    | (s, .ok (away, tn)) =>
      let x := s.slot cl key
      if away.isNone && x.version.toNat ≤ (s.verOf x.tile).m.toNat then s.endWriteback cl key .clean
      else match s.mapPages cl x.tile.space .writeback (tileVas tn x.tile.coord) [] with
        | (s, .error f) => s.failWriteback cl key f
        | (s, .ok pg) =>
          if x.puts.isSome then s.finishMerge cl key tn pg
          else if away.isNone && (s.merging x.tile || s.fillGoing x.tile) then s.later 16 (.tileWritebackMerge cl key)
          else match away with
            | none => match s.tileBlocked pg tn x.tile true with
              | some page => (s.revokeFor page true x.tile.space).later 16 (.tileWritebackMerge cl key)
              | none => s.sendMerges cl key tn pg
            | some g =>
              if s.deviceLost (devOf g) then s.failWriteback cl key (s.memFault 0x80 (tn.elemVa x.tile.coord 0 0) (accessCode .writeback) 15 0)
              else
                let whole := wholeAway pg g
                let s := s.setSlot cl key { x with home := if whole then none else some g }
                (s.send (s.twbFlit g x (if whole then 0 else 16)) (.tileWrite cl key)).2
/-- A slot's pages and their merge: `go` continues, a failure ends the write-back (R200). -/
def withPages (s : State) (cl key : Nat) (go : State → Tensor → Table Xlat → State) : State :=
  let x := s.slot cl key
  match s.slotAway cl key .writeback with
  | (s, .error f) => s.failMerge cl key f
  | (s, .ok (_, tn)) =>
    match s.mapPages cl x.tile.space .writeback (tileVas tn x.tile.coord) [] with
    | (s, .error f) => s.failMerge cl key f
    | (s, .ok pg) => go s tn pg
/-- A merge of a line has ended on another device. -/
def putEnded (s : State) (cl key l : Nat) (status : BitVec 8) : State :=
  let x := s.slot cl key
  match x.puts with
  | none => s
  | some n =>
    let y : LoamSlot := { x with puts := some (n - 1), lineFail := x.lineFail <|> (if status == 0 then none else some (l, status)) }
    let s := s.setSlot cl key y
    if n ≤ 1 then s.withPages cl key fun s tn pg => s.finishMerge cl key tn pg else s
/-- The home has answered a TWB (R196, R358): `v` is 1 when it discards the write-back, 2 when it takes another one of the tile, and
the failing address with a cause. -/
def twbAnswer (s : State) (cl key part : Nat) (status : BitVec 8) (v : Nat) : State :=
  let x := s.slot cl key
  if x.state != .writeback then s
  else if status != 0 then
    let va : Dbl := match v, x.desc.bind tensorOf with
      | 0, some tn => tn.elemVa x.tile.coord 0 0
      | _, _ => BitVec.ofNat 64 v
    s.failWriteback cl key (s.memFault status va (accessCode .writeback) 15 0)
  else if v == 2 then s.later 64 (.tileWritebackMerge cl key)
  else if v == 1 || part == 15 || part == 17 then s.endWriteback cl key .clean
  else if part == 16 then s.withPages cl key fun s tn pg => s.sendMerges cl key tn pg
  else match s.slotAway cl key .writeback with
    | (s, .ok (some g, _)) => (s.send (s.twbFlit g x (part + 1)) (.tileWrite cl key)).2
    | (s, .ok (none, _)) => s.endWriteback cl key .clean
    | (s, .error f) => s.failWriteback cl key f

/-! Fills (R199, R374). -/

/-- Ask for lines of other devices that a fill reads. -/
def askLines (s : State) (cl key : Nat) (sp : BitVec 6) (l : List (Nat × Dbl × Dbl)) : State :=
  l.foldl (fun s (n, _, leaf) =>
    let f0 : Flit := s.flitTo 0x02 false (128 * n)
    let f : Flit := { f0 with space := sp, key := leaf.extractLsb' 8 4, inl := 2 }
    if s.deviceLost f.dst then
      let x := s.slot cl key
      s.setSlot cl key { x with lineFail := x.lineFail <|> some (n, 0x80) }
    else if s.fab.txns.any fun x => x.use_ == .tileLine cl key n then s
    else (s.send f (.tileLine cl key n)).2) s
/-- Perform a fill with the lines it has read of other devices. -/
def fillSlot (s : State) (cl key : Nat) (tn : Tensor) : State :=
  let x := s.slot cl key
  match s.fillData cl tn x.tile x.version x.lines with
  | (s, .error f) => s.failSlot cl key f
  | (s, .ok (b, sc)) => s.landSlot cl key x.version b sc
/-- A fill starts again: the home resolves its request again. -/
def refill (s : State) (cl key : Nat) : State :=
  let x := s.slot cl key
  match x.users.head? with
  | some r => (s.setSlot cl key { x with lines := [], lineFail := none, desc := none }).later 0 (.homeTileRequest r)
  | none => (s.clearSlot cl key).wakeSlice cl key
/-- Take a fill one step further (R199): its pages are translated, the lines it needs of other devices are read, and it is
performed while memory still holds its version; else the home resolves again. -/
def fillStep (s : State) (cl key : Nat) (r : TileReq) : State :=
  match s.slotAway cl key .fill with
  | (s, .error f) => s.failSlot cl key f
  | (s, .ok (away, tn)) =>
    let x := s.slot cl key
    if away.isNone && (s.verOf x.tile).m != x.version then s.refill cl key
    else if away.isNone && s.merging x.tile then s.later 16 (.tileFill cl key)
    else match s.mapPages cl x.tile.space .fill (tileVas tn x.tile.coord) [] with
      | (s, .error f) => s.failSlot cl key f
      | (s, .ok pg) =>
        match s.tileBlocked pg tn x.tile false with
        | some page => (s.revokeFor page false x.tile.space).later 16 (.tileFill cl key)
        | none =>
          let all := s.awayLines pg (tileVas tn x.tile.coord)
          let need := all.filter fun (l, _) => !x.lines.any (·.1 == l)
          let s := if x.lineFail.isNone then s.askLines cl key x.tile.space need else s
          match (s.slot cl key).lineFail with
          | some (l, e) =>
            let (va, leaf) := ((all.find? (·.1 == l)).map Prod.snd).getD (0, 0)
            s.failSlot cl key (s.memFault e va (accessCode .fill) 15 leaf)
          | none =>
            if !need.isEmpty then s
            else match away with
              | some g => (s.send (s.treqFlit g x.tile 6 0 x.version 0) (.tile r)).2
              | none => s.fillSlot cl key tn
/-- A line of another device has come for a fill, or could not be had (R374, R384). -/
def fillLineArrived (s : State) (cl key l : Nat) (d : Except (BitVec 8) (BitVec 1024)) : State :=
  let x := s.slot cl key
  if x.state != .filling then s
  else
    let y : LoamSlot := match d with
      | .ok v => { x with lines := tset x.lines l v }
      | .error e => { x with lineFail := x.lineFail <|> some (l, e) }
    let s := s.setSlot cl key y
    if s.fab.txns.any fun x => match x.use_ with | .tileLine c k _ => c == cl && k == key | _ => false then s
    else s.later 0 (.tileFill cl key)
/-- Fills for binds and for Lantern go before those of itineraries (R205). -/
def yields (s : State) (x : LoamSlot) (cl : Nat) : Bool :=
  (x.users.all fun r => onlyHint r.user) && s.agenda.any fun (t, i) => match i with
    | .tileFill c k => c == cl && t ≤ s.cycle && (s.slot c k).users.any fun r => !onlyHint r.user
    | _ => false

/-! The allocation queue of a slice (R204). -/

/-- The waiting allocations of a slice in the order they are served: those of itineraries after the others (R204, R205). -/
def allocOrder (s : State) (cl slice : Nat) : List AllocWait :=
  let l := (s.cluster cl).allocs.filter (·.slice == slice)
  (l.filter fun a => !onlyHint a.req.user) ++ l.filter fun a => onlyHint a.req.user
/-- Note the way that an allocation waits for. -/
def setAllocWay (s : State) (cl id : Nat) (w : Option Nat) : State :=
  let c := s.cluster cl
  s.setCluster cl { c with allocs := c.allocs.map fun (b : AllocWait) => if b.id == id then { b with way := w } else b }
/-- Two waiting allocations are for one tile and one requirement (R192). -/
def sameAlloc (a b : AllocWait) : Bool :=
  !a.openV && !b.openV && a.req.tile == b.req.tile && a.req.want == b.req.want
/-- What a waiting allocation is for is on its way or here already: it takes no way (R192). -/
def joinAlloc (s : State) (cl : Nat) (a : AllocWait) : Option State :=
  let c := s.cluster cl
  let out := s.setCluster cl { c with allocs := c.allocs.filter (·.id != a.id) }
  if a.openV then none
  else match s.fillingFor a.req with
    | some _ => some (out.requestTile a.req a.klass)
    | none => (s.localHit cl a.req.tile a.req.want).map (out.serveUser a.req)
/-- An allocation goes with another for the same tile and requirement, which has a way or stands before it (R192). -/
def ridesWith (s : State) (cl : Nat) (a : AllocWait) : Bool :=
  let l := s.allocOrder cl a.slice
  a.way.isNone && ((l.any fun b => sameAlloc b a && b.way.isSome)
    || (l.takeWhile fun b => b.id != a.id).any fun b => sameAlloc b a && b.klass == a.klass)
/-- An allocation has its way, whose slot is INVALID: the slot is FILLING, for the equal requests too, or OPEN for an `snew` that
copies nothing. -/
def takeWay (s : State) (cl : Nat) (a : AllocWait) (w : Nat) : State :=
  let c := s.cluster cl
  let s := s.setCluster cl { c with allocs := c.allocs.filter (·.id != a.id) }
  let key := 128 * a.slice + 8 * w + a.set
  if a.openV then
    match a.req.user with
    | .ctx c => match (s.ctx c).opening with
      | some o =>
        if o.copy then s.startFilling ⟨o.tile, .latest, .opening c, cl⟩ key a.klass
        else s.openSlot c key 0 (BitVec.ofNat 128 0x80808080808080808080808080808080)
      | none => s
    | _ => s
  else
    let c := s.cluster cl
    let (same, rest) := c.allocs.partition (sameAlloc a)
    (s.setCluster cl { c with allocs := rest }).startFilling a.req key a.klass (same.map AllocWait.req)
/-- Serve one waiting allocation: it is coalesced, takes the way it waited for, goes on waiting for a wake or a write-back that has
not been pinned, or chooses a victim again. -/
def tryAlloc (s : State) (cl : Nat) (a : AllocWait) : State :=
  if !(s.cluster cl).allocs.any (·.id == a.id) || s.ridesWith cl a then s else
  match s.joinAlloc cl a with
  | some t => t
  | none =>
  let again := fun (s : State) => match s.allocate cl a.slice a.set a.klass with
    | (s, .got w) => s.takeWay cl a w
    | (s, .waitFor w) => s.setAllocWay cl a.id (some w)
    | (s, .full) => s.setAllocWay cl a.id none
  match a.way with
  | none => again s
  | some w =>
    let key := 128 * a.slice + 8 * w + a.set
    let x := s.slot cl key
    if (s.cluster cl).waking.contains (16 * a.slice + w) || evicting x then s
    else if (s.allowedWays cl a.klass).contains w && (x.state == .invalid || (x.state == .clean && x.pins == 0)) then
      (s.clearSlot cl key).takeWay cl a w
    else again s

end State

/-! The events. -/

/-- HOME_TILE_REQUEST (R193). -/
def execHomeTileRequest (r : TileReq) (s : State) : Host.Outcome State Fault Refusal := .next (s.homeRequest r 256)
/-- AWAIT_LIST_RETRY (R194). -/
def execAwaitListRetry (r : TileReq) (wait : Nat) (s : State) : Host.Outcome State Fault Refusal := .next (s.homeRequest r wait)
/-- TILE_FILL (R199): the version resolved is filled if memory still holds it; otherwise the home resolves again. -/
def execTileFill (cl slot : Nat) (s : State) : Host.Outcome State Fault Refusal :=
  let x := s.slot cl slot
  .next (if x.state != .filling then s else
    match x.users.head? with
    | none => (s.clearSlot cl slot).wakeSlice cl slot
    | some r => if s.yields x cl then s.later 1 (.tileFill cl slot) else s.underKeys x.keys fun s => s.fillStep cl slot r)
/-- TILE_FORWARD (R193): a holder's slot is copied, or the holder answers absent and the home resolves again. A holder that
evicts the slot answers absent once its write-back has reached the home (R198). -/
def execTileForward (r : TileReq) (holder : Nat) (v : BitVec 32) (s : State) : Host.Outcome State Fault Refusal :=
  .next (match s.fillingFor r with
    | none => s
    | some key =>
      if 1000 ≤ holder then
        match s.slotAway r.cluster key .fill with
        | (s, .ok _) => (s.send (s.treqTo (holder - 1000) r.tile 4 0 v) (.tile r)).2
        | (s, .error f) => s.failSlot r.cluster key f
      else match s.localHit holder r.tile (.exactly v) with
        | some k =>
          let x := s.slot holder k
          if State.evicting x then
            let s := s.mergeSlot holder k
            if State.evicting (s.slot holder k) then s.later 1 (.tileForward r holder v)
            else (s.dropHolder r.tile holder).later 0 (.homeTileRequest r)
          else s.landSlot r.cluster key v x.data x.scale
        | none => (s.dropHolder r.tile holder).later 0 (.homeTileRequest r))
/-- LOAM_ALLOCATION (R204): the slice's queue is served in arrival order. -/
def execLoamAllocation (cl slice : Nat) (s : State) : Host.Outcome State Fault Refusal :=
  .next ((s.allocOrder cl slice).foldl (fun s a => s.tryAlloc cl a) s)
/-- ALLOCATION_TIMEOUT (R204): a bind's allocation that has got no slot and can be coalesced with none is refused with
LOAM_PIN_OVERFLOW, detail 2 (R212). -/
def execAllocationTimeout (cl id : Nat) (s : State) : Host.Outcome State Fault Refusal :=
  let c := s.cluster cl
  .next (match c.allocs.find? (·.id == id) with
    | none => s
    | some a =>
      match s.joinAlloc cl a with
      | some t => t
      | none =>
        let s := (s.setCluster cl { c with allocs := c.allocs.filter (·.id != id) }).wakeSlice cl (128 * a.slice)
        match a.req.user with
        | .ctx x => s.failCtx x { cause := 0x46, i0 := 2 }
        | _ => s)
/-- SNEW_AT_HOME (R195, R216). -/
def execSnewAtHome (c : Nat) (tile : TileId) (n : BitVec 32) (next : Bool) (s : State) : Host.Outcome State Fault Refusal :=
  let x := s.ctx c
  .next (if !(x.opening.any fun o => o.tile == tile && o.granted.isNone) then s
    else
      match s.tileAway (c / 64) tile with
      | (s, .error f) => s.setCtx c { x with opening := none, fault := some f }
      | (s, .ok (some g, tn)) =>
        let r : TileReq := ⟨tile, .exactly n, .ctx c, c / 64⟩
        if s.deviceLost (devOf g) then s.setCtx c { x with opening := none, fault := some (s.homeLost tn tile) }
        else (s.send (s.treqFlit g tile 1 0 n (if next then 1 else 0)) (.tile r)).2
      | (s, .ok (none, _)) =>
        match s.snewHome tile n next with
        | .error f => s.setCtx c { x with opening := none, fault := some f }
        | .ok v => (s.setVer tile { s.verOf tile with openV := some (v, c / 64) }).grantOpen c v)
/-- PUBLISH_AT_HOME (R195): P := v, the awaiting list is served, the `spub` is complete (R276). -/
def execPublishAtHome (tile : TileId) (v : BitVec 32) (cl : Nat) (s : State) : Host.Outcome State Fault Refusal :=
  .next (match s.tileAway cl tile with
    | (s, .ok (some g, _)) => (s.send (s.treqFlit g tile 2 0 v 0) (.publish tile v)).2
    | (s, _) => (s.publishHome tile v cl).closePublish tile v)
/-- ABANDON_AT_HOME (R195). -/
def execAbandonAtHome (tile : TileId) (v : BitVec 32) (s : State) : Host.Outcome State Fault Refusal :=
  .next (match s.tileAway 0 tile with
    | (s, .ok (some g, _)) => (s.send (s.treqFlit g tile 3 0 v 0) .plain).2
    | (s, _) => s.abandonHome tile v)
/-- TILE_WRITEBACK_MERGE (R196, R200): merged when v > M, else discarded. -/
def execTileWritebackMerge (cl slot : Nat) (s : State) : Host.Outcome State Fault Refusal :=
  .next (s.underKeys (s.slot cl slot).keys fun s => s.mergeSlot cl slot)
/-- VERSION_WAIT_TIMEOUT (R27, R32): VWAIT has passed. A parked bind that no slot has served traps; a tile served later fills Loam
only. An input that does not wait for its version (it waits for a slot or a fill) is looked at again. -/
def execVersionWaitTimeout (u : TileUser) (s : State) : Host.Outcome State Fault Refusal :=
  .next (match u with
    | .ctx c =>
      let x := s.ctx c
      match x.parked, x.waitSince with
      | some _, some t0 =>
        if x.served.isSome || x.fault.isSome || s.cycle - t0 ≤ s.vwaitCycles x.id.space then s
        else (s.setCtx c { x with fault := some { cause := 0x43 }, timedOut := true }).later 0 (.parkedTaskResume c)
      | _, _ => s
    | .input cl e m =>
      match s.entry cl e with
      | some x =>
        match x.inputs[m]? with
        | some i =>
          if !i.requested || i.resident || x.state != .pending || s.cycle - x.acceptedAt ≤ s.vwaitCycles i.tile.space then s
          else if s.awaitsVersion ⟨i.tile, i.want, u, cl⟩ then
            (s.setEntry cl e { x with fault := x.fault <|> some { cause := 0x43, i0 := BitVec.ofNat 64 m } }).later 0 (.inputArrival cl e m)
          else s.later 64 (.versionWaitTimeout u)
        | none => s
      | none => s
    | _ => s)
/-- PARKED_TASK_RESUME (R32): the parked bundle is presented again. -/
def execParkedTaskResume (c : Nat) (s : State) : Host.Outcome State Fault Refusal :=
  let x := s.ctx c
  .next (if x.served.isSome || x.fault.isSome then s.setCtx c { x with waitSince := none } else s)
namespace State

/-- Entries of an itinerary whose tiles are on their way. -/
def walking (s : State) (cl id : Nat) : Nat :=
  let mine := fun (r : TileReq) => r.user == .prefetch cl id
  let c := s.cluster cl
  (c.allocs.filter fun a => mine a.req).length + (c.loam.filter fun (_, x) => x.state == .filling && x.users.any mine).length

end State
/-- ITINERARY_ENTRY (R205, R227): the next entry, with at most 16 in flight. -/
def execItineraryEntry (cl id : Nat) (s : State) : Host.Outcome State Fault Refusal :=
  let c := s.cluster cl
  .next (match c.itineraries.find? (·.id == id) with
    | none => s
    | some it =>
      let stop (s : State) : State :=
        let c := s.cluster cl
        s.setCluster cl { c with itineraries := c.itineraries.filter (·.id != id) }
      if 16 ≤ s.walking cl id then s.later 16 (.itineraryEntry cl id)
      else match s.readVa cl it.space it.va 16 .read with
      | (s, .error _) => stop s
      | (s, .ok v) =>
        let t : TileId := ⟨it.space, BitVec.ofNat 20 (v / 2 ^ 96), BitVec.ofNat 64 v⟩
        let want : Want := if (v / 2 ^ 116) % 2 == 1 then .atLeast (BitVec.ofNat 32 (v / 2 ^ 64)) else .latest
        let s := match s.tensor cl t.space t.tensor with
          | (s, .ok (some tn)) =>
            if tn.coordOk t.coord && (s.localHit cl t want).isNone then s.requestTile ⟨t, want, .prefetch cl id, cl⟩ it.klass else s
          | (s, _) => s
        if (v / 2 ^ 117) % 2 == 1 then stop s
        else
          let c := s.cluster cl
          (s.setCluster cl { c with itineraries := c.itineraries.map fun (i : Itinerary) => if i.id == id then { i with va := i.va + 16 } else i }).later
            0 (.itineraryEntry cl id))

end Sys2Proof.Machine
end

