-- ==== Sys2Proof/Machine/Tile.lean ====
section
/-! DEFINITION. The tile words of the T slot (R210 to R232), cluster scratch accesses (R229, R230), way conversion (R207,
R208) and the gating of ways (R209). -/

namespace Sys2Proof.Machine
namespace State

/-! Checks (R211, R212). -/

/-- The slot holds the version that a stream of the context is bound to: not after a version that was retained is lost (R33). -/
def slotOfStream (s : State) (w : BitVec 512) (x : LoamSlot) : Bool :=
  x.tile == ⟨s.cx.id.space, wTensor w, wCoord w⟩ && x.version == wVersion w
/-- The stream is bound to an OPEN slot. -/
def isOpen (s : State) (w : BitVec 512) : Bool :=
  let x := s.slot s.hereCluster (wSlot w)
  wBound w && x.state == .openV && s.slotOfStream w x
/-- The slot of a stream has an `mst` that has not ended (R176, R231). -/
def storing (s : State) (w : BitVec 512) : Bool := s.cx.mat.storing.contains (wSlot w)
/-- A stream number as TINFO holds it. -/
def wNum (w : BitVec 4) : Dbl := w.setWidth 64
/-- Read a tile reference and make checks 4 and 5 of R212: descriptor, tile and version n. -/
def tileRef (s : State) (w : BitVec 4) (a b : BitVec 5) : State × Except FaultInfo (Tensor × TileId × BitVec 32) :=
  let t : TileId := ⟨s.cx.id.space, (s.rx b).setWidth 20, s.rx a⟩
  match s.tensor s.hereCluster t.space t.tensor with
  | (s, .error f) => (s, .error f)
  | (s, .ok none) => (s, .error ⟨0x40, t.tensor.setWidth 64, wNum w, 0, 0⟩)
  | (s, .ok (some tn)) =>
    if tn.coordOk t.coord then (s, .ok (tn, t, (s.rx b).extractLsb' 32 32))
    else (s, .error ⟨0x41, t.tensor.setWidth 64, t.coord, 0, 0⟩)
/-- The requirement of a REQ field (R192). -/
def wantOf (r : BitVec 2) (n : BitVec 32) : Want := if r == 0 then .latest else .atLeast n
/-- The detail of a failure that arose while a word waited (R212 checks 7 to 9); `who` is the stream number or the
spin-table code of R33. -/
def waitFault (s : State) (f : FaultInfo) (who num : Dbl) : FaultInfo :=
  if f.cause == 0x46 then { f with i1 := num }
  else if f.cause == 0x43 then { f with i0 := who, i1 := num }
  else if 0x20 ≤ f.cause && f.cause ≤ 0x2F then
    { f with i0 := who, i2 := (f.i2 &&& ~~~7) ||| BitVec.ofNat 64 (s.issue.slot % 8) }
  else { f with i0 := who }

/-! Lookup, park and replay (R214, R32). -/

/-- Look a tile up: a hit gives the slot and whether its pin was taken while the task was parked (the slot that served it);
otherwise the state in which the word traps or its task parks. `drop` undoes what the word reserved when it traps. VWAIT runs anew
from each presentation that parks, so also after a pre-emption of the parked task (the spec is silent on that; DESIGN CHOICE,
log 40). -/
def seek (s : State) (t : TileId) (want : Want) (who num : Dbl) (drop : State → State) :
    Except State (State × Nat × Bool) :=
  match s.cx.fault with
  | some f =>
    let s1 : State := { s with cx := { s.cx with fault := none } }
    .error ((drop s1).takeTrap (s.waitFault f who num))
  | none =>
    let again := s.cx.parked.any fun q => q.tile == t
    let go := fun (k : Nat) (pinned : Bool) =>
      (({ s with cx := { s.cx with parked := none, served := none, timedOut := false, waitSince := none } } : State), k, pinned)
    match again, s.cx.served with
    | true, none => .error s.park
    | true, some k => .ok (go k true)
    | false, _ =>
      match s.localHit s.hereCluster t want with
      | some k => .ok (go k false)
      | none =>
        let r : TileReq := ⟨t, want, .ctx s.here, s.hereCluster⟩
        let s1 : State := { s with cx := { s.cx with
          parked := some r, parkedAs := who.toNat, served := none, timedOut := false, waitSince := some s.cycle } }
        .error (((s1.requestTile r s.cx.id.klass).later (s.vwaitCycles s.cx.id.space + 1) (.versionWaitTimeout (.ctx s.here))).park)
/-- Release the binding of a stream register (R218): the slot loses the pin, an OPEN version is abandoned (R195). The
register itself is not changed. -/
def releaseStream (s : State) (w : BitVec 512) : State :=
  if !wBound w then s
  else if s.isOpen w then
    let x := s.slot s.hereCluster (wSlot w)
    ((s.clearSlot s.hereCluster (wSlot w)).wakeSlice s.hereCluster (wSlot w)).later 0 (.abandonAtHome x.tile x.version)
  else if s.slotOfStream w (s.slot s.hereCluster (wSlot w)) then s.unpin s.hereCluster (wSlot w)
  else s
/-- A hit refreshes CLOCK; a hint other than 00 replaces the slot's (R202, R213). -/
def touch (s : State) (key : Nat) (h : BitVec 2) : State :=
  let x := s.slot s.hereCluster key
  s.setSlot s.hereCluster key { x with clock := 3, hint := if h == 0 then x.hint else h }
/-- Bind a stream for reading to a slot (R213): the old binding is released, a pin is added unless the slot already holds
one for the bind. None when PINS is 255. -/
def bindRead (s : State) (w : BitVec 4) (tn : Tensor) (t : TileId) (key : Nat) (h : BitVec 2) (pinned : Bool) :
    Option (State × BitVec 512) :=
  let s1 := s.releaseStream (s.rw w)
  match if pinned then some s1 else s1.pin s.hereCluster key with
  | none => none
  | some s2 => some (s2.touch key h, bindStream tn t (s.slot s.hereCluster key).version key 1)

/-! The spin table (R219). -/

/-- The Lantern entry of the context's task: taskid bits [10:0]. -/
def taskEntry (s : State) : Option Entry := s.entry s.hereCluster (s.cx.id.taskid.toNat % 2048)
def setTaskEntry (s : State) (e : Entry) : State := s.setEntry s.hereCluster (s.cx.id.taskid.toNat % 2048) e
/-- The entry is free: no spin is in force and none is waited for. -/
def spinFree (e : Spin) : Bool := e.slots.isEmpty && e.held == 0
/-- The entry that lists a tile, or the lowest free one (R212). -/
def spinIndex (l : List Spin) (t : TileId) : Option Nat :=
  match l.findIdx? fun e => !spinFree e && e.tile == t with
  | some i => some i
  | none =>
    match l.findIdx? spinFree with
    | some i => some i
    | none => if l.length < 16 then some l.length else none
/-- Put a spin-table entry at an index at most the table's length. -/
def putSpin (l : List Spin) (i : Nat) (e : Spin) : List Spin := if i < l.length then l.set i e else l ++ [e]
/-- Reserve an entry for a waiting spin by reference. -/
def holdSpin (s : State) (t : TileId) : Option State :=
  s.taskEntry.bind fun e => (spinIndex e.spins t).map fun i =>
    let n : Spin := match e.spins[i]? with
      | some o => if spinFree o then ⟨t, 0, [], 1⟩ else { o with held := o.held + 1 }
      | none => ⟨t, 0, [], 1⟩
    s.setTaskEntry { e with spins := putSpin e.spins i n }
/-- Drop a reservation. -/
def unholdSpin (t : TileId) (s : State) : State :=
  match s.taskEntry with
  | none => s
  | some e =>
    match e.spins.findIdx? fun o => 0 < o.held && o.tile == t with
    | none => s
    | some i => s.setTaskEntry { e with spins := e.spins.modify i fun o => { o with held := o.held - 1 } }
/-- Add one spin on a slot: its pin and the count. The failure is the TINFO0 of LOAM_PIN_OVERFLOW; `pinned` says that the
slot holds a pin for the spin already. -/
def addSpin (s : State) (key : Nat) (pinned : Bool) : Except Dbl State :=
  let x := s.slot s.hereCluster key
  match if pinned then some s else s.pin s.hereCluster key with
  | none => .error 0
  | some s =>
    match s.taskEntry with
    | none => .error 1
    | some e =>
      let l := e.spins
      let at_ : Option Nat := match l.findIdx? fun (o : Spin) => !o.slots.isEmpty && o.tile == x.tile && o.version == x.version with
        | some i => some i
        | none => match l.findIdx? fun (o : Spin) => o.slots.isEmpty && 0 < o.held && o.tile == x.tile with
          | some i => some i
          | none => match l.findIdx? spinFree with
            | some i => some i
            | none => if l.length < 16 then some l.length else none
      match at_ with
      | none => .error 1
      | some i =>
        let old := (l[i]?).getD ⟨x.tile, 0, [], 0⟩
        .ok (s.setTaskEntry { e with spins := putSpin l i { old with tile := x.tile, version := x.version, slots := key :: old.slots } })
/-- Remove one spin on a slot from the entry at an index: its count and its slot's pin. -/
def dropSpin (s : State) (i k : Nat) : State :=
  match s.taskEntry with
  | none => s
  | some e =>
    match e.spins[i]? with
    | none => s
    | some o =>
      let s := s.setTaskEntry { e with spins := e.spins.set i { o with slots := o.slots.erase k } }
      let x := s.slot s.hereCluster k
      if x.tile == o.tile && x.version == o.version && x.pins != 0 then s.unpin s.hereCluster k else s

/-! Groups of elements (R223, R224). -/

end State

/-- The container of an element of a slot under a stream's type (R223). -/
def tileLane (x : LoamSlot) (w : BitVec 512) (r k : Nat) : BitVec 32 :=
  let t := wType w
  let v := slotElem x.data (wCols w) t r k
  match t with
  | .d8 => d8Lane (BitVec.ofNat 8 v) (sigmaOf x.scale (blockOf (wSmode w) r k))
  | .bf | .f32 => BitVec.ofNat 32 v
  | _ => intLane t (laneInt t (BitVec.ofNat 32 v))
/-- The element lies inside the stream's edge masks (R190). -/
def inEdge (w : BitVec 512) (r k : Nat) : Bool := (wEdgeR w).getLsbD r && (wEdgeC w).getLsbD k
/-- Lanes of group g: container 0 outside the edge masks (R223). -/
def groupLanes (x : LoamSlot) (w : BitVec 512) (g : Nat) : VReg :=
  mkVReg fun i =>
    let e := 64 * g + i
    let r := e / wCols w
    let k := e % wCols w
    if inEdge w r k then tileLane x w r k else 0
/-- Lanes of a column: container 0 from row TR and outside the edge masks (R225). -/
def columnLanes (x : LoamSlot) (w : BitVec 512) (c : Nat) : VReg :=
  mkVReg fun i => if i < wRows w && inEdge w i c then tileLane x w i c else 0
/-- The elements of a block of a 64 x 64 D8 tile in row-major order (R57). -/
def blockElems (smode : Bool) (b : Nat) : List (Nat × Nat) :=
  if smode then (List.range 256).map fun n => (n / 4, 4 * b + n % 4)
  else (List.range 256).map fun n => (4 * b + n / 64, n % 64)
/-- Re-encode one block with stored values (R58): elements outside the extents are 0x00 and so leave σ and the draws
as they are. -/
def reencode (smode : Bool) (stored : List (Nat × Nat × Val)) (x : LoamSlot) (gen : BitVec 64) (b : Nat) :
    LoamSlot × BitVec 64 :=
  let old := sigmaOf x.scale b
  let vals := (blockElems smode b).map fun (r, k) =>
    (r, k, match stored.find? fun (p, q, _) => p == r && q == k with
      | some (_, _, v) => v
      | none => d8Val (slotElem x.data 64 .d8 r k) old)
  let sg := chooseSigma (vals.map fun (_, _, v) => v)
  let (codes, gen) := d8Draw (vals.map fun (r, k, v) => (r, k, sg, v)) gen
  ({ x with data := codes.foldl (fun d (r, k, c) => putElem d (64 * r + k) 8 c.toNat) x.data,
            scale := setSigma x.scale b sg }, gen)
/-- Store D8 containers into a slot: blocks with a lane whose σ differs are re-encoded in ascending order, the other lanes
are stored unchanged (R58, R224). -/
def storeD8 (smode : Bool) (l : List (Nat × Nat × BitVec 32)) (x : LoamSlot) (gen : BitVec 64) : LoamSlot × BitVec 64 :=
  let off := fun b => l.any fun (r, k, c) => blockOf smode r k == b && laneSigma c != sigmaOf x.scale b
  let same := l.filter fun (r, k, _) => !off (blockOf smode r k)
  let x1 : LoamSlot := { x with data := same.foldl (fun d (r, k, c) => putElem d (64 * r + k) 8 c.toNat) x.data }
  ((List.range 16).filter off).foldl (fun (x, g) b =>
    reencode smode ((l.filter fun (r, k, _) => blockOf smode r k == b).map fun (r, k, c) => (r, k, laneVal .d8 c)) x g b)
    (x1, gen)
/-- The active elements of a group inside the edge masks, with their containers (R224). -/
def groupStores (w : BitVec 512) (g : Nat) (m : BitVec 64) (v : VReg) : List (Nat × Nat × BitVec 32) :=
  ((List.range 64).filter fun i => m.getLsbD i && inEdge w ((64 * g + i) / wCols w) ((64 * g + i) % wCols w)).map fun i =>
    ((64 * g + i) / wCols w, (64 * g + i) % wCols w, lane v i)
/-- The tag of a slot (R187). -/
def loamTag (x : LoamSlot) : BitVec 144 :=
  let st := match x.state with
    | .invalid => 0 | .filling => 1 | .clean => 2 | .dirty => 3 | .openV => 4 | .writeback => 5
  BitVec.ofNat 144 (x.klass.toNat * 2 ^ 142 + x.pins % 256 * 2 ^ 134 + x.clock.toNat * 2 ^ 132 + x.hint.toNat * 2 ^ 130
    + st * 2 ^ 125 + x.version.toNat * 2 ^ 90 + x.tile.coord.toNat * 2 ^ 26 + x.tile.space.toNat * 2 ^ 20 + x.tile.tensor.toNat)

/-! Binding words. -/

/-- `sbind` (R214). -/
def execSbind (p : Pred) (w : BitVec 4) (a b : BitVec 5) (r h : BitVec 2) (s : State) : Host.Outcome State Fault Refusal :=
  s.perform p fun s =>
    if s.isOpen (s.rw w) then s.trap 0x47 0 (State.wNum w) else
    match s.tileRef w a b with
    | (s, .error f) => s.takeTrap f
    | (s, .ok (tn, t, n)) =>
      match s.seek t (State.wantOf r n) (State.wNum w) (State.wNum w) id with
      | .error s => s
      | .ok (s, key, pinned) =>
        match s.bindRead w tn t key h pinned with
        | none => s.trap 0x46 0 (State.wNum w)
        | some (s, v) => s.flightBound [.w w] [.w w v]
/-- `sprobe` (R215). -/
def execSprobe (p : Pred) (w : BitVec 4) (a b : BitVec 5) (h : BitVec 2) (q : BitVec 3) (f : Bool) (s : State) :
    Host.Outcome State Fault Refusal :=
  s.perform p fun s =>
    if s.isOpen (s.rw w) then s.trap 0x47 0 (State.wNum w) else
    match s.tileRef w a b with
    | (s, .error f) => s.takeTrap f
    | (s, .ok (tn, t, n)) =>
      match s.localHit s.hereCluster t (.atLeast n) with
      | some key =>
        match s.bindRead w tn t key h false with
        | none => s.trap 0x46 0 (State.wNum w)
        | some (s, v) => s.flightBound [.w w, .q q] [.w w v, .q q true]
      | none =>
        let s1 := if f then s.requestTile ⟨t, .atLeast n, .prefetch s.hereCluster 0, s.hereCluster⟩ s.cx.id.klass else s
        s1.flightBound [.w w, .q q] [.q q false]
/-- `snew` (R216): the bundle stalls until the home has answered and the slot is OPEN. A publish or an abandon of the tile that
is on its way to the home goes first (R195, R293). A failure after the grant gives the version back. -/
def execSnew (p : Pred) (w : BitVec 4) (a b : BitVec 5) (c x : Bool) (s : State) : Host.Outcome State Fault Refusal :=
  s.perform p fun s =>
    if s.isOpen (s.rw w) then s.trap 0x47 0 (State.wNum w) else
    match s.tileRef w a b with
    | (s, .error f) => s.takeTrap f
    | (s, .ok (tn, t, n)) =>
      match s.cx.fault with
      | some f =>
        let s1 : State := { s with cx := { s.cx with fault := none, opening := none } }
        let g := s.waitFault f (State.wNum w) (State.wNum w)
        match s.cx.opening with
        | some ⟨_, _, some v, _⟩ => (s1.later 0 (.abandonAtHome t v)).takeTrap g
        | _ => s1.takeTrap (if f.cause == 0x42 then f else g)
      | none =>
        let away := s.publishing t none
          || (s.agenda.any fun (_, i) => match i with | .abandonAtHome u _ => u == t | _ => false)
          || s.fab.txns.any fun x => x.flit.type == 0x10 && x.flit.inl.toNat % 256 == 3 && x.flit.space == t.space
            && x.flit.aux == t.coord && x.flit.inl.extractLsb' 16 20 == t.tensor
        match s.cx.opening with
        | some o =>
          match o.slot with
          | some key =>
            let s1 := (s.releaseStream (s.rw w)).touch key 0
            ({ s1 with cx := { s1.cx with opening := none } } : State).push 1
              (.w w (bindStream tn t (s.slot s.hereCluster key).version key 2))
          | none => s.stall
        | none =>
          if away then s.stall
          else
            let s1 : State := { s with cx := { s.cx with opening := some ⟨t, c, none, none⟩ } }
            (s1.later 0 (.snewAtHome s.here t n x)).stall
/-- `spub` (R217). -/
def execSpub (p : Pred) (w : BitVec 4) (s : State) : Host.Outcome State Fault Refusal :=
  s.perform p fun s =>
    let r := s.rw w
    if !s.isOpen r then s.trap 0x45 0 (State.wNum w)
    else if s.storing r || !s.settled s.issue.scope then s.stall
    else
      let x := s.slot s.hereCluster (wSlot r)
      let s1 := s.setSlot s.hereCluster (wSlot r) { x with state := .dirty }
      let (id, s1) := s1.newId
      let s2 : State := { s1 with cx := { s1.cx with opens := s1.cx.opens ++ [⟨id, 4, false, some (x.tile, x.version)⟩] } }
      (s2.push 1 (.w w (wPut r 258 2 1))).later 0 (.publishAtHome x.tile x.version s.hereCluster)
/-- `srel` (R218). -/
def execSrel (p : Pred) (w : BitVec 4) (s : State) : Host.Outcome State Fault Refusal :=
  s.perform p fun s => (s.releaseStream (s.rw w)).push 1 (.w w 0)

/-! Pinning (R219). -/

/-- `spin w`. -/
def execSpin (p : Pred) (w : BitVec 4) (s : State) : Host.Outcome State Fault Refusal :=
  s.perform p fun s =>
    if !wBound (s.rw w) then s.trap 0x44 0 (State.wNum w)
    else match s.addSpin (wSlot (s.rw w)) false with
      | .error d => s.trap 0x46 d (State.wNum w)
      | .ok s => s
/-- `spin xa, xb`: the entry is reserved while the word waits (R212). -/
def execSpinRef (p : Pred) (a b : BitVec 5) (r h : BitVec 2) (s : State) : Host.Outcome State Fault Refusal :=
  s.perform p fun s =>
    match s.tileRef 0 a b with
    | (s, .error f) => s.takeTrap f
    | (s, .ok (_, t, n)) =>
      match s.taskEntry.bind fun e => State.spinIndex e.spins t with
      | none => s.trap 0x46 1 0
      | some i =>
        let waiting := s.cx.parked.isSome
        match s.seek t (State.wantOf r n) (BitVec.ofNat 64 (16 + i)) 0 (State.unholdSpin t) with
        | .error s' => if s'.issue.verdict == .park && !waiting then (s'.holdSpin t).getD s' else s'
        | .ok (s, key, pinned) =>
          match s.addSpin key pinned with
          | .error d => (if waiting then State.unholdSpin t s else s).trap 0x46 d 0
          | .ok s => (if waiting then State.unholdSpin t s else s).touch key h
/-- `sunpin w`. -/
def execSunpin (p : Pred) (w : BitVec 4) (s : State) : Host.Outcome State Fault Refusal :=
  s.perform p fun s =>
    if !wBound (s.rw w) then s.trap 0x44 0 (State.wNum w)
    else
      let x := s.slot s.hereCluster (wSlot (s.rw w))
      match s.taskEntry.bind fun e => e.spins.findIdx? fun o =>
          o.slots.contains (wSlot (s.rw w)) && o.tile == x.tile && o.version == x.version with
      | some i => s.dropSpin i (wSlot (s.rw w))
      | none => s
/-- `sunpin xa, xb`. -/
def execSunpinRef (p : Pred) (a b : BitVec 5) (s : State) : Host.Outcome State Fault Refusal :=
  s.perform p fun s =>
    match s.tileRef 0 a b with
    | (s, .error f) => s.takeTrap f
    | (s, .ok (_, t, _)) =>
      let l := (s.taskEntry.map Entry.spins).getD []
      let best := l.foldl (fun m o => if !o.slots.isEmpty && o.tile == t then max m (o.version.toNat + 1) else m) 0
      match l.findIdx? fun o => !o.slots.isEmpty && o.tile == t && o.version.toNat + 1 == best with
      | some i => s.dropSpin i ((l[i]?).elim 0 fun o => o.slots.headD 0)
      | none => s

/-! Cursor, status and edges. -/

/-- `sseek` (R220). -/
def execSseek (p : Pred) (w : BitVec 4) (a : BitVec 5) (i : BitVec 12) (lit : Option Word) (s : State) :
    Host.Outcome State Fault Refusal :=
  s.perform p fun s =>
    let r := s.rw w
    if !wBound r then s.trap 0x44 0 (State.wNum w)
    else s.push 1 (.w w (wPut r 250 6 (((s.rx a).toInt + (immS i lit).toInt) % (wGroups r : Int)).toNat))
/-- `sinfo` (R221). -/
def execSinfo (p : Pred) (d : BitVec 5) (w t : BitVec 4) (s : State) : Host.Outcome State Fault Refusal :=
  s.perform p fun s =>
    let r := s.rw w
    let n := t.toNat
    if 8 ≤ n && !wBound r then s.trap 0x44 0 (State.wNum w)
    else
      let x := s.slot s.hereCluster (wSlot r)
      let v : Dbl :=
        if n < 8 then r.extractLsb' (64 * n) 64
        else if n < 11 then (loamTag x).extractLsb' (64 * (n - 8)) 64
        else x.scale.extractLsb' (64 * (n - 11)) 64
      s.flightBound [.x d] [.x d v]
/-- `sedge` (R222). -/
def execSedge (p : Pred) (w : BitVec 4) (a b : BitVec 5) (s : State) : Host.Outcome State Fault Refusal :=
  s.perform p fun s =>
    let r := s.rw w
    if !wBound r then s.trap 0x44 0 (State.wNum w)
    else s.push 1 (.w w (wPut (wPut r 384 64 (wEdgeR r &&& s.rx a).toNat) 448 64 (wEdgeC r &&& s.rx b).toNat))

/-! Moving elements. -/

/-- The stream with its cursor moved past the group, unless H keeps it (R223). -/
def cursorPast (r : BitVec 512) (h : Bool) : BitVec 512 := if h then r else wPut r 250 6 ((wCursor r + 1) % wGroups r)
/-- `tldv` (R223). -/
def execTldv (p : Pred) (v : BitVec 6) (w k : BitVec 4) (h : Bool) (s : State) : Host.Outcome State Fault Refusal :=
  s.perform p fun s =>
    let r := s.rw w
    if !wBound r then s.trap 0x44 0 (State.wNum w)
    else if s.storing r then s.stall
    else
      let g := wCursor r
      let lat := match s.cx.tstvs.find? fun (x, q, t) => x == w && q == g && s.cx.btime ≤ t + 2 && t < s.cx.btime with
        | some (_, _, t) => t + 3 - s.cx.btime
        | none => 5
      (s.wvShared lat v (s.rk k) (groupLanes (s.slot s.hereCluster (wSlot r)) r g)).push 1 (.w w (cursorPast r h))
/-- `tstv` (R224). -/
def execTstv (p : Pred) (v : BitVec 6) (w k : BitVec 4) (h : Bool) (s : State) : Host.Outcome State Fault Refusal :=
  s.perform p fun s =>
    let r := s.rw w
    if !wBound r then s.trap 0x44 0 (State.wNum w)
    else if !s.isOpen r then s.trap 0x45 0 (State.wNum w)
    else if s.storing r then s.stall
    else
      let g := wCursor r
      let x := s.slot s.hereCluster (wSlot r)
      let l := groupStores r g (s.rk k) (s.rv v)
      let t := wType r
      let (x', gen) := if t == .d8 then storeD8 (wSmode r) l x s.cx.stoch
        else ({ x with data := l.foldl (fun d (i, j, c) =>
                putElem d ((i * wCols r + j) * esize t) (ElemType_width t) c.toNat) x.data }, s.cx.stoch)
      let s1 := s.setSlot s.hereCluster (wSlot r) x'
      let s2 : State := { s1 with cx := { s1.cx with
        stoch := gen,
        tstvs := (w, g, s.cx.btime) :: s.cx.tstvs.filter fun (a, b, t) => s.cx.btime ≤ t + 2 && !(a == w && b == g) } }
      s2.push 1 (.w w (cursorPast r h))
/-- `tldx` (R225). -/
def execTldx (p : Pred) (v : BitVec 6) (w k : BitVec 4) (a : BitVec 5) (s : State) : Host.Outcome State Fault Refusal :=
  s.perform p fun s =>
    let r := s.rw w
    if !wBound r then s.trap 0x44 0 (State.wNum w)
    else if s.storing r then s.stall
    else
      let d := physV v s.cx.vrot
      s.flightBound [.v d] [.v d (s.rk k)
        (columnLanes (s.slot s.hereCluster (wSlot r)) r ((s.rx a).toNat % wCols r))]
/-- `twb` (R226). -/
def execTwb (p : Pred) (w : BitVec 4) (s : State) : Host.Outcome State Fault Refusal :=
  s.perform p fun s =>
    let r := s.rw w
    if !wBound r then s.trap 0x44 0 (State.wNum w)
    else if s.isOpen r then s.trap 0x47 0 (State.wNum w)
    else if s.storing r then s.stall
    else
      let x := s.slot s.hereCluster (wSlot r)
      if x.state != .dirty then s
      else
        let (id, s) := s.openAccess 4 false
        (s.setSlot s.hereCluster (wSlot r) { x with state := .writeback, wbCtx := some (s.here, id, s.issue.pc) }).later
          0 (.tileWritebackMerge s.hereCluster (wSlot r))
/-- `tpref` (R227). -/
def execTpref (p : Pred) (a : BitVec 5) (i : BitVec 12) (lit : Option Word) (s : State) : Host.Outcome State Fault Refusal :=
  s.perform p fun s =>
    let va := s.rx a + immS i lit
    if va.toNat % 16 != 0 then s.takeTrap (s.memFault 0x24 va 0 15 0)
    else
      let c := s.cluster s.hereCluster
      let n := s.tick + 1
      let l := c.itineraries ++ [(⟨n, va, s.cx.id.space, s.cx.id.klass⟩ : Itinerary)]
      let s1 : State := { s with tick := n }
      (s1.setCluster s.hereCluster { c with itineraries := l.drop (l.length - 8) }).later 0 (.itineraryEntry s.hereCluster n)

/-! A running copy's descriptor (R261). -/

namespace CopyJob
def src (j : CopyJob) : Nat := (j.desc.extractLsb' 0 64).toNat
def dst (j : CopyJob) : Nat := (j.desc.extractLsb' 64 64).toNat
def idx (j : CopyJob) : Nat := (j.desc.extractLsb' 128 64).toNat
def len (j : CopyJob) : Nat := (j.desc.extractLsb' 192 32).toNat
def kind (j : CopyJob) : Nat := (j.desc.extractLsb' 224 2).toNat
def srcS (j : CopyJob) : Bool := j.desc.getLsbD 226
def dstS (j : CopyJob) : Bool := j.desc.getLsbD 227
def esize (j : CopyJob) : Nat := match (j.desc.extractLsb' 228 2).toNat with | 0 => 4 | 1 => 8 | 2 => 64 | _ => 128
/-- T: the bytes that the copy moves. -/
def total (j : CopyJob) : Nat := j.len * (if j.kind == 0 then 1 else j.esize)
/-- The bytes of a destination unit: a line, or a storage row of scratch. -/
def unitBytes (j : CopyJob) : Nat := if j.dstS then 64 else 128
/-- Where a copy's or a gather's first byte goes: a virtual address or a cluster offset. -/
def dstBase (j : CopyJob) : Nat := if j.dstS then j.base + j.dst else j.dst
/-- The number of destination units; an element of a scatter has two halves, split where a unit ends. -/
def units (j : CopyJob) : Nat :=
  if j.kind == 2 then 2 * j.len
  else (j.dstBase + j.total - 1) / j.unitBytes - j.dstBase / j.unitBytes + 1
/-- A unit as its destination, the copy's first byte in it and its bytes; `e` is the index of a scatter's element. -/
def unit (j : CopyJob) (k e : Nat) : Nat × Nat × Nat :=
  let u := j.unitBytes
  if j.kind == 2 then
    let a := j.dstBase + e * j.esize
    let first := min j.esize (u - a % u)
    if k % 2 == 0 then (a, k / 2 * j.esize, first) else (a + first, k / 2 * j.esize + first, j.esize - first)
  else
    let lo := (j.dstBase / u + k) * u
    let a := max j.dstBase lo
    (a, a - j.dstBase, min (j.dstBase + j.total) (lo + u) - a)
end CopyJob

/-! The fields of a guest's packet (R396). -/

def pkTag (p : BitVec 512) : BitVec 32 := p.extractLsb' 32 32
def pkSpace (p : BitVec 512) : BitVec 6 := p.extractLsb' 16 6
def pkKind (p : BitVec 512) : Nat := (p.extractLsb' 24 2).toNat
def pkCaddr (p : BitVec 512) : Dbl := p.extractLsb' 64 64
def pkCredit (p : BitVec 512) : Dbl := p.extractLsb' 128 64
def pkCamt (p : BitVec 512) : Nat := (p.extractLsb' 192 32).toNat
/-- Replace n bits of a packet from bit lo. -/
def pkPut (p : BitVec 512) (lo n v : Nat) : BitVec 512 :=
  (p &&& ~~~(BitVec.ofNat 512 ((2 ^ n - 1) * 2 ^ lo))) ||| BitVec.ofNat 512 (v % 2 ^ n * 2 ^ lo)

/-! Ways (R206 to R209, R228). -/

namespace State

/-- Streams of a context bound to a moved slot follow it (R207), in whatever writes are still to land too. -/
def moveStreams (old new : Nat) (c : Context) : Context :=
  let mv : BitVec 512 → BitVec 512 := fun w =>
    if wBound w && wSlot w == old then wPut (wPut w 246 4 (new / 128)) 239 7 (new % 128) else w
  let mw : Write → Write := fun x => match x with | .w r d => .w r (mv d) | y => y
  { c with
    w := c.w.map mv,
    pending := c.pending.map fun (q : Pending) => { q with write := mw q.write },
    flights := c.flights.map fun (f : Flight) => { f with result := f.result.map mw },
    mat := { c.mat with storing := c.mat.storing.map fun k => if k == old then new else k },
    opening := c.opening.map fun (o : Opening) => if o.slot == some old then { o with slot := some new } else o }
/-- Move an OPEN slot: the slot, the streams of the cluster's contexts and the spins on it (R207 step 3). -/
def moveOpen (s : State) (cl old new : Nat) : State :=
  let x := s.slot cl old
  let s := (s.setSlot cl new x).clearSlot cl old
  let inCl := fun (c : Nat) => c / 64 == cl
  let s1 : State := { s with
    cx := if inCl s.here then moveStreams old new s.cx else s.cx,
    others := s.others.map fun (c, y) => (c, if inCl c then moveStreams old new y else y) }
  let c := s1.cluster cl
  let follow (o : Spin) : Spin := if o.tile == x.tile then { o with slots := o.slots.map fun k => if k == old then new else k } else o
  let es := c.entries.map fun (n, (e : Entry)) => (n, { e with spins := e.spins.map follow })
  s1.setCluster cl { c with entries := es }
/-- Empty one slot of a way being converted to n ways (R207 steps 2 and 3): the state after, and whether an OPEN slot found
no place. A fill or forward in flight lands first; a request that only awaits its version is made again elsewhere. A slot that is
still written back or pinned stays. An OPEN slot takes the lowest way outside the converted ones that is INVALID and neither gated nor
waking, whatever LOAMPART allows, and finds no place when there is none (the spec names no slot; DESIGN CHOICE, log 40). -/
def flushSlot (s : State) (cl n key : Nat) : State × Bool :=
  let x := s.slot cl key
  match x.state with
  | .invalid => (s, false)
  | .filling =>
    if s.underway cl key then (s, false)
    else (x.users.foldl (fun s r => s.askElsewhere r x.klass) (s.dropFilling cl key), false)
  | .clean => if x.pins == 0 then (s.clearSlot cl key, false) else (s, false)
  | .dirty =>
    if x.pins == 0 then
      ((s.setSlot cl key { x with state := .writeback, wbCtx := none }).later 0 (.tileWritebackMerge cl key), false)
    else (s, false)
  | .openV =>
    let set := key % 8
    let c := s.cluster cl
    match (List.range (16 - n)).find? fun w =>
        (s.slot cl (key / 128 * 128 + 8 * w + set)).state == .invalid && !c.gated.contains (16 * (key / 128) + w)
          && !c.waking.contains (16 * (key / 128) + w) with
    | some w => (s.moveOpen cl key (key / 128 * 128 + 8 * w + set), false)
    | none => (s, true)
  | .writeback => (s, false)
/-- The slots of ways 16 − n to 15 − m in every slice. -/
def waySlots (m n : Nat) : List Nat :=
  (List.range 16).flatMap fun sl => (List.range (n - m)).flatMap fun i =>
    (List.range 8).map fun set => 128 * sl + 8 * (16 - n + i) + set
/-- Scratch from an offset on, dropped (R206, R208). -/
def clearScratch (c : Cluster) (off : Nat) : Cluster := { c with scratch := c.scratch.filter (·.1 < off) }
/-- Every slice of a cluster takes up its waiting allocations (R204). -/
def wakeSlices (s : State) (cl : Nat) : State := (List.range 16).foldl (fun s sl => s.wakeSlice cl (128 * sl)) s
/-- The way word at the head of the cluster's queue is done: ways that it held back may be allocated again (R207). -/
def endConv (s : State) : State :=
  let c := s.cluster s.hereCluster
  (s.setCluster s.hereCluster { c with conv := none, convQueue := c.convQueue.filter (· != s.here) }).wakeSlices s.hereCluster
/-- Queue a way word; whether it is its turn (R228). -/
def convTurn (s : State) : State × Bool :=
  let c := s.cluster s.hereCluster
  let q := if c.convQueue.contains s.here then c.convQueue else c.convQueue ++ [s.here]
  (s.setCluster s.hereCluster { c with convQueue := q }, q.head? == some s.here)
/-- An index of a running copy as it stands: none while it is not known here, being on another device or behind a table there; one
that cannot be read moves nothing (R262). -/
def indexAt (s : State) (cl : Nat) (j : CopyJob) (i : Nat) : Option (Option Nat) :=
  match s.translate none cl j.space (BitVec.ofNat 64 (j.idx + 4 * i)) .read with
  | (t, .error _) => if t.waits.isEmpty then some none else none
  | (s, .ok t) =>
    if s.ownDevice t.gpa then some (s.homeRead j.space (t.leaf.extractLsb' 8 8) t.gpa 4).2.toOption
    else (j.lines.find? fun (m, _) => m == t.gpa / 128).map fun (_, d) =>
      some (d.toNat / 2 ^ (8 * (t.gpa % 128)) % 2 ^ 32)
/-- One side of a running copy, as ranges of scratch or of virtual addresses: for the indexed side of a gather or scatter the
elements that its indexes select, in scratch those of the window (R261, R262); none while an index is not known. -/
def copySide (s : State) (cl : Nat) (j : CopyJob) (off : Nat) (indexed scratch : Bool) : Option (List (Nat × Nat)) :=
  let base := if scratch then j.base else 0
  if !indexed then some [(base + off, j.total)]
  else
    let is := (List.range j.len).map (s.indexAt cl j)
    if is.all Option.isSome then
      some (is.filterMap fun i => i.join.bind fun v =>
        let o := off + v * j.esize
        if scratch && j.limit < o + j.esize then none else some (base + o, j.esize))
    else none
/-- What a running copy reads, or writes, in scratch or in linear memory; none while it is not all known. -/
def copyRanges (s : State) (cl : Nat) (j : CopyJob) (write scratch : Bool) : Option (List (Nat × Nat)) :=
  if write then (if j.dstS == scratch then s.copySide cl j j.dst (j.kind == 2) scratch else some [])
  else (if j.srcS == scratch then s.copySide cl j j.src (j.kind == 1) scratch else some []).map
    (· ++ (if !scratch && j.kind != 0 then [(j.idx, 4 * j.len)] else []))
/-- Cluster offsets of the barriers that packets with the guest, or in the port's queues, are to credit (R400). -/
def guestCredits (s : State) (cl : Nat) : List Nat :=
  let all := (s.moor.queues.flatMap fun (_, q) => (q.packets ++ q.held).map Prod.snd) ++ s.moor.ends.map GuestEnd.packet
  (all.filter fun p => pkKind p.bits == 1 && ((pkCredit p.bits).extractLsb' 32 8).toNat == cl).map fun p =>
    ((pkCredit p.bits).extractLsb' 0 32).toNat
/-- A running copy's scratch is not all known yet. -/
def copyUnknown (s : State) (cl : Nat) (j : CopyJob) : Bool :=
  (s.copyRanges cl j false true).isNone || (s.copyRanges cl j true true).isNone
/-- Scratch ranges in use of a cluster: windows, barrier objects that a word waits at, that a guest's packet is to credit (R400) or
that a running copy names, and the copies' ranges (R228). Objects that none of these names do not count, whatever they hold
(DESIGN CHOICE, log 40). -/
def scratchUses (s : State) (cl : Nat) : List (Nat × Nat) :=
  let c := s.cluster cl
  let wins := c.entries.filterMap fun (_, e) =>
    let len := (e.desc.extractLsb' 224 32).toNat
    if e.started && len != 0 then some (e.scratchBase, (len + 2047) / 2048 * 2048) else none
  wins ++ c.waiters.map (fun w => (w.off, 16)) ++ (s.guestCredits cl).map (fun o => (o, 16)) ++ c.copies.flatMap fun j =>
    (j.bar, 16) :: (s.copyRanges cl j false true).getD [] ++ (s.copyRanges cl j true true).getD []
/-- The lowest offset from a limit on that is in use. -/
def usedFrom (l : List (Nat × Nat)) (limit : Nat) : Option Nat :=
  l.foldl (fun m (b, n) => if limit < b + n then some (match m with | some x => min x (max b limit) | none => max b limit) else m) none

end State

/-- `wayconv` (R228, R207): each presentation of the stalled bundle takes the conversion further. An OPEN slot that finds no place
fails it at once: the 65,536 cycles of R207 are read as for pins alone (DESIGN CHOICE, log 40). -/
def execWayconv (p : Pred) (d : BitVec 5) (i : BitVec 12) (lit : Option Word) (s : State) : Host.Outcome State Fault Refusal :=
  s.perform p fun s =>
    if s.cx.mode == .task then s.trap 0x07 0x0F else
    let n := State.srNumber i lit
    let (s, mine) := s.convTurn
    if !mine then s.stall else
    let c := s.cluster s.hereCluster
    if n ≤ c.converted then s.endConv.wx 1 d (BitVec.ofNat 64 c.converted)
    else
      let s := if c.conv.isSome then s
        else (s.setCluster s.hereCluster { c with conv := some ⟨s.here, n, s.cycle, false⟩ }).later 65536 (.wayconvPinTimeout s.hereCluster)
      let keys := State.waySlots c.converted n
      let (s, stuck) := keys.foldl (fun (s, b) k => let (s, b') := s.flushSlot s.hereCluster n k; (s, b || b')) (s, false)
      let c := s.cluster s.hereCluster
      if stuck || c.conv.elim false WayConv.failed then s.endConv.trap 0x48
      else if keys.all fun k => (s.slot s.hereCluster k).state == .invalid then
        let ways := (List.range 16).flatMap fun sl => (List.range (n - c.converted)).map fun w => 16 * sl + (16 - n + w)
        let c' : Cluster := State.clearScratch { c with
          converted := n, gated := c.gated.filter (!ways.contains ·), waking := c.waking.filter (!ways.contains ·) }
            (c.converted * 524288)
        (s.setCluster s.hereCluster c').endConv.wx 1 d (BitVec.ofNat 64 n)
      else s.stall
/-- `wayrest` (R228, R208). -/
def execWayrest (p : Pred) (d : BitVec 5) (i : BitVec 12) (lit : Option Word) (s : State) : Host.Outcome State Fault Refusal :=
  s.perform p fun s =>
    if s.cx.mode == .task then s.trap 0x07 0x10 else
    let n := State.srNumber i lit
    let (s, mine) := s.convTurn
    if !mine then s.stall else
    let c := s.cluster s.hereCluster
    if c.copies.any (s.copyUnknown s.hereCluster) then s.stall else
    match State.usedFrom (s.scratchUses s.hereCluster) (n * 524288) with
    | some o => s.endConv.trap 0x48 1 (BitVec.ofNat 64 o)
    | none =>
      if c.converted ≤ n then s.endConv.wx 1 d (BitVec.ofNat 64 c.converted)
      else
        (s.setCluster s.hereCluster (State.clearScratch { c with converted := n } (n * 524288))).endConv.wx 1 d (BitVec.ofNat 64 n)
/-- WAYCONV_PIN_TIMEOUT (R207): with a pin left the conversion fails at the next presentation of its word; write-backs alone are
waited for. -/
def execWayconvPinTimeout (cl : Nat) (s : State) : Host.Outcome State Fault Refusal :=
  let c := s.cluster cl
  .next (match c.conv with
    | some v =>
      if s.cycle - v.since < 65536 then s
      else if (State.waySlots c.converted v.n).any fun k => (s.slot cl k).pins != 0 then s.setCluster cl { c with conv := some { v with failed := true } }
      else s.later 64 (.wayconvPinTimeout cl)
    | none => s)
/-- WAY_GATE (R209): the way is emptied as in R207 step 3 and gated when every slot of it is then INVALID; a converted way,
or one with a pinned or OPEN slot, is left as it is. -/
def execWayGate (cl slice way : Nat) (s : State) : Host.Outcome State Fault Refusal :=
  let keys := (List.range 8).map fun set => 128 * slice + 8 * way + set
  let c := s.cluster cl
  let busy := keys.any fun k => let x := s.slot cl k; x.pins != 0 || x.state == .openV || x.state == .filling
  .next (if 16 - c.converted ≤ way || 16 ≤ slice || c.gated.contains (16 * slice + way) || busy then s
    else
      let flush : State → Nat → State := fun s k =>
        let x := s.slot cl k
        let s := if x.state == .dirty || x.state == .writeback then (s.setSlot cl k { x with state := .writeback }).mergeSlot cl k else s
        if (s.slot cl k).state == .clean then s.clearSlot cl k else s
      let s := keys.foldl flush s
      if keys.all fun k => (s.slot cl k).state == .invalid then
        let c := s.cluster cl
        s.setCluster cl { c with gated := (16 * slice + way) :: c.gated }
      else s)
/-- WAY_WAKE (R209): the way is awake, its tags INVALID; waiting allocations of the slice go on. -/
def execWayWake (cl slice way : Nat) (s : State) : Host.Outcome State Fault Refusal :=
  let c := s.cluster cl
  let k := 16 * slice + way
  .next ((s.setCluster cl { c with gated := c.gated.filter (· != k), waking := c.waking.filter (· != k) }).wakeSlice cl (128 * slice))

/-! Cluster scratch (R229, R230). -/

namespace State

/-- The cluster offset that an offset of the context reaches: the task's window in task mode (R229). -/
def scratchAt (s : State) (o : Nat) : Nat := if s.cx.mode == .task then s.cx.id.scratchBase + o else o
/-- The length that bounds an access of the context (R230). -/
def scratchLimit (s : State) : Nat :=
  if s.cx.mode == .task then s.cx.id.scratchLen else (s.cluster s.hereCluster).converted * 524288
/-- The checks of a scratch access of n bytes (R230, R264). -/
def scratchFault (s : State) (o : Dbl) (n : Nat) (w : Bool) : Option FaultInfo :=
  let kind := if w then 1 else 0
  if o.toNat % n != 0 then some (s.memFault 0x24 o kind 15 0)
  else if s.scratchLimit < o.toNat + n then some (s.memFault 0x2B o kind 15 0)
  else none
/-- n bytes of the cluster's scratch at a cluster offset. -/
def scratchRead (s : State) (cl o n : Nat) : Nat := cellsRead (s.cluster cl).scratch o n
def scratchWrite (s : State) (cl o n v : Nat) : State :=
  let c := s.cluster cl
  s.setCluster cl { c with scratch := cellsWrite c.scratch o n v }
/-- A write of scratch other than a barrier word's event may end a wait on an object it changes (R263, R264). -/
def scratchPut (s : State) (cl o n v : Nat) : State :=
  ((s.cluster cl).waiters.filter fun w => w.tabled && w.off < o + n && o < w.off + 16).foldl
    (fun s w => s.later 0 (.bwaitPoll w.ctx w.flight)) (s.scratchWrite cl o n v)
/-- A running copy of the context has still to write bytes of the range, or, for a write, to read them (R279). -/
def scratchBusy (s : State) (o n : Nat) (w : Bool) : Bool :=
  let hits := fun (rs : Option (List (Nat × Nat))) => rs.elim true fun l => l.any fun (b, m) => b < o + n && o < b + m
  (s.cluster s.hereCluster).copies.any fun j => j.ctx == s.here
    && (hits (s.copyRanges s.hereCluster j true true) || (w && hits (s.copyRanges s.hereCluster j false true)))

end State

/-- A value of n bytes extended to 64 bits. -/
def extendTo64 (sext : Bool) (n v : Nat) : Dbl :=
  let w := 8 * n
  if sext && v / 2 ^ (w - 1) % 2 == 1 then BitVec.ofInt 64 ((v % 2 ^ w : Nat) - (2 ^ w : Nat) : Int) else BitVec.ofNat 64 (v % 2 ^ w)
/-- `lds` (R230, R279). -/
def execLds (p : Pred) (d a : BitVec 5) (z : BitVec 2) (sx : Bool) (o : BitVec 9) (lit : Option Word) (s : State) :
    Host.Outcome State Fault Refusal :=
  s.perform p fun s =>
    let off := s.rx a + immU o lit
    let n := 2 ^ z.toNat
    match s.scratchFault off n false with
    | some f => s.takeTrap f
    | none =>
      if s.scratchBusy (s.scratchAt off.toNat) n false then s.stall
      else s.flightBound [.x d] [.x d (extendTo64 sx n (s.scratchRead s.hereCluster (s.scratchAt off.toNat) n))]
/-- `sts` (R230, R279). -/
def execSts (p : Pred) (d a : BitVec 5) (z : BitVec 2) (o : BitVec 9) (lit : Option Word) (s : State) :
    Host.Outcome State Fault Refusal :=
  s.perform p fun s =>
    let off := s.rx a + immU o lit
    let n := 2 ^ z.toNat
    match s.scratchFault off n true with
    | some f => s.takeTrap f
    | none =>
      if s.scratchBusy (s.scratchAt off.toNat) n true then s.stall
      else s.scratchPut s.hereCluster (s.scratchAt off.toNat) n (s.rx d).toNat

end Sys2Proof.Machine
end

