-- ==== Sys2Proof/Machine/Matrix.lean ====
section
/-! DEFINITION. The matrix words of the M slot (R160 to R179). -/

namespace Sys2Proof.Machine

/-! Latches (R162, R170). -/

/-- Format code of a latch (R177). -/
def fmtCode (t : ElemType) : BitVec 4 := match t with | .i8 => 1 | .d8 => 2 | .bf => 3 | .f32 => 4 | _ => 5
/-- The number whose digits of w bits are the given values, the first lowest. -/
def packWords (w : Nat) : List Nat → Nat
  | [] => 0
  | v :: r => v % 2 ^ w + 2 ^ w * packWords w r
/-- 64 σ bytes, each that of block i div 4; zero for a type other than d8. -/
def latchScale (t : ElemType) (sg : Nat → Int) : BitVec 512 :=
  if t == .d8 then BitVec.ofNat 512 (packWords 8 ((List.range 64).map fun i => (BitVec.ofInt 8 (sg i)).toNat)) else 0
/-- The A latch of a tile of 64 rows (R170). -/
def loadA (x : LoamSlot) (w : BitVec 512) : Latch :=
  ⟨x.data, wEdgeR w, wEdgeC w, latchScale (wType w) fun i => sigmaOf x.scale (i / 4), fmtCode (wType w)⟩
/-- The B latch of a tile of 64 columns (R170). -/
def loadB (x : LoamSlot) (w : BitVec 512) : Latch :=
  let t := wType w
  let elems := (List.range (64 * wRows w)).map fun n => slotElem x.data 64 t (n % wRows w) (n / wRows w)
  ⟨BitVec.ofNat 32768 (packWords (8 * esize t) elems), wEdgeC w, wEdgeR w,
    latchScale t fun j => sigmaOf x.scale (j / 4), fmtCode t⟩
/-- The accumulator kind of a latch format (R164). -/
def passKind (f : BitVec 4) : AccKind := if f == 1 then .i40 else .f40
/-- Number of a kind: none writes none. -/
def kindFits (have_ want : AccKind) : Bool := have_ == .none || have_ == want

namespace State

/-- MATRIX_OPERAND with a reason (R177). -/
def matrixTrap (s : State) (reason : Nat) (i1 : Dbl) (i2 : Dbl := 0) : State := s.trap 0x0B (BitVec.ofNat 64 reason) i1 i2
/-- Perform an M word of an opcode: it needs matrix ownership (R161), and while a pass is suspended supervisor mode
performs only `mrd` and `mst` (R169, R177 reason 7). Two readings are DESIGN CHOICE (log 40): a pass issued in supervisor mode
and suspended by a nested trap or a halt counts as well, where R169 speaks of a task-mode pass; and `mop`, for which R171 says
that it sets MOPX during a suspension, takes reason 7 like the others. -/
def matrixWord (s : State) (p : Pred) (op : Nat) (reads : Bool) (f : State → State) : Host.Outcome State Fault Refusal :=
  s.perform p fun s =>
    if !s.cx.id.mown then s.trap 0x06
    else if !reads && s.cx.mode == .supervisor && s.cx.passes.any Pass.suspended then s.matrixTrap 7 (BitVec.ofNat 64 op)
    else f s
/-- An accumulator name is claimed (R160). -/
def claimed (s : State) (a : BitVec 2) : Bool := a.toNat < s.cx.id.nacc
/-- The tile a pass starts from and its KIND: the result of an unlanded preceding pass of the same tile, or the stored
value (R167). -/
def startTile (s : State) (a : BitVec 2) : AccTile :=
  match s.cx.passes.getLast? with
  | some p => if p.tile == a && !p.landed then ⟨p.cells, p.kind⟩ else s.cx.acc[a.toNat]
  | none => s.cx.acc[a.toNat]
def setAcc (s : State) (a : BitVec 2) (t : AccTile) : State := { s with cx := { s.cx with acc := s.cx.acc.set a.toNat t } }

end State

/-- `mpass` (R170). -/
def execMpass (p : Pred) (a : BitVec 2) (wA wB : BitVec 4) (o : CellOp) (ka kb : Bool) (s : State) :
    Host.Outcome State Fault Refusal :=
  s.matrixWord p 0 false fun s =>
    let rA := s.rw wA
    let rB := s.rw wB
    let sl := fun r => s.slot s.hereCluster (wSlot r)
    if !s.claimed a then s.matrixTrap 1 (a.setWidth 64)
    else if !ka && !wBound rA then s.trap 0x44 0 (State.wNum wA)
    else if !kb && !wBound rB then s.trap 0x44 0 (State.wNum wB)
    else if (!ka && s.storing rA) || (!kb && s.storing rB) then s.stall
    else if !ka && (wRows rA != 64 || (wType rA == .d8 && wSmode rA)) then s.matrixTrap 3 (State.wNum wA)
    else if !kb && (wCols rB != 64 || (wType rB == .d8 && !wSmode rB)) then s.matrixTrap 3 (State.wNum wB)
    else
      let la := if ka then s.cx.latchA else loadA (sl rA) rA
      let lb := if kb then s.cx.latchB else loadB (sl rB) rB
      if la.fmt != lb.fmt || la.fmt == 0 || 5 ≤ la.fmt then
        s.matrixTrap 2 (la.fmt.setWidth 64 <<< 4 ||| lb.fmt.setWidth 64)
      else
        let t := s.startTile a
        let k := passKind la.fmt
        if !kindFits t.kind k then s.matrixTrap 4 (a.setWidth 64)
        else
          let f : BitVec 2 := (la.fmt - 1).setWidth 2
          let late := ka && s.cx.mat.mgathAt.elim false fun g => s.cx.btime < g + 12
          let ps : Pass := ⟨a, o, f, 0, s.cx.btime + 38, s.cx.btime, t.data, k, false, false, false,
            if late then some la else none⟩
          { s with cx := { s.cx with latchA := la, latchB := lb, passes := s.cx.passes ++ [ps] } }
/-- `mop` (R171): MOPX is set as an exposed result of latency 1, after a `swr` of the same bundle (R96). -/
def execMop (p : Pred) (o : CellOp) (s : State) : Host.Outcome State Fault Refusal :=
  s.matrixWord p 1 false fun s =>
    match s.cx.passes.getLast? with
    | some ps =>
      if ps.step < 32 && !ps.suspended then
        { s with cx := { s.cx with passes := s.cx.passes.dropLast ++ [{ ps with op := o }] } }
      else s.push 1 .mopx
    | none => s.push 1 .mopx

namespace State

/-- The slots that hold a tile pinned by the context's task: by an input map, a stream of any member, or a spin (R172). -/
def taskPins (s : State) (t : TileId) : List Nat :=
  let cl := s.hereCluster
  let mine (n : Nat) (c : Context) : Bool := n / 64 == cl && c.occ == .occupied && c.id.taskid == s.cx.id.taskid
  let streams (c : Context) : List Nat := (c.w.toList.filter wBound).map wSlot
  let members := (if mine s.here s.cx then streams s.cx else [])
    ++ s.others.flatMap fun (n, c) => if mine n c then streams c else []
  let e := s.taskEntry
  let ins := (e.map Entry.inputs).getD [] |>.filterMap fun (i : Input) => if i.resident then some i.slot else none
  let sp := ((e.map Entry.spins).getD []).flatMap Spin.slots
  (members ++ ins ++ sp).filter fun k =>
    let x := s.slot cl k
    x.tile == t && (isPublished x.state || x.state == .openV)
/-- The newest of them. -/
def pinnedTile (s : State) (t : TileId) : Option Nat :=
  (s.taskPins t).foldl (fun m k => match m with
    | some b => if (s.slot s.hereCluster b).version.toNat < (s.slot s.hereCluster k).version.toNat then some k else m
    | none => some k) none
/-- The rows an `mgath` reads, lane by lane: the slot and row of each present lane, or the first failing lane's trap
(R172). -/
def gatherRows (s : State) (w : BitVec 512) (ext0 : Nat) (v : VReg) : List Nat → Except FaultInfo (List (Nat × Nat × Nat))
  | [] => .ok []
  | i :: rest =>
    let r := (lane v i).toNat
    let c := wCoord w
    let t : TileId := ⟨s.cx.id.space, wTensor w, packCoord (r / 64) (coordAt c 1) (coordAt c 2) (coordAt c 3)⟩
    if ext0 ≤ r || 65535 < r / 64 then .error ⟨0x41, BitVec.ofNat 64 i, BitVec.ofNat 64 r, 0, 0⟩
    else match s.pinnedTile t with
      | none => .error ⟨0x0B, 5, BitVec.ofNat 64 i, BitVec.ofNat 64 r, 0⟩
      | some k => (s.gatherRows w ext0 v rest).map fun l => (i, k, r % 64) :: l
/-- The latch of gathered rows; lanes that are not present keep what the latch holds when it lands (`gatherOver`). For a d8
stream of SMODE 1 no block is a row's: the σ of block r div 4 is taken (R172 does not say: DESIGN CHOICE, log 40). -/
def gatherLatch (s : State) (w : BitVec 512) (l : List (Nat × Nat × Nat)) : Latch :=
  let row := fun i => match l.find? (·.1 == i) with
    | some (_, k, r) => ((s.slot s.hereCluster k).data.extractLsb' (512 * r) 512).toNat
    | none => 0
  let sg : Nat → Int := fun i => match l.find? (·.1 == i) with
    | some (_, k, r) => sigmaOf (s.slot s.hereCluster k).scale (r / 4)
    | none => 0
  ⟨BitVec.ofNat 32768 (packWords 512 ((List.range 64).map row)), mkMask fun i => l.any (·.1 == i), wEdgeC w,
    latchScale (wType w) sg, fmtCode (wType w)⟩

/-- The cycles of one group of latch rows: the most distinct rows of one bank of one slice, at least 1 (R173). -/
def gatherCycles (l : List (Nat × Nat × Nat)) (g : Nat) : Nat :=
  let rows := ((l.filter fun (x : Nat × Nat × Nat) => x.1 / 16 == g).map Prod.snd).eraseDups
  let bank := fun (x : Nat × Nat) => (x.1 / 128, (x.2 + x.1 % 128) % 64)
  rows.foldl (fun m x => max m (rows.filter fun y => bank y == bank x).length) 1
/-- The cycles that the bundle of an `mgath` still stalls for bank conflicts (R173), counted from its first presentation at
this bundle time. -/
def gatherStall (s : State) (l : List (Nat × Nat × Nat)) : Option (Nat × Nat) :=
  let c := ([0, 1, 2, 3].map (gatherCycles l)).sum
  match s.cx.mat.gatherWait with
  | some (b, n) =>
    if b == s.cx.btime then (if s.cycle < n then some (b, n) else none)
    else if 4 < c then some (s.cx.btime, s.cycle + (c - 4)) else none
  | none => if 4 < c then some (s.cx.btime, s.cycle + (c - 4)) else none

end State

/-- `mgath` (R172, R173). -/
def execMgath (p : Pred) (v : BitVec 6) (w k : BitVec 4) (s : State) : Host.Outcome State Fault Refusal :=
  s.matrixWord p 2 false fun s =>
    let r := s.rw w
    if !wBound r then s.trap 0x44 0 (State.wNum w)
    else if wRows r != 64 then s.matrixTrap 3 (State.wNum w)
    else
      let live := (List.range 64).filter fun i => (s.rk k).getLsbD i && (wEdgeR r).getLsbD i
      match s.tensor s.hereCluster s.cx.id.space (wTensor r) with
      | (s, .error f) => s.takeTrap f
      | (s, .ok none) => s.trap 0x40 ((wTensor r).setWidth 64) (State.wNum w)
      | (s, .ok (some tn)) =>
        match s.gatherRows r tn.ext0 (s.rv v) live with
        | .error f => s.takeTrap f
        | .ok l =>
          if l.any fun (_, k, _) => s.cx.mat.storing.contains k then s.stall
          else match s.gatherStall l with
          | some w => ({ s with cx := { s.cx with mat := { s.cx.mat with gatherWait := some w } } } : State).stall
          | none =>
            let s1 := s.push 12 (.latchA (s.gatherLatch r l))
            { s1 with cx := { s1.cx with mat := { s1.cx.mat with mgathAt := some s.cx.btime } } }
/-- The value `minit` writes (R174). -/
def initBits (sel : BitVec 2) (i : Bool) (x : Dbl) : BitVec 40 :=
  match sel.toNat with
  | 0 => 0
  | 1 => if i then BitVec.ofInt 40 (-(2 ^ 39)) else 0xFF80000000
  | 2 => if i then BitVec.ofInt 40 (2 ^ 39 - 1) else 0x7F80000000
  | _ => x.setWidth 40
/-- `minit` (R174): a tile of the other kind is refused as for every word that writes one (R160, R177 reason 4). -/
def execMinit (p : Pred) (a sel : BitVec 2) (i : Bool) (x : BitVec 5) (s : State) : Host.Outcome State Fault Refusal :=
  s.matrixWord p 3 false fun s =>
    let k : AccKind := if i then .i40 else .f40
    if !s.claimed a then s.matrixTrap 1 (a.setWidth 64)
    else if !kindFits (s.cx.acc[a.toNat]).kind k then s.matrixTrap 4 (a.setWidth 64)
    else s.setAcc a ⟨BitVec.ofNat 163840 (packAcc (List.replicate 4096 (initBits sel i (s.rx x)))), k⟩
/-- `mrd` (R175). -/
def execMrd (p : Pred) (a : BitVec 2) (row : BitVec 6) (t : ElemType) (v : BitVec 6) (k : BitVec 4) (s : State) :
    Host.Outcome State Fault Refusal :=
  s.matrixWord p 4 true fun s =>
    if !s.claimed a then s.matrixTrap 1 (a.setWidth 64)
    else
      let tile := s.cx.acc[a.toNat]
      let val := fun j => accVal tile.kind (accElem tile.data row.toNat j)
      if t == .d8 then
        let act := (List.range 64).filter (s.rk k).getLsbD
        let sg := chooseSigma (act.map val)
        let (codes, g) := toD8List sg (act.map val) s.cx.stoch
        let out := act.zip (codes.map fun c => d8Lane c sg)
        ({ s with cx := { s.cx with stoch := g } } : State).wvShared 4 v (s.rk k)
          (mkVReg fun j => ((out.find? (·.1 == j)).map Prod.snd).getD 0)
      else s.wvShared 4 v (s.rk k) (mkVReg fun j => convLane t .rne (val j))
/-- A lane as an accumulator element (R175). -/
def accOf (t : ElemType) (c : BitVec 32) : BitVec 40 :=
  if t.isInt then BitVec.ofInt 40 (laneInt t c) else BitVec.ofNat 40 (rndBits fbF40 .rne (laneVal t c))
/-- Element (row, j) of an accumulator replaced. -/
def putAcc (d : BitVec 163840) (row j : Nat) (v : BitVec 40) : BitVec 163840 :=
  let o := 40 * (64 * row + j)
  (d &&& ~~~((BitVec.allOnes 40).setWidth 163840 <<< o)) ||| (v.setWidth 163840 <<< o)
/-- `mwr` (R175). -/
def execMwr (p : Pred) (a : BitVec 2) (row : BitVec 6) (t : ElemType) (v : BitVec 6) (k : BitVec 4) (s : State) :
    Host.Outcome State Fault Refusal :=
  s.matrixWord p 5 false fun s =>
    if !s.claimed a then s.matrixTrap 1 (a.setWidth 64)
    else
      let tile := s.cx.acc[a.toNat]
      let kind : AccKind := if t.isInt then .i40 else .f40
      if !kindFits tile.kind kind then s.matrixTrap 4 (a.setWidth 64)
      else
        let d := ((List.range 64).filter (s.rk k).getLsbD).foldl
          (fun d j => putAcc d row.toNat j (accOf t (lane (s.rv v) j))) tile.data
        s.setAcc a ⟨d, kind⟩
/-- The accumulator region of part P: its first row and column (R176). -/
def mstRegion (rows cols part : Nat) : Option (Nat × Nat) :=
  if rows == 32 && cols == 32 then (if part < 4 then some (32 * (part / 2), 32 * (part % 2)) else none)
  else if 64 / min rows cols ≤ part then none
  else if rows < 64 then some (rows * part, 0) else some (0, cols * part)
/-- Write the values of an `mst` into a d8 slot: whole blocks first, then the partial ones re-encoded (R176). -/
def mstD8 (smode : Bool) (vals : List (Nat × Nat × Val)) (x : LoamSlot) (gen : BitVec 64) : LoamSlot × BitVec 64 :=
  let inB := fun b => vals.filter fun (r, k, _) => blockOf smode r k == b
  let full := fun b => (inB b).length == 256
  let scale := ((List.range 16).filter full).foldl
    (fun sc b => setSigma sc b (chooseSigma ((inB b).map fun (_, _, v) => v))) x.scale
  let whole := vals.filter fun (r, k, _) => full (blockOf smode r k)
  let (codes, gen) := d8Draw (whole.map fun (r, k, v) => (r, k, sigmaOf scale (blockOf smode r k), v)) gen
  let x1 : LoamSlot := { x with data := codes.foldl (fun d (r, k, c) => putElem d (64 * r + k) 8 c.toNat) x.data, scale := scale }
  ((List.range 16).filter fun b => !full b && (inB b).length != 0).foldl
    (fun (x, g) b => reencode smode (inB b) x g b) (x1, gen)
/-- `mst` (R176). -/
def execMst (p : Pred) (a : BitVec 2) (w : BitVec 4) (q : BitVec 2) (s : State) : Host.Outcome State Fault Refusal :=
  s.matrixWord p 6 true fun s =>
    let r := s.rw w
    if !s.claimed a then s.matrixTrap 1 (a.setWidth 64)
    else if !wBound r then s.trap 0x44 0 (State.wNum w)
    else if !s.isOpen r then s.trap 0x45 0 (State.wNum w)
    else match mstRegion (wRows r) (wCols r) q.toNat with
      | none => s.matrixTrap 6 (q.setWidth 64)
      | some (r0, c0) =>
        if s.storing r then s.stall
        else
          let key := wSlot r
          let x := s.slot s.hereCluster key
          let tile := s.cx.acc[a.toNat]
          let t := wType r
          let cells := ((List.range (wRows r * wCols r)).map fun n => (n / wCols r, n % wCols r)).filter fun (i, j) => inEdge r i j
          let vals := cells.map fun (i, j) => (i, j, accVal tile.kind (accElem tile.data (r0 + i) (c0 + j)))
          let (x', gen) := if t == .d8 then mstD8 (wSmode r) vals x s.cx.stoch
            else ({ x with data := vals.foldl (fun d (i, j, v) =>
                    putElem d ((i * wCols r + j) * esize t) (ElemType_width t) (convLane t .rne v).toNat) x.data }, s.cx.stoch)
          let s1 := s.setSlot s.hereCluster key x'
          let s2 : State := { s1 with cx := { s1.cx with
            stoch := gen, mat := { s1.cx.mat with storing := s1.cx.mat.storing ++ [key] } } }
          s2.later 32 (.mstComplete s2.here)
/-- MST_COMPLETE: the oldest store of the context has ended (R176). -/
def execMstComplete (c : Nat) (s : State) : Host.Outcome State Fault Refusal :=
  let x := s.ctx c
  .next (s.setCtx c { x with mat := { x.mat with storing := x.mat.storing.drop 1 } })
/-- MPASS_LANDS: passes of the context whose landing time has come write their tiles (R165, R178). -/
def execMpassLands (c : Nat) (s : State) : Host.Outcome State Fault Refusal :=
  let x := s.ctx c
  .next (s.setCtx c (x.landPassesAt x.btime))

end Sys2Proof.Machine
end

