-- ==== Sys2Proof/Machine/Save.lean ====
section
/-! DEFINITION. The image of a context at the offsets of R340 (save records and debug windows), the save-record pool
(R338, R339), the end of interlocked operations (R94, R332), and debug halts (R343 to R345). -/

namespace Sys2Proof.Machine

/-! The image of a context (R340). -/

/-- Scoreboard bits of destinations: x and q and w registers in the first number, v registers in the second (R340). -/
def scoreBits (l : List Reg) : Nat × Nat :=
  l.foldl (fun (a, b) r => match r with
    | .x n => (a.lor (2 ^ n.toNat), b)
    | .q n => (a.lor (2 ^ (32 + n.toNat)), b)
    | .w n => (a.lor (2 ^ (40 + n.toNat)), b)
    | .v n => (a, b.lor (2 ^ n.toNat))) (0, 0)
def kindCode : AccKind → Nat | .none => 0 | .f40 => 1 | .i40 => 2
def kindOf : Nat → AccKind | 1 => .f40 | 2 => .i40 | _ => .none
/-- Consecutive fields of n bytes from an offset. -/
def fieldsFrom (o n : Nat) : List Nat → List (Nat × Nat × Nat)
  | [] => []
  | v :: r => (o, n, v) :: fieldsFrom (o + n) n r
/-- The fields of a context as (offset, bytes, value): those the member holds (R340). -/
def Context.image (x : Context) (rhdr mst : Nat) (score defer_ : Nat × Nat) : List (Nat × Nat × Nat) :=
  fieldsFrom 0 8 [rhdr, x.pc.toNat, x.btime % 2 ^ 64, x.vrot.toNat + 256 * x.krot.toNat, (x.q ||| 1).toNat, x.stoch.toNat, mst,
    x.trap.tcause.toNat, x.trap.tinfo0.toNat, x.trap.tinfo1.toNat, x.trap.tinfo2.toNat, x.trap.tinfo3.toNat,
    x.trap.tpc.toNat, x.trap.txfer.toNat]
  ++ fieldsFrom 0x70 8 (x.sscratch.toList.map BitVec.toNat)
  ++ fieldsFrom 0x90 8 (x.b.toList.map BitVec.toNat)
  ++ fieldsFrom 0xD0 8 [score.1, score.2, defer_.1, defer_.2, x.nap, 0]
  ++ fieldsFrom 0x100 8 (0 :: (x.x.toList.drop 1).map BitVec.toNat)
  ++ fieldsFrom 0x200 8 ((2 ^ 64 - 1) :: (x.k.toList.drop 1).map BitVec.toNat)
  ++ fieldsFrom 0x280 64 (x.w.toList.map BitVec.toNat)
  ++ [(0x6A8, 24, 0), (0x740, 192, 0)]
  ++ fieldsFrom 0x800 256 (x.v.toList.map BitVec.toNat)
  ++ (if x.id.mown then
      fieldsFrom 0x680 8 [x.latchA.mask.toNat, x.latchA.kmask.toNat, x.latchB.mask.toNat, x.latchB.kmask.toNat]
      ++ [(0x6C0, 64, x.latchA.scale.toNat), (0x700, 64, x.latchB.scale.toNat),
          (0x4800, 4096, x.latchA.data.toNat), (0x5800, 4096, x.latchB.data.toNat)]
    else [])
  ++ (if x.id.mown || x.id.nacc != 0 then
      let ks := (x.acc.toList.take x.id.nacc).map fun t => kindCode t.kind
      [(0x6A0, 8, x.latchA.fmt.toNat + 16 * x.latchB.fmt.toNat + 256 * packWords 2 ks)]
    else [])
  ++ fieldsFrom 0x6800 20480 ((x.acc.toList.take x.id.nacc).map fun t => t.data.toNat)
/-- The bits of a stream register that hold fields (R189); the others are reserved and read 0. -/
def wFields : BitVec 512 := ~~~(BitVec.ofNat 512 (2 ^ 230 - 1 + 2 ^ 256))
/-- A context with the fields of an image read back (R342, R344); what the member does not hold stays. -/
def Context.fromImage (x : Context) (rd : Nat → Nat → Nat) : Context :=
  let d (o : Nat) : Dbl := BitVec.ofNat 64 (rd o 8)
  let mst := d 0x30
  let fmts := rd 0x6A0 8
  let tx := d 0x68 &&& 0x83FFFFFFFFFFFFFF
  let latch (l : Latch) (m k sc dt : Nat) (f : Nat) : Latch :=
    { l with mask := d m, kmask := d k, scale := BitVec.ofNat 512 (rd sc 64), data := BitVec.ofNat 32768 (rd dt 4096),
             fmt := BitVec.ofNat 4 f }
  let x1 : Context := { x with
    pc := (d 0x8).setWidth 56, btime := rd 0x10 8, vrot := (d 0x18).setWidth 5, krot := (d 0x18 >>> 8).setWidth 3,
    q := (d 0x20).setWidth 8, stoch := if d 0x28 == 0 then 1 else d 0x28,
    trap := { x.trap with
      tcause := d 0x38 &&& 0xFF, tinfo0 := d 0x40, tinfo1 := d 0x48, tinfo2 := d 0x50, tinfo3 := d 0x58, tpc := d 0x60,
      txfer := tx, xsrc := if tx == x.trap.txfer then x.trap.xsrc else none, xdrain := tx == x.trap.txfer && x.trap.xdrain },
    sscratch := Vector.ofFn fun i => d (0x70 + 8 * i.val),
    b := Vector.ofFn fun i => (d (0x90 + 8 * i.val)).setWidth 56,
    nap := rd 0xF0 8 % 2 ^ 20,
    x := Vector.ofFn fun i => if i.val == 0 then x.x[0] else d (0x100 + 8 * i.val),
    k := Vector.ofFn fun i => if i.val == 0 then x.k[0] else d (0x200 + 8 * i.val),
    w := Vector.ofFn fun i => BitVec.ofNat 512 (rd (0x280 + 64 * i.val) 64) &&& wFields,
    v := Vector.ofFn fun i => BitVec.ofNat 2048 (rd (0x800 + 256 * i.val) 256),
    acc := Vector.ofFn fun i =>
      if i.val < x.id.nacc then
        ⟨BitVec.ofNat 163840 (rd (0x6800 + 20480 * i.val) 20480), kindOf (fmts / 2 ^ (8 + 2 * i.val) % 4)⟩
      else x.acc[i.val] }
  if x.id.mown then
    { x1 with
      latchA := latch x.latchA 0x680 0x688 0x6C0 0x4800 (fmts % 16),
      latchB := latch x.latchB 0x690 0x698 0x700 0x5800 (fmts / 16 % 16),
      mat := { x.mat with pdone := (mst >>> 16).setWidth 16, mopx := mst.getLsbD 1, sat := mst.getLsbD 0 } }
  else x1
/-- The value at an offset of an image: bytes that no field covers are 0. -/
def imageRead (l : List (Nat × Nat × Nat)) (o n : Nat) : Nat :=
  match l.find? fun (p, m, _) => p ≤ o && o < p + m with
  | some (p, _, v) => v / 2 ^ (8 * (o - p)) % 2 ^ (8 * n)
  | none => 0

namespace State

/-- The status word of a context that need not be the one in `cx` (R163). -/
def mstatOf (s : State) (x : Context) : Nat := ({ s with cx := x } : State).mstat.toNat
/-- An operation in flight whose result a save record waits for: a `tokwait` or `bwait` that is to be sent again is not
(R268, R320). -/
def due (s : State) (f : Flight) : Bool :=
  match f.kind with
  | .barrier _ _ => false
  | .token gpa _ =>
    (s.fab.txns.any fun x => match x.use_ with | .token _ i => i == f.id | _ => false)
      || (!s.ownDevice gpa && s.homes.tokens.any fun t => t.id == f.id && t.listed)
  | _ => true
/-- RHDR of a member (R341). -/
def rhdrOf (s : State) (c : Nat) (x : Context) (parked : Bool) : Nat :=
  let due_ := x.flights.any s.due
  let resend := x.flights.any fun f => match f.kind with | .token _ _ => !s.due f | _ => false
  (if due_ then 0 else 2 ^ 63) + (if resend then 2 ^ 62 else 0) + (if parked then 2 ^ 61 else 0)
    + (if x.dbg.halted then 2 ^ 60 else 0) + (if x.mode == .supervisor then 2 ^ 59 else 0)
    + (if x.id.mown then 2 ^ 58 else 0) + x.id.nacc % 8 * 2 ^ 55 + c % 4 * 2 ^ 53 + 0xA0 * 2 ^ 32 + x.id.taskid.toNat
/-- The image of a context as it stands. -/
def imageOf (s : State) (c : Nat) (x : Context) (parked : Bool) : List (Nat × Nat × Nat) :=
  x.image (s.rhdrOf c x parked) (s.mstatOf x) (scoreBits ((x.flights.filter s.due).flatMap Flight.dests)) (scoreBits (x.deferred.map Prod.fst))

/-! The pool (R338, R339). -/

def poolBase (c : Cluster) : Nat := (c.savepool.toNat / 2 ^ 17 % 2 ^ 43) * 2 ^ 17
def poolCount (c : Cluster) : Nat := c.savepool.toNat % 2 ^ 12
/-- The lowest free record. -/
def freeRecord (s : State) (cl : Nat) : Option Nat :=
  let c := s.cluster cl
  (List.range (poolCount c)).find? fun i => !c.usedRecords.contains i
/-- Write a record of the pool: the pool's bytes at their home. -/
def writeRecord (s : State) (cl : Nat) (v : Saved) : State :=
  let a := poolBase (s.cluster cl) + 131072 * v.record
  { s with mem := (s.imageOf v.left v.cx v.parked.isSome).foldl (fun m (o, n, x) => cellsWrite m (a + o) n x) s.mem }

/-! The end of an interlocked operation (R94, R332, R341). -/

/-- The destination of an operation that failed is deferred, with the header of its bundle in TINFO3 (R332). -/
def Flight.failed (f : Flight) (e : FaultInfo) (x : Context) : Context :=
  { x with
    flights := x.flights.filter (·.id != f.id),
    deferred := x.deferred.filter (fun (r, _) => !f.dests.contains r) ++ f.dests.map fun r => (r, { e with i3 := f.header.setWidth 64 }) }
/-- An operation's results reach its destinations. -/
def Flight.ended (f : Flight) (w : List Write) (x : Context) : Context :=
  let x1 : Context := { x with flights := x.flights.filter (·.id != f.id) }
  w.foldl Context.land x1
/-- Where an operation in flight is held: a context, or a save record of an entry. -/
inductive Holder where
  | ctx (c : Nat)
  | saved (cl entry idx : Nat)
  deriving DecidableEq, Repr
def flightIn (x : Context) (id : Nat) : Option Flight := x.flights.find? (·.id == id)
/-- Find an operation in flight. -/
def findFlight (s : State) (id : Nat) : Option (Holder × Flight × Context) :=
  match flightIn s.cx id with
  | some f => some (.ctx s.here, f, s.cx)
  | none =>
    match s.others.findSome? fun (c, x) => (flightIn x id).map fun f => (Holder.ctx c, f, x) with
    | some r => some r
    | none => s.clusters.findSome? fun (n, c) => c.entries.findSome? fun (k, e) =>
        (List.range e.saved.length).findSome? fun i => (e.saved[i]?).bind fun (y : Saved) =>
          (flightIn y.cx id).map fun f => (Holder.saved n k i, f, y.cx)
/-- Put a context back where it is held; a save record is rewritten, and the last result completes it (R340, R41). -/
def putHolder (s : State) (h : Holder) (x : Context) : State :=
  match h with
  | .ctx c => s.setCtx c x
  | .saved cl k i =>
    match s.entry cl k with
    | none => s
    | some e =>
      match e.saved[i]? with
      | none => s
      | some y =>
        let y' : Saved := { y with cx := x }
        let s1 := (s.setEntry cl k { e with saved := e.saved.set i y' }).writeRecord cl y'
        if x.flights.any s1.due then s1 else s1.later 0 (.saveRecordComplete cl k)
/-- End an operation with its results, or defer its destinations. -/
def endFlight (s : State) (id : Nat) (r : Except FaultInfo (List Write)) : State :=
  match s.findFlight id with
  | none => s.closeAccess id
  | some (h, f, x) =>
    (s.putHolder h (match r with | .ok w => Flight.ended f w x | .error e => Flight.failed f e x)).closeAccess id

/-! Debug (R343 to R345). -/

/-- Halt a context between bundles. -/
def haltCtx (s : State) (c : Nat) (reason : BitVec 4) : State :=
  let here := s.here
  ((s.switch c).haltAt reason id).switch here
/-- End a context's halt: its passes go on if it is in task mode (R169). -/
def resumeCtx (s : State) (c : Nat) : State :=
  let x := s.ctx c
  if !x.dbg.halted then s
  else
    let x := { x with dbg := { x.dbg with halted := false } }
    s.setCtx c (if x.mode == .task then x.resumePasses else x)
/-- A write to DBGCTL (R343). -/
def dbgWrite (s : State) (c : Nat) (v : Dbl) : State :=
  let x := s.ctx c
  let was := x.dbg.halted
  let x := { x with dbg := { x.dbg with
    trapHalt := v.getLsbD 4, brkHalt := v.getLsbD 3, haltReq := x.dbg.haltReq || (v.getLsbD 0 && !was),
    step := x.dbg.step || (v.getLsbD 2 && was) } }
  let s := s.setCtx c x
  if v.getLsbD 1 || (v.getLsbD 2 && was) then s.resumeCtx c else s
def dbgRead (x : Context) : Dbl :=
  BitVec.ofNat 64 (x.dbg.reason.toNat * 2 ^ 12 + (if x.dbg.halted then 2 ^ 8 else 0) + (if x.dbg.trapHalt then 16 else 0)
    + (if x.dbg.brkHalt then 8 else 0))
/-- Read a debug window (R344). -/
def windowRead (s : State) (c o n : Nat) : Nat :=
  let x := s.ctx c
  if x.dbg.halted then imageRead (s.imageOf c x x.parked.isSome) o n else 0
/-- The window's bytes that a write does not change: RHDR, the SCORE and DEFER words, reserved bytes (R344). -/
def windowFixed (o : Nat) : Bool :=
  o < 8 || (0xD0 ≤ o && o < 0xF0) || (0xF8 ≤ o && o < 0x100) || (0x6A8 ≤ o && o < 0x6C0) || (0x740 ≤ o && o < 0x800)
    || 0x6800 + 4 * 20480 ≤ o
/-- Write n bytes of a debug window (R344). -/
def windowWrite (s : State) (c o n v : Nat) : State :=
  let x := s.ctx c
  if !x.dbg.halted || windowFixed o then s
  else
    let img := s.imageOf c x x.parked.isSome
    let held := img.any fun (p, m, _) => p ≤ o && o < p + m
    if !held then s
    else
      let patched := img.map fun (p, m, old) =>
        if p ≤ o && o < p + m then
          let k := 2 ^ (8 * (o - p))
          (p, m, old - old / k % 2 ^ (8 * n) * k + v % 2 ^ (8 * n) * k)
        else (p, m, old)
      let y := x.fromImage (imageRead patched)
      let y := if o / 8 == 6 && x.id.mown then
          { y with passes := y.passes.map fun (q : Pass) =>
              if q.suspended then
                { q with
                  op := (match v / 2 ^ 12 % 4 with | 0 => .mac | 1 => .ada | 2 => .mxp | _ => .mnp),
                  fmt := BitVec.ofNat 2 (v / 2 ^ 14), tile := BitVec.ofNat 2 (v / 2 ^ 10), step := min 32 (v / 2 ^ 4 % 64) }
              else q }
        else y
      s.setCtx c y

end State

/-- DBGCTL_HALTREQ: a halt at the next bundle boundary (R343). -/
def execDbgctlHaltreq (c : Nat) (s : State) : Host.Outcome State Fault Refusal :=
  let x := s.ctx c
  .next (if x.dbg.halted then s else s.setCtx c { x with dbg := { x.dbg with haltReq := true } })
/-- DBGCTL_RESUME: the halt of a context ends (R343). -/
def execDbgctlResume (c : Nat) (s : State) : Host.Outcome State Fault Refusal := .next (s.resumeCtx c)
/-- DBGCTL_STEP: a halted context issues one bundle, then halts again (R343). -/
def execDbgctlStep (c : Nat) (s : State) : Host.Outcome State Fault Refusal :=
  let x := s.ctx c
  .next (if x.dbg.halted then (s.setCtx c { x with dbg := { x.dbg with step := true } }).resumeCtx c else s)
/-- DEBUG_HALT: the context halts at a bundle boundary, for one of the reasons 1 to 4 (R343). -/
def execDebugHalt (c : Nat) (reason : BitVec 4) (s : State) : Host.Outcome State Fault Refusal :=
  let x := s.ctx c
  .next (if x.dbg.halted || reason == 0 || 4 < reason.toNat then s else if reason == 4 then
      s.setCtx c { x.drain.suspendPasses with dbg := { x.dbg with halted := true, haltReq := false, step := false, reason := 4 } }
    else s.haltCtx c reason)
/-- DEBUG_WINDOW_WRITE: eight bytes of a halted context's window (R344). -/
def execDebugWindowWrite (c off : Nat) (val : Dbl) (s : State) : Host.Outcome State Fault Refusal :=
  .next (s.windowWrite c off 8 val.toNat)

end Sys2Proof.Machine
end

