-- ==== Sys2Proof/Machine/Token.lean ====
section
/-! DEFINITION. Token words (R317 to R320): `toksig`, `tokwait`, the waiter lists and their events. -/

namespace Sys2Proof.Machine
namespace State

/-- The word is closed (R317). -/
def tokenClosed (v : Nat) : Bool := 2 ^ 63 ≤ v
/-- The live node that a reference names, changed (R301). -/
def mapNode (s : State) (b : NodeRef) (f : LiveNode → LiveNode) : State :=
  let d := s.die b.die
  let node (n : LiveNode) : LiveNode := if n.addr == b.addr then f n else n
  let level (l : Level) : Level := if l.num == b.level then { l with nodes := l.nodes.map node } else l
  let inst (i : Instance) : Instance := if i.id == b.inst then { i with levels := i.levels.map level } else i
  s.setDie b.die { d with instances := d.instances.map inst }
/-- Tell a peer what became of its listed take (payload: log 15). -/
def tellPeer (s : State) (f : Flit) (cause : BitVec 8) (v : Nat) : State :=
  let g0 : Flit := s.flitTo 0x12 true f.gpa.toNat
  let g : Flit := { g0 with
    dst := f.src, space := f.space, aux := cause.setWidth 64,
    inl := BitVec.ofNat 256 (3 + 2 ^ 64 * (f.inl.toNat / 2 ^ 64 % 2 ^ 64) + 2 ^ 128 * (v % 2 ^ 64)) }
  (s.send g .plain).2
/-- A take has been performed for a waiter: the word it read (R319). -/
def tokenTaken (s : State) (u : TokenUser) (v : Nat) : State :=
  match u with
  | .ctx _ id =>
    match s.findFlight id with
    | some (_, f, _) =>
      s.endFlight id (.ok (f.dests.filterMap fun r => match r with | .x d => some (.x d (BitVec.ofNat 64 v)) | _ => none))
    | none => s
  | .node b => (s.mapNode b fun n => { n with count := 1 }).later 0 (.waitNode b)
  | .peer f => s.tellPeer f 0 v
/-- A take has failed at home. -/
def tokenFailed (s : State) (u : TokenUser) (cause : BitVec 8) : State :=
  match u with
  | .ctx _ id =>
    let va := match s.findFlight id with | some (_, f, _) => (match f.kind with | .token _ va => va | _ => 0) | none => 0
    s.endFlight id (.error (s.memFault cause va 3 15 0))
  | .node b => (s.mapNode b fun n => { n with count := 2 }).later 0 (.waitNode b)
  | .peer f => s.tellPeer f cause 0
/-- One attempt of a take at home: a token is taken, a closed word is read, or the word is empty (R319). -/
def tokenTry (s : State) (w : TokenWait) : State × Option Perf :=
  let k : PageKind := ⟨w.space, w.key, w.tracked⟩
  match s.atomicHome none k w.gpa 8 (fun old => if tokenClosed old || old == 0 then none else some (old - 1)) with
  | (s, .done 0) => (s, none)
  | (s, r) => (s, some r)
/-- Serve the listed waiters of a word in arrival order while it gives (R318, R319). -/
def tokenServe (s : State) (gpa : Nat) : Nat → State
  | 0 => s
  | fuel + 1 =>
    match s.homes.tokens.find? fun t => t.listed && t.gpa == gpa with
    | none => s
    | some w =>
      match s.tokenTry w with
      | (s, none) => s
      | (s, some .wait) | (s, some .sent) => s.later 64 (.tokenReexamine gpa)
      | (s, some r) =>
        let s := { s with homes := { s.homes with tokens := s.homes.tokens.filter (·.id != w.id) } }
        let s1 := match r with
          | .done v => s.tokenTaken w.user v
          | .fail c => s.tokenFailed w.user c
          | .wait | .sent => s
        s1.tokenServe gpa fuel
/-- Add tokens at home, with the clamp of R318, and serve the waiters. -/
def tokenAdd (s : State) (core : Option Nat) (k : PageKind) (gpa n : Nat) : State × Perf :=
  match s.atomicHome core k gpa 8 (fun old => if tokenClosed old then none else some (min (old + n) (2 ^ 63 - 1))) with
  | (s, .done old) =>
    let ch := s.channelOf (localOf gpa)
    let s := if !tokenClosed old && 2 ^ 63 - 1 < old + n then s.log (ch / 64) 1 ch k.space 0x63 (BitVec.ofNat 64 gpa) 0 0 else s
    (s.tokenServe gpa 64, .done old)
  | (s, r) => (s, r)
/-- Waiters listed at a Daymark. -/
def listedAt (s : State) (ch : Nat) : Nat :=
  (s.homes.tokens.filter fun t => t.listed && s.ownDevice t.gpa && s.channelOf (localOf t.gpa) == ch).length
/-- Send a take to another device (R319; payload: log 15): it is listed here until its value comes, by its number. -/
def askToken (s : State) (w : TokenWait) (u : TxnUse) : State :=
  let f0 : Flit := s.flitTo 0x12 true w.gpa
  let f : Flit := { f0 with space := w.space, key := w.key.setWidth 4, inl := BitVec.ofNat 256 (1 + 2 ^ 64 * w.id) }
  let others := s.homes.tokens.filter fun t => t.id != w.id
  (({ s with homes := { s.homes with tokens := others ++ [{ w with listed := false }] } } : State).send f u).2
/-- A take arrives at home: it is performed, listed, or sent back to retry (R319). -/
def tokenArrive (s : State) (w : TokenWait) (wait : Nat) : State :=
  match s.tokenTry w with
  | (s, some (.done v)) => s.tokenTaken w.user v
  | (s, some (.fail c)) => s.tokenFailed w.user c
  | (s, some .wait) | (s, some .sent) =>
    ({ s with homes := { s.homes with tokens := s.homes.tokens ++ [{ w with listed := false }] } } : State).later 64 (.tokenWaitRetry w.id wait)
  | (s, none) =>
    if s.listedAt (s.channelOf (localOf w.gpa)) < 64 then
      ({ s with homes := { s.homes with tokens := s.homes.tokens ++ [{ w with listed := true }] } } : State).later 8192 (.tokenReexamine w.gpa)
    else
      ({ s with homes := { s.homes with tokens := s.homes.tokens ++ [{ w with listed := false }] } } : State).later wait
        (.tokenWaitRetry w.id (min 16384 (2 * wait)))
/-- The page of a token word as the home sees it. -/
def pageOf (_s : State) (sp : BitVec 6) (leaf : Dbl) : PageKind := ⟨sp, leaf.extractLsb' 8 8, leaf.getLsbD 4⟩
/-- The address names another device that is lost (R374). -/
def remoteLost (s : State) (gpa : Nat) : Bool := !s.ownDevice gpa && s.deviceLost (devOf gpa)

/-- A write of the given access kind has failed: logged, with the lane of a vector store (R252), reported at a fence of the
given sets, and over. -/
def writeFailed (s : State) (kind c access : Nat) (va : Dbl) (header : BitVec 56) (cause : BitVec 8) (sets : BitVec 5)
    (logIt : Bool) (lane : Nat := 0) : State :=
  let l : Dbl := BitVec.ofNat 64 lane
  let s := if logIt then s.logCtx c cause va l else s
  (s.reportFail access sets { s.memFault cause va kind 15 0 with i0 := l, i3 := header.setWidth 64 }).closeAccess access
/-- The checks of a token word's address after its alignment: those of an `amo` (R317). -/
def tokenWord (s : State) (va : Dbl) : State × Except FaultInfo Xlat :=
  match s.xlat va .atomic with
  | (s, .error f) => (s, .error f)
  | (s, .ok t) =>
    if s.remoteLost t.gpa then (s, .error (s.memFault 0x80 va 3 15 t.leaf))
    else match windowOf (localOf t.gpa) with
      | .control | .hole => (s, .error (s.memFault 0x2D va 3 15 t.leaf))
      | _ => (s, .ok t)

end State

/-- `toksig` (R318): a release, performed at home once every earlier event is complete (R289). -/
def execToksig (p : Pred) (a b : BitVec 5) (s : State) : Host.Outcome State Fault Refusal :=
  s.perform p fun s =>
    let va := s.rx a
    let n := if b == 0 then 1 else (s.rx b).toNat
    if va.toNat % 8 != 0 then s.takeTrap (s.memFault 0x24 va 3 15 0)
    else if n == 0 || 2 ^ 32 ≤ n then s.trap 0x63 1
    else match s.tokenWord va with
      | (s, .error f) => s.takeTrap f
      | (s, .ok t) =>
        if !s.settled 2 then s.stall
        else if !s.ownDevice t.gpa then
          let (id, s) := s.openAccess 16 false
          (s.send { s.flitTo 0x12 true t.gpa with
              space := s.cx.id.space, key := t.leaf.extractLsb' 8 4, inl := BitVec.ofNat 256 (2 ^ 64 * n) }
            (.store s.here id va s.issue.pc)).2
        else match s.tokenAdd (some s.hereCore) (s.pageOf s.cx.id.space t.leaf) t.gpa n with
          | (s, .wait) | (s, .sent) => s.stall
          | (s, .fail e) =>
            let (id, s) := s.openAccess 2 false
            s.writeFailed 3 s.here id va s.issue.pc e 2 true
          | (s, .done _) => s
/-- TOKEN_WAIT_RETRY (R319). -/
def execTokenWaitRetry (id wait : Nat) (s : State) : Host.Outcome State Fault Refusal :=
  .next (match s.homes.tokens.find? fun t => t.id == id && !t.listed with
    | none => s
    | some w =>
      ({ s with homes := { s.homes with tokens := s.homes.tokens.filter (·.id != id) } } : State).tokenArrive w wait)
/-- TOKEN_REEXAMINE (R319): the listed waiters of a word are examined again, at least every 8,192 cycles. -/
def execTokenReexamine (gpa : Nat) (s : State) : Host.Outcome State Fault Refusal :=
  let s' := s.tokenServe gpa 64
  .next (if s'.homes.tokens.any fun t => t.listed && t.gpa == gpa then s'.later 8192 (.tokenReexamine gpa) else s')

end Sys2Proof.Machine
end

