-- ==== Sys2Proof/Machine/Barrier.lean ====
section
/-! DEFINITION. Barrier objects in cluster scratch (R263 to R271) and the barrier words. -/

namespace Sys2Proof.Machine

/-! Fields of an object (R263). -/

def bPending (b : BitVec 128) : Nat := (b.extractLsb' 0 48).toNat
def bPhase (b : BitVec 128) : Bool := b.getLsbD 48
def bFault (b : BitVec 128) : Bool := b.getLsbD 49
def bExpected (b : BitVec 128) : Nat := (b.extractLsb' 64 16).toNat
def bArrived (b : BitVec 128) : Nat := (b.extractLsb' 80 16).toNat
def bFcause (b : BitVec 128) : Nat := (b.extractLsb' 96 8).toNat
def bFcount (b : BitVec 128) : Nat := (b.extractLsb' 104 24).toNat
/-- Replace n bits of an object from bit lo. -/
def bPut (b : BitVec 128) (lo n v : Nat) : BitVec 128 :=
  (b &&& ~~~(BitVec.ofNat 128 ((2 ^ n - 1) * 2 ^ lo))) ||| BitVec.ofNat 128 (v % 2 ^ n * 2 ^ lo)

namespace State

def barrier (s : State) (cl off : Nat) : BitVec 128 := BitVec.ofNat 128 (s.scratchRead cl off 16)
/-- Keep what an object holds before its first event of a cycle (R269). -/
def noteBarrier (s : State) (cl off : Nat) : State :=
  let c := s.cluster cl
  let now := c.barBefore.filter fun (_, t, _) => t == s.cycle
  s.setCluster cl { c with barBefore := if now.any fun (o, _, _) => o == off then now else (off, s.cycle, s.barrier cl off) :: now }
/-- The object as a `btest` samples it: without the events of its cycle (R269). -/
def barrierSeen (s : State) (cl off : Nat) : BitVec 128 :=
  match (s.cluster cl).barBefore.find? fun (o, t, _) => o == off && t == s.cycle with
  | some (_, _, b) => b
  | none => s.barrier cl off
def setBarrier (s : State) (cl off : Nat) (b : BitVec 128) : State := (s.noteBarrier cl off).scratchWrite cl off 16 b.toNat
/-- End a `bwait`: qd has its value. -/
def endWait (s : State) (cl : Nat) (w : BarWait) (v : Bool) : State :=
  let c := s.cluster cl
  let s := s.setCluster cl { c with waiters := c.waiters.filter fun (x : BarWait) => x.flight != w.flight }
  match s.findFlight w.flight with
  | some (_, f, _) =>
    s.endFlight w.flight (.ok (f.dests.filterMap fun r => match r with | .q d => some (.q d v) | _ => none))
  | none => s
/-- Release the listed waiters of an object (R265, R266), with `all` also those that poll (R270). -/
def releaseWaiters (s : State) (cl off : Nat) (v : Bool) (all : Bool := false) : State :=
  ((s.cluster cl).waiters.filter fun (w : BarWait) => w.off == off && (all || w.tabled)).foldl (fun s w => s.endWait cl w v) s
/-- The test after an event that changed PENDING or ARRIVED (R265). -/
def barrierTest (s : State) (cl off : Nat) : State :=
  let b := s.barrier cl off
  if !bFault b && bPending b == 0 && bArrived b == bExpected b then
    (s.setBarrier cl off (bPut (bPut b 48 1 (if bPhase b then 0 else 1)) 80 16 0)).releaseWaiters cl off true
  else s
/-- A fault of the object: FAULT, FCAUSE if it was 0, and the waiters go with false (R266). -/
def barrierFault (s : State) (cl off : Nat) (cause : Nat) (copy overflow : Bool) : State :=
  let b := s.barrier cl off
  let b := bPut b 49 1 1
  let b := if bFcause b == 0 then bPut b 96 8 cause else b
  let b := if copy then bPut b 104 24 (min (bFcount b + 1) (2 ^ 24 - 1)) else b
  let b := if overflow then bPut b 50 1 1 else b
  (s.setBarrier cl off b).releaseWaiters cl off false
/-- A count that would leave its range (R267). -/
def barrierOverflow (s : State) (cl off : Nat) : State := s.barrierFault cl off 0x60 false true
/-- Add to PENDING. -/
def barrierAdd (s : State) (cl off n : Nat) : State :=
  let b := s.barrier cl off
  if n == 0 then s
  else if 2 ^ 48 - 1 < bPending b + n then s.barrierOverflow cl off
  else (s.setBarrier cl off (bPut b 0 48 (bPending b + n))).barrierTest cl off
/-- Subtract from PENDING, as landing bytes do. -/
def barrierPay (s : State) (cl off n : Nat) : State :=
  let b := s.barrier cl off
  if n == 0 then s
  else if bPending b < n then s.barrierOverflow cl off
  else (s.setBarrier cl off (bPut b 0 48 (bPending b - n))).barrierTest cl off
/-- One arrival. -/
def barrierArrive (s : State) (cl off : Nat) : State :=
  let b := s.barrier cl off
  if bExpected b < bArrived b + 1 then s.barrierOverflow cl off
  else (s.setBarrier cl off (bPut b 80 16 (bArrived b + 1))).barrierTest cl off
/-- A barrier word on the object at xa, once its offset is checked (R264). -/
def onBarrier (s : State) (a : BitVec 5) (w : Bool) (f : State → Nat → State) : State :=
  let o := s.rx a
  match s.scratchFault o 16 w with
  | some e => s.takeTrap e
  | none => f s (s.scratchAt o.toNat)
/-- What ends a `bwait`: the phase differs, or the object is faulted. -/
def waitOver (b : BitVec 128) (phase : Bool) : Bool := bPhase b != phase || bFault b

end State

/-! Running copies (R261, R262, R266). -/

namespace State

def copyOf (s : State) (cl id : Nat) : Option CopyJob := (s.cluster cl).copies.find? fun (j : CopyJob) => j.id == id
def setCopy (s : State) (cl : Nat) (j : CopyJob) : State :=
  let c := s.cluster cl
  s.setCluster cl { c with copies := c.copies.map fun (x : CopyJob) => if x.id == j.id then j else x }
/-- The copy is over: it leaves the unit, and its access is complete. -/
def endCopy (s : State) (cl id : Nat) : State :=
  let c := s.cluster cl
  (s.setCluster cl { c with copies := c.copies.filter fun (x : CopyJob) => x.id != id }).closeAccess id
/-- A copy that has met a fault stops once the units that it has sent to other devices have ended: its barrier is faulted, and the
fault is logged with its address (R266; DEDUCED, log 36). -/
def stopCopy (s : State) (cl id : Nat) : State :=
  match s.copyOf cl id with
  | none => s
  | some j =>
    match j.fault, j.sent with
    | some (cause, addr), [] =>
      ((s.log (cl / 16) 6 (cl % 16) j.space cause addr 0 0).barrierFault cl j.bar cause.toNat true false).endCopy cl id
    | _, _ => s
/-- The copy meets a fault: it sends no further unit (R266). The first fault counts. -/
def failCopy (s : State) (cl id : Nat) (cause : BitVec 8) (addr : Dbl) : State :=
  match s.copyOf cl id with
  | none => s
  | some j => (s.setCopy cl { j with fault := j.fault <|> some (cause, addr) }).stopCopy cl id
/-- A unit that was on its way to another device has failed. -/
def unitFailed (s : State) (cl id k : Nat) (cause : BitVec 8) (addr : Dbl) : State :=
  match s.copyOf cl id with
  | none => s
  | some j => (s.setCopy cl { j with sent := j.sent.filter (· != k) }).failCopy cl id cause addr
/-- A unit has landed: its bytes of the copy leave PENDING (R262). -/
def landCopy (s : State) (cl id k n : Nat) : State :=
  match s.copyOf cl id with
  | none => s
  | some j =>
    let j1 : CopyJob := { j with landed := k :: j.landed, sent := j.sent.filter (· != k), lines := [] }
    let s := (s.setCopy cl j1).barrierPay cl j.bar n
    if j1.landed.length == j.units then s.endCopy cl id else s.stopCopy cl id
/-- A line that a copy reads at another device has arrived (R374, R384). -/
def copyLine (s : State) (cl id l : Nat) (va : Dbl) (key : BitVec 8) (f : Flit) : State :=
  match s.copyOf cl id with
  | none => s
  | some j =>
    match s.ingress j.space key l f with
    | (s, .ok d) => s.setCopy cl { j with lines := tset j.lines l d }
    | (s, .error e) => s.failCopy cl id e va

end State

/-- `binit`. -/
def execBinit (p : Pred) (a b : BitVec 5) (s : State) : Host.Outcome State Fault Refusal :=
  s.perform p fun s => s.onBarrier a true fun s off =>
    let n := (s.rx b).toNat
    if n == 0 || 65535 < n then s.trap 0x61
    else (s.noteBarrier s.hereCluster off).scratchPut s.hereCluster off 16 (n * 2 ^ 64 + s.issue.scope.toNat * 2 ^ 51)
/-- The scope at which an arrival releases: the bundle's, and no narrower than the object's, at which a flip releases what is ordered
before it (R280, R287). -/
def State.arriveScope (s : State) (off : Nat) : BitVec 2 :=
  let o := (s.barrier s.hereCluster off).extractLsb' 51 2
  if s.issue.scope.toNat < o.toNat then o else s.issue.scope
/-- `barrive`: a release (R280, R287). -/
def execBarrive (p : Pred) (a : BitVec 5) (s : State) : Host.Outcome State Fault Refusal :=
  s.perform p fun s => s.onBarrier a true fun s off =>
    if !s.settled (s.arriveScope off) then s.stall else s.barrierArrive s.hereCluster off
/-- `bexpect`. -/
def execBexpect (p : Pred) (a b : BitVec 5) (s : State) : Host.Outcome State Fault Refusal :=
  s.perform p fun s => s.onBarrier a true fun s off => s.barrierAdd s.hereCluster off (s.rx b).toNat
/-- `bwait` (R264, R268): an acquire; interlocked on qd. -/
def execBwait (p : Pred) (q : BitVec 3) (a b : BitVec 5) (s : State) : Host.Outcome State Fault Refusal :=
  s.perform p fun s => s.onBarrier a false fun s off =>
    let phase := (s.rx b).getLsbD 0
    let o := s.barrier s.hereCluster off
    if State.waitOver o phase then s.flightBound [.q q] [.q q (!bFault o)]
    else
      let (id, s) := s.openAccess 8 false
      let s : State := { s with cx := { s.cx with
        flights := s.cx.flights ++ [⟨id, .barrier off phase, [.q q], [], s.issue.pc⟩],
        barriers := s.cx.barriers ++ [⟨31, [id], s.issue.scope == 0⟩] } }
      let c := s.cluster s.hereCluster
      let tabled := (c.waiters.filter fun (w : BarWait) => w.tabled).length < 64
      let s := s.setCluster s.hereCluster { c with waiters := c.waiters ++ [(⟨s.here, id, off, tabled, 64⟩ : BarWait)] }
      if tabled then s else s.later 64 (.bwaitPoll s.here id)
/-- `btest`: the object sampled at issue, before the events of the cycle (R269). -/
def execBtest (p : Pred) (d a : BitVec 5) (h : Bool) (s : State) : Host.Outcome State Fault Refusal :=
  s.perform p fun s => s.onBarrier a false fun s off =>
    let b := s.barrierSeen s.hereCluster off
    s.wx 1 d (if h then b.extractLsb' 64 64 else b.extractLsb' 0 64)
/-- `breset` (R270): it stalls while an accepted copy names the object. -/
def execBreset (p : Pred) (a : BitVec 5) (s : State) : Host.Outcome State Fault Refusal :=
  s.perform p fun s => s.onBarrier a true fun s off =>
    if (s.cluster s.hereCluster).copies.any fun (k : CopyJob) => k.bar == off then s.stall
    else
      let b := s.barrier s.hereCluster off
      let b := bPut (bPut (bPut (bPut b 0 48 0) 49 2 0) 80 16 0) 96 32 0
      (s.setBarrier s.hereCluster off b).releaseWaiters s.hereCluster off true true
/-- BWAIT_POLL (R268): a waiter beside the table looks at the object, at doubling intervals. -/
def execBwaitPoll (c id : Nat) (s : State) : Host.Outcome State Fault Refusal :=
  let cl := c / 64
  .next (match (s.cluster cl).waiters.find? fun (w : BarWait) => w.flight == id with
    | none => s
    | some w =>
      match s.findFlight id with
      | some (_, f, _) =>
        match f.kind with
        | .barrier off phase =>
          let b := s.barrier cl off
          if State.waitOver b phase then s.endWait cl w (!bFault b)
          else if w.tabled then s
          else
            let cz := s.cluster cl
            let slow := fun (x : BarWait) => if x.flight == id then ({ x with interval := min 8192 (2 * x.interval) } : BarWait) else x
            (s.setCluster cl { cz with waiters := cz.waiters.map slow }).later (min 8192 (2 * w.interval)) (.bwaitPoll c id)
        | _ => s
      | none => s)

end Sys2Proof.Machine
end

