-- ==== Sys2Proof/Machine/Lantern.lean ====
section
/-! DEFINITION. Lantern: descriptors and inputs (R25 to R28, R322, R323), ranking, placement and dispatch (R324 to R327),
the start of a context (R31), `spawn` (R38, R39, R316), members and completion (R34, R123), pre-emption and resumption
(R40 to R42, R292, R338 to R342). -/

namespace Sys2Proof.Machine

/-! Descriptor fields (R25). -/

def dEntry (d : BitVec 512) : BitVec 56 := d.extractLsb' 0 56
def dArgs (d : BitVec 512) : BitVec 56 := d.extractLsb' 64 56
def dCoord (d : BitVec 512) : Dbl := d.extractLsb' 128 64
def dSpace (d : BitVec 512) : BitVec 6 := d.extractLsb' 192 6
def dClass (d : BitVec 512) : BitVec 2 := d.extractLsb' 200 2
def dNacc (d : BitVec 512) : Nat := (d.extractLsb' 202 3).toNat
def dMown (d : BitVec 512) : Bool := d.getLsbD 205
def dScratch (d : BitVec 512) : Nat := (d.extractLsb' 224 32).toNat
def dMaps (d : BitVec 512) : BitVec 56 := d.extractLsb' 256 56
def dNmap (d : BitVec 512) : Nat := (d.extractLsb' 312 4).toNat
def dDest (d : BitVec 512) : BitVec 20 := d.extractLsb' 320 20
def dDone (d : BitVec 512) : BitVec 56 := d.extractLsb' 384 56
/-- The SEL of dimension i of an input map (R26). -/
def mapSel (m : BitVec 256) (i : Nat) : Nat := (m.extractLsb' (64 + 32 * i + 24) 3).toNat
/-- Tile coordinate i of a map, exact (R26). -/
def mapCoord (m : BitVec 256) (c : Dbl) (i : Nat) : Int :=
  let w := m.extractLsb' (64 + 32 * i) 32
  let off := (w.extractLsb' 0 16).toInt
  if mapSel m i == 4 then off else (w.extractLsb' 16 8).toInt * (coordAt c (mapSel m i) : Int) + off
/-- A COORD-packed word of coordinates, each modulo 2^16. -/
def packInts (l : List Int) : Dbl := BitVec.ofNat 64 (packWords 16 (l.map fun i => (i % 65536).toNat))
/-- The task's identity number (R128). -/
def taskIdOf (cl e : Nat) : BitVec 17 := BitVec.ofNat 17 (cl * 2048 + e)

namespace State

/-- The lowest offending field of a descriptor; its maps are looked at after it, the SELs of each before its tensor and coordinates,
map by map (the order among findings of different rows of R27 is the model's; DESIGN CHOICE, log 38). -/
def descFault (s : State) (d : BitVec 512) : Option Nat :=
  if (dEntry d).toNat % 4 != 0 then some 0
  else if (dClass d).toNat < (s.sclass (dSpace d)).toNat then some 200
  else if 4 < dNacc d then some 202
  else if 4194304 < dScratch d then some 224
  else if dNmap d != 0 && (dMaps d).toNat % 32 != 0 then some 256
  else if 8 < dNmap d then some 312
  else if (dDone d).toNat % 8 != 0 then some 384
  else none
/-- Read the maps of a descriptor from the m-th on: a fault is the task's trap at entry, and a SEL of 5 to 7 too, by the
bit position of that SEL in its map (R27). -/
def readMaps (s : State) (cl : Nat) (d : BitVec 512) (m : Nat) : Nat → State × Except FaultInfo (List (BitVec 256))
  | 0 => (s, .ok [])
  | n + 1 =>
    let va : Dbl := (dMaps d).setWidth 64 + BitVec.ofNat 64 (32 * m)
    match s.readVa cl (dSpace d) va 32 .read with
    | (s, .error f) => (s, .error { f with i0 := BitVec.ofNat 64 m, i1 := va })
    | (s, .ok v) =>
      let w := BitVec.ofNat 256 v
      match (List.range 4).find? fun i => 4 < mapSel w i with
      | some i => (s, .error ⟨0xA1, BitVec.ofNat 64 (88 + 32 * i), 0, 0, 0⟩)
      | none =>
        match s.readMaps cl d (m + 1) n with
        | (s, .ok l) => (s, .ok (w :: l))
        | r => r
/-- The inputs of a list of maps, or the first map's finding (R27). -/
def mapInputs (s : State) (cl : Nat) (d : BitVec 512) (m : Nat) : List (BitVec 256) → State × Except FaultInfo (List Input)
  | [] => (s, .ok [])
  | w :: rest =>
    let t : BitVec 20 := w.extractLsb' 0 20
    let co := (List.range 4).map (mapCoord w (dCoord d))
    let num : Dbl := BitVec.ofNat 64 m
    match s.tensorWord cl (dSpace d) t with
    | (s, .error f) => (s, .error { f with i0 := num })
    | (s, .ok none) => (s, .error ⟨0x40, num, 0, 0, 0⟩)
    | (s, .ok (some b)) =>
      match tensorOf b with
      | none => (s, .error ⟨0x40, num, 0, 0, 0⟩)
      | some tn =>
        let c := packInts co
        if co.any (fun i => i < 0 || 65535 < i) || !tn.coordOk c then (s, .error ⟨0x41, num, c, 0, 0⟩)
        else
          let want : Want := if w.getLsbD 20 then .atLeast (w.extractLsb' 32 32) else .latest
          match s.mapInputs cl d (m + 1) rest with
          | (s, .ok l) => (s, .ok (⟨⟨dSpace d, t, c⟩, want, false, false, 0, 0, b⟩ :: l))
          | r => r
/-- Evaluate an entry's maps (R27, R28): a finding in the descriptor's fields comes first, then those of the maps' SELs, then those of
their tensors and coordinates by map, since R27 does not rank its rows (DESIGN CHOICE, log 38). -/
def evaluate (s : State) (cl k : Nat) : State :=
  match s.entry cl k with
  | none => s
  | some e =>
    match s.descFault e.desc with
    | some b => s.setEntry cl k { e with inputs := [], fault := some ⟨0xA1, BitVec.ofNat 64 b, 0, 0, 0⟩ }
    | none =>
      match s.readMaps cl e.desc 0 (dNmap e.desc) with
      | (s, .error f) => s.setEntry cl k { e with inputs := [], fault := some f }
      | (s, .ok l) =>
        match s.mapInputs cl e.desc 0 l with
        | (s, .error f) => s.setEntry cl k { e with inputs := [], fault := some f }
        | (s, .ok ins) => s.setEntry cl k { e with inputs := ins, fault := none }

/-! Input requests (R323). -/

/-- The entries whose inputs are requested next: class 0 first, then by acceptance. -/
def requestOrder (s : State) (cl : Nat) : List Nat :=
  let l := (s.cluster cl).entries.filter fun (_, e) => e.state == .pending && e.fault.isNone && !e.hold
  let key := fun (n : Nat × Entry) => (if dClass n.2.desc == 0 then 0 else 1, n.2.acceptedAt, n.1)
  (l.mergeSort fun a b =>
    let (a1, a2, a3) := key a
    let (b1, b2, b3) := key b
    a1 < b1 || (a1 == b1 && (a2 < b2 || (a2 == b2 && a3 ≤ b3)))).map Prod.fst
def outstanding (s : State) (cl : Nat) : Nat :=
  (s.cluster cl).entries.foldl (fun n (_, e) =>
    n + (if e.state == .pending then (e.inputs.filter fun i => i.requested && !i.resident).length else 0)) 0
/-- Request one input: a local hit arrives at once. -/
def requestInput (s : State) (cl k m : Nat) : State :=
  match s.entry cl k with
  | none => s
  | some e =>
    match e.inputs[m]? with
    | none => s
    | some i =>
      if i.requested || 256 ≤ s.outstanding cl then s
      else match s.localHit cl i.tile i.want with
        | some key =>
          let i' : Input := { i with requested := true, resident := true, version := (s.slot cl key).version, slot := key }
          ((s.hitSlot cl key).setEntry cl k { e with inputs := e.inputs.set m i' }).later 0 (.inputArrival cl k m)
        | none =>
          let s1 := s.setEntry cl k { e with inputs := e.inputs.set m { i with requested := true } }
          (s1.requestTile ⟨i.tile, i.want, .input cl k m, cl⟩ (dClass e.desc)).later (s1.vwaitCycles i.tile.space + 1)
            (.versionWaitTimeout (.input cl k m))
/-- Send the input requests that the bound of 256 allows. -/
def sendInputs (s : State) (cl : Nat) : State :=
  (s.requestOrder cl).foldl (fun s k => (List.range 8).foldl (fun s m => s.requestInput cl k m) s) s
/-- Pin a list of slots, or none of them. -/
def pinAll (s : State) (cl : Nat) : List Nat → Option State
  | [] => some s
  | k :: r => (s.pin cl k).bind fun s => s.pinAll cl r
/-! Resources of cores and scratch (R325, R327, R339). -/

/-- The contexts of a cluster, by core and context. -/
def clusterCtxs (cl : Nat) : List Nat := (List.range 64).map fun i => 64 * cl + i
def occupied (s : State) (c : Nat) : Bool := (s.ctx c).occ == .occupied
/-- The claims on a core of tasks other than `id`, but for tasks all of whose contexts are in a list. -/
def claims (s : State) (core : Nat) (id : BitVec 17) (but : List Nat) : List (Nat × Bool) :=
  (s.cluster (core / 16)).entries.filterMap fun (k, e) => e.claim.bind fun (c, nacc, mown) =>
    let freed := !e.members.isEmpty && e.members.all but.contains
    if c == core && taskIdOf (core / 16) k != id && !freed then some (nacc, mown) else none
/-- Accumulators claimed on a core. -/
def claimedAcc (s : State) (core : Nat) (id : BitVec 17) (but : List Nat) : Nat :=
  (s.claims core id but).foldl (fun n c => n + c.1) 0
def ownsMatrix (s : State) (core : Nat) (id : BitVec 17) (but : List Nat) : Bool := (s.claims core id but).any Prod.snd
/-- The contexts of running members of classes 1 to 3 in a cluster. -/
def lowContexts (s : State) (cl : Nat) : List Nat := (clusterCtxs cl).filter fun c => s.occupied c && (s.ctx c).id.klass != 0
/-- Running members of classes 1 to 3 in a cluster. -/
def lowMembers (s : State) (cl : Nat) : Nat := (s.lowContexts cl).length
/-- A further record can be held in reserve for a member of a class (R339). -/
def canReserve (s : State) (cl : Nat) (klass : BitVec 2) (extra : Nat) : Bool :=
  let c := s.cluster cl
  klass == 0 || (64 ≤ poolCount c && s.lowMembers cl + extra ≤ poolCount c - c.usedRecords.length)
/-- Windows in use: base and length rounded up (R229). -/
def windows (s : State) (cl : Nat) : List (Nat × Nat) :=
  (s.cluster cl).entries.filterMap fun (_, e) =>
    if e.started && dScratch e.desc != 0 then some (e.scratchBase, (dScratch e.desc + 2047) / 2048 * 2048) else none
/-- The lowest free window of a length in [lo, hi). -/
def windowIn (used : List (Nat × Nat)) (len lo hi : Nat) : Option Nat :=
  let cands := ((lo :: used.map fun (b, n) => b + n).filter (lo ≤ ·)).mergeSort (· ≤ ·)
  cands.find? fun b => b + len ≤ hi && used.all fun (u, n) => b + len ≤ u || u + n ≤ b
/-- Place a window (R327). -/
def placeWindow (s : State) (cl : Nat) (klass : BitVec 2) (bytes : Nat) : Option Nat :=
  if bytes == 0 then some 0
  else
    let c := s.cluster cl
    let len := (bytes + 2047) / 2048 * 2048
    let hi := c.converted * 524288
    let z := min (65536 * min 64 (c.loampart.toNat / 2 ^ 56)) hi
    let u := s.windows cl
    if klass == 0 then
      match windowIn u len 0 z with
      | some b => some b
      | none => windowIn u len z hi
    else windowIn u len z hi
def coreUp (s : State) (core : Nat) : Bool := !(s.core core).failed && !s.svc.diefence.getLsbD (core / 256)
/-- Some core has the matrix ownership that a task needs (R30). What classes 1 to 3 claim does not stand in the way of class 0, for
which R326 frees it. Accumulators do not hold a task back from being ready: it waits ready for them (R328). -/
def needsFit (s : State) (cl : Nat) (klass : BitVec 2) (id : BitVec 17) (mown : Bool) : Bool :=
  let freed := if klass == 0 then s.lowContexts cl else []
  (List.range 16).any fun n => s.coreUp (16 * cl + n) && (!mown || !s.ownsMatrix (16 * cl + n) id freed)
/-- A task of an entry no longer waits for tiles (R27, R32). -/
def forgetEntry (s : State) (cl k : Nat) : State :=
  s.forget cl fun u => match u with | .input c e _ | .reacquire c e _ => c == cl && e == k | _ => false
/-- The task is ready when its inputs are resident, which pins them in one step, and its needs fit, or when it is to trap at entry
(R30, R323). -/
def readyCheck (s : State) (cl k : Nat) : State :=
  match s.entry cl k with
  | none => s
  | some e =>
    if e.state != .pending || e.hold then s
    else
      let go (s : State) (e : Entry) : State :=
        let s := (s.setEntry cl k { e with state := .ready, readyAt := s.cycle, aged := false }).later 0 (.taskDispatch cl)
        if dClass e.desc == 0 then s else s.later 14000000 (.classAgeing cl k)
      let fit (s : State) (e : Entry) : State :=
        if s.needsFit cl (dClass e.desc) (taskIdOf cl k) (dMown e.desc)
            && (s.placeWindow cl (dClass e.desc) (dScratch e.desc)).isSome then go s e
        else (s.setEntry cl k e).later 16 (.inputArrival cl k 0)
      if e.fault.isSome then go (s.forgetEntry cl k) { e with inputs := [] }
      else if e.pinned then fit s e
      else if e.inputs.any fun i => !i.resident then s
      else
        let gone := fun (i : Input) =>
          let x := s.slot cl i.slot
          !(isPublished x.state && x.tile == i.tile && x.version == i.version)
        if e.inputs.any gone then
          let again := e.inputs.map fun i => if gone i then { i with requested := false, resident := false } else i
          (s.setEntry cl k { e with inputs := again }).sendInputs cl
        else match s.pinAll cl (e.inputs.map Input.slot) with
          | some s => fit s { e with pinned := true }
          | none => s.later 64 (.inputArrival cl k 0)
/-- Accept a descriptor into an entry (R27, R322). -/
def accept (s : State) (cl k : Nat) (d : BitVec 512) (addr : Dbl) (g : Option NodeRef) : State :=
  let e : Entry := { desc := d, addr := addr, state := .pending, graph := g, acceptedAt := s.cycle }
  ((((s.setEntry cl k e).evaluate cl k).sendInputs cl)).readyCheck cl k
/-- The lowest free entry of a Lantern. -/
def freeEntry (s : State) (cl : Nat) : Option Nat :=
  let used := (s.cluster cl).entries.map Prod.fst
  if 2048 ≤ used.length then none else (List.range 2048).find? fun k => !used.contains k

/-! Placement (R325). -/

/-- The context is idle, or reserved for this task. -/
def ctxFree (s : State) (c : Nat) (id : BitVec 17) : Bool :=
  let x := s.ctx c
  x.occ == .idle || (x.occ == .reserved && x.id.taskid == id)
/-- `fits` of R325 without the window; `freed` are contexts counted as free. -/
def fits (s : State) (c : Nat) (klass : BitVec 2) (id : BitVec 17) (nacc : Nat) (mown : Bool) (freed : List Nat) : Bool :=
  s.coreUp (c / 4) && (s.ctxFree c id || freed.contains c) && (c % 4 != 0 || klass == 0)
    && nacc ≤ 8 - s.claimedAcc (c / 4) id freed && (!mown || !s.ownsMatrix (c / 4) id freed)
/-- `choose` of R325, skipping the contexts of a list. -/
def choose (s : State) (cl : Nat) (klass : BitVec 2) (id : BitVec 17) (nacc : Nat) (mown : Bool) (freed skip : List Nat) :
    Option Nat :=
  let ok := fun c => !skip.contains c && s.fits c klass id nacc mown freed
  let zero := if klass == 0 then ((List.range 16).map fun n => 64 * cl + 4 * n).find? ok else none
  match zero with
  | some c => some c
  | none => ((List.range 48).map fun n => 64 * cl + 4 * (n / 3) + 1 + n % 3).find? ok

/-! The start of a context (R31, R39). -/

/-- Bind w0 to w(NMAP − 1) read-only to the input maps (R31): the streams, and the pins they add. None when a pin limit is
met. -/
def bindInputs (s : State) (cl : Nat) (i : Nat) : List Input → Vector (BitVec 512) 16 → Option (State × Vector (BitVec 512) 16)
  | [], w => some (s, w)
  | x :: rest, w =>
    match tensorOf x.desc, s.pin cl x.slot with
    | some tn, some s =>
      if h : i < 16 then s.bindInputs cl (i + 1) rest (w.set i (bindStream tn x.tile x.version x.slot 1)) else some (s, w)
    | _, none => none
    | none, some _ => s.bindInputs cl (i + 1) rest w
/-- The initial state of a member (R31, R61). -/
def freshContext (e : Entry) (id : Ident) (old : Debug) : Context :=
  { occ := .occupied, id := id, pc := dEntry e.desc, stoch := if id.coord == 0 then 1 else id.coord, q := 1,
    x := (((Vector.replicate 32 (0 : Dbl)).set 1 ((dArgs e.desc).setWidth 64)).set 2 id.coord).set 3 ((dDest e.desc).setWidth 64),
    dbg := { old with halted := false, haltReq := false, step := false } }
/-- The identity of a task's first member. -/
def identOf (e : Entry) (cl k base : Nat) : Ident :=
  { taskid := taskIdOf cl k, coord := dCoord e.desc, space := dSpace e.desc, klass := dClass e.desc, cotask := false,
    nacc := min 4 (dNacc e.desc), mown := dMown e.desc, scratchBase := base, scratchLen := dScratch e.desc }
/-- Give back what was reserved for a task but not used (R35). -/
def unreserve (s : State) (id : BitVec 17) (l : List Nat) : State :=
  l.foldl (fun s c => let x := s.ctx c; if x.occ == .reserved && x.id.taskid == id then s.setCtx c { x with occ := .idle } else s) s
/-- Take a trap in a context before its first bundle issues: at entry (R28), or on resumption (R33), where the slot that has served a
parked word loses its pin. -/
def trapAt (s : State) (c : Nat) (f : FaultInfo) : State :=
  let here := s.here
  let s := match (s.ctx c).served with | some k => s.unpin (c / 64) k | none => s
  let s := s.switch c
  let s1 : State := { s with issue := { s.issue with pc := s.cx.pc, slot := 0 } }
  (s1.takeTrap (s1.atSlot f)).switch here
/-- What a descriptor claims: accumulators, matrix ownership and scratch. A value beyond its limit, which traps at entry (R27),
claims nothing. -/
def descClaim (d : BitVec 512) : Nat × Bool × Nat :=
  (if dNacc d ≤ 4 then dNacc d else 0, dMown d, if dScratch d ≤ 4194304 then dScratch d else 0)
/-- Dispatch a ready task that has not run: none when it does not fit. A task that traps at its entry starts as R31 says, without
inputs (R27, R28). -/
def dispatchFresh (s : State) (cl k : Nat) (e : Entry) : Option State :=
  let kl := dClass e.desc
  let id := taskIdOf cl k
  let (nacc, mown, bytes) := descClaim e.desc
  if !s.canReserve cl kl 1 then none
  else
    (s.choose cl kl id nacc mown [] []).bind fun c =>
    (s.placeWindow cl kl bytes).bind fun base =>
    (s.bindInputs cl 0 e.inputs (Vector.replicate 16 0)).map fun (s, w) =>
      let ident : Ident := { identOf e cl k base with nacc := nacc, mown := mown, scratchLen := bytes }
      let x : Context := { freshContext e ident (s.ctx c).dbg with w := w, entryTrap := e.fault.isSome }
      let len := (bytes + 2047) / 2048 * 2048
      let cz := s.cluster cl
      let s := s.setCluster cl { cz with scratch := cz.scratch.filter fun (a, _) => a < base || base + len ≤ a }
      let s := (s.setCtx c x).setEntry cl k { e with
        state := .running, members := [c], scratchBase := base, started := bytes != 0, dispatchedAt := s.cycle,
        fault := none, pinned := false, prey := [], claim := some (c / 4, nacc, mown) }
      let s := s.unreserve id e.prey
      match e.fault with
      | some f => s.trapAt c f
      | none => s

/-! Pre-emption (R40 to R42, R33). -/

/-- The versions a member's streams pin, with their stream numbers (R33): OPEN slots keep their pin. -/
def streamPins (s : State) (cl idx : Nat) (x : Context) : List Retained :=
  (List.range 16).filterMap fun i =>
    let w := x.w.toList.getD i 0
    let y := s.slot cl (wSlot w)
    if wBound w && y.state != .openV && y.tile == ⟨x.id.space, wTensor w, wCoord w⟩ && y.version == wVersion w then some ⟨y.tile, y.version, i, idx, wSlot w, false, false⟩ else none
/-- What a parked or opening word had taken is given back: the bundle has not issued (R42). -/
def withdraw (s : State) (c : Nat) : State :=
  let x := s.ctx c
  let cl := c / 64
  let mine := fun (u : TileUser) => u == .ctx c || u == .opening c
  let s := match x.served with | some k => s.unpin cl k | none => s
  let c0 := s.cluster cl
  let s := s.setCluster cl { c0 with allocs := c0.allocs.filter fun a => !mine a.req.user }
  let s := { s with agenda := s.agenda.filter fun (_, i) => match i with | .snewAtHome d _ _ _ => d != c | _ => true }
  let s := match x.opening with
    | some o =>
      let s := match o.slot with | some k => (s.clearSlot cl k).wakeSlice cl k | none => s
      match o.granted with | some v => s.later 0 (.abandonAtHome o.tile v) | none => s
    | none => s
  let s := match x.parked with
    | some q =>
      let here := s.here
      (unholdSpin q.tile (s.switch c)).switch here
    | none => s
  let y := s.ctx c
  let cz := s.cluster cl
  let conv := match cz.conv with | some v => if v.ctx == c then none else some v | none => none
  (s.setCtx c { y with parked := none, push := none, served := none, timedOut := false, fault := none, opening := none, waitSince := none }).setCluster
    cl { cz with conv := conv, convQueue := cz.convQueue.filter (· != c) } |>.wakeSlices cl
/-- Withdraw the waiting takes and barrier waits of a member (R268, R320). A take on another device is withdrawn by message. -/
def withdrawWaits (s : State) (c : Nat) : State :=
  let x := s.ctx c
  x.flights.foldl (fun s f =>
    match f.kind with
    | .token gpa _ =>
      if s.ownDevice gpa then { s with homes := { s.homes with tokens := s.homes.tokens.filter (·.id != f.id) } }
      else
        let g0 : Flit := s.flitTo 0x12 true gpa
        let g : Flit := { g0 with space := x.id.space, inl := BitVec.ofNat 256 (2 + 2 ^ 64 * f.id) }
        (s.send g (.token c f.id)).2
    | .barrier _ _ =>
      let cz := s.cluster (c / 64)
      s.setCluster (c / 64) { cz with waiters := cz.waiters.filter (·.flight != f.id) }
    | _ => s) s
/-- An emptied context: its debug control bits stay (R343), and a context that a class-0 task's decision freed is reserved
for it (R326). -/
def freeContext (s : State) (c : Nat) : State :=
  let x := s.ctx c
  let cl := c / 64
  let heir := (s.cluster cl).entries.findSome? fun (k, e) => if e.prey.contains c then some (taskIdOf cl k) else none
  let id : Ident := match heir with | some t => { taskid := t } | none => {}
  s.setCtx c { occ := if heir.isSome then .reserved else .idle, id := id,
               dbg := { x.dbg with halted := false, haltReq := false, step := false } }
/-- Save one member to a record and free its context. The tile that has served a parked member is retained (R328). -/
def saveMember (s : State) (cl k c record : Nat) : State :=
  let x0 := s.ctx c
  let served := x0.served.map fun key => (s.slot cl key, key)
  let s := (s.withdraw c).withdrawWaits c
  let x := (s.ctx c).drain.suspendPasses
  match s.entry cl k with
  | none => s
  | some e =>
    let idx := e.saved.length
    let pins := s.streamPins cl idx x
    let rt := pins ++ served.toList.map fun (y, key) => (⟨y.tile, y.version, x0.parkedAs, idx, key, false, false⟩ : Retained)
    let y : Saved := ⟨record, c, x0.parked.map fun q => (q, served.map fun _ => e.retained.length + pins.length),
      { x with mat := { x.mat with mgathAt := none, gatherWait := none, storing := [] },
               barriers := x.barriers ++ [⟨31, s.coreQueued c, false⟩], tstvs := [] }⟩
    let s := s.setEntry cl k { e with saved := e.saved ++ [y], retained := e.retained ++ rt, members := e.members.filter (· != c) }
    let cz := s.cluster cl
    let s := (s.setCluster cl { cz with usedRecords := record :: cz.usedRecords }).writeRecord cl y
    let s := (pins.map Retained.slot).foldl (fun s key => s.unpin cl key) s
    (s.dropAgenda (.mstComplete c)).freeContext c
/-- The spins and input maps of a task become retained and its claims are returned (R33, R40 step 4). -/
def retainTask (s : State) (cl k : Nat) : State :=
  match s.entry cl k with
  | none => s
  | some e =>
    let sp := (List.range e.spins.length).filterMap fun i => (e.spins[i]?).bind fun (o : Spin) =>
      match o.slots with
      | [] => none
      | key :: _ =>
        if (s.slot cl key).state == .openV then none
        else some ((⟨o.tile, o.version, 16 + i, 0, key, false, false⟩ : Retained), o.slots)
    let ins := (List.range e.inputs.length).filterMap fun i => (e.inputs[i]?).map fun (x : Input) =>
      ((⟨x.tile, x.version, 32 + i, 0, x.slot, false, false⟩ : Retained), [x.slot])
    let all := sp ++ ins
    let s := s.setEntry cl k { e with retained := e.retained ++ all.map Prod.fst, claim := none }
    (all.flatMap Prod.snd).foldl (fun s key => s.unpin cl key) s
/-- The detail of a pre-emption report: TASKID and the first record (R426). -/
def logPreempted (s : State) (cl k : Nat) : State :=
  match s.entry cl k with
  | none => s
  | some e =>
    let r := match e.saved.head? with | some y => poolBase (s.cluster cl) + 131072 * y.record | none => 0
    s.log (cl / 16) 3 (cl % 16) (dSpace e.desc) 0xA0 ((taskIdOf cl k).setWidth 64) (BitVec.ofNat 64 r) 0
/-- The first free records of a pool. Class 0 does not take those in reserve for running members of classes 1 to 3 (R339). -/
def freeRecords (s : State) (cl n : Nat) (klass : BitVec 2) : Option (List Nat) :=
  let c := s.cluster cl
  let free := (List.range (poolCount c)).filter fun i => !c.usedRecords.contains i
  let held := if klass == 0 then s.lowMembers cl else 0
  if n + held ≤ free.length then some (free.take n) else none
/-- Everything a save record waits for has happened: results, and the accesses a `fence.sys` would wait for, with what the core's
other contexts had completed at core scope (R41, R282, R292). -/
def savedDone (s : State) (e : Entry) : Bool :=
  e.saved.all fun (y : Saved) => !y.cx.flights.any s.due && (y.cx.opens.all fun o => y.cx.flights.any (·.id == o.id))
    && !(s.cores.any fun (_, k) => k.queue.any fun (q : QueuedWrite) => y.cx.barriers.any fun (b : Barrier) => b.waits.contains q.id)
/-- Ask for the retained versions again (R33). -/
def reacquire (s : State) (cl k : Nat) : State :=
  match s.entry cl k with
  | none => s
  | some e =>
    (List.range e.retained.length).foldl (fun s i =>
      match (s.entry cl k).bind fun e => e.retained[i]? with
      | none => s
      | some (r : Retained) =>
        if r.have_ || r.lost then s
        else
          let q : TileReq := ⟨r.tile, .exactly r.version, .reacquire cl k i, cl⟩
          match s.localHit cl r.tile (.exactly r.version) with
          | some key => s.serveUser q key
          | none => s.requestTile q (dClass e.desc)) s

/-- Pin retained versions that are here but met PINS at 255 (R201). -/
def repin (s : State) (cl k : Nat) : State :=
  match s.entry cl k with
  | none => s
  | some e =>
    (List.range e.retained.length).foldl (fun s i =>
      match (s.entry cl k).bind fun e => e.retained[i]? with
      | none => s
      | some (r : Retained) =>
        if r.have_ || r.lost then s
        else match s.localHit cl r.tile (.exactly r.version) with
          | some key => s.serveUser ⟨r.tile, .exactly r.version, .reacquire cl k i, cl⟩ key
          | none => s) s

/-! Resumption (R342, R292). -/

/-- Merge what is dirty of a core's line at its home before a context issues: on another device the context waits for it (R292). -/
def handMerge (s : State) (c core : Nat) (ln : Line) : State :=
  if outMask ln == 0 then s
  else
    let (id, s) := s.newId
    match s.mergeLineTo ln (.handed id core ln.space ln.line) with
    | (s, some e) => s.mergeFailed core ln.space ln.line e
    | (s, none) =>
      if s.ownDevice (128 * ln.line) then s
      else
        let x := s.ctx c
        s.setCtx c { x with opens := x.opens ++ [⟨id, 0, false, none⟩], handing := x.handing ++ [id] }
/-- The former core's dirty untracked bytes of a context's space are merged; the new core merges and drops its own (R292). -/
def handOver (s : State) (c : Nat) (sp : BitVec 6) (old new : Nat) : State :=
  if old == new then s
  else
    let s := (s.core old).lines.foldl (fun s ln =>
      if !ln.tracked && ln.space == sp then (s.handMerge c old ln).putLine old { ln with dirty := 0 } else s) s
    (s.core new).lines.foldl (fun s ln =>
      if !ln.tracked && ln.space == sp then (s.handMerge c new ln).dropLine new ln.line else s) s
/-- A hand-over of the task's space would meet a line that an `mcas` of this device holds: the task waits (R258, R292). -/
def handHeld (s : State) (cl : Nat) (e : Entry) : Bool :=
  !e.saved.isEmpty && (List.range 16).any fun n =>
    (s.core (16 * cl + n)).lines.any fun ln => ln.space == dSpace e.desc && s.mergeHeld ln
/-- The slot of a stream after re-acquisition: a retained version's, or an OPEN slot wherever it has moved (R207, R232). -/
def relocate (s : State) (cl idx : Nat) (rt : List Retained) (i : Nat) (w : BitVec 512) (sp : BitVec 6) : BitVec 512 :=
  if !wBound w then w
  else
    let t : TileId := ⟨sp, wTensor w, wCoord w⟩
    let key := match rt.find? fun r => r.code == i && r.member == idx with
      | some r => some r.slot
      | none => (setKeys t).find? fun k =>
          let x := s.slot cl k
          x.state == .openV && x.tile == t && x.version == wVersion w
    match key with
    | some k => wPut (wPut w 246 4 (k / 128)) 239 7 (k % 128)
    | none => w
/-- Restore a member into a context from its record (R342). -/
def restoreMember (s : State) (cl k idx c : Nat) (y : Saved) (rt : List Retained) : State :=
  let a := poolBase (s.cluster cl) + 131072 * y.record
  let x := y.cx.fromImage fun o n => s.bytes (a + o) n
  let x : Context := { x with
    w := Vector.ofFn fun i => s.relocate cl idx rt i.val x.w[i.val] x.id.space,
    dbg := { (s.ctx c).dbg with halted := y.cx.dbg.halted, reason := y.cx.dbg.reason, haltReq := y.cx.dbg.haltReq, step := y.cx.dbg.step },
    waited := 0 }
  let x : Context := match y.parked with
    | some (q, some i) => match rt[i]? with
      | some r => if r.have_ then { x with parked := some { q with want := .exactly r.version, user := .ctx c }, served := some r.slot } else x
      | none => x
    | _ => x
  let x := if x.mode == .task && !x.dbg.halted then x.resumePasses else x
  let s := (s.setCtx c x).handOver c x.id.space (y.left / 4) (c / 4)
  let cz := s.cluster cl
  let s := s.setCluster cl { cz with usedRecords := cz.usedRecords.filter (· != y.record) }
  let s := match s.entry cl k with | some e => s.setEntry cl k { e with members := e.members ++ [c] } | none => s
  let s := if x.ending then s.later 0 (.memberEnd c) else s
  x.flights.foldl (fun s f =>
    match f.kind with
    | .token gpa va =>
      let here := s.here
      let s := s.switch c
      let s := match s.xlat va .atomic with
        | (s, .ok t) =>
          if s.ownDevice gpa then
            s.tokenArrive ⟨f.id, gpa, x.id.space, t.leaf.extractLsb' 8 8, t.leaf.getLsbD 4, .ctx c f.id, false⟩ 256
          else s.askToken ⟨f.id, gpa, x.id.space, t.leaf.extractLsb' 8 8, t.leaf.getLsbD 4, .ctx c f.id, false⟩ (.token c f.id)
        | (s, .error e) => s.endFlight f.id (.error e)
      s.switch here
    | .barrier off _ =>
      let cz := s.cluster cl
      let tabled := (cz.waiters.filter fun (w : BarWait) => w.tabled).length < 64
      (s.setCluster cl { cz with waiters := cz.waiters ++ [(⟨c, f.id, off, tabled, 64⟩ : BarWait)] }).later 0 (.bwaitPoll c f.id)
    | _ => s) s
/-- Contexts for the members of a pre-empted task, with the contexts of a list counted as free: none when they do not all fit. -/
def placeMembers (s : State) (cl : Nat) (id : BitVec 17) (klass : BitVec 2) (freed : List Nat) :
    List Saved → List Nat → Option (List Nat)
  | [], _ => some []
  | y :: r, skip =>
    (s.choose cl klass id y.cx.id.nacc y.cx.id.mown freed skip).bind fun c =>
      (s.placeMembers cl id klass freed r (c :: skip)).map fun l => c :: l
/-- The claim of a pre-empted task placed in these contexts: that of the member that holds accumulators or the matrix. -/
def savedClaim (l : List Saved) (cs : List Nat) : Option (Nat × Nat × Bool) :=
  let own := (l.zip cs).find? fun (y, _) => y.cx.id.nacc != 0 || y.cx.id.mown
  own.map fun (y, c) => (c / 4, y.cx.id.nacc, y.cx.id.mown)
/-- Dispatch a ready task that was pre-empted. The trap of R33 is taken by the first member with a retained version of the code
that TINFO0 names, member 0 for a spin or an input map (the spec names no member; DESIGN CHOICE, log 40). -/
def dispatchSaved (s : State) (cl k : Nat) (e : Entry) : Option State :=
  let kl := dClass e.desc
  if !s.canReserve cl kl 0 || s.handHeld cl e then none
  else (s.placeMembers cl (taskIdOf cl k) kl [] e.saved []).bind fun cs =>
    -- a parked spin's tile has its table entry's code too, but is its word's
    let parked := e.saved.filterMap fun y => y.parked.bind Prod.snd
    let back := fun (code : Nat) =>
      ((List.range e.retained.length).filter fun i => !parked.contains i).findSome? fun i => (e.retained[i]?).filter (·.code == code)
    let spins := (List.range e.spins.length).filterMap fun i => (e.spins[i]?).map fun (o : Spin) =>
      match back (16 + i) with | some r => { o with slots := o.slots.map fun _ => r.slot } | none => o
    let inputs := (List.range e.inputs.length).filterMap fun i => (e.inputs[i]?).map fun (x : Input) =>
      match back (32 + i) with | some r => { x with slot := r.slot } | none => x
    -- the re-acquired version of a spin-table entry has one pin; its other spins add theirs
    let more := (List.range spins.length).flatMap fun i => match spins[i]?, back (16 + i) with
      | some o, some r => if r.have_ then o.slots.drop 1 else []
      | _, _ => []
    (s.pinAll cl more).map fun s =>
    let s := (s.setEntry cl k { e with
      state := .running, members := [], saved := [], retained := [], spins := spins, inputs := inputs, fault := none,
      dispatchedAt := s.cycle, prey := [], claim := savedClaim e.saved cs }).dropAgenda (.preemption cl k)
    let s := (List.range e.saved.length).foldl (fun s i =>
      match e.saved[i]?, cs[i]? with
      | some y, some c => s.restoreMember cl k i c y e.retained
      | _, _ => s) s
    let s := s.unreserve (taskIdOf cl k) e.prey
    match e.fault with
    | some f =>
      let m := match e.retained.find? fun r => BitVec.ofNat 64 r.code == f.i0 with | some r => r.member | none => 0
      match cs[m]? with | some c => s.trapAt c f | none => s
    | none => s

/-! Dispatch (R324, R325). -/

/-- The rank key of a ready entry (R324): lower first. -/
def rankKey (k : Nat) (e : Entry) : Nat × Nat × Nat :=
  let c := (dClass e.desc).toNat
  (if e.aged then c - 1 else c, e.readyAt, k)
/-- Ready tasks in rank order. -/
def ranked (s : State) (cl : Nat) : List (Nat × Entry) :=
  ((s.cluster cl).entries.filter fun (_, e) => e.state == .ready && !e.hold).mergeSort fun a b =>
    let (a1, a2, a3) := rankKey a.1 a.2
    let (b1, b2, b3) := rankKey b.1 b.2
    a1 < b1 || (a1 == b1 && (a2 < b2 || (a2 == b2 && a3 ≤ b3)))
/-- Dispatch at most one task in a cycle: the highest-ranked that fits. A class-0 task that fits nowhere leads to the decision of
R326. -/
def dispatchOne (s : State) (cl : Nat) : State :=
  if (s.cluster cl).dispatched == some s.cycle then s.later 1 (.taskDispatch cl) else
  let try_ (k : Nat) (e : Entry) : Option State := if e.saved.isEmpty then s.dispatchFresh cl k e else s.dispatchSaved cl k e
  let s0 := match (s.ranked cl).find? fun (k, e) => dClass e.desc == 0 && e.prey.isEmpty && (try_ k e).isNone with
    | some (k, _) => some k
    | none => none
  let go (s : State) : State := match s0 with | some k => s.later 0 (.class0PreemptDecision cl k) | none => s
  match (s.ranked cl).findSome? fun (k, e) => try_ k e with
  | some s1 =>
    let c := s1.cluster cl
    (go (s1.setCluster cl { c with dispatched := some s.cycle })).later 1 (.taskDispatch cl)
  | none => go (if (s.ranked cl).any fun (_, e) => s.handHeld cl e then s.later 16 (.taskDispatch cl) else s)

/-! The end of members and tasks (R34, R123, R305, R335). -/

/-- An instance fails (R305): the cause is logged with the node and the reason, its levels are gone and its launches create no more
tasks; when those it has created are over, LIVE_NODE_TIMEOUT sets bit 63 of its counter and frees it (log 16). -/
def failInstance (s : State) (b : NodeRef) (reason : Nat) : State :=
  let d := s.die b.die
  match d.instances.find? fun (i : Instance) => i.id == b.inst && !i.failed with
  | none => s
  | some i =>
    let fail := fun (j : Instance) => if j.id == b.inst then ({ j with failed := true, levels := [] } : Instance) else j
    let mine := fun (n : NodeRef) => n.die == b.die && n.inst == b.inst
    let s := s.setDie b.die { d with
      instances := d.instances.map fail, watches := d.watches.filter fun w => !mine w.node,
      expansions := d.expansions.filter fun x => !mine x.node }
    (s.log b.die 4 b.die i.space 0xA2 b.addr (BitVec.ofNat 64 reason) 0).later 0 (.liveNodeTimeout b)
/-- A completion count that could not be added (R34). -/
def countFailed (s : State) (cl : Nat) (sp : BitVec 6) (va : Dbl) (id : BitVec 17) (g : Option NodeRef) (cause : BitVec 8) : State :=
  let s := s.log (cl / 16) 3 (cl % 16) sp cause va (id.setWidth 64) 0
  match g with | some b => s.failInstance b 3 | none => s
/-- Add 1 to the counter at DONE (R34): false while it must wait. -/
def countDone (s : State) (cl : Nat) (sp : BitVec 6) (va : Dbl) (id : BitVec 17) (g : Option NodeRef) : State × Bool :=
  if va == 0 then (s, true)
  else if va.toNat % 8 != 0 then (s.countFailed cl sp va id g 0x24, true)
  else match s.engineAtomic cl sp va .add 1 (.count cl sp va id g) with
    | (s, .wait) => (s, false)
    | (s, .fail c) => (s.countFailed cl sp va id g c, true)
    | (s, _) => (s, true)
/-- Release what a task's entry pins and free the entry (R34). -/
def freeEntryOf (s : State) (cl k : Nat) : State :=
  match s.entry cl k with
  | none => s
  | some e =>
    let s := s.forgetEntry cl k
    let drop := fun (s : State) (t : TileId) (v : BitVec 32) (key : Nat) =>
      let x := s.slot cl key
      if x.tile == t && x.version == v then s.unpin cl key else s
    let s := e.inputs.foldl (fun s (i : Input) => drop s i.tile i.version i.slot) s
    let s := e.spins.foldl (fun s (o : Spin) => o.slots.foldl (fun s key => drop s o.tile o.version key) s) s
    let c := s.cluster cl
    s.setCluster cl { c with entries := tdel c.entries k }
/-- Stop one member for good: streams released, OPEN versions abandoned, deferred failures logged (R195, R332), the context
freed. -/
def endContext (s : State) (c : Nat) : State :=
  let s := (s.withdraw c).withdrawWaits c
  let here := s.here
  let s := s.switch c
  let s := s.cx.w.toList.foldl (fun s w => s.releaseStream w) s
  let s := s.cx.deferred.foldl (fun s (_, (f : FaultInfo)) => s.logCtx c f.cause f.i1 f.i3) s
  ((s.dropAgenda (.mstComplete c)).switch here).freeContext c
/-- Every member of a task ends at once, uncounted (R335). -/
def abandonTask (s : State) (cl k : Nat) : State :=
  match s.entry cl k with
  | none => s
  | some e => ((e.members.foldl (fun s c => s.endContext c) s).freeEntryOf cl k).later 0 (.taskDispatch cl)

end State

/-! Events. -/

/-- LANTERN_ACCEPT (R27): a descriptor of a space that is not VALID is dropped; a full table makes it wait. -/
def execLanternAccept (cl : Nat) (desc : BitVec 512) (addr : Dbl) (graph : Option NodeRef) (s : State) :
    Host.Outcome State Fault Refusal :=
  let s := s.entryReady (dSpace desc)
  .next (if !s.spaceValid (dSpace desc) then s.log (cl / 16) 3 (cl % 16) (dSpace desc) 0xA1 0 addr 0
    else match s.freeEntry cl with
      | none => s.later 64 (.lanternAccept cl desc addr graph)
      | some k => s.accept cl k desc addr graph)
/-- INPUT_ARRIVAL (R323). -/
def execInputArrival (cl entry _map : Nat) (s : State) : Host.Outcome State Fault Refusal :=
  .next ((s.sendInputs cl).readyCheck cl entry)
/-- TASK_DISPATCH (R325). -/
def execTaskDispatch (cl : Nat) (s : State) : Host.Outcome State Fault Refusal := .next (s.dispatchOne cl)
/-- CLASS_AGEING (R324). -/
def execClassAgeing (cl entry : Nat) (s : State) : Host.Outcome State Fault Refusal :=
  .next (match s.entry cl entry with
    | some e =>
      if e.state == .ready && dClass e.desc != 0 && 14000000 ≤ s.cycle - e.readyAt then s.setEntry cl entry { e with aged := true } else s
    | none => s)
/-- Sublists in order of the elements they keep first. -/
def sublists : List Nat → List (List Nat)
  | [] => [[]]
  | a :: r => let t := sublists r; t.map (a :: ·) ++ t
/-- CLASS0_PREEMPT_DECISION (R326): the fewest tasks of classes 1 to 3 on the chosen core that free the need, highest class
first and then the latest dispatched. What is freed is held for the task. A task of several saved members needs a core for each. -/
def execClass0PreemptDecision (cl entry : Nat) (s : State) : Host.Outcome State Fault Refusal :=
  .next (match s.entry cl entry with
    | none => s
    | some e =>
      let fresh := e.saved.isEmpty
      if e.state != .ready || dClass e.desc != 0 || !e.prey.isEmpty
        || (fresh && (s.placeWindow cl 0 (State.descClaim e.desc).2.2).isNone) then s
      else
        let id := taskIdOf cl entry
        let (nacc, mown, _) := State.descClaim e.desc
        -- the contexts that the task takes when those of a list count as free
        let place := fun (l : List Nat) (on : Nat → Bool) =>
          if fresh then ((State.clusterCtxs cl).find? fun c => on (c / 4) && s.fits c 0 id nacc mown l).map fun c => [c]
          else s.placeMembers cl id 0 l e.saved []
        let low := s.lowContexts cl
        match if fresh then (s.choose cl 0 id nacc mown low []).map fun c => [c] else s.placeMembers cl id 0 low e.saved [] with
        | none => s
        | some cs =>
          let chosen := fun (core : Nat) => cs.any (· / 4 == core)
          let on := (s.cluster cl).entries.filter fun (_, x) =>
            x.state == .running && dClass x.desc != 0 && x.members.any fun c => chosen (c / 4)
          let cands := (on.mergeSort fun a b =>
            let ca := dClass a.2.desc
            let cb := dClass b.2.desc
            cb.toNat < ca.toNat || (ca == cb && b.2.dispatchedAt ≤ a.2.dispatchedAt)).map Prod.fst
          let members := fun (l : List Nat) => l.flatMap fun k => ((s.entry cl k).map Entry.members).getD []
          let enough := fun (l : List Nat) => (place (members l) chosen).isSome
          let best := (List.range (cands.length + 1)).findSome? fun n => (sublists cands).find? fun l => l.length == n && enough l
          match best with
          | none => s
          | some l =>
            let claim := if fresh then cs.head?.map fun c => (c / 4, nacc, mown) else State.savedClaim e.saved cs
            let s := s.setEntry cl entry { e with prey := (members l).filter fun c => chosen (c / 4), claim := claim }
            l.foldl (fun s k => s.later 0 (.preemption cl k)) s)
/-- MEMBER_END (R123, R34): waits for the member's interlocked operations and accesses, but not for its copies, which run on (R271),
unless the completion count is to follow them (R289); the last member completes the task; a member that trapped at entry and resumed
returns it to pending (R28). Co-tasks that the
handler of the trap at entry has spawned run on without being members of the task (the spec is silent; DESIGN CHOICE, log 40). -/
def execMemberEnd (c : Nat) (s : State) : Host.Outcome State Fault Refusal :=
  let x := s.ctx c
  let cl := c / 64
  let k := x.id.taskid.toNat % 2048
  let counts := !x.entryTrap && match s.entry cl k with | some e => e.members == [c] && dDone e.desc != 0 | none => false
  let running := fun (o : OpenAccess) => !counts && (s.cluster cl).copies.any fun j => j.id == o.id
  .next (if !x.ending then s
    else if !x.flights.isEmpty || (x.opens.any fun o => !running o) || !(s.coreQueued c).isEmpty then s.later 1 (.memberEnd c)
    else match s.entry cl k with
      | none => s.endContext c
      | some e =>
        if !e.members.contains c then s.endContext c
        else if x.entryTrap then
          let s := s.endContext c
          let e := (s.entry cl k).getD e
          let e1 : Entry := { e with
            state := .pending, members := [], inputs := [], fault := none, started := false, acceptedAt := s.cycle, claim := none }
          ((((s.setEntry cl k e1).evaluate cl k).sendInputs cl).readyCheck cl k).later 0 (.taskDispatch cl)
        else if e.members.any (· != c) then
          let s := s.endContext c
          let e := (s.entry cl k).getD e
          let e1 : Entry := { e with members := e.members.filter (· != c) }
          (s.setEntry cl k e1).later 0 (.taskDispatch cl)
        else match s.countDone cl (dSpace e.desc) ((dDone e.desc).setWidth 64) (taskIdOf cl k) e.graph with
          | (s, false) => s.later 16 (.memberEnd c)
          | (s, true) => ((s.endContext c).freeEntryOf cl k).later 0 (.taskDispatch cl))
/-- PREEMPTION (R40): every member is saved and its context freed, one that has issued `tend` or ended the task by `tret` with the
rest unless it is the last (R42); a free record goes first (R339). Requests that have come by then are this pre-emption (R42). -/
def execPreemption (cl entry : Nat) (s : State) : Host.Outcome State Fault Refusal :=
  .next (match s.entry cl entry with
    | none => s
    | some e =>
      if e.state != .running then s
      else if e.members.all fun c => (s.ctx c).ending then s
      else match s.freeRecords cl e.members.length (dClass e.desc) with
        | none => s.later 64 (.preemption cl entry)
        | some rs =>
          let s := (e.members.zip rs).foldl (fun s (c, r) => s.saveMember cl entry c r) s
          let s := s.retainTask cl entry
          let s := match s.entry cl entry with | some e => s.setEntry cl entry { e with state := .preempted } | none => s
          (((s.logPreempted cl entry).dropAgenda (.preemption cl entry)).later 0 (.saveRecordComplete cl entry)).later 0 (.taskDispatch cl))
/-- SAVE_RECORD_COMPLETE (R41, R33): with every result in the record, the retained versions are asked for again. -/
def execSaveRecordComplete (cl entry : Nat) (s : State) : Host.Outcome State Fault Refusal :=
  .next (match s.entry cl entry with
    | none => s
    | some e =>
      if e.state != .preempted then s
      else if !s.savedDone e then s.later 16 (.saveRecordComplete cl entry)
      else
        let s := e.saved.foldl (fun s y => s.writeRecord cl y) s
        if e.hold then s else (s.reacquire cl entry).later 0 (.taskResume cl entry))
/-- TASK_RESUME (R30, R342): a pre-empted task whose records are complete, whose versions are held or known to be lost, and whose
needs fit is ready, and is dispatched when it ranks first. -/
def execTaskResume (cl entry : Nat) (s : State) : Host.Outcome State Fault Refusal :=
  .next (match s.entry cl entry with
    | none => s
    | some e =>
      let fit := e.saved.all fun (y : Saved) => s.needsFit cl (dClass e.desc) (taskIdOf cl entry) y.cx.id.mown
      if e.state != .preempted || e.hold || !s.savedDone e then s
      else if e.retained.all fun r => r.have_ || r.lost then
        if !fit then s.later 16 (.taskResume cl entry) else
        let s := s.setEntry cl entry { e with state := .ready, readyAt := s.cycle, aged := false }
        let s := if dClass e.desc == 0 then s else s.later 14000000 (.classAgeing cl entry)
        s.dispatchOne cl
      else s.repin cl entry)
/-- `spawn` (R38, R39, R316). A slot of an input map whose PINS is 255 makes the bundle wait: no operation takes PINS above 255
(R201; DEDUCED, log 40). -/
def execSpawn (p : Pred) (b : BitVec 3) (c : BitVec 2) (a : BitVec 5) (s : State) : Host.Outcome State Fault Refusal :=
  s.perform p fun s =>
    let n := 4 * s.hereCore + c.toNat
    let num : Dbl := c.setWidth 64
    if (s.ctx n).occ != .idle || n == s.here || (c == 0 && s.cx.id.klass != 0) then s.trap 0x0A num
    else if !s.canReserve s.hereCluster s.cx.id.klass 1 then s.trap 0x0A num 1
    else match s.taskEntry with
      | none => s.trap 0x0A num
      | some e =>
        match s.bindInputs s.hereCluster 0 e.inputs (Vector.replicate 16 0) with
        | none => s.stall
        | some (s, w) =>
        let id : Ident := { s.cx.id with cotask := true, nacc := 0, mown := false }
        let x0 := State.freshContext e id (s.ctx n).dbg
        let arg := fun (i : Nat) => s.rx (a + BitVec.ofNat 5 (i - 1))
        let x : Context := { x0 with
          pc := s.rb b, w := w,
          x := Vector.ofFn fun i => if 1 ≤ i.val && i.val ≤ 8 then arg i.val else 0 }
        (s.setCtx n x).setTaskEntry { e with members := e.members ++ [n] }

end Sys2Proof.Machine
end

