-- ==== Sys2Proof/Machine/Beacon.lean ====
section
/-! DEFINITION. Beacon: graph instances, levels and nodes (R301 to R305), launches and placement (R306, R307), completion
(R308), host command queues (R310 to R314) and `gstart` (R321). -/

namespace Sys2Proof.Machine

/-! Node fields (R302). -/

def nType (n : BitVec 512) : Nat := (n.extractLsb' 0 4).toNat
def nPlace (n : BitVec 512) : BitVec 2 := n.extractLsb' 4 2
def nList (n : BitVec 512) : Nat := (n.extractLsb' 8 8).toNat
def nDeps (n : BitVec 512) : Nat := max 1 (n.extractLsb' 16 16).toNat
def nX32 (n : BitVec 512) : Nat := (n.extractLsb' 32 32).toNat
def nA (n : BitVec 512) : Dbl := (n.extractLsb' 64 56).setWidth 64
def nB (n : BitVec 512) : Dbl := n.extractLsb' 128 64
def nExt (n : BitVec 512) (i : Nat) : Nat := (n.extractLsb' (192 + 16 * i) 16).toNat + 1
def nCnt (n : BitVec 512) : Dbl := (n.extractLsb' 256 56).setWidth 64
def nSlist (n : BitVec 512) : Dbl := (n.extractLsb' 320 56).setWidth 64
def nS0 (n : BitVec 512) : Dbl := (n.extractLsb' 384 56).setWidth 64
def nS1 (n : BitVec 512) : Dbl := (n.extractLsb' 448 56).setWidth 64
/-- The coordinates of a LAUNCH's box. -/
def nBox (n : BitVec 512) : Nat := nExt n 0 * nExt n 1 * nExt n 2 * nExt n 3
/-- Coordinate i of a box, coordinate 0 fastest (R306). -/
def boxCoord (n : BitVec 512) (i : Nat) : Dbl :=
  packCoord (i % nExt n 0) (i / nExt n 0 % nExt n 1) (i / (nExt n 0 * nExt n 1) % nExt n 2)
    (i / (nExt n 0 * nExt n 1 * nExt n 2) % nExt n 3)
/-- The reason a ready node's fields make the instance fail, 0 for none (R305 reasons 1, 2 and 4). -/
def nodeReason (n : BitVec 512) : Nat :=
  let t := nType n
  let res := [(504, 8), (440, 8), (376, 8), (312, 8), (120, 8), (6, 2)]
  let condition := t == 2 || t == 3 || t == 4 || t == 5 || t == 6
  if t == 0 || 8 < t || res.any (fun (o, w) => n.toNat / 2 ^ o % 2 ^ w != 0)
      || (if t == 1 then 1 < (nPlace n).toNat else nPlace n != 0)
      || (nX32 n != 0 && t != 1 && t != 3 && t != 5)
      || (t == 2 && nList n != 0) || (t == 4 && (nS0 n != 0 || nS1 n != 0))
      || ((t == 3 || t == 7) && (nB n).extractLsb' 56 8 != 0) then 1
  else if (nList n != 0 && (nSlist n).toNat % 8 != 0)
      || (t == 1 && ((nCnt n).toNat % 8 != 0 || (nA n).toNat % 64 != 0))
      || ((t == 3 || t == 7) && (nB n).toNat % 64 != 0)
      || (condition && (nA n).toNat % 8 != 0) then 2
  else if t == 4 && nList n == 0 then 4
  else 0

/-- The k-th set bit of a 64-bit mask, counting from 0 at bit 0. -/
def nthBit (m : BitVec 64) (k : Nat) : Nat := (((List.range 64).filter fun i => m.getLsbD i)[k]?).getD 0

namespace State

/-! Levels and live nodes (R301, R303). -/

def instOf (s : State) (b : NodeRef) : Option Instance :=
  (s.die b.die).instances.find? fun (i : Instance) => i.id == b.inst && !i.failed
def levelOf (s : State) (b : NodeRef) : Option Level :=
  (s.instOf b).bind fun i => i.levels.find? fun (l : Level) => l.num == b.level
def liveNode (s : State) (b : NodeRef) : Option LiveNode :=
  (s.levelOf b).bind fun l => l.nodes.find? fun (n : LiveNode) => n.addr == b.addr
/-- The node as it stands in memory. -/
def readNode (s : State) (b : NodeRef) (sp : BitVec 6) : State × Except FaultInfo (BitVec 512) :=
  match s.readVa (16 * b.die) sp b.addr 64 .read with
  | (s, .ok v) => (s, .ok (BitVec.ofNat 512 v))
  | (s, .error f) => (s, .error f)
def setInst (s : State) (die : Nat) (i : Instance) : State :=
  let d := s.die die
  s.setDie die { d with instances := d.instances.map fun (j : Instance) => if j.id == i.id then i else j }
def setLevel (s : State) (b : NodeRef) (l : Level) : State :=
  match s.instOf b with
  | some i => s.setInst b.die { i with levels := i.levels.map fun (m : Level) => if m.num == l.num then l else m }
  | none => s
/-- Live-node entries in use on a die's Beacon. -/
def liveNodes (s : State) (die : Nat) : Nat :=
  (s.die die).instances.foldl (fun n (i : Instance) => i.levels.foldl (fun n (l : Level) =>
    n + (l.nodes.filter fun (x : LiveNode) => !x.finished && !x.queued).length) n) 0
/-- Schedule a ready node's action, by its TYPE. -/
def wakeNode (s : State) (b : NodeRef) : State :=
  match s.instOf b with
  | none => s
  | some i =>
    match s.readNode b i.space with
    | (s, .error _) => s.failInstance b 3
    | (s, .ok n) =>
      match nType n with
      | 1 => s.later 0 (.launchNode b)
      | 2 => s.later 0 (.ifNode b)
      | 3 => s.later 0 (.whileNode b)
      | 4 => s.later 0 (.switchNode b)
      | 5 => s.later 0 (.signalNode b)
      | 6 => s.later 0 (.waitNode b)
      | 7 => s.later 0 (.callNode b)
      | _ => s.later 0 (.endNode b)
/-- A live node with enough arrivals becomes ready, once (R303); its fields are checked then (R305). -/
def readyNode (s : State) (b : NodeRef) : State :=
  match s.instOf b, s.liveNode b with
  | some i, some x =>
    if x.ready || x.queued then s
    else match s.readNode b i.space with
      | (s, .error _) => s.failInstance b 3
      | (s, .ok n) =>
        if x.arrivals < nDeps n then s
        else if nodeReason n != 0 then s.failInstance b (nodeReason n)
        else (s.mapNode b fun y => { y with ready := true }).wakeNode b
  | _, _ => s
/-- One or more arrivals at a node; an entry node's opening counts as more than any DEPS (R303). Bits [63:56] of an address do not
tell nodes apart (R456). A node without a free entry waits for one, for 2 ms (R305). -/
def arrive (s : State) (b : NodeRef) (count : Nat) : State :=
  match s.levelOf b with
  | none => s
  | some l =>
    if b.addr.toNat % 64 != 0 then s.failInstance b 2
    else match l.nodes.find? fun (n : LiveNode) => n.addr.setWidth 56 == b.addr.setWidth 56 with
      | some n =>
        let b : NodeRef := { b with addr := n.addr }
        (s.mapNode b fun y => { y with arrivals := y.arrivals + count }).readyNode b
      | none =>
        let full := 4096 ≤ s.liveNodes b.die
        let n : LiveNode := { addr := b.addr, arrivals := count, ready := false, finished := false, queued := full, count := 0, cond := none }
        let s := s.setLevel b { l with nodes := l.nodes ++ [n] }
        if full then s.later 2800000 (.liveNodeTimeout b) else s.readyNode b
/-- The nodes of a die that wait for a live-node entry. -/
def queuedNodes (s : State) (die : Nat) : List NodeRef :=
  (s.die die).instances.flatMap fun (i : Instance) => i.levels.flatMap fun (l : Level) =>
    (l.nodes.filter fun (n : LiveNode) => n.queued).map fun n => (⟨die, i.id, l.num, n.addr⟩ : NodeRef)
/-- Give the free live-node entries to waiting nodes. -/
def admitNodes (s : State) (die : Nat) : State :=
  (s.queuedNodes die).foldl (fun s b =>
    match s.liveNode b with
    | some x => if x.queued && s.liveNodes die < 4096 then (s.mapNode b fun y => { y with queued := false }).readyNode b else s
    | none => s) s
/-- Open a level at a body (R301): a ninth level fails the instance. -/
def openLevel (s : State) (b : NodeRef) (body : Dbl) : State :=
  match s.instOf b, s.levelOf b with
  | some i, some l =>
    if 8 ≤ l.depth then s.failInstance b 5
    else
      let m : Level := { num := i.nextLevel, depth := l.depth + 1, opener := some b, nodes := [], ending := none }
      let s := s.setInst b.die { i with levels := i.levels ++ [m], nextLevel := i.nextLevel + 1 }
      s.arrive { b with level := m.num, addr := body } 65536
  | _, _ => s
/-- Create an instance (R301): false while the Beacon has none free. -/
def startInstance (s : State) (die : Nat) (sp : BitVec 6) (klass : BitVec 2) (node done : Dbl) : State × Bool :=
  let d := s.die die
  if 256 ≤ d.instances.length then (s, false)
  else
    let (id, s) := s.newId
    let l : Level := { num := 1, depth := 1, opener := none, nodes := [], ending := none }
    let i : Instance := { id := id, space := sp, klass := klass, done := done, failed := false, levels := [l], nextLevel := 2 }
    let s := s.setDie die { d with instances := d.instances ++ [i] }
    (s.arrive ⟨die, id, 1, node⟩ 65536, true)

/-! Finishing (R303, R304, R308). -/

/-- Read successor list entries from the i-th on. -/
def readList (s : State) (b : NodeRef) (sp : BitVec 6) (a : Dbl) : Nat → State × Except FaultInfo (List Dbl)
  | 0 => (s, .ok [])
  | n + 1 =>
    match s.readVa (16 * b.die) sp a 8 .read with
    | (s, .error f) => (s, .error f)
    | (s, .ok v) =>
      match s.readList b sp (a + 8) n with
      | (s, .ok l) => (s, .ok (BitVec.ofNat 64 (v % 2 ^ 56) :: l))
      | r => r
/-- A node of a level is unfinished: it is ready and no END that waits for the level, or it has its arrivals and waits for a live-node
entry (R303, R304). -/
def nodeLeft (s : State) (b : NodeRef) (sp : BitVec 6) (n : LiveNode) : Bool :=
  if n.queued then
    match s.readNode { b with addr := n.addr } sp with
    | (_, .ok w) => nDeps w ≤ n.arrivals
    | (_, .error _) => true
  else n.ready && !n.finished && !n.atEnd
/-- END's condition: every node of the level that became ready has finished. -/
def levelOver (s : State) (b : NodeRef) (l : Level) : Bool :=
  match s.instOf b with
  | some i => l.ending.isSome && !(l.nodes.any (s.nodeLeft b i.space))
  | none => false
/-- A level whose END is waiting may be over: END acts again. -/
def endCheck (s : State) (b : NodeRef) : State :=
  match s.levelOf b with
  | some l => match l.ending with
    | some a => if s.levelOver b l then s.later 0 (.endNode { b with addr := a }) else s
    | none => s
  | none => s
/-- A node finishes and sends one arrival to each of the given successors. -/
def finishTo (s : State) (b : NodeRef) (succ : List Dbl) : State :=
  let s := (s.mapNode b fun y => { y with finished := true }).admitNodes b.die
  let s := succ.foldl (fun s (a : Dbl) => if a == 0 then s else s.arrive { b with addr := a } 1) s
  s.endCheck b
/-- A node finishes towards all its successors. -/
def finishAll (s : State) (b : NodeRef) (sp : BitVec 6) (n : BitVec 512) : State :=
  match s.readList b sp (nSlist n) (nList n) with
  | (s, .error _) => s.failInstance b 3
  | (s, .ok l) => s.finishTo b (nS0 n :: nS1 n :: l)
/-- Free an instance. -/
def freeInstance (s : State) (die id : Nat) : State :=
  let d := s.die die
  let d1 : Die := { d with
    instances := d.instances.filter fun (i : Instance) => i.id != id,
    watches := d.watches.filter fun (w : Watch) => !(w.node.die == die && w.node.inst == id) }
  (s.setDie die d1).admitNodes die
/-- Perform the last atomic of an instance, at its done counter, and free the instance (R305, R308); `again` while the counter's
line is locked. One of another device is added to there first. A counter that cannot be reached is logged with KIND 4 and its address,
and the instance is freed all the same (the spec is silent; DESIGN CHOICE, log 16). -/
def doneAtomic (s : State) (die : Nat) (i : Instance) (op : AtomicOp) (x : Dbl) (again : Instr) : State :=
  let sent := s.fab.txns.any fun t => match t.use_ with | .graphDone d n _ => d == die && n == i.id | _ => false
  if sent then s
  else if i.done == 0 then s.freeInstance die i.id
  else match s.engineAtomic (16 * die) i.space i.done op x (.graphDone die i.id i.space) with
    | (s, .wait) => s.later 16 again
    | (s, .sent) => s
    | (s, .done _) => s.freeInstance die i.id
    | (s, .fail c) => (s.log die 4 die i.space c i.done 0 0).freeInstance die i.id
/-- A level is over: the instance completes (R308), or the node that opened the level goes on. -/
def endLevel (s : State) (b : NodeRef) (i : Instance) (l : Level) : State :=
  match l.opener with
  | none => s.doneAtomic b.die i .add 1 (.endNode b)
  | some o =>
    let s := (s.setInst b.die { i with levels := i.levels.filter fun (m : Level) => m.num != l.num }).admitNodes b.die
    match s.readNode o i.space with
    | (s, .error _) => s.failInstance o 3
    | (s, .ok n) => if nType n == 3 then s.later 0 (.whileNode o) else s.finishAll o i.space n

/-! Launches and placement (R306, R307). -/

/-- The die of the channel that homes input map 0's tile at a task's coordinate. There is none when the map or its tensor cannot be read
or is not valid, or the tile's home is on another device, and the mask then stays as it is (R307 is silent; DESIGN CHOICE, log 16). -/
def affinity (s : State) (cl : Nat) (d : BitVec 512) : State × Option Nat :=
  match s.readMaps cl d 0 1 with
  | (s, .ok [w]) =>
    match s.mapInputs cl d 0 [w] with
    | (s, .ok (x :: _)) =>
      match tensorOf x.desc with
      | some tn =>
        match s.tileHome cl tn x.tile with
        | (s, .ok gpa) => (s, if s.ownDevice gpa then some (s.channelOf (localOf gpa) / 64) else none)
        | (s, .error _) => (s, none)
      | none => (s, none)
    | (s, _) => (s, none)
  | (s, _) => (s, none)
def dieMask (d : Nat) : BitVec 64 := 0xFFFF#64 <<< (16 * d)
/-- `place` of R307: the cluster that receives a task's descriptor. -/
def place (s : State) (die : Nat) (cmask : BitVec 64) (byHome : Bool) (d : BitVec 512) : State × Nat :=
  let m : BitVec 64 := if cmask == 0 then BitVec.allOnes 64 else cmask
  let fenced := (List.range 4).foldl (fun (f : BitVec 64) i => if s.svc.diefence.getLsbD i then f ||| dieMask i else f) 0
  let m := m &&& ~~~fenced
  let m := if m == 0 then dieMask die else m
  let (s, home) := if byHome && 1 ≤ dNmap d then s.affinity (16 * die) d else (s, none)
  let m := match home with | some h => if m &&& dieMask h == 0 then m else m &&& dieMask h | none => m
  let c := dCoord d
  let x : BitVec 32 := (c.extractLsb' 0 16).setWidth 32 ^^^ (c.extractLsb' 16 16).setWidth 32 <<< 8
    ^^^ (c.extractLsb' 32 16).setWidth 32 <<< 16 ^^^ (c.extractLsb' 48 16).setWidth 32 <<< 24
  let h := x * 0x9E3779B1#32
  let pop := ((List.range 64).filter fun i => m.getLsbD i).length
  (s, nthBit m (h.toNat / 65536 * pop / 65536))
/-- Hand a descriptor to a Lantern (R27): none while its table is full. -/
def handDescriptor (s : State) (cl : Nat) (d : BitVec 512) (addr : Dbl) (g : Option NodeRef) : Option State :=
  let s := s.entryReady (dSpace d)
  match s.freeEntry cl with
  | none => none
  | some k =>
    some (if s.spaceValid (dSpace d) then s.accept cl k d addr g
      else s.log (cl / 16) 3 (cl % 16) (dSpace d) 0xA1 0 addr 0)
/-- The descriptor of one task of a launch (R306). -/
def launchDesc (template n : BitVec 512) (sp : BitVec 6) (klass : BitVec 2) (k : Nat) : BitVec 512 :=
  let w := fun (d : BitVec 512) (lo len v : Nat) =>
    (d &&& ~~~(BitVec.ofNat 512 (2 ^ len - 1) <<< lo)) ||| (BitVec.ofNat 512 (v % 2 ^ len) <<< lo)
  let d := w template 128 64 (boxCoord n k).toNat
  let d := w d 192 6 sp.toNat
  let d := w d 384 56 (nCnt n).toNat
  w d 200 2 (max (dClass template).toNat klass.toNat)
/-- The watched value of a launch (R306). -/
def launchExpect (n : BitVec 512) : Dbl := BitVec.ofNat 64 (if nX32 n == 0 then nBox n else nX32 n)
/-- Register a watch at this device (R306). -/
def addWatch (s : State) (die : Nat) (w : Watch) : State :=
  let d := s.die die
  s.setDie die { d with watches := d.watches ++ [w] }
/-- The WR that writes n bytes of 0 to a counter of another device and asks its home for a watch (payload: log 15). -/
def counterFlit (s : State) (b : NodeRef) (sp : BitVec 6) (t : Xlat) (n : Nat) (expect : Dbl) : Flit :=
  let f0 : Flit := s.flitTo 0x03 true t.gpa
  { f0 with
    space := sp, key := t.leaf.extractLsb' 8 4, aux := BitVec.ofNat 64 (n + 2 ^ 8 * b.inst),
    inl := BitVec.ofNat 256 (2 ^ 64 * expect.toNat + 2 ^ 128 * b.addr.toNat + 2 ^ 192 * (b.level % 2 ^ 48) + 2 ^ 240 * b.die) }
/-- The node of a watch that a peer asks for: its dies are numbered from 4 times 1 more than the device (payload: log 15). -/
def peerNode (f : Flit) : NodeRef :=
  let at_ (lo n : Nat) : Nat := f.inl.toNat / 2 ^ lo % 2 ^ n
  ⟨4 * (f.src.toNat + 1) + at_ 240 2, f.aux.toNat / 2 ^ 8, at_ 192 48, BitVec.ofNat 64 (at_ 128 64)⟩
/-- The counter is written with 0 at home and watched (R306): `done` when it is, `sent` while another device is told to; on an
encrypted page of another device the write is a read-modify-write, and the watch follows it (R384). -/
def launchCounter (s : State) (b : NodeRef) (i : Instance) (n : BitVec 512) : State × Perf :=
  match s.translate none (16 * b.die) i.space (nCnt n) .write with
  | (s, .error f) => (s, .fail f.cause)
  | (s, .ok t) =>
    let key := t.leaf.extractLsb' 8 8
    if !s.ownDevice t.gpa then
      if s.deviceLost (devOf t.gpa) then (s, .fail 0x80)
      else if key != 0 then s.enginePut i.space key t.gpa 8 0 (.counter b)
      else ((s.send (s.counterFlit b i.space t 8 (launchExpect n)) (.counter b)).2, .sent)
    else match s.enginePut i.space key t.gpa 8 0 .plain with
      | (s, .done v) => (s.addWatch b.die ⟨t.gpa, i.space, key, launchExpect n, b⟩, .done v)
      | r => r

/-- A node's action runs only while its instance, its level and its being ready and unfinished stand. -/
def nodeAction (s : State) (b : NodeRef) (type : Nat) (f : State → Instance → LiveNode → BitVec 512 → State) : State :=
  match s.instOf b, s.liveNode b with
  | some i, some x =>
    if !x.ready then s
    else match s.readNode b i.space with
      | (s, .error _) => s.failInstance b 3
      | (s, .ok n) => if nType n == type then f s i x n else s
  | _, _ => s
/-- The counter of an encrypted page of another device is written: its home is asked for the watch (R306). -/
def watchCounter (s : State) (b : NodeRef) : State :=
  s.nodeAction b 1 fun s i _ n =>
    match s.translate none (16 * b.die) i.space (nCnt n) .write with
    | (s, .error _) => s.failInstance b 3
    | (s, .ok t) => (s.send (s.counterFlit b i.space t 0 (launchExpect n)) (.counter b)).2
/-- Read a condition word at its home (R304, R309): it waits for a lock, a revoke, or another device's answer. -/
def condition (s : State) (b : NodeRef) (i : Instance) (x : LiveNode) (n : BitVec 512) : State × Perf :=
  match x.cond with
  | some (some v) => (s.mapNode b fun y => { y with cond := none }, .done v.toNat)
  | some none => (s, .wait)
  | none =>
    match s.translate none (16 * b.die) i.space (nA n) .read with
    | (s, .error f) => (s, .fail f.cause)
    | (s, .ok t) =>
      let key := t.leaf.extractLsb' 8 8
      if s.ownDevice t.gpa then s.engineGet i.space key t.gpa 8
      else if s.deviceLost (devOf t.gpa) then (s, .fail 0x80)
      else
        let f0 : Flit := s.flitTo (if key == 0 then 0x01 else 0x02) false t.gpa
        let f : Flit := { f0 with space := i.space, key := key.setWidth 4, aux := 8, inl := if key == 0 then 0 else 2 }
        (((s.send f (.cond b)).2).mapNode b fun y => { y with cond := some none }, .wait)

/-! Expansion (R306). -/

def dropExpansion (s : State) (b : NodeRef) : State :=
  let d := s.die b.die
  s.setDie b.die { d with expansions := d.expansions.filter fun x => x.node != b }
def putExpansion (s : State) (x : Expansion) : State :=
  let s := s.dropExpansion x.node
  let d := s.die x.node.die
  s.setDie x.node.die { d with expansions := d.expansions ++ [x] }
/-- Create the next task of a launch; a full Lantern makes it wait. -/
def expand (s : State) (x : Expansion) : State :=
  let b := x.node
  match s.readNode b x.space with
  | (s, .error _) => (s.dropExpansion b).failInstance b 3
  | (s, .ok n) =>
    if nBox n ≤ x.next then s.dropExpansion b
    else match s.readVa (16 * b.die) x.space (nA n) 64 .read with
      | (s, .error _) => (s.dropExpansion b).failInstance b 3
      | (s, .ok v) =>
        let d := launchDesc (BitVec.ofNat 512 v) n x.space x.klass x.next
        let (s, cl) := s.place b.die (nB n) (nPlace n == 1) d
        match s.handDescriptor cl d (nA n) (some b) with
        | none => s.later 64 (.launchNode b)
        | some s => (s.putExpansion { x with next := x.next + 1 }).later 0 (.launchNode b)

/-! Command queues (R310 to R314). -/

def qEnabled (q : CmdQueue) : Bool := q.qctl.getLsbD 0
def qDie (q : CmdQueue) : Nat := (q.qctl.extractLsb' 6 2).toNat
def qClass (q : CmdQueue) : BitVec 2 := q.qctl.extractLsb' 2 2
def qLog (q : CmdQueue) : Nat := (q.qctl.extractLsb' 8 4).toNat
/-- Read 64 bytes of a queue or of a descriptor at a physical address of this device, as an acquire at system scope does; what cannot
be read is taken as zeros, which are rejected (R314; DESIGN CHOICE, log 17). -/
def queueRead (s : State) (a : Nat) : State × BitVec 512 :=
  match s.homeGet 0 0 a 64 with
  | (s, .ok v) => (s, BitVec.ofNat 512 v)
  | (s, .error _) => (s, 0)
/-- The head entry of a queue. -/
def queueHead (s : State) (n : Nat) : State × BitVec 512 :=
  let q := s.queue n
  s.queueRead (s.dev.devid.toNat * 2 ^ 52 + q.qbase.toNat % 2 ^ 52 + 64 * (q.qhead.toNat % 2 ^ qLog q))
def cOp (e : BitVec 512) : Nat := (e.extractLsb' 0 4).toNat
def cSpace (e : BitVec 512) : BitVec 6 := e.extractLsb' 8 6
def cAddr (e : BitVec 512) : Dbl := (e.extractLsb' 64 56).setWidth 64
def cDone (e : BitVec 512) : Dbl := (e.extractLsb' 128 56).setWidth 64
/-- The descriptor of a TASK entry, read at its physical address on this device (log 17). -/
def cTask (s : State) (e : BitVec 512) : State × BitVec 512 :=
  if cOp e == 2 then s.queueRead (s.devBase + (cAddr e).toNat % 2 ^ 52) else (s, 0)
/-- The entry, with the descriptor `d` of a TASK, is rejected (R314). -/
def cBad (s : State) (n : Nat) (e d : BitVec 512) : Bool :=
  let q := s.queue n
  let op := cOp e
  let low := fun (sp : BitVec 6) => (qClass q).toNat < (s.sclass sp).toNat
  qLog q < 4 || op == 0 || 3 < op
    || (op != 2 && (!s.spaceValid (cSpace e) || low (cSpace e)))
    || (cAddr e).toNat % (if op == 3 then 8 else 64) != 0 || (op == 1 && (cDone e).toNat % 8 != 0)
    || (op == 2 && (dClass d != qClass q || (s.spaceValid (dSpace d) && low (dSpace d))))
/-- Read the next entry of an enabled queue that is not empty and has none in progress. -/
def kickQueue (s : State) (n : BitVec 6) : State :=
  let q := s.queue n.toNat
  if !qEnabled q || q.qhead == q.qtail || q.entry then s
  else
    let (s, e) := (s.setQueue n.toNat { q with entry := true }).queueHead n.toNat
    match cOp e with
    | 2 => s.later 0 (.cmdTask n)
    | 3 => s.later 0 (.cmdSignal n)
    | _ => s.later 0 (.cmdStart n)
/-- The entry has been acted on: QHEAD advances, and the queue stops here if EN is 0 (R311, R314). -/
def nextEntry (s : State) (n : BitVec 6) : State :=
  let q := s.queue n.toNat
  let q1 : CmdQueue := { q with qhead := q.qhead + 1, waiting := false, entry := false }
  (s.setQueue n.toNat q1).kickQueue n
/-- A rejected entry has no effect but its log entry and REJECTS (R314). -/
def rejectEntry (s : State) (n : BitVec 6) (e : BitVec 512) : State :=
  let q := s.queue n.toNat
  let s := s.log (qDie q) 4 (qDie q) (cSpace e) 0xA3 (n.setWidth 64) (q.qhead.setWidth 64) 0
  let q1 : CmdQueue := { q with rejects := if q.rejects == BitVec.allOnes 16 then q.rejects else q.rejects + 1 }
  (s.setQueue n.toNat q1).nextEntry n
/-- Act on the head entry when its OP is one of a command's (a reserved OP is taken by START, to be rejected). -/
def command (s : State) (n : BitVec 6) (mine : Nat → Bool) (f : State → CmdQueue → BitVec 512 → BitVec 512 → State × Bool) : State :=
  let q := s.queue n.toNat
  let (s, e) := s.queueHead n.toNat
  let (s, d) := s.cTask e
  let s := (s.entryReady (cSpace e)).entryReady (dSpace d)
  if !(qEnabled q || q.entry) || q.qhead == q.qtail || !mine (cOp e) then s
  else if s.cBad n.toNat e d then s.rejectEntry n e
  else match f s q e d with
    | (s, true) => s.nextEntry n
    | (s, false) =>
      let again := match cOp e with | 2 => Instr.cmdTask n | 3 => Instr.cmdSignal n | _ => Instr.cmdStart n
      (s.setQueue n.toNat { q with waiting := cOp e != 3, entry := true }).later 64 again

end State

/-! Node actions (R304). -/

/-- LAUNCH_NODE (R306): the counter first, then one task for each coordinate of the box, whether or not the node has finished by then. A
template that cannot be read, and a counter that cannot be translated or written, make the instance fail with reason 3 (R305 names
neither; DESIGN CHOICE, log 16). -/
def execLaunchNode (b : NodeRef) (s : State) : Host.Outcome State Fault Refusal :=
  .next (match (s.die b.die).expansions.find? fun x => x.node == b with
    | some x => s.expand x
    | none => s.nodeAction b 1 fun s i x n =>
      if x.count != 0 || x.cond == some none then s
      else match (if x.cond.isSome then (s, Perf.done 0) else s.launchCounter b i n) with
        | (s, .fail _) => s.failInstance b 3
        | (s, .wait) => s.later 16 (.launchNode b)
        | (s, .sent) => s.mapNode b fun y => { y with cond := some none }
        | (s, .done _) =>
          ((s.mapNode b fun y => { y with count := 1 }).putExpansion ⟨b, i.space, i.klass, 0⟩).later 0 (.launchNode b))
/-- IF_NODE: S0 if the condition word is not 0, S1 otherwise. -/
def execIfNode (b : NodeRef) (s : State) : Host.Outcome State Fault Refusal :=
  .next (s.nodeAction b 2 fun s i x n =>
    if x.finished then s
    else match s.condition b i x n with
      | (s, .fail _) => s.failInstance b 3
      | (s, .done v) => s.finishTo b [if v != 0 then nS0 n else nS1 n]
      | (s, _) => s.later 16 (.ifNode b))
/-- WHILE_NODE: a level at BODY while the condition word is not 0, at most MAXITER of them. -/
def execWhileNode (b : NodeRef) (s : State) : Host.Outcome State Fault Refusal :=
  .next (s.nodeAction b 3 fun s i x n =>
    if x.finished then s
    else match s.condition b i x n with
      | (s, .fail _) => s.failInstance b 3
      | (s, .done 0) => s.finishAll b i.space n
      | (s, .done _) =>
        if (if nX32 n == 0 then 2 ^ 32 else nX32 n) ≤ x.count then s.failInstance b 6
        else (s.mapNode b fun y => { y with count := x.count + 1 }).openLevel b (nB n)
      | (s, _) => s.later 16 (.whileNode b))
/-- SWITCH_NODE: one entry of the list. -/
def execSwitchNode (b : NodeRef) (s : State) : Host.Outcome State Fault Refusal :=
  .next (s.nodeAction b 4 fun s i x n =>
    if x.finished then s
    else match s.condition b i x n with
      | (s, .fail _) => s.failInstance b 3
      | (s, .done v) =>
        (match s.readVa (16 * b.die) i.space (nSlist n + BitVec.ofNat 64 (8 * min v (nList n - 1))) 8 .read with
        | (s, .error _) => s.failInstance b 3
        | (s, .ok a) => s.finishTo b [BitVec.ofNat 64 (a % 2 ^ 56)])
      | (s, _) => s.later 16 (.switchNode b))
/-- SIGNAL_NODE: X32 tokens are added, 0 read as 1 (R318). -/
def execSignalNode (b : NodeRef) (s : State) : Host.Outcome State Fault Refusal :=
  .next (s.nodeAction b 5 fun s i x n =>
    if x.finished then s
    else if x.count == 1 then s.finishAll b i.space n
    else if x.count == 2 then s.failInstance b 3
    else if x.count == 3 then s
    else match s.translate none (16 * b.die) i.space (nA n) .atomic with
      | (s, .error _) => s.failInstance b 3
      | (s, .ok t) =>
        let add := max 1 (nX32 n)
        if s.remoteLost t.gpa then s.failInstance b 3
        else if !s.ownDevice t.gpa then
          let f0 : Flit := s.flitTo 0x12 true t.gpa
          let f : Flit := { f0 with space := i.space, key := t.leaf.extractLsb' 8 4, inl := BitVec.ofNat 256 (2 ^ 64 * add) }
          ((s.send f (.node b)).2).mapNode b fun y => { y with count := 3 }
        else match s.tokenAdd none (s.pageOf i.space t.leaf) t.gpa add with
          | (s, .wait) | (s, .sent) => s.later 16 (.signalNode b)
          | (s, .fail _) => s.failInstance b 3
          | (s, .done _) => s.finishAll b i.space n)
/-- WAIT_NODE: one token is taken, or the word is found closed (R319). -/
def execWaitNode (b : NodeRef) (s : State) : Host.Outcome State Fault Refusal :=
  .next (s.nodeAction b 6 fun s i x n =>
    if x.finished then s
    else if x.count == 1 then s.finishAll b i.space n
    else if x.count == 2 then s.failInstance b 3
    else if x.count == 3 then s
    else match s.translate none (16 * b.die) i.space (nA n) .atomic with
      | (s, .error _) => s.failInstance b 3
      | (s, .ok t) =>
        let s := s.mapNode b fun y => { y with count := 3 }
        let (id, s) := s.newId
        let w : TokenWait := ⟨id, t.gpa, i.space, t.leaf.extractLsb' 8 8, t.leaf.getLsbD 4, .node b, false⟩
        if s.remoteLost t.gpa then s.failInstance b 3
        else if s.ownDevice t.gpa then s.tokenArrive w 256 else s.askToken w (.token 0 id))
/-- CALL_NODE: a level at BODY; the node finishes when that level ends. -/
def execCallNode (b : NodeRef) (s : State) : Host.Outcome State Fault Refusal :=
  .next (s.nodeAction b 7 fun s _ x n => if x.finished || x.count != 0 then s
    else (s.mapNode b fun y => { y with count := 1 }).openLevel b (nB n))
/-- END_NODE: the level ends once every node that became ready has finished; the END keeps its live-node entry until then (R301). -/
def execEndNode (b : NodeRef) (s : State) : Host.Outcome State Fault Refusal :=
  .next (s.nodeAction b 8 fun s _ _ _ =>
    let s1 := s.mapNode b fun y => { y with atEnd := true }
    match s1.levelOf b with
    | none => s1
    | some l =>
      let l1 : Level := { l with ending := some (l.ending.getD b.addr) }
      let s2 := s1.setLevel b l1
      if s2.levelOver b l1 then
        match s2.instOf b with
        | some i => s2.endLevel b i l1
        | none => s2
      else s2)
/-- LAUNCH_WATCH_MET (R306): the LAUNCH node finishes; that of a peer is told by its counter's home (payload: log 15). -/
def execLaunchWatchMet (b : NodeRef) (s : State) : Host.Outcome State Fault Refusal :=
  .next (if 4 ≤ b.die then
      let f0 : Flit := s.flitTo 0x12 true 0
      let f : Flit := { f0 with
        dst := BitVec.ofNat 8 (b.die / 4 - 1), space := 0, aux := BitVec.ofNat 64 b.inst,
        inl := BitVec.ofNat 256 (4 + 2 ^ 128 * b.addr.toNat + 2 ^ 192 * b.level + 2 ^ 240 * (b.die % 4)) }
      if s.deviceLost f.dst then s else (s.send f .plain).2
    else s.nodeAction b 1 fun s i x n => if x.finished || x.count == 0 then s else s.finishAll b i.space n)
/-- Tasks that an instance has created are not over (R305). -/
def State.tasksLeft (s : State) (b : NodeRef) : Bool :=
  let mine := fun (g : Option NodeRef) => g.any fun n => n.die == b.die && n.inst == b.inst
  s.clusters.any (fun (_, c) => c.entries.any fun (_, e) => mine e.graph)
    || s.agenda.any fun (_, i) => match i with | .lanternAccept _ _ _ g => mine g | _ => false
/-- LIVE_NODE_TIMEOUT (R305): a node that still waits for an entry fails its instance; a failed instance has bit 63 of its
counter set once its tasks are over, and is freed. -/
def execLiveNodeTimeout (b : NodeRef) (s : State) : Host.Outcome State Fault Refusal :=
  .next (match (s.die b.die).instances.find? fun (i : Instance) => i.id == b.inst with
    | none => s
    | some i =>
      let s := s.admitNodes b.die
      if i.failed then
        if s.tasksLeft b then s.later 64 (.liveNodeTimeout b)
        else s.doneAtomic b.die i .or (1#64 <<< 63) (.liveNodeTimeout b)
      else match s.liveNode b with
        | some x => if x.queued then s.failInstance b 5 else s
        | none => s)

/-! Commands (R314). -/

/-- QTAIL_DOORBELL (R310). -/
def execQtailDoorbell (q : BitVec 6) (tail : BitVec 32) (s : State) : Host.Outcome State Fault Refusal :=
  let x := s.queue q.toNat
  let idle := x.qhead == x.qtail
  let s1 := s.setQueue q.toNat { x with qtail := tail }
  .next (if idle then s1.kickQueue q else s1)
/-- CMD_START: an instance at ADDR; it waits for a free one. -/
def execCmdStart (q : BitVec 6) (s : State) : Host.Outcome State Fault Refusal :=
  .next (s.command q (fun op => op != 2 && op != 3) fun s x e _ =>
    s.startInstance (State.qDie x) (State.cSpace e) (State.qClass x) (State.cAddr e) (State.cDone e))
/-- CMD_TASK: the descriptor goes to the Lantern that `place` selects; it waits for a free entry. -/
def execCmdTask (q : BitVec 6) (s : State) : Host.Outcome State Fault Refusal :=
  .next (s.command q (· == 2) fun s x e d =>
    let (s, cl) := s.place (State.qDie x) (e.extractLsb' 192 64) false d
    match s.handDescriptor cl d (State.cAddr e) none with
    | some s => (s, true)
    | none => (s, false))
/-- CMD_SIGNAL: N tokens are added as `toksig` does; a failure is logged. -/
def execCmdSignal (q : BitVec 6) (s : State) : Host.Outcome State Fault Refusal :=
  .next (s.command q (· == 3) fun s x e _ =>
    let die := State.qDie x
    let sp := State.cSpace e
    let n := max 1 (e.extractLsb' 32 32).toNat
    match s.translate none (16 * die) sp (State.cAddr e) .atomic with
    | (s, .error f) => (s.log die 4 die sp f.cause (State.cAddr e) 0 0, true)
    | (s, .ok t) =>
      if s.remoteLost t.gpa then (s.log die 4 die sp 0x80 (State.cAddr e) 0 0, true)
      else if !s.ownDevice t.gpa then
        let f0 : Flit := s.flitTo 0x12 true t.gpa
        let f : Flit := { f0 with space := sp, key := t.leaf.extractLsb' 8 4, inl := BitVec.ofNat 256 (2 ^ 64 * n) }
        ((s.send f .plain).2, true)
      else match s.tokenAdd none (s.pageOf sp t.leaf) t.gpa n with
        | (s, .wait) | (s, .sent) => (s, false)
        | (s, .fail c) => (s.log die 4 die sp c (State.cAddr e) 0 0, true)
        | (s, .done _) => (s, true))

/-! `gstart` (R321). -/

/-- `gstart`: a release at device scope at the least; it stalls while the Beacon has no free instance. -/
def execGstart (p : Pred) (a b : BitVec 5) (s : State) : Host.Outcome State Fault Refusal :=
  s.perform p fun s =>
    let node := s.rx a
    let done := s.rx b
    if node.toNat % 64 != 0 then s.takeTrap (s.memFault 0x24 node 0 15 0)
    else if done.toNat % 8 != 0 then s.takeTrap (s.memFault 0x24 done 3 15 0)
    else if !s.settled 2 then s.stall
    else match s.startInstance s.hereDie s.cx.id.space s.cx.id.klass node done with
      | (s, true) => s
      | (s, false) => s.stall

end Sys2Proof.Machine
end

