-- ==== Sys2Proof/Machine/Lease.lean ====
section
/-! DEFINITION. Leases of wavelength channels (R364 to R373): the words and the events of the lease table. A dimension is
named by false for the row and true for the column. -/

namespace Sys2Proof.Machine

namespace State

/-- Channels that serve a slot now. -/
def serving (s : State) (dim : Bool) (slot : Nat) : Nat :=
  ((s.channels dim).filter fun (_, c) => c.serves == slot && !c.spared).length
/-- Channels of the free pool, lowest number first. -/
def poolChannels (s : State) (dim : Bool) : List Nat :=
  ((s.channels dim).filter fun (_, c) => c.serves == 15 && c.lease == 0 && !c.spared).map Prod.fst
/-- The next channel taken from another slot (R366): from the slot that holds the most, the highest slot among equals; never
its floor channel, never a leased one. The highest such channel of the slot is taken (log 18). The receive channels of the two
ends are reserved over the fabric control lane, by LEASE_RESERVE_REPLY here. -/
def otherChannel (s : State) (dim : Bool) (slot : Nat) (taken : List Nat) : Option Nat :=
  let left := (s.channels dim).filter fun (n, c) => c.serves != 15 && c.serves != slot && !c.spared && !taken.contains n
  let free := left.filter fun (_, c) => c.lease == 0 && !c.floor
  let size := fun (t : Nat) => (left.filter fun (_, c) => c.serves == t).length
  let best := (List.range 15).foldl (fun (b : Option Nat) t =>
    if free.any fun (_, c) => c.serves == t then
      match b with | some u => if size u ≤ size t then some t else b | none => some t
    else b) none
  best.bind fun t => ((free.filter fun (_, c) => c.serves == t).map Prod.fst).foldl (fun (m : Option Nat) n =>
    match m with | some k => some (max k n) | none => some n) none
/-- The transmit channels that a grant of n toward a slot takes, or none (R366). -/
def takeChannels (s : State) (dim : Bool) (slot : Nat) (taken : List Nat) : Nat → Option (List Nat)
  | 0 => some taken
  | n + 1 =>
    match ((s.poolChannels dim).filter fun c => !taken.contains c).head? with
    | some c => s.takeChannels dim slot (taken ++ [c]) n
    | none => match s.otherChannel dim slot taken with
      | some c => s.takeChannels dim slot (taken ++ [c]) n
      | none => none
def leaseOf (s : State) (id : Nat) : Option Lease := s.fab.leases.find? fun (l : Lease) => l.id == id
def setLease (s : State) (l : Lease) : State :=
  { s with fab := { s.fab with leases := s.fab.leases.map fun (m : Lease) => if m.id == l.id then l else m } }
def dropLease (s : State) (id : Nat) : State :=
  { s with fab := { s.fab with leases := s.fab.leases.filter fun (m : Lease) => m.id != id } }

end State

def leaseCode : LeaseState → Nat
  | .free => 0 | .queued => 1 | .negotiate => 2 | .tuning => 3 | .active => 4 | .notice => 5 | .ending => 6 | .ended => 7
  | .refused => 8
def leaseOver (l : Lease) : Bool := l.state == .ended || l.state == .refused
/-- A lease word from its fields (R368). -/
def leaseBits (remain : Nat) (dest : BitVec 8) (reason : BitVec 4) (state nch id : Nat) : Dbl :=
  BitVec.ofNat 64 (id + 2 ^ 8 * nch + 2 ^ 16 * state + 2 ^ 20 * reason.toNat + 2 ^ 24 * dest.toNat + 2 ^ 32 * remain)

namespace State

/-- REMAIN in µs (R368). -/
def leaseRemain (s : State) (l : Lease) : Nat :=
  match l.state with
  | .active | .notice => l.term - (s.cycle - l.activeAt) / 1400
  | .ending | .ended => 0
  | _ => l.term
def leaseWord (s : State) (l : Lease) : Dbl :=
  leaseBits (s.leaseRemain l) l.dest l.reason (leaseCode l.state) l.channels.length l.id
def leaseDim (s : State) (l : Lease) : Bool := (s.peerDim l.dest).getD false
/-- The lease's channels go home (R364). -/
def returnChannels (s : State) (l : Lease) : State :=
  let dim := s.leaseDim l
  let home := fun (c : Channel) => if c.lease == l.id then ({ c with serves := c.home, lease := 0 } : Channel) else c
  (s.setChannels dim ((s.channels dim).map fun (n, c) => (n, home c))).later 0 (.leaseHeadGrant dim)
/-- A lease has reached ENDED or REFUSED: its entry goes after 10 ms (R369), and the queue behind it is served (R370). -/
def leaseEnds (s : State) (l : Lease) (st : LeaseState) (reason : BitVec 4) : State :=
  let s := s.returnChannels l
  (s.setLease { l with state := st, reason := reason, channels := [], since := s.cycle }).later 14000000
    (.leaseEntryTimeout (BitVec.ofNat 8 l.id))
/-- The lease starts to end (R369). -/
def endLease (s : State) (l : Lease) : State :=
  (s.setLease { l with state := .ending }).later 2800 (.leaseDrained (BitVec.ofNat 8 l.id))
/-- `lease.rel` of a lease (R372). -/
def releaseLease (s : State) (l : Lease) : State :=
  match l.state with
  | .queued => s.leaseEnds l .ended 0
  | .negotiate | .tuning => s.setLease { l with doomed := true }
  | .active | .notice => s.endLease l
  | .ended | .refused => s.dropLease l.id
  | .ending | .free => s
/-- The destination is declared dead: every lease toward it has ended (R369). -/
def leasesDead (s : State) (d : BitVec 8) : State :=
  (s.fab.leases.filter fun (l : Lease) => l.dest == d && !leaseOver l).foldl (fun s l => s.leaseEnds l .ended 0) s
/-- The queue of a dimension in the order of R370. -/
def leaseQueue (s : State) (dim : Bool) : List Lease :=
  let l := s.fab.leases.filter fun (l : Lease) => l.state == .queued && s.leaseDim l == dim
  let key := fun (l : Lease) => if 140000 < s.cycle - l.since then (0, 0, l.since, l.id) else (1, l.klass.toNat, l.since, l.id)
  l.mergeSort fun a b =>
    let (a1, a2, a3, a4) := key a
    let (b1, b2, b3, b4) := key b
    a1 < b1 || (a1 == b1 && (a2 < b2 || (a2 == b2 && (a3 < b3 || (a3 == b3 && a4 ≤ b4)))))
/-- Give the NOTICE of a revocation (R371, R458). -/
def leaseNotice (s : State) (l : Lease) : State :=
  let l1 : Lease := { l with state := .notice, since := s.cycle }
  let s := s.setLease l1
  (s.logFab l.dest l.space 0x85 (s.leaseWord l1) 0 0).later 14000 (.leaseNoticeExpiry (BitVec.ofNat 8 l.id))
/-- Revoke leases of classes 1 to 3 until `n` more channels will free: highest class, then latest grant (R371). -/
def revokeLeases (s : State) (dim : Bool) (n : Nat) : List Lease → State
  | [] => s
  | l :: rest => if n == 0 then s else (s.leaseNotice l).revokeLeases dim (n - l.channels.length) rest
/-- The leases that a class-0 request may revoke, in the order of R371. -/
def revocable (s : State) (dim : Bool) : List Lease :=
  (s.fab.leases.filter fun (l : Lease) => l.state == .active && l.klass != 0 && s.leaseDim l == dim).mergeSort fun a b =>
    b.klass.toNat < a.klass.toNat || (a.klass == b.klass && b.granted ≤ a.granted)
/-- The destination has no receive channels for a class-0 request (R369): this device's own leases of classes 1 to 3 toward it
are revoked, as many as free the channels it lacks, which is a free value (R371; log 18). -/
def revokeToward (s : State) (l : Lease) : State :=
  let dim := s.leaseDim l
  let (v, s) := s.free
  s.revokeLeases dim (1 + v.toNat % l.want) ((s.revocable dim).filter fun (m : Lease) => m.dest == l.dest)
/-- Channels already on their way back. -/
def freeing (s : State) (dim : Bool) : Nat :=
  (s.fab.leases.filter fun (l : Lease) => (l.state == .notice || l.state == .ending) && s.leaseDim l == dim).foldl
    (fun n (l : Lease) => n + l.channels.length) 0
/-- The largest grant that could be made now toward a slot. -/
def takeable (s : State) (dim : Bool) (slot : Nat) : Nat :=
  ((List.range 17).filter fun n => (s.takeChannels dim slot [] n).isSome).length - 1
/-- Try to grant the queue of a dimension: blocked classes wait behind their heads (R370). -/
def serveLeases (s : State) (dim : Bool) (blocked : List (BitVec 2)) : List Lease → State
  | [] => s
  | l :: rest =>
    if blocked.contains l.klass then s.serveLeases dim blocked rest
    else
      let slot := s.peerSlot dim l.dest
      match s.takeChannels dim slot [] l.want with
      | some cs =>
        let take := fun (n : Nat) (c : Channel) => if cs.contains n then ({ c with serves := slot, lease := l.id } : Channel) else c
        let s := s.setChannels dim ((s.channels dim).map fun (n, c) => (n, take n c))
        let s : State := { s with fab := { s.fab with grants := s.fab.grants + 1 } }
        (s.setLease { l with state := .negotiate, channels := cs, granted := s.fab.grants }).serveLeases dim blocked rest
      | none =>
        let have_ := s.takeable dim slot + s.freeing dim
        let s := if l.klass == 0 && have_ < l.want then s.revokeLeases dim (l.want - have_) (s.revocable dim) else s
        s.serveLeases dim (l.klass :: blocked) rest
/-- The lowest free lease id. -/
def freeLeaseId (s : State) : Option Nat := ((List.range 256).drop 1).find? fun n => !(s.fab.leases.any fun (l : Lease) => l.id == n)
/-- The refusal reason of a request, 0 for none (R367). -/
def leaseRefusal (s : State) (dim : Bool) (d : BitVec 8) (n : Nat) : BitVec 4 :=
  let low := (s.fab.leases.filter fun (l : Lease) => l.klass == 0 && !leaseOver l && s.leaseDim l == dim).foldl
    (fun k (l : Lease) => k + l.want) 0
  if 16 < s.serving dim (s.peerSlot dim d) + n then 2
  else if s.freeLeaseId.isNone then 3
  else if (s.peer d.toNat).deadEpoch.isSome then 4
  else if s.cx.id.klass == 0 && 8 < low + n then 5
  else 0

end State

/-! The words. -/

/-- `lease.req` (R367). -/
def execLeaseReq (p : Pred) (d a b c : BitVec 5) (s : State) : Host.Outcome State Fault Refusal :=
  s.perform p fun s =>
    let dest : BitVec 8 := (s.rx a).setWidth 8
    let n := (s.rx b).toNat
    let term := (s.rx c).toNat
    match s.peerDim dest with
    | none => s.trap 0x82 1
    | some dim =>
      if !s.dev.presence.getLsbD dest.toNat then s.trap 0x82 1
      else if n == 0 || 16 < n then s.trap 0x82 2
      else if term == 0 || 1000000 < term then s.trap 0x82 3
      else
        let reason := s.leaseRefusal dim dest n
        if reason != 0 then s.flightBound [.x d] [.x d (leaseBits term dest reason 8 0 0)]
        else
          let id := s.freeLeaseId.getD 0
          let l : Lease := ⟨id, s.cx.id.space, s.cx.id.klass, dest, n, term, .queued, 0, s.cycle, 0, 0, false, []⟩
          let s1 : State := { s with fab := { s.fab with leases := s.fab.leases ++ [l] } }
          ((s1.later 0 (.leaseHeadGrant dim)).later (1400 * term) (.leaseQueueExpiry (BitVec.ofNat 8 id))).flightBound
            [.x d] [.x d (s1.leaseWord l)]
/-- `lease.rel` (R372). -/
def execLeaseRel (p : Pred) (a : BitVec 5) (s : State) : Host.Outcome State Fault Refusal :=
  s.perform p fun s =>
    match s.leaseOf ((s.rx a).toNat % 256) with
    | some l => if l.space == s.cx.id.space then s.releaseLease l else s
    | none => s
/-- `lease.qry` (R373). -/
def execLeaseQry (p : Pred) (d a : BitVec 5) (s : State) : Host.Outcome State Fault Refusal :=
  s.perform p fun s =>
    let w := match s.leaseOf ((s.rx a).toNat % 256) with
      | some l => if l.space == s.cx.id.space then s.leaseWord l else 0
      | none => 0
    s.flightBound [.x d] [.x d w]

/-! The events. -/

/-- LEASE_HEAD_GRANT (R369, R370). -/
def execLeaseHeadGrant (dim : Bool) (s : State) : Host.Outcome State Fault Refusal :=
  .next (s.serveLeases dim [] (s.leaseQueue dim))
/-- LEASE_RESERVE_REPLY (R369): the destination reserved receive channels, or has none. -/
def execLeaseReserveReply (id : BitVec 8) (ok : Bool) (s : State) : Host.Outcome State Fault Refusal :=
  .next (match s.leaseOf id.toNat with
    | some l =>
      if l.state != .negotiate then s
      else if 16 < s.serving (s.leaseDim l) (s.peerSlot (s.leaseDim l) l.dest) then s.leaseEnds l .refused 2
      else if ok then (s.setLease { l with state := .tuning }).later 2800 (.leaseTuned id)
      else if l.doomed then s.leaseEnds l .ended 0
      else
        let s1 := ((s.returnChannels l).setLease { l with state := .queued, channels := [] }).later
          (1400 * l.term - (s.cycle - l.since)) (.leaseQueueExpiry id)
        if l.klass == 0 then s1.revokeToward l else s1
    | none => s)
/-- LEASE_TUNED (R369): REMAIN starts counting down; a lease released meanwhile ends at once. A waiting class-0 request may revoke
the lease (R371). -/
def execLeaseTuned (id : BitVec 8) (s : State) : Host.Outcome State Fault Refusal :=
  .next (match s.leaseOf id.toNat with
    | some l =>
      if l.state != .tuning then s
      else
        let l1 : Lease := { l with state := .active, activeAt := s.cycle }
        if l.doomed then (s.setLease l1).endLease l1
        else ((s.setLease l1).later (1400 * l.term) (.leaseTermExpiry id)).later 0 (.leaseHeadGrant (s.leaseDim l))
    | none => s)
/-- LEASE_TERM_EXPIRY (R369). -/
def execLeaseTermExpiry (id : BitVec 8) (s : State) : Host.Outcome State Fault Refusal :=
  .next (match s.leaseOf id.toNat with
    | some l => if l.state == .active && s.leaseRemain l == 0 then s.endLease l else s
    | none => s)
/-- LEASE_NOTICE_EXPIRY (R369): 10 µs of notice are over. -/
def execLeaseNoticeExpiry (id : BitVec 8) (s : State) : Host.Outcome State Fault Refusal :=
  .next (match s.leaseOf id.toNat with
    | some l => if l.state == .notice && 14000 ≤ s.cycle - l.since then s.endLease l else s
    | none => s)
/-- LEASE_DRAINED (R369): the channels are home, the lease has ended. -/
def execLeaseDrained (id : BitVec 8) (s : State) : Host.Outcome State Fault Refusal :=
  .next (match s.leaseOf id.toNat with
    | some l => if l.state == .ending then s.leaseEnds l .ended 0 else s
    | none => s)
/-- LEASE_QUEUE_EXPIRY (R369): its term elapsed while it waited. -/
def execLeaseQueueExpiry (id : BitVec 8) (s : State) : Host.Outcome State Fault Refusal :=
  .next (match s.leaseOf id.toNat with
    | some l => if l.state == .queued && 1400 * l.term ≤ s.cycle - l.since then s.leaseEnds l .refused 6 else s
    | none => s)
/-- LEASE_ENTRY_TIMEOUT (R369): an ENDED or REFUSED entry is freed after 10 ms. -/
def execLeaseEntryTimeout (id : BitVec 8) (s : State) : Host.Outcome State Fault Refusal :=
  .next (match s.leaseOf id.toNat with
    | some l => if leaseOver l && 14000000 ≤ s.cycle - l.since then s.dropLease l.id else s
    | none => s)

end Sys2Proof.Machine
end

