-- ==== Sys2Proof/Machine/Mooring.lean ====
section
/-! DEFINITION. The Mooring guest port (R393 to R403): the queue words, the guest's messages and requests, pre-emption of
guest work and fencing. The guest's cache is that of core number 1,024. -/

namespace Sys2Proof.Machine

namespace State

/-! Queues (R395, R397). -/

def mqEn (q : GuestQueue) : Bool := q.ctl.getLsbD 0
def mqAny (q : GuestQueue) : Bool := q.ctl.getLsbD 9
def mqSpace (q : GuestQueue) : BitVec 6 := q.ctl.extractLsb' 10 6
def mqCount (q : GuestQueue) : Nat := (q.tail - q.head).toNat
/-- A space may push to the queue. -/
def mqBound (q : GuestQueue) (sp : BitVec 6) : Bool := mqAny q || mqSpace q == sp
/-- The finding of a packet (R397). -/
def packetFault (s : State) (q : BitVec 3) (p : BitVec 512) : Option FaultInfo :=
  let off : Dbl := (pkCredit p).extractLsb' 0 32 |>.setWidth 64
  if pkKind p == 3 then some ⟨0x93, q.setWidth 64, 4, 0, 0⟩
  else if (pkCaddr p).toNat % 16 != 0 then some (s.memFault 0x24 (pkCaddr p) 1 15 0)
  else if pkKind p == 2 && (pkCredit p).toNat % 8 != 0 then some (s.memFault 0x24 (pkCredit p) 3 15 0)
  else if pkKind p == 1 then s.scratchFault off 16 true
  else none
/-- The packet as the device queues it (R396). -/
def packetOf (s : State) (p : BitVec 512) : BitVec 512 :=
  let p := pkPut (pkPut (pkPut (pkPut p 16 6 s.cx.id.space.toNat) 22 2 s.cx.id.klass.toNat) 26 6 0) 224 32 0
  if pkKind p == 1 then
    pkPut (pkPut p 128 32 (s.scratchAt ((pkCredit p).toNat % 2 ^ 32))) 160 8 s.hereCluster
  else p
/-- The task that a packet's barrier credit is for. -/
def packetOwner (s : State) : Option (Nat × Nat) :=
  if s.cx.mode == .task then s.taskEntry.map fun e => (s.cx.id.taskid.toNat % 2048, e.acceptedAt) else none

/-! The translation unit (R398). -/

/-- Translate for the guest: its own 1,024 entries, then a walk. -/
def guestXlat (s : State) (sp : BitVec 6) (va : Dbl) (kind : Access) : State × Except FaultInfo Xlat :=
  let v := va.toNat % 2 ^ 56
  match tlbFind s.moor.tlb sp v with
  | some e =>
    if writes kind && !e.leaf.getLsbD 7 then
      let s := s.entryReady sp
      match s.walk va kind 0 3 (s.ptRoot (s.spaceEntry sp)) with
      | (s, .ok (_, a, _)) =>
        match s.leafCheck sp va kind 15 e.leaf with
        | some f => (s, .error f)
        | none =>
          let (s, leaf) := s.setAD a e.leaf true
          let s : State := { s with moor := { s.moor with tlb := tlbPut s.moor.tlb 1 1024 { e with leaf := leaf } } }
          (s, .ok ⟨leaf.toNat / 2 ^ 16 % 2 ^ 44 * 2 ^ 16 + v % 2 ^ e.size, leaf⟩)
      | (s, .error f) => (s, .error f)
    else match s.leafCheck sp va kind 15 e.leaf with
      | some f => (s, .error f)
      | none => (s, .ok ⟨e.leaf.toNat / 2 ^ 16 % 2 ^ 44 * 2 ^ 16 + v % 2 ^ e.size, e.leaf⟩)
  | none =>
    let s := s.entryReady sp
    let ent := s.spaceEntry sp
    let pt := s.ptRoot ent
    if !ent.getLsbD 63 || pt % 2 ^ 13 != 0 then (s, .error (s.memFault 0x20 va (accessCode kind) 3 (ent.extractLsb' 0 64)))
    else match s.walk va kind 0 3 pt with
      | (s, .error f) => (s, .error f)
      | (s, .ok (level, a, e)) =>
        match s.leafCheck sp va kind level e with
        | some f => (s, .error f)
        | none =>
          let (s, e) := s.setAD a e (writes kind)
          let k := leafBits level
          let s : State := { s with moor := { s.moor with tlb := tlbPut s.moor.tlb 1 1024 ⟨sp, v / 2 ^ k, k, e⟩ } }
          (s, .ok ⟨e.toNat / 2 ^ 16 % 2 ^ 44 * 2 ^ 16 + v % 2 ^ k, e⟩)
/-- A page that the guest cannot reach (R394, R455): another device's, untracked, Silt, keyed, or the control window. -/
def guestExcluded (s : State) (t : Xlat) : Bool :=
  !s.ownDevice t.gpa || !t.leaf.getLsbD 4 || t.leaf.getLsbD 5 || t.leaf.extractLsb' 8 8 != 0
    || windowOf (localOf t.gpa) == .control || windowOf (localOf t.gpa) == .hole
/-- A refusal of the port (R398). -/
def guestRefused (s : State) (q : BitVec 3) (sp : BitVec 6) (cause : BitVec 8) (d0 : Dbl) : State :=
  s.log 0 7 q.toNat sp cause d0 0 0

/-! The end of a packet (R399, R400). -/

/-- The 16 bytes of a completion record (R399). -/
def recordOf (e : GuestEnd) : Nat :=
  (pkTag e.packet.bits).toNat + 2 ^ 32 * e.status.toNat + 2 ^ 40 * e.queue.toNat + 2 ^ 64 * e.result.toNat
/-- The completion record: a `.b` write of 16 bytes in the packet's space (R399). One that cannot be written is logged. -/
def writeCompletion (s : State) (e : GuestEnd) : State × Perf :=
  let p := e.packet.bits
  let refused := fun (s : State) (c : BitVec 8) => (s.guestRefused e.queue (pkSpace p) c (pkCaddr p), Perf.done 0)
  if pkCaddr p == 0 then (s, .done 0)
  else match s.guestXlat (pkSpace p) (pkCaddr p) .write with
    | (s, .error f) => refused s f.cause
    | (s, .ok t) =>
      match s.enginePut (pkSpace p) (t.leaf.extractLsb' 8 8) t.gpa 16 (recordOf e) (.packet e.queue (pkSpace p) e.id (pkCaddr p)) with
      | (s, .fail c) => refused s c
      | r => r
/-- Add tokens for a packet, as `toksig` does: false while the word's line is locked or granted away. -/
def creditTokens (s : State) (e : GuestEnd) : State × Bool :=
  let p := e.packet.bits
  let n := max 1 (pkCamt p)
  let refused := fun (s : State) (c : BitVec 8) => (s.guestRefused e.queue (pkSpace p) c (pkCredit p), true)
  match s.guestXlat (pkSpace p) (pkCredit p) .atomic with
  | (s, .error f) => refused s f.cause
  | (s, .ok t) =>
    if s.remoteLost t.gpa then refused s 0x80
    else if !s.ownDevice t.gpa then
      let f0 : Flit := s.flitTo 0x12 true t.gpa
      let f : Flit := { f0 with space := pkSpace p, key := t.leaf.extractLsb' 8 4, inl := BitVec.ofNat 256 (2 ^ 64 * n) }
      ((s.send f (.packet e.queue (pkSpace p) e.id (pkCredit p))).2, true)
    else match s.tokenAdd none (s.pageOf (pkSpace p) t.leaf) t.gpa n with
      | (s, .wait) => (s, false)
      | (s, .fail c) => refused s c
      | (s, _) => (s, true)
/-- The window of a packet's barrier is still that of the task that pushed it; one pushed in supervisor mode names an offset of the
cluster's scratch (R229, R400). -/
def windowHeld (s : State) (p : GuestPacket) (cl off : Nat) : Bool :=
  match p.owner with
  | none => off + 16 ≤ (s.cluster cl).converted * 524288
  | some (k, since) =>
    match s.entry cl k with
    | some e => e.started && e.acceptedAt == since && e.scratchBase ≤ off
        && off + 16 ≤ e.scratchBase + (dScratch e.desc + 2047) / 2048 * 2048
    | none => false
/-- Credit a barrier: as landing bytes do, or as a fault (R399, R400). -/
def creditBarrier (s : State) (e : GuestEnd) : State :=
  let p := e.packet.bits
  let cl := ((pkCredit p).extractLsb' 32 8).toNat
  let off := ((pkCredit p).extractLsb' 0 32).toNat
  if !s.windowHeld e.packet cl off then s.guestRefused e.queue (pkSpace p) 0x93 (pkCredit p)
  else if e.status == 0 then s.barrierPay cl off (pkCamt p)
  else s.barrierFault cl off e.status.toNat true false
/-- Steps 2 and 3 of the end of a packet: the credit, then for a fault the log entry; what is left to do, if it must wait (R399). -/
def endCredit (s : State) (e : GuestEnd) : State × Option GuestEnd :=
  let fin := fun (s : State) =>
    if e.logIt then s.log 0 7 e.queue.toNat (pkSpace e.packet.bits) e.status e.result 0 0 else s
  match pkKind e.packet.bits with
  | 1 => (fin (s.creditBarrier e), none)
  | 2 => match s.creditTokens e with
    | (s, true) => (fin s, none)
    | (s, false) => (s, some { e with stage := 2 })
  | _ => (fin s, none)
/-- Take the end of a packet as far as it goes: the record is complete before the credit is made (R399). -/
def endStep (s : State) (e : GuestEnd) : State × Option GuestEnd :=
  match e.stage with
  | 0 => match s.writeCompletion e with
    | (s, .done _) => s.endCredit e
    | (s, .sent) => (s, some { e with stage := 1 })
    | (s, _) => (s, some e)
  | 1 =>
    if s.fab.txns.any fun x => match x.use_ with | .packet _ _ n _ => n == e.id | _ => false then (s, some e)
    else s.endCredit e
  | _ => s.endCredit e
/-- The end of a packet as the port first sees it. -/
def endOf (s : State) (q : BitVec 3) (p : GuestPacket) (status : BitVec 8) (result : Dbl) (logIt : Bool) : GuestEnd :=
  { id := s.tick, queue := q, packet := p, status := status, result := result, logIt := logIt }
/-- End a packet (R399): what must wait goes on in the background. -/
def endPacket (s : State) (q : BitVec 3) (p : GuestPacket) (status : BitVec 8) (result : Dbl) (logIt : Bool) : State :=
  match ({ s with tick := s.tick + 1 } : State).endStep (s.endOf q p status result logIt) with
  | (s, none) => s
  | (s, some e) => { s with moor := { s.moor with ends := s.moor.ends ++ [e] } }
/-- Go on with the end of a packet that had to wait. -/
def endOn (id : Nat) (s : State) : State :=
  match s.moor.ends.find? (·.id == id) with
  | none => s
  | some e =>
    match s.endStep e with
    | (s, none) => { s with moor := { s.moor with ends := s.moor.ends.filter (·.id != id) } }
    | (s, some e') => { s with moor := { s.moor with ends := s.moor.ends.map fun x => if x.id == id then e' else x } }
/-- Take the earliest packet that the guest holds at an index away from it. -/
def takeHeld (s : State) (q : BitVec 3) (idx : BitVec 8) : Option (GuestPacket × State) :=
  let g := s.gqueue q.toNat
  (g.held.find? (·.1 == idx.toNat)).map fun (k, p) => (p, s.setGqueue q.toNat { g with held := g.held.erase (k, p) })

/-! Pre-emption and fencing (R401, R402). -/

/-- The device completes every packet of a queue for a fenced guest, in order (R402): the ends of R399 begin at once. -/
def fenceQueue (s : State) (q : BitVec 3) : State :=
  let g := s.gqueue q.toNat
  let queued := (List.range (mqCount g)).map fun i => tget {} g.packets ((g.head.toNat + i) % 256)
  let all := g.held.map Prod.snd ++ queued
  let g1 : GuestQueue := { g with ctl := (g.ctl &&& ~~~1#64) ||| 0x100, held := [], packets := [], head := g.tail }
  all.foldl (fun (s : State) p =>
    let e := s.endOf q p 0x90 0 false
    { s with tick := s.tick + 1, moor := { s.moor with ends := s.moor.ends ++ [e] } }) (s.setGqueue q.toNat g1)
/-- Fence the guest (R402): it leaves every home's directory, its lines are lost, and its packets complete with GUEST_FENCED. -/
def fenceGuest (s : State) : State :=
  if s.moor.fenced then s
  else
    let s : State := { s with moor := { s.moor with fenced := true } }
    let listed := s.homes.lineDir.filter fun (_, cs) => cs.contains State.guestCore
    let s := (listed.foldl (fun s (l, cs) => s.setDir l (cs.filter (· != State.guestCore))) s).setCore State.guestCore {}
    let s := (List.range 8).foldl (fun s n => s.fenceQueue (BitVec.ofNat 3 n)) s
    s.log 0 7 0 0 0x90 0 0 0
/-- Ask for pre-emption of a space's guest work (R401). -/
def guestPreempt (s : State) (sp : BitVec 6) : State :=
  let m := s.moor
  let r : GuestPre := ⟨sp, s.cycle, false, false, m.saveBase, m.saveLen⟩
  let m1 : Mooring := { m with
    pre := r :: m.pre.filter fun (x : GuestPre) => x.space != sp,
    statSpace := sp, statStopped := false, statSaved := false, statLate := false }
  (({ s with moor := m1 } : State).later 2801 (.guestPreemptLate sp)).later 28001 (.guestPreemptLate sp)
/-- The guest writes a space's in-flight state, which is its own affair and so free, into the save area: physical memory of this
device (R394, R401). Bytes where there is none are refused and logged. -/
def guestSave (s : State) (base len : Nat) : State :=
  if len == 0 then s
  else
    let lines := (List.range ((base + len - 1) / 128 - base / 128 + 1)).map fun i => base / 128 + i
    lines.foldl (fun s l =>
      let lo := max base (128 * l)
      let hi := min (base + len) (128 * l + 128)
      let (d, s) := (List.range 16).foldl (fun ((d, s) : BitVec 1024 × State) i =>
        let (v, s) := s.free
        (d ||| (v.setWidth 1024 <<< (64 * i)), s)) (0, s)
      let (s, ok) := s.lineReady l true 0
      let bad := fun (s : State) (e : BitVec 8) => s.guestRefused 0 0 e (BitVec.ofNat 64 lo)
      if !ok then s
      else if !s.ownDevice (128 * l) || !s.backed (localOf (128 * l)) then bad s 0x2D
      else match ((s.recallTo l .s).invalidateOthers l none).homeWrite 0 0 l (byteMask (lo % 128) (hi - lo)) d with
        | .ok t => t
        | .error e => bad s e) s
/-- A message about a space that came too late: the guest is fenced (R401, R402). -/
def guestLate (s : State) (sp : BitVec 6) : State :=
  ({ s with moor := { s.moor with statLate := s.moor.statLate || s.moor.statSpace == sp } } : State).fenceGuest
/-- The guest may take packets of the space again. -/
def guestResume (s : State) (sp : BitVec 6) : State :=
  { s with moor := { s.moor with pre := s.moor.pre.filter fun (x : GuestPre) => x.space != sp } }

end State

/-! The words. -/

/-- `mqpush` (R397): a release at device scope at the least; it stalls for at most 4,096 cycles while the queue is full. -/
def execMqpush (p : Pred) (v : BitVec 6) (q : BitVec 3) (s : State) : Host.Outcome State Fault Refusal :=
  s.perform p fun s =>
    let n : Dbl := q.setWidth 64
    let g := s.gqueue q.toNat
    let lanes : BitVec 512 := (s.rv v).extractLsb' 0 512
    if s.moor.fenced then s.trap 0x90 n
    else if !State.mqEn g then s.trap 0x93 n 1
    else if !State.mqBound g s.cx.id.space then s.trap 0x93 n 2
    else match s.packetFault q lanes with
      | some f => s.takeTrap f
      | none =>
        if !s.settled 2 then s.stall
        else if 256 ≤ State.mqCount g then
          match s.cx.push with
          | some (_, true) => s.trap 0x93 n 3
          | some (_, false) => s.stall
          | none =>
            let s1 : State := { s with cx := { s.cx with push := some (s.cycle, false) } }
            (s1.later 4096 (.mqpushFullTimeout s.here)).stall
        else
          let g1 : GuestQueue := { g with
            packets := tset g.packets (g.tail.toNat % 256) ⟨s.packetOf lanes, s.packetOwner⟩, tail := g.tail + 1 }
          let s1 : State := { s with cx := { s.cx with push := none } }
          s1.setGqueue q.toNat g1
/-- `mqstat` (R397). -/
def execMqstat (p : Pred) (d : BitVec 5) (q : BitVec 3) (s : State) : Host.Outcome State Fault Refusal :=
  s.perform p fun s =>
    let g := s.gqueue q.toNat
    let bit := fun (b : Bool) (n : Nat) => if b then 2 ^ n else 0
    let w := g.tail.toNat % 256 + 2 ^ 8 * (g.head.toNat % 256) + 2 ^ 16 * (256 - State.mqCount g)
      + bit (State.mqBound g s.cx.id.space) 40 + bit (State.mqEn g) 41 + bit s.moor.fenced 42
    s.flightBound [.x d] [.x d (BitVec.ofNat 64 w)]

/-! The events. -/

/-- MQPUSH_FULL_TIMEOUT (R397). -/
def execMqpushFullTimeout (c : Nat) (s : State) : Host.Outcome State Fault Refusal :=
  let x := s.ctx c
  .next (match x.push with
    | some (t, _) => if 4096 ≤ s.cycle - t then s.setCtx c { x with push := some (t, true) } else s
    | none => s)
/-- GUEST_TAKE_PACKET (R395, R401): the guest takes the packet at the head, unless its space is being pre-empted. It may hold several
packets of one index: a message ends the earliest of them (DESIGN CHOICE, log 33). -/
def execGuestTakePacket (q : BitVec 3) (s : State) : Host.Outcome State Fault Refusal :=
  let g := s.gqueue q.toNat
  let k := g.head.toNat % 256
  let p := tget {} g.packets k
  .next (if s.moor.fenced || State.mqCount g == 0 || s.moor.pre.any (fun (x : GuestPre) => x.space == pkSpace p.bits) then s
    else s.setGqueue q.toNat { g with head := g.head + 1, packets := tdel g.packets k, held := g.held ++ [(k, p)] })
/-- GUEST_COHERENT_REQUEST (R394, R398): checked, translated, and performed in the guest's cache under MESI. A request for a locked
line, or for a page that another device's grant blocks, waits for that (R258, R378); the alias detector may refuse it (R348). -/
def execGuestCoherentRequest (q : BitVec 3) (idx : BitVec 8) (space : BitVec 6) (va : Dbl) (write : Bool)
    (data : BitVec 1024) (mask : BitVec 128) (s : State) : Host.Outcome State Fault Refusal :=
  let g := s.gqueue q.toNat
  .next (if s.moor.fenced then s
    else if !g.held.any fun (k, p) => k == idx.toNat && pkSpace p.bits == space then s.guestRefused q space 0x92 va
    else match s.guestXlat space va (if write then .write else .read) with
      | (s, .error f) => s.guestRefused q space f.cause va
      | (s, .ok t) =>
        let l := t.gpa / 128
        let k : State.PageKind := ⟨space, 0, true⟩
        let held := if write then (s.ownedLine State.guestCore l).isSome else (s.lineOf State.guestCore l).isSome
        let again := Instr.guestCoherentRequest q idx space va write data mask
        if s.guestExcluded t then
          s.guestRefused q space (if windowOf (localOf t.gpa) == .control then 0x2D else 0x92) va
        else if s.lineLocked l then s.later 16 again
        else if s.grantBlocks (l / 512) write && !held then (s.revokeFor (l / 512) write space).later 16 again
        else if s.aliased (l / 512) true then (s.logAlias t.gpa space).guestRefused q space 0x25 va
        else if write then
          match ((s.recallTo l .s).invalidateOthers l (some State.guestCore)).fillLine State.guestCore k l with
          | (s, .error e) => s.guestRefused q space e va
          | (s, .ok ln) =>
            (s.putLine State.guestCore { ln with data := mergeLine mask ln.data data, mesi := .m }).setDir l [State.guestCore]
        else match s.fillLine State.guestCore k l with
          | (s, .error e) => s.guestRefused q space e va
          | (s, .ok _) => s)
/-- GUEST_COMPLETION (R399). -/
def execGuestCompletion (q : BitVec 3) (idx : BitVec 8) (result : Dbl) (s : State) : Host.Outcome State Fault Refusal :=
  .next (if s.moor.fenced then s
    else match s.takeHeld q idx with
      | none => s
      | some (p, s) => s.endPacket q p 0 result false)
/-- GUEST_FAULT (R399). -/
def execGuestFault (q : BitVec 3) (idx : BitVec 8) (translation : Bool) (detail : Dbl) (s : State) :
    Host.Outcome State Fault Refusal :=
  .next (if s.moor.fenced then s
    else match s.takeHeld q idx with
      | none => s
      | some (p, s) => s.endPacket q p (if translation then 0x92 else 0x91) detail true)
/-- MGPRE_REQUEST (R401). -/
def execMgpreRequest (space : BitVec 6) (s : State) : Host.Outcome State Fault Refusal := .next (s.guestPreempt space)
/-- MGPRE_RESUME (R401). -/
def execMgpreResume (space : BitVec 6) (s : State) : Host.Outcome State Fault Refusal := .next (s.guestResume space)
/-- GUEST_STOPPED (R401): by 2,800 cycles after the request. -/
def execGuestStopped (space : BitVec 6) (s : State) : Host.Outcome State Fault Refusal :=
  let m := s.moor
  let mark := fun (x : GuestPre) => if x.space == space then ({ x with stopped := true } : GuestPre) else x
  .next (if m.fenced then s
    else if m.pre.any fun (x : GuestPre) => x.space == space && !x.stopped && x.at_ + 2800 < s.cycle then s.guestLate space
    else { s with moor := { m with pre := m.pre.map mark, statStopped := m.statStopped || m.statSpace == space } })
/-- GUEST_SAVED (R401): by 28,000 cycles after the request, with the space's state in the save area. -/
def execGuestSaved (space : BitVec 6) (s : State) : Host.Outcome State Fault Refusal :=
  let m := s.moor
  let mark := fun (x : GuestPre) => if x.space == space then ({ x with saved := true } : GuestPre) else x
  let mine := m.pre.find? fun (x : GuestPre) => x.space == space && !x.saved
  .next (if m.fenced then s
    else if mine.any fun x => x.at_ + 28000 < s.cycle then s.guestLate space
    else
      let s1 : State := { s with moor := { m with pre := m.pre.map mark, statSaved := m.statSaved || m.statSpace == space } }
      match mine with
      | some x => s1.guestSave x.base.toNat x.len.toNat
      | none => s1)
/-- GUEST_PREEMPT_LATE (R401, R402): STOPPED after 2 µs or SAVED after 20 µs fences the guest. -/
def execGuestPreemptLate (space : BitVec 6) (s : State) : Host.Outcome State Fault Refusal :=
  .next (match s.moor.pre.find? fun (x : GuestPre) => x.space == space with
    | none => s
    | some x =>
      let t := s.cycle - x.at_
      if (2800 < t && !x.stopped) || (28000 < t && !x.saved) then s.guestLate space else s)
/-- GUEST_POWER_OVERRUN (R437): the guest is fenced. -/
def execGuestPowerOverrun (s : State) : Host.Outcome State Fault Refusal := .next s.fenceGuest
/-- GUEST_LINK_FAILURE (R393, R402): a module is left out; a link that cannot be retrained fences the guest. -/
def execGuestLinkFailure (module : BitVec 3) (dead : Bool) (s : State) : Host.Outcome State Fault Refusal :=
  let left := s.moor.modules &&& ~~~(1#8 <<< module.toNat)
  let s1 : State := { s with moor := { s.moor with modules := left } }
  .next (if dead || left == 0 then s1.fenceGuest else s1)

end Sys2Proof.Machine
end

