-- ==== Sys2Proof/Machine/Txn.lean ====
section
/-! DEFINITION. What operations in flight and transactions come to: lanes of loads and atomics (R247, R252 to R256, R332),
failing stores (R375, R457), `mcas` (R258, R380, R381), the uses of a completion, and the loss of a device (R387 to R389). -/

namespace Sys2Proof.Machine
namespace State

/-! Lanes of loads and atomics. -/

/-- The writes of one lane's value. -/
def laneWrites (f : Flight) (op : MemOp) (i v : Nat) : List Write :=
  let d := extendTo64 op.sext op.size v
  f.dests.filterMap fun r => match r with
    | .x r => some (.x r d)
    | .v r => some (.v r (1#64 <<< i) (BitVec.ofNat 2048 (d.toNat % 2 ^ 32 * 2 ^ (32 * i))))
    | _ => none
/-- The lane is over; the last one ends the operation: its results, or the failure of the lowest lane that failed (R252). -/
def laneOver (s : State) (id i : Nat) (r : Except FaultInfo Nat) : State :=
  match s.findFlight id with
  | some (h, f, x) =>
    match f.kind with
    | .mem lanes op =>
      let op1 : MemOp := match r with
        | .ok _ => op
        | .error e => match op.fail with
          | some (j, _) => if i < j then { op with fail := some (i, e) } else op
          | none => { op with fail := some (i, e) }
      let res := match r with | .ok v => f.result ++ laneWrites f op i v | .error _ => f.result
      let left := lanes.filter fun (l : Lane) => l.i != i
      let f1 : Flight := { f with kind := .mem left op1, result := res }
      if left.isEmpty then
        match op1.fail with
        | some (_, e) => s.endFlight id (.error e)
        | none => s.endFlight id (.ok res)
      else s.putHolder h { x with flights := x.flights.map fun (g : Flight) => if g.id == id then f1 else g }
    | _ => s
  | none => s
/-- Change a lane that stays. -/
def mapLane (s : State) (id i : Nat) (f : Lane → Lane) : State :=
  match s.findFlight id with
  | some (h, g, x) =>
    match g.kind with
    | .mem lanes op =>
      let g1 : Flight := { g with kind := .mem (lanes.map fun (l : Lane) => if l.i == i then f l else l) op }
      s.putHolder h { x with flights := x.flights.map fun (y : Flight) => if y.id == id then g1 else y }
    | _ => s
  | none => s
/-- The detail of a failing lane (R252, R332): TINFO0 the lane of a vector word, TINFO1 the address. -/
def laneFault (s : State) (f : Flight) (l : Lane) (op : MemOp) (cause : BitVec 8) : FaultInfo :=
  let vec := f.dests.any fun r => match r with | .v _ => true | _ => false
  let e := s.memFault cause l.va (if op.amo.isSome || op.cas then 3 else 0) 15 l.leaf
  { e with i0 := if vec then BitVec.ofNat 64 l.i else 0 }

/-! Stores that fail after issue (R375, R418, R457). -/

/-- A store has failed. -/
def storeFailed (s : State) (c access : Nat) (va : Dbl) (header : BitVec 56) (cause : BitVec 8) (sets : BitVec 5) (logIt : Bool)
    (lane : Nat := 0) : State :=
  s.writeFailed 1 c access va header cause sets logIt lane

/-- An access is still listed in some context. -/
def accessOpen (s : State) (id : Nat) : Bool :=
  let open_ := fun (x : Context) => x.opens.any fun (o : OpenAccess) => o.id == id
  open_ s.cx || s.others.any (fun (_, x) => open_ x)
    || s.clusters.any fun (_, c) => c.entries.any fun (_, e) => e.saved.any fun (y : Saved) => open_ y.cx
/-- The transaction writes data of an `rstf` access. -/
def flaggedFor (access : Nat) : TxnUse → Bool
  | .flagged _ a _ _ _ => a == access
  | .rmw _ _ _ _ _ (.flagged _ a _ _ _) => a == access
  | _ => false
/-- Keep an addition to a flag of this device that must wait at its home: the access it ends is in AUX, what its failure is
reported with in the data (log 15). -/
def holdFlag (s : State) (c access : Nat) (va : Dbl) (header : BitVec 56) (g : Flit) : State :=
  let h : Flit := { g with
    src := s.dev.devid, tag := 0, aux := BitVec.ofNat 64 access,
    data := BitVec.ofNat 2048 (va.toNat + 2 ^ 64 * header.toNat + 2 ^ 128 * c) }
  ({ s with homes := { s.homes with held := s.homes.held ++ [h] } } : State).wakeHeld
/-- Before a flag is raised on another device, its line leaves this device's caches: copies of a tracked line, and the issuing core's
untracked one, which is written back (R253). -/
def flagCopies (s : State) (c l : Nat) : State :=
  let s := (s.recallTo l .s).invalidateOthers l none
  match s.lineOf (c / 4) l with
  | some ln => if ln.tracked then s else (s.mergeOut (c / 4) ln).dropLine (c / 4) l
  | none => s
/-- The data of an `rstf` is written: the flag's home adds 1 (R376). -/
def raiseFlag (s : State) (c access : Nat) (va : Dbl) (header : BitVec 56) (flag : Option Flit) : State :=
  match flag with
  | none => s.closeAccess access
  | some g =>
    if s.ownDevice g.gpa.toNat then s.holdFlag c access va header g
    else if s.deviceLost g.dst then s.storeFailed c access va header 0x80 16 true
    else ((s.flagCopies c (g.gpa.toNat / 128)).send g (.store c access va header)).2

/-! `mcas` (R258, R380). -/

def mcasOf (s : State) (id : Nat) : Option McasOp := s.homes.mcas.find? fun (m : McasOp) => m.id == id
def setMcas (s : State) (m : McasOp) : State :=
  { s with homes := { s.homes with mcas := s.homes.mcas.map fun (n : McasOp) => if n.id == m.id then m else n } }
/-- Release every local lock of an operation. -/
def unlockOp (s : State) (peer : Option (BitVec 8 × BitVec 12)) (op : Nat) : State :=
  ({ s with homes := { s.homes with locks := s.homes.locks.filter fun (k : Lock) => !(k.op == op && k.peer == peer) } } : State).wakeHeld
/-- Entries in ascending physical address. -/
def mcasOrder (m : McasOp) : List Nat :=
  ((List.range m.entries.length).mergeSort fun a b =>
    let ga := ((m.entries[a]?).map McasEntry.gpa).getD 0
    let gb := ((m.entries[b]?).map McasEntry.gpa).getD 0
    ga < gb || (ga == gb && a ≤ b))
/-- Read a location of an `mcas` at this device: its value, or a cause. Copies are recalled as for an atomic (R253). -/
def mcasRead (s : State) (core : Option Nat) (sp : BitVec 6) (e : McasEntry) : State × Except (BitVec 8) Nat :=
  match windowOf (localOf e.gpa) with
  | .control | .hole => (s, .error 0x2D)
  | .silt => (s, s.siltGet sp e.key e.gpa e.size)
  | _ =>
    let s := s.atomicRecall core ⟨sp, e.key, e.tracked⟩ (e.gpa / 128)
    s.homeBytes sp e.key e.gpa e.size
/-- Write a location of an `mcas` at this device. -/
def mcasWrite (s : State) (sp : BitVec 6) (key : BitVec 8) (gpa size : Nat) (new : Nat) : State × Option (BitVec 8) :=
  match windowOf (localOf gpa) with
  | .control | .hole => (s, some 0x2D)
  | .silt => match s.siltSet sp key gpa size new with
    | .ok s => (s, none)
    | .error (e, s) => (s, some e)
  | _ => match s.homeWrite sp key (gpa / 128) (byteMask (gpa % 128) size) (lineValue (gpa % 128) (new % 2 ^ (8 * size))) with
    | .ok s => (s, none)
    | .error e => (s, some e)
/-- An entry's home could not read it: the error is logged there (R380 step 1). -/
def mcasLog (s : State) (gpa : Nat) (sp : BitVec 6) (cause : BitVec 8) : State :=
  let ch := s.channelOf (localOf gpa)
  s.log (ch / 64) 1 ch sp cause (BitVec.ofNat 64 gpa) 0 0
/-- Note the failure of an entry: the lowest index stays (R258 step 4). -/
def mcasFail (m : McasOp) (i : Nat) (cause : BitVec 8) : McasOp :=
  let va := ((m.entries[i]?).map McasEntry.va).getD 0
  let f : FaultInfo := ⟨cause, BitVec.ofNat 64 i, va, if memoryCause cause then 0xF30 else 0, 0⟩
  match m.failure with
  | some (j, _) => if i < j then { m with failure := some (i, f) } else m
  | none => { m with failure := some (i, f) }
/-- The `mcas` is over: xd has the mismatch mask, or is deferred. -/
def mcasEnd (s : State) (m : McasOp) : State :=
  let s : State := { s with homes := { s.homes with mcas := s.homes.mcas.filter fun (n : McasOp) => n.id != m.id } }
  let mask : Dbl := if m.lost then m.mismatch ||| (1#64 <<< 63) else m.mismatch
  match m.failure with
  | some (_, f) => s.endFlight m.flight (.error f)
  | none =>
    match s.findFlight m.flight with
    | some (_, f, _) => s.endFlight m.flight (.ok (f.dests.filterMap fun r => match r with | .x d => some (.x d mask) | _ => none))
    | none => s
/-- An entry that Silt has no room for is logged, though nothing of the `mcas` is written (R418). -/
def mcasFull (s : State) (m : McasOp) (i : Nat) : State :=
  match (m.entries[i]?).bind fun e => s.siltRegion (localOf e.gpa - 0x2000000000000) with
  | some (r, blk) => s.siltFull r blk
  | none => s
/-- Write every local entry, or none of them if one cannot be written. -/
def mcasWriteAll (s : State) (m : McasOp) : State × Option (Nat × BitVec 8) :=
  let go := (List.range m.entries.length).foldl (fun (st : State × Option (Nat × BitVec 8)) i =>
    match st, m.entries[i]? with
    | (s, none), some e =>
      if s.ownDevice e.gpa then
        match s.mcasWrite m.space e.key e.gpa e.size e.new.toNat with
        | (s, none) => (s, none)
        | (s, some c) => (s, some (i, c))
      else (s, none)
    | r, _ => r) (s, none)
  match go with
  | (s1, none) => (s1, none)
  | (_, some (i, c)) => (if c == 0xB2 then s.mcasFull m i else s, some (i, c))
/-- The commit message of an entry (payload: log 15). -/
def commitFlit (s : State) (m : McasOp) (e : McasEntry) (w : Bool) : Flit :=
  let f0 : Flit := s.flitTo 0x0E true e.gpa
  { f0 with space := m.space, key := e.key.setWidth 4, aux := e.new,
            inl := BitVec.ofNat 256 ((if w then 1 else 0) + 2 ^ 64 * m.id + 2 ^ 192 * e.size) }
/-- The decision (R380 steps 2 to 4): local entries are written and unlocked, MCOMMIT goes to every home that got an MLOCK and has
not been declared dead. -/
def mcasDecide (s : State) (m : McasOp) : State :=
  let want := m.failure.isNone && m.mismatch == 0
  let (s, bad) := if want then s.mcasWriteAll m else (s, none)
  let m := match bad with | some (i, c) => mcasFail m i c | none => m
  let w := want && bad.isNone
  let s := s.unlockOp none m.id
  let asked := fun (i : Nat) => m.locked.contains i || s.fab.txns.any fun x => x.use_ == .mlock m.id i
  let remote := (List.range m.entries.length).filter fun i =>
    match m.entries[i]? with | some e => !s.ownDevice e.gpa && !s.deviceLost (devOf e.gpa) && asked i | none => false
  let m1 : McasOp := { m with decided := some w, waiting := remote }
  let s := s.setMcas m1
  let s := remote.foldl (fun s i => match m.entries[i]? with
    | some e => (s.send (s.commitFlit m e w) (.mcommit m.id i)).2
    | none => s) s
  if remote.isEmpty then s.mcasEnd m1 else s
/-- Lock the next entry of an undecided `mcas`, local or remote (R258 steps 3 and 4, R380 step 1). -/
def mcasNext (s : State) (id : Nat) : Nat → State
  | 0 => s
  | fuel + 1 =>
    match s.mcasOf id with
    | none => s
    | some m =>
      if m.decided.isSome then s
      else match (mcasOrder m).find? fun i => !m.locked.contains i with
        | none => s.mcasDecide m
        | some i =>
          match m.entries[i]? with
          | none => s
          | some e =>
            let first := fun (s : State) (m : McasOp) =>
              if m.locked.isEmpty then ((s.later 2800 (.mcasLockTimeout id)), ({ m with started := s.cycle } : McasOp)) else (s, m)
            let again := fun (s : State) => s.later 16 (.interlockedCompletion m.ctx m.flight)
            if s.ownDevice e.gpa then
              let l := e.gpa / 128
              if s.homes.locks.any fun (k : Lock) => k.line == l && !(k.op == id && k.peer.isNone) then again s
              else if s.grantBlocks (l / 512) true then again (s.revokeFor (l / 512) true m.space)
              else
                let (s, m) := first s m
                let lock : Lock := ⟨l, m.space, none, id, [], []⟩
                let have_ := s.homes.locks.any fun (k : Lock) => k.line == l
                let s : State := { s with homes := { s.homes with locks := if have_ then s.homes.locks else s.homes.locks ++ [lock] } }
                let (s, r) := s.mcasRead (some (m.ctx / 4)) m.space e
                let m : McasOp := { m with locked := m.locked ++ [i] }
                let (s, m) := match r with
                  | .ok v => (s, if v == e.expected.toNat % 2 ^ (8 * e.size) then m else ({ m with mismatch := m.mismatch ||| (1#64 <<< i) } : McasOp))
                  | .error c => (s.mcasLog e.gpa m.space c, mcasFail m i c)
                (s.setMcas m).mcasNext id fuel
            else if s.fab.txns.any fun x => x.use_ == .mlock id i then s
            else
              -- the issuing core's own untracked copy is written back and dropped (R253)
              let own := if e.tracked then none else s.lineOf (m.ctx / 4) (e.gpa / 128)
              let s := match own with | some ln => (s.mergeOut (m.ctx / 4) ln).dropLine (m.ctx / 4) ln.line | none => s
              let homes := ((m.entries.map fun (e : McasEntry) => devOf e.gpa).eraseDups).take 8
              let packed := homes.foldr (fun (d : BitVec 8) n => d.toNat + 256 * n) 0
              let f0 : Flit := s.flitTo 0x0C true e.gpa
              let f : Flit := { f0 with
                space := m.space, key := e.key.setWidth 4, aux := e.expected,
                inl := BitVec.ofNat 256 (packed + 2 ^ 64 * id + 2 ^ 128 * e.new.toNat + 2 ^ 192 * e.size + 2 ^ 200 * homes.length) }
              ((s.setMcas m).send f (.mlock id i)).2
/-- An MLOCK is answered: the comparison, a cause, or the loss of its home before the commit point (R380, R381). The time of
a first lock at another device is taken as that of its answer (log 20). -/
def mlockDone (s : State) (op i : Nat) (status : BitVec 8) (v : Nat) : State :=
  match s.mcasOf op with
  | none => s
  | some m =>
    if m.decided.isSome then s
    else
      let held := status != 0x80 && status != 0x81 && m.locked.isEmpty
      let s := if held then s.later 2800 (.mcasLockTimeout op) else s
      let m1 : McasOp := { m with locked := m.locked ++ [i], started := if held then s.cycle else m.started }
      let m2 := if status != 0 then mcasFail m1 i status
        else if v % 2 == 1 then ({ m1 with mismatch := m1.mismatch ||| (1#64 <<< i) } : McasOp) else m1
      if status == 0x80 || status == 0x81 then (s.setMcas m2).mcasDecide m2 else (s.setMcas m2).mcasNext op 9
/-- An MCOMMIT is answered, or its home is lost after the commit point (R381). A time-out defers xd (R375). -/
def mcommitDone (s : State) (op i : Nat) (status : BitVec 8) : State :=
  match s.mcasOf op with
  | none => s
  | some m =>
    let m1 : McasOp := { m with waiting := m.waiting.filter (· != i) }
    let lost := status == 0x80 && m.failure.isNone
    let va := ((m.entries[i]?).map McasEntry.va).getD 0
    let s := if lost then s.logCtx m.ctx status va 0 else s
    let m2 : McasOp := { m1 with lost := m1.lost || lost }
    let m3 := if status != 0 && status != 0x80 then mcasFail m2 i status else m2
    let s := s.setMcas m3
    if m3.waiting.isEmpty then s.mcasEnd m3 else s
/-- A home is lost before the commit point: nothing is written, every lock is released, xd is deferred with PEER_DEAD (R381). -/
def mcasLost (s : State) (d : BitVec 8) : State :=
  s.homes.mcas.foldl (fun s (m : McasOp) =>
    match s.mcasOf m.id, (List.range m.entries.length).find? fun i => (m.entries[i]?).any fun e => devOf e.gpa == d with
    | some n, some i =>
      if n.decided.isSome then s
      else
        let n1 : McasOp := mcasFail { n with failure := none } i 0x80
        (s.setMcas n1).mcasDecide n1
    | _, _ => s) s
/-- Apply a decision to a lock that a peer's `mcas` holds here, and release it. -/
def applyLock (s : State) (k : Lock) (w : Bool) : State :=
  let s : State := { s with homes := { s.homes with locks := s.homes.locks.filter (· != k) } }
  let s := if w then k.news.foldl (fun s (gpa, size, d) =>
      (s.mcasWrite k.space (BitVec.ofNat 8 (size / 256)) gpa (size % 256) d.toNat).1) s else s
  s.wakeHeld

/-! Page grants (R378). -/

/-- The next request that waits for a page is begun; a locked line of the page makes the requests wait for the unlock (R379). -/
def grantNext (s : State) (page : Nat) : State :=
  let g := s.grantOf page
  match g.waiting with
  | [] => s
  | h :: r =>
    if g.pendingReq.isSome then s
    else if s.pageLocked page then
      let s := s.setGrant page { g with waiting := [] }
      { s with homes := { s.homes with held := s.homes.held ++ h :: r } }
    else (s.setGrant page { g with waiting := r }).startRevoke page h
/-- The revoke that a page's request waited for is over: the request is granted, and the next one is begun. -/
def grantReady (s : State) (page : Nat) : State :=
  let g := s.grantOf page
  match g.pendingReq with
  | none => s
  | some f =>
    if !g.awaiting.isEmpty then s
    else
      let s := s.afterRevoke page f
      ((if f.type == 0x08 then s.reply f 0 0 else s).grantNext page).wakeHeld
/-- Serve as many requests of a page as need no acknowledgement. -/
def grantRun (s : State) (page : Nat) : Nat → State
  | 0 => s
  | n + 1 =>
    let g := s.grantOf page
    if g.pendingReq.isSome && g.awaiting.isEmpty then (s.grantReady page).grantRun page n else s
/-- A revoke is acknowledged, or its holder is lost (R378, R379). -/
def grantAck (s : State) (page : Nat) (d : BitVec 8) : State :=
  let g := s.grantOf page
  if g.awaiting.contains d then (s.setGrant page { g with awaiting := g.awaiting.filter (· != d) }).grantRun page 64 else s

/-! Uses of a completion. -/

/-- A line of another device has arrived, or could not be had (R374, R384). A tracked line that its grant has left behind is dropped;
where a core of this device has a copy, that is newer: the requester keeps its own or shares the other's (R239, R240). A line that no
way is free for is dropped too, and asked for again. -/
def lineArrived (s : State) (core l : Nat) (sp : BitVec 6) (key : BitVec 8) (tracked : Bool) (status : BitVec 8) (f : Flit) :
    State :=
  let fail := fun (s : State) (e : BitVec 8) =>
    let c := s.core core
    s.setCore core { c with failedFills := (l, e) :: c.failedFills.filter (·.1 != l) }
  if status != 0 then fail s status
  else match s.ingress sp key l f with
    | (s, .error e) => fail s e
    | (s, .ok d) =>
      if s.roomHeld core l then s
      else if tracked then
        if !s.holdsGrant (l / 512) false || (s.lineOf core l).isSome then s
        else match s.otherCopy core l with
          | some ln => s.shareLine core ln
          | none =>
            let others := (s.dirCores l).filter (· != core)
            let own := others.isEmpty && s.holdsGrant (l / 512) true
            let ln : Line := ⟨l, true, if own then .e else .s, BitVec.allOnes 128, 0, d, sp, key⟩
            ((s.makeRoom core l).putLine core ln).setDir l (core :: others)
      else
        let old := s.lineOf core l
        let ln : Line := match old with
          | some o => { o with data := mergeLine o.dirty d o.data, valid := BitVec.allOnes 128 }
          | none => ⟨l, false, .i, BitVec.allOnes 128, 0, d, sp, key⟩
        (s.makeRoom core l).putLine core ln
/-- A partial write's locked line has arrived: it is merged and goes out whole, and that unlocks it (R384); a mask of 0 only
unlocks. The merge is in flight under the T value that it started with (R348). -/
def rmwArrived (s : State) (sp : BitVec 6) (key : BitVec 8) (l : Nat) (mask : BitVec 128) (d : BitVec 1024) (u : TxnUse) (f : Flit)
    (tracked : Option Bool) : State × Option (BitVec 8) :=
  let g0 : Flit := s.flitTo 0x04 true (128 * l)
  let g : Flit := { g0 with space := sp, key := key.setWidth 4, len := 2, inl := BitVec.ofNat 256 (2 ^ 128) }
  match s.ingress sp key l f, s.keySlot sp key with
  | (s, .ok p), some ks =>
    let c := xtsEncrypt ks.k1 ks.k2 (128 * l) (mergeLine mask p d)
    let (n, s) := s.send { g with
      aux := lineTag ks.km (128 * l) c, data := c.setWidth 2048, inl := BitVec.ofNat 256 (2 ^ 129 - 1) } u
    ({ s with fab := { s.fab with txns := s.fab.txns.map fun (x : Txn) => if x.id == n then { x with tracked := tracked } else x } }, none)
  | (s, .error e), _ => ((s.send g .plain).2, some e)
  | (s, .ok _), none => ((s.send g .plain).2, some 0x28)
/-- The failure of a tile request that its home answered, or whose home could not be reached (R212, R374, R459). -/
def tileFailure (s : State) (r : TileReq) (dst : BitVec 8) (status : BitVec 8) (i1 i2 : Dbl) : FaultInfo :=
  if status == 0x81 || (status == 0x80 && s.deviceLost dst) then
    match s.tensor r.cluster r.tile.space r.tile.tensor with
    | (s, .ok (some tn)) => { s.homeLost tn r.tile with cause := status }
    | _ => { cause := status }
  else { cause := status, i1 := i1, i2 := i2 }
/-- A holder answered absent: the home forgets it and resolves the request again (R193). -/
def holderAbsent (s : State) (r : TileReq) (key h : Nat) : State :=
  match s.tileAway r.cluster r.tile with
  | (s, .error f) => s.failSlot r.cluster key f
  | (s, .ok (none, _)) => (s.dropHolder r.tile h).later 0 (.homeTileRequest r)
  | (s, .ok (some g, tn)) =>
    let (w, n) := wantCode r.want
    if s.deviceLost (devOf g) then s.failSlot r.cluster key (s.homeLost tn r.tile)
    else (s.send (s.treqFlit g r.tile 0 w n h) (.tile r)).2
/-- A part of a tile's contents has arrived: 256 bytes, and the scale field above the answer's fields. The last one lands the
tile; before it the next part is asked for (R358; payload: log 15). -/
def tilePartArrived (s : State) (r : TileReq) (key : Nat) (v : BitVec 32) (part : Nat) (f : Flit) : State :=
  let x := s.slot r.cluster key
  let m : Block := BitVec.ofNat 32768 ((2 ^ 2048 - 1) * 2 ^ (2048 * part))
  let d := (x.data &&& ~~~m) ||| (f.data.setWidth 32768 <<< (2048 * part))
  let sc := f.inl.extractLsb' 72 128
  if 15 ≤ part then s.landSlot r.cluster key v d sc
  else
    let s := s.setSlot r.cluster key { x with data := d, scale := sc }
    (s.send (s.treqTo f.src.toNat r.tile 4 (part + 1) v) (.tilePart r v (part + 1))).2
/-- The end of a request for a part: its data, or the holder has the version no more, or is lost (R193, R388). -/
def tilePartEnds (s : State) (r : TileReq) (v : BitVec 32) (part : Nat) (status : BitVec 8) (f : Flit) : State :=
  match s.fillingFor r with
  | none => s
  | some key =>
    if status == 0x80 then s.holderAbsent r key (1000 + f.src.toNat)
    else if status != 0 then s.failSlot r.cluster key (s.tileFailure r f.src status 0 0)
    else if f.inl.toNat % 256 == 0 then s.tilePartArrived r key v part f
    else s.holderAbsent r key (1000 + f.src.toNat)
/-- The answer to a tile request: contents, a version to fill, a holder, or a later notice (R193, R194; payload: log 15). -/
def tileAnswer (s : State) (r : TileReq) (status : BitVec 8) (f : Flit) : State :=
  match s.fillingFor r with
  | none => s
  | some key =>
    let v : BitVec 32 := BitVec.ofNat 32 (f.inl.toNat / 2 ^ 40)
    if status != 0 then
      let n : Dbl := match r.want with | .latest => f.aux | w => (wantCode w).2.setWidth 64
      s.failSlot r.cluster key (s.tileFailure r f.src status n f.aux)
    else match f.inl.toNat % 256 with
      | 0 => s.tilePartArrived r key v 0 f
      | 1 =>
        let (s, _) := s.arrivedAt r key v
        let x := s.slot r.cluster key
        (s.setSlot r.cluster key { x with version := v }).later 0 (.tileFill r.cluster key)
      | 2 =>
        let (s, r) := s.arrivedAt r key v
        let d := f.inl.toNat / 2 ^ 8 % 256
        if d == s.dev.devid.toNat then
          match (List.range 64).findSome? fun n => (s.localHit n r.tile (.exactly v)).map fun k => (n, k) with
          | some (n, _) => s.later 0 (.tileForward r n v)
          | none => s.holderAbsent r key (1000 + d)
        else s.later 0 (.tileForward r (1000 + d) v)
      | 3 => s.skipHints r.cluster key
      | 4 => s.holderAbsent r key (1000 + f.src.toNat)
      | 6 =>
        match s.slotAway r.cluster key .fill with
        | (s, .ok (_, tn)) => s.fillSlot r.cluster key tn
        | (s, .error e) => s.failSlot r.cluster key e
      | 7 => s.refill r.cluster key
      | _ =>
        let s := s.skipHints r.cluster key
        let b := (s.slot r.cluster key).backoff
        if (s.slot r.cluster key).users.isEmpty then s else s.later b (.awaitListRetry r (min 16384 (2 * b)))
/-- The answer to an `snew` at another device's home: the version, or the conflict. A grant that nothing waits for is given
back. -/
def snewAnswer (s : State) (r : TileReq) (status : BitVec 8) (f : Flit) : State :=
  match r.user with
  | .ctx c =>
    let x := s.ctx c
    let v : BitVec 32 := BitVec.ofNat 32 (f.inl.toNat / 2 ^ 40)
    let mine := match x.opening with | some o => o.tile == r.tile && o.granted.isNone | none => false
    if status != 0 then
      let (_, n) := wantCode r.want
      let i1 := if status == 0x42 then v else n
      if mine then s.setCtx c { x with opening := none, fault := some (s.tileFailure r f.src status (i1.setWidth 64) f.aux) } else s
    else if mine then s.grantOpen c v
    else s.later 0 (.abandonAtHome r.tile v)
  | _ => s
/-- A transaction has ended, by its completion or by a failure that this device found (R360): what it served goes on. -/
def finish (s : State) (x : Txn) (u : TxnUse) (status : BitVec 8) (f : Flit) : State :=
  let v := f.inl.toNat % 2 ^ 248
  match u with
  | .plain => s
  | .packet q sp _ va => if status == 0 then s else s.guestRefused q sp status va
  | .lane _ id i =>
    match s.findFlight id with
    | some (_, g, _) =>
      match g.kind with
      | .mem lanes op =>
        match lanes.find? fun (l : Lane) => l.i == i with
        | some l =>
          if status != 0 then s.laneOver id i (.error (s.laneFault g l op status))
          else if x.flit.type != 0x02 then s.laneOver id i (.ok (v % 2 ^ (8 * op.size)))
          else
            -- an encrypted line read whole for a `.b` load (R384)
            match s.ingress x.flit.space (x.flit.key.setWidth 8) (l.gpa / 128) f with
            | (s, .error e) => s.laneOver id i (.error (s.laneFault g l op e))
            | (s, .ok d) => s.laneOver id i (.ok (lineBytes d (l.gpa % 128) op.size))
        | none => s
      | _ => s
    | none => s
  | .store c access va header =>
    if status == 0 then s.closeAccess access else s.storeFailed c access va header status 16 true
  | .flagged c access va header flag =>
    if !s.accessOpen access then s
    else if status != 0 then s.storeFailed c access va header status 16 true
    else if s.fab.txns.any fun y => flaggedFor access y.use_ then s
    else s.raiseFlag c access va header flag
  | .lineFill core l sp key tracked => s.lineArrived core l sp key tracked status f
  | .merge core sp l => if status == 0 then s else s.mergeFailed core sp l status
  | .handed a core sp l => (if status == 0 then s else s.mergeFailed core sp l status).closeAccess a
  | .logged die => s.logWritten die
  | .engine l sp key =>
    let (s, r) := if status != 0 then (s, .error status) else s.ingress sp key l f
    let (e, d) : BitVec 8 × BitVec 1024 := match r with | .ok d => (0, d) | .error e => (e, 0)
    let rest := s.fab.away.filter fun (a : AwayLine) => !(a.line == l && a.space == sp && a.key == key)
    { s with fab := { s.fab with away := ⟨l, sp, key, e, d, s.cycle, false⟩ :: rest } }
  | .rmw sp key l mask d u2 =>
    let (s, e) : State × Option (BitVec 8) := if status == 0 then s.rmwArrived sp key l mask d u2 f x.tracked else (s, some status)
    match e with
    | none => s
    | some e => match u2 with
      | .store c access va header => s.storeFailed c access va header e 16 true
      | .flagged c access va header _ => s.storeFailed c access va header e 16 true
      | .merge core sp l => s.mergeFailed core sp l e
      | .handed a core sp l => (s.mergeFailed core sp l e).closeAccess a
      | .logged die => s.logWritten die
      | .copyWrite cl id k _ va => s.unitFailed cl id k e va
      | .tilePut cl slot _ => s.putEnded cl slot l e
      | .counter b => s.failInstance b 3
      | _ => s
  | .mlock op i => s.mlockDone op i status v
  | .mcommit op i => s.mcommitDone op i status
  | .mquery l =>
    match s.homes.locks.find? fun (k : Lock) => k.line == l && k.peer.isSome with
    | none => s
    | some k =>
      if status == 0 && v % 256 == 2 then s.applyLock k true
      else if status == 0 && v % 256 == 1 then s.applyLock k false
      else if s.fab.txns.any fun y => y.use_ == .mquery l then s
      else s.applyLock k false
  | .grant page core l =>
    if status == 0 then
      let g := s.grantOf page
      let s := s.setGrant page { g with state := if x.flit.inl.getLsbD 0 then .exclusive else .shared }
      if (s.lineOf core l).isSome || (s.otherCopy core l).isSome then s
      else s.askLine core ⟨x.flit.space, x.flit.key.setWidth 8, true⟩ l
    else
      let c := s.core core
      s.setCore core { c with failedFills := (l, status) :: c.failedFills.filter (·.1 != l) }
  | .tile r => if x.flit.inl.toNat % 256 == 1 then s.snewAnswer r status f else s.tileAnswer r status f
  | .tilePart r ver part => s.tilePartEnds r ver part status f
  | .tileWrite cl key => s.twbAnswer cl key (x.flit.inl.toNat % 256) status v
  | .tileLine cl key l =>
    if status != 0 then s.fillLineArrived cl key l (.error status)
    else
      let (s, r) := s.ingress x.flit.space (x.flit.key.setWidth 8) l f
      s.fillLineArrived cl key l r
  | .tilePut cl key _ => s.putEnded cl key (x.flit.gpa.toNat / 128) status
  | .cond b =>
    if status != 0 then s.failInstance b 3
    else if x.flit.type != 0x02 then s.mapNode b fun n => { n with cond := some (some (BitVec.ofNat 64 v)) }
    else
      let a := x.flit.gpa.toNat
      match s.ingress x.flit.space (x.flit.key.setWidth 8) (a / 128) f with
      | (s, .ok d) => s.mapNode b fun n => { n with cond := some (some (BitVec.ofNat 64 (lineBytes d (a % 128) 8))) }
      | (s, .error _) => s.failInstance b 3
  | .counter b =>
    if status != 0 then s.failInstance b 3
    else if x.flit.type != 0x03 then s.watchCounter b
    else (s.mapNode b fun n => { n with cond := some (some 0) }).later 0 (.launchNode b)
  | .graphDone die inst sp =>
    match (s.die die).instances.find? fun (i : Instance) => i.id == inst with
    | none => s
    | some i => (if status == 0 then s else s.log die 4 die sp status i.done 0 0).freeInstance die inst
  | .copyRead cl id l va =>
    if status == 0 then s.copyLine cl id l va (x.flit.key.setWidth 8) f else s.failCopy cl id status va
  | .copyWrite cl id k n va => if status == 0 then s.landCopy cl id k n else s.unitFailed cl id k status va
  | .publish t ver =>
    if status == 0 then s.closePublish t ver
    else
      let rep := s.mapContexts fun y =>
        match y.opens.find? fun (o : OpenAccess) => o.pub == some (t, ver) with
        | some o => { y with unreported := addFailure ⟨o.id, 4, ⟨status, 0, t.coord, 0, 0⟩⟩ y.unreported }
        | none => y
      rep.closePublish t ver
  | .token _ id =>
    let w := s.homes.tokens.find? fun t => t.id == id
    let op := x.flit.inl.toNat % 256
    let drop := fun (s : State) => ({ s with homes := { s.homes with tokens := s.homes.tokens.filter fun t => t.id != id } } : State)
    match w with
    | none => s
    | some w =>
      if op == 2 then
        -- a withdrawal: the take was cancelled, or its value is on the way (R320)
        if status == 0 && v % 2 == 1 then
          let mark := fun (t : TokenWait) => if t.id == id then ({ t with listed := true } : TokenWait) else t
          { s with homes := { s.homes with tokens := s.homes.tokens.map mark } }
        else drop s
      else if status == 0 then (drop s).tokenTaken w.user (v % 2 ^ 64)
      else if status == 0xFE then s
      else (drop s).tokenFailed w.user status
  | .node b => (s.mapNode b fun n => { n with count := if status == 0 then 1 else 2 }).wakeNode b
  | .count cl sp va id g => if status == 0 then s else s.countFailed cl sp va id g status

/-! The end of transactions (R360) and the loss of a device (R387 to R389). -/

/-- The keys that a transaction has kept, with those of the slot that it serves (R436). -/
def keysFor (s : State) (x : Txn) : List KeySlot :=
  x.keys ++ match x.use_ with
    | .tileLine c k _ | .tilePut c k _ | .tileWrite c k => (s.slot c k).keys
    | .tile r => match s.fillingFor r with | some k => (s.slot r.cluster k).keys | none => []
    | _ => []
/-- A transaction has ended: what it served goes on, with the keys of its time. -/
def endTxn (s : State) (x : Txn) (status : BitVec 8) (f : Flit) : State :=
  s.underKeys (s.keysFor x) fun s => s.finish x x.use_ status f
/-- Take a transaction off the list; its tag rests (R360). -/
def dropTxn (s : State) (x : Txn) : State :=
  let d := x.flit.dst.toNat
  let p := s.peer d
  let used := (x.flit.tag.toNat, x.lastSend) :: p.tagUsed.filter fun (t, at_) => t != x.flit.tag.toNat && s.cycle - at_ < 84000
  let s := s.setPeer d { p with tagUsed := if x.sends == 0 then p.tagUsed else used }
  { s with fab := { s.fab with txns := s.fab.txns.filter fun (y : Txn) => y.id != x.id } }
/-- End a transaction with a cause found here; one that timed out leaves its tag waiting for the completion (R360). -/
def failTxn (s : State) (x : Txn) (cause : BitVec 8) : State :=
  let f : Flit := s.completion { x.flit with src := x.flit.dst } cause 0 0 0 0
  let s := s.dropTxn x
  let p := s.peer x.flit.dst.toNat
  let s := if cause == 0x81 then s.setPeer x.flit.dst.toNat { p with tagLost := x.flit.tag.toNat :: p.tagLost } else s
  s.endTxn x cause { f with src := x.flit.dst }
/-- Every pending request toward a device ends with PEER_DEAD. -/
def failAll (s : State) (d : BitVec 8) : State :=
  (s.fab.txns.filter fun (x : Txn) => x.flit.dst == d).foldl (fun s x => s.failTxn x 0x80) s
/-- Waiting takes whose words are on a device fail. -/
def failTakes (s : State) (d : BitVec 8) : State :=
  let l := s.homes.tokens.filter fun t => devOf t.gpa == d
  let s : State := { s with homes := { s.homes with tokens := s.homes.tokens.filter fun t => devOf t.gpa != d } }
  l.foldl (fun s t => s.tokenFailed t.user 0x80) s
/-- A device lost as coordinator: its locks here follow a decision that a participant received, or are released (R381). -/
def sieveLock (s : State) (p : BitVec 8) (k : Lock) : State :=
  match s.homes.decisions.find? fun (d, op, _) => d == p && op == k.op with
  | some (_, _, w) => s.applyLock k w
  | none =>
    let ask := k.homes.filter fun d => d != s.dev.devid && d != p && !s.deviceLost d
    if ask.isEmpty then s.applyLock k false
    else ask.foldl (fun s d =>
      let f0 : Flit := s.flitTo 0x0F true (128 * k.line)
      let f : Flit := { f0 with dst := d, space := k.space, inl := BitVec.ofNat 256 (p.toNat + 2 ^ 64 * k.op) }
      (s.send f (.mquery k.line)).2) s
/-- Sieve removes a device from every directory (R388). -/
def sieve (s : State) (p : BitVec 8) : State :=
  let h := 1000 + p.toNat
  let ver := fun (e : VerEntry) =>
    let listed := e.owner == some h || e.holders.contains h
    ({ e with
      openV := match e.openV with | some (v, o) => if o == h then none else some (v, o) | none => none,
      owner := if e.owner == some h then none else e.owner,
      holders := e.holders.filter (· != h),
      lostPeer := e.lostPeer || (listed && (e.owner.isNone || e.owner == some h) && (e.holders.all (· == h))) } : VerEntry)
  let fromP := fun (r : TileReq) => match r.user with | .peer d => d == p.toNat | _ => false
  let tokP := fun (t : TokenWait) => match t.user with | .peer f => f.src == p | _ => false
  let s : State := { s with homes := { s.homes with
    versions := s.homes.versions.map fun (t, e) => (t, ver e),
    awaiting := s.homes.awaiting.filter fun (_, r) => !fromP r,
    tokens := s.homes.tokens.filter fun t => !tokP t,
    held := s.homes.held.filter fun f => f.src != p,
    incoming := s.homes.incoming.filter fun (i : TileIn) => i.src != p } }
  let unwatch := fun (d : Die) => ({ d with watches := d.watches.filter fun (w : Watch) => w.node.die / 4 != p.toNat + 1 } : Die)
  let s : State := { s with dies := s.dies.map fun (n, d) => (n, unwatch d) }
  let pages := s.homes.grants.map Prod.fst
  let s := pages.foldl (fun s page =>
    if s.ownDevice (65536 * page) then
      let g := s.grantOf page
      let st : GrantState := if g.state == .exclusive && g.holders.contains p then .none else g.state
      let hs := g.holders.filter (· != p)
      let gone := match g.pendingReq with | some f => f.src == p && f.type == 0x08 | none => false
      let g1 : Grant := { g with
        state := if hs.isEmpty && !g.bcast && g.holders.contains p then .none else st, holders := hs,
        waiting := g.waiting.filter fun f => f.src != p,
        pendingReq := if gone then none else g.pendingReq, awaiting := if gone then [] else g.awaiting }
      let s := s.setGrant page g1
      if gone then (s.grantNext page).grantRun page 64 else s.grantAck page p
    else if devOf (65536 * page) == p then s.setGrant page ⟨.none, [], false, none, [], []⟩
    else s) s
  let locks := s.homes.locks.filter fun (k : Lock) => match k.peer with | some (d, _) => d == p | none => false
  locks.foldl (fun s k => s.sieveLock p k) s
/-- Flood a death notice to the Lightvessel neighbours (R386). -/
def floodDeath (s : State) (dead reporter : BitVec 8) (epoch : BitVec 32) : State :=
  { s with fab := { s.fab with notices := s.fab.notices ++ [(dead, reporter, epoch)] } }
/-- The tile requests that a lost home had listed fail: their FILLING slots wait for it alone (R194, R387). -/
def failTiles (s : State) (d : BitVec 8) : State :=
  s.clusters.foldl (fun s (cl, c) => c.loam.foldl (fun s (key, x) =>
    if x.state != .filling || s.underway cl key then s
    else match s.tileAway cl x.tile with
      | (s, .ok (some g, tn)) => if devOf g == d then s.failSlot cl key (s.homeLost tn x.tile) else s
      | (s, _) => s) s) s
/-- Every link is fenced and every pending remote request ends (R387). -/
def fenceSelf (s : State) : State :=
  let s : State := { s with fab := { s.fab with fencedSelf := true } }
  let s := s.fab.txns.foldl (fun s (x : Txn) => s.failTxn x 0x80) s
  let s := (s.homes.tokens.filter fun t => !s.ownDevice t.gpa).foldl (fun s t => s.failTakes (devOf t.gpa)) s
  ((List.range 256).map fun n => BitVec.ofNat 8 n).foldl (fun s d => if d == s.dev.devid then s else (s.mcasLost d).failTiles d) s
/-- A device is declared dead (R387): links fenced, one log entry, the notice flooded, its requests and leases ended, and
Sieve run. A device that receives a notice of itself fences all its links; the entry is its report to the host (DESIGN CHOICE,
log 40). A notice for a device already declared dead is ignored (R386). -/
def declareDead (s : State) (dead reporter : BitVec 8) (epoch : BitVec 32) : State :=
  if (s.peer dead.toNat).deadEpoch.isSome then s
  else
    let p := s.peer dead.toNat
    let s := s.logFab dead 0 0x80 (dead.setWidth 64) (BitVec.ofNat 64 (reporter.toNat + 2 ^ 32 * epoch.toNat)) 0
    let s := s.floodDeath dead reporter epoch
    if dead == s.dev.devid then (s.setPeer dead.toNat { p with deadEpoch := some epoch }).fenceSelf
    else
      let p1 : Peer := { p with
        fenced := true, deadEpoch := some epoch, expectSeq := 0, early := [], window := [], sendSeq := 0, tagNext := 0,
        tagUsed := [], tagLost := [] }
      let s := (((s.setPeer dead.toNat p1).failAll dead).failTakes dead).mcasLost dead
      ((((s.leasesDead dead).sieve dead)).failTiles dead).wakeHeld

end State
end Sys2Proof.Machine
end

