-- ==== Sys2Proof/Machine/Registers.lean ====
section
/-! DEFINITION. The register blocks of BAR0 (R423 to R432) at the offsets of log 8, and what a write to each register
does. A register is read and written in 8-byte words; a 4-byte access reaches half of one (R455). -/

namespace Sys2Proof.Machine

/-- Put the masked bits of v into a register's field bits. -/
def maskIn (old mask v : Dbl) : Dbl := (v &&& mask) ||| (old &&& ~~~mask)
/-- Bytes of a register from a list, as one word: byte o first. -/
def wordAt (l : List Nat) (o : Nat) : Dbl := BitVec.ofNat 64 (ofNatBytes ((l.drop o).take 8))

/-! Where the blocks lie (log 8). -/

def devBlock : Nat := 0x10000
def queueBlock : Nat := 0x20000
def mooringBlock : Nat := 0x30000
def securityBlock : Nat := 0x40000
/-- The four blocks lie in pages of their own. -/
def blockPage : Nat := 0x10000
def serviceBlock : Nat := 0x8000000
def dieBlock : Nat := 0x10000000
def clusterBlock : Nat := 0x40000000
def blockStride : Nat := 0x1000000
/-- The entries of the capability list: kind, instances, base (R423, R424). -/
def capabilities : List (Nat × Nat × Nat) :=
  [(7, 1, serviceBlock), (1, 1, devBlock), (2, 4, dieBlock), (3, 64, clusterBlock), (4, 1, queueBlock), (5, 1, mooringBlock),
   (6, 1, securityBlock)]

/-- Bits of a Silt region descriptor that are fields, by word (R413). -/
def siltFieldMask (i : Nat) : Dbl :=
  match i with
  | 0 => 0x800000000003FFFF | 1 => 0xFFFFFFFFFFF | 2 | 3 | 4 => 0xFFFFFFFFFFFFF | 7 => 0xFFFF | _ => 0xFFFFFFFFFFFFFFFF
def loampartMask : Dbl := 0xFF00FFF0FFF0FFF0
def savepoolMask : Dbl := 0x0FFFFFFFFFFE0FFF
def prectlMask : Dbl := 0x80000000000007FF
def cxlwinMask : Dbl := 0x80007FFF00003FFF

namespace State

/-! TLBINV (R350). -/

/-- Remove matching translations from every core's, cluster's and the guest's TLB. -/
def dropTlb (s : State) (p : TlbEntry → Bool) : State :=
  { s with
    cores := s.cores.map fun (n, c) => (n, { c with tlb := c.tlb.filter fun e => !p e }),
    clusters := s.clusters.map fun (n, c) => (n, { c with tlb := c.tlb.filter fun e => !p e }),
    moor := { s.moor with tlb := s.moor.tlb.filter fun e => !p e } }
def tlbinv (s : State) (w : Dbl) : State :=
  let sp : BitVec 6 := w.extractLsb' 56 6
  if w.getLsbD 63 then s.dropTlb fun _ => true
  else if w.getLsbD 62 then s.dropTlb fun e => e.space == sp
  else s.dropTlb fun e => e.space == sp && e.base == w.toNat % 2 ^ 56 / 2 ^ 16 * 2 ^ 16 / 2 ^ e.size

/-! Space release (R426). -/

/-- Something of the space is still live. -/
def spaceInUse (s : State) (sp : BitVec 6) : Bool :=
  s.clusters.any (fun (_, c) => c.entries.any fun (_, e) => dSpace e.desc == sp)
    || s.dies.any (fun (_, d) => d.instances.any (fun (i : Instance) => i.space == sp) || d.expansions.any (·.space == sp))
    || s.moor.queues.any fun (_, q) => q.held.any fun (_, p) => pkSpace p.bits == sp
/-- Release a space. While BUSY the whole write is ignored, its SPACE with it: R426 speaks of GO, R8 has SPACE written (DESIGN
CHOICE, log 40). -/
def releaseSpace (s : State) (sp : BitVec 6) : State :=
  if s.dev.spBusy then s
  else if s.spaceInUse sp then { s with dev := { s.dev with spSpace := sp, spRefused := true } }
  else
    let s : State := { s with
      dev := { s.dev with
        spSpace := sp, spRefused := false, spBusy := true,
        released := if s.dev.released.contains sp then s.dev.released else sp :: s.dev.released },
      homes := { s.homes with versions := s.homes.versions.filter fun (t, _) => t.space != sp } }
    let s := s.dropKeys fun k => k.space == sp
    let s := (s.fab.leases.filter fun (l : Lease) => l.space == sp && !leaseOver l).foldl (fun s l => s.releaseLease l) s
    s.dropTlb fun e => e.space == sp

/-! The device control block. -/

/-- DEVID is written: the global physical addresses of the device's memory begin with it (R404, R425). -/
def setDevid (s : State) (d : BitVec 8) : State :=
  let go := fun (a : Nat) => d.toNat * 2 ^ 52 + localOf a
  { s with
    dev := { s.dev with devid := d }, mem := s.mem.foldl (fun m (a, b) => cellWrite m (go a) b) [],
    homes := { s.homes with
      poison := s.homes.poison.map fun l => go (128 * l) / 128,
      tags := s.homes.tags.map fun (l, t) => (go (128 * l) / 128, t) } }

/-- A write of PRESENCE (R432): after the fabric is open, links to added devices are trained, links to removed ones fenced. A device
that was removed stays fenced until it joins again (R439). -/
def setPresence (s : State) (v : BitVec 256) : State :=
  let was := s.dev.presence
  let s : State := { s with dev := { s.dev with presence := v } }
  if !s.dev.fabEn then s
  else (List.range 256).foldl (fun s d =>
    let p := s.peer d
    if was.getLsbD d == v.getLsbD d then s
    else if v.getLsbD d then s.setPeer d { p with lastFlit := s.cycle }
    else s.setPeer d { p with fenced := true }) s
/-- FABCTL (R432): EN fixes DEVID and opens the fabric; both bits stay until reset. -/
def fabctl (s : State) (w : Dbl) : State :=
  let open_ := w.getLsbD 0 && !s.dev.fabEn
  let s : State := { s with dev := { s.dev with fabEn := s.dev.fabEn || w.getLsbD 0, lvEn := s.dev.lvEn || w.getLsbD 1 } }
  if !open_ then s
  else (List.range 256).foldl (fun s d =>
    if s.dev.presence.getLsbD d && (s.peerDim (BitVec.ofNat 8 d)).isSome then
      let p := s.peer d
      s.setPeer d { p with lastFlit := s.cycle }
    else s) s
/-- NSTIME counts on from the written value on every die (R425); a 4-byte write keeps the other half of what NSSET holds (R455;
log 33). -/
def setNs (s : State) (v : Dbl) : State := { s with dev := { s.dev with nsBase := v, nsCycle := BitVec.ofNat 64 s.cycle } }
/-- An enabled window's size is out of range, or it reaches beyond 16 TiB (R409). -/
def cxlBad (w : Dbl) : Bool :=
  let size := (w.extractLsb' 32 15).toNat
  w.getLsbD 63 && (size == 0 || 16384 < size || 16384 < (w.extractLsb' 0 14).toNat + size)
/-- Two enabled windows overlap, be they within 16 TiB or not. -/
def cxlOverlap (a b : Dbl) : Bool :=
  let lo := fun (w : Dbl) => (w.extractLsb' 0 14).toNat
  let hi := fun (w : Dbl) => (w.extractLsb' 0 14).toNat + (w.extractLsb' 32 15).toNat
  a.getLsbD 63 && b.getLsbD 63 && lo a < hi a && lo b < hi b && lo a < hi b && lo b < hi a
/-- The global physical addresses of a window: the first, and the first after it. -/
def cxlRange (s : State) (w : Dbl) : Nat × Nat :=
  let lo := s.devBase + 0x1000000000000 + (w.extractLsb' 0 14).toNat * 2 ^ 30
  (lo, lo + (w.extractLsb' 32 15).toNat * 2 ^ 30)
/-- The memory under an enabled window goes to its port, at device physical address (offset − BASE) (R409). -/
def closePort (s : State) (p : Nat) (w : Dbl) : State :=
  if !w.getLsbD 63 then s
  else
    let (lo, hi) := s.cxlRange w
    let on := fun (a : Nat) => decide (lo ≤ a) && decide (a < hi)
    let x := tget {} s.ports p
    let y : PortMem := {
      cells := ((s.mem.filter fun (a, _) => on a).map fun (a, b) => (a - lo, b)) ++ x.cells,
      poison := ((s.homes.poison.filter fun l => on (128 * l)).map fun l => l - lo / 128) ++ x.poison,
      tags := ((s.homes.tags.filter fun (l, _) => on (128 * l)).map fun (l, t) => (l - lo / 128, t)) ++ x.tags }
    { s with
      ports := tset s.ports p y, mem := s.mem.filter fun (a, _) => !on a,
      homes := { s.homes with
        poison := s.homes.poison.filter fun l => !on (128 * l), tags := s.homes.tags.filter fun (l, _) => !on (128 * l) } }
/-- The port's memory as an enabled window shows it (R409). -/
def openPort (s : State) (p : Nat) (w : Dbl) : State :=
  if !w.getLsbD 63 then s
  else
    let (lo, hi) := s.cxlRange w
    let on := fun (a : Nat) => decide (lo + a < hi)
    let x := tget {} s.ports p
    { s with
      ports := tset s.ports p { cells := x.cells.filter fun (a, _) => !on a, poison := x.poison.filter fun l => !on (128 * l),
                                tags := x.tags.filter fun (l, _) => !on (128 * l) },
      mem := (x.cells.filter fun (a, _) => on a).foldl (fun m (a, b) => cellWrite m (lo + a) b) s.mem,
      homes := { s.homes with
        poison := ((x.poison.filter fun l => on (128 * l)).map fun l => lo / 128 + l) ++ s.homes.poison,
        tags := (x.tags.filter fun (l, _) => on (128 * l)).foldl (fun m (l, t) => tset m (lo / 128 + l) t) s.homes.tags } }
/-- Every pooled port's memory is with the port. -/
def closePorts (s : State) : State := (List.finRange 4).foldl (fun s i => s.closePort i.val s.dev.cxlwin[i]) s
/-- A write of a CXLWIN (R409): windows that break a rule are disabled and logged, in the order of their ports; the others show their
ports' memory. -/
def setCxlwin (s : State) (p : Fin 4) (v : Dbl) : State :=
  let w := s.dev.cxlwin.set p v
  let bad := fun (i : Fin 4) => cxlBad w[i] || (List.finRange 4).any fun j => j != i && cxlOverlap w[i] w[j]
  let s := s.closePorts
  let s : State := { s with dev := { s.dev with
    cxlwin := Vector.ofFn fun i => if bad i then w[i] &&& 0x7FFFFFFFFFFFFFFF else w[i] } }
  let s := (List.finRange 4).foldl (fun s i => s.openPort i.val s.dev.cxlwin[i]) s
  ((List.finRange 4).filter bad).foldl (fun s i => s.log 0 8 i.val 0 0xA4 w[i] 0 0) s
/-- A write of one word of a Silt region's descriptor: EN gives the whole of each pool to the free-sector manager (R413,
R414). -/
def setSilt (s : State) (n i : Nat) (m v : Dbl) : State :=
  let r := tget ({} : Silt) s.silt n
  let old : Dbl := r.desc.extractLsb' (64 * i) 64
  let new := maskIn old (m &&& siltFieldMask i) v
  let d := (r.desc &&& ~~~(BitVec.ofNat 512 ((2 ^ 64 - 1) * 2 ^ (64 * i)))) ||| BitVec.ofNat 512 (new.toNat * 2 ^ (64 * i))
  let fresh : Silt := { desc := d, freeP := poolRuns (siltPsize d) 0 (siltPsize d), freeO := poolRuns (siltOsize d) 0 (siltOsize d) }
  let r1 : Silt := if i == 0 && new.getLsbD 63 && !old.getLsbD 63 then fresh else { r with desc := d }
  { s with silt := tset s.silt n r1 }

def devGet (s : State) (o : Nat) : Dbl :=
  match o with
  | 0x00 => s.dev.devid.setWidth 64
  | 0x08 => s.dev.sptbase
  | 0x10 => s.dev.spSpace.setWidth 64 ||| (if s.dev.spBusy then 0x100 else 0) ||| (if s.dev.spRefused then 0x200 else 0)
  | 0x20 | 0x28 | 0x30 | 0x38 => s.dev.presence.extractLsb' (8 * (o - 0x20)) 64
  | 0x48 => s.dev.hilmap.setWidth 64
  | 0x50 => (if s.dev.fabEn then 1 else 0) ||| (if s.dev.lvEn then 2 else 0)
  | 0x280 | 0x288 | 0x290 | 0x298 => s.dev.cxlwin.toList.getD ((o - 0x280) / 8) 0
  | _ =>
    if 0x100 ≤ o && o < 0x240 then
      let r := tget ({} : Silt) s.silt ((o - 0x100) / 80)
      let i := (o - 0x100) % 80 / 8
      if i < 8 then r.desc.extractLsb' (64 * i) 64
      else if i == 8 then BitVec.ofNat 64 (sectorsFree r.freeP % 2 ^ 48)
      else BitVec.ofNat 64 (sectorsFree r.freeO % 2 ^ 48)
    else 0
def devPut (s : State) (o : Nat) (m v : Dbl) : State :=
  let d := s.dev
  match o with
  | 0x00 => if d.fabEn then s else s.setDevid ((maskIn (s.devGet 0) m v).setWidth 8)
  | 0x08 => { s with dev := { d with sptbase := maskIn d.sptbase m v } }
  | 0x10 =>
    let w := v &&& m
    let sp : BitVec 6 := (maskIn (d.spSpace.setWidth 64) m v).setWidth 6
    if w.getLsbD 7 then s.releaseSpace sp else { s with dev := { d with spSpace := sp } }
  | 0x18 => s.setNs (maskIn d.nsBase m v)
  | 0x20 | 0x28 | 0x30 | 0x38 =>
    let k := 8 * (o - 0x20)
    let new := maskIn (s.devGet o) m v
    s.setPresence ((d.presence &&& ~~~(BitVec.ofNat 256 ((2 ^ 64 - 1) * 2 ^ k))) ||| BitVec.ofNat 256 (new.toNat * 2 ^ k))
  | 0x40 => s.tlbinv (v &&& m)
  | 0x48 => { s with dev := { d with hilmap := (maskIn (s.devGet 0x48) m v).setWidth 28 } }
  | 0x50 => s.fabctl (v &&& m)
  | 0x280 => s.setCxlwin 0 (maskIn d.cxlwin[0] (m &&& cxlwinMask) v)
  | 0x288 => s.setCxlwin 1 (maskIn d.cxlwin[1] (m &&& cxlwinMask) v)
  | 0x290 => s.setCxlwin 2 (maskIn d.cxlwin[2] (m &&& cxlwinMask) v)
  | 0x298 => s.setCxlwin 3 (maskIn d.cxlwin[3] (m &&& cxlwinMask) v)
  | _ =>
    if 0x100 ≤ o && o < 0x240 && (o - 0x100) % 80 < 64 then s.setSilt ((o - 0x100) / 80) ((o - 0x100) % 80 / 8) m v else s

/-! Command queues (R310 to R312). -/

def queueGet (s : State) (q o : Nat) : Dbl :=
  let x := s.queue q
  match o with
  | 0x00 => x.qbase
  | 0x08 => x.qctl
  | 0x10 => x.qhead.setWidth 64
  | 0x18 => x.qtail.setWidth 64
  | 0x20 => x.rejects.setWidth 64 ||| (if x.waiting then 0x10000 else 0)
  | _ => 0
def queuePut (s : State) (q o : Nat) (m v : Dbl) : State :=
  let x := s.queue q
  match o with
  | 0x00 => s.setQueue q { x with qbase := maskIn x.qbase m v }
  | 0x08 =>
    let new := maskIn x.qctl (m &&& 0xFCD) v
    let s := s.setQueue q { x with qctl := new }
    if new.getLsbD 0 && !x.qctl.getLsbD 0 then s.kickQueue (BitVec.ofNat 6 q) else s
  | 0x18 =>
    if m.setWidth 32 == 0 then s
    else
      let s1 := s.setQueue q { x with qtail := v.setWidth 32 }
      if x.qhead == x.qtail then s1.kickQueue (BitVec.ofNat 6 q) else s1
  | 0x20 => s.setQueue q { x with rejects := (maskIn (x.rejects.setWidth 64) m v).setWidth 16 }
  | _ => s

/-! Mooring control (R429). -/

def moorGet (s : State) (o : Nat) : Dbl :=
  if o < 0x40 then (s.gqueue (o / 8)).ctl
  else match o with
    | 0x48 => s.moor.saveBase
    | 0x50 => s.moor.saveLen.setWidth 64
    | 0x58 => s.moor.statSpace.setWidth 64 ||| (if s.moor.statStopped then 0x100 else 0) ||| (if s.moor.statSaved then 0x200 else 0)
        ||| (if s.moor.statLate then 0x400 else 0)
    | _ => 0
def moorPut (s : State) (o : Nat) (m v : Dbl) : State :=
  if o < 0x40 then
    let g := s.gqueue (o / 8)
    s.setGqueue (o / 8) { g with ctl := maskIn g.ctl (m &&& 0xFE01) v }
  else match o with
    | 0x40 =>
      let w := v &&& m
      let sp : BitVec 6 := w.setWidth 6
      let s := if w.getLsbD 6 then s.guestPreempt sp else s
      if w.getLsbD 7 then s.guestResume sp else s
    | 0x48 => { s with moor := { s.moor with saveBase := maskIn s.moor.saveBase (m &&& 0xFFFFFFFFFFFFFFF) v } }
    | 0x50 => { s with moor := { s.moor with saveLen := (maskIn (s.moor.saveLen.setWidth 64) m v).setWidth 32 } }
    | _ => s

/-! Security (R430, R434 to R436). -/

def identityBytes : List Nat := bytesNat 57 Config.identitySecret.toNat
/-- The public half of the reset's ephemeral key pair: the base point is u = 5. -/
def ephemeralPublic (s : State) : List Nat := bytesNat 56 (x448 (Config.ephemeralSecret s.sec.resets).toNat 5)
/-- A write of the nonce's last bytes starts the report afresh, with the nonce as it then stands (R435). -/
def startReport (s : State) : State := { s with sec := { s.sec with busy := true, complete := false, latched := s.sec.nonce } }
/-- Bytes 0 to 391 of the report (R435; the fields of bytes 64 to 79: log 17). -/
def reportBody (s : State) : List Nat :=
  bytesNat 64 s.sec.latched.toNat ++ [s.dev.devid.toNat, s.svc.diefence.toNat, 0, 0] ++ bytesNat 4 Config.serialNumber.toNat
    ++ bytesNat 4 s.sec.secVersion.toNat ++ bytesNat 4 s.svc.fwstat.toNat ++ bytesNat 256 s.sec.measurements.toNat
    ++ s.ephemeralPublic
/-- The report is signed and complete. -/
def endReport (s : State) : State :=
  if !s.sec.busy then s
  else
    let b := s.reportBody
    { s with sec := { s.sec with
      busy := false, complete := true, report := BitVec.ofNat 4048 (ofNatBytes (b ++ edSign identityBytes b)) } }
/-- Words of memory for the key blob, at their home: none where one cannot be read. -/
def blobBytes (s : State) (a : Nat) : Nat → State × Option (List Nat)
  | 0 => (s, some [])
  | n + 1 =>
    match s.homeGet 0 0 a 8 with
    | (s, .error _) => (s, none)
    | (s, .ok v) =>
      match s.blobBytes (a + 8) n with
      | (s, some l) => (s, some (bytesNat 8 v ++ l))
      | r => r
/-- The key-encryption key of a blob (R436). -/
def blobKek (s : State) (pub : List Nat) : BitVec 256 :=
  let shared := x448 (Config.ephemeralSecret s.sec.resets).toNat (ofNatBytes pub)
  BitVec.ofNat 256 (ofNatBytes ((shake256 (bytesNat 56 shared ++ [s.dev.devid.toNat]) 32)))
/-- Load a key slot from the blob at KEYBLOB (R436). A blob that cannot be read fails its check. -/
def loadKey (s : State) (sp : BitVec 6) (slot : BitVec 4) : State :=
  let st := fun (s : State) (n : BitVec 3) => ({ s with sec := { s.sec with keystat := n } } : State)
  if slot == 0 || 8 < slot.toNat then st s 5
  else if !s.spaceValid sp then st s 4
  else if (s.keySlot sp (slot.setWidth 8)).isSome then st s 3
  else
    let a := s.sec.keyblob.toNat % 2 ^ 60
    let at_ := if s.sec.keyblob.getLsbD 63 then s.devBase + 2 ^ 51 + a % 2 ^ 51 else a
    match s.blobBytes at_ 20 with
    | (s, none) => st s 2
    | (s, some b) =>
      match keyUnwrap (s.blobKek (b.take 56)) 12 (b.drop 56) with
      | none => st s 2
      | some k =>
        let part := fun (i : Nat) => BitVec.ofNat 256 (ofNatBytes ((k.drop (32 * i)).take 32))
        let e : KeySlot := ⟨sp, slot, part 0, part 1, part 2⟩
        st { s with sec := { s.sec with keys := s.sec.keys ++ [e] } } 1
/-- Empty a key slot (R436). -/
def clearKey (s : State) (sp : BitVec 6) (slot : BitVec 4) : State :=
  if slot == 0 || 8 < slot.toNat then { s with sec := { s.sec with keystat := 5 } }
  else
    let s := s.dropKeys fun k => k.space == sp && k.slot == slot
    { s with sec := { s.sec with keystat := 1 } }

def secGet (s : State) (o : Nat) : Dbl :=
  if o < 0x40 then wordAt (edPublic identityBytes) o
  else if o == 0x40 then Config.certLength.setWidth 64
  else if o == 0x140 then (if s.sec.complete then 1 else 0)
  else if 0x200 ≤ o && o < 0x400 then BitVec.ofNat 64 (s.sec.report.toNat / 2 ^ (8 * (o - 0x200)))
  else if o == 0x400 then s.sec.keyblob
  else if o == 0x410 then s.sec.keystat.setWidth 64
  else if 0x1000 ≤ o && o < 0x10000 then
    wordAt ((List.range 8).map fun i => if o - 0x1000 + i < Config.certLength.toNat then (Config.certByte (o - 0x1000 + i)).toNat else 0) 0
  else 0
def secPut (s : State) (o : Nat) (m v : Dbl) : State :=
  if 0x100 ≤ o && o < 0x140 then
    let k := 8 * (o - 0x100)
    let new := maskIn (s.sec.nonce.extractLsb' k 64) m v
    let n := (s.sec.nonce &&& ~~~(BitVec.ofNat 512 ((2 ^ 64 - 1) * 2 ^ k))) ||| BitVec.ofNat 512 (new.toNat * 2 ^ k)
    let s : State := { s with sec := { s.sec with nonce := n } }
    if o == 0x138 && m.getLsbD 63 then s.startReport else s
  else if o == 0x400 then { s with sec := { s.sec with keyblob := maskIn s.sec.keyblob (m &&& 0x8FFFFFFFFFFFFFFF) v } }
  else if o == 0x408 then
    let w := v &&& m
    if w.getLsbD 63 then s.clearKey (w.extractLsb' 4 6) (w.setWidth 4) else s.loadKey (w.extractLsb' 4 6) (w.setWidth 4)
  else s

end State

end Sys2Proof.Machine
end

