-- ==== Sys2Proof/Machine/System.lean ====
section
/-! DEFINITION. Firmware and service (R431, R433, R439), the die and cluster control blocks (R427, R428), reads and writes of
the control window (R455), and the events of the host interface and of the device's own management. -/

namespace Sys2Proof.Machine
namespace State

/-! Firmware (R433). -/

/-- The staged image of a length. -/
def stagedImage (s : State) (len : Nat) : List (BitVec 8) := (List.range (min len 0x4000000)).map fun i => cellRead s.svc.staging i
/-- Steps 2 to 4 of R433: 0, or the FWSTAT of the step that failed. -/
def verifyImage (img : List (BitVec 8)) : BitVec 8 :=
  let key := bytesNat 57 (Config.imageVendorKey img).toNat
  let manifest := (Config.imageManifest img).map BitVec.toNat
  if shake256 key 64 != bytesNat 64 Config.vendorDigest.toNat
      || !edVerify key manifest (bytesNat 114 (Config.imageSignature img).toNat) then 2
  else if (Config.imageSecurityVersion img).toNat < Config.minSecurityVersion.toNat then 3
  else if (List.range 4).any fun i =>
      shake256 ((Config.imageComponent img i).map BitVec.toNat) 64 != bytesNat 64 (Config.imageDigest img i).toNat then 4
  else 0
/-- Steps 5 and 6: measurements, components, training, whose failing unit is one of four; then every block is listed. -/
def bootImage (s : State) (img : List (BitVec 8)) : State :=
  let m := (List.range 4).foldl (fun n i => n + (Config.imageDigest img i).toNat * 2 ^ (512 * i)) 0
  let s : State := { s with sec := { s.sec with
    measurements := BitVec.ofNat 2048 m, secVersion := Config.imageSecurityVersion img } }
  match Config.trainingFailure s.sec.resets with
  | some u => { s with svc := { s.svc with fwstat := 5, fwdetail := u &&& 0xFF03 } }
  | none => { s with booted := true, svc := { s.svc with fwstat := 1, fwdetail := 0 } }

/-! Service actions (R431, R439): 1 die fence, 2 laser, 3 leave, 4 join, 5 firmware update, 6 spare core. -/

/-- Start an action, unless one runs. -/
def serve (s : State) (a : Nat) (f : State → State) : State :=
  if s.svc.action != 0 then { s with svc := { s.svc with svcstat := BitVec.ofNat 16 (2 + 256 * a) } }
  else f { s with svc := { s.svc with action := a, svcstat := BitVec.ofNat 16 (1 + 256 * a) } }
/-- The running action ends, done or failed. -/
def served (s : State) (ok : Bool) : State :=
  { s with svc := { s.svc with action := 0, svcstat := BitVec.ofNat 16 ((if ok then 3 else 4) + 256 * s.svc.action) } }
/-- A task runs on a die. -/
def dieBusy (s : State) (d : Nat) : Bool :=
  s.clusters.any fun (n, c) => n / 16 == d && c.entries.any fun (_, e) => e.state == .running
/-- A failed core has no member any more. -/
def coreEmpty (s : State) (k : Nat) : Bool := (List.range 4).all fun i => (s.ctx (4 * k + i)).occ == .idle
/-- The running action goes on, and ends when it can: a die fence when its tasks have left, a spare core when the failed
core's have. A cluster has one spare. -/
def serviceStep (s : State) : State :=
  match s.svc.action with
  | 0 => s
  | 1 => if (List.range 4).any fun d => s.svc.diefence.getLsbD d && s.dieBusy d then s else s.served true
  | 6 =>
    let failed := (s.cores.filter fun (_, c) => c.failed).map Prod.fst
    if failed.any fun k => !s.coreEmpty k then s
    else
      let fix := failed.filter fun k => !(s.cluster (k / 16)).spared
      match fix with
      | [] => s.served false
      | k :: _ =>
        let c := s.cluster (k / 16)
        ((s.setCore k { s.core k with failed := false }).setCluster (k / 16) { c with spared := true }).served true
  | _ => s.served true
/-- FWSTAGE: verify the staged image; boot from it in recovery, update in service (R433, R439). -/
def stageFirmware (s : State) (len : Nat) : State :=
  let img := s.stagedImage len
  let r := verifyImage img
  if s.booted then
    s.serve 5 fun s => if r == 0 then s else s.served false
  else if r != 0 then { s with svc := { s.svc with fwstat := r, fwdetail := 0 } }
  else s.bootImage img
/-- Ask every task of a list of clusters' entries to leave, by pre-emption. -/
def preemptWhere (s : State) (p : Nat → Entry → Bool) : State :=
  let all := s.clusters.flatMap fun (n, c) => (c.entries.filter fun (_, e) => e.state == .running && p n e).map fun (k, _) => (n, k)
  all.foldl (fun s (n, k) => s.later 0 (.preemption n k)) s
/-- Fence a die: its tasks are pre-empted, its clusters leave placement (R439). -/
def fenceDie (s : State) (d : Nat) : State :=
  let m : BitVec 4 := 1#4 <<< d
  ({ s with svc := { s.svc with diefence := s.svc.diefence ||| m } } : State).preemptWhere fun n _ => n / 16 == d
/-- Return a die to service. -/
def unfenceDie (s : State) (d : Nat) : State :=
  let m : BitVec 4 := 1#4 <<< d
  let s : State := { s with svc := { s.svc with diefence := s.svc.diefence &&& ~~~m } }
  (List.range 16).foldl (fun s n => s.later 0 (.taskDispatch (16 * d + n))) s
/-- A write of DIEFENCE. -/
def setFence (s : State) (new : BitVec 4) : State :=
  if new == s.svc.diefence then s
  else s.serve 1 fun s => (List.range 4).foldl (fun s d =>
    if new.getLsbD d && !s.svc.diefence.getLsbD d then s.fenceDie d
    else if !new.getLsbD d && s.svc.diefence.getLsbD d then s.unfenceDie d else s) s
/-- A write of LASERSVC. -/
def setLaser (s : State) (dim mod out : Bool) : State :=
  s.serve 2 fun s =>
    let m : BitVec 4 := 1#4 <<< (2 * dim.toNat + mod.toNat)
    { s with svc := { s.svc with lasers := if out then s.svc.lasers &&& ~~~m else s.svc.lasers ||| m } }
/-- LEAVE: the device's own death notice (R439). -/
def leaveFabric (s : State) : State := s.serve 3 fun s => s.declareDead s.dev.devid s.dev.devid s.svc.epoch
/-- JOIN: EPOCH increases, a join notice is flooded, the device's links are open again (R439). -/
def joinFabric (s : State) : State :=
  s.serve 4 fun s =>
    let e := s.svc.epoch + 1
    let own := s.dev.devid.toNat
    let s := s.setPeer own { s.peer own with deadEpoch := none }
    { s with svc := { s.svc with epoch := e },
             fab := { s.fab with joins := s.fab.joins ++ [(s.dev.devid, e)], fencedSelf := false } }
/-- Firmware maps a failed core's number onto the spare; its tasks are pre-empted first (R14, R439). -/
def spareCore (s : State) (k : Nat) : State :=
  s.serve 6 fun s => (s.setCore k { s.core k with failed := true }).preemptWhere fun _ e => e.members.any (· / 4 == k)

/-! Tasks of a fenced die resume on other dies (R439). -/

/-- Move the OPEN slots of saved streams to another cluster's Loam: none when one finds no room at once. The pairs of
old and new slot are given too. -/
def moveOpens (s : State) (cl dest : Nat) : List Nat → Option (State × List (Nat × Nat))
  | [] => some (s, [])
  | k :: r =>
    let x := s.slot cl k
    let (slice, set) := loamPlace x.tile
    match s.allocate dest slice set x.klass with
    | (s, .got w) =>
      let n := 128 * slice + 8 * w + set
      let v := s.verOf x.tile
      let own := match v.openV with | some (m, o) => if o == cl then some (m, dest) else some (m, o) | none => none
      let s := ((s.setSlot dest n x).clearSlot cl k).setVer x.tile { v with openV := own }
      (s.moveOpens cl dest r).map fun (s, l) => (s, (k, n) :: l)
    | _ => none
/-- Unpin what an entry pins for its inputs and for versions it holds again. -/
def unpinEntry (s : State) (cl : Nat) (e : Entry) : State :=
  let s := if e.pinned then e.inputs.foldl (fun s (i : Input) => s.unpin cl i.slot) s else s
  e.retained.foldl (fun s (r : Retained) => if r.have_ then s.unpin cl r.slot else s) s
/-- The pins of a task that holds no context become retained, and nothing stays reserved for it (R42, R328). A ready task is pending
again until the request is withdrawn and its inputs are pinned again, so its ready time and its ageing then begin anew (the spec does
not say whether they go on; DESIGN CHOICE, log 40). -/
def retainEntry (s : State) (cl k : Nat) : State :=
  match s.entry cl k with
  | none => s
  | some e =>
    if e.state == .ready || e.state == .preempted || e.pinned then
      let st : TaskState := if e.saved.isEmpty then .pending else .preempted
      let s := (s.unpinEntry cl e).unreserve (taskIdOf cl k) e.prey
      (s.setEntry cl k { e with
        state := st, prey := [], aged := false, pinned := false,
        retained := e.retained.map fun (r : Retained) => ({ r with have_ := false } : Retained) }).later 0 (.taskDispatch cl)
    else s
/-- Ask for pre-emption of an entry: a running task stops, any other stays from dispatch with its pins retained. -/
def holdEntry (s : State) (cl k : Nat) : State :=
  match s.entry cl k with
  | none => s
  | some e =>
    let s := s.setEntry cl k { e with hold := true }
    if e.state == .running then s.later 0 (.preemption cl k) else s.retainEntry cl k
/-- Move an entry of a cluster to another die: the state unchanged while it cannot go. -/
def moveEntry (s : State) (cl k : Nat) : State :=
  match s.entry cl k with
  | none => s
  | some e =>
    let (s1, dest) := s.place (cl / 16) 0 false e.desc
    if e.state == .running || !e.members.isEmpty || s.svc.diefence.getLsbD (dest / 16) then s
    else match s1.freeEntry dest with
      | none => s
      | some j =>
        let drop := fun (s : State) =>
          let s := s.unpinEntry cl e
          let c := s.cluster cl
          s.setCluster cl { c with
            entries := tdel c.entries k, usedRecords := c.usedRecords.filter fun r => !(e.saved.any fun (y : Saved) => y.record == r) }
        if e.saved.isEmpty then
          let s := (drop s1).accept dest j e.desc e.addr e.graph
          if e.hold then s.holdEntry dest j else s
        else if !s1.savedDone e then s
        else
          let len := (dScratch e.desc + 2047) / 2048 * 2048
          let busy := (s1.cluster cl).copies.any fun (c : CopyJob) => e.scratchBase ≤ c.bar && c.bar < e.scratchBase + len
          let win := if e.started then s1.placeWindow dest (dClass e.desc) (dScratch e.desc) else some 0
          let opens := ((e.saved.flatMap fun (y : Saved) => y.cx.w.toList).filterMap fun w =>
            if wBound w && (s1.slot cl (wSlot w)).state == .openV then some (wSlot w) else none).eraseDups
          match win, s1.freeRecords dest e.saved.length (dClass e.desc), s1.moveOpens cl dest opens with
          | some base, some rs, some (s2, moved) =>
            if busy then s
            else
              let bytes := cellsRead (s2.cluster cl).scratch e.scratchBase len
              let s2 := drop s2
              let ct := s2.cluster dest
              let s2 := s2.setCluster dest { ct with
                scratch := if e.started then cellsWrite ct.scratch base len bytes else ct.scratch,
                usedRecords := rs ++ ct.usedRecords }
              let flight := fun (f : Flight) => match f.kind with
                | .barrier off ph => ({ f with kind := .barrier (off - e.scratchBase + base) ph } : Flight)
                | _ => f
              let sv := (e.saved.zip rs).map fun ((y : Saved), r) =>
                let id : Ident := { y.cx.id with taskid := taskIdOf dest j, scratchBase := base }
                ({ y with record := r, cx := { y.cx with id := id, flights := y.cx.flights.map flight } } : Saved)
              let new (k : Nat) : Nat := match moved.find? (·.1 == k) with | some (_, b) => b | none => k
              let spins := e.spins.map fun (o : Spin) => ({ o with slots := o.slots.map new } : Spin)
              let held := e.retained.map fun (r : Retained) => ({ r with have_ := false, lost := false } : Retained)
              let n : Entry := { e with state := .preempted, saved := sv, spins := spins, retained := held, scratchBase := base,
                                        members := [], prey := [], fault := none, claim := none }
              let s3 := sv.foldl (fun s y => s.writeRecord dest y) (s2.setEntry dest j n)
              if e.hold then s3 else (s3.reacquire dest j).later 0 (.taskResume dest j)
          | _, _, _ => s
/-- Let the tasks of fenced dies go where they can. -/
def evacuate (s : State) : State :=
  let all := (s.clusters.filter fun (n, _) => s.svc.diefence.getLsbD (n / 16)).flatMap fun (n, c) => c.entries.map fun (k, _) => (n, k)
  all.foldl (fun s (n, k) => s.moveEntry n k) s

/-! Pre-emption asked for by the host (R426, R42). -/

/-- A running task leaves whether or not the host asks: its die is fenced or a core of it failed (R439), or a class-0 task is to have
its contexts (R326). -/
def mustLeave (s : State) (cl : Nat) (e : Entry) : Bool :=
  s.svc.diefence.getLsbD (cl / 16) || e.members.any fun c =>
    (s.core (c / 4)).failed || (s.cluster cl).entries.any fun (_, f) => f.prey.contains c
/-- Withdraw the request: the task may be dispatched again, once its pins are taken again (R323, R328); a pre-emption that another
reason asks for as well stays. -/
def unholdEntry (s : State) (cl k : Nat) : State :=
  match s.entry cl k with
  | none => s
  | some e =>
    if !e.hold then s
    else
      let s := s.setEntry cl k { e with hold := false }
      match e.state with
      | .pending => (s.sendInputs cl).readyCheck cl k
      | .ready => s.later 0 (.taskDispatch cl)
      | .running => if s.mustLeave cl e then s else s.dropAgenda (.preemption cl k)
      | _ => s.later 0 (.saveRecordComplete cl k)

/-! Die and cluster control (R427, R428). -/

/-- The limit in force in watts (R437, R438). -/
def powerLimit (s : State) (d : Nat) : Nat :=
  let x := s.die d
  if x.throttled then 100 else max 100 (min 520 (x.pwrlim.toNat % 1024))
def dieGet (s : State) (n o : Nat) : Dbl :=
  let d := s.die n
  match o with
  | 0x00 => d.flogBase
  | 0x08 => d.flogCtl
  | 0x10 => d.flogHead.setWidth 64
  | 0x18 => d.flogTail.setWidth 64
  | 0x20 => d.flogStat
  | 0x40 => d.pwrlim
  | 0x48 => d.pwravg.setWidth 64
  | 0x50 => d.temp.setWidth 64 ||| (if d.throttled then 0x100 else 0) ||| (if s.svc.diefence.getLsbD n then 0x200 else 0)
  | _ => 0
def diePut (s : State) (n o : Nat) (m v : Dbl) : State :=
  let d := s.die n
  match o with
  | 0x00 => s.setDie n { d with flogBase := maskIn d.flogBase m v }
  | 0x08 => s.setDie n { d with flogCtl := maskIn d.flogCtl (m &&& 0x11F) v }
  | 0x18 => s.setDie n { d with flogTail := (maskIn (d.flogTail.setWidth 64) m v).setWidth 32 }
  | 0x20 =>
    let w := maskIn d.flogStat (m &&& 0xFFFFFFFF) v
    s.setDie n { d with flogStat := w &&& ~~~(v &&& m &&& 0x100000000) }
  | 0x40 => s.setDie n { d with pwrlim := maskIn d.pwrlim (m &&& 0x3FF) v }
  | _ => s
def clusterGet (s : State) (n o : Nat) : Dbl :=
  let c := s.cluster n
  if o == 0 then c.loampart
  else if o == 8 then c.savepool
  else if o == 0x10 then c.prectl
  else if 0x100 ≤ o && o < 0x300 then dbgRead (s.ctx (64 * n + (o - 0x100) / 8))
  else if 0x800000 ≤ o then BitVec.ofNat 64 (s.windowRead (64 * n + (o - 0x800000) / 131072) ((o - 0x800000) % 131072) 8)
  else 0
def clusterPut (s : State) (n o : Nat) (m v : Dbl) : State :=
  let c := s.cluster n
  if o == 0 then s.setCluster n { c with loampart := maskIn c.loampart (m &&& loampartMask) v }
  else if o == 8 then s.setCluster n { c with savepool := maskIn c.savepool (m &&& savepoolMask) v }
  else if o == 0x10 then
    let w := maskIn c.prectl (m &&& prectlMask) v
    let s := s.setCluster n { c with prectl := w }
    if w.getLsbD 63 then s.holdEntry n (w.toNat % 2048) else s.unholdEntry n (w.toNat % 2048)
  else if 0x100 ≤ o && o < 0x300 then
    if m.getLsbD 0 then s.dbgWrite (64 * n + (o - 0x100) / 8) v else s
  else if 0x800000 ≤ o then
    let c := 64 * n + (o - 0x800000) / 131072
    let p := (o - 0x800000) % 131072
    if m == BitVec.allOnes 64 then s.windowWrite c p 8 v.toNat
    else if m.getLsbD 0 then s.windowWrite c p 4 (v.toNat % 2 ^ 32)
    else s.windowWrite c (p + 4) 4 (v.toNat / 2 ^ 32)
  else s

/-! The service block (R431). -/

def svcGet (s : State) (o : Nat) : Dbl :=
  match o with
  | 0x00 => s.svc.fwstat.setWidth 64
  | 0x08 => s.svc.fwdetail.setWidth 64
  | 0x18 => s.svc.diefence.setWidth 64
  | 0x20 => s.svc.lasers.setWidth 64 <<< 4
  | 0x30 => s.svc.epoch.setWidth 64
  | 0x38 => s.svc.svcstat.setWidth 64
  | 0x40 => BitVec.ofNat 64 ((s.clusters.filter fun (_, c) => c.spared).foldl (fun n (i, _) => n + 2 ^ i) 0)
  | _ => if 0x100000 ≤ o && o < 0x4100000 then BitVec.ofNat 64 (cellsRead s.svc.staging (o - 0x100000) 8) else 0
def svcPut (s : State) (o : Nat) (m v : Dbl) : State :=
  let w := v &&& m
  match o with
  | 0x10 => s.stageFirmware w.toNat
  | 0x18 => s.setFence ((maskIn (s.svc.diefence.setWidth 64) m v).setWidth 4)
  | 0x20 => if m.getLsbD 0 then s.setLaser (w.getLsbD 0) (w.getLsbD 1) (w.getLsbD 2) else s
  | 0x28 =>
    let s := if w.getLsbD 0 then s.leaveFabric else s
    if w.getLsbD 1 then s.joinFabric else s
  | _ =>
    if 0x100000 ≤ o && o < 0x4100000 then
      let bytes := (List.range 8).foldl (fun n i => if m.getLsbD (8 * i) then n + 2 ^ i else n) 0
      { s with svc := { s.svc with staging := cellsMask s.svc.staging (o - 0x100000) 8 bytes v.toNat } }
    else s

/-! The control window (R404, R423, R424, R455). -/

/-- One word of the capability list: until firmware is verified only the service block is listed. -/
def capWord (s : State) (o : Nat) : Dbl :=
  let l := if s.booted then capabilities else capabilities.take 1
  match l[o / 16]? with
  | none => 0
  | some (id, n, base) =>
    if o % 16 == 8 then BitVec.ofNat 64 base
    else
      let next := if o / 16 + 1 < l.length then o + 16 else 0
      BitVec.ofNat 64 (id + 2 ^ 16 + 2 ^ 24 * n + 2 ^ 32 * next)
/-- The 8-byte register at an offset. -/
def regGet (s : State) (o : Nat) : Dbl :=
  if o < 0x1000 then s.capWord o
  else if serviceBlock ≤ o && o < serviceBlock + 0x8000000 then s.svcGet (o - serviceBlock)
  else if !s.booted then 0
  else if devBlock ≤ o && o < devBlock + blockPage then s.devGet (o - devBlock)
  else if queueBlock ≤ o && o < queueBlock + 0x1000 then s.queueGet ((o - queueBlock) / 64) (o % 64)
  else if mooringBlock ≤ o && o < mooringBlock + blockPage then s.moorGet (o - mooringBlock)
  else if securityBlock ≤ o && o < securityBlock + blockPage then s.secGet (o - securityBlock)
  else if dieBlock ≤ o && o < dieBlock + 4 * blockStride then s.dieGet ((o - dieBlock) / blockStride) (o % blockStride)
  else if clusterBlock ≤ o && o < clusterBlock + 64 * blockStride then
    s.clusterGet ((o - clusterBlock) / blockStride) (o % blockStride)
  else 0
/-- Write the masked bits of the 8-byte register at an offset. -/
def regPut (s : State) (o : Nat) (m v : Dbl) : State :=
  if o < 0x1000 then s
  else if serviceBlock ≤ o && o < serviceBlock + 0x8000000 then s.svcPut (o - serviceBlock) m v
  else if !s.booted then s
  else if devBlock ≤ o && o < devBlock + blockPage then s.devPut (o - devBlock) m v
  else if queueBlock ≤ o && o < queueBlock + 0x1000 then s.queuePut ((o - queueBlock) / 64) (o % 64) m v
  else if mooringBlock ≤ o && o < mooringBlock + blockPage then s.moorPut (o - mooringBlock) m v
  else if securityBlock ≤ o && o < securityBlock + blockPage then s.secPut (o - securityBlock) m v
  else if dieBlock ≤ o && o < dieBlock + 4 * blockStride then s.diePut ((o - dieBlock) / blockStride) (o % blockStride) m v
  else if clusterBlock ≤ o && o < clusterBlock + 64 * blockStride then
    s.clusterPut ((o - clusterBlock) / blockStride) (o % blockStride) m v
  else s
/-- Read n (4 or 8) bytes of the window, naturally aligned. -/
def windowGet (s : State) (o n : Nat) : Nat := (s.regGet (o / 8 * 8)).toNat / 2 ^ (8 * (o % 8)) % 2 ^ (8 * n)
/-- Write n (4 or 8) bytes of the window. -/
def windowPut (s : State) (o n v : Nat) : State :=
  let k := 2 ^ (8 * (o % 8))
  s.regPut (o / 8 * 8) (BitVec.ofNat 64 ((2 ^ (8 * n) - 1) * k)) (BitVec.ofNat 64 (v % 2 ^ (8 * n) * k))
/-- A whole register written. -/
def regSet (s : State) (o : Nat) (v : Dbl) : State := s.regPut o (BitVec.allOnes 64) v

/-! Background work: what the device does on its own without a rule that says when. -/

/-- A release of a space ends (R426). -/
def releaseEnds (s : State) : State := { s with dev := { s.dev with spBusy := false } }
/-- The background actions that are under way. -/
def background (s : State) : List (State → State) :=
  (if s.dev.spBusy then [releaseEnds] else []) ++ (if s.sec.busy then [endReport] else [])
    ++ (if s.svc.action != 0 then [serviceStep] else []) ++ (if s.svc.diefence != 0 then [evacuate] else [])
    ++ s.moor.ends.map fun e => endOn e.id

end State

/-! The events: a host's write of a register. -/

/-- CXLWIN_WRITE (R409). -/
def execCxlwinWrite (p : BitVec 2) (val : Dbl) (s : State) : Host.Outcome State Fault Refusal :=
  .next (s.regSet (devBlock + 0x280 + 8 * p.toNat) val)
/-- SPACE_RELEASE (R426): SPACE and GO of SPCTL. -/
def execSpaceRelease (space : BitVec 6) (s : State) : Host.Outcome State Fault Refusal :=
  .next (s.regSet (devBlock + 0x10) (space.setWidth 64 ||| 0x80))
/-- NSSET (R425). -/
def execNsset (val : Dbl) (s : State) : Host.Outcome State Fault Refusal := .next (s.regSet (devBlock + 0x18) val)
/-- PRECTL_REQUEST (R426). -/
def execPrectlRequest (cl : Nat) (entry : BitVec 11) (s : State) : Host.Outcome State Fault Refusal :=
  .next (s.regSet (clusterBlock + cl % 64 * blockStride + 0x10) (entry.setWidth 64 ||| (1#64 <<< 63)))
/-- PRECTL_WITHDRAW (R426). -/
def execPrectlWithdraw (cl : Nat) (entry : BitVec 11) (s : State) : Host.Outcome State Fault Refusal :=
  .next (s.regSet (clusterBlock + cl % 64 * blockStride + 0x10) (entry.setWidth 64))
/-- TLBINV_ALL (R350). -/
def execTlbinvAll (s : State) : Host.Outcome State Fault Refusal := .next (s.regSet (devBlock + 0x40) (1#64 <<< 63))
/-- TLBINV_SPACE (R350). -/
def execTlbinvSpace (space : BitVec 6) (s : State) : Host.Outcome State Fault Refusal :=
  .next (s.regSet (devBlock + 0x40) ((1#64 <<< 62) ||| (space.setWidth 64 <<< 56)))
/-- TLBINV_PAGE (R350). -/
def execTlbinvPage (space : BitVec 6) (page : BitVec 40) (s : State) : Host.Outcome State Fault Refusal :=
  .next (s.regSet (devBlock + 0x40) ((space.setWidth 64 <<< 56) ||| (page.setWidth 64 <<< 16)))
/-- FABRIC_ENABLE (R432). -/
def execFabricEnable (s : State) : Host.Outcome State Fault Refusal := .next (s.regSet (devBlock + 0x50) 1)
/-- LIGHTVESSEL_ENABLE (R432). -/
def execLightvesselEnable (s : State) : Host.Outcome State Fault Refusal := .next (s.regSet (devBlock + 0x50) 2)
/-- PRESENCE_WRITE (R432): all 256 bits. -/
def execPresenceWrite (val : BitVec 256) (s : State) : Host.Outcome State Fault Refusal :=
  .next (if s.booted then s.setPresence val else s)
/-- ATTEST_REQUEST (R435): the last 8 bytes of the nonce. -/
def execAttestRequest (last : Dbl) (s : State) : Host.Outcome State Fault Refusal := .next (s.regSet (securityBlock + 0x138) last)
/-- ATTEST_READY (R435). -/
def execAttestReady (s : State) : Host.Outcome State Fault Refusal := .next s.endReport
/-- KEY_LOAD (R436). -/
def execKeyLoad (space : BitVec 6) (slot : BitVec 4) (s : State) : Host.Outcome State Fault Refusal :=
  .next (s.regSet (securityBlock + 0x408) ((space.setWidth 64 <<< 4) ||| slot.setWidth 64))
/-- KEY_CLEAR (R436). -/
def execKeyClear (space : BitVec 6) (slot : BitVec 4) (s : State) : Host.Outcome State Fault Refusal :=
  .next (s.regSet (securityBlock + 0x408) ((1#64 <<< 63) ||| (space.setWidth 64 <<< 4) ||| slot.setWidth 64))
/-- FIRMWARE_STAGE (R433, R439). -/
def execFirmwareStage (len : Dbl) (s : State) : Host.Outcome State Fault Refusal := .next (s.regSet (serviceBlock + 0x10) len)
/-- DIE_FENCE (R439). -/
def execDieFence (die : BitVec 2) (s : State) : Host.Outcome State Fault Refusal :=
  let d : Dbl := 1#64 <<< die.toNat
  .next (s.regPut (serviceBlock + 0x18) d d)
/-- DIE_UNFENCE (R439). -/
def execDieUnfence (die : BitVec 2) (s : State) : Host.Outcome State Fault Refusal :=
  .next (s.regPut (serviceBlock + 0x18) (1#64 <<< die.toNat) 0)
/-- LASER_OUT (R439). -/
def execLaserOut (dim mod : Bool) (s : State) : Host.Outcome State Fault Refusal := .next (s.setLaser dim mod true)
/-- LASER_IN (R439). -/
def execLaserIn (dim mod : Bool) (s : State) : Host.Outcome State Fault Refusal := .next (s.setLaser dim mod false)
/-- FABRIC_LEAVE (R439). -/
def execFabricLeave (s : State) : Host.Outcome State Fault Refusal := .next (s.regSet (serviceBlock + 0x28) 1)
/-- FABRIC_JOIN (R439). -/
def execFabricJoin (s : State) : Host.Outcome State Fault Refusal := .next (s.regSet (serviceBlock + 0x28) 2)
/-- REGISTER_WRITE (R8): 8 bytes, or 4 for any other size, at the naturally aligned offset. -/
def execRegisterWrite (off : BitVec 32) (size : BitVec 4) (val : Dbl) (s : State) : Host.Outcome State Fault Refusal :=
  let n := if size == 8 then 8 else 4
  .next (s.windowPut (off.toNat / n * n) n val.toNat)

/-! The events of firmware and of the environment. -/

/-- SPARE_CORE (R14, R439). -/
def execSpareCore (core : Nat) (s : State) : Host.Outcome State Fault Refusal := .next (s.spareCore (core % 1024))
/-- POWER_LIMIT_EXCEEDED (R437): cycles are withheld from classes 1 to 3. -/
def execPowerLimitExceeded (die : BitVec 2) (watts : BitVec 16) (s : State) : Host.Outcome State Fault Refusal :=
  let d := s.die die.toNat
  .next (s.setDie die.toNat { d with pwravg := watts, withheld := d.withheld || decide (s.powerLimit die.toNat < watts.toNat) })
/-- POWER_BELOW_LIMIT (R437). -/
def execPowerBelowLimit (die : BitVec 2) (watts : BitVec 16) (s : State) : Host.Outcome State Fault Refusal :=
  let d := s.die die.toNat
  .next (s.setDie die.toNat { d with pwravg := watts, withheld := d.withheld && !decide (watts.toNat < s.powerLimit die.toNat) })
/-- A junction temperature of a die is measured (R438): from 105 °C its limit is 100 W, until it is below 100 °C; when it reaches
115 °C the die is fenced, if it is not yet, and the cause logged. -/
def State.thermal (s : State) (n : Nat) (temp : BitVec 8) : State :=
  let d := s.die n
  let t := temp.toNat
  let s1 := s.setDie n { d with temp := temp, throttled := decide (105 ≤ t) || (d.throttled && decide (100 ≤ t)) }
  if t < 115 || 115 ≤ d.temp.toNat then s1
  else (if s1.svc.diefence.getLsbD n then s1 else s1.fenceDie n).log n 8 n 0 0xB5 (temp.setWidth 64) 0 0
/-- THERMAL_THROTTLE (R438). -/
def execThermalThrottle (die : BitVec 2) (temp : BitVec 8) (s : State) : Host.Outcome State Fault Refusal :=
  .next (s.thermal die.toNat temp)
/-- THERMAL_RECOVERY (R438). -/
def execThermalRecovery (die : BitVec 2) (temp : BitVec 8) (s : State) : Host.Outcome State Fault Refusal :=
  .next (s.thermal die.toNat temp)
/-- THERMAL_FENCE (R438). -/
def execThermalFence (die : BitVec 2) (temp : BitVec 8) (s : State) : Host.Outcome State Fault Refusal :=
  .next (s.thermal die.toNat temp)
/-- PATROL_SCRUB (R420, R421): the scrub reads the channel; how many of its lines meet an error, and which, are free values
(log 4). -/
def execPatrolScrub (ch : BitVec 8) (s : State) : Host.Outcome State Fault Refusal :=
  let c := s.chan ch.toNat
  let s := s.setChan ch.toNat { c with scrubbed := s.cycle }
  let (n, s) := s.free
  .next ((List.range (n.toNat % 65536)).foldl (fun s _ =>
    let (v, s) := s.free
    let l := (s.devBase + v.toNat % 2 ^ 39) / 128
    if windowOf (localOf (128 * l)) == .hbm && s.channelOf (localOf (128 * l)) == ch.toNat then s.lineErrors l else s) s)
/-- ROW_REPAIR (R422): a row of 16 corrected errors within 24 hours is copied to a spare, and its errors are counted anew; `last`
says that the bank has no spare left. Another row is not repaired. -/
def execRowRepair (ch : BitVec 8) (row : Nat) (last : Bool) (s : State) : Host.Outcome State Fault Refusal :=
  let c := s.chan ch.toNat
  .next (if s.rowErrors ch.toNat row < 16 then s
    else (s.setChan ch.toNat { c with repaired := row :: c.repaired, rows := c.rows.filter fun (r, _) => r != row }).log
      (ch.toNat / 64) 1 ch.toNat 0 0xB4 (BitVec.ofNat 64 row) (if last then 1 else 0) 0)
/-- What memory holds after a HILMAP change has taken effect: free bytes where something was listed (R407; log 5). -/
def scramble (m : List Host.Cell) : List Host.Cell :=
  (m.map fun (a, _) => (a, Config.scrambled a)).filter fun (_, b) => b != blankByte
/-- DEVICE_RESET (R433): the device is as after power-on, at step 1, but for what a reset keeps: memory with its poison, tags
and repaired rows, EPOCH, HILMAP, which takes effect now, and the model's own inputs and free-value counter. -/
def execDeviceReset (s : State) : Host.Outcome State Fault Refusal :=
  let r := State.reset
  let s := s.closePorts.setDevid 0
  .next { r with
    mem := if s.dev.hilmap == s.dev.hilmapLive then s.mem else scramble s.mem,
    ports := s.ports,
    homes := { r.homes with
      poison := s.homes.poison, tags := s.homes.tags,
      counts := s.homes.counts.map fun (n, c) => (n, ({ repaired := c.repaired } : ChanCount)) },
    dev := { r.dev with hilmap := s.dev.hilmap, hilmapLive := s.dev.hilmap },
    svc := { r.svc with epoch := s.svc.epoch },
    sec := { r.sec with resets := s.sec.resets + 1 },
    moor := { r.moor with modules := s.moor.modules },
    inputs := s.inputs, tick := s.tick }

end Sys2Proof.Machine
end

