-- ==== Sys2Proof/Machine/Linear.lean ====
section
/-! DEFINITION. Linear memory (R243 to R260, R275, R276, R279): loads, stores, atomics and `mcas` of the T slot, range words,
prefetch and flagged stores, and the events that perform their accesses. -/

namespace Sys2Proof.Machine
namespace State

/-! Program order in a context (R244, R279). -/

/-- The operations in flight of a context number, in the context or in the record of the member that left it. -/
def flightsOf (s : State) (c : Nat) : List Flight :=
  (s.ctx c).flights ++ s.clusters.flatMap fun (_, k) => k.entries.flatMap fun (_, e) => e.saved.flatMap fun (y : Saved) =>
    if y.left == c then y.cx.flights else []
/-- The line is one that a flight has an access to perform in. -/
def touches (f : Flight) (l : Nat) : Bool :=
  match f.kind with
  | .mem lanes _ => lanes.any fun (a : Lane) => a.gpa / 128 == l
  | _ => false
/-- The lines that a running copy reads, or writes, in linear memory: none while they are not all known. -/
def copyLines (s : State) (cl : Nat) (j : CopyJob) (write : Bool) : Option (List Nat) :=
  (s.copyRanges cl j write false).bind fun rs =>
    let ls := rs.flatMap fun (a, n) => (List.range ((a % 128 + n + 127) / 128)).map fun i =>
      match s.translate none cl j.space (BitVec.ofNat 64 (128 * (a / 128 + i))) (if write then .write else .read) with
      | (_, .ok t) => some (some (t.gpa / 128))
      | (t, .error _) => if t.waits.isEmpty then some none else none
    if ls.all Option.isSome then some (ls.filterMap Option.join) else none
/-- The access that a transaction performs or begins for a context: its context, its number. -/
def useOf : TxnUse → Option (Nat × Nat)
  | .store c a _ _ | .flagged c a _ _ _ => some (c, a)
  | .rmw _ _ _ _ _ (.store c a _ _) | .rmw _ _ _ _ _ (.flagged c a _ _ _) => some (c, a)
  | _ => none
/-- An older store of the context to another device, or the flag of an older `rstf`, has the line still to write (R244, R279). -/
def olderStore (s : State) (c id l : Nat) : Bool :=
  (s.fab.txns.any fun x => (match useOf x.use_ with | some (d, a) => d == c && a < id | none => false) && txnWrites x l)
    || s.homes.held.any fun f => f.src == s.dev.devid && f.type == 5 && f.data.toNat / 2 ^ 128 == c && f.aux.toNat < id
      && f.gpa.toNat / 128 == l
/-- An older access of the context has the line still to access: a load, an atomic, a store that has left, a flag, a copy. -/
def olderFlight (s : State) (c id l : Nat) : Bool :=
  ((s.flightsOf c).any fun f => f.id < id && touches f l)
    || s.olderStore c id l
    || (s.cluster (c / 64)).copies.any fun j =>
      j.ctx == c && j.id < id
        && ((s.copyLines (c / 64) j true).elim true (·.contains l) || (s.copyLines (c / 64) j false).elim true (·.contains l))
/-- The accesses that a release waits for are complete at its scope (R276, R280). -/
def released (s : State) (after : List Nat) (coreOnly : Bool) : Bool :=
  let waits := fun (x : Context) => x.opens.any fun (o : OpenAccess) => after.contains o.id && !(coreOnly && o.coreDone)
  after.isEmpty || !(waits s.cx || s.others.any (fun (_, x) => waits x)
    || s.clusters.any fun (_, c) => c.entries.any fun (_, e) => e.saved.any fun (y : Saved) => waits y.cx)

/-! Performing a write from a core's queue (R243, R276). -/

/-- Before a write goes to another device's home, copies of a tracked line in this device's caches are written back and
invalidated (R243, R278, R378). -/
def dropCopies (s : State) (k : PageKind) (l : Nat) : State :=
  if k.tracked then (s.recallTo l .s).invalidateOthers l none else s
/-- A write of up to 8 bytes at another device's home: WR, or a read-modify-write of an encrypted line. The issuing core's
untracked copy follows it (R243). -/
def remotePut (s : State) (core : Nat) (k : PageKind) (gpa n v : Nat) (u : TxnUse) : State × Perf :=
  let m := byteMask (gpa % 128) n
  let d := lineValue (gpa % 128) (v % 2 ^ (8 * n))
  if s.deviceLost (devOf gpa) then (s, .fail 0x80)
  else
    let s := s.dropCopies k (gpa / 128)
    if k.key == 0 then
      let f0 : Flit := s.flitTo 0x03 true gpa
      let f : Flit := { f0 with space := k.space, aux := BitVec.ofNat 64 n, inl := BitVec.ofNat 256 (v % 2 ^ 64) }
      (((s.send f u).2).copyPut core (gpa / 128) m d, .sent)
    else match s.sendMerge k.space k.key (gpa / 128) m d u with
      | (s, none) => (s.copyPut core (gpa / 128) m d, .sent)
      | (s, some e) => (s, .fail e)
/-- A request of a line cache, refused under the other T value (R348). -/
def cacheAccess (s : State) (k : PageKind) (gpa : Nat) (go : State → State × Perf) : State × Perf :=
  if s.aliased (gpa / 65536) k.tracked then (s.logAlias gpa k.space, .fail 0x25) else go s
/-- Perform a queued write. -/
def performWrite (s : State) (core : Nat) (q : QueuedWrite) : State × Perf :=
  let k : PageKind := ⟨q.space, q.leaf.extractLsb' 8 8, q.leaf.getLsbD 4⟩
  let u : TxnUse := .store q.ctx q.id q.va q.header
  let w := windowOf (localOf q.gpa)
  if !s.ownDevice q.gpa then
    if q.policy == .b || w == .silt || w == .control then s.remotePut core k q.gpa q.size q.value u
    else if s.deviceLost (devOf q.gpa) then (s, .fail 0x80)
    else s.cacheAccess k q.gpa fun s => s.remoteWrite core k q.policy q.gpa q.size q.value u
  else if w == .silt then
    if s.lineLocked (q.gpa / 128) then (s, .wait)
    else match s.siltSet k.space k.key q.gpa q.size q.value with
      | .ok s => (s, .done 0)
      | .error (e, s) => (s, .fail e)
  else if q.policy == .b then s.writeAt core k .b q.gpa q.size q.value
  else s.cacheAccess k q.gpa fun s => s.writeAt core k q.policy q.gpa q.size q.value
def unqueue (s : State) (core id : Nat) : State :=
  let c := s.core core
  s.setCore core { c with queue := c.queue.filter fun (q : QueuedWrite) => q.id != id }
/-- Try to perform a queued write whose older accesses are performed: whether it has left the queue. -/
def runWrite (s : State) (core : Nat) (q : QueuedWrite) : State × Bool :=
  if !s.released q.after q.coreOnly || s.olderFlight q.ctx q.id (q.gpa / 128) then (s, false)
  else match s.performWrite core q with
    | (s, .wait) => (s, false)
    | (s, .done _) => ((s.unqueue core q.id).closeAccess q.id, true)
    | (s, .sent) => (s.unqueue core q.id, true)
    | (s, .fail e) =>
      let own := s.ownDevice q.gpa
      ((s.unqueue core q.id).storeFailed q.ctx q.id q.va q.header e (if own then 2 else 16) (!(own && e == 0xB2)) q.lane, true)
/-- Perform a core's queued writes to a line that are older than an access, whichever context made them (R276); false when one
must wait. -/
def settleLine (s : State) (core l id : Nat) : Nat → State × Bool
  | 0 => (s, false)
  | n + 1 =>
    match (s.core core).queue.find? fun (q : QueuedWrite) => q.gpa / 128 == l && q.id < id with
    | none => (s, true)
    | some q =>
      match s.runWrite core q with
      | (s, true) => s.settleLine core l id n
      | r => r
/-- Settle a line for an access with a number. -/
def settle (s : State) (core l id : Nat) : State × Bool := s.settleLine core l id ((s.core core).queue.length + 1)
/-- Settle several lines. -/
def settleLines (s : State) (core id : Nat) : List Nat → State × Bool
  | [] => (s, true)
  | l :: r =>
    match s.settle core l id with
    | (s, true) => s.settleLines core id r
    | q => q

/-! Performing the accesses of loads and atomics (R243, R253 to R256). -/


/-- What an atomic writes for an old value: none when a `cas` does not match. -/
def amoNew (op : MemOp) (l : Lane) (old : Nat) : Option Nat :=
  if op.cas then (if old == l.expected.toNat % 2 ^ (8 * op.size) then some (l.operand.toNat % 2 ^ (8 * op.size)) else none)
  else some (atomicNew (op.amo.getD .swap) op.size old l.operand)

/-- An access at another device (R374; payloads: log 15). -/
def remoteAccess (s : State) (core : Nat) (k : PageKind) (c id : Nat) (op : MemOp) (l : Lane) : State × Perf :=
  let w := windowOf (localOf l.gpa)
  let u : TxnUse := .lane c id l.i
  if s.deviceLost (devOf l.gpa) then (s, .fail 0x80)
  else if op.amo.isSome || op.cas then
    let s := if k.tracked then s else match s.lineOf core (l.gpa / 128) with
      | some ln => (s.mergeOut core ln).dropLine core ln.line
      | none => s
    let code := if op.cas then 10 else amoCode (op.amo.getD .swap)
    let f0 : Flit := s.flitTo 0x05 true l.gpa
    let f : Flit := { f0 with
      space := k.space, key := k.key.setWidth 4,
      inl := BitVec.ofNat 256 (code + 2 ^ 8 * op.size + 2 ^ 64 * l.operand.toNat + 2 ^ 128 * l.expected.toNat) }
    ((s.send f u).2, .sent)
  else if op.policy == .b || w == .silt || w == .control then
    if s.writeUnderway (l.gpa / 128) then (s, .wait)
    else
      let t : BitVec 8 := if k.key == 0 then 0x01 else 0x02
      let f0 : Flit := s.flitTo t false l.gpa
      let f : Flit := { f0 with
        space := k.space, key := k.key.setWidth 4, aux := BitVec.ofNat 64 op.size, inl := if k.key == 0 then 0 else 2 }
      ((s.send f u).2, .sent)
  else s.cacheAccess k l.gpa fun s => s.remoteRead core k l.gpa op.size
/-- Perform one access of a load or an atomic. -/
def performLane (s : State) (core : Nat) (sp : BitVec 6) (c id : Nat) (op : MemOp) (l : Lane) : State × Perf :=
  let k : PageKind := ⟨sp, l.leaf.extractLsb' 8 8, l.leaf.getLsbD 4⟩
  if !s.ownDevice l.gpa then s.remoteAccess core k c id op l
  else if op.amo.isSome || op.cas then s.atomicHome (some core) k l.gpa op.size (amoNew op l)
  else if windowOf (localOf l.gpa) == .silt then s.siltLoad k.space k.key l.gpa op.size
  else if op.policy == .b then s.readAt core k .b l.gpa op.size
  else s.cacheAccess k l.gpa fun s => s.readAt core k op.policy l.gpa op.size
/-- List a further access of the context that holds an operation in flight. -/
def alsoOpen (s : State) (id new : Nat) (sets : BitVec 5) : State :=
  match s.findFlight id with
  | some (h, _, x) => s.putHolder h { x with opens := x.opens ++ [⟨new, sets, false, none⟩] }
  | none => s
/-- The line of an `.s` read is not retained (R243): its merge is an access of its own. -/
def releaseStreamed (s : State) (core c id : Nat) (l : Lane) (header : BitVec 56) : State :=
  match s.lineOf core (l.gpa / 128) with
  | none => s
  | some ln =>
    if outMask ln == 0 then (s.dropStream core ln.line .plain).1
    else
      let own := s.ownDevice l.gpa
      let (new, s) := s.newId
      let s := s.alsoOpen id new (if own then 2 else 16)
      match s.dropStream core ln.line (.store c new l.va header) with
      | (s, .done _) => s.closeAccess new
      | (s, .fail e) => s.storeFailed c new l.va header e (if own then 2 else 16) true
      | (s, _) => s
/-- The lane performed next: a free choice, but the lowest of the lanes that name one location (R256). -/
def pickLane (lanes : List Lane) (v : BitVec 64) : Option Lane :=
  let todo := lanes.filter fun (l : Lane) => !l.sent
  (todo[v.toNat % max 1 todo.length]?).bind fun l =>
    match lanes.find? fun (m : Lane) => m.gpa == l.gpa with
    | some m => if m.sent then none else some m
    | none => none
/-- Perform the other lanes of a vector load that lie in the line of one just performed: a line is read whole (R298). -/
def restOfLine (s : State) (core : Nat) (sp : BitVec 6) (c : Nat) (f : Flight) (op : MemOp) : List Lane → State
  | [] => s
  | l :: r =>
    match s.performLane core sp c f.id op l with
    | (s, .done v) => (s.laneOver f.id l.i (.ok v)).restOfLine core sp c f op r
    | (s, .fail e) => (s.laneOver f.id l.i (.error (s.laneFault f l op e))).restOfLine core sp c f op r
    | _ => s
/-- Perform one access of an operation in flight, if the program order allows it now; a vector load's with those of its line. -/
def memStep (s : State) (c : Nat) (sp : BitVec 6) (f : Flight) (lanes : List Lane) (op : MemOp) : State :=
  let core := c / 4
  let again := fun (s : State) (d : Nat) => s.later d (.interlockedCompletion c f.id)
  if lanes.all Lane.sent then s
  else if !s.released op.after op.coreOnly then again s 16
  else
    let (v, s) := s.free
    match pickLane lanes v with
    | none => again s 16
    | some l =>
      if s.olderFlight c f.id (l.gpa / 128) then again s 16
      else match s.settle core (l.gpa / 128) f.id with
        | (s, false) => again s 16
        | (s, true) =>
          match s.performLane core sp c f.id op l with
          | (s, .wait) => again s 16
          | (s, .sent) => again (s.mapLane f.id l.i fun a => { a with sent := true }) 0
          | (s, .fail e) => again (s.laneOver f.id l.i (.error (s.laneFault f l op e))) 0
          | (s, .done v) =>
            let s := if op.policy == .s && op.amo.isNone && !op.cas then s.releaseStreamed core c f.id l f.header else s
            let mates := if op.amo.isSome || op.cas then [] else
              lanes.filter fun (m : Lane) => m.i != l.i && !m.sent && m.gpa / 128 == l.gpa / 128
            again ((s.laneOver f.id l.i (.ok v)).restOfLine core sp c f op mates) 0

/-! Checks at issue (R245, R252, R347, R348, R374, R404). -/


/-- The checks of one access. `cached` says that a line cache is asked, `window` that the access may reach the control
window (R455). -/
def laneCheck (s : State) (va : Dbl) (n : Nat) (kind : Access) (cached window : Bool) : State × Except FaultInfo Xlat :=
  let code := accessCode kind
  if va.toNat % n != 0 then (s, .error (s.memFault 0x24 va code 15 0))
  else match s.xlat va kind with
    | (s, .error f) => (s, .error f)
    | (s, .ok t) =>
      let w := windowOf (localOf t.gpa)
      if s.remoteLost t.gpa then (s, .error (s.memFault 0x80 va code 15 t.leaf))
      else if w == .hole then (s, .error (s.memFault 0x2D va code 15 t.leaf))
      else if w == .control then
        if window && (n == 4 || n == 8) && t.leaf.extractLsb' 8 8 == 0 then (s, .ok t)
        else (s, .error (s.memFault 0x2D va code 15 t.leaf))
      else if cached && w != .silt && s.aliased (t.gpa / 65536) (t.leaf.getLsbD 4) then
        (s.logAlias t.gpa s.cx.id.space, .error (s.memFault 0x25 va code 15 t.leaf))
      else (s, .ok t)
/-- The checks of every active lane; the lowest failing lane's cause, with its number (R252). -/
def lanesCheck (s : State) (n : Nat) (kind : Access) (cached : Bool) : List (Nat × Dbl) → State × Except FaultInfo (List (Nat × Dbl × Xlat))
  | [] => (s, .ok [])
  | (i, va) :: r =>
    match s.laneCheck va n kind cached false with
    | (s, .error f) => (s, .error { f with i0 := BitVec.ofNat 64 i })
    | (s, .ok t) =>
      match s.lanesCheck n kind cached r with
      | (s, .ok l) => (s, .ok ((i, va, t) :: l))
      | e => e

/-! Issuing loads, atomics and stores. -/

/-- The fence sets of an operation (R275): those of the own device's accesses, and F when one names another device. -/
def setsOf (s : State) (own : BitVec 5) (gpas : List Nat) : BitVec 5 :=
  (if gpas.any s.ownDevice || gpas.isEmpty then own else 0) ||| (if gpas.all s.ownDevice then 0 else 16)
/-- Start a load or an atomic: an operation in flight, an acquire's waiting point with it. -/
def startMem (s : State) (dests : List Reg) (lanes : List Lane) (op : MemOp) (sets : BitVec 5) (acq rel : Bool) : State :=
  let gpas := lanes.map Lane.gpa
  let away := !gpas.all s.ownDevice
  let coreOnly := s.issue.scope == 0 && !away
  let op1 : MemOp := { op with after := if rel then s.earlier coreOnly else [], coreOnly := coreOnly }
  if lanes.isEmpty then s.flightBound dests []
  else
    let (id, s) := s.openAccess (s.setsOf sets gpas) false
    let f : Flight := ⟨id, .mem lanes op1, dests, [], s.issue.pc⟩
    let bar : List Barrier := if acq then [⟨31, [id], coreOnly⟩] else []
    let s1 : State := { s with cx := { s.cx with flights := s.cx.flights ++ [f], barriers := s.cx.barriers ++ bar } }
    s1.later 0 (.interlockedCompletion s.here id)
/-- Note that the bundle has an access of these sets that is complete at once (R133, R275). -/
def touchSets (s : State) (sets : BitVec 5) : State := { s with issue := { s.issue with touched := s.issue.touched ||| sets } }
/-- A scalar load (R247, R455). -/
def loadWord (s : State) (d : BitVec 5) (va : Dbl) (n : Nat) (sx : Bool) (pol : Policy) (acq : Bool) : State :=
  match s.laneCheck va n .read (pol != .b) true with
  | (s, .error f) => s.takeTrap f
  | (s, .ok t) =>
    if windowOf (localOf t.gpa) == .control && s.ownDevice t.gpa then
      (s.touchSets 1).flightBound [.x d] [.x d (extendTo64 sx n (s.windowGet (localOf t.gpa % 2 ^ 32) n))]
    else
      let l : Lane := { i := 0, va := va, gpa := t.gpa, leaf := t.leaf }
      s.startMem [.x d] [l] { size := n, sext := sx, policy := pol } 1 acq false
/-- Put one access of a store into the core's write queue (R276). -/
def queueWrite (s : State) (va : Dbl) (t : Xlat) (n : Nat) (v : Nat) (pol : Policy) (after : List Nat) (coreOnly : Bool)
    (lane : Nat := 0) : State :=
  let own := s.ownDevice t.gpa
  let done := own && t.leaf.getLsbD 4 && pol != .b && windowOf (localOf t.gpa) != .silt
  let (id, s) := s.openAccess (if own then 2 else 16) done
  let q : QueuedWrite := ⟨id, s.here, va, t.gpa, t.leaf, n, v % 2 ^ (8 * n), pol, s.cx.id.space, after, coreOnly, s.issue.pc, lane⟩
  let c := s.core s.hereCore
  (s.setCore s.hereCore { c with queue := c.queue ++ [q] }).later 0 (.lineWriteMiss s.hereCore id)
/-- A scalar store (R247, R455). -/
def storeWord (s : State) (x : Dbl) (va : Dbl) (n : Nat) (pol : Policy) (rel : Bool) : State :=
  match s.laneCheck va n .write (pol != .b) true with
  | (s, .error f) => s.takeTrap f
  | (s, .ok t) =>
    let own := s.ownDevice t.gpa
    if windowOf (localOf t.gpa) == .control && own then
      if rel && !s.settled s.issue.scope then s.stall else (s.touchSets 2).windowPut (localOf t.gpa % 2 ^ 32) n x.toNat
    else s.queueWrite va t n x.toNat pol (if rel then s.earlier (s.issue.scope == 0 && own) else []) (s.issue.scope == 0 && own)
/-- A word's post-increment, unless it trapped or stalled. -/
def postAdd (r s : State) (a : BitVec 5) (off : Dbl) : State :=
  if r.issue.verdict == .done then r.wx 1 a (s.rx a + off) else r
/-- Active lanes with their strided addresses (R250). -/
def stridedLanes (s : State) (k : BitVec 4) (a b : BitVec 5) : List (Nat × Dbl) :=
  ((List.range 64).filter fun i => (s.rk k).getLsbD i).map fun i => (i, s.rx a + BitVec.ofNat 64 i * s.rx b)
/-- Active lanes with their indexed addresses; the index register is not rotated (R249, R250). -/
def indexedLanes (s : State) (m : BitVec 64) (a vi : BitVec 5) : List (Nat × Dbl) :=
  ((List.range 64).filter fun i => m.getLsbD i).map fun i => (i, s.rx a + (lane (s.rv (vi.setWidth 6)) i).signExtend 64)
/-- Bytes of a vector access (R249). -/
def vecBytes (z : BitVec 2) : Nat := match z.toNat with | 0 => 4 | 1 => 2 | _ => 1
/-- A vector load (R250, R252). -/
def vecLoad (s : State) (v : BitVec 6) (z : BitVec 2) (l : List (Nat × Dbl)) : State :=
  match s.lanesCheck (vecBytes z) .read true l with
  | (s, .error f) => s.takeTrap f
  | (s, .ok l) =>
    let lanes := l.map fun (i, va, t) => ({ i := i, va := va, gpa := t.gpa, leaf := t.leaf } : Lane)
    s.startMem [.v (physV v s.cx.vrot)] lanes { size := vecBytes z, sext := z == 3 } 1 false false
/-- The byte of a D8 store to linear memory, and the generator after it (R251). -/
def d8Linear (c : BitVec 32) (gen : BitVec 64) : BitVec 8 × BitVec 64 :=
  let code : BitVec 8 := c.setWidth 8
  if laneSigma c == 0 then (code, gen)
  else match laneVal .d8 c with
    | .nan => (0x80, gen)
    | .inf s => (if s then 0xFF else 0x7F, gen)
    | .fin s q => if Frac.le q.abs ⟨1000000, 1⟩ then toD8 (.fin s q) 0 gen else (if s then 0xFF else 0x7F, gen)
/-- The values a vector store writes, in ascending lane order, with the generator after its conversions. -/
def storeValues (z : BitVec 2) (v : VReg) : List (Nat × Dbl × Xlat) → BitVec 64 → List (Nat × Nat × Dbl × Xlat) × BitVec 64
  | [], g => ([], g)
  | (i, va, t) :: r, g =>
    let (b, g) := if z == 3 then (let (b, g) := d8Linear (lane v i) g; (b.toNat, g)) else ((lane v i).toNat, g)
    let (l, g) := storeValues z v r g
    ((i, b, va, t) :: l, g)
/-- A vector store (R250 to R252). -/
def vecStore (s : State) (v : BitVec 6) (z : BitVec 2) (l : List (Nat × Dbl)) : State :=
  match s.lanesCheck (vecBytes z) .write true l with
  | (s, .error f) => s.takeTrap f
  | (s, .ok l) =>
    let (vals, g) := storeValues z (s.rv v) l s.cx.stoch
    let s : State := { s with cx := { s.cx with stoch := g } }
    vals.foldl (fun s (i, x, va, t) => s.queueWrite va t (vecBytes z) x .c [] false i) s
/-- `amo` and `cas` (R253 to R255, R280). -/
def atomicWord (s : State) (d a b : BitVec 5) (n : Nat) (amo : Option AtomicOp) (r : BitVec 2) : State :=
  let va := s.rx a
  match s.laneCheck va n .atomic false false with
  | (s, .error f) => s.takeTrap f
  | (s, .ok t) =>
    let l : Lane := { i := 0, va := va, gpa := t.gpa, leaf := t.leaf, operand := s.rx b, expected := s.rx d }
    s.startMem [.x d] [l] { size := n, sext := true, policy := .b, amo := amo, cas := amo.isNone } 3 (r.getLsbD 0) (r.getLsbD 1)

/-! Reading what the issuing context reads (R258, R262). -/

/-- Read n bytes within a line as a `.c` load does now: none while it must wait. -/
def readNow (s : State) (va : Dbl) (n : Nat) : State × Except FaultInfo (Option Nat) :=
  match s.laneCheck va 8 .read true false with
  | (s, .error f) => (s, .error f)
  | (s, .ok t) =>
    let l := t.gpa / 128
    if s.olderFlight s.here s.tick l then (s, .ok none)
    else match s.settle s.hereCore l s.tick with
      | (s, false) => (s, .ok none)
      | (s, true) =>
        let k : PageKind := ⟨s.cx.id.space, t.leaf.extractLsb' 8 8, t.leaf.getLsbD 4⟩
        let own := s.ownDevice t.gpa
        let r :=
          if windowOf (localOf t.gpa) == .silt then
            if own then s.siltLoad k.space k.key t.gpa n
            else match s.homeGet k.space k.key t.gpa n with
              | (s, .ok v) => (s, .done v)
              | (s, .error e) => (s, if s.waits.isEmpty then .fail e else .wait)
          else if own then s.readAt s.hereCore k .c t.gpa n
          else s.remoteRead s.hereCore k t.gpa n
        match r with
        | (s, .done v) => (s, .ok (some v))
        | (s, .fail e) => (s, .error (s.memFault e va 0 15 t.leaf))
        | (s, _) => (s, .ok none)
/-- Read consecutive 32-byte records, the first at an address; a fault names none of them. -/
def readRecords (s : State) (va : Dbl) : Nat → State × Except FaultInfo (Option (List (BitVec 256)))
  | 0 => (s, .ok (some []))
  | n + 1 =>
    match s.readNow va 32 with
    | (s, .error f) => (s, .error f)
    | (s, .ok none) => (s, .ok none)
    | (s, .ok (some v)) =>
      match s.readRecords (va + 32) n with
      | (s, .ok (some l)) => (s, .ok (some (BitVec.ofNat 256 v :: l)))
      | r => r

/-! `mcas` (R257, R258). -/

/-- Translate and check the entries in order: the first fault names its entry and ADDR. -/
def mcasEntries (s : State) (i : Nat) : List (BitVec 256) → State × Except FaultInfo (List McasEntry)
  | [] => (s, .ok [])
  | w :: r =>
    let n := if w.getLsbD 192 then 8 else 4
    let va : Dbl := w.extractLsb' 0 64
    match s.laneCheck va n .atomic false false with
    | (s, .error f) => (s, .error { f with i0 := BitVec.ofNat 64 i })
    | (s, .ok t) =>
      match s.mcasEntries (i + 1) r with
      | (s, .ok l) =>
        let m := 2 ^ (8 * n) - 1
        let e : McasEntry := ⟨va, t.gpa, n, w.extractLsb' 64 64 &&& BitVec.ofNat 64 m, w.extractLsb' 128 64 &&& BitVec.ofNat 64 m,
          t.leaf.extractLsb' 8 8, t.leaf.getLsbD 4⟩
        (s, .ok (e :: l))
      | e => e
/-- The lowest entry with a non-zero reserved field or with bytes of an earlier one (R258 step 2). -/
def mcasBad (ws : List (BitVec 256)) (es : List McasEntry) : Option Nat :=
  (List.range es.length).find? fun i =>
    match ws[i]?, es[i]? with
    | some w, some e =>
      w.extractLsb' 193 63 != 0 || (List.range i).any fun j =>
        match es[j]? with
        | some d => d.gpa < e.gpa + e.size && e.gpa < d.gpa + d.size
        | none => false
    | _, _ => false
/-- Accept an `mcas`: an operation in flight that locks its lines one after another. -/
def startMcas (s : State) (d : BitVec 5) (es : List McasEntry) : State :=
  let gpas := es.map McasEntry.gpa
  let (id, s) := s.openAccess (s.setsOf 3 gpas) false
  let m : McasOp := ⟨id, s.here, id, s.cx.id.space, es, s.issue.pc, [], 0, none, none, false, [], s.cycle⟩
  let f : Flight := ⟨id, .mcas id, [.x d], [], s.issue.pc⟩
  let s1 : State := { s with
    homes := { s.homes with mcas := s.homes.mcas ++ [m] },
    cx := { s.cx with flights := s.cx.flights ++ [f],
                      barriers := s.cx.barriers ++ [(⟨31, [id], s.issue.scope == 0 && gpas.all s.ownDevice⟩ : Barrier)] } }
  s1.later 0 (.interlockedCompletion s.here id)

/-! Range words (R259). -/

/-- A page of a range: skipped, trapped at, or its translation. -/
inductive RangePage where
  | skip
  | fault (f : FaultInfo)
  | page (t : Xlat)
/-- Translate a page for a range word: it needs no permission but W for the words that drop lines. -/
def rangePage (s : State) (va : Dbl) (drops : Bool) : State × RangePage :=
  let r := match s.xlat va .read with
    | (s, .error f) => if f.cause == 0x21 then s.xlat va .fetch else (s, .error f)
    | r => r
  match r with
  | (s, .error f) => (s, if f.cause == 0x20 then .skip else .fault f)
  | (s, .ok t) => (s, if drops && !t.leaf.getLsbD 2 then .fault (s.memFault 0x22 va 1 15 t.leaf) else .page t)
/-- The mapped pages of a range from a page number on, with their virtual addresses, or the first fault. -/
def rangePages (s : State) (p : Nat) (drops : Bool) : Nat → State × Except FaultInfo (List (Nat × Nat))
  | 0 => (s, .ok [])
  | n + 1 =>
    let va : Dbl := BitVec.ofNat 64 (65536 * p)
    match s.rangePage va drops with
    | (s, .fault f) => (s, .error f)
    | (s, r) =>
      match s.rangePages (p + 1) drops n with
      | (s, .ok l) => (s, .ok (match r with | .page t => (p, t.gpa / 65536) :: l | _ => l))
      | e => e
/-- The lines of the core's cache that lie in a range, with their virtual addresses. -/
def rangeLines (s : State) (first last : Nat) (pages : List (Nat × Nat)) : List (Nat × Nat) :=
  (s.core s.hereCore).lines.filterMap fun ln =>
    (pages.find? fun (p, g) => g == ln.line / 512 && first ≤ 512 * p + ln.line % 512 && 512 * p + ln.line % 512 ≤ last).map fun (p, _) =>
      (ln.line, 512 * p + ln.line % 512)
/-- Perform a context's queued writes whose addresses lie in a range of lines; false when one must wait. Addresses are of 56 bits
(R456). -/
def settleRange (s : State) (first last : Nat) : Nat → State × Bool
  | 0 => (s, false)
  | n + 1 =>
    let inside := fun (q : QueuedWrite) =>
      q.ctx == s.here && (q.va.toNat % 2 ^ 56 / 128 + 2 ^ 49 - first % 2 ^ 49) % 2 ^ 49 ≤ last - first
    match (s.core s.hereCore).queue.find? inside with
    | none => (s, true)
    | some q =>
      match s.runWrite s.hereCore q with
      | (s, true) => s.settleRange first last n
      | r => r
/-- Perform a range word: a write event, whatever it finds in the cache (R275). -/
def rangeWord (s : State) (a b : BitVec 5) (keep discard : Bool) : State :=
  let start := (s.rx a).toNat
  let len := (s.rx b).toNat
  if len == 0 then s
  else
    let s := s.touchSets 2
    let first := start / 128
    let last := (start + len - 1) / 128
    match s.rangePages (first / 512) (!keep) (last / 512 - first / 512 + 1) with
    | (s, .error f) => s.takeTrap f
    | (s, .ok pages) =>
      if (s.rangeLines first last pages).any fun (l, _) => s.olderFlight s.here s.tick l then s.stall
      else match s.settleRange first last ((s.core s.hereCore).queue.length + 1) with
      | (s, false) => s.stall
      | (s, true) =>
        let lines := s.rangeLines first last pages
        let held := fun (l : Nat) => match s.lineOf s.hereCore l with | some ln => s.mergeHeld ln | none => false
        if !discard && lines.any fun (l, _) => held l then s.stall
        else lines.foldl (fun s (l, v) =>
          let va : Dbl := BitVec.ofNat 64 (128 * v)
          let own := s.ownDevice (128 * l)
          -- a fence with W waits for every merge (R259); one toward another device is an F event, which reports it (R375)
          let (id, s) := s.openAccess (if own then 2 else 18) false
          match s.rangeLine s.hereCore l keep discard (.store s.here id va s.issue.pc) with
          | (s, .fail e) => s.storeFailed s.here id va s.issue.pc e (if own then 2 else 16) true
          | (s, .sent) => s
          | (s, _) => s.closeAccess id) s

/-! `rstf` (R376). -/

/-- The atomic add of 1 that raises a flag (payload of AMO: log 15). -/
def flagFlit (s : State) (t : Xlat) : Flit :=
  let f0 : Flit := s.flitTo 0x05 true t.gpa
  { f0 with space := s.cx.id.space, key := t.leaf.extractLsb' 8 4, inl := BitVec.ofNat 256 (1 + 2 ^ 8 * 8 + 2 ^ 64) }
/-- The byte masks and data of the two lines that 64 lanes of 4 bytes fill. -/
def flagHalf (m : BitVec 64) (v : VReg) (h : Nat) : BitVec 128 × BitVec 1024 :=
  (BitVec.ofNat 128 ((List.range 32).foldl (fun n i => if m.getLsbD (32 * h + i) then n + 15 * 2 ^ (4 * i) else n) 0),
   v.extractLsb' (1024 * h) 1024)
/-- Write the lanes at this device's home as `.b` writes (R243): false while a lock or a grant stands in the way. -/
def flagData (s : State) (k : PageKind) (gpa : Nat) (m : BitVec 64) (v : VReg) : State × Except (BitVec 8) Bool :=
  let lines := [0, 1].filter fun h => (flagHalf m v h).1 != 0
  if lines.any fun h => s.lineLocked (gpa / 128 + h) then (s, .ok false)
  else if !lines.isEmpty && s.grantBlocks (gpa / 65536) true then (s.revokeFor (gpa / 65536) true k.space, .ok false)
  else lines.foldl (fun (r : State × Except (BitVec 8) Bool) h =>
    match r with
    | (s, .error e) => (s, .error e)
    | (s, .ok _) =>
      let l := gpa / 128 + h
      let (mask, d) := flagHalf m v h
      let s := s.dropCopies k l
      match s.homeWrite k.space k.key l mask d with
      | .error e => (s, .error e)
      | .ok s => (if k.tracked then s else s.copyPut s.hereCore l mask d, .ok true)) (s, .ok true)
/-- The lanes on a Silt page (R417): false while a lock stands in the way (R258). -/
def flagSilt (s : State) (k : PageKind) (gpa : Nat) (m : BitVec 64) (v : VReg) : State × Except (BitVec 8) Bool :=
  if s.lineLocked (gpa / 128) || s.lineLocked (gpa / 128 + 1) then (s, .ok false)
  else ((List.range 64).filter fun i => m.getLsbD i).foldl (fun (r : State × Except (BitVec 8) Bool) i =>
    match r with
    | (s, .error e) => (s, .error e)
    | (s, .ok _) => match s.siltSet k.space k.key (gpa + 4 * i) 4 (lane v i).toNat with
      | .ok s => (s, .ok true)
      | .error (e, s) => (s, .error e)) (s, .ok true)
/-- Send the lanes to another device's home: RSTF with the flag when it is there too, else the flag follows (log 15). An
encrypted page takes a read-modify-write for each line (R384). -/
def flagAway (s : State) (id : Nat) (va : Dbl) (t : Xlat) (m : BitVec 64) (v : VReg) (flag : Xlat) : State :=
  let g := s.flagFlit flag
  let header := s.issue.pc
  let key := t.leaf.extractLsb' 8 8
  let lines := [0, 1].filter fun h => (flagHalf m v h).1 != 0
  -- the issuing core's untracked copies follow, as after any `.b` write (R243)
  let s := lines.foldl (fun s h =>
    let (mask, d) := flagHalf m v h
    (s.dropCopies ⟨s.cx.id.space, key, t.leaf.getLsbD 4⟩ (t.gpa / 128 + h)).copyPut s.hereCore (t.gpa / 128 + h) mask d) s
  if key == 0 then
    let both := devOf flag.gpa == devOf t.gpa
    let s := if both then s.flagCopies s.here (flag.gpa / 128) else s
    let f0 : Flit := s.flitTo 0x06 true t.gpa
    let f : Flit := { f0 with
      space := s.cx.id.space, len := 4, aux := if both then BitVec.ofNat 64 flag.gpa else 0, data := v,
      inl := BitVec.ofNat 256 (m.toNat + (if both then 2 ^ 64 else 0) + 2 ^ 72 * g.key.toNat) }
    (s.send f (if both then .store s.here id va header else .flagged s.here id va header (some g))).2
  else
    lines.foldl (fun s h =>
      let (mask, d) := flagHalf m v h
      match s.sendMerge s.cx.id.space key (t.gpa / 128 + h) mask d (.flagged s.here id va header (some g)) with
      | (s, none) => s
      | (s, some e) => if s.accessOpen id then s.storeFailed s.here id va header e 16 true else s) s

end State

/-! The words. -/

/-- `ld` (R247). -/
def execLd (p : Pred) (d a : BitVec 5) (z : BitVec 2) (sx : Bool) (l : Policy) (o : Bool) (f : BitVec 6) (lit : Option Word)
    (s : State) : Host.Outcome State Fault Refusal :=
  s.perform p fun s => s.loadWord d (s.rx a + immScaled f (2 ^ z.toNat) lit) (2 ^ z.toNat) sx l o
/-- `ldp` (R247): the post-increment has latency 1. -/
def execLdp (p : Pred) (d a : BitVec 5) (z : BitVec 2) (sx : Bool) (l : Policy) (o : Bool) (f : BitVec 6) (lit : Option Word)
    (s : State) : Host.Outcome State Fault Refusal :=
  s.perform p fun s => (s.loadWord d (s.rx a) (2 ^ z.toNat) sx l o).postAdd s a (immScaled f (2 ^ z.toNat) lit)
/-- `st` (R247). -/
def execSt (p : Pred) (d a : BitVec 5) (z : BitVec 2) (l : Policy) (o : Bool) (f : BitVec 6) (lit : Option Word) (s : State) :
    Host.Outcome State Fault Refusal :=
  s.perform p fun s => s.storeWord (s.rx d) (s.rx a + immScaled f (2 ^ z.toNat) lit) (2 ^ z.toNat) l o
/-- `stp` (R247). -/
def execStp (p : Pred) (d a : BitVec 5) (z : BitVec 2) (l : Policy) (o : Bool) (f : BitVec 6) (lit : Option Word) (s : State) :
    Host.Outcome State Fault Refusal :=
  s.perform p fun s => (s.storeWord (s.rx d) (s.rx a) (2 ^ z.toNat) l o).postAdd s a (immScaled f (2 ^ z.toNat) lit)
/-- `vld` (R250). -/
def execVld (p : Pred) (v : BitVec 6) (k : BitVec 4) (a b : BitVec 5) (z : BitVec 2) (s : State) : Host.Outcome State Fault Refusal :=
  s.perform p fun s => s.vecLoad v z (s.stridedLanes k a b)
/-- `vgld` (R250). -/
def execVgld (p : Pred) (v : BitVec 6) (k : BitVec 4) (a b : BitVec 5) (z : BitVec 2) (s : State) : Host.Outcome State Fault Refusal :=
  s.perform p fun s => s.vecLoad v z (s.indexedLanes (s.rk k) a b)
/-- `vst` (R250). -/
def execVst (p : Pred) (v : BitVec 6) (k : BitVec 4) (a b : BitVec 5) (z : BitVec 2) (s : State) : Host.Outcome State Fault Refusal :=
  s.perform p fun s => s.vecStore v z (s.stridedLanes k a b)
/-- `vsst` (R250). -/
def execVsst (p : Pred) (v : BitVec 6) (k : BitVec 4) (a b : BitVec 5) (z : BitVec 2) (s : State) : Host.Outcome State Fault Refusal :=
  s.perform p fun s => s.vecStore v z (s.indexedLanes (s.rk k) a b)
/-- `amo` (R254). -/
def execAmo (p : Pred) (d a b : BitVec 5) (o : AtomicOp) (z : Bool) (r : BitVec 2) (s : State) : Host.Outcome State Fault Refusal :=
  s.perform p fun s => s.atomicWord d a b (if z then 8 else 4) (some o) r
/-- `cas` (R255). -/
def execCas (p : Pred) (d a b : BitVec 5) (z : Bool) (r : BitVec 2) (s : State) : Host.Outcome State Fault Refusal :=
  s.perform p fun s => s.atomicWord d a b (if z then 8 else 4) none r
/-- `vamo` (R256): v names v0 to v31, k names k0 to k7, and none is rotated. -/
def execVamo (p : Pred) (v a i : BitVec 5) (k : BitVec 3) (o : AtomicOp) (s : State) : Host.Outcome State Fault Refusal :=
  s.perform p fun s =>
    match s.lanesCheck 4 .atomic false (s.indexedLanes (s.rk (k.setWidth 4)) a i) with
    | (s, .error f) => s.takeTrap f
    | (s, .ok l) =>
      let x := s.rv (v.setWidth 6)
      let lanes := l.map fun (j, va, t) => ({ i := j, va := va, gpa := t.gpa, leaf := t.leaf, operand := (lane x j).setWidth 64 } : Lane)
      s.startMem [.v (v.setWidth 6)] lanes { size := 4, sext := true, policy := .b, amo := some o } 3 false false
/-- `mcas` (R258): an acquire and a release. -/
def execMcas (p : Pred) (d a : BitVec 5) (c : BitVec 3) (s : State) : Host.Outcome State Fault Refusal :=
  s.perform p fun s =>
    let va := s.rx a
    let block := fun (f : FaultInfo) => ({ f with i0 := 8, i1 := va } : FaultInfo)
    if va.toNat % 32 != 0 then s.takeTrap (block (s.memFault 0x24 va 0 15 0))
    else match s.readRecords va (c.toNat + 1) with
      | (s, .error f) => s.takeTrap (block f)
      | (s, .ok none) => s.stall
      | (s, .ok (some ws)) =>
        match s.mcasEntries 0 ws with
        | (s, .error f) => s.takeTrap f
        | (s, .ok es) =>
          match State.mcasBad ws es with
          | some i =>
            let at_ := ((es[i]?).map McasEntry.va).getD 0
            s.takeTrap { s.memFault 0x2C at_ 3 15 0 with i0 := BitVec.ofNat 64 i }
          | none =>
            let scope := if (es.map McasEntry.gpa).all s.ownDevice then s.issue.scope else 3
            if !s.settled scope then s.stall else s.startMcas d es
/-- `tokwait` (R319): an acquire; later accesses wait for it, and it follows the context's
earlier accesses to its line (R279). -/
def execTokwait (p : Pred) (d a : BitVec 5) (s : State) : Host.Outcome State Fault Refusal :=
  s.perform p fun s =>
    let va := s.rx a
    if va.toNat % 8 != 0 then s.takeTrap (s.memFault 0x24 va 3 15 0)
    else match s.tokenWord va with
      | (s, .error f) => s.takeTrap f
      | (s, .ok t) =>
        if s.olderFlight s.here s.tick (t.gpa / 128) then s.stall
        else match s.settle s.hereCore (t.gpa / 128) s.tick with
          | (s, false) => s.stall
          | (s, true) =>
            let (id, s) := s.openAccess (if s.ownDevice t.gpa then 3 else 16) false
            let s1 : State := { s with cx := { s.cx with
              flights := s.cx.flights ++ [⟨id, .token t.gpa va, [.x d], [], s.issue.pc⟩],
              barriers := s.cx.barriers ++ [⟨31, [id], false⟩] } }
            let k := s.pageOf s.cx.id.space t.leaf
            if s.ownDevice t.gpa then
              let s2 := s1.atomicRecall (some s.hereCore) k (t.gpa / 128)
              s2.tokenArrive ⟨id, t.gpa, k.space, k.key, k.tracked, .ctx s.here id, false⟩ 256
            else
              s1.askToken ⟨id, t.gpa, k.space, k.key, k.tracked, .ctx s.here id, false⟩ (.token s.here id)
/-- `rwb` (R259). -/
def execRwb (p : Pred) (a b : BitVec 5) (s : State) : Host.Outcome State Fault Refusal := s.perform p fun s => s.rangeWord a b true false
/-- `rinv` (R259). -/
def execRinv (p : Pred) (a b : BitVec 5) (s : State) : Host.Outcome State Fault Refusal := s.perform p fun s => s.rangeWord a b false true
/-- `rwbinv` (R259). -/
def execRwbinv (p : Pred) (a b : BitVec 5) (s : State) : Host.Outcome State Fault Refusal := s.perform p fun s => s.rangeWord a b false false
/-- The older accesses of the context to the lines of an `rstf`, its data's and its flag's, are performed first (R279): the core's
queued writes now, what is under way by waiting. -/
def State.flagTurn (s : State) (ls : List Nat) : State × Bool :=
  match s.settleLines s.hereCore s.tick ls with
  | (s, true) => (s, !ls.any fun l => s.olderFlight s.here s.tick l)
  | r => r
/-- `rstf` (R376). -/
def execRstf (p : Pred) (v : BitVec 6) (k : BitVec 4) (a b : BitVec 5) (s : State) : Host.Outcome State Fault Refusal :=
  s.perform p fun s =>
    let va := s.rx a
    let fa := s.rx b
    let m := s.rk k
    if va.toNat % 256 != 0 then s.takeTrap (s.memFault 0x24 va 1 15 0)
    else if fa.toNat % 8 != 0 then s.takeTrap (s.memFault 0x24 fa 3 15 0)
    else
      let data := if m == 0 then (s, .ok none) else match s.laneCheck va 4 .write false false with
        | (s, .ok t) => (s, Except.ok (some t))
        | (s, .error f) => (s, .error f)
      match data with
      | (s, .error f) => s.takeTrap f
      | (s, .ok t) =>
        match s.laneCheck fa 8 .atomic false false with
        | (s, .error f) => s.takeTrap f
        | (s, .ok flag) =>
          let x := s.rv v
          let header := s.issue.pc
          let g := s.flagFlit flag
          let lines := (t.elim [] fun t => [t.gpa / 128, t.gpa / 128 + 1]) ++ [flag.gpa / 128]
          match s.flagTurn lines with
          | (s, false) => s.stall
          | (s, true) =>
            match t with
            | none => let (id, s) := s.openAccess 16 false; s.raiseFlag s.here id fa header (some g)
            | some t =>
              if !s.ownDevice t.gpa then
                let (id, s) := s.openAccess 16 false
                s.flagAway id va t m x flag
              else
                let kind : State.PageKind := ⟨s.cx.id.space, t.leaf.extractLsb' 8 8, t.leaf.getLsbD 4⟩
                let r := if windowOf (localOf t.gpa) == .silt then s.flagSilt kind t.gpa m x else s.flagData kind t.gpa m x
                match r with
                | (s, .ok false) => s.stall
                | (s, .ok true) => let (id, s) := s.openAccess 16 false; s.raiseFlag s.here id fa header (some g)
                | (s, .error e) =>
                  let (id, s) := s.openAccess 16 false
                  s.storeFailed s.here id va header e 16 (e != 0xB2)
/-- A prefetch of a line into the core's cache, for E in a state that a write needs (R260); one that would wait or fault is
dropped. -/
def State.prefetchLine (s : State) (k : State.PageKind) (gpa : Nat) (e : Bool) : State :=
  let core := s.hereCore
  let l := gpa / 128
  if windowOf (localOf gpa) == .silt then s
  else if !s.ownDevice gpa then
    if e && k.tracked && !s.holdsGrant (l / 512) true then s.askGrant core k l true
    else if (s.lineOf core l).isSome || s.roomHeld core l then s
    else match (if k.tracked then s.otherCopy core l else none) with
      | some ln => s.shareLine core ln
      | none => s.askLine core k l
  else if e && k.tracked then
    if (s.ownedLine core l).isSome || s.lineLocked l || s.roomHeld core l || s.grantBlocks (l / 512) true then s
    else match ((s.recallTo l .s).invalidateOthers l (some core)).fillLine core k l with
      | (s1, .ok ln) => s1.putLine core { ln with mesi := .e }
      | (_, .error _) => s
  else match s.readAt core k .c gpa 128 with
    | (s1, .done _) => s1
    | _ => s
/-- `pfl` (R260): the line is fetched or not (a free choice, log 4); a request that would fault is dropped. -/
def execPfl (p : Pred) (e : Bool) (a : BitVec 5) (i : BitVec 12) (lit : Option Word) (s : State) : Host.Outcome State Fault Refusal :=
  s.perform p fun s =>
    let va := s.rx a + immS i lit
    let (v, s) := s.free
    if !v.getLsbD 0 then s
    else match s.laneCheck (va &&& ~~~127#64) 128 .read true false with
      | (_, .ok t) =>
        if e && !t.leaf.getLsbD 2 then s
        else s.prefetchLine ⟨s.cx.id.space, t.leaf.extractLsb' 8 8, t.leaf.getLsbD 4⟩ t.gpa e
      | (_, .error _) => s

/-! The events. -/

/-- INTERLOCKED_COMPLETION (R94): an operation in flight takes its next step: a bound result reaches its destination, a load or
atomic performs an access, an `mcas` locks its next line once the core's older writes of its lines are performed. -/
def execInterlockedCompletion (c id : Nat) (s : State) : Host.Outcome State Fault Refusal :=
  .next (match s.findFlight id with
    | none => s
    | some (_, f, x) =>
      match f.kind with
      | .bound => s.endFlight id (.ok f.result)
      | .mem lanes op => s.memStep c x.id.space f lanes op
      | .mcas m =>
        match s.settleLines (c / 4) id (((s.mcasOf m).elim [] McasOp.entries).map fun e => e.gpa / 128) with
        | (s, true) => s.mcasNext m 9
        | (s, false) => s.later 16 (.interlockedCompletion c id)
      | .token _ _ | .barrier _ _ => s)
/-- LINE_WRITE_MISS (R239, R276): a write leaves the core's queue, once the older writes of the line have. -/
def execLineWriteMiss (core id : Nat) (s : State) : Host.Outcome State Fault Refusal :=
  .next (match (s.core core).queue.find? fun (q : QueuedWrite) => q.id == id with
    | none => s
    | some q =>
      match s.settle core (q.gpa / 128) id with
      | (s, false) => s.later 16 (.lineWriteMiss core id)
      | (s, true) => match s.runWrite core q with
        | (s, true) => s
        | (s, false) => s.later 16 (.lineWriteMiss core id))
/-- MCAS_LOCK_TIMEOUT (R258): locks held for 2 µs without a comparison are released, and xd is deferred. -/
def execMcasLockTimeout (m : Nat) (s : State) : Host.Outcome State Fault Refusal :=
  .next (match s.mcasOf m with
    | none => s
    | some op =>
      if op.decided.isSome || s.cycle - op.started < 2800 then s
      else
        let op1 : McasOp := { op with failure := some (0, ⟨0x83, 0, 0, 0, 0⟩) }
        (s.setMcas op1).mcasDecide op1)
/-- DEFERRED_FAILURE (R332): an operation in flight fails; its destinations are deferred. No failure has an unassigned cause (R452). -/
def execDeferredFailure (_c id : Nat) (f : FaultInfo) (s : State) : Host.Outcome State Fault Refusal :=
  .next (if (s.findFlight id).isSome && !State.unassigned f.cause then s.endFlight id (.error f) else s)

end Sys2Proof.Machine
end

