-- ==== Sys2Proof/Machine/Copy.lean ====
section
/-! DEFINITION. The async copy unit (R261, R262, R266): `acopy`, the landing of a copy's destination units, and its faults. -/

namespace Sys2Proof.Machine
namespace State

/-! Reading the source. -/

/-- What an access of the copy unit comes to: its value, a wait, or a fault with its address. -/
inductive CopyRead where
  | ok (v : Nat)
  | wait
  | fault (cause : BitVec 8) (addr : Dbl)
  deriving DecidableEq, Repr

/-- Read n bytes within a line of another device: from the lines the copy has, or the line is asked for. -/
def copyAway (s : State) (cl : Nat) (j : CopyJob) (k : PageKind) (va : Dbl) (gpa n : Nat) : State × CopyRead :=
  let l := gpa / 128
  if s.deviceLost (devOf gpa) then (s, .fault 0x80 va)
  else match j.lines.find? fun (m, _) => m == l with
    | some (_, d) => (s, .ok (lineBytes d (gpa % 128) n))
    | none =>
      let asked := s.fab.txns.any fun x => match x.use_ with | .copyRead c i m _ => c == cl && i == j.id && m == l | _ => false
      if asked then (s, .wait)
      else
        let s := if k.tracked then s.recallTo l .s else s
        if s.writeUnderway l then (s, .wait)
        else
          let f0 : Flit := s.flitTo 0x02 false (128 * l)
          let f : Flit := { f0 with space := j.space, key := k.key.setWidth 4 }
          ((s.send f (.copyRead cl j.id l va)).2, .wait)
/-- Read n bytes within a line of linear memory, as a `.c` read at home. -/
def copyMem (s : State) (cl : Nat) (j : CopyJob) (va : Dbl) (n : Nat) : State × CopyRead :=
  match s.translate none cl j.space va .read with
  | (s, .error f) => (s, .fault f.cause va)
  | (s, .ok t) =>
    let k : PageKind := ⟨j.space, t.leaf.extractLsb' 8 8, t.leaf.getLsbD 4⟩
    if !s.ownDevice t.gpa then s.copyAway cl j k va t.gpa n
    else if s.lineLocked (t.gpa / 128) then (s, .wait)
    else if windowOf (localOf t.gpa) != .silt && s.grantBlocks (t.gpa / 65536) false then
      (s.revokeFor (t.gpa / 65536) false j.space, .wait)
    else match s.homeRead j.space k.key t.gpa n with
      | (s, .ok v) => (s, .ok v)
      | (s, .error e) => (s, .fault e va)
/-- An entry of the index array. -/
def copyIndex (s : State) (cl : Nat) (j : CopyJob) (i : Nat) : State × CopyRead := s.copyMem cl j (BitVec.ofNat 64 (j.idx + 4 * i)) 4
/-- Read one byte of the source at an address or an offset of the window. -/
def copySource (s : State) (cl : Nat) (j : CopyJob) (a : Nat) : State × CopyRead :=
  if j.srcS then (s, .ok (s.scratchRead cl (j.base + a) 1)) else s.copyMem cl j (BitVec.ofNat 64 a) 1
/-- An element's scratch range lies in the window. -/
def copyInside (j : CopyJob) (o : Nat) : Bool := o + j.esize ≤ j.limit
/-- Read the source of the copy's byte o. -/
def copyByte (s : State) (cl : Nat) (j : CopyJob) (o : Nat) : State × CopyRead :=
  if j.kind != 1 then s.copySource cl j (j.src + o)
  else match s.copyIndex cl j (o / j.esize) with
    | (s, .ok e) =>
      let a := j.src + e * j.esize
      if j.srcS && !copyInside j a then (s, .fault 0x2B (BitVec.ofNat 64 a)) else s.copySource cl j (a + o % j.esize)
    | r => r
/-- Read n bytes of the copy from byte o, the first at the lowest place. -/
def copyBytes (s : State) (cl : Nat) (j : CopyJob) (o : Nat) : Nat → State × CopyRead
  | 0 => (s, .ok 0)
  | n + 1 =>
    match s.copyByte cl j o with
    | (s, .ok b) =>
      match s.copyBytes cl j (o + 1) n with
      | (s, .ok v) => (s, .ok (b + 256 * v))
      | r => r
    | r => r

/-! Writing a unit. -/

/-- Write a unit of n bytes to linear memory, as `.c` writes at home. -/
def copyOut (s : State) (cl : Nat) (j : CopyJob) (k a n v : Nat) : State :=
  let va : Dbl := BitVec.ofNat 64 a
  let again := fun (s : State) => s.later 16 (.copyUnitLands cl j.id)
  match s.translate none cl j.space va .write with
  | (s, .error f) => s.failCopy cl j.id f.cause va
  | (s, .ok t) =>
    let l := t.gpa / 128
    let key := t.leaf.extractLsb' 8 8
    if s.ownDevice t.gpa then
      if s.lineLocked l then again s
      else if windowOf (localOf t.gpa) != .silt && s.grantBlocks (t.gpa / 65536) true then
        again (s.revokeFor (t.gpa / 65536) true j.space)
      else match s.homeStore j.space key t.gpa n v with
        | (s, none) => (s.landCopy cl j.id k n).later 0 (.copyUnitLands cl j.id)
        | (s, some e) => s.failCopy cl j.id e va
    else if s.deviceLost (devOf t.gpa) then s.failCopy cl j.id 0x80 va
    else
      let s := s.dropCopies ⟨j.space, key, t.leaf.getLsbD 4⟩ l
      match s.sendMerge j.space key l (byteMask (t.gpa % 128) n) (lineValue (t.gpa % 128) v) (.copyWrite cl j.id k n va) with
      | (s, none) =>
        (match s.copyOf cl j.id with
          | some j => s.setCopy cl { j with sent := k :: j.sent, lines := [] }
          | none => s).later 0 (.copyUnitLands cl j.id)
      | (s, some e) => s.failCopy cl j.id e va
/-- Move one unit. -/
def copyUnit (s : State) (cl : Nat) (j : CopyJob) (k : Nat) : State :=
  let again := fun (s : State) => s.later 16 (.copyUnitLands cl j.id)
  match (if j.kind == 2 then s.copyIndex cl j (k / 2) else (s, .ok 0)) with
  | (s, .fault c a) => s.failCopy cl j.id c a
  | (s, .wait) => again s
  | (s, .ok e) =>
    let o := j.dst + e * j.esize
    if j.kind == 2 && j.dstS && !copyInside j o then s.failCopy cl j.id 0x2B (BitVec.ofNat 64 o)
    else
      let (a, b, n) := j.unit k e
      match s.copyBytes cl j b n with
      | (s, .fault c a) => s.failCopy cl j.id c a
      | (s, .wait) => again s
      | (s, .ok v) =>
        if n == 0 then (s.landCopy cl j.id k 0).later 0 (.copyUnitLands cl j.id)
        else if j.dstS then ((s.scratchPut cl a n v).landCopy cl j.id k n).later 0 (.copyUnitLands cl j.id)
        else s.copyOut cl j k a n v

/-! `acopy`. -/

/-- The fence sets of a copy: linear reads and writes by where their bytes lie, and scratch (R275). -/
def copySets (s : State) (cl : Nat) (j : CopyJob) : BitVec 5 :=
  let linear (w : Bool) (own : BitVec 5) : BitVec 5 :=
    match s.copyRanges cl j w false, s.copyLines cl j w with
    | some [], _ => 0
    | _, some ls => s.setsOf own (ls.map (128 * ·))
    | _, none => own ||| 16
  (if j.srcS || j.dstS then 8 else 0) ||| linear false 1 ||| linear true 2

/-- The reason of a descriptor's refusal (R262); reason 5 is the object's. -/
def copyBad (j : CopyJob) (bar limit : Nat) : Option Nat :=
  let e := if j.kind == 0 then 1 else j.esize
  let srcOut := j.srcS && j.kind != 1 && limit < j.src + j.total
  let dstOut := j.dstS && j.kind != 2 && limit < j.dst + j.total
  if j.kind == 3 || j.desc.extractLsb' 230 4 != 0 || (j.kind == 0 && j.idx != 0) then some 1
  else if j.len == 0 then some 2
  else if limit < bar + 16 || srcOut || dstOut then some 3
  else if (j.srcS && j.src % e != 0) || (j.dstS && j.dst % e != 0) || (j.kind != 0 && j.idx % 4 != 0) then some 4
  else none

end State

/-- `acopy` (R262). -/
def execAcopy (p : Pred) (a : BitVec 5) (i : BitVec 12) (lit : Option Word) (s : State) : Host.Outcome State Fault Refusal :=
  s.perform p fun s =>
    let va := s.rx a + immS i lit
    if va.toNat % 32 != 0 then s.takeTrap (s.memFault 0x24 va 0 15 0)
    else match s.readNow va 32 with
      | (s, .error f) => s.takeTrap f
      | (s, .ok none) => s.stall
      | (s, .ok (some d)) =>
        let desc := BitVec.ofNat 256 d
        let bar := 16 * (desc.extractLsb' 234 22).toNat
        let base := s.scratchAt 0
        let cl := s.hereCluster
        let after := s.earlier false
        let j : CopyJob := ⟨s.tick, s.here, desc, s.cx.id.space, base, s.scratchLimit, base + bar, after, [], [], [], none⟩
        match State.copyBad j bar s.scratchLimit with
        | some r => s.trap 0x62 (BitVec.ofNat 64 r)
        | none =>
          if bFault (s.barrier cl j.bar) then s.trap 0x62 5
          else if 32 ≤ (s.cluster cl).copies.length then s.stall
          else
            let (_, s) := s.openAccess (s.copySets cl j) false
            let c := s.cluster cl
            ((s.setCluster cl { c with copies := c.copies ++ [j] }).barrierAdd cl j.bar j.total).later 0 (.copyUnitLands cl j.id)

/-- COPY_UNIT_LANDS (R262): a destination unit of a copy lands, in no stated order among its units, once every earlier access
of the context has been performed. -/
def execCopyUnitLands (cl copy : Nat) (s : State) : Host.Outcome State Fault Refusal :=
  .next (match s.copyOf cl copy with
    | none => s
    | some j =>
      if j.fault.isSome then s
      else if !s.released j.after false then s.later 16 (.copyUnitLands cl copy)
      else
        let (v, s) := s.free
        let n := max 1 j.units
        match (List.range n).find? fun i => let k := (v.toNat + i) % n; !j.landed.contains k && !j.sent.contains k with
        | none => s
        | some i => s.copyUnit cl j ((v.toNat + i) % n))
/-- COPY_FAULT (R266): a copy meets a fault and stops; the address is the fault's own (log 4). No fault has an unassigned cause
(R452). -/
def execCopyFault (cl copy : Nat) (cause : BitVec 8) (s : State) : Host.Outcome State Fault Refusal :=
  let (a, s1) := s.free
  .next (if State.unassigned cause then s else s1.failCopy cl copy cause a)

end Sys2Proof.Machine
end

