-- ==== Sys2Proof/Machine/Fabric.lean ====
section
/-! DEFINITION. Transactions received over the fabric and performed at this device (R357 to R363, R374 to R381, R384), the
timers of those it sends, link events, heartbeats and notices (R385 to R390). Payloads: log 15. -/

namespace Sys2Proof.Machine
namespace State

/-! Fields of a flit's INLINE. -/

def inlAt (f : Flit) (lo n : Nat) : Nat := f.inl.toNat / 2 ^ lo % 2 ^ n
/-- The page of a flit as its home sees it: copies in this device's caches are recalled as of a tracked page, for an
untracked page there are none. -/
def pageKind (f : Flit) : PageKind := ⟨f.space, f.key.setWidth 8, true⟩
def atomicOf (n : Nat) : AtomicOp :=
  match n with
  | 0 => .swap | 1 => .add | 2 => .and | 3 => .or | 4 => .xor | 5 => .minI | 6 => .maxI | 7 => .minN | 8 => .maxN | _ => .fadd

/-! Accesses at home. -/

/-- The grants of a page that an access must have revoked first; a holder's own fills and write-backs need none (R378). -/
def grantWaits (s : State) (f : Flit) (w : Bool) : Bool :=
  let g := s.grantOf (f.gpa.toNat / 65536)
  s.grantBlocks (f.gpa.toNat / 65536) w && !(g.pendingReq.isNone && g.state == .exclusive && g.holders == [f.src])
/-- Answer with what an access came to: false while it must wait. -/
def answer (s : State) (f : Flit) (r : Perf) : State × Bool :=
  match r with
  | .done v => (s.reply f 0 v, true)
  | .fail e => (s.reply f e 0, true)
  | .wait | .sent => (s, false)
/-- RD: up to 8 bytes, as a `.b` read (R374). -/
def takeRd (s : State) (f : Flit) : State × Bool :=
  let a := f.gpa.toNat
  let n := f.aux.toNat % 16
  if windowOf (localOf a) == .control then (s.reply f (if n == 4 || n == 8 then 0 else 0x2D) (s.windowGet (localOf a % 2 ^ 32) n), true)
  else
    let (s, r) := s.engineGet f.space (f.key.setWidth 8) a n
    s.answer f r
/-- The lock of a read-modify-write that a device has here. -/
def ownsLine (f : Flit) (k : Lock) : Bool :=
  k.line == f.gpa.toNat / 128 && k.homes.isEmpty && (k.peer.map Prod.fst) == some f.src
/-- RDL: a line as its home holds it, with its tag, in 2 data flits. INLINE 0 is a fill, 2 a `.b` read, 1 the read of a
read-modify-write, which locks the line (R384). -/
def takeRdl (s : State) (f : Flit) : State × Bool :=
  let l := f.gpa.toNat / 128
  let page := l / 512
  let mode := f.inl.toNat % 4
  let give := fun (s : State) (d : Nat) =>
    let lock : Lock := ⟨l, f.space, some (f.src, f.tag), 0, [], []⟩
    let s : State := if mode == 1 then { s with homes := { s.homes with locks := s.homes.locks ++ [lock] } } else s
    (s.reply f 0 0 (tget 0 s.homes.tags l) d 2, true)
  match windowOf (localOf (128 * l)) with
  | .control | .hole => (s.reply f 0x2D 0, true)
  | .silt => match s.siltLoad 0 0 (128 * l) 128 with
    | (s, .done v) => give s v
    | (s, r) => s.answer f r
  | _ =>
    let waits := if mode == 0 then s.grantWaits f false else s.grantBlocks page (mode == 1)
    if s.lineLocked l then (s, false)
    else if waits then (s.revokeFor page (mode == 1) f.space, false)
    else
      let s := if mode == 1 then (s.recallTo l .s).invalidateOthers l none else s
      match s.homeLine 0 0 l with
      | (s, .error e) => (s.reply f e 0, true)
      | (s, .ok d) => give s d.toNat
/-- WR: up to 8 bytes, as a `.b` write (R243, R374). One of a launch's counter asks for a watch too (R306; payload: log 15). -/
def takeWr (s : State) (f : Flit) : State × Bool :=
  let a := f.gpa.toNat
  let n := f.aux.toNat % 16
  let v := inlAt f 0 64
  if windowOf (localOf a) == .control then
    if n == 4 || n == 8 then ((s.windowPut (localOf a % 2 ^ 32) n v).reply f 0 0, true) else (s.reply f 0x2D 0, true)
  else match (if n == 0 then (s, .done 0) else s.enginePut f.space (f.key.setWidth 8) a n v .plain) with
    | (s, .done _) =>
      let w : Watch := ⟨a, f.space, f.key.setWidth 8, f.inl.extractLsb' 64 64, peerNode f⟩
      ((if w.expect == 0 then s else s.addWatch 0 w).reply f 0 0, true)
    | (s, r) => s.answer f r
/-- Store a line's ciphertext with its tag (R383, R384). -/
def putCipher (s : State) (l : Nat) (c : BitVec 1024) (tag : Dbl) : Except (BitVec 8) State :=
  if s.backed (localOf (128 * l)) then .ok (s.storeCipher l c tag true) else .error 0x2D
/-- Merge the bytes of a WRM at home. -/
def mergeHome (s : State) (f : Flit) (mask : BitVec 128) : Except (BitVec 8 × State) State :=
  let l := f.gpa.toNat / 128
  let d : BitVec 1024 := f.data.setWidth 1024
  if mask == 0 then .ok s
  else match windowOf (localOf (128 * l)) with
    | .control | .hole => .error (0x2D, s)
    | .silt =>
      if f.key != 0 then (if mask == BitVec.allOnes 128 then s.siltCipher l d f.aux else .ok s)
      else match s.siltBytes (128 * l) 128 with
      | .error e => .error (e, s)
      | .ok old => s.siltPut (128 * l) 128 (mergeLine mask (BitVec.ofNat 1024 old) d).toNat
    | _ =>
      let s := (s.recallTo l .s).invalidateOthers l none
      let r := if f.key == 0 then s.homeWrite 0 0 l mask d
        else if mask == BitVec.allOnes 128 then s.putCipher l d f.aux else .ok s
      match r with
      | .ok s => .ok s
      | .error e => .error (e, s)
/-- WRM: a byte-mask merge (R242, R374). One that ends a read-modify-write finds its own lock, and goes through; the write-back of
a grant's holder needs no revoke, another merge does (INLINE [129], log 15). -/
def takeWrm (s : State) (f : Flit) : State × Bool :=
  let l := f.gpa.toNat / 128
  let mine := s.homes.locks.any fun k => ownsLine f k
  let unlock := f.inl.getLsbD 128
  let awaited := (s.grantOf (l / 512)).awaiting.contains f.src && !f.inl.getLsbD 129
  if s.lineLocked l && !(unlock && mine) then (s, false)
  else if !awaited && !(unlock && mine) && (if f.inl.getLsbD 129 then s.grantBlocks (l / 512) true else s.grantWaits f true) then
    (s.revokeFor (l / 512) true f.space, false)
  else
    let r := s.mergeHome f (f.inl.setWidth 128)
    let s := match r with | .ok s => s | .error (_, s) => s
    let s : State := if unlock then ({ s with homes := { s.homes with locks := s.homes.locks.filter fun k => !ownsLine f k } } : State).wakeHeld else s
    (s.reply f (match r with | .ok _ => 0 | .error (e, _) => e) 0, true)
/-- AMO (R253 to R255). -/
def takeAmo (s : State) (f : Flit) : State × Bool :=
  let code := inlAt f 0 8
  let op : MemOp := { size := inlAt f 8 8 % 16, amo := if code == 10 then none else some (atomicOf code), cas := code == 10 }
  let l : Lane := { i := 0, va := 0, gpa := f.gpa.toNat, leaf := 0, operand := BitVec.ofNat 64 (inlAt f 64 64),
                    expected := BitVec.ofNat 64 (inlAt f 128 64) }
  let (s, r) := s.atomicHome none (pageKind f) f.gpa.toNat op.size (amoNew op l)
  s.answer f r
/-- RSTF (R376): the lanes are written, then the flag, when it is here too, is raised. A flag that must wait keeps the
transaction, without its data. -/
def takeRstf (s : State) (f : Flit) : State × Bool :=
  let a := f.gpa.toNat
  let m : BitVec 64 := f.inl.setWidth 64
  let v : VReg := f.data.setWidth 2048
  let r := match windowOf (localOf a) with
    | .control | .hole => if m == 0 then (s, Except.ok true) else (s, .error 0x2D)
    | .silt => s.flagSilt (pageKind f) a m v
    | _ => s.flagData (pageKind f) a m v
  match r with
  | (s, .error e) => (s.reply f e 0, true)
  | (s, .ok false) => (s, false)
  | (s, .ok true) =>
    if !f.inl.getLsbD 64 then (s.reply f 0 0, true)
    else
      let k : PageKind := ⟨f.space, BitVec.ofNat 8 (inlAt f 72 4), true⟩
      match s.atomicHome none k f.aux.toNat 8 (fun old => some ((old + 1) % 2 ^ 64)) with
      | (s, .done _) => (s.reply f 0 0, true)
      | (s, .fail e) => (s.reply f e 0, true)
      | (s, _) =>
        let g : Flit := { f with inl := BitVec.ofNat 256 (f.inl.toNat / 2 ^ 64 * 2 ^ 64) }
        ({ s with homes := { s.homes with held := s.homes.held ++ [g] } }, true)
/-- TOK (R318 to R320): an addition, a take, a withdrawal, or what became of a take listed elsewhere. -/
def takeTok (s : State) (f : Flit) : State × Bool :=
  let a := f.gpa.toNat
  let id := inlAt f 64 64
  match inlAt f 0 64 with
  | 0 =>
    let (s, r) := s.tokenAdd none (pageKind f) a id
    s.answer f (match r with | .done _ => .done 0 | r => r)
  | 1 =>
    let (new, s) := s.newId
    let w : TokenWait := ⟨new, a, f.space, f.key.setWidth 8, true, .peer f, false⟩
    match s.tokenTry w with
    | (s, some r) => s.answer f r
    | (s, none) =>
      let put := fun (s : State) (l : Bool) =>
        ({ s with homes := { s.homes with tokens := s.homes.tokens ++ [({ w with listed := l } : TokenWait)] } } : State)
      let s := if s.listedAt (s.channelOf (localOf a)) < 64 then (put s true).later 8192 (.tokenReexamine a)
        else (put s false).later 256 (.tokenWaitRetry new 512)
      (s.reply f 0xFE 0, true)
  | 2 =>
    let his := fun (t : TokenWait) => match t.user with | .peer g => g.src == f.src && inlAt g 64 64 == id | _ => false
    let found := s.homes.tokens.any his
    let s : State := { s with homes := { s.homes with tokens := s.homes.tokens.filter fun t => !his t } }
    (s.reply f 0 (if found then 0 else 1), true)
  | 4 =>
    -- a watch that this device asked for is met (R306)
    let b : NodeRef := ⟨inlAt f 240 2, f.aux.toNat, inlAt f 192 48, f.inl.extractLsb' 128 64⟩
    ((s.later 0 (.launchWatchMet b)).reply f 0 0, true)
  | _ =>
    let s := match s.homes.tokens.find? fun t => t.id == id with
      | none => s
      | some w =>
        let s1 : State := { s with homes := { s.homes with tokens := s.homes.tokens.filter fun t => t.id != id } }
        if f.aux == 0 then s1.tokenTaken w.user (inlAt f 128 64) else s1.tokenFailed w.user (f.aux.setWidth 8)
    (s.reply f 0 0, true)

/-! `mcas` at a participant (R380, R381). -/

/-- MLOCK: lock the line, compare, and reply with the comparison and a status. -/
def takeMlock (s : State) (f : Flit) : State × Bool :=
  let a := f.gpa.toNat
  let l := a / 128
  let op := inlAt f 64 64
  let size := inlAt f 192 8
  let mine := fun (k : Lock) => k.line == l && k.op == op && (k.peer.map Prod.fst) == some f.src
  if s.homes.locks.any fun k => k.line == l && !mine k then (s, false)
  else if s.grantBlocks (l / 512) true then (s.revokeFor (l / 512) true f.space, false)
  else
    let new := (a, size + 256 * f.key.toNat, BitVec.ofNat 64 (inlAt f 128 64))
    let homes := (List.range (min 8 (inlAt f 200 8))).map fun i => BitVec.ofNat 8 (inlAt f (8 * i) 8)
    let locks := match s.homes.locks.find? mine with
      | some k => s.homes.locks.map fun (x : Lock) => if x == k then ({ k with news := k.news ++ [new] } : Lock) else x
      | none => s.homes.locks ++ [(⟨l, f.space, some (f.src, f.tag), op, [new], homes⟩ : Lock)]
    let s : State := { s with homes := { s.homes with locks := locks } }
    let e : McasEntry := ⟨0, a, size, f.aux, 0, f.key.setWidth 8, true⟩
    match s.mcasRead none f.space e with
    | (s, .ok v) => (s.reply f 0 (if v == f.aux.toNat % 2 ^ (8 * size) then 0 else 1), true)
    | (s, .error c) => ((s.mcasLog a f.space c).reply f c 0, true)
/-- MCOMMIT: the decision is kept, the entry written if told to, and its line unlocked once its last entry is decided. -/
def takeMcommit (s : State) (f : Flit) : State × Bool :=
  let a := f.gpa.toNat
  let op := inlAt f 64 64
  let w := f.inl.getLsbD 0
  let others := s.homes.decisions.filter fun (d, o, _) => !(d == f.src && o == op)
  let s : State := { s with homes := { s.homes with decisions := (f.src, op, w) :: others } }
  match s.homes.locks.find? fun (k : Lock) => k.line == a / 128 && k.op == op && (k.peer.map Prod.fst) == some f.src with
  | none => (s.reply f 0 0, true)
  | some k =>
    let (s, bad) := if w then s.mcasWrite f.space (f.key.setWidth 8) a (inlAt f 192 8) f.aux.toNat else (s, none)
    let left := k.news.filter fun (g, _, _) => g != a
    let locks := if left.isEmpty then s.homes.locks.filter (· != k)
      else s.homes.locks.map fun (x : Lock) => if x == k then ({ k with news := left } : Lock) else x
    ((({ s with homes := { s.homes with locks := locks } } : State).wakeHeld).reply f (bad.getD 0) 0, true)
/-- MQUERY: whether this device received the decision (R381). -/
def takeMquery (s : State) (f : Flit) : State × Bool :=
  let d := BitVec.ofNat 8 (inlAt f 0 8)
  let op := inlAt f 64 64
  let v := match s.homes.decisions.find? fun (c, o, _) => c == d && o == op with
    | some (_, _, true) => 2
    | some (_, _, false) => 1
    | none => 0
  (s.reply f 0 v, true)

/-! Page grants (R377 to R379). -/

/-- GREQ: served by the page's home, one request of a page at a time; it waits for a locked line of the page (R379). -/
def takeGreq (s : State) (f : Flit) : State × Bool :=
  let page := f.gpa.toNat / 65536
  let g := s.grantOf page
  if s.pageLocked page then (s, false)
  else if g.pendingReq.isSome then (s.setGrant page { g with waiting := g.waiting ++ [f] }, true)
  else ((s.startRevoke page f).grantRun page 64, true)
/-- GREV: every line of the page leaves this device's caches or turns to S, M lines written back first; then GACK follows them.
A request of this device that is under way is asked for again (R379), a fill under way is dropped. -/
def takeGrev (s : State) (f : Flit) : State × Bool :=
  let page := f.gpa.toNat / 65536
  let w := f.inl.getLsbD 0
  if s.pageLocked page then (s, false) else
  let s := s.recallPage page (!w)
  let g := s.grantOf page
  let st : GrantState := if w || g.state == .none then .none else .shared
  let s := s.setGrant page { g with state := st }
  let void := fun (x : Txn) => match x.use_ with
    | .lineFill _ l _ _ true => if l / 512 == page then ({ x with use_ := .plain } : Txn) else x
    | .grant p _ _ => if p == page then ({ x with use_ := .plain } : Txn) else x
    | _ => x
  let s : State := { s with fab := { s.fab with txns := s.fab.txns.map void } }
  let a0 : Flit := s.flitTo 0x0A true f.gpa.toNat
  let a : Flit := { a0 with dst := f.src, space := f.space }
  ((s.send a .plain).2.reply f 0 0, true)
/-- GACK: a revoke is acknowledged; the last one lets the home grant. -/
def takeGack (s : State) (f : Flit) : State × Bool :=
  ((s.grantAck (f.gpa.toNat / 65536) f.src).reply f 0 0, true)

/-! Tiles (R193 to R196). -/

def tileOf (f : Flit) : TileId := ⟨f.space, f.inl.extractLsb' 16 20, f.aux⟩
/-- The TREQ answer's INLINE: kind, device and version. -/
def tileBits (kind dev : Nat) (v : BitVec 32) : Nat := kind + 2 ^ 8 * dev + 2 ^ 40 * v.toNat
/-- List a device that is about to hold the published version (R193). -/
def listDevice (s : State) (t : TileId) (v : BitVec 32) (d : Nat) : State := if (s.verOf t).p == v then s.addHolder t (1000 + d) else s
/-- Send a part of a slot's contents: 256 bytes, and the scale field in INLINE (R358; payload: log 15). -/
def sendPart (s : State) (f : Flit) (v : BitVec 32) (part : Nat) (x : LoamSlot) : State :=
  s.reply f 0 (tileBits 0 0 v + 2 ^ 72 * x.scale.toNat) 0 (x.data.extractLsb' (2048 * part) 2048).toNat 4
/-- A slot of this device that holds a version, as a forward finds it: none when it is not held or its eviction has reached the
home, and a wait while that is under way (R193, R198). -/
def heldSlot (s : State) (cl : Nat) (t : TileId) (v : BitVec 32) : State × Option (Option LoamSlot) :=
  match s.localHit cl t (.exactly v) with
  | none => (s, some none)
  | some k =>
    if !evicting (s.slot cl k) then (s, some (some (s.slot cl k)))
    else
      let s := s.mergeSlot cl k
      (s, if evicting (s.slot cl k) then none else some none)
/-- Answer a peer's tile request at home (R193, R194): false while a holder's eviction is under way. -/
def answerTile (s : State) (f : Flit) (t : TileId) (want : Want) : Nat → State × Bool
  | 0 => (s.reply f 0 (tileBits 5 0 0), true)
  | n + 1 =>
    let d := f.src.toNat
    match s.resolve t want (1000 + d) with
    | .fill v => ((s.listDevice t v d).reply f 0 (tileBits 1 0 v), true)
    | .forward v h =>
      if 1000 ≤ h then ((s.listDevice t v d).reply f 0 (tileBits 2 (h - 1000) v), true)
      else match s.heldSlot h t v with
        | (s, some (some x)) => ((s.listDevice t v d).sendPart f v 0 x, true)
        | (s, some none) => (s.dropHolder t h).answerTile f t want n
        | (s, none) => (s, false)
    | .local_ _ => (s.reply f 0 (tileBits 5 0 0), true)
    | .absent => (s.reply f 0x42 0 ((s.verOf t).m.setWidth 64), true)
    | .fail e => (s.reply f e.cause 0 e.i2, true)
    | .await =>
      let ch := s.tileChannel 0 t
      if (s.homes.awaiting.filter (·.1 == ch)).length < 64 then
        let r : TileReq := ⟨t, want, .peer d, 0⟩
        (({ s with homes := { s.homes with awaiting := s.homes.awaiting ++ [(ch, r)] } } : State).reply f 0 (tileBits 3 0 0), true)
      else (s.reply f 0 (tileBits 5 0 0), true)
/-- A version that this device waits for is there: its requests go to the home again (R194). -/
def askAgain (s : State) (t : TileId) : State :=
  (List.range 64).foldl (fun s cl => (setKeys t).foldl (fun s k =>
    let x := s.slot cl k
    match x.users.head? with
    | some r => if x.state == .filling && x.tile == t && !s.underway cl k then s.later 0 (.homeTileRequest r) else s
    | none => s) s) s
/-- TREQ: a request, `snew`, publish or abandon at home, a forward order for a part at a holder, a notice, or the question whether
memory still holds a version that has been read. -/
def takeTreq (s : State) (f : Flit) : State × Bool :=
  let t := tileOf f
  let v := f.inl.extractLsb' 40 32
  let extra := inlAt f 72 64
  let d := f.src.toNat
  match inlAt f 0 8 with
  | 0 =>
    let want : Want := match inlAt f 8 8 with | 0 => .atLeast v | 1 => .latest | _ => .exactly v
    (if extra != 0 then s.dropHolder t extra else s).answerTile f t want 8
  | 1 =>
    match s.snewHome t v (extra % 2 == 1) with
    | .error e => (s.reply f e.cause (tileBits 0 0 (e.i1.setWidth 32)) e.i2, true)
    | .ok n => ((s.setVer t { s.verOf t with openV := some (n, 1000 + d) }).reply f 0 (tileBits 0 0 n), true)
  | 2 => ((s.publishHome t v (1000 + d)).reply f 0 0, true)
  | 3 => ((s.abandonHome t v).reply f 0 0, true)
  | 4 =>
    let (s, found, busy) := (List.range 64).foldl (fun (r : State × Option LoamSlot × Bool) cl =>
      match r with
      | (s, some x, b) => (s, some x, b)
      | (s, none, b) => match s.heldSlot cl t v with
        | (s, some x) => (s, x, b)
        | (s, none) => (s, none, true)) (s, none, false)
    match found with
    | some x => (s.sendPart f v (inlAt f 8 8) x, true)
    | none => if busy then (s, false) else (s.reply f 0 (tileBits 4 0 v), true)
  | 6 => (s.reply f 0 (tileBits (if (s.verOf t).m == v && !s.merging t then 6 else 7) 0 v), true)
  | _ => ((s.askAgain t).reply f 0 0, true)
/-- The write-backs that a home is taking, with one changed or ended. -/
def setIncoming (s : State) (i : TileIn) (keep : Bool) : State :=
  let rest := s.homes.incoming.filter fun (j : TileIn) => !(j.src == i.src && j.tile == i.tile && j.version == i.version)
  { s with homes := { s.homes with incoming := if keep then rest ++ [i] else rest } }
/-- TWB: a part of a tile write-back at home, or a writer's own merging of the lines (R196, R358; payload: log 15). The last part
merges the tile when its version is above M, else it is discarded: the answer is 1 then, and 2 while another write-back of the
tile is being taken, for the writer to come again. -/
def takeTwb (s : State) (f : Flit) : State × Bool :=
  let t := tileOf f
  let v := f.inl.extractLsb' 40 32
  let part := inlAt f 0 8
  let mine := fun (i : TileIn) => i.src == f.src && i.tile == t && i.version == v
  let old := s.homes.incoming.find? mine
  let i0 : TileIn := old.getD ⟨f.src, t, v, 0, 0⟩
  if v.toNat ≤ (s.verOf t).m.toNat then ((s.setIncoming i0 false).reply f 0 1, true)
  else if part == 18 then ((s.setIncoming i0 false).reply f 0 0, true)
  else if part == 17 then (((s.setIncoming i0 false).mergedHome t v).reply f 0 0, true)
  else if old.isNone && (s.merging t || s.fillGoing t) then (s.reply f 0 2, true)
  else if part == 16 then ((s.setIncoming { i0 with got := 16 } true).reply f 0 0, true)
  else
    let m : Block := BitVec.ofNat 32768 ((2 ^ 2048 - 1) * 2 ^ (2048 * part))
    let data := (i0.data &&& ~~~m) ||| (f.data.setWidth 32768 <<< (2048 * part))
    if part != 15 then ((s.setIncoming { i0 with got := part, data := data } true).reply f 0 0, true)
    else
      let fail := fun (s : State) (e : FaultInfo) => ((s.setIncoming i0 false).reply f e.cause e.i1.toNat, true)
      match s.tensor 0 t.space t.tensor with
      | (s, .error e) => fail s e
      | (s, .ok none) => fail s { cause := 0x40 }
      | (s, .ok (some tn)) =>
        match s.mapPages 0 t.space .writeback (tileVas tn t.coord) [] with
        | (s, .error e) => fail s e
        | (s, .ok pg) =>
          match s.tileBlocked pg tn t true with
          | some page => (s.revokeFor page true f.space, false)
          | none =>
            match s.writeMapped pg tn t data (f.inl.extractLsb' 128 128) with
            | (s, some e) => fail s e
            | (s, none) => (((s.setIncoming i0 false).mergedHome t v).reply f 0 0, true)

/-! What this device's own accesses to its memory wait for (R258, R376). -/

/-- An access of this device's own memory that had to wait: a merge for a locked line (R242), or the addition to a flag or a token
word that ends an access made here: false while it must wait still. -/
def takeOwn (s : State) (f : Flit) : State × Bool :=
  if f.type == 0x12 then
    match s.tokenAdd none (pageKind f) f.gpa.toNat (inlAt f 64 64) with
    | (s, .done _) => (s, true)
    | (s, .fail e) => (s.log 0 7 0 f.space e (f.gpa.setWidth 64) 0 0, true)
    | (s, _) => (s, false)
  else if f.type == 0x04 then
    let l := f.gpa.toNat / 128
    let mask : BitVec 128 := f.inl.setWidth 128
    if s.lineLocked l then (s, false)
    else match windowOf (localOf (128 * l)) with
      | .control | .hole => (s, true)
      | .silt => match s.mergeHome f mask with | .ok s => (s, true) | .error (_, s) => (s, true)
      | _ =>
        if s.grantBlocks (l / 512) true then (s.revokeFor (l / 512) true f.space, false)
        else match ((s.recallTo l .s).invalidateOthers l none).homeWrite f.space (f.key.setWidth 8) l mask (f.data.setWidth 1024) with
          | .ok s => (s, true)
          | .error _ => (s, true)
  else
    let access := f.aux.toNat
    let va : Dbl := f.data.setWidth 64
    let header : BitVec 56 := f.data.extractLsb' 64 56
    let c := f.data.toNat / 2 ^ 128
    match s.atomicHome (some (c / 4)) (pageKind f) f.gpa.toNat 8 (fun old => some ((old + 1) % 2 ^ 64)) with
    | (s, .done _) => (s.closeAccess access, true)
    | (s, .fail e) => (s.storeFailed c access va header e 16 (e != 0xB2), true)
    | (s, _) => (s, false)

/-! Performing what has arrived. -/

/-- Perform a transaction at this device: false while it must wait for a lock or a revoke. An undefined type is discarded. -/
def takeFlit (s : State) (f : Flit) : State × Bool :=
  match f.type.toNat with
  | 0x01 => s.takeRd f
  | 0x02 => s.takeRdl f
  | 0x03 => s.takeWr f
  | 0x04 => s.takeWrm f
  | 0x05 => s.takeAmo f
  | 0x06 => s.takeRstf f
  | 0x08 => s.takeGreq f
  | 0x09 => s.takeGrev f
  | 0x0A => s.takeGack f
  | 0x0C => s.takeMlock f
  | 0x0D => (s.reply f 0 0, true)
  | 0x0E => s.takeMcommit f
  | 0x0F => s.takeMquery f
  | 0x10 => s.takeTreq f
  | 0x11 => s.takeTwb f
  | 0x12 => s.takeTok f
  | _ => (s, true)
/-- Transactions that keep the order of their source while one of them waits at this home for a lock or a revoke (R362). The
messages by which locks and revokes end pass it, or the bounds of R258 and R378 could not hold: GREV, GACK, MCOMMIT, MQUERY and the
WRM that unlocks (DESIGN CHOICE, log 15). -/
def keepsOrder (f : Flit) : Bool :=
  f.ord && [(2 : BitVec 8), 3, 4, 5, 6, 8, 0x0C, 0x0D, 0x11, 0x12].contains f.type && !(f.type == 4 && f.inl.getLsbD 128)
/-- The home awaits this source's write-backs of the page. -/
def writesBack (s : State) (f : Flit) : Bool :=
  f.type == 4 && !f.inl.getLsbD 129 && (s.grantOf (f.gpa.toNat / 65536)).awaiting.contains f.src
def hold (s : State) (f : Flit) : State := { s with homes := { s.homes with held := s.homes.held ++ [f] } }
/-- Perform a transaction whose turn has come, or keep it. -/
def performFlit (s : State) (f : Flit) : State :=
  let behind := keepsOrder f && !s.writesBack f && s.homes.held.any fun g => g.src == f.src && keepsOrder g
  if behind then s.hold f
  else match s.takeFlit f with
    | (s, true) => s
    | (s, false) => s.hold f
/-- Try what is held, oldest first. -/
def pumpList : List Flit → State → State
  | [], s => s
  | f :: r, s =>
    let own := f.src == s.dev.devid
    let behind := !own && keepsOrder f && !s.writesBack f && s.homes.held.any fun g => g.src == f.src && keepsOrder g
    if behind then pumpList r (s.hold f)
    else match (if own then s.takeOwn f else s.takeFlit f) with
      | (s, true) => pumpList r s
      | (s, false) => pumpList r (s.hold f)
def pump (s : State) : State :=
  let l := s.homes.held
  (pumpList l { s with homes := { s.homes with held := [] } }).wakeAfter 16
/-- Perform the ordered transactions that arrived early, while the next one is there (R362). -/
def takeEarly (s : State) (d : Nat) : Nat → State
  | 0 => s
  | n + 1 =>
    let p := s.peer d
    match p.early.find? fun (f : Flit) => f.seq == p.expectSeq with
    | none => s
    | some f =>
      let p1 : Peer := { p with expectSeq := p.expectSeq + 1, early := p.early.filter fun (g : Flit) => g.seq != f.seq }
      ((s.setPeer d p1).performFlit f).takeEarly d n
/-- The completion that the duplicate window holds for a transaction: that of its TAG and, of the ordered class, of its SEQ. An
unordered transaction's TAG may be given to another once it is at rest, so its entry answers for the lifetime of a transaction only
(R360, R361; log 15). -/
def answered (s : State) (f : Flit) : Option Flit :=
  let young := fun (at_ : Nat) => s.cycle - at_ < (if f.type == 0x01 || f.type == 0x02 then 84000 else 294000)
  ((s.peer f.src.toNat).window.find? fun (t, at_, q, _) =>
    t == f.tag.toNat && q.type == f.type && q.gpa == f.gpa && (if f.ord then q.seq == f.seq else young at_)).map fun (_, _, _, c) => c
/-- The SEQ of an ordered transaction has been performed, or is held to be (R362). -/
def passed (s : State) (f : Flit) : Bool := f.ord && decide (((s.peer f.src.toNat).expectSeq - 1 - f.seq).toNat < 2048)
/-- A duplicate is answered from the window, and counted for the link that it came by (R361, R390). -/
def answerAgain (s : State) (c : Flit) : State :=
  let p := s.peer s.fab.link.toNat
  let n := if p.duplicate == BitVec.allOnes 32 then p.duplicate else p.duplicate + 1
  (s.setPeer s.fab.link.toNat { p with duplicate := n }).emit c
/-- A transaction arrives for this device: a duplicate is answered from the window (R361), the ordered class is performed in
SEQ order (R362). -/
def landFlit (s : State) (f : Flit) : State :=
  let d := f.src.toNat
  let p := s.peer d
  match (if f.ord && !s.passed f then none else s.answered f) with
  | some c => s.answerAgain c
  | none =>
    if s.passed f then s
    else if !f.ord then
      if s.homes.held.any fun g => g.src == f.src && g.tag == f.tag && g.type == f.type then s else s.performFlit f
    else if f.seq == p.expectSeq then
      ((s.setPeer d { p with expectSeq := p.expectSeq + 1 }).performFlit f).takeEarly d 65
    else if p.early.length < 64 && !(p.early.any fun (g : Flit) => g.seq == f.seq) then
      s.setPeer d { p with early := p.early ++ [f] }
    else s
/-- The peers by whose links a flit may have come (R356): its source, or the last intermediate of its route; a detour ends at any
peer. -/
def lastHops (s : State) (f : Flit) : List (BitVec 8) :=
  let o := s.dev.devid
  let direct := if (s.peerDim f.src).isSome then [f.src] else [devAt (devRow f.src) (devCol o), devAt (devRow o) (devCol f.src)]
  let near := direct.filter s.linkUp
  if f.ord && !near.isEmpty then near.take 1
  else near ++ (((List.range 256).map (BitVec.ofNat 8)).filter fun d => s.linkUp d && !near.contains d)
/-- A flit has come by a link, which is not silent then (R385): by which of the links of its class is a free choice, since the event
does not name it (log 35). -/
def credit (s : State) (f : Flit) : State :=
  match s.pick ((s.lastHops f).map BitVec.toNat) with
  | (none, s) => s
  | (some n, s) =>
    ({ s with fab := { s.fab with link := BitVec.ofNat 8 n } } : State).setPeer n { s.peer n with lastFlit := s.cycle }
/-- A flit reaches this device: one from a lost source is discarded (R387), one for another device is passed on (R356), any other
is taken. -/
def receive (s : State) (f : Flit) (take : State → State) : State :=
  if !s.dev.fabEn || s.fab.fencedSelf then s
  else
    let s := s.credit f
    if s.deviceLost f.src then s
    else if f.dst != s.dev.devid then s.emit f
    else (take s).pump
/-- A transaction of a type and class arrives. -/
def transact (s : State) (f : Flit) (type : BitVec 8) (ord : Bool) : State :=
  let g : Flit := { f with type := type, ord := ord }
  s.receive g fun s => s.landFlit g
/-- A completion arrives: the first one for its tag ends its transaction; the late one of a transaction that timed out lets its tag
be used again (R360, R361). -/
def complete (s : State) (f : Flit) : State :=
  match s.fab.txns.find? fun (x : Txn) => x.flit.dst == f.src && x.flit.tag == f.tag && 0 < x.sends with
  | none =>
    let p := s.peer f.src.toNat
    if p.tagLost.contains f.tag.toNat then s.setPeer f.src.toNat { p with tagLost := p.tagLost.filter (· != f.tag.toNat) } else s
  | some x => (s.dropTxn x).endTxn x (BitVec.ofNat 8 (inlAt f 248 8)) f

/-! Links (R359, R385, R390). -/

/-- The counters of a link that are logged (R390). -/
inductive LinkEvent where
  | replay | retrain | spared | resend | silence
  deriving DecidableEq, Repr
def bump (n : BitVec 32) : BitVec 32 := if n == BitVec.allOnes 32 then n else n + 1
/-- Count and log a link event (R353, R390, R458). -/
def linkEvent (s : State) (d : BitVec 8) (e : LinkEvent) : State :=
  let p := s.peer d.toNat
  let (p1, n) : Peer × BitVec 32 := match e with
    | .replay => ({ p with replay := bump p.replay }, bump p.replay)
    | .retrain => ({ p with retrain := bump p.retrain }, bump p.retrain)
    | .spared => ({ p with sparedC := bump p.sparedC }, bump p.sparedC)
    | .resend => ({ p with resend := bump p.resend }, bump p.resend)
    | .silence => ({ p with silence := bump p.silence }, bump p.silence)
  (s.setPeer d.toNat p1).logFab d 0 0x84 0 0 n
def channelAt (s : State) (dim : Bool) (ch : Nat) : Channel := tget ⟨15, 15, 0, 0, false, false, false, 0, []⟩ (s.channels dim) ch

/-- A failed channel is spared out; the lowest free channel of the pool takes its place (R359). The place of a floor channel goes
to the replacement, or to the lowest channel left of its slot when the pool is empty (the spec does not say; DESIGN CHOICE, log
40). -/
def spareChannel (s : State) (dim : Bool) (ch : Nat) : State :=
  let c := s.channelAt dim ch
  let s := match s.slotPeer dim c.serves with | some d => s.linkEvent d .spared | none => s
  let s := s.mapChannel dim ch fun c => { c with spared := true, training := false, serves := 15, home := 15, lease := 0, floor := false }
  let inLease (s : State) (f : List Nat → List Nat) : State := { s with fab := { s.fab with
    leases := s.fab.leases.map fun (l : Lease) => if l.id == c.lease && c.lease != 0 then { l with channels := f l.channels } else l } }
  match (s.poolChannels dim).head? with
  | none =>
    let heir := ((s.channels dim).filter fun (_, x) => x.home == c.home && !x.spared).head?
    let s := match heir with
      | some (n, _) => if c.floor then s.mapChannel dim n fun x => { x with floor := true } else s
      | none => s
    inLease s fun l => l.filter (· != ch)
  | some n =>
    if c.serves == 15 && c.home == 15 then s
    else
      let s := s.mapChannel dim n fun x => { x with home := c.home, serves := c.serves, lease := c.lease, floor := c.floor }
      inLease s fun l => l.map fun k => if k == ch then n else k
/-- A channel retrains (R359): it carries no traffic until its retrain is complete, and its flits' replays are counted anew. -/
def retrain (s : State) (peer : BitVec 8) (dim : Bool) (ch : Nat) : State :=
  (s.mapChannel dim ch fun c => { c with training := true, buffer := c.buffer.map fun (f, _) => (f, 0) }).linkEvent peer .retrain
/-- The replay from a flit of the channel's buffer, the newest first: it and all that follow it are sent again, and each has one
replay more (R359). -/
def replayFrom (c : Channel) (k : Nat) : Channel :=
  { c with buffer := ((c.buffer.take (k + 1)).map fun (f, n) => (f, n + 1)) ++ c.buffer.drop (k + 1) }
/-- A channel that has sent nothing for 500 ns sends a heartbeat to its peer (R385), on another channel of the link while it retrains
(R363). -/
def heartbeat (s : State) (peer : BitVec 8) (dim : Bool) (ch : Nat) : State :=
  let c := s.channelAt dim ch
  if !s.dev.fabEn || s.deviceLost peer || c.spared || s.slotPeer dim c.serves != some peer || s.cycle - c.lastSent < 700 then s
  else
    let f0 : Flit := s.flitTo 0x30 false 0
    let f : Flit := { f0 with dst := peer, space := 0, cz := false }
    let on := if c.training then ((s.linkChannels dim peer).head?).getD ch else ch
    let s := (s.mapChannel dim ch fun c => { c with lastSent := s.cycle }).mapChannel dim on fun c =>
      { c with lastSent := s.cycle, buffer := replayFit 512 ((f, 0) :: c.buffer) }
    { s with fab := { s.fab with outbox := s.fab.outbox ++ [f], hops := s.fab.hops ++ [⟨peer, dim, on⟩] } }
/-- A link on which no flit has arrived for 4 µs is silent, and its peer is declared dead (R385, R387). -/
def silence (s : State) (peer : BitVec 8) : State :=
  if !s.dev.fabEn || s.deviceLost peer || (s.peerDim peer).isNone || s.cycle - (s.peer peer.toNat).lastFlit < 5600 then s
  else (s.linkEvent peer .silence).declareDead peer s.dev.devid s.svc.epoch
/-- What the timers of the links find in a cycle (R385). -/
def watchLinks (s : State) : State :=
  if !s.dev.fabEn || s.fab.fencedSelf then s
  else
    let s := [false, true].foldl (fun s dim => (s.channels dim).foldl (fun s (n, c) =>
      match s.slotPeer dim c.serves with | some d => s.heartbeat d dim n | none => s) s) s
    (List.range 256).foldl (fun s n => s.silence (BitVec.ofNat 8 n)) s

end State

/-! Transactions arriving (R358). -/

/-- RD (R358). -/
def execRd (f : Flit) (s : State) : Host.Outcome State Fault Refusal := .next (s.transact f 0x01 false)
/-- RDL (R358): the read of a read-modify-write keeps the order of writes (R384). -/
def execRdl (f : Flit) (s : State) : Host.Outcome State Fault Refusal := .next (s.transact f 0x02 (f.inl.toNat % 4 == 1))
/-- WR (R358). -/
def execWr (f : Flit) (s : State) : Host.Outcome State Fault Refusal := .next (s.transact f 0x03 true)
/-- WRM (R358). -/
def execWrm (f : Flit) (s : State) : Host.Outcome State Fault Refusal := .next (s.transact f 0x04 true)
/-- AMO (R358). -/
def execFabricAmo (f : Flit) (s : State) : Host.Outcome State Fault Refusal := .next (s.transact f 0x05 true)
/-- RSTF (R376). -/
def execFabricRstf (f : Flit) (s : State) : Host.Outcome State Fault Refusal := .next (s.transact f 0x06 true)
/-- GREQ (R378). -/
def execGreq (f : Flit) (s : State) : Host.Outcome State Fault Refusal := .next (s.transact f 0x08 true)
/-- GREV (R378). -/
def execGrev (f : Flit) (s : State) : Host.Outcome State Fault Refusal := .next (s.transact f 0x09 true)
/-- GACK (R378). -/
def execGack (f : Flit) (s : State) : Host.Outcome State Fault Refusal := .next (s.transact f 0x0A true)
/-- MLOCK (R380). -/
def execMlock (f : Flit) (s : State) : Host.Outcome State Fault Refusal := .next (s.transact f 0x0C true)
/-- MDEC (R358): the spec gives it no further meaning; it is acknowledged. -/
def execMdec (f : Flit) (s : State) : Host.Outcome State Fault Refusal := .next (s.transact f 0x0D true)
/-- MCOMMIT (R380). -/
def execMcommit (f : Flit) (s : State) : Host.Outcome State Fault Refusal := .next (s.transact f 0x0E true)
/-- MQUERY (R381). -/
def execMquery (f : Flit) (s : State) : Host.Outcome State Fault Refusal := .next (s.transact f 0x0F true)
/-- TREQ (R358). -/
def execTreq (f : Flit) (s : State) : Host.Outcome State Fault Refusal := .next (s.transact f 0x10 false)
/-- TWB (R358). -/
def execTwbTxn (f : Flit) (s : State) : Host.Outcome State Fault Refusal := .next (s.transact f 0x11 true)
/-- TOK (R358). -/
def execTok (f : Flit) (s : State) : Host.Outcome State Fault Refusal := .next (s.transact f 0x12 true)
/-- CPL (R358, R360). -/
def execCpl (f : Flit) (s : State) : Host.Outcome State Fault Refusal := .next (s.receive f fun s => s.complete f)
/-- HB (R385): the link is not silent; a heartbeat stays on its link, that of its source. -/
def execHb (f : Flit) (s : State) : Host.Outcome State Fault Refusal :=
  .next (if f.dst == s.dev.devid && (s.peerDim f.src).isSome && s.dev.fabEn && !s.deviceLost f.src then
      s.setPeer f.src.toNat { s.peer f.src.toNat with lastFlit := s.cycle }
    else s)
/-- FLIT_BAD_TYPE (R358): discarded, and counted as a REPLAY event of the channel that carried it, whose link is not silent then
(R385). -/
def execFlitBadType (f : Flit) (dim : Bool) (ch : BitVec 6) (s : State) : Host.Outcome State Fault Refusal :=
  let d := (s.slotPeer dim (s.channelAt dim ch.toNat).serves).getD f.src
  .next ((s.setPeer d.toNat { s.peer d.toNat with lastFlit := s.cycle }).linkEvent d .replay)

/-! The timers of this device's transactions (R360). -/

/-- TRANSACTION_RESEND (R360): a transaction without a completion for 50 µs is sent again with the same TAG and SEQ, at most three
times; one that has no TAG yet is sent when one is free. -/
def execTransactionResend (id : Nat) (s : State) : Host.Outcome State Fault Refusal :=
  .next (match s.fab.txns.find? fun (x : Txn) => x.id == id with
    | none => s.pump
    | some x =>
      if x.sends == 0 then
        let first := s.fab.txns.find? fun (y : Txn) => y.sends == 0 && y.flit.dst == x.flit.dst
        if s.deviceLost x.flit.dst then s.failTxn x 0x80
        else if (first.map Txn.id) != some id then s.later 64 (.transactionResend id)
        else match s.firstSend x with
          | (s, true) => s
          | (s, false) => s.later 64 (.transactionResend id)
      else if s.cycle - x.lastSend < 70000 || 4 ≤ x.sends then s
      else
        let x1 : Txn := { x with lastSend := s.cycle, sends := x.sends + 1 }
        let s1 : State := { s with fab := { s.fab with txns := s.fab.txns.map fun (y : Txn) => if y.id == id then x1 else y } }
        let s1 := s1.emit x.flit
        -- the resend counts for the link that it leaves by (R390)
        let s2 := match s1.fab.hops.getLast? with
          | some h => if s1.fab.hops.length == s.fab.hops.length then s1 else s1.linkEvent h.next .resend
          | none => s1
        if x1.sends < 4 then s2.later 70000 (.transactionResend id) else s2)
/-- FABRIC_TIMEOUT (R360): 200 µs after the first send the transaction ends. -/
def execFabricTimeout (id : Nat) (s : State) : Host.Outcome State Fault Refusal :=
  .next (match s.fab.txns.find? fun (x : Txn) => x.id == id with
    | none => s
    | some x => if 0 < x.sends && 280000 ≤ s.cycle - x.firstSend then s.failTxn x 0x81 else s)
/-- FLIT_AGE_DISCARD (R360): a router discards a flit that this device has put on the fabric. -/
def execFlitAgeDiscard (f : Flit) (s : State) : Host.Outcome State Fault Refusal :=
  let k := s.fab.outbox.idxOf f
  .next { s with fab := { s.fab with outbox := s.fab.outbox.eraseIdx k, hops := s.fab.hops.eraseIdx k } }

/-! Channels and links. -/

/-- FLIT_REPLAY (R359): which flit of the replay buffer was refused is a free choice; a flit replayed 16 times makes the channel
retrain. -/
def execFlitReplay (peer : BitVec 8) (dim : Bool) (ch : BitVec 6) (s : State) : Host.Outcome State Fault Refusal :=
  let s := s.linkEvent peer .replay
  let (k, s) := s.pick (List.range (s.channelAt dim ch.toNat).buffer.length)
  let s := s.mapChannel dim ch.toNat fun c => State.replayFrom c (k.getD 0)
  .next (if (s.channelAt dim ch.toNat).buffer.any fun (_, n) => 16 ≤ n then s.retrain peer dim ch.toNat else s)
/-- CHANNEL_RETRAIN (R359): the channel carries no traffic until RETRAIN_COMPLETE. -/
def execChannelRetrain (peer : BitVec 8) (dim : Bool) (ch : BitVec 6) (s : State) : Host.Outcome State Fault Refusal :=
  .next (s.retrain peer dim ch.toNat)
/-- RETRAIN_COMPLETE (R359): back in service, or one more failure in a row; before the third the channel retrains again. -/
def execRetrainComplete (peer : BitVec 8) (dim : Bool) (ch : BitVec 6) (ok : Bool) (s : State) : Host.Outcome State Fault Refusal :=
  let c := s.channelAt dim ch.toNat
  .next (if !c.training then s
    else if ok then s.mapChannel dim ch.toNat fun c => { c with training := false, retrains := 0 }
    else
      let s1 := s.mapChannel dim ch.toNat fun c => { c with retrains := c.retrains + 1 }
      if c.retrains + 1 < 3 then s1.linkEvent peer .retrain else s1)
/-- CHANNEL_SPARE (R359): a channel that failed to retrain three times in a row. -/
def execChannelSpare (dim : Bool) (ch : BitVec 6) (s : State) : Host.Outcome State Fault Refusal :=
  let c := s.channelAt dim ch.toNat
  .next (if c.spared || c.retrains < 3 then s else s.spareChannel dim ch.toNat)
/-- HEARTBEAT_DUE (R385). -/
def execHeartbeatDue (peer : BitVec 8) (dim : Bool) (ch : BitVec 6) (s : State) : Host.Outcome State Fault Refusal :=
  .next (s.heartbeat peer dim ch.toNat)
/-- LINK_SILENCE (R385, R387). -/
def execLinkSilence (peer : BitVec 8) (s : State) : Host.Outcome State Fault Refusal := .next (s.silence peer)
/-- DEATH_NOTICE (R386, R387). -/
def execDeathNotice (dead reporter : BitVec 8) (epoch : BitVec 32) (s : State) : Host.Outcome State Fault Refusal :=
  .next (if s.dev.lvEn then (s.declareDead dead reporter epoch).pump else s)
/-- JOIN_NOTICE (R439): flooded on; a device whose epoch exceeds that of its last death notice, if it had one, is unfenced (R432). -/
def execJoinNotice (dev : BitVec 8) (epoch : BitVec 32) (s : State) : Host.Outcome State Fault Refusal :=
  let p := s.peer dev.toNat
  let new := match p.deadEpoch with | some e => e.toNat < epoch.toNat | none => p.fenced && s.dev.presence.getLsbD dev.toNat
  .next (if s.dev.lvEn && new && dev != s.dev.devid then
      let s1 := s.setPeer dev.toNat { p with fenced := !s.dev.presence.getLsbD dev.toNat, deadEpoch := none, lastFlit := s.cycle }
      { s1 with fab := { s1.fab with joins := s1.fab.joins ++ [(dev, epoch)] } }
    else s)

end Sys2Proof.Machine
end

