-- ==== Sys2Proof/Machine/Contexts.lean ====
section
/-! DEFINITION. What the issue of a bundle must know about its words: the registers a word names (R94), its predicate (R82),
the fence sets of its accesses (R133, R273); and the events of a context's own time: the age override (R106), the landing of
exposed results (R93), trap entry (R331). -/

namespace Sys2Proof

/-- The scoreboarded registers a word reads or writes, by name (R94, R332). Masks and branch targets are never destinations of
interlocked words. -/
def Instr.regs : Instr → List Machine.Reg
  | .add _ d a b _ | .sub _ d a b _ | .and _ d a b _ | .or _ d a b _ | .xor _ d a b _ | .andn _ d a b _ | .shl _ d a b _
  | .shr _ d a b _ | .sar _ d a b _ | .rol _ d a b _ | .minI _ d a b _ | .maxI _ d a b _ | .minN _ d a b _ | .maxN _ d a b _
  | .mul _ d a b _ | .mulhI _ d a b _ | .mulhN _ d a b _ | .divI _ d a b _ | .divN _ d a b _ | .remI _ d a b _
  | .remN _ d a b _ | .adds _ d a b _ _ | .extI _ d a b | .extN _ d a b | .ins _ d a b => [.x d, .x a, .x b]
  | .sel _ d a b _ q => [.x d, .x a, .x b, .q q]
  | .clz _ d a _ | .ctz _ d a _ | .popc _ d a _ | .brev _ d a _ | .bswap _ d a _ | .addi _ d a _ _ | .andi _ d a _ _
  | .ori _ d a _ _ | .xori _ d a _ _ | .shli _ d a _ _ | .shri _ d a _ _ | .sari _ d a _ _ => [.x d, .x a]
  | .cmp _ q a b _ _ => [.q q, .x a, .x b]
  | .cmpi _ _ q a _ _ => [.q q, .x a]
  | .li _ d _ _ | .lih _ d _ _ | .call _ d _ | .srd _ d _ _ | .mqstat _ d _ | .wayconv _ d _ _ | .wayrest _ d _ _ => [.x d]
  | .qlog _ d a b _ => [.q d, .q a, .q b]
  | .pbx _ _ a | .loop _ _ a | .nap _ a _ _ | .swr _ a _ _ | .tretTo _ a | .barrive _ a | .breset _ a | .leaseRel _ a
  | .tpref _ a _ _ | .acopy _ a _ _ | .pfl _ _ a _ _ | .minit _ _ _ _ a => [.x a]
  | .vany _ d _ _ | .vall _ d _ _ => [.q d]
  | .xtovBc _ v x _ | .xtovIns _ v x _ _ | .vtox _ v x _ _ => [.v v, .x x]
  | .vtoxR _ v x b _ => [.v v, .x x, .x b]
  | .ktox _ _ x | .xtok _ _ x => [.x x]
  | .spawn _ _ _ a => (List.range 8).map fun i => .x (a + BitVec.ofNat 5 i)
  | .binit _ a b | .bexpect _ a b | .gstart _ a b | .spinRef _ a b _ _ | .sunpinRef _ a b | .rwb _ a b | .rinv _ a b
  | .rwbinv _ a b => [.x a, .x b]
  | .bwait _ q a b => [.q q, .x a, .x b]
  | .btest _ d a _ | .tokwait _ d a | .leaseQry _ d a | .lds _ d a _ _ _ _ | .sts _ d a _ _ _ | .ld _ d a _ _ _ _ _ _
  | .ldp _ d a _ _ _ _ _ _ | .st _ d a _ _ _ _ _ | .stp _ d a _ _ _ _ _ | .mcas _ d a _ => [.x d, .x a]
  | .toksig _ a b => if b == 0 then [.x a] else [.x a, .x b]
  | .leaseReq _ d a b c => [.x d, .x a, .x b, .x c]
  | .mqpush _ v _ | .mwr _ _ _ _ v _ | .mrd _ _ _ _ v _ => [.v v]
  | .sbind _ w a b _ _ | .snew _ w a b _ _ | .sedge _ w a b => [.w w, .x a, .x b]
  | .sprobe _ w a b _ q _ => [.w w, .x a, .x b, .q q]
  | .spub _ w | .srel _ w | .spin _ w | .sunpin _ w | .twb _ w | .mst _ _ w _ => [.w w]
  | .sseek _ w a _ _ => [.w w, .x a]
  | .sinfo _ d w _ => [.x d, .w w]
  | .tldv _ v w _ _ | .tstv _ v w _ _ | .mgath _ v w _ => [.v v, .w w]
  | .tldx _ v w _ a => [.v v, .w w, .x a]
  | .vld _ v _ a b _ | .vst _ v _ a b _ | .rstf _ v _ a b => [.v v, .x a, .x b]
  | .vgld _ v _ a b _ | .vsst _ v _ a b _ => [.v v, .x a, .v (b.setWidth 6)]
  | .amo _ d a b _ _ _ | .cas _ d a b _ _ => [.x d, .x a, .x b]
  | .vamo _ v a i _ _ => [.v (v.setWidth 6), .x a, .v (i.setWidth 6)]
  | .vadd _ d a b _ | .vsub _ d a b _ | .vmul _ d a b _ | .vfma _ d a b _ | .vfms _ d a b _ | .vmin _ d a b _
  | .vmax _ d a b _ | .vabd _ d a b _ | .vadds _ d a b _ | .vsubs _ d a b _ | .vmulh _ d a b _ | .vshl _ d a b _
  | .vshr _ d a b _ | .vsar _ d a b _ | .vand _ d a b _ | .vor _ d a b _ | .vxor _ d a b _ | .vandn _ d a b _
  | .vsel _ d a b _ | .vperm _ d a b _ => [.v d, .v a, .v b]
  | .vabs _ d a _ | .vneg _ d a _ | .vpopc _ d a _ | .vclz _ d a _ | .vmov _ d a _ | .vcvt _ d a _ _ _ | .vrnd _ d a _ _
  | .vexp2 _ d a _ | .vlog2 _ d a _ | .vrcp _ d a _ | .vrsq _ d a _ | .vredsum _ d a _ | .vredmin _ d a _ | .vredmax _ d a _
  | .vscan _ d a _ _ | .vslide _ d a _ _ _ | .vbset _ d a | .vshli _ d a _ _ _ | .vshri _ d a _ _ _ | .vsari _ d a _ _ _ =>
    [.v d, .v a]
  | .vceq _ _ a b _ | .vcne _ _ a b _ | .vclt _ _ a b _ | .vcle _ _ a b _ => [.v a, .v b]
  | .vimm _ d _ _ _ | .viota _ d _ _ _ | .vkpop d _ | .vkfirst d _ => [.v d]
  | .vtopk _ d a _ => [.v d, .v (d + 1), .v a, .v (a + 1)]
  | .mpass _ _ a b _ k j => (if k then [] else [.w a]) ++ (if j then [] else [.w b])
  | _ => []

/-- The slot predicate of a scalar-class word; vector words carry none (R82, R98). -/
def Instr.pred : Instr → Option Pred
  | .add p _ _ _ _ | .sub p _ _ _ _ | .and p _ _ _ _ | .or p _ _ _ _ | .xor p _ _ _ _ | .andn p _ _ _ _ | .shl p _ _ _ _
  | .shr p _ _ _ _ | .sar p _ _ _ _ | .rol p _ _ _ _ | .minI p _ _ _ _ | .maxI p _ _ _ _ | .minN p _ _ _ _ | .maxN p _ _ _ _
  | .mul p _ _ _ _ | .mulhI p _ _ _ _ | .mulhN p _ _ _ _ | .divI p _ _ _ _ | .divN p _ _ _ _ | .remI p _ _ _ _
  | .remN p _ _ _ _ | .adds p _ _ _ _ _ | .extI p _ _ _ | .extN p _ _ _ | .ins p _ _ _ | .sel p _ _ _ _ _
  | .clz p _ _ _ | .ctz p _ _ _ | .popc p _ _ _ | .brev p _ _ _ | .bswap p _ _ _ | .addi p _ _ _ _ | .andi p _ _ _ _
  | .ori p _ _ _ _ | .xori p _ _ _ _ | .shli p _ _ _ _ | .shri p _ _ _ _ | .sari p _ _ _ _ | .cmp p _ _ _ _ _
  | .cmpi p _ _ _ _ _ | .li p _ _ _ | .lih p _ _ _ | .qlog p _ _ _ _ | .pbr p _ _ _ | .pbx p _ _ | .br p _ | .call p _ _
  | .loop p _ _ | .vany p _ _ _ | .vall p _ _ _ | .tend p | .trap p _ _ | .brk p _ | .nap p _ _ _ | .srd p _ _ _ | .swr p _ _ _
  | .fence p _ _ _ | .tret p | .tretSkip p | .tretEnd p | .tretTo p _ | .sys p _ _
  | .xtovBc p _ _ _ | .xtovIns p _ _ _ _ | .vtox p _ _ _ _ | .vtoxR p _ _ _ _ | .ktox p _ _ | .xtok p _ _ | .spawn p _ _ _
  | .binit p _ _ | .barrive p _ | .bexpect p _ _ | .bwait p _ _ _ | .btest p _ _ _ | .breset p _ | .toksig p _ _ | .tokwait p _ _
  | .gstart p _ _ | .leaseReq p _ _ _ _ | .leaseRel p _ | .leaseQry p _ _ | .mqpush p _ _ | .mqstat p _ _
  | .sbind p _ _ _ _ _ | .sprobe p _ _ _ _ _ _ | .snew p _ _ _ _ _ | .spub p _ | .srel p _ | .spin p _ | .spinRef p _ _ _ _
  | .sunpin p _ | .sunpinRef p _ _ | .sseek p _ _ _ _ | .sinfo p _ _ _ | .sedge p _ _ _ | .tldv p _ _ _ _ | .tstv p _ _ _ _
  | .tldx p _ _ _ _ | .twb p _ | .tpref p _ _ _ | .wayconv p _ _ _ | .wayrest p _ _ _ | .lds p _ _ _ _ _ _ | .sts p _ _ _ _ _
  | .ld p _ _ _ _ _ _ _ _ | .ldp p _ _ _ _ _ _ _ _ | .st p _ _ _ _ _ _ _ | .stp p _ _ _ _ _ _ _ | .vld p _ _ _ _ _
  | .vgld p _ _ _ _ _ | .vst p _ _ _ _ _ | .vsst p _ _ _ _ _ | .amo p _ _ _ _ _ _ | .cas p _ _ _ _ _ | .vamo p _ _ _ _ _
  | .mcas p _ _ _ | .rwb p _ _ | .rinv p _ _ | .rwbinv p _ _ | .rstf p _ _ _ _ | .acopy p _ _ _ | .pfl p _ _ _ _
  | .mpass p _ _ _ _ _ _ | .mop p _ | .mgath p _ _ _ | .minit p _ _ _ _ | .mrd p _ _ _ _ _ | .mwr p _ _ _ _ _
  | .mst p _ _ _ => some p
  | _ => none

/-- The word's addresses decide which of its sets its accesses are in (R275). -/
def Instr.byAddress : Instr → Bool
  | .ld .. | .ldp .. | .vld .. | .vgld .. | .st .. | .stp .. | .vst .. | .vsst .. | .rwb .. | .rinv .. | .rwbinv ..
  | .amo .. | .cas .. | .vamo .. | .mcas .. | .tokwait .. | .toksig .. | .acopy .. => true
  | _ => false
/-- The fence sets that a word's accesses can be in: R, W, T, D, F as bits 0 to 4 (R133, R275, R315, R397). -/
def Instr.sets : Instr → BitVec 5
  | .ld .. | .ldp .. | .vld .. | .vgld .. => 17
  | .st .. | .stp .. | .vst .. | .vsst .. | .rwb .. | .rinv .. | .rwbinv .. => 18
  | .amo .. | .cas .. | .vamo .. | .mcas .. | .tokwait .. => 19
  | .toksig .. => 18
  | .gstart .. | .mqpush .. => 2
  | .rstf .. => 16
  | .acopy .. => 27
  | .lds .. | .sts .. | .binit .. | .barrive .. | .bexpect .. | .bwait .. | .btest .. | .breset .. => 8
  | .sbind .. | .sprobe .. | .snew .. | .spub .. | .srel .. | .spin .. | .spinRef .. | .sunpin .. | .sunpinRef .. | .tldv ..
  | .tstv .. | .tldx .. | .twb .. | .mpass .. | .mgath .. | .mst .. => 4
  | _ => 0

namespace Machine
namespace State

/-- The contexts that hold a member, lowest number first. -/
def occupiedCtxs (s : State) : List Nat :=
  ((if s.cx.occ == .occupied then [s.here] else []) ++ s.others.filterMap fun (c, x) =>
    if x.occ == .occupied then some c else none).mergeSort (· ≤ ·)
/-- The contexts of a core that an age override may choose: a wait count of 64 or more (R106). -/
def aged (s : State) (l : List Nat) : Option Nat := l.find? fun c => 64 ≤ (s.ctx c).waited

end State

/-- AGE_OVERRIDE (R106): the lowest-numbered context that has waited 64 cycles will be primary in the core's next selection, unless
the last one was an override; a core's contexts issue only as its selection of the cycle says (R16). -/
def execAgeOverride (core : Nat) (s : State) : Host.Outcome State Fault Refusal :=
  let k := s.core core
  .next (if k.lastOverride then s
    else s.setCore core { k with override := s.aged (s.occupiedCtxs.filter fun c => c / 4 == core) })
/-- EXPOSED_RESULT_LANDS (R93): what is due at the context's bundle time lands; the shared path of R97 has landed its write of
this bundle time when bundle time reached it. -/
def execExposedResultLands (c : Nat) (s : State) : Host.Outcome State Fault Refusal :=
  let x := s.ctx c
  let (y, left) := landDue x.btime true x.pending x
  .next (s.setCtx c { y with pending := left })
/-- TRAP_ENTRY (R331): what a waiting word had taken is given back, and the context takes the trap at its next bundle. No trap has an
unassigned cause (R452). -/
def execTrapEntry (c : Nat) (f : FaultInfo) (s : State) : Host.Outcome State Fault Refusal :=
  .next (if (s.ctx c).occ == .occupied && !State.unassigned f.cause then (s.withdraw c).trapAt c f else s)

end Machine
end Sys2Proof
end

