-- ==== Sys2Proof/Machine/Vector.lean ====
section
/-! DEFINITION. The vector engine (R135 to R155) and the crossings (R157). -/

namespace Sys2Proof.Machine

/-- A vector word that writes the active lanes of vd from a function of the lane (R137, R138). -/
def vword (lat : Nat) (k : BitVec 4) (d : BitVec 6) (f : State → Nat → BitVec 32) (s : State) :
    Host.Outcome State Fault Refusal :=
  .next (s.wv lat d (s.rk k) (mkVReg (f s)))
/-- A two-source word given by its integer and its value function (R140). -/
def vbin (lat : Nat) (k : BitVec 4) (d a b : BitVec 6) (t : ElemType) (fi : Int → Int → Int) (ff : Val → Val → Val)
    (s : State) : Host.Outcome State Fault Refusal :=
  vword lat k d (fun s i =>
    let x := lane (s.rv a) i
    let y := lane (s.rv b) i
    if t.isFloat then floatLane t .rne (ff (laneVal t x) (laneVal t y)) else intLane t (fi (laneInt t x) (laneInt t y))) s
/-- A one-source word. -/
def vun (lat : Nat) (k : BitVec 4) (d a : BitVec 6) (f : BitVec 32 → BitVec 32) (s : State) :
    Host.Outcome State Fault Refusal :=
  vword lat k d (fun s i => f (lane (s.rv a) i)) s
/-- A word on whole containers (R143). -/
def vbit (k : BitVec 4) (d a b : BitVec 6) (f : BitVec 32 → BitVec 32 → BitVec 32) (s : State) :
    Host.Outcome State Fault Refusal :=
  vword 2 k d (fun s i => f (lane (s.rv a) i) (lane (s.rv b) i)) s
/-- The unsigned type of the same width. -/
def unsignedOf : ElemType → ElemType
  | .i8 => .n8 | .i16 => .n16 | .i32 => .n32 | t => t

def execVadd (k : BitVec 4) (d a b : BitVec 6) (t : ElemType) (s : State) := vbin 2 k d a b t (· + ·) Val.add s
def execVsub (k : BitVec 4) (d a b : BitVec 6) (t : ElemType) (s : State) := vbin 2 k d a b t (· - ·) Val.sub s
def execVmul (k : BitVec 4) (d a b : BitVec 6) (t : ElemType) (s : State) := vbin 4 k d a b t (· * ·) Val.mul s
/-- rne(a × b + d) (R140). -/
def execVfma (k : BitVec 4) (d a b : BitVec 6) (t : ElemType) (s : State) :=
  vword 4 k d (fun s i =>
    floatLane t .rne (((laneVal t (lane (s.rv a) i)).mul (laneVal t (lane (s.rv b) i))).add (laneVal t (lane (s.rv d) i)))) s
/-- rne(d − a × b) (R140). -/
def execVfms (k : BitVec 4) (d a b : BitVec 6) (t : ElemType) (s : State) :=
  vword 4 k d (fun s i =>
    floatLane t .rne ((laneVal t (lane (s.rv d) i)).sub ((laneVal t (lane (s.rv a) i)).mul (laneVal t (lane (s.rv b) i))))) s
def execVmin (k : BitVec 4) (d a b : BitVec 6) (t : ElemType) (s : State) := vbin 2 k d a b t min Val.min s
def execVmax (k : BitVec 4) (d a b : BitVec 6) (t : ElemType) (s : State) := vbin 2 k d a b t max Val.max s
/-- |a|, wrapped; a NaN gives the canonical NaN (R141). -/
def execVabs (k : BitVec 4) (d a : BitVec 6) (t : ElemType) (s : State) :=
  vun 2 k d a (fun c => if t.isFloat then floatLane t .rne (laneVal t c).abs else intLane t (laneInt t c).natAbs) s
/-- −a, wrapped (R141). -/
def execVneg (k : BitVec 4) (d a : BitVec 6) (t : ElemType) (s : State) :=
  vun 2 k d a (fun c => if t.isFloat then floatLane t .rne (laneVal t c).neg else intLane t (-laneInt t c)) s
/-- |a − b|, exact, as the unsigned type; rne for floats (R140). -/
def execVabd (k : BitVec 4) (d a b : BitVec 6) (t : ElemType) (s : State) :=
  vword 2 k d (fun s i =>
    let x := lane (s.rv a) i
    let y := lane (s.rv b) i
    if t.isFloat then floatLane t .rne ((laneVal t x).sub (laneVal t y)).abs
    else intLane (unsignedOf t) (laneInt t x - laneInt t y).natAbs) s
/-- Saturating sum and difference (R140). -/
def execVadds (k : BitVec 4) (d a b : BitVec 6) (t : ElemType) (s : State) :=
  vbin 2 k d a b t (fun x y => sat (ElemType_width t) t.isSigned (x + y)) Val.add s
def execVsubs (k : BitVec 4) (d a b : BitVec 6) (t : ElemType) (s : State) :=
  vbin 2 k d a b t (fun x y => sat (ElemType_width t) t.isSigned (x - y)) Val.sub s
/-- The high half of the exact product (R140). -/
def execVmulh (k : BitVec 4) (d a b : BitVec 6) (t : ElemType) (s : State) :=
  vbin 2 k d a b t (fun x y => (x * y).fdiv (2 ^ ElemType_width t)) Val.mul s

/-- The w-bit shifts of R142 in the type's layout: left, right with zero fill, right with sign fill. -/
def shiftLane (t : ElemType) (op : Nat) (c : BitVec 32) (n : Nat) : BitVec 32 :=
  let w := ElemType_width t
  let v : BitVec w := c.setWidth w
  let r : BitVec w := match op with
    | 0 => if n < w then v <<< n else 0
    | 1 => if n < w then v >>> n else 0
    | _ => v.sshiftRight (min n w)
  if t.isSigned then r.signExtend 32 else r.setWidth 32
/-- The immediate amount: imm6 unsigned, or the literal as n32 (R142). -/
def immAmount (i : BitVec 6) : Option Word → Nat
  | some l => l.toNat
  | none => i.toNat
/-- imm6 sign-extended, or the literal as i32 (R146, R152). -/
def immLane (i : BitVec 6) : Option Word → Int
  | some l => l.toInt
  | none => i.toInt
def execVshl (k : BitVec 4) (d a b : BitVec 6) (t : ElemType) (s : State) := vbit k d a b (fun x y => shiftLane t 0 x y.toNat) s
def execVshr (k : BitVec 4) (d a b : BitVec 6) (t : ElemType) (s : State) := vbit k d a b (fun x y => shiftLane t 1 x y.toNat) s
def execVsar (k : BitVec 4) (d a b : BitVec 6) (t : ElemType) (s : State) := vbit k d a b (fun x y => shiftLane t 2 x y.toNat) s
def execVshli (k : BitVec 4) (d a i : BitVec 6) (t : ElemType) (l : Option Word) (s : State) :=
  vun 2 k d a (fun x => shiftLane t 0 x (immAmount i l)) s
def execVshri (k : BitVec 4) (d a i : BitVec 6) (t : ElemType) (l : Option Word) (s : State) :=
  vun 2 k d a (fun x => shiftLane t 1 x (immAmount i l)) s
def execVsari (k : BitVec 4) (d a i : BitVec 6) (t : ElemType) (l : Option Word) (s : State) :=
  vun 2 k d a (fun x => shiftLane t 2 x (immAmount i l)) s
def execVand (k : BitVec 4) (d a b : BitVec 6) (_ : ElemType) (s : State) := vbit k d a b (· &&& ·) s
def execVor (k : BitVec 4) (d a b : BitVec 6) (_ : ElemType) (s : State) := vbit k d a b (· ||| ·) s
def execVxor (k : BitVec 4) (d a b : BitVec 6) (_ : ElemType) (s : State) := vbit k d a b (· ^^^ ·) s
def execVandn (k : BitVec 4) (d a b : BitVec 6) (_ : ElemType) (s : State) := vbit k d a b (fun x y => x &&& ~~~y) s
/-- Counts within the type's width, written as the type (R141). -/
def execVpopc (k : BitVec 4) (d a : BitVec 6) (t : ElemType) (s : State) :=
  vun 2 k d a (fun c => intLane t (popN c.toNat (ElemType_width t))) s
def execVclz (k : BitVec 4) (d a : BitVec 6) (t : ElemType) (s : State) :=
  vun 2 k d a (fun c => intLane t (clzN c.toNat (ElemType_width t))) s

/-- A compare: mask bit i is the lane's result, 0 for an inactive lane (R137, R144). -/
def vcmp (k : BitVec 4) (d : BitVec 4) (a b : BitVec 6) (t : ElemType) (fi : Int → Int → Bool) (ff : Val → Val → Bool)
    (s : State) : Host.Outcome State Fault Refusal :=
  .next (s.wk 2 d (s.rk k &&& mkMask fun i =>
    let x := lane (s.rv a) i
    let y := lane (s.rv b) i
    if t.isFloat then ff (laneVal t x) (laneVal t y) else fi (laneInt t x) (laneInt t y)))
def execVceq (k : BitVec 4) (d : BitVec 4) (a b : BitVec 6) (t : ElemType) (s : State) := vcmp k d a b t (· == ·) Val.eq s
def execVcne (k : BitVec 4) (d : BitVec 4) (a b : BitVec 6) (t : ElemType) (s : State) :=
  vcmp k d a b t (· != ·) (fun x y => !x.eq y) s
def execVclt (k : BitVec 4) (d : BitVec 4) (a b : BitVec 6) (t : ElemType) (s : State) :=
  vcmp k d a b t (fun x y => x < y) Val.lt s
def execVcle (k : BitVec 4) (d : BitVec 4) (a b : BitVec 6) (t : ElemType) (s : State) :=
  vcmp k d a b t (fun x y => x ≤ y) (fun x y => x.lt y || x.eq y) s

/-- `vsel` writes every lane; its k field selects (R145). -/
def execVsel (k : BitVec 4) (d a b : BitVec 6) (_ : ElemType) (s : State) : Host.Outcome State Fault Refusal :=
  .next (s.wv 2 d (BitVec.allOnes 64) (mkVReg fun i =>
    if (s.rk k).getLsbD i then lane (s.rv a) i else lane (s.rv b) i))
def execVmov (k : BitVec 4) (d a : BitVec 6) (_ : ElemType) (s : State) := vun 2 k d a id s
/-- The lane that `vimm` writes (R146). -/
def immContainer (t : ElemType) (i : BitVec 6) : Option Word → BitVec 32
  | some l => l
  | none => if t.isFloat then floatLane t .rne (.ofInt i.toInt) else intLane t i.toInt
def execVimm (k : BitVec 4) (d i : BitVec 6) (t : ElemType) (l : Option Word) (s : State) :=
  vword 2 k d (fun _ _ => immContainer t i l) s
def execViota (k : BitVec 4) (d i : BitVec 6) (t : ElemType) (l : Option Word) (s : State) :=
  vword 2 k d (fun _ n => intLane t (immLane i l + n)) s

/-- The active lanes' values of a register, in ascending lane order. -/
def activeVals (t : ElemType) (v : VReg) (m : BitVec 64) : List (Nat × Val) :=
  ((List.range 64).filter m.getLsbD).map fun i => (i, laneVal t (lane v i))
/-- The container of lane i among converted lanes. -/
def laneOf (l : List (Nat × BitVec 32)) (i : Nat) : BitVec 32 := ((l.find? (·.1 == i)).map Prod.snd).getD 0
/-- A lane converted to a type other than d8 (R59): an integer into a wider integer is sign- or zero-extended as its own
type says; every other conversion rounds and saturates (an integer into one of its own width saturates: log 14). -/
def cvtLane (src t : ElemType) (m : RMode) (c : BitVec 32) : BitVec 32 :=
  if src.isInt && t.isInt && ElemType_width src < ElemType_width t then intLane t (laneInt src c)
  else convLane t m (laneVal src c)
/-- `vcvt` (R147): to d8, the active lanes form the scale group and the generator advances in lane order, at issue; an `swr STOCHSEED`
of the same bundle lands over it (R61, R96 and R127 leave this open; DESIGN CHOICE, log 40). -/
def execVcvt (k : BitVec 4) (d a : BitVec 6) (m : RMode) (src t : ElemType) (s : State) : Host.Outcome State Fault Refusal :=
  if t == .d8 then
    let act := activeVals src (s.rv a) (s.rk k)
    let sigma := chooseSigma (act.map Prod.snd)
    let (codes, g) := toD8List sigma (act.map Prod.snd) s.cx.stoch
    let out := (act.map Prod.fst).zip (codes.map fun c => d8Lane c sigma)
    .next ({ s with cx := { s.cx with stoch := g } }.wv 3 d (s.rk k) (mkVReg (laneOf out)))
  else vun 3 k d a (cvtLane src t m) s
/-- Round a value to an integral one, keeping the sign of a zero (R148). -/
def integral (m : RMode) : Val → Val
  | .fin sg q =>
    let r : Int := roundDiv m sg q.n.natAbs q.d
    .fin sg (.ofInt (if sg then -r else r))
  | v => v
def execVrnd (k : BitVec 4) (d a : BitVec 6) (m : RMode) (t : ElemType) (s : State) :=
  vun 2 k d a (fun c => floatLane t .rne (integral m (laneVal t c))) s
def execVexp2 (k : BitVec 4) (d a : BitVec 6) (_ : ElemType) (s : State) :=
  vun 8 k d a (fun c => BitVec.ofNat 32 (bfExp2 (laneVal .bf c))) s
def execVlog2 (k : BitVec 4) (d a : BitVec 6) (_ : ElemType) (s : State) :=
  vun 8 k d a (fun c => BitVec.ofNat 32 (bfLog2 (laneVal .bf c))) s
def execVrcp (k : BitVec 4) (d a : BitVec 6) (_ : ElemType) (s : State) :=
  vun 8 k d a (fun c => BitVec.ofNat 32 (bfRcp (laneVal .bf c))) s
def execVrsq (k : BitVec 4) (d a : BitVec 6) (_ : ElemType) (s : State) :=
  vun 8 k d a (fun c => BitVec.ofNat 32 (bfRsq (laneVal .bf c))) s

/-- The 64 lanes of a source read as its type, inactive lanes as identities (R70, R150). -/
def redLanes (t : ElemType) (op : Nat) (v : VReg) (m : BitVec 64) : List (BitVec 32) :=
  (List.range 64).map fun i => if m.getLsbD i then
      (if t.isFloat then floatLane t .rne (laneVal t (lane v i)) else intLane t (laneInt t (lane v i)))
    else redIdentity t op
def vreduce (op : Nat) (k : BitVec 4) (d a : BitVec 6) (t : ElemType) (s : State) : Host.Outcome State Fault Refusal :=
  let r := treeReduce (redOp t op) (redLanes t op (s.rv a) (s.rk k))
  .next (s.wv 6 d (BitVec.allOnes 64) (mkVReg fun _ => r))
def execVredsum (k : BitVec 4) (d a : BitVec 6) (t : ElemType) (s : State) := vreduce 0 k d a t s
def execVredmin (k : BitVec 4) (d a : BitVec 6) (t : ElemType) (s : State) := vreduce 1 k d a t s
def execVredmax (k : BitVec 4) (d a : BitVec 6) (t : ElemType) (s : State) := vreduce 2 k d a t s
def execVscan (k : BitVec 4) (d a : BitVec 6) (o : BitVec 2) (t : ElemType) (s : State) : Host.Outcome State Fault Refusal :=
  .next (s.wv 6 d (s.rk k) (ofLanes (scanAll (redOp t o.toNat) (redLanes t o.toNat (s.rv a) (s.rk k)))))
def execVperm (k : BitVec 4) (d a b : BitVec 6) (_ : ElemType) (s : State) :=
  vword 3 k d (fun s i => lane (s.rv a) ((lane (s.rv b) i).toNat % 64)) s
def execVslide (k : BitVec 4) (d a i : BitVec 6) (_ : ElemType) (l : Option Word) (s : State) :=
  vword 3 k d (fun s n =>
    let j : Int := n + immLane i l
    if 0 ≤ j && j ≤ 63 then lane (s.rv a) j.toNat else 0) s
def execVbset (k : BitVec 4) (d b : BitVec 6) (s : State) := vun 2 k d b (fun c => 1#32 <<< (c.toNat % 32)) s

/-- A candidate of `vtopk`: score and id containers, from vd or va, lane (R154). -/
structure Cand where
  score : BitVec 32
  id : BitVec 32
  fromA : Bool
  lane : Nat
/-- The order of R154. -/
def better (t : ElemType) (p q : Cand) : Bool :=
  let x := laneVal t p.score
  let y := laneVal t q.score
  if x.isNan != y.isNan then y.isNan
  else if !x.isNan && !x.eq y then y.lt x
  else if p.id != q.id then p.id.ult q.id
  else if p.fromA != q.fromA then q.fromA
  else p.lane < q.lane
def candInsert (t : ElemType) (c : Cand) : List Cand → List Cand
  | [] => [c]
  | q :: r => if better t c q then c :: q :: r else q :: candInsert t c r
def candSort (t : ElemType) : List Cand → List Cand
  | [] => []
  | c :: r => candInsert t c (candSort t r)
/-- A score as `vtopk` writes it: a NaN becomes the canonical one (R62, R138). -/
def scoreLane (t : ElemType) (c : BitVec 32) : BitVec 32 := if t.isFloat then floatLane t .rne (laneVal t c) else c
/-- `vtopk` (R154). -/
def execVtopk (k : BitVec 4) (d a : BitVec 6) (t : ElemType) (s : State) : Host.Outcome State Fault Refusal :=
  let fromD := (List.range 64).map fun i => (⟨lane (s.rv d) i, lane (s.rv (d + 1)) i, false, i⟩ : Cand)
  let fromA := ((List.range 64).filter (s.rk k).getLsbD).map fun i =>
    (⟨lane (s.rv a) i, lane (s.rv (a + 1)) i, true, i⟩ : Cand)
  let best := (candSort t (fromD ++ fromA)).take 64
  .next ((s.wv 10 d (BitVec.allOnes 64) (ofLanes (best.map fun c => scoreLane t c.score))).wv 10 (d + 1) (BitVec.allOnes 64)
    (ofLanes (best.map Cand.id)))

def execVkand (d a b : BitVec 4) (s : State) : Host.Outcome State Fault Refusal := .next (s.wk 2 d (s.rk a &&& s.rk b))
def execVkor (d a b : BitVec 4) (s : State) : Host.Outcome State Fault Refusal := .next (s.wk 2 d (s.rk a ||| s.rk b))
def execVkxor (d a b : BitVec 4) (s : State) : Host.Outcome State Fault Refusal := .next (s.wk 2 d (s.rk a ^^^ s.rk b))
def execVkandn (d a b : BitVec 4) (s : State) : Host.Outcome State Fault Refusal := .next (s.wk 2 d (s.rk a &&& ~~~(s.rk b)))
/-- The index of the lowest set bit, or 64. -/
def firstBit (m : BitVec 64) : Nat := clzN (brevN m.toNat 64) 64
def execVkpop (d : BitVec 6) (a : BitVec 4) (s : State) : Host.Outcome State Fault Refusal :=
  .next (s.wv 2 d (BitVec.allOnes 64) (mkVReg fun _ => BitVec.ofNat 32 (popN (s.rk a).toNat 64)))
def execVkfirst (d : BitVec 6) (a : BitVec 4) (s : State) : Host.Outcome State Fault Refusal :=
  .next (s.wv 2 d (BitVec.allOnes 64) (mkVReg fun _ => BitVec.ofNat 32 (firstBit (s.rk a))))

/-! Crossings (R157). -/

/-- `cast`: a container from the low bits of a scalar. -/
def castLane (t : ElemType) (x : Dbl) : BitVec 32 :=
  match t with
  | .bf | .d8 => (x.setWidth 16).setWidth 32
  | .f32 => x.setWidth 32
  | _ => intLane t (x.setWidth 32).toInt
/-- `widen`: a scalar from a container. -/
def widenLane (t : ElemType) (c : BitVec 32) : Dbl :=
  match t with
  | .bf | .d8 => (c.setWidth 16).setWidth 64
  | .f32 => c.setWidth 64
  | _ => BitVec.ofInt 64 (laneInt t c)
def execXtovBc (p : Pred) (v : BitVec 6) (x : BitVec 5) (t : ElemType) (s : State) : Host.Outcome State Fault Refusal :=
  s.perform p fun s => s.wvShared 4 v (BitVec.allOnes 64) (mkVReg fun _ => castLane t (s.rx x))
def execXtovIns (p : Pred) (v : BitVec 6) (x : BitVec 5) (l : BitVec 6) (t : ElemType) (s : State) : Host.Outcome State Fault Refusal :=
  s.perform p fun s => s.wvShared 4 v (1#64 <<< l.toNat) (mkVReg fun _ => castLane t (s.rx x))
def execVtox (p : Pred) (v : BitVec 6) (x : BitVec 5) (l : BitVec 6) (t : ElemType) (s : State) : Host.Outcome State Fault Refusal :=
  s.perform p fun s => s.wx 4 x (widenLane t (lane (s.rv v) l.toNat))
def execVtoxR (p : Pred) (v : BitVec 6) (x b : BitVec 5) (t : ElemType) (s : State) : Host.Outcome State Fault Refusal :=
  s.perform p fun s => s.wx 4 x (widenLane t (lane (s.rv v) ((s.rx b).toNat % 64)))
def execKtox (p : Pred) (k : BitVec 4) (x : BitVec 5) (s : State) : Host.Outcome State Fault Refusal :=
  s.perform p fun s => s.wx 4 x (s.rk k)
def execXtok (p : Pred) (k : BitVec 4) (x : BitVec 5) (s : State) : Host.Outcome State Fault Refusal :=
  s.perform p fun s => s.wk 4 k (s.rx x)

end Sys2Proof.Machine
end

