-- ==== Sys2Proof/Machine/Dispatch.lean ====
section
/-! DEFINITION. The meaning of each instruction: one direct call per constructor. -/

namespace Sys2Proof.Machine

def exec (i : Instr) (s : State) : Host.Outcome State Fault Refusal :=
  match i with
  | .emptyBundle d c => Sys2Proof.Machine.execEmptyBundle d c s
  | .add p d a b w => Sys2Proof.Machine.execAdd p d a b w s
  | .sub p d a b w => Sys2Proof.Machine.execSub p d a b w s
  | .and p d a b w => Sys2Proof.Machine.execAnd p d a b w s
  | .or p d a b w => Sys2Proof.Machine.execOr p d a b w s
  | .xor p d a b w => Sys2Proof.Machine.execXor p d a b w s
  | .andn p d a b w => Sys2Proof.Machine.execAndn p d a b w s
  | .shl p d a b w => Sys2Proof.Machine.execShl p d a b w s
  | .shr p d a b w => Sys2Proof.Machine.execShr p d a b w s
  | .sar p d a b w => Sys2Proof.Machine.execSar p d a b w s
  | .rol p d a b w => Sys2Proof.Machine.execRol p d a b w s
  | .minI p d a b w => Sys2Proof.Machine.execMinI p d a b w s
  | .maxI p d a b w => Sys2Proof.Machine.execMaxI p d a b w s
  | .minN p d a b w => Sys2Proof.Machine.execMinN p d a b w s
  | .maxN p d a b w => Sys2Proof.Machine.execMaxN p d a b w s
  | .mul p d a b w => Sys2Proof.Machine.execMul p d a b w s
  | .mulhI p d a b w => Sys2Proof.Machine.execMulhI p d a b w s
  | .mulhN p d a b w => Sys2Proof.Machine.execMulhN p d a b w s
  | .divI p d a b w => Sys2Proof.Machine.execDivI p d a b w s
  | .divN p d a b w => Sys2Proof.Machine.execDivN p d a b w s
  | .remI p d a b w => Sys2Proof.Machine.execRemI p d a b w s
  | .remN p d a b w => Sys2Proof.Machine.execRemN p d a b w s
  | .clz p d a w => Sys2Proof.Machine.execClz p d a w s
  | .ctz p d a w => Sys2Proof.Machine.execCtz p d a w s
  | .popc p d a w => Sys2Proof.Machine.execPopc p d a w s
  | .brev p d a w => Sys2Proof.Machine.execBrev p d a w s
  | .bswap p d a w => Sys2Proof.Machine.execBswap p d a w s
  | .sel p d a b w q => Sys2Proof.Machine.execSel p d a b w q s
  | .adds p d a b w s0 => Sys2Proof.Machine.execAdds p d a b w s0 s
  | .extI p d a b => Sys2Proof.Machine.execExtI p d a b s
  | .extN p d a b => Sys2Proof.Machine.execExtN p d a b s
  | .ins p d a b => Sys2Proof.Machine.execIns p d a b s
  | .cmp p q a b w c => Sys2Proof.Machine.execCmp p q a b w c s
  | .addi p d a i0 lit => Sys2Proof.Machine.execAddi p d a i0 lit s
  | .andi p d a i0 lit => Sys2Proof.Machine.execAndi p d a i0 lit s
  | .ori p d a i0 lit => Sys2Proof.Machine.execOri p d a i0 lit s
  | .xori p d a i0 lit => Sys2Proof.Machine.execXori p d a i0 lit s
  | .shli p d a i0 lit => Sys2Proof.Machine.execShli p d a i0 lit s
  | .shri p d a i0 lit => Sys2Proof.Machine.execShri p d a i0 lit s
  | .sari p d a i0 lit => Sys2Proof.Machine.execSari p d a i0 lit s
  | .cmpi p c q a i0 lit => Sys2Proof.Machine.execCmpi p c q a i0 lit s
  | .li p d i0 lit => Sys2Proof.Machine.execLi p d i0 lit s
  | .lih p d i0 lit => Sys2Proof.Machine.execLih p d i0 lit s
  | .qlog p d a b t => Sys2Proof.Machine.execQlog p d a b t s
  | .pbr p b o lit => Sys2Proof.Machine.execPbr p b o lit s
  | .pbx p b a => Sys2Proof.Machine.execPbx p b a s
  | .br p b => Sys2Proof.Machine.execBr p b s
  | .call p d b => Sys2Proof.Machine.execCall p d b s
  | .loop p b a => Sys2Proof.Machine.execLoop p b a s
  | .vany p d a b => Sys2Proof.Machine.execVany p d a b s
  | .vall p d a b => Sys2Proof.Machine.execVall p d a b s
  | .tend p => Sys2Proof.Machine.execTend p s
  | .trap p c lit => Sys2Proof.Machine.execTrap p c lit s
  | .brk p c => Sys2Proof.Machine.execBrk p c s
  | .nap p a i0 lit => Sys2Proof.Machine.execNap p a i0 lit s
  | .srd p d r lit => Sys2Proof.Machine.execSrd p d r lit s
  | .swr p a r lit => Sys2Proof.Machine.execSwr p a r lit s
  | .fence p c e f => Sys2Proof.Machine.execFence p c e f s
  | .tret p => Sys2Proof.Machine.execTret p s
  | .tretSkip p => Sys2Proof.Machine.execTretSkip p s
  | .tretEnd p => Sys2Proof.Machine.execTretEnd p s
  | .tretTo p a => Sys2Proof.Machine.execTretTo p a s
  | .sys p s0 lit => Sys2Proof.Machine.execSys p s0 lit s
  | .xtovBc p v x t => Sys2Proof.Machine.execXtovBc p v x t s
  | .xtovIns p v x l t => Sys2Proof.Machine.execXtovIns p v x l t s
  | .vtox p v x l t => Sys2Proof.Machine.execVtox p v x l t s
  | .vtoxR p v x b t => Sys2Proof.Machine.execVtoxR p v x b t s
  | .ktox p k x => Sys2Proof.Machine.execKtox p k x s
  | .xtok p k x => Sys2Proof.Machine.execXtok p k x s
  | .spawn p b c a => Sys2Proof.Machine.execSpawn p b c a s
  | .binit p a b => Sys2Proof.Machine.execBinit p a b s
  | .barrive p a => Sys2Proof.Machine.execBarrive p a s
  | .bexpect p a b => Sys2Proof.Machine.execBexpect p a b s
  | .bwait p q a b => Sys2Proof.Machine.execBwait p q a b s
  | .btest p d a h => Sys2Proof.Machine.execBtest p d a h s
  | .breset p a => Sys2Proof.Machine.execBreset p a s
  | .toksig p a b => Sys2Proof.Machine.execToksig p a b s
  | .tokwait p d a => Sys2Proof.Machine.execTokwait p d a s
  | .gstart p a b => Sys2Proof.Machine.execGstart p a b s
  | .leaseReq p d a b c => Sys2Proof.Machine.execLeaseReq p d a b c s
  | .leaseRel p a => Sys2Proof.Machine.execLeaseRel p a s
  | .leaseQry p d a => Sys2Proof.Machine.execLeaseQry p d a s
  | .mqpush p v s0 => Sys2Proof.Machine.execMqpush p v s0 s
  | .mqstat p d s0 => Sys2Proof.Machine.execMqstat p d s0 s
  | .sbind p w a b r h => Sys2Proof.Machine.execSbind p w a b r h s
  | .sprobe p w a b h q f => Sys2Proof.Machine.execSprobe p w a b h q f s
  | .snew p w a b c x => Sys2Proof.Machine.execSnew p w a b c x s
  | .spub p w => Sys2Proof.Machine.execSpub p w s
  | .srel p w => Sys2Proof.Machine.execSrel p w s
  | .spin p w => Sys2Proof.Machine.execSpin p w s
  | .spinRef p a b r h => Sys2Proof.Machine.execSpinRef p a b r h s
  | .sunpin p w => Sys2Proof.Machine.execSunpin p w s
  | .sunpinRef p a b => Sys2Proof.Machine.execSunpinRef p a b s
  | .sseek p w a i0 lit => Sys2Proof.Machine.execSseek p w a i0 lit s
  | .sinfo p d w t => Sys2Proof.Machine.execSinfo p d w t s
  | .sedge p w a b => Sys2Proof.Machine.execSedge p w a b s
  | .tldv p v w k h => Sys2Proof.Machine.execTldv p v w k h s
  | .tstv p v w k h => Sys2Proof.Machine.execTstv p v w k h s
  | .tldx p v w k a => Sys2Proof.Machine.execTldx p v w k a s
  | .twb p w => Sys2Proof.Machine.execTwb p w s
  | .tpref p a i0 lit => Sys2Proof.Machine.execTpref p a i0 lit s
  | .wayconv p d i0 lit => Sys2Proof.Machine.execWayconv p d i0 lit s
  | .wayrest p d i0 lit => Sys2Proof.Machine.execWayrest p d i0 lit s
  | .lds p d a z s0 o lit => Sys2Proof.Machine.execLds p d a z s0 o lit s
  | .sts p d a z o lit => Sys2Proof.Machine.execSts p d a z o lit s
  | .ld p d a z s0 l o f lit => Sys2Proof.Machine.execLd p d a z s0 l o f lit s
  | .ldp p d a z s0 l o f lit => Sys2Proof.Machine.execLdp p d a z s0 l o f lit s
  | .st p d a z l o f lit => Sys2Proof.Machine.execSt p d a z l o f lit s
  | .stp p d a z l o f lit => Sys2Proof.Machine.execStp p d a z l o f lit s
  | .vld p v k a b z => Sys2Proof.Machine.execVld p v k a b z s
  | .vgld p v k a b z => Sys2Proof.Machine.execVgld p v k a b z s
  | .vst p v k a b z => Sys2Proof.Machine.execVst p v k a b z s
  | .vsst p v k a b z => Sys2Proof.Machine.execVsst p v k a b z s
  | .amo p d a b o z r => Sys2Proof.Machine.execAmo p d a b o z r s
  | .cas p d a b z r => Sys2Proof.Machine.execCas p d a b z r s
  | .vamo p v a i0 k o => Sys2Proof.Machine.execVamo p v a i0 k o s
  | .mcas p d a c => Sys2Proof.Machine.execMcas p d a c s
  | .rwb p a b => Sys2Proof.Machine.execRwb p a b s
  | .rinv p a b => Sys2Proof.Machine.execRinv p a b s
  | .rwbinv p a b => Sys2Proof.Machine.execRwbinv p a b s
  | .rstf p v k a b => Sys2Proof.Machine.execRstf p v k a b s
  | .acopy p a i0 lit => Sys2Proof.Machine.execAcopy p a i0 lit s
  | .pfl p e a i0 lit => Sys2Proof.Machine.execPfl p e a i0 lit s
  | .vadd k d a b t => Sys2Proof.Machine.execVadd k d a b t s
  | .vsub k d a b t => Sys2Proof.Machine.execVsub k d a b t s
  | .vmul k d a b t => Sys2Proof.Machine.execVmul k d a b t s
  | .vfma k d a b t => Sys2Proof.Machine.execVfma k d a b t s
  | .vfms k d a b t => Sys2Proof.Machine.execVfms k d a b t s
  | .vmin k d a b t => Sys2Proof.Machine.execVmin k d a b t s
  | .vmax k d a b t => Sys2Proof.Machine.execVmax k d a b t s
  | .vabs k d a t => Sys2Proof.Machine.execVabs k d a t s
  | .vneg k d a t => Sys2Proof.Machine.execVneg k d a t s
  | .vabd k d a b t => Sys2Proof.Machine.execVabd k d a b t s
  | .vadds k d a b t => Sys2Proof.Machine.execVadds k d a b t s
  | .vsubs k d a b t => Sys2Proof.Machine.execVsubs k d a b t s
  | .vmulh k d a b t => Sys2Proof.Machine.execVmulh k d a b t s
  | .vshl k d a b t => Sys2Proof.Machine.execVshl k d a b t s
  | .vshr k d a b t => Sys2Proof.Machine.execVshr k d a b t s
  | .vsar k d a b t => Sys2Proof.Machine.execVsar k d a b t s
  | .vand k d a b t => Sys2Proof.Machine.execVand k d a b t s
  | .vor k d a b t => Sys2Proof.Machine.execVor k d a b t s
  | .vxor k d a b t => Sys2Proof.Machine.execVxor k d a b t s
  | .vandn k d a b t => Sys2Proof.Machine.execVandn k d a b t s
  | .vpopc k d a t => Sys2Proof.Machine.execVpopc k d a t s
  | .vclz k d a t => Sys2Proof.Machine.execVclz k d a t s
  | .vceq k d a b t => Sys2Proof.Machine.execVceq k d a b t s
  | .vcne k d a b t => Sys2Proof.Machine.execVcne k d a b t s
  | .vclt k d a b t => Sys2Proof.Machine.execVclt k d a b t s
  | .vcle k d a b t => Sys2Proof.Machine.execVcle k d a b t s
  | .vsel k d a b t => Sys2Proof.Machine.execVsel k d a b t s
  | .vmov k d a t => Sys2Proof.Machine.execVmov k d a t s
  | .vimm k d i0 t lit => Sys2Proof.Machine.execVimm k d i0 t lit s
  | .viota k d i0 t lit => Sys2Proof.Machine.execViota k d i0 t lit s
  | .vcvt k d a m s0 t => Sys2Proof.Machine.execVcvt k d a m s0 t s
  | .vrnd k d a m t => Sys2Proof.Machine.execVrnd k d a m t s
  | .vexp2 k d a t => Sys2Proof.Machine.execVexp2 k d a t s
  | .vlog2 k d a t => Sys2Proof.Machine.execVlog2 k d a t s
  | .vrcp k d a t => Sys2Proof.Machine.execVrcp k d a t s
  | .vrsq k d a t => Sys2Proof.Machine.execVrsq k d a t s
  | .vredsum k d a t => Sys2Proof.Machine.execVredsum k d a t s
  | .vredmin k d a t => Sys2Proof.Machine.execVredmin k d a t s
  | .vredmax k d a t => Sys2Proof.Machine.execVredmax k d a t s
  | .vscan k d a o t => Sys2Proof.Machine.execVscan k d a o t s
  | .vperm k d a b t => Sys2Proof.Machine.execVperm k d a b t s
  | .vslide k d a i0 t lit => Sys2Proof.Machine.execVslide k d a i0 t lit s
  | .vtopk k d a t => Sys2Proof.Machine.execVtopk k d a t s
  | .vbset k d b => Sys2Proof.Machine.execVbset k d b s
  | .vkand d a b => Sys2Proof.Machine.execVkand d a b s
  | .vkor d a b => Sys2Proof.Machine.execVkor d a b s
  | .vkxor d a b => Sys2Proof.Machine.execVkxor d a b s
  | .vkandn d a b => Sys2Proof.Machine.execVkandn d a b s
  | .vkpop d a => Sys2Proof.Machine.execVkpop d a s
  | .vkfirst d a => Sys2Proof.Machine.execVkfirst d a s
  | .vshli k d a i0 t lit => Sys2Proof.Machine.execVshli k d a i0 t lit s
  | .vshri k d a i0 t lit => Sys2Proof.Machine.execVshri k d a i0 t lit s
  | .vsari k d a i0 t lit => Sys2Proof.Machine.execVsari k d a i0 t lit s
  | .mpass p a w b o k j => Sys2Proof.Machine.execMpass p a w b o k j s
  | .mop p o => Sys2Proof.Machine.execMop p o s
  | .mgath p v w k => Sys2Proof.Machine.execMgath p v w k s
  | .minit p a s0 i0 x => Sys2Proof.Machine.execMinit p a s0 i0 x s
  | .mrd p a r t v k => Sys2Proof.Machine.execMrd p a r t v k s
  | .mwr p a r t v k => Sys2Proof.Machine.execMwr p a r t v k s
  | .mst p a w q => Sys2Proof.Machine.execMst p a w q s
  | .mqpushFullTimeout c => Sys2Proof.Machine.execMqpushFullTimeout c s
  | .mcasLockTimeout m => Sys2Proof.Machine.execMcasLockTimeout m s
  | .mstComplete c => Sys2Proof.Machine.execMstComplete c s
  | .interlockedCompletion c id => Sys2Proof.Machine.execInterlockedCompletion c id s
  | .lanternAccept cl desc addr graph => Sys2Proof.Machine.execLanternAccept cl desc addr graph s
  | .inputArrival cl entry map => Sys2Proof.Machine.execInputArrival cl entry map s
  | .taskDispatch cl => Sys2Proof.Machine.execTaskDispatch cl s
  | .classAgeing cl entry => Sys2Proof.Machine.execClassAgeing cl entry s
  | .class0PreemptDecision cl entry => Sys2Proof.Machine.execClass0PreemptDecision cl entry s
  | .versionWaitTimeout u => Sys2Proof.Machine.execVersionWaitTimeout u s
  | .parkedTaskResume c => Sys2Proof.Machine.execParkedTaskResume c s
  | .memberEnd c => Sys2Proof.Machine.execMemberEnd c s
  | .preemption cl entry => Sys2Proof.Machine.execPreemption cl entry s
  | .saveRecordComplete cl entry => Sys2Proof.Machine.execSaveRecordComplete cl entry s
  | .taskResume cl entry => Sys2Proof.Machine.execTaskResume cl entry s
  | .loamAllocation cl slice => Sys2Proof.Machine.execLoamAllocation cl slice s
  | .allocationTimeout cl id => Sys2Proof.Machine.execAllocationTimeout cl id s
  | .homeTileRequest r => Sys2Proof.Machine.execHomeTileRequest r s
  | .awaitListRetry r wait => Sys2Proof.Machine.execAwaitListRetry r wait s
  | .tileFill cl slot => Sys2Proof.Machine.execTileFill cl slot s
  | .tileForward r holder v => Sys2Proof.Machine.execTileForward r holder v s
  | .snewAtHome c tile n next => Sys2Proof.Machine.execSnewAtHome c tile n next s
  | .publishAtHome tile v cl => Sys2Proof.Machine.execPublishAtHome tile v cl s
  | .abandonAtHome tile v => Sys2Proof.Machine.execAbandonAtHome tile v s
  | .tileWritebackMerge cl slot => Sys2Proof.Machine.execTileWritebackMerge cl slot s
  | .wayconvPinTimeout cl => Sys2Proof.Machine.execWayconvPinTimeout cl s
  | .wayWake cl slice way => Sys2Proof.Machine.execWayWake cl slice way s
  | .itineraryEntry cl id => Sys2Proof.Machine.execItineraryEntry cl id s
  | .lineWriteMiss core id => Sys2Proof.Machine.execLineWriteMiss core id s
  | .copyUnitLands cl copy => Sys2Proof.Machine.execCopyUnitLands cl copy s
  | .bwaitPoll c id => Sys2Proof.Machine.execBwaitPoll c id s
  | .launchNode b => Sys2Proof.Machine.execLaunchNode b s
  | .ifNode b => Sys2Proof.Machine.execIfNode b s
  | .whileNode b => Sys2Proof.Machine.execWhileNode b s
  | .switchNode b => Sys2Proof.Machine.execSwitchNode b s
  | .signalNode b => Sys2Proof.Machine.execSignalNode b s
  | .waitNode b => Sys2Proof.Machine.execWaitNode b s
  | .callNode b => Sys2Proof.Machine.execCallNode b s
  | .endNode b => Sys2Proof.Machine.execEndNode b s
  | .launchWatchMet b => Sys2Proof.Machine.execLaunchWatchMet b s
  | .liveNodeTimeout b => Sys2Proof.Machine.execLiveNodeTimeout b s
  | .cmdStart q => Sys2Proof.Machine.execCmdStart q s
  | .cmdTask q => Sys2Proof.Machine.execCmdTask q s
  | .cmdSignal q => Sys2Proof.Machine.execCmdSignal q s
  | .tokenWaitRetry id wait => Sys2Proof.Machine.execTokenWaitRetry id wait s
  | .tokenReexamine gpa => Sys2Proof.Machine.execTokenReexamine gpa s
  | .transactionResend id => Sys2Proof.Machine.execTransactionResend id s
  | .fabricTimeout id => Sys2Proof.Machine.execFabricTimeout id s
  | .leaseHeadGrant dim => Sys2Proof.Machine.execLeaseHeadGrant dim s
  | .leaseTuned id => Sys2Proof.Machine.execLeaseTuned id s
  | .leaseTermExpiry id => Sys2Proof.Machine.execLeaseTermExpiry id s
  | .leaseNoticeExpiry id => Sys2Proof.Machine.execLeaseNoticeExpiry id s
  | .leaseDrained id => Sys2Proof.Machine.execLeaseDrained id s
  | .leaseQueueExpiry id => Sys2Proof.Machine.execLeaseQueueExpiry id s
  | .leaseEntryTimeout id => Sys2Proof.Machine.execLeaseEntryTimeout id s
  | .guestPreemptLate space => Sys2Proof.Machine.execGuestPreemptLate space s
  | .napEnd c => Sys2Proof.Machine.execNapEnd c s
  | .mpassLands c => Sys2Proof.Machine.execMpassLands c s
  | .ageOverride core => Sys2Proof.Machine.execAgeOverride core s
  | .exposedResultLands c => Sys2Proof.Machine.execExposedResultLands c s
  | .deferredFailure c id f => Sys2Proof.Machine.execDeferredFailure c id f s
  | .trapEntry c f => Sys2Proof.Machine.execTrapEntry c f s
  | .wayGate cl slice way => Sys2Proof.Machine.execWayGate cl slice way s
  | .lineReadMiss core line => Sys2Proof.Machine.execLineReadMiss core line s
  | .lineInvalidation core line => Sys2Proof.Machine.execLineInvalidation core line s
  | .lineEviction core line => Sys2Proof.Machine.execLineEviction core line s
  | .byteMaskMerge line mask data => Sys2Proof.Machine.execByteMaskMerge line mask data s
  | .copyFault cl copy cause => Sys2Proof.Machine.execCopyFault cl copy cause s
  | .qtailDoorbell q tail => Sys2Proof.Machine.execQtailDoorbell q tail s
  | .dbgctlHaltreq c => Sys2Proof.Machine.execDbgctlHaltreq c s
  | .dbgctlResume c => Sys2Proof.Machine.execDbgctlResume c s
  | .dbgctlStep c => Sys2Proof.Machine.execDbgctlStep c s
  | .debugHalt c reason => Sys2Proof.Machine.execDebugHalt c reason s
  | .debugWindowWrite c off val => Sys2Proof.Machine.execDebugWindowWrite c off val s
  | .tlbinvAll => Sys2Proof.Machine.execTlbinvAll s
  | .tlbinvSpace space => Sys2Proof.Machine.execTlbinvSpace space s
  | .tlbinvPage space page => Sys2Proof.Machine.execTlbinvPage space page s
  | .flitReplay peer dim ch => Sys2Proof.Machine.execFlitReplay peer dim ch s
  | .channelRetrain peer dim ch => Sys2Proof.Machine.execChannelRetrain peer dim ch s
  | .channelSpare dim ch => Sys2Proof.Machine.execChannelSpare dim ch s
  | .flitAgeDiscard f => Sys2Proof.Machine.execFlitAgeDiscard f s
  | .rd f => Sys2Proof.Machine.execRd f s
  | .rdl f => Sys2Proof.Machine.execRdl f s
  | .wr f => Sys2Proof.Machine.execWr f s
  | .wrm f => Sys2Proof.Machine.execWrm f s
  | .fabricAmo f => Sys2Proof.Machine.execFabricAmo f s
  | .fabricRstf f => Sys2Proof.Machine.execFabricRstf f s
  | .greq f => Sys2Proof.Machine.execGreq f s
  | .grev f => Sys2Proof.Machine.execGrev f s
  | .gack f => Sys2Proof.Machine.execGack f s
  | .mlock f => Sys2Proof.Machine.execMlock f s
  | .mdec f => Sys2Proof.Machine.execMdec f s
  | .mcommit f => Sys2Proof.Machine.execMcommit f s
  | .mquery f => Sys2Proof.Machine.execMquery f s
  | .treq f => Sys2Proof.Machine.execTreq f s
  | .twbTxn f => Sys2Proof.Machine.execTwbTxn f s
  | .tok f => Sys2Proof.Machine.execTok f s
  | .cpl f => Sys2Proof.Machine.execCpl f s
  | .hb f => Sys2Proof.Machine.execHb f s
  | .flitBadType f dim ch => Sys2Proof.Machine.execFlitBadType f dim ch s
  | .heartbeatDue peer dim ch => Sys2Proof.Machine.execHeartbeatDue peer dim ch s
  | .linkSilence peer => Sys2Proof.Machine.execLinkSilence peer s
  | .deathNotice dead reporter epoch => Sys2Proof.Machine.execDeathNotice dead reporter epoch s
  | .joinNotice dev epoch => Sys2Proof.Machine.execJoinNotice dev epoch s
  | .leaseReserveReply id ok => Sys2Proof.Machine.execLeaseReserveReply id ok s
  | .guestTakePacket q => Sys2Proof.Machine.execGuestTakePacket q s
  | .guestCoherentRequest q idx space va write data mask => Sys2Proof.Machine.execGuestCoherentRequest q idx space va write data mask s
  | .guestCompletion q idx result => Sys2Proof.Machine.execGuestCompletion q idx result s
  | .guestFault q idx translation detail => Sys2Proof.Machine.execGuestFault q idx translation detail s
  | .guestStopped space => Sys2Proof.Machine.execGuestStopped space s
  | .guestSaved space => Sys2Proof.Machine.execGuestSaved space s
  | .guestPowerOverrun => Sys2Proof.Machine.execGuestPowerOverrun s
  | .mgpreRequest space => Sys2Proof.Machine.execMgpreRequest space s
  | .mgpreResume space => Sys2Proof.Machine.execMgpreResume space s
  | .cxlwinWrite p val => Sys2Proof.Machine.execCxlwinWrite p val s
  | .patrolScrub ch => Sys2Proof.Machine.execPatrolScrub ch s
  | .rowRepair ch row last => Sys2Proof.Machine.execRowRepair ch row last s
  | .spaceRelease space => Sys2Proof.Machine.execSpaceRelease space s
  | .nsset val => Sys2Proof.Machine.execNsset val s
  | .prectlRequest cl entry => Sys2Proof.Machine.execPrectlRequest cl entry s
  | .prectlWithdraw cl entry => Sys2Proof.Machine.execPrectlWithdraw cl entry s
  | .fabricEnable => Sys2Proof.Machine.execFabricEnable s
  | .lightvesselEnable => Sys2Proof.Machine.execLightvesselEnable s
  | .presenceWrite val => Sys2Proof.Machine.execPresenceWrite val s
  | .attestRequest last => Sys2Proof.Machine.execAttestRequest last s
  | .attestReady => Sys2Proof.Machine.execAttestReady s
  | .keyLoad space slot => Sys2Proof.Machine.execKeyLoad space slot s
  | .keyClear space slot => Sys2Proof.Machine.execKeyClear space slot s
  | .firmwareStage len => Sys2Proof.Machine.execFirmwareStage len s
  | .deviceReset => Sys2Proof.Machine.execDeviceReset s
  | .dieFence die => Sys2Proof.Machine.execDieFence die s
  | .dieUnfence die => Sys2Proof.Machine.execDieUnfence die s
  | .laserOut dim mod => Sys2Proof.Machine.execLaserOut dim mod s
  | .laserIn dim mod => Sys2Proof.Machine.execLaserIn dim mod s
  | .fabricLeave => Sys2Proof.Machine.execFabricLeave s
  | .fabricJoin => Sys2Proof.Machine.execFabricJoin s
  | .spareCore core => Sys2Proof.Machine.execSpareCore core s
  | .powerLimitExceeded die watts => Sys2Proof.Machine.execPowerLimitExceeded die watts s
  | .thermalThrottle die temp => Sys2Proof.Machine.execThermalThrottle die temp s
  | .thermalFence die temp => Sys2Proof.Machine.execThermalFence die temp s
  | .registerWrite off size val => Sys2Proof.Machine.execRegisterWrite off size val s
  | .guestLinkFailure module dead => Sys2Proof.Machine.execGuestLinkFailure module dead s
  | .retrainComplete peer dim ch ok => Sys2Proof.Machine.execRetrainComplete peer dim ch ok s
  | .thermalRecovery die temp => Sys2Proof.Machine.execThermalRecovery die temp s
  | .powerBelowLimit die watts => Sys2Proof.Machine.execPowerBelowLimit die watts s
  | .hostSnoop line inv => Sys2Proof.Machine.execHostSnoop line inv s

end Sys2Proof.Machine
end

