-- ==== Sys2Proof/Machine/Issue.lean ====
section
/-! DEFINITION. Issuing a bundle: fetch, decode, holds and interlocks, its words in slot order as one event (R72 to R82, R94,
R95, R98, R133, R168, R330, R332, R335), and the choice of what issues in a cycle (R105 to R107). -/

namespace Sys2Proof.Machine
namespace State

/-! What holds a bundle (R78, R94, R133, R168). -/

/-- A register as the scoreboard names it (R94). -/
def physReg (s : State) : Reg → Reg
  | .v n => .v (physV n s.cx.vrot)
  | r => r
/-- The word is performed: a vector word always, a scalar-class word when its predicate holds (R82, R98). -/
def performed (s : State) (i : Instr) : Bool := i.pred.elim true s.holds
/-- The registers that a performed word names, as the scoreboard names them. -/
def wordRegs (s : State) (i : Instr) : List Reg := i.regs.map s.physReg
/-- A bundle reads or writes the destination of an operation in flight (R94); a predicate that is not known yet stalls the
word it governs. -/
def interlocked (s : State) (ops : List Instr) : Bool :=
  let busy := s.cx.flights.flatMap Flight.dests
  ops.any fun i =>
    (match i.pred with | some p => busy.contains (.q p.qp) | none => false)
      || (s.performed i && (s.wordRegs i).any busy.contains)
/-- A fence, acquire or waiting point holds words of these sets: one of its accesses is not complete (R133, R279). -/
def barrierHolds (s : State) (b : Barrier) : Bool :=
  (s.cx.opens.any fun (o : OpenAccess) => b.waits.contains o.id && !(b.coreOnly && o.coreDone))
    || (!b.coreOnly && (s.core s.hereCore).queue.any fun (q : QueuedWrite) => b.waits.contains q.id)
/-- Accesses of these sets must wait for an earlier fence or acquire. -/
def fencedSets (s : State) (sets : BitVec 5) : Bool :=
  s.cx.barriers.any fun (b : Barrier) => sets &&& b.succ != 0 && s.barrierHolds b
/-- A performed word's accesses must wait for an earlier fence or acquire; a word whose addresses decide its sets is looked at
once it has touched them (R275). -/
def fenced (s : State) (ops : List Instr) : Bool :=
  ops.any fun i => s.performed i && !i.byAddress && s.fencedSets i.sets
/-- A performed word whose addresses decide its sets may be in one that must wait: until it is known, or the fence is complete, it
does no more than look (R133, R275). -/
def mayFence (s : State) (ops : List Instr) : Bool :=
  ops.any fun i => s.performed i && i.byAddress && s.fencedSets i.sets
/-- A pass that is going on (R165, R169). -/
def runningPass (p : Pass) : Bool := !p.suspended && !p.landed
/-- The M word is held while a pass or an `mgath` has not gone far enough (R168). -/
def matrixHeld (s : State) (i : Instr) : Bool :=
  let ps := s.cx.passes
  let tileBusy := fun (a : BitVec 2) => ps.any fun p => runningPass p && p.tile == a
  s.cx.id.mown && s.performed i &&
    match i with
    | .mpass _ _ _ _ _ ka _ =>
      ps.any (fun p => runningPass p && p.step < 32)
        || (!ka && !ps.any Pass.suspended && s.cx.mat.mgathAt.elim false fun g => s.cx.btime < g + 12)
    | .mgath _ _ _ _ => ps.any fun p => runningPass p && p.step ≤ 19
    | .minit _ a _ _ _ => tileBusy a
    | .mwr _ a _ _ _ _ => tileBusy a
    | .mst _ a _ _ => tileBusy a
    | _ => false
/-- The lowest-listed deferred destination that a word touches (R332): its predicate register, which decides whether it is
performed, and a performed word's registers. -/
def deferredAt (s : State) (i : Instr) : Option FaultInfo :=
  let rs := (match i.pred with | some p => [Reg.q p.qp] | none => []) ++ (if s.performed i then s.wordRegs i else [])
  (s.cx.deferred.find? fun (r, _) => rs.contains r).map Prod.snd
/-- The lowest slot whose word touches a deferred destination, with what failed. -/
def deferredOf (s : State) (ops : List (Nat × Instr)) : Option (Nat × FaultInfo) :=
  ops.findSome? fun (n, i) => (s.deferredAt i).map fun f => (n, f)
/-- Take the trap of a deferred operation: all its destinations cease to be deferred. -/
def deferredTrap (s : State) (n : Nat) (f : FaultInfo) : State :=
  let s := s.withdraw s.here
  let s : State := { s with issue := { s.issue with slot := n } }
  ({ s with cx := { s.cx with deferred := s.cx.deferred.filter fun (_, g) => g != f } } : State).takeTrap (s.atSlot f)

/-! The words of a bundle (R95, R330). -/

/-- The word is one that waits for the T slot's engine: what it holds while it waits is its own (R32, R216, R228). -/
def waiting (s : State) : Bool := (s.cluster s.hereCluster).convQueue.contains s.here
/-- The bundle traps at a word: no word of it has effect, and what a waiting word had taken is given back. `w` performs the
word; `f` is the trap it took among the bundle's other words. `s0` is the state before the bundle, with the A and D bits that
the bundle has set (R347). -/
def trapWord (s0 : State) (n : Nat) (w : State → Host.Outcome State Fault Refusal) (f : FaultInfo) :
    Host.Outcome State Fault Refusal :=
  let own := n == 3 && (s0.cx.fault.isSome || s0.waiting)
  let base := if own then s0 else s0.withdraw s0.here
  match w base with
  | .next t => if t.issue.verdict == .trap || !t.waits.isEmpty then .next t else .next ((s0.withdraw s0.here).takeTrap f)
  | o => o
/-- The trap that a state has just taken. -/
def trapTaken (s : State) : FaultInfo :=
  ⟨s.cx.trap.tcause.setWidth 8, s.cx.trap.tinfo0, s.cx.trap.tinfo1, s.cx.trap.tinfo2, s.cx.trap.tinfo3⟩
/-- A `tret` form that leaves supervisor mode: it is performed after the bundle's other words (R134). -/
def leaves (s : State) (i : Instr) : Bool :=
  s.cx.mode == .supervisor && (match i with | .tret _ | .tretSkip _ | .tretTo _ _ => true | _ => false)
/-- A word performed in a slot; one that waits for what an engine reads holds the bundle back (R347, R374). -/
def wordIn (n : Nat) (i : Instr) (s : State) : Host.Outcome State Fault Refusal :=
  match exec i { s with issue := { s.issue with slot := n, verdict := .done } } with
  | .next t => .next (if t.waits.isEmpty then t else t.stall)
  | o => o
/-- Perform one word of a bundle on `cur`, the state that the bundle's earlier words left; `s0` is the state before the
bundle. A word that holds the bundle back does so without the effects of the others. -/
def runWord (s0 : State) (n : Nat) (i : Instr) (cur : State) : Host.Outcome State Fault Refusal :=
  let w := wordIn n i
  match w cur with
  | .next t =>
    match t.issue.verdict with
    | .done | .ended | .late => .next t
    | .trap => trapWord (s0.marked t.issue.marks) n w t.trapTaken
    | .halt => w (s0.marked t.issue.marks)
    | .stall | .park =>
      if !t.waits.isEmpty then .next t
      else match w s0 with
      | .next u =>
        if u.issue.verdict == .stall || u.issue.verdict == .park then .next u
        else
          -- only the bundle's own accesses hold the word: it follows them in program order
          let old := s0.cx.opens.map OpenAccess.id
          let (kept, own) := cur.cx.opens.partition fun (o : OpenAccess) => old.contains o.id
          match w { cur with cx := { cur.cx with opens := kept } } with
          | .next v =>
            if v.issue.verdict == .done then .next { v with cx := { v.cx with opens := v.cx.opens ++ own } }
            else .next s0.stall
          | o => o
      | o => o
  | o => o
/-- Perform the words in slot order while each has its effect. -/
def runWords (s0 : State) : List (Nat × Instr) → State → Host.Outcome State Fault Refusal
  | [], cur => .next cur
  | (n, i) :: r, cur =>
    match s0.runWord n i cur with
    | .next t => if t.issue.verdict == .done then s0.runWords r t else .next t
    | o => o
/-- The `tret` forms are looked at in slot order, on the state before the bundle, for what holds or traps them. -/
def checkWord (s0 : State) (n : Nat) (i : Instr) (cur : State) : Host.Outcome State Fault Refusal :=
  match s0.runWord n i s0 with
  | .next u => if u.issue.verdict == .done then .next cur else .next u
  | o => o
/-- A word follows an acquire of its bundle's X word that is not complete (R279). -/
def lateWord (s cur : State) (acq : List Barrier) (n : Nat) (i : Instr) : Bool :=
  2 < n && i.sets != 0 && s.performed i && acq.any cur.barrierHolds
/-- The words from a late one on are kept; what the rest of the bundle came to decides whether it issues. -/
def heldBack (cur : State) (acq : List Barrier) (ws : List (Nat × Instr)) :
    Host.Outcome State Fault Refusal → Host.Outcome State Fault Refusal
  | .next u =>
    if u.issue.verdict == .done || u.issue.verdict == .late then
      let c : State := { cur with issue := { cur.issue with touched := u.issue.touched } }
      .next { c with cx := { c.cx with late := some ⟨c.issue, acq, ws⟩ }, issue := { c.issue with verdict := .late } }
    else .next u
  | o => o
/-- Perform the words in slot order, a `tret` form only checked. `acq` are the acquires of the X word; once one holds a later
word back, that word and those after it are kept (R279). -/
def firstPass (s0 : State) (acq : List Barrier) : List (Nat × Instr) → State → Host.Outcome State Fault Refusal
  | [], cur => .next cur
  | (n, i) :: r, cur =>
    match (if s0.leaves i then s0.checkWord n i cur else s0.runWord n i cur) with
    | .next t =>
      if t.issue.verdict == .done then
        let o := s0.firstPass (if n == 2 then t.cx.barriers.filter (fun b => !cur.cx.barriers.contains b) else acq) r t
        if s0.lateWord cur acq n i then heldBack cur acq ((n, i) :: r) o else o
      else .next t
    | o => o
/-- A bundle that touches a deferred destination takes the trap of what failed, unless it finds a cause of its own: then the deferred
one waits for the next touch (R332, R454). -/
def orDeferred (s0 : State) (ops : List (Nat × Instr)) (o : Host.Outcome State Fault Refusal) : Host.Outcome State Fault Refusal :=
  match s0.deferredOf ops, o with
  | some (n, f), .next t =>
    if t.issue.verdict == .trap || !t.waits.isEmpty then .next t else .next ((s0.marked t.issue.marks).deferredTrap n f)
  | _, o => o
/-- Binds and pins by reference look their tile up before the bundle issues. -/
def looksUp : Instr → Bool
  | .sbind .. | .spinRef .. => true
  | _ => false
/-- A bind that misses parks the task before any word of the bundle has effect, and before the causes of the other words are taken
(R214): the state parked, if it does. -/
def parksFirst (s0 : State) (ops : List (Nat × Instr)) : Option State :=
  ops.findSome? fun (n, i) =>
    if looksUp i && s0.performed i && (s0.deferredAt i).isNone then
      match wordIn n i s0 with
      | .next u => if u.issue.verdict == .park || !u.waits.isEmpty then some u else none
      | _ => none
    else none
/-- Perform a bundle's words: those that stay in the mode first, a return from the trap last (R134). -/
def runBundle (s0 : State) (ops : List (Nat × Instr)) : Host.Outcome State Fault Refusal :=
  let last := ops.filter fun o => s0.leaves o.2
  s0.orDeferred ops (match s0.parksFirst ops with
    | some u => .next u
    | none => match s0.firstPass [] ops s0 with
      | .next t =>
        if last.isEmpty then .next t
        else if t.issue.verdict == .done then s0.runWords last t
        else .next { t with cx := { t.cx with late := t.cx.late.map fun l => { l with words := l.words ++ last } } }
      | o => o)

/-! Issuing (R36, R72, R73, R81, R335, R343). -/

/-- Mark what became of the bundle. -/
def judged (s : State) (v : Verdict) : State := { s with issue := { s.issue with verdict := v } }
/-- After a bundle has issued: a stepped context halts (R343). -/
def stepped (s : State) : State := if s.cx.dbg.step && !s.cx.ending then s.haltAt 3 id else s
/-- An empty bundle in place of a held or drained one: bundle time advances and nothing else (R78, R168). -/
def emptyIssue (s : State) : State := { s with cx := s.cx.advance, issue := { s.issue with header := 0, verdict := .done } }
/-- The fetch of a trap vector faulted: the task is abandoned, uncounted (R335). -/
def vectorFault (s : State) (cause : BitVec 8) : State :=
  let s1 := s.logCtx s.here 0x0C (s.issue.pc.setWidth 64) (s.cx.id.taskid.setWidth 64 ||| (cause.setWidth 64 <<< 56))
  let k := s.cx.id.taskid.toNat % 2048
  (if (s1.entry s1.hereCluster k).isSome then s1.abandonTask s1.hereCluster k else s1.endContext s1.here).judged .ended
/-- Issue a decoded bundle. -/
def issueBundle (s : State) (b : Bundle) : Host.Outcome State Fault Refusal :=
  let ops := b.ops.map fun (n, _, i) => (n, i)
  let is := ops.map Prod.snd
  if b.present == 0 then
    match exec (.emptyBundle b.drain b.scope) s with
    | .next t => .next t.stepped
    | o => o
  else if s.interlocked is || s.fenced is then .next s.stall
  else if is.any s.matrixHeld then .next s.emptyIssue
  else
    match s.runBundle ops with
    | .next t =>
      if !t.waits.isEmpty then .next t
      else if (if t.issue.verdict == .done || t.issue.verdict == .late then s.fencedSets t.issue.touched else s.mayFence is) then
        .next s.stall
      else if t.issue.verdict == .done then .next t.retire.stepped else .next t
    | o => o
/-- Go on with the words of a bundle that an acquire of its X word held back (R279). -/
def issueLate (s : State) (l : Late) : Host.Outcome State Fault Refusal :=
  let s0 : State := { s with cx := { s.cx with late := none }, issue := l.issue }
  if l.waits.any s.barrierHolds then .next ({ s with issue := l.issue } : State).stall
  else match s0.orDeferred l.words (s0.runWords l.words s0) with
    | .next t =>
      match t.issue.verdict with
      | .done => .next t.retire.stepped
      | .stall | .park => .next { t with cx := { t.cx with late := some l } }
      | _ => .next t
    | o => o
/-- Fetch the next bundle and issue it, or trap at it, or hold it. -/
def fetchIssue (s : State) : Host.Outcome State Fault Refusal :=
  match s.fetchBundle s.issue.pc with
  | (s, .wait) => .next s.stall
  | (s, .fault f) => .next (if s.cx.atVector then s.vectorFault f.cause else (s.withdraw s.here).takeTrap f)
  | (s, .ok (h, ws)) =>
    let s1 : State := { s with issue := { s.issue with header := h, len := 4 * (1 + ws.length), slot := 0 } }
    match decodeBundle h ws with
    | .error e =>
      let (c, n) := e.causeSlot
      .next ((s1.withdraw s1.here).trap c (h.setWidth 64) (BitVec.ofNat 64 n))
    | .ok b => ({ s1 with issue := { s1.issue with scope := b.scope, drain := b.drain } } : State).issueBundle b
/-- A drain still has results to land (R78). -/
def toLand (c : Context) : Bool := !c.pending.isEmpty || c.passes.any runningPass
/-- A halt that was asked for stops the context at the bundle it is about to present, unless that bundle is presented now and
traps: the trap is taken first, and the halt takes effect before the handler's first bundle (R343, R345). -/
def haltOrTrap (s : State) : Host.Outcome State Fault Refusal :=
  let stop : State := (s.haltAt 1 id).judged .halt
  if s.cx.draining || s.cx.late.isSome || s.cx.nap != 0 || (s.cx.parked.isSome && s.cx.waitSince.isSome) then .next stop
  else match s.fetchIssue with
    | .next t => .next (if t.issue.verdict == .trap || !t.waits.isEmpty then t else stop)
    | _ => .next stop
/-- Present the next bundle of the context in `cx`. A halt that was asked for comes first (R343), then what the core hands over to a
resumed member (R292), then a drain (R78). -/
def attempt (s : State) : Host.Outcome State Fault Refusal :=
  let s0 : State := { s with
    issue := { pc := s.cx.pc &&& ~~~3#56, slot := 7 },
    cx := { s.cx with barriers := s.cx.barriers.filter s.barrierHolds } }
  if s0.cx.dbg.haltReq then s0.haltOrTrap
  else if s0.cx.opens.any (fun (o : OpenAccess) => s0.cx.handing.contains o.id) then .next s0.stall
  else if s0.cx.late.isSome then (match s0.cx.late with | some l => s0.issueLate l | none => .next s0)
  else if s0.cx.draining && toLand s0.cx then .next s0.emptyIssue
  else if s0.cx.draining && !s0.cx.flights.isEmpty then .next s0.stall
  else ({ s0 with cx := { s0.cx with draining := false } } : State).fetchIssue

/-! Choosing what issues (R105, R106). -/

/-- The context holds a running member that may present its next bundle: not halted, ending, napping or waiting for a parked
word's tile, on a working core. A halt request is taken while it naps or is parked (R105, R343). -/
def eligible (s : State) (c : Nat) : Bool :=
  let x := s.ctx c
  x.occ == .occupied && !x.dbg.halted && !x.ending && !(s.core (c / 4)).failed
    && (x.dbg.haltReq || (x.nap == 0 && !(x.parked.isSome && x.waitSince.isSome)))
/-- A ready context with the slots, ports and DRAIN of its next bundle (R106). -/
structure Ready where
  c : Nat
  slots : Nat
  ports : Nat
  drain : Bool
  deriving DecidableEq, Repr
/-- The read ports that a header gives to some slot (R75, R106). -/
def usedPorts (h : Word) : Nat :=
  (List.range 4).foldl (fun n i => if h.toNat / 2 ^ (17 + 3 * i) % 8 == 0 then n else n + 2 ^ i) 0
/-- Whether an eligible context is ready: its bundle is presented, and unless it is held the presentation is only a look. What the
presentation waits for is begun. An empty bundle's DRAIN has no effect (R81). -/
def readiness (s : State) (c : Nat) : State × Option Ready :=
  let here := s.here
  match (s.switch c).attempt with
  | .next t =>
    if !t.waits.isEmpty then (s.unlessWaits t, none)
    else match t.issue.verdict with
    | .stall | .park | .halt => (t.useUp.switch here, none)
    | _ =>
      let h := t.issue.header
      (s, some ⟨c, h.toNat % 128, usedPorts h, h.getLsbD 16 && h.toNat % 128 != 0⟩)
  | _ => (s, some ⟨c, 0, 0, false⟩)
/-- The secondary may issue beside the primary (R106). -/
def mergeable (a b : Ready) : Bool :=
  a.c != b.c && a.slots.land b.slots == 0 && a.ports.land b.ports == 0 && !(a.drain && b.drain)
/-- The selection of one core in one cycle: the contexts that issue (R106). -/
def selectCore (s : State) (core : Nat) (rdy : List Ready) : State × List Nat :=
  let mine := rdy.filter fun r => r.c / 4 == core
  match mine with
  | [] => (s, [])
  | first :: _ =>
    let k := s.core core
    let asked := k.override.filter fun c => mine.any fun r => r.c == c
    let old := asked <|> (if k.lastOverride then none else s.aged (mine.map Ready.c))
    let primary := (old.bind fun c => mine.find? fun r => r.c == c).getD first
    let secondary := (mine.find? fun r => mergeable r primary).map Ready.c
    (s.setCore core { k with lastOverride := old.isSome, override := none }, primary.c :: secondary.toList)
/-- Look at every eligible context in turn. -/
def lookAt : List Nat → State → List Ready → State × List Ready
  | [], s, l => (s, l)
  | c :: r, s, l =>
    match s.readiness c with
    | (s, some y) => lookAt r s (l ++ [y])
    | (s, none) => lookAt r s l
/-- The selections of the cores. -/
def selectAll (rdy : List Ready) : List Nat → State → List Nat → State × List Nat
  | [], s, l => (s, l)
  | k :: r, s, l =>
    let (s, cs) := s.selectCore k rdy
    selectAll rdy r s (l ++ cs)
/-- The wait counts at the end of the selection (R105). -/
def countWaits (s : State) (occ : List Nat) (rdy : List Ready) (chosen : List Nat) : State :=
  occ.foldl (fun s c =>
    let x := s.ctx c
    let w := if rdy.any (fun r => r.c == c) && !chosen.contains c then x.waited + 1 else 0
    s.setCtx c { x with waited := w }) s
/-- A cycle is withheld from classes 1 to 3 of a die over its limit, or not (R437): a free choice for each die. -/
def heldDies : List Nat → State → List Nat × State
  | [], s => ([], s)
  | d :: r, s =>
    if (s.die d).withheld then
      let (v, s) := s.free
      let (l, s) := heldDies r s
      (if v.getLsbD 0 then d :: l else l, s)
    else heldDies r s
/-- One cycle of a pause (R126). -/
def napCtx (s : State) (c : Nat) : State :=
  let here := s.here
  ((s.switch c).napTick).switch here
/-- A new cycle of the device clock: the logs take the events of the cycle that ends, the links look at their silence, pauses
go on, and each core chooses what issues (R105, R106, R126, R353, R385). -/
def newCycle (s : State) : State :=
  let s := s.flushLogs
  let s := { s with cycle := s.cycle + 1 }
  let s := s.watchLinks
  let occ := s.occupiedCtxs
  let (held, s) := heldDies [0, 1, 2, 3] s
  let may := occ.filter fun c => s.eligible c && !((s.ctx c).id.klass != 0 && held.contains (c / 1024))
  let napping := occ.filter fun c =>
    let x := s.ctx c
    0 < x.nap && !x.dbg.halted && !x.dbg.haltReq && !x.ending
  let s := napping.foldl napCtx s
  let (s, rdy) := lookAt may s []
  let (s, chosen) := selectAll rdy ((may.map (· / 4)).eraseDups) s []
  { s.countWaits occ rdy chosen with turn := chosen }

end State
end Sys2Proof.Machine
end

