-- ==== Sys2Proof/Machine/Step.lean ====
section
/-! DEFINITION. One step of the machine: an event from outside, a chosen context's bundle, a due engine action, or a new
cycle; and the placing of a lone instruction where the next step fetches it. -/

namespace Sys2Proof.Machine
namespace State

/-- Take one of a list by a number: it and the rest. -/
def takeNth {α : Type} : List α → Nat → Option (α × List α)
  | [], _ => none
  | a :: r, 0 => some (a, r)
  | a :: r, n + 1 => (takeNth r n).map fun (b, l) => (b, a :: l)
/-- A chosen context presents its bundle, if it still may (R105). -/
def runTurn (s : State) (c : Nat) : Host.Outcome State Fault Refusal :=
  if 4096 ≤ c then .fault .noContext
  else
    let t := s.switch c
    if t.eligible c then t.settleWaits State.stall t.attempt else .next t
/-- The agenda's items that are due, by their place in it. -/
def dueItems (s : State) : List Nat :=
  (List.range s.agenda.length).filter fun i => match s.agenda[i]? with | some (t, _) => t ≤ s.cycle | none => false
/-- With nothing chosen to issue, a due engine action, an action under way in the background, or a new cycle: a free choice
(log 3). -/
def engineStep (s : State) : Host.Outcome State Fault Refusal :=
  let due := s.dueItems
  let back := s.background
  let n := due.length + back.length
  if n == 0 then .next s.newCycle
  else
    let (v, s) := s.free
    let k := v.toNat % (n + 1)
    match due[k]? with
    | some i =>
      match takeNth s.agenda i with
      | some ((_, a), rest) =>
        let s : State := { s with agenda := rest }
        s.settleWaits (fun s => s.later 16 a) (exec a s)
      | none => .next s.newCycle
    | none =>
      match back[k - due.length]? with
      | some f => s.settleWaits id (.next (f s))
      | none => .next s.newCycle

end State

/-- One step of the machine (log 3). An event or an action that waits for what it reads has not happened: it comes again. -/
def step (s : State) : Host.Outcome State Fault Refusal :=
  match s.inputs with
  | i :: r => ({ s with inputs := r } : State).settleWaits (fun s => s.later 16 i) (exec i { s with inputs := r })
  | [] =>
    match s.turn with
    | [] => s.engineStep
    | [c] => ({ s with turn := [] } : State).runTurn c
    | c :: d :: r =>
      let (v, s) := s.free
      match State.takeNth (c :: d :: r) (v.toNat % (r.length + 2)) with
      | some (e, rest) => ({ s with turn := rest } : State).runTurn e
      | none => ({ s with turn := d :: r } : State).runTurn c

/-- The bytes of words, the first at the lowest address, each little-endian (R3). -/
def wordsValue : List Word → Nat
  | [] => 0
  | w :: r => w.toNat + 2 ^ 32 * wordsValue r

/-- The state with a lone instruction at the next fetch of the context in `cx`: a member that may issue, at pc 0, with page 0
mapped for fetching to the bottom of the device's own memory, where the instruction's bundle stands; that context's turn is
next. It stands for the load of a program from outside the machine (log 3). -/
def State.withFetchWord (s : State) (_nbits w : Nat) : State :=
  let home := s.dev.devid.toNat * 2 ^ 52
  let l := home / 128
  let words := tableBundle w
  let leaf : Dbl := BitVec.ofNat 64 (home + 0x49)
  let x : Context := { s.cx with
    occ := .occupied, pc := 0, xfer := none, draining := false, nap := 0, parked := none, push := none, opening := none,
    fault := none, waitSince := none, handing := [], flights := [], deferred := [], barriers := [], passes := [], ending := false, late := none,
    mat := { s.cx.mat with mgathAt := none, gatherWait := none, storing := [] },
    dbg := { s.cx.dbg with halted := false, haltReq := false, step := false } }
  let k := s.core s.hereCore
  let k1 : Core := { k with failed := false, tlb := ⟨x.id.space, 0, 16, leaf⟩ :: k.tlb }
  let s1 : State := { s with
    cx := x, mem := cellsWrite s.mem home (4 * words.length) (wordsValue words), inputs := [], turn := [s.here],
    waits := [],
    homes := { s.homes with
      poison := s.homes.poison.filter (· != l), locks := s.homes.locks.filter (fun k => k.line != l),
      grants := s.homes.grants.filter fun (p, _) => p != l / 512 } }
  (s1.setCore s.hereCore k1).setDir l []

end Sys2Proof.Machine
end

