-- ==== Sys2Proof/Safety.lean ====
section
/-! DEFINITION. The words in which claims about a run are stated: the integers of a scalar word, what stays as it is, when a
context may issue, and the invariant of memory. -/

namespace Sys2Proof.Machine

/-! The integers a scalar word computes with (R46, R108). -/

/-- The operand width that W selects. -/
def wWidth (w : Bool) : Nat := if w then 32 else 64
/-- An operand read as unsigned. -/
def wNat (w : Bool) (x : Dbl) : Nat := x.toNat % 2 ^ wWidth w
/-- An operand read as two's complement. -/
def wInt (w : Bool) (x : Dbl) : Int := (wNat w x : Int).bmod (2 ^ wWidth w)
/-- A result: the low bits at the width W selects, a 32-bit one sign-extended. -/
def wRes (w : Bool) (n : Int) : Dbl := if w then (BitVec.ofInt 32 n).signExtend 64 else BitVec.ofInt 64 n
/-- An immediate as the integer a word uses: its literal if it owns one, both read as two's complement (R76). -/
def immInt {w : Nat} (i : BitVec w) : Option Word → Int
  | some l => l.toInt
  | none => i.toInt
/-- An immediate read as unsigned (R76). -/
def immNat {w : Nat} (i : BitVec w) : Option Word → Nat
  | some l => l.toNat
  | none => i.toNat

namespace State

/-! What stays as it is. -/

/-- Every byte of memory reads as before. -/
def sameBytes (s t : State) : Prop := ∀ a, t.byte a = s.byte a
/-- Nothing but the list of results on their way has changed: no register, no flag, no special register, no byte. -/
def onlyQueues (s t : State) : Prop := t = { s with cx := { s.cx with pending := t.cx.pending } }
/-- The last word had its effect: it neither waits nor trapped. -/
def went (t : State) : Prop := t.issue.verdict = .done
/-- The trap that a state has taken: cause and detail are in the trap registers, the mode is supervisor and the pc at the
vector (R331). -/
def trappedBy (s t : State) (f : FaultInfo) : Prop := t = s.takeTrap f

/-- The line of an access stands at its home on this device and nowhere else: HBM, backed, whole, unencrypted, unlocked, with
no grant to another device and in no line cache; and every line cache has room for it. -/
def quietLine (s : State) (x : Xlat) : Prop :=
  s.ownDevice x.gpa = true ∧ windowOf (localOf x.gpa) = .hbm ∧ s.backed (localOf (128 * (x.gpa / 128))) = true ∧
  x.leaf.extractLsb' 8 8 = 0 ∧ x.gpa / 128 ∉ s.homes.poison ∧ s.lineLocked (x.gpa / 128) = false ∧
  s.grantBlocks (x.gpa / 65536) true = false ∧ s.dirCores (x.gpa / 128) = [] ∧ ∀ core, s.lineOf core (x.gpa / 128) = none ∧ (s.setLines core (x.gpa / 128)).length < 8

/-- A run is safe in memory when the listed bytes keep their canonical form. -/
def memoryCanonical (s : State) : Prop := Memory.wf s.mem = true

/-- The state in which the chosen context c presents its next bundle. -/
def presented (s : State) (c : Nat) : State :=
  let t := ({ s with turn := [] } : State).switch c
  { t with
    issue := { pc := t.cx.pc &&& ~~~3#56, slot := 7 },
    cx := { t.cx with barriers := t.cx.barriers.filter t.barrierHolds, draining := false } }

end State

/-- A run from a state is free of faults and refusals for k steps. -/
def runsSafely : Nat → State → Prop
  | 0, _ => True
  | k + 1, s =>
    match step s with
    | .next t => runsSafely k t
    | _ => False

end Sys2Proof.Machine
end

