-- ==== Sys2Proof/Certificates/Slice0/Obligations.lean ====
section
/-! DEFINITION. What the provers are to show of this model. Each statement's docstring names the rules of the spec it
formalises, or says that it is the model's own. -/

open Sys2Proof Sys2Proof.Machine

/-! Encoding. -/

/-- Words that the spec writes out decode to the instructions they stand for: the example bundle of Bundles, Slots and
Encoding, the compare of R114, the loop of the sequencer's chapter, and a word of each other engine's chapter. -/
def Obligations.SpecWordsDecode : Prop :=
  decodeWord .c none 0x810A5008 = .ok (.addi ⟨2, false⟩ 5 5 8 none) ∧
  decodeWord .s (some 0x00012000) 0xA00C0000 = .ok (.li ⟨0, false⟩ 6 0 (some 0x00012000)) ∧
  decodeWord .v0 none 0x0C042097 = .ok (.vfma 0 4 8 9 .f32) ∧
  decodeWord .c none 0x7C044282 = .ok (.cmp ⟨0, false⟩ 2 4 5 false 2) ∧
  decodeWord .c none 0xC0080004 = .ok (.pbr ⟨0, false⟩ 1 4 none) ∧
  decodeWord .c none 0xD0089000 = .ok (.loop ⟨0, false⟩ 1 9) ∧
  decodeWord .c none 0xDC000000 = .ok (.tend ⟨0, false⟩) ∧
  decodeWord .m none 0x00001000 = .ok (.mpass ⟨0, false⟩ 0 0 1 .mac false false) ∧
  decodeWord .t none 0x50085C02 = .ok (.ld ⟨0, false⟩ 4 5 3 false .c false 2 none) ∧
  decodeWord .t none 0x08144740 = .ok (.snew ⟨0, false⟩ 5 2 7 false true) ∧
  decodeWord .x none 0x080B280A = .ok (.vtox ⟨0, false⟩ 11 5 0 .n32) ∧
  decodeWord .x none 0x6008531C = .ok (.leaseReq ⟨0, false⟩ 4 5 6 7) ∧
  decodeWord .x none 0x80034000 = .ok (.mqpush ⟨0, false⟩ 3 2) ∧
  decodeBundle 0xA0000000 [] = .ok ⟨0xA0000000, 0, false, 0, [0, 0, 0, 0], []⟩ ∧
  decodeBundle 0xA0920217 [0x810A5008, 0xA00C0000, 0x00012000, 0x0C042097] =
    .ok ⟨0xA0920217, 0, false, 0x17, [1, 1, 1, 0],
      [(0, .c, .addi ⟨2, false⟩ 5 5 8 none), (1, .s, .li ⟨0, false⟩ 6 0 (some 0x00012000)), (4, .v0, .vfma 0 4 8 9 .f32)]⟩

/-- Decode and encode agree: in every slot that has the word, with the literal it owns, the encoder's word of a well-formed
instruction is read as that instruction, every operand at every value (R76, R81 to R91); and a header-only bundle decodes with
its DRAIN and SCOPE. -/
def Obligations.DecodeOfEncode : Prop :=
  (∀ (i : Instr) (sl : Slot), sl ∈ i.slots → i.wf = true → decodeWord sl i.literal (encode i) = .ok i) ∧
  (∀ (d : Bool) (c : BitVec 2), decodeBundle (encode (.emptyBundle d c)) [] =
    .ok ⟨encode (.emptyBundle d c), c, d, 0, [0, 0, 0, 0], []⟩)

/-- A word that decodes has one meaning and loses no bit: encoding what was read gives the word back, the slot is one whose
opcode map has it, the literal is the one it owns, and its operands are well-formed (R81, R86 to R91). -/
def Obligations.EncodeOfDecode : Prop :=
  ∀ (sl : Slot) (lit : Option Word) (wd : Word) (i : Instr), decodeWord sl lit wd = .ok i →
    encode i = wd ∧ sl ∈ i.slots ∧ i.wf = true ∧ (i.literal = lit ∨ i.literal = none)

/-- R81. Order 1: a header whose CHECK is not 0b101, that marks a literal in an absent slot, or that has a port code 110 or 111
is BUNDLE_HEADER, cause 0x01 with slot index 7, whatever words follow. Orders 3 and 4, for a bundle of one operation
word without literals or ports: a reserved opcode is RESERVED_OPCODE (0x04), a word its slot's rows do not read is
RESERVED_OPERAND (0x05), each with the slot's index; the header is the one with CHECK 0b101 and PRESENT only that slot.
In any bundle whose header is good, `own n` being the nearest lower operation word: order 2, a literal with no owner, with an
owner that owns none, or that is an owner's second, is BUNDLE_LITERAL (0x03); with no such literal, the first operation word
with a reserved opcode is RESERVED_OPCODE; with none, the first that its rows do not read with the literal it owns is
RESERVED_OPERAND; with none, order 5: a port given to an absent or literal slot, or a slot with fewer ports than its word reads,
is BUNDLE_PORTS (0x02). The slot that orders 2 and 5 name among several is the model's (log 40). A bundle so refused traps with
the cause, the header in TINFO0 and the slot index in TINFO1. -/
def Obligations.ReservedEncodingsRefused : Prop :=
  (∀ (h : Word) (ws : List Word),
     (h.extractLsb' 29 3 ≠ 5 ∨ (∃ n < 7, h.getLsbD (7 + n) = true ∧ h.getLsbD n = false) ∨
       (∃ p < 4, h.extractLsb' (17 + 3 * p) 3 = 6 ∨ h.extractLsb' (17 + 3 * p) 3 = 7)) →
     decodeBundle h ws = .error .bundleHeader ∧ DecodeError.bundleHeader.causeSlot = (0x01, 7)) ∧
  (∀ (n : Nat) (sl : Slot) (wd : Word), (n, sl) ∈ slotList →
     (decodeWord sl none wd = .opcode →
       decodeBundle (BitVec.ofNat 32 (5 * 2 ^ 29 + 2 ^ n)) [wd] = .error (.reservedOpcode n) ∧
       (DecodeError.reservedOpcode n).causeSlot = (0x04, n)) ∧
     (decodeWord sl none wd = .operand →
       decodeBundle (BitVec.ofNat 32 (5 * 2 ^ 29 + 2 ^ n)) [wd] = .error (.reservedOperand n) ∧
       (DecodeError.reservedOperand n).causeSlot = (0x05, n))) ∧
  (∀ (h : Word) (ws : List Word), h.extractLsb' 29 3 = 5 → (∀ n < 7, h.getLsbD (7 + n) = true → h.getLsbD n = true) →
     (∀ p < 4, h.extractLsb' (17 + 3 * p) 3 ≠ 6 ∧ h.extractLsb' (17 + 3 * p) 3 ≠ 7) →
     ws.length = ((List.range 7).filter fun n => h.getLsbD n).length →
     let lit := fun n : Nat => h.getLsbD (7 + n)
     let op := fun n : Nat => h.getLsbD n && !lit n
     let slot := fun n : Nat => ([.c, .s, .x, .t, .v0, .v1, .m] : List Slot).getD n .c
     let word := fun n : Nat => ws.getD ((List.range n).filter fun m => h.getLsbD m).length 0
     let own := fun n : Nat => ((List.range n).filter op).getLast?
     let read := fun n : Nat => decodeWord (slot n) (((List.range 7).find? fun m => lit m && own m == some n).map word) (word n)
     let orphan := fun m : Nat => lit m = true ∧ (own m = none ∨ ∃ n, own m = some n ∧ read n ≠ .opcode ∧
       (ownsLiteral (slot n) ((word n).toNat / 2 ^ 26) = false ∨ ∃ k < m, lit k = true ∧ own k = some n))
     let ports := fun n : Nat => ((List.range 4).filter fun p => (h.extractLsb' (17 + 3 * p) 3).toNat == portCode (slot n)).length
     ((∃ m < 7, orphan m) → ∃ m < 7, orphan m ∧ decodeBundle h ws = .error (.bundleLiteral m) ∧
       (DecodeError.bundleLiteral m).causeSlot = (0x03, m)) ∧
     ((∀ m < 7, ¬ orphan m) →
       (∀ n < 7, op n = true → read n = .opcode → (∀ m < n, op m = true → read m ≠ .opcode) →
         decodeBundle h ws = .error (.reservedOpcode n)) ∧
       ((∀ n < 7, op n = true → read n ≠ .opcode) →
         (∀ n < 7, op n = true → read n = .operand → (∀ m < n, op m = true → read m ≠ .operand) →
           decodeBundle h ws = .error (.reservedOperand n)) ∧
         ((∀ n < 7, op n = true → read n ≠ .operand) →
           let short := fun n : Nat =>
             (op n = false ∧ 0 < ports n) ∨ (op n = true ∧ ∃ i, read n = .ok i ∧ ports n < i.vreads)
           (∃ n < 7, short n) → ∃ n < 7, short n ∧ decodeBundle h ws = .error (.bundlePorts n) ∧
             (DecodeError.bundlePorts n).causeSlot = (0x02, n))))) ∧
  (∀ (s u : State) (h : Word) (ws : List Word) (e : DecodeError),
     s.fetchBundle s.issue.pc = (u, .ok (h, ws)) → decodeBundle h ws = .error e →
     ∃ t, s.fetchIssue = .next t ∧ t.cx.trap.tcause = e.causeSlot.1.setWidth 64 ∧ t.cx.trap.tinfo0 = h.setWidth 64 ∧
       t.cx.trap.tinfo1 = BitVec.ofNat 64 e.causeSlot.2 ∧ t.cx.mode = .supervisor)

/-! The step. -/

/-- A step runs the decoded instruction. With no event from outside and context c chosen, an eligible context whose bundle at
the pc is fetched whole and decodes to one operation word i, which nothing holds (no interlock, no fence in force over the
accesses it made, no matrix hold, no read of an engine that waits), makes step the effect of exec i on the presented state,
followed by what issuing a bundle adds: bundle time advances and the pc moves on (`retire`), and a stepped context halts. A
header-only bundle runs EMPTY_BUNDLE in the same way. With an event from outside at the head of the list of inputs, a step
performs that event; one that waits for what it reads (`waits`) comes again 16 cycles on. `useUp` forgets the lines of other
devices that an engine's read has used. The order of inputs and contexts, and that wait, are the model's (logs 3, 15). -/
def Obligations.StepRunsDecoded : Prop :=
  (∀ (s u t : State) (c : Nat) (h : Word) (ws : List Word) (b : Bundle),
     s.inputs = [] → s.turn = [c] → c < 4096 → (({ s with turn := [] } : State).switch c).eligible c = true →
     (s.presented c).cx.dbg.haltReq = false → (s.presented c).cx.late = none →
     (({ s with turn := [] } : State).switch c).cx.draining = false →
     (s.presented c).cx.opens.any (fun o => (s.presented c).cx.handing.contains o.id) = false →
     (s.presented c).fetchBundle (s.presented c).issue.pc = (u, .ok (h, ws)) → decodeBundle h ws = .ok b →
     (∀ (n : Nat) (sl : Slot) (i : Instr), b.ops = [(n, sl, i)] → b.present ≠ 0 →
       let v : State := { u with
         issue := { u.issue with header := h, len := 4 * (1 + ws.length), slot := n, scope := b.scope, drain := b.drain,
                                 verdict := .done } }
       let w : State := { v with issue := { v.issue with slot := 0, verdict := u.issue.verdict } }
       w.interlocked [i] = false → w.fenced [i] = false → w.matrixHeld i = false → w.leaves i = false →
       w.deferredAt i = none → exec i v = .next t → t.issue.verdict = .done → t.waits = [] →
       w.fencedSets t.issue.touched = false → step s = .next t.retire.stepped.useUp) ∧
     (b.ops = [] → b.present = 0 →
       let v : State := { u with
         issue := { u.issue with header := h, len := 4 * (1 + ws.length), slot := 0, scope := b.scope, drain := b.drain } }
       exec (.emptyBundle b.drain b.scope) v = .next t → t.waits = [] → step s = .next t.stepped.useUp)) ∧
  (∀ (s : State) (i : Instr) (r : List Instr), s.inputs = i :: r →
     (∀ t, exec i { s with inputs := r } = .next t → t.waits = [] → step s = .next t.useUp) ∧
     (∀ t, exec i { s with inputs := r } = .next t → t.waits ≠ [] →
       step s = .next ((t.waits.foldl State.beginWait { s with inputs := r }).later 16 i)) ∧
     (∀ f, exec i { s with inputs := r } = .fault f → step s = .fault f) ∧
     (∀ f, exec i { s with inputs := r } = .refused f → step s = .refused f))

/-- A bundle that issues moves the pc past its words, at 4 bytes a word from its header; in the second delay bundle of a
transfer the pc becomes the target, and with no delay bundle left the transfer is over (R72, R119). Bundle time advances
by 1 (R36). An empty bundle does this and nothing else (R81). R72, R119: after a transfer bundle, the two bundles that
follow it in sequence issue, and then the target. -/
def Obligations.PcAdvances : Prop :=
  (∀ s : State, s.issue.resumed = false → s.issue.transfer = none → s.cx.pending = [] → s.cx.passes = [] →
     (∀ (d : Bool) (c : BitVec 2), exec (.emptyBundle d c) s = .next s.retire) ∧
     (s.cx.xfer = none → s.retire.cx.pc = s.issue.pc + BitVec.ofNat 56 s.issue.len ∧ s.retire.cx.btime = s.cx.btime + 1) ∧
     (∀ x, s.cx.xfer = some x → s.retire.cx.btime = s.cx.btime + 1 ∧
       (x.left = 2 → s.retire.cx.pc = s.issue.pc + BitVec.ofNat 56 s.issue.len ∧
         s.retire.cx.xfer = some { x with left := 1 }) ∧
       (x.left = 1 → s.retire.cx.pc = x.target ∧ s.retire.cx.xfer = some { x with left := 0 } ∧
         s.retire.cx.draining = x.drain) ∧
       (x.left = 0 → s.retire.cx.pc = s.issue.pc + BitVec.ofNat 56 s.issue.len ∧ s.retire.cx.xfer = none))) ∧
  (∀ (s : State) (t : BitVec 56) (l1 l2 : Nat), s.issue.transfer = some t → s.issue.resumed = false →
     let issueAt : State → Nat → State := fun u l => { u with issue := { u.issue with pc := u.cx.pc, len := l } }
     s.retire.cx.pc = s.issue.pc + BitVec.ofNat 56 s.issue.len ∧
     (issueAt s.retire l1).retire.cx.pc = s.retire.cx.pc + BitVec.ofNat 56 l1 ∧
     (issueAt (issueAt s.retire l1).retire l2).retire.cx.pc = t)

/-! Reset and memory. -/

/-- The values that the spec gives for reset: the device clock and NSTIME (R128), the map modes of HILMAP (R407), the way
partitions (R203), empty Loam, the power limit (R437), the command queues' and the fault log's status (R311, R351), the epoch
and firmware status (R431), four channels for each slot of a dimension with channels 60 to 63 free (R364), no key loaded (R436),
and no task anywhere. -/
def Obligations.ResetValues : Prop :=
  State.reset.cycle = 0 ∧ State.reset.nstime = 0 ∧ State.reset.dev.hilmap = 0x1111111 ∧
  State.reset.dev.hilmapLive = 0x1111111 ∧ State.reset.dev.fabEn = false ∧ State.reset.dev.lvEn = false ∧
  (∀ n, (State.reset.cluster n).loampart = 0x0000FFF0FFF0FFF0 ∧ (State.reset.cluster n).loam = [] ∧
    (State.reset.cluster n).scratch = [] ∧ (State.reset.cluster n).savepool = 0 ∧ (State.reset.cluster n).prectl = 0 ∧
    (State.reset.cluster n).entries = []) ∧
  (∀ n, (State.reset.die n).pwrlim = 520 ∧ (State.reset.die n).flogStat = 0 ∧ (State.reset.die n).instances = []) ∧
  (∀ n, (State.reset.queue n).qctl = 0 ∧ (State.reset.queue n).rejects = 0) ∧
  (∀ n, (State.reset.gqueue n).ctl = 0) ∧
  State.reset.svc.epoch = 0 ∧ State.reset.svc.fwstat = 0 ∧ State.reset.sec.keys = [] ∧
  (∀ t, t = State.reset.fab.row ∨ t = State.reset.fab.col ∨ t = State.reset.fab.rowRx ∨ t = State.reset.fab.colRx →
    (∀ n < 60, ∃ c : Channel, (n, c) ∈ t ∧ c.home = n / 4 ∧ c.floor = decide (n % 4 = 0)) ∧
    (∀ n, 60 ≤ n → n < 64 → ∃ c : Channel, (n, c) ∈ t ∧ c.home = 15) ∧ t.length = 64) ∧
  State.reset.fab.leases = [] ∧ State.reset.cx.occ = .idle ∧ State.reset.others = []

/-- The memory after reset lists nothing and has the canonical form; every byte reads as the blank byte, which is 0 (the model's
choice, log 2). -/
def Obligations.ResetMemoryCanonical : Prop :=
  State.reset.memoryCanonical ∧ ∀ a, State.reset.byte a = 0

/-- Little-endian bytes (R3): n bytes written at an address read back as the value's low 8n bits, byte k of it at address a +
k, and every byte outside them is as before; the canonical form is kept. Masked bytes of a line (R241, R242): a byte is
the value's where its mask bit is 1 and as before elsewhere. -/
def Obligations.BytesReadBack : Prop :=
  (∀ (m : List Host.Cell) (a n v : Nat), Memory.wf m = true →
     Memory.wf (cellsWrite m a n v) = true ∧ cellsRead (cellsWrite m a n v) a n = v % 2 ^ (8 * n) ∧
     (∀ k < n, cellRead (cellsWrite m a n v) (a + k) = BitVec.ofNat 8 (v / 2 ^ (8 * k))) ∧
     (∀ x, x < a ∨ a + n ≤ x → cellRead (cellsWrite m a n v) x = cellRead m x)) ∧
  (∀ (m : List Host.Cell) (a n k v x : Nat), Memory.wf m = true →
     Memory.wf (cellsMask m a n k v) = true ∧
     cellRead (cellsMask m a n k v) x =
       if a ≤ x ∧ x < a + n ∧ k.testBit (x - a) = true then BitVec.ofNat 8 (v / 2 ^ (8 * (x - a))) else cellRead m x)

/-- Every step keeps the memory's canonical form: addresses rising, no listed byte equal to what an unlisted one reads as. The
form is the model's own (log 2). -/
def Obligations.StepKeepsMemoryCanonical : Prop :=
  ∀ s t : State, s.memoryCanonical → step s = .next t → t.memoryCanonical

/-! When results land. -/

/-- R37, R93: an exposed result of latency L is not there before the bundle time of its issue plus L, and is there then; bundle
time itself advances by 1 a bundle. -/
def Obligations.ResultLandsAtLatency : Prop :=
  ∀ (s : State) (lat : Nat) (w : Write), 1 ≤ lat → s.cx.pending = [] → s.cx.passes = [] →
    (∀ k, k < lat → (s.push lat w).cx.advanceN k =
      { s.cx with btime := s.cx.btime + k, pending := [⟨s.cx.btime + lat, false, w⟩] }) ∧
    (s.push lat w).cx.advanceN lat =
      ({ s.cx with btime := s.cx.btime + lat } : Context).land w

/-- R96: writes to x0, q0 and k0 are discarded; of two writes of one register that land at one bundle time, the later in program
order wins, whichever kind of register it is. A landed register reads as what was written. -/
def Obligations.WritesLandInProgramOrder : Prop :=
  ∀ (c : Context) (t : Nat), c.pending = [] →
    (∀ d e, c.land (.x 0 d) = c ∧ c.land (.q 0 e) = c ∧ c.land (.k 0 d) = c) ∧
    (∀ (r : BitVec 5) (d e : Dbl), r ≠ 0 →
      (({ c with pending := [⟨t, false, .x r d⟩, ⟨t, false, .x r e⟩] } : Context).landAt t).getX r = e ∧
      ∀ r', r' ≠ r → (({ c with pending := [⟨t, false, .x r d⟩, ⟨t, false, .x r e⟩] } : Context).landAt t).getX r' = c.getX r') ∧
    (∀ (r : BitVec 3) (d e : Bool), r ≠ 0 →
      (({ c with pending := [⟨t, false, .q r d⟩, ⟨t, false, .q r e⟩] } : Context).landAt t).getQ r = e ∧
      ∀ r', r' ≠ r → (({ c with pending := [⟨t, false, .q r d⟩, ⟨t, false, .q r e⟩] } : Context).landAt t).getQ r' = c.getQ r') ∧
    (∀ (r : BitVec 3) (d e : BitVec 56),
      (({ c with pending := [⟨t, false, .b r d⟩, ⟨t, false, .b r e⟩] } : Context).landAt t).getB r = e) ∧
    (∀ (r : BitVec 6) (d e : VReg),
      (({ c with pending := [⟨t, false, .v r (BitVec.allOnes 64) d⟩, ⟨t, false, .v r (BitVec.allOnes 64) e⟩] } : Context).landAt
        t).v[r.toNat] = e) ∧
    (∀ (r : BitVec 4) (d e : BitVec 64), r ≠ 0 →
      (({ c with pending := [⟨t, false, .k r d⟩, ⟨t, false, .k r e⟩] } : Context).landAt t).k[r.toNat] = e) ∧
    (∀ (r : BitVec 4) (d e : BitVec 512),
      (({ c with pending := [⟨t, false, .w r d⟩, ⟨t, false, .w r e⟩] } : Context).landAt t).getW r = e)

/-- R97: at each bundle time the shared vector path lands at most one write, the earliest in program order of those due; the
writes of the other paths that are due all land. What lands, lands in program order: the context is that of `Context.land`
applied to each due write but the shared ones after the first (`lands`), one after the other, with the others still pending. -/
def Obligations.SharedPathLandsOne : Prop :=
  ∀ (c : Context) (t : Nat),
    (∀ a b : List Pending, ∀ q : Pending, c.pending = a ++ q :: b → q.shared = true → q.due ≤ t →
      (∀ p ∈ a, p.shared = true → t < p.due) →
      let lands := (a.filter fun p => decide (p.due ≤ t)) ++ q :: (b.filter fun p => !p.shared && decide (p.due ≤ t))
      c.landAt t = { lands.foldl (fun x p => x.land p.write) { c with pending := [] } with pending := (c.landAt t).pending }) ∧
    ((∀ p ∈ c.pending, p.shared = true → t < p.due) →
      c.landAt t = { (c.pending.filter fun p => decide (p.due ≤ t)).foldl (fun x p => x.land p.write) { c with pending := [] } with
        pending := (c.landAt t).pending }) ∧
    ((c.landAt t).pending.filter fun p => !p.shared && decide (p.due ≤ t)) = [] ∧
    ((c.landAt t).pending.filter fun p => decide (t < p.due)) = c.pending.filter (fun p => decide (t < p.due)) ∧
    ((c.landAt t).pending.filter fun p => p.shared && decide (p.due ≤ t)) =
      (c.pending.filter fun p => p.shared && decide (p.due ≤ t)).drop 1

/-! The scalar words. -/

/-- R108, R109: the sums, logic, shifts, extremes, products, `sel` and `adds` deliver to xd the value their table row gives,
computed on the operands at the width W selects and narrowed to it, a 32-bit result sign-extended; latency 1, and 3 for
the products. No value traps. R109: `clz` and `ctz` deliver how many leading or trailing bits of the operand are 0, w for
0; `popc` how many are 1; `brev` and `bswap` the operand with its bits or its bytes in reverse order. -/
def Obligations.ScalarArithmetic : Prop :=
  (∀ (p : Pred) (d a b : BitVec 5) (w : Bool) (s : State), s.holds p = true →
     let x := wNat w (s.rx a); let y := wNat w (s.rx b); let i := wInt w (s.rx a); let j := wInt w (s.rx b)
     let sh := (s.rx b).toNat % wWidth w
     exec (.add p d a b w) s = .next (s.push 1 (.x d (wRes w (i + j)))) ∧
     exec (.sub p d a b w) s = .next (s.push 1 (.x d (wRes w (i - j)))) ∧
     exec (.and p d a b w) s = .next (s.push 1 (.x d (wRes w (x.land y)))) ∧
     exec (.or p d a b w) s = .next (s.push 1 (.x d (wRes w (x.lor y)))) ∧
     exec (.xor p d a b w) s = .next (s.push 1 (.x d (wRes w (x.xor y)))) ∧
     exec (.andn p d a b w) s = .next (s.push 1 (.x d (wRes w (x.land (2 ^ wWidth w - 1 - y))))) ∧
     exec (.shl p d a b w) s = .next (s.push 1 (.x d (wRes w (x * 2 ^ sh : Nat)))) ∧
     exec (.shr p d a b w) s = .next (s.push 1 (.x d (wRes w (x / 2 ^ sh : Nat)))) ∧
     exec (.sar p d a b w) s = .next (s.push 1 (.x d (wRes w (i / 2 ^ sh)))) ∧
     exec (.rol p d a b w) s = .next (s.push 1 (.x d (wRes w (x * 2 ^ sh + x / 2 ^ (wWidth w - sh) : Nat)))) ∧
     exec (.minI p d a b w) s = .next (s.push 1 (.x d (wRes w (min i j)))) ∧
     exec (.maxI p d a b w) s = .next (s.push 1 (.x d (wRes w (max i j)))) ∧
     exec (.minN p d a b w) s = .next (s.push 1 (.x d (wRes w (min x y : Nat)))) ∧
     exec (.maxN p d a b w) s = .next (s.push 1 (.x d (wRes w (max x y : Nat)))) ∧
     exec (.mul p d a b w) s = .next (s.push 3 (.x d (wRes w (i * j)))) ∧
     exec (.mulhI p d a b w) s = .next (s.push 3 (.x d (wRes w (i * j / 2 ^ wWidth w)))) ∧
     exec (.mulhN p d a b w) s = .next (s.push 3 (.x d (wRes w (x * y / 2 ^ wWidth w : Nat)))) ∧
     (∀ q : BitVec 3, exec (.sel p d a b w q) s = .next (s.push 1 (.x d (wRes w (if s.rq q then i else j))))) ∧
     (∀ n : BitVec 6, (w = true → n.toNat < 32) →
       exec (.adds p d a b w n) s = .next (s.push 1 (.x d (wRes w (i + j * 2 ^ n.toNat)))))) ∧
  (∀ (p : Pred) (d a : BitVec 5) (w : Bool) (s : State), s.holds p = true →
     let x := wNat w (s.rx a); let n := wWidth w
     (∃ k ≤ n, exec (.clz p d a w) s = .next (s.push 1 (.x d (wRes w (k : Nat)))) ∧
       (∀ m < k, x.testBit (n - 1 - m) = false) ∧ (k < n → x.testBit (n - 1 - k) = true)) ∧
     (∃ k ≤ n, exec (.ctz p d a w) s = .next (s.push 1 (.x d (wRes w (k : Nat)))) ∧
       (∀ m < k, x.testBit m = false) ∧ (k < n → x.testBit k = true)) ∧
     exec (.popc p d a w) s = .next (s.push 1 (.x d (wRes w (((List.range n).filter x.testBit).length : Nat)))) ∧
     (∃ v : Nat, exec (.brev p d a w) s = .next (s.push 1 (.x d (wRes w v))) ∧ v < 2 ^ n ∧
       ∀ m < n, v.testBit m = x.testBit (n - 1 - m)) ∧
     (∃ v : Nat, exec (.bswap p d a w) s = .next (s.push 1 (.x d (wRes w v))) ∧ v < 2 ^ n ∧
       ∀ m < n / 8, v / 256 ^ m % 256 = x / 256 ^ (n / 8 - 1 - m) % 256))

/-- R110: division rounds towards zero and the remainder takes the dividend's sign, with dividend = quotient × divisor +
remainder; a zero divisor gives all ones in w bits and the dividend; the most negative value by −1 gives the dividend and 0.
Latency 34. -/
def Obligations.ScalarDivision : Prop :=
  ∀ (p : Pred) (d a b : BitVec 5) (w : Bool) (s : State), s.holds p = true →
    let x := wNat w (s.rx a); let y := wNat w (s.rx b); let i := wInt w (s.rx a); let j := wInt w (s.rx b)
    exec (.divI p d a b w) s = .next (s.push 34 (.x d (wRes w (if j = 0 then -1 else if i = -(2 ^ (wWidth w - 1)) ∧ j = -1 then i else i.tdiv j)))) ∧
    exec (.remI p d a b w) s = .next (s.push 34 (.x d (wRes w (if j = 0 then i else if i = -(2 ^ (wWidth w - 1)) ∧ j = -1 then 0 else i - i.tdiv j * j)))) ∧
    exec (.divN p d a b w) s = .next (s.push 34 (.x d (wRes w (if y = 0 then 2 ^ wWidth w - 1 else (x / y : Nat))))) ∧
    exec (.remN p d a b w) s = .next (s.push 34 (.x d (wRes w (if y = 0 then x else (x % y : Nat)))))

/-- R111: with position p = xb[5:0], length n = xb[14:8] and L = min(n, 64 − p), `ext.n` and `ext.i` deliver the field of xa
zero- or sign-extended, 0 when L is 0; `ins` puts xa's L low bits into that field of xd and keeps the others. -/
def Obligations.ScalarFields : Prop :=
  ∀ (q : Pred) (d a b : BitVec 5) (s : State), s.holds q = true →
    let p := (s.rx b).toNat % 64; let n := (s.rx b).toNat / 256 % 128; let l := min n (64 - p)
    let f := (s.rx a).toNat / 2 ^ p % 2 ^ l
    exec (.extN q d a b) s = .next (s.push 1 (.x d (BitVec.ofNat 64 f))) ∧
    exec (.extI q d a b) s = .next (s.push 1 (.x d (if l = 0 then 0 else BitVec.ofInt 64 ((f : Int).bmod (2 ^ l))))) ∧
    (∃ v : Dbl, exec (.ins q d a b) s = .next (s.push 1 (.x d v)) ∧
      ∀ k < 64, v.getLsbD k = if p ≤ k ∧ k < p + l then (s.rx a).getLsbD (k - p) else (s.rx d).getLsbD k)

/-- R112, R113: the immediate forms deliver xa op imm on 64 bits, imm being imm12 or the literal sign-extended; the shifts take
imm[5:0]; `li` delivers imm; `lih` puts imm[31:0] above xd[31:0]. Latency 1. -/
def Obligations.ScalarImmediates : Prop :=
  ∀ (p : Pred) (d a : BitVec 5) (i : BitVec 12) (l : Option Word) (s : State), s.holds p = true →
    let x := s.rx a; let m := immInt i l; let v := BitVec.ofInt 64 m; let sh := v.toNat % 64
    exec (.addi p d a i l) s = .next (s.push 1 (.x d (BitVec.ofInt 64 (x.toInt + m)))) ∧
    exec (.andi p d a i l) s = .next (s.push 1 (.x d (x &&& v))) ∧
    exec (.ori p d a i l) s = .next (s.push 1 (.x d (x ||| v))) ∧
    exec (.xori p d a i l) s = .next (s.push 1 (.x d (x ^^^ v))) ∧
    exec (.shli p d a i l) s = .next (s.push 1 (.x d (BitVec.ofNat 64 (x.toNat * 2 ^ sh)))) ∧
    exec (.shri p d a i l) s = .next (s.push 1 (.x d (BitVec.ofNat 64 (x.toNat / 2 ^ sh)))) ∧
    exec (.sari p d a i l) s = .next (s.push 1 (.x d (BitVec.ofInt 64 (x.toInt / 2 ^ sh)))) ∧
    exec (.li p d i l) s = .next (s.push 1 (.x d v)) ∧
    exec (.lih p d i l) s = .next (s.push 1 (.x d (BitVec.ofNat 64 (v.toNat % 2 ^ 32 * 2 ^ 32 + (s.rx d).toNat % 2 ^ 32))))

/-- R114, R115, R116, R122: the compares deliver their condition to qd, `cmp` at the width W selects and `cmpi` on 64 bits
against the immediate; `qlog` delivers bit 2 × qa + qb of its table; `vany` tells whether some lane is set in both masks,
`vall` whether every lane of kb is set in ka. Latency 1. -/
def Obligations.PredicateWords : Prop :=
  ∀ (p : Pred) (q : BitVec 3) (s : State), s.holds p = true →
    (∀ (a b : BitVec 5) (w : Bool),
      let x := wNat w (s.rx a); let y := wNat w (s.rx b); let i := wInt w (s.rx a); let j := wInt w (s.rx b)
      exec (.cmp p q a b w 0) s = .next (s.push 1 (.q q (decide (x = y)))) ∧
      exec (.cmp p q a b w 1) s = .next (s.push 1 (.q q (decide (x ≠ y)))) ∧
      exec (.cmp p q a b w 2) s = .next (s.push 1 (.q q (decide (i < j)))) ∧
      exec (.cmp p q a b w 3) s = .next (s.push 1 (.q q (decide (i ≥ j)))) ∧
      exec (.cmp p q a b w 4) s = .next (s.push 1 (.q q (decide (x < y)))) ∧
      exec (.cmp p q a b w 5) s = .next (s.push 1 (.q q (decide (x ≥ y))))) ∧
    (∀ (a : BitVec 5) (i : BitVec 12) (l : Option Word),
      let v := BitVec.ofInt 64 (immInt i l)
      exec (.cmpi p 0 q a i l) s = .next (s.push 1 (.q q (decide (s.rx a = v)))) ∧
      exec (.cmpi p 1 q a i l) s = .next (s.push 1 (.q q (decide (s.rx a ≠ v)))) ∧
      exec (.cmpi p 2 q a i l) s = .next (s.push 1 (.q q (decide ((s.rx a).toInt < immInt i l)))) ∧
      exec (.cmpi p 3 q a i l) s = .next (s.push 1 (.q q (decide ((s.rx a).toNat < v.toNat))))) ∧
    (∀ (a b : BitVec 3) (t : BitVec 4),
      exec (.qlog p q a b t) s = .next (s.push 1 (.q q (t.getLsbD ((if s.rq a then 2 else 0) + if s.rq b then 1 else 0))))) ∧
    (∀ (a b : BitVec 4),
      exec (.vany p q a b) s = .next (s.push 1 (.q q ((List.range 64).any fun n => (s.rk a).getLsbD n && (s.rk b).getLsbD n))) ∧
      exec (.vall p q a b) s = .next (s.push 1 (.q q ((List.range 64).all fun n => !(s.rk b).getLsbD n || (s.rk a).getLsbD n))))

/-- R104, R135: x0 reads 0, q0 reads true and k0 reads all ones, whatever stands in the registers. A lane mask of a vector
write lands only its lanes: lane i is the written one where the mask is set, else as before (R137). -/
def Obligations.RegisterFiles : Prop :=
  (∀ s : State, s.rx 0 = 0 ∧ s.rq 0 = true ∧ s.rk 0 = BitVec.allOnes 64) ∧
  (∀ (c : Context) (r : BitVec 6) (m : BitVec 64) (d : VReg) (i : Nat), i < 64 →
     lane (c.land (.v r m d)).v[r.toNat] i = (if m.getLsbD i then lane d i else lane c.v[r.toNat] i) ∧
     ∀ r' : BitVec 6, r' ≠ r → (c.land (.v r m d)).v[r'.toNat] = c.v[r'.toNat])

/-- R82, R98: a scalar-class word whose predicate is false is inert: no register, no memory, no count or rotation changes, no
trap is taken and nothing waits. -/
def Obligations.FalsePredicateInert : Prop :=
  ∀ (i : Instr) (p : Pred) (s : State), i.pred = some p → s.holds p = false → exec i s = .next s

/-! Control transfer, traps, returns and special registers. -/

/-- R117 to R120: `pbr` delivers the header's address plus 4 × offset and `pbx` xa[55:0] to b, latency 2. Outside the delay
bundles of an earlier transfer, `br` makes its bundle a transfer to b; `loop` delivers the count less 1 and both rotating bases
less 1, latency 1, and transfers unless the count reaches 0; `call`, when both delay bundles can be fetched, delivers the header
address after the second one and transfers. -/
def Obligations.TransfersPrepareAndGo : Prop :=
  ∀ (p : Pred) (s : State) (b : BitVec 3), s.holds p = true →
    (∀ (o : BitVec 19) (l : Option Word),
      exec (.pbr p b o l) s = .next (s.push 2 (.b b (s.issue.pc + BitVec.ofInt 56 (4 * immInt o l))))) ∧
    (∀ a : BitVec 5, exec (.pbx p b a) s = .next (s.push 2 (.b b ((s.rx a).setWidth 56)))) ∧
    (s.inDelay = false → exec (.br p b) s = .next { s with issue := { s.issue with transfer := some (s.rb b) } }) ∧
    (∀ a : BitVec 5, s.inDelay = false ∨ s.rx a = 1 →
      let t := (s.push 1 (.x a (s.rx a - 1))).push 1 (.rot (s.cx.vrot - 1) (s.cx.krot - 1))
      exec (.loop p b a) s =
        .next (if s.rx a = 1 then t else { t with issue := { s.issue with transfer := some (s.rb b) } })) ∧
    (∀ (d : BitVec 5) (u v : State) (e link : BitVec 56), s.inDelay = false → v.inDelay = false →
      s.bundleEnd (s.issue.pc + BitVec.ofNat 56 s.issue.len) = (u, .ok e) → u.bundleEnd e = (v, .ok link) →
      exec (.call p d b) s =
        .next { v.push 1 (.x d (link.setWidth 64)) with issue := { v.issue with transfer := some (v.rb b) } })

/-- R119: a transfer word performed in a delay bundle of an earlier transfer traps with BRANCH_IN_DELAY (0x09), TINFO0 holding
the earlier transfer bundle's header address; a `loop` whose count reaches 0 does not. -/
def Obligations.BranchInDelayTraps : Prop :=
  ∀ (p : Pred) (s : State) (b : BitVec 3) (x : Xfer) (h : BitVec 56), s.holds p = true →
    s.cx.xfer = some x → x.left ≠ 0 → x.source = some h →
    exec (.br p b) s = .next (s.takeTrap ⟨0x09, h.setWidth 64, 0, 0, 0⟩) ∧
    (∀ d, exec (.call p d b) s = .next (s.takeTrap ⟨0x09, h.setWidth 64, 0, 0, 0⟩)) ∧
    (∀ a, s.rx a ≠ 1 → exec (.loop p b a) s = .next (s.takeTrap ⟨0x09, h.setWidth 64, 0, 0, 0⟩)) ∧
    (∀ a, s.rx a = 1 → ∃ t, exec (.loop p b a) s = .next t ∧ t.issue = s.issue ∧ t.cx.mode = s.cx.mode)

/-- R124: `trap #n`, `brk #c` and `sys #s` take their trap: cause 0xF0 + n, BREAKPOINT or SYS_CALL, TINFO0 the next sequential
header, TINFO1 0, c or s; a `brk` of a context whose debugger halts on breaks halts it with REASON 2 instead. -/
def Obligations.CallOutsTrap : Prop :=
  ∀ (p : Pred) (s : State), s.holds p = true →
    let next : Dbl := (s.issue.pc + BitVec.ofNat 56 s.issue.len).setWidth 64
    (∀ (c : BitVec 12) (l : Option Word), immNat c l < 16 →
      exec (.trap p c l) s = .next (s.takeTrap ⟨0xF0 + BitVec.ofNat 8 (immNat c l), next, 0, 0, 0⟩)) ∧
    (∀ c : BitVec 12, s.cx.dbg.brkHalt = false → exec (.brk p c) s = .next (s.takeTrap ⟨0xE1, next, c.setWidth 64, 0, 0⟩)) ∧
    (∀ c : BitVec 12, s.cx.dbg.brkHalt = true → ∃ t, exec (.brk p c) s = .next t ∧ t.cx.dbg.halted = true ∧
      t.cx.dbg.reason = 2 ∧ t.cx.trap = s.cx.drain.suspendPasses.trap ∧ t.issue.verdict = .halt) ∧
    (∀ (n : BitVec 12) (l : Option Word),
      exec (.sys p n l) s = .next (s.takeTrap ⟨0x08, next, BitVec.ofNat 64 (immNat n l), 0, 0⟩))

/-- R330, R331: taking a trap drains the context and suspends a running pass, saves the cause and its detail, the header
address of the faulting bundle and the pending transfer (V, LEFT and TARGET of R131), enters supervisor mode, and goes to
TRAPVEC from task mode and to TRAPVEC + 64 from supervisor mode; registers, masks, streams, bundle time and claims are
those of the drained context; without a debugger's request no byte of memory changes. R333: a drain leaves no result on
its way, and no bundle time passes. -/
def Obligations.TrapEntrySavesState : Prop :=
  (∀ (s : State) (f : FaultInfo),
     let t := s.takeTrap f
     let c := s.cx.drain.suspendPasses
     t.cx.trap.tcause = f.cause.setWidth 64 ∧ t.cx.trap.tinfo0 = f.i0 ∧ t.cx.trap.tinfo1 = f.i1 ∧ t.cx.trap.tinfo2 = f.i2 ∧
     t.cx.trap.tinfo3 = f.i3 ∧ t.cx.trap.tpc = s.issue.pc.setWidth 64 ∧
     (c.xfer = none → t.cx.trap.txfer = 0) ∧
     (∀ x, c.xfer = some x → x.left < 4 → t.cx.trap.txfer.getLsbD 63 = true ∧
       (t.cx.trap.txfer.extractLsb' 56 2).toNat = x.left ∧ t.cx.trap.txfer.extractLsb' 0 56 = x.target) ∧
     t.cx.mode = .supervisor ∧ t.cx.xfer = none ∧
     (s.cx.mode = .task → t.cx.pc = s.trapVec s.cx.id.space) ∧
     (s.cx.mode = .supervisor → t.cx.pc = s.trapVec s.cx.id.space + 64) ∧
     t.cx.x = c.x ∧ t.cx.q = c.q ∧ t.cx.b = c.b ∧ t.cx.v = c.v ∧ t.cx.k = c.k ∧ t.cx.w = c.w ∧ t.cx.vrot = c.vrot ∧
     t.cx.krot = c.krot ∧ t.cx.btime = s.cx.btime ∧ t.cx.id = s.cx.id ∧
     (s.cx.dbg.haltReq = false → s.cx.dbg.step = false → t.sameBytes s)) ∧
  (∀ c : Context, c.drain.pending = [] ∧ c.drain.btime = c.btime)

/-- R127, R128, R134: in task mode, `srd` and `swr` of a register that only supervisor mode may reach, and every form of
`tret`, trap with PRIVILEGE (0x07), TINFO0 the register's number, 0 for `tret`. -/
def Obligations.PrivilegeChecked : Prop :=
  ∀ (p : Pred) (s : State), s.holds p = true → s.cx.mode = .task →
    (∀ (d a : BitVec 5) (r : BitVec 12) (l : Option Word),
      immNat r l ∈ [0x030, 0x031, 0x032, 0x033, 0x034, 0x035, 0x036, 0x100, 0x101, 0x102, 0x103] →
      exec (.srd p d r l) s = .next (s.takeTrap ⟨0x07, BitVec.ofNat 64 (immNat r l), 0, 0, 0⟩) ∧
      exec (.swr p a r l) s = .next (s.takeTrap ⟨0x07, BitVec.ofNat 64 (immNat r l), 0, 0, 0⟩)) ∧
    exec (.tret p) s = .next (s.takeTrap ⟨0x07, 0, 0, 0, 0⟩) ∧ exec (.tretSkip p) s = .next (s.takeTrap ⟨0x07, 0, 0, 0, 0⟩) ∧
    exec (.tretEnd p) s = .next (s.takeTrap ⟨0x07, 0, 0, 0, 0⟩) ∧
    (∀ a, exec (.tretTo p a) s = .next (s.takeTrap ⟨0x07, 0, 0, 0, 0⟩))

/-- R127 to R132: `srd` delivers the register its number names, latency 1, in task mode for those that task mode may read and
in supervisor mode for all. That NSTIME counts from the cycle in which NSSET was written is the model's reading (log 33). -/
def Obligations.SpecialRegisterReads : Prop :=
  ∀ (p : Pred) (d : BitVec 5) (r : BitVec 12) (s : State) (v : Dbl), s.holds p = true →
    (r.toNat, v) ∈ ([(0x000, s.cx.id.taskid.setWidth 64), (0x001, s.cx.id.coord), (0x002, BitVec.ofNat 64 (s.here % 4)),
      (0x003, BitVec.ofNat 64 (s.here / 4 % 16)), (0x004, BitVec.ofNat 64 (s.here / 64 % 16)),
      (0x005, BitVec.ofNat 64 (s.here / 1024 % 4)), (0x006, s.dev.devid.setWidth 64), (0x007, s.cx.id.space.setWidth 64),
      (0x008, s.cx.id.klass.setWidth 64), (0x010, BitVec.ofNat 64 s.cx.btime), (0x011, BitVec.ofNat 64 s.cycle),
      (0x012, s.dev.nsBase + BitVec.ofNat 64 ((s.cycle - s.dev.nsCycle.toNat) * 5 / 7)), (0x018, s.cx.stoch),
      (0x019, s.cx.vrot.setWidth 64 ||| (s.cx.krot.setWidth 64 <<< 8)),
      (0x020, if s.cx.id.mown then s.mstat else 0), (0x040, if s.cx.mode = .supervisor then 1 else 0)] ++
      (if s.cx.mode = .supervisor then
        [(0x030, s.cx.trap.tcause), (0x031, s.cx.trap.tinfo0), (0x032, s.cx.trap.tinfo1), (0x033, s.cx.trap.tinfo2),
         (0x034, s.cx.trap.tinfo3), (0x035, s.cx.trap.tpc), (0x036, s.cx.trap.txfer), (0x100, s.cx.sscratch[0]),
         (0x101, s.cx.sscratch[1]), (0x102, s.cx.sscratch[2]), (0x103, s.cx.sscratch[3])]
       else [])) →
    exec (.srd p d r none) s = .next (s.push 1 (.x d v))

/-- R127, R128, R130 to R132, R163: `swr` delivers xa to the register, latency 1; what lands keeps the fields' bounds: STOCHSEED
(0 is read as 1), VROT and KROT, CAUSE, TXFER's fields; MOPX and SAT of MSTAT are cleared by writing 1, by the matrix's owner
only. -/
def Obligations.SpecialRegisterWrites : Prop :=
  (∀ (p : Pred) (a : BitVec 5) (r : BitVec 12) (s : State), s.holds p = true → srWritable.contains r.toNat = true →
    (s.cx.mode = .supervisor ∨ r.toNat = 0x018 ∨ r.toNat = 0x019 ∨ r.toNat = 0x020) →
    exec (.swr p a r none) s = .next (s.push 1 (.sr r.toNat (s.rx a)))) ∧
  (∀ (c : Context) (d : Dbl),
    c.land (.sr 0x018 d) = { c with stoch := if d = 0 then 1 else d } ∧
    c.land (.sr 0x019 d) = { c with vrot := d.extractLsb' 0 5, krot := d.extractLsb' 8 3 } ∧
    (c.id.mown = true → (c.land (.sr 0x020 d)).mat.mopx = (c.mat.mopx && !d.getLsbD 1) ∧
      (c.land (.sr 0x020 d)).mat.sat = (c.mat.sat && !d.getLsbD 0) ∧ (c.land (.sr 0x020 d)).mat.pdone = c.mat.pdone) ∧
    (c.id.mown = false → c.land (.sr 0x020 d) = c) ∧
    (c.land (.sr 0x030 d)).trap.tcause = BitVec.ofNat 64 (d.toNat % 256) ∧
    (c.land (.sr 0x031 d)).trap.tinfo0 = d ∧ (c.land (.sr 0x032 d)).trap.tinfo1 = d ∧
    (c.land (.sr 0x033 d)).trap.tinfo2 = d ∧ (c.land (.sr 0x034 d)).trap.tinfo3 = d ∧ (c.land (.sr 0x035 d)).trap.tpc = d ∧
    (∀ k < 64, (c.land (.sr 0x036 d)).trap.txfer.getLsbD k = (d.getLsbD k && !(decide (58 ≤ k) && decide (k ≤ 62)))) ∧
    (c.land (.sr 0x100 d)).sscratch[0] = d ∧ (c.land (.sr 0x101 d)).sscratch[1] = d ∧
    (c.land (.sr 0x102 d)).sscratch[2] = d ∧ (c.land (.sr 0x103 d)).sscratch[3] = d)

/-- R134: in supervisor mode, after a trap that was not taken at entry, the three resuming forms complete: with every exposed
result landed (the drained context), the mode becomes task mode, and `tret` resumes at TPC with the transfer that TXFER holds
pending again if V is 1; `tret.skip`, when TPC's bundle can be fetched and ends at e, resumes past that bundle, which counts as
issued: at e with V 0, at e with LEFT less 1 where LEFT was 2 or more, at the transfer's target where LEFT was 1, and at e with
the transfer over where it was 0; `tret.to` resumes at xa[55:0] with V cleared. `tret.end` completes: the member ends, as by
`tend`, and so it does by every resuming form after a trap at entry (R28), which returns the task to pending. Every other field
of the context is as in the drained one. What a drained context is, and that `tret.skip` keeps what is left of TXFER, is the model's
reading (log 40). -/
def Obligations.TrapReturns : Prop :=
  ∀ (p : Pred) (s : State), s.holds p = true → s.cx.mode = .supervisor →
    let c := s.cx.drain
    let tpc := s.cx.trap.tpc.extractLsb' 0 56
    let x : Xfer := ⟨s.cx.trap.txfer.extractLsb' 0 56, (s.cx.trap.txfer.extractLsb' 56 2).toNat, s.cx.trap.xsrc, s.cx.trap.xdrain⟩
    let v := s.cx.trap.txfer.getLsbD 63
    (s.cx.entryTrap = false →
      exec (.tret p) s = .next { s with
        cx := { c with mode := .task, pc := tpc, xfer := if v then some x else none }
        issue := { s.issue with resumed := true } } ∧
      (∀ e : BitVec 56, (s.bundleEnd tpc).2 = .ok e →
        ∃ t, exec (.tretSkip p) s = .next t ∧ t.issue.resumed = true ∧
          t.cx = { c with
            mode := .task
            pc := if v = true ∧ x.left = 1 then x.target else e
            xfer := if v = true ∧ x.left ≠ 0 then some { x with left := x.left - 1 } else none
            draining := if v = true ∧ x.left = 1 then x.drain else s.cx.draining }) ∧
      (∀ a : BitVec 5, exec (.tretTo p a) s = .next { s with
        cx := { c with mode := .task, pc := (s.rx a).setWidth 56, xfer := none,
                       trap := { c.trap with txfer := c.trap.txfer &&& 0x7FFFFFFFFFFFFFFF } }
        issue := { s.issue with resumed := true } })) ∧
    exec (.tretEnd p) s =
      .next (({ s with cx := { s.cx with ending := true, entryTrap := false } } : State).later 0 (.memberEnd s.here)) ∧
    (s.cx.entryTrap = true →
      let e := ({ s with cx := { s.cx with ending := true, entryTrap := true } } : State).later 0 (.memberEnd s.here)
      exec (.tret p) s = .next e ∧ exec (.tretSkip p) s = .next e ∧ ∀ a : BitVec 5, exec (.tretTo p a) s = .next e)

/-- R123, R126, R133: `tend` marks the member as ending; `nap` sets the cycles to pause to xa + imm, none when that is not
positive and at most 2^20 − 1; a `fence` without a failure to report puts itself in force for its successor set, waiting for the
accesses open in its predecessor set, at core scope when its scope is core. The last cycle of a pause advances bundle time by 1
and ends it. That a fence beyond core scope waits for the queued writes of the core's other contexts too is the model's reading
(log 37). -/
def Obligations.EndPauseFence : Prop :=
  (∀ (p : Pred) (s : State), s.holds p = true →
    (∃ t, exec (.tend p) s = .next t ∧ t.cx.ending = true ∧ t.cx.x = s.cx.x ∧ t.sameBytes s) ∧
    (∀ (a : BitVec 5) (i : BitVec 12) (l : Option Word),
      exec (.nap p a i l) s = .next { s with cx := { s.cx with
        nap := (min (BitVec.ofInt 64 ((s.rx a).toInt + immInt i l)).toInt (2 ^ 20 - 1)).toNat } }) ∧
    (∀ (c : BitVec 2) (e f : BitVec 5), (∀ u ∈ s.cx.unreported, u.sets &&& e = 0) →
      exec (.fence p c e f) s = .next { s with cx := { s.cx with
        barriers := s.cx.barriers ++ [⟨f, (s.cx.opens.filter fun o => decide (o.sets &&& e ≠ 0)).map OpenAccess.id ++
          (if c = 0 ∨ e &&& 3 = 0 then [] else s.coreQueued s.here), decide (c = 0)⟩] } })) ∧
  (∀ (c : Nat) (s : State), (s.ctx c).nap = 1 → (s.ctx c).dbg.halted = false →
    ∃ t, exec (.napEnd c) s = .next t ∧ (t.ctx c).nap = 0 ∧ (t.ctx c).btime = (s.ctx c).btime + 1)

/-- R133: while an access that a fence waits for is not complete at its scope, a bundle with a performed word of its successor
set stalls, without any of its effects and without bundle time: at once where the word itself decides its set, and where the
addresses of its accesses decide it (R275: an access of another device's line is in F, one of this device's in R or W), when
those that the bundle's words come to are in the successor set. While such a word may be in the successor set, a trap or a wait
that it meets instead does not happen either: the bundle stalls. -/
def Obligations.FenceStallsSuccessors : Prop :=
  ∀ (s : State) (b : Bundle) (f : Barrier) (o : OpenAccess),
    b.present ≠ 0 → f ∈ s.cx.barriers → o ∈ s.cx.opens → o.id ∈ f.waits → (f.coreOnly = true → o.coreDone = false) →
    (∀ (n : Nat) (sl : Slot) (i : Instr), (n, sl, i) ∈ b.ops → s.performed i = true → i.byAddress = false →
      i.sets &&& f.succ ≠ 0 → s.issueBundle b = .next { s with issue := { s.issue with verdict := .stall } }) ∧
    (∀ t : State, s.runBundle (b.ops.map fun x => (x.1, x.2.2)) = .next t → t.issue.verdict = .done → t.waits = [] →
      t.issue.touched &&& f.succ ≠ 0 → (∀ x ∈ b.ops, s.matrixHeld x.2.2 = false) →
      s.issueBundle b = .next { s with issue := { s.issue with verdict := .stall } }) ∧
    (∀ (t : State) (n : Nat) (sl : Slot) (i : Instr), s.runBundle (b.ops.map fun x => (x.1, x.2.2)) = .next t → t.waits = [] →
      t.issue.verdict ≠ .done → t.issue.verdict ≠ .late → (n, sl, i) ∈ b.ops → s.performed i = true → i.byAddress = true →
      i.sets &&& f.succ ≠ 0 → (∀ x ∈ b.ops, s.matrixHeld x.2.2 = false) →
      s.issueBundle b = .next { s with issue := { s.issue with verdict := .stall } })

/-! The vector engine. -/

/-- R140 to R142 on integer lanes: each active lane of vd takes the exact result on the lanes' integers wrapped to the type, or
clamped for `vadds` and `vsubs`; `vmulh` takes the high half; `vabd` is written as the unsigned type; `vpopc` counts ones, `vclz`
leading zeros. Latency 2, and 4 for `vmul`. -/
def Obligations.VectorIntegers : Prop :=
  ∀ (k : BitVec 4) (d a b : BitVec 6) (t : ElemType) (s : State), t.isInt = true →
    let n := ElemType_width t
    let x := fun i => laneInt t (lane (s.rv a) i); let y := fun i => laneInt t (lane (s.rv b) i)
    let lo : Int := if t.isSigned then -(2 ^ (n - 1)) else 0; let hi : Int := if t.isSigned then 2 ^ (n - 1) - 1 else 2 ^ n - 1
    let out := fun (lat : Nat) (f : Nat → Int) => s.wv lat d (s.rk k) (mkVReg fun i => intLane t (f i))
    exec (.vadd k d a b t) s = .next (out 2 fun i => x i + y i) ∧
    exec (.vsub k d a b t) s = .next (out 2 fun i => x i - y i) ∧
    exec (.vmul k d a b t) s = .next (out 4 fun i => x i * y i) ∧
    exec (.vmin k d a b t) s = .next (out 2 fun i => min (x i) (y i)) ∧
    exec (.vmax k d a b t) s = .next (out 2 fun i => max (x i) (y i)) ∧
    exec (.vabs k d a t) s = .next (out 2 fun i => (x i).natAbs) ∧
    exec (.vneg k d a t) s = .next (out 2 fun i => -x i) ∧
    exec (.vadds k d a b t) s = .next (out 2 fun i => max lo (min hi (x i + y i))) ∧
    exec (.vsubs k d a b t) s = .next (out 2 fun i => max lo (min hi (x i - y i))) ∧
    exec (.vmulh k d a b t) s = .next (out 2 fun i => x i * y i / 2 ^ n) ∧
    exec (.vabd k d a b t) s =
      .next (s.wv 2 d (s.rk k) (mkVReg fun i => BitVec.ofNat 32 (x i - y i).natAbs)) ∧
    exec (.vpopc k d a t) s = .next (out 2 fun i => ((List.range n).filter fun m => (lane (s.rv a) i).getLsbD m).length) ∧
    (∃ z : Nat → Nat, exec (.vclz k d a t) s = .next (out 2 fun i => z i) ∧
      ∀ i < 64, z i ≤ n ∧ (∀ m < z i, (lane (s.rv a) i).getLsbD (n - 1 - m) = false) ∧
        (z i < n → (lane (s.rv a) i).getLsbD (n - 1 - z i) = true))

/-- R140, R141, R148 on float lanes: each active lane takes the exact result rounded once to the type, `vfma` a × b + d and
`vfms` d − a × b among them; `vrnd` the integral value its mode gives. -/
def Obligations.VectorFloats : Prop :=
  ∀ (k : BitVec 4) (d a b : BitVec 6) (t : ElemType) (s : State), t.isFloat = true →
    let x := fun i => laneVal t (lane (s.rv a) i); let y := fun i => laneVal t (lane (s.rv b) i)
    let z := fun i => laneVal t (lane (s.rv d) i)
    let out := fun (lat : Nat) (f : Nat → Val) => s.wv lat d (s.rk k) (mkVReg fun i => floatLane t .rne (f i))
    exec (.vadd k d a b t) s = .next (out 2 fun i => (x i).add (y i)) ∧
    exec (.vsub k d a b t) s = .next (out 2 fun i => (x i).sub (y i)) ∧
    exec (.vmul k d a b t) s = .next (out 4 fun i => (x i).mul (y i)) ∧
    exec (.vfma k d a b t) s = .next (out 4 fun i => ((x i).mul (y i)).add (z i)) ∧
    exec (.vfms k d a b t) s = .next (out 4 fun i => (z i).sub ((x i).mul (y i))) ∧
    exec (.vmin k d a b t) s = .next (out 2 fun i => (x i).min (y i)) ∧
    exec (.vmax k d a b t) s = .next (out 2 fun i => (x i).max (y i)) ∧
    exec (.vabs k d a t) s = .next (out 2 fun i => (x i).abs) ∧
    exec (.vneg k d a t) s = .next (out 2 fun i => (x i).neg) ∧
    exec (.vabd k d a b t) s = .next (out 2 fun i => ((x i).sub (y i)).abs) ∧
    (∀ m, exec (.vrnd k d a m t) s = .next (out 2 fun i => integral m (x i)))

/-- R142, R143, R145, R146, R153: on the containers of the active lanes, the shifts move the type's low w bits by the lane's or
the immediate's amount, w or more shifting all of them out; the logic words, `vmov`, `vbset`, `vimm` and `viota`; `vsel` writes
every lane, choosing by its mask. Latency 2. -/
def Obligations.VectorBits : Prop :=
  ∀ (k : BitVec 4) (d a b : BitVec 6) (t : ElemType) (s : State),
    let x := fun i => lane (s.rv a) i; let y := fun i => lane (s.rv b) i
    let n := ElemType_width t
    let out := fun (f : Nat → BitVec 32) => s.wv 2 d (s.rk k) (mkVReg f)
    (t.isInt = true →
      let left := fun (v : BitVec 32) (m : Nat) => intLane t ((v.toNat * 2 ^ m : Nat) : Int)
      let right := fun (v : BitVec 32) (m : Nat) => intLane t ((v.toNat % 2 ^ n / 2 ^ m : Nat) : Int)
      let arith := fun (v : BitVec 32) (m : Nat) => intLane t (((v.toNat : Int).bmod (2 ^ n)) / 2 ^ m)
      exec (.vshl k d a b t) s = .next (out fun i => left (x i) (y i).toNat) ∧
      exec (.vshr k d a b t) s = .next (out fun i => right (x i) (y i).toNat) ∧
      exec (.vsar k d a b t) s = .next (out fun i => arith (x i) (y i).toNat) ∧
      (∀ (m : BitVec 6) (l : Option Word),
        exec (.vshli k d a m t l) s = .next (out fun i => left (x i) (immNat m l)) ∧
        exec (.vshri k d a m t l) s = .next (out fun i => right (x i) (immNat m l)) ∧
        exec (.vsari k d a m t l) s = .next (out fun i => arith (x i) (immNat m l)) ∧
        exec (.viota k d m t l) s = .next (out fun i => intLane t (immInt m l + i)))) ∧
    exec (.vand k d a b t) s = .next (out fun i => x i &&& y i) ∧
    exec (.vor k d a b t) s = .next (out fun i => x i ||| y i) ∧
    exec (.vxor k d a b t) s = .next (out fun i => x i ^^^ y i) ∧
    exec (.vandn k d a b t) s = .next (out fun i => x i &&& ~~~y i) ∧
    exec (.vmov k d a t) s = .next (out x) ∧
    exec (.vbset k d a) s = .next (out fun i => BitVec.ofNat 32 (2 ^ ((x i).toNat % 32))) ∧
    (∀ (m : BitVec 6) (l : Word), exec (.vimm k d m t (some l)) s = .next (out fun _ => l)) ∧
    (∀ m : BitVec 6, t ≠ .d8 → exec (.vimm k d m t none) s =
      .next (out fun _ => if t.isFloat then floatLane t .rne (.ofInt m.toInt) else intLane t m.toInt)) ∧
    exec (.vsel k d a b t) s =
      .next (s.wv 2 d (BitVec.allOnes 64) (mkVReg fun i => if (s.rk k).getLsbD i then x i else y i))

/-- R137, R144, R155: a compare delivers its lanes' results to kd, 0 in the inactive lanes; the mask words deliver theirs to kd;
`vkpop` and `vkfirst` write how many bits are set, and the lowest set bit's index or 64, to every lane. Latency 2. -/
def Obligations.VectorMasks : Prop :=
  (∀ (k e : BitVec 4) (a b : BitVec 6) (t : ElemType) (s : State), t.isInt = true ∨ t.isFloat = true →
    let val := fun v i => laneVal t (lane (s.rv v) i); let int := fun v i => laneInt t (lane (s.rv v) i)
    let pick := fun (f : Int → Int → Bool) (g : Val → Val → Bool) i =>
      (s.rk k).getLsbD i && if t.isFloat then g (val a i) (val b i) else f (int a i) (int b i)
    (∃ m, exec (.vceq k e a b t) s = .next (s.wk 2 e m) ∧ ∀ i < 64, m.getLsbD i = pick (fun x y => decide (x = y)) Val.eq i) ∧
    (∃ m, exec (.vcne k e a b t) s = .next (s.wk 2 e m) ∧
      ∀ i < 64, m.getLsbD i = pick (fun x y => decide (x ≠ y)) (fun x y => !x.eq y) i) ∧
    (∃ m, exec (.vclt k e a b t) s = .next (s.wk 2 e m) ∧ ∀ i < 64, m.getLsbD i = pick (fun x y => decide (x < y)) Val.lt i) ∧
    (∃ m, exec (.vcle k e a b t) s = .next (s.wk 2 e m) ∧
      ∀ i < 64, m.getLsbD i = pick (fun x y => decide (x ≤ y)) (fun x y => x.lt y || x.eq y) i)) ∧
  (∀ (e a b : BitVec 4) (d : BitVec 6) (s : State),
    exec (.vkand e a b) s = .next (s.wk 2 e (s.rk a &&& s.rk b)) ∧
    exec (.vkor e a b) s = .next (s.wk 2 e (s.rk a ||| s.rk b)) ∧
    exec (.vkxor e a b) s = .next (s.wk 2 e (s.rk a ^^^ s.rk b)) ∧
    exec (.vkandn e a b) s = .next (s.wk 2 e (s.rk a &&& ~~~s.rk b)) ∧
    exec (.vkpop d a) s = .next (s.wv 2 d (BitVec.allOnes 64)
      (mkVReg fun _ => BitVec.ofNat 32 ((List.range 64).filter (s.rk a).getLsbD).length)) ∧
    exec (.vkfirst d a) s = .next (s.wv 2 d (BitVec.allOnes 64)
      (mkVReg fun _ => BitVec.ofNat 32 (((List.range 64).find? (s.rk a).getLsbD).getD 64))))

/-- R68 to R70, R150, R151: a reduction writes to every lane of vd the active lanes combined in tree order, inactive lanes
standing as identities; `vscan` writes to each active lane what the scan has up to it. On integer lanes the sum is the wrapped sum
of the active lanes whatever the order, and the scan's lane i that of the active lanes 0 to i. Latency 6. -/
def Obligations.VectorReductions : Prop :=
  ∀ (k : BitVec 4) (d a : BitVec 6) (t : ElemType) (s : State),
    let all := BitVec.allOnes 64
    let x := fun op i => if (s.rk k).getLsbD i then
        (if t.isFloat then floatLane t .rne (laneVal t (lane (s.rv a) i)) else intLane t (laneInt t (lane (s.rv a) i)))
      else redIdentity t op
    let tree := fun op => treeReduce (redOp t op) ((List.range 64).map (x op))
    exec (.vredsum k d a t) s = .next (s.wv 6 d all (mkVReg fun _ => tree 0)) ∧
    exec (.vredmin k d a t) s = .next (s.wv 6 d all (mkVReg fun _ => tree 1)) ∧
    exec (.vredmax k d a t) s = .next (s.wv 6 d all (mkVReg fun _ => tree 2)) ∧
    (∀ o : BitVec 2, o ≠ 3 → exec (.vscan k d a o t) s =
      .next (s.wv 6 d (s.rk k) (ofLanes (scanAll (redOp t o.toNat) ((List.range 64).map (x o.toNat)))))) ∧
    (t.isInt = true →
      let sum := fun n => ((List.range n).map fun i => if (s.rk k).getLsbD i then laneInt t (lane (s.rv a) i) else 0).sum
      exec (.vredsum k d a t) s = .next (s.wv 6 d all (mkVReg fun _ => intLane t (sum 64))) ∧
      exec (.vscan k d a 0 t) s = .next (s.wv 6 d (s.rk k) (mkVReg fun i => intLane t (sum (i + 1)))))

/-- R147, R54 to R59: `vcvt` to a type other than d8 writes each active lane's value rounded by its mode and saturated, an
integer into a wider integer extended; to d8, the active lanes form one scale group in lane order, with the σ of R56, the
codes of R57 and R58, and STOCHSEED left where those codes leave it. Latency 3. Between integers of one width the
saturation is the model's reading (log 14); that STOCHSEED advances when the word issues is its choice (log 40). -/
def Obligations.VectorConversions : Prop :=
  ∀ (k : BitVec 4) (d a : BitVec 6) (m : RMode) (src t : ElemType) (s : State),
    (t ≠ .d8 → exec (.vcvt k d a m src t) s = .next (s.wv 3 d (s.rk k) (mkVReg fun i =>
      let c := lane (s.rv a) i
      if src.isInt && t.isInt && decide (ElemType_width src < ElemType_width t) then intLane t (laneInt src c)
      else if t.isFloat then floatLane t m (laneVal src c)
      else intLane t (valToInt (ElemType_width t) t.isSigned m (laneVal src c))))) ∧
    (t = .d8 →
      let act := (List.range 64).filter (s.rk k).getLsbD
      let vals := act.map fun i => laneVal src (lane (s.rv a) i)
      let sg := chooseSigma vals; let r := toD8List sg vals s.cx.stoch
      ∃ v, exec (.vcvt k d a m src t) s = .next (({ s with cx := { s.cx with stoch := r.2 } } : State).wv 3 d (s.rk k) v) ∧
        ∀ n (h : n < act.length), lane v act[n] = d8Lane (r.1.getD n 0) sg)

/-- R149: `vexp2`, `vlog2`, `vrcp` and `vrsq` write to each active bf lane the function's value, latency 8; the special operands
±0, ±∞, NaN and the negative finite ones give the table's results, `vlog2` of 1 is +0, and 1/a of a finite a that is not 0 is the
exact reciprocal rounded to nearest even. -/
def Obligations.VectorFunctions : Prop :=
  (∀ (k : BitVec 4) (d a : BitVec 6) (s : State),
    let out := fun (f : Val → Nat) => s.wv 8 d (s.rk k) (mkVReg fun i => BitVec.ofNat 32 (f (laneVal .bf (lane (s.rv a) i))))
    exec (.vexp2 k d a .bf) s = .next (out bfExp2) ∧ exec (.vlog2 k d a .bf) s = .next (out bfLog2) ∧
    exec (.vrcp k d a .bf) s = .next (out bfRcp) ∧ exec (.vrsq k d a .bf) s = .next (out bfRsq)) ∧
  (let of := fun c : BitVec 32 => laneVal .bf c
   let nan := rndBits fbBf .rne .nan
   (∀ f ∈ [bfExp2, bfLog2, bfRcp, bfRsq], f .nan = nan) ∧
   (bfExp2 (of 0) = 0x3F80 ∧ bfExp2 (of 0x8000) = 0x3F80 ∧ bfExp2 (of 0x7F80) = 0x7F80 ∧ bfExp2 (of 0xFF80) = 0) ∧
   (bfLog2 (of 0) = 0xFF80 ∧ bfLog2 (of 0x8000) = 0xFF80 ∧ bfLog2 (of 0x7F80) = 0x7F80 ∧ bfLog2 (of 0xFF80) = nan ∧
     bfLog2 (of 0x3F80) = 0) ∧
   (bfRcp (of 0) = 0x7F80 ∧ bfRcp (of 0x8000) = 0xFF80 ∧ bfRcp (of 0x7F80) = 0 ∧ bfRcp (of 0xFF80) = 0x8000) ∧
   (bfRsq (of 0) = 0x7F80 ∧ bfRsq (of 0x8000) = 0xFF80 ∧ bfRsq (of 0x7F80) = 0 ∧ bfRsq (of 0xFF80) = nan) ∧
   (∀ q : Frac, q.n < 0 → 0 < q.d → bfLog2 (.fin true q) = nan ∧ bfRsq (.fin true q) = nan) ∧
   (∀ (n : Int) (e : Nat), n ≠ 0 → 0 < e →
     bfRcp (.fin (decide (n < 0)) ⟨n, e⟩) = rndBits fbBf .rne (.fin (decide (n < 0)) ⟨n.sign * e, n.natAbs⟩)))

/-- R152, R154: `vperm` gives each active lane the lane of va that vb names modulo 64, `vslide` the lane imm higher or 0 outside
the register, latency 3; `vtopk` merges the 64 pairs of vd with those of va's active lanes and writes the best 64 in order, scores
to vd (a NaN as the canonical one, R138) and ids to the next register, every lane, latency 10. -/
def Obligations.VectorPermutes : Prop :=
  ∀ (k : BitVec 4) (d a b : BitVec 6) (t : ElemType) (s : State),
    exec (.vperm k d a b t) s =
      .next (s.wv 3 d (s.rk k) (mkVReg fun i => lane (s.rv a) ((lane (s.rv b) i).toNat % 64))) ∧
    (∀ (m : BitVec 6) (l : Option Word), exec (.vslide k d a m t l) s = .next (s.wv 3 d (s.rk k) (mkVReg fun i =>
      if 0 ≤ (i : Int) + immInt m l ∧ (i : Int) + immInt m l ≤ 63 then lane (s.rv a) ((i : Int) + immInt m l).toNat else 0))) ∧
    (t = .i32 ∨ t = .n32 ∨ t = .f32 →
      let pair := fun (v : BitVec 6) (fromA : Bool) i => (⟨lane (s.rv v) i, lane (s.rv (v + 1)) i, fromA, i⟩ : Cand)
      let cands := (List.range 64).map (pair d false) ++ ((List.range 64).filter (s.rk k).getLsbD).map (pair a true)
      ∃ best rest : List Cand, (best ++ rest).Perm cands ∧ best.length = 64 ∧
        (best ++ rest).Pairwise (fun x y => better t y x = false) ∧
        exec (.vtopk k d a t) s = .next ((s.wv 10 d (BitVec.allOnes 64) (ofLanes (best.map fun c => scoreLane t c.score))).wv 10 (d + 1)
          (BitVec.allOnes 64) (ofLanes (best.map Cand.id))))

/-- R97, R157: the crossings. `xtov.bc` and `xtov.ins` write xa, cast to the type, to every lane or to lane l of vd on the path
that X, T and M share; `vtox` and `vtox.r` deliver lane l, or the lane xb[5:0], of va widened; `ktox` and `xtok` copy a mask.
Latency 4. -/
def Obligations.Crossings : Prop :=
  ∀ (p : Pred) (v : BitVec 6) (x : BitVec 5) (k : BitVec 4) (s : State), s.holds p = true →
    (∀ t : ElemType,
      let c : BitVec 32 := if t = .bf ∨ t = .d8 then ((s.rx x).setWidth 16).setWidth 32
        else if t = .f32 then (s.rx x).setWidth 32 else intLane t ((s.rx x).toNat : Int)
      let wide := fun i : Nat => if t = .bf ∨ t = .d8 then ((lane (s.rv v) i).setWidth 16).setWidth 64
        else if t = .f32 then (lane (s.rv v) i).setWidth 64 else BitVec.ofInt 64 (laneInt t (lane (s.rv v) i))
      exec (.xtovBc p v x t) s = .next (s.pushShared 4 (.v (physV v s.cx.vrot) (BitVec.allOnes 64) (mkVReg fun _ => c))) ∧
      (∀ l : BitVec 6, exec (.xtovIns p v x l t) s =
        .next (s.pushShared 4 (.v (physV v s.cx.vrot) (BitVec.ofNat 64 (2 ^ l.toNat)) (mkVReg fun _ => c)))) ∧
      (∀ l : BitVec 6, exec (.vtox p v x l t) s = .next (s.push 4 (.x x (wide l.toNat)))) ∧
      (∀ b : BitVec 5, exec (.vtoxR p v x b t) s = .next (s.push 4 (.x x (wide ((s.rx b).toNat % 64)))))) ∧
    exec (.ktox p k x) s = .next (s.push 4 (.x x (s.rk k))) ∧
    exec (.xtok p k x) s = .next (s.push 4 (.k (physK k s.cx.krot) (s.rx x)))

/-! The matrix engine and the tile engine. -/

/-- R160, R170 to R172, R174 to R176: each matrix word completes for the owner of the matrix engine, on a claimed accumulator
where it names one; all but `mrd` and `mst` need that no pass stands suspended in supervisor mode (R169). `minit` gives every
element its value and sets KIND, `mwr` writes the active elements of a row, each on a tile of its kind or of none, and on a tile
of the other kind `minit` traps with reason 4. `mrd` delivers the active lanes of a row, converted, on the shared path, latency
4. `mst` converts the region's elements inside the edge masks into the open tile, and its stream's slot is held for 32 cycles.
`mpass` loads or keeps the latches and appends a pass that lands 38 bundle times after its issue; with the A latch kept less than
12 bundle times after an `mgath`, the pass reads the latch as it stood. `mop` changes the operation of a pass that has steps left,
and without one it delivers MOPX, latency 1. `mgath`, when every present lane finds its row and no bank conflict is left,
delivers the gathered rows to the A latch after 12. That STOCHSEED advances when `mst` issues is the model's choice, and `minit`'s
reason 4 on a tile of the other kind its reading (log 40). -/
def Obligations.MatrixWords : Prop :=
  ∀ (p : Pred) (a : BitVec 2) (s : State), s.holds p = true → s.cx.id.mown = true →
    let tile := s.cx.acc[a.toNat]
    let val := fun r c => accVal tile.kind (accElem tile.data r c)
    (a.toNat < s.cx.id.nacc →
      (∀ (row : BitVec 6) (t : ElemType) (v : BitVec 6) (k : BitVec 4), t ≠ .d8 →
        exec (.mrd p a row t v k) s = .next (s.pushShared 4 (.v (physV v s.cx.vrot) (s.rk k) (mkVReg fun j =>
          convLane t .rne (val row.toNat j))))) ∧
      (∀ (row v : BitVec 6) (k : BitVec 4),
        let act := (List.range 64).filter (s.rk k).getLsbD
        let sg := chooseSigma (act.map (val row.toNat)); let r := toD8List sg (act.map (val row.toNat)) s.cx.stoch
        ∃ y, exec (.mrd p a row .d8 v k) s = .next (({ s with cx := { s.cx with stoch := r.2 } } : State).pushShared 4
            (.v (physV v s.cx.vrot) (s.rk k) y)) ∧
          ∀ n (h : n < act.length), lane y act[n] = d8Lane (r.1.getD n 0) sg) ∧
      (∀ (w : BitVec 4) (q : BitVec 2) (r0 c0 : Nat),
        let r := s.rw w; let t := wType r; let old := s.slot s.hereCluster (wSlot r)
        let cells := ((List.range (wRows r * wCols r)).map fun n => (n / wCols r, n % wCols r)).filter fun x => inEdge r x.1 x.2
        let d8 := mstD8 (wSmode r) (cells.map fun x => (x.1, x.2, val (r0 + x.1) (c0 + x.2))) old s.cx.stoch
        wBound r = true → s.isOpen r = true → s.storing r = false → mstRegion (wRows r) (wCols r) q.toNat = some (r0, c0) →
        ∃ u, exec (.mst p a w q) s = .next u ∧ (s.cycle + 32, .mstComplete s.here) ∈ u.agenda ∧
          u.cx = { s.cx with stoch := if t = .d8 then d8.2 else s.cx.stoch,
                             mat := { s.cx.mat with storing := s.cx.mat.storing ++ [wSlot r] } } ∧ u.mem = s.mem ∧
          (t = .d8 → u.slot s.hereCluster (wSlot r) = d8.1) ∧
          (t ≠ .d8 → wRows r * wCols r * esize t ≤ 4096 →
            ∀ i < wRows r, ∀ j < wCols r, slotElem (u.slot s.hereCluster (wSlot r)).data (wCols r) t i j =
              if inEdge r i j then (convLane t .rne (val (r0 + i) (c0 + j))).toNat % 2 ^ ElemType_width t
              else slotElem old.data (wCols r) t i j))) ∧
    (s.cx.mode = .task ∨ s.cx.passes.any Pass.suspended = false →
      (a.toNat < s.cx.id.nacc →
        (∀ (sel : BitVec 2) (i : Bool) (x : BitVec 5),
          let kind : AccKind := if i then .i40 else .f40
          (tile.kind = .none ∨ tile.kind = kind → ∃ t : AccTile, exec (.minit p a sel i x) s = .next (s.setAcc a t) ∧
            t.kind = kind ∧ ∀ r < 64, ∀ c < 64, accElem t.data r c =
              (if sel = 0 then 0
              else if sel = 1 then (if i then BitVec.ofInt 40 (-2 ^ 39) else 0xFF80000000)
              else if sel = 2 then (if i then BitVec.ofInt 40 (2 ^ 39 - 1) else 0x7F80000000)
              else (s.rx x).setWidth 40)) ∧
          (tile.kind ≠ .none → tile.kind ≠ kind →
            exec (.minit p a sel i x) s = .next (s.takeTrap ⟨0x0B, 4, a.setWidth 64, 0, 0⟩))) ∧
        (∀ (row : BitVec 6) (t : ElemType) (v : BitVec 6) (k : BitVec 4),
          let kind : AccKind := if t.isInt then .i40 else .f40
          (tile.kind = .none ∨ tile.kind = kind) → ∃ u : AccTile,
          exec (.mwr p a row t v k) s = .next (s.setAcc a u) ∧ u.kind = kind ∧
          ∀ r < 64, ∀ c < 64, accElem u.data r c =
            if r = row.toNat ∧ (s.rk k).getLsbD c = true then accOf t (lane (s.rv v) c) else accElem tile.data r c) ∧
        (∀ (wA wB : BitVec 4) (o : CellOp) (ka kb : Bool),
          let rA := s.rw wA; let rB := s.rw wB
          let la := if ka then s.cx.latchA else loadA (s.slot s.hereCluster (wSlot rA)) rA
          let lb := if kb then s.cx.latchB else loadB (s.slot s.hereCluster (wSlot rB)) rB
          (ka = false → wBound rA = true ∧ s.storing rA = false ∧ wRows rA = 64 ∧ (wType rA = .d8 → wSmode rA = false)) →
          (kb = false → wBound rB = true ∧ s.storing rB = false ∧ wCols rB = 64 ∧ (wType rB = .d8 → wSmode rB = true)) →
          la.fmt = lb.fmt → 1 ≤ la.fmt.toNat → la.fmt.toNat ≤ 4 →
          ((s.startTile a).kind = .none ∨ (s.startTile a).kind = passKind la.fmt) →
          exec (.mpass p a wA wB o ka kb) s = .next { s with cx := { s.cx with
            latchA := la, latchB := lb,
            passes := s.cx.passes ++ [⟨a, o, BitVec.ofNat 2 (la.fmt.toNat - 1), 0, s.cx.btime + 38, s.cx.btime,
              (s.startTile a).data, passKind la.fmt, false, false, false,
              if ka && s.cx.mat.mgathAt.elim false (fun g => decide (s.cx.btime < g + 12)) then some s.cx.latchA else none⟩] } })) ∧
      (∀ (o : CellOp) (q : Pass) (l : List Pass), s.cx.passes = l ++ [q] → q.step < 32 → q.suspended = false →
        exec (.mop p o) s = .next { s with cx := { s.cx with passes := l ++ [{ q with op := o }] } }) ∧
      (∀ o : CellOp, (∀ (q : Pass) (l : List Pass), s.cx.passes = l ++ [q] → 32 ≤ q.step) →
        exec (.mop p o) s = .next (s.push 1 .mopx)) ∧
      (∀ (v : BitVec 6) (w k : BitVec 4) (tn : Tensor) (l : List (Nat × Nat × Nat)),
        let r := s.rw w
        wBound r = true → wRows r = 64 → (s.tensor s.hereCluster s.cx.id.space (wTensor r)).2 = .ok (some tn) →
        s.gatherRows r tn.ext0 (s.rv v) ((List.range 64).filter fun i => (s.rk k).getLsbD i && (wEdgeR r).getLsbD i) = .ok l →
        (∀ x ∈ l, x.2.1 ∉ s.cx.mat.storing) → s.gatherStall l = none →
        ∃ t, exec (.mgath p v w k) s = .next t ∧ t.issue.verdict = s.issue.verdict ∧
          t.cx = { s.cx with
            pending := s.cx.pending ++ [⟨s.cx.btime + 12, false, .latchA (s.gatherLatch r l)⟩]
            mat := { s.cx.mat with mgathAt := some s.cx.btime } })) ∧
    (∀ c : Context, c.land .mopx = { c with mat := { c.mat with mopx := true } })

/-- R165 to R167: a lone pass makes one step at each of the 32 bundle times after its issue, its accumulator tile keeps its value
through bundle time 37, and at 38 the tile takes the cells that the 32 steps left, and the pass's KIND. R63 to R66, R166: a step
gives each cell what its operation gives on the cell's value and the terms of the K indices that the step takes, those of absent
elements being the operation's identity, computed exactly and rounded once: integers clamped to i40, other formats to nearest
even in f40; an f32 pass changes nothing at an odd step. -/
def Obligations.PassLandsAfter38 : Prop :=
  (∀ (c : Context) (q : Pass), c.passes = [q] → c.pending = [] → q.step = 0 → q.suspended = false → q.landed = false →
    q.landsAt = c.btime + 38 →
    (∀ n, n ≤ 37 → (c.advanceN n).acc = c.acc ∧ ((c.advanceN n).passes.map Pass.step) = [min n 32]) ∧
    (c.advanceN 38).acc = c.acc.set q.tile.toNat
      ⟨((List.range 32).foldl (fun (p : Pass) _ => p.advance (q.shadow.getD c.latchA) c.latchB) q).cells, q.kind⟩) ∧
  (∀ (q : Pass) (a b : Latch), (q.advance a b).step = q.step + 1 ∧ ∀ i < 64, ∀ j < 64,
      let old := accElem q.cells i j; let new := accElem (q.advance a b).cells i j
      let st := q.step
      let here := fun k : Nat => a.mask.getLsbD i && b.mask.getLsbD j && a.kmask.getLsbD k && b.kmask.getLsbD k
      (q.fmt = 0 → q.kind = .i40 →
        let x := fun k : Nat => (a.data.extractLsb' (8 * (64 * i + k)) 8).toInt
        let y := fun k : Nat => (b.data.extractLsb' (8 * (64 * j + k)) 8).toInt
        let ks := ([2 * st, 2 * st + 1] : List Nat).filter here
        let exact : Int := match q.op with
          | .mac => old.toInt + (ks.map fun k => x k * y k).sum
          | .ada => old.toInt + (ks.map fun k => ((x k - y k).natAbs : Int)).sum
          | .mxp => (ks.map fun k => x k + y k).foldl max old.toInt
          | .mnp => (ks.map fun k => x k + y k).foldl min old.toInt
        new = BitVec.ofInt 40 (max (-2 ^ 39) (min (2 ^ 39 - 1) exact))) ∧
      (1 ≤ q.fmt.toNat → q.kind = .f40 →
        let value := fun (l : Latch) (r k : Nat) =>
          if q.fmt = 1 then d8Val (l.data.extractLsb' (8 * (64 * r + k)) 8).toNat (l.scale.extractLsb' (8 * r) 8).toInt
          else if q.fmt = 2 then floatVal fbBf (l.data.extractLsb' (8 * (64 * r + 2 * k)) 16).toNat
          else floatVal fbF32 (l.data.extractLsb' (8 * (64 * r + 4 * k)) 32).toNat
        let ks : List Nat := if q.fmt = 1 then [2 * st, 2 * st + 1] else if q.fmt = 2 then [st] else [st / 2]
        let term := fun k : Nat => match q.op with
          | .mac => if here k then (value a i k).mul (value b j k) else .fin false ⟨0, 1⟩
          | .ada => if here k then ((value a i k).sub (value b j k)).abs else .fin false ⟨0, 1⟩
          | .mxp => if here k then (value a i k).add (value b j k) else .inf true
          | .mnp => if here k then (value a i k).add (value b j k) else .inf false
        let both := fun (v t : Val) => match q.op with
          | .mac | .ada => v.add t
          | .mxp => v.max t
          | .mnp => v.min t
        new = if q.fmt = 3 ∧ st % 2 = 1 then old
          else BitVec.ofNat 40 (rndBits fbF40 .rne ((ks.map term).foldl both (floatVal fbF40 old.toNat)))))

/-- R213 to R222: the stream words. On a local hit `sbind`, and `sprobe` with qd true, bind the stream read-only to the slot with
one more pin, the earlier binding losing its own; a miss of `sprobe` gives qd false and one of `sbind`, or a bind to the latest
version, parks the task; `snew` stalls while its version is asked for and then binds the OPEN slot read-write; `spub` makes the
slot DIRTY, the stream read-only and the publish an open access; `srel` leaves the stream 0, with the pin of its slot, or the
OPEN version, given up; `spin` and `sunpin` change the spin count, here a list of the slots that hold the pins, and the pins by
1; `sseek`, `sedge` and `sinfo` set the cursor modulo the groups, clear edge bits and read the stream. -/
def Obligations.StreamWords : Prop :=
  ∀ (p : Pred) (w : BitVec 4) (a b : BitVec 5) (s u : State) (tn : Tensor) (t : TileId) (n : BitVec 32), s.holds p = true →
    let r := s.rw w; let cl := s.hereCluster
    (s.isOpen r = false → u.isOpen r = false → s.cx.fault = none → s.cx.parked = none → s.tileRef w a b = (u, .ok (tn, t, n)) →
      u.cx = s.cx → u.here = s.here →
      (∀ (h : BitVec 2) (key : Nat) (x : LoamSlot), u.localHit cl t (.atLeast n) = some key → u.slot cl key = x → x.pins < 255 →
        (wBound r = true → wSlot r ≠ key) →
        let bound := bindStream tn t x.version key 1
        let after : LoamSlot := { x with pins := x.pins + 1, clock := 3, hint := if h = 0 then x.hint else h }
        (∃ v f, exec (.sbind p w a b 1 h) s = .next v ∧ v.slot cl key = after ∧ v.cx.flights = s.cx.flights ++ [f] ∧
          f.kind = .bound ∧ f.dests = [.w w] ∧ f.result = [.w w bound] ∧ v.cx.parked = none ∧
          (wBound r = true → s.slotOfStream r (u.slot cl (wSlot r)) = true →
            (v.slot cl (wSlot r)).pins = (u.slot cl (wSlot r)).pins - 1)) ∧
        (∀ (q : BitVec 3) (g : Bool), ∃ v f, exec (.sprobe p w a b h q g) s = .next v ∧ v.slot cl key = after ∧
          v.cx.flights = s.cx.flights ++ [f] ∧ f.kind = .bound ∧ f.result = [.w w bound, .q q true])) ∧
      (u.localHit cl t (.atLeast n) = none →
        (∀ h : BitVec 2, ∃ v, exec (.sbind p w a b 1 h) s = .next v ∧ v.issue.verdict = .park) ∧
        (∀ h : BitVec 2, ∃ v, exec (.sbind p w a b 0 h) s = .next v ∧ v.issue.verdict = .park) ∧
        (∀ (h : BitVec 2) (q : BitVec 3), ∃ v f, exec (.sprobe p w a b h q false) s = .next v ∧ v.cx.flights = s.cx.flights ++ [f] ∧
          f.result = [.q q false])) ∧
      (∀ c x : Bool, s.cx.opening = none → u.agenda = [] → u.fab.txns = [] →
        exec (.snew p w a b c x) s =
          .next ((({ u with cx := { u.cx with opening := some ⟨t, c, none, none⟩ } } : State).later 0 (.snewAtHome u.here t n x)).stall)) ∧
      (∀ (c x : Bool) (o : Opening) (key : Nat), s.cx.opening = some o → o.slot = some key →
        ∃ v, exec (.snew p w a b c x) s = .next v ∧ v.cx.opening = none ∧
          v.cx.pending = s.cx.pending ++ [⟨s.cx.btime + 1, false, .w w (bindStream tn t (u.slot cl key).version key 2)⟩])) ∧
    (∀ x : LoamSlot, s.isOpen r = true → s.slot cl (wSlot r) = x → s.storing r = false → s.cx.opens = [] →
      s.coreQueued s.here = [] → ∃ v, exec (.spub p w) s = .next v ∧ v.slot cl (wSlot r) = { x with state := .dirty } ∧
        v.cx.opens = [⟨s.tick, 4, false, some (x.tile, x.version)⟩] ∧ (s.cycle, .publishAtHome x.tile x.version cl) ∈ v.agenda ∧
        v.cx.pending = s.cx.pending ++ [⟨s.cx.btime + 1, false, .w w (wPut r 258 2 1)⟩]) ∧
    (∃ v, exec (.srel p w) s = .next v ∧ v.cx.pending = s.cx.pending ++ [⟨s.cx.btime + 1, false, .w w 0⟩] ∧
      (wBound r = true → s.slotOfStream r (s.slot cl (wSlot r)) = true → (s.slot cl (wSlot r)).state ≠ .openV →
        (v.slot cl (wSlot r)).pins = (s.slot cl (wSlot r)).pins - 1) ∧
      (s.isOpen r = true → v.slot cl (wSlot r) = {})) ∧
    (∀ (e : Entry) (x : LoamSlot), wBound r = true → s.slot cl (wSlot r) = x → s.taskEntry = some e →
      (x.pins < 255 → e.spins = [] → ∃ v e', exec (.spin p w) s = .next v ∧ v.slot cl (wSlot r) = { x with pins := x.pins + 1 } ∧
        v.taskEntry = some e' ∧ e'.spins = [⟨x.tile, x.version, [wSlot r], 0⟩]) ∧
      (∀ l h, wSlot r ∈ l → e.spins = [⟨x.tile, x.version, l, h⟩] → x.pins ≠ 0 → ∃ v e', exec (.sunpin p w) s = .next v ∧
        (v.slot cl (wSlot r)).pins = x.pins - 1 ∧ v.taskEntry = some e' ∧
        e'.spins = [⟨x.tile, x.version, l.erase (wSlot r), h⟩])) ∧
    (∀ (e : Entry) (x : LoamSlot) (key : Nat), s.cx.fault = none → s.cx.parked = none → s.tileRef 0 a b = (s, .ok (tn, t, n)) →
      s.slot cl key = x → x.tile = t → s.taskEntry = some e →
      (∀ h : BitVec 2, s.localHit cl t (.atLeast n) = some key → x.pins < 255 → e.spins = [] →
        ∃ v e', exec (.spinRef p a b 1 h) s = .next v ∧ (v.slot cl key).pins = x.pins + 1 ∧ v.taskEntry = some e' ∧
          e'.spins = [⟨t, x.version, [key], 0⟩]) ∧
      (∀ l h, e.spins = [⟨t, x.version, key :: l, h⟩] → x.pins ≠ 0 → ∃ v e', exec (.sunpinRef p a b) s = .next v ∧
        (v.slot cl key).pins = x.pins - 1 ∧ v.taskEntry = some e' ∧ e'.spins = [⟨t, x.version, l, h⟩])) ∧
    (wBound r = true →
      (∀ (i : BitVec 12) (l : Option Word), exec (.sseek p w a i l) s = .next (s.push 1 (.w w
        (wPut r 250 6 (((s.rx a).toInt + immInt i l) % (wGroups r : Int)).toNat)))) ∧
      exec (.sedge p w a b) s = .next (s.push 1 (.w w
        (wPut (wPut r 384 64 (wEdgeR r &&& s.rx a).toNat) 448 64 (wEdgeC r &&& s.rx b).toNat)))) ∧
    (∀ (d : BitVec 5) (k : BitVec 4), k.toNat < 8 →
      exec (.sinfo p d w k) s = .next (s.flightBound [.x d] [.x d (r.extractLsb' (64 * k.toNat) 64)])) ∧
    (∀ (d : BitVec 5) (k : Nat), k < 2 → wBound r = true → exec (.sinfo p d w (BitVec.ofNat 4 (11 + k))) s =
      .next (s.flightBound [.x d] [.x d ((s.slot cl (wSlot r)).scale.extractLsb' (64 * k) 64)]))

/-- R223 to R227: `tldv` delivers the cursor's 64 elements on the shared path, 0 outside the edge masks, latency 5 without a recent
store of the group, and moves the cursor past them unless H; `tldx` the elements of a column; `tstv` stores the active lanes
inside the edge masks into an OPEN tile of a type other than d8, all other elements kept; `twb` starts the write-back of a DIRTY
slot and does nothing to a clean one; `tpref` starts an itinerary at a 16-byte aligned address. -/
def Obligations.TileMemoryWords : Prop :=
  ∀ (p : Pred) (w k : BitVec 4) (v : BitVec 6) (s : State), s.holds p = true →
    let r := s.rw w; let x := s.slot s.hereCluster (wSlot r); let g := wCursor r
    let past := fun h : Bool => if h then r else wPut r 250 6 ((g + 1) % wGroups r)
    (wBound r = true → s.storing r = false →
      (∀ h : Bool, s.cx.tstvs = [] → exec (.tldv p v w k h) s = .next ((s.pushShared 5 (.v (physV v s.cx.vrot) (s.rk k)
        (mkVReg fun i => if inEdge r ((64 * g + i) / wCols r) ((64 * g + i) % wCols r) then
          tileLane x r ((64 * g + i) / wCols r) ((64 * g + i) % wCols r) else 0))).push 1 (.w w (past h)))) ∧
      (∀ a : BitVec 5, exec (.tldx p v w k a) s = .next (s.flightBound [.v (physV v s.cx.vrot)]
        [.v (physV v s.cx.vrot) (s.rk k) (mkVReg fun i => if i < wRows r ∧ inEdge r i ((s.rx a).toNat % wCols r) = true then
          tileLane x r i ((s.rx a).toNat % wCols r) else 0)])) ∧
      (∀ h : Bool, s.isOpen r = true → wType r ≠ .d8 → wRows r * wCols r * esize (wType r) ≤ 4096 →
        ∃ t, exec (.tstv p v w k h) s = .next t ∧ t.mem = s.mem ∧
        t.cx.pending = s.cx.pending ++ [⟨s.cx.btime + 1, false, .w w (past h)⟩] ∧
        ∀ i < wRows r, ∀ j < wCols r,
          let e := i * wCols r + j
          slotElem (t.slot t.hereCluster (wSlot r)).data (wCols r) (wType r) i j =
            if 64 * g ≤ e ∧ e < 64 * g + 64 ∧ (s.rk k).getLsbD (e - 64 * g) = true ∧ inEdge r i j = true then
              (lane (s.rv v) (e - 64 * g)).toNat % 2 ^ ElemType_width (wType r)
            else slotElem x.data (wCols r) (wType r) i j) ∧
      (x.state = .clean → exec (.twb p w) s = .next s) ∧
      (x.state = .dirty → ∃ t, exec (.twb p w) s = .next t ∧ (t.slot t.hereCluster (wSlot r)).state = .writeback ∧
        t.cx.opens = s.cx.opens ++ [⟨s.tick, 4, false, none⟩] ∧ (s.cycle, .tileWritebackMerge s.hereCluster (wSlot r)) ∈ t.agenda)) ∧
    (∀ (a : BitVec 5) (i : BitVec 12) (l : Option Word),
      let va := s.rx a + BitVec.ofInt 64 (immInt i l)
      va.toNat % 16 = 0 → (s.cluster s.hereCluster).itineraries = [] → ∃ t, exec (.tpref p a i l) s = .next t ∧
        (t.cluster t.hereCluster).itineraries = [⟨s.tick + 1, va, s.cx.id.space, s.cx.id.klass⟩] ∧
        (s.cycle, .itineraryEntry s.hereCluster (s.tick + 1)) ∈ t.agenda)

/-- R207, R208, R228, R230: in supervisor mode, with no other way word waiting, `wayconv` of ways whose slots are all INVALID
converts them and delivers N, `wayrest` gives ways back whose scratch no one uses; `lds` delivers the extended little-endian bytes
of scratch and `sts` stores them, inside the window and aligned, when no copy that the context has issued is still to move those
bytes (R279); outside it they trap with SCRATCH_RANGE, misaligned with MISALIGNED, whose TINFO2 is the model's reading (log 24). -/
def Obligations.ScratchWords : Prop :=
  ∀ (p : Pred) (s : State), s.holds p = true →
    (∀ (d : BitVec 5) (i : BitVec 12), s.cx.mode = .supervisor → (s.cluster s.hereCluster).convQueue = [] →
      (s.cluster s.hereCluster).conv = none →
      let n := i.toNat; let c := s.cluster s.hereCluster
      (c.converted < n → n ≤ 8 → c.loam = [] → ∃ t, exec (.wayconv p d i none) s = .next t ∧
        (t.cluster t.hereCluster).converted = n ∧ (t.cluster t.hereCluster).conv = none ∧
        t.cx.pending = s.cx.pending ++ [⟨s.cx.btime + 1, false, .x d (BitVec.ofNat 64 n)⟩]) ∧
      (n < c.converted → s.scratchUses s.hereCluster = [] → ∃ t, exec (.wayrest p d i none) s = .next t ∧
        (t.cluster t.hereCluster).converted = n ∧ (∀ x, n * 524288 ≤ x → cellRead (t.cluster t.hereCluster).scratch x = 0) ∧
        t.cx.pending = s.cx.pending ++ [⟨s.cx.btime + 1, false, .x d (BitVec.ofNat 64 n)⟩])) ∧
    (∀ (d a : BitVec 5) (z : BitVec 2) (o : BitVec 9) (l : Option Word),
      let off := s.rx a + (match l with | some v => v.signExtend 64 | none => o.setWidth 64)
      let n := 2 ^ z.toNat; let at_ := s.scratchAt off.toNat; let m := (s.cluster s.hereCluster).scratch
      (off.toNat % n = 0 → off.toNat + n ≤ s.scratchLimit →
        (s.scratchBusy at_ n false = false →
          exec (.lds p d a z false o l) s = .next (s.flightBound [.x d] [.x d (BitVec.ofNat 64 (cellsRead m at_ n))]) ∧
          exec (.lds p d a z true o l) s = .next (s.flightBound [.x d]
            [.x d (BitVec.ofInt 64 ((cellsRead m at_ n : Int).bmod (2 ^ (8 * n))))])) ∧
        (s.scratchBusy at_ n true = false →
          ∃ t, exec (.sts p d a z o l) s = .next t ∧ (t.cluster t.hereCluster).scratch = cellsWrite m at_ n (s.rx d).toNat ∧
            t.mem = s.mem ∧ t.cx = s.cx)) ∧
      (∀ sx : Bool, off.toNat % n ≠ 0 →
        exec (.lds p d a z sx o l) s = .next (s.takeTrap ⟨0x24, 0, off, BitVec.ofNat 64 (s.issue.slot % 8 + 0xF00), 0⟩) ∧
        exec (.sts p d a z o l) s = .next (s.takeTrap ⟨0x24, 0, off, BitVec.ofNat 64 (s.issue.slot % 8 + 0xF10), 0⟩)) ∧
      (∀ sx : Bool, off.toNat % n = 0 → s.scratchLimit < off.toNat + n →
        exec (.lds p d a z sx o l) s = .next (s.takeTrap ⟨0x2B, 0, off, BitVec.ofNat 64 (s.issue.slot % 8 + 0xF00), 0⟩) ∧
        exec (.sts p d a z o l) s = .next (s.takeTrap ⟨0x2B, 0, off, BitVec.ofNat 64 (s.issue.slot % 8 + 0xF10), 0⟩)))

/-! Linear memory. -/

/-- R247, R250, R254 to R256, R276: a load or an atomic whose accesses pass every check starts an operation in flight on its
destination with one access for each (active) lane, and changes no byte; a store puts its accesses in the core's write queue, in
lane order, a d8 store (R251) the bytes of `storeValues`; `ldp` and `stp` deliver xa + off as well. R280: `ld`, `ldp`, `amo` and
`cas` with the acquire bit hold back every later access of the context until they are complete (`barriers`), at core scope when
the bundle's scope is core and the access is at this device, and without it nothing is held back; `st` and `stp` with the
release bit, and `amo` and `cas` with theirs, wait for the accesses of `earlier` (`after`), and without it for none. The words
complete for every state whose check of the access, or of all the active lanes, passes. -/
def Obligations.LinearWordsIssue : Prop :=
  ∀ (p : Pred) (d a b : BitVec 5) (s u : State), s.holds p = true → s.issue.verdict = .done →
    let started := fun (t : State) (dests : List Reg) (lanes : List Lane) (size : Nat) (after : List Nat) (held : List Barrier) =>
      ∃ f op, t.cx.flights = s.cx.flights ++ [f] ∧ f.id = u.tick ∧ f.kind = .mem lanes op ∧ f.dests = dests ∧ op.size = size ∧
        op.after = after ∧ t.cx.barriers = s.cx.barriers ++ held ∧ t.mem = u.mem ∧ t.cx.x = s.cx.x ∧
        (u.cycle, .interlockedCompletion u.here u.tick) ∈ t.agenda
    let queued := fun (t : State) (l : List (Dbl × Nat × Nat × Nat)) (after : List Nat) (core : Bool) =>
      ∃ w, (t.core u.hereCore).queue = (u.core u.hereCore).queue ++ w ∧ w.map (fun q => (q.va, q.gpa, q.size, q.value)) = l ∧
        (∀ q ∈ w, q.after = after ∧ q.coreOnly = core) ∧ t.mem = u.mem ∧ t.cx.x = s.cx.x
    let near := fun x : State.Xlat => u.issue.scope == 0 && u.ownDevice x.gpa
    let acquire := fun (o : Bool) (x : State.Xlat) => if o then [(⟨31, [u.tick], near x⟩ : Barrier)] else []
    let release := fun (o : Bool) (x : State.Xlat) => if o then u.earlier (near x) else []
    (∀ (z : BitVec 2) (sx o : Bool) (l : Policy) (f : BitVec 6) (lit : Option Word) (x : State.Xlat),
      let off : Dbl := BitVec.ofInt 64 (match lit with | some v => v.toInt | none => f.toInt * 2 ^ z.toNat)
      let n := 2 ^ z.toNat
      (windowOf (localOf x.gpa) ≠ .control ∨ u.ownDevice x.gpa = false) →
      (s.laneCheck (s.rx a + off) n .read (l != .b) true = (u, .ok x) →
        ∃ t, exec (.ld p d a z sx l o f lit) s = .next t ∧ t.cx.pending = s.cx.pending ∧
          started t [.x d] [{ i := 0, va := s.rx a + off, gpa := x.gpa, leaf := x.leaf }] n [] (acquire o x)) ∧
      (s.laneCheck (s.rx a) n .read (l != .b) true = (u, .ok x) →
        ∃ t, exec (.ldp p d a z sx l o f lit) s = .next t ∧
          t.cx.pending = s.cx.pending ++ [⟨s.cx.btime + 1, false, .x a (s.rx a + off)⟩] ∧
          started t [.x d] [{ i := 0, va := s.rx a, gpa := x.gpa, leaf := x.leaf }] n [] (acquire o x)) ∧
      (s.laneCheck (s.rx a + off) n .write (l != .b) true = (u, .ok x) →
        ∃ t, exec (.st p d a z l o f lit) s = .next t ∧ t.cx.pending = s.cx.pending ∧
          queued t [(s.rx a + off, x.gpa, n, (s.rx d).toNat % 2 ^ (8 * n))] (release o x) (near x)) ∧
      (s.laneCheck (s.rx a) n .write (l != .b) true = (u, .ok x) →
        ∃ t, exec (.stp p d a z l o f lit) s = .next t ∧
          t.cx.pending = s.cx.pending ++ [⟨s.cx.btime + 1, false, .x a (s.rx a + off)⟩] ∧
          queued t [(s.rx a, x.gpa, n, (s.rx d).toNat % 2 ^ (8 * n))] (release o x) (near x))) ∧
    (∀ (v : BitVec 6) (k : BitVec 4) (z : BitVec 2) (l : List (Nat × Dbl × State.Xlat)), l ≠ [] →
      let n := if z.toNat = 0 then 4 else if z.toNat = 1 then 2 else 1
      let act := (List.range 64).filter (s.rk k).getLsbD
      let strided := act.map fun i => (i, s.rx a + BitVec.ofNat 64 (i * (s.rx b).toNat))
      let indexed := act.map fun i => (i, s.rx a + (lane (s.rv (b.setWidth 6)) i).signExtend 64)
      let lanes := l.map fun (i, va, t) => ({ i := i, va := va, gpa := t.gpa, leaf := t.leaf } : Lane)
      let stores := l.map fun (i, va, t) => (va, t.gpa, n, (lane (s.rv v) i).toNat % 2 ^ (8 * n))
      (s.lanesCheck n .read true strided = (u, .ok l) →
        ∃ t, exec (.vld p v k a b z) s = .next t ∧ started t [.v (physV v s.cx.vrot)] lanes n [] []) ∧
      (s.lanesCheck n .read true indexed = (u, .ok l) →
        ∃ t, exec (.vgld p v k a b z) s = .next t ∧ started t [.v (physV v s.cx.vrot)] lanes n [] []) ∧
      let sent := if z = 3 then (State.storeValues 3 (s.rv v) l s.cx.stoch).1.map fun (_, y, va, t) => (va, t.gpa, n, y % 256) else stores
      (s.lanesCheck n .write true strided = (u, .ok l) → ∃ t, exec (.vst p v k a b z) s = .next t ∧ queued t sent [] false) ∧
      (s.lanesCheck n .write true indexed = (u, .ok l) → ∃ t, exec (.vsst p v k a b z) s = .next t ∧ queued t sent [] false)) ∧
    (∀ (z : Bool) (r : BitVec 2) (x : State.Xlat), s.laneCheck (s.rx a) (if z then 8 else 4) .atomic false false = (u, .ok x) →
      let lane0 : Lane := { i := 0, va := s.rx a, gpa := x.gpa, leaf := x.leaf, operand := s.rx b, expected := s.rx d }
      let begun := fun t : State =>
        started t [.x d] [lane0] (if z then 8 else 4) (release (r.getLsbD 1) x) (acquire (r.getLsbD 0) x)
      (∀ o : AtomicOp, ∃ t, exec (.amo p d a b o z r) s = .next t ∧ begun t) ∧
      (∃ t, exec (.cas p d a b z r) s = .next t ∧ begun t)) ∧
    (∀ (v : BitVec 5) (k : BitVec 3) (o : AtomicOp) (l : List (Nat × Dbl × State.Xlat)), l ≠ [] →
      s.lanesCheck 4 .atomic false (((List.range 64).filter (s.rk (k.setWidth 4)).getLsbD).map fun i =>
        (i, s.rx a + (lane (s.rv (b.setWidth 6)) i).signExtend 64)) = (u, .ok l) →
      ∃ t, exec (.vamo p v a b k o) s = .next t ∧ started t [.v (v.setWidth 6)] (l.map fun (i, va, t) =>
        ({ i := i, va := va, gpa := t.gpa, leaf := t.leaf, operand := (lane (s.rv (v.setWidth 6)) i).setWidth 64 } : Lane)) 4 [] []) ∧
    -- the same words complete whenever the check passes, told of the state and the operands alone
    (let passes := fun (va : Dbl) (n : Nat) (k : Access) (c w : Bool) => ∃ x, (s.laneCheck va n k c w).2 = .ok x
     let pass := fun (n : Nat) (k : Access) (c : Bool) (l : List (Nat × Dbl)) => ∃ x, (s.lanesCheck n k c l).2 = .ok x
     let busy := fun (i : Instr) (r : Reg) => ∃ t, exec i s = .next t ∧ t.issue.verdict = .done ∧
       ∃ f, t.cx.flights = s.cx.flights ++ [f] ∧ f.dests = [r]
     (∀ (z : BitVec 2) (sx o : Bool) (l : Policy) (f : BitVec 6) (lit : Option Word),
       let off : Dbl := BitVec.ofInt 64 (match lit with | some v => v.toInt | none => f.toInt * 2 ^ z.toNat)
       (passes (s.rx a + off) (2 ^ z.toNat) .read (l != .b) true → busy (.ld p d a z sx l o f lit) (.x d)) ∧
       (passes (s.rx a) (2 ^ z.toNat) .read (l != .b) true →
         busy (.ldp p d a z sx l o f lit) (.x d) ∧ ∃ t, exec (.ldp p d a z sx l o f lit) s = .next t ∧
           t.cx.pending = s.cx.pending ++ [⟨s.cx.btime + 1, false, .x a (s.rx a + off)⟩]) ∧
       (∀ x, (s.laneCheck (s.rx a + off) (2 ^ z.toNat) .write (l != .b) true).2 = .ok x → windowOf (localOf x.gpa) ≠ .control →
         ∃ t, exec (.st p d a z l o f lit) s = .next t ∧ t.issue.verdict = .done ∧
           (t.core s.hereCore).queue.length = (s.core s.hereCore).queue.length + 1) ∧
       (∀ x, (s.laneCheck (s.rx a) (2 ^ z.toNat) .write (l != .b) true).2 = .ok x → windowOf (localOf x.gpa) ≠ .control →
         ∃ t, exec (.stp p d a z l o f lit) s = .next t ∧ t.issue.verdict = .done ∧
           t.cx.pending = s.cx.pending ++ [⟨s.cx.btime + 1, false, .x a (s.rx a + off)⟩] ∧
           (t.core s.hereCore).queue.length = (s.core s.hereCore).queue.length + 1)) ∧
     (∀ (v : BitVec 6) (k : BitVec 4) (z : BitVec 2),
       let n := if z.toNat = 0 then 4 else if z.toNat = 1 then 2 else 1
       let act := (List.range 64).filter (s.rk k).getLsbD
       let strided := act.map fun i => (i, s.rx a + BitVec.ofNat 64 (i * (s.rx b).toNat))
       let indexed := act.map fun i => (i, s.rx a + (lane (s.rv (b.setWidth 6)) i).signExtend 64)
       let stored := fun i : Instr => ∃ t, exec i s = .next t ∧ t.issue.verdict = .done ∧
         (t.core s.hereCore).queue.length = (s.core s.hereCore).queue.length + act.length
       (pass n .read true strided → busy (.vld p v k a b z) (.v (physV v s.cx.vrot))) ∧
       (pass n .read true indexed → busy (.vgld p v k a b z) (.v (physV v s.cx.vrot))) ∧
       (pass n .write true strided → stored (.vst p v k a b z)) ∧ (pass n .write true indexed → stored (.vsst p v k a b z))) ∧
     (∀ (v : BitVec 5) (k : BitVec 3) (o : AtomicOp),
       pass 4 .atomic false (((List.range 64).filter (s.rk (k.setWidth 4)).getLsbD).map fun i =>
         (i, s.rx a + (lane (s.rv (b.setWidth 6)) i).signExtend 64)) → busy (.vamo p v a b k o) (.v (v.setWidth 6))))

/-- R94, R243, R247: a scalar load of an own line that no core holds, unencrypted, completes at the event that performs its
access: xd takes the bytes at the global physical address, little-endian, extended to 64 bits; no byte of memory changes. -/
def Obligations.LoadsReadMemory : Prop :=
  ∀ (p : Pred) (d a : BitVec 5) (z : BitVec 2) (sx : Bool) (l : Policy) (f : BitVec 6) (s u : State) (x : State.Xlat),
    let n := 2 ^ z.toNat; let va := s.rx a + BitVec.ofInt 64 (f.toInt * 2 ^ z.toNat)
    s.holds p = true → s.laneCheck va n .read (l != .b) true = (u, .ok x) → u.quietLine x → x.gpa % n = 0 → u.cx.flights = [] →
    (u.core u.hereCore).queue = [] → (u.cluster u.hereCluster).copies = [] → u.olderFlight u.here u.tick (x.gpa / 128) = false →
    d ≠ 0 →
    ∃ v w, exec (.ld p d a z sx l false f none) s = .next v ∧ exec (.interlockedCompletion u.here u.tick) v = .next w ∧
      w.cx.flights = [] ∧ w.sameBytes u ∧
      w.rx d = (if sx then BitVec.ofInt 64 ((u.bytes x.gpa n : Int).bmod (2 ^ (8 * n))) else BitVec.ofNat 64 (u.bytes x.gpa n))

/-- R239, R243, R276: a scalar store to such a line, once its write leaves the core's queue, has put the value's low bytes there:
at home for policies b and s, in the core's line for c; every byte of memory outside them is as before. -/
def Obligations.StoresWriteMemory : Prop :=
  ∀ (p : Pred) (d a : BitVec 5) (z : BitVec 2) (l : Policy) (f : BitVec 6) (s u : State) (x : State.Xlat),
    let n := 2 ^ z.toNat; let va := s.rx a + BitVec.ofInt 64 (f.toInt * 2 ^ z.toNat); let y := (s.rx d).toNat % 2 ^ (8 * n)
    s.holds p = true → s.laneCheck va n .write (l != .b) true = (u, .ok x) → u.quietLine x → x.gpa % n = 0 →
    (u.core u.hereCore).queue = [] → (u.cluster u.hereCluster).copies = [] → u.olderFlight u.here u.tick (x.gpa / 128) = false →
    Memory.wf u.mem = true →
    ∃ v w, exec (.st p d a z l false f none) s = .next v ∧ exec (.lineWriteMiss u.hereCore u.tick) v = .next w ∧
      (w.core u.hereCore).queue = [] ∧
      (l ≠ .c → w.bytes x.gpa n = y ∧ ∀ q, q < x.gpa ∨ x.gpa + n ≤ q → w.byte q = u.byte q) ∧
      (l = .c → w.sameBytes u ∧ ∃ ln, w.lineOf u.hereCore (x.gpa / 128) = some ln ∧ lineBytes ln.data (x.gpa % 128) n = y)

/-- R253 to R255: an atomic on such a line takes the old value at the event that performs it, sign-extended, and leaves the new
one: xb for swap, the wrapped sum, the bitwise results and the extremes, and for `cas` xb where the old value is xd's. No other
byte changes. -/
def Obligations.AtomicsReadModifyWrite : Prop :=
  ∀ (p : Pred) (d a b : BitVec 5) (z : Bool) (s u : State) (x : State.Xlat),
    let n := if z then 8 else 4; let m := 2 ^ (8 * n); let old := u.bytes x.gpa n; let y := (s.rx b).toNat % m
    let si := fun v : Nat => (v : Int).bmod m
    s.holds p = true → s.laneCheck (s.rx a) n .atomic false false = (u, .ok x) → u.quietLine x → x.gpa % n = 0 →
    u.cx.flights = [] → (u.core u.hereCore).queue = [] → (u.cluster u.hereCluster).copies = [] →
    u.olderFlight u.here u.tick (x.gpa / 128) = false → d ≠ 0 → Memory.wf u.mem = true →
    let ends := fun (i : Instr) (new : Nat) => ∃ v w, exec i s = .next v ∧
      exec (.interlockedCompletion u.here u.tick) v = .next w ∧ w.rx d = BitVec.ofInt 64 (si old) ∧ w.bytes x.gpa n = new ∧
      ∀ q, q < x.gpa ∨ x.gpa + n ≤ q → w.byte q = u.byte q
    ends (.amo p d a b .swap z 0) y ∧ ends (.amo p d a b .add z 0) ((old + y) % m) ∧
    ends (.amo p d a b .and z 0) (old.land y) ∧ ends (.amo p d a b .or z 0) (old.lor y) ∧
    ends (.amo p d a b .xor z 0) (old.xor y) ∧ ends (.amo p d a b .minN z 0) (min old y) ∧
    ends (.amo p d a b .maxN z 0) (max old y) ∧
    ends (.amo p d a b .minI z 0) (if si y < si old then y else old) ∧
    ends (.amo p d a b .maxI z 0) (if si old < si y then y else old) ∧
    ends (.cas p d a b z 0) (if old = (s.rx d).toNat % m then y else old)

/-- R258 to R260, R262, R376: an `mcas` whose entries pass every check starts its operation; `rwb` writes the dirty bytes of
an untracked line of its range home and keeps the line clean, `rwbinv` also drops it, `rinv` drops it and its dirty bytes;
`rstf` writes its active lanes at their own home and then asks for the flag's addition; `acopy` hands its copy to the copy
unit and adds its bytes to the object's PENDING. `pfl` completes in every state, without a trap and without a change to the
context; of an address that would fault it has no effect, and of a line of this device that no core holds it changes no
byte and leaves the line out of the core's cache or in it, as memory holds it, in state E where E asks for it and the line
is tracked (which of the two is a free value, log 4). The flag's addition to another device is coded as log 15 says. What an `acopy` waits for is the model's reading (log 36), and so is
that `rstf` writes its data when it issues (log 37). -/
def Obligations.RangeAndHandOffWords : Prop :=
  ∀ (p : Pred) (a b : BitVec 5) (s u : State), s.holds p = true →
    (∀ (d : BitVec 5) (c : BitVec 3) (ws : List (BitVec 256)) (es : List McasEntry) (v : State),
      (s.rx a).toNat % 32 = 0 → s.readRecords (s.rx a) (c.toNat + 1) = (u, .ok (some ws)) → u.mcasEntries 0 ws = (v, .ok es) →
      State.mcasBad ws es = none → v.cx.opens = [] → v.coreQueued v.here = [] → ∃ t m, exec (.mcas p d a c) s = .next t ∧ t.homes.mcas = v.homes.mcas ++ [m] ∧
        m.id = v.tick ∧ m.entries = es ∧ m.locked = [] ∧ m.decided = none ∧ t.mem = v.mem ∧
        t.cx.flights = v.cx.flights ++ [⟨v.tick, .mcas v.tick, [.x d], [], v.issue.pc⟩]) ∧
    (∀ (ln : Line) (pages : List (Nat × Nat)) (m : Nat),
      let first := (s.rx a).toNat / 128; let last := ((s.rx a).toNat + (s.rx b).toNat - 1) / 128
      let count := last / 512 - first / 512 + 1
      (s.rx b).toNat ≠ 0 → (u.core u.hereCore).queue = [] → (∀ l, u.olderFlight u.here u.tick l = false) →
      u.rangeLines first last pages = [(ln.line, m)] → u.lineOf u.hereCore ln.line = some ln → ln.tracked = false → ln.mesi = .i →
      ln.key = 0 → ln.dirty ≠ 0 → u.lineLocked ln.line = false → u.ownDevice (128 * ln.line) = true →
      u.backed (localOf (128 * ln.line)) = true → Memory.wf u.mem = true →
      let at_ := fun (t : State) (i : Nat) => t.byte (128 * ln.line + i)
      let merged := fun t : State => (∀ i < 128, at_ t i = if ln.dirty.getLsbD i then ln.data.extractLsb' (8 * i) 8 else at_ u i) ∧
        ∀ q, q / 128 ≠ ln.line → t.byte q = u.byte q
      (s.rangePages (first / 512) false count = (u, .ok pages) → ∃ t, exec (.rwb p a b) s = .next t ∧ merged t ∧
        t.lineOf u.hereCore ln.line = some { ln with dirty := 0 }) ∧
      (s.rangePages (first / 512) true count = (u, .ok pages) →
        (∃ t, exec (.rwbinv p a b) s = .next t ∧ merged t ∧ t.lineOf u.hereCore ln.line = none) ∧
        (∃ t, exec (.rinv p a b) s = .next t ∧ t.sameBytes u ∧ t.lineOf u.hereCore ln.line = none))) ∧
    (∀ (v : BitVec 6) (k : BitVec 4) (x y : State.Xlat) (w : State), (s.rx a).toNat % 256 = 0 → (s.rx b).toNat % 8 = 0 → s.rk k ≠ 0 →
      s.laneCheck (s.rx a) 4 .write false false = (u, .ok x) → u.laneCheck (s.rx b) 8 .atomic false false = (w, .ok y) →
      w.cx = s.cx → w.quietLine x → w.quietLine { x with gpa := x.gpa + 128 } → x.gpa % 256 = 0 → w.ownDevice y.gpa = true → y.gpa < 2 ^ 60 →
      (w.core w.hereCore).queue = [] → (∀ l, w.olderFlight w.here w.tick l = false) → Memory.wf w.mem = true →
      ∃ t g, exec (.rstf p v k a b) s = .next t ∧ t.homes.held = w.homes.held ++ [g] ∧ g.gpa.toNat = y.gpa ∧ g.type = 5 ∧
        (∀ i < 64, t.bytes (x.gpa + 4 * i) 4 = if (s.rk k).getLsbD i then (lane (s.rv v) i).toNat else w.bytes (x.gpa + 4 * i) 4) ∧
        ∀ q, q < x.gpa ∨ x.gpa + 256 ≤ q → t.byte q = w.byte q) ∧
    (∀ (e : Bool) (i : BitVec 12) (l : Option Word),
      let va := (s.rx a + BitVec.ofInt 64 (immInt i l)) &&& ~~~127#64
      let s1 := s.free.2
      ∃ t, exec (.pfl p e a i l) s = .next t ∧ t.cx = s.cx ∧ t.issue.verdict = s.issue.verdict ∧
        ((∃ f, (s1.laneCheck va 128 .read true false).2 = .error f) → t = s1) ∧
        (∀ (v : State) (x : State.Xlat), s1.laneCheck va 128 .read true false = (v, .ok x) → s1.quietLine x →
          (e = true → x.leaf.getLsbD 2 = true) →
          t = s1 ∨ (t.sameBytes s1 ∧ ∃ ln, t.lineOf s1.hereCore (x.gpa / 128) = some ln ∧
            (∀ k < 128, ln.data.extractLsb' (8 * k) 8 = s1.byte (128 * (x.gpa / 128) + k)) ∧
            (e = true → ln.tracked = true → ln.mesi = .e)))) ∧
    (∀ (i : BitVec 12) (l : Option Word) (dsc : Nat),
      let va := s.rx a + BitVec.ofInt 64 (immInt i l); let desc := BitVec.ofNat 256 dsc
      let base := u.scratchAt 0; let bar := base + 16 * (desc.extractLsb' 234 22).toNat
      let j : CopyJob := ⟨u.tick, u.here, desc, u.cx.id.space, base, u.scratchLimit, bar, u.cx.opens.map OpenAccess.id ++ u.coreQueued u.here, [], [], [], none⟩
      let o := u.barrier u.hereCluster bar
      va.toNat % 32 = 0 → s.readNow va 32 = (u, .ok (some dsc)) → State.copyBad j (bar - base) u.scratchLimit = none →
      bFault o = false → Memory.wf (u.cluster u.hereCluster).scratch = true → (u.cluster u.hereCluster).copies = [] → 0 < j.total → bPending o + j.total < 2 ^ 48 →
      ∃ t, exec (.acopy p a i l) s = .next t ∧ (t.cluster t.hereCluster).copies = [j] ∧
        bPending (t.barrier t.hereCluster bar) = bPending o + j.total ∧ (u.cycle, .copyUnitLands u.hereCluster u.tick) ∈ t.agenda ∧ t.mem = u.mem)

/-! Barriers, tokens, tasks, graphs, leases and guest queues: the words. -/

/-- R263 to R270: the barrier words on an object that passes the scratch checks. `binit` sets EXPECTED and clears the rest but
SCOPE; `barrive`, with nothing outstanding, counts one arrival, and flips PHASE with ARRIVED back to 0 when PENDING is 0 and every
arrival is in; `bexpect` adds to PENDING; `bwait` delivers not FAULT when the phase differs or the object is faulted, and joins the
waiters otherwise; `btest` delivers a half, latency 1; `breset` clears the counts and the fault and keeps PHASE and EXPECTED. -/
def Obligations.BarrierWords : Prop :=
  ∀ (p : Pred) (a b : BitVec 5) (s : State), s.holds p = true →
    let cl := s.hereCluster; let off := s.scratchAt (s.rx a).toNat; let o := s.barrier cl off; let n := (s.rx b).toNat
    let obj := fun t : State => t.barrier t.hereCluster off
    (s.rx a).toNat % 16 = 0 → (s.rx a).toNat + 16 ≤ s.scratchLimit → Memory.wf (s.cluster cl).scratch = true →
    (1 ≤ n → n ≤ 65535 → ∃ t, exec (.binit p a b) s = .next t ∧ t.mem = s.mem ∧ t.cx = s.cx ∧ bExpected (obj t) = n ∧
      bPending (obj t) = 0 ∧ bArrived (obj t) = 0 ∧ bPhase (obj t) = false ∧ bFault (obj t) = false) ∧
    (s.cx.opens = [] → s.coreQueued s.here = [] → bFault o = false → bArrived o < bExpected o → (s.cluster cl).waiters = [] →
      ∃ t, exec (.barrive p a) s = .next t ∧ t.cx = s.cx ∧ t.mem = s.mem ∧ bExpected (obj t) = bExpected o ∧ bPending (obj t) = bPending o ∧
        (bArrived o + 1 = bExpected o ∧ bPending o = 0 → bArrived (obj t) = 0 ∧ bPhase (obj t) = !bPhase o) ∧
        (¬(bArrived o + 1 = bExpected o ∧ bPending o = 0) → bArrived (obj t) = bArrived o + 1 ∧ bPhase (obj t) = bPhase o)) ∧
    (n = 0 → exec (.bexpect p a b) s = .next s) ∧
    (0 < n → bPending o + n < 2 ^ 48 → ∃ t, exec (.bexpect p a b) s = .next t ∧ t.cx = s.cx ∧ t.mem = s.mem ∧
      bPending (obj t) = bPending o + n ∧ bArrived (obj t) = bArrived o ∧ bPhase (obj t) = bPhase o) ∧
    (∀ q : BitVec 3, bPhase o ≠ (s.rx b).getLsbD 0 ∨ bFault o = true →
      exec (.bwait p q a b) s = .next (s.flightBound [.q q] [.q q (!bFault o)])) ∧
    (∀ q : BitVec 3, bPhase o = (s.rx b).getLsbD 0 → bFault o = false → ∃ t w, exec (.bwait p q a b) s = .next t ∧
      t.cx.flights = s.cx.flights ++ [⟨s.tick, .barrier off ((s.rx b).getLsbD 0), [.q q], [], s.issue.pc⟩] ∧
      (t.cluster cl).waiters = (s.cluster cl).waiters ++ [w] ∧ w.ctx = s.here ∧ w.flight = s.tick ∧ w.off = off) ∧
    (∀ d : BitVec 5,
      let seen := match (s.cluster cl).barBefore.find? fun x => x.1 == off && x.2.1 == s.cycle with | some x => x.2.2 | none => o
      exec (.btest p d a false) s = .next (s.push 1 (.x d (seen.extractLsb' 0 64))) ∧
      exec (.btest p d a true) s = .next (s.push 1 (.x d (seen.extractLsb' 64 64)))) ∧
    ((s.cluster cl).copies = [] → (s.cluster cl).waiters = [] → ∃ t, exec (.breset p a) s = .next t ∧ t.cx = s.cx ∧ t.mem = s.mem ∧
      bPending (obj t) = 0 ∧ bArrived (obj t) = 0 ∧ bFault (obj t) = false ∧ bPhase (obj t) = bPhase o ∧ bExpected (obj t) = bExpected o)

/-- R262, R266, R268: a copy of a single destination unit from scratch to scratch lands its bytes, pays them into its object
and leaves the unit; a copy that meets a fault (never one of an unassigned cause, R452) marks its object with FAULT and the
cause and stops, but while units of it are on their way to other devices it keeps the fault until they have ended (log 36), the
first fault counting; a waiter beside the
table whose object's phase has turned has qd set to not FAULT. R176, R178: MST_COMPLETE releases the context's oldest
store, and MPASS_LANDS writes the tile of a pass whose 32 steps are done and whose landing time has come. -/
def Obligations.MatrixAndBarrierEvents : Prop :=
  ((∀ (cl : Nat) (j : CopyJob) (s : State),
     let m := (s.cluster cl).scratch; let o := s.barrier cl j.bar
     (s.cluster cl).copies = [j] → (s.cluster cl).waiters = [] → Memory.wf m = true → j.kind = 0 → j.srcS = true → j.dstS = true →
     j.units = 1 → 0 < j.len → j.after = [] → j.landed = [] → j.sent = [] → j.fault = none →
     (j.bar + 16 ≤ j.base + j.dst ∨ j.base + j.dst + j.len ≤ j.bar) → j.len < bPending o →
     ∃ t, exec (.copyUnitLands cl j.id) s = .next t ∧ (t.cluster cl).copies = [] ∧ t.mem = s.mem ∧
       cellsRead (t.cluster cl).scratch (j.base + j.dst) j.len = cellsRead m (j.base + j.src) j.len ∧
       bPending (t.barrier cl j.bar) = bPending o - j.len) ∧
   (∀ (cl : Nat) (j : CopyJob) (cause : BitVec 8) (s : State),
     (State.unassigned cause = true → exec (.copyFault cl j.id cause) s = .next s) ∧
     ((s.cluster cl).copies = [j] → (s.cluster cl).waiters = [] → Memory.wf (s.cluster cl).scratch = true →
       State.unassigned cause = false →
       (j.sent = [] → j.fault = none →
         ∃ t, exec (.copyFault cl j.id cause) s = .next t ∧ (t.cluster cl).copies = [] ∧ bFault (t.barrier cl j.bar) = true ∧
           (bFcause (s.barrier cl j.bar) = 0 → bFcause (t.barrier cl j.bar) = cause.toNat)) ∧
       (j.sent ≠ [] → ∃ t f, exec (.copyFault cl j.id cause) s = .next t ∧ (t.cluster cl).copies = [{ j with fault := some f }] ∧
         (j.fault = none → f.1 = cause) ∧ (j.fault ≠ none → j.fault = some f) ∧ t.barrier cl j.bar = s.barrier cl j.bar))) ∧
   (∀ (q : BitVec 3) (off : Nat) (phase tabled : Bool) (f : Flight) (s : State) (k : Nat),
     let cl := s.hereCluster; let o := s.barrier cl off
     (s.cluster cl).waiters = [⟨s.here, f.id, off, tabled, k⟩] → s.cx.flights = [f] → f.kind = .barrier off phase → f.dests = [.q q] →
     bPhase o ≠ phase → ∃ t, exec (.bwaitPoll s.here f.id) s = .next t ∧ (t.cluster cl).waiters = [] ∧ t.cx.flights = [] ∧
       (q ≠ 0 → t.rq q = !bFault o))) ∧
  (∀ (c : Nat) (s : State),
     (∃ t, exec (.mstComplete c) s = .next t ∧ (t.ctx c).mat.storing = (s.ctx c).mat.storing.drop 1 ∧ t.mem = s.mem) ∧
     (∀ q : Pass, (s.ctx c).passes = [q] → q.step = 32 → q.landed = false → q.landsAt = (s.ctx c).btime →
       ∃ t, exec (.mpassLands c) s = .next t ∧ (t.ctx c).acc = (s.ctx c).acc.set q.tile.toNat ⟨q.cells, q.kind⟩))

/-- R38, R316, R318, R319, R321, R367, R372, R373, R397: what these words do when nothing holds them up. `toksig` adds tokens to
its word at home; `tokwait` takes one and xd reads the word as it was, and an empty word lists it; `gstart` creates an instance;
`spawn` starts a co-task at b with eight arguments and the task's inputs bound; `lease.req` queues a lease or delivers the refusal,
`lease.rel` starts an active lease's end and `lease.qry` delivers its word; `mqpush` appends a packet and `mqstat` delivers TAIL,
HEAD, the room and the status bits. REMAIN of a refused lease word is the model's reading (log 18), and so is that a token word of this
device has its effect when it issues (log 29). -/
def Obligations.TaskAndQueueWords : Prop :=
  ∀ (p : Pred) (a b d : BitVec 5) (s u : State), s.holds p = true →
    (∀ x : State.Xlat, (s.rx a).toNat % 8 = 0 → s.xlat (s.rx a) .atomic = (u, .ok x) → u.quietLine x → x.gpa % 8 = 0 → u.cx = s.cx →
      u.homes.tokens = [] → (u.core u.hereCore).queue = [] → u.olderFlight u.here u.tick (x.gpa / 128) = false → Memory.wf u.mem = true →
      let old := u.bytes x.gpa 8; let n := if b = 0 then 1 else (s.rx b).toNat
      (s.cx.opens = [] → 1 ≤ n → n < 2 ^ 32 → old + n < 2 ^ 63 → ∃ t, exec (.toksig p a b) s = .next t ∧ t.cx = s.cx ∧
        t.bytes x.gpa 8 = old + n ∧ ∀ q, q < x.gpa ∨ x.gpa + 8 ≤ q → t.byte q = u.byte q) ∧
      (0 < old → old < 2 ^ 63 → s.cx.flights = [] → d ≠ 0 → ∃ t, exec (.tokwait p d a) s = .next t ∧ t.rx d = BitVec.ofNat 64 old ∧
        t.cx.flights = [] ∧ t.bytes x.gpa 8 = old - 1 ∧ ∀ q, q < x.gpa ∨ x.gpa + 8 ≤ q → t.byte q = u.byte q) ∧
      (old = 0 → ∃ t w, exec (.tokwait p d a) s = .next t ∧ t.homes.tokens = [w] ∧ w.listed = true ∧ w.gpa = x.gpa ∧
        w.user = .ctx u.here u.tick ∧ t.sameBytes u)) ∧
    ((s.rx a).toNat % 64 = 0 → (s.rx b).toNat % 8 = 0 → s.cx.opens = [] → s.coreQueued s.here = [] → (s.die s.hereDie).instances.length < 256 →
      ∃ t i, exec (.gstart p a b) s = .next t ∧ i ∈ (t.die s.hereDie).instances ∧ i.id = s.tick ∧ i.space = s.cx.id.space ∧
        i.klass = s.cx.id.klass ∧ i.done = s.rx b) ∧
    (∀ (br : BitVec 3) (c : BitVec 2) (e : Entry) (w : Vector (BitVec 512) 16),
      let n := 4 * s.hereCore + c.toNat
      n ≠ s.here → (s.ctx n).occ = .idle → (c = 0 → s.cx.id.klass = 0) → s.canReserve s.hereCluster s.cx.id.klass 1 = true →
      s.taskEntry = some e → s.bindInputs s.hereCluster 0 e.inputs (Vector.replicate 16 0) = some (u, w) → u.cx = s.cx → u.here = s.here →
      ∃ t e', exec (.spawn p br c a) s = .next t ∧ (t.ctx n).occ = .occupied ∧ (t.ctx n).pc = s.rb br ∧ (t.ctx n).w = w ∧
        (t.ctx n).mode = .task ∧ (t.ctx n).id = { s.cx.id with cotask := true, nacc := 0, mown := false } ∧
        (∀ i : Nat, i < 8 → (t.ctx n).getX (BitVec.ofNat 5 (i + 1)) = s.rx (a + BitVec.ofNat 5 i)) ∧ t.cx = s.cx ∧
        t.taskEntry = some e' ∧ e'.members = e.members ++ [n]) ∧
    (∀ (c : BitVec 5) (dim : Bool) (id : Nat),
      let dest : BitVec 8 := (s.rx a).setWidth 8; let n := (s.rx b).toNat; let term := (s.rx c).toNat
      s.peerDim dest = some dim → s.dev.presence.getLsbD dest.toNat = true → 1 ≤ n → n ≤ 16 → 1 ≤ term → term ≤ 1000000 →
      s.freeLeaseId = some id →
      (s.leaseRefusal dim dest n ≠ 0 → exec (.leaseReq p d a b c) s = .next (s.flightBound [.x d]
        [.x d (BitVec.ofNat 64 (8 * 2 ^ 16 + (s.leaseRefusal dim dest n).toNat * 2 ^ 20 + dest.toNat * 2 ^ 24 + term * 2 ^ 32))])) ∧
      (s.leaseRefusal dim dest n = 0 → ∃ t f, exec (.leaseReq p d a b c) s = .next t ∧
        t.fab.leases = s.fab.leases ++ [⟨id, s.cx.id.space, s.cx.id.klass, dest, n, term, .queued, 0, s.cycle, 0, 0, false, []⟩] ∧
        (s.cycle, .leaseHeadGrant dim) ∈ t.agenda ∧ t.cx.flights = s.cx.flights ++ [f] ∧ f.kind = .bound ∧
        f.result = [.x d (BitVec.ofNat 64 (id + 2 ^ 16 + dest.toNat * 2 ^ 24 + term * 2 ^ 32))])) ∧
    (∀ l : Lease, s.leaseOf ((s.rx a).toNat % 256) = some l → l.space = s.cx.id.space →
      exec (.leaseQry p d a) s = .next (s.flightBound [.x d] [.x d (BitVec.ofNat 64 (l.id + 2 ^ 8 * l.channels.length +
        2 ^ 16 * leaseCode l.state + 2 ^ 20 * l.reason.toNat + 2 ^ 24 * l.dest.toNat + 2 ^ 32 * s.leaseRemain l))]) ∧
      (l.state = .active → ∃ t, exec (.leaseRel p a) s = .next t ∧ t.leaseOf l.id = some { l with state := .ending } ∧
        (s.cycle + 2800, .leaseDrained (BitVec.ofNat 8 l.id)) ∈ t.agenda)) ∧
    (∀ (v : BitVec 6) (q : BitVec 3),
      let g := s.gqueue q.toNat; let lanes : BitVec 512 := (s.rv v).extractLsb' 0 512
      (s.moor.fenced = false → g.ctl.getLsbD 0 = true → State.mqBound g s.cx.id.space = true → s.packetFault q lanes = none →
        s.cx.opens = [] → s.coreQueued s.here = [] → (g.tail - g.head).toNat < 256 → ∃ t, exec (.mqpush p v q) s = .next t ∧ (t.gqueue q.toNat).tail = g.tail + 1 ∧
          (t.gqueue q.toNat).head = g.head ∧
          tget {} (t.gqueue q.toNat).packets (g.tail.toNat % 256) = ⟨s.packetOf lanes, s.packetOwner⟩ ∧ t.mem = s.mem) ∧
      exec (.mqstat p d q) s = .next (s.flightBound [.x d] [.x d (BitVec.ofNat 64 (g.tail.toNat % 256 + 2 ^ 8 * (g.head.toNat % 256) +
        2 ^ 16 * (256 - (g.tail - g.head).toNat) + (if State.mqBound g s.cx.id.space then 2 ^ 40 else 0) +
        (if g.ctl.getLsbD 0 then 2 ^ 41 else 0) + (if s.moor.fenced then 2 ^ 42 else 0)))]))

/-! The events of the device's engines. -/

/-- R26 to R28, R30 to R34, R40 to R42, R324 to R326, R342: Lantern's events. A descriptor without maps is accepted into the lowest
free entry and is ready at once, with its finding at the lowest offending field if it has one; a task whose inputs are there and
whose needs fit is pinned and ready; a ready task that fits starts in the context chosen for it, with what it claims; a task ready
for 10 ms is promoted; a class-0 task that fits nowhere takes the one task that frees what it needs, and claims it; a tile that
stays out for longer than VWAIT traps its waiter, and an input's version that does gives its task a trap at entry; a served word
goes on; the last member with nothing open but copies that run on completes the task, with nothing open at all where the
completion is counted (R289), and a co-task that is no member ends without completing it (R30; log 40); a pre-empted member's
context is given up and its record is complete when its results are; a task whose records are complete and whose needs fit is
ready again. Inputs that are all resident are pinned, whether or not the needs fit (R323). INDEX and DETAIL of the fault-log entry of a task that
is dropped are the model's reading (log 25). -/
def Obligations.LanternEvents : Prop :=
  ∀ (cl k : Nat) (s : State),
    (∀ (d : BitVec 512) (a : Dbl) (g : Option NodeRef) (u : State), u = s.entryReady (dSpace d) → u.freeEntry cl = some k →
      u.spaceValid (dSpace d) = true → dNmap d = 0 →
      (u.descFault d = none → u.needsFit cl (dClass d) (taskIdOf cl k) (dMown d) = true ∧
        (u.placeWindow cl (dClass d) (dScratch d)).isSome = true) →
      (∀ n e, (n, e) ∈ (u.cluster cl).entries → e.state ≠ .pending) →
      ∃ t e, exec (.lanternAccept cl d a g) s = .next t ∧ t.entry cl k = some e ∧ e.desc = d ∧ e.addr = a ∧ e.graph = g ∧
        e.state = .ready ∧ e.inputs = [] ∧ e.readyAt = s.cycle ∧ (s.cycle, .taskDispatch cl) ∈ t.agenda ∧
        (dClass d ≠ 0 → (s.cycle + 14000000, .classAgeing cl k) ∈ t.agenda) ∧
        e.fault = (u.descFault d).map fun b => ⟨0xA1, BitVec.ofNat 64 b, 0, 0, 0⟩) ∧
    (∀ (d : BitVec 512) (a : Dbl) (g : Option NodeRef) (u : State), u = s.entryReady (dSpace d) → u.spaceValid (dSpace d) = false →
      exec (.lanternAccept cl d a g) s = .next (u.log (cl / 16) 3 (cl % 16) (dSpace d) 0xA1 0 a 0)) ∧
    (∀ (e : Entry) (m : Nat) (u : State), s.entry cl k = some e → e.state = .pending → e.hold = false → e.fault = none →
      s.requestOrder cl = [k] → e.pinned = false →
      (∀ i ∈ e.inputs, i.requested = true ∧ i.resident = true ∧ State.isPublished (s.slot cl i.slot).state = true ∧
        (s.slot cl i.slot).tile = i.tile ∧ (s.slot cl i.slot).version = i.version) →
      s.pinAll cl (e.inputs.map Input.slot) = some u →
      let fits := u.needsFit cl (dClass e.desc) (taskIdOf cl k) (dMown e.desc) &&
        (u.placeWindow cl (dClass e.desc) (dScratch e.desc)).isSome
      ∃ t, exec (.inputArrival cl k m) s = .next t ∧
        (fits = true → t.entry cl k = some { e with pinned := true, state := .ready, readyAt := u.cycle, aged := false } ∧
          (u.cycle, .taskDispatch cl) ∈ t.agenda) ∧
        (fits = false → t.entry cl k = some { e with pinned := true } ∧ (u.cycle + 16, .inputArrival cl k 0) ∈ t.agenda)) ∧
    (∀ (e : Entry) (c base nacc bytes : Nat) (mown : Bool) (v : State) (w : Vector (BitVec 512) 16), s.ranked cl = [(k, e)] →
      (s.cluster cl).dispatched ≠ some s.cycle → e.saved = [] → e.fault = none → e.prey = [] →
      State.descClaim e.desc = (nacc, mown, bytes) → s.canReserve cl (dClass e.desc) 1 = true →
      s.choose cl (dClass e.desc) (taskIdOf cl k) nacc mown [] [] = some c →
      s.placeWindow cl (dClass e.desc) bytes = some base →
      s.bindInputs cl 0 e.inputs (Vector.replicate 16 0) = some (v, w) →
      ∃ t x, exec (.taskDispatch cl) s = .next t ∧ t.ctx c = x ∧ x.occ = .occupied ∧ x.mode = .task ∧ x.pc = dEntry e.desc ∧ x.w = w ∧
        x.getX 1 = (dArgs e.desc).setWidth 64 ∧ x.getX 2 = dCoord e.desc ∧ x.getX 3 = (dDest e.desc).setWidth 64 ∧
        x.id.taskid = taskIdOf cl k ∧ x.id.space = dSpace e.desc ∧ x.id.klass = dClass e.desc ∧ x.id.scratchBase = base ∧
        x.id.nacc = nacc ∧ x.id.mown = mown ∧ x.id.scratchLen = bytes ∧ (t.cluster cl).dispatched = some v.cycle ∧
        t.entry cl k = some { e with
          state := .running, members := [c], scratchBase := base, started := bytes != 0, dispatchedAt := v.cycle,
          pinned := false, claim := some (c / 4, nacc, mown) }) ∧
    (∀ e : Entry, s.entry cl k = some e → e.state = .ready → dClass e.desc ≠ 0 → 14000000 ≤ s.cycle - e.readyAt →
      exec (.classAgeing cl k) s = .next (s.setEntry cl k { e with aged := true })) ∧
    (∀ (e y : Entry) (v c nacc bytes : Nat) (mown : Bool),
      let core := c / 4; let id := taskIdOf cl k
      let fits := fun l : List Nat => (State.clusterCtxs cl).any fun i => i / 4 == core && s.fits i 0 id nacc mown l
      s.entry cl k = some e → e.state = .ready → dClass e.desc = 0 → e.prey = [] → e.saved = [] →
      State.descClaim e.desc = (nacc, mown, bytes) → (s.placeWindow cl 0 bytes).isSome = true →
      s.choose cl 0 id nacc mown (s.lowContexts cl) [] = some c →
      ((s.cluster cl).entries.filter fun (_, x) => x.state == .running && dClass x.desc != 0 && x.members.any (· / 4 == core)) = [(v, y)] →
      s.entry cl v = some y → fits [] = false → fits y.members = true →
      ∃ t, exec (.class0PreemptDecision cl k) s = .next t ∧ (s.cycle, .preemption cl v) ∈ t.agenda ∧
        t.entry cl k = some { e with prey := y.members.filter (· / 4 == core), claim := some (core, nacc, mown) }) ∧
    (∀ (c t0 : Nat) (r : TileReq), (s.ctx c).parked = some r → (s.ctx c).waitSince = some t0 → (s.ctx c).served = none →
      (s.ctx c).fault = none → s.vwaitCycles (s.ctx c).id.space < s.cycle - t0 →
      ∃ t, exec (.versionWaitTimeout (.ctx c)) s = .next t ∧
        t.ctx c = { s.ctx c with fault := some { cause := 0x43 }, timedOut := true } ∧ (s.cycle, .parkedTaskResume c) ∈ t.agenda) ∧
    (∀ (e : Entry) (m : Nat) (i : Input), s.entry cl k = some e → e.state = .pending → e.inputs[m]? = some i → i.requested = true →
      i.resident = false → e.fault = none → s.vwaitCycles i.tile.space < s.cycle - e.acceptedAt →
      exec (.versionWaitTimeout (.input cl k m)) s = .next (
        if s.awaitsVersion ⟨i.tile, i.want, .input cl k m, cl⟩ then
          (s.setEntry cl k { e with fault := some { cause := 0x43, i0 := BitVec.ofNat 64 m } }).later 0 (.inputArrival cl k m)
        else s.later 64 (.versionWaitTimeout (.input cl k m)))) ∧
    (∀ c : Nat, (s.ctx c).served ≠ none ∨ (s.ctx c).fault ≠ none →
      exec (.parkedTaskResume c) s = .next (s.setCtx c { s.ctx c with waitSince := none })) ∧
    (∀ (c : Nat) (e : Entry), c / 64 = cl → (s.ctx c).id.taskid.toNat % 2048 = k → (s.ctx c).ending = true → (s.ctx c).flights = [] →
      (∀ o ∈ (s.ctx c).opens, ∃ j ∈ (s.cluster cl).copies, j.id = o.id) → s.coreQueued c = [] → (s.ctx c).parked = none → (s.ctx c).opening = none → (s.ctx c).entryTrap = false → s.entry cl k = some e →
      e.members = [c] → dDone e.desc = 0 → (∀ n e', (n, e') ∈ (s.cluster cl).entries → c ∉ e'.prey) →
      ∃ t, exec (.memberEnd c) s = .next t ∧ (t.ctx c).occ = .idle ∧ t.entry cl k = none) ∧
    (∀ (c : Nat) (e : Entry), c / 64 = cl → (s.ctx c).id.taskid.toNat % 2048 = k → (s.ctx c).ending = true → s.entry cl k = some e →
      (e.members = [c] → dDone e.desc ≠ 0 → (s.ctx c).entryTrap = false → (s.ctx c).opens ≠ [] →
        exec (.memberEnd c) s = .next (s.later 1 (.memberEnd c))) ∧
      (c ∉ e.members → (s.ctx c).flights = [] → (s.ctx c).opens = [] → s.coreQueued c = [] →
        exec (.memberEnd c) s = .next (s.endContext c))) ∧
    (∀ (c r : Nat) (e : Entry), c / 64 = cl → s.entry cl k = some e → e.state = .running → e.members = [c] → (s.ctx c).ending = false →
      (s.ctx c).parked = none → (s.ctx c).opening = none → (s.ctx c).flights = [] → s.freeRecords cl 1 (dClass e.desc) = some [r] →
      ∃ t e' y, exec (.preemption cl k) s = .next t ∧ t.entry cl k = some e' ∧ e'.state = .preempted ∧ e'.members = [] ∧
        e'.saved = e.saved ++ [y] ∧ y.record = r ∧ y.left = c ∧ (t.ctx c).occ ≠ .occupied ∧ ∃ n, (n, .saveRecordComplete cl k) ∈ t.agenda) ∧
    (∀ e : Entry, s.entry cl k = some e → e.state = .preempted → s.savedDone e = true →
      (e.hold = true → exec (.saveRecordComplete cl k) s = .next (e.saved.foldl (fun s y => s.writeRecord cl y) s)) ∧
      (e.hold = false → e.retained = [] →
        exec (.saveRecordComplete cl k) s = .next ((e.saved.foldl (fun s y => s.writeRecord cl y) s).later 0 (.taskResume cl k)) ∧
        ((∀ y ∈ e.saved, s.needsFit cl (dClass e.desc) (taskIdOf cl k) y.cx.id.mown = true) →
          let u := s.setEntry cl k { e with state := .ready, readyAt := s.cycle, aged := false }
          exec (.taskResume cl k) s = .next ((if dClass e.desc = 0 then u else u.later 14000000 (.classAgeing cl k)).dispatchOne cl))))

/-- R191 to R198, R203 to R209, R216: Loam's events. A queued allocation takes the way it is given, for the equal requests queued
behind it too (R192); one that has waited 4,096 cycles fails its bind with LOAM_PIN_OVERFLOW; the home turns a request into a fill
of its version, or makes it wait with a doubling back-off when the awaiting list is full, without the requests of itineraries
(R205); a request for the latest version asks for at least the P that it finds at the home; a fill lands the converted block; a
holder's slot is copied unless it is being evicted, and an absent holder is forgotten; `snew` is granted the next version or
conflicts, and a request of an `snew` that was withdrawn has no effect; a publish makes its version P; an abandon frees
the open version; a write-back above M is merged and becomes M; a conversion with a pin left fails after 65,536 cycles; an empty
way is gated and wakes; an itinerary with fewer than 16 entries in flight prefetches its tile and goes on to the next entry, or
ends with its last. -/
def Obligations.LoamEvents : Prop :=
  ∀ (cl : Nat) (s u : State),
    (∀ (slice w : Nat) (a : AllocWait) (l : List AllocWait), (s.cluster cl).allocs = a :: l → a.slice = slice → a.openV = false →
      a.way = none → a.req.cluster = cl → State.onlyHint a.req.user = false →
      (∀ b ∈ l, State.sameAlloc a b = true ∧ b.id ≠ a.id ∧ b.slice = slice ∧ b.way = none ∧ State.onlyHint b.req.user = false) →
      s.fillingFor a.req = none → s.localHit cl a.req.tile a.req.want = none → s.allocate cl slice a.set a.klass = (u, .got w) →
      (u.cluster cl).allocs = (s.cluster cl).allocs →
      ∃ t, exec (.loamAllocation cl slice) s = .next t ∧ (u.cycle, .homeTileRequest a.req) ∈ t.agenda ∧ (t.cluster cl).allocs = [] ∧
        t.slot cl (128 * slice + 8 * w + a.set) =
          { state := .filling, tile := a.req.tile, klass := a.klass, users := a.req :: l.map AllocWait.req }) ∧
    (∀ (c : Nat) (a : AllocWait), (s.cluster cl).allocs.find? (·.id == a.id) = some a → a.openV = false → a.req.user = .ctx c →
      (s.ctx c).parked = some a.req → s.fillingFor a.req = none → s.localHit cl a.req.tile a.req.want = none →
      ∃ t, exec (.allocationTimeout cl a.id) s = .next t ∧ (t.ctx c).fault = some { cause := 0x46, i0 := 2 } ∧
        (s.cycle, .parkedTaskResume c) ∈ t.agenda ∧ a ∉ (t.cluster cl).allocs) ∧
    (∀ (r : TileReq) (key wait : Nat) (tn : Tensor), s.fillingFor r = some key →
      s.slotAway r.cluster key .fill = (u, .ok (none, tn)) →
      let p := (u.verOf r.tile).p
      let v := (u.arrivedAt r key p).1
      let q : TileReq := if r.want = .latest then { r with want := .atLeast p } else r
      let x := v.slot r.cluster key
      (∀ n, v.resolve r.tile q.want r.cluster = .fill n →
        let next := (v.setSlot r.cluster key { x with version := n }).later 0 (.tileFill r.cluster key)
        exec (.homeTileRequest r) s = .next next ∧ exec (.awaitListRetry r wait) s = .next next) ∧
      (v.resolve r.tile q.want r.cluster = .await →
        let w := v.skipHints r.cluster key
        ((w.slot r.cluster key).users = [] → exec (.awaitListRetry r wait) s = .next w) ∧
        ((w.slot r.cluster key).users ≠ [] → 64 ≤ (w.homes.awaiting.filter (·.1 == w.tileChannel r.cluster r.tile)).length →
          exec (.awaitListRetry r wait) s = .next (w.later wait (.awaitListRetry q (min 16384 (2 * wait))))))) ∧
    (∀ (slot : Nat) (r : TileReq) (rest : List TileReq) (tn : Tensor) (v z : State) (pg : Table State.Xlat) (b : Block)
        (sc : BitVec 128),
      let x0 := s.slot cl slot; let x := u.slot cl slot; let y := v.slot cl slot; let vas := State.tileVas tn x.tile.coord
      x0.state = .filling → x0.users = r :: rest → x0.keys = [] → s.yields x0 cl = false → s.slotAway cl slot .fill = (u, .ok (none, tn)) →
      (u.verOf x.tile).m = x.version → u.merging x.tile = false →
      u.mapPages cl x.tile.space .fill vas [] = (v, .ok pg) → v.tileBlocked pg tn y.tile false = none → y = x →
      v.awayLines pg vas = [] → y.lineFail = none →
      v.fillData cl tn y.tile y.version y.lines = (z, .ok (b, sc)) →
      exec (.tileFill cl slot) s = .next (z.landSlot cl slot y.version b sc)) ∧
    (∀ (r : TileReq) (key holder : Nat) (v : BitVec 32), s.fillingFor r = some key → holder < 1000 →
      (∀ j, s.localHit holder r.tile (.exactly v) = some j →
        (State.evicting (s.slot holder j) = false →
          exec (.tileForward r holder v) s = .next (s.landSlot r.cluster key v (s.slot holder j).data (s.slot holder j).scale)) ∧
        (State.evicting (s.slot holder j) = true → State.evicting ((s.mergeSlot holder j).slot holder j) = true →
          exec (.tileForward r holder v) s = .next ((s.mergeSlot holder j).later 1 (.tileForward r holder v)))) ∧
      (s.localHit holder r.tile (.exactly v) = none →
        exec (.tileForward r holder v) s = .next ((s.dropHolder r.tile holder).later 0 (.homeTileRequest r)))) ∧
    (∀ (c : Nat) (tile : TileId) (n : BitVec 32) (b : Bool), (∀ o, (s.ctx c).opening = some o → o.tile ≠ tile ∨ o.granted ≠ none) →
      exec (.snewAtHome c tile n b) s = .next s) ∧
    (∀ (c : Nat) (tile : TileId) (n : BitVec 32) (tn : Tensor) (o : Opening), (s.ctx c).opening = some o → o.tile = tile →
      o.granted = none → s.tileAway (c / 64) tile = (u, .ok (none, tn)) →
      let e := u.verOf tile
      (e.openV = none → e.p ≠ BitVec.allOnes 32 → exec (.snewAtHome c tile n true) s =
        .next ((u.setVer tile { e with openV := some (e.p + 1, c / 64) }).grantOpen c (e.p + 1))) ∧
      (e.openV = none → e.p.toNat < n.toNat → exec (.snewAtHome c tile n false) s =
        .next ((u.setVer tile { e with openV := some (n, c / 64) }).grantOpen c n)) ∧
      (n.toNat ≤ e.p.toNat → exec (.snewAtHome c tile n false) s = .next (u.setCtx c { s.ctx c with
        opening := none, fault := some { cause := 0x42, i1 := n.setWidth 64, i2 := e.p.setWidth 64 } }))) ∧
    (∀ (tile : TileId) (v : BitVec 32) (tn : Tensor), s.tileAway cl tile = (u, .ok (none, tn)) → u.homes.awaiting = [] →
      ∃ t, exec (.publishAtHome tile v cl) s = .next t ∧ t.mem = u.mem ∧ (∀ o ∈ t.cx.opens, o.pub ≠ some (tile, v)) ∧
        t.verOf tile = { p := v, m := (u.verOf tile).m, openV := none, owner := some cl, holders := [], lostPeer := false }) ∧
    (∀ (tile : TileId) (v : BitVec 32) (h : Nat) (tn : Tensor), s.tileAway 0 tile = (u, .ok (none, tn)) →
      (u.verOf tile).openV = some (v, h) →
      exec (.abandonAtHome tile v) s = .next (u.setVer tile { u.verOf tile with openV := none })) ∧
    (∀ (slot : Nat) (tn : Tensor) (v z : State) (pg : Table State.Xlat),
      let x0 := s.slot cl slot; let x := u.slot cl slot; let y := v.slot cl slot; let vas := State.tileVas tn x.tile.coord
      let w := v.setSlot cl slot { y with puts := some 0 }
      x0.state = .writeback → x0.puts = none → x0.keys = [] → (∀ f ∈ s.fab.txns, f.use_ ≠ .tileWrite cl slot) →
      s.publishing x0.tile (some x0.version) = false → s.slotAway cl slot .writeback = (u, .ok (none, tn)) →
      (x.version.toNat ≤ (u.verOf x.tile).m.toNat → exec (.tileWritebackMerge cl slot) s = .next (u.endWriteback cl slot .clean)) ∧
      ((u.verOf x.tile).m.toNat < x.version.toNat → u.mapPages cl x.tile.space .writeback vas [] = (v, .ok pg) → x.puts = none →
        v.merging x.tile = false → v.fillGoing x.tile = false → y = x → x.lineFail = none → x.home = none →
        v.tileBlocked pg tn x.tile true = none → w.tileBlocked pg tn x.tile true = none →
        v.awayMerges pg tn x.tile x.data x.scale = [] → vas.findSome? (v.unwritable pg) = none →
        w.writeMapped pg tn x.tile x.data x.scale = (z, none) →
        ∃ t, exec (.tileWritebackMerge cl slot) s = .next t ∧ t.mem = z.mem ∧ (t.slot cl slot).state = .clean ∧
          (t.verOf x.tile).m = x.version)) ∧
    (∀ v : WayConv, (s.cluster cl).conv = some v → 65536 ≤ s.cycle - v.since →
      ((∃ k ∈ State.waySlots (s.cluster cl).converted v.n, (s.slot cl k).pins ≠ 0) →
        exec (.wayconvPinTimeout cl) s = .next (s.setCluster cl { s.cluster cl with conv := some { v with failed := true } })) ∧
      ((∀ k ∈ State.waySlots (s.cluster cl).converted v.n, (s.slot cl k).pins = 0) →
        exec (.wayconvPinTimeout cl) s = .next (s.later 64 (.wayconvPinTimeout cl)))) ∧
    (∀ slice way : Nat,
      let c := s.cluster cl; let n := 16 * slice + way
      (slice < 16 → way < 16 - c.converted → n ∉ c.gated →
        (∀ set : Nat, set < 8 → (s.slot cl (128 * slice + 8 * way + set)).state = .invalid ∧ (s.slot cl (128 * slice + 8 * way + set)).pins = 0) →
        exec (.wayGate cl slice way) s = .next (s.setCluster cl { c with gated := n :: c.gated })) ∧
      (∃ t, exec (.wayWake cl slice way) s = .next t ∧ n ∉ (t.cluster cl).gated ∧ n ∉ (t.cluster cl).waking ∧ t.mem = s.mem)) ∧
    (∀ (it : Itinerary) (v : Nat) (u2 : State) (tn : Tensor),
      let t : TileId := ⟨it.space, BitVec.ofNat 20 (v / 2 ^ 96), BitVec.ofNat 64 v⟩
      let want : Want := if (v / 2 ^ 116) % 2 == 1 then .atLeast (BitVec.ofNat 32 (v / 2 ^ 64)) else .latest
      let w := u2.requestTile ⟨t, want, .prefetch cl it.id, cl⟩ it.klass
      (s.cluster cl).itineraries.find? (·.id == it.id) = some it → s.walking cl it.id < 16 →
      s.readVa cl it.space it.va 16 .read = (u, .ok v) →
      u.tensor cl it.space t.tensor = (u2, .ok (some tn)) → tn.coordOk t.coord = true → u2.localHit cl t want = none →
      ((v / 2 ^ 117) % 2 = 1 → exec (.itineraryEntry cl it.id) s = .next (w.setCluster cl
        { w.cluster cl with itineraries := (w.cluster cl).itineraries.filter (·.id != it.id) })) ∧
      ((v / 2 ^ 117) % 2 = 0 → ∃ x, exec (.itineraryEntry cl it.id) s = .next x ∧ (w.cycle, .itineraryEntry cl it.id) ∈ x.agenda ∧
        (x.cluster cl).itineraries = (w.cluster cl).itineraries.map fun (i : Itinerary) =>
          if i.id == it.id then { i with va := i.va + 16 } else i))

/-- R302 to R308, R310 to R314, R319: Beacon's events on a ready node whose entry in memory is n. A launch writes its counter,
then hands one descriptor for each coordinate, whether or not its node has finished by then, and the node finishes when its
watch is met; if, while and switch choose by their condition word; a signal adds its tokens and a wait takes one; a call opens a
level; the END of the first level completes the instance once the level is over, and waits till then; a node without an entry
for 2 ms fails the instance, which is freed once the tasks it has created are over (log 16, as is which event frees it). A
doorbell sets QTAIL, and each command of a queue has its effect and is left behind; a rejected entry has none but its log entry
and REJECTS. A waiting take is tried again, and a listed one is served when the word gives. Where a command's descriptor is read
is the model's reading (log 17). -/
def Obligations.BeaconEvents : Prop :=
  (∀ (b : NodeRef) (i : Instance) (x : LiveNode) (n : BitVec 512) (s u : State),
    s.instOf b = some i → s.liveNode b = some x → x.ready = true → s.readNode b i.space = (u, .ok n) →
    (nType n = 1 →
      (x.count = 0 → x.cond = none → ∀ (v : State) (o : Nat), u.launchCounter b i n = (v, .done o) →
        (s.die b.die).expansions.find? (fun y => y.node == b) = none →
        exec (.launchNode b) s = .next (((v.mapNode b fun y => { y with count := 1 }).putExpansion ⟨b, i.space, i.klass, 0⟩).later
          0 (.launchNode b))) ∧
      (x.finished = false → x.count ≠ 0 → b.die < 4 → exec (.launchWatchMet b) s = .next (u.finishAll b i.space n))) ∧
    (∀ (c : Nat) (v : State), x.finished = false → u.condition b i x n = (v, .done c) →
      (nType n = 2 → exec (.ifNode b) s = .next (v.finishTo b [if c ≠ 0 then nS0 n else nS1 n])) ∧
      (nType n = 3 → c = 0 → exec (.whileNode b) s = .next (v.finishAll b i.space n)) ∧
      (nType n = 3 → c ≠ 0 → x.count < (if nX32 n = 0 then 2 ^ 32 else nX32 n) →
        exec (.whileNode b) s = .next ((v.mapNode b fun y => { y with count := x.count + 1 }).openLevel b (nB n))) ∧
      (nType n = 4 → ∀ (a : Nat) (v1 : State),
        v.readVa (16 * b.die) i.space (nSlist n + BitVec.ofNat 64 (8 * min c (nList n - 1))) 8 .read = (v1, .ok a) →
        exec (.switchNode b) s = .next (v1.finishTo b [BitVec.ofNat 64 (a % 2 ^ 56)]))) ∧
    (∀ (g : State.Xlat) (v : State), x.finished = false → x.count = 0 → u.translate none (16 * b.die) i.space (nA n) .atomic = (v, .ok g) →
      v.ownDevice g.gpa = true →
      (nType n = 5 → ∀ (old : Nat) (w : State), v.tokenAdd none (v.pageOf i.space g.leaf) g.gpa (max 1 (nX32 n)) = (w, .done old) →
        exec (.signalNode b) s = .next (w.finishAll b i.space n)) ∧
      (nType n = 6 →
        let w := v.mapNode b fun y => { y with count := 3 }
        exec (.waitNode b) s = .next (({ w with tick := w.tick + 1 } : State).tokenArrive
          ⟨w.tick, g.gpa, i.space, g.leaf.extractLsb' 8 8, g.leaf.getLsbD 4, .node b, false⟩ 256))) ∧
    (nType n = 6 → x.finished = false → x.count = 1 → exec (.waitNode b) s = .next (u.finishAll b i.space n)) ∧
    (nType n = 7 → x.finished = false → x.count = 0 →
      exec (.callNode b) s = .next ((u.mapNode b fun y => { y with count := 1 }).openLevel b (nB n))) ∧
    (∀ l : Level, nType n = 8 →
      let u1 := u.mapNode b fun y => { y with atEnd := true }
      let l1 : Level := { l with ending := some (l.ending.getD b.addr) }
      let u2 := u1.setLevel b l1
      u1.levelOf b = some l →
      (u2.levelOver b l1 = false → exec (.endNode b) s = .next u2) ∧
      (u2.levelOver b l1 = true → l.opener = none → i.done = 0 → (u.die b.die).instances = [i] → i.failed = false → i.id = b.inst →
        (∀ f ∈ u.fab.txns, ∀ d m sp, f.use_ ≠ .graphDone d m sp) →
        ∃ t, exec (.endNode b) s = .next t ∧ (t.die b.die).instances = [] ∧ t.mem = u.mem))) ∧
  (∀ (b : NodeRef) (e : Expansion) (n : BitVec 512) (s u : State),
    (s.die b.die).expansions.find? (fun y => y.node == b) = some e → s.readNode b e.space = (u, .ok n) →
    (nBox n ≤ e.next → exec (.launchNode b) s = .next (u.dropExpansion b)) ∧
    (e.next < nBox n → ∀ (m cl : Nat) (u1 u2 v : State),
      let d := State.launchDesc (BitVec.ofNat 512 m) n e.space e.klass e.next
      u.readVa (16 * b.die) e.space (nA n) 64 .read = (u1, .ok m) → u1.place b.die (nB n) (nPlace n == 1) d = (u2, cl) →
      u2.handDescriptor cl d (nA n) (some b) = some v →
      exec (.launchNode b) s = .next ((v.putExpansion { e with next := e.next + 1 }).later 0 (.launchNode b)))) ∧
  (∀ (template n : BitVec 512) (sp : BitVec 6) (kl : BitVec 2) (k : Nat),
    let d := State.launchDesc template n sp kl k
    dCoord d = boxCoord n k ∧ dSpace d = sp ∧ (dClass d).toNat = max (dClass template).toNat kl.toNat ∧
    dDone d = (nCnt n).setWidth 56 ∧ dEntry d = dEntry template ∧ dArgs d = dArgs template ∧ dNmap d = dNmap template ∧
    dMaps d = dMaps template ∧ dDest d = dDest template) ∧
  (∀ (b : NodeRef) (i : Instance) (s : State), (s.die b.die).instances = [i] → i.id = b.inst →
    (i.failed = true → s.queuedNodes b.die = [] →
      (s.tasksLeft b = true → exec (.liveNodeTimeout b) s = .next (s.later 64 (.liveNodeTimeout b))) ∧
      (s.tasksLeft b = false → i.done = 0 → (∀ f ∈ s.fab.txns, ∀ d m sp, f.use_ ≠ .graphDone d m sp) →
        ∃ t, exec (.liveNodeTimeout b) s = .next t ∧ (t.die b.die).instances = [] ∧ t.mem = s.mem)) ∧
    (∀ x : LiveNode, i.failed = false → s.liveNode b = some x → x.queued = true → 4096 ≤ s.liveNodes b.die →
      exec (.liveNodeTimeout b) s = .next (s.failInstance b 5))) ∧
  (∀ (q : BitVec 6) (s : State),
    let x := s.queue q.toNat; let e := (s.queueHead q.toNat).2; let die := State.qDie x; let addr := State.cAddr e
    let d := ((s.queueHead q.toNat).1.cTask e).2
    let w := ((((s.queueHead q.toNat).1.cTask e).1).entryReady (State.cSpace e)).entryReady (dSpace d)
    (∀ tail : BitVec 32, (x.qhead ≠ x.qtail → exec (.qtailDoorbell q tail) s = .next (s.setQueue q.toNat { x with qtail := tail })) ∧
      (x.qhead = x.qtail →
        exec (.qtailDoorbell q tail) s = .next ((s.setQueue q.toNat { x with qtail := tail }).kickQueue q))) ∧
    (State.qEnabled x = true → x.qhead ≠ x.qtail → w.cBad q.toNat e d = true →
      (State.cOp e = 2 → exec (.cmdTask q) s = .next (w.rejectEntry q e)) ∧
      (State.cOp e = 3 → exec (.cmdSignal q) s = .next (w.rejectEntry q e)) ∧
      (State.cOp e ≠ 2 → State.cOp e ≠ 3 → exec (.cmdStart q) s = .next (w.rejectEntry q e))) ∧
    (∃ r, (s.rejectEntry q e) = ((s.log die 4 die (State.cSpace e) 0xA3 (q.setWidth 64) (x.qhead.setWidth 64) 0).setQueue q.toNat r).nextEntry q ∧
      r = { x with rejects := r.rejects } ∧ r.rejects.toNat = min 65535 (x.rejects.toNat + 1)) ∧
    (State.qEnabled x = true → x.qhead ≠ x.qtail → w.cBad q.toNat e d = false →
      (∀ u, State.cOp e = 1 → w.startInstance die (State.cSpace e) (State.qClass x) addr (State.cDone e) = (u, true) →
        exec (.cmdStart q) s = .next (u.nextEntry q)) ∧
      (∀ (u v : State) (cl : Nat), State.cOp e = 2 → w.place die (e.extractLsb' 192 64) false d = (u, cl) →
        u.handDescriptor cl d addr none = some v → exec (.cmdTask q) s = .next (v.nextEntry q)) ∧
      (∀ (u v : State) (g : State.Xlat) (old : Nat), State.cOp e = 3 → w.translate none (16 * die) (State.cSpace e) addr .atomic = (u, .ok g) →
        u.ownDevice g.gpa = true →
        u.tokenAdd none (u.pageOf (State.cSpace e) g.leaf) g.gpa (max 1 (e.extractLsb' 32 32).toNat) = (v, .done old) →
        exec (.cmdSignal q) s = .next (v.nextEntry q)))) ∧
  (∀ (w : TokenWait) (wait : Nat) (s : State), s.homes.tokens = [w] →
    (w.listed = false →
      exec (.tokenWaitRetry w.id wait) s = .next (({ s with homes := { s.homes with tokens := [] } } : State).tokenArrive w wait)) ∧
    (∀ (b : NodeRef) (u : State) (v : Nat), w.listed = true → w.user = .node b → s.tokenTry w = (u, some (.done v)) →
      u.homes.tokens = [w] → exec (.tokenReexamine w.gpa) s =
        .next ((({ u with homes := { u.homes with tokens := [] } } : State).mapNode b fun n => { n with count := 1 }).later 0 (.waitNode b))))

/-- R254, R318 to R320, R357 to R363, R374 to R381, R384 to R387, R390, R439: the fabric's events. A transaction of the device that
comes in turn, for no duplicate and with nothing waiting at home, is performed as its type says and answered with a completion
that its source's duplicate window keeps; a duplicate is answered from the window; one of a lost device is discarded; one for
another device is passed on. What each type does at home: RD and RDL answer with the bytes or the line, a locking RDL locks it;
WR and WRM write the bytes or the masked bytes, the unlocking WRM unlocks; AMO answers with the old value and writes the new;
RSTF writes the lanes and adds one to its flag; GREQ grants or waits, GREV gives up the grant and sends GACK, GACK lets the home
grant; MLOCK locks and compares, MCOMMIT writes if told, unlocks and keeps the decision, MQUERY asks for it, MDEC is only
acknowledged; TREQ resolves, opens, publishes and abandons a version, TWB takes a tile's parts and sets M; TOK adds, takes, lists
and withdraws. A completion ends its transaction; a heartbeat only marks the link, and goes out on a channel that has
sent nothing for 500 ns; a flit of an undefined type, a replay and a retrain are counted, and the sixteenth replay of a flit
retrains its channel; a transaction without an answer is sent again after 50 µs, while a route is left, and ends after 200 µs, its
tag waiting for the completion; a channel that failed three retrains is spared out and a pool channel takes its place; a discarded
flit is gone; a silent peer is declared dead and a death notice fences its device and is flooded; a join notice of a later epoch
unfences it. The coding of the payloads is the model's (log 15), so is the peer whose link a flit came by and that FLIT_BAD_TYPE
counts for (log 35), and that a channel keeps training after a failed retrain (log 18). -/
def Obligations.FabricEvents : Prop :=
  (∀ (f : Flit) (s : State),
    let d := f.src.toNat; let u := s.credit f
    let kinds : List (BitVec 8 × Bool × Instr) := [(0x01, false, .rd f), (0x02, f.inl.toNat % 4 == 1, .rdl f),
        (0x03, true, .wr f), (0x04, true, .wrm f), (0x05, true, .fabricAmo f), (0x06, true, .fabricRstf f), (0x08, true, .greq f),
        (0x09, true, .grev f), (0x0A, true, .gack f), (0x0C, true, .mlock f), (0x0D, true, .mdec f), (0x0E, true, .mcommit f),
        (0x0F, true, .mquery f), (0x10, false, .treq f), (0x11, true, .twbTxn f), (0x12, true, .tok f)]
    s.dev.fabEn = true → s.fab.fencedSelf = false →
    (∀ (type : BitVec 8) (ord : Bool) (i : Instr), (type, ord, i) ∈ kinds →
      let g : Flit := { f with type := type, ord := ord }; let w := s.credit g
      (s.deviceLost f.src = true → exec i s = .next w) ∧
      (s.deviceLost f.src = false → f.dst ≠ s.dev.devid → exec i s = .next (w.emit g)) ∧
      (s.deviceLost f.src = false → f.dst = s.dev.devid →
        (∀ c, (ord = true → w.passed g = true) → w.answered g = some c → exec i s = .next (w.answerAgain c).pump) ∧
        (∀ v : State, s.homes.held = [] → (s.peer d).window = [] → (s.peer d).early = [] →
          (ord = true → f.seq = (s.peer d).expectSeq) →
          (if ord then w.setPeer d { w.peer d with expectSeq := (w.peer d).expectSeq + 1 } else w).takeFlit g = (v, true) →
          v.homes.held = [] → (v.peer d).early = [] → exec i s = .next v))) ∧
    (s.deviceLost f.src = false → f.dst = s.dev.devid → s.homes.held = [] →
      (∀ n : Nat, (s.peer d).window = [] → (s.peer d).early = [] → f.aux.toNat % 16 = n → 1 ≤ n → n ≤ 8 → f.gpa.toNat % 128 + n ≤ 128 → f.key = 0 →
        s.quietLine ⟨f.gpa.toNat, 0⟩ → s.linkUp f.src = true →
        (∃ t c, exec (.rd f) s = .next t ∧ t.fab.outbox = s.fab.outbox ++ [c] ∧ c.type = 0x20 ∧ c.dst = f.src ∧ c.tag = f.tag ∧
          c.inl = BitVec.ofNat 256 (s.bytes f.gpa.toNat n) ∧ t.mem = s.mem) ∧
        (f.seq = (s.peer d).expectSeq → Memory.wf s.mem = true → ∃ t c, exec (.wr f) s = .next t ∧ t.fab.outbox = s.fab.outbox ++ [c] ∧
          c.type = 0x20 ∧ c.tag = f.tag ∧ c.inl = 0 ∧ t.bytes f.gpa.toNat n = f.inl.toNat % 2 ^ (8 * n) ∧
          ∀ q, q < f.gpa.toNat ∨ f.gpa.toNat + n ≤ q → t.byte q = s.byte q)) ∧
      (∀ x : Txn, (s.fab.txns.find? fun (y : Txn) => y.flit.dst == f.src && y.flit.tag == f.tag && 0 < y.sends) = some x →
        (x.use_ = .plain → exec (.cpl f) s = .next (u.dropTxn x)) ∧
        (∀ c access va header, x.use_ = .store c access va header → f.inl.toNat / 2 ^ 248 = 0 →
          exec (.cpl f) s = .next ((u.dropTxn x).closeAccess access)))) ∧
    (s.deviceLost f.src = false → f.dst = s.dev.devid → (s.peerDim f.src).isSome = true →
      exec (.hb f) s = .next (s.setPeer d { s.peer d with lastFlit := s.cycle }))) ∧
  (∀ (f : Flit) (s : State),
    let a := f.gpa.toNat; let l := a / 128; let page := a / 65536; let op := State.inlAt f 64 64
    let is := fun ty : BitVec 8 => ({ f with type := ty } : Flit)
    let ends := fun (ty : BitVec 8) (t : State) (P : Flit → Prop) => s.takeFlit (is ty) = (t, true) ∧
      ∃ c, (f.tag.toNat, s.cycle, ({ is ty with data := 0 } : Flit), c) ∈ (t.peer f.src.toNat).window ∧ c.type = 0x20 ∧ c.dst = f.src ∧
        c.tag = f.tag ∧ P c
    let gives := fun (n : Nat) (c : Flit) => c.inl = BitVec.ofNat 256 n
    let outside := fun (t : State) (lo n : Nat) => ∀ q, q < lo ∨ lo + n ≤ q → t.byte q = s.byte q
    s.homes.held = [] → Memory.wf s.mem = true → f.key = 0 →
    (s.quietLine ⟨a, 0⟩ →
      (∃ t, ends 0x02 t (fun c => c.inl = 0 ∧ c.len = 2 ∧ c.aux = tget 0 s.homes.tags l ∧ c.data = BitVec.ofNat 2048 (s.lineRaw l).toNat) ∧
        t.homes.locks = s.homes.locks ++ (if f.inl.toNat % 4 = 1 then [⟨l, f.space, some (f.src, f.tag), 0, [], []⟩] else []) ∧
        t.mem = s.mem) ∧
      (f.inl.getLsbD 128 = false → ∃ t, ends 0x04 t (gives 0) ∧ t.homes.locks = s.homes.locks ∧ outside t (128 * l) 128 ∧
        ∀ b, b < 128 → t.byte (128 * l + b) = if f.inl.getLsbD b then f.data.extractLsb' (8 * b) 8 else s.byte (128 * l + b)) ∧
      (∀ n, State.inlAt f 8 8 % 16 = n → 1 ≤ n → n ≤ 8 → a % 128 + n ≤ 128 → let code := State.inlAt f 0 8; let old := s.bytes a n
        ∃ t, ends 0x05 t (gives old) ∧ outside t a n ∧
          t.bytes a n = (if code = 10 then (if old = State.inlAt f 128 64 % 2 ^ (8 * n) then op % 2 ^ (8 * n) else old)
            else atomicNew (State.atomicOf code) n old (BitVec.ofNat 64 op) % 2 ^ (8 * n))) ∧
      (a % 128 = 0 → f.inl.getLsbD 64 = false → s.quietLine ⟨a + 128, 0⟩ → ∃ t, ends 0x06 t (gives 0) ∧ outside t a 256 ∧
        ∀ i, i < 64 → t.bytes (a + 4 * i) 4 = if f.inl.getLsbD i then (f.data.extractLsb' (32 * i) 32).toNat else s.bytes (a + 4 * i) 4) ∧
      (let flag := f.aux.toNat; f.inl.setWidth 64 = (0 : BitVec 64) → f.inl.getLsbD 64 = true → State.inlAt f 72 4 = 0 →
        s.quietLine ⟨flag, 0⟩ → flag % 128 + 8 ≤ 128 →
        ∃ t, ends 0x06 t (gives 0) ∧ outside t flag 8 ∧ t.bytes flag 8 = (s.bytes flag 8 + 1) % 2 ^ 64) ∧
      (∀ size, State.inlAt f 192 8 = size → 1 ≤ size → size ≤ 8 → a % 128 + size ≤ 128 → ∃ t homes,
        ends 0x0C t (gives (if s.bytes a size = f.aux.toNat % 2 ^ (8 * size) then 0 else 1)) ∧ t.mem = s.mem ∧
        t.homes.locks = s.homes.locks ++ [⟨l, f.space, some (f.src, f.tag), op, [(a, size, BitVec.ofNat 64 (State.inlAt f 128 64))], homes⟩]) ∧
      (s.homes.tokens = [] → a % 8 = 0 → let old := s.bytes a 8; let n := op
        (State.inlAt f 0 64 = 0 → ∃ t, ends 0x12 t (gives 0) ∧ outside t a 8 ∧
          t.bytes a 8 = if 2 ^ 63 ≤ old then old else min (old + n) (2 ^ 63 - 1)) ∧
        (State.inlAt f 0 64 = 1 → old ≠ 0 → ∃ t, ends 0x12 t (gives old) ∧ outside t a 8 ∧
          t.bytes a 8 = if 2 ^ 63 ≤ old then old else old - 1) ∧
        (State.inlAt f 0 64 = 1 → old = 0 → ∃ t w, ends 0x12 t (gives (2 ^ 248 * 0xFE)) ∧ t.mem = s.mem ∧ t.homes.tokens = [w] ∧
          w.gpa = a ∧ w.user = .peer (is 0x12) ∧ w.listed = true))) ∧
    (f.inl.getLsbD 128 = true → f.inl.setWidth 128 = (0 : BitVec 128) → (∃ k ∈ s.homes.locks, State.ownsLine f k = true) →
      ∃ t, ends 0x04 t (gives 0) ∧ t.homes.locks = s.homes.locks.filter (fun k => !State.ownsLine f k) ∧ t.mem = s.mem) ∧
    (∀ (k : Lock) (size : Nat), (s.homes.locks.find? fun (k : Lock) => k.line == l && k.op == op && (k.peer.map Prod.fst) == some f.src) = some k →
      State.inlAt f 192 8 = size → 1 ≤ size → size ≤ 8 → a % 128 + size ≤ 128 → windowOf (localOf a) = .hbm → s.backed (localOf (128 * l)) = true →
      (∀ x ∈ k.news, x.1 = a) →
      ∃ t, ends 0x0E t (gives 0) ∧ t.homes.locks = s.homes.locks.filter (· != k) ∧
        t.homes.decisions.head? = some (f.src, op, f.inl.getLsbD 0) ∧ outside t a size ∧
        t.bytes a size = if f.inl.getLsbD 0 then f.aux.toNat % 2 ^ (8 * size) else s.bytes a size) ∧
    (let told := s.homes.decisions.find? fun (c, o, _) => c == BitVec.ofNat 8 (State.inlAt f 0 8) && o == op
      ∃ t, ends 0x0F t (gives (match told with | some (_, _, true) => 2 | some (_, _, false) => 1 | none => 0)) ∧ t.mem = s.mem) ∧
    (∃ t, ends 0x0D t (gives 0) ∧ t.mem = s.mem ∧ t.homes = s.homes) ∧
    (s.pageLocked page = false → f.src ≠ s.dev.devid → (∀ n c, (n, c) ∈ s.cores → ∀ ln ∈ c.lines, ln.tracked = true → ln.line / 512 ≠ page) →
      (∀ r, (s.grantOf page).pendingReq = some r →
        s.takeFlit (is 0x08) = (s.setGrant page { s.grantOf page with waiting := (s.grantOf page).waiting ++ [is 0x08] }, true)) ∧
      (s.grantOf page = ⟨.none, [], false, none, [], []⟩ → ∃ t, ends 0x08 t (gives 0) ∧ t.mem = s.mem ∧
        (t.grantOf page).state = (if f.inl.getLsbD 0 then .exclusive else .shared) ∧ (t.grantOf page).holders = [f.src] ∧
        (t.grantOf page).pendingReq = none) ∧
      (∃ t x, ends 0x09 t (gives 0) ∧ t.mem = s.mem ∧ x ∈ t.fab.txns ∧ x.flit.type = 0x0A ∧ x.flit.dst = f.src ∧ x.flit.gpa = f.gpa ∧
        (t.grantOf page).state = (if f.inl.getLsbD 0 ∨ (s.grantOf page).state = .none then .none else .shared))) ∧
    (∀ r, (s.grantOf page).pendingReq = some r → r.type = 0x08 → (s.grantOf page).awaiting = [f.src] → (s.grantOf page).waiting = [] →
      ∃ t, ends 0x0A t (gives 0) ∧ t.mem = s.mem ∧ (t.grantOf page).pendingReq = none ∧
        (t.grantOf page).state = (if r.inl.getLsbD 0 then .exclusive else .shared) ∧ (r.inl.getLsbD 0 = true → (t.grantOf page).holders = [r.src])) ∧
    (let tile := State.tileOf f; let v := f.inl.extractLsb' 40 32; let me := 1000 + f.src.toNat; let e := s.verOf tile; let part := State.inlAt f 0 8
      (∀ want : Want, State.inlAt f 0 8 = 0 → State.inlAt f 72 64 = 0 →
        want = (match State.inlAt f 8 8 with | 0 => .atLeast v | 1 => .latest | _ => .exactly v) →
        (∀ n, s.resolve tile want me = .fill n → ∃ t, ends 0x10 t (gives (State.tileBits 1 0 n)) ∧ t.mem = s.mem) ∧
        (∀ n h, s.resolve tile want me = .forward n h → 1000 ≤ h → h < 1256 →
          ∃ t, ends 0x10 t (gives (State.tileBits 2 (h - 1000) n)) ∧ t.mem = s.mem) ∧
        (∀ i, s.resolve tile want me = .fail i → ∃ t, ends 0x10 t (fun c => c.inl.toNat / 2 ^ 248 = i.cause.toNat) ∧ t.mem = s.mem) ∧
        (s.resolve tile want me = .await → (s.homes.awaiting.filter (·.1 == s.tileChannel 0 tile)).length < 64 →
          ∃ t, ends 0x10 t (gives (State.tileBits 3 0 0)) ∧
            t.homes.awaiting = s.homes.awaiting ++ [(s.tileChannel 0 tile, ⟨tile, want, .peer f.src.toNat, 0⟩)])) ∧
      (State.inlAt f 0 8 = 1 →
        (∀ n, s.snewHome tile v (State.inlAt f 72 64 % 2 == 1) = .ok n →
          ∃ t, ends 0x10 t (gives (State.tileBits 0 0 n)) ∧ (t.verOf tile) = { e with openV := some (n, me) }) ∧
        (∀ i, s.snewHome tile v (State.inlAt f 72 64 % 2 == 1) = .error i →
          ∃ t, ends 0x10 t (fun c => c.inl.toNat / 2 ^ 248 = i.cause.toNat ∧ c.aux = i.i2) ∧ t.homes = s.homes)) ∧
      (State.inlAt f 0 8 = 2 → s.homes.awaiting = [] → ∃ t, ends 0x10 t (gives 0) ∧
        t.verOf tile = { e with p := v, openV := none, owner := some me, holders := [], lostPeer := false }) ∧
      (State.inlAt f 0 8 = 3 → ∃ t, ends 0x10 t (gives 0) ∧
        t.verOf tile = if (e.openV.map Prod.fst) = some v then { e with openV := none } else e) ∧
      (State.inlAt f 0 8 = 6 → ∃ t,
        ends 0x10 t (gives (State.tileBits (if (e.m == v && !s.merging tile) = true then 6 else 7) 0 v)) ∧ t.mem = s.mem) ∧
      (v.toNat ≤ e.m.toNat → ∃ t, ends 0x11 t (gives 1) ∧ t.mem = s.mem ∧ t.verOf tile = e) ∧
      (e.m.toNat < v.toNat →
        (part = 17 → ∃ t, ends 0x11 t (gives 0) ∧ (t.verOf tile).m = v ∧ (t.verOf tile).p = e.p ∧ t.mem = s.mem) ∧
        (part = 18 → ∃ t, ends 0x11 t (gives 0) ∧ t.verOf tile = e ∧ t.mem = s.mem) ∧
        (s.homes.incoming = [] → s.merging tile = false → s.fillGoing tile = false →
          (part < 15 → ∃ t i, ends 0x11 t (gives 0) ∧ t.homes.incoming = [i] ∧ i.tile = tile ∧ i.version = v ∧ i.src = f.src ∧
            i.data.extractLsb' (2048 * part) 2048 = f.data ∧ t.mem = s.mem) ∧
          (∀ (w x : State) (tn : Tensor) (pg : Table State.Xlat), part = 15 → s.tensor 0 tile.space tile.tensor = (w, .ok (some tn)) →
            w.mapPages 0 tile.space .writeback (State.tileVas tn tile.coord) [] = (x, .ok pg) → x.tileBlocked pg tn tile true = none →
            ∀ y : State, x.writeMapped pg tn tile (f.data.setWidth 32768 <<< 30720) (f.inl.extractLsb' 128 128) = (y, none) →
              ∃ i, i.tile = tile ∧ s.takeFlit (is 0x11) = (((y.setIncoming i false).mergedHome tile v).reply (is 0x11) 0 0, true))))) ∧
    (State.inlAt f 0 64 = 2 → (∀ w ∈ s.homes.tokens, ∃ g, w.user = .peer g ∧ g.src = f.src ∧ State.inlAt g 64 64 = op) →
      ∃ t, ends 0x12 t (gives (if s.homes.tokens = [] then 1 else 0)) ∧ t.homes.tokens = [] ∧ t.mem = s.mem)) ∧
  (∀ (f : Flit) (peer : BitVec 8) (dim : Bool) (ch : BitVec 6) (c : Channel) (s : State),
    let n := ch.toNat; let p := s.peer peer.toNat
    (s.channels dim).find? (·.1 == n) = some (n, c) →
    (s.slotPeer dim c.serves = some peer → ∃ t, exec (.flitBadType f dim ch) s = .next t ∧
      (t.peer peer.toNat).replay = State.bump p.replay ∧ (t.peer peer.toNat).lastFlit = s.cycle) ∧
    (∃ t k, exec (.flitReplay peer dim ch) s = .next t ∧ (t.peer peer.toNat).replay = State.bump p.replay ∧
      (c.buffer ≠ [] → k < c.buffer.length) ∧
      let r := State.replayFrom c k; let again := r.buffer.any fun x => decide (16 ≤ x.2)
      t.channelAt dim n = (if again then { c with training := true, buffer := c.buffer.map fun x => (x.1, 0) } else r) ∧
      (t.peer peer.toNat).retrain = (if again then State.bump p.retrain else p.retrain)) ∧
    (∃ t, exec (.channelRetrain peer dim ch) s = .next t ∧
      t.channelAt dim n = { c with training := true, buffer := c.buffer.map fun x => (x.1, 0) } ∧
      (t.peer peer.toNat).retrain = State.bump p.retrain) ∧
    (c.training = true → (∃ t, exec (.retrainComplete peer dim ch true) s = .next t ∧
        t.channelAt dim n = { c with training := false, retrains := 0 }) ∧
      (∃ t, exec (.retrainComplete peer dim ch false) s = .next t ∧ t.channelAt dim n = { c with retrains := c.retrains + 1 } ∧
        (t.peer peer.toNat).retrain = if c.retrains + 1 < 3 then State.bump p.retrain else p.retrain)) ∧
    (∀ k rest, c.spared = false → 3 ≤ c.retrains → c.serves < 15 → s.poolChannels dim = k :: rest → ∃ t,
      exec (.channelSpare dim ch) s = .next t ∧ (t.channelAt dim n).spared = true ∧ (t.channelAt dim n).serves = 15 ∧
      (t.channelAt dim k).serves = c.serves ∧ (t.channelAt dim k).home = c.home ∧ (t.channelAt dim k).lease = c.lease) ∧
    (s.dev.fabEn = true → s.deviceLost peer = false → c.spared = false → s.slotPeer dim c.serves = some peer →
      700 ≤ s.cycle - c.lastSent → ∃ t g, exec (.heartbeatDue peer dim ch) s = .next t ∧
      t.fab.outbox = s.fab.outbox ++ [g] ∧ g.type = 0x30 ∧ g.src = s.dev.devid ∧ g.dst = peer ∧ t.mem = s.mem)) ∧
  (∀ (x : Txn) (s : State), (s.fab.txns.find? fun (y : Txn) => y.id == x.id) = some x → 0 < x.sends →
    (x.sends < 4 → 70000 ≤ s.cycle - x.lastSend → s.nextHops x.flit ≠ [] → ∃ t h, exec (.transactionResend x.id) s = .next t ∧
      t.fab.outbox = s.fab.outbox ++ [x.flit] ∧ { x with lastSend := s.cycle, sends := x.sends + 1 } ∈ t.fab.txns ∧
      t.fab.hops = s.fab.hops ++ [h] ∧ h.next ∈ s.nextHops x.flit ∧
      (t.peer h.next.toNat).resend = State.bump (s.peer h.next.toNat).resend) ∧
    (280000 ≤ s.cycle - x.firstSend →
      let d := x.flit.dst.toNat; let u := s.dropTxn x
      let ended := u.setPeer d { u.peer d with tagLost := x.flit.tag.toNat :: (u.peer d).tagLost }
      (x.use_ = .plain → exec (.fabricTimeout x.id) s = .next ended) ∧
      (∀ c access va header, x.use_ = .store c access va header → x.keys = [] →
        exec (.fabricTimeout x.id) s = .next (ended.storeFailed c access va header 0x81 16 true)))) ∧
  (∀ (f : Flit) (s : State), ∃ t, exec (.flitAgeDiscard f) s = .next t ∧ t.fab.outbox = s.fab.outbox.erase f ∧
    t.fab.hops = s.fab.hops.eraseIdx (s.fab.outbox.idxOf f) ∧ t.mem = s.mem) ∧
  (∀ (dead reporter : BitVec 8) (epoch : BitVec 32) (s : State),
    let p := s.peer dead.toNat
    (s.dev.fabEn = true → s.deviceLost dead = false → (s.peerDim dead).isSome = true → 5600 ≤ s.cycle - p.lastFlit →
      exec (.linkSilence dead) s = .next ((s.linkEvent dead .silence).declareDead dead s.dev.devid s.svc.epoch)) ∧
    (s.dev.lvEn = true → dead ≠ s.dev.devid → p.deadEpoch = none → s.fab.txns = [] → s.fab.leases = [] → s.homes.tokens = [] →
      s.homes.locks = [] → s.homes.grants = [] → s.homes.held = [] → s.homes.mcas = [] →
      (∀ c ∈ s.clusters, ∀ x ∈ c.2.loam, x.2.state ≠ .filling) → ∃ t, exec (.deathNotice dead reporter epoch) s = .next t ∧
      (t.peer dead.toNat).fenced = true ∧ (t.peer dead.toNat).deadEpoch = some epoch ∧ (t.peer dead.toNat).expectSeq = 0 ∧
      t.fab.notices = s.fab.notices ++ [(dead, reporter, epoch)]) ∧
    (s.dev.lvEn = true → dead ≠ s.dev.devid →
      (match p.deadEpoch with | some e => e.toNat < epoch.toNat | none => p.fenced = true ∧ s.dev.presence.getLsbD dead.toNat = true) → ∃ t,
      exec (.joinNotice dead epoch) s = .next t ∧ (t.peer dead.toNat).deadEpoch = none ∧
      (t.peer dead.toNat).fenced = !s.dev.presence.getLsbD dead.toNat ∧ (t.peer dead.toNat).lastFlit = s.cycle ∧
      t.fab.joins = s.fab.joins ++ [(dead, epoch)] ∧ t.mem = s.mem))

/-- R258, R366 to R372, R395 to R402: the lease events, the guest's messages and the two timers of held operations. A head
request that its channels allow takes them and negotiates; a reply lets it tune or queues it again; a tuned lease is
active; its term's end and its notice's end drain it; a drained lease gives its channels back; a queued request expires
with reason 6, and an entry that is over is freed. The guest takes packets, reads and writes lines, answers, faults,
stops, is saved or is late; a fence drops its lines and gives every packet its end. The end of a packet writes the 16 bytes of
its completion record first, then makes its credit, to a barrier whose window its task still holds or to a token word, then for a
fault logs it; what must wait is kept. MQPUSH_FULL_TIMEOUT and MCAS_LOCK_TIMEOUT end the waits of `mqpush`
and `mcas`, whose destination is deferred with MCAS_ABORT. That a class-0 request without receive channels revokes at least one
lease toward the destination is the model's (log 18), and so are the packets of one index that the guest holds and the content of
the save area (log 33). -/
def Obligations.LeaseAndMooringEvents : Prop :=
  (∀ (id : BitVec 8) (l : Lease) (s : State), s.leaseOf id.toNat = some l →
    let ends := fun (st : LeaseState) (reason : BitVec 4) => some { l with state := st, reason := reason, channels := [], since := s.cycle }
    (∀ (dim : Bool) (cs : List Nat), s.leaseQueue dim = [l] → s.takeChannels dim (s.peerSlot dim l.dest) [] l.want = some cs →
      ∃ t, exec (.leaseHeadGrant dim) s = .next t ∧
        t.leaseOf id.toNat = some { l with state := .negotiate, channels := cs, granted := s.fab.grants + 1 } ∧
        ∀ n c, (n, c) ∈ t.channels dim → n ∈ cs → c.lease = l.id ∧ c.serves = s.peerSlot dim l.dest) ∧
    (l.state = .negotiate →
      (16 < s.serving (s.leaseDim l) (s.peerSlot (s.leaseDim l) l.dest) → ∀ ok : Bool, ∃ t, exec (.leaseReserveReply id ok) s = .next t ∧
        t.leaseOf id.toNat = ends .refused 2) ∧
      (s.serving (s.leaseDim l) (s.peerSlot (s.leaseDim l) l.dest) ≤ 16 →
        exec (.leaseReserveReply id true) s = .next ((s.setLease { l with state := .tuning }).later 2800 (.leaseTuned id)) ∧
        (l.doomed = true → ∃ t, exec (.leaseReserveReply id false) s = .next t ∧ t.leaseOf id.toNat = ends .ended 0) ∧
        (l.doomed = false → ∃ t, exec (.leaseReserveReply id false) s = .next t ∧
          t.leaseOf id.toNat = some { l with state := .queued, channels := [] } ∧
          (l.klass = 0 → ∀ m : Lease, s.fab.leases = [l, m] → m.id ≠ l.id → m.state = .active → m.klass ≠ 0 → m.dest = l.dest →
            t.leaseOf m.id = some { m with state := .notice, since := s.cycle })))) ∧
    (l.state = .tuning → l.doomed = false → exec (.leaseTuned id) s =
      .next (((s.setLease { l with state := .active, activeAt := s.cycle }).later (1400 * l.term) (.leaseTermExpiry id)).later
        0 (.leaseHeadGrant (s.leaseDim l)))) ∧
    (l.state = .active → s.leaseRemain l = 0 →
      exec (.leaseTermExpiry id) s = .next ((s.setLease { l with state := .ending }).later 2800 (.leaseDrained id))) ∧
    (l.state = .notice →
      (14000 ≤ s.cycle - l.since →
        exec (.leaseNoticeExpiry id) s = .next ((s.setLease { l with state := .ending }).later 2800 (.leaseDrained id))) ∧
      (s.cycle - l.since < 14000 → exec (.leaseNoticeExpiry id) s = .next s)) ∧
    (l.state = .ending → ∃ t, exec (.leaseDrained id) s = .next t ∧ t.leaseOf id.toNat = ends .ended 0 ∧
      (s.cycle + 14000000, .leaseEntryTimeout id) ∈ t.agenda ∧
      (l.channels ≠ [] → l.id ≠ 0 → ∀ n c, (n, c) ∈ t.channels (s.leaseDim l) → c.lease ≠ l.id)) ∧
    (l.state = .queued → 1400 * l.term ≤ s.cycle - l.since → ∃ t, exec (.leaseQueueExpiry id) s = .next t ∧
      t.leaseOf id.toNat = ends .refused 6) ∧
    (leaseOver l = true → 14000000 ≤ s.cycle - l.since → ∃ t, exec (.leaseEntryTimeout id) s = .next t ∧ t.leaseOf id.toNat = none)) ∧
  (∀ (q : BitVec 3) (s : State), s.moor.fenced = false →
    let g := s.gqueue q.toNat; let k := g.head.toNat % 256; let p := tget {} g.packets k
    let fences := fun (t : State) => t.moor.fenced = true ∧ (t.core State.guestCore).lines = [] ∧
      ∀ n : BitVec 3, (t.gqueue n.toNat).held = [] ∧ (t.gqueue n.toNat).ctl.getLsbD 0 = false ∧ (t.gqueue n.toNat).ctl.getLsbD 8 = true ∧
        ∀ x ∈ (s.gqueue n.toNat).held, ∃ e ∈ t.moor.ends, e.queue = n ∧ e.packet = x.2 ∧ e.status = 0x90 ∧ e.stage = 0
    ((g.tail - g.head).toNat ≠ 0 → (∀ x ∈ s.moor.pre, x.space ≠ pkSpace p.bits) → ∃ t, exec (.guestTakePacket q) s = .next t ∧
      t.gqueue q.toNat = { g with head := g.head + 1, packets := tdel g.packets k, held := g.held ++ [(k, p)] } ∧ t.mem = s.mem) ∧
    (∀ (idx : BitVec 8) (pk : GuestPacket), g.held.find? (·.1 == idx.toNat) = some (idx.toNat, pk) → let sp := pkSpace pk.bits
      (∀ (va : Dbl) (data : BitVec 1024) (mask : BitVec 128) (w : Bool) (u : State) (x : State.Xlat),
        s.guestXlat sp va (if w then .write else .read) = (u, .ok x) → u.guestExcluded x = false →
        let line := x.gpa / 128; let again := u.later 16 (.guestCoherentRequest q idx sp va w data mask)
        (u.lineLocked line = true → exec (.guestCoherentRequest q idx sp va w data mask) s = .next again) ∧
        (u.lineLocked line = false → u.grantBlocks (line / 512) w = false →
          (u.aliased (line / 512) true = true → exec (.guestCoherentRequest q idx sp va w data mask) s =
            .next ((u.logAlias x.gpa sp).guestRefused q sp 0x25 va)) ∧
          (u.aliased (line / 512) true = false →
            (∀ (v : State) (ln : Line), w = false → u.fillLine State.guestCore ⟨sp, 0, true⟩ line = (v, .ok ln) →
              exec (.guestCoherentRequest q idx sp va w data mask) s = .next v) ∧
            (∀ (v : State) (ln : Line), w = true → ((u.recallTo line .s).invalidateOthers line (some State.guestCore)).fillLine State.guestCore
                ⟨sp, 0, true⟩ line = (v, .ok ln) →
              ∃ t ln', exec (.guestCoherentRequest q idx sp va w data mask) s = .next t ∧
                t.lineOf State.guestCore ln.line = some ln' ∧ ln'.mesi = .m ∧ ln'.data = mergeLine mask ln.data data ∧
                t.dirCores line = [State.guestCore])))) ∧
      (∀ result : Dbl, ∃ u, s.takeHeld q idx = some (pk, u) ∧ exec (.guestCompletion q idx result) s = .next (u.endPacket q pk 0 result false) ∧
        ∀ translation : Bool, exec (.guestFault q idx translation result) s =
          .next (u.endPacket q pk (if translation then 0x92 else 0x91) result true)) ∧
      (∀ (u : State) (st : BitVec 8) (result : Dbl) (logIt : Bool),
        let w : State := { u with tick := u.tick + 1 }; let e := u.endOf q pk st result logIt; let b := pk.bits
        let fin := fun (v : State) => if logIt then v.log 0 7 q.toNat sp st result 0 0 else v
        (∀ v : State, w.writeCompletion e = (v, .sent) →
          u.endPacket q pk st result logIt = { v with moor := { v.moor with ends := v.moor.ends ++ [{ e with stage := 1 }] } }) ∧
        (∀ v : State, w.writeCompletion e = (v, .wait) →
          u.endPacket q pk st result logIt = { v with moor := { v.moor with ends := v.moor.ends ++ [e] } }) ∧
        (∀ (v : State) (x : State.Xlat), pkCaddr b ≠ 0 → w.guestXlat sp (pkCaddr b) .write = (v, .ok x) → v.quietLine x →
          x.gpa % 128 + 16 ≤ 128 → Memory.wf v.mem = true → ∃ t, w.writeCompletion e = (t, .done 0) ∧
          t.bytes x.gpa 16 = (pkTag b).toNat + 2 ^ 32 * st.toNat + 2 ^ 40 * q.toNat + 2 ^ 64 * result.toNat ∧
          ∀ n, n < x.gpa ∨ x.gpa + 16 ≤ n → t.byte n = v.byte n) ∧
        (pkCaddr b = 0 → w.writeCompletion e = (w, .done 0)) ∧
        (∀ (v : State) (r : Nat), w.writeCompletion e = (v, .done r) →
          let cl := ((pkCredit b).extractLsb' 32 8).toNat; let off := ((pkCredit b).extractLsb' 0 32).toNat
          (pkKind b = 0 → u.endPacket q pk st result logIt = fin v) ∧
          (pkKind b = 1 → u.endPacket q pk st result logIt = fin (if v.windowHeld pk cl off = false then v.guestRefused q sp 0x93 (pkCredit b)
            else if st = 0 then v.barrierPay cl off (pkCamt b) else v.barrierFault cl off st.toNat true false)) ∧
          (∀ (y : State) (x : State.Xlat), pkKind b = 2 → v.guestXlat sp (pkCredit b) .atomic = (y, .ok x) → y.quietLine x →
            x.gpa % 8 = 0 → Memory.wf y.mem = true → y.homes.tokens = [] → y.bytes x.gpa 8 < 2 ^ 63 →
            let t := u.endPacket q pk st result logIt
            t.bytes x.gpa 8 = min (y.bytes x.gpa 8 + max 1 (pkCamt b)) (2 ^ 63 - 1) ∧
            ∀ n, n < x.gpa ∨ x.gpa + 8 ≤ n → t.byte n = y.byte n)))) ∧
    (∀ sp : BitVec 6,
      ((∀ x ∈ s.moor.pre, x.space = sp → x.stopped = false → s.cycle ≤ x.at_ + 2800) → ∃ t, exec (.guestStopped sp) s = .next t ∧
        (∀ x ∈ t.moor.pre, x.space = sp → x.stopped = true) ∧ (s.moor.statSpace = sp → t.moor.statStopped = true) ∧ t.mem = s.mem) ∧
      ((∃ x ∈ s.moor.pre, x.space = sp ∧ x.stopped = false ∧ x.at_ + 2800 < s.cycle) → ∃ t, exec (.guestStopped sp) s = .next t ∧
        fences t ∧ (s.moor.statSpace = sp → t.moor.statLate = true)) ∧
      (∀ x : GuestPre, (s.moor.pre.find? fun (y : GuestPre) => y.space == sp && !y.saved) = some x →
        (s.cycle ≤ x.at_ + 28000 → ∃ t, exec (.guestSaved sp) s = .next t ∧ (∀ x ∈ t.moor.pre, x.space = sp → x.saved = true) ∧
          (s.moor.statSpace = sp → t.moor.statSaved = true) ∧
          (Memory.wf s.mem = true → (∀ n, (s.core n).lines = []) →
            ∀ a, a < x.base.toNat ∨ x.base.toNat + x.len.toNat ≤ a → t.byte a = s.byte a)) ∧
        (x.at_ + 28000 < s.cycle → ∃ t, exec (.guestSaved sp) s = .next t ∧ fences t ∧ (s.moor.statSpace = sp → t.moor.statLate = true))) ∧
      (∃ t, exec (.mgpreRequest sp) s = .next t ∧ t.moor.pre.head? = some ⟨sp, s.cycle, false, false, s.moor.saveBase, s.moor.saveLen⟩ ∧
        t.moor.statSpace = sp ∧ (s.cycle + 2801, .guestPreemptLate sp) ∈ t.agenda ∧ (s.cycle + 28001, .guestPreemptLate sp) ∈ t.agenda) ∧
      (∃ t, exec (.mgpreResume sp) s = .next t ∧ (∀ x ∈ t.moor.pre, x.space ≠ sp) ∧ t.mem = s.mem) ∧
      (∀ x : GuestPre, (s.moor.pre.find? fun (y : GuestPre) => y.space == sp) = some x →
        (2800 < s.cycle - x.at_ ∧ x.stopped = false) ∨ (28000 < s.cycle - x.at_ ∧ x.saved = false) →
        ∃ t, exec (.guestPreemptLate sp) s = .next t ∧ fences t ∧ (s.moor.statSpace = sp → t.moor.statLate = true))) ∧
    (∃ t, exec .guestPowerOverrun s = .next t ∧ fences t) ∧
    (∀ m : BitVec 3, (∃ t, exec (.guestLinkFailure m true) s = .next t ∧ fences t) ∧
      (s.moor.modules &&& ~~~(1#8 <<< m.toNat) ≠ 0 → ∃ t, exec (.guestLinkFailure m false) s = .next t ∧
        t.moor.modules.getLsbD m.toNat = false ∧ t.moor.fenced = false ∧ t.mem = s.mem))) ∧
  (∀ (c at_ : Nat) (late : Bool) (s : State), (s.ctx c).push = some (at_, late) → 4096 ≤ s.cycle - at_ →
    exec (.mqpushFullTimeout c) s = .next (s.setCtx c { s.ctx c with push := some (at_, true) })) ∧
  (∀ (op : McasOp) (s : State), s.mcasOf op.id = some op → op.decided = none → 2800 ≤ s.cycle - op.started →
    (∀ e ∈ op.entries, s.ownDevice e.gpa = true) → ∃ t, exec (.mcasLockTimeout op.id) s = .next t ∧ t.mcasOf op.id = none ∧
      (∀ k ∈ t.homes.locks, ¬(k.op = op.id ∧ k.peer = none)) ∧
      (∀ g : Flight, s.cx.flights = [g] → g.id = op.flight → t.cx.flights = [] ∧ t.cx.x = s.cx.x ∧
        ∀ r ∈ g.dests, (r, ⟨0x83, 0, 0, 0, g.header.setWidth 64⟩) ∈ t.cx.deferred))

/-- R93, R106, R239 to R242, R296, R331, R332, R350, R410, R420, R422: the line, translation and context events. A read miss of a line
that nobody holds is filled exclusive from its home, unless its read meets an uncorrectable error, in a set of at most 8 lines while no
merge is held there; an invalidation, and an
eviction from a full set for an allocation that waits, drop a line, an M line's bytes reaching memory; a merge writes the bytes of its
mask, or waits for a
locked line; a host's snoop writes an M line back and leaves it shared, or drops it; TLBINV removes what it
names from the cores', the clusters' and Mooring's TLBs; the scrub notes its time, and a row of 16 corrected errors is repaired and
leaves the list, another is not; an override names the context that will be primary; a due
result lands; a failed operation defers its destinations; a trap at entry takes the context to its vector. That a line's error
arises when it is read at home is the model's (log 4). -/
def Obligations.LineAndContextEvents : Prop :=
  (∀ (core line : Nat) (s : State), s.ownDevice (128 * line) = true → s.backed (localOf (128 * line)) = true →
    Memory.wf s.mem = true →
    (s.lineOf core line = none → s.lineLocked line = false → s.dirCores line = [] → line ∉ s.homes.poison →
      State.cacheable (localOf (128 * line)) = true → s.roomHeld core line = false → s.aliased (line / 512) true = false →
      s.grantBlocks (line / 512) true = false → (∀ n tag, (n, tag) ∈ s.homes.tags → n ≠ line) → ∃ t, exec (.lineReadMiss core line) s = .next t ∧
        (line ∈ t.homes.poison → t.lineOf core line = none ∧ t.mem = s.mem) ∧
        (line ∉ t.homes.poison → ∃ ln, t.lineOf core line = some ln ∧
          ln.tracked = true ∧ ln.mesi = .e ∧ ln.data = s.lineRaw line ∧ t.dirCores line = [core]) ∧
        ((s.setLines core line).length < 8 → t.mem = s.mem) ∧
        ((s.setLines core line).length ≤ 8 → core ≠ State.guestCore → (∀ x ∈ s.setLines core line, s.mergeHeld x = false) →
          (t.setLines core line).length ≤ 8)) ∧
    (∀ ln : Line, s.lineOf core line = some ln → ln.tracked = true → ln.key = 0 →
      (ln.mesi ≠ .m → ∃ t, exec (.lineInvalidation core line) s = .next t ∧ t.lineOf core line = none ∧ core ∉ t.dirCores line ∧
        t.mem = s.mem) ∧
      (ln.mesi = .m → (∃ t, exec (.lineInvalidation core line) s = .next t ∧ t.lineOf core line = none ∧ core ∉ t.dirCores line ∧
          t.bytes (128 * line) 128 = ln.data.toNat) ∧
        (8 ≤ (s.setLines core line).length → s.allocWanted core line = true → ∃ t, exec (.lineEviction core line) s = .next t ∧
          t.lineOf core line = none ∧
          core ∉ t.dirCores line ∧ t.bytes (128 * line) 128 = ln.data.toNat ∧ ∀ q, q / 128 ≠ line → t.byte q = s.byte q) ∧
        (s.allocWanted core line = false → exec (.lineEviction core line) s = .next s) ∧
        (windowOf (localOf (128 * line)) = .host → s.dirCores line = [core] →
          (∃ t, exec (.hostSnoop line false) s = .next t ∧ t.bytes (128 * line) 128 = ln.data.toNat ∧
            t.lineOf core line = some { ln with mesi := .s }) ∧
          (∃ t, exec (.hostSnoop line true) s = .next t ∧ t.bytes (128 * line) 128 = ln.data.toNat ∧ t.lineOf core line = none ∧
            t.dirCores line = [])))) ∧
    (∀ (mask : BitVec 128) (data : BitVec 1024),
      (s.lineLocked line = false → ∃ t, exec (.byteMaskMerge line mask data) s = .next t ∧
        (∀ i, i < 128 → t.byte (128 * line + i) = if mask.getLsbD i then data.extractLsb' (8 * i) 8 else s.byte (128 * line + i)) ∧
        ∀ q, q / 128 ≠ line → t.byte q = s.byte q) ∧
      (s.lineLocked line = true → ∃ t f, exec (.byteMaskMerge line mask data) s = .next t ∧ t.mem = s.mem ∧
        t.homes.held = s.homes.held ++ [f] ∧ f.inl = mask.setWidth 256 ∧ f.data = data.setWidth 2048))) ∧
  (∀ s : State, s.booted = true →
    (∃ t, exec .tlbinvAll s = .next t ∧ (∀ n, (t.core n).tlb = [] ∧ (t.cluster n).tlb = []) ∧ t.moor.tlb = [] ∧ t.mem = s.mem) ∧
    (∀ sp : BitVec 6, ∃ t, exec (.tlbinvSpace sp) s = .next t ∧
      (∀ n, ∀ e : TlbEntry, (e ∈ (t.core n).tlb ↔ e ∈ (s.core n).tlb ∧ e.space ≠ sp) ∧
        (e ∈ (t.cluster n).tlb ↔ e ∈ (s.cluster n).tlb ∧ e.space ≠ sp)) ∧
      (∀ e : TlbEntry, e ∈ t.moor.tlb ↔ e ∈ s.moor.tlb ∧ e.space ≠ sp) ∧ t.mem = s.mem) ∧
    (∀ (sp : BitVec 6) (page : BitVec 40), ∃ t, exec (.tlbinvPage sp page) s = .next t ∧
      let named := fun e : TlbEntry => e.space = sp ∧ e.base = page.toNat * 65536 / 2 ^ e.size
      (∀ n, ∀ e : TlbEntry, (e ∈ (t.core n).tlb ↔ e ∈ (s.core n).tlb ∧ ¬named e) ∧
        (e ∈ (t.cluster n).tlb ↔ e ∈ (s.cluster n).tlb ∧ ¬named e)) ∧
      (∀ e : TlbEntry, e ∈ t.moor.tlb ↔ e ∈ s.moor.tlb ∧ ¬named e) ∧ t.mem = s.mem)) ∧
  (∀ (ch : BitVec 8) (row : Nat) (last : Bool) (s : State),
    (∃ t, exec (.patrolScrub ch) s = .next t ∧ (t.chan ch.toNat).scrubbed = s.cycle ∧ t.cx = s.cx) ∧
    (s.rowErrors ch.toNat row < 16 → exec (.rowRepair ch row last) s = .next s) ∧
    (16 ≤ s.rowErrors ch.toNat row → ∃ t, exec (.rowRepair ch row last) s = .next t ∧ row ∈ (t.chan ch.toNat).repaired ∧
      t.rowErrors ch.toNat row = 0 ∧ t.mem = s.mem ∧ t.homes.poison = s.homes.poison)) ∧
  (∀ (core c : Nat) (s : State), (s.core core).lastOverride = false → s.aged (s.occupiedCtxs.filter fun c => c / 4 == core) = some c →
    exec (.ageOverride core) s = .next (s.setCore core { s.core core with override := some c }) ∧
    ∀ rdy : List State.Ready, (∃ r ∈ rdy, r.c = c) → ∃ t rest,
      (s.setCore core { s.core core with override := some c }).selectCore core rdy = (t, c :: rest) ∧
      (t.core core).lastOverride = true ∧ (t.core core).override = none ∧ rest.length ≤ 1) ∧
  (∀ (c due : Nat) (w : Write) (s : State), (s.ctx c).pending = [⟨due, false, w⟩] → due ≤ (s.ctx c).btime →
    exec (.exposedResultLands c) s = .next (s.setCtx c { (s.ctx c).land w with pending := [] })) ∧
  (∀ (f : FaultInfo) (s : State), State.unassigned f.cause = true →
    (∀ c id, exec (.deferredFailure c id f) s = .next s) ∧ ∀ c, exec (.trapEntry c f) s = .next s) ∧
  (∀ (f : FaultInfo) (g : Flight) (s : State), s.cx.flights = [g] → State.unassigned f.cause = false →
    ∃ t, exec (.deferredFailure s.here g.id f) s = .next t ∧
    t.cx.flights = [] ∧ (∀ r ∈ g.dests, (r, { f with i3 := g.header.setWidth 64 }) ∈ t.cx.deferred) ∧ t.cx.x = s.cx.x ∧ t.mem = s.mem) ∧
  (∀ (c : Nat) (f : FaultInfo) (s : State), (s.ctx c).occ = .occupied → State.unassigned f.cause = false → (s.ctx c).parked = none → (s.ctx c).opening = none →
    (s.ctx c).mode = .task → ∃ t, exec (.trapEntry c f) s = .next t ∧ (t.ctx c).mode = .supervisor ∧
      (t.ctx c).pc = s.trapVec (s.ctx c).id.space ∧ (t.ctx c).trap.tcause = f.cause.setWidth 64 ∧ (t.ctx c).trap.tinfo0 = f.i0 ∧
      (t.ctx c).trap.tinfo1 = f.i1 ∧ (t.ctx c).trap.tpc = ((s.ctx c).pc).setWidth 64)

/-- What a write of a control register does, for the host and the debugger (R343, R344, R409, R425, R426, R432 to R436): halt
request, resume and step, a write of a debug window, NSSET, CXLWIN, a space's release, PRECTL, FABCTL, PRESENCE,
attestation, keys, firmware staging and reset. The three register writes named by their offsets rest on the model's placing
of the blocks (log 8); KEYSTAT after a clear, NSSET's base cycle and its 4-byte halves, and the start of a report by ATTNONCE's last
bytes on log 33; the staged image, FWSTAT and FWDETAIL on log 34. -/
def Obligations.ControlEvents : Prop :=
  (∀ (c : Nat) (s : State),
    let x := s.ctx c
    (x.dbg.halted = false → exec (.dbgctlHaltreq c) s = .next (s.setCtx c { x with dbg := { x.dbg with haltReq := true } }) ∧
      (c = s.here → ∀ r : BitVec 4, 1 ≤ r.toNat → r.toNat ≤ 3 → ∃ t, exec (.debugHalt c r) s = .next t ∧ t.cx.dbg.halted = true ∧
        t.cx.dbg.reason = r ∧ t.cx.dbg.haltReq = false ∧ t.cx.pc = x.pc ∧ t.cx.pending = [] ∧ t.cx.x = x.drain.x) ∧
      (∃ t, exec (.debugHalt c 4) s = .next t ∧ (t.ctx c).dbg.halted = true ∧ (t.ctx c).dbg.reason = 4 ∧ (t.ctx c).pc = x.pc ∧
        (t.ctx c).x = x.drain.x ∧ t.dies = s.dies) ∧
      (∀ r : BitVec 4, r = 0 ∨ 4 < r.toNat → exec (.debugHalt c r) s = .next s)) ∧
    (x.dbg.halted = true → (∃ t, exec (.dbgctlResume c) s = .next t ∧ (t.ctx c).dbg.halted = false ∧ (t.ctx c).pc = x.pc ∧ t.mem = s.mem) ∧
      (∃ t, exec (.dbgctlStep c) s = .next t ∧ (t.ctx c).dbg.halted = false ∧ (t.ctx c).dbg.step = true ∧ (t.ctx c).pc = x.pc) ∧
      (∀ v : Dbl, exec (.debugWindowWrite c 0 v) s = .next s) ∧
      (∀ (n : Nat) (v : Dbl), 1 ≤ n → n < 32 → ∃ t, exec (.debugWindowWrite c (0x100 + 8 * n) v) s = .next t ∧
        (t.ctx c).getX (BitVec.ofNat 5 n) = v ∧ (t.ctx c).pc = x.pc))) ∧
  (∀ s : State, s.booted = true →
    (∀ v : Dbl, exec (.nsset v) s = .next { s with dev := { s.dev with nsBase := v, nsCycle := BitVec.ofNat 64 s.cycle } }) ∧
    (∀ (p : BitVec 2) (v : Dbl), ∃ old : Dbl, s.dev.cxlwin.toList[p.toNat]? = some old ∧
      exec (.cxlwinWrite p v) s = .next (s.setCxlwin ⟨p.toNat, p.isLt⟩ ((v &&& 0x80007FFF00003FFF) ||| (old &&& ~~~0x80007FFF00003FFF)))) ∧
    (∀ sp : BitVec 6, s.dev.spBusy = false →
      (s.spaceInUse sp = true →
        exec (.spaceRelease sp) s = .next { s with dev := { s.dev with spSpace := sp, spRefused := true } }) ∧
      (s.spaceInUse sp = false → s.fab.leases = [] → ∃ t, exec (.spaceRelease sp) s = .next t ∧ t.dev.spBusy = true ∧
        sp ∈ t.dev.released ∧ (∀ k ∈ t.sec.keys, k.space ≠ sp) ∧ (∀ e ∈ t.homes.versions, e.1.space ≠ sp) ∧
        (∀ n, ∀ e ∈ (t.core n).tlb, e.space ≠ sp) ∧ t.mem = s.mem)) ∧
    (∀ (cl : Nat) (k : BitVec 11) (e : Entry), cl < 64 → s.entry cl k.toNat = some e →
      (∃ t x, exec (.prectlRequest cl k) s = .next t ∧ t.entry cl k.toNat = some x ∧ x.hold = true ∧ x.desc = e.desc ∧
        (e.state = .running → x = { e with hold := true } ∧ (s.cycle, .preemption cl k.toNat) ∈ t.agenda) ∧
        (e.state = .ready → x.state = (if e.saved.isEmpty then .pending else .preempted) ∧ x.prey = [])) ∧
      (e.hold = true → (e.state = .ready ∨ e.state = .preempted) → ∃ t, exec (.prectlWithdraw cl k) s = .next t ∧
        t.entry cl k.toNat = some { e with hold := false } ∧
        (s.cycle, if e.state = .ready then .taskDispatch cl else .saveRecordComplete cl k.toNat) ∈ t.agenda)) ∧
    (∃ t, exec .fabricEnable s = .next t ∧ t.dev = { s.dev with fabEn := true } ∧ t.mem = s.mem) ∧
    exec .lightvesselEnable s = .next { s with dev := { s.dev with lvEn := true } } ∧
    (∀ v : BitVec 256, ∃ t, exec (.presenceWrite v) s = .next t ∧ t.dev.presence = v ∧ (s.dev.fabEn = true → ∀ d, d < 256 →
      (s.dev.presence.getLsbD d = true → v.getLsbD d = false → (t.peer d).fenced = true) ∧
      (s.dev.presence.getLsbD d = false → v.getLsbD d = true → (t.peer d).fenced = (s.peer d).fenced ∧ (t.peer d).lastFlit = s.cycle))) ∧
    (∀ v : Dbl, ∃ t, exec (.attestRequest v) s = .next t ∧ t.sec.busy = true ∧ t.sec.complete = false ∧
      t.sec.nonce.extractLsb' 448 64 = v ∧ t.sec.nonce.extractLsb' 0 448 = s.sec.nonce.extractLsb' 0 448 ∧ t.sec.latched = t.sec.nonce) ∧
    (s.sec.busy = true → ∃ t, exec .attestReady s = .next t ∧ t.sec.busy = false ∧ t.sec.complete = true ∧ t.mem = s.mem) ∧
    (∀ (sp : BitVec 6) (k : BitVec 4),
      (k = 0 ∨ 8 < k.toNat → exec (.keyLoad sp k) s = .next { s with sec := { s.sec with keystat := 5 } } ∧
        exec (.keyClear sp k) s = .next { s with sec := { s.sec with keystat := 5 } }) ∧
      (1 ≤ k.toNat → k.toNat ≤ 8 →
        (∃ t, exec (.keyClear sp k) s = .next t ∧ t.sec.keystat = 1 ∧ t.mem = s.mem ∧
          t.sec.keys = s.sec.keys.filter (fun (x : KeySlot) => !(x.space == sp && x.slot == k)) ∧
          (∀ x ∈ s.sec.keys, x.space = sp → x.slot = k →
            (∀ y ∈ t.fab.txns, y.flit.space = sp → x ∈ y.keys) ∧
            ∀ cl ∈ t.clusters, ∀ y ∈ cl.2.loam, (y.2.state = .filling ∨ y.2.state = .writeback) → y.2.tile.space = sp → x ∈ y.2.keys)) ∧
        (s.spaceValid sp = false → exec (.keyLoad sp k) s = .next { s with sec := { s.sec with keystat := 4 } }) ∧
        (s.spaceValid sp = true → s.keySlot sp (k.setWidth 8) = none → s.sec.keyblob.getLsbD 63 = false → ∀ (u : State) (b : List Nat),
          s.blobBytes (s.sec.keyblob.toNat % 2 ^ 60) 20 = (u, some b) → ∃ t, exec (.keyLoad sp k) s = .next t ∧ t.mem = u.mem ∧
          (keyUnwrap (u.blobKek (b.take 56)) 12 (b.drop 56) = none → t.sec.keystat = 2 ∧ t.sec.keys = u.sec.keys) ∧
          (∀ l, keyUnwrap (u.blobKek (b.take 56)) 12 (b.drop 56) = some l → t.sec.keystat = 1 ∧
            ∃ x, t.sec.keys = u.sec.keys ++ [x] ∧ x.space = sp ∧ x.slot = k))))) ∧
  (∀ (s : State) (len : Dbl),
    let r := State.verifyImage (s.stagedImage len.toNat)
    (s.booted = false → exec (.firmwareStage len) s = .next
      (if r = 0 then s.bootImage (s.stagedImage len.toNat) else { s with svc := { s.svc with fwstat := r, fwdetail := 0 } })) ∧
    (s.booted = true → s.svc.action = 0 → ∃ t, exec (.firmwareStage len) s = .next t ∧ t.svc.action = (if r = 0 then 5 else 0) ∧
      t.svc.svcstat = (if r = 0 then 0x501 else 0x504) ∧ t.mem = s.mem)) ∧
  (∀ s : State, ∃ t, exec .deviceReset s = .next t ∧ t.booted = false ∧ t.cx = State.reset.cx ∧ t.others = [] ∧ t.clusters = [] ∧
    t.svc.epoch = s.svc.epoch ∧ t.dev.hilmap = s.dev.hilmap ∧ t.dev.hilmapLive = s.dev.hilmap ∧ t.dev.devid = 0 ∧
    ((∀ w ∈ s.dev.cxlwin.toList, w.getLsbD 63 = false) →
      t.ports = s.ports ∧ t.homes.poison = (s.homes.poison.map fun l => localOf (128 * l) / 128) ∧
      (s.dev.hilmap = s.dev.hilmapLive → Memory.wf s.mem = true → (∀ x ∈ s.mem, s.devBase ≤ x.1 ∧ x.1 < s.devBase + 2 ^ 52) →
        ∀ a, a < 2 ^ 52 → t.byte a = s.byte (s.devBase + a)))) ∧
  (∀ (off : BitVec 32) (v : Dbl) (s : State),
    exec (.registerWrite off 8 v) s = .next (s.regPut (off.toNat / 8 * 8) (BitVec.allOnes 64) v) ∧
    (s.booted = true → exec (.registerWrite 0x10008 8 v) s = .next { s with dev := { s.dev with sptbase := v } } ∧
      exec (.registerWrite 0x10048 4 v) s = .next { s with dev := { s.dev with hilmap := v.setWidth 28 } } ∧
      exec (.registerWrite 0x10018 4 v) s = .next { s with dev := { s.dev with
        nsBase := (v &&& 0xFFFFFFFF) ||| (s.dev.nsBase &&& 0xFFFFFFFF00000000), nsCycle := BitVec.ofNat 64 s.cycle } }))

/-- R14, R431, R437 to R439: service and environment. While no other action runs, a die fence asks every running task of its die to
leave and an unfence lets its clusters dispatch again; a laser module is marked out or in; LEAVE floods the device's own death
notice, JOIN raises EPOCH and floods a join notice; a failed core's tasks are asked to leave; while an action runs, a second one is
refused with SVCSTAT. A die's average power and its temperature set and lift the withholding of cycles, the 100 W limit and the
fence of 115 °C. -/
def Obligations.ServiceEvents : Prop :=
  (∀ s : State, s.svc.action = 0 →
    (∀ d : BitVec 2,
      (s.svc.diefence.getLsbD d.toNat = false → ∃ t, exec (.dieFence d) s = .next t ∧ t.svc.diefence = s.svc.diefence ||| (1#4 <<< d.toNat) ∧
        t.svc.action = 1 ∧ t.svc.svcstat = 0x101 ∧ ∀ n c k e, (n, c) ∈ s.clusters → (k, e) ∈ c.entries → e.state = .running →
          n / 16 = d.toNat → (s.cycle, .preemption n k) ∈ t.agenda) ∧
      (s.svc.diefence.getLsbD d.toNat = true → ∃ t, exec (.dieUnfence d) s = .next t ∧
        t.svc.diefence = s.svc.diefence &&& ~~~(1#4 <<< d.toNat) ∧ t.svc.action = 1 ∧
        ∀ n, n < 16 → (s.cycle, .taskDispatch (16 * d.toNat + n)) ∈ t.agenda)) ∧
    (∀ dim mod : Bool, exec (.laserOut dim mod) s = .next { s with svc := { s.svc with
        action := 2, svcstat := 0x201, lasers := s.svc.lasers &&& ~~~(1#4 <<< (2 * dim.toNat + mod.toNat)) } } ∧
      exec (.laserIn dim mod) s = .next { s with svc := { s.svc with
        action := 2, svcstat := 0x201, lasers := s.svc.lasers ||| (1#4 <<< (2 * dim.toNat + mod.toNat)) } }) ∧
    (s.fab.txns = [] → s.homes.tokens = [] → s.homes.mcas = [] → (∀ c ∈ s.clusters, ∀ x ∈ c.2.loam, x.2.state ≠ .filling) →
      (s.peer s.dev.devid.toNat).deadEpoch = none → ∃ t, exec .fabricLeave s = .next t ∧ t.fab.fencedSelf = true ∧ t.svc.action = 3 ∧
      t.fab.notices = s.fab.notices ++ [(s.dev.devid, s.dev.devid, s.svc.epoch)]) ∧
    (∃ t, exec .fabricJoin s = .next t ∧ t.svc.epoch = s.svc.epoch + 1 ∧ t.fab.fencedSelf = false ∧ t.svc.action = 4 ∧
      t.fab.joins = s.fab.joins ++ [(s.dev.devid, s.svc.epoch + 1)]) ∧
    (∀ k : Nat, k < 1024 → ∃ t, exec (.spareCore k) s = .next t ∧ (t.core k).failed = true ∧ t.svc.action = 6 ∧
      ∀ n c j e, (n, c) ∈ s.clusters → (j, e) ∈ c.entries → e.state = .running → (∃ m ∈ e.members, m / 4 = k) →
        (s.cycle, .preemption n j) ∈ t.agenda)) ∧
  (∀ s : State, s.svc.action ≠ 0 →
    let refused := fun st : BitVec 16 => (.next { s with svc := { s.svc with svcstat := st } } : Host.Outcome State Fault Refusal)
    (∀ d : BitVec 2, (s.svc.diefence.getLsbD d.toNat = false → exec (.dieFence d) s = refused 0x102) ∧
      (s.svc.diefence.getLsbD d.toNat = true → exec (.dieUnfence d) s = refused 0x102)) ∧
    (∀ dim mod : Bool, exec (.laserOut dim mod) s = refused 0x202 ∧ exec (.laserIn dim mod) s = refused 0x202) ∧
    exec .fabricLeave s = refused 0x302 ∧ exec .fabricJoin s = refused 0x402 ∧ (∀ k : Nat, exec (.spareCore k) s = refused 0x602) ∧
    (s.booted = true → ∀ len : Dbl, exec (.firmwareStage len) s = refused 0x502)) ∧
  (∀ (s : State) (d : BitVec 2) (w : BitVec 16) (c : BitVec 8),
    let x := s.die d.toNat
    (s.powerLimit d.toNat < w.toNat →
      exec (.powerLimitExceeded d w) s = .next (s.setDie d.toNat { x with pwravg := w, withheld := true })) ∧
    (w.toNat < s.powerLimit d.toNat →
      exec (.powerBelowLimit d w) s = .next (s.setDie d.toNat { x with pwravg := w, withheld := false })) ∧
    (105 ≤ c.toNat → ∃ t, exec (.thermalThrottle d c) s = .next t ∧ (t.die d.toNat).temp = c ∧ t.powerLimit d.toNat = 100 ∧ t.mem = s.mem) ∧
    (c.toNat < 100 → ∃ t, exec (.thermalRecovery d c) s = .next t ∧ (t.die d.toNat).temp = c ∧
      t.powerLimit d.toNat = max 100 (min 520 (x.pwrlim.toNat % 1024)) ∧ t.mem = s.mem) ∧
    (115 ≤ c.toNat → x.temp.toNat < 115 → ∀ i : Instr, i ∈ ([.thermalFence d c, .thermalThrottle d c] : List Instr) →
      ∃ t e, exec i s = .next t ∧ (t.die d.toNat).temp = c ∧ t.powerLimit d.toNat = 100 ∧
        t.svc.diefence = s.svc.diefence ||| (1#4 <<< d.toNat) ∧ (t.die d.toNat).events = x.events ++ [e] ∧ e.cause = 0xB5 ∧
        e.d0 = c.setWidth 64))
end

