-- ==== Sys2Proof/Laws/Exec.lean ====
section
/-! SUPPORT. The meaning that exec gives each instruction, one equation a constructor, so that no proof unfolds the dispatch. -/

namespace Sys2Proof.Machine

theorem exec_emptyBundle (s : State) : exec (.emptyBundle d c) s = execEmptyBundle d c s := rfl
theorem exec_add (s : State) : exec (.add p d a b w) s = execAdd p d a b w s := rfl
theorem exec_sub (s : State) : exec (.sub p d a b w) s = execSub p d a b w s := rfl
theorem exec_and (s : State) : exec (.and p d a b w) s = execAnd p d a b w s := rfl
theorem exec_or (s : State) : exec (.or p d a b w) s = execOr p d a b w s := rfl
theorem exec_xor (s : State) : exec (.xor p d a b w) s = execXor p d a b w s := rfl
theorem exec_andn (s : State) : exec (.andn p d a b w) s = execAndn p d a b w s := rfl
theorem exec_shl (s : State) : exec (.shl p d a b w) s = execShl p d a b w s := rfl
theorem exec_shr (s : State) : exec (.shr p d a b w) s = execShr p d a b w s := rfl
theorem exec_sar (s : State) : exec (.sar p d a b w) s = execSar p d a b w s := rfl
theorem exec_rol (s : State) : exec (.rol p d a b w) s = execRol p d a b w s := rfl
theorem exec_minI (s : State) : exec (.minI p d a b w) s = execMinI p d a b w s := rfl
theorem exec_maxI (s : State) : exec (.maxI p d a b w) s = execMaxI p d a b w s := rfl
theorem exec_minN (s : State) : exec (.minN p d a b w) s = execMinN p d a b w s := rfl
theorem exec_maxN (s : State) : exec (.maxN p d a b w) s = execMaxN p d a b w s := rfl
theorem exec_mul (s : State) : exec (.mul p d a b w) s = execMul p d a b w s := rfl
theorem exec_mulhI (s : State) : exec (.mulhI p d a b w) s = execMulhI p d a b w s := rfl
theorem exec_mulhN (s : State) : exec (.mulhN p d a b w) s = execMulhN p d a b w s := rfl
theorem exec_divI (s : State) : exec (.divI p d a b w) s = execDivI p d a b w s := rfl
theorem exec_divN (s : State) : exec (.divN p d a b w) s = execDivN p d a b w s := rfl
theorem exec_remI (s : State) : exec (.remI p d a b w) s = execRemI p d a b w s := rfl
theorem exec_remN (s : State) : exec (.remN p d a b w) s = execRemN p d a b w s := rfl
theorem exec_clz (s : State) : exec (.clz p d a w) s = execClz p d a w s := rfl
theorem exec_ctz (s : State) : exec (.ctz p d a w) s = execCtz p d a w s := rfl
theorem exec_popc (s : State) : exec (.popc p d a w) s = execPopc p d a w s := rfl
theorem exec_brev (s : State) : exec (.brev p d a w) s = execBrev p d a w s := rfl
theorem exec_bswap (s : State) : exec (.bswap p d a w) s = execBswap p d a w s := rfl
theorem exec_sel (s : State) : exec (.sel p d a b w q) s = execSel p d a b w q s := rfl
theorem exec_adds (s : State) : exec (.adds p d a b w s0) s = execAdds p d a b w s0 s := rfl
theorem exec_extI (s : State) : exec (.extI p d a b) s = execExtI p d a b s := rfl
theorem exec_extN (s : State) : exec (.extN p d a b) s = execExtN p d a b s := rfl
theorem exec_ins (s : State) : exec (.ins p d a b) s = execIns p d a b s := rfl
theorem exec_cmp (s : State) : exec (.cmp p q a b w c) s = execCmp p q a b w c s := rfl
theorem exec_addi (s : State) : exec (.addi p d a i0 lit) s = execAddi p d a i0 lit s := rfl
theorem exec_andi (s : State) : exec (.andi p d a i0 lit) s = execAndi p d a i0 lit s := rfl
theorem exec_ori (s : State) : exec (.ori p d a i0 lit) s = execOri p d a i0 lit s := rfl
theorem exec_xori (s : State) : exec (.xori p d a i0 lit) s = execXori p d a i0 lit s := rfl
theorem exec_shli (s : State) : exec (.shli p d a i0 lit) s = execShli p d a i0 lit s := rfl
theorem exec_shri (s : State) : exec (.shri p d a i0 lit) s = execShri p d a i0 lit s := rfl
theorem exec_sari (s : State) : exec (.sari p d a i0 lit) s = execSari p d a i0 lit s := rfl
theorem exec_cmpi (s : State) : exec (.cmpi p c q a i0 lit) s = execCmpi p c q a i0 lit s := rfl
theorem exec_li (s : State) : exec (.li p d i0 lit) s = execLi p d i0 lit s := rfl
theorem exec_lih (s : State) : exec (.lih p d i0 lit) s = execLih p d i0 lit s := rfl
theorem exec_qlog (s : State) : exec (.qlog p d a b t) s = execQlog p d a b t s := rfl
theorem exec_pbr (s : State) : exec (.pbr p b o lit) s = execPbr p b o lit s := rfl
theorem exec_pbx (s : State) : exec (.pbx p b a) s = execPbx p b a s := rfl
theorem exec_br (s : State) : exec (.br p b) s = execBr p b s := rfl
theorem exec_call (s : State) : exec (.call p d b) s = execCall p d b s := rfl
theorem exec_loop (s : State) : exec (.loop p b a) s = execLoop p b a s := rfl
theorem exec_vany (s : State) : exec (.vany p d a b) s = execVany p d a b s := rfl
theorem exec_vall (s : State) : exec (.vall p d a b) s = execVall p d a b s := rfl
theorem exec_tend (s : State) : exec (.tend p) s = execTend p s := rfl
theorem exec_trap (s : State) : exec (.trap p c lit) s = execTrap p c lit s := rfl
theorem exec_brk (s : State) : exec (.brk p c) s = execBrk p c s := rfl
theorem exec_nap (s : State) : exec (.nap p a i0 lit) s = execNap p a i0 lit s := rfl
theorem exec_srd (s : State) : exec (.srd p d r lit) s = execSrd p d r lit s := rfl
theorem exec_swr (s : State) : exec (.swr p a r lit) s = execSwr p a r lit s := rfl
theorem exec_fence (s : State) : exec (.fence p c e f) s = execFence p c e f s := rfl
theorem exec_tret (s : State) : exec (.tret p) s = execTret p s := rfl
theorem exec_tretSkip (s : State) : exec (.tretSkip p) s = execTretSkip p s := rfl
theorem exec_tretEnd (s : State) : exec (.tretEnd p) s = execTretEnd p s := rfl
theorem exec_tretTo (s : State) : exec (.tretTo p a) s = execTretTo p a s := rfl
theorem exec_sys (s : State) : exec (.sys p s0 lit) s = execSys p s0 lit s := rfl
theorem exec_xtovBc (s : State) : exec (.xtovBc p v x t) s = execXtovBc p v x t s := rfl
theorem exec_xtovIns (s : State) : exec (.xtovIns p v x l t) s = execXtovIns p v x l t s := rfl
theorem exec_vtox (s : State) : exec (.vtox p v x l t) s = execVtox p v x l t s := rfl
theorem exec_vtoxR (s : State) : exec (.vtoxR p v x b t) s = execVtoxR p v x b t s := rfl
theorem exec_ktox (s : State) : exec (.ktox p k x) s = execKtox p k x s := rfl
theorem exec_xtok (s : State) : exec (.xtok p k x) s = execXtok p k x s := rfl
theorem exec_spawn (s : State) : exec (.spawn p b c a) s = execSpawn p b c a s := rfl
theorem exec_binit (s : State) : exec (.binit p a b) s = execBinit p a b s := rfl
theorem exec_barrive (s : State) : exec (.barrive p a) s = execBarrive p a s := rfl
theorem exec_bexpect (s : State) : exec (.bexpect p a b) s = execBexpect p a b s := rfl
theorem exec_bwait (s : State) : exec (.bwait p q a b) s = execBwait p q a b s := rfl
theorem exec_btest (s : State) : exec (.btest p d a h) s = execBtest p d a h s := rfl
theorem exec_breset (s : State) : exec (.breset p a) s = execBreset p a s := rfl
theorem exec_toksig (s : State) : exec (.toksig p a b) s = execToksig p a b s := rfl
theorem exec_tokwait (s : State) : exec (.tokwait p d a) s = execTokwait p d a s := rfl
theorem exec_gstart (s : State) : exec (.gstart p a b) s = execGstart p a b s := rfl
theorem exec_leaseReq (s : State) : exec (.leaseReq p d a b c) s = execLeaseReq p d a b c s := rfl
theorem exec_leaseRel (s : State) : exec (.leaseRel p a) s = execLeaseRel p a s := rfl
theorem exec_leaseQry (s : State) : exec (.leaseQry p d a) s = execLeaseQry p d a s := rfl
theorem exec_mqpush (s : State) : exec (.mqpush p v s0) s = execMqpush p v s0 s := rfl
theorem exec_mqstat (s : State) : exec (.mqstat p d s0) s = execMqstat p d s0 s := rfl
theorem exec_sbind (s : State) : exec (.sbind p w a b r h) s = execSbind p w a b r h s := rfl
theorem exec_sprobe (s : State) : exec (.sprobe p w a b h q f) s = execSprobe p w a b h q f s := rfl
theorem exec_snew (s : State) : exec (.snew p w a b c x) s = execSnew p w a b c x s := rfl
theorem exec_spub (s : State) : exec (.spub p w) s = execSpub p w s := rfl
theorem exec_srel (s : State) : exec (.srel p w) s = execSrel p w s := rfl
theorem exec_spin (s : State) : exec (.spin p w) s = execSpin p w s := rfl
theorem exec_spinRef (s : State) : exec (.spinRef p a b r h) s = execSpinRef p a b r h s := rfl
theorem exec_sunpin (s : State) : exec (.sunpin p w) s = execSunpin p w s := rfl
theorem exec_sunpinRef (s : State) : exec (.sunpinRef p a b) s = execSunpinRef p a b s := rfl
theorem exec_sseek (s : State) : exec (.sseek p w a i0 lit) s = execSseek p w a i0 lit s := rfl
theorem exec_sinfo (s : State) : exec (.sinfo p d w t) s = execSinfo p d w t s := rfl
theorem exec_sedge (s : State) : exec (.sedge p w a b) s = execSedge p w a b s := rfl
theorem exec_tldv (s : State) : exec (.tldv p v w k h) s = execTldv p v w k h s := rfl
theorem exec_tstv (s : State) : exec (.tstv p v w k h) s = execTstv p v w k h s := rfl
theorem exec_tldx (s : State) : exec (.tldx p v w k a) s = execTldx p v w k a s := rfl
theorem exec_twb (s : State) : exec (.twb p w) s = execTwb p w s := rfl
theorem exec_tpref (s : State) : exec (.tpref p a i0 lit) s = execTpref p a i0 lit s := rfl
theorem exec_wayconv (s : State) : exec (.wayconv p d i0 lit) s = execWayconv p d i0 lit s := rfl
theorem exec_wayrest (s : State) : exec (.wayrest p d i0 lit) s = execWayrest p d i0 lit s := rfl
theorem exec_lds (s : State) : exec (.lds p d a z s0 o lit) s = execLds p d a z s0 o lit s := rfl
theorem exec_sts (s : State) : exec (.sts p d a z o lit) s = execSts p d a z o lit s := rfl
theorem exec_ld (s : State) : exec (.ld p d a z s0 l o f lit) s = execLd p d a z s0 l o f lit s := rfl
theorem exec_ldp (s : State) : exec (.ldp p d a z s0 l o f lit) s = execLdp p d a z s0 l o f lit s := rfl
theorem exec_st (s : State) : exec (.st p d a z l o f lit) s = execSt p d a z l o f lit s := rfl
theorem exec_stp (s : State) : exec (.stp p d a z l o f lit) s = execStp p d a z l o f lit s := rfl
theorem exec_vld (s : State) : exec (.vld p v k a b z) s = execVld p v k a b z s := rfl
theorem exec_vgld (s : State) : exec (.vgld p v k a b z) s = execVgld p v k a b z s := rfl
theorem exec_vst (s : State) : exec (.vst p v k a b z) s = execVst p v k a b z s := rfl
theorem exec_vsst (s : State) : exec (.vsst p v k a b z) s = execVsst p v k a b z s := rfl
theorem exec_amo (s : State) : exec (.amo p d a b o z r) s = execAmo p d a b o z r s := rfl
theorem exec_cas (s : State) : exec (.cas p d a b z r) s = execCas p d a b z r s := rfl
theorem exec_vamo (s : State) : exec (.vamo p v a i0 k o) s = execVamo p v a i0 k o s := rfl
theorem exec_mcas (s : State) : exec (.mcas p d a c) s = execMcas p d a c s := rfl
theorem exec_rwb (s : State) : exec (.rwb p a b) s = execRwb p a b s := rfl
theorem exec_rinv (s : State) : exec (.rinv p a b) s = execRinv p a b s := rfl
theorem exec_rwbinv (s : State) : exec (.rwbinv p a b) s = execRwbinv p a b s := rfl
theorem exec_rstf (s : State) : exec (.rstf p v k a b) s = execRstf p v k a b s := rfl
theorem exec_acopy (s : State) : exec (.acopy p a i0 lit) s = execAcopy p a i0 lit s := rfl
theorem exec_pfl (s : State) : exec (.pfl p e a i0 lit) s = execPfl p e a i0 lit s := rfl
theorem exec_vadd (s : State) : exec (.vadd k d a b t) s = execVadd k d a b t s := rfl
theorem exec_vsub (s : State) : exec (.vsub k d a b t) s = execVsub k d a b t s := rfl
theorem exec_vmul (s : State) : exec (.vmul k d a b t) s = execVmul k d a b t s := rfl
theorem exec_vfma (s : State) : exec (.vfma k d a b t) s = execVfma k d a b t s := rfl
theorem exec_vfms (s : State) : exec (.vfms k d a b t) s = execVfms k d a b t s := rfl
theorem exec_vmin (s : State) : exec (.vmin k d a b t) s = execVmin k d a b t s := rfl
theorem exec_vmax (s : State) : exec (.vmax k d a b t) s = execVmax k d a b t s := rfl
theorem exec_vabs (s : State) : exec (.vabs k d a t) s = execVabs k d a t s := rfl
theorem exec_vneg (s : State) : exec (.vneg k d a t) s = execVneg k d a t s := rfl
theorem exec_vabd (s : State) : exec (.vabd k d a b t) s = execVabd k d a b t s := rfl
theorem exec_vadds (s : State) : exec (.vadds k d a b t) s = execVadds k d a b t s := rfl
theorem exec_vsubs (s : State) : exec (.vsubs k d a b t) s = execVsubs k d a b t s := rfl
theorem exec_vmulh (s : State) : exec (.vmulh k d a b t) s = execVmulh k d a b t s := rfl
theorem exec_vshl (s : State) : exec (.vshl k d a b t) s = execVshl k d a b t s := rfl
theorem exec_vshr (s : State) : exec (.vshr k d a b t) s = execVshr k d a b t s := rfl
theorem exec_vsar (s : State) : exec (.vsar k d a b t) s = execVsar k d a b t s := rfl
theorem exec_vand (s : State) : exec (.vand k d a b t) s = execVand k d a b t s := rfl
theorem exec_vor (s : State) : exec (.vor k d a b t) s = execVor k d a b t s := rfl
theorem exec_vxor (s : State) : exec (.vxor k d a b t) s = execVxor k d a b t s := rfl
theorem exec_vandn (s : State) : exec (.vandn k d a b t) s = execVandn k d a b t s := rfl
theorem exec_vpopc (s : State) : exec (.vpopc k d a t) s = execVpopc k d a t s := rfl
theorem exec_vclz (s : State) : exec (.vclz k d a t) s = execVclz k d a t s := rfl
theorem exec_vceq (s : State) : exec (.vceq k d a b t) s = execVceq k d a b t s := rfl
theorem exec_vcne (s : State) : exec (.vcne k d a b t) s = execVcne k d a b t s := rfl
theorem exec_vclt (s : State) : exec (.vclt k d a b t) s = execVclt k d a b t s := rfl
theorem exec_vcle (s : State) : exec (.vcle k d a b t) s = execVcle k d a b t s := rfl
theorem exec_vsel (s : State) : exec (.vsel k d a b t) s = execVsel k d a b t s := rfl
theorem exec_vmov (s : State) : exec (.vmov k d a t) s = execVmov k d a t s := rfl
theorem exec_vimm (s : State) : exec (.vimm k d i0 t lit) s = execVimm k d i0 t lit s := rfl
theorem exec_viota (s : State) : exec (.viota k d i0 t lit) s = execViota k d i0 t lit s := rfl
theorem exec_vcvt (s : State) : exec (.vcvt k d a m s0 t) s = execVcvt k d a m s0 t s := rfl
theorem exec_vrnd (s : State) : exec (.vrnd k d a m t) s = execVrnd k d a m t s := rfl
theorem exec_vexp2 (s : State) : exec (.vexp2 k d a t) s = execVexp2 k d a t s := rfl
theorem exec_vlog2 (s : State) : exec (.vlog2 k d a t) s = execVlog2 k d a t s := rfl
theorem exec_vrcp (s : State) : exec (.vrcp k d a t) s = execVrcp k d a t s := rfl
theorem exec_vrsq (s : State) : exec (.vrsq k d a t) s = execVrsq k d a t s := rfl
theorem exec_vredsum (s : State) : exec (.vredsum k d a t) s = execVredsum k d a t s := rfl
theorem exec_vredmin (s : State) : exec (.vredmin k d a t) s = execVredmin k d a t s := rfl
theorem exec_vredmax (s : State) : exec (.vredmax k d a t) s = execVredmax k d a t s := rfl
theorem exec_vscan (s : State) : exec (.vscan k d a o t) s = execVscan k d a o t s := rfl
theorem exec_vperm (s : State) : exec (.vperm k d a b t) s = execVperm k d a b t s := rfl
theorem exec_vslide (s : State) : exec (.vslide k d a i0 t lit) s = execVslide k d a i0 t lit s := rfl
theorem exec_vtopk (s : State) : exec (.vtopk k d a t) s = execVtopk k d a t s := rfl
theorem exec_vbset (s : State) : exec (.vbset k d b) s = execVbset k d b s := rfl
theorem exec_vkand (s : State) : exec (.vkand d a b) s = execVkand d a b s := rfl
theorem exec_vkor (s : State) : exec (.vkor d a b) s = execVkor d a b s := rfl
theorem exec_vkxor (s : State) : exec (.vkxor d a b) s = execVkxor d a b s := rfl
theorem exec_vkandn (s : State) : exec (.vkandn d a b) s = execVkandn d a b s := rfl
theorem exec_vkpop (s : State) : exec (.vkpop d a) s = execVkpop d a s := rfl
theorem exec_vkfirst (s : State) : exec (.vkfirst d a) s = execVkfirst d a s := rfl
theorem exec_vshli (s : State) : exec (.vshli k d a i0 t lit) s = execVshli k d a i0 t lit s := rfl
theorem exec_vshri (s : State) : exec (.vshri k d a i0 t lit) s = execVshri k d a i0 t lit s := rfl
theorem exec_vsari (s : State) : exec (.vsari k d a i0 t lit) s = execVsari k d a i0 t lit s := rfl
theorem exec_mpass (s : State) : exec (.mpass p a w b o k j) s = execMpass p a w b o k j s := rfl
theorem exec_mop (s : State) : exec (.mop p o) s = execMop p o s := rfl
theorem exec_mgath (s : State) : exec (.mgath p v w k) s = execMgath p v w k s := rfl
theorem exec_minit (s : State) : exec (.minit p a s0 i0 x) s = execMinit p a s0 i0 x s := rfl
theorem exec_mrd (s : State) : exec (.mrd p a r t v k) s = execMrd p a r t v k s := rfl
theorem exec_mwr (s : State) : exec (.mwr p a r t v k) s = execMwr p a r t v k s := rfl
theorem exec_mst (s : State) : exec (.mst p a w q) s = execMst p a w q s := rfl
theorem exec_mqpushFullTimeout (s : State) : exec (.mqpushFullTimeout c) s = execMqpushFullTimeout c s := rfl
theorem exec_mcasLockTimeout (s : State) : exec (.mcasLockTimeout m) s = execMcasLockTimeout m s := rfl
theorem exec_mstComplete (s : State) : exec (.mstComplete c) s = execMstComplete c s := rfl
theorem exec_interlockedCompletion (s : State) : exec (.interlockedCompletion c k0) s = execInterlockedCompletion c k0 s := rfl
theorem exec_lanternAccept (s : State) : exec (.lanternAccept cl desc addr graph) s = execLanternAccept cl desc addr graph s := rfl
theorem exec_inputArrival (s : State) : exec (.inputArrival cl entry map) s = execInputArrival cl entry map s := rfl
theorem exec_taskDispatch (s : State) : exec (.taskDispatch cl) s = execTaskDispatch cl s := rfl
theorem exec_classAgeing (s : State) : exec (.classAgeing cl entry) s = execClassAgeing cl entry s := rfl
theorem exec_class0PreemptDecision (s : State) : exec (.class0PreemptDecision cl entry) s = execClass0PreemptDecision cl entry s := rfl
theorem exec_versionWaitTimeout (s : State) : exec (.versionWaitTimeout u) s = execVersionWaitTimeout u s := rfl
theorem exec_parkedTaskResume (s : State) : exec (.parkedTaskResume c) s = execParkedTaskResume c s := rfl
theorem exec_memberEnd (s : State) : exec (.memberEnd c) s = execMemberEnd c s := rfl
theorem exec_preemption (s : State) : exec (.preemption cl entry) s = execPreemption cl entry s := rfl
theorem exec_saveRecordComplete (s : State) : exec (.saveRecordComplete cl entry) s = execSaveRecordComplete cl entry s := rfl
theorem exec_taskResume (s : State) : exec (.taskResume cl entry) s = execTaskResume cl entry s := rfl
theorem exec_loamAllocation (s : State) : exec (.loamAllocation cl slice) s = execLoamAllocation cl slice s := rfl
theorem exec_allocationTimeout (s : State) : exec (.allocationTimeout cl k0) s = execAllocationTimeout cl k0 s := rfl
theorem exec_homeTileRequest (s : State) : exec (.homeTileRequest r) s = execHomeTileRequest r s := rfl
theorem exec_awaitListRetry (s : State) : exec (.awaitListRetry r wait) s = execAwaitListRetry r wait s := rfl
theorem exec_tileFill (s : State) : exec (.tileFill cl slot) s = execTileFill cl slot s := rfl
theorem exec_tileForward (s : State) : exec (.tileForward r holder v) s = execTileForward r holder v s := rfl
theorem exec_snewAtHome (s : State) : exec (.snewAtHome c tile n next) s = execSnewAtHome c tile n next s := rfl
theorem exec_publishAtHome (s : State) : exec (.publishAtHome tile v cl) s = execPublishAtHome tile v cl s := rfl
theorem exec_abandonAtHome (s : State) : exec (.abandonAtHome tile v) s = execAbandonAtHome tile v s := rfl
theorem exec_tileWritebackMerge (s : State) : exec (.tileWritebackMerge cl slot) s = execTileWritebackMerge cl slot s := rfl
theorem exec_wayconvPinTimeout (s : State) : exec (.wayconvPinTimeout cl) s = execWayconvPinTimeout cl s := rfl
theorem exec_wayWake (s : State) : exec (.wayWake cl slice way) s = execWayWake cl slice way s := rfl
theorem exec_itineraryEntry (s : State) : exec (.itineraryEntry cl k0) s = execItineraryEntry cl k0 s := rfl
theorem exec_lineWriteMiss (s : State) : exec (.lineWriteMiss n0 k0) s = execLineWriteMiss n0 k0 s := rfl
theorem exec_copyUnitLands (s : State) : exec (.copyUnitLands cl copy) s = execCopyUnitLands cl copy s := rfl
theorem exec_bwaitPoll (s : State) : exec (.bwaitPoll c k0) s = execBwaitPoll c k0 s := rfl
theorem exec_launchNode (s : State) : exec (.launchNode b) s = execLaunchNode b s := rfl
theorem exec_ifNode (s : State) : exec (.ifNode b) s = execIfNode b s := rfl
theorem exec_whileNode (s : State) : exec (.whileNode b) s = execWhileNode b s := rfl
theorem exec_switchNode (s : State) : exec (.switchNode b) s = execSwitchNode b s := rfl
theorem exec_signalNode (s : State) : exec (.signalNode b) s = execSignalNode b s := rfl
theorem exec_waitNode (s : State) : exec (.waitNode b) s = execWaitNode b s := rfl
theorem exec_callNode (s : State) : exec (.callNode b) s = execCallNode b s := rfl
theorem exec_endNode (s : State) : exec (.endNode b) s = execEndNode b s := rfl
theorem exec_launchWatchMet (s : State) : exec (.launchWatchMet b) s = execLaunchWatchMet b s := rfl
theorem exec_liveNodeTimeout (s : State) : exec (.liveNodeTimeout b) s = execLiveNodeTimeout b s := rfl
theorem exec_cmdStart (s : State) : exec (.cmdStart q) s = execCmdStart q s := rfl
theorem exec_cmdTask (s : State) : exec (.cmdTask q) s = execCmdTask q s := rfl
theorem exec_cmdSignal (s : State) : exec (.cmdSignal q) s = execCmdSignal q s := rfl
theorem exec_tokenWaitRetry (s : State) : exec (.tokenWaitRetry k0 wait) s = execTokenWaitRetry k0 wait s := rfl
theorem exec_tokenReexamine (s : State) : exec (.tokenReexamine gpa) s = execTokenReexamine gpa s := rfl
theorem exec_transactionResend (s : State) : exec (.transactionResend k0) s = execTransactionResend k0 s := rfl
theorem exec_fabricTimeout (s : State) : exec (.fabricTimeout k0) s = execFabricTimeout k0 s := rfl
theorem exec_leaseHeadGrant (s : State) : exec (.leaseHeadGrant dim) s = execLeaseHeadGrant dim s := rfl
theorem exec_leaseTuned (s : State) : exec (.leaseTuned k0) s = execLeaseTuned k0 s := rfl
theorem exec_leaseTermExpiry (s : State) : exec (.leaseTermExpiry k0) s = execLeaseTermExpiry k0 s := rfl
theorem exec_leaseNoticeExpiry (s : State) : exec (.leaseNoticeExpiry k0) s = execLeaseNoticeExpiry k0 s := rfl
theorem exec_leaseDrained (s : State) : exec (.leaseDrained k0) s = execLeaseDrained k0 s := rfl
theorem exec_leaseQueueExpiry (s : State) : exec (.leaseQueueExpiry k0) s = execLeaseQueueExpiry k0 s := rfl
theorem exec_leaseEntryTimeout (s : State) : exec (.leaseEntryTimeout k0) s = execLeaseEntryTimeout k0 s := rfl
theorem exec_guestPreemptLate (s : State) : exec (.guestPreemptLate space) s = execGuestPreemptLate space s := rfl
theorem exec_napEnd (s : State) : exec (.napEnd c) s = execNapEnd c s := rfl
theorem exec_mpassLands (s : State) : exec (.mpassLands c) s = execMpassLands c s := rfl
theorem exec_ageOverride (s : State) : exec (.ageOverride n0) s = execAgeOverride n0 s := rfl
theorem exec_exposedResultLands (s : State) : exec (.exposedResultLands c) s = execExposedResultLands c s := rfl
theorem exec_deferredFailure (s : State) : exec (.deferredFailure c k0 f) s = execDeferredFailure c k0 f s := rfl
theorem exec_trapEntry (s : State) : exec (.trapEntry c f) s = execTrapEntry c f s := rfl
theorem exec_wayGate (s : State) : exec (.wayGate cl slice way) s = execWayGate cl slice way s := rfl
theorem exec_lineReadMiss (s : State) : exec (.lineReadMiss n0 line) s = execLineReadMiss n0 line s := rfl
theorem exec_lineInvalidation (s : State) : exec (.lineInvalidation n0 line) s = execLineInvalidation n0 line s := rfl
theorem exec_lineEviction (s : State) : exec (.lineEviction n0 line) s = execLineEviction n0 line s := rfl
theorem exec_byteMaskMerge (s : State) : exec (.byteMaskMerge line mask data) s = execByteMaskMerge line mask data s := rfl
theorem exec_copyFault (s : State) : exec (.copyFault cl copy cause) s = execCopyFault cl copy cause s := rfl
theorem exec_qtailDoorbell (s : State) : exec (.qtailDoorbell q tail) s = execQtailDoorbell q tail s := rfl
theorem exec_dbgctlHaltreq (s : State) : exec (.dbgctlHaltreq c) s = execDbgctlHaltreq c s := rfl
theorem exec_dbgctlResume (s : State) : exec (.dbgctlResume c) s = execDbgctlResume c s := rfl
theorem exec_dbgctlStep (s : State) : exec (.dbgctlStep c) s = execDbgctlStep c s := rfl
theorem exec_debugHalt (s : State) : exec (.debugHalt c reason) s = execDebugHalt c reason s := rfl
theorem exec_debugWindowWrite (s : State) : exec (.debugWindowWrite c off val) s = execDebugWindowWrite c off val s := rfl
theorem exec_tlbinvAll (s : State) : exec (.tlbinvAll) s = execTlbinvAll s := rfl
theorem exec_tlbinvSpace (s : State) : exec (.tlbinvSpace space) s = execTlbinvSpace space s := rfl
theorem exec_tlbinvPage (s : State) : exec (.tlbinvPage space page) s = execTlbinvPage space page s := rfl
theorem exec_flitReplay (s : State) : exec (.flitReplay peer dim ch) s = execFlitReplay peer dim ch s := rfl
theorem exec_channelRetrain (s : State) : exec (.channelRetrain peer dim ch) s = execChannelRetrain peer dim ch s := rfl
theorem exec_channelSpare (s : State) : exec (.channelSpare dim ch) s = execChannelSpare dim ch s := rfl
theorem exec_flitAgeDiscard (s : State) : exec (.flitAgeDiscard f) s = execFlitAgeDiscard f s := rfl
theorem exec_rd (s : State) : exec (.rd f) s = execRd f s := rfl
theorem exec_rdl (s : State) : exec (.rdl f) s = execRdl f s := rfl
theorem exec_wr (s : State) : exec (.wr f) s = execWr f s := rfl
theorem exec_wrm (s : State) : exec (.wrm f) s = execWrm f s := rfl
theorem exec_fabricAmo (s : State) : exec (.fabricAmo f) s = execFabricAmo f s := rfl
theorem exec_fabricRstf (s : State) : exec (.fabricRstf f) s = execFabricRstf f s := rfl
theorem exec_greq (s : State) : exec (.greq f) s = execGreq f s := rfl
theorem exec_grev (s : State) : exec (.grev f) s = execGrev f s := rfl
theorem exec_gack (s : State) : exec (.gack f) s = execGack f s := rfl
theorem exec_mlock (s : State) : exec (.mlock f) s = execMlock f s := rfl
theorem exec_mdec (s : State) : exec (.mdec f) s = execMdec f s := rfl
theorem exec_mcommit (s : State) : exec (.mcommit f) s = execMcommit f s := rfl
theorem exec_mquery (s : State) : exec (.mquery f) s = execMquery f s := rfl
theorem exec_treq (s : State) : exec (.treq f) s = execTreq f s := rfl
theorem exec_twbTxn (s : State) : exec (.twbTxn f) s = execTwbTxn f s := rfl
theorem exec_tok (s : State) : exec (.tok f) s = execTok f s := rfl
theorem exec_cpl (s : State) : exec (.cpl f) s = execCpl f s := rfl
theorem exec_hb (s : State) : exec (.hb f) s = execHb f s := rfl
theorem exec_flitBadType (s : State) : exec (.flitBadType f dim ch) s = execFlitBadType f dim ch s := rfl
theorem exec_heartbeatDue (s : State) : exec (.heartbeatDue peer dim ch) s = execHeartbeatDue peer dim ch s := rfl
theorem exec_linkSilence (s : State) : exec (.linkSilence peer) s = execLinkSilence peer s := rfl
theorem exec_deathNotice (s : State) : exec (.deathNotice dead reporter epoch) s = execDeathNotice dead reporter epoch s := rfl
theorem exec_joinNotice (s : State) : exec (.joinNotice dev epoch) s = execJoinNotice dev epoch s := rfl
theorem exec_leaseReserveReply (s : State) : exec (.leaseReserveReply k0 ok) s = execLeaseReserveReply k0 ok s := rfl
theorem exec_guestTakePacket (s : State) : exec (.guestTakePacket q) s = execGuestTakePacket q s := rfl
theorem exec_guestCoherentRequest (s : State) : exec (.guestCoherentRequest q idx space va write data mask) s = execGuestCoherentRequest q idx space va write data mask s := rfl
theorem exec_guestCompletion (s : State) : exec (.guestCompletion q idx result) s = execGuestCompletion q idx result s := rfl
theorem exec_guestFault (s : State) : exec (.guestFault q idx translation detail) s = execGuestFault q idx translation detail s := rfl
theorem exec_guestStopped (s : State) : exec (.guestStopped space) s = execGuestStopped space s := rfl
theorem exec_guestSaved (s : State) : exec (.guestSaved space) s = execGuestSaved space s := rfl
theorem exec_guestPowerOverrun (s : State) : exec (.guestPowerOverrun) s = execGuestPowerOverrun s := rfl
theorem exec_mgpreRequest (s : State) : exec (.mgpreRequest space) s = execMgpreRequest space s := rfl
theorem exec_mgpreResume (s : State) : exec (.mgpreResume space) s = execMgpreResume space s := rfl
theorem exec_cxlwinWrite (s : State) : exec (.cxlwinWrite p val) s = execCxlwinWrite p val s := rfl
theorem exec_patrolScrub (s : State) : exec (.patrolScrub ch) s = execPatrolScrub ch s := rfl
theorem exec_rowRepair (s : State) : exec (.rowRepair ch row last) s = execRowRepair ch row last s := rfl
theorem exec_spaceRelease (s : State) : exec (.spaceRelease space) s = execSpaceRelease space s := rfl
theorem exec_nsset (s : State) : exec (.nsset val) s = execNsset val s := rfl
theorem exec_prectlRequest (s : State) : exec (.prectlRequest cl entry) s = execPrectlRequest cl entry s := rfl
theorem exec_prectlWithdraw (s : State) : exec (.prectlWithdraw cl entry) s = execPrectlWithdraw cl entry s := rfl
theorem exec_fabricEnable (s : State) : exec (.fabricEnable) s = execFabricEnable s := rfl
theorem exec_lightvesselEnable (s : State) : exec (.lightvesselEnable) s = execLightvesselEnable s := rfl
theorem exec_presenceWrite (s : State) : exec (.presenceWrite val) s = execPresenceWrite val s := rfl
theorem exec_attestRequest (s : State) : exec (.attestRequest last) s = execAttestRequest last s := rfl
theorem exec_attestReady (s : State) : exec (.attestReady) s = execAttestReady s := rfl
theorem exec_keyLoad (s : State) : exec (.keyLoad space slot) s = execKeyLoad space slot s := rfl
theorem exec_keyClear (s : State) : exec (.keyClear space slot) s = execKeyClear space slot s := rfl
theorem exec_firmwareStage (s : State) : exec (.firmwareStage len) s = execFirmwareStage len s := rfl
theorem exec_deviceReset (s : State) : exec (.deviceReset) s = execDeviceReset s := rfl
theorem exec_dieFence (s : State) : exec (.dieFence die) s = execDieFence die s := rfl
theorem exec_dieUnfence (s : State) : exec (.dieUnfence die) s = execDieUnfence die s := rfl
theorem exec_laserOut (s : State) : exec (.laserOut dim mod) s = execLaserOut dim mod s := rfl
theorem exec_laserIn (s : State) : exec (.laserIn dim mod) s = execLaserIn dim mod s := rfl
theorem exec_fabricLeave (s : State) : exec (.fabricLeave) s = execFabricLeave s := rfl
theorem exec_fabricJoin (s : State) : exec (.fabricJoin) s = execFabricJoin s := rfl
theorem exec_spareCore (s : State) : exec (.spareCore n0) s = execSpareCore n0 s := rfl
theorem exec_powerLimitExceeded (s : State) : exec (.powerLimitExceeded die watts) s = execPowerLimitExceeded die watts s := rfl
theorem exec_thermalThrottle (s : State) : exec (.thermalThrottle die temp) s = execThermalThrottle die temp s := rfl
theorem exec_thermalFence (s : State) : exec (.thermalFence die temp) s = execThermalFence die temp s := rfl
theorem exec_registerWrite (s : State) : exec (.registerWrite off size val) s = execRegisterWrite off size val s := rfl
theorem exec_guestLinkFailure (s : State) : exec (.guestLinkFailure module dead) s = execGuestLinkFailure module dead s := rfl
theorem exec_retrainComplete (s : State) : exec (.retrainComplete peer dim ch ok) s = execRetrainComplete peer dim ch ok s := rfl
theorem exec_thermalRecovery (s : State) : exec (.thermalRecovery die temp) s = execThermalRecovery die temp s := rfl
theorem exec_powerBelowLimit (s : State) : exec (.powerBelowLimit die watts) s = execPowerBelowLimit die watts s := rfl
theorem exec_hostSnoop (s : State) : exec (.hostSnoop line inv) s = execHostSnoop line inv s := rfl

end Sys2Proof.Machine
end

