-- ==== Sys2Proof/Laws/Lanes.lean ====
section
/-! SUPPORT. Vector registers and masks built lane by lane give each lane back. -/

namespace Sys2Proof.Machine

/-- Digit i of a packing is container i. -/
theorem packLanes_digit : ∀ (l : List (BitVec 32)) (i : Nat), packLanes l / 2 ^ (32 * i) % 2 ^ 32 = (l[i]?.getD 0).toNat
  | [], i => by simp [packLanes]
  | c :: r, 0 => by
    have := c.isLt
    simp only [packLanes, Nat.mul_zero, Nat.pow_zero, Nat.div_one, List.getElem?_cons_zero, Option.getD_some]
    omega
  | c :: r, i + 1 => by
    have hc := c.isLt
    have e : 2 ^ (32 * (i + 1)) = 2 ^ 32 * 2 ^ (32 * i) := by rw [← Nat.pow_add]; congr 1; omega
    simp only [packLanes, List.getElem?_cons_succ]
    rw [e, ← Nat.div_div_eq_div_mul, Nat.add_mul_div_left _ _ (Nat.two_pow_pos 32), Nat.div_eq_of_lt hc, Nat.zero_add,
      packLanes_digit r i]

/-- Lane i of a register of containers is container i. -/
theorem lane_ofLanes (l : List (BitVec 32)) (i : Nat) (h : i < 64) : lane (ofLanes l) i = l[i]?.getD 0 := by
  apply BitVec.eq_of_toNat_eq
  simp only [lane, ofLanes, BitVec.extractLsb'_toNat, BitVec.toNat_ofNat, Nat.shiftRight_eq_div_pow]
  rw [← packLanes_digit l i]
  have e : 2 ^ 2048 = 2 ^ (32 * i) * 2 ^ (2048 - 32 * i) := by rw [← Nat.pow_add]; congr 1; omega
  rw [e, Nat.mod_mul_right_div_self]
  exact Nat.mod_mod_of_dvd _ (Nat.pow_dvd_pow 2 (by omega))
/-- Lane i of a register built from a function is the function at i. -/
theorem lane_mkVReg (f : Nat → BitVec 32) (i : Nat) (h : i < 64) : lane (mkVReg f) i = f i := by
  rw [mkVReg, lane_ofLanes _ _ h]
  simp [h]
/-- Lanes of bitwise combinations. -/
theorem lane_and (a b : VReg) (i : Nat) : lane (a &&& b) i = lane a i &&& lane b i := by
  simp only [lane, BitVec.extractLsb'_and]
theorem lane_or (a b : VReg) (i : Nat) : lane (a ||| b) i = lane a i ||| lane b i := by
  simp only [lane, BitVec.extractLsb'_or]
theorem lane_not (a : VReg) (i : Nat) (h : i < 64) : lane (~~~a) i = ~~~lane a i := by
  simp only [lane]
  ext j hj
  simp only [BitVec.getElem_extractLsb', BitVec.getElem_not, BitVec.getLsbD_not]
  have : 32 * i + j < 2048 := by omega
  simp [this]
/-- A masked write takes the lanes of the mask from the new value and the others from the old one (R137). -/
theorem lane_select (m : BitVec 64) (d v : VReg) (i : Nat) (h : i < 64) :
    lane ((d &&& laneSelect m) ||| (v &&& ~~~laneSelect m)) i = if m.getLsbD i then lane d i else lane v i := by
  rw [lane_or, lane_and, lane_and, lane_not _ _ h, laneSelect, lane_mkVReg _ _ h]
  split
  · simp [-BitVec.reduceAllOnes]
  · simp [-BitVec.reduceAllOnes]

/-- Summing the powers of the chosen indices sets exactly their bits. -/
theorem maskSum_testBit (f : Nat → Bool) : ∀ n i, ((List.range n).foldl (fun a i => if f i then a + 2 ^ i else a) 0).testBit i
    = (decide (i < n) && f i) ∧ (List.range n).foldl (fun a i => if f i then a + 2 ^ i else a) 0 < 2 ^ n
  | 0, i => by simp
  | n + 1, i => by
    obtain ⟨h1, h2⟩ := maskSum_testBit f n i
    rw [List.range_succ, List.foldl_append]
    simp only [List.foldl_cons, List.foldl_nil]
    generalize (List.range n).foldl (fun a i => if f i then a + 2 ^ i else a) 0 = t at h1 h2
    by_cases hn : f n
    · simp only [hn, if_true]
      constructor
      · rw [Nat.add_comm]
        by_cases hi : i = n
        · subst hi
          rw [Nat.testBit_two_pow_add_eq, Nat.testBit_lt_two_pow h2]
          simp [hn]
        · by_cases hl : i < n
          · rw [Nat.testBit_two_pow_add_gt hl, h1]
            simp [hl, Nat.lt_succ_of_lt hl]
          · have hb : 2 ^ n + t < 2 ^ i :=
              Nat.lt_of_lt_of_le (show 2 ^ n + t < 2 ^ (n + 1) by rw [Nat.pow_succ]; omega)
                (Nat.pow_le_pow_right (by decide) (by omega))
            rw [Nat.testBit_lt_two_pow hb]
            have : ¬ i < n + 1 := by omega
            simp [this]
      · rw [Nat.pow_succ]; omega
    · simp only [hn]
      constructor
      · rw [if_neg (by simp), h1]
        by_cases hi : i = n
        · subst hi; simp [hn]
        · have : (i < n + 1) = (i < n) := by apply propext; omega
          simp [this]
      · rw [if_neg (by simp), Nat.pow_succ]; omega
/-- Bit i of a mask built from a function is the function at i. -/
theorem mkMask_getLsbD (f : Nat → Bool) (i : Nat) (h : i < 64) : (mkMask f).getLsbD i = f i := by
  rw [mkMask, BitVec.getLsbD_ofNat, (maskSum_testBit f 64 i).1]
  simp [h]

end Sys2Proof.Machine
end

