-- ==== Sys2Proof/Laws/Memory.lean ====
section
/-! SUPPORT. The laws of memory bytes: every write keeps the canonical form, a read after a write gives the byte written, and a
write leaves every other byte alone. -/

namespace Sys2Proof.Machine

/-- Every address of the list is above n. -/
def Memory.above (n : Nat) : List Host.Cell → Prop
  | [] => True
  | (k, _) :: _ => n < k

theorem Memory.wf_cons (k : Nat) (b : BitVec 8) (r : List Host.Cell) :
    Memory.wf ((k, b) :: r) = true ↔ b ≠ blankByte ∧ Memory.above k r ∧ Memory.wf r = true := by
  cases r with
  | nil => simp [Memory.wf, Memory.above]
  | cons p r =>
    obtain ⟨j, c⟩ := p
    simp only [Memory.wf, Memory.above, Bool.and_eq_true, decide_eq_true_eq, bne_iff_ne, ne_eq]
    tauto

theorem Memory.above_cellWrite {n a : Nat} (b : BitVec 8) (ha : n < a) :
    ∀ m : List Host.Cell, Memory.wf m = true → Memory.above n m → Memory.above n (cellWrite m a b)
  | [], _, _ => by
    unfold cellWrite
    split
    · trivial
    · exact ha
  | (k, c) :: r, hw, h => by
    obtain ⟨-, hk, -⟩ := (Memory.wf_cons k c r).1 hw
    unfold cellWrite
    split
    · split
      · exact h
      · exact ha
    · split
      · split
        · cases r with
          | nil => trivial
          | cons p r => exact Nat.lt_trans h hk
        · exact ha
      · exact h

/-- A write keeps the canonical form. -/
theorem Memory.wf_cellWrite (a : Nat) (b : BitVec 8) :
    ∀ m : List Host.Cell, Memory.wf m = true → Memory.wf (cellWrite m a b) = true
  | [], _ => by
    unfold cellWrite
    split
    · rfl
    · rename_i h
      simpa [Memory.wf] using h
  | (k, c) :: r, hw => by
    obtain ⟨hc, hk, hr⟩ := (Memory.wf_cons k c r).1 hw
    unfold cellWrite
    split
    · rename_i hlt
      split
      · exact hw
      · rename_i hb
        exact (Memory.wf_cons a b _).2 ⟨by simpa using hb, hlt, hw⟩
    · split
      · rename_i he
        have he' : a = k := by simpa using he
        split
        · exact hr
        · rename_i hb
          exact (Memory.wf_cons a b r).2 ⟨by simpa using hb, he' ▸ hk, hr⟩
      · rename_i hn he
        have he' : a ≠ k := by simpa using he
        exact (Memory.wf_cons k c _).2 ⟨hc, Memory.above_cellWrite b (by omega) r hr hk, Memory.wf_cellWrite a b r hr⟩

theorem Memory.wf_cellsWrite : ∀ (n a v : Nat) (m : List Host.Cell), Memory.wf m = true →
    Memory.wf (cellsWrite m a n v) = true
  | 0, _, _, _, h => h
  | n + 1, a, v, m, h => Memory.wf_cellsWrite n (a + 1) (v / 256) _ (Memory.wf_cellWrite a _ m h)

theorem Memory.wf_cellsMask : ∀ (n a k v : Nat) (m : List Host.Cell), Memory.wf m = true →
    Memory.wf (cellsMask m a n k v) = true
  | 0, _, _, _, _, h => h
  | n + 1, a, k, v, m, h => by
    unfold cellsMask
    refine Memory.wf_cellsMask n (a + 1) (k / 2) (v / 256) _ ?_
    split
    · exact Memory.wf_cellWrite a _ m h
    · exact h

/-- Nothing stands below the first address. -/
theorem cellRead_above (a : Nat) : ∀ m : List Host.Cell, Memory.wf m = true → Memory.above a m → cellRead m a = blankByte
  | [], _, _ => rfl
  | (k, c) :: r, hw, h => by
    obtain ⟨-, hk, hr⟩ := (Memory.wf_cons k c r).1 hw
    have h' : a < k := h
    have hne : ¬ (k == a) = true := by
      simp only [beq_iff_eq]
      omega
    unfold cellRead
    rw [if_neg hne]
    refine cellRead_above a r hr ?_
    cases r with
    | nil => trivial
    | cons p r => exact Nat.lt_trans h' hk

/-- A read after a write: the byte written at its address, every other byte as before. -/
theorem cellRead_cellWrite (a x : Nat) (b : BitVec 8) : ∀ m : List Host.Cell, Memory.wf m = true →
    cellRead (cellWrite m a b) x = if x = a then b else cellRead m x
  | [], _ => by
    unfold cellWrite
    by_cases hb : (b == blankByte) = true
    · have hb' : b = blankByte := by simpa using hb
      simp [hb', cellRead]
    · by_cases hx : x = a
      · simp [hb, cellRead, hx]
      · have : ¬ (a == x) = true := by simpa using fun e => hx (Eq.symm e)
        simp [hb, cellRead, hx, this]
  | (k, c) :: r, hw => by
    obtain ⟨hc, hk, hr⟩ := (Memory.wf_cons k c r).1 hw
    unfold cellWrite
    by_cases hlt : a < k
    · rw [if_pos hlt]
      by_cases hb : (b == blankByte) = true
      · have hb' : b = blankByte := by simpa using hb
        rw [if_pos hb]
        by_cases hx : x = a
        · subst hx
          rw [if_pos rfl, hb', cellRead_above x _ hw hlt]
        · rw [if_neg hx]
      · rw [if_neg hb]
        by_cases hx : x = a
        · simp [cellRead, hx]
        · have : ¬ (a == x) = true := by simpa using fun e => hx (Eq.symm e)
          rw [if_neg hx, cellRead, if_neg this]
    · rw [if_neg hlt]
      by_cases he : (a == k) = true
      · have he' : a = k := by simpa using he
        subst he'
        rw [if_pos he]
        by_cases hb : (b == blankByte) = true
        · have hb' : b = blankByte := by simpa using hb
          rw [if_pos hb]
          by_cases hx : x = a
          · subst hx
            rw [if_pos rfl, hb', cellRead_above x r hr hk]
          · have : ¬ (a == x) = true := by simpa using fun e => hx (Eq.symm e)
            rw [if_neg hx, cellRead, if_neg this]
        · rw [if_neg hb]
          by_cases hx : x = a
          · simp [cellRead, hx]
          · have : ¬ (a == x) = true := by simpa using fun e => hx (Eq.symm e)
            rw [if_neg hx, cellRead, cellRead, if_neg this, if_neg this]
      · rw [if_neg he]
        have he' : a ≠ k := by simpa using he
        by_cases hx : (k == x) = true
        · have hx' : k = x := by simpa using hx
          have hxa : ¬ x = a := fun e => he' (e ▸ hx'.symm)
          rw [cellRead, if_pos hx, if_neg hxa, cellRead, if_pos hx]
        · rw [cellRead, if_neg hx, cellRead_cellWrite a x b r hr]
          by_cases hxa : x = a
          · rw [if_pos hxa, if_pos hxa]
          · rw [if_neg hxa, if_neg hxa, cellRead, if_neg hx]

/-- Writing n bytes leaves every byte outside them alone. -/
theorem cellRead_cellsWrite_outside (x : Nat) : ∀ (n a v : Nat) (m : List Host.Cell), Memory.wf m = true →
    (x < a ∨ a + n ≤ x) → cellRead (cellsWrite m a n v) x = cellRead m x
  | 0, _, _, _, _, _ => rfl
  | n + 1, a, v, m, hw, h => by
    unfold cellsWrite
    rw [cellRead_cellsWrite_outside x n (a + 1) (v / 256) _ (Memory.wf_cellWrite a _ m hw) (by omega),
      cellRead_cellWrite a x _ m hw, if_neg (by omega)]

/-- Reading back n bytes gives the low n bytes of the value written. -/
theorem cellsRead_cellsWrite : ∀ (n a v : Nat) (m : List Host.Cell), Memory.wf m = true →
    cellsRead (cellsWrite m a n v) a n = v % 256 ^ n
  | 0, _, _, _, _ => by simp [cellsRead, Nat.mod_one]
  | n + 1, a, v, m, hw => by
    have hw' := Memory.wf_cellWrite a (BitVec.ofNat 8 v) m hw
    unfold cellsWrite cellsRead
    rw [cellsRead_cellsWrite n (a + 1) (v / 256) _ hw',
      cellRead_cellsWrite_outside a n (a + 1) (v / 256) _ hw' (Or.inl (Nat.lt_succ_self a)),
      cellRead_cellWrite a a _ m hw, if_pos rfl, BitVec.toNat_ofNat]
    have e : (256 : Nat) ^ (n + 1) = 256 * 256 ^ n := by rw [Nat.pow_succ, Nat.mul_comm]
    have e8 : (2 : Nat) ^ 8 = 256 := rfl
    rw [e, Nat.mod_mul, e8]

end Sys2Proof.Machine
end

