-- ==== Sys2Proof/Laws/State.lean ====
section
/-! SUPPORT. What each update of the state leaves as it is, one lemma a field, and what the tables give back: so that no later
proof unfolds a record update. -/

namespace Sys2Proof.Machine

/-! Tables. -/

/-- A table gives back what was stored last under a key, and the rest as before. -/
theorem tget_tset {α : Type} (d : α) (n m : Nat) (v : α) : ∀ t : Table α,
    tget d (tset t n v) m = if n = m then v else tget d t m
  | [] => by
    by_cases h : n = m
    · simp [tset, tget, h]
    · simp [tset, tget, h]
  | (k, u) :: r => by
    unfold tset
    by_cases h1 : n < k
    · rw [if_pos h1]
      by_cases h : n = m
      · simp [tget, h]
      · simp [tget, h]
    · rw [if_neg h1]
      by_cases h2 : n = k
      · subst h2
        by_cases h : n = m
        · simp [tget, h]
        · simp [tget, h]
      · have h2' : ¬ (n == k) = true := by simpa using h2
        rw [if_neg h2']
        by_cases hk : k = m
        · have hn : ¬ n = m := fun e => h2 (e.trans hk.symm)
          simp [tget, hk, hn]
        · have hk' : (k == m) = false := by simpa using hk
          simp only [tget, hk', Bool.false_eq_true, if_false]
          exact tget_tset d n m v r
@[simp] theorem tget_tset_same {α : Type} (d : α) (n : Nat) (v : α) (t : Table α) : tget d (tset t n v) n = v := by
  rw [tget_tset, if_pos rfl]
theorem tget_tset_other {α : Type} (d : α) {n m : Nat} (h : n ≠ m) (v : α) (t : Table α) :
    tget d (tset t n v) m = tget d t m := by
  rw [tget_tset, if_neg h]
/-- A key that has been taken out reads as the default. -/
theorem tget_tdel_same {α : Type} (d : α) (n : Nat) (t : Table α) : tget d (tdel t n) n = d := by
  induction t with
  | nil => rfl
  | cons p r ih =>
    obtain ⟨k, u⟩ := p
    by_cases h : k = n
    · subst h
      simpa [tdel] using ih
    · have hb : (k != n) = true := by simpa using h
      have hk : (k == n) = false := by simpa using h
      simp only [tdel, List.filter, hb, tget, hk, Bool.false_eq_true, if_false]
      exact ih

namespace State

/-! Fields of the state. -/

@[simp] theorem setCore_here (s : State) (n : Nat) (c : Core) : (s.setCore n c).here = s.here := rfl
@[simp] theorem setCore_cx (s : State) (n : Nat) (c : Core) : (s.setCore n c).cx = s.cx := rfl
@[simp] theorem setCore_issue (s : State) (n : Nat) (c : Core) : (s.setCore n c).issue = s.issue := rfl
@[simp] theorem setCore_others (s : State) (n : Nat) (c : Core) : (s.setCore n c).others = s.others := rfl
@[simp] theorem setCore_clusters (s : State) (n : Nat) (c : Core) : (s.setCore n c).clusters = s.clusters := rfl
@[simp] theorem setCore_dies (s : State) (n : Nat) (c : Core) : (s.setCore n c).dies = s.dies := rfl
@[simp] theorem setCore_homes (s : State) (n : Nat) (c : Core) : (s.setCore n c).homes = s.homes := rfl
@[simp] theorem setCore_mem (s : State) (n : Nat) (c : Core) : (s.setCore n c).mem = s.mem := rfl
@[simp] theorem setCore_silt (s : State) (n : Nat) (c : Core) : (s.setCore n c).silt = s.silt := rfl
@[simp] theorem setCore_dev (s : State) (n : Nat) (c : Core) : (s.setCore n c).dev = s.dev := rfl
@[simp] theorem setCore_queues (s : State) (n : Nat) (c : Core) : (s.setCore n c).queues = s.queues := rfl
@[simp] theorem setCore_sec (s : State) (n : Nat) (c : Core) : (s.setCore n c).sec = s.sec := rfl
@[simp] theorem setCore_ports (s : State) (n : Nat) (c : Core) : (s.setCore n c).ports = s.ports := rfl
@[simp] theorem setCore_waits (s : State) (n : Nat) (c : Core) : (s.setCore n c).waits = s.waits := rfl
@[simp] theorem setCore_svc (s : State) (n : Nat) (c : Core) : (s.setCore n c).svc = s.svc := rfl
@[simp] theorem setCore_moor (s : State) (n : Nat) (c : Core) : (s.setCore n c).moor = s.moor := rfl
@[simp] theorem setCore_fab (s : State) (n : Nat) (c : Core) : (s.setCore n c).fab = s.fab := rfl
@[simp] theorem setCore_cycle (s : State) (n : Nat) (c : Core) : (s.setCore n c).cycle = s.cycle := rfl
@[simp] theorem setCore_booted (s : State) (n : Nat) (c : Core) : (s.setCore n c).booted = s.booted := rfl
@[simp] theorem setCore_inputs (s : State) (n : Nat) (c : Core) : (s.setCore n c).inputs = s.inputs := rfl
@[simp] theorem setCore_agenda (s : State) (n : Nat) (c : Core) : (s.setCore n c).agenda = s.agenda := rfl
@[simp] theorem setCore_turn (s : State) (n : Nat) (c : Core) : (s.setCore n c).turn = s.turn := rfl
@[simp] theorem setCore_tick (s : State) (n : Nat) (c : Core) : (s.setCore n c).tick = s.tick := rfl
@[simp] theorem setCluster_here (s : State) (n : Nat) (c : Cluster) : (s.setCluster n c).here = s.here := rfl
@[simp] theorem setCluster_cx (s : State) (n : Nat) (c : Cluster) : (s.setCluster n c).cx = s.cx := rfl
@[simp] theorem setCluster_issue (s : State) (n : Nat) (c : Cluster) : (s.setCluster n c).issue = s.issue := rfl
@[simp] theorem setCluster_others (s : State) (n : Nat) (c : Cluster) : (s.setCluster n c).others = s.others := rfl
@[simp] theorem setCluster_cores (s : State) (n : Nat) (c : Cluster) : (s.setCluster n c).cores = s.cores := rfl
@[simp] theorem setCluster_dies (s : State) (n : Nat) (c : Cluster) : (s.setCluster n c).dies = s.dies := rfl
@[simp] theorem setCluster_homes (s : State) (n : Nat) (c : Cluster) : (s.setCluster n c).homes = s.homes := rfl
@[simp] theorem setCluster_mem (s : State) (n : Nat) (c : Cluster) : (s.setCluster n c).mem = s.mem := rfl
@[simp] theorem setCluster_silt (s : State) (n : Nat) (c : Cluster) : (s.setCluster n c).silt = s.silt := rfl
@[simp] theorem setCluster_dev (s : State) (n : Nat) (c : Cluster) : (s.setCluster n c).dev = s.dev := rfl
@[simp] theorem setCluster_queues (s : State) (n : Nat) (c : Cluster) : (s.setCluster n c).queues = s.queues := rfl
@[simp] theorem setCluster_sec (s : State) (n : Nat) (c : Cluster) : (s.setCluster n c).sec = s.sec := rfl
@[simp] theorem setCluster_ports (s : State) (n : Nat) (c : Cluster) : (s.setCluster n c).ports = s.ports := rfl
@[simp] theorem setCluster_waits (s : State) (n : Nat) (c : Cluster) : (s.setCluster n c).waits = s.waits := rfl
@[simp] theorem setCluster_svc (s : State) (n : Nat) (c : Cluster) : (s.setCluster n c).svc = s.svc := rfl
@[simp] theorem setCluster_moor (s : State) (n : Nat) (c : Cluster) : (s.setCluster n c).moor = s.moor := rfl
@[simp] theorem setCluster_fab (s : State) (n : Nat) (c : Cluster) : (s.setCluster n c).fab = s.fab := rfl
@[simp] theorem setCluster_cycle (s : State) (n : Nat) (c : Cluster) : (s.setCluster n c).cycle = s.cycle := rfl
@[simp] theorem setCluster_booted (s : State) (n : Nat) (c : Cluster) : (s.setCluster n c).booted = s.booted := rfl
@[simp] theorem setCluster_inputs (s : State) (n : Nat) (c : Cluster) : (s.setCluster n c).inputs = s.inputs := rfl
@[simp] theorem setCluster_agenda (s : State) (n : Nat) (c : Cluster) : (s.setCluster n c).agenda = s.agenda := rfl
@[simp] theorem setCluster_turn (s : State) (n : Nat) (c : Cluster) : (s.setCluster n c).turn = s.turn := rfl
@[simp] theorem setCluster_tick (s : State) (n : Nat) (c : Cluster) : (s.setCluster n c).tick = s.tick := rfl
@[simp] theorem setDie_here (s : State) (n : Nat) (d : Die) : (s.setDie n d).here = s.here := rfl
@[simp] theorem setDie_cx (s : State) (n : Nat) (d : Die) : (s.setDie n d).cx = s.cx := rfl
@[simp] theorem setDie_issue (s : State) (n : Nat) (d : Die) : (s.setDie n d).issue = s.issue := rfl
@[simp] theorem setDie_others (s : State) (n : Nat) (d : Die) : (s.setDie n d).others = s.others := rfl
@[simp] theorem setDie_cores (s : State) (n : Nat) (d : Die) : (s.setDie n d).cores = s.cores := rfl
@[simp] theorem setDie_clusters (s : State) (n : Nat) (d : Die) : (s.setDie n d).clusters = s.clusters := rfl
@[simp] theorem setDie_homes (s : State) (n : Nat) (d : Die) : (s.setDie n d).homes = s.homes := rfl
@[simp] theorem setDie_mem (s : State) (n : Nat) (d : Die) : (s.setDie n d).mem = s.mem := rfl
@[simp] theorem setDie_silt (s : State) (n : Nat) (d : Die) : (s.setDie n d).silt = s.silt := rfl
@[simp] theorem setDie_dev (s : State) (n : Nat) (d : Die) : (s.setDie n d).dev = s.dev := rfl
@[simp] theorem setDie_queues (s : State) (n : Nat) (d : Die) : (s.setDie n d).queues = s.queues := rfl
@[simp] theorem setDie_sec (s : State) (n : Nat) (d : Die) : (s.setDie n d).sec = s.sec := rfl
@[simp] theorem setDie_ports (s : State) (n : Nat) (d : Die) : (s.setDie n d).ports = s.ports := rfl
@[simp] theorem setDie_waits (s : State) (n : Nat) (d : Die) : (s.setDie n d).waits = s.waits := rfl
@[simp] theorem setDie_svc (s : State) (n : Nat) (d : Die) : (s.setDie n d).svc = s.svc := rfl
@[simp] theorem setDie_moor (s : State) (n : Nat) (d : Die) : (s.setDie n d).moor = s.moor := rfl
@[simp] theorem setDie_fab (s : State) (n : Nat) (d : Die) : (s.setDie n d).fab = s.fab := rfl
@[simp] theorem setDie_cycle (s : State) (n : Nat) (d : Die) : (s.setDie n d).cycle = s.cycle := rfl
@[simp] theorem setDie_booted (s : State) (n : Nat) (d : Die) : (s.setDie n d).booted = s.booted := rfl
@[simp] theorem setDie_inputs (s : State) (n : Nat) (d : Die) : (s.setDie n d).inputs = s.inputs := rfl
@[simp] theorem setDie_agenda (s : State) (n : Nat) (d : Die) : (s.setDie n d).agenda = s.agenda := rfl
@[simp] theorem setDie_turn (s : State) (n : Nat) (d : Die) : (s.setDie n d).turn = s.turn := rfl
@[simp] theorem setDie_tick (s : State) (n : Nat) (d : Die) : (s.setDie n d).tick = s.tick := rfl
@[simp] theorem setQueue_here (s : State) (n : Nat) (q : CmdQueue) : (s.setQueue n q).here = s.here := rfl
@[simp] theorem setQueue_cx (s : State) (n : Nat) (q : CmdQueue) : (s.setQueue n q).cx = s.cx := rfl
@[simp] theorem setQueue_issue (s : State) (n : Nat) (q : CmdQueue) : (s.setQueue n q).issue = s.issue := rfl
@[simp] theorem setQueue_others (s : State) (n : Nat) (q : CmdQueue) : (s.setQueue n q).others = s.others := rfl
@[simp] theorem setQueue_cores (s : State) (n : Nat) (q : CmdQueue) : (s.setQueue n q).cores = s.cores := rfl
@[simp] theorem setQueue_clusters (s : State) (n : Nat) (q : CmdQueue) : (s.setQueue n q).clusters = s.clusters := rfl
@[simp] theorem setQueue_dies (s : State) (n : Nat) (q : CmdQueue) : (s.setQueue n q).dies = s.dies := rfl
@[simp] theorem setQueue_homes (s : State) (n : Nat) (q : CmdQueue) : (s.setQueue n q).homes = s.homes := rfl
@[simp] theorem setQueue_mem (s : State) (n : Nat) (q : CmdQueue) : (s.setQueue n q).mem = s.mem := rfl
@[simp] theorem setQueue_silt (s : State) (n : Nat) (q : CmdQueue) : (s.setQueue n q).silt = s.silt := rfl
@[simp] theorem setQueue_dev (s : State) (n : Nat) (q : CmdQueue) : (s.setQueue n q).dev = s.dev := rfl
@[simp] theorem setQueue_sec (s : State) (n : Nat) (q : CmdQueue) : (s.setQueue n q).sec = s.sec := rfl
@[simp] theorem setQueue_ports (s : State) (n : Nat) (q : CmdQueue) : (s.setQueue n q).ports = s.ports := rfl
@[simp] theorem setQueue_waits (s : State) (n : Nat) (q : CmdQueue) : (s.setQueue n q).waits = s.waits := rfl
@[simp] theorem setQueue_svc (s : State) (n : Nat) (q : CmdQueue) : (s.setQueue n q).svc = s.svc := rfl
@[simp] theorem setQueue_moor (s : State) (n : Nat) (q : CmdQueue) : (s.setQueue n q).moor = s.moor := rfl
@[simp] theorem setQueue_fab (s : State) (n : Nat) (q : CmdQueue) : (s.setQueue n q).fab = s.fab := rfl
@[simp] theorem setQueue_cycle (s : State) (n : Nat) (q : CmdQueue) : (s.setQueue n q).cycle = s.cycle := rfl
@[simp] theorem setQueue_booted (s : State) (n : Nat) (q : CmdQueue) : (s.setQueue n q).booted = s.booted := rfl
@[simp] theorem setQueue_inputs (s : State) (n : Nat) (q : CmdQueue) : (s.setQueue n q).inputs = s.inputs := rfl
@[simp] theorem setQueue_agenda (s : State) (n : Nat) (q : CmdQueue) : (s.setQueue n q).agenda = s.agenda := rfl
@[simp] theorem setQueue_turn (s : State) (n : Nat) (q : CmdQueue) : (s.setQueue n q).turn = s.turn := rfl
@[simp] theorem setQueue_tick (s : State) (n : Nat) (q : CmdQueue) : (s.setQueue n q).tick = s.tick := rfl
@[simp] theorem setGqueue_here (s : State) (n : Nat) (q : GuestQueue) : (s.setGqueue n q).here = s.here := rfl
@[simp] theorem setGqueue_cx (s : State) (n : Nat) (q : GuestQueue) : (s.setGqueue n q).cx = s.cx := rfl
@[simp] theorem setGqueue_issue (s : State) (n : Nat) (q : GuestQueue) : (s.setGqueue n q).issue = s.issue := rfl
@[simp] theorem setGqueue_others (s : State) (n : Nat) (q : GuestQueue) : (s.setGqueue n q).others = s.others := rfl
@[simp] theorem setGqueue_cores (s : State) (n : Nat) (q : GuestQueue) : (s.setGqueue n q).cores = s.cores := rfl
@[simp] theorem setGqueue_clusters (s : State) (n : Nat) (q : GuestQueue) : (s.setGqueue n q).clusters = s.clusters := rfl
@[simp] theorem setGqueue_dies (s : State) (n : Nat) (q : GuestQueue) : (s.setGqueue n q).dies = s.dies := rfl
@[simp] theorem setGqueue_homes (s : State) (n : Nat) (q : GuestQueue) : (s.setGqueue n q).homes = s.homes := rfl
@[simp] theorem setGqueue_mem (s : State) (n : Nat) (q : GuestQueue) : (s.setGqueue n q).mem = s.mem := rfl
@[simp] theorem setGqueue_silt (s : State) (n : Nat) (q : GuestQueue) : (s.setGqueue n q).silt = s.silt := rfl
@[simp] theorem setGqueue_dev (s : State) (n : Nat) (q : GuestQueue) : (s.setGqueue n q).dev = s.dev := rfl
@[simp] theorem setGqueue_queues (s : State) (n : Nat) (q : GuestQueue) : (s.setGqueue n q).queues = s.queues := rfl
@[simp] theorem setGqueue_sec (s : State) (n : Nat) (q : GuestQueue) : (s.setGqueue n q).sec = s.sec := rfl
@[simp] theorem setGqueue_ports (s : State) (n : Nat) (q : GuestQueue) : (s.setGqueue n q).ports = s.ports := rfl
@[simp] theorem setGqueue_waits (s : State) (n : Nat) (q : GuestQueue) : (s.setGqueue n q).waits = s.waits := rfl
@[simp] theorem setGqueue_svc (s : State) (n : Nat) (q : GuestQueue) : (s.setGqueue n q).svc = s.svc := rfl
@[simp] theorem setGqueue_fab (s : State) (n : Nat) (q : GuestQueue) : (s.setGqueue n q).fab = s.fab := rfl
@[simp] theorem setGqueue_cycle (s : State) (n : Nat) (q : GuestQueue) : (s.setGqueue n q).cycle = s.cycle := rfl
@[simp] theorem setGqueue_booted (s : State) (n : Nat) (q : GuestQueue) : (s.setGqueue n q).booted = s.booted := rfl
@[simp] theorem setGqueue_inputs (s : State) (n : Nat) (q : GuestQueue) : (s.setGqueue n q).inputs = s.inputs := rfl
@[simp] theorem setGqueue_agenda (s : State) (n : Nat) (q : GuestQueue) : (s.setGqueue n q).agenda = s.agenda := rfl
@[simp] theorem setGqueue_turn (s : State) (n : Nat) (q : GuestQueue) : (s.setGqueue n q).turn = s.turn := rfl
@[simp] theorem setGqueue_tick (s : State) (n : Nat) (q : GuestQueue) : (s.setGqueue n q).tick = s.tick := rfl
@[simp] theorem setPeer_here (s : State) (n : Nat) (p : Peer) : (s.setPeer n p).here = s.here := rfl
@[simp] theorem setPeer_cx (s : State) (n : Nat) (p : Peer) : (s.setPeer n p).cx = s.cx := rfl
@[simp] theorem setPeer_issue (s : State) (n : Nat) (p : Peer) : (s.setPeer n p).issue = s.issue := rfl
@[simp] theorem setPeer_others (s : State) (n : Nat) (p : Peer) : (s.setPeer n p).others = s.others := rfl
@[simp] theorem setPeer_cores (s : State) (n : Nat) (p : Peer) : (s.setPeer n p).cores = s.cores := rfl
@[simp] theorem setPeer_clusters (s : State) (n : Nat) (p : Peer) : (s.setPeer n p).clusters = s.clusters := rfl
@[simp] theorem setPeer_dies (s : State) (n : Nat) (p : Peer) : (s.setPeer n p).dies = s.dies := rfl
@[simp] theorem setPeer_homes (s : State) (n : Nat) (p : Peer) : (s.setPeer n p).homes = s.homes := rfl
@[simp] theorem setPeer_mem (s : State) (n : Nat) (p : Peer) : (s.setPeer n p).mem = s.mem := rfl
@[simp] theorem setPeer_silt (s : State) (n : Nat) (p : Peer) : (s.setPeer n p).silt = s.silt := rfl
@[simp] theorem setPeer_dev (s : State) (n : Nat) (p : Peer) : (s.setPeer n p).dev = s.dev := rfl
@[simp] theorem setPeer_queues (s : State) (n : Nat) (p : Peer) : (s.setPeer n p).queues = s.queues := rfl
@[simp] theorem setPeer_sec (s : State) (n : Nat) (p : Peer) : (s.setPeer n p).sec = s.sec := rfl
@[simp] theorem setPeer_ports (s : State) (n : Nat) (p : Peer) : (s.setPeer n p).ports = s.ports := rfl
@[simp] theorem setPeer_waits (s : State) (n : Nat) (p : Peer) : (s.setPeer n p).waits = s.waits := rfl
@[simp] theorem setPeer_svc (s : State) (n : Nat) (p : Peer) : (s.setPeer n p).svc = s.svc := rfl
@[simp] theorem setPeer_moor (s : State) (n : Nat) (p : Peer) : (s.setPeer n p).moor = s.moor := rfl
@[simp] theorem setPeer_cycle (s : State) (n : Nat) (p : Peer) : (s.setPeer n p).cycle = s.cycle := rfl
@[simp] theorem setPeer_booted (s : State) (n : Nat) (p : Peer) : (s.setPeer n p).booted = s.booted := rfl
@[simp] theorem setPeer_inputs (s : State) (n : Nat) (p : Peer) : (s.setPeer n p).inputs = s.inputs := rfl
@[simp] theorem setPeer_agenda (s : State) (n : Nat) (p : Peer) : (s.setPeer n p).agenda = s.agenda := rfl
@[simp] theorem setPeer_turn (s : State) (n : Nat) (p : Peer) : (s.setPeer n p).turn = s.turn := rfl
@[simp] theorem setPeer_tick (s : State) (n : Nat) (p : Peer) : (s.setPeer n p).tick = s.tick := rfl
@[simp] theorem setChan_here (s : State) (n : Nat) (c : ChanCount) : (s.setChan n c).here = s.here := rfl
@[simp] theorem setChan_cx (s : State) (n : Nat) (c : ChanCount) : (s.setChan n c).cx = s.cx := rfl
@[simp] theorem setChan_issue (s : State) (n : Nat) (c : ChanCount) : (s.setChan n c).issue = s.issue := rfl
@[simp] theorem setChan_others (s : State) (n : Nat) (c : ChanCount) : (s.setChan n c).others = s.others := rfl
@[simp] theorem setChan_cores (s : State) (n : Nat) (c : ChanCount) : (s.setChan n c).cores = s.cores := rfl
@[simp] theorem setChan_clusters (s : State) (n : Nat) (c : ChanCount) : (s.setChan n c).clusters = s.clusters := rfl
@[simp] theorem setChan_dies (s : State) (n : Nat) (c : ChanCount) : (s.setChan n c).dies = s.dies := rfl
@[simp] theorem setChan_mem (s : State) (n : Nat) (c : ChanCount) : (s.setChan n c).mem = s.mem := rfl
@[simp] theorem setChan_silt (s : State) (n : Nat) (c : ChanCount) : (s.setChan n c).silt = s.silt := rfl
@[simp] theorem setChan_dev (s : State) (n : Nat) (c : ChanCount) : (s.setChan n c).dev = s.dev := rfl
@[simp] theorem setChan_queues (s : State) (n : Nat) (c : ChanCount) : (s.setChan n c).queues = s.queues := rfl
@[simp] theorem setChan_sec (s : State) (n : Nat) (c : ChanCount) : (s.setChan n c).sec = s.sec := rfl
@[simp] theorem setChan_ports (s : State) (n : Nat) (c : ChanCount) : (s.setChan n c).ports = s.ports := rfl
@[simp] theorem setChan_waits (s : State) (n : Nat) (c : ChanCount) : (s.setChan n c).waits = s.waits := rfl
@[simp] theorem setChan_svc (s : State) (n : Nat) (c : ChanCount) : (s.setChan n c).svc = s.svc := rfl
@[simp] theorem setChan_moor (s : State) (n : Nat) (c : ChanCount) : (s.setChan n c).moor = s.moor := rfl
@[simp] theorem setChan_fab (s : State) (n : Nat) (c : ChanCount) : (s.setChan n c).fab = s.fab := rfl
@[simp] theorem setChan_cycle (s : State) (n : Nat) (c : ChanCount) : (s.setChan n c).cycle = s.cycle := rfl
@[simp] theorem setChan_booted (s : State) (n : Nat) (c : ChanCount) : (s.setChan n c).booted = s.booted := rfl
@[simp] theorem setChan_inputs (s : State) (n : Nat) (c : ChanCount) : (s.setChan n c).inputs = s.inputs := rfl
@[simp] theorem setChan_agenda (s : State) (n : Nat) (c : ChanCount) : (s.setChan n c).agenda = s.agenda := rfl
@[simp] theorem setChan_turn (s : State) (n : Nat) (c : ChanCount) : (s.setChan n c).turn = s.turn := rfl
@[simp] theorem setChan_tick (s : State) (n : Nat) (c : ChanCount) : (s.setChan n c).tick = s.tick := rfl
@[simp] theorem later_here (s : State) (delay : Nat) (i : Instr) : (s.later delay i).here = s.here := rfl
@[simp] theorem later_cx (s : State) (delay : Nat) (i : Instr) : (s.later delay i).cx = s.cx := rfl
@[simp] theorem later_issue (s : State) (delay : Nat) (i : Instr) : (s.later delay i).issue = s.issue := rfl
@[simp] theorem later_others (s : State) (delay : Nat) (i : Instr) : (s.later delay i).others = s.others := rfl
@[simp] theorem later_cores (s : State) (delay : Nat) (i : Instr) : (s.later delay i).cores = s.cores := rfl
@[simp] theorem later_clusters (s : State) (delay : Nat) (i : Instr) : (s.later delay i).clusters = s.clusters := rfl
@[simp] theorem later_dies (s : State) (delay : Nat) (i : Instr) : (s.later delay i).dies = s.dies := rfl
@[simp] theorem later_homes (s : State) (delay : Nat) (i : Instr) : (s.later delay i).homes = s.homes := rfl
@[simp] theorem later_mem (s : State) (delay : Nat) (i : Instr) : (s.later delay i).mem = s.mem := rfl
@[simp] theorem later_silt (s : State) (delay : Nat) (i : Instr) : (s.later delay i).silt = s.silt := rfl
@[simp] theorem later_dev (s : State) (delay : Nat) (i : Instr) : (s.later delay i).dev = s.dev := rfl
@[simp] theorem later_queues (s : State) (delay : Nat) (i : Instr) : (s.later delay i).queues = s.queues := rfl
@[simp] theorem later_sec (s : State) (delay : Nat) (i : Instr) : (s.later delay i).sec = s.sec := rfl
@[simp] theorem later_ports (s : State) (delay : Nat) (i : Instr) : (s.later delay i).ports = s.ports := rfl
@[simp] theorem later_waits (s : State) (delay : Nat) (i : Instr) : (s.later delay i).waits = s.waits := rfl
@[simp] theorem later_svc (s : State) (delay : Nat) (i : Instr) : (s.later delay i).svc = s.svc := rfl
@[simp] theorem later_moor (s : State) (delay : Nat) (i : Instr) : (s.later delay i).moor = s.moor := rfl
@[simp] theorem later_fab (s : State) (delay : Nat) (i : Instr) : (s.later delay i).fab = s.fab := rfl
@[simp] theorem later_cycle (s : State) (delay : Nat) (i : Instr) : (s.later delay i).cycle = s.cycle := rfl
@[simp] theorem later_booted (s : State) (delay : Nat) (i : Instr) : (s.later delay i).booted = s.booted := rfl
@[simp] theorem later_inputs (s : State) (delay : Nat) (i : Instr) : (s.later delay i).inputs = s.inputs := rfl
@[simp] theorem later_turn (s : State) (delay : Nat) (i : Instr) : (s.later delay i).turn = s.turn := rfl
@[simp] theorem later_tick (s : State) (delay : Nat) (i : Instr) : (s.later delay i).tick = s.tick := rfl
@[simp] theorem dropAgenda_here (s : State) (i : Instr) : (s.dropAgenda i).here = s.here := rfl
@[simp] theorem dropAgenda_cx (s : State) (i : Instr) : (s.dropAgenda i).cx = s.cx := rfl
@[simp] theorem dropAgenda_issue (s : State) (i : Instr) : (s.dropAgenda i).issue = s.issue := rfl
@[simp] theorem dropAgenda_others (s : State) (i : Instr) : (s.dropAgenda i).others = s.others := rfl
@[simp] theorem dropAgenda_cores (s : State) (i : Instr) : (s.dropAgenda i).cores = s.cores := rfl
@[simp] theorem dropAgenda_clusters (s : State) (i : Instr) : (s.dropAgenda i).clusters = s.clusters := rfl
@[simp] theorem dropAgenda_dies (s : State) (i : Instr) : (s.dropAgenda i).dies = s.dies := rfl
@[simp] theorem dropAgenda_homes (s : State) (i : Instr) : (s.dropAgenda i).homes = s.homes := rfl
@[simp] theorem dropAgenda_mem (s : State) (i : Instr) : (s.dropAgenda i).mem = s.mem := rfl
@[simp] theorem dropAgenda_silt (s : State) (i : Instr) : (s.dropAgenda i).silt = s.silt := rfl
@[simp] theorem dropAgenda_dev (s : State) (i : Instr) : (s.dropAgenda i).dev = s.dev := rfl
@[simp] theorem dropAgenda_queues (s : State) (i : Instr) : (s.dropAgenda i).queues = s.queues := rfl
@[simp] theorem dropAgenda_sec (s : State) (i : Instr) : (s.dropAgenda i).sec = s.sec := rfl
@[simp] theorem dropAgenda_ports (s : State) (i : Instr) : (s.dropAgenda i).ports = s.ports := rfl
@[simp] theorem dropAgenda_waits (s : State) (i : Instr) : (s.dropAgenda i).waits = s.waits := rfl
@[simp] theorem dropAgenda_svc (s : State) (i : Instr) : (s.dropAgenda i).svc = s.svc := rfl
@[simp] theorem dropAgenda_moor (s : State) (i : Instr) : (s.dropAgenda i).moor = s.moor := rfl
@[simp] theorem dropAgenda_fab (s : State) (i : Instr) : (s.dropAgenda i).fab = s.fab := rfl
@[simp] theorem dropAgenda_cycle (s : State) (i : Instr) : (s.dropAgenda i).cycle = s.cycle := rfl
@[simp] theorem dropAgenda_booted (s : State) (i : Instr) : (s.dropAgenda i).booted = s.booted := rfl
@[simp] theorem dropAgenda_inputs (s : State) (i : Instr) : (s.dropAgenda i).inputs = s.inputs := rfl
@[simp] theorem dropAgenda_turn (s : State) (i : Instr) : (s.dropAgenda i).turn = s.turn := rfl
@[simp] theorem dropAgenda_tick (s : State) (i : Instr) : (s.dropAgenda i).tick = s.tick := rfl
@[simp] theorem setDir_here (s : State) (l : Nat) (cs : List Nat) : (s.setDir l cs).here = s.here := rfl
@[simp] theorem setDir_cx (s : State) (l : Nat) (cs : List Nat) : (s.setDir l cs).cx = s.cx := rfl
@[simp] theorem setDir_issue (s : State) (l : Nat) (cs : List Nat) : (s.setDir l cs).issue = s.issue := rfl
@[simp] theorem setDir_others (s : State) (l : Nat) (cs : List Nat) : (s.setDir l cs).others = s.others := rfl
@[simp] theorem setDir_cores (s : State) (l : Nat) (cs : List Nat) : (s.setDir l cs).cores = s.cores := rfl
@[simp] theorem setDir_clusters (s : State) (l : Nat) (cs : List Nat) : (s.setDir l cs).clusters = s.clusters := rfl
@[simp] theorem setDir_dies (s : State) (l : Nat) (cs : List Nat) : (s.setDir l cs).dies = s.dies := rfl
@[simp] theorem setDir_mem (s : State) (l : Nat) (cs : List Nat) : (s.setDir l cs).mem = s.mem := rfl
@[simp] theorem setDir_silt (s : State) (l : Nat) (cs : List Nat) : (s.setDir l cs).silt = s.silt := rfl
@[simp] theorem setDir_dev (s : State) (l : Nat) (cs : List Nat) : (s.setDir l cs).dev = s.dev := rfl
@[simp] theorem setDir_queues (s : State) (l : Nat) (cs : List Nat) : (s.setDir l cs).queues = s.queues := rfl
@[simp] theorem setDir_sec (s : State) (l : Nat) (cs : List Nat) : (s.setDir l cs).sec = s.sec := rfl
@[simp] theorem setDir_ports (s : State) (l : Nat) (cs : List Nat) : (s.setDir l cs).ports = s.ports := rfl
@[simp] theorem setDir_waits (s : State) (l : Nat) (cs : List Nat) : (s.setDir l cs).waits = s.waits := rfl
@[simp] theorem setDir_svc (s : State) (l : Nat) (cs : List Nat) : (s.setDir l cs).svc = s.svc := rfl
@[simp] theorem setDir_moor (s : State) (l : Nat) (cs : List Nat) : (s.setDir l cs).moor = s.moor := rfl
@[simp] theorem setDir_fab (s : State) (l : Nat) (cs : List Nat) : (s.setDir l cs).fab = s.fab := rfl
@[simp] theorem setDir_cycle (s : State) (l : Nat) (cs : List Nat) : (s.setDir l cs).cycle = s.cycle := rfl
@[simp] theorem setDir_booted (s : State) (l : Nat) (cs : List Nat) : (s.setDir l cs).booted = s.booted := rfl
@[simp] theorem setDir_inputs (s : State) (l : Nat) (cs : List Nat) : (s.setDir l cs).inputs = s.inputs := rfl
@[simp] theorem setDir_agenda (s : State) (l : Nat) (cs : List Nat) : (s.setDir l cs).agenda = s.agenda := rfl
@[simp] theorem setDir_turn (s : State) (l : Nat) (cs : List Nat) : (s.setDir l cs).turn = s.turn := rfl
@[simp] theorem setDir_tick (s : State) (l : Nat) (cs : List Nat) : (s.setDir l cs).tick = s.tick := rfl
@[simp] theorem setGrant_here (s : State) (p : Nat) (g : Grant) : (s.setGrant p g).here = s.here := rfl
@[simp] theorem setGrant_cx (s : State) (p : Nat) (g : Grant) : (s.setGrant p g).cx = s.cx := rfl
@[simp] theorem setGrant_issue (s : State) (p : Nat) (g : Grant) : (s.setGrant p g).issue = s.issue := rfl
@[simp] theorem setGrant_others (s : State) (p : Nat) (g : Grant) : (s.setGrant p g).others = s.others := rfl
@[simp] theorem setGrant_cores (s : State) (p : Nat) (g : Grant) : (s.setGrant p g).cores = s.cores := rfl
@[simp] theorem setGrant_clusters (s : State) (p : Nat) (g : Grant) : (s.setGrant p g).clusters = s.clusters := rfl
@[simp] theorem setGrant_dies (s : State) (p : Nat) (g : Grant) : (s.setGrant p g).dies = s.dies := rfl
@[simp] theorem setGrant_mem (s : State) (p : Nat) (g : Grant) : (s.setGrant p g).mem = s.mem := rfl
@[simp] theorem setGrant_silt (s : State) (p : Nat) (g : Grant) : (s.setGrant p g).silt = s.silt := rfl
@[simp] theorem setGrant_dev (s : State) (p : Nat) (g : Grant) : (s.setGrant p g).dev = s.dev := rfl
@[simp] theorem setGrant_queues (s : State) (p : Nat) (g : Grant) : (s.setGrant p g).queues = s.queues := rfl
@[simp] theorem setGrant_sec (s : State) (p : Nat) (g : Grant) : (s.setGrant p g).sec = s.sec := rfl
@[simp] theorem setGrant_ports (s : State) (p : Nat) (g : Grant) : (s.setGrant p g).ports = s.ports := rfl
@[simp] theorem setGrant_waits (s : State) (p : Nat) (g : Grant) : (s.setGrant p g).waits = s.waits := rfl
@[simp] theorem setGrant_svc (s : State) (p : Nat) (g : Grant) : (s.setGrant p g).svc = s.svc := rfl
@[simp] theorem setGrant_moor (s : State) (p : Nat) (g : Grant) : (s.setGrant p g).moor = s.moor := rfl
@[simp] theorem setGrant_fab (s : State) (p : Nat) (g : Grant) : (s.setGrant p g).fab = s.fab := rfl
@[simp] theorem setGrant_cycle (s : State) (p : Nat) (g : Grant) : (s.setGrant p g).cycle = s.cycle := rfl
@[simp] theorem setGrant_booted (s : State) (p : Nat) (g : Grant) : (s.setGrant p g).booted = s.booted := rfl
@[simp] theorem setGrant_inputs (s : State) (p : Nat) (g : Grant) : (s.setGrant p g).inputs = s.inputs := rfl
@[simp] theorem setGrant_agenda (s : State) (p : Nat) (g : Grant) : (s.setGrant p g).agenda = s.agenda := rfl
@[simp] theorem setGrant_turn (s : State) (p : Nat) (g : Grant) : (s.setGrant p g).turn = s.turn := rfl
@[simp] theorem setGrant_tick (s : State) (p : Nat) (g : Grant) : (s.setGrant p g).tick = s.tick := rfl
@[simp] theorem push_here (s : State) (lat : Nat) (w : Write) : (s.push lat w).here = s.here := rfl
@[simp] theorem push_issue (s : State) (lat : Nat) (w : Write) : (s.push lat w).issue = s.issue := rfl
@[simp] theorem push_others (s : State) (lat : Nat) (w : Write) : (s.push lat w).others = s.others := rfl
@[simp] theorem push_cores (s : State) (lat : Nat) (w : Write) : (s.push lat w).cores = s.cores := rfl
@[simp] theorem push_clusters (s : State) (lat : Nat) (w : Write) : (s.push lat w).clusters = s.clusters := rfl
@[simp] theorem push_dies (s : State) (lat : Nat) (w : Write) : (s.push lat w).dies = s.dies := rfl
@[simp] theorem push_homes (s : State) (lat : Nat) (w : Write) : (s.push lat w).homes = s.homes := rfl
@[simp] theorem push_mem (s : State) (lat : Nat) (w : Write) : (s.push lat w).mem = s.mem := rfl
@[simp] theorem push_silt (s : State) (lat : Nat) (w : Write) : (s.push lat w).silt = s.silt := rfl
@[simp] theorem push_dev (s : State) (lat : Nat) (w : Write) : (s.push lat w).dev = s.dev := rfl
@[simp] theorem push_queues (s : State) (lat : Nat) (w : Write) : (s.push lat w).queues = s.queues := rfl
@[simp] theorem push_sec (s : State) (lat : Nat) (w : Write) : (s.push lat w).sec = s.sec := rfl
@[simp] theorem push_ports (s : State) (lat : Nat) (w : Write) : (s.push lat w).ports = s.ports := rfl
@[simp] theorem push_waits (s : State) (lat : Nat) (w : Write) : (s.push lat w).waits = s.waits := rfl
@[simp] theorem push_svc (s : State) (lat : Nat) (w : Write) : (s.push lat w).svc = s.svc := rfl
@[simp] theorem push_moor (s : State) (lat : Nat) (w : Write) : (s.push lat w).moor = s.moor := rfl
@[simp] theorem push_fab (s : State) (lat : Nat) (w : Write) : (s.push lat w).fab = s.fab := rfl
@[simp] theorem push_cycle (s : State) (lat : Nat) (w : Write) : (s.push lat w).cycle = s.cycle := rfl
@[simp] theorem push_booted (s : State) (lat : Nat) (w : Write) : (s.push lat w).booted = s.booted := rfl
@[simp] theorem push_inputs (s : State) (lat : Nat) (w : Write) : (s.push lat w).inputs = s.inputs := rfl
@[simp] theorem push_agenda (s : State) (lat : Nat) (w : Write) : (s.push lat w).agenda = s.agenda := rfl
@[simp] theorem push_turn (s : State) (lat : Nat) (w : Write) : (s.push lat w).turn = s.turn := rfl
@[simp] theorem push_tick (s : State) (lat : Nat) (w : Write) : (s.push lat w).tick = s.tick := rfl
@[simp] theorem pushShared_here (s : State) (lat : Nat) (w : Write) : (s.pushShared lat w).here = s.here := rfl
@[simp] theorem pushShared_issue (s : State) (lat : Nat) (w : Write) : (s.pushShared lat w).issue = s.issue := rfl
@[simp] theorem pushShared_others (s : State) (lat : Nat) (w : Write) : (s.pushShared lat w).others = s.others := rfl
@[simp] theorem pushShared_cores (s : State) (lat : Nat) (w : Write) : (s.pushShared lat w).cores = s.cores := rfl
@[simp] theorem pushShared_clusters (s : State) (lat : Nat) (w : Write) : (s.pushShared lat w).clusters = s.clusters := rfl
@[simp] theorem pushShared_dies (s : State) (lat : Nat) (w : Write) : (s.pushShared lat w).dies = s.dies := rfl
@[simp] theorem pushShared_homes (s : State) (lat : Nat) (w : Write) : (s.pushShared lat w).homes = s.homes := rfl
@[simp] theorem pushShared_mem (s : State) (lat : Nat) (w : Write) : (s.pushShared lat w).mem = s.mem := rfl
@[simp] theorem pushShared_silt (s : State) (lat : Nat) (w : Write) : (s.pushShared lat w).silt = s.silt := rfl
@[simp] theorem pushShared_dev (s : State) (lat : Nat) (w : Write) : (s.pushShared lat w).dev = s.dev := rfl
@[simp] theorem pushShared_queues (s : State) (lat : Nat) (w : Write) : (s.pushShared lat w).queues = s.queues := rfl
@[simp] theorem pushShared_sec (s : State) (lat : Nat) (w : Write) : (s.pushShared lat w).sec = s.sec := rfl
@[simp] theorem pushShared_ports (s : State) (lat : Nat) (w : Write) : (s.pushShared lat w).ports = s.ports := rfl
@[simp] theorem pushShared_waits (s : State) (lat : Nat) (w : Write) : (s.pushShared lat w).waits = s.waits := rfl
@[simp] theorem pushShared_svc (s : State) (lat : Nat) (w : Write) : (s.pushShared lat w).svc = s.svc := rfl
@[simp] theorem pushShared_moor (s : State) (lat : Nat) (w : Write) : (s.pushShared lat w).moor = s.moor := rfl
@[simp] theorem pushShared_fab (s : State) (lat : Nat) (w : Write) : (s.pushShared lat w).fab = s.fab := rfl
@[simp] theorem pushShared_cycle (s : State) (lat : Nat) (w : Write) : (s.pushShared lat w).cycle = s.cycle := rfl
@[simp] theorem pushShared_booted (s : State) (lat : Nat) (w : Write) : (s.pushShared lat w).booted = s.booted := rfl
@[simp] theorem pushShared_inputs (s : State) (lat : Nat) (w : Write) : (s.pushShared lat w).inputs = s.inputs := rfl
@[simp] theorem pushShared_agenda (s : State) (lat : Nat) (w : Write) : (s.pushShared lat w).agenda = s.agenda := rfl
@[simp] theorem pushShared_turn (s : State) (lat : Nat) (w : Write) : (s.pushShared lat w).turn = s.turn := rfl
@[simp] theorem pushShared_tick (s : State) (lat : Nat) (w : Write) : (s.pushShared lat w).tick = s.tick := rfl
@[simp] theorem wx_here (s : State) (lat : Nat) (r : BitVec 5) (d : Dbl) : (s.wx lat r d).here = s.here := rfl
@[simp] theorem wx_issue (s : State) (lat : Nat) (r : BitVec 5) (d : Dbl) : (s.wx lat r d).issue = s.issue := rfl
@[simp] theorem wx_others (s : State) (lat : Nat) (r : BitVec 5) (d : Dbl) : (s.wx lat r d).others = s.others := rfl
@[simp] theorem wx_cores (s : State) (lat : Nat) (r : BitVec 5) (d : Dbl) : (s.wx lat r d).cores = s.cores := rfl
@[simp] theorem wx_clusters (s : State) (lat : Nat) (r : BitVec 5) (d : Dbl) : (s.wx lat r d).clusters = s.clusters := rfl
@[simp] theorem wx_dies (s : State) (lat : Nat) (r : BitVec 5) (d : Dbl) : (s.wx lat r d).dies = s.dies := rfl
@[simp] theorem wx_homes (s : State) (lat : Nat) (r : BitVec 5) (d : Dbl) : (s.wx lat r d).homes = s.homes := rfl
@[simp] theorem wx_mem (s : State) (lat : Nat) (r : BitVec 5) (d : Dbl) : (s.wx lat r d).mem = s.mem := rfl
@[simp] theorem wx_silt (s : State) (lat : Nat) (r : BitVec 5) (d : Dbl) : (s.wx lat r d).silt = s.silt := rfl
@[simp] theorem wx_dev (s : State) (lat : Nat) (r : BitVec 5) (d : Dbl) : (s.wx lat r d).dev = s.dev := rfl
@[simp] theorem wx_queues (s : State) (lat : Nat) (r : BitVec 5) (d : Dbl) : (s.wx lat r d).queues = s.queues := rfl
@[simp] theorem wx_sec (s : State) (lat : Nat) (r : BitVec 5) (d : Dbl) : (s.wx lat r d).sec = s.sec := rfl
@[simp] theorem wx_ports (s : State) (lat : Nat) (r : BitVec 5) (d : Dbl) : (s.wx lat r d).ports = s.ports := rfl
@[simp] theorem wx_waits (s : State) (lat : Nat) (r : BitVec 5) (d : Dbl) : (s.wx lat r d).waits = s.waits := rfl
@[simp] theorem wx_svc (s : State) (lat : Nat) (r : BitVec 5) (d : Dbl) : (s.wx lat r d).svc = s.svc := rfl
@[simp] theorem wx_moor (s : State) (lat : Nat) (r : BitVec 5) (d : Dbl) : (s.wx lat r d).moor = s.moor := rfl
@[simp] theorem wx_fab (s : State) (lat : Nat) (r : BitVec 5) (d : Dbl) : (s.wx lat r d).fab = s.fab := rfl
@[simp] theorem wx_cycle (s : State) (lat : Nat) (r : BitVec 5) (d : Dbl) : (s.wx lat r d).cycle = s.cycle := rfl
@[simp] theorem wx_booted (s : State) (lat : Nat) (r : BitVec 5) (d : Dbl) : (s.wx lat r d).booted = s.booted := rfl
@[simp] theorem wx_inputs (s : State) (lat : Nat) (r : BitVec 5) (d : Dbl) : (s.wx lat r d).inputs = s.inputs := rfl
@[simp] theorem wx_agenda (s : State) (lat : Nat) (r : BitVec 5) (d : Dbl) : (s.wx lat r d).agenda = s.agenda := rfl
@[simp] theorem wx_turn (s : State) (lat : Nat) (r : BitVec 5) (d : Dbl) : (s.wx lat r d).turn = s.turn := rfl
@[simp] theorem wx_tick (s : State) (lat : Nat) (r : BitVec 5) (d : Dbl) : (s.wx lat r d).tick = s.tick := rfl
@[simp] theorem wq_here (s : State) (lat : Nat) (r : BitVec 3) (d : Bool) : (s.wq lat r d).here = s.here := rfl
@[simp] theorem wq_issue (s : State) (lat : Nat) (r : BitVec 3) (d : Bool) : (s.wq lat r d).issue = s.issue := rfl
@[simp] theorem wq_others (s : State) (lat : Nat) (r : BitVec 3) (d : Bool) : (s.wq lat r d).others = s.others := rfl
@[simp] theorem wq_cores (s : State) (lat : Nat) (r : BitVec 3) (d : Bool) : (s.wq lat r d).cores = s.cores := rfl
@[simp] theorem wq_clusters (s : State) (lat : Nat) (r : BitVec 3) (d : Bool) : (s.wq lat r d).clusters = s.clusters := rfl
@[simp] theorem wq_dies (s : State) (lat : Nat) (r : BitVec 3) (d : Bool) : (s.wq lat r d).dies = s.dies := rfl
@[simp] theorem wq_homes (s : State) (lat : Nat) (r : BitVec 3) (d : Bool) : (s.wq lat r d).homes = s.homes := rfl
@[simp] theorem wq_mem (s : State) (lat : Nat) (r : BitVec 3) (d : Bool) : (s.wq lat r d).mem = s.mem := rfl
@[simp] theorem wq_silt (s : State) (lat : Nat) (r : BitVec 3) (d : Bool) : (s.wq lat r d).silt = s.silt := rfl
@[simp] theorem wq_dev (s : State) (lat : Nat) (r : BitVec 3) (d : Bool) : (s.wq lat r d).dev = s.dev := rfl
@[simp] theorem wq_queues (s : State) (lat : Nat) (r : BitVec 3) (d : Bool) : (s.wq lat r d).queues = s.queues := rfl
@[simp] theorem wq_sec (s : State) (lat : Nat) (r : BitVec 3) (d : Bool) : (s.wq lat r d).sec = s.sec := rfl
@[simp] theorem wq_ports (s : State) (lat : Nat) (r : BitVec 3) (d : Bool) : (s.wq lat r d).ports = s.ports := rfl
@[simp] theorem wq_waits (s : State) (lat : Nat) (r : BitVec 3) (d : Bool) : (s.wq lat r d).waits = s.waits := rfl
@[simp] theorem wq_svc (s : State) (lat : Nat) (r : BitVec 3) (d : Bool) : (s.wq lat r d).svc = s.svc := rfl
@[simp] theorem wq_moor (s : State) (lat : Nat) (r : BitVec 3) (d : Bool) : (s.wq lat r d).moor = s.moor := rfl
@[simp] theorem wq_fab (s : State) (lat : Nat) (r : BitVec 3) (d : Bool) : (s.wq lat r d).fab = s.fab := rfl
@[simp] theorem wq_cycle (s : State) (lat : Nat) (r : BitVec 3) (d : Bool) : (s.wq lat r d).cycle = s.cycle := rfl
@[simp] theorem wq_booted (s : State) (lat : Nat) (r : BitVec 3) (d : Bool) : (s.wq lat r d).booted = s.booted := rfl
@[simp] theorem wq_inputs (s : State) (lat : Nat) (r : BitVec 3) (d : Bool) : (s.wq lat r d).inputs = s.inputs := rfl
@[simp] theorem wq_agenda (s : State) (lat : Nat) (r : BitVec 3) (d : Bool) : (s.wq lat r d).agenda = s.agenda := rfl
@[simp] theorem wq_turn (s : State) (lat : Nat) (r : BitVec 3) (d : Bool) : (s.wq lat r d).turn = s.turn := rfl
@[simp] theorem wq_tick (s : State) (lat : Nat) (r : BitVec 3) (d : Bool) : (s.wq lat r d).tick = s.tick := rfl
@[simp] theorem wv_here (s : State) (lat : Nat) (n : BitVec 6) (m : BitVec 64) (d : VReg) : (s.wv lat n m d).here = s.here := rfl
@[simp] theorem wv_issue (s : State) (lat : Nat) (n : BitVec 6) (m : BitVec 64) (d : VReg) : (s.wv lat n m d).issue = s.issue := rfl
@[simp] theorem wv_others (s : State) (lat : Nat) (n : BitVec 6) (m : BitVec 64) (d : VReg) : (s.wv lat n m d).others = s.others := rfl
@[simp] theorem wv_cores (s : State) (lat : Nat) (n : BitVec 6) (m : BitVec 64) (d : VReg) : (s.wv lat n m d).cores = s.cores := rfl
@[simp] theorem wv_clusters (s : State) (lat : Nat) (n : BitVec 6) (m : BitVec 64) (d : VReg) : (s.wv lat n m d).clusters = s.clusters := rfl
@[simp] theorem wv_dies (s : State) (lat : Nat) (n : BitVec 6) (m : BitVec 64) (d : VReg) : (s.wv lat n m d).dies = s.dies := rfl
@[simp] theorem wv_homes (s : State) (lat : Nat) (n : BitVec 6) (m : BitVec 64) (d : VReg) : (s.wv lat n m d).homes = s.homes := rfl
@[simp] theorem wv_mem (s : State) (lat : Nat) (n : BitVec 6) (m : BitVec 64) (d : VReg) : (s.wv lat n m d).mem = s.mem := rfl
@[simp] theorem wv_silt (s : State) (lat : Nat) (n : BitVec 6) (m : BitVec 64) (d : VReg) : (s.wv lat n m d).silt = s.silt := rfl
@[simp] theorem wv_dev (s : State) (lat : Nat) (n : BitVec 6) (m : BitVec 64) (d : VReg) : (s.wv lat n m d).dev = s.dev := rfl
@[simp] theorem wv_queues (s : State) (lat : Nat) (n : BitVec 6) (m : BitVec 64) (d : VReg) : (s.wv lat n m d).queues = s.queues := rfl
@[simp] theorem wv_sec (s : State) (lat : Nat) (n : BitVec 6) (m : BitVec 64) (d : VReg) : (s.wv lat n m d).sec = s.sec := rfl
@[simp] theorem wv_ports (s : State) (lat : Nat) (n : BitVec 6) (m : BitVec 64) (d : VReg) : (s.wv lat n m d).ports = s.ports := rfl
@[simp] theorem wv_waits (s : State) (lat : Nat) (n : BitVec 6) (m : BitVec 64) (d : VReg) : (s.wv lat n m d).waits = s.waits := rfl
@[simp] theorem wv_svc (s : State) (lat : Nat) (n : BitVec 6) (m : BitVec 64) (d : VReg) : (s.wv lat n m d).svc = s.svc := rfl
@[simp] theorem wv_moor (s : State) (lat : Nat) (n : BitVec 6) (m : BitVec 64) (d : VReg) : (s.wv lat n m d).moor = s.moor := rfl
@[simp] theorem wv_fab (s : State) (lat : Nat) (n : BitVec 6) (m : BitVec 64) (d : VReg) : (s.wv lat n m d).fab = s.fab := rfl
@[simp] theorem wv_cycle (s : State) (lat : Nat) (n : BitVec 6) (m : BitVec 64) (d : VReg) : (s.wv lat n m d).cycle = s.cycle := rfl
@[simp] theorem wv_booted (s : State) (lat : Nat) (n : BitVec 6) (m : BitVec 64) (d : VReg) : (s.wv lat n m d).booted = s.booted := rfl
@[simp] theorem wv_inputs (s : State) (lat : Nat) (n : BitVec 6) (m : BitVec 64) (d : VReg) : (s.wv lat n m d).inputs = s.inputs := rfl
@[simp] theorem wv_agenda (s : State) (lat : Nat) (n : BitVec 6) (m : BitVec 64) (d : VReg) : (s.wv lat n m d).agenda = s.agenda := rfl
@[simp] theorem wv_turn (s : State) (lat : Nat) (n : BitVec 6) (m : BitVec 64) (d : VReg) : (s.wv lat n m d).turn = s.turn := rfl
@[simp] theorem wv_tick (s : State) (lat : Nat) (n : BitVec 6) (m : BitVec 64) (d : VReg) : (s.wv lat n m d).tick = s.tick := rfl
@[simp] theorem wvShared_here (s : State) (lat : Nat) (n : BitVec 6) (m : BitVec 64) (d : VReg) : (s.wvShared lat n m d).here = s.here := rfl
@[simp] theorem wvShared_issue (s : State) (lat : Nat) (n : BitVec 6) (m : BitVec 64) (d : VReg) : (s.wvShared lat n m d).issue = s.issue := rfl
@[simp] theorem wvShared_others (s : State) (lat : Nat) (n : BitVec 6) (m : BitVec 64) (d : VReg) : (s.wvShared lat n m d).others = s.others := rfl
@[simp] theorem wvShared_cores (s : State) (lat : Nat) (n : BitVec 6) (m : BitVec 64) (d : VReg) : (s.wvShared lat n m d).cores = s.cores := rfl
@[simp] theorem wvShared_clusters (s : State) (lat : Nat) (n : BitVec 6) (m : BitVec 64) (d : VReg) : (s.wvShared lat n m d).clusters = s.clusters := rfl
@[simp] theorem wvShared_dies (s : State) (lat : Nat) (n : BitVec 6) (m : BitVec 64) (d : VReg) : (s.wvShared lat n m d).dies = s.dies := rfl
@[simp] theorem wvShared_homes (s : State) (lat : Nat) (n : BitVec 6) (m : BitVec 64) (d : VReg) : (s.wvShared lat n m d).homes = s.homes := rfl
@[simp] theorem wvShared_mem (s : State) (lat : Nat) (n : BitVec 6) (m : BitVec 64) (d : VReg) : (s.wvShared lat n m d).mem = s.mem := rfl
@[simp] theorem wvShared_silt (s : State) (lat : Nat) (n : BitVec 6) (m : BitVec 64) (d : VReg) : (s.wvShared lat n m d).silt = s.silt := rfl
@[simp] theorem wvShared_dev (s : State) (lat : Nat) (n : BitVec 6) (m : BitVec 64) (d : VReg) : (s.wvShared lat n m d).dev = s.dev := rfl
@[simp] theorem wvShared_queues (s : State) (lat : Nat) (n : BitVec 6) (m : BitVec 64) (d : VReg) : (s.wvShared lat n m d).queues = s.queues := rfl
@[simp] theorem wvShared_sec (s : State) (lat : Nat) (n : BitVec 6) (m : BitVec 64) (d : VReg) : (s.wvShared lat n m d).sec = s.sec := rfl
@[simp] theorem wvShared_ports (s : State) (lat : Nat) (n : BitVec 6) (m : BitVec 64) (d : VReg) : (s.wvShared lat n m d).ports = s.ports := rfl
@[simp] theorem wvShared_waits (s : State) (lat : Nat) (n : BitVec 6) (m : BitVec 64) (d : VReg) : (s.wvShared lat n m d).waits = s.waits := rfl
@[simp] theorem wvShared_svc (s : State) (lat : Nat) (n : BitVec 6) (m : BitVec 64) (d : VReg) : (s.wvShared lat n m d).svc = s.svc := rfl
@[simp] theorem wvShared_moor (s : State) (lat : Nat) (n : BitVec 6) (m : BitVec 64) (d : VReg) : (s.wvShared lat n m d).moor = s.moor := rfl
@[simp] theorem wvShared_fab (s : State) (lat : Nat) (n : BitVec 6) (m : BitVec 64) (d : VReg) : (s.wvShared lat n m d).fab = s.fab := rfl
@[simp] theorem wvShared_cycle (s : State) (lat : Nat) (n : BitVec 6) (m : BitVec 64) (d : VReg) : (s.wvShared lat n m d).cycle = s.cycle := rfl
@[simp] theorem wvShared_booted (s : State) (lat : Nat) (n : BitVec 6) (m : BitVec 64) (d : VReg) : (s.wvShared lat n m d).booted = s.booted := rfl
@[simp] theorem wvShared_inputs (s : State) (lat : Nat) (n : BitVec 6) (m : BitVec 64) (d : VReg) : (s.wvShared lat n m d).inputs = s.inputs := rfl
@[simp] theorem wvShared_agenda (s : State) (lat : Nat) (n : BitVec 6) (m : BitVec 64) (d : VReg) : (s.wvShared lat n m d).agenda = s.agenda := rfl
@[simp] theorem wvShared_turn (s : State) (lat : Nat) (n : BitVec 6) (m : BitVec 64) (d : VReg) : (s.wvShared lat n m d).turn = s.turn := rfl
@[simp] theorem wvShared_tick (s : State) (lat : Nat) (n : BitVec 6) (m : BitVec 64) (d : VReg) : (s.wvShared lat n m d).tick = s.tick := rfl
@[simp] theorem wk_here (s : State) (lat : Nat) (n : BitVec 4) (d : BitVec 64) : (s.wk lat n d).here = s.here := rfl
@[simp] theorem wk_issue (s : State) (lat : Nat) (n : BitVec 4) (d : BitVec 64) : (s.wk lat n d).issue = s.issue := rfl
@[simp] theorem wk_others (s : State) (lat : Nat) (n : BitVec 4) (d : BitVec 64) : (s.wk lat n d).others = s.others := rfl
@[simp] theorem wk_cores (s : State) (lat : Nat) (n : BitVec 4) (d : BitVec 64) : (s.wk lat n d).cores = s.cores := rfl
@[simp] theorem wk_clusters (s : State) (lat : Nat) (n : BitVec 4) (d : BitVec 64) : (s.wk lat n d).clusters = s.clusters := rfl
@[simp] theorem wk_dies (s : State) (lat : Nat) (n : BitVec 4) (d : BitVec 64) : (s.wk lat n d).dies = s.dies := rfl
@[simp] theorem wk_homes (s : State) (lat : Nat) (n : BitVec 4) (d : BitVec 64) : (s.wk lat n d).homes = s.homes := rfl
@[simp] theorem wk_mem (s : State) (lat : Nat) (n : BitVec 4) (d : BitVec 64) : (s.wk lat n d).mem = s.mem := rfl
@[simp] theorem wk_silt (s : State) (lat : Nat) (n : BitVec 4) (d : BitVec 64) : (s.wk lat n d).silt = s.silt := rfl
@[simp] theorem wk_dev (s : State) (lat : Nat) (n : BitVec 4) (d : BitVec 64) : (s.wk lat n d).dev = s.dev := rfl
@[simp] theorem wk_queues (s : State) (lat : Nat) (n : BitVec 4) (d : BitVec 64) : (s.wk lat n d).queues = s.queues := rfl
@[simp] theorem wk_sec (s : State) (lat : Nat) (n : BitVec 4) (d : BitVec 64) : (s.wk lat n d).sec = s.sec := rfl
@[simp] theorem wk_ports (s : State) (lat : Nat) (n : BitVec 4) (d : BitVec 64) : (s.wk lat n d).ports = s.ports := rfl
@[simp] theorem wk_waits (s : State) (lat : Nat) (n : BitVec 4) (d : BitVec 64) : (s.wk lat n d).waits = s.waits := rfl
@[simp] theorem wk_svc (s : State) (lat : Nat) (n : BitVec 4) (d : BitVec 64) : (s.wk lat n d).svc = s.svc := rfl
@[simp] theorem wk_moor (s : State) (lat : Nat) (n : BitVec 4) (d : BitVec 64) : (s.wk lat n d).moor = s.moor := rfl
@[simp] theorem wk_fab (s : State) (lat : Nat) (n : BitVec 4) (d : BitVec 64) : (s.wk lat n d).fab = s.fab := rfl
@[simp] theorem wk_cycle (s : State) (lat : Nat) (n : BitVec 4) (d : BitVec 64) : (s.wk lat n d).cycle = s.cycle := rfl
@[simp] theorem wk_booted (s : State) (lat : Nat) (n : BitVec 4) (d : BitVec 64) : (s.wk lat n d).booted = s.booted := rfl
@[simp] theorem wk_inputs (s : State) (lat : Nat) (n : BitVec 4) (d : BitVec 64) : (s.wk lat n d).inputs = s.inputs := rfl
@[simp] theorem wk_agenda (s : State) (lat : Nat) (n : BitVec 4) (d : BitVec 64) : (s.wk lat n d).agenda = s.agenda := rfl
@[simp] theorem wk_turn (s : State) (lat : Nat) (n : BitVec 4) (d : BitVec 64) : (s.wk lat n d).turn = s.turn := rfl
@[simp] theorem wk_tick (s : State) (lat : Nat) (n : BitVec 4) (d : BitVec 64) : (s.wk lat n d).tick = s.tick := rfl
@[simp] theorem stall_here (s : State) : (s.stall).here = s.here := rfl
@[simp] theorem stall_cx (s : State) : (s.stall).cx = s.cx := rfl
@[simp] theorem stall_others (s : State) : (s.stall).others = s.others := rfl
@[simp] theorem stall_cores (s : State) : (s.stall).cores = s.cores := rfl
@[simp] theorem stall_clusters (s : State) : (s.stall).clusters = s.clusters := rfl
@[simp] theorem stall_dies (s : State) : (s.stall).dies = s.dies := rfl
@[simp] theorem stall_homes (s : State) : (s.stall).homes = s.homes := rfl
@[simp] theorem stall_mem (s : State) : (s.stall).mem = s.mem := rfl
@[simp] theorem stall_silt (s : State) : (s.stall).silt = s.silt := rfl
@[simp] theorem stall_dev (s : State) : (s.stall).dev = s.dev := rfl
@[simp] theorem stall_queues (s : State) : (s.stall).queues = s.queues := rfl
@[simp] theorem stall_sec (s : State) : (s.stall).sec = s.sec := rfl
@[simp] theorem stall_ports (s : State) : (s.stall).ports = s.ports := rfl
@[simp] theorem stall_waits (s : State) : (s.stall).waits = s.waits := rfl
@[simp] theorem stall_svc (s : State) : (s.stall).svc = s.svc := rfl
@[simp] theorem stall_moor (s : State) : (s.stall).moor = s.moor := rfl
@[simp] theorem stall_fab (s : State) : (s.stall).fab = s.fab := rfl
@[simp] theorem stall_cycle (s : State) : (s.stall).cycle = s.cycle := rfl
@[simp] theorem stall_booted (s : State) : (s.stall).booted = s.booted := rfl
@[simp] theorem stall_inputs (s : State) : (s.stall).inputs = s.inputs := rfl
@[simp] theorem stall_agenda (s : State) : (s.stall).agenda = s.agenda := rfl
@[simp] theorem stall_turn (s : State) : (s.stall).turn = s.turn := rfl
@[simp] theorem stall_tick (s : State) : (s.stall).tick = s.tick := rfl
@[simp] theorem park_here (s : State) : (s.park).here = s.here := rfl
@[simp] theorem park_cx (s : State) : (s.park).cx = s.cx := rfl
@[simp] theorem park_others (s : State) : (s.park).others = s.others := rfl
@[simp] theorem park_cores (s : State) : (s.park).cores = s.cores := rfl
@[simp] theorem park_clusters (s : State) : (s.park).clusters = s.clusters := rfl
@[simp] theorem park_dies (s : State) : (s.park).dies = s.dies := rfl
@[simp] theorem park_homes (s : State) : (s.park).homes = s.homes := rfl
@[simp] theorem park_mem (s : State) : (s.park).mem = s.mem := rfl
@[simp] theorem park_silt (s : State) : (s.park).silt = s.silt := rfl
@[simp] theorem park_dev (s : State) : (s.park).dev = s.dev := rfl
@[simp] theorem park_queues (s : State) : (s.park).queues = s.queues := rfl
@[simp] theorem park_sec (s : State) : (s.park).sec = s.sec := rfl
@[simp] theorem park_ports (s : State) : (s.park).ports = s.ports := rfl
@[simp] theorem park_waits (s : State) : (s.park).waits = s.waits := rfl
@[simp] theorem park_svc (s : State) : (s.park).svc = s.svc := rfl
@[simp] theorem park_moor (s : State) : (s.park).moor = s.moor := rfl
@[simp] theorem park_fab (s : State) : (s.park).fab = s.fab := rfl
@[simp] theorem park_cycle (s : State) : (s.park).cycle = s.cycle := rfl
@[simp] theorem park_booted (s : State) : (s.park).booted = s.booted := rfl
@[simp] theorem park_inputs (s : State) : (s.park).inputs = s.inputs := rfl
@[simp] theorem park_agenda (s : State) : (s.park).agenda = s.agenda := rfl
@[simp] theorem park_turn (s : State) : (s.park).turn = s.turn := rfl
@[simp] theorem park_tick (s : State) : (s.park).tick = s.tick := rfl
@[simp] theorem judged_here (s : State) (v : Verdict) : (s.judged v).here = s.here := rfl
@[simp] theorem judged_cx (s : State) (v : Verdict) : (s.judged v).cx = s.cx := rfl
@[simp] theorem judged_others (s : State) (v : Verdict) : (s.judged v).others = s.others := rfl
@[simp] theorem judged_cores (s : State) (v : Verdict) : (s.judged v).cores = s.cores := rfl
@[simp] theorem judged_clusters (s : State) (v : Verdict) : (s.judged v).clusters = s.clusters := rfl
@[simp] theorem judged_dies (s : State) (v : Verdict) : (s.judged v).dies = s.dies := rfl
@[simp] theorem judged_homes (s : State) (v : Verdict) : (s.judged v).homes = s.homes := rfl
@[simp] theorem judged_mem (s : State) (v : Verdict) : (s.judged v).mem = s.mem := rfl
@[simp] theorem judged_silt (s : State) (v : Verdict) : (s.judged v).silt = s.silt := rfl
@[simp] theorem judged_dev (s : State) (v : Verdict) : (s.judged v).dev = s.dev := rfl
@[simp] theorem judged_queues (s : State) (v : Verdict) : (s.judged v).queues = s.queues := rfl
@[simp] theorem judged_sec (s : State) (v : Verdict) : (s.judged v).sec = s.sec := rfl
@[simp] theorem judged_ports (s : State) (v : Verdict) : (s.judged v).ports = s.ports := rfl
@[simp] theorem judged_waits (s : State) (v : Verdict) : (s.judged v).waits = s.waits := rfl
@[simp] theorem judged_svc (s : State) (v : Verdict) : (s.judged v).svc = s.svc := rfl
@[simp] theorem judged_moor (s : State) (v : Verdict) : (s.judged v).moor = s.moor := rfl
@[simp] theorem judged_fab (s : State) (v : Verdict) : (s.judged v).fab = s.fab := rfl
@[simp] theorem judged_cycle (s : State) (v : Verdict) : (s.judged v).cycle = s.cycle := rfl
@[simp] theorem judged_booted (s : State) (v : Verdict) : (s.judged v).booted = s.booted := rfl
@[simp] theorem judged_inputs (s : State) (v : Verdict) : (s.judged v).inputs = s.inputs := rfl
@[simp] theorem judged_agenda (s : State) (v : Verdict) : (s.judged v).agenda = s.agenda := rfl
@[simp] theorem judged_turn (s : State) (v : Verdict) : (s.judged v).turn = s.turn := rfl
@[simp] theorem judged_tick (s : State) (v : Verdict) : (s.judged v).tick = s.tick := rfl
@[simp] theorem emptyIssue_here (s : State) : (s.emptyIssue).here = s.here := rfl
@[simp] theorem emptyIssue_others (s : State) : (s.emptyIssue).others = s.others := rfl
@[simp] theorem emptyIssue_cores (s : State) : (s.emptyIssue).cores = s.cores := rfl
@[simp] theorem emptyIssue_clusters (s : State) : (s.emptyIssue).clusters = s.clusters := rfl
@[simp] theorem emptyIssue_dies (s : State) : (s.emptyIssue).dies = s.dies := rfl
@[simp] theorem emptyIssue_homes (s : State) : (s.emptyIssue).homes = s.homes := rfl
@[simp] theorem emptyIssue_mem (s : State) : (s.emptyIssue).mem = s.mem := rfl
@[simp] theorem emptyIssue_silt (s : State) : (s.emptyIssue).silt = s.silt := rfl
@[simp] theorem emptyIssue_dev (s : State) : (s.emptyIssue).dev = s.dev := rfl
@[simp] theorem emptyIssue_queues (s : State) : (s.emptyIssue).queues = s.queues := rfl
@[simp] theorem emptyIssue_sec (s : State) : (s.emptyIssue).sec = s.sec := rfl
@[simp] theorem emptyIssue_ports (s : State) : (s.emptyIssue).ports = s.ports := rfl
@[simp] theorem emptyIssue_waits (s : State) : (s.emptyIssue).waits = s.waits := rfl
@[simp] theorem emptyIssue_svc (s : State) : (s.emptyIssue).svc = s.svc := rfl
@[simp] theorem emptyIssue_moor (s : State) : (s.emptyIssue).moor = s.moor := rfl
@[simp] theorem emptyIssue_fab (s : State) : (s.emptyIssue).fab = s.fab := rfl
@[simp] theorem emptyIssue_cycle (s : State) : (s.emptyIssue).cycle = s.cycle := rfl
@[simp] theorem emptyIssue_booted (s : State) : (s.emptyIssue).booted = s.booted := rfl
@[simp] theorem emptyIssue_inputs (s : State) : (s.emptyIssue).inputs = s.inputs := rfl
@[simp] theorem emptyIssue_agenda (s : State) : (s.emptyIssue).agenda = s.agenda := rfl
@[simp] theorem emptyIssue_turn (s : State) : (s.emptyIssue).turn = s.turn := rfl
@[simp] theorem emptyIssue_tick (s : State) : (s.emptyIssue).tick = s.tick := rfl

/-! Fields of the context held in `cx`. -/

@[simp] theorem push_cx_occ (s : State) (lat : Nat) (w : Write) : (s.push lat w).cx.occ = s.cx.occ := rfl
@[simp] theorem push_cx_id (s : State) (lat : Nat) (w : Write) : (s.push lat w).cx.id = s.cx.id := rfl
@[simp] theorem push_cx_x (s : State) (lat : Nat) (w : Write) : (s.push lat w).cx.x = s.cx.x := rfl
@[simp] theorem push_cx_q (s : State) (lat : Nat) (w : Write) : (s.push lat w).cx.q = s.cx.q := rfl
@[simp] theorem push_cx_b (s : State) (lat : Nat) (w : Write) : (s.push lat w).cx.b = s.cx.b := rfl
@[simp] theorem push_cx_vrot (s : State) (lat : Nat) (w : Write) : (s.push lat w).cx.vrot = s.cx.vrot := rfl
@[simp] theorem push_cx_krot (s : State) (lat : Nat) (w : Write) : (s.push lat w).cx.krot = s.cx.krot := rfl
@[simp] theorem push_cx_mode (s : State) (lat : Nat) (w : Write) : (s.push lat w).cx.mode = s.cx.mode := rfl
@[simp] theorem push_cx_v (s : State) (lat : Nat) (w : Write) : (s.push lat w).cx.v = s.cx.v := rfl
@[simp] theorem push_cx_k (s : State) (lat : Nat) (w : Write) : (s.push lat w).cx.k = s.cx.k := rfl
@[simp] theorem push_cx_w (s : State) (lat : Nat) (w : Write) : (s.push lat w).cx.w = s.cx.w := rfl
@[simp] theorem push_cx_pc (s : State) (lat : Nat) (w : Write) : (s.push lat w).cx.pc = s.cx.pc := rfl
@[simp] theorem push_cx_xfer (s : State) (lat : Nat) (w : Write) : (s.push lat w).cx.xfer = s.cx.xfer := rfl
@[simp] theorem push_cx_btime (s : State) (lat : Nat) (w : Write) : (s.push lat w).cx.btime = s.cx.btime := rfl
@[simp] theorem push_cx_stoch (s : State) (lat : Nat) (w : Write) : (s.push lat w).cx.stoch = s.cx.stoch := rfl
@[simp] theorem push_cx_trap (s : State) (lat : Nat) (w : Write) : (s.push lat w).cx.trap = s.cx.trap := rfl
@[simp] theorem push_cx_sscratch (s : State) (lat : Nat) (w : Write) : (s.push lat w).cx.sscratch = s.cx.sscratch := rfl
@[simp] theorem push_cx_acc (s : State) (lat : Nat) (w : Write) : (s.push lat w).cx.acc = s.cx.acc := rfl
@[simp] theorem push_cx_latchA (s : State) (lat : Nat) (w : Write) : (s.push lat w).cx.latchA = s.cx.latchA := rfl
@[simp] theorem push_cx_latchB (s : State) (lat : Nat) (w : Write) : (s.push lat w).cx.latchB = s.cx.latchB := rfl
@[simp] theorem push_cx_mat (s : State) (lat : Nat) (w : Write) : (s.push lat w).cx.mat = s.cx.mat := rfl
@[simp] theorem push_cx_passes (s : State) (lat : Nat) (w : Write) : (s.push lat w).cx.passes = s.cx.passes := rfl
@[simp] theorem push_cx_flights (s : State) (lat : Nat) (w : Write) : (s.push lat w).cx.flights = s.cx.flights := rfl
@[simp] theorem push_cx_deferred (s : State) (lat : Nat) (w : Write) : (s.push lat w).cx.deferred = s.cx.deferred := rfl
@[simp] theorem push_cx_unreported (s : State) (lat : Nat) (w : Write) : (s.push lat w).cx.unreported = s.cx.unreported := rfl
@[simp] theorem push_cx_opens (s : State) (lat : Nat) (w : Write) : (s.push lat w).cx.opens = s.cx.opens := rfl
@[simp] theorem push_cx_barriers (s : State) (lat : Nat) (w : Write) : (s.push lat w).cx.barriers = s.cx.barriers := rfl
@[simp] theorem push_cx_nap (s : State) (lat : Nat) (w : Write) : (s.push lat w).cx.nap = s.cx.nap := rfl
@[simp] theorem push_cx_parked (s : State) (lat : Nat) (w : Write) : (s.push lat w).cx.parked = s.cx.parked := rfl
@[simp] theorem push_cx_parkedAs (s : State) (lat : Nat) (w : Write) : (s.push lat w).cx.parkedAs = s.cx.parkedAs := rfl
@[simp] theorem push_cx_push (s : State) (lat : Nat) (w : Write) : (s.push lat w).cx.push = s.cx.push := rfl
@[simp] theorem push_cx_opening (s : State) (lat : Nat) (w : Write) : (s.push lat w).cx.opening = s.cx.opening := rfl
@[simp] theorem push_cx_served (s : State) (lat : Nat) (w : Write) : (s.push lat w).cx.served = s.cx.served := rfl
@[simp] theorem push_cx_timedOut (s : State) (lat : Nat) (w : Write) : (s.push lat w).cx.timedOut = s.cx.timedOut := rfl
@[simp] theorem push_cx_fault (s : State) (lat : Nat) (w : Write) : (s.push lat w).cx.fault = s.cx.fault := rfl
@[simp] theorem push_cx_ending (s : State) (lat : Nat) (w : Write) : (s.push lat w).cx.ending = s.cx.ending := rfl
@[simp] theorem push_cx_entryTrap (s : State) (lat : Nat) (w : Write) : (s.push lat w).cx.entryTrap = s.cx.entryTrap := rfl
@[simp] theorem push_cx_atVector (s : State) (lat : Nat) (w : Write) : (s.push lat w).cx.atVector = s.cx.atVector := rfl
@[simp] theorem push_cx_draining (s : State) (lat : Nat) (w : Write) : (s.push lat w).cx.draining = s.cx.draining := rfl
@[simp] theorem push_cx_waitSince (s : State) (lat : Nat) (w : Write) : (s.push lat w).cx.waitSince = s.cx.waitSince := rfl
@[simp] theorem push_cx_waited (s : State) (lat : Nat) (w : Write) : (s.push lat w).cx.waited = s.cx.waited := rfl
@[simp] theorem push_cx_tstvs (s : State) (lat : Nat) (w : Write) : (s.push lat w).cx.tstvs = s.cx.tstvs := rfl
@[simp] theorem push_cx_dbg (s : State) (lat : Nat) (w : Write) : (s.push lat w).cx.dbg = s.cx.dbg := rfl
@[simp] theorem push_cx_late (s : State) (lat : Nat) (w : Write) : (s.push lat w).cx.late = s.cx.late := rfl
@[simp] theorem pushShared_cx_occ (s : State) (lat : Nat) (w : Write) : (s.pushShared lat w).cx.occ = s.cx.occ := rfl
@[simp] theorem pushShared_cx_id (s : State) (lat : Nat) (w : Write) : (s.pushShared lat w).cx.id = s.cx.id := rfl
@[simp] theorem pushShared_cx_x (s : State) (lat : Nat) (w : Write) : (s.pushShared lat w).cx.x = s.cx.x := rfl
@[simp] theorem pushShared_cx_q (s : State) (lat : Nat) (w : Write) : (s.pushShared lat w).cx.q = s.cx.q := rfl
@[simp] theorem pushShared_cx_b (s : State) (lat : Nat) (w : Write) : (s.pushShared lat w).cx.b = s.cx.b := rfl
@[simp] theorem pushShared_cx_vrot (s : State) (lat : Nat) (w : Write) : (s.pushShared lat w).cx.vrot = s.cx.vrot := rfl
@[simp] theorem pushShared_cx_krot (s : State) (lat : Nat) (w : Write) : (s.pushShared lat w).cx.krot = s.cx.krot := rfl
@[simp] theorem pushShared_cx_mode (s : State) (lat : Nat) (w : Write) : (s.pushShared lat w).cx.mode = s.cx.mode := rfl
@[simp] theorem pushShared_cx_v (s : State) (lat : Nat) (w : Write) : (s.pushShared lat w).cx.v = s.cx.v := rfl
@[simp] theorem pushShared_cx_k (s : State) (lat : Nat) (w : Write) : (s.pushShared lat w).cx.k = s.cx.k := rfl
@[simp] theorem pushShared_cx_w (s : State) (lat : Nat) (w : Write) : (s.pushShared lat w).cx.w = s.cx.w := rfl
@[simp] theorem pushShared_cx_pc (s : State) (lat : Nat) (w : Write) : (s.pushShared lat w).cx.pc = s.cx.pc := rfl
@[simp] theorem pushShared_cx_xfer (s : State) (lat : Nat) (w : Write) : (s.pushShared lat w).cx.xfer = s.cx.xfer := rfl
@[simp] theorem pushShared_cx_btime (s : State) (lat : Nat) (w : Write) : (s.pushShared lat w).cx.btime = s.cx.btime := rfl
@[simp] theorem pushShared_cx_stoch (s : State) (lat : Nat) (w : Write) : (s.pushShared lat w).cx.stoch = s.cx.stoch := rfl
@[simp] theorem pushShared_cx_trap (s : State) (lat : Nat) (w : Write) : (s.pushShared lat w).cx.trap = s.cx.trap := rfl
@[simp] theorem pushShared_cx_sscratch (s : State) (lat : Nat) (w : Write) : (s.pushShared lat w).cx.sscratch = s.cx.sscratch := rfl
@[simp] theorem pushShared_cx_acc (s : State) (lat : Nat) (w : Write) : (s.pushShared lat w).cx.acc = s.cx.acc := rfl
@[simp] theorem pushShared_cx_latchA (s : State) (lat : Nat) (w : Write) : (s.pushShared lat w).cx.latchA = s.cx.latchA := rfl
@[simp] theorem pushShared_cx_latchB (s : State) (lat : Nat) (w : Write) : (s.pushShared lat w).cx.latchB = s.cx.latchB := rfl
@[simp] theorem pushShared_cx_mat (s : State) (lat : Nat) (w : Write) : (s.pushShared lat w).cx.mat = s.cx.mat := rfl
@[simp] theorem pushShared_cx_passes (s : State) (lat : Nat) (w : Write) : (s.pushShared lat w).cx.passes = s.cx.passes := rfl
@[simp] theorem pushShared_cx_flights (s : State) (lat : Nat) (w : Write) : (s.pushShared lat w).cx.flights = s.cx.flights := rfl
@[simp] theorem pushShared_cx_deferred (s : State) (lat : Nat) (w : Write) : (s.pushShared lat w).cx.deferred = s.cx.deferred := rfl
@[simp] theorem pushShared_cx_unreported (s : State) (lat : Nat) (w : Write) : (s.pushShared lat w).cx.unreported = s.cx.unreported := rfl
@[simp] theorem pushShared_cx_opens (s : State) (lat : Nat) (w : Write) : (s.pushShared lat w).cx.opens = s.cx.opens := rfl
@[simp] theorem pushShared_cx_barriers (s : State) (lat : Nat) (w : Write) : (s.pushShared lat w).cx.barriers = s.cx.barriers := rfl
@[simp] theorem pushShared_cx_nap (s : State) (lat : Nat) (w : Write) : (s.pushShared lat w).cx.nap = s.cx.nap := rfl
@[simp] theorem pushShared_cx_parked (s : State) (lat : Nat) (w : Write) : (s.pushShared lat w).cx.parked = s.cx.parked := rfl
@[simp] theorem pushShared_cx_parkedAs (s : State) (lat : Nat) (w : Write) : (s.pushShared lat w).cx.parkedAs = s.cx.parkedAs := rfl
@[simp] theorem pushShared_cx_push (s : State) (lat : Nat) (w : Write) : (s.pushShared lat w).cx.push = s.cx.push := rfl
@[simp] theorem pushShared_cx_opening (s : State) (lat : Nat) (w : Write) : (s.pushShared lat w).cx.opening = s.cx.opening := rfl
@[simp] theorem pushShared_cx_served (s : State) (lat : Nat) (w : Write) : (s.pushShared lat w).cx.served = s.cx.served := rfl
@[simp] theorem pushShared_cx_timedOut (s : State) (lat : Nat) (w : Write) : (s.pushShared lat w).cx.timedOut = s.cx.timedOut := rfl
@[simp] theorem pushShared_cx_fault (s : State) (lat : Nat) (w : Write) : (s.pushShared lat w).cx.fault = s.cx.fault := rfl
@[simp] theorem pushShared_cx_ending (s : State) (lat : Nat) (w : Write) : (s.pushShared lat w).cx.ending = s.cx.ending := rfl
@[simp] theorem pushShared_cx_entryTrap (s : State) (lat : Nat) (w : Write) : (s.pushShared lat w).cx.entryTrap = s.cx.entryTrap := rfl
@[simp] theorem pushShared_cx_atVector (s : State) (lat : Nat) (w : Write) : (s.pushShared lat w).cx.atVector = s.cx.atVector := rfl
@[simp] theorem pushShared_cx_draining (s : State) (lat : Nat) (w : Write) : (s.pushShared lat w).cx.draining = s.cx.draining := rfl
@[simp] theorem pushShared_cx_waitSince (s : State) (lat : Nat) (w : Write) : (s.pushShared lat w).cx.waitSince = s.cx.waitSince := rfl
@[simp] theorem pushShared_cx_waited (s : State) (lat : Nat) (w : Write) : (s.pushShared lat w).cx.waited = s.cx.waited := rfl
@[simp] theorem pushShared_cx_tstvs (s : State) (lat : Nat) (w : Write) : (s.pushShared lat w).cx.tstvs = s.cx.tstvs := rfl
@[simp] theorem pushShared_cx_dbg (s : State) (lat : Nat) (w : Write) : (s.pushShared lat w).cx.dbg = s.cx.dbg := rfl
@[simp] theorem pushShared_cx_late (s : State) (lat : Nat) (w : Write) : (s.pushShared lat w).cx.late = s.cx.late := rfl
@[simp] theorem wx_cx_occ (s : State) (lat : Nat) (r : BitVec 5) (d : Dbl) : (s.wx lat r d).cx.occ = s.cx.occ := rfl
@[simp] theorem wx_cx_id (s : State) (lat : Nat) (r : BitVec 5) (d : Dbl) : (s.wx lat r d).cx.id = s.cx.id := rfl
@[simp] theorem wx_cx_x (s : State) (lat : Nat) (r : BitVec 5) (d : Dbl) : (s.wx lat r d).cx.x = s.cx.x := rfl
@[simp] theorem wx_cx_q (s : State) (lat : Nat) (r : BitVec 5) (d : Dbl) : (s.wx lat r d).cx.q = s.cx.q := rfl
@[simp] theorem wx_cx_b (s : State) (lat : Nat) (r : BitVec 5) (d : Dbl) : (s.wx lat r d).cx.b = s.cx.b := rfl
@[simp] theorem wx_cx_vrot (s : State) (lat : Nat) (r : BitVec 5) (d : Dbl) : (s.wx lat r d).cx.vrot = s.cx.vrot := rfl
@[simp] theorem wx_cx_krot (s : State) (lat : Nat) (r : BitVec 5) (d : Dbl) : (s.wx lat r d).cx.krot = s.cx.krot := rfl
@[simp] theorem wx_cx_mode (s : State) (lat : Nat) (r : BitVec 5) (d : Dbl) : (s.wx lat r d).cx.mode = s.cx.mode := rfl
@[simp] theorem wx_cx_v (s : State) (lat : Nat) (r : BitVec 5) (d : Dbl) : (s.wx lat r d).cx.v = s.cx.v := rfl
@[simp] theorem wx_cx_k (s : State) (lat : Nat) (r : BitVec 5) (d : Dbl) : (s.wx lat r d).cx.k = s.cx.k := rfl
@[simp] theorem wx_cx_w (s : State) (lat : Nat) (r : BitVec 5) (d : Dbl) : (s.wx lat r d).cx.w = s.cx.w := rfl
@[simp] theorem wx_cx_pc (s : State) (lat : Nat) (r : BitVec 5) (d : Dbl) : (s.wx lat r d).cx.pc = s.cx.pc := rfl
@[simp] theorem wx_cx_xfer (s : State) (lat : Nat) (r : BitVec 5) (d : Dbl) : (s.wx lat r d).cx.xfer = s.cx.xfer := rfl
@[simp] theorem wx_cx_btime (s : State) (lat : Nat) (r : BitVec 5) (d : Dbl) : (s.wx lat r d).cx.btime = s.cx.btime := rfl
@[simp] theorem wx_cx_stoch (s : State) (lat : Nat) (r : BitVec 5) (d : Dbl) : (s.wx lat r d).cx.stoch = s.cx.stoch := rfl
@[simp] theorem wx_cx_trap (s : State) (lat : Nat) (r : BitVec 5) (d : Dbl) : (s.wx lat r d).cx.trap = s.cx.trap := rfl
@[simp] theorem wx_cx_sscratch (s : State) (lat : Nat) (r : BitVec 5) (d : Dbl) : (s.wx lat r d).cx.sscratch = s.cx.sscratch := rfl
@[simp] theorem wx_cx_acc (s : State) (lat : Nat) (r : BitVec 5) (d : Dbl) : (s.wx lat r d).cx.acc = s.cx.acc := rfl
@[simp] theorem wx_cx_latchA (s : State) (lat : Nat) (r : BitVec 5) (d : Dbl) : (s.wx lat r d).cx.latchA = s.cx.latchA := rfl
@[simp] theorem wx_cx_latchB (s : State) (lat : Nat) (r : BitVec 5) (d : Dbl) : (s.wx lat r d).cx.latchB = s.cx.latchB := rfl
@[simp] theorem wx_cx_mat (s : State) (lat : Nat) (r : BitVec 5) (d : Dbl) : (s.wx lat r d).cx.mat = s.cx.mat := rfl
@[simp] theorem wx_cx_passes (s : State) (lat : Nat) (r : BitVec 5) (d : Dbl) : (s.wx lat r d).cx.passes = s.cx.passes := rfl
@[simp] theorem wx_cx_flights (s : State) (lat : Nat) (r : BitVec 5) (d : Dbl) : (s.wx lat r d).cx.flights = s.cx.flights := rfl
@[simp] theorem wx_cx_deferred (s : State) (lat : Nat) (r : BitVec 5) (d : Dbl) : (s.wx lat r d).cx.deferred = s.cx.deferred := rfl
@[simp] theorem wx_cx_unreported (s : State) (lat : Nat) (r : BitVec 5) (d : Dbl) : (s.wx lat r d).cx.unreported = s.cx.unreported := rfl
@[simp] theorem wx_cx_opens (s : State) (lat : Nat) (r : BitVec 5) (d : Dbl) : (s.wx lat r d).cx.opens = s.cx.opens := rfl
@[simp] theorem wx_cx_barriers (s : State) (lat : Nat) (r : BitVec 5) (d : Dbl) : (s.wx lat r d).cx.barriers = s.cx.barriers := rfl
@[simp] theorem wx_cx_nap (s : State) (lat : Nat) (r : BitVec 5) (d : Dbl) : (s.wx lat r d).cx.nap = s.cx.nap := rfl
@[simp] theorem wx_cx_parked (s : State) (lat : Nat) (r : BitVec 5) (d : Dbl) : (s.wx lat r d).cx.parked = s.cx.parked := rfl
@[simp] theorem wx_cx_parkedAs (s : State) (lat : Nat) (r : BitVec 5) (d : Dbl) : (s.wx lat r d).cx.parkedAs = s.cx.parkedAs := rfl
@[simp] theorem wx_cx_push (s : State) (lat : Nat) (r : BitVec 5) (d : Dbl) : (s.wx lat r d).cx.push = s.cx.push := rfl
@[simp] theorem wx_cx_opening (s : State) (lat : Nat) (r : BitVec 5) (d : Dbl) : (s.wx lat r d).cx.opening = s.cx.opening := rfl
@[simp] theorem wx_cx_served (s : State) (lat : Nat) (r : BitVec 5) (d : Dbl) : (s.wx lat r d).cx.served = s.cx.served := rfl
@[simp] theorem wx_cx_timedOut (s : State) (lat : Nat) (r : BitVec 5) (d : Dbl) : (s.wx lat r d).cx.timedOut = s.cx.timedOut := rfl
@[simp] theorem wx_cx_fault (s : State) (lat : Nat) (r : BitVec 5) (d : Dbl) : (s.wx lat r d).cx.fault = s.cx.fault := rfl
@[simp] theorem wx_cx_ending (s : State) (lat : Nat) (r : BitVec 5) (d : Dbl) : (s.wx lat r d).cx.ending = s.cx.ending := rfl
@[simp] theorem wx_cx_entryTrap (s : State) (lat : Nat) (r : BitVec 5) (d : Dbl) : (s.wx lat r d).cx.entryTrap = s.cx.entryTrap := rfl
@[simp] theorem wx_cx_atVector (s : State) (lat : Nat) (r : BitVec 5) (d : Dbl) : (s.wx lat r d).cx.atVector = s.cx.atVector := rfl
@[simp] theorem wx_cx_draining (s : State) (lat : Nat) (r : BitVec 5) (d : Dbl) : (s.wx lat r d).cx.draining = s.cx.draining := rfl
@[simp] theorem wx_cx_waitSince (s : State) (lat : Nat) (r : BitVec 5) (d : Dbl) : (s.wx lat r d).cx.waitSince = s.cx.waitSince := rfl
@[simp] theorem wx_cx_waited (s : State) (lat : Nat) (r : BitVec 5) (d : Dbl) : (s.wx lat r d).cx.waited = s.cx.waited := rfl
@[simp] theorem wx_cx_tstvs (s : State) (lat : Nat) (r : BitVec 5) (d : Dbl) : (s.wx lat r d).cx.tstvs = s.cx.tstvs := rfl
@[simp] theorem wx_cx_dbg (s : State) (lat : Nat) (r : BitVec 5) (d : Dbl) : (s.wx lat r d).cx.dbg = s.cx.dbg := rfl
@[simp] theorem wx_cx_late (s : State) (lat : Nat) (r : BitVec 5) (d : Dbl) : (s.wx lat r d).cx.late = s.cx.late := rfl
@[simp] theorem wq_cx_occ (s : State) (lat : Nat) (r : BitVec 3) (d : Bool) : (s.wq lat r d).cx.occ = s.cx.occ := rfl
@[simp] theorem wq_cx_id (s : State) (lat : Nat) (r : BitVec 3) (d : Bool) : (s.wq lat r d).cx.id = s.cx.id := rfl
@[simp] theorem wq_cx_x (s : State) (lat : Nat) (r : BitVec 3) (d : Bool) : (s.wq lat r d).cx.x = s.cx.x := rfl
@[simp] theorem wq_cx_q (s : State) (lat : Nat) (r : BitVec 3) (d : Bool) : (s.wq lat r d).cx.q = s.cx.q := rfl
@[simp] theorem wq_cx_b (s : State) (lat : Nat) (r : BitVec 3) (d : Bool) : (s.wq lat r d).cx.b = s.cx.b := rfl
@[simp] theorem wq_cx_vrot (s : State) (lat : Nat) (r : BitVec 3) (d : Bool) : (s.wq lat r d).cx.vrot = s.cx.vrot := rfl
@[simp] theorem wq_cx_krot (s : State) (lat : Nat) (r : BitVec 3) (d : Bool) : (s.wq lat r d).cx.krot = s.cx.krot := rfl
@[simp] theorem wq_cx_mode (s : State) (lat : Nat) (r : BitVec 3) (d : Bool) : (s.wq lat r d).cx.mode = s.cx.mode := rfl
@[simp] theorem wq_cx_v (s : State) (lat : Nat) (r : BitVec 3) (d : Bool) : (s.wq lat r d).cx.v = s.cx.v := rfl
@[simp] theorem wq_cx_k (s : State) (lat : Nat) (r : BitVec 3) (d : Bool) : (s.wq lat r d).cx.k = s.cx.k := rfl
@[simp] theorem wq_cx_w (s : State) (lat : Nat) (r : BitVec 3) (d : Bool) : (s.wq lat r d).cx.w = s.cx.w := rfl
@[simp] theorem wq_cx_pc (s : State) (lat : Nat) (r : BitVec 3) (d : Bool) : (s.wq lat r d).cx.pc = s.cx.pc := rfl
@[simp] theorem wq_cx_xfer (s : State) (lat : Nat) (r : BitVec 3) (d : Bool) : (s.wq lat r d).cx.xfer = s.cx.xfer := rfl
@[simp] theorem wq_cx_btime (s : State) (lat : Nat) (r : BitVec 3) (d : Bool) : (s.wq lat r d).cx.btime = s.cx.btime := rfl
@[simp] theorem wq_cx_stoch (s : State) (lat : Nat) (r : BitVec 3) (d : Bool) : (s.wq lat r d).cx.stoch = s.cx.stoch := rfl
@[simp] theorem wq_cx_trap (s : State) (lat : Nat) (r : BitVec 3) (d : Bool) : (s.wq lat r d).cx.trap = s.cx.trap := rfl
@[simp] theorem wq_cx_sscratch (s : State) (lat : Nat) (r : BitVec 3) (d : Bool) : (s.wq lat r d).cx.sscratch = s.cx.sscratch := rfl
@[simp] theorem wq_cx_acc (s : State) (lat : Nat) (r : BitVec 3) (d : Bool) : (s.wq lat r d).cx.acc = s.cx.acc := rfl
@[simp] theorem wq_cx_latchA (s : State) (lat : Nat) (r : BitVec 3) (d : Bool) : (s.wq lat r d).cx.latchA = s.cx.latchA := rfl
@[simp] theorem wq_cx_latchB (s : State) (lat : Nat) (r : BitVec 3) (d : Bool) : (s.wq lat r d).cx.latchB = s.cx.latchB := rfl
@[simp] theorem wq_cx_mat (s : State) (lat : Nat) (r : BitVec 3) (d : Bool) : (s.wq lat r d).cx.mat = s.cx.mat := rfl
@[simp] theorem wq_cx_passes (s : State) (lat : Nat) (r : BitVec 3) (d : Bool) : (s.wq lat r d).cx.passes = s.cx.passes := rfl
@[simp] theorem wq_cx_flights (s : State) (lat : Nat) (r : BitVec 3) (d : Bool) : (s.wq lat r d).cx.flights = s.cx.flights := rfl
@[simp] theorem wq_cx_deferred (s : State) (lat : Nat) (r : BitVec 3) (d : Bool) : (s.wq lat r d).cx.deferred = s.cx.deferred := rfl
@[simp] theorem wq_cx_unreported (s : State) (lat : Nat) (r : BitVec 3) (d : Bool) : (s.wq lat r d).cx.unreported = s.cx.unreported := rfl
@[simp] theorem wq_cx_opens (s : State) (lat : Nat) (r : BitVec 3) (d : Bool) : (s.wq lat r d).cx.opens = s.cx.opens := rfl
@[simp] theorem wq_cx_barriers (s : State) (lat : Nat) (r : BitVec 3) (d : Bool) : (s.wq lat r d).cx.barriers = s.cx.barriers := rfl
@[simp] theorem wq_cx_nap (s : State) (lat : Nat) (r : BitVec 3) (d : Bool) : (s.wq lat r d).cx.nap = s.cx.nap := rfl
@[simp] theorem wq_cx_parked (s : State) (lat : Nat) (r : BitVec 3) (d : Bool) : (s.wq lat r d).cx.parked = s.cx.parked := rfl
@[simp] theorem wq_cx_parkedAs (s : State) (lat : Nat) (r : BitVec 3) (d : Bool) : (s.wq lat r d).cx.parkedAs = s.cx.parkedAs := rfl
@[simp] theorem wq_cx_push (s : State) (lat : Nat) (r : BitVec 3) (d : Bool) : (s.wq lat r d).cx.push = s.cx.push := rfl
@[simp] theorem wq_cx_opening (s : State) (lat : Nat) (r : BitVec 3) (d : Bool) : (s.wq lat r d).cx.opening = s.cx.opening := rfl
@[simp] theorem wq_cx_served (s : State) (lat : Nat) (r : BitVec 3) (d : Bool) : (s.wq lat r d).cx.served = s.cx.served := rfl
@[simp] theorem wq_cx_timedOut (s : State) (lat : Nat) (r : BitVec 3) (d : Bool) : (s.wq lat r d).cx.timedOut = s.cx.timedOut := rfl
@[simp] theorem wq_cx_fault (s : State) (lat : Nat) (r : BitVec 3) (d : Bool) : (s.wq lat r d).cx.fault = s.cx.fault := rfl
@[simp] theorem wq_cx_ending (s : State) (lat : Nat) (r : BitVec 3) (d : Bool) : (s.wq lat r d).cx.ending = s.cx.ending := rfl
@[simp] theorem wq_cx_entryTrap (s : State) (lat : Nat) (r : BitVec 3) (d : Bool) : (s.wq lat r d).cx.entryTrap = s.cx.entryTrap := rfl
@[simp] theorem wq_cx_atVector (s : State) (lat : Nat) (r : BitVec 3) (d : Bool) : (s.wq lat r d).cx.atVector = s.cx.atVector := rfl
@[simp] theorem wq_cx_draining (s : State) (lat : Nat) (r : BitVec 3) (d : Bool) : (s.wq lat r d).cx.draining = s.cx.draining := rfl
@[simp] theorem wq_cx_waitSince (s : State) (lat : Nat) (r : BitVec 3) (d : Bool) : (s.wq lat r d).cx.waitSince = s.cx.waitSince := rfl
@[simp] theorem wq_cx_waited (s : State) (lat : Nat) (r : BitVec 3) (d : Bool) : (s.wq lat r d).cx.waited = s.cx.waited := rfl
@[simp] theorem wq_cx_tstvs (s : State) (lat : Nat) (r : BitVec 3) (d : Bool) : (s.wq lat r d).cx.tstvs = s.cx.tstvs := rfl
@[simp] theorem wq_cx_dbg (s : State) (lat : Nat) (r : BitVec 3) (d : Bool) : (s.wq lat r d).cx.dbg = s.cx.dbg := rfl
@[simp] theorem wq_cx_late (s : State) (lat : Nat) (r : BitVec 3) (d : Bool) : (s.wq lat r d).cx.late = s.cx.late := rfl
@[simp] theorem wv_cx_occ (s : State) (lat : Nat) (n : BitVec 6) (m : BitVec 64) (d : VReg) : (s.wv lat n m d).cx.occ = s.cx.occ := rfl
@[simp] theorem wv_cx_id (s : State) (lat : Nat) (n : BitVec 6) (m : BitVec 64) (d : VReg) : (s.wv lat n m d).cx.id = s.cx.id := rfl
@[simp] theorem wv_cx_x (s : State) (lat : Nat) (n : BitVec 6) (m : BitVec 64) (d : VReg) : (s.wv lat n m d).cx.x = s.cx.x := rfl
@[simp] theorem wv_cx_q (s : State) (lat : Nat) (n : BitVec 6) (m : BitVec 64) (d : VReg) : (s.wv lat n m d).cx.q = s.cx.q := rfl
@[simp] theorem wv_cx_b (s : State) (lat : Nat) (n : BitVec 6) (m : BitVec 64) (d : VReg) : (s.wv lat n m d).cx.b = s.cx.b := rfl
@[simp] theorem wv_cx_vrot (s : State) (lat : Nat) (n : BitVec 6) (m : BitVec 64) (d : VReg) : (s.wv lat n m d).cx.vrot = s.cx.vrot := rfl
@[simp] theorem wv_cx_krot (s : State) (lat : Nat) (n : BitVec 6) (m : BitVec 64) (d : VReg) : (s.wv lat n m d).cx.krot = s.cx.krot := rfl
@[simp] theorem wv_cx_mode (s : State) (lat : Nat) (n : BitVec 6) (m : BitVec 64) (d : VReg) : (s.wv lat n m d).cx.mode = s.cx.mode := rfl
@[simp] theorem wv_cx_v (s : State) (lat : Nat) (n : BitVec 6) (m : BitVec 64) (d : VReg) : (s.wv lat n m d).cx.v = s.cx.v := rfl
@[simp] theorem wv_cx_k (s : State) (lat : Nat) (n : BitVec 6) (m : BitVec 64) (d : VReg) : (s.wv lat n m d).cx.k = s.cx.k := rfl
@[simp] theorem wv_cx_w (s : State) (lat : Nat) (n : BitVec 6) (m : BitVec 64) (d : VReg) : (s.wv lat n m d).cx.w = s.cx.w := rfl
@[simp] theorem wv_cx_pc (s : State) (lat : Nat) (n : BitVec 6) (m : BitVec 64) (d : VReg) : (s.wv lat n m d).cx.pc = s.cx.pc := rfl
@[simp] theorem wv_cx_xfer (s : State) (lat : Nat) (n : BitVec 6) (m : BitVec 64) (d : VReg) : (s.wv lat n m d).cx.xfer = s.cx.xfer := rfl
@[simp] theorem wv_cx_btime (s : State) (lat : Nat) (n : BitVec 6) (m : BitVec 64) (d : VReg) : (s.wv lat n m d).cx.btime = s.cx.btime := rfl
@[simp] theorem wv_cx_stoch (s : State) (lat : Nat) (n : BitVec 6) (m : BitVec 64) (d : VReg) : (s.wv lat n m d).cx.stoch = s.cx.stoch := rfl
@[simp] theorem wv_cx_trap (s : State) (lat : Nat) (n : BitVec 6) (m : BitVec 64) (d : VReg) : (s.wv lat n m d).cx.trap = s.cx.trap := rfl
@[simp] theorem wv_cx_sscratch (s : State) (lat : Nat) (n : BitVec 6) (m : BitVec 64) (d : VReg) : (s.wv lat n m d).cx.sscratch = s.cx.sscratch := rfl
@[simp] theorem wv_cx_acc (s : State) (lat : Nat) (n : BitVec 6) (m : BitVec 64) (d : VReg) : (s.wv lat n m d).cx.acc = s.cx.acc := rfl
@[simp] theorem wv_cx_latchA (s : State) (lat : Nat) (n : BitVec 6) (m : BitVec 64) (d : VReg) : (s.wv lat n m d).cx.latchA = s.cx.latchA := rfl
@[simp] theorem wv_cx_latchB (s : State) (lat : Nat) (n : BitVec 6) (m : BitVec 64) (d : VReg) : (s.wv lat n m d).cx.latchB = s.cx.latchB := rfl
@[simp] theorem wv_cx_mat (s : State) (lat : Nat) (n : BitVec 6) (m : BitVec 64) (d : VReg) : (s.wv lat n m d).cx.mat = s.cx.mat := rfl
@[simp] theorem wv_cx_passes (s : State) (lat : Nat) (n : BitVec 6) (m : BitVec 64) (d : VReg) : (s.wv lat n m d).cx.passes = s.cx.passes := rfl
@[simp] theorem wv_cx_flights (s : State) (lat : Nat) (n : BitVec 6) (m : BitVec 64) (d : VReg) : (s.wv lat n m d).cx.flights = s.cx.flights := rfl
@[simp] theorem wv_cx_deferred (s : State) (lat : Nat) (n : BitVec 6) (m : BitVec 64) (d : VReg) : (s.wv lat n m d).cx.deferred = s.cx.deferred := rfl
@[simp] theorem wv_cx_unreported (s : State) (lat : Nat) (n : BitVec 6) (m : BitVec 64) (d : VReg) : (s.wv lat n m d).cx.unreported = s.cx.unreported := rfl
@[simp] theorem wv_cx_opens (s : State) (lat : Nat) (n : BitVec 6) (m : BitVec 64) (d : VReg) : (s.wv lat n m d).cx.opens = s.cx.opens := rfl
@[simp] theorem wv_cx_barriers (s : State) (lat : Nat) (n : BitVec 6) (m : BitVec 64) (d : VReg) : (s.wv lat n m d).cx.barriers = s.cx.barriers := rfl
@[simp] theorem wv_cx_nap (s : State) (lat : Nat) (n : BitVec 6) (m : BitVec 64) (d : VReg) : (s.wv lat n m d).cx.nap = s.cx.nap := rfl
@[simp] theorem wv_cx_parked (s : State) (lat : Nat) (n : BitVec 6) (m : BitVec 64) (d : VReg) : (s.wv lat n m d).cx.parked = s.cx.parked := rfl
@[simp] theorem wv_cx_parkedAs (s : State) (lat : Nat) (n : BitVec 6) (m : BitVec 64) (d : VReg) : (s.wv lat n m d).cx.parkedAs = s.cx.parkedAs := rfl
@[simp] theorem wv_cx_push (s : State) (lat : Nat) (n : BitVec 6) (m : BitVec 64) (d : VReg) : (s.wv lat n m d).cx.push = s.cx.push := rfl
@[simp] theorem wv_cx_opening (s : State) (lat : Nat) (n : BitVec 6) (m : BitVec 64) (d : VReg) : (s.wv lat n m d).cx.opening = s.cx.opening := rfl
@[simp] theorem wv_cx_served (s : State) (lat : Nat) (n : BitVec 6) (m : BitVec 64) (d : VReg) : (s.wv lat n m d).cx.served = s.cx.served := rfl
@[simp] theorem wv_cx_timedOut (s : State) (lat : Nat) (n : BitVec 6) (m : BitVec 64) (d : VReg) : (s.wv lat n m d).cx.timedOut = s.cx.timedOut := rfl
@[simp] theorem wv_cx_fault (s : State) (lat : Nat) (n : BitVec 6) (m : BitVec 64) (d : VReg) : (s.wv lat n m d).cx.fault = s.cx.fault := rfl
@[simp] theorem wv_cx_ending (s : State) (lat : Nat) (n : BitVec 6) (m : BitVec 64) (d : VReg) : (s.wv lat n m d).cx.ending = s.cx.ending := rfl
@[simp] theorem wv_cx_entryTrap (s : State) (lat : Nat) (n : BitVec 6) (m : BitVec 64) (d : VReg) : (s.wv lat n m d).cx.entryTrap = s.cx.entryTrap := rfl
@[simp] theorem wv_cx_atVector (s : State) (lat : Nat) (n : BitVec 6) (m : BitVec 64) (d : VReg) : (s.wv lat n m d).cx.atVector = s.cx.atVector := rfl
@[simp] theorem wv_cx_draining (s : State) (lat : Nat) (n : BitVec 6) (m : BitVec 64) (d : VReg) : (s.wv lat n m d).cx.draining = s.cx.draining := rfl
@[simp] theorem wv_cx_waitSince (s : State) (lat : Nat) (n : BitVec 6) (m : BitVec 64) (d : VReg) : (s.wv lat n m d).cx.waitSince = s.cx.waitSince := rfl
@[simp] theorem wv_cx_waited (s : State) (lat : Nat) (n : BitVec 6) (m : BitVec 64) (d : VReg) : (s.wv lat n m d).cx.waited = s.cx.waited := rfl
@[simp] theorem wv_cx_tstvs (s : State) (lat : Nat) (n : BitVec 6) (m : BitVec 64) (d : VReg) : (s.wv lat n m d).cx.tstvs = s.cx.tstvs := rfl
@[simp] theorem wv_cx_dbg (s : State) (lat : Nat) (n : BitVec 6) (m : BitVec 64) (d : VReg) : (s.wv lat n m d).cx.dbg = s.cx.dbg := rfl
@[simp] theorem wv_cx_late (s : State) (lat : Nat) (n : BitVec 6) (m : BitVec 64) (d : VReg) : (s.wv lat n m d).cx.late = s.cx.late := rfl
@[simp] theorem wvShared_cx_occ (s : State) (lat : Nat) (n : BitVec 6) (m : BitVec 64) (d : VReg) : (s.wvShared lat n m d).cx.occ = s.cx.occ := rfl
@[simp] theorem wvShared_cx_id (s : State) (lat : Nat) (n : BitVec 6) (m : BitVec 64) (d : VReg) : (s.wvShared lat n m d).cx.id = s.cx.id := rfl
@[simp] theorem wvShared_cx_x (s : State) (lat : Nat) (n : BitVec 6) (m : BitVec 64) (d : VReg) : (s.wvShared lat n m d).cx.x = s.cx.x := rfl
@[simp] theorem wvShared_cx_q (s : State) (lat : Nat) (n : BitVec 6) (m : BitVec 64) (d : VReg) : (s.wvShared lat n m d).cx.q = s.cx.q := rfl
@[simp] theorem wvShared_cx_b (s : State) (lat : Nat) (n : BitVec 6) (m : BitVec 64) (d : VReg) : (s.wvShared lat n m d).cx.b = s.cx.b := rfl
@[simp] theorem wvShared_cx_vrot (s : State) (lat : Nat) (n : BitVec 6) (m : BitVec 64) (d : VReg) : (s.wvShared lat n m d).cx.vrot = s.cx.vrot := rfl
@[simp] theorem wvShared_cx_krot (s : State) (lat : Nat) (n : BitVec 6) (m : BitVec 64) (d : VReg) : (s.wvShared lat n m d).cx.krot = s.cx.krot := rfl
@[simp] theorem wvShared_cx_mode (s : State) (lat : Nat) (n : BitVec 6) (m : BitVec 64) (d : VReg) : (s.wvShared lat n m d).cx.mode = s.cx.mode := rfl
@[simp] theorem wvShared_cx_v (s : State) (lat : Nat) (n : BitVec 6) (m : BitVec 64) (d : VReg) : (s.wvShared lat n m d).cx.v = s.cx.v := rfl
@[simp] theorem wvShared_cx_k (s : State) (lat : Nat) (n : BitVec 6) (m : BitVec 64) (d : VReg) : (s.wvShared lat n m d).cx.k = s.cx.k := rfl
@[simp] theorem wvShared_cx_w (s : State) (lat : Nat) (n : BitVec 6) (m : BitVec 64) (d : VReg) : (s.wvShared lat n m d).cx.w = s.cx.w := rfl
@[simp] theorem wvShared_cx_pc (s : State) (lat : Nat) (n : BitVec 6) (m : BitVec 64) (d : VReg) : (s.wvShared lat n m d).cx.pc = s.cx.pc := rfl
@[simp] theorem wvShared_cx_xfer (s : State) (lat : Nat) (n : BitVec 6) (m : BitVec 64) (d : VReg) : (s.wvShared lat n m d).cx.xfer = s.cx.xfer := rfl
@[simp] theorem wvShared_cx_btime (s : State) (lat : Nat) (n : BitVec 6) (m : BitVec 64) (d : VReg) : (s.wvShared lat n m d).cx.btime = s.cx.btime := rfl
@[simp] theorem wvShared_cx_stoch (s : State) (lat : Nat) (n : BitVec 6) (m : BitVec 64) (d : VReg) : (s.wvShared lat n m d).cx.stoch = s.cx.stoch := rfl
@[simp] theorem wvShared_cx_trap (s : State) (lat : Nat) (n : BitVec 6) (m : BitVec 64) (d : VReg) : (s.wvShared lat n m d).cx.trap = s.cx.trap := rfl
@[simp] theorem wvShared_cx_sscratch (s : State) (lat : Nat) (n : BitVec 6) (m : BitVec 64) (d : VReg) : (s.wvShared lat n m d).cx.sscratch = s.cx.sscratch := rfl
@[simp] theorem wvShared_cx_acc (s : State) (lat : Nat) (n : BitVec 6) (m : BitVec 64) (d : VReg) : (s.wvShared lat n m d).cx.acc = s.cx.acc := rfl
@[simp] theorem wvShared_cx_latchA (s : State) (lat : Nat) (n : BitVec 6) (m : BitVec 64) (d : VReg) : (s.wvShared lat n m d).cx.latchA = s.cx.latchA := rfl
@[simp] theorem wvShared_cx_latchB (s : State) (lat : Nat) (n : BitVec 6) (m : BitVec 64) (d : VReg) : (s.wvShared lat n m d).cx.latchB = s.cx.latchB := rfl
@[simp] theorem wvShared_cx_mat (s : State) (lat : Nat) (n : BitVec 6) (m : BitVec 64) (d : VReg) : (s.wvShared lat n m d).cx.mat = s.cx.mat := rfl
@[simp] theorem wvShared_cx_passes (s : State) (lat : Nat) (n : BitVec 6) (m : BitVec 64) (d : VReg) : (s.wvShared lat n m d).cx.passes = s.cx.passes := rfl
@[simp] theorem wvShared_cx_flights (s : State) (lat : Nat) (n : BitVec 6) (m : BitVec 64) (d : VReg) : (s.wvShared lat n m d).cx.flights = s.cx.flights := rfl
@[simp] theorem wvShared_cx_deferred (s : State) (lat : Nat) (n : BitVec 6) (m : BitVec 64) (d : VReg) : (s.wvShared lat n m d).cx.deferred = s.cx.deferred := rfl
@[simp] theorem wvShared_cx_unreported (s : State) (lat : Nat) (n : BitVec 6) (m : BitVec 64) (d : VReg) : (s.wvShared lat n m d).cx.unreported = s.cx.unreported := rfl
@[simp] theorem wvShared_cx_opens (s : State) (lat : Nat) (n : BitVec 6) (m : BitVec 64) (d : VReg) : (s.wvShared lat n m d).cx.opens = s.cx.opens := rfl
@[simp] theorem wvShared_cx_barriers (s : State) (lat : Nat) (n : BitVec 6) (m : BitVec 64) (d : VReg) : (s.wvShared lat n m d).cx.barriers = s.cx.barriers := rfl
@[simp] theorem wvShared_cx_nap (s : State) (lat : Nat) (n : BitVec 6) (m : BitVec 64) (d : VReg) : (s.wvShared lat n m d).cx.nap = s.cx.nap := rfl
@[simp] theorem wvShared_cx_parked (s : State) (lat : Nat) (n : BitVec 6) (m : BitVec 64) (d : VReg) : (s.wvShared lat n m d).cx.parked = s.cx.parked := rfl
@[simp] theorem wvShared_cx_parkedAs (s : State) (lat : Nat) (n : BitVec 6) (m : BitVec 64) (d : VReg) : (s.wvShared lat n m d).cx.parkedAs = s.cx.parkedAs := rfl
@[simp] theorem wvShared_cx_push (s : State) (lat : Nat) (n : BitVec 6) (m : BitVec 64) (d : VReg) : (s.wvShared lat n m d).cx.push = s.cx.push := rfl
@[simp] theorem wvShared_cx_opening (s : State) (lat : Nat) (n : BitVec 6) (m : BitVec 64) (d : VReg) : (s.wvShared lat n m d).cx.opening = s.cx.opening := rfl
@[simp] theorem wvShared_cx_served (s : State) (lat : Nat) (n : BitVec 6) (m : BitVec 64) (d : VReg) : (s.wvShared lat n m d).cx.served = s.cx.served := rfl
@[simp] theorem wvShared_cx_timedOut (s : State) (lat : Nat) (n : BitVec 6) (m : BitVec 64) (d : VReg) : (s.wvShared lat n m d).cx.timedOut = s.cx.timedOut := rfl
@[simp] theorem wvShared_cx_fault (s : State) (lat : Nat) (n : BitVec 6) (m : BitVec 64) (d : VReg) : (s.wvShared lat n m d).cx.fault = s.cx.fault := rfl
@[simp] theorem wvShared_cx_ending (s : State) (lat : Nat) (n : BitVec 6) (m : BitVec 64) (d : VReg) : (s.wvShared lat n m d).cx.ending = s.cx.ending := rfl
@[simp] theorem wvShared_cx_entryTrap (s : State) (lat : Nat) (n : BitVec 6) (m : BitVec 64) (d : VReg) : (s.wvShared lat n m d).cx.entryTrap = s.cx.entryTrap := rfl
@[simp] theorem wvShared_cx_atVector (s : State) (lat : Nat) (n : BitVec 6) (m : BitVec 64) (d : VReg) : (s.wvShared lat n m d).cx.atVector = s.cx.atVector := rfl
@[simp] theorem wvShared_cx_draining (s : State) (lat : Nat) (n : BitVec 6) (m : BitVec 64) (d : VReg) : (s.wvShared lat n m d).cx.draining = s.cx.draining := rfl
@[simp] theorem wvShared_cx_waitSince (s : State) (lat : Nat) (n : BitVec 6) (m : BitVec 64) (d : VReg) : (s.wvShared lat n m d).cx.waitSince = s.cx.waitSince := rfl
@[simp] theorem wvShared_cx_waited (s : State) (lat : Nat) (n : BitVec 6) (m : BitVec 64) (d : VReg) : (s.wvShared lat n m d).cx.waited = s.cx.waited := rfl
@[simp] theorem wvShared_cx_tstvs (s : State) (lat : Nat) (n : BitVec 6) (m : BitVec 64) (d : VReg) : (s.wvShared lat n m d).cx.tstvs = s.cx.tstvs := rfl
@[simp] theorem wvShared_cx_dbg (s : State) (lat : Nat) (n : BitVec 6) (m : BitVec 64) (d : VReg) : (s.wvShared lat n m d).cx.dbg = s.cx.dbg := rfl
@[simp] theorem wvShared_cx_late (s : State) (lat : Nat) (n : BitVec 6) (m : BitVec 64) (d : VReg) : (s.wvShared lat n m d).cx.late = s.cx.late := rfl
@[simp] theorem wk_cx_occ (s : State) (lat : Nat) (n : BitVec 4) (d : BitVec 64) : (s.wk lat n d).cx.occ = s.cx.occ := rfl
@[simp] theorem wk_cx_id (s : State) (lat : Nat) (n : BitVec 4) (d : BitVec 64) : (s.wk lat n d).cx.id = s.cx.id := rfl
@[simp] theorem wk_cx_x (s : State) (lat : Nat) (n : BitVec 4) (d : BitVec 64) : (s.wk lat n d).cx.x = s.cx.x := rfl
@[simp] theorem wk_cx_q (s : State) (lat : Nat) (n : BitVec 4) (d : BitVec 64) : (s.wk lat n d).cx.q = s.cx.q := rfl
@[simp] theorem wk_cx_b (s : State) (lat : Nat) (n : BitVec 4) (d : BitVec 64) : (s.wk lat n d).cx.b = s.cx.b := rfl
@[simp] theorem wk_cx_vrot (s : State) (lat : Nat) (n : BitVec 4) (d : BitVec 64) : (s.wk lat n d).cx.vrot = s.cx.vrot := rfl
@[simp] theorem wk_cx_krot (s : State) (lat : Nat) (n : BitVec 4) (d : BitVec 64) : (s.wk lat n d).cx.krot = s.cx.krot := rfl
@[simp] theorem wk_cx_mode (s : State) (lat : Nat) (n : BitVec 4) (d : BitVec 64) : (s.wk lat n d).cx.mode = s.cx.mode := rfl
@[simp] theorem wk_cx_v (s : State) (lat : Nat) (n : BitVec 4) (d : BitVec 64) : (s.wk lat n d).cx.v = s.cx.v := rfl
@[simp] theorem wk_cx_k (s : State) (lat : Nat) (n : BitVec 4) (d : BitVec 64) : (s.wk lat n d).cx.k = s.cx.k := rfl
@[simp] theorem wk_cx_w (s : State) (lat : Nat) (n : BitVec 4) (d : BitVec 64) : (s.wk lat n d).cx.w = s.cx.w := rfl
@[simp] theorem wk_cx_pc (s : State) (lat : Nat) (n : BitVec 4) (d : BitVec 64) : (s.wk lat n d).cx.pc = s.cx.pc := rfl
@[simp] theorem wk_cx_xfer (s : State) (lat : Nat) (n : BitVec 4) (d : BitVec 64) : (s.wk lat n d).cx.xfer = s.cx.xfer := rfl
@[simp] theorem wk_cx_btime (s : State) (lat : Nat) (n : BitVec 4) (d : BitVec 64) : (s.wk lat n d).cx.btime = s.cx.btime := rfl
@[simp] theorem wk_cx_stoch (s : State) (lat : Nat) (n : BitVec 4) (d : BitVec 64) : (s.wk lat n d).cx.stoch = s.cx.stoch := rfl
@[simp] theorem wk_cx_trap (s : State) (lat : Nat) (n : BitVec 4) (d : BitVec 64) : (s.wk lat n d).cx.trap = s.cx.trap := rfl
@[simp] theorem wk_cx_sscratch (s : State) (lat : Nat) (n : BitVec 4) (d : BitVec 64) : (s.wk lat n d).cx.sscratch = s.cx.sscratch := rfl
@[simp] theorem wk_cx_acc (s : State) (lat : Nat) (n : BitVec 4) (d : BitVec 64) : (s.wk lat n d).cx.acc = s.cx.acc := rfl
@[simp] theorem wk_cx_latchA (s : State) (lat : Nat) (n : BitVec 4) (d : BitVec 64) : (s.wk lat n d).cx.latchA = s.cx.latchA := rfl
@[simp] theorem wk_cx_latchB (s : State) (lat : Nat) (n : BitVec 4) (d : BitVec 64) : (s.wk lat n d).cx.latchB = s.cx.latchB := rfl
@[simp] theorem wk_cx_mat (s : State) (lat : Nat) (n : BitVec 4) (d : BitVec 64) : (s.wk lat n d).cx.mat = s.cx.mat := rfl
@[simp] theorem wk_cx_passes (s : State) (lat : Nat) (n : BitVec 4) (d : BitVec 64) : (s.wk lat n d).cx.passes = s.cx.passes := rfl
@[simp] theorem wk_cx_flights (s : State) (lat : Nat) (n : BitVec 4) (d : BitVec 64) : (s.wk lat n d).cx.flights = s.cx.flights := rfl
@[simp] theorem wk_cx_deferred (s : State) (lat : Nat) (n : BitVec 4) (d : BitVec 64) : (s.wk lat n d).cx.deferred = s.cx.deferred := rfl
@[simp] theorem wk_cx_unreported (s : State) (lat : Nat) (n : BitVec 4) (d : BitVec 64) : (s.wk lat n d).cx.unreported = s.cx.unreported := rfl
@[simp] theorem wk_cx_opens (s : State) (lat : Nat) (n : BitVec 4) (d : BitVec 64) : (s.wk lat n d).cx.opens = s.cx.opens := rfl
@[simp] theorem wk_cx_barriers (s : State) (lat : Nat) (n : BitVec 4) (d : BitVec 64) : (s.wk lat n d).cx.barriers = s.cx.barriers := rfl
@[simp] theorem wk_cx_nap (s : State) (lat : Nat) (n : BitVec 4) (d : BitVec 64) : (s.wk lat n d).cx.nap = s.cx.nap := rfl
@[simp] theorem wk_cx_parked (s : State) (lat : Nat) (n : BitVec 4) (d : BitVec 64) : (s.wk lat n d).cx.parked = s.cx.parked := rfl
@[simp] theorem wk_cx_parkedAs (s : State) (lat : Nat) (n : BitVec 4) (d : BitVec 64) : (s.wk lat n d).cx.parkedAs = s.cx.parkedAs := rfl
@[simp] theorem wk_cx_push (s : State) (lat : Nat) (n : BitVec 4) (d : BitVec 64) : (s.wk lat n d).cx.push = s.cx.push := rfl
@[simp] theorem wk_cx_opening (s : State) (lat : Nat) (n : BitVec 4) (d : BitVec 64) : (s.wk lat n d).cx.opening = s.cx.opening := rfl
@[simp] theorem wk_cx_served (s : State) (lat : Nat) (n : BitVec 4) (d : BitVec 64) : (s.wk lat n d).cx.served = s.cx.served := rfl
@[simp] theorem wk_cx_timedOut (s : State) (lat : Nat) (n : BitVec 4) (d : BitVec 64) : (s.wk lat n d).cx.timedOut = s.cx.timedOut := rfl
@[simp] theorem wk_cx_fault (s : State) (lat : Nat) (n : BitVec 4) (d : BitVec 64) : (s.wk lat n d).cx.fault = s.cx.fault := rfl
@[simp] theorem wk_cx_ending (s : State) (lat : Nat) (n : BitVec 4) (d : BitVec 64) : (s.wk lat n d).cx.ending = s.cx.ending := rfl
@[simp] theorem wk_cx_entryTrap (s : State) (lat : Nat) (n : BitVec 4) (d : BitVec 64) : (s.wk lat n d).cx.entryTrap = s.cx.entryTrap := rfl
@[simp] theorem wk_cx_atVector (s : State) (lat : Nat) (n : BitVec 4) (d : BitVec 64) : (s.wk lat n d).cx.atVector = s.cx.atVector := rfl
@[simp] theorem wk_cx_draining (s : State) (lat : Nat) (n : BitVec 4) (d : BitVec 64) : (s.wk lat n d).cx.draining = s.cx.draining := rfl
@[simp] theorem wk_cx_waitSince (s : State) (lat : Nat) (n : BitVec 4) (d : BitVec 64) : (s.wk lat n d).cx.waitSince = s.cx.waitSince := rfl
@[simp] theorem wk_cx_waited (s : State) (lat : Nat) (n : BitVec 4) (d : BitVec 64) : (s.wk lat n d).cx.waited = s.cx.waited := rfl
@[simp] theorem wk_cx_tstvs (s : State) (lat : Nat) (n : BitVec 4) (d : BitVec 64) : (s.wk lat n d).cx.tstvs = s.cx.tstvs := rfl
@[simp] theorem wk_cx_dbg (s : State) (lat : Nat) (n : BitVec 4) (d : BitVec 64) : (s.wk lat n d).cx.dbg = s.cx.dbg := rfl
@[simp] theorem wk_cx_late (s : State) (lat : Nat) (n : BitVec 4) (d : BitVec 64) : (s.wk lat n d).cx.late = s.cx.late := rfl

/-! What was stored is given back. -/

@[simp] theorem core_setCore (s : State) (n : Nat) (c : Core) : (s.setCore n c).core n = c := tget_tset_same ..
theorem core_setCore_other (s : State) {n m : Nat} (h : n ≠ m) (c : Core) : (s.setCore n c).core m = s.core m := tget_tset_other _ h ..
@[simp] theorem cluster_setCluster (s : State) (n : Nat) (c : Cluster) : (s.setCluster n c).cluster n = c := tget_tset_same ..
theorem cluster_setCluster_other (s : State) {n m : Nat} (h : n ≠ m) (c : Cluster) : (s.setCluster n c).cluster m = s.cluster m := tget_tset_other _ h ..
@[simp] theorem die_setDie (s : State) (n : Nat) (d : Die) : (s.setDie n d).die n = d := tget_tset_same ..
theorem die_setDie_other (s : State) {n m : Nat} (h : n ≠ m) (d : Die) : (s.setDie n d).die m = s.die m := tget_tset_other _ h ..
@[simp] theorem queue_setQueue (s : State) (n : Nat) (q : CmdQueue) : (s.setQueue n q).queue n = q := tget_tset_same ..
theorem queue_setQueue_other (s : State) {n m : Nat} (h : n ≠ m) (q : CmdQueue) : (s.setQueue n q).queue m = s.queue m := tget_tset_other _ h ..
@[simp] theorem gqueue_setGqueue (s : State) (n : Nat) (q : GuestQueue) : (s.setGqueue n q).gqueue n = q := tget_tset_same ..
theorem gqueue_setGqueue_other (s : State) {n m : Nat} (h : n ≠ m) (q : GuestQueue) : (s.setGqueue n q).gqueue m = s.gqueue m := tget_tset_other _ h ..
@[simp] theorem peer_setPeer (s : State) (n : Nat) (p : Peer) : (s.setPeer n p).peer n = p := tget_tset_same ..
theorem peer_setPeer_other (s : State) {n m : Nat} (h : n ≠ m) (p : Peer) : (s.setPeer n p).peer m = s.peer m := tget_tset_other _ h ..
@[simp] theorem chan_setChan (s : State) (n : Nat) (c : ChanCount) : (s.setChan n c).chan n = c := tget_tset_same ..
theorem chan_setChan_other (s : State) {n m : Nat} (h : n ≠ m) (c : ChanCount) : (s.setChan n c).chan m = s.chan m := tget_tset_other _ h ..

/-- Every field of the state but the context's own homes is as before when a context is stored. -/
@[simp] theorem setCtx_here (s : State) (c : Nat) (x : Context) : (s.setCtx c x).here = s.here := by unfold setCtx; split <;> rfl
@[simp] theorem setCtx_issue (s : State) (c : Nat) (x : Context) : (s.setCtx c x).issue = s.issue := by unfold setCtx; split <;> rfl
@[simp] theorem setCtx_cores (s : State) (c : Nat) (x : Context) : (s.setCtx c x).cores = s.cores := by unfold setCtx; split <;> rfl
@[simp] theorem setCtx_clusters (s : State) (c : Nat) (x : Context) : (s.setCtx c x).clusters = s.clusters := by unfold setCtx; split <;> rfl
@[simp] theorem setCtx_dies (s : State) (c : Nat) (x : Context) : (s.setCtx c x).dies = s.dies := by unfold setCtx; split <;> rfl
@[simp] theorem setCtx_homes (s : State) (c : Nat) (x : Context) : (s.setCtx c x).homes = s.homes := by unfold setCtx; split <;> rfl
@[simp] theorem setCtx_mem (s : State) (c : Nat) (x : Context) : (s.setCtx c x).mem = s.mem := by unfold setCtx; split <;> rfl
@[simp] theorem setCtx_silt (s : State) (c : Nat) (x : Context) : (s.setCtx c x).silt = s.silt := by unfold setCtx; split <;> rfl
@[simp] theorem setCtx_dev (s : State) (c : Nat) (x : Context) : (s.setCtx c x).dev = s.dev := by unfold setCtx; split <;> rfl
@[simp] theorem setCtx_queues (s : State) (c : Nat) (x : Context) : (s.setCtx c x).queues = s.queues := by unfold setCtx; split <;> rfl
@[simp] theorem setCtx_sec (s : State) (c : Nat) (x : Context) : (s.setCtx c x).sec = s.sec := by unfold setCtx; split <;> rfl
@[simp] theorem setCtx_ports (s : State) (c : Nat) (x : Context) : (s.setCtx c x).ports = s.ports := by unfold setCtx; split <;> rfl
@[simp] theorem setCtx_waits (s : State) (c : Nat) (x : Context) : (s.setCtx c x).waits = s.waits := by unfold setCtx; split <;> rfl
@[simp] theorem setCtx_svc (s : State) (c : Nat) (x : Context) : (s.setCtx c x).svc = s.svc := by unfold setCtx; split <;> rfl
@[simp] theorem setCtx_moor (s : State) (c : Nat) (x : Context) : (s.setCtx c x).moor = s.moor := by unfold setCtx; split <;> rfl
@[simp] theorem setCtx_fab (s : State) (c : Nat) (x : Context) : (s.setCtx c x).fab = s.fab := by unfold setCtx; split <;> rfl
@[simp] theorem setCtx_cycle (s : State) (c : Nat) (x : Context) : (s.setCtx c x).cycle = s.cycle := by unfold setCtx; split <;> rfl
@[simp] theorem setCtx_booted (s : State) (c : Nat) (x : Context) : (s.setCtx c x).booted = s.booted := by unfold setCtx; split <;> rfl
@[simp] theorem setCtx_inputs (s : State) (c : Nat) (x : Context) : (s.setCtx c x).inputs = s.inputs := by unfold setCtx; split <;> rfl
@[simp] theorem setCtx_agenda (s : State) (c : Nat) (x : Context) : (s.setCtx c x).agenda = s.agenda := by unfold setCtx; split <;> rfl
@[simp] theorem setCtx_turn (s : State) (c : Nat) (x : Context) : (s.setCtx c x).turn = s.turn := by unfold setCtx; split <;> rfl
@[simp] theorem setCtx_tick (s : State) (c : Nat) (x : Context) : (s.setCtx c x).tick = s.tick := by unfold setCtx; split <;> rfl
/-- A stored context is given back, and every other context is as before. -/
@[simp] theorem ctx_setCtx (s : State) (c : Nat) (x : Context) : (s.setCtx c x).ctx c = x := by
  unfold setCtx ctx
  by_cases h : (c == s.here) = true
  · simp [h]
  · simp [h]
theorem ctx_setCtx_other (s : State) {c d : Nat} (h : c ≠ d) (x : Context) : (s.setCtx c x).ctx d = s.ctx d := by
  unfold setCtx ctx
  by_cases hc : (c == s.here) = true
  · have : ¬ (d == s.here) = true := by
      simp only [beq_iff_eq] at hc ⊢
      omega
    simp [hc, this]
  · by_cases hd : (d == s.here) = true
    · simp [hc, hd]
    · simp [hc, hd, tget_tset_other _ h]
/-- Taking a free value or a number only advances the counter. -/
@[simp] theorem free_here (s : State) : s.free.2.here = s.here := rfl
@[simp] theorem free_cx (s : State) : s.free.2.cx = s.cx := rfl
@[simp] theorem free_issue (s : State) : s.free.2.issue = s.issue := rfl
@[simp] theorem free_others (s : State) : s.free.2.others = s.others := rfl
@[simp] theorem free_cores (s : State) : s.free.2.cores = s.cores := rfl
@[simp] theorem free_clusters (s : State) : s.free.2.clusters = s.clusters := rfl
@[simp] theorem free_dies (s : State) : s.free.2.dies = s.dies := rfl
@[simp] theorem free_homes (s : State) : s.free.2.homes = s.homes := rfl
@[simp] theorem free_mem (s : State) : s.free.2.mem = s.mem := rfl
@[simp] theorem free_silt (s : State) : s.free.2.silt = s.silt := rfl
@[simp] theorem free_dev (s : State) : s.free.2.dev = s.dev := rfl
@[simp] theorem free_queues (s : State) : s.free.2.queues = s.queues := rfl
@[simp] theorem free_sec (s : State) : s.free.2.sec = s.sec := rfl
@[simp] theorem free_ports (s : State) : s.free.2.ports = s.ports := rfl
@[simp] theorem free_waits (s : State) : s.free.2.waits = s.waits := rfl
@[simp] theorem free_svc (s : State) : s.free.2.svc = s.svc := rfl
@[simp] theorem free_moor (s : State) : s.free.2.moor = s.moor := rfl
@[simp] theorem free_fab (s : State) : s.free.2.fab = s.fab := rfl
@[simp] theorem free_cycle (s : State) : s.free.2.cycle = s.cycle := rfl
@[simp] theorem free_booted (s : State) : s.free.2.booted = s.booted := rfl
@[simp] theorem free_inputs (s : State) : s.free.2.inputs = s.inputs := rfl
@[simp] theorem free_agenda (s : State) : s.free.2.agenda = s.agenda := rfl
@[simp] theorem free_turn (s : State) : s.free.2.turn = s.turn := rfl
@[simp] theorem free_tick (s : State) : s.free.2.tick = s.tick + 1 := rfl
@[simp] theorem newId_here (s : State) : s.newId.2.here = s.here := rfl
@[simp] theorem newId_cx (s : State) : s.newId.2.cx = s.cx := rfl
@[simp] theorem newId_issue (s : State) : s.newId.2.issue = s.issue := rfl
@[simp] theorem newId_others (s : State) : s.newId.2.others = s.others := rfl
@[simp] theorem newId_cores (s : State) : s.newId.2.cores = s.cores := rfl
@[simp] theorem newId_clusters (s : State) : s.newId.2.clusters = s.clusters := rfl
@[simp] theorem newId_dies (s : State) : s.newId.2.dies = s.dies := rfl
@[simp] theorem newId_homes (s : State) : s.newId.2.homes = s.homes := rfl
@[simp] theorem newId_mem (s : State) : s.newId.2.mem = s.mem := rfl
@[simp] theorem newId_silt (s : State) : s.newId.2.silt = s.silt := rfl
@[simp] theorem newId_dev (s : State) : s.newId.2.dev = s.dev := rfl
@[simp] theorem newId_queues (s : State) : s.newId.2.queues = s.queues := rfl
@[simp] theorem newId_sec (s : State) : s.newId.2.sec = s.sec := rfl
@[simp] theorem newId_ports (s : State) : s.newId.2.ports = s.ports := rfl
@[simp] theorem newId_waits (s : State) : s.newId.2.waits = s.waits := rfl
@[simp] theorem newId_svc (s : State) : s.newId.2.svc = s.svc := rfl
@[simp] theorem newId_moor (s : State) : s.newId.2.moor = s.moor := rfl
@[simp] theorem newId_fab (s : State) : s.newId.2.fab = s.fab := rfl
@[simp] theorem newId_cycle (s : State) : s.newId.2.cycle = s.cycle := rfl
@[simp] theorem newId_booted (s : State) : s.newId.2.booted = s.booted := rfl
@[simp] theorem newId_inputs (s : State) : s.newId.2.inputs = s.inputs := rfl
@[simp] theorem newId_agenda (s : State) : s.newId.2.agenda = s.agenda := rfl
@[simp] theorem newId_turn (s : State) : s.newId.2.turn = s.turn := rfl
@[simp] theorem newId_tick (s : State) : s.newId.2.tick = s.tick + 1 := rfl

end State

end Sys2Proof.Machine
end

