-- ==== Sys2Proof/Laws/Ops.lean ====
section
/-! SUPPORT. What the shared operations can do, one lemma an operation: performing a word, landing results, taking a trap,
passing a bundle; and that the operations on lines, memory, the log, the fabric and translation leave every context alone and
keep memory canonical. -/

namespace Sys2Proof.Machine

/-! Landing results. -/

/-- From c to d only registers and the list of results on their way have changed: not the mode, the pc, the pending transfer,
bundle time, an accumulator, a pass, an operation in flight nor anything the context waits for. -/
structure Landed (c d : Context) : Prop where
  occ : d.occ = c.occ
  id : d.id = c.id
  mode : d.mode = c.mode
  pc : d.pc = c.pc
  xfer : d.xfer = c.xfer
  btime : d.btime = c.btime
  acc : d.acc = c.acc
  latchB : d.latchB = c.latchB
  passes : d.passes = c.passes
  flights : d.flights = c.flights
  deferred : d.deferred = c.deferred
  unreported : d.unreported = c.unreported
  opens : d.opens = c.opens
  barriers : d.barriers = c.barriers
  nap : d.nap = c.nap
  parked : d.parked = c.parked
  parkedAs : d.parkedAs = c.parkedAs
  push : d.push = c.push
  opening : d.opening = c.opening
  served : d.served = c.served
  timedOut : d.timedOut = c.timedOut
  fault : d.fault = c.fault
  ending : d.ending = c.ending
  entryTrap : d.entryTrap = c.entryTrap
  atVector : d.atVector = c.atVector
  draining : d.draining = c.draining
  waitSince : d.waitSince = c.waitSince
  waited : d.waited = c.waited
  tstvs : d.tstvs = c.tstvs
  dbg : d.dbg = c.dbg
  late : d.late = c.late
theorem Landed.refl (c : Context) : Landed c c :=
  ⟨rfl, rfl, rfl, rfl, rfl, rfl, rfl, rfl, rfl, rfl, rfl, rfl, rfl, rfl, rfl, rfl, rfl, rfl, rfl, rfl, rfl, rfl, rfl, rfl, rfl, rfl, rfl, rfl, rfl, rfl, rfl⟩
theorem Landed.trans {c d e : Context} (a : Landed c d) (b : Landed d e) : Landed c e :=
  ⟨b.occ.trans a.occ, b.id.trans a.id, b.mode.trans a.mode, b.pc.trans a.pc, b.xfer.trans a.xfer,
    b.btime.trans a.btime, b.acc.trans a.acc, b.latchB.trans a.latchB, b.passes.trans a.passes, b.flights.trans a.flights,
    b.deferred.trans a.deferred, b.unreported.trans a.unreported, b.opens.trans a.opens, b.barriers.trans a.barriers, b.nap.trans a.nap,
    b.parked.trans a.parked, b.parkedAs.trans a.parkedAs, b.push.trans a.push, b.opening.trans a.opening, b.served.trans a.served, b.timedOut.trans a.timedOut,
    b.fault.trans a.fault, b.ending.trans a.ending, b.entryTrap.trans a.entryTrap, b.atVector.trans a.atVector, b.draining.trans a.draining,
    b.waitSince.trans a.waitSince, b.waited.trans a.waited, b.tstvs.trans a.tstvs, b.dbg.trans a.dbg,
    b.late.trans a.late⟩
/-- A landing write. -/
theorem landed_land (c : Context) (w : Write) : Landed c (c.land w) := by
  have R : ∀ (x : Vector (BitVec 64) 32) (q : BitVec 8) (b : Vector (BitVec 56) 8) (vrot : BitVec 5) (krot : BitVec 3)
      (v : Vector (BitVec 2048) 64) (k : Vector (BitVec 64) 16) (w : Vector (BitVec 512) 16) (stoch : Dbl) (trap : TrapRegs)
      (ss : Vector (BitVec 64) 4) (la : Latch) (mat : MatStat),
      Landed c { c with x := x, q := q, b := b, vrot := vrot, krot := krot, v := v, k := k, w := w, stoch := stoch, trap := trap,
                        sscratch := ss, latchA := la, mat := mat } := fun _ _ _ _ _ _ _ _ _ _ _ _ _ =>
    ⟨rfl, rfl, rfl, rfl, rfl, rfl, rfl, rfl, rfl, rfl, rfl, rfl, rfl, rfl, rfl, rfl, rfl, rfl, rfl, rfl, rfl, rfl, rfl, rfl, rfl, rfl, rfl, rfl, rfl, rfl, rfl⟩
  cases w with
  | x r d =>
    show Landed c (if r == 0 then c else _)
    split
    · exact .refl c
    · exact R _ c.q c.b c.vrot c.krot c.v c.k c.w c.stoch c.trap c.sscratch c.latchA c.mat
  | q r d =>
    show Landed c (if r == 0 then c else _)
    split
    · exact .refl c
    · exact R c.x _ c.b c.vrot c.krot c.v c.k c.w c.stoch c.trap c.sscratch c.latchA c.mat
  | b r d => exact R c.x c.q _ c.vrot c.krot c.v c.k c.w c.stoch c.trap c.sscratch c.latchA c.mat
  | v r m d =>
    show Landed c (if m == BitVec.allOnes 64 then _ else _)
    split
    · exact R c.x c.q c.b c.vrot c.krot _ c.k c.w c.stoch c.trap c.sscratch c.latchA c.mat
    · exact R c.x c.q c.b c.vrot c.krot _ c.k c.w c.stoch c.trap c.sscratch c.latchA c.mat
  | k r d =>
    show Landed c (if r == 0 then c else _)
    split
    · exact .refl c
    · exact R c.x c.q c.b c.vrot c.krot c.v _ c.w c.stoch c.trap c.sscratch c.latchA c.mat
  | w r d => exact R c.x c.q c.b c.vrot c.krot c.v c.k _ c.stoch c.trap c.sscratch c.latchA c.mat
  | rot v k => exact R c.x c.q c.b _ _ c.v c.k c.w c.stoch c.trap c.sscratch c.latchA c.mat
  | latchA l => exact R c.x c.q c.b c.vrot c.krot c.v c.k c.w c.stoch c.trap c.sscratch _ c.mat
  | mopx => exact R c.x c.q c.b c.vrot c.krot c.v c.k c.w c.stoch c.trap c.sscratch c.latchA _
  | sr n d =>
    show Landed c (c.putSr n d)
    unfold Context.putSr
    split
    · exact R c.x c.q c.b c.vrot c.krot c.v c.k c.w _ c.trap c.sscratch c.latchA c.mat
    · exact R c.x c.q c.b _ _ c.v c.k c.w c.stoch c.trap c.sscratch c.latchA c.mat
    · split
      · exact R c.x c.q c.b c.vrot c.krot c.v c.k c.w c.stoch c.trap c.sscratch c.latchA _
      · exact .refl c
    · exact R c.x c.q c.b c.vrot c.krot c.v c.k c.w c.stoch _ c.sscratch c.latchA c.mat
    · exact R c.x c.q c.b c.vrot c.krot c.v c.k c.w c.stoch _ c.sscratch c.latchA c.mat
    · exact R c.x c.q c.b c.vrot c.krot c.v c.k c.w c.stoch _ c.sscratch c.latchA c.mat
    · exact R c.x c.q c.b c.vrot c.krot c.v c.k c.w c.stoch _ c.sscratch c.latchA c.mat
    · exact R c.x c.q c.b c.vrot c.krot c.v c.k c.w c.stoch _ c.sscratch c.latchA c.mat
    · exact R c.x c.q c.b c.vrot c.krot c.v c.k c.w c.stoch _ c.sscratch c.latchA c.mat
    · exact R c.x c.q c.b c.vrot c.krot c.v c.k c.w c.stoch _ c.sscratch c.latchA c.mat
    · exact R c.x c.q c.b c.vrot c.krot c.v c.k c.w c.stoch c.trap _ c.latchA c.mat
    · exact R c.x c.q c.b c.vrot c.krot c.v c.k c.w c.stoch c.trap _ c.latchA c.mat
    · exact R c.x c.q c.b c.vrot c.krot c.v c.k c.w c.stoch c.trap _ c.latchA c.mat
    · exact R c.x c.q c.b c.vrot c.krot c.v c.k c.w c.stoch c.trap _ c.latchA c.mat
    · exact .refl c
/-- What lands at a bundle time. -/
theorem landed_landDue (t : Nat) : ∀ (l : List Pending) (b : Bool) (c : Context), Landed c (landDue t b l c).1
  | [], _, c => .refl c
  | p :: r, b, c => by
    unfold landDue
    split
    · exact (landed_land c p.write).trans (landed_landDue t r _ _)
    · exact landed_landDue t r b c
theorem landed_pending (c : Context) (l : List Pending) : Landed c { c with pending := l } :=
  ⟨rfl, rfl, rfl, rfl, rfl, rfl, rfl, rfl, rfl, rfl, rfl, rfl, rfl, rfl, rfl, rfl, rfl, rfl, rfl, rfl, rfl, rfl, rfl, rfl, rfl, rfl, rfl, rfl, rfl, rfl, rfl⟩
theorem landed_landAt (c : Context) (t : Nat) : Landed c (c.landAt t) :=
  ((landed_pending c []).trans (landed_landDue t c.pending false _)).trans (landed_pending _ _)
theorem landed_drainFrom : ∀ (n t : Nat) (c : Context), Landed c (drainFrom t n c)
  | 0, _, c => .refl c
  | n + 1, t, c => by
    unfold drainFrom
    split
    · exact .refl c
    · exact (landed_landAt c t).trans (landed_drainFrom n (t + 1) _)
/-- A drain lands results and does nothing else (R333). -/
theorem landed_drain (c : Context) : Landed c c.drain :=
  (landed_drainFrom _ _ c).trans
    ⟨rfl, rfl, rfl, rfl, rfl, rfl, rfl, rfl, rfl, rfl, rfl, rfl, rfl, rfl, rfl, rfl, rfl, rfl, rfl, rfl, rfl, rfl, rfl, rfl, rfl, rfl, rfl, rfl, rfl, rfl, rfl⟩

/-- With no result and no gathered rows on their way a drain changes nothing. -/
theorem drain_of_pending_nil (c : Context) (h : c.pending = []) (hg : c.mat.mgathAt = none) : c.drain = c := by
  have e : ∀ n t, drainFrom t n c = c := by
    intro n t
    cases n with
    | zero => rfl
    | succ n => simp [drainFrom, h]
  unfold Context.drain
  simp only [e, ← hg]

namespace State

/-! Performing a word. -/

/-- A word whose predicate holds has its effect (R82). -/
theorem perform_true (s : State) (p : Pred) (f : State → State) (h : s.holds p = true) : s.perform p f = .next (f s) := by
  simp [perform, h]
/-- A word whose predicate does not hold is inert (R82). -/
theorem perform_false (s : State) (p : Pred) (f : State → State) (h : s.holds p = false) : s.perform p f = .next s := by
  simp [perform, h]
/-- A performed word answers a next state: that of its effect, or the state as it was. -/
theorem perform_next {s t : State} {p : Pred} {f : State → State} (h : s.perform p f = .next t) :
    (s.holds p = true ∧ t = f s) ∨ (s.holds p = false ∧ t = s) := by
  unfold perform at h
  injection h with h
  cases hp : s.holds p with
  | true => exact .inl ⟨rfl, by rw [hp] at h; exact h.symm⟩
  | false => exact .inr ⟨rfl, by rw [hp] at h; exact h.symm⟩

/-! Taking a trap (R331). -/

/-- The log entry of a halt touches no context. -/
theorem ite_logHalt (b : Bool) (s : State) : (if b = true then s.logHalt else s).cx = s.cx ∧
    (if b = true then s.logHalt else s).issue = s.issue ∧ (if b = true then s.logHalt else s).here = s.here := by
  cases b with
  | false => exact ⟨rfl, rfl, rfl⟩
  | true =>
    show s.logHalt.cx = s.cx ∧ s.logHalt.issue = s.issue ∧ s.logHalt.here = s.here
    exact ⟨rfl, rfl, rfl⟩
/-- Whether a space's entry can be read at once is noted among the waits, and nowhere else. -/
theorem entryReady_shape (s : State) (sp : BitVec 6) : ∃ w, s.entryReady sp = { s with waits := w } := by
  unfold entryReady lineReady waitFor
  split
  · split
    · exact ⟨_, rfl⟩
    · split
      · exact ⟨_, rfl⟩
      · exact ⟨s.waits, rfl⟩
  · exact ⟨s.waits, rfl⟩
/-- A trap is taken at the vector, in supervisor mode. -/
theorem takeTrap_mode (s : State) (f : FaultInfo) : (s.takeTrap f).cx.mode = .supervisor := by
  exact congrArg (fun c : Context => c.mode) (ite_logHalt _ _).1
theorem takeTrap_pc (s : State) (f : FaultInfo) : (s.takeTrap f).cx.pc = s.trapTarget := by
  obtain ⟨w, h⟩ := s.entryReady_shape s.cx.id.space
  refine (congrArg (fun c : Context => c.pc) (ite_logHalt _ _).1).trans ?_
  rw [h]
  rfl
/-- The trap registers hold the cause and the detail, and TPC the bundle that trapped. -/
theorem takeTrap_tcause (s : State) (f : FaultInfo) : (s.takeTrap f).cx.trap.tcause = f.cause.setWidth 64 := by
  exact congrArg (fun c : Context => c.trap.tcause) (ite_logHalt _ _).1
theorem takeTrap_tinfo0 (s : State) (f : FaultInfo) : (s.takeTrap f).cx.trap.tinfo0 = f.i0 := by
  exact congrArg (fun c : Context => c.trap.tinfo0) (ite_logHalt _ _).1
theorem takeTrap_tinfo1 (s : State) (f : FaultInfo) : (s.takeTrap f).cx.trap.tinfo1 = f.i1 := by
  exact congrArg (fun c : Context => c.trap.tinfo1) (ite_logHalt _ _).1
theorem takeTrap_tinfo2 (s : State) (f : FaultInfo) : (s.takeTrap f).cx.trap.tinfo2 = f.i2 := by
  exact congrArg (fun c : Context => c.trap.tinfo2) (ite_logHalt _ _).1
theorem takeTrap_tinfo3 (s : State) (f : FaultInfo) : (s.takeTrap f).cx.trap.tinfo3 = f.i3 := by
  exact congrArg (fun c : Context => c.trap.tinfo3) (ite_logHalt _ _).1
theorem takeTrap_tpc (s : State) (f : FaultInfo) : (s.takeTrap f).cx.trap.tpc = s.issue.pc.setWidth 64 := by
  obtain ⟨w, h⟩ := s.entryReady_shape s.cx.id.space
  refine (congrArg (fun c : Context => c.trap.tpc) (ite_logHalt _ _).1).trans ?_
  rw [h]
theorem takeTrap_xfer (s : State) (f : FaultInfo) : (s.takeTrap f).cx.xfer = none := by
  exact congrArg (fun c : Context => c.xfer) (ite_logHalt _ _).1
theorem takeTrap_verdict (s : State) (f : FaultInfo) : (s.takeTrap f).issue.verdict = .trap :=
  congrArg (fun i : Issue => i.verdict) (ite_logHalt _ _).2.1
theorem takeTrap_here (s : State) (f : FaultInfo) : (s.takeTrap f).here = s.here := by
  obtain ⟨w, h⟩ := s.entryReady_shape s.cx.id.space
  refine (ite_logHalt _ _).2.2.trans ?_
  show (s.entryReady s.cx.id.space).here = s.here
  rw [h]

/-! Passing a bundle. -/

/-- Passing a bundle changes the context and the bundle's record only. -/
theorem retire_shape (s : State) : ∃ x i, s.retire = { s with cx := x, issue := i } := ⟨_, _, rfl⟩
theorem leaveTo_shape (s : State) (pc : BitVec 56) (x : Option Xfer) :
    ∃ y i, s.leaveTo pc x = { s with cx := y, issue := i } := ⟨_, _, rfl⟩

/-! Operations of the engines that leave every context alone. -/

/-- From s to t nothing of a context, of the bundle in issue, of time and of the inputs has changed, no tile slot and no task
entry of a cluster, and memory is canonical if it was. -/
structure Engine (s t : State) : Prop where
  here : t.here = s.here
  cx : t.cx = s.cx
  issue : t.issue = s.issue
  others : t.others = s.others
  cycle : t.cycle = s.cycle
  inputs : t.inputs = s.inputs
  turn : t.turn = s.turn
  booted : t.booted = s.booted
  tiles : ∀ n, (t.cluster n).loam = (s.cluster n).loam ∧ (t.cluster n).entries = (s.cluster n).entries
  wf : Memory.wf s.mem = true → Memory.wf t.mem = true

theorem Engine.refl (s : State) : Engine s s := ⟨rfl, rfl, rfl, rfl, rfl, rfl, rfl, rfl, fun _ => ⟨rfl, rfl⟩, id⟩
theorem Engine.trans {s t u : State} (a : Engine s t) (b : Engine t u) : Engine s u :=
  ⟨b.here.trans a.here, b.cx.trans a.cx, b.issue.trans a.issue, b.others.trans a.others, b.cycle.trans a.cycle,
    b.inputs.trans a.inputs, b.turn.trans a.turn, b.booted.trans a.booted,
    fun n => ⟨(b.tiles n).1.trans (a.tiles n).1, (b.tiles n).2.trans (a.tiles n).2⟩, fun h => b.wf (a.wf h)⟩
/-- A fold of such operations is one. -/
theorem Engine.fold {α : Type} (f : State → α → State) (h : ∀ s a, Engine s (f s a)) : ∀ (l : List α) (s : State),
    Engine s (l.foldl f s)
  | [], s => .refl s
  | a :: r, s => (h s a).trans (Engine.fold f h r (f s a))

theorem engine_setCore (s : State) (n : Nat) (c : Core) : Engine s (s.setCore n c) := ⟨rfl, rfl, rfl, rfl, rfl, rfl, rfl, rfl, fun _ => ⟨rfl, rfl⟩, id⟩
theorem engine_setCluster (s : State) (n : Nat) (c : Cluster) (hl : c.loam = (s.cluster n).loam)
    (he : c.entries = (s.cluster n).entries) : Engine s (s.setCluster n c) := by
  refine ⟨rfl, rfl, rfl, rfl, rfl, rfl, rfl, rfl, fun m => ?_, id⟩
  by_cases h : n = m
  · subst h
    rw [cluster_setCluster]
    exact ⟨hl, he⟩
  · rw [cluster_setCluster_other _ h]
    exact ⟨rfl, rfl⟩
theorem engine_setDie (s : State) (n : Nat) (d : Die) : Engine s (s.setDie n d) := ⟨rfl, rfl, rfl, rfl, rfl, rfl, rfl, rfl, fun _ => ⟨rfl, rfl⟩, id⟩
theorem engine_setPeer (s : State) (n : Nat) (p : Peer) : Engine s (s.setPeer n p) := ⟨rfl, rfl, rfl, rfl, rfl, rfl, rfl, rfl, fun _ => ⟨rfl, rfl⟩, id⟩
theorem engine_setChan (s : State) (n : Nat) (c : ChanCount) : Engine s (s.setChan n c) :=
  ⟨rfl, rfl, rfl, rfl, rfl, rfl, rfl, rfl, fun _ => ⟨rfl, rfl⟩, id⟩
theorem engine_setDir (s : State) (l : Nat) (cs : List Nat) : Engine s (s.setDir l cs) :=
  ⟨rfl, rfl, rfl, rfl, rfl, rfl, rfl, rfl, fun _ => ⟨rfl, rfl⟩, id⟩
theorem engine_setGrant (s : State) (p : Nat) (g : Grant) : Engine s (s.setGrant p g) :=
  ⟨rfl, rfl, rfl, rfl, rfl, rfl, rfl, rfl, fun _ => ⟨rfl, rfl⟩, id⟩
theorem engine_later (s : State) (d : Nat) (i : Instr) : Engine s (s.later d i) := ⟨rfl, rfl, rfl, rfl, rfl, rfl, rfl, rfl, fun _ => ⟨rfl, rfl⟩, id⟩
theorem engine_free (s : State) : Engine s s.free.2 := ⟨rfl, rfl, rfl, rfl, rfl, rfl, rfl, rfl, fun _ => ⟨rfl, rfl⟩, id⟩
theorem engine_newId (s : State) : Engine s s.newId.2 := ⟨rfl, rfl, rfl, rfl, rfl, rfl, rfl, rfl, fun _ => ⟨rfl, rfl⟩, id⟩
theorem engine_putLine (s : State) (c : Nat) (ln : Line) : Engine s (s.putLine c ln) := engine_setCore _ _ _
theorem engine_dropLine (s : State) (c l : Nat) : Engine s (s.dropLine c l) := engine_setCore _ _ _

theorem engine_writeMem (s : State) (n a v : Nat) : Engine s { s with mem := cellsWrite s.mem a n v } :=
  ⟨rfl, rfl, rfl, rfl, rfl, rfl, rfl, rfl, fun _ => ⟨rfl, rfl⟩, Memory.wf_cellsWrite n a v s.mem⟩
theorem engine_maskMem (s : State) (n a k v : Nat) : Engine s { s with mem := cellsMask s.mem a n k v } :=
  ⟨rfl, rfl, rfl, rfl, rfl, rfl, rfl, rfl, fun _ => ⟨rfl, rfl⟩, Memory.wf_cellsMask n a k v s.mem⟩
theorem engine_maskMemHomes (s : State) (n a k v : Nat) (h : Homes) :
    Engine s { s with mem := cellsMask s.mem a n k v, homes := h } :=
  ⟨rfl, rfl, rfl, rfl, rfl, rfl, rfl, rfl, fun _ => ⟨rfl, rfl⟩, Memory.wf_cellsMask n a k v s.mem⟩
theorem engine_homes (s : State) (h : Homes) : Engine s { s with homes := h } := ⟨rfl, rfl, rfl, rfl, rfl, rfl, rfl, rfl, fun _ => ⟨rfl, rfl⟩, id⟩
theorem engine_dev (s : State) (d : DevRegs) : Engine s { s with dev := d } := ⟨rfl, rfl, rfl, rfl, rfl, rfl, rfl, rfl, fun _ => ⟨rfl, rfl⟩, id⟩
theorem engine_fab (s : State) (f : Fabric) : Engine s { s with fab := f } := ⟨rfl, rfl, rfl, rfl, rfl, rfl, rfl, rfl, fun _ => ⟨rfl, rfl⟩, id⟩

/-- An event presented to the fault log (R352, R353). -/
theorem engine_log (s : State) (die kind index : Nat) (sp : BitVec 6) (cause : BitVec 8) (d0 d1 : Dbl) (n : BitVec 32) :
    Engine s (s.log die kind index sp cause d0 d1 n) := engine_setDie _ _ _
theorem engine_logCtx (s : State) (c : Nat) (cause : BitVec 8) (d0 d1 : Dbl) : Engine s (s.logCtx c cause d0 d1) :=
  engine_log _ _ _ _ _ _ _ _ _
theorem engine_logFab (s : State) (dev : BitVec 8) (sp : BitVec 6) (cause : BitVec 8) (d0 d1 : Dbl) (n : BitVec 32) :
    Engine s (s.logFab dev sp cause d0 d1 n) := engine_log _ _ _ _ _ _ _ _ _
theorem engine_wakeTokens (s : State) (l : Nat) : Engine s (s.wakeTokens l) :=
  Engine.fold _ (fun s (t : TokenWait) => engine_later s 0 (.tokenReexamine t.gpa)) _ s
theorem engine_meetWatches (s : State) (read : Watch → Option Nat) : Engine s (s.meetWatches read) := by
  unfold meetWatches
  exact Engine.fold _ (fun s a => (engine_setDie _ _ _).trans (engine_later _ _ _)) _ s
theorem engine_afterHomeWrite (s : State) (l : Nat) (m : BitVec 128) : Engine s (s.afterHomeWrite l m) := by
  unfold afterHomeWrite
  exact (engine_meetWatches s _).trans ⟨rfl, rfl, rfl, rfl, rfl, rfl, rfl, rfl, fun _ => ⟨rfl, rfl⟩, id⟩
theorem engine_unpoison (s : State) (l : Nat) (whole : Bool) : Engine s (s.unpoison l whole) := by
  unfold unpoison
  split
  · exact engine_homes _ _
  · exact .refl s
theorem engine_storeCipher (s : State) (l : Nat) (c : BitVec 1024) (tag : BitVec 64) (whole : Bool) :
    Engine s (s.storeCipher l c tag whole) := by
  unfold storeCipher
  refine Engine.trans ?_ (engine_wakeTokens _ _)
  refine Engine.trans ?_ (engine_afterHomeWrite _ _ _)
  exact Engine.trans (engine_maskMemHomes s 128 _ _ _ _) (engine_unpoison _ _ _)
/-- A write at its home keeps memory canonical and touches no context. -/
theorem engine_homeWrite {s t : State} {sp : BitVec 6} {key : BitVec 8} {l : Nat} {m : BitVec 128} {d : BitVec 1024}
    (h : s.homeWrite sp key l m d = .ok t) : Engine s t := by
  unfold homeWrite at h
  dsimp only at h
  split at h
  · cases h
  · split at h
    · injection h with h
      subst h
      refine Engine.trans ?_ ((engine_afterHomeWrite _ l m).trans (engine_wakeTokens _ l))
      exact Engine.trans (engine_maskMem s 128 _ _ _) (engine_unpoison _ _ _)
    · split at h
      · cases h
      · split at h
        · cases h
        · injection h with h
          subst h
          exact engine_storeCipher _ _ _ _ _
theorem engine_poisonLine (s : State) (l : Nat) : Engine s (s.poisonLine l) := by
  unfold poisonLine
  dsimp only
  refine Engine.trans ?_ (engine_log _ _ _ _ _ _ _ _ _)
  exact (engine_setChan s _ _).trans (engine_homes _ _)

/-- What an action waits for is noted among the waits, and nowhere else. -/
theorem engine_waitFor (s : State) (w : HomeWait) : Engine s (s.waitFor w) :=
  ⟨rfl, rfl, rfl, rfl, rfl, rfl, rfl, rfl, fun _ => ⟨rfl, rfl⟩, id⟩
theorem engine_lineReady (s : State) (l : Nat) (w : Bool) (sp : BitVec 6) : Engine s (s.lineReady l w sp).1 := by
  unfold lineReady
  split
  · exact engine_waitFor _ _
  · split
    · exact engine_waitFor _ _
    · exact .refl s
theorem engine_entryReady (s : State) (sp : BitVec 6) : Engine s (s.entryReady sp) := by
  unfold entryReady
  split
  · exact engine_lineReady _ _ _ _
  · exact .refl s
theorem engine_awayLine (s : State) (sp : BitVec 6) (key : BitVec 8) (l : Nat) : Engine s (s.awayLine sp key l).1 := by
  unfold awayLine
  split
  · exact .refl s
  · dsimp only
    split
    · exact engine_waitFor _ _
    · exact engine_fab _ _
theorem engine_pick (s : State) (l : List Nat) : Engine s (s.pick l).2 := by
  unfold pick
  split
  · exact .refl s
  · exact engine_free s
theorem engine_setChannels (s : State) (dim : Bool) (t : Table Channel) : Engine s (s.setChannels dim t) := engine_fab _ _
/-- A flit put on the fabric touches no context. -/
theorem engine_emit (s : State) (f : Flit) : Engine s (s.emit f) := by
  unfold emit
  have e := engine_pick s ((s.nextHops f).map BitVec.toNat)
  revert e
  generalize s.pick ((s.nextHops f).map BitVec.toNat) = r
  obtain ⟨o, u⟩ := r
  intro e
  cases o with
  | none => exact e
  | some n =>
    refine e.trans ?_
    refine (engine_pick u (u.linkChannels ((u.peerDim (BitVec.ofNat 8 n)).getD false) (BitVec.ofNat 8 n))).trans ?_
    exact (engine_setChannels _ _ _).trans (engine_fab _ _)
/-- Sending changes the fabric and the agenda only. -/
theorem engine_firstSend (s : State) (x : Txn) : Engine s (s.firstSend x).1 := by
  unfold firstSend
  dsimp only
  split
  · exact .refl s
  · refine Engine.trans ?_ (engine_later _ _ _)
    refine Engine.trans ?_ (engine_later _ _ _)
    exact ((engine_setPeer s _ _).trans (engine_fab _ _)).trans (engine_emit _ _)
theorem engine_send (s : State) (f : Flit) (u : TxnUse) : Engine s (s.send f u).2 := by
  unfold send
  extract_lets id x queued fb t
  have e : Engine s t := engine_fab s _
  split
  · exact e.trans (engine_later _ _ _)
  · have e2 := engine_firstSend t x
    split
    · rename_i h
      rw [h] at e2
      exact e.trans e2
    · rename_i h
      rw [h] at e2
      exact (e.trans e2).trans (engine_later _ _ _)
theorem engine_sendMerge (s : State) (sp : BitVec 6) (key : BitVec 8) (l : Nat) (m : BitVec 128) (d : BitVec 1024) (u : TxnUse) :
    Engine s (s.sendMerge sp key l m d u).1 := by
  unfold sendMerge
  dsimp only
  split
  · exact .refl s
  · split
    · exact engine_send _ _ _
    · split
      · exact .refl s
      · split <;> exact engine_send _ _ _
theorem engine_mergeTo (s : State) (sp : BitVec 6) (key : BitVec 8) (l : Nat) (m : BitVec 128) (d : BitVec 1024) (u : TxnUse) :
    Engine s (s.mergeTo sp key l m d u).1 := by
  unfold mergeTo
  split
  · split
    · rename_i h
      exact engine_homeWrite h
    · exact .refl s
  · exact engine_sendMerge _ _ _ _ _ _ _
theorem engine_mergeFailed (s : State) (c : Nat) (sp : BitVec 6) (l : Nat) (e : BitVec 8) :
    Engine s (s.mergeFailed c sp l e) := by
  unfold mergeFailed
  split <;> exact engine_log _ _ _ _ _ _ _ _ _
theorem engine_mergeLineTo (s : State) (ln : Line) (u : TxnUse) : Engine s (s.mergeLineTo ln u).1 :=
  (engine_mergeTo s ln.space ln.key ln.line (outMask ln) ln.data u).trans (engine_fab _ _)
/-- Writing a line back touches no context. -/
theorem engine_mergeOut (s : State) (c : Nat) (ln : Line) : Engine s (s.mergeOut c ln) := by
  unfold mergeOut
  split
  · exact .refl s
  · have e := engine_mergeLineTo s ln (.merge c ln.space ln.line)
    split
    · rename_i h
      rw [h] at e
      exact e
    · rename_i h
      rw [h] at e
      exact e.trans (engine_mergeFailed _ _ _ _ _)
theorem engine_evictLine (s : State) (c : Nat) (ln : Line) : Engine s (s.evictLine c ln) := by
  unfold evictLine
  dsimp only
  split
  · exact ((engine_mergeOut _ _ _).trans (engine_dropLine _ _ _)).trans (engine_setDir _ _ _)
  · exact (engine_mergeOut _ _ _).trans (engine_dropLine _ _ _)
/-- Making room in a set may write a line back; with a way left it does nothing. -/
theorem engine_makeRoom (s : State) (c l : Nat) : Engine s (s.makeRoom c l) := by
  unfold makeRoom
  split
  · exact .refl s
  · dsimp only
    split
    · exact (engine_free s).trans (engine_evictLine _ _ _)
    · exact engine_free s
theorem makeRoom_of_room (s : State) (c l : Nat) (h : (s.setLines c l).length < 8) : s.makeRoom c l = s := by
  simp [makeRoom, h]
theorem engine_recallTo (s : State) (l : Nat) (st : Mesi) : Engine s (s.recallTo l st) := by
  unfold recallTo
  refine Engine.fold _ ?_ _ s
  intro s c
  split
  · split
    · dsimp only
      split
      · exact (engine_mergeOut _ _ _).trans (engine_dropLine _ _ _)
      · exact (engine_mergeOut _ _ _).trans (engine_putLine _ _ _)
    · exact .refl s
  · exact .refl s
theorem engine_invalidateOthers (s : State) (l : Nat) (keep : Option Nat) : Engine s (s.invalidateOthers l keep) := by
  unfold invalidateOthers
  dsimp only
  refine Engine.trans (Engine.fold _ ?_ _ s) (engine_setDir _ _ _)
  intro s c
  split
  · exact .refl s
  · split
    · split
      · exact (engine_mergeOut _ _ _).trans (engine_dropLine _ _ _)
      · exact .refl s
    · exact .refl s
/-- A read at home writes back an M copy first, and touches no context. -/
theorem engine_homeLine (s : State) (sp : BitVec 6) (key : BitVec 8) (l : Nat) : Engine s (s.homeLine sp key l).1 := by
  unfold homeLine
  dsimp only
  split <;> exact engine_recallTo _ _ _
theorem engine_homeBytes (s : State) (sp : BitVec 6) (key : BitVec 8) (a n : Nat) : Engine s (s.homeBytes sp key a n).1 :=
  engine_homeLine _ _ _ _
theorem engine_homePut {s t : State} {sp : BitVec 6} {key : BitVec 8} {a n v : Nat} (h : s.homePut sp key a n v = .ok t) :
    Engine s t :=
  ((engine_recallTo _ _ _).trans (engine_invalidateOthers _ _ _)).trans (engine_homeWrite h)

/-- Silt's log of few free sectors touches no context. -/
theorem engine_siltLow (s : State) (n blk : Nat) : Engine s (s.siltLow n blk) := by
  unfold siltLow
  extract_lets r low above ch t
  have e : Engine s t := ⟨rfl, rfl, rfl, rfl, rfl, rfl, rfl, rfl, fun _ => ⟨rfl, rfl⟩, id⟩
  split
  · exact e.trans (engine_log _ _ _ _ _ _ _ _ _)
  · exact e
/-- A fold of writes keeps the canonical form. -/
theorem wf_fold {α : Type} (f : List Host.Cell → α → List Host.Cell)
    (h : ∀ m a, Memory.wf m = true → Memory.wf (f m a) = true) : ∀ (l : List α) (m : List Host.Cell),
    Memory.wf m = true → Memory.wf (l.foldl f m) = true
  | [], _, hm => hm
  | a :: r, m, hm => wf_fold f h r (f m a) (h m a hm)
/-- The state that a Silt write leads to: the block replaced, or kept and the failure logged. -/
def siltEnd : Except (BitVec 8 × State) State → State
  | .ok t => t
  | .error (_, t) => t
/-- Writing a Silt block touches no context and keeps memory canonical. -/
theorem engine_siltWrite (s : State) (n blk : Nat) (b : Block) : Engine s (siltEnd (s.siltWrite n blk b)) := by
  unfold siltWrite
  extract_lets r d k0 ns raw k got
  clear_value got ns raw k
  cases got with
  | none => exact engine_log _ _ _ _ _ _ _ _ _
  | some g =>
    obtain ⟨ov, first, fp, fo⟩ := g
    refine Engine.trans ?_ (engine_siltLow _ n blk)
    refine Engine.trans (Engine.trans ?_ (engine_siltLow _ n blk)) ⟨rfl, rfl, rfl, rfl, rfl, rfl, rfl, rfl, fun _ => ⟨rfl, rfl⟩, id⟩
    refine ⟨rfl, rfl, rfl, rfl, rfl, rfl, rfl, rfl, fun _ => ⟨rfl, rfl⟩, fun hw => ?_⟩
    refine Memory.wf_cellsWrite _ _ _ _ (wf_fold _ ?_ _ _ hw)
    intro m i hm
    exact Memory.wf_cellsWrite _ _ _ _ hm
theorem engine_afterSiltWrite (s : State) (a n : Nat) : Engine s (s.afterSiltWrite a n) := by
  unfold afterSiltWrite
  dsimp only
  exact (engine_meetWatches s _).trans (Engine.fold _ (fun s l => engine_wakeTokens s l) _ _)
theorem engine_siltPut (s : State) (a n v : Nat) : Engine s (siltEnd (s.siltPut a n v)) := by
  unfold siltPut
  extract_lets off
  split
  · exact .refl s
  · rename_i r blk _
    split
    · exact .refl s
    · rename_i b _
      have e := engine_siltWrite s r blk
      generalize ((b &&& ~~~_) ||| _ : Block) = c
      replace e := e c
      revert e
      generalize s.siltWrite r blk c = o
      intro e
      cases o with
      | ok t => exact e.trans (engine_afterSiltWrite _ _ _)
      | error p => exact e
/-- A read of an engine, at a home on whatever device, touches no context. -/
theorem engine_homeGet (s : State) (sp : BitVec 6) (key : BitVec 8) (a n : Nat) : Engine s (s.homeGet sp key a n).1 := by
  unfold homeGet
  split
  · exact engine_awayLine _ _ _ _
  · split
    · exact .refl s
    · exact .refl s
    · split
      · exact engine_waitFor _ _
      · exact .refl s
    · have e := engine_lineReady s (a / 128) false sp
      revert e
      generalize s.lineReady (a / 128) false sp = q
      obtain ⟨u, _ | _⟩ := q
      · exact id
      · exact fun e => e.trans (engine_homeBytes _ _ _ _ _)

/-! Translation. -/

/-- From s to t an engine has worked, and the bundle in issue has noted the page-table entries whose A and D it set (R347). -/
structure Walked (s t : State) : Prop where
  engine : Engine s { t with issue := s.issue }
  marks : ∃ m, t.issue = { s.issue with marks := m }

theorem Engine.walked {s t : State} (e : Engine s t) : Walked s t :=
  ⟨⟨e.here, e.cx, rfl, e.others, e.cycle, e.inputs, e.turn, e.booted, e.tiles, e.wf⟩, _, e.issue⟩
theorem Walked.refl (s : State) : Walked s s := (Engine.refl s).walked
theorem Walked.trans {s t u : State} (a : Walked s t) (b : Walked t u) : Walked s u := by
  obtain ⟨a, m, ha⟩ := a
  obtain ⟨b, n, hb⟩ := b
  refine ⟨⟨b.here.trans a.here, b.cx.trans a.cx, rfl, b.others.trans a.others, b.cycle.trans a.cycle, b.inputs.trans a.inputs,
    b.turn.trans a.turn, b.booted.trans a.booted,
    fun m => ⟨(b.tiles m).1.trans (a.tiles m).1, (b.tiles m).2.trans (a.tiles m).2⟩, fun h => b.wf (a.wf h)⟩, n, ?_⟩
  rw [hb, ha]
theorem engine_tlbStore (s : State) (core : Option Nat) (cl : Nat) (e : TlbEntry) : Engine s (s.tlbStore core cl e) := by
  unfold tlbStore
  dsimp only
  split
  · exact (engine_setCore _ _ _).trans (engine_setCluster _ _ _ rfl rfl)
  · exact engine_setCluster _ _ _ rfl rfl
theorem engine_orAD (s : State) (a : Nat) (w : Bool) : Engine s (s.orAD a w) := by
  unfold orAD
  extract_lets bits
  split
  · have e0 := engine_lineReady s (a / 128) true 0
    revert e0
    generalize s.lineReady (a / 128) true 0 = q
    obtain ⟨s1, _ | _⟩ := q
    · exact id
    · intro e0
      refine e0.trans ?_
      dsimp only
      split
      · split
        · exact .refl s1
        · rename_i old _
          have e := engine_siltPut s1 a 8 (old.lor bits)
          revert e
          generalize s1.siltPut a 8 (old.lor bits) = o
          intro e
          cases o with
          | ok t => exact e
          | error p => exact e
      · have e := engine_homeBytes s1 0 0 a 8
        revert e
        generalize s1.homeBytes 0 0 a 8 = r
        obtain ⟨t, r⟩ := r
        intro e
        cases r with
        | error c => exact e
        | ok old =>
          refine e.trans ?_
          dsimp only
          generalize hp : t.homePut 0 0 a 8 (old.lor bits) = q
          cases q with
          | ok u => exact engine_homePut hp
          | error c => exact .refl t
  · exact engine_send _ _ _
theorem walked_setAD (s : State) (a : Nat) (e : Dbl) (w : Bool) : Walked s (s.setAD a e w).1 := by
  unfold setAD
  generalize e ||| 0x40 ||| (if w then 0x80 else 0) = e'
  dsimp only
  by_cases he : (e' == e) = true
  · rw [if_pos he]
    exact .refl s
  · rw [if_neg he]
    refine (engine_orAD s a w).walked.trans ⟨⟨rfl, rfl, rfl, rfl, rfl, rfl, rfl, rfl, fun _ => ⟨rfl, rfl⟩, id⟩, _, rfl⟩
theorem engine_tableRead (s : State) (a : Nat) : Engine s (s.tableRead a).1 := by
  exact engine_homeGet _ _ _ _ _
theorem engine_walk (va : Dbl) (kind : Access) : ∀ (level : Nat) (s : State) (last : Dbl) (table : Nat),
    Engine s (s.walk va kind last level table).1
  | 0, s, last, table => by
    have e := engine_tableRead s (table + 8 * (va.toNat / 2 ^ 16 % 1024))
    unfold walk
    dsimp only
    split
    · rename_i h
      rw [h] at e
      exact e
    · rename_i h
      rw [h] at e
      split
      · exact e
      · split
        · exact e
        · split <;> exact e
  | n + 1, s, last, table => by
    have e := engine_tableRead s (table + 8 * (va.toNat / 2 ^ leafBits (n + 1) % 1024))
    unfold walk
    dsimp only
    split
    · rename_i h
      rw [h] at e
      exact e
    · rename_i h
      rw [h] at e
      split
      · exact e
      · split
        · split
          · exact e.trans (engine_walk va kind n _ _ _)
          · exact e
        · split <;> exact e
theorem walked_translateHit (s : State) (core : Option Nat) (cl : Nat) (sp : BitVec 6) (va : Dbl) (kind : Access)
    (e : TlbEntry) : Walked s (s.translateHit core cl sp va kind e).1 := by
  have hw : ∀ pt, Engine s ((s.entryReady sp).walk va kind 0 3 pt).1 := fun pt =>
    (engine_entryReady s sp).trans (engine_walk va kind 3 _ 0 pt)
  unfold translateHit
  cases s.leafCheck sp va kind 15 e.leaf with
  | some f => exact .refl s
  | none =>
    refine Walked.trans ?_ (engine_tlbStore _ _ _ _).walked
    cases (writes kind && !e.leaf.getLsbD 7) with
    | false => exact .refl s
    | true =>
      have e1 := hw (s.ptRoot (s.spaceEntry sp))
      revert e1
      generalize (s.entryReady sp).walk va kind 0 3 (s.ptRoot (s.spaceEntry sp)) = r
      obtain ⟨t, r⟩ := r
      intro e1
      cases r with
      | error f => exact e1.walked
      | ok x => exact Walked.trans e1.walked (walked_setAD _ _ _ _)
theorem walked_walked (s : State) (core : Option Nat) (cl : Nat) (sp : BitVec 6) (va : Dbl) (kind : Access) (level a : Nat)
    (e : Dbl) : Walked s (s.walked core cl sp va kind level a e).1 := by
  unfold walked
  cases s.leafCheck sp va kind level e with
  | some f => exact .refl s
  | none => exact Walked.trans (walked_setAD _ _ _ _) (engine_tlbStore _ _ _ _).walked
theorem walked_translateMiss (s : State) (core : Option Nat) (cl : Nat) (sp : BitVec 6) (va : Dbl) (kind : Access) :
    Walked s (s.translateMiss core cl sp va kind).1 := by
  unfold translateMiss
  dsimp only
  have e0 := engine_entryReady s sp
  revert e0
  generalize s.entryReady sp = s1
  intro e0
  have e1 : ∀ pt, Engine s (s1.walk va kind 0 3 pt).1 := fun pt => e0.trans (engine_walk va kind 3 s1 0 pt)
  cases !s1.rootOk sp with
  | true => exact e0.walked
  | false =>
    replace e1 := e1 (s1.ptRoot (s1.spaceEntry sp))
    revert e1
    generalize s1.walk va kind 0 3 (s1.ptRoot (s1.spaceEntry sp)) = r
    obtain ⟨t, r⟩ := r
    intro e1
    cases r with
    | error f => exact e1.walked
    | ok x => exact Walked.trans e1.walked (walked_walked _ _ _ _ _ _ _ _ _)
/-- A translation touches no context: it may set A and D, fill TLBs and write back lines of page tables (R347, R349). -/
theorem walked_translate (s : State) (core : Option Nat) (cl : Nat) (sp : BitVec 6) (va : Dbl) (kind : Access) :
    Walked s (s.translate core cl sp va kind).1 := by
  unfold translate
  split
  · exact walked_translateHit _ _ _ _ _ _ _
  · exact walked_translateMiss _ _ _ _ _ _
theorem walked_xlat (s : State) (va : Dbl) (kind : Access) : Walked s (s.xlat va kind).1 := walked_translate _ _ _ _ _ _

theorem engine_homeRead (s : State) (sp : BitVec 6) (key : BitVec 8) (a n : Nat) : Engine s (s.homeRead sp key a n).1 := by
  unfold homeRead
  split
  · exact .refl s
  · exact .refl s
  · exact .refl s
  · exact engine_homeBytes _ _ _ _ _
/-- A read at a virtual address touches no context and no tile slot (R199). -/
theorem walked_readVa (s : State) (cl : Nat) (sp : BitVec 6) (va : Dbl) (n : Nat) (kind : Access) :
    Walked s (s.readVa cl sp va n kind).1 := by
  unfold readVa
  have w := walked_translate s none cl sp va kind
  revert w
  generalize s.translate none cl sp va kind = r
  obtain ⟨u, f | t⟩ := r
  · exact id
  · intro w
    dsimp only at w ⊢
    have e := engine_homeGet u sp (t.leaf.extractLsb' 8 8) t.gpa n
    revert e
    generalize u.homeGet sp (t.leaf.extractLsb' 8 8) t.gpa n = q
    obtain ⟨v, g | b⟩ := q
    · exact fun e => w.trans e.walked
    · exact fun e => w.trans e.walked
/-- A tensor's descriptor is read without touching a context or a tile slot (R184). -/
theorem walked_tensor (s : State) (cl : Nat) (sp : BitVec 6) (t : BitVec 20) : Walked s (s.tensor cl sp t).1 := by
  have w : Walked s (s.tensorWord cl sp t).1 := by
    unfold tensorWord
    have e0 := (engine_entryReady s sp).walked
    revert e0
    generalize s.entryReady sp = s1
    intro e0
    dsimp only
    split
    · exact e0
    · have w := e0.trans (walked_readVa s1 cl sp (BitVec.ofNat 64 (s1.ttroot sp + 64 * t.toNat)) 64 .read)
      revert w
      generalize s1.readVa cl sp (BitVec.ofNat 64 (s1.ttroot sp + 64 * t.toNat)) 64 .read = r
      obtain ⟨u, f | v⟩ := r
      · exact id
      · exact id
  unfold tensor
  revert w
  generalize s.tensorWord cl sp t = r
  obtain ⟨u, f | v⟩ := r
  · exact id
  · exact id

end State

end Sys2Proof.Machine
end

