-- ==== Sys2Proof/Laws/PerInstr.lean ====
section
/-! SUPPORT. Decoding gives back what the encoder wrote, one lemma per constructor of Instr. -/

set_option linter.unusedSimpArgs false

namespace Sys2Proof

/-- Cutting a packed number with the packing's widths gives its fields. -/
theorem unpack_pack : ∀ l : List (Nat × Nat), unpack (l.map Prod.fst) (pack l) = l.map fun p => p.2 % 2 ^ p.1
  | [] => rfl
  | (w, v) :: r => by
    have h1 : (v % 2 ^ w + 2 ^ w * pack r) % 2 ^ w = v % 2 ^ w := by
      rw [Nat.add_mul_mod_self_left, Nat.mod_mod]
    have h2 : (v % 2 ^ w + 2 ^ w * pack r) / 2 ^ w = pack r := by
      rw [Nat.add_mul_div_left _ _ (Nat.two_pow_pos w), Nat.div_eq_of_lt (Nat.mod_lt _ (Nat.two_pow_pos w)), Nat.zero_add]
    simp [unpack, pack, h1, h2, unpack_pack r]
/-- How many bits a packing has. -/
def packBits : List (Nat × Nat) → Nat
  | [] => 0
  | (w, _) :: r => w + packBits r
theorem pack_lt : ∀ l : List (Nat × Nat), pack l < 2 ^ packBits l
  | [] => by simp [pack, packBits]
  | (w, v) :: r => by
    have ih := pack_lt r
    have hm : v % 2 ^ w < 2 ^ w := Nat.mod_lt _ (Nat.two_pow_pos w)
    have : 2 ^ w * (pack r + 1) ≤ 2 ^ w * 2 ^ packBits r := Nat.mul_le_mul_left _ ih
    simp only [pack, packBits, Nat.pow_add]
    rw [Nat.mul_add, Nat.mul_one] at this
    omega
/-- The last field of a packing stands above the bits of the others. -/
theorem pack_last : ∀ (l : List (Nat × Nat)) (w v : Nat), pack (l ++ [(w, v)]) / 2 ^ packBits l = v % 2 ^ w
  | [], w, v => by simp [pack, packBits]
  | (u, x) :: r, w, v => by
    simp only [List.cons_append, pack, packBits, Nat.pow_add]
    rw [← Nat.div_div_eq_div_mul, Nat.add_mul_div_left _ _ (Nat.two_pow_pos u),
      Nat.div_eq_of_lt (Nat.mod_lt _ (Nat.two_pow_pos u)), Nat.zero_add, pack_last r w v]
/-- A packed word whose last field is a six-bit opcode above 26 bits decodes by the rows of that opcode. -/
theorem decodeWord_pack (sl : Slot) (lit : Option Word) (l : List (Nat × Nat)) (op k : Nat) (i : Instr)
    (hb : packBits l = 26) (hrow : firstRow (rowsOf sl (op % 64)) lit (pack (l ++ [(6, op)])) = some (k, i)) :
    decodeWord sl lit (BitVec.ofNat 32 (pack (l ++ [(6, op)]))) = .ok i := by
  have h1 : ∀ m : List (Nat × Nat), packBits (m ++ [(6, op)]) = packBits m + 6 := by
    intro m
    induction m with
    | nil => rfl
    | cons x r ih => obtain ⟨w, v⟩ := x; simp only [List.cons_append, packBits, ih]; omega
  have hlt := pack_lt (l ++ [(6, op)])
  rw [h1, hb] at hlt
  have hop := pack_last l 6 op
  rw [hb] at hop
  unfold decodeWord
  rw [BitVec.toNat_ofNat, Nat.mod_eq_of_lt hlt, hop]
  generalize hr : rowsOf sl (op % 2 ^ 6) = rs
  have hr' : rowsOf sl (op % 64) = rs := hr
  rw [hr'] at hrow
  cases rs with
  | nil => simp [firstRow] at hrow
  | cons a b => simp only [hrow]

/-- The same for an encoder's word, the row being looked at on any number with the word's fields. -/
theorem decodeWord_row (sl : Slot) (lit : Option Word) (l : List (Nat × Nat)) (op k : Nat) (i : Instr)
    (he : encodeNat i = pack (l ++ [(6, op)])) (hb : packBits l = 26)
    (hrow : ∀ n, unpack ((l ++ [(6, op)]).map Prod.fst) n = (l ++ [(6, op)]).map (fun (p : Nat × Nat) => p.2 % 2 ^ p.1) →
      firstRow (rowsOf sl (op % 64)) lit n = some (k, i)) :
    decodeWord sl lit (encode i) = .ok i := by
  unfold encode
  rw [he]
  exact decodeWord_pack sl lit l op k i hb (hrow _ (unpack_pack _))

theorem bool_of_nat (b : Bool) : (b.toNat % 2 == 1) = b := by cases b <;> rfl
theorem ofNat_mod (w : Nat) (b : BitVec w) : BitVec.ofNat w (b.toNat % 2 ^ w) = b := by simp
theorem elemOf_code (t : ElemType) : elemOf? (t.code % 16) = some t := by cases t <;> rfl
theorem rmodeOf_code (t : RMode) : rmodeOf? (t.code % 4) = some t := by cases t <;> rfl
theorem cellOpOf_code (t : CellOp) : cellOpOf? (t.code % 4) = some t := by cases t <;> rfl
theorem atomicOf_code (t : AtomicOp) : atomicOf? (t.code % 16) = some t := by cases t <;> rfl
theorem policyOf_code (t : Policy) : policyOf? (t.code % 4) = some t := by cases t <;> rfl

end Sys2Proof

namespace Sys2Proof.Laws.Encoding

/-- In every slot that has the word, with the literal it owns, the decoder reads the encoder's word of a well-formed
instruction as that instruction (R76, R81 to R91). An engine event has no slot. -/
def Statement (i : Instr) : Prop :=
  ∀ sl ∈ i.slots, i.wf = true → decodeWord sl i.literal (encode i) = .ok i

theorem emptyBundle (d : Bool) (c : BitVec 2) : Statement (Instr.emptyBundle d c) := fun _ h => absurd h List.not_mem_nil
theorem add (p : Pred) (d : BitVec 5) (a : BitVec 5) (b : BitVec 5) (w : Bool) : Statement (Instr.add p d a b w) := by
  intro sl hs hw
  refine decodeWord_row sl none [(6, 0), (1, w.toNat), (5, b.toNat), (5, a.toNat), (5, d.toNat), (1, p.ng.toNat), (3, p.qp.toNat)] 0 12 _ rfl rfl fun n hun => ?_
  simp only [List.cons_append, List.nil_append, List.map_cons, List.map_nil, unpack, List.cons.injEq] at hun
  have hrs : rowsOf sl (0 % 64) = [(12, rowAdd)] := by
    change sl ∈ [Slot.c, Slot.s] at hs
    simp only [List.mem_cons, List.not_mem_nil, or_false] at hs
    rcases hs with rfl | rfl <;> rfl
  rw [hrs]
  simp only [firstRow, rowAdd, unpack, hun]
  simp only [ofNat_mod]
  simp only [Nat.reducePow, Nat.reduceMod, Nat.zero_mod, Nat.reduceBEq, beq_self_eq_true, Bool.and_self, if_true, bool_of_nat, hw, Option.bind_some, Bool.and_false, Bool.false_and, Bool.false_eq_true, if_false]
theorem sub (p : Pred) (d : BitVec 5) (a : BitVec 5) (b : BitVec 5) (w : Bool) : Statement (Instr.sub p d a b w) := by
  intro sl hs hw
  refine decodeWord_row sl none [(6, 0), (1, w.toNat), (5, b.toNat), (5, a.toNat), (5, d.toNat), (1, p.ng.toNat), (3, p.qp.toNat)] 1 12 _ rfl rfl fun n hun => ?_
  simp only [List.cons_append, List.nil_append, List.map_cons, List.map_nil, unpack, List.cons.injEq] at hun
  have hrs : rowsOf sl (1 % 64) = [(12, rowSub)] := by
    change sl ∈ [Slot.c, Slot.s] at hs
    simp only [List.mem_cons, List.not_mem_nil, or_false] at hs
    rcases hs with rfl | rfl <;> rfl
  rw [hrs]
  simp only [firstRow, rowSub, unpack, hun]
  simp only [ofNat_mod]
  simp only [Nat.reducePow, Nat.reduceMod, Nat.zero_mod, Nat.reduceBEq, beq_self_eq_true, Bool.and_self, if_true, bool_of_nat, hw, Option.bind_some, Bool.and_false, Bool.false_and, Bool.false_eq_true, if_false]
theorem and (p : Pred) (d : BitVec 5) (a : BitVec 5) (b : BitVec 5) (w : Bool) : Statement (Instr.and p d a b w) := by
  intro sl hs hw
  refine decodeWord_row sl none [(6, 0), (1, w.toNat), (5, b.toNat), (5, a.toNat), (5, d.toNat), (1, p.ng.toNat), (3, p.qp.toNat)] 2 12 _ rfl rfl fun n hun => ?_
  simp only [List.cons_append, List.nil_append, List.map_cons, List.map_nil, unpack, List.cons.injEq] at hun
  have hrs : rowsOf sl (2 % 64) = [(12, rowAnd)] := by
    change sl ∈ [Slot.c, Slot.s] at hs
    simp only [List.mem_cons, List.not_mem_nil, or_false] at hs
    rcases hs with rfl | rfl <;> rfl
  rw [hrs]
  simp only [firstRow, rowAnd, unpack, hun]
  simp only [ofNat_mod]
  simp only [Nat.reducePow, Nat.reduceMod, Nat.zero_mod, Nat.reduceBEq, beq_self_eq_true, Bool.and_self, if_true, bool_of_nat, hw, Option.bind_some, Bool.and_false, Bool.false_and, Bool.false_eq_true, if_false]
theorem or (p : Pred) (d : BitVec 5) (a : BitVec 5) (b : BitVec 5) (w : Bool) : Statement (Instr.or p d a b w) := by
  intro sl hs hw
  refine decodeWord_row sl none [(6, 0), (1, w.toNat), (5, b.toNat), (5, a.toNat), (5, d.toNat), (1, p.ng.toNat), (3, p.qp.toNat)] 3 12 _ rfl rfl fun n hun => ?_
  simp only [List.cons_append, List.nil_append, List.map_cons, List.map_nil, unpack, List.cons.injEq] at hun
  have hrs : rowsOf sl (3 % 64) = [(12, rowOr)] := by
    change sl ∈ [Slot.c, Slot.s] at hs
    simp only [List.mem_cons, List.not_mem_nil, or_false] at hs
    rcases hs with rfl | rfl <;> rfl
  rw [hrs]
  simp only [firstRow, rowOr, unpack, hun]
  simp only [ofNat_mod]
  simp only [Nat.reducePow, Nat.reduceMod, Nat.zero_mod, Nat.reduceBEq, beq_self_eq_true, Bool.and_self, if_true, bool_of_nat, hw, Option.bind_some, Bool.and_false, Bool.false_and, Bool.false_eq_true, if_false]
theorem xor (p : Pred) (d : BitVec 5) (a : BitVec 5) (b : BitVec 5) (w : Bool) : Statement (Instr.xor p d a b w) := by
  intro sl hs hw
  refine decodeWord_row sl none [(6, 0), (1, w.toNat), (5, b.toNat), (5, a.toNat), (5, d.toNat), (1, p.ng.toNat), (3, p.qp.toNat)] 4 12 _ rfl rfl fun n hun => ?_
  simp only [List.cons_append, List.nil_append, List.map_cons, List.map_nil, unpack, List.cons.injEq] at hun
  have hrs : rowsOf sl (4 % 64) = [(12, rowXor)] := by
    change sl ∈ [Slot.c, Slot.s] at hs
    simp only [List.mem_cons, List.not_mem_nil, or_false] at hs
    rcases hs with rfl | rfl <;> rfl
  rw [hrs]
  simp only [firstRow, rowXor, unpack, hun]
  simp only [ofNat_mod]
  simp only [Nat.reducePow, Nat.reduceMod, Nat.zero_mod, Nat.reduceBEq, beq_self_eq_true, Bool.and_self, if_true, bool_of_nat, hw, Option.bind_some, Bool.and_false, Bool.false_and, Bool.false_eq_true, if_false]
theorem andn (p : Pred) (d : BitVec 5) (a : BitVec 5) (b : BitVec 5) (w : Bool) : Statement (Instr.andn p d a b w) := by
  intro sl hs hw
  refine decodeWord_row sl none [(6, 0), (1, w.toNat), (5, b.toNat), (5, a.toNat), (5, d.toNat), (1, p.ng.toNat), (3, p.qp.toNat)] 5 12 _ rfl rfl fun n hun => ?_
  simp only [List.cons_append, List.nil_append, List.map_cons, List.map_nil, unpack, List.cons.injEq] at hun
  have hrs : rowsOf sl (5 % 64) = [(12, rowAndn)] := by
    change sl ∈ [Slot.c, Slot.s] at hs
    simp only [List.mem_cons, List.not_mem_nil, or_false] at hs
    rcases hs with rfl | rfl <;> rfl
  rw [hrs]
  simp only [firstRow, rowAndn, unpack, hun]
  simp only [ofNat_mod]
  simp only [Nat.reducePow, Nat.reduceMod, Nat.zero_mod, Nat.reduceBEq, beq_self_eq_true, Bool.and_self, if_true, bool_of_nat, hw, Option.bind_some, Bool.and_false, Bool.false_and, Bool.false_eq_true, if_false]
theorem shl (p : Pred) (d : BitVec 5) (a : BitVec 5) (b : BitVec 5) (w : Bool) : Statement (Instr.shl p d a b w) := by
  intro sl hs hw
  refine decodeWord_row sl none [(6, 0), (1, w.toNat), (5, b.toNat), (5, a.toNat), (5, d.toNat), (1, p.ng.toNat), (3, p.qp.toNat)] 6 12 _ rfl rfl fun n hun => ?_
  simp only [List.cons_append, List.nil_append, List.map_cons, List.map_nil, unpack, List.cons.injEq] at hun
  have hrs : rowsOf sl (6 % 64) = [(12, rowShl)] := by
    change sl ∈ [Slot.c, Slot.s] at hs
    simp only [List.mem_cons, List.not_mem_nil, or_false] at hs
    rcases hs with rfl | rfl <;> rfl
  rw [hrs]
  simp only [firstRow, rowShl, unpack, hun]
  simp only [ofNat_mod]
  simp only [Nat.reducePow, Nat.reduceMod, Nat.zero_mod, Nat.reduceBEq, beq_self_eq_true, Bool.and_self, if_true, bool_of_nat, hw, Option.bind_some, Bool.and_false, Bool.false_and, Bool.false_eq_true, if_false]
theorem shr (p : Pred) (d : BitVec 5) (a : BitVec 5) (b : BitVec 5) (w : Bool) : Statement (Instr.shr p d a b w) := by
  intro sl hs hw
  refine decodeWord_row sl none [(6, 0), (1, w.toNat), (5, b.toNat), (5, a.toNat), (5, d.toNat), (1, p.ng.toNat), (3, p.qp.toNat)] 7 12 _ rfl rfl fun n hun => ?_
  simp only [List.cons_append, List.nil_append, List.map_cons, List.map_nil, unpack, List.cons.injEq] at hun
  have hrs : rowsOf sl (7 % 64) = [(12, rowShr)] := by
    change sl ∈ [Slot.c, Slot.s] at hs
    simp only [List.mem_cons, List.not_mem_nil, or_false] at hs
    rcases hs with rfl | rfl <;> rfl
  rw [hrs]
  simp only [firstRow, rowShr, unpack, hun]
  simp only [ofNat_mod]
  simp only [Nat.reducePow, Nat.reduceMod, Nat.zero_mod, Nat.reduceBEq, beq_self_eq_true, Bool.and_self, if_true, bool_of_nat, hw, Option.bind_some, Bool.and_false, Bool.false_and, Bool.false_eq_true, if_false]
theorem sar (p : Pred) (d : BitVec 5) (a : BitVec 5) (b : BitVec 5) (w : Bool) : Statement (Instr.sar p d a b w) := by
  intro sl hs hw
  refine decodeWord_row sl none [(6, 0), (1, w.toNat), (5, b.toNat), (5, a.toNat), (5, d.toNat), (1, p.ng.toNat), (3, p.qp.toNat)] 8 12 _ rfl rfl fun n hun => ?_
  simp only [List.cons_append, List.nil_append, List.map_cons, List.map_nil, unpack, List.cons.injEq] at hun
  have hrs : rowsOf sl (8 % 64) = [(12, rowSar)] := by
    change sl ∈ [Slot.c, Slot.s] at hs
    simp only [List.mem_cons, List.not_mem_nil, or_false] at hs
    rcases hs with rfl | rfl <;> rfl
  rw [hrs]
  simp only [firstRow, rowSar, unpack, hun]
  simp only [ofNat_mod]
  simp only [Nat.reducePow, Nat.reduceMod, Nat.zero_mod, Nat.reduceBEq, beq_self_eq_true, Bool.and_self, if_true, bool_of_nat, hw, Option.bind_some, Bool.and_false, Bool.false_and, Bool.false_eq_true, if_false]
theorem rol (p : Pred) (d : BitVec 5) (a : BitVec 5) (b : BitVec 5) (w : Bool) : Statement (Instr.rol p d a b w) := by
  intro sl hs hw
  refine decodeWord_row sl none [(6, 0), (1, w.toNat), (5, b.toNat), (5, a.toNat), (5, d.toNat), (1, p.ng.toNat), (3, p.qp.toNat)] 9 12 _ rfl rfl fun n hun => ?_
  simp only [List.cons_append, List.nil_append, List.map_cons, List.map_nil, unpack, List.cons.injEq] at hun
  have hrs : rowsOf sl (9 % 64) = [(12, rowRol)] := by
    change sl ∈ [Slot.c, Slot.s] at hs
    simp only [List.mem_cons, List.not_mem_nil, or_false] at hs
    rcases hs with rfl | rfl <;> rfl
  rw [hrs]
  simp only [firstRow, rowRol, unpack, hun]
  simp only [ofNat_mod]
  simp only [Nat.reducePow, Nat.reduceMod, Nat.zero_mod, Nat.reduceBEq, beq_self_eq_true, Bool.and_self, if_true, bool_of_nat, hw, Option.bind_some, Bool.and_false, Bool.false_and, Bool.false_eq_true, if_false]
theorem minI (p : Pred) (d : BitVec 5) (a : BitVec 5) (b : BitVec 5) (w : Bool) : Statement (Instr.minI p d a b w) := by
  intro sl hs hw
  refine decodeWord_row sl none [(6, 0), (1, w.toNat), (5, b.toNat), (5, a.toNat), (5, d.toNat), (1, p.ng.toNat), (3, p.qp.toNat)] 10 12 _ rfl rfl fun n hun => ?_
  simp only [List.cons_append, List.nil_append, List.map_cons, List.map_nil, unpack, List.cons.injEq] at hun
  have hrs : rowsOf sl (10 % 64) = [(12, rowMinI)] := by
    change sl ∈ [Slot.c, Slot.s] at hs
    simp only [List.mem_cons, List.not_mem_nil, or_false] at hs
    rcases hs with rfl | rfl <;> rfl
  rw [hrs]
  simp only [firstRow, rowMinI, unpack, hun]
  simp only [ofNat_mod]
  simp only [Nat.reducePow, Nat.reduceMod, Nat.zero_mod, Nat.reduceBEq, beq_self_eq_true, Bool.and_self, if_true, bool_of_nat, hw, Option.bind_some, Bool.and_false, Bool.false_and, Bool.false_eq_true, if_false]
theorem maxI (p : Pred) (d : BitVec 5) (a : BitVec 5) (b : BitVec 5) (w : Bool) : Statement (Instr.maxI p d a b w) := by
  intro sl hs hw
  refine decodeWord_row sl none [(6, 0), (1, w.toNat), (5, b.toNat), (5, a.toNat), (5, d.toNat), (1, p.ng.toNat), (3, p.qp.toNat)] 11 12 _ rfl rfl fun n hun => ?_
  simp only [List.cons_append, List.nil_append, List.map_cons, List.map_nil, unpack, List.cons.injEq] at hun
  have hrs : rowsOf sl (11 % 64) = [(12, rowMaxI)] := by
    change sl ∈ [Slot.c, Slot.s] at hs
    simp only [List.mem_cons, List.not_mem_nil, or_false] at hs
    rcases hs with rfl | rfl <;> rfl
  rw [hrs]
  simp only [firstRow, rowMaxI, unpack, hun]
  simp only [ofNat_mod]
  simp only [Nat.reducePow, Nat.reduceMod, Nat.zero_mod, Nat.reduceBEq, beq_self_eq_true, Bool.and_self, if_true, bool_of_nat, hw, Option.bind_some, Bool.and_false, Bool.false_and, Bool.false_eq_true, if_false]
theorem minN (p : Pred) (d : BitVec 5) (a : BitVec 5) (b : BitVec 5) (w : Bool) : Statement (Instr.minN p d a b w) := by
  intro sl hs hw
  refine decodeWord_row sl none [(6, 0), (1, w.toNat), (5, b.toNat), (5, a.toNat), (5, d.toNat), (1, p.ng.toNat), (3, p.qp.toNat)] 12 12 _ rfl rfl fun n hun => ?_
  simp only [List.cons_append, List.nil_append, List.map_cons, List.map_nil, unpack, List.cons.injEq] at hun
  have hrs : rowsOf sl (12 % 64) = [(12, rowMinN)] := by
    change sl ∈ [Slot.c, Slot.s] at hs
    simp only [List.mem_cons, List.not_mem_nil, or_false] at hs
    rcases hs with rfl | rfl <;> rfl
  rw [hrs]
  simp only [firstRow, rowMinN, unpack, hun]
  simp only [ofNat_mod]
  simp only [Nat.reducePow, Nat.reduceMod, Nat.zero_mod, Nat.reduceBEq, beq_self_eq_true, Bool.and_self, if_true, bool_of_nat, hw, Option.bind_some, Bool.and_false, Bool.false_and, Bool.false_eq_true, if_false]
theorem maxN (p : Pred) (d : BitVec 5) (a : BitVec 5) (b : BitVec 5) (w : Bool) : Statement (Instr.maxN p d a b w) := by
  intro sl hs hw
  refine decodeWord_row sl none [(6, 0), (1, w.toNat), (5, b.toNat), (5, a.toNat), (5, d.toNat), (1, p.ng.toNat), (3, p.qp.toNat)] 13 12 _ rfl rfl fun n hun => ?_
  simp only [List.cons_append, List.nil_append, List.map_cons, List.map_nil, unpack, List.cons.injEq] at hun
  have hrs : rowsOf sl (13 % 64) = [(12, rowMaxN)] := by
    change sl ∈ [Slot.c, Slot.s] at hs
    simp only [List.mem_cons, List.not_mem_nil, or_false] at hs
    rcases hs with rfl | rfl <;> rfl
  rw [hrs]
  simp only [firstRow, rowMaxN, unpack, hun]
  simp only [ofNat_mod]
  simp only [Nat.reducePow, Nat.reduceMod, Nat.zero_mod, Nat.reduceBEq, beq_self_eq_true, Bool.and_self, if_true, bool_of_nat, hw, Option.bind_some, Bool.and_false, Bool.false_and, Bool.false_eq_true, if_false]
theorem mul (p : Pred) (d : BitVec 5) (a : BitVec 5) (b : BitVec 5) (w : Bool) : Statement (Instr.mul p d a b w) := by
  intro sl hs hw
  refine decodeWord_row sl none [(6, 0), (1, w.toNat), (5, b.toNat), (5, a.toNat), (5, d.toNat), (1, p.ng.toNat), (3, p.qp.toNat)] 14 12 _ rfl rfl fun n hun => ?_
  simp only [List.cons_append, List.nil_append, List.map_cons, List.map_nil, unpack, List.cons.injEq] at hun
  have hrs : rowsOf sl (14 % 64) = [(12, rowMul)] := by
    change sl ∈ [Slot.c, Slot.s] at hs
    simp only [List.mem_cons, List.not_mem_nil, or_false] at hs
    rcases hs with rfl | rfl <;> rfl
  rw [hrs]
  simp only [firstRow, rowMul, unpack, hun]
  simp only [ofNat_mod]
  simp only [Nat.reducePow, Nat.reduceMod, Nat.zero_mod, Nat.reduceBEq, beq_self_eq_true, Bool.and_self, if_true, bool_of_nat, hw, Option.bind_some, Bool.and_false, Bool.false_and, Bool.false_eq_true, if_false]
theorem mulhI (p : Pred) (d : BitVec 5) (a : BitVec 5) (b : BitVec 5) (w : Bool) : Statement (Instr.mulhI p d a b w) := by
  intro sl hs hw
  refine decodeWord_row sl none [(6, 0), (1, w.toNat), (5, b.toNat), (5, a.toNat), (5, d.toNat), (1, p.ng.toNat), (3, p.qp.toNat)] 15 12 _ rfl rfl fun n hun => ?_
  simp only [List.cons_append, List.nil_append, List.map_cons, List.map_nil, unpack, List.cons.injEq] at hun
  have hrs : rowsOf sl (15 % 64) = [(12, rowMulhI)] := by
    change sl ∈ [Slot.c, Slot.s] at hs
    simp only [List.mem_cons, List.not_mem_nil, or_false] at hs
    rcases hs with rfl | rfl <;> rfl
  rw [hrs]
  simp only [firstRow, rowMulhI, unpack, hun]
  simp only [ofNat_mod]
  simp only [Nat.reducePow, Nat.reduceMod, Nat.zero_mod, Nat.reduceBEq, beq_self_eq_true, Bool.and_self, if_true, bool_of_nat, hw, Option.bind_some, Bool.and_false, Bool.false_and, Bool.false_eq_true, if_false]
theorem mulhN (p : Pred) (d : BitVec 5) (a : BitVec 5) (b : BitVec 5) (w : Bool) : Statement (Instr.mulhN p d a b w) := by
  intro sl hs hw
  refine decodeWord_row sl none [(6, 0), (1, w.toNat), (5, b.toNat), (5, a.toNat), (5, d.toNat), (1, p.ng.toNat), (3, p.qp.toNat)] 16 12 _ rfl rfl fun n hun => ?_
  simp only [List.cons_append, List.nil_append, List.map_cons, List.map_nil, unpack, List.cons.injEq] at hun
  have hrs : rowsOf sl (16 % 64) = [(12, rowMulhN)] := by
    change sl ∈ [Slot.c, Slot.s] at hs
    simp only [List.mem_cons, List.not_mem_nil, or_false] at hs
    rcases hs with rfl | rfl <;> rfl
  rw [hrs]
  simp only [firstRow, rowMulhN, unpack, hun]
  simp only [ofNat_mod]
  simp only [Nat.reducePow, Nat.reduceMod, Nat.zero_mod, Nat.reduceBEq, beq_self_eq_true, Bool.and_self, if_true, bool_of_nat, hw, Option.bind_some, Bool.and_false, Bool.false_and, Bool.false_eq_true, if_false]
theorem divI (p : Pred) (d : BitVec 5) (a : BitVec 5) (b : BitVec 5) (w : Bool) : Statement (Instr.divI p d a b w) := by
  intro sl hs hw
  refine decodeWord_row sl none [(6, 0), (1, w.toNat), (5, b.toNat), (5, a.toNat), (5, d.toNat), (1, p.ng.toNat), (3, p.qp.toNat)] 17 12 _ rfl rfl fun n hun => ?_
  simp only [List.cons_append, List.nil_append, List.map_cons, List.map_nil, unpack, List.cons.injEq] at hun
  have hrs : rowsOf sl (17 % 64) = [(12, rowDivI)] := by
    change sl ∈ [Slot.c, Slot.s] at hs
    simp only [List.mem_cons, List.not_mem_nil, or_false] at hs
    rcases hs with rfl | rfl <;> rfl
  rw [hrs]
  simp only [firstRow, rowDivI, unpack, hun]
  simp only [ofNat_mod]
  simp only [Nat.reducePow, Nat.reduceMod, Nat.zero_mod, Nat.reduceBEq, beq_self_eq_true, Bool.and_self, if_true, bool_of_nat, hw, Option.bind_some, Bool.and_false, Bool.false_and, Bool.false_eq_true, if_false]
theorem divN (p : Pred) (d : BitVec 5) (a : BitVec 5) (b : BitVec 5) (w : Bool) : Statement (Instr.divN p d a b w) := by
  intro sl hs hw
  refine decodeWord_row sl none [(6, 0), (1, w.toNat), (5, b.toNat), (5, a.toNat), (5, d.toNat), (1, p.ng.toNat), (3, p.qp.toNat)] 18 12 _ rfl rfl fun n hun => ?_
  simp only [List.cons_append, List.nil_append, List.map_cons, List.map_nil, unpack, List.cons.injEq] at hun
  have hrs : rowsOf sl (18 % 64) = [(12, rowDivN)] := by
    change sl ∈ [Slot.c, Slot.s] at hs
    simp only [List.mem_cons, List.not_mem_nil, or_false] at hs
    rcases hs with rfl | rfl <;> rfl
  rw [hrs]
  simp only [firstRow, rowDivN, unpack, hun]
  simp only [ofNat_mod]
  simp only [Nat.reducePow, Nat.reduceMod, Nat.zero_mod, Nat.reduceBEq, beq_self_eq_true, Bool.and_self, if_true, bool_of_nat, hw, Option.bind_some, Bool.and_false, Bool.false_and, Bool.false_eq_true, if_false]
theorem remI (p : Pred) (d : BitVec 5) (a : BitVec 5) (b : BitVec 5) (w : Bool) : Statement (Instr.remI p d a b w) := by
  intro sl hs hw
  refine decodeWord_row sl none [(6, 0), (1, w.toNat), (5, b.toNat), (5, a.toNat), (5, d.toNat), (1, p.ng.toNat), (3, p.qp.toNat)] 19 12 _ rfl rfl fun n hun => ?_
  simp only [List.cons_append, List.nil_append, List.map_cons, List.map_nil, unpack, List.cons.injEq] at hun
  have hrs : rowsOf sl (19 % 64) = [(12, rowRemI)] := by
    change sl ∈ [Slot.c, Slot.s] at hs
    simp only [List.mem_cons, List.not_mem_nil, or_false] at hs
    rcases hs with rfl | rfl <;> rfl
  rw [hrs]
  simp only [firstRow, rowRemI, unpack, hun]
  simp only [ofNat_mod]
  simp only [Nat.reducePow, Nat.reduceMod, Nat.zero_mod, Nat.reduceBEq, beq_self_eq_true, Bool.and_self, if_true, bool_of_nat, hw, Option.bind_some, Bool.and_false, Bool.false_and, Bool.false_eq_true, if_false]
theorem remN (p : Pred) (d : BitVec 5) (a : BitVec 5) (b : BitVec 5) (w : Bool) : Statement (Instr.remN p d a b w) := by
  intro sl hs hw
  refine decodeWord_row sl none [(6, 0), (1, w.toNat), (5, b.toNat), (5, a.toNat), (5, d.toNat), (1, p.ng.toNat), (3, p.qp.toNat)] 20 12 _ rfl rfl fun n hun => ?_
  simp only [List.cons_append, List.nil_append, List.map_cons, List.map_nil, unpack, List.cons.injEq] at hun
  have hrs : rowsOf sl (20 % 64) = [(12, rowRemN)] := by
    change sl ∈ [Slot.c, Slot.s] at hs
    simp only [List.mem_cons, List.not_mem_nil, or_false] at hs
    rcases hs with rfl | rfl <;> rfl
  rw [hrs]
  simp only [firstRow, rowRemN, unpack, hun]
  simp only [ofNat_mod]
  simp only [Nat.reducePow, Nat.reduceMod, Nat.zero_mod, Nat.reduceBEq, beq_self_eq_true, Bool.and_self, if_true, bool_of_nat, hw, Option.bind_some, Bool.and_false, Bool.false_and, Bool.false_eq_true, if_false]
theorem clz (p : Pred) (d : BitVec 5) (a : BitVec 5) (w : Bool) : Statement (Instr.clz p d a w) := by
  intro sl hs hw
  refine decodeWord_row sl none [(6, 0), (1, w.toNat), (5, 0), (5, a.toNat), (5, d.toNat), (1, p.ng.toNat), (3, p.qp.toNat)] 21 17 _ rfl rfl fun n hun => ?_
  simp only [List.cons_append, List.nil_append, List.map_cons, List.map_nil, unpack, List.cons.injEq] at hun
  have hrs : rowsOf sl (21 % 64) = [(17, rowClz)] := by
    change sl ∈ [Slot.c, Slot.s] at hs
    simp only [List.mem_cons, List.not_mem_nil, or_false] at hs
    rcases hs with rfl | rfl <;> rfl
  rw [hrs]
  simp only [firstRow, rowClz, unpack, hun]
  simp only [ofNat_mod]
  simp only [Nat.reducePow, Nat.reduceMod, Nat.zero_mod, Nat.reduceBEq, beq_self_eq_true, Bool.and_self, if_true, bool_of_nat, hw, Option.bind_some, Bool.and_false, Bool.false_and, Bool.false_eq_true, if_false]
theorem ctz (p : Pred) (d : BitVec 5) (a : BitVec 5) (w : Bool) : Statement (Instr.ctz p d a w) := by
  intro sl hs hw
  refine decodeWord_row sl none [(6, 0), (1, w.toNat), (5, 0), (5, a.toNat), (5, d.toNat), (1, p.ng.toNat), (3, p.qp.toNat)] 22 17 _ rfl rfl fun n hun => ?_
  simp only [List.cons_append, List.nil_append, List.map_cons, List.map_nil, unpack, List.cons.injEq] at hun
  have hrs : rowsOf sl (22 % 64) = [(17, rowCtz)] := by
    change sl ∈ [Slot.c, Slot.s] at hs
    simp only [List.mem_cons, List.not_mem_nil, or_false] at hs
    rcases hs with rfl | rfl <;> rfl
  rw [hrs]
  simp only [firstRow, rowCtz, unpack, hun]
  simp only [ofNat_mod]
  simp only [Nat.reducePow, Nat.reduceMod, Nat.zero_mod, Nat.reduceBEq, beq_self_eq_true, Bool.and_self, if_true, bool_of_nat, hw, Option.bind_some, Bool.and_false, Bool.false_and, Bool.false_eq_true, if_false]
theorem popc (p : Pred) (d : BitVec 5) (a : BitVec 5) (w : Bool) : Statement (Instr.popc p d a w) := by
  intro sl hs hw
  refine decodeWord_row sl none [(6, 0), (1, w.toNat), (5, 0), (5, a.toNat), (5, d.toNat), (1, p.ng.toNat), (3, p.qp.toNat)] 23 17 _ rfl rfl fun n hun => ?_
  simp only [List.cons_append, List.nil_append, List.map_cons, List.map_nil, unpack, List.cons.injEq] at hun
  have hrs : rowsOf sl (23 % 64) = [(17, rowPopc)] := by
    change sl ∈ [Slot.c, Slot.s] at hs
    simp only [List.mem_cons, List.not_mem_nil, or_false] at hs
    rcases hs with rfl | rfl <;> rfl
  rw [hrs]
  simp only [firstRow, rowPopc, unpack, hun]
  simp only [ofNat_mod]
  simp only [Nat.reducePow, Nat.reduceMod, Nat.zero_mod, Nat.reduceBEq, beq_self_eq_true, Bool.and_self, if_true, bool_of_nat, hw, Option.bind_some, Bool.and_false, Bool.false_and, Bool.false_eq_true, if_false]
theorem brev (p : Pred) (d : BitVec 5) (a : BitVec 5) (w : Bool) : Statement (Instr.brev p d a w) := by
  intro sl hs hw
  refine decodeWord_row sl none [(6, 0), (1, w.toNat), (5, 0), (5, a.toNat), (5, d.toNat), (1, p.ng.toNat), (3, p.qp.toNat)] 24 17 _ rfl rfl fun n hun => ?_
  simp only [List.cons_append, List.nil_append, List.map_cons, List.map_nil, unpack, List.cons.injEq] at hun
  have hrs : rowsOf sl (24 % 64) = [(17, rowBrev)] := by
    change sl ∈ [Slot.c, Slot.s] at hs
    simp only [List.mem_cons, List.not_mem_nil, or_false] at hs
    rcases hs with rfl | rfl <;> rfl
  rw [hrs]
  simp only [firstRow, rowBrev, unpack, hun]
  simp only [ofNat_mod]
  simp only [Nat.reducePow, Nat.reduceMod, Nat.zero_mod, Nat.reduceBEq, beq_self_eq_true, Bool.and_self, if_true, bool_of_nat, hw, Option.bind_some, Bool.and_false, Bool.false_and, Bool.false_eq_true, if_false]
theorem bswap (p : Pred) (d : BitVec 5) (a : BitVec 5) (w : Bool) : Statement (Instr.bswap p d a w) := by
  intro sl hs hw
  refine decodeWord_row sl none [(6, 0), (1, w.toNat), (5, 0), (5, a.toNat), (5, d.toNat), (1, p.ng.toNat), (3, p.qp.toNat)] 25 17 _ rfl rfl fun n hun => ?_
  simp only [List.cons_append, List.nil_append, List.map_cons, List.map_nil, unpack, List.cons.injEq] at hun
  have hrs : rowsOf sl (25 % 64) = [(17, rowBswap)] := by
    change sl ∈ [Slot.c, Slot.s] at hs
    simp only [List.mem_cons, List.not_mem_nil, or_false] at hs
    rcases hs with rfl | rfl <;> rfl
  rw [hrs]
  simp only [firstRow, rowBswap, unpack, hun]
  simp only [ofNat_mod]
  simp only [Nat.reducePow, Nat.reduceMod, Nat.zero_mod, Nat.reduceBEq, beq_self_eq_true, Bool.and_self, if_true, bool_of_nat, hw, Option.bind_some, Bool.and_false, Bool.false_and, Bool.false_eq_true, if_false]
theorem sel (p : Pred) (d : BitVec 5) (a : BitVec 5) (b : BitVec 5) (w : Bool) (q : BitVec 3) : Statement (Instr.sel p d a b w q) := by
  intro sl hs hw
  refine decodeWord_row sl none [(3, q.toNat), (3, 0), (1, w.toNat), (5, b.toNat), (5, a.toNat), (5, d.toNat), (1, p.ng.toNat), (3, p.qp.toNat)] 26 9 _ rfl rfl fun n hun => ?_
  simp only [List.cons_append, List.nil_append, List.map_cons, List.map_nil, unpack, List.cons.injEq] at hun
  have hrs : rowsOf sl (26 % 64) = [(9, rowSel)] := by
    change sl ∈ [Slot.c, Slot.s] at hs
    simp only [List.mem_cons, List.not_mem_nil, or_false] at hs
    rcases hs with rfl | rfl <;> rfl
  rw [hrs]
  simp only [firstRow, rowSel, unpack, hun]
  simp only [ofNat_mod]
  simp only [Nat.reducePow, Nat.reduceMod, Nat.zero_mod, Nat.reduceBEq, beq_self_eq_true, Bool.and_self, if_true, bool_of_nat, hw, Option.bind_some, Bool.and_false, Bool.false_and, Bool.false_eq_true, if_false]
theorem adds (p : Pred) (d : BitVec 5) (a : BitVec 5) (b : BitVec 5) (w : Bool) (s : BitVec 6) : Statement (Instr.adds p d a b w s) := by
  intro sl hs hw
  refine decodeWord_row sl none [(6, s.toNat), (1, w.toNat), (5, b.toNat), (5, a.toNat), (5, d.toNat), (1, p.ng.toNat), (3, p.qp.toNat)] 27 6 _ rfl rfl fun n hun => ?_
  simp only [List.cons_append, List.nil_append, List.map_cons, List.map_nil, unpack, List.cons.injEq] at hun
  have hrs : rowsOf sl (27 % 64) = [(6, rowAdds)] := by
    change sl ∈ [Slot.c, Slot.s] at hs
    simp only [List.mem_cons, List.not_mem_nil, or_false] at hs
    rcases hs with rfl | rfl <;> rfl
  rw [hrs]
  simp only [firstRow, rowAdds, unpack, hun]
  simp only [ofNat_mod]
  simp only [Nat.reducePow, Nat.reduceMod, Nat.zero_mod, Nat.reduceBEq, beq_self_eq_true, Bool.and_self, if_true, bool_of_nat, hw, Option.bind_some, Bool.and_false, Bool.false_and, Bool.false_eq_true, if_false]
theorem extI (p : Pred) (d : BitVec 5) (a : BitVec 5) (b : BitVec 5) : Statement (Instr.extI p d a b) := by
  intro sl hs hw
  refine decodeWord_row sl none [(7, 0), (5, b.toNat), (5, a.toNat), (5, d.toNat), (1, p.ng.toNat), (3, p.qp.toNat)] 28 13 _ rfl rfl fun n hun => ?_
  simp only [List.cons_append, List.nil_append, List.map_cons, List.map_nil, unpack, List.cons.injEq] at hun
  have hrs : rowsOf sl (28 % 64) = [(13, rowExtI)] := by
    change sl ∈ [Slot.c, Slot.s] at hs
    simp only [List.mem_cons, List.not_mem_nil, or_false] at hs
    rcases hs with rfl | rfl <;> rfl
  rw [hrs]
  simp only [firstRow, rowExtI, unpack, hun]
  simp only [ofNat_mod]
  simp only [Nat.reducePow, Nat.reduceMod, Nat.zero_mod, Nat.reduceBEq, beq_self_eq_true, Bool.and_self, if_true, bool_of_nat, hw, Option.bind_some, Bool.and_false, Bool.false_and, Bool.false_eq_true, if_false]
theorem extN (p : Pred) (d : BitVec 5) (a : BitVec 5) (b : BitVec 5) : Statement (Instr.extN p d a b) := by
  intro sl hs hw
  refine decodeWord_row sl none [(7, 0), (5, b.toNat), (5, a.toNat), (5, d.toNat), (1, p.ng.toNat), (3, p.qp.toNat)] 29 13 _ rfl rfl fun n hun => ?_
  simp only [List.cons_append, List.nil_append, List.map_cons, List.map_nil, unpack, List.cons.injEq] at hun
  have hrs : rowsOf sl (29 % 64) = [(13, rowExtN)] := by
    change sl ∈ [Slot.c, Slot.s] at hs
    simp only [List.mem_cons, List.not_mem_nil, or_false] at hs
    rcases hs with rfl | rfl <;> rfl
  rw [hrs]
  simp only [firstRow, rowExtN, unpack, hun]
  simp only [ofNat_mod]
  simp only [Nat.reducePow, Nat.reduceMod, Nat.zero_mod, Nat.reduceBEq, beq_self_eq_true, Bool.and_self, if_true, bool_of_nat, hw, Option.bind_some, Bool.and_false, Bool.false_and, Bool.false_eq_true, if_false]
theorem ins (p : Pred) (d : BitVec 5) (a : BitVec 5) (b : BitVec 5) : Statement (Instr.ins p d a b) := by
  intro sl hs hw
  refine decodeWord_row sl none [(7, 0), (5, b.toNat), (5, a.toNat), (5, d.toNat), (1, p.ng.toNat), (3, p.qp.toNat)] 30 13 _ rfl rfl fun n hun => ?_
  simp only [List.cons_append, List.nil_append, List.map_cons, List.map_nil, unpack, List.cons.injEq] at hun
  have hrs : rowsOf sl (30 % 64) = [(13, rowIns)] := by
    change sl ∈ [Slot.c, Slot.s] at hs
    simp only [List.mem_cons, List.not_mem_nil, or_false] at hs
    rcases hs with rfl | rfl <;> rfl
  rw [hrs]
  simp only [firstRow, rowIns, unpack, hun]
  simp only [ofNat_mod]
  simp only [Nat.reducePow, Nat.reduceMod, Nat.zero_mod, Nat.reduceBEq, beq_self_eq_true, Bool.and_self, if_true, bool_of_nat, hw, Option.bind_some, Bool.and_false, Bool.false_and, Bool.false_eq_true, if_false]
theorem cmp (p : Pred) (q : BitVec 3) (a : BitVec 5) (b : BitVec 5) (w : Bool) (c : BitVec 3) : Statement (Instr.cmp p q a b w c) := by
  intro sl hs hw
  refine decodeWord_row sl none [(3, c.toNat), (3, 0), (1, w.toNat), (5, b.toNat), (5, a.toNat), (3, q.toNat), (2, 0), (1, p.ng.toNat), (3, p.qp.toNat)] 31 11 _ rfl rfl fun n hun => ?_
  simp only [List.cons_append, List.nil_append, List.map_cons, List.map_nil, unpack, List.cons.injEq] at hun
  have hrs : rowsOf sl (31 % 64) = [(11, rowCmp)] := by
    change sl ∈ [Slot.c, Slot.s] at hs
    simp only [List.mem_cons, List.not_mem_nil, or_false] at hs
    rcases hs with rfl | rfl <;> rfl
  rw [hrs]
  simp only [firstRow, rowCmp, unpack, hun]
  simp only [ofNat_mod]
  simp only [Nat.reducePow, Nat.reduceMod, Nat.zero_mod, Nat.reduceBEq, beq_self_eq_true, Bool.and_self, if_true, bool_of_nat, hw, Option.bind_some, Bool.and_false, Bool.false_and, Bool.false_eq_true, if_false]
theorem addi (p : Pred) (d : BitVec 5) (a : BitVec 5) (i : BitVec 12) (lit : Option Word) : Statement (Instr.addi p d a i lit) := by
  intro sl hs hw
  refine decodeWord_row sl lit [(12, i.toNat), (5, a.toNat), (5, d.toNat), (1, p.ng.toNat), (3, p.qp.toNat)] 32 6 _ rfl rfl fun n hun => ?_
  simp only [List.cons_append, List.nil_append, List.map_cons, List.map_nil, unpack, List.cons.injEq] at hun
  have hrs : rowsOf sl (32 % 64) = [(6, rowAddi)] := by
    change sl ∈ [Slot.c, Slot.s] at hs
    simp only [List.mem_cons, List.not_mem_nil, or_false] at hs
    rcases hs with rfl | rfl <;> rfl
  rw [hrs]
  simp only [firstRow, rowAddi, unpack, hun]
  simp only [ofNat_mod]
  simp only [Nat.reducePow, Nat.reduceMod, Nat.zero_mod, Nat.reduceBEq, beq_self_eq_true, Bool.and_self, if_true, bool_of_nat, hw, Option.bind_some, Bool.and_false, Bool.false_and, Bool.false_eq_true, if_false]
theorem andi (p : Pred) (d : BitVec 5) (a : BitVec 5) (i : BitVec 12) (lit : Option Word) : Statement (Instr.andi p d a i lit) := by
  intro sl hs hw
  refine decodeWord_row sl lit [(12, i.toNat), (5, a.toNat), (5, d.toNat), (1, p.ng.toNat), (3, p.qp.toNat)] 33 6 _ rfl rfl fun n hun => ?_
  simp only [List.cons_append, List.nil_append, List.map_cons, List.map_nil, unpack, List.cons.injEq] at hun
  have hrs : rowsOf sl (33 % 64) = [(6, rowAndi)] := by
    change sl ∈ [Slot.c, Slot.s] at hs
    simp only [List.mem_cons, List.not_mem_nil, or_false] at hs
    rcases hs with rfl | rfl <;> rfl
  rw [hrs]
  simp only [firstRow, rowAndi, unpack, hun]
  simp only [ofNat_mod]
  simp only [Nat.reducePow, Nat.reduceMod, Nat.zero_mod, Nat.reduceBEq, beq_self_eq_true, Bool.and_self, if_true, bool_of_nat, hw, Option.bind_some, Bool.and_false, Bool.false_and, Bool.false_eq_true, if_false]
theorem ori (p : Pred) (d : BitVec 5) (a : BitVec 5) (i : BitVec 12) (lit : Option Word) : Statement (Instr.ori p d a i lit) := by
  intro sl hs hw
  refine decodeWord_row sl lit [(12, i.toNat), (5, a.toNat), (5, d.toNat), (1, p.ng.toNat), (3, p.qp.toNat)] 34 6 _ rfl rfl fun n hun => ?_
  simp only [List.cons_append, List.nil_append, List.map_cons, List.map_nil, unpack, List.cons.injEq] at hun
  have hrs : rowsOf sl (34 % 64) = [(6, rowOri)] := by
    change sl ∈ [Slot.c, Slot.s] at hs
    simp only [List.mem_cons, List.not_mem_nil, or_false] at hs
    rcases hs with rfl | rfl <;> rfl
  rw [hrs]
  simp only [firstRow, rowOri, unpack, hun]
  simp only [ofNat_mod]
  simp only [Nat.reducePow, Nat.reduceMod, Nat.zero_mod, Nat.reduceBEq, beq_self_eq_true, Bool.and_self, if_true, bool_of_nat, hw, Option.bind_some, Bool.and_false, Bool.false_and, Bool.false_eq_true, if_false]
theorem xori (p : Pred) (d : BitVec 5) (a : BitVec 5) (i : BitVec 12) (lit : Option Word) : Statement (Instr.xori p d a i lit) := by
  intro sl hs hw
  refine decodeWord_row sl lit [(12, i.toNat), (5, a.toNat), (5, d.toNat), (1, p.ng.toNat), (3, p.qp.toNat)] 35 6 _ rfl rfl fun n hun => ?_
  simp only [List.cons_append, List.nil_append, List.map_cons, List.map_nil, unpack, List.cons.injEq] at hun
  have hrs : rowsOf sl (35 % 64) = [(6, rowXori)] := by
    change sl ∈ [Slot.c, Slot.s] at hs
    simp only [List.mem_cons, List.not_mem_nil, or_false] at hs
    rcases hs with rfl | rfl <;> rfl
  rw [hrs]
  simp only [firstRow, rowXori, unpack, hun]
  simp only [ofNat_mod]
  simp only [Nat.reducePow, Nat.reduceMod, Nat.zero_mod, Nat.reduceBEq, beq_self_eq_true, Bool.and_self, if_true, bool_of_nat, hw, Option.bind_some, Bool.and_false, Bool.false_and, Bool.false_eq_true, if_false]
theorem shli (p : Pred) (d : BitVec 5) (a : BitVec 5) (i : BitVec 12) (lit : Option Word) : Statement (Instr.shli p d a i lit) := by
  intro sl hs hw
  refine decodeWord_row sl lit [(12, i.toNat), (5, a.toNat), (5, d.toNat), (1, p.ng.toNat), (3, p.qp.toNat)] 36 6 _ rfl rfl fun n hun => ?_
  simp only [List.cons_append, List.nil_append, List.map_cons, List.map_nil, unpack, List.cons.injEq] at hun
  have hrs : rowsOf sl (36 % 64) = [(6, rowShli)] := by
    change sl ∈ [Slot.c, Slot.s] at hs
    simp only [List.mem_cons, List.not_mem_nil, or_false] at hs
    rcases hs with rfl | rfl <;> rfl
  rw [hrs]
  simp only [firstRow, rowShli, unpack, hun]
  simp only [ofNat_mod]
  simp only [Nat.reducePow, Nat.reduceMod, Nat.zero_mod, Nat.reduceBEq, beq_self_eq_true, Bool.and_self, if_true, bool_of_nat, hw, Option.bind_some, Bool.and_false, Bool.false_and, Bool.false_eq_true, if_false]
theorem shri (p : Pred) (d : BitVec 5) (a : BitVec 5) (i : BitVec 12) (lit : Option Word) : Statement (Instr.shri p d a i lit) := by
  intro sl hs hw
  refine decodeWord_row sl lit [(12, i.toNat), (5, a.toNat), (5, d.toNat), (1, p.ng.toNat), (3, p.qp.toNat)] 37 6 _ rfl rfl fun n hun => ?_
  simp only [List.cons_append, List.nil_append, List.map_cons, List.map_nil, unpack, List.cons.injEq] at hun
  have hrs : rowsOf sl (37 % 64) = [(6, rowShri)] := by
    change sl ∈ [Slot.c, Slot.s] at hs
    simp only [List.mem_cons, List.not_mem_nil, or_false] at hs
    rcases hs with rfl | rfl <;> rfl
  rw [hrs]
  simp only [firstRow, rowShri, unpack, hun]
  simp only [ofNat_mod]
  simp only [Nat.reducePow, Nat.reduceMod, Nat.zero_mod, Nat.reduceBEq, beq_self_eq_true, Bool.and_self, if_true, bool_of_nat, hw, Option.bind_some, Bool.and_false, Bool.false_and, Bool.false_eq_true, if_false]
theorem sari (p : Pred) (d : BitVec 5) (a : BitVec 5) (i : BitVec 12) (lit : Option Word) : Statement (Instr.sari p d a i lit) := by
  intro sl hs hw
  refine decodeWord_row sl lit [(12, i.toNat), (5, a.toNat), (5, d.toNat), (1, p.ng.toNat), (3, p.qp.toNat)] 38 6 _ rfl rfl fun n hun => ?_
  simp only [List.cons_append, List.nil_append, List.map_cons, List.map_nil, unpack, List.cons.injEq] at hun
  have hrs : rowsOf sl (38 % 64) = [(6, rowSari)] := by
    change sl ∈ [Slot.c, Slot.s] at hs
    simp only [List.mem_cons, List.not_mem_nil, or_false] at hs
    rcases hs with rfl | rfl <;> rfl
  rw [hrs]
  simp only [firstRow, rowSari, unpack, hun]
  simp only [ofNat_mod]
  simp only [Nat.reducePow, Nat.reduceMod, Nat.zero_mod, Nat.reduceBEq, beq_self_eq_true, Bool.and_self, if_true, bool_of_nat, hw, Option.bind_some, Bool.and_false, Bool.false_and, Bool.false_eq_true, if_false]
theorem cmpi (p : Pred) (c : BitVec 2) (q : BitVec 3) (a : BitVec 5) (i : BitVec 12) (lit : Option Word) : Statement (Instr.cmpi p c q a i lit) := by
  intro sl hs hw
  refine decodeWord_row sl lit [(12, i.toNat), (5, a.toNat), (3, q.toNat), (2, c.toNat), (1, p.ng.toNat), (3, p.qp.toNat)] 39 6 _ rfl rfl fun n hun => ?_
  simp only [List.cons_append, List.nil_append, List.map_cons, List.map_nil, unpack, List.cons.injEq] at hun
  have hrs : rowsOf sl (39 % 64) = [(6, rowCmpi)] := by
    change sl ∈ [Slot.c, Slot.s] at hs
    simp only [List.mem_cons, List.not_mem_nil, or_false] at hs
    rcases hs with rfl | rfl <;> rfl
  rw [hrs]
  simp only [firstRow, rowCmpi, unpack, hun]
  simp only [ofNat_mod]
  simp only [Nat.reducePow, Nat.reduceMod, Nat.zero_mod, Nat.reduceBEq, beq_self_eq_true, Bool.and_self, if_true, bool_of_nat, hw, Option.bind_some, Bool.and_false, Bool.false_and, Bool.false_eq_true, if_false]
theorem li (p : Pred) (d : BitVec 5) (i : BitVec 12) (lit : Option Word) : Statement (Instr.li p d i lit) := by
  intro sl hs hw
  refine decodeWord_row sl lit [(12, i.toNat), (5, 0), (5, d.toNat), (1, p.ng.toNat), (3, p.qp.toNat)] 40 11 _ rfl rfl fun n hun => ?_
  simp only [List.cons_append, List.nil_append, List.map_cons, List.map_nil, unpack, List.cons.injEq] at hun
  have hrs : rowsOf sl (40 % 64) = [(11, rowLi)] := by
    change sl ∈ [Slot.c, Slot.s] at hs
    simp only [List.mem_cons, List.not_mem_nil, or_false] at hs
    rcases hs with rfl | rfl <;> rfl
  rw [hrs]
  simp only [firstRow, rowLi, unpack, hun]
  simp only [ofNat_mod]
  simp only [Nat.reducePow, Nat.reduceMod, Nat.zero_mod, Nat.reduceBEq, beq_self_eq_true, Bool.and_self, if_true, bool_of_nat, hw, Option.bind_some, Bool.and_false, Bool.false_and, Bool.false_eq_true, if_false]
theorem lih (p : Pred) (d : BitVec 5) (i : BitVec 12) (lit : Option Word) : Statement (Instr.lih p d i lit) := by
  intro sl hs hw
  refine decodeWord_row sl lit [(12, i.toNat), (5, 0), (5, d.toNat), (1, p.ng.toNat), (3, p.qp.toNat)] 41 11 _ rfl rfl fun n hun => ?_
  simp only [List.cons_append, List.nil_append, List.map_cons, List.map_nil, unpack, List.cons.injEq] at hun
  have hrs : rowsOf sl (41 % 64) = [(11, rowLih)] := by
    change sl ∈ [Slot.c, Slot.s] at hs
    simp only [List.mem_cons, List.not_mem_nil, or_false] at hs
    rcases hs with rfl | rfl <;> rfl
  rw [hrs]
  simp only [firstRow, rowLih, unpack, hun]
  simp only [ofNat_mod]
  simp only [Nat.reducePow, Nat.reduceMod, Nat.zero_mod, Nat.reduceBEq, beq_self_eq_true, Bool.and_self, if_true, bool_of_nat, hw, Option.bind_some, Bool.and_false, Bool.false_and, Bool.false_eq_true, if_false]
theorem qlog (p : Pred) (d : BitVec 3) (a : BitVec 3) (b : BitVec 3) (t : BitVec 4) : Statement (Instr.qlog p d a b t) := by
  intro sl hs hw
  refine decodeWord_row sl none [(4, t.toNat), (3, 0), (3, b.toNat), (2, 0), (3, a.toNat), (2, 0), (3, d.toNat), (2, 0), (1, p.ng.toNat), (3, p.qp.toNat)] 42 15 _ rfl rfl fun n hun => ?_
  simp only [List.cons_append, List.nil_append, List.map_cons, List.map_nil, unpack, List.cons.injEq] at hun
  have hrs : rowsOf sl (42 % 64) = [(15, rowQlog)] := by
    change sl ∈ [Slot.c, Slot.s] at hs
    simp only [List.mem_cons, List.not_mem_nil, or_false] at hs
    rcases hs with rfl | rfl <;> rfl
  rw [hrs]
  simp only [firstRow, rowQlog, unpack, hun]
  simp only [ofNat_mod]
  simp only [Nat.reducePow, Nat.reduceMod, Nat.zero_mod, Nat.reduceBEq, beq_self_eq_true, Bool.and_self, if_true, bool_of_nat, hw, Option.bind_some, Bool.and_false, Bool.false_and, Bool.false_eq_true, if_false]
theorem pbr (p : Pred) (b : BitVec 3) (o : BitVec 19) (lit : Option Word) : Statement (Instr.pbr p b o lit) := by
  intro sl hs hw
  refine decodeWord_row sl lit [(19, o.toNat), (3, b.toNat), (1, p.ng.toNat), (3, p.qp.toNat)] 48 6 _ rfl rfl fun n hun => ?_
  simp only [List.cons_append, List.nil_append, List.map_cons, List.map_nil, unpack, List.cons.injEq] at hun
  have hrs : rowsOf sl (48 % 64) = [(6, rowPbr)] := by
    change sl ∈ [Slot.c] at hs
    simp only [List.mem_cons, List.not_mem_nil, or_false] at hs
    subst hs; rfl
  rw [hrs]
  simp only [firstRow, rowPbr, unpack, hun]
  simp only [ofNat_mod]
  simp only [Nat.reducePow, Nat.reduceMod, Nat.zero_mod, Nat.reduceBEq, beq_self_eq_true, Bool.and_self, if_true, bool_of_nat, hw, Option.bind_some, Bool.and_false, Bool.false_and, Bool.false_eq_true, if_false]
theorem pbx (p : Pred) (b : BitVec 3) (a : BitVec 5) : Statement (Instr.pbx p b a) := by
  intro sl hs hw
  refine decodeWord_row sl none [(12, 0), (5, a.toNat), (2, 0), (3, b.toNat), (1, p.ng.toNat), (3, p.qp.toNat)] 49 20 _ rfl rfl fun n hun => ?_
  simp only [List.cons_append, List.nil_append, List.map_cons, List.map_nil, unpack, List.cons.injEq] at hun
  have hrs : rowsOf sl (49 % 64) = [(20, rowPbx)] := by
    change sl ∈ [Slot.c] at hs
    simp only [List.mem_cons, List.not_mem_nil, or_false] at hs
    subst hs; rfl
  rw [hrs]
  simp only [firstRow, rowPbx, unpack, hun]
  simp only [ofNat_mod]
  simp only [Nat.reducePow, Nat.reduceMod, Nat.zero_mod, Nat.reduceBEq, beq_self_eq_true, Bool.and_self, if_true, bool_of_nat, hw, Option.bind_some, Bool.and_false, Bool.false_and, Bool.false_eq_true, if_false]
theorem br (p : Pred) (b : BitVec 3) : Statement (Instr.br p b) := by
  intro sl hs hw
  refine decodeWord_row sl none [(19, 0), (3, b.toNat), (1, p.ng.toNat), (3, p.qp.toNat)] 50 25 _ rfl rfl fun n hun => ?_
  simp only [List.cons_append, List.nil_append, List.map_cons, List.map_nil, unpack, List.cons.injEq] at hun
  have hrs : rowsOf sl (50 % 64) = [(25, rowBr)] := by
    change sl ∈ [Slot.c] at hs
    simp only [List.mem_cons, List.not_mem_nil, or_false] at hs
    subst hs; rfl
  rw [hrs]
  simp only [firstRow, rowBr, unpack, hun]
  simp only [ofNat_mod]
  simp only [Nat.reducePow, Nat.reduceMod, Nat.zero_mod, Nat.reduceBEq, beq_self_eq_true, Bool.and_self, if_true, bool_of_nat, hw, Option.bind_some, Bool.and_false, Bool.false_and, Bool.false_eq_true, if_false]
theorem call (p : Pred) (d : BitVec 5) (b : BitVec 3) : Statement (Instr.call p d b) := by
  intro sl hs hw
  refine decodeWord_row sl none [(7, 0), (3, b.toNat), (7, 0), (5, d.toNat), (1, p.ng.toNat), (3, p.qp.toNat)] 51 20 _ rfl rfl fun n hun => ?_
  simp only [List.cons_append, List.nil_append, List.map_cons, List.map_nil, unpack, List.cons.injEq] at hun
  have hrs : rowsOf sl (51 % 64) = [(20, rowCall)] := by
    change sl ∈ [Slot.c] at hs
    simp only [List.mem_cons, List.not_mem_nil, or_false] at hs
    subst hs; rfl
  rw [hrs]
  simp only [firstRow, rowCall, unpack, hun]
  simp only [ofNat_mod]
  simp only [Nat.reducePow, Nat.reduceMod, Nat.zero_mod, Nat.reduceBEq, beq_self_eq_true, Bool.and_self, if_true, bool_of_nat, hw, Option.bind_some, Bool.and_false, Bool.false_and, Bool.false_eq_true, if_false]
theorem loop (p : Pred) (b : BitVec 3) (a : BitVec 5) : Statement (Instr.loop p b a) := by
  intro sl hs hw
  refine decodeWord_row sl none [(12, 0), (5, a.toNat), (2, 0), (3, b.toNat), (1, p.ng.toNat), (3, p.qp.toNat)] 52 20 _ rfl rfl fun n hun => ?_
  simp only [List.cons_append, List.nil_append, List.map_cons, List.map_nil, unpack, List.cons.injEq] at hun
  have hrs : rowsOf sl (52 % 64) = [(20, rowLoop)] := by
    change sl ∈ [Slot.c] at hs
    simp only [List.mem_cons, List.not_mem_nil, or_false] at hs
    subst hs; rfl
  rw [hrs]
  simp only [firstRow, rowLoop, unpack, hun]
  simp only [ofNat_mod]
  simp only [Nat.reducePow, Nat.reduceMod, Nat.zero_mod, Nat.reduceBEq, beq_self_eq_true, Bool.and_self, if_true, bool_of_nat, hw, Option.bind_some, Bool.and_false, Bool.false_and, Bool.false_eq_true, if_false]
theorem vany (p : Pred) (d : BitVec 3) (a : BitVec 4) (b : BitVec 4) : Statement (Instr.vany p d a b) := by
  intro sl hs hw
  refine decodeWord_row sl none [(7, 0), (4, b.toNat), (1, 0), (4, a.toNat), (1, 0), (3, d.toNat), (2, 0), (1, p.ng.toNat), (3, p.qp.toNat)] 53 17 _ rfl rfl fun n hun => ?_
  simp only [List.cons_append, List.nil_append, List.map_cons, List.map_nil, unpack, List.cons.injEq] at hun
  have hrs : rowsOf sl (53 % 64) = [(17, rowVany)] := by
    change sl ∈ [Slot.c] at hs
    simp only [List.mem_cons, List.not_mem_nil, or_false] at hs
    subst hs; rfl
  rw [hrs]
  simp only [firstRow, rowVany, unpack, hun]
  simp only [ofNat_mod]
  simp only [Nat.reducePow, Nat.reduceMod, Nat.zero_mod, Nat.reduceBEq, beq_self_eq_true, Bool.and_self, if_true, bool_of_nat, hw, Option.bind_some, Bool.and_false, Bool.false_and, Bool.false_eq_true, if_false]
theorem vall (p : Pred) (d : BitVec 3) (a : BitVec 4) (b : BitVec 4) : Statement (Instr.vall p d a b) := by
  intro sl hs hw
  refine decodeWord_row sl none [(7, 0), (4, b.toNat), (1, 0), (4, a.toNat), (1, 0), (3, d.toNat), (2, 0), (1, p.ng.toNat), (3, p.qp.toNat)] 54 17 _ rfl rfl fun n hun => ?_
  simp only [List.cons_append, List.nil_append, List.map_cons, List.map_nil, unpack, List.cons.injEq] at hun
  have hrs : rowsOf sl (54 % 64) = [(17, rowVall)] := by
    change sl ∈ [Slot.c] at hs
    simp only [List.mem_cons, List.not_mem_nil, or_false] at hs
    subst hs; rfl
  rw [hrs]
  simp only [firstRow, rowVall, unpack, hun]
  simp only [ofNat_mod]
  simp only [Nat.reducePow, Nat.reduceMod, Nat.zero_mod, Nat.reduceBEq, beq_self_eq_true, Bool.and_self, if_true, bool_of_nat, hw, Option.bind_some, Bool.and_false, Bool.false_and, Bool.false_eq_true, if_false]
theorem tend (p : Pred) : Statement (Instr.tend p) := by
  intro sl hs hw
  refine decodeWord_row sl none [(22, 0), (1, p.ng.toNat), (3, p.qp.toNat)] 55 28 _ rfl rfl fun n hun => ?_
  simp only [List.cons_append, List.nil_append, List.map_cons, List.map_nil, unpack, List.cons.injEq] at hun
  have hrs : rowsOf sl (55 % 64) = [(28, rowTend)] := by
    change sl ∈ [Slot.c] at hs
    simp only [List.mem_cons, List.not_mem_nil, or_false] at hs
    subst hs; rfl
  rw [hrs]
  simp only [firstRow, rowTend, unpack, hun]
  simp only [ofNat_mod]
  simp only [Nat.reducePow, Nat.reduceMod, Nat.zero_mod, Nat.reduceBEq, beq_self_eq_true, Bool.and_self, if_true, bool_of_nat, hw, Option.bind_some, Bool.and_false, Bool.false_and, Bool.false_eq_true, if_false]
theorem trap (p : Pred) (c : BitVec 12) (lit : Option Word) : Statement (Instr.trap p c lit) := by
  intro sl hs hw
  refine decodeWord_row sl lit [(12, c.toNat), (10, 0), (1, p.ng.toNat), (3, p.qp.toNat)] 56 16 _ rfl rfl fun n hun => ?_
  simp only [List.cons_append, List.nil_append, List.map_cons, List.map_nil, unpack, List.cons.injEq] at hun
  have hrs : rowsOf sl (56 % 64) = [(16, rowTrap)] := by
    change sl ∈ [Slot.c] at hs
    simp only [List.mem_cons, List.not_mem_nil, or_false] at hs
    subst hs; rfl
  rw [hrs]
  simp only [firstRow, rowTrap, unpack, hun]
  simp only [ofNat_mod]
  simp only [Nat.reducePow, Nat.reduceMod, Nat.zero_mod, Nat.reduceBEq, beq_self_eq_true, Bool.and_self, if_true, bool_of_nat, hw, Option.bind_some, Bool.and_false, Bool.false_and, Bool.false_eq_true, if_false]
theorem brk (p : Pred) (c : BitVec 12) : Statement (Instr.brk p c) := by
  intro sl hs hw
  refine decodeWord_row sl none [(12, c.toNat), (10, 0), (1, p.ng.toNat), (3, p.qp.toNat)] 57 16 _ rfl rfl fun n hun => ?_
  simp only [List.cons_append, List.nil_append, List.map_cons, List.map_nil, unpack, List.cons.injEq] at hun
  have hrs : rowsOf sl (57 % 64) = [(16, rowBrk)] := by
    change sl ∈ [Slot.c] at hs
    simp only [List.mem_cons, List.not_mem_nil, or_false] at hs
    subst hs; rfl
  rw [hrs]
  simp only [firstRow, rowBrk, unpack, hun]
  simp only [ofNat_mod]
  simp only [Nat.reducePow, Nat.reduceMod, Nat.zero_mod, Nat.reduceBEq, beq_self_eq_true, Bool.and_self, if_true, bool_of_nat, hw, Option.bind_some, Bool.and_false, Bool.false_and, Bool.false_eq_true, if_false]
theorem nap (p : Pred) (a : BitVec 5) (i : BitVec 12) (lit : Option Word) : Statement (Instr.nap p a i lit) := by
  intro sl hs hw
  refine decodeWord_row sl lit [(12, i.toNat), (5, a.toNat), (5, 0), (1, p.ng.toNat), (3, p.qp.toNat)] 58 11 _ rfl rfl fun n hun => ?_
  simp only [List.cons_append, List.nil_append, List.map_cons, List.map_nil, unpack, List.cons.injEq] at hun
  have hrs : rowsOf sl (58 % 64) = [(11, rowNap)] := by
    change sl ∈ [Slot.c] at hs
    simp only [List.mem_cons, List.not_mem_nil, or_false] at hs
    subst hs; rfl
  rw [hrs]
  simp only [firstRow, rowNap, unpack, hun]
  simp only [ofNat_mod]
  simp only [Nat.reducePow, Nat.reduceMod, Nat.zero_mod, Nat.reduceBEq, beq_self_eq_true, Bool.and_self, if_true, bool_of_nat, hw, Option.bind_some, Bool.and_false, Bool.false_and, Bool.false_eq_true, if_false]
theorem srd (p : Pred) (d : BitVec 5) (r : BitVec 12) (lit : Option Word) : Statement (Instr.srd p d r lit) := by
  intro sl hs hw
  refine decodeWord_row sl lit [(12, r.toNat), (5, 0), (5, d.toNat), (1, p.ng.toNat), (3, p.qp.toNat)] 48 11 _ rfl rfl fun n hun => ?_
  simp only [List.cons_append, List.nil_append, List.map_cons, List.map_nil, unpack, List.cons.injEq] at hun
  have hrs : rowsOf sl (48 % 64) = [(11, rowSrd)] := by
    change sl ∈ [Slot.s] at hs
    simp only [List.mem_cons, List.not_mem_nil, or_false] at hs
    subst hs; rfl
  rw [hrs]
  simp only [firstRow, rowSrd, unpack, hun]
  simp only [ofNat_mod]
  simp only [Nat.reducePow, Nat.reduceMod, Nat.zero_mod, Nat.reduceBEq, beq_self_eq_true, Bool.and_self, if_true, bool_of_nat, hw, Option.bind_some, Bool.and_false, Bool.false_and, Bool.false_eq_true, if_false]
theorem swr (p : Pred) (a : BitVec 5) (r : BitVec 12) (lit : Option Word) : Statement (Instr.swr p a r lit) := by
  intro sl hs hw
  refine decodeWord_row sl lit [(12, r.toNat), (5, a.toNat), (5, 0), (1, p.ng.toNat), (3, p.qp.toNat)] 49 11 _ rfl rfl fun n hun => ?_
  simp only [List.cons_append, List.nil_append, List.map_cons, List.map_nil, unpack, List.cons.injEq] at hun
  have hrs : rowsOf sl (49 % 64) = [(11, rowSwr)] := by
    change sl ∈ [Slot.s] at hs
    simp only [List.mem_cons, List.not_mem_nil, or_false] at hs
    subst hs; rfl
  rw [hrs]
  simp only [firstRow, rowSwr, unpack, hun]
  simp only [ofNat_mod]
  simp only [Nat.reducePow, Nat.reduceMod, Nat.zero_mod, Nat.reduceBEq, beq_self_eq_true, Bool.and_self, if_true, bool_of_nat, hw, Option.bind_some, Bool.and_false, Bool.false_and, Bool.false_eq_true, if_false]
theorem fence (p : Pred) (c : BitVec 2) (e : BitVec 5) (f : BitVec 5) : Statement (Instr.fence p c e f) := by
  intro sl hs hw
  refine decodeWord_row sl none [(5, f.toNat), (5, e.toNat), (2, c.toNat), (10, 0), (1, p.ng.toNat), (3, p.qp.toNat)] 50 16 _ rfl rfl fun n hun => ?_
  simp only [List.cons_append, List.nil_append, List.map_cons, List.map_nil, unpack, List.cons.injEq] at hun
  have hrs : rowsOf sl (50 % 64) = [(16, rowFence)] := by
    change sl ∈ [Slot.s] at hs
    simp only [List.mem_cons, List.not_mem_nil, or_false] at hs
    subst hs; rfl
  rw [hrs]
  simp only [firstRow, rowFence, unpack, hun]
  simp only [ofNat_mod]
  simp only [Nat.reducePow, Nat.reduceMod, Nat.zero_mod, Nat.reduceBEq, beq_self_eq_true, Bool.and_self, if_true, bool_of_nat, hw, Option.bind_some, Bool.and_false, Bool.false_and, Bool.false_eq_true, if_false]
theorem tret (p : Pred) : Statement (Instr.tret p) := by
  intro sl hs hw
  refine decodeWord_row sl none [(22, 0), (1, p.ng.toNat), (3, p.qp.toNat)] 51 28 _ rfl rfl fun n hun => ?_
  simp only [List.cons_append, List.nil_append, List.map_cons, List.map_nil, unpack, List.cons.injEq] at hun
  have hrs : rowsOf sl (51 % 64) = [(28, rowTret), (28, rowTretSkip), (28, rowTretEnd), (23, rowTretTo)] := by
    change sl ∈ [Slot.s] at hs
    simp only [List.mem_cons, List.not_mem_nil, or_false] at hs
    subst hs; rfl
  rw [hrs]
  simp only [firstRow, rowTret, rowTretSkip, rowTretEnd, rowTretTo, unpack, hun]
  simp only [ofNat_mod]
  simp only [Nat.reducePow, Nat.reduceMod, Nat.zero_mod, Nat.reduceBEq, beq_self_eq_true, Bool.and_self, if_true, bool_of_nat, hw, Option.bind_some, Bool.and_false, Bool.false_and, Bool.false_eq_true, if_false]
theorem tretSkip (p : Pred) : Statement (Instr.tretSkip p) := by
  intro sl hs hw
  refine decodeWord_row sl none [(22, 1), (1, p.ng.toNat), (3, p.qp.toNat)] 51 28 _ rfl rfl fun n hun => ?_
  simp only [List.cons_append, List.nil_append, List.map_cons, List.map_nil, unpack, List.cons.injEq] at hun
  have hrs : rowsOf sl (51 % 64) = [(28, rowTret), (28, rowTretSkip), (28, rowTretEnd), (23, rowTretTo)] := by
    change sl ∈ [Slot.s] at hs
    simp only [List.mem_cons, List.not_mem_nil, or_false] at hs
    subst hs; rfl
  rw [hrs]
  simp only [firstRow, rowTret, rowTretSkip, rowTretEnd, rowTretTo, unpack, hun]
  simp only [ofNat_mod]
  simp only [Nat.reducePow, Nat.reduceMod, Nat.zero_mod, Nat.reduceBEq, beq_self_eq_true, Bool.and_self, if_true, bool_of_nat, hw, Option.bind_some, Bool.and_false, Bool.false_and, Bool.false_eq_true, if_false]
theorem tretEnd (p : Pred) : Statement (Instr.tretEnd p) := by
  intro sl hs hw
  refine decodeWord_row sl none [(22, 2), (1, p.ng.toNat), (3, p.qp.toNat)] 51 28 _ rfl rfl fun n hun => ?_
  simp only [List.cons_append, List.nil_append, List.map_cons, List.map_nil, unpack, List.cons.injEq] at hun
  have hrs : rowsOf sl (51 % 64) = [(28, rowTret), (28, rowTretSkip), (28, rowTretEnd), (23, rowTretTo)] := by
    change sl ∈ [Slot.s] at hs
    simp only [List.mem_cons, List.not_mem_nil, or_false] at hs
    subst hs; rfl
  rw [hrs]
  simp only [firstRow, rowTret, rowTretSkip, rowTretEnd, rowTretTo, unpack, hun]
  simp only [ofNat_mod]
  simp only [Nat.reducePow, Nat.reduceMod, Nat.zero_mod, Nat.reduceBEq, beq_self_eq_true, Bool.and_self, if_true, bool_of_nat, hw, Option.bind_some, Bool.and_false, Bool.false_and, Bool.false_eq_true, if_false]
theorem tretTo (p : Pred) (a : BitVec 5) : Statement (Instr.tretTo p a) := by
  intro sl hs hw
  refine decodeWord_row sl none [(12, 3), (5, a.toNat), (5, 0), (1, p.ng.toNat), (3, p.qp.toNat)] 51 23 _ rfl rfl fun n hun => ?_
  simp only [List.cons_append, List.nil_append, List.map_cons, List.map_nil, unpack, List.cons.injEq] at hun
  have hrs : rowsOf sl (51 % 64) = [(28, rowTret), (28, rowTretSkip), (28, rowTretEnd), (23, rowTretTo)] := by
    change sl ∈ [Slot.s] at hs
    simp only [List.mem_cons, List.not_mem_nil, or_false] at hs
    subst hs; rfl
  rw [hrs]
  have z0 : ¬ n % 2 ^ 22 = 0 := by have := hun.1; omega
  have z1 : ¬ n % 2 ^ 22 = 1 := by have := hun.1; omega
  have z2 : ¬ n % 2 ^ 22 = 2 := by have := hun.1; omega
  simp only [firstRow, rowTret, rowTretSkip, rowTretEnd, rowTretTo, unpack, hun, beq_eq_false_iff_ne.mpr z0, beq_eq_false_iff_ne.mpr z1, beq_eq_false_iff_ne.mpr z2, Bool.false_and, Bool.false_eq_true, if_false]
  simp only [ofNat_mod]
  simp only [Nat.reducePow, Nat.reduceMod, Nat.zero_mod, Nat.reduceBEq, beq_self_eq_true, Bool.and_self, if_true, bool_of_nat, hw, Option.bind_some, Bool.and_false, Bool.false_and, Bool.false_eq_true, if_false]
theorem sys (p : Pred) (s : BitVec 12) (lit : Option Word) : Statement (Instr.sys p s lit) := by
  intro sl hs hw
  refine decodeWord_row sl lit [(12, s.toNat), (10, 0), (1, p.ng.toNat), (3, p.qp.toNat)] 52 16 _ rfl rfl fun n hun => ?_
  simp only [List.cons_append, List.nil_append, List.map_cons, List.map_nil, unpack, List.cons.injEq] at hun
  have hrs : rowsOf sl (52 % 64) = [(16, rowSys)] := by
    change sl ∈ [Slot.s] at hs
    simp only [List.mem_cons, List.not_mem_nil, or_false] at hs
    subst hs; rfl
  rw [hrs]
  simp only [firstRow, rowSys, unpack, hun]
  simp only [ofNat_mod]
  simp only [Nat.reducePow, Nat.reduceMod, Nat.zero_mod, Nat.reduceBEq, beq_self_eq_true, Bool.and_self, if_true, bool_of_nat, hw, Option.bind_some, Bool.and_false, Bool.false_and, Bool.false_eq_true, if_false]
theorem xtovBc (p : Pred) (v : BitVec 6) (x : BitVec 5) (t : ElemType) : Statement (Instr.xtovBc p v x t) := by
  intro sl hs hw
  refine decodeWord_row sl none [(1, 0), (4, t.code), (6, 0), (5, x.toNat), (6, v.toNat), (1, p.ng.toNat), (3, p.qp.toNat)] 0 13 _ rfl rfl fun n hun => ?_
  simp only [List.cons_append, List.nil_append, List.map_cons, List.map_nil, unpack, List.cons.injEq] at hun
  have hrs : rowsOf sl (0 % 64) = [(13, rowXtovBc)] := by
    change sl ∈ [Slot.x] at hs
    simp only [List.mem_cons, List.not_mem_nil, or_false] at hs
    subst hs; rfl
  rw [hrs]
  simp only [firstRow, rowXtovBc, unpack, hun]
  simp only [ofNat_mod]
  simp only [Nat.reducePow, Nat.reduceMod, Nat.zero_mod, Nat.reduceBEq, beq_self_eq_true, Bool.and_self, if_true, bool_of_nat, hw, Option.bind_some, Bool.and_false, Bool.false_and, Bool.false_eq_true, if_false, elemOf_code]
theorem xtovIns (p : Pred) (v : BitVec 6) (x : BitVec 5) (l : BitVec 6) (t : ElemType) : Statement (Instr.xtovIns p v x l t) := by
  intro sl hs hw
  refine decodeWord_row sl none [(1, 0), (4, t.code), (6, l.toNat), (5, x.toNat), (6, v.toNat), (1, p.ng.toNat), (3, p.qp.toNat)] 1 7 _ rfl rfl fun n hun => ?_
  simp only [List.cons_append, List.nil_append, List.map_cons, List.map_nil, unpack, List.cons.injEq] at hun
  have hrs : rowsOf sl (1 % 64) = [(7, rowXtovIns)] := by
    change sl ∈ [Slot.x] at hs
    simp only [List.mem_cons, List.not_mem_nil, or_false] at hs
    subst hs; rfl
  rw [hrs]
  simp only [firstRow, rowXtovIns, unpack, hun]
  simp only [ofNat_mod]
  simp only [Nat.reducePow, Nat.reduceMod, Nat.zero_mod, Nat.reduceBEq, beq_self_eq_true, Bool.and_self, if_true, bool_of_nat, hw, Option.bind_some, Bool.and_false, Bool.false_and, Bool.false_eq_true, if_false, elemOf_code]
theorem vtox (p : Pred) (v : BitVec 6) (x : BitVec 5) (l : BitVec 6) (t : ElemType) : Statement (Instr.vtox p v x l t) := by
  intro sl hs hw
  refine decodeWord_row sl none [(1, 0), (4, t.code), (6, l.toNat), (5, x.toNat), (6, v.toNat), (1, p.ng.toNat), (3, p.qp.toNat)] 2 7 _ rfl rfl fun n hun => ?_
  simp only [List.cons_append, List.nil_append, List.map_cons, List.map_nil, unpack, List.cons.injEq] at hun
  have hrs : rowsOf sl (2 % 64) = [(7, rowVtox)] := by
    change sl ∈ [Slot.x] at hs
    simp only [List.mem_cons, List.not_mem_nil, or_false] at hs
    subst hs; rfl
  rw [hrs]
  simp only [firstRow, rowVtox, unpack, hun]
  simp only [ofNat_mod]
  simp only [Nat.reducePow, Nat.reduceMod, Nat.zero_mod, Nat.reduceBEq, beq_self_eq_true, Bool.and_self, if_true, bool_of_nat, hw, Option.bind_some, Bool.and_false, Bool.false_and, Bool.false_eq_true, if_false, elemOf_code]
theorem vtoxR (p : Pred) (v : BitVec 6) (x : BitVec 5) (b : BitVec 5) (t : ElemType) : Statement (Instr.vtoxR p v x b t) := by
  intro sl hs hw
  refine decodeWord_row sl none [(1, 0), (4, t.code), (1, 0), (5, b.toNat), (5, x.toNat), (6, v.toNat), (1, p.ng.toNat), (3, p.qp.toNat)] 3 8 _ rfl rfl fun n hun => ?_
  simp only [List.cons_append, List.nil_append, List.map_cons, List.map_nil, unpack, List.cons.injEq] at hun
  have hrs : rowsOf sl (3 % 64) = [(8, rowVtoxR)] := by
    change sl ∈ [Slot.x] at hs
    simp only [List.mem_cons, List.not_mem_nil, or_false] at hs
    subst hs; rfl
  rw [hrs]
  simp only [firstRow, rowVtoxR, unpack, hun]
  simp only [ofNat_mod]
  simp only [Nat.reducePow, Nat.reduceMod, Nat.zero_mod, Nat.reduceBEq, beq_self_eq_true, Bool.and_self, if_true, bool_of_nat, hw, Option.bind_some, Bool.and_false, Bool.false_and, Bool.false_eq_true, if_false, elemOf_code]
theorem ktox (p : Pred) (k : BitVec 4) (x : BitVec 5) : Statement (Instr.ktox p k x) := by
  intro sl hs hw
  refine decodeWord_row sl none [(11, 0), (5, x.toNat), (4, k.toNat), (2, 0), (1, p.ng.toNat), (3, p.qp.toNat)] 4 19 _ rfl rfl fun n hun => ?_
  simp only [List.cons_append, List.nil_append, List.map_cons, List.map_nil, unpack, List.cons.injEq] at hun
  have hrs : rowsOf sl (4 % 64) = [(19, rowKtox)] := by
    change sl ∈ [Slot.x] at hs
    simp only [List.mem_cons, List.not_mem_nil, or_false] at hs
    subst hs; rfl
  rw [hrs]
  simp only [firstRow, rowKtox, unpack, hun]
  simp only [ofNat_mod]
  simp only [Nat.reducePow, Nat.reduceMod, Nat.zero_mod, Nat.reduceBEq, beq_self_eq_true, Bool.and_self, if_true, bool_of_nat, hw, Option.bind_some, Bool.and_false, Bool.false_and, Bool.false_eq_true, if_false]
theorem xtok (p : Pred) (k : BitVec 4) (x : BitVec 5) : Statement (Instr.xtok p k x) := by
  intro sl hs hw
  refine decodeWord_row sl none [(11, 0), (5, x.toNat), (4, k.toNat), (2, 0), (1, p.ng.toNat), (3, p.qp.toNat)] 5 19 _ rfl rfl fun n hun => ?_
  simp only [List.cons_append, List.nil_append, List.map_cons, List.map_nil, unpack, List.cons.injEq] at hun
  have hrs : rowsOf sl (5 % 64) = [(19, rowXtok)] := by
    change sl ∈ [Slot.x] at hs
    simp only [List.mem_cons, List.not_mem_nil, or_false] at hs
    subst hs; rfl
  rw [hrs]
  simp only [firstRow, rowXtok, unpack, hun]
  simp only [ofNat_mod]
  simp only [Nat.reducePow, Nat.reduceMod, Nat.zero_mod, Nat.reduceBEq, beq_self_eq_true, Bool.and_self, if_true, bool_of_nat, hw, Option.bind_some, Bool.and_false, Bool.false_and, Bool.false_eq_true, if_false]
theorem spawn (p : Pred) (b : BitVec 3) (c : BitVec 2) (a : BitVec 5) : Statement (Instr.spawn p b c a) := by
  intro sl hs hw
  refine decodeWord_row sl none [(12, 0), (5, a.toNat), (2, c.toNat), (3, b.toNat), (1, p.ng.toNat), (3, p.qp.toNat)] 6 18 _ rfl rfl fun n hun => ?_
  simp only [List.cons_append, List.nil_append, List.map_cons, List.map_nil, unpack, List.cons.injEq] at hun
  have hrs : rowsOf sl (6 % 64) = [(18, rowSpawn)] := by
    change sl ∈ [Slot.x] at hs
    simp only [List.mem_cons, List.not_mem_nil, or_false] at hs
    subst hs; rfl
  rw [hrs]
  simp only [firstRow, rowSpawn, unpack, hun]
  simp only [ofNat_mod]
  simp only [Nat.reducePow, Nat.reduceMod, Nat.zero_mod, Nat.reduceBEq, beq_self_eq_true, Bool.and_self, if_true, bool_of_nat, hw, Option.bind_some, Bool.and_false, Bool.false_and, Bool.false_eq_true, if_false]
theorem binit (p : Pred) (a : BitVec 5) (b : BitVec 5) : Statement (Instr.binit p a b) := by
  intro sl hs hw
  refine decodeWord_row sl none [(7, 0), (5, b.toNat), (5, a.toNat), (5, 0), (1, p.ng.toNat), (3, p.qp.toNat)] 8 18 _ rfl rfl fun n hun => ?_
  simp only [List.cons_append, List.nil_append, List.map_cons, List.map_nil, unpack, List.cons.injEq] at hun
  have hrs : rowsOf sl (8 % 64) = [(18, rowBinit)] := by
    change sl ∈ [Slot.x] at hs
    simp only [List.mem_cons, List.not_mem_nil, or_false] at hs
    subst hs; rfl
  rw [hrs]
  simp only [firstRow, rowBinit, unpack, hun]
  simp only [ofNat_mod]
  simp only [Nat.reducePow, Nat.reduceMod, Nat.zero_mod, Nat.reduceBEq, beq_self_eq_true, Bool.and_self, if_true, bool_of_nat, hw, Option.bind_some, Bool.and_false, Bool.false_and, Bool.false_eq_true, if_false]
theorem barrive (p : Pred) (a : BitVec 5) : Statement (Instr.barrive p a) := by
  intro sl hs hw
  refine decodeWord_row sl none [(12, 0), (5, a.toNat), (5, 0), (1, p.ng.toNat), (3, p.qp.toNat)] 9 23 _ rfl rfl fun n hun => ?_
  simp only [List.cons_append, List.nil_append, List.map_cons, List.map_nil, unpack, List.cons.injEq] at hun
  have hrs : rowsOf sl (9 % 64) = [(23, rowBarrive)] := by
    change sl ∈ [Slot.x] at hs
    simp only [List.mem_cons, List.not_mem_nil, or_false] at hs
    subst hs; rfl
  rw [hrs]
  simp only [firstRow, rowBarrive, unpack, hun]
  simp only [ofNat_mod]
  simp only [Nat.reducePow, Nat.reduceMod, Nat.zero_mod, Nat.reduceBEq, beq_self_eq_true, Bool.and_self, if_true, bool_of_nat, hw, Option.bind_some, Bool.and_false, Bool.false_and, Bool.false_eq_true, if_false]
theorem bexpect (p : Pred) (a : BitVec 5) (b : BitVec 5) : Statement (Instr.bexpect p a b) := by
  intro sl hs hw
  refine decodeWord_row sl none [(7, 0), (5, b.toNat), (5, a.toNat), (5, 0), (1, p.ng.toNat), (3, p.qp.toNat)] 10 18 _ rfl rfl fun n hun => ?_
  simp only [List.cons_append, List.nil_append, List.map_cons, List.map_nil, unpack, List.cons.injEq] at hun
  have hrs : rowsOf sl (10 % 64) = [(18, rowBexpect)] := by
    change sl ∈ [Slot.x] at hs
    simp only [List.mem_cons, List.not_mem_nil, or_false] at hs
    subst hs; rfl
  rw [hrs]
  simp only [firstRow, rowBexpect, unpack, hun]
  simp only [ofNat_mod]
  simp only [Nat.reducePow, Nat.reduceMod, Nat.zero_mod, Nat.reduceBEq, beq_self_eq_true, Bool.and_self, if_true, bool_of_nat, hw, Option.bind_some, Bool.and_false, Bool.false_and, Bool.false_eq_true, if_false]
theorem bwait (p : Pred) (q : BitVec 3) (a : BitVec 5) (b : BitVec 5) : Statement (Instr.bwait p q a b) := by
  intro sl hs hw
  refine decodeWord_row sl none [(7, 0), (5, b.toNat), (5, a.toNat), (3, q.toNat), (2, 0), (1, p.ng.toNat), (3, p.qp.toNat)] 11 15 _ rfl rfl fun n hun => ?_
  simp only [List.cons_append, List.nil_append, List.map_cons, List.map_nil, unpack, List.cons.injEq] at hun
  have hrs : rowsOf sl (11 % 64) = [(15, rowBwait)] := by
    change sl ∈ [Slot.x] at hs
    simp only [List.mem_cons, List.not_mem_nil, or_false] at hs
    subst hs; rfl
  rw [hrs]
  simp only [firstRow, rowBwait, unpack, hun]
  simp only [ofNat_mod]
  simp only [Nat.reducePow, Nat.reduceMod, Nat.zero_mod, Nat.reduceBEq, beq_self_eq_true, Bool.and_self, if_true, bool_of_nat, hw, Option.bind_some, Bool.and_false, Bool.false_and, Bool.false_eq_true, if_false]
theorem btest (p : Pred) (d : BitVec 5) (a : BitVec 5) (h : Bool) : Statement (Instr.btest p d a h) := by
  intro sl hs hw
  refine decodeWord_row sl none [(1, h.toNat), (11, 0), (5, a.toNat), (5, d.toNat), (1, p.ng.toNat), (3, p.qp.toNat)] 12 17 _ rfl rfl fun n hun => ?_
  simp only [List.cons_append, List.nil_append, List.map_cons, List.map_nil, unpack, List.cons.injEq] at hun
  have hrs : rowsOf sl (12 % 64) = [(17, rowBtest)] := by
    change sl ∈ [Slot.x] at hs
    simp only [List.mem_cons, List.not_mem_nil, or_false] at hs
    subst hs; rfl
  rw [hrs]
  simp only [firstRow, rowBtest, unpack, hun]
  simp only [ofNat_mod]
  simp only [Nat.reducePow, Nat.reduceMod, Nat.zero_mod, Nat.reduceBEq, beq_self_eq_true, Bool.and_self, if_true, bool_of_nat, hw, Option.bind_some, Bool.and_false, Bool.false_and, Bool.false_eq_true, if_false]
theorem breset (p : Pred) (a : BitVec 5) : Statement (Instr.breset p a) := by
  intro sl hs hw
  refine decodeWord_row sl none [(12, 0), (5, a.toNat), (5, 0), (1, p.ng.toNat), (3, p.qp.toNat)] 13 23 _ rfl rfl fun n hun => ?_
  simp only [List.cons_append, List.nil_append, List.map_cons, List.map_nil, unpack, List.cons.injEq] at hun
  have hrs : rowsOf sl (13 % 64) = [(23, rowBreset)] := by
    change sl ∈ [Slot.x] at hs
    simp only [List.mem_cons, List.not_mem_nil, or_false] at hs
    subst hs; rfl
  rw [hrs]
  simp only [firstRow, rowBreset, unpack, hun]
  simp only [ofNat_mod]
  simp only [Nat.reducePow, Nat.reduceMod, Nat.zero_mod, Nat.reduceBEq, beq_self_eq_true, Bool.and_self, if_true, bool_of_nat, hw, Option.bind_some, Bool.and_false, Bool.false_and, Bool.false_eq_true, if_false]
theorem toksig (p : Pred) (a : BitVec 5) (b : BitVec 5) : Statement (Instr.toksig p a b) := by
  intro sl hs hw
  refine decodeWord_row sl none [(7, 0), (5, b.toNat), (5, a.toNat), (5, 0), (1, p.ng.toNat), (3, p.qp.toNat)] 16 18 _ rfl rfl fun n hun => ?_
  simp only [List.cons_append, List.nil_append, List.map_cons, List.map_nil, unpack, List.cons.injEq] at hun
  have hrs : rowsOf sl (16 % 64) = [(18, rowToksig)] := by
    change sl ∈ [Slot.x] at hs
    simp only [List.mem_cons, List.not_mem_nil, or_false] at hs
    subst hs; rfl
  rw [hrs]
  simp only [firstRow, rowToksig, unpack, hun]
  simp only [ofNat_mod]
  simp only [Nat.reducePow, Nat.reduceMod, Nat.zero_mod, Nat.reduceBEq, beq_self_eq_true, Bool.and_self, if_true, bool_of_nat, hw, Option.bind_some, Bool.and_false, Bool.false_and, Bool.false_eq_true, if_false]
theorem tokwait (p : Pred) (d : BitVec 5) (a : BitVec 5) : Statement (Instr.tokwait p d a) := by
  intro sl hs hw
  refine decodeWord_row sl none [(12, 0), (5, a.toNat), (5, d.toNat), (1, p.ng.toNat), (3, p.qp.toNat)] 17 18 _ rfl rfl fun n hun => ?_
  simp only [List.cons_append, List.nil_append, List.map_cons, List.map_nil, unpack, List.cons.injEq] at hun
  have hrs : rowsOf sl (17 % 64) = [(18, rowTokwait)] := by
    change sl ∈ [Slot.x] at hs
    simp only [List.mem_cons, List.not_mem_nil, or_false] at hs
    subst hs; rfl
  rw [hrs]
  simp only [firstRow, rowTokwait, unpack, hun]
  simp only [ofNat_mod]
  simp only [Nat.reducePow, Nat.reduceMod, Nat.zero_mod, Nat.reduceBEq, beq_self_eq_true, Bool.and_self, if_true, bool_of_nat, hw, Option.bind_some, Bool.and_false, Bool.false_and, Bool.false_eq_true, if_false]
theorem gstart (p : Pred) (a : BitVec 5) (b : BitVec 5) : Statement (Instr.gstart p a b) := by
  intro sl hs hw
  refine decodeWord_row sl none [(7, 0), (5, b.toNat), (5, a.toNat), (5, 0), (1, p.ng.toNat), (3, p.qp.toNat)] 18 18 _ rfl rfl fun n hun => ?_
  simp only [List.cons_append, List.nil_append, List.map_cons, List.map_nil, unpack, List.cons.injEq] at hun
  have hrs : rowsOf sl (18 % 64) = [(18, rowGstart)] := by
    change sl ∈ [Slot.x] at hs
    simp only [List.mem_cons, List.not_mem_nil, or_false] at hs
    subst hs; rfl
  rw [hrs]
  simp only [firstRow, rowGstart, unpack, hun]
  simp only [ofNat_mod]
  simp only [Nat.reducePow, Nat.reduceMod, Nat.zero_mod, Nat.reduceBEq, beq_self_eq_true, Bool.and_self, if_true, bool_of_nat, hw, Option.bind_some, Bool.and_false, Bool.false_and, Bool.false_eq_true, if_false]
theorem leaseReq (p : Pred) (d : BitVec 5) (a : BitVec 5) (b : BitVec 5) (c : BitVec 5) : Statement (Instr.leaseReq p d a b c) := by
  intro sl hs hw
  refine decodeWord_row sl none [(2, 0), (5, c.toNat), (5, b.toNat), (5, a.toNat), (5, d.toNat), (1, p.ng.toNat), (3, p.qp.toNat)] 24 8 _ rfl rfl fun n hun => ?_
  simp only [List.cons_append, List.nil_append, List.map_cons, List.map_nil, unpack, List.cons.injEq] at hun
  have hrs : rowsOf sl (24 % 64) = [(8, rowLeaseReq)] := by
    change sl ∈ [Slot.x] at hs
    simp only [List.mem_cons, List.not_mem_nil, or_false] at hs
    subst hs; rfl
  rw [hrs]
  simp only [firstRow, rowLeaseReq, unpack, hun]
  simp only [ofNat_mod]
  simp only [Nat.reducePow, Nat.reduceMod, Nat.zero_mod, Nat.reduceBEq, beq_self_eq_true, Bool.and_self, if_true, bool_of_nat, hw, Option.bind_some, Bool.and_false, Bool.false_and, Bool.false_eq_true, if_false]
theorem leaseRel (p : Pred) (a : BitVec 5) : Statement (Instr.leaseRel p a) := by
  intro sl hs hw
  refine decodeWord_row sl none [(12, 0), (5, a.toNat), (5, 0), (1, p.ng.toNat), (3, p.qp.toNat)] 25 23 _ rfl rfl fun n hun => ?_
  simp only [List.cons_append, List.nil_append, List.map_cons, List.map_nil, unpack, List.cons.injEq] at hun
  have hrs : rowsOf sl (25 % 64) = [(23, rowLeaseRel)] := by
    change sl ∈ [Slot.x] at hs
    simp only [List.mem_cons, List.not_mem_nil, or_false] at hs
    subst hs; rfl
  rw [hrs]
  simp only [firstRow, rowLeaseRel, unpack, hun]
  simp only [ofNat_mod]
  simp only [Nat.reducePow, Nat.reduceMod, Nat.zero_mod, Nat.reduceBEq, beq_self_eq_true, Bool.and_self, if_true, bool_of_nat, hw, Option.bind_some, Bool.and_false, Bool.false_and, Bool.false_eq_true, if_false]
theorem leaseQry (p : Pred) (d : BitVec 5) (a : BitVec 5) : Statement (Instr.leaseQry p d a) := by
  intro sl hs hw
  refine decodeWord_row sl none [(12, 0), (5, a.toNat), (5, d.toNat), (1, p.ng.toNat), (3, p.qp.toNat)] 26 18 _ rfl rfl fun n hun => ?_
  simp only [List.cons_append, List.nil_append, List.map_cons, List.map_nil, unpack, List.cons.injEq] at hun
  have hrs : rowsOf sl (26 % 64) = [(18, rowLeaseQry)] := by
    change sl ∈ [Slot.x] at hs
    simp only [List.mem_cons, List.not_mem_nil, or_false] at hs
    subst hs; rfl
  rw [hrs]
  simp only [firstRow, rowLeaseQry, unpack, hun]
  simp only [ofNat_mod]
  simp only [Nat.reducePow, Nat.reduceMod, Nat.zero_mod, Nat.reduceBEq, beq_self_eq_true, Bool.and_self, if_true, bool_of_nat, hw, Option.bind_some, Bool.and_false, Bool.false_and, Bool.false_eq_true, if_false]
theorem mqpush (p : Pred) (v : BitVec 6) (s : BitVec 3) : Statement (Instr.mqpush p v s) := by
  intro sl hs hw
  refine decodeWord_row sl none [(13, 0), (3, s.toNat), (6, v.toNat), (1, p.ng.toNat), (3, p.qp.toNat)] 32 19 _ rfl rfl fun n hun => ?_
  simp only [List.cons_append, List.nil_append, List.map_cons, List.map_nil, unpack, List.cons.injEq] at hun
  have hrs : rowsOf sl (32 % 64) = [(19, rowMqpush)] := by
    change sl ∈ [Slot.x] at hs
    simp only [List.mem_cons, List.not_mem_nil, or_false] at hs
    subst hs; rfl
  rw [hrs]
  simp only [firstRow, rowMqpush, unpack, hun]
  simp only [ofNat_mod]
  simp only [Nat.reducePow, Nat.reduceMod, Nat.zero_mod, Nat.reduceBEq, beq_self_eq_true, Bool.and_self, if_true, bool_of_nat, hw, Option.bind_some, Bool.and_false, Bool.false_and, Bool.false_eq_true, if_false]
theorem mqstat (p : Pred) (d : BitVec 5) (s : BitVec 3) : Statement (Instr.mqstat p d s) := by
  intro sl hs hw
  refine decodeWord_row sl none [(13, 0), (3, s.toNat), (1, 0), (5, d.toNat), (1, p.ng.toNat), (3, p.qp.toNat)] 33 20 _ rfl rfl fun n hun => ?_
  simp only [List.cons_append, List.nil_append, List.map_cons, List.map_nil, unpack, List.cons.injEq] at hun
  have hrs : rowsOf sl (33 % 64) = [(20, rowMqstat)] := by
    change sl ∈ [Slot.x] at hs
    simp only [List.mem_cons, List.not_mem_nil, or_false] at hs
    subst hs; rfl
  rw [hrs]
  simp only [firstRow, rowMqstat, unpack, hun]
  simp only [ofNat_mod]
  simp only [Nat.reducePow, Nat.reduceMod, Nat.zero_mod, Nat.reduceBEq, beq_self_eq_true, Bool.and_self, if_true, bool_of_nat, hw, Option.bind_some, Bool.and_false, Bool.false_and, Bool.false_eq_true, if_false]
theorem sbind (p : Pred) (w : BitVec 4) (a : BitVec 5) (b : BitVec 5) (r : BitVec 2) (h : BitVec 2) : Statement (Instr.sbind p w a b r h) := by
  intro sl hs hw
  refine decodeWord_row sl none [(4, 0), (2, h.toNat), (2, r.toNat), (5, b.toNat), (5, a.toNat), (4, w.toNat), (1, p.ng.toNat), (3, p.qp.toNat)] 0 10 _ rfl rfl fun n hun => ?_
  simp only [List.cons_append, List.nil_append, List.map_cons, List.map_nil, unpack, List.cons.injEq] at hun
  have hrs : rowsOf sl (0 % 64) = [(10, rowSbind)] := by
    change sl ∈ [Slot.t] at hs
    simp only [List.mem_cons, List.not_mem_nil, or_false] at hs
    subst hs; rfl
  rw [hrs]
  simp only [firstRow, rowSbind, unpack, hun]
  simp only [ofNat_mod]
  simp only [Nat.reducePow, Nat.reduceMod, Nat.zero_mod, Nat.reduceBEq, beq_self_eq_true, Bool.and_self, if_true, bool_of_nat, hw, Option.bind_some, Bool.and_false, Bool.false_and, Bool.false_eq_true, if_false]
theorem sprobe (p : Pred) (w : BitVec 4) (a : BitVec 5) (b : BitVec 5) (h : BitVec 2) (q : BitVec 3) (f : Bool) : Statement (Instr.sprobe p w a b h q f) := by
  intro sl hs hw
  refine decodeWord_row sl none [(1, f.toNat), (3, q.toNat), (2, h.toNat), (2, 1), (5, b.toNat), (5, a.toNat), (4, w.toNat), (1, p.ng.toNat), (3, p.qp.toNat)] 1 8 _ rfl rfl fun n hun => ?_
  simp only [List.cons_append, List.nil_append, List.map_cons, List.map_nil, unpack, List.cons.injEq] at hun
  have hrs : rowsOf sl (1 % 64) = [(8, rowSprobe)] := by
    change sl ∈ [Slot.t] at hs
    simp only [List.mem_cons, List.not_mem_nil, or_false] at hs
    subst hs; rfl
  rw [hrs]
  simp only [firstRow, rowSprobe, unpack, hun]
  simp only [ofNat_mod]
  simp only [Nat.reducePow, Nat.reduceMod, Nat.zero_mod, Nat.reduceBEq, beq_self_eq_true, Bool.and_self, if_true, bool_of_nat, hw, Option.bind_some, Bool.and_false, Bool.false_and, Bool.false_eq_true, if_false]
theorem snew (p : Pred) (w : BitVec 4) (a : BitVec 5) (b : BitVec 5) (c : Bool) (x : Bool) : Statement (Instr.snew p w a b c x) := by
  intro sl hs hw
  refine decodeWord_row sl none [(6, 0), (1, x.toNat), (1, c.toNat), (5, b.toNat), (5, a.toNat), (4, w.toNat), (1, p.ng.toNat), (3, p.qp.toNat)] 2 12 _ rfl rfl fun n hun => ?_
  simp only [List.cons_append, List.nil_append, List.map_cons, List.map_nil, unpack, List.cons.injEq] at hun
  have hrs : rowsOf sl (2 % 64) = [(12, rowSnew)] := by
    change sl ∈ [Slot.t] at hs
    simp only [List.mem_cons, List.not_mem_nil, or_false] at hs
    subst hs; rfl
  rw [hrs]
  simp only [firstRow, rowSnew, unpack, hun]
  simp only [ofNat_mod]
  simp only [Nat.reducePow, Nat.reduceMod, Nat.zero_mod, Nat.reduceBEq, beq_self_eq_true, Bool.and_self, if_true, bool_of_nat, hw, Option.bind_some, Bool.and_false, Bool.false_and, Bool.false_eq_true, if_false]
theorem spub (p : Pred) (w : BitVec 4) : Statement (Instr.spub p w) := by
  intro sl hs hw
  refine decodeWord_row sl none [(18, 0), (4, w.toNat), (1, p.ng.toNat), (3, p.qp.toNat)] 3 24 _ rfl rfl fun n hun => ?_
  simp only [List.cons_append, List.nil_append, List.map_cons, List.map_nil, unpack, List.cons.injEq] at hun
  have hrs : rowsOf sl (3 % 64) = [(24, rowSpub)] := by
    change sl ∈ [Slot.t] at hs
    simp only [List.mem_cons, List.not_mem_nil, or_false] at hs
    subst hs; rfl
  rw [hrs]
  simp only [firstRow, rowSpub, unpack, hun]
  simp only [ofNat_mod]
  simp only [Nat.reducePow, Nat.reduceMod, Nat.zero_mod, Nat.reduceBEq, beq_self_eq_true, Bool.and_self, if_true, bool_of_nat, hw, Option.bind_some, Bool.and_false, Bool.false_and, Bool.false_eq_true, if_false]
theorem srel (p : Pred) (w : BitVec 4) : Statement (Instr.srel p w) := by
  intro sl hs hw
  refine decodeWord_row sl none [(18, 0), (4, w.toNat), (1, p.ng.toNat), (3, p.qp.toNat)] 4 24 _ rfl rfl fun n hun => ?_
  simp only [List.cons_append, List.nil_append, List.map_cons, List.map_nil, unpack, List.cons.injEq] at hun
  have hrs : rowsOf sl (4 % 64) = [(24, rowSrel)] := by
    change sl ∈ [Slot.t] at hs
    simp only [List.mem_cons, List.not_mem_nil, or_false] at hs
    subst hs; rfl
  rw [hrs]
  simp only [firstRow, rowSrel, unpack, hun]
  simp only [ofNat_mod]
  simp only [Nat.reducePow, Nat.reduceMod, Nat.zero_mod, Nat.reduceBEq, beq_self_eq_true, Bool.and_self, if_true, bool_of_nat, hw, Option.bind_some, Bool.and_false, Bool.false_and, Bool.false_eq_true, if_false]
theorem spin (p : Pred) (w : BitVec 4) : Statement (Instr.spin p w) := by
  intro sl hs hw
  refine decodeWord_row sl none [(18, 0), (4, w.toNat), (1, p.ng.toNat), (3, p.qp.toNat)] 5 24 _ rfl rfl fun n hun => ?_
  simp only [List.cons_append, List.nil_append, List.map_cons, List.map_nil, unpack, List.cons.injEq] at hun
  have hrs : rowsOf sl (5 % 64) = [(24, rowSpin), (14, rowSpinRef)] := by
    change sl ∈ [Slot.t] at hs
    simp only [List.mem_cons, List.not_mem_nil, or_false] at hs
    subst hs; rfl
  rw [hrs]
  simp only [firstRow, rowSpin, rowSpinRef, unpack, hun]
  simp only [ofNat_mod]
  simp only [Nat.reducePow, Nat.reduceMod, Nat.zero_mod, Nat.reduceBEq, beq_self_eq_true, Bool.and_self, if_true, bool_of_nat, hw, Option.bind_some, Bool.and_false, Bool.false_and, Bool.false_eq_true, if_false]
theorem spinRef (p : Pred) (a : BitVec 5) (b : BitVec 5) (r : BitVec 2) (h : BitVec 2) : Statement (Instr.spinRef p a b r h) := by
  intro sl hs hw
  refine decodeWord_row sl none [(4, 8), (2, h.toNat), (2, r.toNat), (5, b.toNat), (5, a.toNat), (4, 0), (1, p.ng.toNat), (3, p.qp.toNat)] 5 14 _ rfl rfl fun n hun => ?_
  simp only [List.cons_append, List.nil_append, List.map_cons, List.map_nil, unpack, List.cons.injEq] at hun
  have hrs : rowsOf sl (5 % 64) = [(24, rowSpin), (14, rowSpinRef)] := by
    change sl ∈ [Slot.t] at hs
    simp only [List.mem_cons, List.not_mem_nil, or_false] at hs
    subst hs; rfl
  rw [hrs]
  have z0 : ¬ n % 2 ^ 18 = 0 := by have := hun.1; omega
  simp only [firstRow, rowSpin, rowSpinRef, unpack, hun, beq_eq_false_iff_ne.mpr z0, Bool.false_and, Bool.false_eq_true, if_false]
  simp only [ofNat_mod]
  simp only [Nat.reducePow, Nat.reduceMod, Nat.zero_mod, Nat.reduceBEq, beq_self_eq_true, Bool.and_self, if_true, bool_of_nat, hw, Option.bind_some, Bool.and_false, Bool.false_and, Bool.false_eq_true, if_false]
theorem sunpin (p : Pred) (w : BitVec 4) : Statement (Instr.sunpin p w) := by
  intro sl hs hw
  refine decodeWord_row sl none [(18, 0), (4, w.toNat), (1, p.ng.toNat), (3, p.qp.toNat)] 6 24 _ rfl rfl fun n hun => ?_
  simp only [List.cons_append, List.nil_append, List.map_cons, List.map_nil, unpack, List.cons.injEq] at hun
  have hrs : rowsOf sl (6 % 64) = [(24, rowSunpin), (18, rowSunpinRef)] := by
    change sl ∈ [Slot.t] at hs
    simp only [List.mem_cons, List.not_mem_nil, or_false] at hs
    subst hs; rfl
  rw [hrs]
  simp only [firstRow, rowSunpin, rowSunpinRef, unpack, hun]
  simp only [ofNat_mod]
  simp only [Nat.reducePow, Nat.reduceMod, Nat.zero_mod, Nat.reduceBEq, beq_self_eq_true, Bool.and_self, if_true, bool_of_nat, hw, Option.bind_some, Bool.and_false, Bool.false_and, Bool.false_eq_true, if_false]
theorem sunpinRef (p : Pred) (a : BitVec 5) (b : BitVec 5) : Statement (Instr.sunpinRef p a b) := by
  intro sl hs hw
  refine decodeWord_row sl none [(8, 8), (5, b.toNat), (5, a.toNat), (4, 0), (1, p.ng.toNat), (3, p.qp.toNat)] 6 18 _ rfl rfl fun n hun => ?_
  simp only [List.cons_append, List.nil_append, List.map_cons, List.map_nil, unpack, List.cons.injEq] at hun
  have hrs : rowsOf sl (6 % 64) = [(24, rowSunpin), (18, rowSunpinRef)] := by
    change sl ∈ [Slot.t] at hs
    simp only [List.mem_cons, List.not_mem_nil, or_false] at hs
    subst hs; rfl
  rw [hrs]
  have z0 : ¬ n % 2 ^ 18 = 0 := by have := hun.1; omega
  simp only [firstRow, rowSunpin, rowSunpinRef, unpack, hun, beq_eq_false_iff_ne.mpr z0, Bool.false_and, Bool.false_eq_true, if_false]
  simp only [ofNat_mod]
  simp only [Nat.reducePow, Nat.reduceMod, Nat.zero_mod, Nat.reduceBEq, beq_self_eq_true, Bool.and_self, if_true, bool_of_nat, hw, Option.bind_some, Bool.and_false, Bool.false_and, Bool.false_eq_true, if_false]
theorem sseek (p : Pred) (w : BitVec 4) (a : BitVec 5) (i : BitVec 12) (lit : Option Word) : Statement (Instr.sseek p w a i lit) := by
  intro sl hs hw
  refine decodeWord_row sl lit [(12, i.toNat), (5, a.toNat), (1, 0), (4, w.toNat), (1, p.ng.toNat), (3, p.qp.toNat)] 7 7 _ rfl rfl fun n hun => ?_
  simp only [List.cons_append, List.nil_append, List.map_cons, List.map_nil, unpack, List.cons.injEq] at hun
  have hrs : rowsOf sl (7 % 64) = [(7, rowSseek)] := by
    change sl ∈ [Slot.t] at hs
    simp only [List.mem_cons, List.not_mem_nil, or_false] at hs
    subst hs; rfl
  rw [hrs]
  simp only [firstRow, rowSseek, unpack, hun]
  simp only [ofNat_mod]
  simp only [Nat.reducePow, Nat.reduceMod, Nat.zero_mod, Nat.reduceBEq, beq_self_eq_true, Bool.and_self, if_true, bool_of_nat, hw, Option.bind_some, Bool.and_false, Bool.false_and, Bool.false_eq_true, if_false]
theorem sinfo (p : Pred) (d : BitVec 5) (w : BitVec 4) (t : BitVec 4) : Statement (Instr.sinfo p d w t) := by
  intro sl hs hw
  refine decodeWord_row sl none [(4, 0), (4, t.toNat), (5, 0), (4, w.toNat), (5, d.toNat), (1, p.ng.toNat), (3, p.qp.toNat)] 8 15 _ rfl rfl fun n hun => ?_
  simp only [List.cons_append, List.nil_append, List.map_cons, List.map_nil, unpack, List.cons.injEq] at hun
  have hrs : rowsOf sl (8 % 64) = [(15, rowSinfo)] := by
    change sl ∈ [Slot.t] at hs
    simp only [List.mem_cons, List.not_mem_nil, or_false] at hs
    subst hs; rfl
  rw [hrs]
  simp only [firstRow, rowSinfo, unpack, hun]
  simp only [ofNat_mod]
  simp only [Nat.reducePow, Nat.reduceMod, Nat.zero_mod, Nat.reduceBEq, beq_self_eq_true, Bool.and_self, if_true, bool_of_nat, hw, Option.bind_some, Bool.and_false, Bool.false_and, Bool.false_eq_true, if_false]
theorem sedge (p : Pred) (w : BitVec 4) (a : BitVec 5) (b : BitVec 5) : Statement (Instr.sedge p w a b) := by
  intro sl hs hw
  refine decodeWord_row sl none [(8, 0), (5, b.toNat), (5, a.toNat), (4, w.toNat), (1, p.ng.toNat), (3, p.qp.toNat)] 9 14 _ rfl rfl fun n hun => ?_
  simp only [List.cons_append, List.nil_append, List.map_cons, List.map_nil, unpack, List.cons.injEq] at hun
  have hrs : rowsOf sl (9 % 64) = [(14, rowSedge)] := by
    change sl ∈ [Slot.t] at hs
    simp only [List.mem_cons, List.not_mem_nil, or_false] at hs
    subst hs; rfl
  rw [hrs]
  simp only [firstRow, rowSedge, unpack, hun]
  simp only [ofNat_mod]
  simp only [Nat.reducePow, Nat.reduceMod, Nat.zero_mod, Nat.reduceBEq, beq_self_eq_true, Bool.and_self, if_true, bool_of_nat, hw, Option.bind_some, Bool.and_false, Bool.false_and, Bool.false_eq_true, if_false]
theorem tldv (p : Pred) (v : BitVec 6) (w : BitVec 4) (k : BitVec 4) (h : Bool) : Statement (Instr.tldv p v w k h) := by
  intro sl hs hw
  refine decodeWord_row sl none [(7, 0), (1, h.toNat), (4, k.toNat), (4, w.toNat), (6, v.toNat), (1, p.ng.toNat), (3, p.qp.toNat)] 10 13 _ rfl rfl fun n hun => ?_
  simp only [List.cons_append, List.nil_append, List.map_cons, List.map_nil, unpack, List.cons.injEq] at hun
  have hrs : rowsOf sl (10 % 64) = [(13, rowTldv)] := by
    change sl ∈ [Slot.t] at hs
    simp only [List.mem_cons, List.not_mem_nil, or_false] at hs
    subst hs; rfl
  rw [hrs]
  simp only [firstRow, rowTldv, unpack, hun]
  simp only [ofNat_mod]
  simp only [Nat.reducePow, Nat.reduceMod, Nat.zero_mod, Nat.reduceBEq, beq_self_eq_true, Bool.and_self, if_true, bool_of_nat, hw, Option.bind_some, Bool.and_false, Bool.false_and, Bool.false_eq_true, if_false]
theorem tstv (p : Pred) (v : BitVec 6) (w : BitVec 4) (k : BitVec 4) (h : Bool) : Statement (Instr.tstv p v w k h) := by
  intro sl hs hw
  refine decodeWord_row sl none [(7, 0), (1, h.toNat), (4, k.toNat), (4, w.toNat), (6, v.toNat), (1, p.ng.toNat), (3, p.qp.toNat)] 11 13 _ rfl rfl fun n hun => ?_
  simp only [List.cons_append, List.nil_append, List.map_cons, List.map_nil, unpack, List.cons.injEq] at hun
  have hrs : rowsOf sl (11 % 64) = [(13, rowTstv)] := by
    change sl ∈ [Slot.t] at hs
    simp only [List.mem_cons, List.not_mem_nil, or_false] at hs
    subst hs; rfl
  rw [hrs]
  simp only [firstRow, rowTstv, unpack, hun]
  simp only [ofNat_mod]
  simp only [Nat.reducePow, Nat.reduceMod, Nat.zero_mod, Nat.reduceBEq, beq_self_eq_true, Bool.and_self, if_true, bool_of_nat, hw, Option.bind_some, Bool.and_false, Bool.false_and, Bool.false_eq_true, if_false]
theorem tldx (p : Pred) (v : BitVec 6) (w : BitVec 4) (k : BitVec 4) (a : BitVec 5) : Statement (Instr.tldx p v w k a) := by
  intro sl hs hw
  refine decodeWord_row sl none [(3, 0), (5, a.toNat), (4, k.toNat), (4, w.toNat), (6, v.toNat), (1, p.ng.toNat), (3, p.qp.toNat)] 12 9 _ rfl rfl fun n hun => ?_
  simp only [List.cons_append, List.nil_append, List.map_cons, List.map_nil, unpack, List.cons.injEq] at hun
  have hrs : rowsOf sl (12 % 64) = [(9, rowTldx)] := by
    change sl ∈ [Slot.t] at hs
    simp only [List.mem_cons, List.not_mem_nil, or_false] at hs
    subst hs; rfl
  rw [hrs]
  simp only [firstRow, rowTldx, unpack, hun]
  simp only [ofNat_mod]
  simp only [Nat.reducePow, Nat.reduceMod, Nat.zero_mod, Nat.reduceBEq, beq_self_eq_true, Bool.and_self, if_true, bool_of_nat, hw, Option.bind_some, Bool.and_false, Bool.false_and, Bool.false_eq_true, if_false]
theorem twb (p : Pred) (w : BitVec 4) : Statement (Instr.twb p w) := by
  intro sl hs hw
  refine decodeWord_row sl none [(18, 0), (4, w.toNat), (1, p.ng.toNat), (3, p.qp.toNat)] 13 24 _ rfl rfl fun n hun => ?_
  simp only [List.cons_append, List.nil_append, List.map_cons, List.map_nil, unpack, List.cons.injEq] at hun
  have hrs : rowsOf sl (13 % 64) = [(24, rowTwb)] := by
    change sl ∈ [Slot.t] at hs
    simp only [List.mem_cons, List.not_mem_nil, or_false] at hs
    subst hs; rfl
  rw [hrs]
  simp only [firstRow, rowTwb, unpack, hun]
  simp only [ofNat_mod]
  simp only [Nat.reducePow, Nat.reduceMod, Nat.zero_mod, Nat.reduceBEq, beq_self_eq_true, Bool.and_self, if_true, bool_of_nat, hw, Option.bind_some, Bool.and_false, Bool.false_and, Bool.false_eq_true, if_false]
theorem tpref (p : Pred) (a : BitVec 5) (i : BitVec 12) (lit : Option Word) : Statement (Instr.tpref p a i lit) := by
  intro sl hs hw
  refine decodeWord_row sl lit [(12, i.toNat), (5, a.toNat), (5, 0), (1, p.ng.toNat), (3, p.qp.toNat)] 14 11 _ rfl rfl fun n hun => ?_
  simp only [List.cons_append, List.nil_append, List.map_cons, List.map_nil, unpack, List.cons.injEq] at hun
  have hrs : rowsOf sl (14 % 64) = [(11, rowTpref)] := by
    change sl ∈ [Slot.t] at hs
    simp only [List.mem_cons, List.not_mem_nil, or_false] at hs
    subst hs; rfl
  rw [hrs]
  simp only [firstRow, rowTpref, unpack, hun]
  simp only [ofNat_mod]
  simp only [Nat.reducePow, Nat.reduceMod, Nat.zero_mod, Nat.reduceBEq, beq_self_eq_true, Bool.and_self, if_true, bool_of_nat, hw, Option.bind_some, Bool.and_false, Bool.false_and, Bool.false_eq_true, if_false]
theorem wayconv (p : Pred) (d : BitVec 5) (i : BitVec 12) (lit : Option Word) : Statement (Instr.wayconv p d i lit) := by
  intro sl hs hw
  refine decodeWord_row sl lit [(12, i.toNat), (5, 0), (5, d.toNat), (1, p.ng.toNat), (3, p.qp.toNat)] 15 11 _ rfl rfl fun n hun => ?_
  simp only [List.cons_append, List.nil_append, List.map_cons, List.map_nil, unpack, List.cons.injEq] at hun
  have hrs : rowsOf sl (15 % 64) = [(11, rowWayconv)] := by
    change sl ∈ [Slot.t] at hs
    simp only [List.mem_cons, List.not_mem_nil, or_false] at hs
    subst hs; rfl
  rw [hrs]
  simp only [firstRow, rowWayconv, unpack, hun]
  simp only [ofNat_mod]
  simp only [Nat.reducePow, Nat.reduceMod, Nat.zero_mod, Nat.reduceBEq, beq_self_eq_true, Bool.and_self, if_true, bool_of_nat, hw, Option.bind_some, Bool.and_false, Bool.false_and, Bool.false_eq_true, if_false]
theorem wayrest (p : Pred) (d : BitVec 5) (i : BitVec 12) (lit : Option Word) : Statement (Instr.wayrest p d i lit) := by
  intro sl hs hw
  refine decodeWord_row sl lit [(12, i.toNat), (5, 0), (5, d.toNat), (1, p.ng.toNat), (3, p.qp.toNat)] 16 11 _ rfl rfl fun n hun => ?_
  simp only [List.cons_append, List.nil_append, List.map_cons, List.map_nil, unpack, List.cons.injEq] at hun
  have hrs : rowsOf sl (16 % 64) = [(11, rowWayrest)] := by
    change sl ∈ [Slot.t] at hs
    simp only [List.mem_cons, List.not_mem_nil, or_false] at hs
    subst hs; rfl
  rw [hrs]
  simp only [firstRow, rowWayrest, unpack, hun]
  simp only [ofNat_mod]
  simp only [Nat.reducePow, Nat.reduceMod, Nat.zero_mod, Nat.reduceBEq, beq_self_eq_true, Bool.and_self, if_true, bool_of_nat, hw, Option.bind_some, Bool.and_false, Bool.false_and, Bool.false_eq_true, if_false]
theorem lds (p : Pred) (d : BitVec 5) (a : BitVec 5) (z : BitVec 2) (s : Bool) (o : BitVec 9) (lit : Option Word) : Statement (Instr.lds p d a z s o lit) := by
  intro sl hs hw
  refine decodeWord_row sl lit [(9, o.toNat), (1, s.toNat), (2, z.toNat), (5, a.toNat), (5, d.toNat), (1, p.ng.toNat), (3, p.qp.toNat)] 17 6 _ rfl rfl fun n hun => ?_
  simp only [List.cons_append, List.nil_append, List.map_cons, List.map_nil, unpack, List.cons.injEq] at hun
  have hrs : rowsOf sl (17 % 64) = [(6, rowLds)] := by
    change sl ∈ [Slot.t] at hs
    simp only [List.mem_cons, List.not_mem_nil, or_false] at hs
    subst hs; rfl
  rw [hrs]
  simp only [firstRow, rowLds, unpack, hun]
  simp only [ofNat_mod]
  simp only [Nat.reducePow, Nat.reduceMod, Nat.zero_mod, Nat.reduceBEq, beq_self_eq_true, Bool.and_self, if_true, bool_of_nat, hw, Option.bind_some, Bool.and_false, Bool.false_and, Bool.false_eq_true, if_false]
theorem sts (p : Pred) (d : BitVec 5) (a : BitVec 5) (z : BitVec 2) (o : BitVec 9) (lit : Option Word) : Statement (Instr.sts p d a z o lit) := by
  intro sl hs hw
  refine decodeWord_row sl lit [(9, o.toNat), (1, 0), (2, z.toNat), (5, a.toNat), (5, d.toNat), (1, p.ng.toNat), (3, p.qp.toNat)] 18 7 _ rfl rfl fun n hun => ?_
  simp only [List.cons_append, List.nil_append, List.map_cons, List.map_nil, unpack, List.cons.injEq] at hun
  have hrs : rowsOf sl (18 % 64) = [(7, rowSts)] := by
    change sl ∈ [Slot.t] at hs
    simp only [List.mem_cons, List.not_mem_nil, or_false] at hs
    subst hs; rfl
  rw [hrs]
  simp only [firstRow, rowSts, unpack, hun]
  simp only [ofNat_mod]
  simp only [Nat.reducePow, Nat.reduceMod, Nat.zero_mod, Nat.reduceBEq, beq_self_eq_true, Bool.and_self, if_true, bool_of_nat, hw, Option.bind_some, Bool.and_false, Bool.false_and, Bool.false_eq_true, if_false]
theorem ld (p : Pred) (d : BitVec 5) (a : BitVec 5) (z : BitVec 2) (s : Bool) (l : Policy) (o : Bool) (f : BitVec 6) (lit : Option Word) : Statement (Instr.ld p d a z s l o f lit) := by
  intro sl hs hw
  refine decodeWord_row sl lit [(6, f.toNat), (1, o.toNat), (2, l.code), (1, s.toNat), (2, z.toNat), (5, a.toNat), (5, d.toNat), (1, p.ng.toNat), (3, p.qp.toNat)] 20 6 _ rfl rfl fun n hun => ?_
  simp only [List.cons_append, List.nil_append, List.map_cons, List.map_nil, unpack, List.cons.injEq] at hun
  have hrs : rowsOf sl (20 % 64) = [(6, rowLd)] := by
    change sl ∈ [Slot.t] at hs
    simp only [List.mem_cons, List.not_mem_nil, or_false] at hs
    subst hs; rfl
  rw [hrs]
  simp only [firstRow, rowLd, unpack, hun]
  simp only [ofNat_mod]
  simp only [Nat.reducePow, Nat.reduceMod, Nat.zero_mod, Nat.reduceBEq, beq_self_eq_true, Bool.and_self, if_true, bool_of_nat, hw, Option.bind_some, Bool.and_false, Bool.false_and, Bool.false_eq_true, if_false, policyOf_code]
theorem ldp (p : Pred) (d : BitVec 5) (a : BitVec 5) (z : BitVec 2) (s : Bool) (l : Policy) (o : Bool) (f : BitVec 6) (lit : Option Word) : Statement (Instr.ldp p d a z s l o f lit) := by
  intro sl hs hw
  refine decodeWord_row sl lit [(6, f.toNat), (1, o.toNat), (2, l.code), (1, s.toNat), (2, z.toNat), (5, a.toNat), (5, d.toNat), (1, p.ng.toNat), (3, p.qp.toNat)] 21 6 _ rfl rfl fun n hun => ?_
  simp only [List.cons_append, List.nil_append, List.map_cons, List.map_nil, unpack, List.cons.injEq] at hun
  have hrs : rowsOf sl (21 % 64) = [(6, rowLdp)] := by
    change sl ∈ [Slot.t] at hs
    simp only [List.mem_cons, List.not_mem_nil, or_false] at hs
    subst hs; rfl
  rw [hrs]
  simp only [firstRow, rowLdp, unpack, hun]
  simp only [ofNat_mod]
  simp only [Nat.reducePow, Nat.reduceMod, Nat.zero_mod, Nat.reduceBEq, beq_self_eq_true, Bool.and_self, if_true, bool_of_nat, hw, Option.bind_some, Bool.and_false, Bool.false_and, Bool.false_eq_true, if_false, policyOf_code]
theorem st (p : Pred) (d : BitVec 5) (a : BitVec 5) (z : BitVec 2) (l : Policy) (o : Bool) (f : BitVec 6) (lit : Option Word) : Statement (Instr.st p d a z l o f lit) := by
  intro sl hs hw
  refine decodeWord_row sl lit [(6, f.toNat), (1, o.toNat), (2, l.code), (1, 0), (2, z.toNat), (5, a.toNat), (5, d.toNat), (1, p.ng.toNat), (3, p.qp.toNat)] 22 7 _ rfl rfl fun n hun => ?_
  simp only [List.cons_append, List.nil_append, List.map_cons, List.map_nil, unpack, List.cons.injEq] at hun
  have hrs : rowsOf sl (22 % 64) = [(7, rowSt)] := by
    change sl ∈ [Slot.t] at hs
    simp only [List.mem_cons, List.not_mem_nil, or_false] at hs
    subst hs; rfl
  rw [hrs]
  simp only [firstRow, rowSt, unpack, hun]
  simp only [ofNat_mod]
  simp only [Nat.reducePow, Nat.reduceMod, Nat.zero_mod, Nat.reduceBEq, beq_self_eq_true, Bool.and_self, if_true, bool_of_nat, hw, Option.bind_some, Bool.and_false, Bool.false_and, Bool.false_eq_true, if_false, policyOf_code]
theorem stp (p : Pred) (d : BitVec 5) (a : BitVec 5) (z : BitVec 2) (l : Policy) (o : Bool) (f : BitVec 6) (lit : Option Word) : Statement (Instr.stp p d a z l o f lit) := by
  intro sl hs hw
  refine decodeWord_row sl lit [(6, f.toNat), (1, o.toNat), (2, l.code), (1, 0), (2, z.toNat), (5, a.toNat), (5, d.toNat), (1, p.ng.toNat), (3, p.qp.toNat)] 23 7 _ rfl rfl fun n hun => ?_
  simp only [List.cons_append, List.nil_append, List.map_cons, List.map_nil, unpack, List.cons.injEq] at hun
  have hrs : rowsOf sl (23 % 64) = [(7, rowStp)] := by
    change sl ∈ [Slot.t] at hs
    simp only [List.mem_cons, List.not_mem_nil, or_false] at hs
    subst hs; rfl
  rw [hrs]
  simp only [firstRow, rowStp, unpack, hun]
  simp only [ofNat_mod]
  simp only [Nat.reducePow, Nat.reduceMod, Nat.zero_mod, Nat.reduceBEq, beq_self_eq_true, Bool.and_self, if_true, bool_of_nat, hw, Option.bind_some, Bool.and_false, Bool.false_and, Bool.false_eq_true, if_false, policyOf_code]
theorem vld (p : Pred) (v : BitVec 6) (k : BitVec 4) (a : BitVec 5) (b : BitVec 5) (z : BitVec 2) : Statement (Instr.vld p v k a b z) := by
  intro sl hs hw
  refine decodeWord_row sl none [(2, z.toNat), (5, b.toNat), (5, a.toNat), (4, k.toNat), (6, v.toNat), (1, p.ng.toNat), (3, p.qp.toNat)] 24 6 _ rfl rfl fun n hun => ?_
  simp only [List.cons_append, List.nil_append, List.map_cons, List.map_nil, unpack, List.cons.injEq] at hun
  have hrs : rowsOf sl (24 % 64) = [(6, rowVld)] := by
    change sl ∈ [Slot.t] at hs
    simp only [List.mem_cons, List.not_mem_nil, or_false] at hs
    subst hs; rfl
  rw [hrs]
  simp only [firstRow, rowVld, unpack, hun]
  simp only [ofNat_mod]
  simp only [Nat.reducePow, Nat.reduceMod, Nat.zero_mod, Nat.reduceBEq, beq_self_eq_true, Bool.and_self, if_true, bool_of_nat, hw, Option.bind_some, Bool.and_false, Bool.false_and, Bool.false_eq_true, if_false]
theorem vgld (p : Pred) (v : BitVec 6) (k : BitVec 4) (a : BitVec 5) (b : BitVec 5) (z : BitVec 2) : Statement (Instr.vgld p v k a b z) := by
  intro sl hs hw
  refine decodeWord_row sl none [(2, z.toNat), (5, b.toNat), (5, a.toNat), (4, k.toNat), (6, v.toNat), (1, p.ng.toNat), (3, p.qp.toNat)] 25 6 _ rfl rfl fun n hun => ?_
  simp only [List.cons_append, List.nil_append, List.map_cons, List.map_nil, unpack, List.cons.injEq] at hun
  have hrs : rowsOf sl (25 % 64) = [(6, rowVgld)] := by
    change sl ∈ [Slot.t] at hs
    simp only [List.mem_cons, List.not_mem_nil, or_false] at hs
    subst hs; rfl
  rw [hrs]
  simp only [firstRow, rowVgld, unpack, hun]
  simp only [ofNat_mod]
  simp only [Nat.reducePow, Nat.reduceMod, Nat.zero_mod, Nat.reduceBEq, beq_self_eq_true, Bool.and_self, if_true, bool_of_nat, hw, Option.bind_some, Bool.and_false, Bool.false_and, Bool.false_eq_true, if_false]
theorem vst (p : Pred) (v : BitVec 6) (k : BitVec 4) (a : BitVec 5) (b : BitVec 5) (z : BitVec 2) : Statement (Instr.vst p v k a b z) := by
  intro sl hs hw
  refine decodeWord_row sl none [(2, z.toNat), (5, b.toNat), (5, a.toNat), (4, k.toNat), (6, v.toNat), (1, p.ng.toNat), (3, p.qp.toNat)] 26 6 _ rfl rfl fun n hun => ?_
  simp only [List.cons_append, List.nil_append, List.map_cons, List.map_nil, unpack, List.cons.injEq] at hun
  have hrs : rowsOf sl (26 % 64) = [(6, rowVst)] := by
    change sl ∈ [Slot.t] at hs
    simp only [List.mem_cons, List.not_mem_nil, or_false] at hs
    subst hs; rfl
  rw [hrs]
  simp only [firstRow, rowVst, unpack, hun]
  simp only [ofNat_mod]
  simp only [Nat.reducePow, Nat.reduceMod, Nat.zero_mod, Nat.reduceBEq, beq_self_eq_true, Bool.and_self, if_true, bool_of_nat, hw, Option.bind_some, Bool.and_false, Bool.false_and, Bool.false_eq_true, if_false]
theorem vsst (p : Pred) (v : BitVec 6) (k : BitVec 4) (a : BitVec 5) (b : BitVec 5) (z : BitVec 2) : Statement (Instr.vsst p v k a b z) := by
  intro sl hs hw
  refine decodeWord_row sl none [(2, z.toNat), (5, b.toNat), (5, a.toNat), (4, k.toNat), (6, v.toNat), (1, p.ng.toNat), (3, p.qp.toNat)] 27 6 _ rfl rfl fun n hun => ?_
  simp only [List.cons_append, List.nil_append, List.map_cons, List.map_nil, unpack, List.cons.injEq] at hun
  have hrs : rowsOf sl (27 % 64) = [(6, rowVsst)] := by
    change sl ∈ [Slot.t] at hs
    simp only [List.mem_cons, List.not_mem_nil, or_false] at hs
    subst hs; rfl
  rw [hrs]
  simp only [firstRow, rowVsst, unpack, hun]
  simp only [ofNat_mod]
  simp only [Nat.reducePow, Nat.reduceMod, Nat.zero_mod, Nat.reduceBEq, beq_self_eq_true, Bool.and_self, if_true, bool_of_nat, hw, Option.bind_some, Bool.and_false, Bool.false_and, Bool.false_eq_true, if_false]
theorem amo (p : Pred) (d : BitVec 5) (a : BitVec 5) (b : BitVec 5) (o : AtomicOp) (z : Bool) (r : BitVec 2) : Statement (Instr.amo p d a b o z r) := by
  intro sl hs hw
  refine decodeWord_row sl none [(2, r.toNat), (1, z.toNat), (4, o.code), (5, b.toNat), (5, a.toNat), (5, d.toNat), (1, p.ng.toNat), (3, p.qp.toNat)] 28 6 _ rfl rfl fun n hun => ?_
  simp only [List.cons_append, List.nil_append, List.map_cons, List.map_nil, unpack, List.cons.injEq] at hun
  have hrs : rowsOf sl (28 % 64) = [(6, rowAmo)] := by
    change sl ∈ [Slot.t] at hs
    simp only [List.mem_cons, List.not_mem_nil, or_false] at hs
    subst hs; rfl
  rw [hrs]
  simp only [firstRow, rowAmo, unpack, hun]
  simp only [ofNat_mod]
  simp only [Nat.reducePow, Nat.reduceMod, Nat.zero_mod, Nat.reduceBEq, beq_self_eq_true, Bool.and_self, if_true, bool_of_nat, hw, Option.bind_some, Bool.and_false, Bool.false_and, Bool.false_eq_true, if_false, atomicOf_code]
theorem cas (p : Pred) (d : BitVec 5) (a : BitVec 5) (b : BitVec 5) (z : Bool) (r : BitVec 2) : Statement (Instr.cas p d a b z r) := by
  intro sl hs hw
  refine decodeWord_row sl none [(2, r.toNat), (1, z.toNat), (4, 0), (5, b.toNat), (5, a.toNat), (5, d.toNat), (1, p.ng.toNat), (3, p.qp.toNat)] 29 10 _ rfl rfl fun n hun => ?_
  simp only [List.cons_append, List.nil_append, List.map_cons, List.map_nil, unpack, List.cons.injEq] at hun
  have hrs : rowsOf sl (29 % 64) = [(10, rowCas)] := by
    change sl ∈ [Slot.t] at hs
    simp only [List.mem_cons, List.not_mem_nil, or_false] at hs
    subst hs; rfl
  rw [hrs]
  simp only [firstRow, rowCas, unpack, hun]
  simp only [ofNat_mod]
  simp only [Nat.reducePow, Nat.reduceMod, Nat.zero_mod, Nat.reduceBEq, beq_self_eq_true, Bool.and_self, if_true, bool_of_nat, hw, Option.bind_some, Bool.and_false, Bool.false_and, Bool.false_eq_true, if_false]
theorem vamo (p : Pred) (v : BitVec 5) (a : BitVec 5) (i : BitVec 5) (k : BitVec 3) (o : AtomicOp) : Statement (Instr.vamo p v a i k o) := by
  intro sl hs hw
  refine decodeWord_row sl none [(4, o.code), (3, k.toNat), (5, i.toNat), (5, a.toNat), (5, v.toNat), (1, p.ng.toNat), (3, p.qp.toNat)] 30 6 _ rfl rfl fun n hun => ?_
  simp only [List.cons_append, List.nil_append, List.map_cons, List.map_nil, unpack, List.cons.injEq] at hun
  have hrs : rowsOf sl (30 % 64) = [(6, rowVamo)] := by
    change sl ∈ [Slot.t] at hs
    simp only [List.mem_cons, List.not_mem_nil, or_false] at hs
    subst hs; rfl
  rw [hrs]
  simp only [firstRow, rowVamo, unpack, hun]
  simp only [ofNat_mod]
  simp only [Nat.reducePow, Nat.reduceMod, Nat.zero_mod, Nat.reduceBEq, beq_self_eq_true, Bool.and_self, if_true, bool_of_nat, hw, Option.bind_some, Bool.and_false, Bool.false_and, Bool.false_eq_true, if_false, atomicOf_code]
theorem mcas (p : Pred) (d : BitVec 5) (a : BitVec 5) (c : BitVec 3) : Statement (Instr.mcas p d a c) := by
  intro sl hs hw
  refine decodeWord_row sl none [(9, 0), (3, c.toNat), (5, a.toNat), (5, d.toNat), (1, p.ng.toNat), (3, p.qp.toNat)] 31 15 _ rfl rfl fun n hun => ?_
  simp only [List.cons_append, List.nil_append, List.map_cons, List.map_nil, unpack, List.cons.injEq] at hun
  have hrs : rowsOf sl (31 % 64) = [(15, rowMcas)] := by
    change sl ∈ [Slot.t] at hs
    simp only [List.mem_cons, List.not_mem_nil, or_false] at hs
    subst hs; rfl
  rw [hrs]
  simp only [firstRow, rowMcas, unpack, hun]
  simp only [ofNat_mod]
  simp only [Nat.reducePow, Nat.reduceMod, Nat.zero_mod, Nat.reduceBEq, beq_self_eq_true, Bool.and_self, if_true, bool_of_nat, hw, Option.bind_some, Bool.and_false, Bool.false_and, Bool.false_eq_true, if_false]
theorem rwb (p : Pred) (a : BitVec 5) (b : BitVec 5) : Statement (Instr.rwb p a b) := by
  intro sl hs hw
  refine decodeWord_row sl none [(7, 0), (5, b.toNat), (5, a.toNat), (5, 0), (1, p.ng.toNat), (3, p.qp.toNat)] 32 18 _ rfl rfl fun n hun => ?_
  simp only [List.cons_append, List.nil_append, List.map_cons, List.map_nil, unpack, List.cons.injEq] at hun
  have hrs : rowsOf sl (32 % 64) = [(18, rowRwb)] := by
    change sl ∈ [Slot.t] at hs
    simp only [List.mem_cons, List.not_mem_nil, or_false] at hs
    subst hs; rfl
  rw [hrs]
  simp only [firstRow, rowRwb, unpack, hun]
  simp only [ofNat_mod]
  simp only [Nat.reducePow, Nat.reduceMod, Nat.zero_mod, Nat.reduceBEq, beq_self_eq_true, Bool.and_self, if_true, bool_of_nat, hw, Option.bind_some, Bool.and_false, Bool.false_and, Bool.false_eq_true, if_false]
theorem rinv (p : Pred) (a : BitVec 5) (b : BitVec 5) : Statement (Instr.rinv p a b) := by
  intro sl hs hw
  refine decodeWord_row sl none [(7, 0), (5, b.toNat), (5, a.toNat), (5, 0), (1, p.ng.toNat), (3, p.qp.toNat)] 33 18 _ rfl rfl fun n hun => ?_
  simp only [List.cons_append, List.nil_append, List.map_cons, List.map_nil, unpack, List.cons.injEq] at hun
  have hrs : rowsOf sl (33 % 64) = [(18, rowRinv)] := by
    change sl ∈ [Slot.t] at hs
    simp only [List.mem_cons, List.not_mem_nil, or_false] at hs
    subst hs; rfl
  rw [hrs]
  simp only [firstRow, rowRinv, unpack, hun]
  simp only [ofNat_mod]
  simp only [Nat.reducePow, Nat.reduceMod, Nat.zero_mod, Nat.reduceBEq, beq_self_eq_true, Bool.and_self, if_true, bool_of_nat, hw, Option.bind_some, Bool.and_false, Bool.false_and, Bool.false_eq_true, if_false]
theorem rwbinv (p : Pred) (a : BitVec 5) (b : BitVec 5) : Statement (Instr.rwbinv p a b) := by
  intro sl hs hw
  refine decodeWord_row sl none [(7, 0), (5, b.toNat), (5, a.toNat), (5, 0), (1, p.ng.toNat), (3, p.qp.toNat)] 34 18 _ rfl rfl fun n hun => ?_
  simp only [List.cons_append, List.nil_append, List.map_cons, List.map_nil, unpack, List.cons.injEq] at hun
  have hrs : rowsOf sl (34 % 64) = [(18, rowRwbinv)] := by
    change sl ∈ [Slot.t] at hs
    simp only [List.mem_cons, List.not_mem_nil, or_false] at hs
    subst hs; rfl
  rw [hrs]
  simp only [firstRow, rowRwbinv, unpack, hun]
  simp only [ofNat_mod]
  simp only [Nat.reducePow, Nat.reduceMod, Nat.zero_mod, Nat.reduceBEq, beq_self_eq_true, Bool.and_self, if_true, bool_of_nat, hw, Option.bind_some, Bool.and_false, Bool.false_and, Bool.false_eq_true, if_false]
theorem rstf (p : Pred) (v : BitVec 6) (k : BitVec 4) (a : BitVec 5) (b : BitVec 5) : Statement (Instr.rstf p v k a b) := by
  intro sl hs hw
  refine decodeWord_row sl none [(2, 0), (5, b.toNat), (5, a.toNat), (4, k.toNat), (6, v.toNat), (1, p.ng.toNat), (3, p.qp.toNat)] 35 8 _ rfl rfl fun n hun => ?_
  simp only [List.cons_append, List.nil_append, List.map_cons, List.map_nil, unpack, List.cons.injEq] at hun
  have hrs : rowsOf sl (35 % 64) = [(8, rowRstf)] := by
    change sl ∈ [Slot.t] at hs
    simp only [List.mem_cons, List.not_mem_nil, or_false] at hs
    subst hs; rfl
  rw [hrs]
  simp only [firstRow, rowRstf, unpack, hun]
  simp only [ofNat_mod]
  simp only [Nat.reducePow, Nat.reduceMod, Nat.zero_mod, Nat.reduceBEq, beq_self_eq_true, Bool.and_self, if_true, bool_of_nat, hw, Option.bind_some, Bool.and_false, Bool.false_and, Bool.false_eq_true, if_false]
theorem acopy (p : Pred) (a : BitVec 5) (i : BitVec 12) (lit : Option Word) : Statement (Instr.acopy p a i lit) := by
  intro sl hs hw
  refine decodeWord_row sl lit [(12, i.toNat), (5, a.toNat), (5, 0), (1, p.ng.toNat), (3, p.qp.toNat)] 36 11 _ rfl rfl fun n hun => ?_
  simp only [List.cons_append, List.nil_append, List.map_cons, List.map_nil, unpack, List.cons.injEq] at hun
  have hrs : rowsOf sl (36 % 64) = [(11, rowAcopy)] := by
    change sl ∈ [Slot.t] at hs
    simp only [List.mem_cons, List.not_mem_nil, or_false] at hs
    subst hs; rfl
  rw [hrs]
  simp only [firstRow, rowAcopy, unpack, hun]
  simp only [ofNat_mod]
  simp only [Nat.reducePow, Nat.reduceMod, Nat.zero_mod, Nat.reduceBEq, beq_self_eq_true, Bool.and_self, if_true, bool_of_nat, hw, Option.bind_some, Bool.and_false, Bool.false_and, Bool.false_eq_true, if_false]
theorem pfl (p : Pred) (e : Bool) (a : BitVec 5) (i : BitVec 12) (lit : Option Word) : Statement (Instr.pfl p e a i lit) := by
  intro sl hs hw
  refine decodeWord_row sl lit [(12, i.toNat), (5, a.toNat), (1, e.toNat), (4, 0), (1, p.ng.toNat), (3, p.qp.toNat)] 37 10 _ rfl rfl fun n hun => ?_
  simp only [List.cons_append, List.nil_append, List.map_cons, List.map_nil, unpack, List.cons.injEq] at hun
  have hrs : rowsOf sl (37 % 64) = [(10, rowPfl)] := by
    change sl ∈ [Slot.t] at hs
    simp only [List.mem_cons, List.not_mem_nil, or_false] at hs
    subst hs; rfl
  rw [hrs]
  simp only [firstRow, rowPfl, unpack, hun]
  simp only [ofNat_mod]
  simp only [Nat.reducePow, Nat.reduceMod, Nat.zero_mod, Nat.reduceBEq, beq_self_eq_true, Bool.and_self, if_true, bool_of_nat, hw, Option.bind_some, Bool.and_false, Bool.false_and, Bool.false_eq_true, if_false]
theorem vadd (k : BitVec 4) (d : BitVec 6) (a : BitVec 6) (b : BitVec 6) (t : ElemType) : Statement (Instr.vadd k d a b t) := by
  intro sl hs hw
  refine decodeWord_row sl none [(4, t.code), (6, b.toNat), (6, a.toNat), (6, d.toNat), (4, k.toNat)] 0 6 _ rfl rfl fun n hun => ?_
  simp only [List.cons_append, List.nil_append, List.map_cons, List.map_nil, unpack, List.cons.injEq] at hun
  have hrs : rowsOf sl (0 % 64) = [(6, rowVadd)] := by
    change sl ∈ [Slot.v0, Slot.v1] at hs
    simp only [List.mem_cons, List.not_mem_nil, or_false] at hs
    rcases hs with rfl | rfl <;> rfl
  rw [hrs]
  simp only [firstRow, rowVadd, unpack, hun]
  simp only [ofNat_mod]
  simp only [Nat.reducePow, Nat.reduceMod, Nat.zero_mod, Nat.reduceBEq, beq_self_eq_true, Bool.and_self, if_true, bool_of_nat, hw, Option.bind_some, Bool.and_false, Bool.false_and, Bool.false_eq_true, if_false, elemOf_code]
theorem vsub (k : BitVec 4) (d : BitVec 6) (a : BitVec 6) (b : BitVec 6) (t : ElemType) : Statement (Instr.vsub k d a b t) := by
  intro sl hs hw
  refine decodeWord_row sl none [(4, t.code), (6, b.toNat), (6, a.toNat), (6, d.toNat), (4, k.toNat)] 1 6 _ rfl rfl fun n hun => ?_
  simp only [List.cons_append, List.nil_append, List.map_cons, List.map_nil, unpack, List.cons.injEq] at hun
  have hrs : rowsOf sl (1 % 64) = [(6, rowVsub)] := by
    change sl ∈ [Slot.v0, Slot.v1] at hs
    simp only [List.mem_cons, List.not_mem_nil, or_false] at hs
    rcases hs with rfl | rfl <;> rfl
  rw [hrs]
  simp only [firstRow, rowVsub, unpack, hun]
  simp only [ofNat_mod]
  simp only [Nat.reducePow, Nat.reduceMod, Nat.zero_mod, Nat.reduceBEq, beq_self_eq_true, Bool.and_self, if_true, bool_of_nat, hw, Option.bind_some, Bool.and_false, Bool.false_and, Bool.false_eq_true, if_false, elemOf_code]
theorem vmul (k : BitVec 4) (d : BitVec 6) (a : BitVec 6) (b : BitVec 6) (t : ElemType) : Statement (Instr.vmul k d a b t) := by
  intro sl hs hw
  refine decodeWord_row sl none [(4, t.code), (6, b.toNat), (6, a.toNat), (6, d.toNat), (4, k.toNat)] 2 6 _ rfl rfl fun n hun => ?_
  simp only [List.cons_append, List.nil_append, List.map_cons, List.map_nil, unpack, List.cons.injEq] at hun
  have hrs : rowsOf sl (2 % 64) = [(6, rowVmul)] := by
    change sl ∈ [Slot.v0, Slot.v1] at hs
    simp only [List.mem_cons, List.not_mem_nil, or_false] at hs
    rcases hs with rfl | rfl <;> rfl
  rw [hrs]
  simp only [firstRow, rowVmul, unpack, hun]
  simp only [ofNat_mod]
  simp only [Nat.reducePow, Nat.reduceMod, Nat.zero_mod, Nat.reduceBEq, beq_self_eq_true, Bool.and_self, if_true, bool_of_nat, hw, Option.bind_some, Bool.and_false, Bool.false_and, Bool.false_eq_true, if_false, elemOf_code]
theorem vfma (k : BitVec 4) (d : BitVec 6) (a : BitVec 6) (b : BitVec 6) (t : ElemType) : Statement (Instr.vfma k d a b t) := by
  intro sl hs hw
  refine decodeWord_row sl none [(4, t.code), (6, b.toNat), (6, a.toNat), (6, d.toNat), (4, k.toNat)] 3 6 _ rfl rfl fun n hun => ?_
  simp only [List.cons_append, List.nil_append, List.map_cons, List.map_nil, unpack, List.cons.injEq] at hun
  have hrs : rowsOf sl (3 % 64) = [(6, rowVfma)] := by
    change sl ∈ [Slot.v0, Slot.v1] at hs
    simp only [List.mem_cons, List.not_mem_nil, or_false] at hs
    rcases hs with rfl | rfl <;> rfl
  rw [hrs]
  simp only [firstRow, rowVfma, unpack, hun]
  simp only [ofNat_mod]
  simp only [Nat.reducePow, Nat.reduceMod, Nat.zero_mod, Nat.reduceBEq, beq_self_eq_true, Bool.and_self, if_true, bool_of_nat, hw, Option.bind_some, Bool.and_false, Bool.false_and, Bool.false_eq_true, if_false, elemOf_code]
theorem vfms (k : BitVec 4) (d : BitVec 6) (a : BitVec 6) (b : BitVec 6) (t : ElemType) : Statement (Instr.vfms k d a b t) := by
  intro sl hs hw
  refine decodeWord_row sl none [(4, t.code), (6, b.toNat), (6, a.toNat), (6, d.toNat), (4, k.toNat)] 4 6 _ rfl rfl fun n hun => ?_
  simp only [List.cons_append, List.nil_append, List.map_cons, List.map_nil, unpack, List.cons.injEq] at hun
  have hrs : rowsOf sl (4 % 64) = [(6, rowVfms)] := by
    change sl ∈ [Slot.v0, Slot.v1] at hs
    simp only [List.mem_cons, List.not_mem_nil, or_false] at hs
    rcases hs with rfl | rfl <;> rfl
  rw [hrs]
  simp only [firstRow, rowVfms, unpack, hun]
  simp only [ofNat_mod]
  simp only [Nat.reducePow, Nat.reduceMod, Nat.zero_mod, Nat.reduceBEq, beq_self_eq_true, Bool.and_self, if_true, bool_of_nat, hw, Option.bind_some, Bool.and_false, Bool.false_and, Bool.false_eq_true, if_false, elemOf_code]
theorem vmin (k : BitVec 4) (d : BitVec 6) (a : BitVec 6) (b : BitVec 6) (t : ElemType) : Statement (Instr.vmin k d a b t) := by
  intro sl hs hw
  refine decodeWord_row sl none [(4, t.code), (6, b.toNat), (6, a.toNat), (6, d.toNat), (4, k.toNat)] 5 6 _ rfl rfl fun n hun => ?_
  simp only [List.cons_append, List.nil_append, List.map_cons, List.map_nil, unpack, List.cons.injEq] at hun
  have hrs : rowsOf sl (5 % 64) = [(6, rowVmin)] := by
    change sl ∈ [Slot.v0, Slot.v1] at hs
    simp only [List.mem_cons, List.not_mem_nil, or_false] at hs
    rcases hs with rfl | rfl <;> rfl
  rw [hrs]
  simp only [firstRow, rowVmin, unpack, hun]
  simp only [ofNat_mod]
  simp only [Nat.reducePow, Nat.reduceMod, Nat.zero_mod, Nat.reduceBEq, beq_self_eq_true, Bool.and_self, if_true, bool_of_nat, hw, Option.bind_some, Bool.and_false, Bool.false_and, Bool.false_eq_true, if_false, elemOf_code]
theorem vmax (k : BitVec 4) (d : BitVec 6) (a : BitVec 6) (b : BitVec 6) (t : ElemType) : Statement (Instr.vmax k d a b t) := by
  intro sl hs hw
  refine decodeWord_row sl none [(4, t.code), (6, b.toNat), (6, a.toNat), (6, d.toNat), (4, k.toNat)] 6 6 _ rfl rfl fun n hun => ?_
  simp only [List.cons_append, List.nil_append, List.map_cons, List.map_nil, unpack, List.cons.injEq] at hun
  have hrs : rowsOf sl (6 % 64) = [(6, rowVmax)] := by
    change sl ∈ [Slot.v0, Slot.v1] at hs
    simp only [List.mem_cons, List.not_mem_nil, or_false] at hs
    rcases hs with rfl | rfl <;> rfl
  rw [hrs]
  simp only [firstRow, rowVmax, unpack, hun]
  simp only [ofNat_mod]
  simp only [Nat.reducePow, Nat.reduceMod, Nat.zero_mod, Nat.reduceBEq, beq_self_eq_true, Bool.and_self, if_true, bool_of_nat, hw, Option.bind_some, Bool.and_false, Bool.false_and, Bool.false_eq_true, if_false, elemOf_code]
theorem vabs (k : BitVec 4) (d : BitVec 6) (a : BitVec 6) (t : ElemType) : Statement (Instr.vabs k d a t) := by
  intro sl hs hw
  refine decodeWord_row sl none [(4, t.code), (6, 0), (6, a.toNat), (6, d.toNat), (4, k.toNat)] 7 12 _ rfl rfl fun n hun => ?_
  simp only [List.cons_append, List.nil_append, List.map_cons, List.map_nil, unpack, List.cons.injEq] at hun
  have hrs : rowsOf sl (7 % 64) = [(12, rowVabs)] := by
    change sl ∈ [Slot.v0, Slot.v1] at hs
    simp only [List.mem_cons, List.not_mem_nil, or_false] at hs
    rcases hs with rfl | rfl <;> rfl
  rw [hrs]
  simp only [firstRow, rowVabs, unpack, hun]
  simp only [ofNat_mod]
  simp only [Nat.reducePow, Nat.reduceMod, Nat.zero_mod, Nat.reduceBEq, beq_self_eq_true, Bool.and_self, if_true, bool_of_nat, hw, Option.bind_some, Bool.and_false, Bool.false_and, Bool.false_eq_true, if_false, elemOf_code]
theorem vneg (k : BitVec 4) (d : BitVec 6) (a : BitVec 6) (t : ElemType) : Statement (Instr.vneg k d a t) := by
  intro sl hs hw
  refine decodeWord_row sl none [(4, t.code), (6, 0), (6, a.toNat), (6, d.toNat), (4, k.toNat)] 8 12 _ rfl rfl fun n hun => ?_
  simp only [List.cons_append, List.nil_append, List.map_cons, List.map_nil, unpack, List.cons.injEq] at hun
  have hrs : rowsOf sl (8 % 64) = [(12, rowVneg)] := by
    change sl ∈ [Slot.v0, Slot.v1] at hs
    simp only [List.mem_cons, List.not_mem_nil, or_false] at hs
    rcases hs with rfl | rfl <;> rfl
  rw [hrs]
  simp only [firstRow, rowVneg, unpack, hun]
  simp only [ofNat_mod]
  simp only [Nat.reducePow, Nat.reduceMod, Nat.zero_mod, Nat.reduceBEq, beq_self_eq_true, Bool.and_self, if_true, bool_of_nat, hw, Option.bind_some, Bool.and_false, Bool.false_and, Bool.false_eq_true, if_false, elemOf_code]
theorem vabd (k : BitVec 4) (d : BitVec 6) (a : BitVec 6) (b : BitVec 6) (t : ElemType) : Statement (Instr.vabd k d a b t) := by
  intro sl hs hw
  refine decodeWord_row sl none [(4, t.code), (6, b.toNat), (6, a.toNat), (6, d.toNat), (4, k.toNat)] 9 6 _ rfl rfl fun n hun => ?_
  simp only [List.cons_append, List.nil_append, List.map_cons, List.map_nil, unpack, List.cons.injEq] at hun
  have hrs : rowsOf sl (9 % 64) = [(6, rowVabd)] := by
    change sl ∈ [Slot.v0, Slot.v1] at hs
    simp only [List.mem_cons, List.not_mem_nil, or_false] at hs
    rcases hs with rfl | rfl <;> rfl
  rw [hrs]
  simp only [firstRow, rowVabd, unpack, hun]
  simp only [ofNat_mod]
  simp only [Nat.reducePow, Nat.reduceMod, Nat.zero_mod, Nat.reduceBEq, beq_self_eq_true, Bool.and_self, if_true, bool_of_nat, hw, Option.bind_some, Bool.and_false, Bool.false_and, Bool.false_eq_true, if_false, elemOf_code]
theorem vadds (k : BitVec 4) (d : BitVec 6) (a : BitVec 6) (b : BitVec 6) (t : ElemType) : Statement (Instr.vadds k d a b t) := by
  intro sl hs hw
  refine decodeWord_row sl none [(4, t.code), (6, b.toNat), (6, a.toNat), (6, d.toNat), (4, k.toNat)] 10 6 _ rfl rfl fun n hun => ?_
  simp only [List.cons_append, List.nil_append, List.map_cons, List.map_nil, unpack, List.cons.injEq] at hun
  have hrs : rowsOf sl (10 % 64) = [(6, rowVadds)] := by
    change sl ∈ [Slot.v0, Slot.v1] at hs
    simp only [List.mem_cons, List.not_mem_nil, or_false] at hs
    rcases hs with rfl | rfl <;> rfl
  rw [hrs]
  simp only [firstRow, rowVadds, unpack, hun]
  simp only [ofNat_mod]
  simp only [Nat.reducePow, Nat.reduceMod, Nat.zero_mod, Nat.reduceBEq, beq_self_eq_true, Bool.and_self, if_true, bool_of_nat, hw, Option.bind_some, Bool.and_false, Bool.false_and, Bool.false_eq_true, if_false, elemOf_code]
theorem vsubs (k : BitVec 4) (d : BitVec 6) (a : BitVec 6) (b : BitVec 6) (t : ElemType) : Statement (Instr.vsubs k d a b t) := by
  intro sl hs hw
  refine decodeWord_row sl none [(4, t.code), (6, b.toNat), (6, a.toNat), (6, d.toNat), (4, k.toNat)] 11 6 _ rfl rfl fun n hun => ?_
  simp only [List.cons_append, List.nil_append, List.map_cons, List.map_nil, unpack, List.cons.injEq] at hun
  have hrs : rowsOf sl (11 % 64) = [(6, rowVsubs)] := by
    change sl ∈ [Slot.v0, Slot.v1] at hs
    simp only [List.mem_cons, List.not_mem_nil, or_false] at hs
    rcases hs with rfl | rfl <;> rfl
  rw [hrs]
  simp only [firstRow, rowVsubs, unpack, hun]
  simp only [ofNat_mod]
  simp only [Nat.reducePow, Nat.reduceMod, Nat.zero_mod, Nat.reduceBEq, beq_self_eq_true, Bool.and_self, if_true, bool_of_nat, hw, Option.bind_some, Bool.and_false, Bool.false_and, Bool.false_eq_true, if_false, elemOf_code]
theorem vmulh (k : BitVec 4) (d : BitVec 6) (a : BitVec 6) (b : BitVec 6) (t : ElemType) : Statement (Instr.vmulh k d a b t) := by
  intro sl hs hw
  refine decodeWord_row sl none [(4, t.code), (6, b.toNat), (6, a.toNat), (6, d.toNat), (4, k.toNat)] 12 6 _ rfl rfl fun n hun => ?_
  simp only [List.cons_append, List.nil_append, List.map_cons, List.map_nil, unpack, List.cons.injEq] at hun
  have hrs : rowsOf sl (12 % 64) = [(6, rowVmulh)] := by
    change sl ∈ [Slot.v0, Slot.v1] at hs
    simp only [List.mem_cons, List.not_mem_nil, or_false] at hs
    rcases hs with rfl | rfl <;> rfl
  rw [hrs]
  simp only [firstRow, rowVmulh, unpack, hun]
  simp only [ofNat_mod]
  simp only [Nat.reducePow, Nat.reduceMod, Nat.zero_mod, Nat.reduceBEq, beq_self_eq_true, Bool.and_self, if_true, bool_of_nat, hw, Option.bind_some, Bool.and_false, Bool.false_and, Bool.false_eq_true, if_false, elemOf_code]
theorem vshl (k : BitVec 4) (d : BitVec 6) (a : BitVec 6) (b : BitVec 6) (t : ElemType) : Statement (Instr.vshl k d a b t) := by
  intro sl hs hw
  refine decodeWord_row sl none [(4, t.code), (6, b.toNat), (6, a.toNat), (6, d.toNat), (4, k.toNat)] 13 6 _ rfl rfl fun n hun => ?_
  simp only [List.cons_append, List.nil_append, List.map_cons, List.map_nil, unpack, List.cons.injEq] at hun
  have hrs : rowsOf sl (13 % 64) = [(6, rowVshl)] := by
    change sl ∈ [Slot.v0, Slot.v1] at hs
    simp only [List.mem_cons, List.not_mem_nil, or_false] at hs
    rcases hs with rfl | rfl <;> rfl
  rw [hrs]
  simp only [firstRow, rowVshl, unpack, hun]
  simp only [ofNat_mod]
  simp only [Nat.reducePow, Nat.reduceMod, Nat.zero_mod, Nat.reduceBEq, beq_self_eq_true, Bool.and_self, if_true, bool_of_nat, hw, Option.bind_some, Bool.and_false, Bool.false_and, Bool.false_eq_true, if_false, elemOf_code]
theorem vshr (k : BitVec 4) (d : BitVec 6) (a : BitVec 6) (b : BitVec 6) (t : ElemType) : Statement (Instr.vshr k d a b t) := by
  intro sl hs hw
  refine decodeWord_row sl none [(4, t.code), (6, b.toNat), (6, a.toNat), (6, d.toNat), (4, k.toNat)] 14 6 _ rfl rfl fun n hun => ?_
  simp only [List.cons_append, List.nil_append, List.map_cons, List.map_nil, unpack, List.cons.injEq] at hun
  have hrs : rowsOf sl (14 % 64) = [(6, rowVshr)] := by
    change sl ∈ [Slot.v0, Slot.v1] at hs
    simp only [List.mem_cons, List.not_mem_nil, or_false] at hs
    rcases hs with rfl | rfl <;> rfl
  rw [hrs]
  simp only [firstRow, rowVshr, unpack, hun]
  simp only [ofNat_mod]
  simp only [Nat.reducePow, Nat.reduceMod, Nat.zero_mod, Nat.reduceBEq, beq_self_eq_true, Bool.and_self, if_true, bool_of_nat, hw, Option.bind_some, Bool.and_false, Bool.false_and, Bool.false_eq_true, if_false, elemOf_code]
theorem vsar (k : BitVec 4) (d : BitVec 6) (a : BitVec 6) (b : BitVec 6) (t : ElemType) : Statement (Instr.vsar k d a b t) := by
  intro sl hs hw
  refine decodeWord_row sl none [(4, t.code), (6, b.toNat), (6, a.toNat), (6, d.toNat), (4, k.toNat)] 15 6 _ rfl rfl fun n hun => ?_
  simp only [List.cons_append, List.nil_append, List.map_cons, List.map_nil, unpack, List.cons.injEq] at hun
  have hrs : rowsOf sl (15 % 64) = [(6, rowVsar)] := by
    change sl ∈ [Slot.v0, Slot.v1] at hs
    simp only [List.mem_cons, List.not_mem_nil, or_false] at hs
    rcases hs with rfl | rfl <;> rfl
  rw [hrs]
  simp only [firstRow, rowVsar, unpack, hun]
  simp only [ofNat_mod]
  simp only [Nat.reducePow, Nat.reduceMod, Nat.zero_mod, Nat.reduceBEq, beq_self_eq_true, Bool.and_self, if_true, bool_of_nat, hw, Option.bind_some, Bool.and_false, Bool.false_and, Bool.false_eq_true, if_false, elemOf_code]
theorem vand (k : BitVec 4) (d : BitVec 6) (a : BitVec 6) (b : BitVec 6) (t : ElemType) : Statement (Instr.vand k d a b t) := by
  intro sl hs hw
  refine decodeWord_row sl none [(4, t.code), (6, b.toNat), (6, a.toNat), (6, d.toNat), (4, k.toNat)] 16 6 _ rfl rfl fun n hun => ?_
  simp only [List.cons_append, List.nil_append, List.map_cons, List.map_nil, unpack, List.cons.injEq] at hun
  have hrs : rowsOf sl (16 % 64) = [(6, rowVand)] := by
    change sl ∈ [Slot.v0, Slot.v1] at hs
    simp only [List.mem_cons, List.not_mem_nil, or_false] at hs
    rcases hs with rfl | rfl <;> rfl
  rw [hrs]
  simp only [firstRow, rowVand, unpack, hun]
  simp only [ofNat_mod]
  simp only [Nat.reducePow, Nat.reduceMod, Nat.zero_mod, Nat.reduceBEq, beq_self_eq_true, Bool.and_self, if_true, bool_of_nat, hw, Option.bind_some, Bool.and_false, Bool.false_and, Bool.false_eq_true, if_false, elemOf_code]
theorem vor (k : BitVec 4) (d : BitVec 6) (a : BitVec 6) (b : BitVec 6) (t : ElemType) : Statement (Instr.vor k d a b t) := by
  intro sl hs hw
  refine decodeWord_row sl none [(4, t.code), (6, b.toNat), (6, a.toNat), (6, d.toNat), (4, k.toNat)] 17 6 _ rfl rfl fun n hun => ?_
  simp only [List.cons_append, List.nil_append, List.map_cons, List.map_nil, unpack, List.cons.injEq] at hun
  have hrs : rowsOf sl (17 % 64) = [(6, rowVor)] := by
    change sl ∈ [Slot.v0, Slot.v1] at hs
    simp only [List.mem_cons, List.not_mem_nil, or_false] at hs
    rcases hs with rfl | rfl <;> rfl
  rw [hrs]
  simp only [firstRow, rowVor, unpack, hun]
  simp only [ofNat_mod]
  simp only [Nat.reducePow, Nat.reduceMod, Nat.zero_mod, Nat.reduceBEq, beq_self_eq_true, Bool.and_self, if_true, bool_of_nat, hw, Option.bind_some, Bool.and_false, Bool.false_and, Bool.false_eq_true, if_false, elemOf_code]
theorem vxor (k : BitVec 4) (d : BitVec 6) (a : BitVec 6) (b : BitVec 6) (t : ElemType) : Statement (Instr.vxor k d a b t) := by
  intro sl hs hw
  refine decodeWord_row sl none [(4, t.code), (6, b.toNat), (6, a.toNat), (6, d.toNat), (4, k.toNat)] 18 6 _ rfl rfl fun n hun => ?_
  simp only [List.cons_append, List.nil_append, List.map_cons, List.map_nil, unpack, List.cons.injEq] at hun
  have hrs : rowsOf sl (18 % 64) = [(6, rowVxor)] := by
    change sl ∈ [Slot.v0, Slot.v1] at hs
    simp only [List.mem_cons, List.not_mem_nil, or_false] at hs
    rcases hs with rfl | rfl <;> rfl
  rw [hrs]
  simp only [firstRow, rowVxor, unpack, hun]
  simp only [ofNat_mod]
  simp only [Nat.reducePow, Nat.reduceMod, Nat.zero_mod, Nat.reduceBEq, beq_self_eq_true, Bool.and_self, if_true, bool_of_nat, hw, Option.bind_some, Bool.and_false, Bool.false_and, Bool.false_eq_true, if_false, elemOf_code]
theorem vandn (k : BitVec 4) (d : BitVec 6) (a : BitVec 6) (b : BitVec 6) (t : ElemType) : Statement (Instr.vandn k d a b t) := by
  intro sl hs hw
  refine decodeWord_row sl none [(4, t.code), (6, b.toNat), (6, a.toNat), (6, d.toNat), (4, k.toNat)] 19 6 _ rfl rfl fun n hun => ?_
  simp only [List.cons_append, List.nil_append, List.map_cons, List.map_nil, unpack, List.cons.injEq] at hun
  have hrs : rowsOf sl (19 % 64) = [(6, rowVandn)] := by
    change sl ∈ [Slot.v0, Slot.v1] at hs
    simp only [List.mem_cons, List.not_mem_nil, or_false] at hs
    rcases hs with rfl | rfl <;> rfl
  rw [hrs]
  simp only [firstRow, rowVandn, unpack, hun]
  simp only [ofNat_mod]
  simp only [Nat.reducePow, Nat.reduceMod, Nat.zero_mod, Nat.reduceBEq, beq_self_eq_true, Bool.and_self, if_true, bool_of_nat, hw, Option.bind_some, Bool.and_false, Bool.false_and, Bool.false_eq_true, if_false, elemOf_code]
theorem vpopc (k : BitVec 4) (d : BitVec 6) (a : BitVec 6) (t : ElemType) : Statement (Instr.vpopc k d a t) := by
  intro sl hs hw
  refine decodeWord_row sl none [(4, t.code), (6, 0), (6, a.toNat), (6, d.toNat), (4, k.toNat)] 20 12 _ rfl rfl fun n hun => ?_
  simp only [List.cons_append, List.nil_append, List.map_cons, List.map_nil, unpack, List.cons.injEq] at hun
  have hrs : rowsOf sl (20 % 64) = [(12, rowVpopc)] := by
    change sl ∈ [Slot.v0, Slot.v1] at hs
    simp only [List.mem_cons, List.not_mem_nil, or_false] at hs
    rcases hs with rfl | rfl <;> rfl
  rw [hrs]
  simp only [firstRow, rowVpopc, unpack, hun]
  simp only [ofNat_mod]
  simp only [Nat.reducePow, Nat.reduceMod, Nat.zero_mod, Nat.reduceBEq, beq_self_eq_true, Bool.and_self, if_true, bool_of_nat, hw, Option.bind_some, Bool.and_false, Bool.false_and, Bool.false_eq_true, if_false, elemOf_code]
theorem vclz (k : BitVec 4) (d : BitVec 6) (a : BitVec 6) (t : ElemType) : Statement (Instr.vclz k d a t) := by
  intro sl hs hw
  refine decodeWord_row sl none [(4, t.code), (6, 0), (6, a.toNat), (6, d.toNat), (4, k.toNat)] 21 12 _ rfl rfl fun n hun => ?_
  simp only [List.cons_append, List.nil_append, List.map_cons, List.map_nil, unpack, List.cons.injEq] at hun
  have hrs : rowsOf sl (21 % 64) = [(12, rowVclz)] := by
    change sl ∈ [Slot.v0, Slot.v1] at hs
    simp only [List.mem_cons, List.not_mem_nil, or_false] at hs
    rcases hs with rfl | rfl <;> rfl
  rw [hrs]
  simp only [firstRow, rowVclz, unpack, hun]
  simp only [ofNat_mod]
  simp only [Nat.reducePow, Nat.reduceMod, Nat.zero_mod, Nat.reduceBEq, beq_self_eq_true, Bool.and_self, if_true, bool_of_nat, hw, Option.bind_some, Bool.and_false, Bool.false_and, Bool.false_eq_true, if_false, elemOf_code]
theorem vceq (k : BitVec 4) (d : BitVec 4) (a : BitVec 6) (b : BitVec 6) (t : ElemType) : Statement (Instr.vceq k d a b t) := by
  intro sl hs hw
  refine decodeWord_row sl none [(4, t.code), (6, b.toNat), (6, a.toNat), (4, d.toNat), (2, 0), (4, k.toNat)] 22 8 _ rfl rfl fun n hun => ?_
  simp only [List.cons_append, List.nil_append, List.map_cons, List.map_nil, unpack, List.cons.injEq] at hun
  have hrs : rowsOf sl (22 % 64) = [(8, rowVceq)] := by
    change sl ∈ [Slot.v0, Slot.v1] at hs
    simp only [List.mem_cons, List.not_mem_nil, or_false] at hs
    rcases hs with rfl | rfl <;> rfl
  rw [hrs]
  simp only [firstRow, rowVceq, unpack, hun]
  simp only [ofNat_mod]
  simp only [Nat.reducePow, Nat.reduceMod, Nat.zero_mod, Nat.reduceBEq, beq_self_eq_true, Bool.and_self, if_true, bool_of_nat, hw, Option.bind_some, Bool.and_false, Bool.false_and, Bool.false_eq_true, if_false, elemOf_code]
theorem vcne (k : BitVec 4) (d : BitVec 4) (a : BitVec 6) (b : BitVec 6) (t : ElemType) : Statement (Instr.vcne k d a b t) := by
  intro sl hs hw
  refine decodeWord_row sl none [(4, t.code), (6, b.toNat), (6, a.toNat), (4, d.toNat), (2, 0), (4, k.toNat)] 23 8 _ rfl rfl fun n hun => ?_
  simp only [List.cons_append, List.nil_append, List.map_cons, List.map_nil, unpack, List.cons.injEq] at hun
  have hrs : rowsOf sl (23 % 64) = [(8, rowVcne)] := by
    change sl ∈ [Slot.v0, Slot.v1] at hs
    simp only [List.mem_cons, List.not_mem_nil, or_false] at hs
    rcases hs with rfl | rfl <;> rfl
  rw [hrs]
  simp only [firstRow, rowVcne, unpack, hun]
  simp only [ofNat_mod]
  simp only [Nat.reducePow, Nat.reduceMod, Nat.zero_mod, Nat.reduceBEq, beq_self_eq_true, Bool.and_self, if_true, bool_of_nat, hw, Option.bind_some, Bool.and_false, Bool.false_and, Bool.false_eq_true, if_false, elemOf_code]
theorem vclt (k : BitVec 4) (d : BitVec 4) (a : BitVec 6) (b : BitVec 6) (t : ElemType) : Statement (Instr.vclt k d a b t) := by
  intro sl hs hw
  refine decodeWord_row sl none [(4, t.code), (6, b.toNat), (6, a.toNat), (4, d.toNat), (2, 0), (4, k.toNat)] 24 8 _ rfl rfl fun n hun => ?_
  simp only [List.cons_append, List.nil_append, List.map_cons, List.map_nil, unpack, List.cons.injEq] at hun
  have hrs : rowsOf sl (24 % 64) = [(8, rowVclt)] := by
    change sl ∈ [Slot.v0, Slot.v1] at hs
    simp only [List.mem_cons, List.not_mem_nil, or_false] at hs
    rcases hs with rfl | rfl <;> rfl
  rw [hrs]
  simp only [firstRow, rowVclt, unpack, hun]
  simp only [ofNat_mod]
  simp only [Nat.reducePow, Nat.reduceMod, Nat.zero_mod, Nat.reduceBEq, beq_self_eq_true, Bool.and_self, if_true, bool_of_nat, hw, Option.bind_some, Bool.and_false, Bool.false_and, Bool.false_eq_true, if_false, elemOf_code]
theorem vcle (k : BitVec 4) (d : BitVec 4) (a : BitVec 6) (b : BitVec 6) (t : ElemType) : Statement (Instr.vcle k d a b t) := by
  intro sl hs hw
  refine decodeWord_row sl none [(4, t.code), (6, b.toNat), (6, a.toNat), (4, d.toNat), (2, 0), (4, k.toNat)] 25 8 _ rfl rfl fun n hun => ?_
  simp only [List.cons_append, List.nil_append, List.map_cons, List.map_nil, unpack, List.cons.injEq] at hun
  have hrs : rowsOf sl (25 % 64) = [(8, rowVcle)] := by
    change sl ∈ [Slot.v0, Slot.v1] at hs
    simp only [List.mem_cons, List.not_mem_nil, or_false] at hs
    rcases hs with rfl | rfl <;> rfl
  rw [hrs]
  simp only [firstRow, rowVcle, unpack, hun]
  simp only [ofNat_mod]
  simp only [Nat.reducePow, Nat.reduceMod, Nat.zero_mod, Nat.reduceBEq, beq_self_eq_true, Bool.and_self, if_true, bool_of_nat, hw, Option.bind_some, Bool.and_false, Bool.false_and, Bool.false_eq_true, if_false, elemOf_code]
theorem vsel (k : BitVec 4) (d : BitVec 6) (a : BitVec 6) (b : BitVec 6) (t : ElemType) : Statement (Instr.vsel k d a b t) := by
  intro sl hs hw
  refine decodeWord_row sl none [(4, t.code), (6, b.toNat), (6, a.toNat), (6, d.toNat), (4, k.toNat)] 26 6 _ rfl rfl fun n hun => ?_
  simp only [List.cons_append, List.nil_append, List.map_cons, List.map_nil, unpack, List.cons.injEq] at hun
  have hrs : rowsOf sl (26 % 64) = [(6, rowVsel)] := by
    change sl ∈ [Slot.v0, Slot.v1] at hs
    simp only [List.mem_cons, List.not_mem_nil, or_false] at hs
    rcases hs with rfl | rfl <;> rfl
  rw [hrs]
  simp only [firstRow, rowVsel, unpack, hun]
  simp only [ofNat_mod]
  simp only [Nat.reducePow, Nat.reduceMod, Nat.zero_mod, Nat.reduceBEq, beq_self_eq_true, Bool.and_self, if_true, bool_of_nat, hw, Option.bind_some, Bool.and_false, Bool.false_and, Bool.false_eq_true, if_false, elemOf_code]
theorem vmov (k : BitVec 4) (d : BitVec 6) (a : BitVec 6) (t : ElemType) : Statement (Instr.vmov k d a t) := by
  intro sl hs hw
  refine decodeWord_row sl none [(4, t.code), (6, 0), (6, a.toNat), (6, d.toNat), (4, k.toNat)] 27 12 _ rfl rfl fun n hun => ?_
  simp only [List.cons_append, List.nil_append, List.map_cons, List.map_nil, unpack, List.cons.injEq] at hun
  have hrs : rowsOf sl (27 % 64) = [(12, rowVmov)] := by
    change sl ∈ [Slot.v0, Slot.v1] at hs
    simp only [List.mem_cons, List.not_mem_nil, or_false] at hs
    rcases hs with rfl | rfl <;> rfl
  rw [hrs]
  simp only [firstRow, rowVmov, unpack, hun]
  simp only [ofNat_mod]
  simp only [Nat.reducePow, Nat.reduceMod, Nat.zero_mod, Nat.reduceBEq, beq_self_eq_true, Bool.and_self, if_true, bool_of_nat, hw, Option.bind_some, Bool.and_false, Bool.false_and, Bool.false_eq_true, if_false, elemOf_code]
theorem vimm (k : BitVec 4) (d : BitVec 6) (i : BitVec 6) (t : ElemType) (lit : Option Word) : Statement (Instr.vimm k d i t lit) := by
  intro sl hs hw
  refine decodeWord_row sl lit [(4, t.code), (6, i.toNat), (6, 0), (6, d.toNat), (4, k.toNat)] 28 12 _ rfl rfl fun n hun => ?_
  simp only [List.cons_append, List.nil_append, List.map_cons, List.map_nil, unpack, List.cons.injEq] at hun
  have hrs : rowsOf sl (28 % 64) = [(12, rowVimm)] := by
    change sl ∈ [Slot.v0, Slot.v1] at hs
    simp only [List.mem_cons, List.not_mem_nil, or_false] at hs
    rcases hs with rfl | rfl <;> rfl
  rw [hrs]
  simp only [firstRow, rowVimm, unpack, hun]
  simp only [ofNat_mod]
  simp only [Nat.reducePow, Nat.reduceMod, Nat.zero_mod, Nat.reduceBEq, beq_self_eq_true, Bool.and_self, if_true, bool_of_nat, hw, Option.bind_some, Bool.and_false, Bool.false_and, Bool.false_eq_true, if_false, elemOf_code]
theorem viota (k : BitVec 4) (d : BitVec 6) (i : BitVec 6) (t : ElemType) (lit : Option Word) : Statement (Instr.viota k d i t lit) := by
  intro sl hs hw
  refine decodeWord_row sl lit [(4, t.code), (6, i.toNat), (6, 0), (6, d.toNat), (4, k.toNat)] 29 12 _ rfl rfl fun n hun => ?_
  simp only [List.cons_append, List.nil_append, List.map_cons, List.map_nil, unpack, List.cons.injEq] at hun
  have hrs : rowsOf sl (29 % 64) = [(12, rowViota)] := by
    change sl ∈ [Slot.v0, Slot.v1] at hs
    simp only [List.mem_cons, List.not_mem_nil, or_false] at hs
    rcases hs with rfl | rfl <;> rfl
  rw [hrs]
  simp only [firstRow, rowViota, unpack, hun]
  simp only [ofNat_mod]
  simp only [Nat.reducePow, Nat.reduceMod, Nat.zero_mod, Nat.reduceBEq, beq_self_eq_true, Bool.and_self, if_true, bool_of_nat, hw, Option.bind_some, Bool.and_false, Bool.false_and, Bool.false_eq_true, if_false, elemOf_code]
theorem vcvt (k : BitVec 4) (d : BitVec 6) (a : BitVec 6) (m : RMode) (s : ElemType) (t : ElemType) : Statement (Instr.vcvt k d a m s t) := by
  intro sl hs hw
  refine decodeWord_row sl none [(4, t.code), (4, s.code), (2, m.code), (6, a.toNat), (6, d.toNat), (4, k.toNat)] 30 6 _ rfl rfl fun n hun => ?_
  simp only [List.cons_append, List.nil_append, List.map_cons, List.map_nil, unpack, List.cons.injEq] at hun
  have hrs : rowsOf sl (30 % 64) = [(6, rowVcvt)] := by
    change sl ∈ [Slot.v0, Slot.v1] at hs
    simp only [List.mem_cons, List.not_mem_nil, or_false] at hs
    rcases hs with rfl | rfl <;> rfl
  rw [hrs]
  simp only [firstRow, rowVcvt, unpack, hun]
  simp only [ofNat_mod]
  simp only [Nat.reducePow, Nat.reduceMod, Nat.zero_mod, Nat.reduceBEq, beq_self_eq_true, Bool.and_self, if_true, bool_of_nat, hw, Option.bind_some, Bool.and_false, Bool.false_and, Bool.false_eq_true, if_false, rmodeOf_code, elemOf_code]
theorem vrnd (k : BitVec 4) (d : BitVec 6) (a : BitVec 6) (m : RMode) (t : ElemType) : Statement (Instr.vrnd k d a m t) := by
  intro sl hs hw
  refine decodeWord_row sl none [(4, t.code), (2, m.code), (4, 0), (6, a.toNat), (6, d.toNat), (4, k.toNat)] 31 10 _ rfl rfl fun n hun => ?_
  simp only [List.cons_append, List.nil_append, List.map_cons, List.map_nil, unpack, List.cons.injEq] at hun
  have hrs : rowsOf sl (31 % 64) = [(10, rowVrnd)] := by
    change sl ∈ [Slot.v0, Slot.v1] at hs
    simp only [List.mem_cons, List.not_mem_nil, or_false] at hs
    rcases hs with rfl | rfl <;> rfl
  rw [hrs]
  simp only [firstRow, rowVrnd, unpack, hun]
  simp only [ofNat_mod]
  simp only [Nat.reducePow, Nat.reduceMod, Nat.zero_mod, Nat.reduceBEq, beq_self_eq_true, Bool.and_self, if_true, bool_of_nat, hw, Option.bind_some, Bool.and_false, Bool.false_and, Bool.false_eq_true, if_false, rmodeOf_code, elemOf_code]
theorem vexp2 (k : BitVec 4) (d : BitVec 6) (a : BitVec 6) (t : ElemType) : Statement (Instr.vexp2 k d a t) := by
  intro sl hs hw
  refine decodeWord_row sl none [(4, t.code), (6, 0), (6, a.toNat), (6, d.toNat), (4, k.toNat)] 32 12 _ rfl rfl fun n hun => ?_
  simp only [List.cons_append, List.nil_append, List.map_cons, List.map_nil, unpack, List.cons.injEq] at hun
  have hrs : rowsOf sl (32 % 64) = [(12, rowVexp2)] := by
    change sl ∈ [Slot.v0, Slot.v1] at hs
    simp only [List.mem_cons, List.not_mem_nil, or_false] at hs
    rcases hs with rfl | rfl <;> rfl
  rw [hrs]
  simp only [firstRow, rowVexp2, unpack, hun]
  simp only [ofNat_mod]
  simp only [Nat.reducePow, Nat.reduceMod, Nat.zero_mod, Nat.reduceBEq, beq_self_eq_true, Bool.and_self, if_true, bool_of_nat, hw, Option.bind_some, Bool.and_false, Bool.false_and, Bool.false_eq_true, if_false, elemOf_code]
theorem vlog2 (k : BitVec 4) (d : BitVec 6) (a : BitVec 6) (t : ElemType) : Statement (Instr.vlog2 k d a t) := by
  intro sl hs hw
  refine decodeWord_row sl none [(4, t.code), (6, 0), (6, a.toNat), (6, d.toNat), (4, k.toNat)] 33 12 _ rfl rfl fun n hun => ?_
  simp only [List.cons_append, List.nil_append, List.map_cons, List.map_nil, unpack, List.cons.injEq] at hun
  have hrs : rowsOf sl (33 % 64) = [(12, rowVlog2)] := by
    change sl ∈ [Slot.v0, Slot.v1] at hs
    simp only [List.mem_cons, List.not_mem_nil, or_false] at hs
    rcases hs with rfl | rfl <;> rfl
  rw [hrs]
  simp only [firstRow, rowVlog2, unpack, hun]
  simp only [ofNat_mod]
  simp only [Nat.reducePow, Nat.reduceMod, Nat.zero_mod, Nat.reduceBEq, beq_self_eq_true, Bool.and_self, if_true, bool_of_nat, hw, Option.bind_some, Bool.and_false, Bool.false_and, Bool.false_eq_true, if_false, elemOf_code]
theorem vrcp (k : BitVec 4) (d : BitVec 6) (a : BitVec 6) (t : ElemType) : Statement (Instr.vrcp k d a t) := by
  intro sl hs hw
  refine decodeWord_row sl none [(4, t.code), (6, 0), (6, a.toNat), (6, d.toNat), (4, k.toNat)] 34 12 _ rfl rfl fun n hun => ?_
  simp only [List.cons_append, List.nil_append, List.map_cons, List.map_nil, unpack, List.cons.injEq] at hun
  have hrs : rowsOf sl (34 % 64) = [(12, rowVrcp)] := by
    change sl ∈ [Slot.v0, Slot.v1] at hs
    simp only [List.mem_cons, List.not_mem_nil, or_false] at hs
    rcases hs with rfl | rfl <;> rfl
  rw [hrs]
  simp only [firstRow, rowVrcp, unpack, hun]
  simp only [ofNat_mod]
  simp only [Nat.reducePow, Nat.reduceMod, Nat.zero_mod, Nat.reduceBEq, beq_self_eq_true, Bool.and_self, if_true, bool_of_nat, hw, Option.bind_some, Bool.and_false, Bool.false_and, Bool.false_eq_true, if_false, elemOf_code]
theorem vrsq (k : BitVec 4) (d : BitVec 6) (a : BitVec 6) (t : ElemType) : Statement (Instr.vrsq k d a t) := by
  intro sl hs hw
  refine decodeWord_row sl none [(4, t.code), (6, 0), (6, a.toNat), (6, d.toNat), (4, k.toNat)] 35 12 _ rfl rfl fun n hun => ?_
  simp only [List.cons_append, List.nil_append, List.map_cons, List.map_nil, unpack, List.cons.injEq] at hun
  have hrs : rowsOf sl (35 % 64) = [(12, rowVrsq)] := by
    change sl ∈ [Slot.v0, Slot.v1] at hs
    simp only [List.mem_cons, List.not_mem_nil, or_false] at hs
    rcases hs with rfl | rfl <;> rfl
  rw [hrs]
  simp only [firstRow, rowVrsq, unpack, hun]
  simp only [ofNat_mod]
  simp only [Nat.reducePow, Nat.reduceMod, Nat.zero_mod, Nat.reduceBEq, beq_self_eq_true, Bool.and_self, if_true, bool_of_nat, hw, Option.bind_some, Bool.and_false, Bool.false_and, Bool.false_eq_true, if_false, elemOf_code]
theorem vredsum (k : BitVec 4) (d : BitVec 6) (a : BitVec 6) (t : ElemType) : Statement (Instr.vredsum k d a t) := by
  intro sl hs hw
  refine decodeWord_row sl none [(4, t.code), (6, 0), (6, a.toNat), (6, d.toNat), (4, k.toNat)] 36 12 _ rfl rfl fun n hun => ?_
  simp only [List.cons_append, List.nil_append, List.map_cons, List.map_nil, unpack, List.cons.injEq] at hun
  have hrs : rowsOf sl (36 % 64) = [(12, rowVredsum)] := by
    change sl ∈ [Slot.v0, Slot.v1] at hs
    simp only [List.mem_cons, List.not_mem_nil, or_false] at hs
    rcases hs with rfl | rfl <;> rfl
  rw [hrs]
  simp only [firstRow, rowVredsum, unpack, hun]
  simp only [ofNat_mod]
  simp only [Nat.reducePow, Nat.reduceMod, Nat.zero_mod, Nat.reduceBEq, beq_self_eq_true, Bool.and_self, if_true, bool_of_nat, hw, Option.bind_some, Bool.and_false, Bool.false_and, Bool.false_eq_true, if_false, elemOf_code]
theorem vredmin (k : BitVec 4) (d : BitVec 6) (a : BitVec 6) (t : ElemType) : Statement (Instr.vredmin k d a t) := by
  intro sl hs hw
  refine decodeWord_row sl none [(4, t.code), (6, 0), (6, a.toNat), (6, d.toNat), (4, k.toNat)] 37 12 _ rfl rfl fun n hun => ?_
  simp only [List.cons_append, List.nil_append, List.map_cons, List.map_nil, unpack, List.cons.injEq] at hun
  have hrs : rowsOf sl (37 % 64) = [(12, rowVredmin)] := by
    change sl ∈ [Slot.v0, Slot.v1] at hs
    simp only [List.mem_cons, List.not_mem_nil, or_false] at hs
    rcases hs with rfl | rfl <;> rfl
  rw [hrs]
  simp only [firstRow, rowVredmin, unpack, hun]
  simp only [ofNat_mod]
  simp only [Nat.reducePow, Nat.reduceMod, Nat.zero_mod, Nat.reduceBEq, beq_self_eq_true, Bool.and_self, if_true, bool_of_nat, hw, Option.bind_some, Bool.and_false, Bool.false_and, Bool.false_eq_true, if_false, elemOf_code]
theorem vredmax (k : BitVec 4) (d : BitVec 6) (a : BitVec 6) (t : ElemType) : Statement (Instr.vredmax k d a t) := by
  intro sl hs hw
  refine decodeWord_row sl none [(4, t.code), (6, 0), (6, a.toNat), (6, d.toNat), (4, k.toNat)] 38 12 _ rfl rfl fun n hun => ?_
  simp only [List.cons_append, List.nil_append, List.map_cons, List.map_nil, unpack, List.cons.injEq] at hun
  have hrs : rowsOf sl (38 % 64) = [(12, rowVredmax)] := by
    change sl ∈ [Slot.v0, Slot.v1] at hs
    simp only [List.mem_cons, List.not_mem_nil, or_false] at hs
    rcases hs with rfl | rfl <;> rfl
  rw [hrs]
  simp only [firstRow, rowVredmax, unpack, hun]
  simp only [ofNat_mod]
  simp only [Nat.reducePow, Nat.reduceMod, Nat.zero_mod, Nat.reduceBEq, beq_self_eq_true, Bool.and_self, if_true, bool_of_nat, hw, Option.bind_some, Bool.and_false, Bool.false_and, Bool.false_eq_true, if_false, elemOf_code]
theorem vscan (k : BitVec 4) (d : BitVec 6) (a : BitVec 6) (o : BitVec 2) (t : ElemType) : Statement (Instr.vscan k d a o t) := by
  intro sl hs hw
  refine decodeWord_row sl none [(4, t.code), (2, o.toNat), (4, 0), (6, a.toNat), (6, d.toNat), (4, k.toNat)] 39 10 _ rfl rfl fun n hun => ?_
  simp only [List.cons_append, List.nil_append, List.map_cons, List.map_nil, unpack, List.cons.injEq] at hun
  have hrs : rowsOf sl (39 % 64) = [(10, rowVscan)] := by
    change sl ∈ [Slot.v0, Slot.v1] at hs
    simp only [List.mem_cons, List.not_mem_nil, or_false] at hs
    rcases hs with rfl | rfl <;> rfl
  rw [hrs]
  simp only [firstRow, rowVscan, unpack, hun]
  simp only [ofNat_mod]
  simp only [Nat.reducePow, Nat.reduceMod, Nat.zero_mod, Nat.reduceBEq, beq_self_eq_true, Bool.and_self, if_true, bool_of_nat, hw, Option.bind_some, Bool.and_false, Bool.false_and, Bool.false_eq_true, if_false, elemOf_code]
theorem vperm (k : BitVec 4) (d : BitVec 6) (a : BitVec 6) (b : BitVec 6) (t : ElemType) : Statement (Instr.vperm k d a b t) := by
  intro sl hs hw
  refine decodeWord_row sl none [(4, t.code), (6, b.toNat), (6, a.toNat), (6, d.toNat), (4, k.toNat)] 40 6 _ rfl rfl fun n hun => ?_
  simp only [List.cons_append, List.nil_append, List.map_cons, List.map_nil, unpack, List.cons.injEq] at hun
  have hrs : rowsOf sl (40 % 64) = [(6, rowVperm)] := by
    change sl ∈ [Slot.v0, Slot.v1] at hs
    simp only [List.mem_cons, List.not_mem_nil, or_false] at hs
    rcases hs with rfl | rfl <;> rfl
  rw [hrs]
  simp only [firstRow, rowVperm, unpack, hun]
  simp only [ofNat_mod]
  simp only [Nat.reducePow, Nat.reduceMod, Nat.zero_mod, Nat.reduceBEq, beq_self_eq_true, Bool.and_self, if_true, bool_of_nat, hw, Option.bind_some, Bool.and_false, Bool.false_and, Bool.false_eq_true, if_false, elemOf_code]
theorem vslide (k : BitVec 4) (d : BitVec 6) (a : BitVec 6) (i : BitVec 6) (t : ElemType) (lit : Option Word) : Statement (Instr.vslide k d a i t lit) := by
  intro sl hs hw
  refine decodeWord_row sl lit [(4, t.code), (6, i.toNat), (6, a.toNat), (6, d.toNat), (4, k.toNat)] 41 6 _ rfl rfl fun n hun => ?_
  simp only [List.cons_append, List.nil_append, List.map_cons, List.map_nil, unpack, List.cons.injEq] at hun
  have hrs : rowsOf sl (41 % 64) = [(6, rowVslide)] := by
    change sl ∈ [Slot.v0, Slot.v1] at hs
    simp only [List.mem_cons, List.not_mem_nil, or_false] at hs
    rcases hs with rfl | rfl <;> rfl
  rw [hrs]
  simp only [firstRow, rowVslide, unpack, hun]
  simp only [ofNat_mod]
  simp only [Nat.reducePow, Nat.reduceMod, Nat.zero_mod, Nat.reduceBEq, beq_self_eq_true, Bool.and_self, if_true, bool_of_nat, hw, Option.bind_some, Bool.and_false, Bool.false_and, Bool.false_eq_true, if_false, elemOf_code]
theorem vtopk (k : BitVec 4) (d : BitVec 6) (a : BitVec 6) (t : ElemType) : Statement (Instr.vtopk k d a t) := by
  intro sl hs hw
  refine decodeWord_row sl none [(4, t.code), (6, 0), (6, a.toNat), (6, d.toNat), (4, k.toNat)] 42 12 _ rfl rfl fun n hun => ?_
  simp only [List.cons_append, List.nil_append, List.map_cons, List.map_nil, unpack, List.cons.injEq] at hun
  have hrs : rowsOf sl (42 % 64) = [(12, rowVtopk)] := by
    change sl ∈ [Slot.v0, Slot.v1] at hs
    simp only [List.mem_cons, List.not_mem_nil, or_false] at hs
    rcases hs with rfl | rfl <;> rfl
  rw [hrs]
  simp only [firstRow, rowVtopk, unpack, hun]
  simp only [ofNat_mod]
  simp only [Nat.reducePow, Nat.reduceMod, Nat.zero_mod, Nat.reduceBEq, beq_self_eq_true, Bool.and_self, if_true, bool_of_nat, hw, Option.bind_some, Bool.and_false, Bool.false_and, Bool.false_eq_true, if_false, elemOf_code]
theorem vbset (k : BitVec 4) (d : BitVec 6) (b : BitVec 6) : Statement (Instr.vbset k d b) := by
  intro sl hs hw
  refine decodeWord_row sl none [(4, 5), (6, b.toNat), (6, 0), (6, d.toNat), (4, k.toNat)] 43 16 _ rfl rfl fun n hun => ?_
  simp only [List.cons_append, List.nil_append, List.map_cons, List.map_nil, unpack, List.cons.injEq] at hun
  have hrs : rowsOf sl (43 % 64) = [(16, rowVbset)] := by
    change sl ∈ [Slot.v0, Slot.v1] at hs
    simp only [List.mem_cons, List.not_mem_nil, or_false] at hs
    rcases hs with rfl | rfl <;> rfl
  rw [hrs]
  simp only [firstRow, rowVbset, unpack, hun]
  simp only [ofNat_mod]
  simp only [Nat.reducePow, Nat.reduceMod, Nat.zero_mod, Nat.reduceBEq, beq_self_eq_true, Bool.and_self, if_true, bool_of_nat, hw, Option.bind_some, Bool.and_false, Bool.false_and, Bool.false_eq_true, if_false]
theorem vkand (d : BitVec 4) (a : BitVec 4) (b : BitVec 4) : Statement (Instr.vkand d a b) := by
  intro sl hs hw
  refine decodeWord_row sl none [(4, 0), (4, b.toNat), (2, 0), (4, a.toNat), (2, 0), (4, d.toNat), (6, 0)] 44 20 _ rfl rfl fun n hun => ?_
  simp only [List.cons_append, List.nil_append, List.map_cons, List.map_nil, unpack, List.cons.injEq] at hun
  have hrs : rowsOf sl (44 % 64) = [(20, rowVkand)] := by
    change sl ∈ [Slot.v0, Slot.v1] at hs
    simp only [List.mem_cons, List.not_mem_nil, or_false] at hs
    rcases hs with rfl | rfl <;> rfl
  rw [hrs]
  simp only [firstRow, rowVkand, unpack, hun]
  simp only [ofNat_mod]
  simp only [Nat.reducePow, Nat.reduceMod, Nat.zero_mod, Nat.reduceBEq, beq_self_eq_true, Bool.and_self, if_true, bool_of_nat, hw, Option.bind_some, Bool.and_false, Bool.false_and, Bool.false_eq_true, if_false]
theorem vkor (d : BitVec 4) (a : BitVec 4) (b : BitVec 4) : Statement (Instr.vkor d a b) := by
  intro sl hs hw
  refine decodeWord_row sl none [(4, 0), (4, b.toNat), (2, 0), (4, a.toNat), (2, 0), (4, d.toNat), (6, 0)] 45 20 _ rfl rfl fun n hun => ?_
  simp only [List.cons_append, List.nil_append, List.map_cons, List.map_nil, unpack, List.cons.injEq] at hun
  have hrs : rowsOf sl (45 % 64) = [(20, rowVkor)] := by
    change sl ∈ [Slot.v0, Slot.v1] at hs
    simp only [List.mem_cons, List.not_mem_nil, or_false] at hs
    rcases hs with rfl | rfl <;> rfl
  rw [hrs]
  simp only [firstRow, rowVkor, unpack, hun]
  simp only [ofNat_mod]
  simp only [Nat.reducePow, Nat.reduceMod, Nat.zero_mod, Nat.reduceBEq, beq_self_eq_true, Bool.and_self, if_true, bool_of_nat, hw, Option.bind_some, Bool.and_false, Bool.false_and, Bool.false_eq_true, if_false]
theorem vkxor (d : BitVec 4) (a : BitVec 4) (b : BitVec 4) : Statement (Instr.vkxor d a b) := by
  intro sl hs hw
  refine decodeWord_row sl none [(4, 0), (4, b.toNat), (2, 0), (4, a.toNat), (2, 0), (4, d.toNat), (6, 0)] 46 20 _ rfl rfl fun n hun => ?_
  simp only [List.cons_append, List.nil_append, List.map_cons, List.map_nil, unpack, List.cons.injEq] at hun
  have hrs : rowsOf sl (46 % 64) = [(20, rowVkxor)] := by
    change sl ∈ [Slot.v0, Slot.v1] at hs
    simp only [List.mem_cons, List.not_mem_nil, or_false] at hs
    rcases hs with rfl | rfl <;> rfl
  rw [hrs]
  simp only [firstRow, rowVkxor, unpack, hun]
  simp only [ofNat_mod]
  simp only [Nat.reducePow, Nat.reduceMod, Nat.zero_mod, Nat.reduceBEq, beq_self_eq_true, Bool.and_self, if_true, bool_of_nat, hw, Option.bind_some, Bool.and_false, Bool.false_and, Bool.false_eq_true, if_false]
theorem vkandn (d : BitVec 4) (a : BitVec 4) (b : BitVec 4) : Statement (Instr.vkandn d a b) := by
  intro sl hs hw
  refine decodeWord_row sl none [(4, 0), (4, b.toNat), (2, 0), (4, a.toNat), (2, 0), (4, d.toNat), (6, 0)] 47 20 _ rfl rfl fun n hun => ?_
  simp only [List.cons_append, List.nil_append, List.map_cons, List.map_nil, unpack, List.cons.injEq] at hun
  have hrs : rowsOf sl (47 % 64) = [(20, rowVkandn)] := by
    change sl ∈ [Slot.v0, Slot.v1] at hs
    simp only [List.mem_cons, List.not_mem_nil, or_false] at hs
    rcases hs with rfl | rfl <;> rfl
  rw [hrs]
  simp only [firstRow, rowVkandn, unpack, hun]
  simp only [ofNat_mod]
  simp only [Nat.reducePow, Nat.reduceMod, Nat.zero_mod, Nat.reduceBEq, beq_self_eq_true, Bool.and_self, if_true, bool_of_nat, hw, Option.bind_some, Bool.and_false, Bool.false_and, Bool.false_eq_true, if_false]
theorem vkpop (d : BitVec 6) (a : BitVec 4) : Statement (Instr.vkpop d a) := by
  intro sl hs hw
  refine decodeWord_row sl none [(10, 5), (4, a.toNat), (2, 0), (6, d.toNat), (4, 0)] 48 22 _ rfl rfl fun n hun => ?_
  simp only [List.cons_append, List.nil_append, List.map_cons, List.map_nil, unpack, List.cons.injEq] at hun
  have hrs : rowsOf sl (48 % 64) = [(22, rowVkpop)] := by
    change sl ∈ [Slot.v0, Slot.v1] at hs
    simp only [List.mem_cons, List.not_mem_nil, or_false] at hs
    rcases hs with rfl | rfl <;> rfl
  rw [hrs]
  simp only [firstRow, rowVkpop, unpack, hun]
  simp only [ofNat_mod]
  simp only [Nat.reducePow, Nat.reduceMod, Nat.zero_mod, Nat.reduceBEq, beq_self_eq_true, Bool.and_self, if_true, bool_of_nat, hw, Option.bind_some, Bool.and_false, Bool.false_and, Bool.false_eq_true, if_false]
theorem vkfirst (d : BitVec 6) (a : BitVec 4) : Statement (Instr.vkfirst d a) := by
  intro sl hs hw
  refine decodeWord_row sl none [(10, 5), (4, a.toNat), (2, 0), (6, d.toNat), (4, 0)] 49 22 _ rfl rfl fun n hun => ?_
  simp only [List.cons_append, List.nil_append, List.map_cons, List.map_nil, unpack, List.cons.injEq] at hun
  have hrs : rowsOf sl (49 % 64) = [(22, rowVkfirst)] := by
    change sl ∈ [Slot.v0, Slot.v1] at hs
    simp only [List.mem_cons, List.not_mem_nil, or_false] at hs
    rcases hs with rfl | rfl <;> rfl
  rw [hrs]
  simp only [firstRow, rowVkfirst, unpack, hun]
  simp only [ofNat_mod]
  simp only [Nat.reducePow, Nat.reduceMod, Nat.zero_mod, Nat.reduceBEq, beq_self_eq_true, Bool.and_self, if_true, bool_of_nat, hw, Option.bind_some, Bool.and_false, Bool.false_and, Bool.false_eq_true, if_false]
theorem vshli (k : BitVec 4) (d : BitVec 6) (a : BitVec 6) (i : BitVec 6) (t : ElemType) (lit : Option Word) : Statement (Instr.vshli k d a i t lit) := by
  intro sl hs hw
  refine decodeWord_row sl lit [(4, t.code), (6, i.toNat), (6, a.toNat), (6, d.toNat), (4, k.toNat)] 50 6 _ rfl rfl fun n hun => ?_
  simp only [List.cons_append, List.nil_append, List.map_cons, List.map_nil, unpack, List.cons.injEq] at hun
  have hrs : rowsOf sl (50 % 64) = [(6, rowVshli)] := by
    change sl ∈ [Slot.v0, Slot.v1] at hs
    simp only [List.mem_cons, List.not_mem_nil, or_false] at hs
    rcases hs with rfl | rfl <;> rfl
  rw [hrs]
  simp only [firstRow, rowVshli, unpack, hun]
  simp only [ofNat_mod]
  simp only [Nat.reducePow, Nat.reduceMod, Nat.zero_mod, Nat.reduceBEq, beq_self_eq_true, Bool.and_self, if_true, bool_of_nat, hw, Option.bind_some, Bool.and_false, Bool.false_and, Bool.false_eq_true, if_false, elemOf_code]
theorem vshri (k : BitVec 4) (d : BitVec 6) (a : BitVec 6) (i : BitVec 6) (t : ElemType) (lit : Option Word) : Statement (Instr.vshri k d a i t lit) := by
  intro sl hs hw
  refine decodeWord_row sl lit [(4, t.code), (6, i.toNat), (6, a.toNat), (6, d.toNat), (4, k.toNat)] 51 6 _ rfl rfl fun n hun => ?_
  simp only [List.cons_append, List.nil_append, List.map_cons, List.map_nil, unpack, List.cons.injEq] at hun
  have hrs : rowsOf sl (51 % 64) = [(6, rowVshri)] := by
    change sl ∈ [Slot.v0, Slot.v1] at hs
    simp only [List.mem_cons, List.not_mem_nil, or_false] at hs
    rcases hs with rfl | rfl <;> rfl
  rw [hrs]
  simp only [firstRow, rowVshri, unpack, hun]
  simp only [ofNat_mod]
  simp only [Nat.reducePow, Nat.reduceMod, Nat.zero_mod, Nat.reduceBEq, beq_self_eq_true, Bool.and_self, if_true, bool_of_nat, hw, Option.bind_some, Bool.and_false, Bool.false_and, Bool.false_eq_true, if_false, elemOf_code]
theorem vsari (k : BitVec 4) (d : BitVec 6) (a : BitVec 6) (i : BitVec 6) (t : ElemType) (lit : Option Word) : Statement (Instr.vsari k d a i t lit) := by
  intro sl hs hw
  refine decodeWord_row sl lit [(4, t.code), (6, i.toNat), (6, a.toNat), (6, d.toNat), (4, k.toNat)] 52 6 _ rfl rfl fun n hun => ?_
  simp only [List.cons_append, List.nil_append, List.map_cons, List.map_nil, unpack, List.cons.injEq] at hun
  have hrs : rowsOf sl (52 % 64) = [(6, rowVsari)] := by
    change sl ∈ [Slot.v0, Slot.v1] at hs
    simp only [List.mem_cons, List.not_mem_nil, or_false] at hs
    rcases hs with rfl | rfl <;> rfl
  rw [hrs]
  simp only [firstRow, rowVsari, unpack, hun]
  simp only [ofNat_mod]
  simp only [Nat.reducePow, Nat.reduceMod, Nat.zero_mod, Nat.reduceBEq, beq_self_eq_true, Bool.and_self, if_true, bool_of_nat, hw, Option.bind_some, Bool.and_false, Bool.false_and, Bool.false_eq_true, if_false, elemOf_code]
theorem mpass (p : Pred) (a : BitVec 2) (w : BitVec 4) (b : BitVec 4) (o : CellOp) (k : Bool) (j : Bool) : Statement (Instr.mpass p a w b o k j) := by
  intro sl hs hw
  refine decodeWord_row sl none [(8, 0), (1, j.toNat), (1, k.toNat), (2, o.code), (4, b.toNat), (4, w.toNat), (2, a.toNat), (1, p.ng.toNat), (3, p.qp.toNat)] 0 14 _ rfl rfl fun n hun => ?_
  simp only [List.cons_append, List.nil_append, List.map_cons, List.map_nil, unpack, List.cons.injEq] at hun
  have hrs : rowsOf sl (0 % 64) = [(14, rowMpass)] := by
    change sl ∈ [Slot.m] at hs
    simp only [List.mem_cons, List.not_mem_nil, or_false] at hs
    subst hs; rfl
  rw [hrs]
  simp only [firstRow, rowMpass, unpack, hun]
  simp only [ofNat_mod]
  simp only [Nat.reducePow, Nat.reduceMod, Nat.zero_mod, Nat.reduceBEq, beq_self_eq_true, Bool.and_self, if_true, bool_of_nat, hw, Option.bind_some, Bool.and_false, Bool.false_and, Bool.false_eq_true, if_false, cellOpOf_code]
theorem mop (p : Pred) (o : CellOp) : Statement (Instr.mop p o) := by
  intro sl hs hw
  refine decodeWord_row sl none [(10, 0), (2, o.code), (10, 0), (1, p.ng.toNat), (3, p.qp.toNat)] 1 26 _ rfl rfl fun n hun => ?_
  simp only [List.cons_append, List.nil_append, List.map_cons, List.map_nil, unpack, List.cons.injEq] at hun
  have hrs : rowsOf sl (1 % 64) = [(26, rowMop)] := by
    change sl ∈ [Slot.m] at hs
    simp only [List.mem_cons, List.not_mem_nil, or_false] at hs
    subst hs; rfl
  rw [hrs]
  simp only [firstRow, rowMop, unpack, hun]
  simp only [ofNat_mod]
  simp only [Nat.reducePow, Nat.reduceMod, Nat.zero_mod, Nat.reduceBEq, beq_self_eq_true, Bool.and_self, if_true, bool_of_nat, hw, Option.bind_some, Bool.and_false, Bool.false_and, Bool.false_eq_true, if_false, cellOpOf_code]
theorem mgath (p : Pred) (v : BitVec 6) (w : BitVec 4) (k : BitVec 4) : Statement (Instr.mgath p v w k) := by
  intro sl hs hw
  refine decodeWord_row sl none [(8, 0), (4, k.toNat), (4, w.toNat), (6, v.toNat), (1, p.ng.toNat), (3, p.qp.toNat)] 2 14 _ rfl rfl fun n hun => ?_
  simp only [List.cons_append, List.nil_append, List.map_cons, List.map_nil, unpack, List.cons.injEq] at hun
  have hrs : rowsOf sl (2 % 64) = [(14, rowMgath)] := by
    change sl ∈ [Slot.m] at hs
    simp only [List.mem_cons, List.not_mem_nil, or_false] at hs
    subst hs; rfl
  rw [hrs]
  simp only [firstRow, rowMgath, unpack, hun]
  simp only [ofNat_mod]
  simp only [Nat.reducePow, Nat.reduceMod, Nat.zero_mod, Nat.reduceBEq, beq_self_eq_true, Bool.and_self, if_true, bool_of_nat, hw, Option.bind_some, Bool.and_false, Bool.false_and, Bool.false_eq_true, if_false]
theorem minit (p : Pred) (a : BitVec 2) (s : BitVec 2) (i : Bool) (x : BitVec 5) : Statement (Instr.minit p a s i x) := by
  intro sl hs hw
  refine decodeWord_row sl none [(12, 0), (5, x.toNat), (1, i.toNat), (2, s.toNat), (2, a.toNat), (1, p.ng.toNat), (3, p.qp.toNat)] 3 18 _ rfl rfl fun n hun => ?_
  simp only [List.cons_append, List.nil_append, List.map_cons, List.map_nil, unpack, List.cons.injEq] at hun
  have hrs : rowsOf sl (3 % 64) = [(18, rowMinit)] := by
    change sl ∈ [Slot.m] at hs
    simp only [List.mem_cons, List.not_mem_nil, or_false] at hs
    subst hs; rfl
  rw [hrs]
  simp only [firstRow, rowMinit, unpack, hun]
  simp only [ofNat_mod]
  simp only [Nat.reducePow, Nat.reduceMod, Nat.zero_mod, Nat.reduceBEq, beq_self_eq_true, Bool.and_self, if_true, bool_of_nat, hw, Option.bind_some, Bool.and_false, Bool.false_and, Bool.false_eq_true, if_false]
theorem mrd (p : Pred) (a : BitVec 2) (r : BitVec 6) (t : ElemType) (v : BitVec 6) (k : BitVec 4) : Statement (Instr.mrd p a r t v k) := by
  intro sl hs hw
  refine decodeWord_row sl none [(4, k.toNat), (6, v.toNat), (4, t.code), (6, r.toNat), (2, a.toNat), (1, p.ng.toNat), (3, p.qp.toNat)] 4 6 _ rfl rfl fun n hun => ?_
  simp only [List.cons_append, List.nil_append, List.map_cons, List.map_nil, unpack, List.cons.injEq] at hun
  have hrs : rowsOf sl (4 % 64) = [(6, rowMrd)] := by
    change sl ∈ [Slot.m] at hs
    simp only [List.mem_cons, List.not_mem_nil, or_false] at hs
    subst hs; rfl
  rw [hrs]
  simp only [firstRow, rowMrd, unpack, hun]
  simp only [ofNat_mod]
  simp only [Nat.reducePow, Nat.reduceMod, Nat.zero_mod, Nat.reduceBEq, beq_self_eq_true, Bool.and_self, if_true, bool_of_nat, hw, Option.bind_some, Bool.and_false, Bool.false_and, Bool.false_eq_true, if_false, elemOf_code]
theorem mwr (p : Pred) (a : BitVec 2) (r : BitVec 6) (t : ElemType) (v : BitVec 6) (k : BitVec 4) : Statement (Instr.mwr p a r t v k) := by
  intro sl hs hw
  refine decodeWord_row sl none [(4, k.toNat), (6, v.toNat), (4, t.code), (6, r.toNat), (2, a.toNat), (1, p.ng.toNat), (3, p.qp.toNat)] 5 6 _ rfl rfl fun n hun => ?_
  simp only [List.cons_append, List.nil_append, List.map_cons, List.map_nil, unpack, List.cons.injEq] at hun
  have hrs : rowsOf sl (5 % 64) = [(6, rowMwr)] := by
    change sl ∈ [Slot.m] at hs
    simp only [List.mem_cons, List.not_mem_nil, or_false] at hs
    subst hs; rfl
  rw [hrs]
  simp only [firstRow, rowMwr, unpack, hun]
  simp only [ofNat_mod]
  simp only [Nat.reducePow, Nat.reduceMod, Nat.zero_mod, Nat.reduceBEq, beq_self_eq_true, Bool.and_self, if_true, bool_of_nat, hw, Option.bind_some, Bool.and_false, Bool.false_and, Bool.false_eq_true, if_false, elemOf_code]
theorem mst (p : Pred) (a : BitVec 2) (w : BitVec 4) (q : BitVec 2) : Statement (Instr.mst p a w q) := by
  intro sl hs hw
  refine decodeWord_row sl none [(14, 0), (2, q.toNat), (4, w.toNat), (2, a.toNat), (1, p.ng.toNat), (3, p.qp.toNat)] 6 20 _ rfl rfl fun n hun => ?_
  simp only [List.cons_append, List.nil_append, List.map_cons, List.map_nil, unpack, List.cons.injEq] at hun
  have hrs : rowsOf sl (6 % 64) = [(20, rowMst)] := by
    change sl ∈ [Slot.m] at hs
    simp only [List.mem_cons, List.not_mem_nil, or_false] at hs
    subst hs; rfl
  rw [hrs]
  simp only [firstRow, rowMst, unpack, hun]
  simp only [ofNat_mod]
  simp only [Nat.reducePow, Nat.reduceMod, Nat.zero_mod, Nat.reduceBEq, beq_self_eq_true, Bool.and_self, if_true, bool_of_nat, hw, Option.bind_some, Bool.and_false, Bool.false_and, Bool.false_eq_true, if_false]
theorem mqpushFullTimeout (c : Nat) : Statement (Instr.mqpushFullTimeout c) := fun _ h => absurd h List.not_mem_nil
theorem mcasLockTimeout (m : Nat) : Statement (Instr.mcasLockTimeout m) := fun _ h => absurd h List.not_mem_nil
theorem mstComplete (c : Nat) : Statement (Instr.mstComplete c) := fun _ h => absurd h List.not_mem_nil
theorem interlockedCompletion (c : Nat) (id : Nat) : Statement (Instr.interlockedCompletion c id) := fun _ h => absurd h List.not_mem_nil
theorem lanternAccept (cl : Nat) (desc : BitVec 512) (addr : Dbl) (graph : (Option NodeRef)) : Statement (Instr.lanternAccept cl desc addr graph) := fun _ h => absurd h List.not_mem_nil
theorem inputArrival (cl : Nat) (entry : Nat) (map : Nat) : Statement (Instr.inputArrival cl entry map) := fun _ h => absurd h List.not_mem_nil
theorem taskDispatch (cl : Nat) : Statement (Instr.taskDispatch cl) := fun _ h => absurd h List.not_mem_nil
theorem classAgeing (cl : Nat) (entry : Nat) : Statement (Instr.classAgeing cl entry) := fun _ h => absurd h List.not_mem_nil
theorem class0PreemptDecision (cl : Nat) (entry : Nat) : Statement (Instr.class0PreemptDecision cl entry) := fun _ h => absurd h List.not_mem_nil
theorem versionWaitTimeout (u : TileUser) : Statement (Instr.versionWaitTimeout u) := fun _ h => absurd h List.not_mem_nil
theorem parkedTaskResume (c : Nat) : Statement (Instr.parkedTaskResume c) := fun _ h => absurd h List.not_mem_nil
theorem memberEnd (c : Nat) : Statement (Instr.memberEnd c) := fun _ h => absurd h List.not_mem_nil
theorem preemption (cl : Nat) (entry : Nat) : Statement (Instr.preemption cl entry) := fun _ h => absurd h List.not_mem_nil
theorem saveRecordComplete (cl : Nat) (entry : Nat) : Statement (Instr.saveRecordComplete cl entry) := fun _ h => absurd h List.not_mem_nil
theorem taskResume (cl : Nat) (entry : Nat) : Statement (Instr.taskResume cl entry) := fun _ h => absurd h List.not_mem_nil
theorem loamAllocation (cl : Nat) (slice : Nat) : Statement (Instr.loamAllocation cl slice) := fun _ h => absurd h List.not_mem_nil
theorem allocationTimeout (cl : Nat) (id : Nat) : Statement (Instr.allocationTimeout cl id) := fun _ h => absurd h List.not_mem_nil
theorem homeTileRequest (r : TileReq) : Statement (Instr.homeTileRequest r) := fun _ h => absurd h List.not_mem_nil
theorem awaitListRetry (r : TileReq) (wait : Nat) : Statement (Instr.awaitListRetry r wait) := fun _ h => absurd h List.not_mem_nil
theorem tileFill (cl : Nat) (slot : Nat) : Statement (Instr.tileFill cl slot) := fun _ h => absurd h List.not_mem_nil
theorem tileForward (r : TileReq) (holder : Nat) (v : BitVec 32) : Statement (Instr.tileForward r holder v) := fun _ h => absurd h List.not_mem_nil
theorem snewAtHome (c : Nat) (tile : TileId) (n : BitVec 32) (next : Bool) : Statement (Instr.snewAtHome c tile n next) := fun _ h => absurd h List.not_mem_nil
theorem publishAtHome (tile : TileId) (v : BitVec 32) (cl : Nat) : Statement (Instr.publishAtHome tile v cl) := fun _ h => absurd h List.not_mem_nil
theorem abandonAtHome (tile : TileId) (v : BitVec 32) : Statement (Instr.abandonAtHome tile v) := fun _ h => absurd h List.not_mem_nil
theorem tileWritebackMerge (cl : Nat) (slot : Nat) : Statement (Instr.tileWritebackMerge cl slot) := fun _ h => absurd h List.not_mem_nil
theorem wayconvPinTimeout (cl : Nat) : Statement (Instr.wayconvPinTimeout cl) := fun _ h => absurd h List.not_mem_nil
theorem wayWake (cl : Nat) (slice : Nat) (way : Nat) : Statement (Instr.wayWake cl slice way) := fun _ h => absurd h List.not_mem_nil
theorem itineraryEntry (cl : Nat) (id : Nat) : Statement (Instr.itineraryEntry cl id) := fun _ h => absurd h List.not_mem_nil
theorem lineWriteMiss (core : Nat) (id : Nat) : Statement (Instr.lineWriteMiss core id) := fun _ h => absurd h List.not_mem_nil
theorem copyUnitLands (cl : Nat) (copy : Nat) : Statement (Instr.copyUnitLands cl copy) := fun _ h => absurd h List.not_mem_nil
theorem bwaitPoll (c : Nat) (id : Nat) : Statement (Instr.bwaitPoll c id) := fun _ h => absurd h List.not_mem_nil
theorem launchNode (b : NodeRef) : Statement (Instr.launchNode b) := fun _ h => absurd h List.not_mem_nil
theorem ifNode (b : NodeRef) : Statement (Instr.ifNode b) := fun _ h => absurd h List.not_mem_nil
theorem whileNode (b : NodeRef) : Statement (Instr.whileNode b) := fun _ h => absurd h List.not_mem_nil
theorem switchNode (b : NodeRef) : Statement (Instr.switchNode b) := fun _ h => absurd h List.not_mem_nil
theorem signalNode (b : NodeRef) : Statement (Instr.signalNode b) := fun _ h => absurd h List.not_mem_nil
theorem waitNode (b : NodeRef) : Statement (Instr.waitNode b) := fun _ h => absurd h List.not_mem_nil
theorem callNode (b : NodeRef) : Statement (Instr.callNode b) := fun _ h => absurd h List.not_mem_nil
theorem endNode (b : NodeRef) : Statement (Instr.endNode b) := fun _ h => absurd h List.not_mem_nil
theorem launchWatchMet (b : NodeRef) : Statement (Instr.launchWatchMet b) := fun _ h => absurd h List.not_mem_nil
theorem liveNodeTimeout (b : NodeRef) : Statement (Instr.liveNodeTimeout b) := fun _ h => absurd h List.not_mem_nil
theorem cmdStart (q : BitVec 6) : Statement (Instr.cmdStart q) := fun _ h => absurd h List.not_mem_nil
theorem cmdTask (q : BitVec 6) : Statement (Instr.cmdTask q) := fun _ h => absurd h List.not_mem_nil
theorem cmdSignal (q : BitVec 6) : Statement (Instr.cmdSignal q) := fun _ h => absurd h List.not_mem_nil
theorem tokenWaitRetry (id : Nat) (wait : Nat) : Statement (Instr.tokenWaitRetry id wait) := fun _ h => absurd h List.not_mem_nil
theorem tokenReexamine (gpa : Nat) : Statement (Instr.tokenReexamine gpa) := fun _ h => absurd h List.not_mem_nil
theorem transactionResend (id : Nat) : Statement (Instr.transactionResend id) := fun _ h => absurd h List.not_mem_nil
theorem fabricTimeout (id : Nat) : Statement (Instr.fabricTimeout id) := fun _ h => absurd h List.not_mem_nil
theorem leaseHeadGrant (dim : Bool) : Statement (Instr.leaseHeadGrant dim) := fun _ h => absurd h List.not_mem_nil
theorem leaseTuned (id : BitVec 8) : Statement (Instr.leaseTuned id) := fun _ h => absurd h List.not_mem_nil
theorem leaseTermExpiry (id : BitVec 8) : Statement (Instr.leaseTermExpiry id) := fun _ h => absurd h List.not_mem_nil
theorem leaseNoticeExpiry (id : BitVec 8) : Statement (Instr.leaseNoticeExpiry id) := fun _ h => absurd h List.not_mem_nil
theorem leaseDrained (id : BitVec 8) : Statement (Instr.leaseDrained id) := fun _ h => absurd h List.not_mem_nil
theorem leaseQueueExpiry (id : BitVec 8) : Statement (Instr.leaseQueueExpiry id) := fun _ h => absurd h List.not_mem_nil
theorem leaseEntryTimeout (id : BitVec 8) : Statement (Instr.leaseEntryTimeout id) := fun _ h => absurd h List.not_mem_nil
theorem guestPreemptLate (space : BitVec 6) : Statement (Instr.guestPreemptLate space) := fun _ h => absurd h List.not_mem_nil
theorem napEnd (c : Nat) : Statement (Instr.napEnd c) := fun _ h => absurd h List.not_mem_nil
theorem mpassLands (c : Nat) : Statement (Instr.mpassLands c) := fun _ h => absurd h List.not_mem_nil
theorem ageOverride (core : Nat) : Statement (Instr.ageOverride core) := fun _ h => absurd h List.not_mem_nil
theorem exposedResultLands (c : Nat) : Statement (Instr.exposedResultLands c) := fun _ h => absurd h List.not_mem_nil
theorem deferredFailure (c : Nat) (id : Nat) (f : FaultInfo) : Statement (Instr.deferredFailure c id f) := fun _ h => absurd h List.not_mem_nil
theorem trapEntry (c : Nat) (f : FaultInfo) : Statement (Instr.trapEntry c f) := fun _ h => absurd h List.not_mem_nil
theorem wayGate (cl : Nat) (slice : Nat) (way : Nat) : Statement (Instr.wayGate cl slice way) := fun _ h => absurd h List.not_mem_nil
theorem lineReadMiss (core : Nat) (line : Nat) : Statement (Instr.lineReadMiss core line) := fun _ h => absurd h List.not_mem_nil
theorem lineInvalidation (core : Nat) (line : Nat) : Statement (Instr.lineInvalidation core line) := fun _ h => absurd h List.not_mem_nil
theorem lineEviction (core : Nat) (line : Nat) : Statement (Instr.lineEviction core line) := fun _ h => absurd h List.not_mem_nil
theorem byteMaskMerge (line : Nat) (mask : BitVec 128) (data : BitVec 1024) : Statement (Instr.byteMaskMerge line mask data) := fun _ h => absurd h List.not_mem_nil
theorem copyFault (cl : Nat) (copy : Nat) (cause : BitVec 8) : Statement (Instr.copyFault cl copy cause) := fun _ h => absurd h List.not_mem_nil
theorem qtailDoorbell (q : BitVec 6) (tail : BitVec 32) : Statement (Instr.qtailDoorbell q tail) := fun _ h => absurd h List.not_mem_nil
theorem dbgctlHaltreq (c : Nat) : Statement (Instr.dbgctlHaltreq c) := fun _ h => absurd h List.not_mem_nil
theorem dbgctlResume (c : Nat) : Statement (Instr.dbgctlResume c) := fun _ h => absurd h List.not_mem_nil
theorem dbgctlStep (c : Nat) : Statement (Instr.dbgctlStep c) := fun _ h => absurd h List.not_mem_nil
theorem debugHalt (c : Nat) (reason : BitVec 4) : Statement (Instr.debugHalt c reason) := fun _ h => absurd h List.not_mem_nil
theorem debugWindowWrite (c : Nat) (off : Nat) (val : Dbl) : Statement (Instr.debugWindowWrite c off val) := fun _ h => absurd h List.not_mem_nil
theorem tlbinvAll  : Statement (Instr.tlbinvAll) := fun _ h => absurd h List.not_mem_nil
theorem tlbinvSpace (space : BitVec 6) : Statement (Instr.tlbinvSpace space) := fun _ h => absurd h List.not_mem_nil
theorem tlbinvPage (space : BitVec 6) (page : BitVec 40) : Statement (Instr.tlbinvPage space page) := fun _ h => absurd h List.not_mem_nil
theorem flitReplay (peer : BitVec 8) (dim : Bool) (ch : BitVec 6) : Statement (Instr.flitReplay peer dim ch) := fun _ h => absurd h List.not_mem_nil
theorem channelRetrain (peer : BitVec 8) (dim : Bool) (ch : BitVec 6) : Statement (Instr.channelRetrain peer dim ch) := fun _ h => absurd h List.not_mem_nil
theorem channelSpare (dim : Bool) (ch : BitVec 6) : Statement (Instr.channelSpare dim ch) := fun _ h => absurd h List.not_mem_nil
theorem flitAgeDiscard (f : Flit) : Statement (Instr.flitAgeDiscard f) := fun _ h => absurd h List.not_mem_nil
theorem rd (f : Flit) : Statement (Instr.rd f) := fun _ h => absurd h List.not_mem_nil
theorem rdl (f : Flit) : Statement (Instr.rdl f) := fun _ h => absurd h List.not_mem_nil
theorem wr (f : Flit) : Statement (Instr.wr f) := fun _ h => absurd h List.not_mem_nil
theorem wrm (f : Flit) : Statement (Instr.wrm f) := fun _ h => absurd h List.not_mem_nil
theorem fabricAmo (f : Flit) : Statement (Instr.fabricAmo f) := fun _ h => absurd h List.not_mem_nil
theorem fabricRstf (f : Flit) : Statement (Instr.fabricRstf f) := fun _ h => absurd h List.not_mem_nil
theorem greq (f : Flit) : Statement (Instr.greq f) := fun _ h => absurd h List.not_mem_nil
theorem grev (f : Flit) : Statement (Instr.grev f) := fun _ h => absurd h List.not_mem_nil
theorem gack (f : Flit) : Statement (Instr.gack f) := fun _ h => absurd h List.not_mem_nil
theorem mlock (f : Flit) : Statement (Instr.mlock f) := fun _ h => absurd h List.not_mem_nil
theorem mdec (f : Flit) : Statement (Instr.mdec f) := fun _ h => absurd h List.not_mem_nil
theorem mcommit (f : Flit) : Statement (Instr.mcommit f) := fun _ h => absurd h List.not_mem_nil
theorem mquery (f : Flit) : Statement (Instr.mquery f) := fun _ h => absurd h List.not_mem_nil
theorem treq (f : Flit) : Statement (Instr.treq f) := fun _ h => absurd h List.not_mem_nil
theorem twbTxn (f : Flit) : Statement (Instr.twbTxn f) := fun _ h => absurd h List.not_mem_nil
theorem tok (f : Flit) : Statement (Instr.tok f) := fun _ h => absurd h List.not_mem_nil
theorem cpl (f : Flit) : Statement (Instr.cpl f) := fun _ h => absurd h List.not_mem_nil
theorem hb (f : Flit) : Statement (Instr.hb f) := fun _ h => absurd h List.not_mem_nil
theorem flitBadType (f : Flit) (dim : Bool) (ch : BitVec 6) : Statement (Instr.flitBadType f dim ch) := fun _ h => absurd h List.not_mem_nil
theorem heartbeatDue (peer : BitVec 8) (dim : Bool) (ch : BitVec 6) : Statement (Instr.heartbeatDue peer dim ch) := fun _ h => absurd h List.not_mem_nil
theorem linkSilence (peer : BitVec 8) : Statement (Instr.linkSilence peer) := fun _ h => absurd h List.not_mem_nil
theorem deathNotice (dead : BitVec 8) (reporter : BitVec 8) (epoch : BitVec 32) : Statement (Instr.deathNotice dead reporter epoch) := fun _ h => absurd h List.not_mem_nil
theorem joinNotice (dev : BitVec 8) (epoch : BitVec 32) : Statement (Instr.joinNotice dev epoch) := fun _ h => absurd h List.not_mem_nil
theorem leaseReserveReply (id : BitVec 8) (ok : Bool) : Statement (Instr.leaseReserveReply id ok) := fun _ h => absurd h List.not_mem_nil
theorem guestTakePacket (q : BitVec 3) : Statement (Instr.guestTakePacket q) := fun _ h => absurd h List.not_mem_nil
theorem guestCoherentRequest (q : BitVec 3) (idx : BitVec 8) (space : BitVec 6) (va : Dbl) (write : Bool) (data : BitVec 1024) (mask : BitVec 128) : Statement (Instr.guestCoherentRequest q idx space va write data mask) := fun _ h => absurd h List.not_mem_nil
theorem guestCompletion (q : BitVec 3) (idx : BitVec 8) (result : Dbl) : Statement (Instr.guestCompletion q idx result) := fun _ h => absurd h List.not_mem_nil
theorem guestFault (q : BitVec 3) (idx : BitVec 8) (translation : Bool) (detail : Dbl) : Statement (Instr.guestFault q idx translation detail) := fun _ h => absurd h List.not_mem_nil
theorem guestStopped (space : BitVec 6) : Statement (Instr.guestStopped space) := fun _ h => absurd h List.not_mem_nil
theorem guestSaved (space : BitVec 6) : Statement (Instr.guestSaved space) := fun _ h => absurd h List.not_mem_nil
theorem guestPowerOverrun  : Statement (Instr.guestPowerOverrun) := fun _ h => absurd h List.not_mem_nil
theorem mgpreRequest (space : BitVec 6) : Statement (Instr.mgpreRequest space) := fun _ h => absurd h List.not_mem_nil
theorem mgpreResume (space : BitVec 6) : Statement (Instr.mgpreResume space) := fun _ h => absurd h List.not_mem_nil
theorem cxlwinWrite (p : BitVec 2) (val : Dbl) : Statement (Instr.cxlwinWrite p val) := fun _ h => absurd h List.not_mem_nil
theorem patrolScrub (ch : BitVec 8) : Statement (Instr.patrolScrub ch) := fun _ h => absurd h List.not_mem_nil
theorem rowRepair (ch : BitVec 8) (row : Nat) (last : Bool) : Statement (Instr.rowRepair ch row last) := fun _ h => absurd h List.not_mem_nil
theorem spaceRelease (space : BitVec 6) : Statement (Instr.spaceRelease space) := fun _ h => absurd h List.not_mem_nil
theorem nsset (val : Dbl) : Statement (Instr.nsset val) := fun _ h => absurd h List.not_mem_nil
theorem prectlRequest (cl : Nat) (entry : BitVec 11) : Statement (Instr.prectlRequest cl entry) := fun _ h => absurd h List.not_mem_nil
theorem prectlWithdraw (cl : Nat) (entry : BitVec 11) : Statement (Instr.prectlWithdraw cl entry) := fun _ h => absurd h List.not_mem_nil
theorem fabricEnable  : Statement (Instr.fabricEnable) := fun _ h => absurd h List.not_mem_nil
theorem lightvesselEnable  : Statement (Instr.lightvesselEnable) := fun _ h => absurd h List.not_mem_nil
theorem presenceWrite (val : BitVec 256) : Statement (Instr.presenceWrite val) := fun _ h => absurd h List.not_mem_nil
theorem attestRequest (last : Dbl) : Statement (Instr.attestRequest last) := fun _ h => absurd h List.not_mem_nil
theorem attestReady  : Statement (Instr.attestReady) := fun _ h => absurd h List.not_mem_nil
theorem keyLoad (space : BitVec 6) (slot : BitVec 4) : Statement (Instr.keyLoad space slot) := fun _ h => absurd h List.not_mem_nil
theorem keyClear (space : BitVec 6) (slot : BitVec 4) : Statement (Instr.keyClear space slot) := fun _ h => absurd h List.not_mem_nil
theorem firmwareStage (len : Dbl) : Statement (Instr.firmwareStage len) := fun _ h => absurd h List.not_mem_nil
theorem deviceReset  : Statement (Instr.deviceReset) := fun _ h => absurd h List.not_mem_nil
theorem dieFence (die : BitVec 2) : Statement (Instr.dieFence die) := fun _ h => absurd h List.not_mem_nil
theorem dieUnfence (die : BitVec 2) : Statement (Instr.dieUnfence die) := fun _ h => absurd h List.not_mem_nil
theorem laserOut (dim : Bool) (mod : Bool) : Statement (Instr.laserOut dim mod) := fun _ h => absurd h List.not_mem_nil
theorem laserIn (dim : Bool) (mod : Bool) : Statement (Instr.laserIn dim mod) := fun _ h => absurd h List.not_mem_nil
theorem fabricLeave  : Statement (Instr.fabricLeave) := fun _ h => absurd h List.not_mem_nil
theorem fabricJoin  : Statement (Instr.fabricJoin) := fun _ h => absurd h List.not_mem_nil
theorem spareCore (core : Nat) : Statement (Instr.spareCore core) := fun _ h => absurd h List.not_mem_nil
theorem powerLimitExceeded (die : BitVec 2) (watts : BitVec 16) : Statement (Instr.powerLimitExceeded die watts) := fun _ h => absurd h List.not_mem_nil
theorem thermalThrottle (die : BitVec 2) (temp : BitVec 8) : Statement (Instr.thermalThrottle die temp) := fun _ h => absurd h List.not_mem_nil
theorem thermalFence (die : BitVec 2) (temp : BitVec 8) : Statement (Instr.thermalFence die temp) := fun _ h => absurd h List.not_mem_nil
theorem registerWrite (off : BitVec 32) (size : BitVec 4) (val : Dbl) : Statement (Instr.registerWrite off size val) := fun _ h => absurd h List.not_mem_nil
theorem guestLinkFailure (module : BitVec 3) (dead : Bool) : Statement (Instr.guestLinkFailure module dead) := fun _ h => absurd h List.not_mem_nil
theorem retrainComplete (peer : BitVec 8) (dim : Bool) (ch : BitVec 6) (ok : Bool) : Statement (Instr.retrainComplete peer dim ch ok) := fun _ h => absurd h List.not_mem_nil
theorem thermalRecovery (die : BitVec 2) (temp : BitVec 8) : Statement (Instr.thermalRecovery die temp) := fun _ h => absurd h List.not_mem_nil
theorem powerBelowLimit (die : BitVec 2) (watts : BitVec 16) : Statement (Instr.powerBelowLimit die watts) := fun _ h => absurd h List.not_mem_nil
theorem hostSnoop (line : Nat) (inv : Bool) : Statement (Instr.hostSnoop line inv) := fun _ h => absurd h List.not_mem_nil

end Sys2Proof.Laws.Encoding
end

