-- ==== Sys2Proof/Laws/Stores.lean ====
section
/-! SUPPORT. The other operations that write memory keep its canonical form: save records, Silt blocks, a change of HILMAP,
the placing of a lone instruction; and a trap with its log entry. -/

namespace Sys2Proof.Machine

/-- Other bytes at the same addresses, with the blank ones left out, are in canonical form. -/
theorem wf_scramble : ∀ m : List Host.Cell, Memory.wf m = true → Memory.wf (scramble m) = true ∧
    ∀ n, Memory.above n m → Memory.above n (scramble m)
  | [], _ => ⟨rfl, fun _ _ => trivial⟩
  | (k, b) :: r, h => by
    obtain ⟨-, hk, hr⟩ := (Memory.wf_cons k b r).1 h
    obtain ⟨h1, h2⟩ := wf_scramble r hr
    have e : scramble ((k, b) :: r) =
        if (Config.scrambled k != blankByte) = true then (k, Config.scrambled k) :: scramble r else scramble r := by
      simp only [scramble, List.map_cons, List.filter_cons]
    rw [e]
    split
    · rename_i hb
      exact ⟨(Memory.wf_cons k _ _).2 ⟨by simpa using hb, h2 k hk, h1⟩, fun n hn => hn⟩
    · refine ⟨h1, fun n hn => h2 n ?_⟩
      cases r with
      | nil => trivial
      | cons p r => exact Nat.lt_trans hn hk

/-- Some of the cells alone are in canonical form. -/
theorem wf_filter (p : Host.Cell → Bool) : ∀ m : List Host.Cell, Memory.wf m = true → Memory.wf (m.filter p) = true ∧
    ∀ n, Memory.above n m → Memory.above n (m.filter p)
  | [], _ => ⟨rfl, fun _ _ => trivial⟩
  | (k, b) :: r, h => by
    obtain ⟨hb, hk, hr⟩ := (Memory.wf_cons k b r).1 h
    obtain ⟨h1, h2⟩ := wf_filter p r hr
    rw [List.filter_cons]
    split
    · exact ⟨(Memory.wf_cons k _ _).2 ⟨hb, h2 k hk, h1⟩, fun n hn => hn⟩
    · refine ⟨h1, fun n hn => h2 n ?_⟩
      cases r with
      | nil => trivial
      | cons q r => exact Nat.lt_trans hn hk

namespace State

/-- Taking a pooled port's memory from under its window, and showing it there, keeps memory canonical (R409). -/
theorem closePort_wf (s : State) (p : Nat) (w : Dbl) (h : Memory.wf s.mem = true) : Memory.wf (s.closePort p w).mem = true := by
  unfold closePort
  split
  · exact h
  · exact (wf_filter _ s.mem h).1
theorem openPort_wf (s : State) (p : Nat) (w : Dbl) (h : Memory.wf s.mem = true) : Memory.wf (s.openPort p w).mem = true := by
  unfold openPort
  split
  · exact h
  · exact wf_fold _ (fun m c hm => Memory.wf_cellWrite _ _ m hm) _ _ h
/-- Memory at the addresses of another DEVID is canonical, whatever it was. -/
theorem setDevid_wf (s : State) (d : BitVec 8) : Memory.wf (s.setDevid d).mem = true :=
  wf_fold _ (fun m c hm => Memory.wf_cellWrite _ _ m hm) _ [] rfl
/-- A save record written to its pool keeps memory canonical. -/
theorem writeRecord_wf (s : State) (cl : Nat) (v : Saved) (h : Memory.wf s.mem = true) :
    Memory.wf (s.writeRecord cl v).mem = true := by
  unfold writeRecord
  generalize s.imageOf v.left v.cx v.parked.isSome = l
  extract_lets a
  refine wf_fold _ ?_ l s.mem h
  rintro m ⟨o, n, x⟩ hm
  exact Memory.wf_cellsWrite n _ x m hm
/-- A trap keeps memory canonical. -/
theorem takeTrap_wf (s : State) (f : FaultInfo) (h : Memory.wf s.mem = true) : Memory.wf (s.takeTrap f).mem = true := by
  have e := engine_entryReady s s.cx.id.space
  replace h := e.wf h
  have key : ∀ (b : Bool) (t : State), Memory.wf t.mem = true → Memory.wf (if b = true then t.logHalt else t).mem = true := by
    intro b t ht
    cases b with
    | false => exact ht
    | true => exact (engine_logCtx t t.here 0xE0 _ _).wf ht
  exact key _ _ h
/-- The words of a lone instruction placed for the next fetch keep memory canonical. -/
theorem withFetchWord_wf (s : State) (nbits w : Nat) (h : Memory.wf s.mem = true) :
    Memory.wf (s.withFetchWord nbits w).mem = true := by
  unfold withFetchWord
  exact Memory.wf_cellsWrite _ _ _ _ h
/-- A scratch write touches no context and no byte of memory. -/
theorem engine_scratchWrite (s : State) (cl o n v : Nat) : Engine s (s.scratchWrite cl o n v) := engine_setCluster _ _ _ rfl rfl

end State

end Sys2Proof.Machine
end

