-- ==== Sys2Proof/Tests/Slice0.lean ====
section
/-! SUPPORT. Tests: words of the spec's encoding, an ill-formed term for each check of WellFormed, and for each statement of
the certificates a concrete state and operands that meet its hypotheses, with what one instruction does there. -/

-- One proof at a time: each holds a large kernel evaluation.
set_option Elab.async false
open Sys2Proof Sys2Proof.Machine

/-! Helpers. -/

/-- The predicate q0. -/
def p0 : Pred := ⟨0, false⟩
/-- A check of the next state of one instruction; a fault or a refusal fails it. -/
def nexts (i : Instr) (s : State) (f : State → Bool) : Bool :=
  match exec i s with
  | .next t => f t
  | _ => false
/-- A check of a successful answer. -/
def okAnd {α : Type} (r : State × Except FaultInfo α) (f : State → α → Bool) : Bool :=
  match r with
  | (s, .ok a) => f s a
  | _ => false
/-- A check of a value that is there. -/
def someAnd {α : Type} (o : Option α) (f : α → Bool) : Bool := match o with | some a => f a | none => false
/-- An occupied context 0 in an otherwise reset machine. -/
def w0 : State := { State.reset with cx := { State.reset.cx with occ := .occupied } }
/-- The same with space 0 valid: bit 63 of its table entry at address 0. -/
def wv : State := { w0 with mem := [(7, 0x80)] }

/-! Lantern's events. -/

theorem test_lantern_accept :
    (wv.freeEntry 0 == some 0 && wv.spaceValid 0 && dNmap 0 == 0 && (wv.cluster 0).entries.isEmpty && (wv.descFault 0).isNone &&
      wv.needsFit 0 0 (taskIdOf 0 0) false && (wv.placeWindow 0 0 0).isSome &&
      nexts (.lanternAccept 0 0 5 none) wv fun t => someAnd (t.entry 0 0) fun e =>
        e.state == .ready && e.addr == 5 && e.fault.isNone && t.agenda == [(0, .taskDispatch 0)]) = true := by decide +kernel
/-- A descriptor of class 1 that claims 5 accumulators has its finding, and ages. -/
theorem test_lantern_finding :
    (let d : BitVec 512 := 2 ^ 200 + 5 * 2 ^ 202
     dNmap d == 0 && dClass d == 1 && (wv.descFault d).isSome && nexts (.lanternAccept 0 d 5 none) wv fun t => someAnd (t.entry 0 0) fun e =>
       e.state == .ready && (someAnd e.fault fun f => f.cause == 0xA1) && t.agenda == [(0, .taskDispatch 0), (14000000, .classAgeing 0 0)]) = true := by
  decide +kernel
theorem test_lantern_drops : (!w0.spaceValid 0 && nexts (.lanternAccept 0 0 5 none) w0 fun t => (t.entry 0 0).isNone) = true := by
  decide +kernel
/-- A pending task of class 0 without inputs. -/
def wTask : State := w0.setEntry 0 3 { desc := 0x1234 + 2 ^ 128 * 7, addr := 0, state := .pending }
theorem test_input_arrival :
    (wTask.requestOrder 0 == [3] && (wTask.pinAll 0 []).isSome && wTask.needsFit 0 0 (taskIdOf 0 3) false && (wTask.placeWindow 0 0 0).isSome &&
      nexts (.inputArrival 0 3 0) wTask fun t => someAnd (t.entry 0 3) fun e => e.state == .ready) = true := by decide +kernel
/-- The task is ready. -/
def wReady : State := w0.setEntry 0 3 { desc := 0x1234 + 2 ^ 128 * 7, addr := 0, state := .ready }
theorem test_task_dispatch :
    ((wReady.ranked 0).map Prod.fst == [3] && (wReady.cluster 0).dispatched.isNone && State.descClaim (0x1234 + 2 ^ 128 * 7) == (0, false, 0) &&
      wReady.canReserve 0 0 1 && wReady.choose 0 0 (taskIdOf 0 3) 0 false [] [] == some 4 &&
      wReady.placeWindow 0 0 0 == some 0 && (wReady.bindInputs 0 0 [] (Vector.replicate 16 0)).isSome &&
      nexts (.taskDispatch 0) wReady fun t => (t.ctx 4).occ == .occupied && (t.ctx 4).pc == 0x1234 && (t.ctx 4).getX 2 == 7 &&
        (t.cluster 0).dispatched == some 0 &&
        someAnd (t.entry 0 3) fun e => e.state == .running && e.members == [4] && e.claim == some (1, 0, false)) = true := by decide +kernel
/-- A ready task of class 1 that has waited. -/
def wAge : State := { w0.setEntry 0 3 { desc := 2 ^ 200, addr := 0, state := .ready } with cycle := 14000000 }
theorem test_class_ageing :
    (someAnd (wAge.entry 0 3) fun e => e.state == .ready && dClass e.desc == 1 && decide (14000000 ≤ wAge.cycle - e.readyAt) &&
      nexts (.classAgeing 0 3) wAge fun t => someAnd (t.entry 0 3) Entry.aged) = true := by decide +kernel
/-- Cluster 0 full of running tasks but for context 1 of core 0, which a class 1 task holds; a class 0 task waits. -/
def wFull : State :=
  let busy : Context := { occ := .occupied, id := { taskid := 9 } }
  let low : Context := { occ := .occupied, id := { taskid := 5, klass := 1 } }
  let s : State := { State.reset with cx := busy, others := (1, low) :: (List.range 62).map fun i => (i + 2, busy) }
  (s.setEntry 0 3 { desc := 0, addr := 0, state := .ready }).setEntry 0 5 { desc := 2 ^ 200, addr := 0, state := .running, members := [1] }
theorem test_class0_preempt :
    ((wFull.placeWindow 0 0 0).isSome && wFull.choose 0 0 (taskIdOf 0 3) 0 false (wFull.lowContexts 0) [] == some 1 &&
      !((List.range 4).any fun i => wFull.fits i 0 (taskIdOf 0 3) 0 false []) &&
      ((List.range 4).any fun i => wFull.fits i 0 (taskIdOf 0 3) 0 false [1]) &&
      nexts (.class0PreemptDecision 0 3) wFull fun t => (someAnd (t.entry 0 3) fun e => e.prey == [1] && e.claim == some (0, 0, false)) &&
        t.agenda == [(0, .preemption 0 5)]) = true := by decide +kernel
/-- Context 0 has waited for longer than VWAIT, a second for an entry of 0, for a tile whose slot is FILLING and whose request its
home holds. -/
def wPark : State :=
  let r : TileReq := ⟨⟨0, 1, 2⟩, .atLeast 1, .ctx 0, 0⟩
  let s : State := { w0 with cycle := 1500000000000, cx := { w0.cx with parked := some r, waitSince := some 0 } }
  s.setSlot 0 (((State.setKeys r.tile).head?).getD 0) { state := .filling, tile := r.tile, users := [r] }
theorem test_version_wait :
    (wPark.cx.parked.isSome && decide (wPark.vwaitCycles 0 < wPark.cycle) && (someAnd wPark.cx.parked fun r => wPark.awaitsVersion r) &&
      nexts (.versionWaitTimeout (.ctx 0)) wPark fun t => t.cx.timedOut && t.agenda == [(1500000000000, .parkedTaskResume 0)] &&
        someAnd t.cx.fault fun f => f.cause == 0x43) = true := by decide +kernel
/-- The tile's fill is under way, for the version has been published: the wait is over all the same (R32). -/
theorem test_version_underway :
    (let s : State := { wPark with agenda := [(0, .tileFill 0 (((State.setKeys ⟨0, 1, 2⟩).head?).getD 0))] }
     !(someAnd s.cx.parked fun r => s.awaitsVersion r) && nexts (.versionWaitTimeout (.ctx 0)) s fun t => t.cx.timedOut &&
       someAnd t.cx.fault fun f => f.cause == 0x43) = true := by decide +kernel
theorem test_parked_resume :
    (nexts (.parkedTaskResume 0) { wPark with cx := { wPark.cx with served := some 1670 } } fun t => t.cx.waitSince.isNone) = true := by
  decide +kernel
/-- The last member of a task ends; a copy of its own may run on. -/
def wEnd : State :=
  let s := w0.setEntry 0 0 { desc := 0, addr := 0, state := .running, members := [0] }
  { s with cx := { s.cx with ending := true } }
theorem test_member_end :
    (wEnd.cx.ending && wEnd.cx.flights.isEmpty && wEnd.cx.opens.isEmpty && (wEnd.coreQueued 0).isEmpty && nexts (.memberEnd 0) wEnd fun t =>
      t.cx.occ == .idle && (t.entry 0 0).isNone) = true := by decide +kernel
theorem test_member_end_copies :
    (let j : CopyJob := ⟨7, 0, BitVec.ofNat 256 (128 * 2 ^ 64 + 64 * 2 ^ 192 + 2 ^ 226 + 2 ^ 227), 0, 0, 4096, 256, [], [], [], [], none⟩
     let s : State := { wEnd with cx := { wEnd.cx with opens := [⟨7, 8, false, none⟩] } }
     let s := s.setCluster 0 { s.cluster 0 with copies := [j] }
     (s.cluster 0).copies.any (·.id == 7) && nexts (.memberEnd 0) s fun t => t.cx.occ == .idle && (t.entry 0 0).isNone) = true := by
  decide +kernel
/-- A running task of one member, with a pool of one record at 0. -/
def wRun : State :=
  let s := w0.setEntry 0 0 { desc := 0, addr := 0, state := .running, members := [0] }
  s.setCluster 0 { s.cluster 0 with savepool := 1 }
theorem test_preemption :
    (wRun.freeRecords 0 1 0 == some [0] && nexts (.preemption 0 0) wRun fun t => t.cx.occ == .idle &&
      someAnd (t.entry 0 0) fun e => e.state == .preempted && e.members.isEmpty &&
        e.saved.map (fun y => (y.record, y.left)) == [(0, 0)]) = true := by decide +kernel
/-- The pre-empted task. -/
def wSaved : State :=
  w0.setEntry 0 0 { desc := 0, addr := 0, state := .preempted, saved := [⟨0, 0, none, { occ := .occupied }⟩] }
theorem test_save_record :
    ((someAnd (wSaved.entry 0 0) fun e => wSaved.savedDone e) && nexts (.saveRecordComplete 0 0) wSaved fun t =>
      t.agenda == [(0, .taskResume 0 0)]) = true := by decide +kernel
theorem test_save_record_held :
    ((someAnd (wSaved.entry 0 0) fun e => nexts (.saveRecordComplete 0 0) (wSaved.setEntry 0 0 { e with hold := true }) fun t =>
      t.agenda.isEmpty)) = true := by decide +kernel
theorem test_task_resume :
    (wSaved.needsFit 0 0 (taskIdOf 0 0) false && nexts (.taskResume 0 0) wSaved fun t => (t.ctx 0).occ == .occupied &&
      someAnd (t.entry 0 0) fun e => e.state == .running) = true := by decide +kernel
/-- Die 0 is fenced, so that no core of cluster 0 is up; the task's inputs are all there: the task's input is pinned, and the task waits. -/
def wPinned : State :=
  let s : State := { State.reset with svc := { State.reset.svc with diefence := 1 } }
  let e : Entry := { desc := 0, addr := 0, state := .pending, inputs := [⟨⟨0, 0, 0⟩, .latest, true, true, 1, 5, 0⟩] }
  (s.setEntry 0 3 e).setSlot 0 5 { (s.slot 0 5) with state := .clean, version := 1 }
theorem test_input_arrival_pins :
    (wPinned.requestOrder 0 == [3] && someAnd (wPinned.pinAll 0 [5]) (fun u => !u.needsFit 0 0 (taskIdOf 0 3) false) &&
      nexts (.inputArrival 0 3 0) wPinned fun t => (t.slot 0 5).pins == 1 && t.agenda == [(16, .inputArrival 0 3 0)] &&
        someAnd (t.entry 0 3) fun e => e.pinned && e.state == .pending) = true := by decide +kernel
/-- An input's version that has not come in VWAIT gives its task CONST_VERSION_TIMEOUT at entry; one that is no wait for a version
is asked about again 64 cycles on. -/
theorem test_input_version_wait :
    (let t5 : TileId := ⟨0, 1, 2⟩
     let e : Entry := { desc := 0, addr := 0, state := .pending, inputs := [⟨t5, .atLeast 1, true, false, 0, 0, 0⟩] }
     let s : State := { (w0.setEntry 0 3 e) with cycle := 1500000000000 }
     let at_ := s.setSlot 0 ((State.setKeys t5).headD 0) { state := .filling, tile := t5, users := [⟨t5, .atLeast 1, .input 0 3 0, 0⟩] }
     decide (s.vwaitCycles 0 < s.cycle) && at_.awaitsVersion ⟨t5, .atLeast 1, .input 0 3 0, 0⟩ &&
       nexts (.versionWaitTimeout (.input 0 3 0)) at_ (fun t => someAnd (t.entry 0 3) fun e => someAnd e.fault fun f => f.cause == 0x43) &&
       !s.awaitsVersion ⟨t5, .atLeast 1, .input 0 3 0, 0⟩ && nexts (.versionWaitTimeout (.input 0 3 0)) s fun t =>
         t.agenda == [(1500000000064, .versionWaitTimeout (.input 0 3 0))]) = true := by decide +kernel
/-- A completion that is counted waits for every access of the member; a context that is no member ends alone. -/
theorem test_member_end_counts :
    (let s := (wEnd.setEntry 0 0 { desc := 0x5000 * 2 ^ 384, addr := 0, state := .running, members := [0] })
     let waits : State := { s with cx := { s.cx with opens := [⟨7, 8, false, none⟩] } }
     let other := wEnd.setEntry 0 0 { desc := 0, addr := 0, state := .running, members := [5] }
     (someAnd (waits.entry 0 0) fun e => dDone e.desc == 0x5000) && nexts (.memberEnd 0) waits (fun t => t.agenda == [(1, .memberEnd 0)]) &&
       nexts (.memberEnd 0) other fun t => t.cx.occ == .idle && someAnd (t.entry 0 0) fun e => e.members == [5]) = true := by decide +kernel
/-! Decoding. The words and their readings are the spec's own examples; one or more for each engine's family. -/

theorem test_words_scalar :
    decodeWord .c none 0x810A5008 = .ok (.addi ⟨2, false⟩ 5 5 8 none) ∧ decodeWord .c none 0x7C044282 = .ok (.cmp p0 2 4 5 false 2) ∧
    decodeWord .s (some 0x00012000) 0xA00C0000 = .ok (.li p0 6 0 (some 0x00012000)) ∧
    decodeWord .c none 0xD0089000 = .ok (.loop p0 1 9) ∧ decodeWord .c none 0xDC000000 = .ok (.tend p0) := by decide +kernel
theorem test_words_vector :
    decodeWord .v0 none 0x00C42097 = .ok (.vadd 3 4 8 9 .f32) ∧ decodeWord .v0 none 0x0C042097 = .ok (.vfma 0 4 8 9 .f32) ∧
    decodeWord .v0 none 0x74050005 = .ok (.viota 0 5 0 .n32 none) ∧ decodeWord .v0 none 0xA80A1005 = .ok (.vtopk 0 10 4 .n32) := by
  decide +kernel
theorem test_words_matrix :
    decodeWord .m none 0x00001000 = .ok (.mpass p0 0 0 1 .mac false false) ∧
    decodeWord .m none 0x00120100 = .ok (.mpass p0 1 2 0 .mac false true) ∧
    decodeWord .m none 0x04000400 = .ok (.mop p0 .ada) ∧ decodeWord .m none 0x08063200 = .ok (.mgath p0 6 3 2) ∧
    decodeWord .m none 0x10001C40 = .ok (.mrd p0 0 0 .f32 4 0) ∧ decodeWord .m none 0x18154000 = .ok (.mst p0 1 5 1) := by
  decide +kernel
theorem test_words_tile :
    decodeWord .t none 0x00104040 = .ok (.sbind p0 4 2 0 1 0) ∧ decodeWord .t none 0x08144740 = .ok (.snew p0 5 2 7 false true) ∧
    decodeWord .t none 0x28014000 = .ok (.tldv p0 1 4 0 false) ∧ decodeWord .t none 0x2C035000 = .ok (.tstv p0 3 5 0 false) ∧
    decodeWord .t none 0x0C140000 = .ok (.spub p0 5) ∧ decodeWord .t none 0x34140000 = .ok (.twb p0 5) := by decide +kernel
theorem test_words_memory :
    decodeWord .t none 0x50085C02 = .ok (.ld p0 4 5 3 false .c false 2 none) ∧
    decodeWord .t none 0x580C5840 = .ok (.st p0 6 5 2 .c true 0 none) ∧
    decodeWord .t none 0x64042324 = .ok (.vgld p0 4 2 6 9 0) ∧ decodeWord .t none 0x780C4293 = .ok (.vamo p0 6 4 5 1 .or) := by
  decide +kernel
theorem test_words_crossing_and_hand_off :
    decodeWord .x none 0x080B280A = .ok (.vtox p0 11 5 0 .n32) ∧ decodeWord .x none 0x180C8000 = .ok (.spawn p0 1 2 8) ∧
    decodeWord .x none 0x4000B000 = .ok (.toksig p0 11 0) ∧ decodeWord .x none 0x441AB000 = .ok (.tokwait p0 13 11) ∧
    decodeWord .x none 0x48004280 = .ok (.gstart p0 4 5) ∧ decodeWord .x none 0x6008531C = .ok (.leaseReq p0 4 5 6 7) ∧
    decodeWord .t none 0x8C031298 = .ok (.rstf p0 3 1 5 6) ∧ decodeWord .x none 0x80034000 = .ok (.mqpush p0 3 2) ∧
    decodeWord .x none 0x84084000 = .ok (.mqstat p0 4 2) := by decide +kernel
/-- The example bundle: three slots of eight, one literal. -/
theorem test_bundle :
    decodeBundle 0xA0920217 [0x810A5008, 0xA00C0000, 0x00012000, 0x0C042097] =
      .ok ⟨0xA0920217, 0, false, 0x17, [1, 1, 1, 0],
        [(0, .c, .addi ⟨2, false⟩ 5 5 8 none), (1, .s, .li p0 6 0 (some 0x00012000)), (4, .v0, .vfma 0 4 8 9 .f32)]⟩ := rfl
/-- A header's three ways to be refused: its CHECK, a literal without its slot, a port code. -/
theorem test_bad_headers :
    decodeBundle 0x80000000 [] = .error .bundleHeader ∧ decodeBundle 0xA0000080 [] = .error .bundleHeader ∧
    decodeBundle 0xA0002000 [] = .error .bundleHeader ∧ decodeBundle 0xA00C0000 [] = .error .bundleHeader ∧
    decodeBundle 0xBC000000 [] = .error .bundleHeader := ⟨rfl, rfl, rfl, rfl, rfl⟩
/-- A reserved opcode of slot C, and an `add` whose reserved bit is 1. -/
theorem test_reserved_words :
    ((0, Slot.c) ∈ slotList ∧ decodeWord .c none 0xFC000000 = .opcode ∧ decodeBundle 0xA0000001 [0xFC000000] = .error (.reservedOpcode 0)) ∧
    (decodeWord .c none 0x00000001 = .operand ∧ decodeBundle 0xA0000001 [0x00000001] = .error (.reservedOperand 0)) :=
  ⟨⟨by decide, rfl, rfl⟩, rfl, rfl⟩
/-- Orders 2 to 5 in bundles of several words: a literal without owner and a second literal of one owner, a reserved opcode of the
second word though the first has a reserved bit, a reserved bit, ports given to an absent slot and to too few. -/
theorem test_reserved_in_bundles :
    decodeBundle 0xA0000081 [0] = .error (.bundleLiteral 0) ∧ decodeBundle 0xA0000307 [0x810A5008, 1, 2] = .error (.bundleLiteral 2) ∧
    decodeBundle 0xA0000003 [0x00000001, 0xFC000000] = .error (.reservedOpcode 1) ∧
    decodeBundle 0xA0000003 [0x810A5008, 0x00000001] = .error (.reservedOperand 1) ∧
    decodeBundle 0xA0020001 [0x810A5008] = .error (.bundlePorts 4) ∧ decodeBundle 0xA0020010 [0x0C042097] = .error (.bundlePorts 4) :=
  ⟨rfl, rfl, rfl, rfl, rfl, rfl⟩
/-- Encode is the other way round, at the lowest and highest operands of a word of each slot. -/
theorem test_round_trip :
    ([(Slot.c, (Instr.add ⟨7, true⟩ 31 0 31 true)), (.s, .cmp p0 7 31 31 true 5), (.v0, .vfma 15 63 0 63 .f32), (.v1, .vshli 15 63 0 63 .i16 none),
      (.m, .mst p0 3 15 3), (.t, .ld p0 31 31 3 false .b true 63 none), (.t, .rstf p0 63 15 31 31)].all fun (sl, i) =>
        sl ∈ i.slots && i.wf && decodeWord sl i.literal (encode i) == .ok i) = true := by decide +kernel

/-! Well-formedness: for each check a term that breaks only it, refused by the check and by the decoder. -/

/-- A term is refused: not well-formed, and its word is read as RESERVED_OPERAND in every slot that has it. -/
def refused (i : Instr) : Bool :=
  !i.wf && !i.slots.isEmpty && i.slots.all fun sl => decodeWord sl i.literal (encode i) == .operand
theorem test_ill_formed_scalar :
    ([Instr.cmp p0 1 2 3 true 6, .adds p0 1 2 3 true 32, .shli p0 1 2 64 none, .shri p0 1 2 64 none, .sari p0 1 2 0 (some 64),
      .loop p0 1 0, .trap p0 16 none, .srd p0 1 0x009 none, .swr p0 1 0x000 none, .swr p0 1 0x040 none,
      .spawn p0 1 2 25].all refused) = true := by decide +kernel
theorem test_ill_formed_tile :
    ([Instr.sbind p0 1 2 3 2 0, .sbind p0 1 2 3 0 3, .sprobe p0 1 2 3 3 1 false, .spinRef p0 2 3 2 0, .spinRef p0 2 3 0 3,
      .sinfo p0 1 2 13, .wayconv p0 1 9 none, .wayrest p0 1 9 none, .mpass p0 0 1 0 .mac true false, .mpass p0 0 0 1 .mac false true,
      .minit p0 0 0 true 1].all refused) = true := by decide +kernel
theorem test_ill_formed_memory :
    ([Instr.lds p0 1 2 3 true 0 none, .ld p0 1 2 3 true .c false 0 none, .ldp p0 1 2 3 true .c false 0 none, .ldp p0 1 1 0 false .c false 0 none,
      .amo p0 1 2 3 .fadd true 0, .mcas p0 1 2 0].all refused) = true := by decide +kernel
theorem test_ill_formed_vector :
    ([Instr.vadd 0 1 2 3 .d8, .vsub 0 1 2 3 .d8, .vmul 0 1 2 3 .d8, .vmin 0 1 2 3 .d8, .vmax 0 1 2 3 .d8, .vabd 0 1 2 3 .d8,
      .vceq 0 1 2 3 .d8, .vcne 0 1 2 3 .d8, .vclt 0 1 2 3 .d8, .vcle 0 1 2 3 .d8, .vredsum 0 1 2 .d8, .vredmin 0 1 2 .d8,
      .vredmax 0 1 2 .d8, .vscan 0 1 2 3 .i32, .vscan 0 1 2 0 .d8, .vfma 0 1 2 3 .i32, .vfms 0 1 2 3 .n8, .vrnd 0 1 2 .rne .i32,
      .vabs 0 1 2 .n8, .vneg 0 1 2 .n32].all refused) = true := by decide +kernel
theorem test_ill_formed_vector_bits :
    ([Instr.vadds 0 1 2 3 .f32, .vsubs 0 1 2 3 .f32, .vmulh 0 1 2 3 .bf, .vshl 0 1 2 3 .f32, .vshr 0 1 2 3 .f32, .vsar 0 1 2 3 .f32,
      .vpopc 0 1 2 .f32, .vclz 0 1 2 .f32, .vand 0 1 2 3 .n16, .vor 0 1 2 3 .n16, .vxor 0 1 2 3 .n16, .vandn 0 1 2 3 .n16,
      .vimm 0 1 2 .d8 none, .viota 0 1 2 .f32 none, .vexp2 0 1 2 .f32, .vlog2 0 1 2 .f32, .vrcp 0 1 2 .f32, .vrsq 0 1 2 .f32,
      .vtopk 0 1 2 .n32, .vtopk 0 2 1 .n32, .vtopk 0 2 4 .n16, .vshli 0 1 2 3 .f32 none, .vshri 0 1 2 3 .bf none,
      .vsari 0 1 2 3 .f32 none].all refused) = true := by decide +kernel
/-! The step: witnesses of StepRunsDecoded and PcAdvances. -/

/-- `addi x5, x5, #8` alone in a bundle, placed where the next step fetches. -/
def wStep : State := State.reset.withFetchWord 32 0x800A5008
/-- What the fetch of the presented context gives, checked. -/
def fetched (s : State) (c : Nat) (f : State → Word → List Word → Bool) : Bool :=
  match (s.presented c).fetchBundle (s.presented c).issue.pc with
  | (u, .ok (h, ws)) => f u h ws
  | _ => false
/-- A halt asked for before a bundle stops the context there, but a bundle that traps traps first, and the halt then comes before
the handler's first bundle, with REASON 1 (R345). -/
theorem test_halt_meets_trap :
    (let ask := fun (s : State) => ({ s with cx := { s.cx with dbg := { s.cx.dbg with haltReq := true } } } : State)
     let look := fun (s : State) (f : State → Bool) => match step (ask s) with | .next t => f t | _ => false
     look wStep (fun t => t.cx.dbg.halted && t.cx.dbg.reason == 1 && t.cx.mode == .task && t.cx.pc == wStep.cx.pc && t.cx.x[5] == wStep.cx.x[5]) &&
       look (State.reset.withFetchWord 32 0xFFFFFFFF) (fun t => t.cx.dbg.halted && t.cx.dbg.reason == 1 && t.cx.mode == .supervisor &&
         t.cx.trap.tpc.setWidth 56 == wStep.cx.pc)) = true := by decide +kernel
/-- A pre-emption request for a ready task takes its pins back and leaves it pending, held (R328, R42). -/
theorem test_hold_ready :
    (let e : Entry := { desc := 0, addr := 0, state := .ready, pinned := true, inputs := [⟨⟨0, 0, 0⟩, .latest, true, true, 1, 5, 0⟩] }
     let s := (State.reset.setEntry 0 7 e).setSlot 0 5 { (State.reset.slot 0 5) with state := .clean, version := 1, pins := 1 }
     let t := s.holdEntry 0 7
     (t.slot 0 5).pins == 0 && match t.entry 0 7 with | some y => y.state == .pending && y.hold | none => false) = true := by
  decide +kernel
theorem test_step_hypotheses :
    (wStep.inputs == [] && wStep.turn == [0] && (({ wStep with turn := [] } : State).switch 0).eligible 0 &&
      !(wStep.presented 0).cx.dbg.haltReq && (wStep.presented 0).cx.late.isNone && (wStep.presented 0).cx.opens.isEmpty && !(({ wStep with turn := [] } : State).switch 0).cx.draining &&
      fetched wStep 0 fun u h ws => h == 0xA0000001 && ws == [0x800A5008] &&
        let i : Instr := .addi p0 5 5 8 none
        let v : State := { u with issue := { u.issue with header := h, len := 8, slot := 0, scope := 0, drain := false, verdict := .done } }
        !v.interlocked [i] && !v.fenced [i] && !v.matrixHeld i && !v.leaves i && (v.deferredAt i).isNone &&
          nexts i v fun t => t.issue.verdict == .done && t.waits.isEmpty && !v.fencedSets t.issue.touched) = true := by decide +kernel
theorem test_step_bundle : decodeBundle 0xA0000001 [0x800A5008] =
    .ok ⟨0xA0000001, 0, false, 1, [0, 0, 0, 0], [(0, .c, .addi p0 5 5 8 none)]⟩ := rfl
/-- The step is that `addi`: 8 bytes on, and x5 has 8 when it has landed. -/
theorem test_step_addi :
    (match step wStep with
      | .next t => t.cx.pc == 8 && t.cx.btime == 1 && (t.cx.x[5]) == 8
      | _ => false) = true := by decide +kernel
theorem test_step_empty :
    (fetched { wStep with mem := [(1, 0), (3, 0xA0)] } 0 fun _ h ws => h == 0xA0000000 && ws == []) = true := by decide +kernel
theorem test_step_input :
    (match step { State.reset with inputs := [.lightvesselEnable], booted := true } with
      | .next t => t.dev.lvEn && t.inputs.isEmpty
      | _ => false) = true := by decide +kernel
/-- A bundle of 8 bytes at 0x100 with no transfer, and with one that has 2, 1 and 0 bundles left. -/
def wRet (x : Option Xfer) : State := { w0 with issue := { w0.issue with pc := 0x100, len := 8 }, cx := { w0.cx with xfer := x } }
theorem test_retire :
    ((wRet none).retire.cx.pc == 0x108 && (wRet none).retire.cx.btime == 1 &&
      (wRet (some ⟨0x40, 2, none, false⟩)).retire.cx.pc == 0x108 && (wRet (some ⟨0x40, 1, none, true⟩)).retire.cx.pc == 0x40 &&
      (wRet (some ⟨0x40, 1, none, true⟩)).retire.cx.draining && (wRet (some ⟨0x40, 0, none, false⟩)).retire.cx.xfer.isNone &&
      (wRet (some ⟨0x40, 0, none, false⟩)).retire.cx.pc == 0x108) = true := by decide +kernel
theorem test_transfer_hypotheses :
    (let s : State := { wRet none with issue := { (wRet none).issue with transfer := some 0x40 } }
     s.issue.transfer == some 0x40 && !s.issue.resumed && s.retire.cx.pc == 0x108) = true := by decide +kernel

/-! Results on their way. -/

theorem test_lands_at_latency :
    (w0.cx.pending.isEmpty && w0.cx.passes.isEmpty && ((w0.push 2 (.x 1 7)).cx.advanceN 1).getX 1 == 0 &&
      ((w0.push 2 (.x 1 7)).cx.advanceN 2).getX 1 == 7) = true := by decide +kernel
theorem test_program_order :
    (let c : Context := { w0.cx with pending := [⟨3, false, .x 1 7⟩, ⟨3, false, .x 1 9⟩, ⟨3, false, .x 0 9⟩, ⟨4, false, .x 2 9⟩] }
     (c.landAt 3).getX 1 == 9 && (c.landAt 3).getX 0 == 0 && (c.landAt 3).getX 2 == 0 && (c.landAt 3).pending.length == 1) = true := by
  decide +kernel
theorem test_shared_path :
    (let w := fun r : BitVec 6 => (⟨3, true, .v r (BitVec.allOnes 64) 1⟩ : Pending)
     let c : Context := { w0.cx with pending := [w 1, w 2] }
     (c.landAt 3).v[1] == 1 && (c.landAt 3).v[2] == 0 && (c.landAt 4).pending == [w 2]) = true := by decide +kernel
theorem test_masked_bytes :
    (Memory.wf [(1, 5)] && cellsWrite [(1, 5)] 0 2 0x0700 == [(1, 7)] && cellsWrite [(1, 5)] 0 2 0x0007 == [(0, 7)] &&
      cellsMask [(1, 5)] 0 2 1 0x0807 == [(0, 7), (1, 5)]) = true := by decide +kernel
theorem test_reset_canonical : Memory.wf State.reset.mem = true := by decide

/-! The scalar words. -/

/-- x1 to x4 hold −7, 2, the most negative number and −1. -/
def wx : State := { w0 with cx := { w0.cx with x := (((w0.cx.x.set 1 (BitVec.ofInt 64 (-7))).set 2 2).set 3 0x8000000000000000).set 4 (-1) } }
/-- What one word delivers to x5. -/
def toX5 (i : Instr) (v : Dbl) : Bool := nexts i wx fun t => t.cx.pending.map Pending.write == [.x 5 v]
theorem test_sums :
    (wx.holds p0 && toX5 (.add p0 5 1 2 false) (BitVec.ofInt 64 (-5)) && toX5 (.sub p0 5 2 1 true) 9 && toX5 (.add p0 5 3 3 false) 0 &&
      toX5 (.adds p0 5 2 2 true 31) 2 && toX5 (.sel p0 5 1 2 false 1) 2 && toX5 (.sel p0 5 1 2 false 0) (BitVec.ofInt 64 (-7))) = true := by
  decide +kernel
theorem test_logic_shifts :
    (toX5 (.and p0 5 1 2 false) 0 && toX5 (.or p0 5 1 2 false) (BitVec.ofInt 64 (-5)) && toX5 (.xor p0 5 2 2 false) 0 &&
      toX5 (.andn p0 5 4 2 false) (BitVec.ofInt 64 (-3)) && toX5 (.shl p0 5 2 2 false) 8 && toX5 (.shl p0 5 2 1 false) 0x400000000000000 &&
      toX5 (.shr p0 5 4 2 true) 0x3FFFFFFF && toX5 (.sar p0 5 1 2 false) (BitVec.ofInt 64 (-2)) && toX5 (.rol p0 5 3 2 false) 2) = true := by
  decide +kernel
theorem test_extremes_products :
    (toX5 (.minI p0 5 1 2 false) (BitVec.ofInt 64 (-7)) && toX5 (.maxI p0 5 1 2 false) 2 && toX5 (.minN p0 5 1 2 false) 2 &&
      toX5 (.maxN p0 5 1 2 false) (BitVec.ofInt 64 (-7)) && toX5 (.mul p0 5 1 2 false) (BitVec.ofInt 64 (-14)) &&
      toX5 (.mulhI p0 5 1 2 false) (-1) && toX5 (.mulhN p0 5 4 4 false) (BitVec.ofInt 64 (-2))) = true := by decide +kernel
theorem test_bit_counts :
    (toX5 (.clz p0 5 0 false) 64 && toX5 (.clz p0 5 2 true) 30 && toX5 (.ctz p0 5 3 false) 63 && toX5 (.ctz p0 5 0 true) 32 &&
      toX5 (.popc p0 5 4 false) 64 && toX5 (.brev p0 5 2 false) 0x4000000000000000 && toX5 (.bswap p0 5 2 false) 0x0200000000000000) = true := by
  decide +kernel
/-- R110's corners: −7 by 2, by zero, and the most negative number by −1. -/
theorem test_division :
    (toX5 (.divI p0 5 1 2 false) (BitVec.ofInt 64 (-3)) && toX5 (.remI p0 5 1 2 false) (-1) && toX5 (.divI p0 5 1 0 false) (-1) &&
      toX5 (.remI p0 5 1 0 false) (BitVec.ofInt 64 (-7)) && toX5 (.divI p0 5 3 4 false) 0x8000000000000000 && toX5 (.remI p0 5 3 4 false) 0) = true := by
  decide +kernel
theorem test_division_unsigned :
    (toX5 (.divN p0 5 4 2 false) 0x7FFFFFFFFFFFFFFF && toX5 (.remN p0 5 4 2 false) 1 && toX5 (.divN p0 5 2 0 true) (-1) &&
      toX5 (.remN p0 5 2 0 false) 2) = true := by decide +kernel
/-- Fields at positions 2 and 63 with lengths 3, 0 and 127. -/
def wf1 (n : Dbl) : State := { wx with cx := { wx.cx with x := wx.cx.x.set 6 n } }
theorem test_fields :
    (nexts (.extN p0 5 4 6) (wf1 0x302) (fun t => t.cx.pending.map Pending.write == [.x 5 7]) &&
      nexts (.extI p0 5 4 6) (wf1 0x302) (fun t => t.cx.pending.map Pending.write == [.x 5 (-1)]) &&
      nexts (.extN p0 5 4 6) (wf1 0x002) (fun t => t.cx.pending.map Pending.write == [.x 5 0]) &&
      nexts (.extN p0 5 4 6) (wf1 0x7F3F) (fun t => t.cx.pending.map Pending.write == [.x 5 1]) &&
      nexts (.ins p0 5 4 6) (wf1 0x302) (fun t => t.cx.pending.map Pending.write == [.x 5 0x1C])) = true := by decide +kernel
theorem test_immediates :
    (toX5 (.addi p0 5 1 0xFFF none) (BitVec.ofInt 64 (-8)) && toX5 (.andi p0 5 4 0x800 none) (BitVec.ofInt 64 (-2048)) &&
      toX5 (.ori p0 5 2 1 none) 3 && toX5 (.xori p0 5 4 0xFFF none) 0 && toX5 (.shli p0 5 2 63 none) 0 && toX5 (.shri p0 5 4 63 none) 1 &&
      toX5 (.sari p0 5 3 63 none) (-1) && toX5 (.li p0 5 0 (some 0x80000000)) 0xFFFFFFFF80000000 && toX5 (.lih p0 5 3 none) 0x300000000) = true := by
  decide +kernel
/-- What one word delivers to q5. -/
def toQ5 (i : Instr) (v : Bool) : Bool :=
  nexts i { wx with cx := { wx.cx with q := 2, k := (wx.cx.k.set 1 3).set 2 4 } } fun t => t.cx.pending.map Pending.write == [.q 5 v]
theorem test_compares :
    (toQ5 (.cmp p0 5 1 2 false 0) false && toQ5 (.cmp p0 5 1 2 false 1) true && toQ5 (.cmp p0 5 1 2 false 2) true &&
      toQ5 (.cmp p0 5 1 2 false 3) false && toQ5 (.cmp p0 5 1 2 false 4) false && toQ5 (.cmp p0 5 1 2 false 5) true &&
      toQ5 (.cmpi p0 0 5 4 0xFFF none) true && toQ5 (.cmpi p0 1 5 4 0xFFF none) false && toQ5 (.cmpi p0 2 5 1 0xFFF none) true &&
      toQ5 (.cmpi p0 3 5 1 0xFFF none) true) = true := by decide +kernel
theorem test_predicates :
    (toQ5 (.qlog p0 5 1 2 4) true && toQ5 (.qlog p0 5 2 1 4) false && toQ5 (.vany p0 5 1 2) false && toQ5 (.vall p0 5 0 1) true &&
      toQ5 (.vall p0 5 1 2) false) = true := by decide +kernel
/-- A false predicate: q3 is 0. -/
theorem test_inert :
    ((Instr.add ⟨3, false⟩ 5 1 2 false).pred == some ⟨3, false⟩ && !wx.holds ⟨3, false⟩ &&
      nexts (.add ⟨3, false⟩ 5 1 2 false) wx fun t => t.cx.pending.isEmpty && t.issue.verdict == .done) = true := by decide +kernel
theorem test_hard_wired :
    (let s : State := { w0 with cx := { w0.cx with x := w0.cx.x.set 0 7, q := 0 } }
     s.rx 0 == 0 && s.rq 0 && s.rk 0 == BitVec.allOnes 64) = true := by decide +kernel
theorem test_lane_mask :
    (let c := w0.cx.land (.v 5 2 (mkVReg fun _ => 7))
     lane c.v[5] 0 == 0 && lane c.v[5] 1 == 7 && lane c.v[5] 63 == 0) = true := by decide +kernel
/-! Control transfer, traps, returns, special registers. -/

/-- Context 0 at 0x100 in a bundle of 8 bytes; the space's trap vector is 0 (its entry at 0 reads as zeros). -/
def wc : State := { wx with issue := { wx.issue with pc := 0x100, len := 8 } }
/-- The same in a delay bundle of a transfer bundle at 0xF0. -/
def wdel : State := { wc with cx := { wc.cx with xfer := some ⟨0x40, 2, some 0xF0, false⟩, x := wc.cx.x.set 6 1 } }
/-- The same in supervisor mode. -/
def wsup : State := { wc with cx := { wc.cx with mode := .supervisor, trap := { wc.cx.trap with tpc := 0x200, txfer := 0x8200000000000040 } } }
/-- Page 0 fetches from the bottom of memory: an empty bundle at 0x108 and at 0x10C. -/
def wcode (s : State) : State :=
  { s with mem := [(0x10B, 0xA0), (0x10F, 0xA0), (0x203, 0xA0)], cores := [(0, { tlb := [⟨0, 0, 16, 0x49⟩] })] }
theorem test_prepare :
    (nexts (.pbr p0 1 4 none) wc (fun t => t.cx.pending == [⟨2, false, .b 1 0x110⟩]) &&
      nexts (.pbr p0 1 0x7FFFF none) wc (fun t => t.cx.pending == [⟨2, false, .b 1 0xFC⟩]) &&
      nexts (.pbx p0 1 1) wc fun t => t.cx.pending == [⟨2, false, .b 1 0xFFFFFFFFFFFFF9⟩]) = true := by decide +kernel
theorem test_transfers :
    (!wc.inDelay && wdel.inDelay && wdel.rx 6 == 1 && nexts (.br p0 1) wc (fun t => t.issue.transfer == some 0) &&
      nexts (.loop p0 1 2) wc (fun t => t.issue.transfer == some 0 && t.cx.pending.length == 2) &&
      nexts (.loop p0 1 6) wdel (fun t => t.issue.transfer.isNone && t.issue.verdict == .done && t.cx.pending.head? == some ⟨1, false, .x 6 0⟩)) = true := by
  decide +kernel
/-- `call` at 0x100: its delay bundles at 0x108 and 0x10C end at 0x110. -/
theorem test_call :
    ((match (wcode wc).bundleEnd 0x108 with
        | (u, .ok e) => e == 0x10C && !u.inDelay && (match u.bundleEnd e with | (v, .ok l) => l == 0x110 && !v.inDelay | _ => false)
        | _ => false) &&
      nexts (.call p0 1 1) (wcode wc) fun t => t.issue.transfer == some 0 && t.cx.pending == [⟨1, false, .x 1 0x110⟩]) = true := by
  decide +kernel
theorem test_delay_traps :
    (wdel.cx.xfer == some ⟨0x40, 2, some 0xF0, false⟩ && wdel.rx 2 != 1 && nexts (.br p0 1) wdel (fun t => t.cx.trap.tcause == 9 &&
      t.cx.trap.tinfo0 == 0xF0 && t.cx.trap.txfer == 0x8200000000000040) && nexts (.loop p0 1 2) wdel (fun t => t.issue.verdict == .trap)) = true := by
  decide +kernel
theorem test_call_outs :
    (nexts (.trap p0 15 none) wc (fun t => t.cx.trap.tcause == 0xFF && t.cx.trap.tinfo0 == 0x108 && t.cx.trap.tpc == 0x100) &&
      nexts (.sys p0 7 none) wc (fun t => t.cx.trap.tcause == 8 && t.cx.trap.tinfo1 == 7) &&
      nexts (.brk p0 3) wc (fun t => t.cx.trap.tcause == 0xE1 && t.cx.trap.tinfo1 == 3) &&
      nexts (.brk p0 3) { wc with cx := { wc.cx with dbg := { wc.cx.dbg with brkHalt := true } } } fun t =>
        t.cx.dbg.halted && t.cx.dbg.reason == 2 && t.issue.verdict == .halt) = true := by decide +kernel
/-- The vector is TRAPVEC in task mode and 64 above it in supervisor mode; the results on their way have landed. -/
theorem test_trap_entry :
    (((wc.push 34 (.x 7 9)).takeTrap ⟨0x07, 1, 2, 3, 4⟩).cx.getX 7 == 9 && (wc.takeTrap ⟨0x07, 1, 2, 3, 4⟩).cx.pc == 0 &&
      (wsup.takeTrap ⟨0x07, 1, 2, 3, 4⟩).cx.pc == 64 && (wsup.takeTrap ⟨0x07, 1, 2, 3, 4⟩).cx.trap.tinfo3 == 4) = true := by decide +kernel
theorem test_privilege :
    (wc.cx.mode == .task && [0x030, 0x103].all (fun r : BitVec 12 =>
      nexts (.srd p0 5 r none) wc (fun t => t.cx.trap.tcause == 7 && t.cx.trap.tinfo0 == r.setWidth 64) &&
      nexts (.swr p0 5 r none) wc (fun t => t.cx.trap.tcause == 7)) && nexts (.tretTo p0 1) wc (fun t => t.cx.trap.tcause == 7)) = true := by
  decide +kernel
theorem test_special_reads :
    (nexts (.srd p0 5 0x002 none) { wc with here := 4095 } (fun t => t.cx.pending == [⟨1, false, .x 5 3⟩]) &&
      nexts (.srd p0 5 0x005 none) { wc with here := 4095 } (fun t => t.cx.pending == [⟨1, false, .x 5 3⟩]) &&
      nexts (.srd p0 5 0x012 none) { wc with cycle := 7 } (fun t => t.cx.pending == [⟨1, false, .x 5 5⟩]) &&
      nexts (.srd p0 5 0x035 none) wsup (fun t => t.cx.pending == [⟨1, false, .x 5 0x200⟩])) = true := by decide +kernel
theorem test_special_writes :
    (srWritable.contains 0x018 && nexts (.swr p0 4 0x018 none) wc (fun t => t.cx.pending == [⟨1, false, .sr 0x018 (-1)⟩]) &&
      wsup.cx.mode == .supervisor && nexts (.swr p0 4 0x036 none) wsup (fun t => t.cx.pending == [⟨1, false, .sr 0x036 (-1)⟩]) &&
      (wc.cx.land (.sr 0x018 0)).stoch == 1 && (wc.cx.land (.sr 0x019 0xFFF)).krot == 7 && (wc.cx.land (.sr 0x036 (-1))).trap.txfer == 0x83FFFFFFFFFFFFFF) = true := by
  decide +kernel
theorem test_special_matrix_status :
    (let m : MatStat := { w0.cx.mat with mopx := true, sat := true }
     let c : Context := { w0.cx with mat := m, id := { w0.cx.id with mown := true } }
     !(c.land (.sr 0x020 2)).mat.mopx && (c.land (.sr 0x020 2)).mat.sat && !w0.cx.id.mown && w0.cx.land (.sr 0x020 3) == w0.cx) = true := by
  decide +kernel
theorem test_returns :
    (!wsup.cx.entryTrap && wsup.cx.trap.txfer.getLsbD 63 && nexts (.tret p0) wsup (fun t => t.cx.mode == .task && t.cx.pc == 0x200 &&
        t.cx.xfer == some ⟨0x40, 2, none, false⟩) &&
      nexts (.tretTo p0 2) wsup (fun t => t.cx.pc == 2 && t.cx.xfer.isNone && t.cx.mode == .task) &&
      (match (wcode wsup).bundleEnd 0x200 with | (_, .ok e) => e == 0x204 | _ => false) &&
      nexts (.tretSkip p0) (wcode wsup) (fun t => t.cx.pc == 0x204 && t.cx.xfer == some ⟨0x40, 1, none, false⟩) &&
      nexts (.tretEnd p0) wsup fun t => t.cx.ending) = true := by decide +kernel
/-- `tret` and `tret.skip` of a trap with another TXFER: no transfer, and one with 1 and 0 bundles left. -/
theorem test_returns_transfer :
    (let s := fun (v : Dbl) => ({ wsup with cx := { wsup.cx with trap := { wsup.cx.trap with txfer := v, xdrain := true } } } : State)
     nexts (.tret p0) (s 0x40) (fun t => t.cx.pc == 0x200 && t.cx.xfer.isNone) &&
       nexts (.tretSkip p0) (wcode (s 0x40)) (fun t => t.cx.pc == 0x204 && t.cx.xfer.isNone && !t.cx.draining) &&
       nexts (.tretSkip p0) (wcode (s 0x8100000000000040)) (fun t =>
         t.cx.pc == 0x40 && t.cx.xfer == some ⟨0x40, 0, none, true⟩ && t.cx.draining && t.cx.trap.txfer == 0x8100000000000040) &&
       nexts (.tretSkip p0) (wcode (s 0x8000000000000040)) fun t => t.cx.pc == 0x204 && t.cx.xfer.isNone) = true := by decide +kernel
theorem test_return_from_entry :
    (let s : State := { wsup with cx := { wsup.cx with entryTrap := true } }
     [Instr.tret p0, .tretSkip p0, .tretTo p0 1].all (fun i => nexts i s fun t => t.cx.ending && t.cx.entryTrap && t.cx.mode == .supervisor) &&
       nexts (.tretEnd p0) s fun t => t.cx.ending && !t.cx.entryTrap) = true := by decide +kernel
theorem test_pauses :
    (nexts (.nap p0 2 3 none) wc (fun t => t.cx.nap == 5) && nexts (.nap p0 1 3 none) wc (fun t => t.cx.nap == 0) &&
      nexts (.nap p0 3 0xFFF none) wc (fun t => t.cx.nap == 0xFFFFF) &&
      nexts (.napEnd 0) { wc with cx := { wc.cx with nap := 1 } } (fun t => t.cx.nap == 0 && t.cx.btime == 1)) = true := by decide +kernel
/-- An open write is waited for by a later read. -/
def wFence : State := { wc with cx := { wc.cx with opens := [⟨9, 2, true, none⟩] } }
theorem test_fence :
    (wFence.cx.unreported.isEmpty && nexts (.fence p0 3 2 1) wFence (fun t => t.cx.barriers == [⟨1, [9], false⟩]) &&
      nexts (.fence p0 0 4 1) wFence fun t => t.cx.barriers == [⟨1, [], true⟩]) = true := by decide +kernel
/-- The word decides: `lds` is in D. -/
theorem test_fence_holds :
    (let s : State := { wFence with cx := { wFence.cx with barriers := [⟨8, [9], false⟩] } }
     let i : Instr := .lds p0 4 5 3 false 0 none
     let b : Bundle := ⟨0xA0000008, 0, false, 8, [0, 0, 0, 0], [(3, .t, i)]⟩
     s.performed i && !i.byAddress && i.sets &&& 8 != 0 &&
       (match s.issueBundle b with | .next t => t.issue.verdict == .stall && t.cx.flights.isEmpty | _ => false)) = true := by decide +kernel
/-- Context 0 owns 8 bytes of this device's memory at 0x1048 and has a fence in force. -/
def wHeld (succ : BitVec 5) : State :=
  { w0 with
    cx := { w0.cx with x := w0.cx.x.set 1 0x1048, opens := [⟨9, 2, true, none⟩], barriers := [⟨succ, [9], false⟩] }
    cores := [(0, { tlb := [⟨0, 0, 16, 0x1234500CF⟩] })] }
/-- The address decides: a load of this device's memory is held by a fence over R, not by one over F. -/
theorem test_fence_holds_by_address :
    (let i : Instr := .ld p0 4 1 3 false .c false 0 none
     let b : Bundle := ⟨0xA0000008, 0, false, 8, [0, 0, 0, 0], [(3, .t, i)]⟩
     i.byAddress && !(wHeld 1).matrixHeld i &&
       (match (wHeld 1).runBundle [(3, i)] with | .next t => t.issue.verdict == .done && t.issue.touched &&& 1 != 0 | _ => false) &&
       (match (wHeld 1).issueBundle b with | .next t => t.issue.verdict == .stall && t.cx.flights.isEmpty | _ => false) &&
       (match (wHeld 16).issueBundle b with | .next t => t.issue.verdict == .done && t.cx.flights.length == 1 | _ => false)) = true := by
  decide +kernel
/-- A load that would trap, for its address is not aligned, is held first by a fence over R, and traps beside one over T. -/
theorem test_fence_holds_a_trap :
    (let i : Instr := .ld p0 4 1 3 false .c false 0 none
     let b : Bundle := ⟨0xA0000008, 0, false, 8, [0, 0, 0, 0], [(3, .t, i)]⟩
     let s := fun (succ : BitVec 5) => let w := wHeld succ; ({ w with cx := { w.cx with x := w.cx.x.set 1 0x1049 } } : State)
     (match (s 1).runBundle [(3, i)] with | .next t => t.issue.verdict == .trap && t.waits.isEmpty | _ => false) &&
       (match (s 1).issueBundle b with | .next t => t.issue.verdict == .stall && t.cx.mode == .task | _ => false) &&
       (match (s 4).issueBundle b with | .next t => t.issue.verdict == .trap | _ => false)) = true := by
  decide +kernel

/-! The vector engine. -/

/-- Lane i of v1 is i − 2, of v2 is 3, in a 32-bit container; k1 has lanes 1 and 63. -/
def wvec : State := { w0 with cx := { w0.cx with
  v := (w0.cx.v.set 1 (mkVReg fun i => BitVec.ofInt 32 ((i : Int) - 2))).set 2 (mkVReg fun _ => 3), k := w0.cx.k.set 1 0x8000000000000002 } }
/-- The lanes 0, 1 and 63 that one word writes to v5, after its latency. -/
def lanes5 (s : State) (i : Instr) (a b c : BitVec 32) : Bool :=
  nexts i s fun t => let v := (t.cx.advanceN 10).v[5]; lane v 0 == a && lane v 1 == b && lane v 63 == c
theorem test_vector_integers :
    (ElemType.i8.isInt && lanes5 wvec (.vadd 1 5 1 2 .i32) 0 2 64 && lanes5 wvec (.vsub 0 5 1 2 .i8) (-5) (-4) 58 &&
      lanes5 wvec (.vmul 0 5 1 2 .n16) 0xFFFA 0xFFFD 183 && lanes5 wvec (.vmin 0 5 1 2 .i16) (-2) (-1) 3 &&
      lanes5 wvec (.vmax 0 5 1 2 .n8) 0xFE 0xFF 61 && lanes5 wvec (.vabs 0 5 1 .i32) 2 1 61 && lanes5 wvec (.vneg 0 5 1 .i16) 2 1 (-61)) = true := by
  decide +kernel
theorem test_vector_integers_more :
    (lanes5 wvec (.vadds 0 5 1 2 .n8) 0xFF 0xFF 64 && lanes5 wvec (.vsubs 0 5 1 2 .i8) (-5) (-4) 58 &&
      lanes5 wvec (.vmulh 0 5 1 2 .i32) (-1) (-1) 0 && lanes5 wvec (.vabd 0 5 1 2 .i16) 5 4 58 && lanes5 wvec (.vpopc 0 5 1 .i8) 7 8 5 &&
      lanes5 wvec (.vclz 0 5 2 .n16) 14 14 14) = true := by decide +kernel
/-- v1 holds 1.5 and v2 holds −2 in every f32 lane. -/
def wfl : State := { w0 with cx := { w0.cx with v := (w0.cx.v.set 1 (mkVReg fun _ => 0x3FC00000)).set 2 (mkVReg fun _ => 0xC0000000) } }
def all5 (i : Instr) (c : BitVec 32) : Bool := lanes5 wfl i c c c
theorem test_vector_floats :
    (ElemType.f32.isFloat && all5 (.vadd 0 5 1 2 .f32) 0xBF000000 && all5 (.vsub 0 5 1 2 .f32) 0x40600000 &&
      all5 (.vmul 0 5 1 2 .f32) 0xC0400000 && all5 (.vfma 0 5 1 2 .f32) 0xC0400000 && all5 (.vfms 0 5 1 2 .f32) 0x40400000 &&
      all5 (.vmin 0 5 1 2 .f32) 0xC0000000 && all5 (.vmax 0 5 1 2 .f32) 0x3FC00000) = true := by decide +kernel
theorem test_vector_floats_more :
    (all5 (.vabs 0 5 2 .f32) 0x40000000 && all5 (.vneg 0 5 1 .f32) 0xBFC00000 && all5 (.vabd 0 5 1 2 .f32) 0x40600000 &&
      all5 (.vrnd 0 5 1 .rne .f32) 0x40000000 && all5 (.vrnd 0 5 1 .rtz .f32) 0x3F800000) = true := by decide +kernel
theorem test_vector_bits :
    (lanes5 wvec (.vshl 0 5 1 2 .i32) (-16) (-8) 488 && lanes5 wvec (.vshr 0 5 1 2 .n8) 0x1F 0x1F 7 && lanes5 wvec (.vsar 0 5 1 2 .i32) (-1) (-1) 7 &&
      lanes5 wvec (.vshli 0 5 1 32 .i32 none) 0 0 0 && lanes5 wvec (.vshri 0 5 1 31 .i32 none) 1 1 0 &&
      lanes5 wvec (.vsari 0 5 1 63 .i32 none) (-1) (-1) 0 && lanes5 wvec (.viota 0 5 63 .i32 none) (-1) 0 62) = true := by decide +kernel
theorem test_vector_logic :
    (lanes5 wvec (.vand 0 5 1 2 .n32) 2 3 1 && lanes5 wvec (.vor 0 5 1 2 .n32) (-1) (-1) 63 && lanes5 wvec (.vxor 0 5 1 2 .n32) (-3) (-4) 62 &&
      lanes5 wvec (.vandn 0 5 1 2 .n32) (-4) (-4) 60 && lanes5 wvec (.vmov 1 5 1 .i8) 0 (-1) 61 && lanes5 wvec (.vbset 0 5 2) 8 8 8 &&
      lanes5 wvec (.vimm 0 5 63 .f32 none) 0xBF800000 0xBF800000 0xBF800000 && lanes5 wvec (.vimm 0 5 0 .d8 (some 7)) 7 7 7 &&
      lanes5 wvec (.vsel 1 5 1 2 .i32) 3 (-1) 61) = true := by decide +kernel
/-- What one word delivers to k5. -/
def toK5 (s : State) (i : Instr) (m : BitVec 64) : Bool := nexts i s fun t => (t.cx.advanceN 2).k[5] == m
theorem test_vector_compares :
    (toK5 wvec (.vceq 0 5 1 2 .i32) 0x20 && toK5 wvec (.vcne 1 5 1 2 .i32) 0x8000000000000002 && toK5 wvec (.vclt 0 5 1 2 .i32) 0x1F &&
      toK5 wvec (.vclt 0 5 1 2 .n32) 0x1C && toK5 wvec (.vcle 0 5 1 2 .i32) 0x3F && toK5 wfl (.vclt 0 5 2 1 .f32) (-1)) = true := by
  decide +kernel
theorem test_masks :
    (toK5 wvec (.vkand 5 0 1) 0x8000000000000002 && toK5 wvec (.vkor 5 2 1) 0x8000000000000002 && toK5 wvec (.vkxor 5 0 1) 0x7FFFFFFFFFFFFFFD &&
      toK5 wvec (.vkandn 5 0 1) 0x7FFFFFFFFFFFFFFD && lanes5 wvec (.vkpop 5 1) 2 2 2 && lanes5 wvec (.vkfirst 5 1) 1 1 1 &&
      lanes5 wvec (.vkfirst 5 2) 64 64 64) = true := by decide +kernel
/-- The lanes 1 and 63 of v1 are −1 and 61. -/
theorem test_reductions :
    (lanes5 wvec (.vredsum 1 5 1 .i32) 60 60 60 && lanes5 wvec (.vredmin 1 5 1 .i32) (-1) (-1) (-1) && lanes5 wvec (.vredmax 1 5 1 .n8) 0xFF 0xFF 0xFF &&
      lanes5 wvec (.vscan 1 5 1 0 .i32) 0 (-1) 60 && lanes5 wfl (.vredsum 0 5 1 .f32) 0x42C00000 0x42C00000 0x42C00000) = true := by decide +kernel
theorem test_conversions :
    (lanes5 wvec (.vcvt 0 5 1 .rne .i32 .f32) 0xC0000000 0xBF800000 0x42740000 && lanes5 wvec (.vcvt 0 5 1 .rne .i8 .i32) (-2) (-1) 61 &&
      lanes5 wvec (.vcvt 0 5 1 .rne .i32 .n8) 0 0 61 && lanes5 wfl (.vcvt 0 5 1 .rne .f32 .i8) 2 2 2) = true := by decide +kernel
/-- R57 and R58's worked example: six lanes of f32 to d8 with STOCHSEED 1. -/
theorem test_conversion_d8 :
    (let v : List (BitVec 32) := [0x461C4000, 0x42140000, 0xBF051EB8, 0x314E2D29, 0, 0x3024F41C]
     let s : State := { w0 with cx := { w0.cx with v := w0.cx.v.set 1 (ofLanes (v ++ List.replicate 58 0)), k := w0.cx.k.set 1 0x3F } }
     nexts (.vcvt 1 5 1 .rne .f32 .d8) s fun t => ((List.range 6).map (lane (t.cx.advanceN 3).v[5])) ==
       [0xFE7F, 0xFE79, 0xFEE7, 0xFE01, 0xFE00, 0xFE00] && t.cx.stoch == 0x100041060C011441) = true := by decide +kernel
/-- v1 holds 4 in every bf lane. -/
theorem test_functions :
    (let s : State := { w0 with cx := { w0.cx with v := w0.cx.v.set 1 (mkVReg fun _ => 0x4080) } }
     lanes5 s (.vexp2 0 5 1 .bf) 0x4180 0x4180 0x4180 && lanes5 s (.vlog2 0 5 1 .bf) 0x4000 0x4000 0x4000 &&
       lanes5 s (.vrcp 0 5 1 .bf) 0x3E80 0x3E80 0x3E80 && lanes5 s (.vrsq 0 5 1 .bf) 0x3F00 0x3F00 0x3F00) = true := by decide +kernel
theorem test_permutes :
    (lanes5 wvec (.vperm 0 5 2 1 .i32) 3 3 3 && lanes5 wvec (.vperm 0 5 1 2 .i32) 1 1 1 && lanes5 wvec (.vslide 0 5 1 1 .i32 none) (-1) 0 0 &&
      lanes5 wvec (.vslide 0 5 1 63 .i32 none) 0 (-2) 60) = true := by decide +kernel
theorem test_topk :
    (let s : State := { wvec with cx := { wvec.cx with v := (wvec.cx.v.set 6 wvec.cx.v[1]).set 7 (mkVReg fun i => BitVec.ofNat 32 i) } }
     nexts (.vtopk 1 4 6 .i32) s fun t => let c := t.cx.advanceN 10
       lane c.v[4] 0 == 61 && lane c.v[5] 0 == 63 && lane c.v[4] 1 == 0 && lane c.v[4] 63 == 0) = true := by decide +kernel
theorem test_crossings :
    (lanes5 { wvec with cx := { wvec.cx with x := wvec.cx.x.set 1 0x1FE } } (.xtovBc p0 5 1 .i8) (-2) (-2) (-2) &&
      lanes5 { wvec with cx := { wvec.cx with x := wvec.cx.x.set 1 0x1FE } } (.xtovIns p0 5 1 63 .n32) 0 0 0x1FE &&
      nexts (.vtox p0 1 5 0 .n32) wvec (fun t => t.cx.pending == [⟨4, false, .x 5 0xFFFFFFFE⟩]) &&
      nexts (.vtoxR p0 1 5 0 .i8) wvec (fun t => t.cx.pending == [⟨4, false, .x 5 (-2)⟩]) &&
      nexts (.ktox p0 1 5) wvec (fun t => t.cx.pending == [⟨4, false, .x 5 0x8000000000000002⟩]) &&
      nexts (.xtok p0 5 0) wvec (fun t => t.cx.pending == [⟨4, false, .k 5 0⟩])) = true := by decide +kernel
/-! The matrix and tile engines. -/

/-- A member that owns the matrix engine and claims accumulator tiles 0 to 2; tile 2 is of kind f40 and holds 1.0 in row 3. -/
def wm : State := { wvec with cx := { wvec.cx with
  id := { wvec.cx.id with nacc := 3, mown := true },
  acc := wvec.cx.acc.set 2 ⟨putAcc 0 3 1 0x3F80000000, .f40⟩,
  latchA := { wvec.cx.latchA with fmt := 1 }, latchB := { wvec.cx.latchB with fmt := 1 } } }
/-- A 64 x 64 i8 tile of tensor 5 in slot 1670 of cluster 0, version 3, pinned once; stream 1 reads it, stream 2 writes one that is OPEN in
slot 1678. -/
def wst : State :=
  let t : TileId := ⟨0, 5, 0⟩
  let tn : Tensor := ⟨0, false, false, 0, 2, .i8, .i8, 0, 0, 0, 1, 1, 64, 64, 0, 0x2000⟩
  let w := (wm.cx.w.set 1 (bindStream tn t 3 1670 1)).set 2 (bindStream tn t 4 1678 2)
  let s : State := { wm with cx := { wm.cx with w := w } }
  (s.setSlot 0 1670 { state := .clean, tile := t, version := 3, pins := 1, data := 0x0807060504030201 }).setSlot 0 1678
    { state := .openV, tile := t, version := 4, pins := 1 }
theorem test_minit :
    (wm.holds p0 && wm.cx.id.mown && !wm.cx.passes.any Pass.suspended && decide ((1 : BitVec 2).toNat < wm.cx.id.nacc) &&
      nexts (.minit p0 1 1 true 0) wm (fun t => t.cx.acc[1].kind == .i40) && initBits 1 true 0 == 0x8000000000 && initBits 2 false 0 == 0x7F80000000) = true := by
  decide +kernel
/-- Of the other kind it is refused. -/
theorem test_minit_kind :
    (wm.cx.acc[2].kind == .f40 && nexts (.minit p0 2 0 false 0) wm (fun t => t.cx.acc[2].kind == .f40 && accElem t.cx.acc[2].data 3 1 == 0) &&
      nexts (.minit p0 2 0 true 0) wm fun t => t.cx.trap.tcause == 0x0B && t.cx.trap.tinfo0 == 4 && t.cx.trap.tinfo1 == 2) = true := by
  decide +kernel
/-- Row 3 of tile 2 read as d8: lane 1 is 1.0 in a group whose σ its own largest value chooses. -/
theorem test_mrd_d8 :
    (let sg := chooseSigma [.ofInt 0, .ofInt 1]
     nexts (.mrd p0 2 3 .d8 5 2) { wm with cx := { wm.cx with k := wm.cx.k.set 2 3 } } fun t => let v := (t.cx.advanceN 4).v[5]
       lane v 0 == d8Lane 0 sg && (laneVal .d8 (lane v 1)).eq (.ofInt 1) && lane v 2 == 0) = true := by decide +kernel
theorem test_mrd_mwr :
    (ElemType.f32 != .d8 && nexts (.mrd p0 2 3 .f32 5 0) wm (fun t => let v := (t.cx.advanceN 4).v[5]; lane v 0 == 0 && lane v 1 == 0x3F800000) &&
      wm.cx.acc[0].kind == .none && nexts (.mwr p0 0 63 .i8 1 1) wm fun t =>
        t.cx.acc[0].kind == .i40 && accElem t.cx.acc[0].data 63 1 == -1 && accElem t.cx.acc[0].data 63 2 == 0 && accElem t.cx.acc[0].data 63 63 == 61) = true := by
  decide +kernel
theorem test_mpass :
    (wBound (wst.rw 1) && !wst.storing (wst.rw 1) && wRows (wst.rw 1) == 64 && wCols (wst.rw 1) == 64 && wType (wst.rw 1) == .i8 &&
      (loadA (wst.slot 0 1670) (wst.rw 1)).fmt == 1 && (wst.startTile 0).kind == .none && passKind 1 == .i40 &&
      nexts (.mpass p0 0 1 0 .mac false true) wst fun t => t.cx.passes.map (fun q => (q.tile, q.landsAt, q.kind)) == [(0, 38, .i40)] &&
        t.cx.latchA.data == 0x0807060504030201) = true := by decide +kernel
/-- A pass that has just issued. -/
def wpass : Pass := ⟨0, .mac, 0, 0, 38, 0, 0, .i40, false, false, false, none⟩
theorem test_mop :
    ((let s : State := { wm with cx := { wm.cx with passes := [wpass] } }
      decide (wpass.step < 32) && nexts (.mop p0 .ada) s fun t => t.cx.passes.map Pass.op == [.ada]) &&
      nexts (.mop p0 .ada) wm fun t => t.cx.pending.map (fun q => (q.due, q.write)) == [(1, .mopx)] && (t.cx.advanceN 1).mat.mopx) = true := by
  decide +kernel
/-- An `mpass` that keeps the A latch 5 bundle times after an `mgath` reads the latch as it stood; 12 after, the gathered one. -/
theorem test_mpass_shadow :
    (let at_ := fun n : Nat => ({ wst with cx := { wst.cx with btime := n, mat := { wst.cx.mat with mgathAt := some 0 } } } : State)
     nexts (.mpass p0 0 0 0 .mac true true) (at_ 5) (fun t => t.cx.passes.map Pass.shadow == [some wst.cx.latchA]) &&
       nexts (.mpass p0 0 0 0 .mac true true) (at_ 12) fun t => t.cx.passes.map Pass.shadow == [none]) = true := by decide +kernel
/-- What PassLandsAfter38 asks, and the same pass with its 32 steps done lands at its time. -/
theorem test_pass_lands :
    (wpass.step == 0 && !wpass.suspended && !wpass.landed && wpass.landsAt == wm.cx.btime + 38 &&
      let c : Context := { wm.cx with btime := 37, passes := [{ wpass with step := 32 }] }
      c.advance.acc[0].kind == .i40 && c.acc[0].kind == .none) = true := by decide +kernel
/-- One cell of one step of a pass: 8-bit integers 2 and 3 beside 4 and 5, whose exact sum saturates, and bf numbers 2.0 and 3.0. -/
theorem test_pass_cells :
    (let l := fun (d : Block) => ({ data := d, mask := 1, kmask := 3 } : Latch)
     let i := { wpass with cells := putAcc 0 0 0 100 }
     accElem (i.advance (l 0x0302) (l 0x0504)).cells 0 0 == 123 &&
       accElem ({ i with op := .ada }.advance (l 0x0302) (l 0x0504)).cells 0 0 == 104 &&
       accElem ({ i with op := .mxp, cells := 0 }.advance (l 0x0302) (l 0x0504)).cells 0 0 == 8 &&
       accElem ({ i with cells := putAcc 0 0 0 0x7FFFFFFFFF }.advance (l 0x0302) (l 0x0504)).cells 0 0 == 0x7FFFFFFFFF &&
       accElem ({ wpass with fmt := 2, kind := .f40 }.advance (l 0x4000) (l 0x4040)).cells 0 0 == 0x40C0000000) = true := by
  decide +kernel
theorem test_mst :
    (wBound (wst.rw 2) && (wst.slot wst.hereCluster (wSlot (wst.rw 2))).state == .openV && !wst.storing (wst.rw 2) &&
      mstRegion (wRows (wst.rw 2)) (wCols (wst.rw 2)) 0 == some (0, 0) && decide (64 * 64 * esize (wType (wst.rw 2)) ≤ 4096) &&
      nexts (.mst p0 2 2 0) wst fun t => t.agenda == [(32, .mstComplete 0)] && t.cx.mat.storing == [1678]) = true := by decide +kernel
/-- The open tile taken as one of d8, with one element inside the edge masks: row 3's lane 1 of tile 2, which is 1. -/
theorem test_mst_d8 :
    (let tn : Tensor := ⟨0, false, false, 0, 2, .d8, .d8, 0, 0, 0, 1, 1, 64, 64, 0, 0x2000⟩
     let w := wPut (wPut (bindStream tn ⟨0, 5, 0⟩ 4 1678 2) 384 64 8) 448 64 2
     let s : State := { wst with cx := { wst.cx with w := wst.cx.w.set 2 w } }
     wType (s.rw 2) == .d8 && s.isOpen (s.rw 2) && nexts (.mst p0 2 2 0) s fun t => let x := t.slot 0 1678
       x.state == .openV && t.cx.mat.storing == [1678] && slotElem x.data 64 .d8 3 1 != 0) = true := by decide +kernel
theorem test_mst_complete :
    (let s : State := { wst with cx := { wst.cx with mat := { wst.cx.mat with storing := [1678, 7] } } }
     nexts (.mstComplete 0) s (fun t => t.cx.mat.storing == [7]) &&
       nexts (.mpassLands 0) { wm with cx := { wm.cx with btime := 38, passes := [{ wpass with step := 32 }] } } fun t => t.cx.acc[0].kind == .i40) = true := by
  decide +kernel

/-- Space 0 with a tensor table of 8 descriptors at 0x1000; tensor 5 is one i8 tile, 64 by 64, at 0x2000; page 0 is translated by the TLBs. -/
def wt : State :=
  let leaf : TlbEntry := ⟨0, 0, 16, 0xCF⟩
  let space := 2 ^ 63 + 0x1000 * 2 ^ 64 + 8 * 2 ^ 128
  let desc := 0x2000 + 64 * 2 ^ 128 + 64 * 2 ^ 160 + 2 ^ 463 + 2 * 2 ^ 456
  let m := cellsWrite (cellsWrite [] 0 64 space) 0x1140 64 desc
  let c : Context := { wst.cx with x := (wst.cx.x.set 2 (5 + 2 * 2 ^ 32)).set 3 (5 + 9 * 2 ^ 32) }
  let s : State := { wst with mem := m, cores := [(0, { tlb := [leaf] })], cx := c }
  s.setCluster 0 { s.cluster 0 with tlb := [leaf] }
/-- What a tile reference of x0 and xb gives, checked. -/
def refAnd (s : State) (b : BitVec 5) (f : State → Tensor → TileId → BitVec 32 → Bool) : Bool :=
  okAnd (s.tileRef 0 0 b) fun u y => f u y.1 y.2.1 y.2.2
theorem test_stream_reference :
    (!wt.isOpen (wt.rw 0) && wt.cx.fault.isNone && wt.cx.parked.isNone && refAnd wt 2 fun u tn t n =>
      u.cx == wt.cx && u.here == wt.here && !u.isOpen (wt.rw 0) && t == ⟨0, 5, 0⟩ && n == 2 && tn.rows == 64 &&
        u.localHit 0 t (.atLeast n) == some 1670 && decide ((u.slot 0 1670).pins < 255)) = true := by decide +kernel
theorem test_sbind :
    (nexts (.sbind p0 0 0 2 1 0) wt (fun t => t.cx.flights.map Flight.dests == [[.w 0]] && (t.slot 0 1670).pins == 2 && (t.slot 0 1670).clock == 3) &&
      nexts (.sprobe p0 0 0 2 2 1 true) wt (fun t => t.cx.flights.length == 1 && (t.slot 0 1670).hint == 2)) = true := by decide +kernel
/-- Version 9 is not there. -/
theorem test_sbind_miss :
    (refAnd wt 3 (fun u _ t n => (u.localHit 0 t (.atLeast n)).isNone) && nexts (.sbind p0 0 0 3 1 0) wt (fun t => t.issue.verdict == .park) &&
      nexts (.sbind p0 0 0 3 0 0) wt (fun t => t.issue.verdict == .park) &&
      nexts (.sprobe p0 0 0 3 0 1 false) wt fun t => t.cx.flights.map Flight.result == [[.q 1 false]]) = true := by decide +kernel
theorem test_snew :
    (wt.cx.opening.isNone && refAnd wt 3 (fun u _ _ _ => u.agenda.isEmpty && u.fab.txns.isEmpty) &&
      nexts (.snew p0 0 0 3 false false) wt (fun t => t.issue.verdict == .stall && t.agenda.map Prod.snd == [.snewAtHome 0 ⟨0, 5, 0⟩ 9 false]) &&
      nexts (.snew p0 0 0 3 false false) { wt with cx := { wt.cx with opening := some ⟨⟨0, 5, 0⟩, false, some 4, some 1678⟩ } } fun t =>
        t.cx.opening.isNone && t.cx.pending.length == 1) = true := by decide +kernel
theorem test_spub_srel :
    (wt.cx.opens.isEmpty && (wt.coreQueued wt.here).isEmpty && (wt.slot 0 1678).state == .openV && nexts (.spub p0 2) wt (fun t => (t.slot 0 1678).state == .dirty &&
        t.cx.opens.map OpenAccess.pub == [some (⟨0, 5, 0⟩, 4)]) &&
      nexts (.srel p0 1) wt (fun t => (t.slot 0 1670).pins == 0 && t.cx.pending == [⟨1, false, .w 1 0⟩]) &&
      nexts (.srel p0 2) wt fun t => (t.slot 0 1678).state == .invalid) = true := by decide +kernel
/-- The task's Lantern entry, with these spins. -/
def wspin (l : List Spin) : State := wt.setEntry 0 0 { desc := 0, addr := 0, state := .running, members := [0], spins := l }
theorem test_spins :
    (nexts (.spin p0 1) (wspin []) (fun t => (t.slot 0 1670).pins == 2 && someAnd t.taskEntry fun e => e.spins == [⟨⟨0, 5, 0⟩, 3, [1670], 0⟩]) &&
      nexts (.sunpin p0 1) (wspin [⟨⟨0, 5, 0⟩, 3, [1670], 0⟩]) (fun t => (t.slot 0 1670).pins == 0 && someAnd t.taskEntry fun e =>
        e.spins == [⟨⟨0, 5, 0⟩, 3, [], 0⟩])) = true := by decide +kernel
theorem test_spins_by_reference :
    (refAnd (wspin []) 2 (fun u _ _ _ => u == wspin []) && nexts (.spinRef p0 0 2 1 0) (wspin []) (fun t => (t.slot 0 1670).pins == 2) &&
      nexts (.sunpinRef p0 0 2) (wspin [⟨⟨0, 5, 0⟩, 3, [1670], 0⟩]) fun t => (t.slot 0 1670).pins == 0) = true := by decide +kernel
theorem test_stream_fields :
    (nexts (.sseek p0 1 0 65 none) wt (fun t => wCursor ((t.cx.advanceN 1).w[1]) == 1) &&
      nexts (.sedge p0 1 0 0) wt (fun t => wEdgeR ((t.cx.advanceN 1).w[1]) == 0) &&
      nexts (.sinfo p0 7 1 4) wt (fun t => t.cx.flights.map Flight.result == [[.x 7 (wt.rw 1 |>.extractLsb' 256 64)]]) &&
      nexts (.sinfo p0 7 1 12) wt fun t => t.cx.flights.map Flight.result == [[.x 7 0]]) = true := by decide +kernel
theorem test_tile_loads :
    (wt.cx.tstvs.isEmpty && nexts (.tldv p0 5 1 0 false) wt (fun t => let c := t.cx.advanceN 5
        lane c.v[5] 7 == 8 && lane c.v[5] 63 == 0 && wCursor c.w[1] == 1) &&
      nexts (.tldx p0 5 1 0 0) wt (fun t => t.cx.flights.map Flight.dests == [[.v 5]])) = true := by decide +kernel
theorem test_tstv :
    (nexts (.tstv p0 1 2 1 true) wt fun t => slotElem (t.slot 0 1678).data 64 .i8 0 1 == 0xFF && slotElem (t.slot 0 1678).data 64 .i8 0 2 == 0 &&
      slotElem (t.slot 0 1678).data 64 .i8 0 63 == 61) = true := by decide +kernel
theorem test_twb :
    (nexts (.twb p0 1) wt (fun t => t.agenda.isEmpty) &&
      nexts (.twb p0 1) (wt.setSlot 0 1670 { wt.slot 0 1670 with state := .dirty }) (fun t => (t.slot 0 1670).state == .writeback &&
        t.agenda.map Prod.snd == [.tileWritebackMerge 0 1670])) = true := by decide +kernel
theorem test_tpref :
    ((wt.cluster 0).itineraries.isEmpty && nexts (.tpref p0 0 0x7F0 none) wt (fun t => (t.cluster 0).itineraries == [⟨1, 0x7F0, 0, 0⟩]) &&
      nexts (.tpref p0 0 8 none) wt fun t => t.cx.trap.tcause == 0x24) = true := by decide +kernel
/-- The newest of the task's pinned slots of the tile is the OPEN one. -/
theorem test_mgath :
    (let w := bindStream ⟨0, false, false, 0, 2, .i8, .i8, 0, 0, 0, 1, 1, 64, 64, 0, 0x2000⟩ ⟨0, 5, 0⟩ 3 1670 1
     let s : State := { wt with cx := { wt.cx with w := wt.cx.w.set 1 w, k := wt.cx.k.set 1 1, v := wt.cx.v.set 1 0 } }
     okAnd (s.tensor 0 0 5) (fun u tn => u.cx == s.cx && someAnd tn fun y => y.ext0 == 64) &&
       (match s.gatherRows (s.rw 1) 64 (s.rv 1) [0] with | .ok l => l == [(0, 1678, 0)] && (s.gatherStall l).isNone | _ => false) &&
       nexts (.mgath p0 1 1 1) s fun t => t.cx.pending.map Pending.due == [12]) = true := by decide +kernel

/-! Scratch. -/

/-- Supervisor mode; x3 holds 0x10; a byte of scratch at 5. -/
def wsc : State :=
  let s : State := { w0 with cx := { w0.cx with mode := .supervisor, id := { w0.cx.id with scratchLen := 1 }, x := (w0.cx.x.set 3 0x10).set 4 0x1FF } }
  s.setCluster 0 { s.cluster 0 with converted := 1, scratch := [(5, 0x80)] }
theorem test_ways :
    ((wsc.cluster 0).convQueue.isEmpty && (wsc.cluster 0).conv.isNone && (wsc.cluster 0).loam.isEmpty &&
      nexts (.wayconv p0 5 8 none) wsc (fun t => (t.cluster 0).converted == 8 && t.cx.pending == [⟨1, false, .x 5 8⟩]) &&
      let idle : State := { wsc with cx := { wsc.cx with id := { wsc.cx.id with scratchLen := 0 } } }
      idle.scratchUses 0 == [] && nexts (.wayrest p0 5 0 none) idle fun t => (t.cluster 0).converted == 0 && (t.cluster 0).scratch.isEmpty) = true := by
  decide +kernel
theorem test_scratch_accesses :
    (!wsc.scratchBusy 5 1 false && !wsc.scratchBusy 0x10 2 true && nexts (.lds p0 5 0 0 true 5 none) wsc (fun t => t.cx.flights.map Flight.result == [[.x 5 (BitVec.ofInt 64 (-128))]]) &&
      nexts (.lds p0 5 0 0 false 5 none) wsc (fun t => t.cx.flights.map Flight.result == [[.x 5 0x80]]) &&
      nexts (.sts p0 4 3 1 0 none) wsc (fun t => (t.cluster 0).scratch == [(5, 0x80), (0x10, 0xFF), (0x11, 1)])) = true := by decide +kernel
theorem test_scratch_traps :
    (wsc.scratchLimit == 524288 && nexts (.lds p0 5 0 1 false 5 none) wsc (fun t => t.cx.trap.tcause == 0x24) &&
      nexts (.sts p0 5 0 0 0 (some 524288)) wsc (fun t => t.cx.trap.tcause == 0x2B) &&
      nexts (.lds p0 5 0 0 false 0 (some 524287)) wsc fun t => t.issue.verdict == .done) = true := by decide +kernel
/-! Linear memory. Page 0 of space 0 is frame 0x12345, untracked, readable and writable; x1 = 0x1048, x3 = 0x1100, x4 = 0x100. -/

def wl : State :=
  let c : Context := { w0.cx with
    x := (((w0.cx.x.set 1 0x1048).set 2 0xF123456789ABCDEF).set 3 0x1100).set 4 0x100,
    k := w0.cx.k.set 1 3, v := w0.cx.v.set 3 (mkVReg fun i => BitVec.ofNat 32 (4 * i)) }
  { w0 with cx := c, cores := [(0, { tlb := [⟨0, 0, 16, 0x1234500CF⟩] })], mem := cellsWrite [] 0x123451048 8 0x8877665544332211 }
/-- What a checked access gives. -/
def laneAnd (s : State) (va : Dbl) (n : Nat) (k : Access) (c w : Bool) (f : State → State.Xlat → Bool) : Bool := okAnd (s.laneCheck va n k c w) f
theorem test_quiet_line : wl.quietLine ⟨0x123451048, 0x1234500CF⟩ :=
  ⟨by decide +kernel, by decide +kernel, by decide +kernel, by decide +kernel, by decide +kernel, by decide +kernel, by decide +kernel, by decide +kernel,
    fun n => ⟨by cases n <;> rfl, by cases n <;> exact Nat.zero_lt_succ 7⟩⟩
/-- The hypotheses of LoadsReadMemory, StoresWriteMemory and AtomicsReadModifyWrite: 8 bytes at 0x1048 for each kind of access. -/
theorem test_linear_hypotheses :
    ([(Access.read, true, true), (.write, true, true), (.atomic, false, false)].all fun (k, c, w) => laneAnd wl (wl.rx 1) 8 k c w fun u x =>
      x.gpa == 0x123451048 && x.gpa % 8 == 0 && windowOf (localOf x.gpa) != .control && u.cx == wl.cx && u.issue == wl.issue && u.cx.flights.isEmpty &&
        (u.core u.hereCore).queue.isEmpty && !u.olderFlight u.here u.tick (x.gpa / 128) && Memory.wf u.mem && u.bytes x.gpa 8 == 0x8877665544332211) = true := by
  decide +kernel
theorem test_linear_issue :
    (wl.issue.verdict == .done && nexts (.ld p0 5 1 3 false .c false 0 none) wl (fun t => t.cx.flights.map Flight.dests == [[.x 5]]) &&
      nexts (.ldp p0 5 1 0 true .c true 0x3F none) wl (fun t => t.cx.pending == [⟨1, false, .x 1 0x1047⟩] && t.cx.barriers.length == 1) &&
      nexts (.st p0 2 1 1 .c false 1 none) wl (fun t => (t.core 0).queue.map (fun q => (q.gpa, q.size, q.value)) == [(0x12345104A, 2, 0xCDEF)]) &&
      nexts (.stp p0 2 1 3 .s true 0 (some 8)) wl fun t => t.cx.pending == [⟨1, false, .x 1 0x1050⟩] && (t.core 0).queue.length == 1) = true := by
  decide +kernel
theorem test_linear_vector :
    (okAnd (wl.lanesCheck 4 .read true [(0, 0x1100), (1, 0x1200)]) (fun u l => u.cx == wl.cx && l.map (fun y => y.2.2.gpa) == [0x123451100, 0x123451200]) &&
      nexts (.vld p0 5 1 3 4 0) wl (fun t => t.cx.flights.map Flight.dests == [[.v 5]]) &&
      nexts (.vgld p0 5 1 3 3 1) wl (fun t => t.cx.flights.length == 1) &&
      nexts (.vst p0 3 1 3 4 0) wl (fun t => (t.core 0).queue.map (fun q => (q.gpa, q.value)) == [(0x123451100, 0), (0x123451200, 4)]) &&
      nexts (.vsst p0 3 1 3 3 2) wl fun t => (t.core 0).queue.map (fun q => (q.gpa, q.size, q.value)) == [(0x123451100, 1, 0), (0x123451104, 1, 4)]) = true := by
  decide +kernel
/-- A d8 store: a code with σ = 0 goes unchanged, a NaR as 0x80 whatever its σ (R251). -/
theorem test_linear_vector_d8 :
    (let s : State := { wl with cx := { wl.cx with v := wl.cx.v.set 1 (ofLanes ([0x0079, 0x0580] ++ List.replicate 62 0)) } }
     let sent := fun (t : State) => (t.core 0).queue.map fun q => (q.gpa, q.size, q.value)
     nexts (.vst p0 1 1 3 4 3) s (fun t => sent t == [(0x123451100, 1, 0x79), (0x123451200, 1, 0x80)]) &&
       nexts (.vsst p0 1 1 3 3 3) s fun t => sent t == [(0x123451100, 1, 0x79), (0x123451104, 1, 0x80)]) = true := by decide +kernel
theorem test_linear_atomic :
    (nexts (.amo p0 5 1 2 .add true 0) wl (fun t => t.cx.flights.length == 1 && t.cx.barriers.isEmpty) &&
      nexts (.cas p0 5 1 2 false 1) wl (fun t => t.cx.flights.length == 1 && t.cx.barriers.map Barrier.succ == [31]) &&
      nexts (.vamo p0 3 3 3 1 .add) wl (fun t => t.cx.flights.map Flight.dests == [[.v 3]]) &&
      nexts (.amo p0 5 4 2 .add true 0) { wl with cx := { wl.cx with x := wl.cx.x.set 4 0x104 } } fun t => t.cx.trap.tcause == 0x24) = true := by
  decide +kernel
/-- The acquire bit of `ld` and `amo`, at core scope where the bundle has it; the release bit of `st` waits for an open access. -/
theorem test_linear_ordering :
    (let held := fun (t : State) => t.cx.barriers.map fun b => (b.succ, b.coreOnly)
     let near : State := { wl with issue := { wl.issue with scope := 0 } }
     let far : State := { wl with issue := { wl.issue with scope := 1 } }
     let open_ : State := { far with cx := { far.cx with opens := [⟨9, 2, true, none⟩] } }
     let after := fun (t : State) => (t.core 0).queue.map QueuedWrite.after
     nexts (.ld p0 5 1 3 false .c true 0 none) near (fun t => held t == [(31, true)]) &&
       nexts (.ld p0 5 1 3 false .c true 0 none) far (fun t => held t == [(31, false)]) &&
       nexts (.ld p0 5 1 3 false .c false 0 none) far (fun t => held t == []) &&
       nexts (.amo p0 5 1 2 .add true 1) far (fun t => held t == [(31, false)]) &&
       nexts (.st p0 2 1 3 .c true 0 none) open_ (fun t => after t == [[9]]) &&
       nexts (.st p0 2 1 3 .c false 0 none) open_ (fun t => after t == [[]])) = true := by decide +kernel
/-- Each check of the completion clauses passes: one lane for `ldp` and `stp`, all the active ones for the vector words. -/
theorem test_linear_checks :
    (let ok := fun (r : State × Except FaultInfo State.Xlat) => match r.2 with | .ok x => windowOf (localOf x.gpa) != .control | .error _ => false
     let oks := fun (n : Nat) (k : Access) (c : Bool) (l : List (Nat × Dbl)) => match (wl.lanesCheck n k c l).2 with | .ok y => y.length == 2 | .error _ => false
     ok (wl.laneCheck (wl.rx 1) 8 .read true true) && ok (wl.laneCheck (wl.rx 1) 8 .write true true) && wl.rk 1 == 3 &&
       [(Access.read, true), (.write, true), (.atomic, false)].all fun (k, c) =>
         oks 4 k c [(0, wl.rx 3), (1, wl.rx 3 + 0x100)] && oks 4 k c [(0, wl.rx 3), (1, wl.rx 3 + 4)]) = true := by decide +kernel
/-- A queued `.s` store of a byte reaches memory; the bytes beside it stay. -/
theorem test_store_lands :
    (nexts (.st p0 2 1 0 .s false 0 none) wl fun v => nexts (.lineWriteMiss 0 0) v fun w =>
      w.bytes 0x123451048 8 == 0x88776655443322EF && (w.core 0).queue.isEmpty) = true := by decide +kernel
/-- Context 1 of the core has an 8-byte write of 5 at 0x1048 in the write queue, complete at core scope only. -/
def wmate : State :=
  let q : QueuedWrite := ⟨3, 1, 0x1048, 0x123451048, 0x1F, 8, 5, .c, 0, [], false, 0, 0⟩
  { wl with cores := wl.cores.map fun (n, c) => (n, { c with queue := [q] }), tick := 9 }
/-- An access of the core's other context performs the queued write first; what the context releases beyond core scope follows it (R276, R282). -/
theorem test_core_mates :
    (wmate.coreQueued 0 == [3] && wmate.settled 0 && !wmate.settled 2 &&
      nexts (.fence p0 2 1 1) wmate (fun t => t.cx.barriers == [⟨1, [3], false⟩]) && nexts (.fence p0 0 1 1) wmate (fun t => t.cx.barriers == [⟨1, [], true⟩]) &&
      let (u, done) := wmate.settle 0 (0x123451048 / 128) 9
      done && (u.core 0).queue.isEmpty && someAnd (u.lineOf 0 (0x123451048 / 128)) fun ln => lineBytes ln.data 0x48 8 == 5 && ln.mesi == .m) = true := by
  decide +kernel
/-- An `mcas` of two entries at 0x1080: 4 bytes at 0x1048 and 8 at 0x1050. -/
def wmc : State :=
  { wl with mem := cellsWrite (cellsWrite wl.mem 0x123451080 32 (0x1048 + 0x44332211 * 2 ^ 64 + 2 ^ 128)) 0x1234510A0 32 (0x1050 + 2 ^ 192),
            cx := { wl.cx with x := wl.cx.x.set 6 0x1080 } }
theorem test_mcas :
    ((wmc.rx 6).toNat % 32 == 0 && okAnd (wmc.readRecords (wmc.rx 6) 2) (fun u ws => someAnd ws fun ws => okAnd (u.mcasEntries 0 ws) fun v es =>
        es.map (fun e => (e.gpa, e.size)) == [(0x123451048, 4), (0x123451050, 8)] && (State.mcasBad ws es).isNone && v.cx.opens.isEmpty && (v.coreQueued v.here).isEmpty) &&
      nexts (.mcas p0 5 6 1) wmc fun t => t.homes.mcas.length == 1 && t.cx.flights.map Flight.dests == [[.x 5]]) = true := by decide +kernel
/-- The core holds line 0x1080 untracked with its byte 9 dirty; the range is x3 to x3 + x4 or x6's line. -/
def wrange : State :=
  let ln : Line := ⟨0x123451080 / 128, false, .i, 0xFF00, 0x0200, BitVec.ofNat 1024 (0xBBAA * 2 ^ 64), 0, 0⟩
  let s : State := { wl with cx := { wl.cx with x := wl.cx.x.set 6 0x1080 } }
  s.setCore 0 { s.core 0 with lines := [ln] }
theorem test_range_hypotheses :
    ((wrange.rx 4).toNat != 0 && (wrange.core 0).queue.isEmpty && okAnd (wrange.rangePages 0 true 1) (fun u pages =>
        (u.flightsOf u.here).isEmpty && u.rangeLines 0x21 0x22 pages == [(0x123451080 / 128, 0x21)] && someAnd (u.lineOf 0 (0x123451080 / 128)) (fun ln => !ln.tracked && ln.dirty != 0) &&
          u.ownDevice 0x123451080 && u.backed (localOf 0x123451080) && Memory.wf u.mem)) = true := by decide +kernel
theorem test_range_words :
    (nexts (.rwb p0 6 4) wrange (fun t => t.byte 0x123451089 == 0xBB && t.byte 0x123451088 == 0 && someAnd (t.lineOf 0 (0x123451080 / 128)) fun ln => ln.dirty == 0) &&
      nexts (.rwbinv p0 6 4) wrange (fun t => t.byte 0x123451089 == 0xBB && (t.lineOf 0 (0x123451080 / 128)).isNone) &&
      nexts (.rinv p0 6 4) wrange fun t => t.byte 0x123451089 == 0 && (t.lineOf 0 (0x123451080 / 128)).isNone) = true := by decide +kernel
theorem test_rstf :
    ((wl.rx 3).toNat % 256 == 0 && (wl.rx 1).toNat % 8 == 0 && wl.rk 1 != 0 && laneAnd wl (wl.rx 3) 4 .write false false (fun u x => x.gpa % 256 == 0 &&
        laneAnd u (wl.rx 1) 8 .atomic false false fun w y => w.cx == wl.cx && w.ownDevice y.gpa && decide (y.gpa < 2 ^ 60)) &&
      nexts (.rstf p0 3 1 3 1) wl fun t => t.homes.held.map (fun g => (g.gpa, g.type)) == [(0x123451048, 5)] && t.bytes 0x123451100 8 == 4 * 2 ^ 32) = true := by
  decide +kernel
/-- The untracked quiet line of `test_quiet_line`, and a tracked one that E asks for: what PFL's clause about a quiet line asks. -/
theorem test_pfl_quiet :
    (let q := fun (leaf : Dbl) (e : Bool) =>
       let s : State := (({ wl with cores := [(0, { tlb := [⟨0, 0, 16, leaf⟩] })] } : State).free).2
       laneAnd s (s.rx 1 &&& ~~~127#64) 128 .read true false fun _ x =>
         x.gpa == 0x123451000 && x.leaf == leaf && (!e || x.leaf.getLsbD 2) && s.ownDevice x.gpa && windowOf (localOf x.gpa) == .hbm &&
           s.backed (128 * (x.gpa / 128)) && !s.grantBlocks (x.gpa / 65536) true && (s.dirCores (x.gpa / 128)).isEmpty
     q 0x1234500CF false && q 0x1234500DF true) = true := by decide +kernel
/-- In state E where E asks for it, with the line's bytes. -/
theorem test_pfl_line :
    (let s : State := { wl with cores := [(0, { tlb := [⟨0, 0, 16, 0x1234500DF⟩] })] }
     let t := s.prefetchLine ⟨0, 0, true⟩ 0x123451000 true
     someAnd (t.lineOf 0 (0x123451000 / 128)) fun ln => ln.mesi == .e && ln.tracked && lineBytes ln.data 0x48 8 == 0x8877665544332211) = true := by
  decide +kernel
theorem test_pfl_dropped :
    ((match ({ w0 with tick := 1 } : State).laneCheck 0 128 .read true false with | (_, .error f) => f.cause == 0x20 | _ => false) &&
      (wl.laneCheck 0x1080 128 .read true false).1.cx == wl.cx) = true := by decide +kernel
/-- A copy descriptor at 0x1080: 64 bytes from offset 0 to offset 128 of the window, its object at 256. -/
def wcopy : State :=
  let d := 128 * 2 ^ 64 + 64 * 2 ^ 192 + 2 ^ 226 + 2 ^ 227 + 16 * 2 ^ 234
  let s : State := { wl with mem := cellsWrite wl.mem 0x123451080 32 d, cx := { wl.cx with x := wl.cx.x.set 6 0x1080, id := { wl.cx.id with scratchLen := 4096 } } }
  s.setCluster 0 { s.cluster 0 with scratch := [(3, 9), (264, 1)], converted := 1 }
theorem test_acopy :
    ((wcopy.rx 6).toNat % 32 == 0 && okAnd (wcopy.readNow (wcopy.rx 6) 32) (fun u v => someAnd v fun d =>
        let j : CopyJob := ⟨u.tick, u.here, BitVec.ofNat 256 d, 0, u.scratchAt 0, u.scratchLimit, 256, u.cx.opens.map OpenAccess.id ++ u.coreQueued u.here, [], [], [], none⟩
        (State.copyBad j 256 u.scratchLimit).isNone && j.total == 64 && !bFault (u.barrier u.hereCluster 256) && (u.cluster u.hereCluster).copies.isEmpty) &&
      nexts (.acopy p0 6 0 none) wcopy fun t => (t.cluster 0).copies.length == 1 && bPending (t.barrier 0 256) == 64) = true := by decide +kernel

/-! Barriers. An object at offset 256 expects 2 arrivals and has 1; x1 = 256, x2 = 1. -/

def wb (pending : Nat) (fault : Bool) : State :=
  let o := pending + (if fault then 2 ^ 49 + 0x66 * 2 ^ 96 else 0) + 2 * 2 ^ 64 + 2 ^ 80
  let s : State := { w0 with cx := { w0.cx with x := (w0.cx.x.set 1 256).set 2 1, id := { w0.cx.id with scratchLen := 4096 } } }
  s.setCluster 0 { s.cluster 0 with scratch := cellsWrite [] 256 16 o, converted := 1 }
theorem test_barrier_arrive :
    ((wb 0 false).scratchLimit == 4096 && Memory.wf ((wb 0 false).cluster 0).scratch && (wb 0 false).cx.opens.isEmpty && ((wb 0 false).coreQueued 0).isEmpty &&
      bArrived ((wb 0 false).barrier 0 256) == 1 && nexts (.barrive p0 1) (wb 0 false) (fun t => bPhase (t.barrier 0 256) && bArrived (t.barrier 0 256) == 0) &&
      nexts (.barrive p0 1) (wb 5 false) fun t => !bPhase (t.barrier 0 256) && bArrived (t.barrier 0 256) == 2) = true := by decide +kernel
theorem test_barrier_init :
    (nexts (.binit p0 1 2) (wb 5 true) (fun t => bExpected (t.barrier 0 256) == 1 && bPending (t.barrier 0 256) == 0 && !bFault (t.barrier 0 256)) &&
      nexts (.binit p0 1 0) (wb 5 true) (fun t => t.cx.trap.tcause == 0x61) && nexts (.bexpect p0 1 2) (wb 5 false) (fun t => bPending (t.barrier 0 256) == 6) &&
      nexts (.bexpect p0 1 0) (wb 5 false) (fun t => t == wb 5 false) &&
      nexts (.breset p0 1) (wb 5 true) fun t => !bFault (t.barrier 0 256) && bArrived (t.barrier 0 256) == 0 && bExpected (t.barrier 0 256) == 2) = true := by
  decide +kernel
theorem test_barrier_wait :
    (nexts (.bwait p0 5 1 2) (wb 0 false) (fun t => t.cx.flights.map Flight.result == [[.q 5 true]]) &&
      nexts (.bwait p0 5 1 2) (wb 0 true) (fun t => t.cx.flights.map Flight.result == [[.q 5 false]]) &&
      nexts (.bwait p0 5 1 0) (wb 0 false) (fun t => (t.cluster 0).waiters.map (fun w => (w.ctx, w.off, w.tabled)) == [(0, 256, true)]) &&
      nexts (.btest p0 5 1 true) (wb 0 false) fun t => t.cx.pending == [⟨1, false, .x 5 0x10002⟩]) = true := by decide +kernel
/-- What another context changed in the running cycle is not seen before the next. -/
theorem test_btest_next_cycle :
    (let s := wb 0 false
     let t := s.setCluster 0 { s.cluster 0 with barBefore := [(256, 0, 7)] }
     s.cycle == 0 && nexts (.btest p0 5 1 false) t (fun u => u.cx.pending == [⟨1, false, .x 5 7⟩]) &&
       nexts (.btest p0 5 1 false) { t with cycle := 1 } fun u => u.cx.pending == [⟨1, false, .x 5 0⟩]) = true := by decide +kernel
/-- A copy of 64 bytes of one unit, and the object it pays into. -/
def wcp : State :=
  let j : CopyJob := ⟨7, 0, BitVec.ofNat 256 (128 * 2 ^ 64 + 64 * 2 ^ 192 + 2 ^ 226 + 2 ^ 227), 0, 0, 4096, 256, [], [], [], [], none⟩
  let s := wb 100 false
  s.setCluster 0 { s.cluster 0 with copies := [j], scratch := cellsWrite (s.cluster 0).scratch 3 1 9 }
theorem test_copy_lands :
    (someAnd ((wcp.cluster 0).copies.head?) (fun j => j.kind == 0 && j.srcS && j.dstS && j.units == 1 && j.len == 64 && decide (j.base + j.dst + j.len ≤ j.bar) &&
        decide (j.len < bPending (wcp.barrier 0 256))) && Memory.wf (wcp.cluster 0).scratch && (wcp.cluster 0).waiters.isEmpty) = true := by decide +kernel
theorem test_copy_fault :
    (nexts (.copyFault 0 7 0x22) wcp fun t => (t.cluster 0).copies.isEmpty && bFault (t.barrier 0 256) && bFcause (t.barrier 0 256) == 0x22) = true := by
  decide +kernel
/-- An unassigned cause is none; with a unit on its way the fault waits. -/
theorem test_copy_fault_waits :
    (State.unassigned 0x19 && !State.unassigned 0x22 && nexts (.copyFault 0 7 0x19) wcp (fun t => t == wcp) &&
      let s := wcp.setCluster 0 { wcp.cluster 0 with copies := (wcp.cluster 0).copies.map fun j => { j with sent := [3] } }
      nexts (.copyFault 0 7 0x22) s fun t => (t.cluster 0).copies.map (fun j => j.fault.isSome) == [true] && !bFault (t.barrier 0 256)) = true := by
  decide +kernel
theorem test_bwait_poll :
    (let f : Flight := ⟨7, .barrier 256 true, [.q 5], [], 0⟩
     let s : State := { wb 0 false with cx := { (wb 0 false).cx with flights := [f] } }
     let t := s.setCluster 0 { s.cluster 0 with waiters := [⟨0, 7, 256, false, 64⟩] }
     bPhase (t.barrier 0 256) != true && nexts (.bwaitPoll 0 7) t fun u => (u.cluster 0).waiters.isEmpty && u.cx.flights.isEmpty && u.rq 5) = true := by
  decide +kernel

/-! Tokens, graphs, co-tasks, leases, guest queues. A token word at 0x1048 with 3 tokens, an empty one at 0x1100. -/

def wtok : State := { wl with mem := cellsWrite [] 0x123451048 8 3 }
theorem test_tokens :
    (okAnd (wtok.xlat (wtok.rx 1) .atomic) (fun u x => x.gpa % 8 == 0 && u.cx == wtok.cx && u.homes.tokens.isEmpty && u.bytes x.gpa 8 == 3 &&
        (u.core u.hereCore).queue.isEmpty && !u.olderFlight u.here u.tick (x.gpa / 128) && (u.coreQueued u.here).isEmpty) &&
      nexts (.toksig p0 1 0) wtok (fun t => t.bytes 0x123451048 8 == 4) && nexts (.toksig p0 1 4) wtok (fun t => t.bytes 0x123451048 8 == 0x103) &&
      nexts (.tokwait p0 5 1) wtok (fun t => t.rx 5 == 3 && t.bytes 0x123451048 8 == 2) &&
      nexts (.tokwait p0 5 3) wtok fun t => t.homes.tokens.map TokenWait.listed == [true] && t.bytes 0x123451048 8 == 3) = true := by decide +kernel
theorem test_gstart :
    ((wl.rx 4).toNat % 64 == 0 && (wl.rx 1).toNat % 8 == 0 && (wl.coreQueued 0).isEmpty && decide ((wl.die 0).instances.length < 256) &&
      nexts (.gstart p0 4 1) wl fun t => (t.die 0).instances.map (fun i => (i.id, i.done)) == [(0, 0x1048)]) = true := by decide +kernel
theorem test_spawn :
    (let s : State := { wl with cx := { wl.cx with id := { wl.cx.id with klass := 0 }, b := wl.cx.b.set 1 0x40 } }
     let s := s.setEntry 0 0 { desc := 0, addr := 0, state := .running, members := [0] }
     (s.ctx 2).occ == .idle && s.canReserve 0 0 1 && (s.taskEntry).isSome && (s.bindInputs 0 0 [] (Vector.replicate 16 0)).isSome &&
       nexts (.spawn p0 1 2 1) s fun t => (t.ctx 2).occ == .occupied && (t.ctx 2).pc == 0x40 && (t.ctx 2).getX 3 == 0x1100 &&
         someAnd t.taskEntry fun e => e.members == [0, 2]) = true := by decide +kernel
/-- Device 0 with device 1 in its row; x1 = 1, x2 = 2, x3 = 100 and x4 = 17. -/
def wlease : State :=
  { w0 with cx := { w0.cx with x := (((w0.cx.x.set 1 1).set 2 2).set 3 100).set 4 17 }, dev := { w0.dev with presence := 2 } }
theorem test_lease_request :
    (wlease.peerDim 1 == some false && wlease.dev.presence.getLsbD 1 && wlease.freeLeaseId == some 1 && wlease.leaseRefusal false 1 2 == 0 &&
      nexts (.leaseReq p0 5 1 2 3) wlease (fun t => t.fab.leases.map (fun l => (l.id, l.want, l.term, l.state)) == [(1, 2, 100, .queued)]) &&
      let full : State := { wlease with fab := { wlease.fab with leases := [⟨7, 0, 0, 1, 8, 9, .queued, 0, 0, 0, 0, false, []⟩] } }
      full.leaseRefusal false 1 2 == 5 && nexts (.leaseReq p0 5 1 2 3) full fun t =>
        t.cx.flights.map Flight.result == [[.x 5 (BitVec.ofNat 64 (8 * 2 ^ 16 + 5 * 2 ^ 20 + 2 ^ 24 + 100 * 2 ^ 32))]]) = true := by decide +kernel
theorem test_lease_words :
    (let s : State := { wlease with fab := { wlease.fab with leases := [⟨1, 0, 0, 1, 2, 100, .active, 0, 0, 0, 1, false, [60, 61]⟩] } }
     someAnd (s.leaseOf 1) (fun l => l.space == s.cx.id.space) && nexts (.leaseRel p0 1) s (fun t => someAnd (t.leaseOf 1) (fun l => l.state == .ending) &&
         t.agenda.map Prod.fst == [2800]) &&
       nexts (.leaseQry p0 5 1) s fun t => t.cx.flights.length == 1) = true := by decide +kernel
/-- Guest queue 2 is enabled for space 0 and has one packet. -/
def wmq : State :=
  { w0 with moor := { w0.moor with queues := [(2, { ctl := 1, tail := 1, packets := [(0, ⟨7, none⟩)] })] } }
theorem test_mqpush :
    (!wmq.moor.fenced && (wmq.gqueue 2).ctl.getLsbD 0 && State.mqBound (wmq.gqueue 2) 0 && (wmq.packetFault 2 0).isNone && (wmq.coreQueued 0).isEmpty &&
      nexts (.mqpush p0 3 2) wmq (fun t => (t.gqueue 2).tail == 2 && (t.gqueue 2).packets.length == 2) &&
      nexts (.mqstat p0 5 2) wmq fun t => t.cx.flights.map Flight.result == [[.x 5 (BitVec.ofNat 64 (1 + 255 * 2 ^ 16 + 3 * 2 ^ 40))]]) = true := by decide +kernel
/-! Loam's events. Tensor 5 of space 0 is one tile of 1 by 2 elements of i8 at 0x2000, 7 and 9. -/

def wlo : State :=
  let leaf : TlbEntry := ⟨0, 0, 16, 0xCF⟩
  let space := 2 ^ 63 + 0x1000 * 2 ^ 64 + 8 * 2 ^ 128
  let desc := 0x2000 + 2 ^ 128 + 2 * 2 ^ 160 + 2 ^ 463 + 2 * 2 ^ 456
  let m := cellsWrite (cellsWrite (cellsWrite [] 0 64 space) 0x1140 64 desc) 0x2000 2 0x0907
  let s : State := { w0 with mem := m, cores := [(0, { tlb := [leaf] })] }
  s.setCluster 0 { s.cluster 0 with tlb := [leaf] }
def tile5 : TileId := ⟨0, 5, 0⟩
/-- A request of context 0 for the tile. -/
def req5 (w : Want) : TileReq := ⟨tile5, w, .ctx 0, 0⟩
/-- The context waits for it in slot 1670 of cluster 0. -/
def wfill (w : Want) : State :=
  let s : State := { wlo with cx := { wlo.cx with parked := some (req5 w), waitSince := some 0 } }
  s.setSlot 0 1670 { state := .filling, tile := tile5, users := [req5 w] }
/-- The slot holds a version of the tile. -/
def wslot (st : SlotState) (v : BitVec 32) : State := wlo.setSlot 0 1670 { state := st, tile := tile5, version := v, data := 0x0304 }
def walloc : State :=
  let s : State := { wlo with cx := { wlo.cx with parked := some (req5 .latest) } }
  s.setCluster 0 { s.cluster 0 with allocs := [⟨9, 13, 6, 0, req5 .latest, 0, false, none⟩] }
theorem test_loam_allocation :
    ((match walloc.allocate 0 13 6 0 with | (u, .got w) => w == 0 && (u.fillingFor (req5 .latest)).isNone | _ => false) &&
      nexts (.loamAllocation 0 13) walloc (fun t => (t.slot 0 1670).state == .filling && t.agenda.map Prod.snd == [.homeTileRequest (req5 .latest)]) &&
      nexts (.allocationTimeout 0 9) walloc fun t => (someAnd t.cx.fault fun f => f.cause == 0x46 && f.i0 == 2) && (t.cluster 0).allocs.isEmpty) = true := by
  decide +kernel
theorem test_home_request :
    ((wfill .latest).fillingFor (req5 .latest) == some 1670 && okAnd ((wfill .latest).tileAway 0 tile5) (fun u a => a.1.isNone &&
        (match u.resolve tile5 .latest 0 with | .fill v => v == 0 | _ => false)) &&
      nexts (.homeTileRequest (req5 .latest)) (wfill .latest) fun t => t.agenda.map Prod.snd == [.tileFill 0 1670]) = true := by decide +kernel
theorem test_await_retry :
    (let s := wfill (.atLeast 5)
     let full : State := { s with homes := { s.homes with awaiting := List.replicate 64 (s.tileChannel 0 tile5, req5 (.atLeast 9)) } }
     (match full.resolve tile5 (.atLeast 5) 0 with | .await => true | _ => false) &&
       nexts (.awaitListRetry (req5 (.atLeast 5)) 256) full fun t => t.agenda == [(256, .awaitListRetry (req5 (.atLeast 5)) 512)]) = true := by decide +kernel
theorem test_tile_fill :
    (okAnd ((wfill .latest).tileAway 0 tile5) (fun u a => a.1.isNone && (u.verOf tile5).m == 0 && !u.merging tile5 &&
        !u.yields (u.slot 0 1670) 0 &&
        okAnd (u.mapPages 0 0 .fill (State.tileVas a.2 0) []) fun v pg => (v.awayLines pg (State.tileVas a.2 0)).isEmpty &&
          (v.tileBlocked pg a.2 tile5 false).isNone && (v.slot 0 1670).lineFail.isNone && okAnd (v.fillData 0 a.2 tile5 0 (v.slot 0 1670).lines) fun _ d => d.1 == 0x0907) &&
      nexts (.tileFill 0 1670) (wfill .latest) fun t => (t.slot 0 1670).state == .clean && (t.slot 0 1670).data == 0x0907 &&
        t.cx.served == some 1670) = true := by decide +kernel
theorem test_tile_forward :
    (let s := (wfill (.atLeast 2)).setSlot 1 1678 { state := .clean, tile := tile5, version := 2, data := 0x55 }
     s.localHit 1 tile5 (.exactly 2) == some 1678 && nexts (.tileForward (req5 (.atLeast 2)) 1 2) s (fun t => (t.slot 0 1670).data == 0x55) &&
       nexts (.tileForward (req5 (.atLeast 2)) 2 2) s fun t => t.agenda.map Prod.snd == [.homeTileRequest (req5 (.atLeast 2))]) = true := by decide +kernel
/-- The holder is evicting the slot, and its write-back has still to follow the version's publish: the forward waits (R198). -/
theorem test_tile_forward_evicting :
    (let a : State := { wfill (.atLeast 2) with agenda := [(0, .publishAtHome tile5 2 1)] }
     let s := a.setSlot 1 1678 { state := .writeback, tile := tile5, version := 2, data := 0x55 }
     s.localHit 1 tile5 (.exactly 2) == some 1678 && State.evicting (s.slot 1 1678) && State.evicting ((s.mergeSlot 1 1678).slot 1 1678) &&
       nexts (.tileForward (req5 (.atLeast 2)) 1 2) s fun t => (t.slot 0 1670).state == .filling &&
         t.agenda.contains (1, .tileForward (req5 (.atLeast 2)) 1 2)) = true := by decide +kernel
theorem test_snew_at_home :
    (let s : State := { wlo with cx := { wlo.cx with opening := some ⟨tile5, false, none, none⟩ } }
     (s.verOf tile5).openV.isNone && nexts (.snewAtHome 0 tile5 0 true) s (fun t => (t.verOf tile5).openV == some (1, 0)) &&
       nexts (.snewAtHome 0 tile5 9 false) s (fun t => (t.verOf tile5).openV == some (9, 0)) &&
       nexts (.snewAtHome 0 tile5 0 false) s fun t => t.cx.opening.isNone && someAnd t.cx.fault fun f => f.cause == 0x42) = true := by decide +kernel
theorem test_publish_abandon :
    (wlo.homes.awaiting.isEmpty && nexts (.publishAtHome tile5 4 0) wlo (fun t => (t.verOf tile5).p == 4 && (t.verOf tile5).owner == some 0) &&
      let s := wlo.setVer tile5 { openV := some (4, 0) }
      nexts (.abandonAtHome tile5 4) s fun t => (t.verOf tile5).openV.isNone) = true := by decide +kernel
/-- A write-back above M is merged; one that is not is discarded. -/
theorem test_writeback :
    (okAnd ((wslot .writeback 3).tileAway 0 tile5 .writeback) (fun u a => a.1.isNone && !u.publishing tile5 (some 3) &&
        okAnd (u.mapPages 0 0 .writeback (State.tileVas a.2 0) []) fun v pg =>
          let w := v.setSlot 0 1670 { v.slot 0 1670 with puts := some 0 }
          !v.merging tile5 && v.slot 0 1670 == u.slot 0 1670 && (v.slot 0 1670).home.isNone && (v.slot 0 1670).lineFail.isNone &&
            (v.tileBlocked pg a.2 tile5 true).isNone && (w.tileBlocked pg a.2 tile5 true).isNone && (v.awayMerges pg a.2 tile5 0x0304 0).isEmpty &&
            ((State.tileVas a.2 0).findSome? (v.unwritable pg)).isNone && (w.writeMapped pg a.2 tile5 0x0304 0).2.isNone) &&
      nexts (.tileWritebackMerge 0 1670) (wslot .writeback 3) (fun t => t.bytes 0x2000 2 == 0x0304 && (t.verOf tile5).m == 3 && (t.slot 0 1670).state == .clean) &&
      nexts (.tileWritebackMerge 0 1670) (wslot .writeback 0) fun t => t.bytes 0x2000 2 == 0x0907) = true := by decide +kernel
theorem test_ways_events :
    (let c := wlo.cluster 0
     let s : State := { wlo.setCluster 0 { c with conv := some ⟨0, 8, 0, false⟩, gated := [3], waking := [5] } with cycle := 65536 }
     let k := ((State.waySlots 0 8).head?).getD 0
     let p := s.setSlot 0 k { state := .clean, tile := tile5, pins := 1 }
     nexts (.wayconvPinTimeout 0) p (fun t => someAnd (t.cluster 0).conv WayConv.failed) &&
       (State.waySlots 0 8).all (fun k => (s.slot 0 k).pins == 0) &&
       nexts (.wayconvPinTimeout 0) s (fun t => !(someAnd (t.cluster 0).conv WayConv.failed) && t.agenda == [(65600, .wayconvPinTimeout 0)]) &&
       nexts (.wayGate 0 0 0) wlo (fun t => (t.cluster 0).gated == [0]) &&
       nexts (.wayWake 0 0 5) s fun t => (t.cluster 0).waking.isEmpty) = true := by decide +kernel
/-- An itinerary of two entries at 0x3000: the tile, then the tile as the last. -/
def witin (last : Nat) : State :=
  let s : State := { wlo with mem := cellsWrite wlo.mem 0x3000 16 (5 * 2 ^ 96 + last * 2 ^ 117) }
  s.setCluster 0 { s.cluster 0 with itineraries := [⟨9, 0x3000, 0, 0⟩] }
theorem test_itinerary :
    (okAnd ((witin 0).readVa 0 0 0x3000 16 .read) (fun u v => okAnd (u.tensor 0 0 (BitVec.ofNat 20 (v / 2 ^ 96))) fun u2 tn => someAnd tn fun tn => tn.coordOk 0 &&
        (u2.localHit 0 tile5 .latest).isNone) && (witin 0).walking 0 9 == 0 &&
      nexts (.itineraryEntry 0 9) (witin 0) (fun t => (t.cluster 0).itineraries == [⟨9, 0x3010, 0, 0⟩] && (t.cluster 0).allocs.length == 1) &&
      nexts (.itineraryEntry 0 9) (witin 1) fun t => (t.cluster 0).itineraries.isEmpty) = true := by decide +kernel
/-- Two equal requests queued: both take the way given to the first. -/
theorem test_equal_allocations :
    (let s := walloc.setCluster 0 { walloc.cluster 0 with
       allocs := [⟨9, 13, 6, 0, req5 .latest, 0, false, none⟩, ⟨10, 13, 6, 0, { req5 .latest with user := .ctx 1 }, 0, false, none⟩] }
     (match (s.cluster 0).allocs with | [a, b] => State.sameAlloc a b && !State.onlyHint a.req.user | _ => false) &&
       (match s.allocate 0 13 6 0 with | (u, .got w) => w == 0 && (u.cluster 0).allocs.length == 2 | _ => false) &&
       nexts (.loamAllocation 0 13) s fun t => (t.cluster 0).allocs.isEmpty && (t.slot 0 1670).users.map TileReq.user == [.ctx 0, .ctx 1]) = true := by
  decide +kernel
/-- A prefetch's request for a version that is not there is skipped. -/
theorem test_await_skips_prefetch :
    (let r : TileReq := ⟨tile5, .atLeast 5, .prefetch 0 9, 0⟩
     let s := wlo.setSlot 0 1670 { state := .filling, tile := tile5, users := [r] }
     s.fillingFor r == some 1670 && (match s.resolve tile5 (.atLeast 5) 0 with | .await => true | _ => false) &&
       (((s.skipHints 0 1670).slot 0 1670).users).isEmpty && nexts (.awaitListRetry r 256) s fun t => t.agenda.isEmpty) = true := by decide +kernel
theorem test_snew_withdrawn :
    (let other : State := { wlo with cx := { wlo.cx with opening := some ⟨⟨0, 6, 0⟩, false, none, none⟩ } }
     nexts (.snewAtHome 0 tile5 1 false) wlo (fun t => t == wlo) && nexts (.snewAtHome 0 tile5 1 false) other fun t => t == other) = true := by
  decide +kernel

/-! Beacon's events. One instance of space 0 with one level; its one live node, at 0x4000, is ready. -/

/-- The node's entry in memory; a condition word of 2 at 0x5000, a token word of 3 at 0x5008, a list of one address at 0x5010, and an END node at 0x6000. -/
def wnode (n : Nat) (count : Nat) : State :=
  let m := cellsWrite (cellsWrite (cellsWrite (cellsWrite (cellsWrite wlo.mem 0x4000 64 n) 0x5000 8 2) 0x5008 8 3) 0x5010 8 0x6000) 0x6000 1 8
  let i : Instance := ⟨1, 0, 0, 0, false, [⟨0, 0, none, [⟨0x4000, 1, true, false, false, count, none, false⟩], none⟩], 1⟩
  { wlo with mem := m, dies := [(0, { instances := [i] })] }
def b1 : NodeRef := ⟨0, 1, 0, 0x4000⟩
/-- A node of a type with field A. -/
def nodeA (type a : Nat) : Nat := type + a * 2 ^ 64
theorem test_node_there :
    (let s := wnode (nodeA 2 0x5000) 0
     (s.instOf b1).isSome && (someAnd (s.liveNode b1) LiveNode.ready) && okAnd (s.readNode b1 0) (fun u n => nType n == 2 && u.cx == s.cx &&
       someAnd (u.instOf b1) fun i => someAnd (u.liveNode b1) fun x => (u.condition b1 i x n).2 == .done 2)) = true := by decide +kernel
theorem test_launch :
    (let n := nodeA 1 0x5040 + 0x5000 * 2 ^ 256
     okAnd ((wnode n 0).readNode b1 0) (fun u n => someAnd (u.instOf b1) fun i => (u.launchCounter b1 i n).2 == .done 0) &&
       nexts (.launchNode b1) (wnode n 0) (fun t => t.bytes 0x5000 8 == 0 && (t.die 0).watches.length == 1 &&
         (t.die 0).expansions == [⟨b1, 0, 0, 0⟩] && someAnd (t.liveNode b1) fun x => x.count == 1) &&
       nexts (.launchWatchMet b1) (wnode n 2) fun t => (someAnd (t.liveNode b1) LiveNode.finished)) = true := by decide +kernel
theorem test_conditions :
    (nexts (.ifNode b1) (wnode (nodeA 2 0x5000) 0) (fun t => (someAnd (t.liveNode b1) LiveNode.finished)) &&
      nexts (.whileNode b1) (wnode (nodeA 3 0x5000 + 0x6000 * 2 ^ 128) 0) (fun t => someAnd (t.instOf b1) fun i => i.levels.length == 2) &&
      nexts (.whileNode b1) (wnode (nodeA 3 0x5018) 0) (fun t => (someAnd (t.liveNode b1) LiveNode.finished)) &&
      nexts (.switchNode b1) (wnode (nodeA 4 0x5000 + 2 ^ 8 + 0x5010 * 2 ^ 320) 0) fun t => (someAnd (t.liveNode b1) LiveNode.finished)) = true := by
  decide +kernel
theorem test_signal_wait :
    (nexts (.signalNode b1) (wnode (nodeA 5 0x5008) 0) (fun t => t.bytes 0x5008 8 == 4 && (someAnd (t.liveNode b1) LiveNode.finished)) &&
      nexts (.waitNode b1) (wnode (nodeA 6 0x5008) 0) (fun t => t.bytes 0x5008 8 == 2 && someAnd (t.liveNode b1) fun x => x.count == 1) &&
      nexts (.waitNode b1) (wnode (nodeA 6 0x5008) 1) (fun t => (someAnd (t.liveNode b1) LiveNode.finished)) &&
      nexts (.callNode b1) (wnode (nodeA 7 0 + 0x6000 * 2 ^ 128) 0) fun t => someAnd (t.instOf b1) fun i => i.levels.length == 2) = true := by decide +kernel
/-- The expansion of a launch hands over the task of its next coordinate, and is over after the last (R306). -/
theorem test_expansion :
    (let n := nodeA 1 0x5040 + 0x5000 * 2 ^ 256
     let at_ := fun k : Nat => let s := wnode n 1; s.setDie 0 { s.die 0 with expansions := [⟨b1, 0, 0, k⟩] }
     nBox (BitVec.ofNat 512 n) == 1 && nexts (.launchNode b1) (at_ 0) (fun t => (t.die 0).expansions == [⟨b1, 0, 0, 1⟩] &&
         t.clusters.any fun (_, c) => c.entries.length == 1 && c.entries.all fun (_, e) => dDone e.desc == 0x5000) &&
       nexts (.launchNode b1) (at_ 1) fun t => (t.die 0).expansions.isEmpty) = true := by decide +kernel
/-- The END of the first level, when it has finished. -/
def wend (failed queued finished : Bool) : State :=
  let s := wnode (nodeA 8 0) 0
  let i : Instance := ⟨1, 0, 0, 0, failed, [⟨0, 0, none, [⟨0x4000, 1, true, finished, queued, 0, none, false⟩], some 0x4000⟩], 1⟩
  { s with dies := [(0, { instances := [i] })] }
theorem test_end :
    ((someAnd ((wend false false true).levelOf b1) fun l => (wend false false true).levelOver b1 l && l.opener.isNone) &&
      nexts (.endNode b1) (wend false false true) (fun t => (t.die 0).instances.isEmpty) &&
      ((wend true false false).queuedNodes 0).isEmpty && nexts (.liveNodeTimeout b1) (wend true false false) fun t => (t.die 0).instances.isEmpty) = true := by
  decide +kernel
/-- The node waits for an entry, and 4,096 others have theirs. -/
theorem test_live_node_timeout :
    (let busy : LiveNode := ⟨0x8000, 1, true, false, false, 0, none, false⟩
     let i : Instance := ⟨1, 0, 0, 0, false, [⟨0, 0, none, ⟨0x4000, 1, true, false, true, 0, none, false⟩ :: List.replicate 4096 busy, none⟩], 1⟩
     let s : State := { wnode (nodeA 8 0) 0 with dies := [(0, { instances := [i] })] }
     (someAnd (s.liveNode b1) LiveNode.queued) && decide (4096 ≤ s.liveNodes 0) &&
       nexts (.liveNodeTimeout b1) s fun t => someAnd ((t.die 0).instances.head?) Instance.failed) = true := by decide +kernel
/-- Queue 0 is enabled with 16 entries at 0x7000; its head entry, of space 0, has an OP and ADDR. -/
def wqueue (op addr : Nat) : State :=
  { wlo with mem := cellsWrite (cellsWrite wlo.mem 0x7000 64 (op + addr * 2 ^ 64)) 0x5008 8 3, queues := [(0, { qbase := 0x7000, qctl := 0x401, qtail := 1 })] }
theorem test_commands :
    (State.qEnabled ((wqueue 1 0x4000).queue 0) && !(wqueue 1 0x4000).cBad 0 ((wqueue 1 0x4000).queueHead 0).2 0 &&
      nexts (.cmdStart 0) (wqueue 1 0x4000) (fun t => (t.die 0).instances.length == 1 && (t.queue 0).qhead == 1) &&
      nexts (.cmdTask 0) (wqueue 2 0x6000) (fun t => (t.queue 0).qhead == 1 && (t.entry 0 0).isSome) &&
      nexts (.cmdSignal 0) (wqueue 3 0x5008) (fun t => t.bytes 0x5008 8 == 4 && (t.queue 0).qhead == 1) &&
      nexts (.cmdStart 0) (wqueue 1 0x4008) fun t => (t.queue 0).rejects == 1 && (t.die 0).instances.isEmpty) = true := by decide +kernel
theorem test_doorbell :
    (nexts (.qtailDoorbell 0 2) (wqueue 1 0x4000) (fun t => (t.queue 0).qtail == 2 && t.agenda.isEmpty) &&
      let s : State := { wqueue 1 0x4000 with queues := [(0, { qbase := 0x7000, qctl := 0x401 })] }
      nexts (.qtailDoorbell 0 1) s fun t => t.agenda.map Prod.snd == [.cmdStart 0]) = true := by decide +kernel
theorem test_token_waiters :
    (let w : TokenWait := ⟨7, 0x5008, 0, 0, false, .node b1, false⟩
     let s : State := { wnode (nodeA 6 0x5008) 3 with homes := { (wnode 0 0).homes with tokens := [w] } }
     let l : State := { s with homes := { s.homes with tokens := [{ w with listed := true }] } }
     nexts (.tokenWaitRetry 7 256) s (fun t => t.bytes 0x5008 8 == 2 && t.homes.tokens.isEmpty) &&
       nexts (.tokenReexamine 0x5008) l fun t => t.bytes 0x5008 8 == 2 && t.homes.tokens.isEmpty && (t.agenda.map Prod.snd).contains (.waitNode b1)) = true := by
  decide +kernel
/-- The END of a level with a node not yet finished waits, and the node is still live. -/
theorem test_end_waits :
    (let s := wnode (nodeA 8 0) 0
     let n2 : LiveNode := ⟨0x8000, 1, true, false, false, 0, none, false⟩
     let i : Instance := ⟨1, 0, 0, 0, false, [⟨0, 0, none, [⟨0x4000, 1, true, false, false, 0, none, false⟩, n2], none⟩], 2⟩
     let s : State := { s with dies := [(0, { instances := [i] })] }
     nexts (.endNode b1) s fun t => (someAnd (t.levelOf b1) fun l => !t.levelOver b1 l && l.ending == some 0x4000) &&
       (someAnd (t.liveNode b1) fun x => x.atEnd && !x.finished) && t.liveNodes 0 == 2) = true := by decide +kernel
/-- A failed instance waits for the tasks that it has created. -/
theorem test_failed_instance_waits :
    (let s := (wend true false false).setEntry 0 3 { desc := 0, addr := 0, state := .running, graph := some b1 }
     s.tasksLeft b1 && !(wend true false false).tasksLeft b1 && nexts (.liveNodeTimeout b1) s fun t =>
       t.agenda.contains (64, .liveNodeTimeout b1) && t.homes.held.isEmpty && (t.die 0).instances.length == 1) = true := by decide +kernel
/-- An OP that is none, and the address of a descriptor and of a token word that are not aligned. -/
theorem test_rejected_commands :
    (let bad := fun (s : State) => s.cBad 0 ((s.queueHead 0).2) 0
     bad (wqueue 9 0x6000) && nexts (.cmdStart 0) (wqueue 9 0x6000) (fun t => (t.queue 0).rejects == 1 && (t.queue 0).qhead == 1) &&
       bad (wqueue 2 0x6008) && nexts (.cmdTask 0) (wqueue 2 0x6008) (fun t => (t.queue 0).rejects == 1 && (t.entry 0 0).isNone) &&
       bad (wqueue 3 0x5009) && nexts (.cmdSignal 0) (wqueue 3 0x5009) fun t => (t.queue 0).rejects == 1 && t.bytes 0x5008 8 == 3) = true := by
  decide +kernel
/-! The fabric's events. The device is 0; device 1 is in its row and present; fabric and notices are on. -/

def wf : State :=
  let leaf : TlbEntry := ⟨0, 0, 16, 0xCF⟩
  let s : State := { wlo with dev := { wlo.dev with fabEn := true, lvEn := true, presence := 2 }, mem := cellsWrite wlo.mem 0x5008 8 0x0807060504030201 }
  s.setCore 0 { s.core 0 with tlb := [leaf] }
/-- A flit from device 1 for an address with AUX and INLINE. -/
def fl (type gpa aux inl : Nat) : Flit :=
  { type := BitVec.ofNat 8 type, src := 1, dst := 0, tag := 5, ord := false, cz := false, len := 0, space := 0, key := 0, seq := 0, gpa := BitVec.ofNat 60 gpa,
    aux := BitVec.ofNat 64 aux, inl := BitVec.ofNat 256 inl, data := 0 }
theorem test_fabric_hypotheses :
    (wf.dev.fabEn && !wf.fab.fencedSelf && (fl 1 0x5008 8 0).dst == wf.dev.devid && wf.dev.presence.getLsbD 1 && !(wf.peer 1).fenced &&
      wf.homes.held.isEmpty && (wf.peer 1).window.isEmpty && (wf.peer 1).early.isEmpty && (wf.peer 1).expectSeq == 0) = true := by decide +kernel
/-- A read of 8 bytes answers with them; a write of 2 stores them, and both complete. -/
theorem test_rd_wr :
    (nexts (.rd (fl 1 0x5008 8 0)) wf (fun t => t.fab.outbox.map (fun c => (c.type, c.dst, c.tag, c.inl)) == [(0x20, 1, 5, 0x0807060504030201)]) &&
      nexts (.wr (fl 3 0x5008 2 0xBBAA)) wf fun t => t.bytes 0x5008 8 == 0x080706050403BBAA && t.fab.outbox.map Flit.inl == [0]) = true := by decide +kernel
/-- The link to device 1 has one channel left, so that nothing is free. -/
def wone : State := [1, 2, 3].foldl (fun s n => s.mapChannel false n fun c => { c with spared := true }) wf
/-- Every type of the table is performed at once: what `takeFlit` gives, with the clauses' side conditions. -/
def taken (type : BitVec 8) (ord : Bool) (f : Flit) : Bool :=
  let p := wone.peer 1
  let p1 : Peer := if ord then { p with lastFlit := wone.cycle, expectSeq := p.expectSeq + 1 } else { p with lastFlit := wone.cycle }
  let (v, done) := (wone.setPeer 1 p1).takeFlit { f with type := type, ord := ord }
  done && v.homes.held.isEmpty && (v.peer 1).early.isEmpty
theorem test_transactions_taken :
    ([((0x01 : BitVec 8), false, fl 1 0x5008 8 0), (0x02, false, fl 2 0x5008 0 0), (0x02, true, fl 2 0x5000 0 1), (0x03, true, fl 3 0x5008 4 0), (0x04, true, fl 4 0x5000 0 0xFF),
      (0x05, true, fl 5 0x5008 0 0x801), (0x06, true, fl 6 0x5000 0 1), (0x08, true, fl 8 0x50000 0 0), (0x09, true, fl 9 0x50000 0 1),
      (0x0A, true, fl 10 0x50000 0 0), (0x0C, true, fl 12 0x5008 0 (8 * 2 ^ 192)), (0x0D, true, fl 13 0x5008 0 0), (0x0E, true, fl 14 0x5008 0 0),
      (0x0F, true, fl 15 0x5008 0 0), (0x10, false, fl 16 0x2000 0 (2 + 5 * 2 ^ 16)), (0x11, true, fl 17 0x2000 0 (5 * 2 ^ 16)), (0x12, true, fl 18 0x5000 0 (2 ^ 64))].all
        fun (t, o, f) => taken t o f) = true := by decide +kernel
/-- The line at 0x5000, the next one, that of 0x6000 and that of the tensor's data are quiet: what FabricEvents asks of a line. -/
theorem test_quiet_peer_lines :
    wone.quietLine ⟨0x5000, 0⟩ ∧ wone.quietLine ⟨0x5008, 0⟩ ∧ wone.quietLine ⟨0x5080, 0⟩ ∧ wone.quietLine ⟨0x6000, 0⟩ := by
  refine ⟨?_, ?_, ?_, ?_⟩ <;>
  exact ⟨by decide +kernel, by decide +kernel, by decide +kernel, by decide +kernel, by decide +kernel, by decide +kernel, by decide +kernel,
    by decide +kernel, fun n => ⟨by cases n <;> rfl, by cases n <;> exact Nat.zero_lt_succ 7⟩⟩
/-- What a home gives a transaction: its state and the completion, which the duplicate window keeps. -/
def answers (s : State) (f : Flit) (g : State → Flit → Bool) : Bool :=
  match s.takeFlit f with
  | (t, true) => (t.peer 1).window.any fun (tag, at_, q, c) => tag == 5 && at_ == s.cycle && q.type == f.type && c.type == 0x20 && c.dst == 1 &&
      c.tag == 5 && g t c
  | _ => false
theorem test_peer_hypotheses : (wone.homes.held.isEmpty && Memory.wf wone.mem && wone.homes.locks.isEmpty && wone.homes.tokens.isEmpty &&
    wone.homes.incoming.isEmpty && wone.homes.awaiting.isEmpty && !wone.merging tile5 && !wone.fillGoing tile5) = true := by decide +kernel
/-- RDL gives the line and, of a read-modify-write, locks it; WRM writes the bytes of its mask, and the unlocking one unlocks. -/
theorem test_peer_lines :
    (answers wone (fl 2 0x5008 0 1) (fun t c => t.homes.locks == [⟨0xA0, 0, some (1, 5), 0, [], []⟩] && c.len == 2 &&
        (c.data / 2 ^ 64).setWidth 64 == 0x0807060504030201#64) &&
      answers wone (fl 2 0x5008 0 0) (fun t _ => t.homes.locks.isEmpty) &&
      answers wone { fl 4 0x5008 0 (2 ^ 9 + 1) with data := 0xAA00000000000000BB00#2048 + 0xCC } (fun t _ => t.bytes 0x5000 16 == 0x080706050403AA0100000000000000CC) &&
      let locked : State := { wone with homes := { wone.homes with locks := [⟨0xA0, 0, some (1, 5), 0, [], []⟩, ⟨0xA1, 0, some (1, 5), 0, [], []⟩] } }
      answers locked (fl 4 0x5008 0 (2 ^ 128)) fun t _ => t.homes.locks.map Lock.line == [0xA1] && t.mem == wone.mem) = true := by decide +kernel
/-- AMO: the old value, an addition of 4 bytes and a compare and swap of 8, which matches. -/
theorem test_peer_atomics :
    (answers wone (fl 5 0x5008 0 (1 + 4 * 2 ^ 8 + 2 ^ 64)) (fun t c => c.inl == 0x04030201 && t.bytes 0x5008 8 == atomicNew (State.atomicOf 1) 4 0x04030201 1 % 2 ^ 32 + 0x08070605 * 2 ^ 32) &&
      answers wone (fl 5 0x5008 0 (10 + 8 * 2 ^ 8 + 0x77 * 2 ^ 64 + 0x0807060504030201 * 2 ^ 128)) fun t c =>
        c.inl == 0x0807060504030201 && t.bytes 0x5008 8 == 0x77) = true := by decide +kernel
/-- RSTF writes the lanes of its mask; without one it raises its flag by one. -/
theorem test_peer_rstf :
    (answers wone { fl 6 0x5000 0 4 with data := 0x11223344 * 2 ^ 64 } (fun t _ => t.bytes 0x5008 8 == 0x0807060511223344) &&
      answers wone (fl 6 0x5000 0x5008 (2 ^ 64)) fun t _ => t.bytes 0x5008 8 == 0x0807060504030202) = true := by decide +kernel
/-- MLOCK locks and compares; MCOMMIT writes and unlocks; MQUERY tells the decision; MDEC is acknowledged. -/
theorem test_peer_mcas :
    (answers wone (fl 12 0x5008 0x0807060504030201 (9 * 2 ^ 64 + 0x66 * 2 ^ 128 + 8 * 2 ^ 192)) (fun t c => c.inl == 0 && t.mem == wone.mem &&
        t.homes.locks.map (fun k => (k.line, k.op, k.peer, k.news)) == [(0xA0, 9, some (1, 5), [(0x5008, 8, 0x66)])]) &&
      answers wone (fl 12 0x5008 3 (9 * 2 ^ 64 + 8 * 2 ^ 192)) (fun _ c => c.inl == 1) &&
      let locked : State := { wone with homes := { wone.homes with locks := [⟨0xA0, 0, some (1, 4), 9, [(0x5008, 8, 0x66)], []⟩] } }
      answers locked (fl 14 0x5008 0x66 (1 + 9 * 2 ^ 64 + 8 * 2 ^ 192)) (fun t _ => t.homes.locks.isEmpty && t.bytes 0x5008 8 == 0x66 &&
        t.homes.decisions.head? == some (1, 9, true)) &&
      answers locked (fl 14 0x5008 0x66 (9 * 2 ^ 64 + 8 * 2 ^ 192)) (fun t _ => t.homes.locks.isEmpty && t.mem == wone.mem &&
        answers t (fl 15 0 0 (1 + 9 * 2 ^ 64)) fun _ c => c.inl == 1) &&
      answers wone (fl 15 0 0 (1 + 9 * 2 ^ 64)) (fun _ c => c.inl == 0) && answers wone (fl 13 0 0 0) fun t _ => t.mem == wone.mem) = true := by decide +kernel
/-- GREQ: a free page is granted, a page with a request under way keeps it; GREV gives the grant up; the last GACK grants. -/
theorem test_peer_grants :
    (let asked : State := wone.setGrant 5 { state := .shared, holders := [1], pendingReq := some (fl 8 0x50000 0 1), awaiting := [1], waiting := [], bcast := false }
     !wone.pageLocked 5 && wone.cores.all (fun (_, c) => c.lines.isEmpty) && wone.grantOf 5 == ⟨.none, [], false, none, [], []⟩ &&
       answers wone (fl 8 0x50000 0 1) (fun t _ => (t.grantOf 5).state == .exclusive && (t.grantOf 5).holders == [1] && (t.grantOf 5).pendingReq.isNone) &&
       (match asked.takeFlit (fl 8 0x50000 0 0) with | (t, done) => done && (t.grantOf 5).waiting.length == 1) &&
       answers (wone.setGrant 5 { wone.grantOf 5 with state := .exclusive }) (fl 9 0x50000 0 0) (fun t _ => (t.grantOf 5).state == .shared &&
         t.fab.txns.map (fun x => (x.flit.type, x.flit.dst)) == [(0x0A, 1)]) &&
       answers asked (fl 10 0x50000 0 0) fun t _ => (t.grantOf 5).state == .exclusive && (t.grantOf 5).holders == [1] && (t.grantOf 5).pendingReq.isNone) = true := by
  decide +kernel
/-- TREQ: M answers a fill, a holder of another device a forward, an absent version a wait; an opening, a publish, an abandon, and
whether a version is M. -/
theorem test_peer_tiles :
    (let q := fun (op want v : Nat) => fl 0x10 0 0 (op + 2 ^ 8 * want + 5 * 2 ^ 16 + v * 2 ^ 40)
     let far := wone.setVer tile5 { p := 4, m := 2, openV := none, owner := some 1003, holders := [1003], lostPeer := false }
     answers wone (q 0 1 0) (fun t c => c.inl == 1 && t.mem == wone.mem) && (match wone.resolve tile5 .latest 1001 with | .fill v => v == 0 | _ => false) &&
       (match far.resolve tile5 (.exactly 4) 1001 with | .forward n h => n == 4 && h == 1003 | _ => false) &&
       answers far (q 0 2 4) (fun _ c => c.inl == BitVec.ofNat 256 (State.tileBits 2 3 4)) &&
       answers wone (q 0 0 7) (fun t c => c.inl == 3 && t.homes.awaiting.length == 1) && answers wone (q 1 0 7) (fun t _ => (t.verOf tile5).openV == some (7, 1001)) &&
       answers far (q 1 0 3) (fun t c => c.inl.toNat / 2 ^ 248 == 0x42 && c.aux == 4 && t.homes == far.homes) && answers wone (q 2 0 7) (fun t _ => (t.verOf tile5).p == 7 &&
         (t.verOf tile5).owner == some 1001) &&
       answers (wone.setVer tile5 { openV := some (7, 1001) }) (q 3 0 7) (fun t _ => (t.verOf tile5).openV.isNone) &&
       answers wone (q 6 0 0) (fun _ c => c.inl == 6) && answers wone (q 6 0 1) fun _ c => c.inl == BitVec.ofNat 256 (State.tileBits 7 0 1)) = true := by decide +kernel
/-- TWB: a version at or below M is discarded, a part is kept, the last writes the tile and makes its version M. -/
theorem test_peer_writebacks :
    (let q := fun (part v : Nat) => { fl 0x11 0 0 (part + 5 * 2 ^ 16 + v * 2 ^ 40) with data := 0x0302 }
     answers wone (q 0 0) (fun t c => c.inl == 1 && t.homes.incoming.isEmpty) && answers wone (q 0 3) (fun t c => c.inl == 0 && t.homes.incoming.map TileIn.version == [3] &&
       answers t (q 15 3) fun u c => c.inl == 0 && u.homes.incoming.isEmpty && (u.verOf tile5).m == 3 && u.bytes 0x2000 2 == 0x0302) &&
     answers wone (q 17 3) (fun t _ => (t.verOf tile5).m == 3) && answers wone (q 18 3) fun t _ => (t.verOf tile5).m == 0) = true := by decide +kernel
theorem test_peer_writeback_parts :
    (okAnd (wone.tensor 0 0 5) fun w tn => someAnd tn fun tn => okAnd (w.mapPages 0 0 .writeback (State.tileVas tn 0) []) fun x pg =>
      (x.tileBlocked pg tn tile5 true).isNone && (x.writeMapped pg tn tile5 ((0x0302 : BitVec 32768) <<< 30720) 0).2.isNone) = true := by decide +kernel
/-- TOK: an addition that is clamped below 2^63, a take, a take of an empty word, which is listed, and its withdrawal. -/
theorem test_peer_tokens :
    (answers wone (fl 0x12 0x5008 0 (2 ^ 127)) (fun t _ => t.bytes 0x5008 8 == 2 ^ 63 - 1) && answers wone (fl 0x12 0x5008 0 1) (fun t c =>
        c.inl == 0x0807060504030201 && t.bytes 0x5008 8 == 0x0807060504030200) &&
      answers wone (fl 0x12 0x5010 0 (1 + 7 * 2 ^ 64)) (fun t c => c.inl == BitVec.ofNat 256 (2 ^ 248 * 0xFE) && t.homes.tokens.map TokenWait.gpa == [0x5010] &&
        answers t (fl 0x12 0x5010 0 (2 + 7 * 2 ^ 64)) fun u c => c.inl == 0 && u.homes.tokens.isEmpty) &&
      answers wone (fl 0x12 0x5010 0 (2 + 7 * 2 ^ 64)) fun _ c => c.inl == 1) = true := by decide +kernel
/-- A transaction of a lost device is discarded, one for another device goes on, and a duplicate is answered from the window. -/
theorem test_peer_arrivals :
    (let lost := wone.setPeer 1 { wone.peer 1 with fenced := true }
     let f := fl 3 0x5008 2 0xBBAA
     nexts (.wr f) lost (fun t => t.mem == wone.mem && t.fab.outbox.isEmpty) && lost.deviceLost 1 &&
       nexts (.wr { f with dst := 1, src := 16 }) { wone with dev := { wone.dev with presence := 2 ^ 16 + 2 } } (fun t => t.mem == wone.mem && t.fab.outbox.map Flit.type == [3]) &&
       nexts (.wr f) wone fun t => nexts (.wr f) t fun u => u.mem == t.mem && u.fab.outbox.length == 2 && (u.peer 1).duplicate == 1) = true := by decide +kernel
theorem test_heartbeat_completion :
    (let x : Txn := ⟨3, { fl 3 0x5008 4 0 with src := 0, dst := 1 }, .plain, 0, 0, 1, none, []⟩
     let s : State := { wf with fab := { wf.fab with txns := [x] } }
     let st : State := { wf with fab := { wf.fab with txns := [{ x with use_ := .store 0 7 0 0 }] }, cx := { wf.cx with opens := [⟨7, 16, false, none⟩] } }
     nexts (.hb (fl 0x30 0 0 0)) { wf with cycle := 9 } (fun t => (t.peer 1).lastFlit == 9 && t.fab.outbox.isEmpty) &&
       nexts (.cpl (fl 0x20 0 0 0)) s (fun t => t.fab.txns.isEmpty) && nexts (.cpl (fl 0x20 0 0 0)) st fun t => t.fab.txns.isEmpty && t.cx.opens.isEmpty) = true := by
  decide +kernel
theorem test_link_events :
    (((wf.channels false).find? (·.1 == 2)).isSome && wf.slotPeer false 0 == some 1 && nexts (.flitBadType (fl 0x77 0 0 0) false 2) wf (fun t => (t.peer 1).replay == 1) &&
      nexts (.flitReplay 1 false 2) wf (fun t => (t.peer 1).replay == 1 && !(t.channelAt false 2).training) && nexts (.channelRetrain 1 false 2) wf (fun t => (t.channelAt false 2).training) &&
      let tr := wf.mapChannel false 2 fun c => { c with training := true, retrains := 1 }
      nexts (.retrainComplete 1 false 2 true) tr (fun t => !(t.channelAt false 2).training && (t.channelAt false 2).retrains == 0) &&
      nexts (.retrainComplete 1 false 2 false) tr fun t => (t.channelAt false 2).retrains == 2) = true := by decide +kernel
theorem test_channel_spare :
    (let bad := wf.mapChannel false 2 fun c => { c with retrains := 3 }
     (bad.channelAt false 2).serves == 0 && bad.poolChannels false == [60, 61, 62, 63] && nexts (.channelSpare false 2) bad (fun t => (t.channelAt false 2).spared &&
       (t.channelAt false 60).serves == 0) && !wf.deviceLost 1 && nexts (.heartbeatDue 1 false 2) wf (fun t => t.fab.outbox.isEmpty) &&
       nexts (.heartbeatDue 1 false 2) { wf with cycle := 700 } fun t => t.fab.outbox.map Flit.type == [0x30]) = true := by decide +kernel
/-- The sixteenth replay of one flit retrains its channel (R359). -/
theorem test_sixteenth_replay :
    (let f := fl 3 0x5008 4 0
     let s := fun n => wf.mapChannel false 2 fun c => { c with buffer := [(f, n)] }
     nexts (.flitReplay 1 false 2) (s 14) (fun t => (t.channelAt false 2).buffer == [(f, 15)] && (t.peer 1).retrain == 0) &&
       nexts (.flitReplay 1 false 2) (s 15) fun t => (t.channelAt false 2).training && (t.channelAt false 2).buffer == [(f, 0)] &&
         (t.peer 1).replay == 1 && (t.peer 1).retrain == 1) = true := by decide +kernel
theorem test_timers :
    (let x : Txn := ⟨3, { fl 3 0x5008 4 0 with src := 0, dst := 1 }, .plain, 0, 0, 1, none, []⟩
     let s : State := { wf with cycle := 280000, fab := { wf.fab with txns := [x] } }
     s.nextHops x.flit == [1] && nexts (.transactionResend 3) s (fun t => t.fab.outbox.length == 1 && t.fab.txns.map Txn.sends == [2]) &&
       nexts (.fabricTimeout 3) s (fun t => t.fab.txns.isEmpty && (t.peer 1).tagLost == [5]) &&
       nexts (.flitAgeDiscard x.flit) { wf with fab := { wf.fab with outbox := [x.flit] } } fun t => t.fab.outbox.isEmpty) = true := by decide +kernel
theorem test_notices :
    (nexts (.linkSilence 1) { wf with cycle := 5600 } (fun t => (t.peer 1).fenced && (t.peer 1).silence == 1) &&
      (wf.peer 1).deadEpoch.isNone && nexts (.deathNotice 1 2 4) wf (fun t => (t.peer 1).fenced && (t.peer 1).deadEpoch == some 4 && t.fab.notices == [(1, 2, 4)]) &&
      let dead := wf.setPeer 1 { wf.peer 1 with fenced := true, deadEpoch := some 4 }
      nexts (.joinNotice 1 5) dead (fun t => !(t.peer 1).fenced && (t.peer 1).deadEpoch.isNone) &&
      nexts (.joinNotice 1 4) dead fun t => (t.peer 1).fenced) = true := by decide +kernel

/-! Lease, guest and held-operation events. -/

/-- A lease of two channels toward device 1 in a state. -/
def wlx (st : LeaseState) (since term : Nat) (ch : List Nat) : State :=
  let l : Lease := ⟨1, 0, 0, 1, 2, term, st, 0, since, 0, 1, false, ch⟩
  let s : State := { wf with cycle := 14000000, fab := { wf.fab with leases := [l] } }
  if ch.isEmpty then s else s.setChannels false ((s.channels false).map fun (n, c) => if ch.contains n then (n, { c with serves := 0, lease := 1 }) else (n, c))
theorem test_lease_grant :
    ((wlx .queued 13999999 9 []).takeChannels false 0 [] 2 == some [60, 61] && (wlx .queued 13999999 9 []).peerSlot false 1 == 0 &&
      nexts (.leaseReserveReply 1 true) (wlx .negotiate 0 9 [60, 61]) (fun t => someAnd (t.leaseOf 1) fun l => l.state == .tuning) &&
      nexts (.leaseReserveReply 1 false) (wlx .negotiate 0 9 [60, 61]) (fun t => someAnd (t.leaseOf 1) fun l => l.state == .queued && l.channels.isEmpty) &&
      nexts (.leaseTuned 1) (wlx .tuning 0 9 [60, 61]) fun t => (someAnd (t.leaseOf 1) fun l => l.state == .active) && t.agenda.map Prod.fst == [14012600, 14000000]) = true := by
  decide +kernel
theorem test_lease_head_grant :
    ((wlx .queued 13999999 9 []).leaseQueue false == (wlx .queued 13999999 9 []).fab.leases && nexts (.leaseHeadGrant false) (wlx .queued 13999999 9 []) fun t =>
      (someAnd (t.leaseOf 1) fun l => l.state == .negotiate && l.channels == [60, 61]) && (t.channelAt false 61).lease == 1) = true := by decide +kernel
theorem test_lease_end :
    ((wlx .active 0 9 [60, 61]).leaseRemain ⟨1, 0, 0, 1, 2, 9, .active, 0, 0, 0, 1, false, [60, 61]⟩ == 0 &&
      nexts (.leaseTermExpiry 1) (wlx .active 0 9 [60, 61]) (fun t => someAnd (t.leaseOf 1) fun l => l.state == .ending) &&
      nexts (.leaseNoticeExpiry 1) (wlx .notice 0 9 [60, 61]) (fun t => someAnd (t.leaseOf 1) fun l => l.state == .ending) &&
      nexts (.leaseDrained 1) (wlx .ending 0 9 [60, 61]) (fun t => (t.channelAt false 60).serves == 15 && someAnd (t.leaseOf 1) fun l => l.state == .ended) &&
      nexts (.leaseQueueExpiry 1) (wlx .queued 0 9 []) (fun t => someAnd (t.leaseOf 1) fun l => l.state == .refused && l.reason == 6) &&
      nexts (.leaseEntryTimeout 1) (wlx .ended 0 9 []) fun t => (t.leaseOf 1).isNone) = true := by decide +kernel
/-- A class-0 request that lacks receive channels may revoke the lease toward its destination; a notice ends 10 µs on, not before. -/
theorem test_lease_revoked :
    (let l : Lease := ⟨1, 0, 0, 1, 2, 9, .negotiate, 0, 0, 0, 1, false, [60, 61]⟩
     let m : Lease := ⟨2, 0, 1, 1, 2, 9, .active, 0, 0, 0, 1, false, []⟩
     let s : State := { wlx .negotiate 0 9 [60, 61] with fab := { (wlx .negotiate 0 9 [60, 61]).fab with leases := [l, m] } }
     s.leaseOf 1 == some l && decide (s.serving false 0 ≤ 16) && (s.revocable false).map Lease.id == [2] && m.dest == l.dest &&
       nexts (.leaseNoticeExpiry 1) (wlx .notice 13999999 9 [60, 61]) fun t => someAnd (t.leaseOf 1) fun x => x.state == .notice) = true := by decide +kernel
/-- Guest queue 2 holds packet 7 at index 0 of the guest, and a packet waits at its head. -/
def wgq : State :=
  let leaf : TlbEntry := ⟨0, 0, 16, 0xDF⟩
  { wf with moor := { wf.moor with tlb := [leaf], queues := [(2, { ctl := 1, head := 1, tail := 2, packets := [(1, {})], held := [(0, {})] })] } }
theorem test_guest_packets :
    (!wgq.moor.fenced && (wgq.gqueue 2).tail - (wgq.gqueue 2).head == 1 && nexts (.guestTakePacket 2) wgq (fun t => (t.gqueue 2).head == 2 && (t.gqueue 2).held.length == 2) &&
      nexts (.guestCompletion 2 0 9) wgq (fun t => (t.gqueue 2).held.isEmpty) &&
      nexts (.guestFault 2 0 true 9) wgq fun t => (t.gqueue 2).held.isEmpty) = true := by decide +kernel
theorem test_guest_requests :
    (okAnd (wgq.guestXlat 0 0x5008 .read) (fun u x => x.gpa == 0x5008 && !u.guestExcluded x && !u.lineLocked 0xA0) &&
      nexts (.guestCoherentRequest 2 0 0 0x5008 false 0 0) wgq (fun t => someAnd (t.lineOf State.guestCore 0xA0) fun ln => ln.mesi == .e) &&
      nexts (.guestCoherentRequest 2 0 0 0x5008 true 0xAA00000000000000000000 0x400) wgq fun t => someAnd (t.lineOf State.guestCore 0xA0) fun ln =>
        ln.mesi == .m && lineBytes ln.data 8 4 == 0x04AA0201) = true := by decide +kernel
/-- A guest's request for a line that an `mcas` has locked comes again; one for a page with an untracked line is refused and logged. -/
theorem test_guest_request_waits :
    (let locked : State := { wgq with homes := { wgq.homes with locks := [⟨0xA0, 0, none, 7, [], []⟩] } }
     let mixed := wgq.setCore 3 { wgq.core 3 with lines := [⟨0xA1, false, .i, 1, 0, 0, 0, 0⟩] }
     locked.lineLocked 0xA0 && nexts (.guestCoherentRequest 2 0 0 0x5008 false 0 0) locked (fun t =>
         t.agenda == [(16, .guestCoherentRequest 2 0 0 0x5008 false 0 0)] && (t.lineOf State.guestCore 0xA0).isNone) &&
       mixed.aliased 0 true && nexts (.guestCoherentRequest 2 0 0 0x5008 false 0 0) mixed fun t => t.agenda.isEmpty && (t.lineOf State.guestCore 0xA0).isNone &&
         (t.die 0).events.any fun e => e.kind == 7 && e.cause == 0x25) = true := by decide +kernel
/-- The guest holds a packet of this kind with its record at 0x5010, its credit of 3 here, and tag 0x1234. -/
def wpk (kind credit : Nat) : State :=
  let bits := BitVec.ofNat 512 (kind * 2 ^ 24 + 0x1234 * 2 ^ 32 + 0x5010 * 2 ^ 64 + credit * 2 ^ 128 + 3 * 2 ^ 192)
  let s : State := { wgq with moor := { wgq.moor with queues := [(2, { ctl := 1, head := 1, tail := 1, held := [(0, ⟨bits, none⟩)] })] } }
  s.setCluster 0 { s.cluster 0 with converted := 1, scratch := cellsWrite [] 256 16 (100 + 2 * 2 ^ 64) }
/-- Its end writes the record, then credits a token word, or a barrier whose window is held; for a fault the barrier takes the status. -/
theorem test_packet_end :
    (nexts (.guestCompletion 2 0 9) (wpk 2 0x5020) (fun t => t.bytes 0x5010 16 == 0x1234 + 2 * 2 ^ 40 + 9 * 2 ^ 64 && t.bytes 0x5020 8 == 3 && t.moor.ends.isEmpty &&
        (t.gqueue 2).held.isEmpty) &&
      nexts (.guestCompletion 2 0 9) (wpk 1 256) (fun t => bPending (t.barrier 0 256) == 97 && (t.die 0).events.isEmpty) &&
      nexts (.guestFault 2 0 true 9) (wpk 1 256) (fun t => bFault (t.barrier 0 256) && bFcause (t.barrier 0 256) == 0x92 && t.bytes 0x5014 1 == 0x92) &&
      nexts (.guestCompletion 2 0 9) (wpk 1 524288) fun t => bPending (t.barrier 0 256) == 100 && (t.die 0).events.map LogEvent.cause == [0x93]) = true := by decide +kernel
/-- The record of a packet meets a locked line: its end waits at its first step, and no credit is made. -/
theorem test_packet_end_waits :
    (let s : State := { wpk 2 0x5020 with homes := { wgq.homes with locks := [⟨0xA0, 0, none, 7, [], []⟩] } }
     nexts (.guestCompletion 2 0 9) s fun t => t.mem == s.mem && t.moor.ends.map (fun e => (e.status, e.stage)) == [(0, 0)]) = true := by decide +kernel
/-- A fence takes the guest's lines and queues, and begins the end of every packet. -/
theorem test_guest_fence :
    (let s := (wgq.setCore State.guestCore { lines := [⟨0xA0, true, .s, 0, 0, 0, 0, 0⟩] })
     nexts .guestPowerOverrun s fun t => t.moor.fenced && (t.core State.guestCore).lines.isEmpty && (t.gqueue 2).held.isEmpty &&
       (t.gqueue 2).ctl == 0x100 && t.moor.ends.map (fun e => (e.queue, e.status, e.stage)) == [(2, 0x90, 0), (2, 0x90, 0)]) = true := by decide +kernel
theorem test_guest_preemption :
    (nexts (.mgpreRequest 0) wgq (fun t => t.moor.pre.length == 1 && t.agenda.map Prod.fst == [2801, 28001]) &&
      let s : State := { wgq with cycle := 28001, moor := { wgq.moor with pre := [⟨0, 0, false, false, 0, 0⟩], queues := [] } }
      let soon : State := { s with cycle := 2800 }
      nexts (.guestStopped 0) soon (fun t => t.moor.pre.map GuestPre.stopped == [true]) && nexts (.guestSaved 0) soon (fun t => t.moor.statSaved) &&
      nexts (.guestStopped 0) s (fun t => t.moor.fenced) && nexts (.guestSaved 0) s (fun t => t.moor.fenced) &&
      nexts (.mgpreResume 0) s (fun t => t.moor.pre.isEmpty) && nexts (.guestPreemptLate 0) s (fun t => t.moor.fenced && t.moor.statLate) &&
      nexts .guestPowerOverrun s (fun t => t.moor.fenced) && nexts (.guestLinkFailure 3 false) s fun t => t.moor.modules == 0xF7 && !t.moor.fenced) = true := by
  decide +kernel
theorem test_held_timers :
    (let s : State := { wf with cycle := 4096, cx := { wf.cx with push := some (0, false) } }
     let m : McasOp := ⟨7, 0, 7, 0, [⟨0x5008, 0x5008, 8, 0, 0, 0, false⟩], 0, [], 0, none, none, false, [], 0⟩
     let c : State := { wf with cycle := 4096, homes := { wf.homes with mcas := [m], locks := [⟨0xA0, 0, none, 7, [], []⟩] } }
     nexts (.mqpushFullTimeout 0) s (fun t => t.cx.push == some (0, true)) &&
       nexts (.mcasLockTimeout 7) c fun t => t.homes.mcas.isEmpty && t.homes.locks.isEmpty) = true := by decide +kernel
/-- An `mcas` whose lock wait is over leaves its destination to MCAS_ABORT, with the address of its bundle. -/
theorem test_mcas_abort :
    (let m : McasOp := ⟨7, 0, 8, 0, [⟨0x5008, 0x5008, 8, 0, 0, 0, false⟩], 0, [], 0, none, none, false, [], 0⟩
     let s : State := { wf with cycle := 4096, homes := { wf.homes with mcas := [m] }, cx := { wf.cx with flights := [⟨8, .bound, [.x 5], [], 0x40⟩] } }
     nexts (.mcasLockTimeout 7) s fun t => t.cx.flights.isEmpty && t.cx.deferred == [(.x 5, ⟨0x83, 0, 0, 0, 0x40⟩)]) = true := by decide +kernel

/-! Line, translation and context events. -/

/-- Core 3 holds line 0xA0 of this device in a state. -/
def wln (st : Mesi) : State :=
  let s : State := { wf with homes := { wf.homes with lineDir := [(0xA0, [3])] }, booted := true }
  s.setCore 3 { s.core 3 with lines := [⟨0xA0, true, st, BitVec.allOnes 128, 0, 0x77, 0, 0⟩], tlb := [⟨5, 7, 16, 0⟩, ⟨6, 7, 16, 0⟩] }
theorem test_line_miss :
    (wf.ownDevice (128 * 0xA0) && wf.backed (localOf (128 * 0xA0)) && (wf.lineOf 3 0xA0).isNone && !wf.lineLocked 0xA0 && (wf.dirCores 0xA0).isEmpty &&
      State.cacheable (localOf (128 * 0xA0)) && !wf.roomHeld 3 0xA0 && !wf.aliased (0xA0 / 512) true && wf.homes.tags.isEmpty &&
      match wf.readMiss 3 ⟨0, 0, true⟩ 0xA0 with
      | (t, .ok ln) => ln.mesi == .e && lineBytes ln.data 8 8 == 0x0807060504030201 && t.dirCores 0xA0 == [3] && t.lineOf 3 0xA0 == some ln
      | _ => false) = true := by decide +kernel
theorem test_line_leaves :
    (nexts (.lineInvalidation 3 0xA0) (wln .s) (fun t => (t.lineOf 3 0xA0).isNone && t.bytes 0x5008 8 == 0x0807060504030201) &&
      nexts (.lineInvalidation 3 0xA0) (wln .m) (fun t => t.bytes 0x5000 1 == 0x77) &&
      nexts (.lineEviction 3 0xA0) (wln .m) (fun t => (t.lineOf 3 0xA0).isSome) &&
      nexts (.byteMaskMerge 0xA0 0x300 0xBBAA0000000000000000) wf fun t => t.bytes 0x5008 8 == 0x080706050403BBAA) = true := by decide +kernel
/-- The line's set is full: seven other lines of it are in the core. -/
theorem test_line_eviction :
    (let s := wln .m
     let rest := (List.range 7).map fun i => (⟨0xA0 + 1024 * (i + 1), true, .s, BitVec.allOnes 128, 0, 0, 0, 0⟩ : Line)
     let s := s.setCore 3 { s.core 3 with lines := (s.core 3).lines ++ rest }
     let q : QueuedWrite := ⟨1, 12, 0, 128 * (0xA0 + 64), 0, 8, 0, .c, 0, [], false, 0, 0⟩
     let s := s.setCore 3 { s.core 3 with queue := [q] }
     decide (8 ≤ (s.setLines 3 0xA0).length) && s.allocWanted 3 0xA0 && nexts (.lineEviction 3 0xA0) s fun t =>
       t.bytes 0x5000 1 == 0x77 && (t.dirCores 0xA0).isEmpty && (t.lineOf 3 0xA0).isNone) = true := by decide +kernel
/-- A merge that meets a locked line is held. -/
theorem test_merge_held :
    (let s : State := { wf with homes := { wf.homes with locks := [⟨0xA0, 0, none, 7, [], []⟩] } }
     s.lineLocked 0xA0 && nexts (.byteMaskMerge 0xA0 0x300 0xBBAA0000000000000000) s fun t =>
       t.bytes 0x5008 8 == 0x0807060504030201 && t.homes.held.map Flit.inl == [0x300]) = true := by decide +kernel
/-- Core 3 holds the first line of the host window in M. -/
def whost : State :=
  let l := 0x8000000000000 / 128
  let s : State := { wf with homes := { wf.homes with lineDir := [(l, [3])] } }
  s.setCore 3 { s.core 3 with lines := [⟨l, true, .m, BitVec.allOnes 128, 0, 0x77, 0, 0⟩] }
theorem test_host_snoop :
    (windowOf (localOf 0x8000000000000) == .host && whost.ownDevice 0x8000000000000 && whost.backed (localOf 0x8000000000000) &&
      nexts (.hostSnoop (0x8000000000000 / 128) false) whost (fun t => t.bytes 0x8000000000000 1 == 0x77 &&
        someAnd (t.lineOf 3 (0x8000000000000 / 128)) fun ln => ln.mesi == .s) &&
      nexts (.hostSnoop (0x8000000000000 / 128) true) whost fun t => t.bytes 0x8000000000000 1 == 0x77 && (t.lineOf 3 (0x8000000000000 / 128)).isNone) = true := by
  decide +kernel
theorem test_tlbinv :
    ((wln .s).booted && nexts .tlbinvAll (wln .s) (fun t => (t.core 3).tlb.isEmpty) &&
      nexts (.tlbinvSpace 5) (wln .s) (fun t => (t.core 3).tlb == [⟨6, 7, 16, 0⟩]) &&
      nexts (.tlbinvPage 5 7) (wln .s) fun t => (t.core 3).tlb == [⟨6, 7, 16, 0⟩]) = true := by decide +kernel
/-- The cluster's and Mooring's TLBs lose what a TLBINV names, and keep the rest. -/
theorem test_tlbinv_units :
    (let two : List TlbEntry := [⟨5, 7, 16, 0⟩, ⟨6, 7, 16, 0⟩]
     let s : State := { wf with booted := true, moor := { wf.moor with tlb := two } }
     let s := s.setCluster 4 { s.cluster 4 with tlb := two }
     let left := fun (t : State) (l : List TlbEntry) => (t.cluster 4).tlb == l && t.moor.tlb == l
     nexts .tlbinvAll s (fun t => left t []) && nexts (.tlbinvSpace 5) s (fun t => left t [⟨6, 7, 16, 0⟩]) &&
       nexts (.tlbinvPage 6 7) s (fun t => left t [⟨5, 7, 16, 0⟩]) && nexts (.tlbinvPage 6 8) s fun t => left t two) = true := by decide +kernel
theorem test_scrub :
    (nexts (.rowRepair 3 7 true) wf (fun t => t == wf) && nexts (.rowRepair 3 7 true) (wf.setChan 3 { rows := List.replicate 16 (7, 0) }) fun t =>
      (t.chan 3).repaired == [7] && (t.chan 3).rows.isEmpty) = true := by decide +kernel
theorem test_context_events :
    (let s : State := { wf with cx := { wf.cx with waited := 2048 } }
     let p : State := { wf with cx := { wf.cx with pending := [⟨3, false, .x 5 7⟩], btime := 3 } }
     let f : Flight := ⟨7, .bound, [.x 5], [.x 5 9], 0x40⟩
     let d : State := { wf with cx := { wf.cx with flights := [f] } }
     s.aged [0] == some 0 && nexts (.ageOverride 0) s (fun t => (t.core 0).override == some 0 && t.turn.isEmpty) &&
       nexts (.exposedResultLands 0) p (fun t => t.cx.getX 5 == 7 && t.cx.pending.isEmpty) &&
       nexts (.deferredFailure 0 7 { cause := 0x21 }) d (fun t => t.cx.flights.isEmpty && t.cx.deferred.map Prod.fst == [.x 5]) &&
       nexts (.trapEntry 0 { cause := 0x40, i0 := 3 }) wf fun t => t.cx.mode == .supervisor && t.cx.trap.tcause == 0x40 && t.cx.trap.tinfo0 == 3) = true := by
  decide +kernel
/-- The context that an override named is primary, though the other was ready first; the next choice is no override. -/
theorem test_override_selects :
    (let s := wf.setCore 0 { wf.core 0 with override := some 2 }
     let r := s.selectCore 0 [⟨1, 1, 0, false⟩, ⟨2, 1, 0, false⟩]
     r.2 == [2] && (r.1.core 0).lastOverride && (r.1.core 0).override.isNone) = true := by decide +kernel
/-- An unassigned cause is never reported (R452). -/
theorem test_unassigned_events :
    (State.unassigned 0x19 && nexts (.deferredFailure 0 7 { cause := 0x19 }) wf (fun t => t == wf) && nexts (.trapEntry 0 { cause := 0x19 }) wf fun t => t == wf) = true := by
  decide +kernel

/-! Control and service events. -/

def wbt : State := { wf with booted := true }
/-- Context 0 is halted. -/
def whalt : State := { wbt with cx := { wbt.cx with pc := 0x80, dbg := { wbt.cx.dbg with halted := true } } }
theorem test_debug :
    (nexts (.dbgctlHaltreq 0) wbt (fun t => t.cx.dbg.haltReq) && nexts (.debugHalt 0 1) wbt (fun t => t.cx.dbg.halted && t.cx.dbg.reason == 1) &&
      nexts (.dbgctlResume 0) whalt (fun t => !t.cx.dbg.halted && t.cx.pc == 0x80) && nexts (.dbgctlStep 0) whalt (fun t => t.cx.dbg.step) &&
      nexts (.debugWindowWrite 0 0 9) whalt (fun t => t == whalt) && nexts (.debugWindowWrite 0 0x1F8 9) whalt fun t => t.cx.getX 31 == 9) = true := by decide +kernel
theorem test_device_registers :
    (nexts (.nsset 700) { wbt with cycle := 7 } (fun t => t.nstime == 700 && t.dev.nsCycle == 7) &&
      nexts (.cxlwinWrite 3 0xFFFF8001FFFFC000) wbt (fun t => t.dev.cxlwin[3] == 0x8000000100000000) && nexts .fabricEnable wbt (fun t => t.dev.fabEn) &&
      nexts .lightvesselEnable wbt (fun t => t.dev.lvEn) && nexts (.presenceWrite 0) wbt (fun t => (t.peer 1).fenced) &&
      nexts (.registerWrite 0x10008 8 0x40) wbt (fun t => t.dev.sptbase == 0x40) &&
      nexts (.registerWrite 0x10048 4 0x2222222) wbt fun t => t.dev.hilmap == 0x2222222) = true := by decide +kernel
theorem test_space_release :
    (let used := wbt.setEntry 0 3 { desc := 0, addr := 0, state := .running, members := [0] }
     !wbt.dev.spBusy && used.spaceInUse 0 && nexts (.spaceRelease 0) used (fun t => t.dev.spRefused) && !wbt.spaceInUse 9 &&
      nexts (.spaceRelease 9) wbt fun t => t.dev.spBusy && t.dev.released.contains 9) = true := by decide +kernel
theorem test_prectl :
    (let s := wbt.setEntry 0 3 { desc := 0, addr := 0, state := .running, members := [0] }
     let h := wbt.setEntry 0 3 { desc := 0, addr := 0, state := .ready, hold := true }
     let r := wbt.setEntry 0 3 { desc := 0, addr := 0, state := .ready }
     let p := wbt.setEntry 0 3 { desc := 0, addr := 0, state := .preempted, hold := true }
     nexts (.prectlRequest 0 3) r (fun t => someAnd (t.entry 0 3) fun e => e.hold && e.state == .pending) &&
       nexts (.prectlWithdraw 0 3) p (fun t => (someAnd (t.entry 0 3) fun e => !e.hold) && t.agenda.map Prod.snd == [.saveRecordComplete 0 3]) &&
     nexts (.prectlRequest 0 3) s (fun t => (someAnd (t.entry 0 3) Entry.hold) && t.agenda.map Prod.snd == [.preemption 0 3]) &&
       nexts (.prectlWithdraw 0 3) h fun t => (someAnd (t.entry 0 3) fun e => !e.hold) && t.agenda.map Prod.snd == [.taskDispatch 0]) = true := by decide +kernel
theorem test_keys :
    (nexts (.keyLoad 0 0) wbt (fun t => t.sec.keystat == 5) && nexts (.keyClear 0 9) wbt (fun t => t.sec.keystat == 5) &&
      nexts (.keyLoad 9 8) wbt (fun t => t.sec.keystat == 4) && wbt.spaceValid 0 && (wbt.keySlot 0 1).isNone && !wbt.sec.keyblob.getLsbD 63 &&
      (match wbt.blobBytes 0 20 with | (_, some b) => b.length == 160 | _ => false) &&
      nexts (.keyClear 0 8) { wbt with sec := { wbt.sec with keys := [⟨0, 8, 1, 2, 3⟩, ⟨0, 7, 1, 2, 3⟩] } } fun t => t.sec.keystat == 1 && t.sec.keys.map KeySlot.slot == [7]) = true := by
  decide +kernel
theorem test_attest :
    (nexts (.attestRequest 9) wbt (fun t => t.sec.busy && t.sec.nonce.extractLsb' 448 64 == 9) && !wbt.sec.busy && State.reset.svc.action == 0 &&
      nexts .attestReady { wbt with sec := { wbt.sec with busy := true } } (fun t => t.sec.complete && !t.sec.busy) && !State.reset.booted &&
      nexts .deviceReset wbt fun t => !t.booted && t.cx.occ == .idle && t.dev.hilmap == 0x1111111) = true := by decide +kernel
/-- A halt of a REASON that is none is no event; a window write and the low half of NSSET; the report's nonce is that of its start. -/
theorem test_control_clauses :
    (nexts (.debugHalt 0 0) wbt (fun t => t == wbt) && nexts (.debugHalt 0 5) wbt (fun t => t == wbt) && nexts (.debugHalt 0 4) wbt (fun t => t.cx.dbg.halted && t.cx.dbg.reason == 4) &&
      nexts (.registerWrite 0x10018 4 0x22) { wbt with cycle := 7, dev := { wbt.dev with nsBase := 0x1100000011 } } (fun t =>
        t.dev.nsBase == 0x1100000022 && t.dev.nsCycle == 7) &&
      nexts (.attestRequest 9) wbt (fun t => t.sec.latched.extractLsb' 448 64 == 9) &&
      nexts (.presenceWrite 6) wbt fun t => t.dev.presence == 6 && (t.peer 2).lastFlit == wbt.cycle) = true := by decide +kernel
/-- A cleared key stays with what is under way: a transaction of its space keeps it. -/
theorem test_key_clear_keeps :
    (let k : KeySlot := ⟨0, 8, 1, 2, 3⟩
     let x : Txn := ⟨3, { fl 3 0x5008 4 0 with src := 0, dst := 1 }, .plain, 0, 0, 1, none, []⟩
     let s : State := { wbt with sec := { wbt.sec with keys := [k] }, fab := { wbt.fab with txns := [x] } }
     let s := s.setSlot 0 1670 { state := .filling, tile := tile5 }
     nexts (.keyClear 0 8) s fun t => t.sec.keys.isEmpty && t.fab.txns.map Txn.keys == [[k]] && (t.slot 0 1670).keys == [k]) = true := by decide +kernel
theorem test_service :
    (let s := wbt.setEntry 17 3 { desc := 0, addr := 0, state := .running, members := [17 * 64] }
     nexts (.dieFence 1) s (fun t => t.svc.diefence == 2 && (t.agenda.map Prod.snd).contains (.preemption 17 3)) &&
       nexts (.dieUnfence 1) { s with svc := { s.svc with diefence := 2 } } (fun t => t.svc.diefence == 0 && (t.agenda.map Prod.snd).contains (.taskDispatch 31)) &&
       nexts (.laserOut true false) s (fun t => t.svc.lasers == 0xB) && nexts (.laserIn false true) { s with svc := { s.svc with lasers := 0 } } (fun t => t.svc.lasers == 2) &&
       nexts (.laserOut true false) { s with svc := { s.svc with action := 1 } } (fun t => t.svc.svcstat == 0x202) &&
       nexts (.spareCore 272) s fun t => (t.core 272).failed && (t.agenda.map Prod.snd).contains (.preemption 17 3)) = true := by decide +kernel
theorem test_membership :
    ((wbt.peer 0).deadEpoch.isNone && (wbt.clusters.all fun (_, c) => c.loam.all fun (_, x) => x.state != .filling) && wbt.homes.mcas.isEmpty && nexts .fabricLeave wbt (fun t => t.fab.fencedSelf && t.fab.notices == [(0, 0, 0)]) &&
      nexts .fabricJoin { wbt with fab := { wbt.fab with fencedSelf := true } } fun t => t.svc.epoch == 1 && !t.fab.fencedSelf && t.fab.joins == [(0, 1)]) = true := by
  decide +kernel
/-- While an action runs, each service action is refused with its code. -/
theorem test_service_refusals :
    (let s : State := { wbt with svc := { wbt.svc with action := 1 } }
     let out := fun (i : Instr) (v : BitVec 16) => nexts i s fun t => t.svc.svcstat == v && t.svc.action == 1 && t.agenda == s.agenda
     out (.dieFence 1) 0x102 && (nexts (.dieUnfence 1) { s with svc := { s.svc with diefence := 2 } } fun t => t.svc.svcstat == 0x102 && t.svc.diefence == 2) &&
       out (.laserIn true true) 0x202 && out .fabricLeave 0x302 && out .fabricJoin 0x402 && out (.spareCore 3) 0x602 && out (.firmwareStage 0) 0x502) = true := by
  decide +kernel
theorem test_power :
    (wbt.powerLimit 1 == 520 && nexts (.powerLimitExceeded 1 521) wbt (fun t => (t.die 1).withheld) && nexts (.powerBelowLimit 1 519) wbt (fun t => !(t.die 1).withheld) &&
      nexts (.thermalThrottle 1 105) wbt (fun t => t.powerLimit 1 == 100) && nexts (.thermalRecovery 1 99) wbt (fun t => t.powerLimit 1 == 520) &&
      nexts (.thermalFence 1 115) wbt fun t => t.svc.diefence == 2) = true := by decide +kernel
/-- 115 °C fences a die whose fence is set already too, with its log entry, by either event. -/
theorem test_thermal_limit :
    (let s : State := { wbt with svc := { wbt.svc with diefence := 2 } }
     let hot := fun (t : State) => t.svc.diefence == 2 && t.powerLimit 1 == 100 && (t.die 1).events.map (fun e => (e.cause, e.d0)) == [(0xB5, 116)]
     nexts (.thermalFence 1 116) s hot && nexts (.thermalThrottle 1 116) s hot) = true := by decide +kernel
end

