-- ==== Sys2Proof/Proofs/Bytes.lean ====
section
/-! The bytes of memory under the two writers of several bytes: what each byte reads as afterwards, byte by byte. -/

namespace Sys2Proof.Machine

/-- Byte k of what stands above the lowest byte is byte k + 1 of the value. -/
theorem div_byte_div_pow (v k : Nat) : v / 256 / 2 ^ (8 * k) = v / 2 ^ (8 * (k + 1)) := by
  rw [Nat.div_div_eq_div_mul, Nat.mul_succ, Nat.pow_add, Nat.mul_comm (2 ^ (8 * k))]

/-- Byte k of the n bytes written is byte k of the value. -/
theorem cellRead_cellsWrite_inside : ∀ (n a v k : Nat) (m : List Host.Cell), Memory.wf m = true → k < n →
    cellRead (cellsWrite m a n v) (a + k) = BitVec.ofNat 8 (v / 2 ^ (8 * k))
  | 0, _, _, k, _, _, hk => absurd hk (Nat.not_lt_zero k)
  | n + 1, a, v, 0, m, hw, _ => by
    have below : a < a + 1 ∨ a + 1 + n ≤ a := Or.inl (Nat.lt_succ_self a)
    unfold cellsWrite
    show cellRead _ a = _
    rw [cellRead_cellsWrite_outside a n (a + 1) (v / 256) _ (Memory.wf_cellWrite a _ m hw) below,
      cellRead_cellWrite a a _ m hw, if_pos rfl]
    simp
  | n + 1, a, v, k + 1, m, hw, hk => by
    unfold cellsWrite
    rw [← Nat.add_assoc, Nat.add_right_comm, cellRead_cellsWrite_inside n (a + 1) (v / 256) k _
      (Memory.wf_cellWrite a _ m hw) (Nat.lt_of_succ_lt_succ hk), div_byte_div_pow]

/-- A masked write gives the value's byte where the mask bit is 1, and leaves every other byte. -/
theorem cellRead_cellsMask (x : Nat) : ∀ (n a k v : Nat) (m : List Host.Cell), Memory.wf m = true →
    cellRead (cellsMask m a n k v) x =
      if a ≤ x ∧ x < a + n ∧ k.testBit (x - a) = true then BitVec.ofNat 8 (v / 2 ^ (8 * (x - a))) else cellRead m x
  | 0, a, k, v, m, _ => by
    rw [if_neg (by omega)]
    rfl
  | n + 1, a, k, v, m, hw => by
    have first : Memory.wf (if k % 2 == 1 then cellWrite m a (BitVec.ofNat 8 v) else m) = true := by
      split
      · exact Memory.wf_cellWrite a _ m hw
      · exact hw
    have others (y : Nat) (hy : y ≠ a) :
        cellRead (if k % 2 == 1 then cellWrite m a (BitVec.ofNat 8 v) else m) y = cellRead m y := by
      split
      · rw [cellRead_cellWrite a y _ m hw, if_neg hy]
      · rfl
    unfold cellsMask
    rw [cellRead_cellsMask x n (a + 1) (k / 2) (v / 256) _ first]
    obtain h | rfl | h := Nat.lt_trichotomy x a
    · -- below the bytes
      rw [if_neg (fun c => absurd c.1 (by omega)), others x (by omega), if_neg (fun c => absurd c.1 (by omega))]
    · -- the first byte
      rw [if_neg (fun c => absurd c.1 (by omega)), Nat.sub_self, Nat.testBit_zero]
      by_cases bit : k % 2 = 1
      · simp [bit, cellRead_cellWrite x x _ m hw]
      · simp [bit]
    · -- above the first byte: byte j of the rest is byte j + 1 of the whole
      obtain ⟨j, rfl⟩ := Nat.exists_eq_add_of_lt h
      have inner : a + j + 1 - (a + 1) = j := by omega
      have outer : a + j + 1 - a = j + 1 := by omega
      have bits : (k / 2).testBit j = k.testBit (j + 1) := (Nat.testBit_succ k j).symm
      rw [others _ (by omega), inner, outer, bits, div_byte_div_pow]
      exact if_congr (and_congr (by omega) (and_congr_left' (by omega))) rfl rfl

/-- Settles O9: byte by byte, from what a read after one write of a byte gives. -/
theorem bytesReadBack : Obligations.BytesReadBack := by
  unfold Obligations.BytesReadBack
  refine ⟨fun m a n v hw => ⟨Memory.wf_cellsWrite n a v m hw, ?_, ?_, ?_⟩, fun m a n k v x hw => ⟨?_, ?_⟩⟩
  · rw [cellsRead_cellsWrite n a v m hw, Nat.pow_mul]
  · exact fun k hk => cellRead_cellsWrite_inside n a v k m hw hk
  · exact fun x hx => cellRead_cellsWrite_outside x n a v m hw hx
  · exact Memory.wf_cellsMask n a k v m hw
  · exact cellRead_cellsMask x n a k v m hw

end Sys2Proof.Machine
end

