-- ==== Sys2Proof/Proofs/Canonical.lean ====
section
/-! The canonical form of memory along a computation: what a pair, an outcome or a fold keeps. -/

namespace Sys2Proof.Machine.State

theorem fst_wf {α : Type} {p : State × α} {u : State} {a : α} (h : Memory.wf p.1.mem = true) (e : p = (u, a)) :
    Memory.wf u.mem = true := by
  subst e
  exact h

theorem snd_wf {α : Type} {p : α × State} {u : State} {a : α} (h : Memory.wf p.2.mem = true) (e : p = (a, u)) :
    Memory.wf u.mem = true := by
  subst e
  exact h

/-- The state that an access to Silt leaves, whether it failed or not. -/
theorem ok_wf {r : Except (BitVec 8 × State) State} {t : State} (h : Memory.wf (siltEnd r).mem = true)
    (e : r = .ok t) : Memory.wf t.mem = true := by
  subst e
  exact h

theorem error_wf {r : Except (BitVec 8 × State) State} {c : BitVec 8} {t : State}
    (h : Memory.wf (siltEnd r).mem = true) (e : r = .error (c, t)) : Memory.wf t.mem = true := by
  subst e
  exact h

/-- Memory is canonical in the state that an outcome goes on with, if it goes on. -/
def nextWf : Host.Outcome State Fault Refusal → Prop
  | .next t => Memory.wf t.mem = true
  | _ => True

theorem next_wf {o : Host.Outcome State Fault Refusal} {t : State} (h : nextWf o) (e : o = .next t) :
    Memory.wf t.mem = true := by
  subst e
  exact h

theorem foldl_wf {α : Type} {f : State → α → State}
    (hf : ∀ {s} {a}, Memory.wf s.mem = true → Memory.wf (f s a).mem = true) :
    ∀ {l : List α} {s : State}, Memory.wf s.mem = true → Memory.wf (l.foldl f s).mem = true
  | [], _, h => h
  | a :: l, s, h => foldl_wf (l := l) (s := f s a) hf (hf h)

/-- The same under the predicate's own name: the kernel then compares the states and not what their memories come to. -/
theorem foldl_canonical {α : Type} {f : State → α → State}
    (hf : ∀ {s} {a}, s.memoryCanonical → (f s a).memoryCanonical) {l : List α} {s : State} (h : s.memoryCanonical) :
    (l.foldl f s).memoryCanonical :=
  foldl_wf hf h

theorem foldl_fst_wf {α β : Type} {f : State × β → α → State × β}
    (hf : ∀ {p} {a}, Memory.wf p.1.mem = true → Memory.wf (f p a).1.mem = true) :
    ∀ {l : List α} {p : State × β}, Memory.wf p.1.mem = true → Memory.wf (l.foldl f p).1.mem = true
  | [], _, h => h
  | a :: l, p, h => foldl_fst_wf (l := l) (p := f p a) hf (hf h)

theorem foldl_snd_wf {α β : Type} {f : β × State → α → β × State}
    (hf : ∀ {p} {a}, Memory.wf p.2.mem = true → Memory.wf (f p a).2.mem = true) :
    ∀ {l : List α} {p : β × State}, Memory.wf p.2.mem = true → Memory.wf (l.foldl f p).2.mem = true
  | [], _, h => h
  | a :: l, p, h => foldl_snd_wf (l := l) (p := f p a) hf (hf h)

end Sys2Proof.Machine.State
end

