-- ==== Sys2Proof/Proofs/CanonicalMemory.lean ====
section
/-! Memory stays canonical under the accesses to memory and Silt, traps and the scalar operations:
one lemma an operation, each from those of the operations that it is made of. -/

namespace Sys2Proof.Machine.State

variable {s : State} (h : Memory.wf s.mem = true)
include h

/-! Machine/Mem.lean. -/

theorem setCore_wf {n c} : Memory.wf (s.setCore n c).mem = true := (engine_setCore _ _ _).wf h

theorem setCluster_wf {n c} : Memory.wf (s.setCluster n c).mem = true := h

theorem setDie_wf {n d} : Memory.wf (s.setDie n d).mem = true := (engine_setDie _ _ _).wf h

theorem setQueue_wf {n q} : Memory.wf (s.setQueue n q).mem = true := h

theorem setGqueue_wf {n q} : Memory.wf (s.setGqueue n q).mem = true := h

theorem setPeer_wf {n p} : Memory.wf (s.setPeer n p).mem = true := (engine_setPeer _ _ _).wf h

theorem setChan_wf {n c} : Memory.wf (s.setChan n c).mem = true := (engine_setChan _ _ _).wf h

theorem setCtx_wf {c x} : Memory.wf (s.setCtx c x).mem = true := by
  unfold setCtx
  split <;> exact h

theorem switch_wf {c} : Memory.wf (s.switch c).mem = true := by
  unfold switch
  split <;> exact h

theorem later_wf {delay i} : Memory.wf (s.later delay i).mem = true := (engine_later _ _ _).wf h

theorem dropAgenda_wf {i} : Memory.wf (s.dropAgenda i).mem = true := h

theorem wakeAfter_wf {delay} : Memory.wf (s.wakeAfter delay).mem = true := by
  unfold wakeAfter
  split
  · exact h
  · exact later_wf h

theorem wakeHeld_wf : Memory.wf s.wakeHeld.mem = true := wakeAfter_wf h

theorem free_wf : Memory.wf s.free.2.mem = true := (engine_free _).wf h

theorem newId_wf : Memory.wf s.newId.2.mem = true := (engine_newId _).wf h

theorem mapContexts_wf {f} : Memory.wf (s.mapContexts f).mem = true := h

theorem log_wf {die kind index space cause d0 d1 count} :
    Memory.wf (s.log die kind index space cause d0 d1 count).mem = true :=
  (engine_log _ _ _ _ _ _ _ _ _).wf h

theorem logCtx_wf {c cause d0 d1} : Memory.wf (s.logCtx c cause d0 d1).mem = true := (engine_logCtx _ _ _ _ _).wf h

theorem logFab_wf {dev space cause d0 d1 count} : Memory.wf (s.logFab dev space cause d0 d1 count).mem = true :=
  (engine_logFab _ _ _ _ _ _ _).wf h

theorem underKeys_wf {ks} {f : State → State}
    (hf : ∀ {s : State}, Memory.wf s.mem = true → Memory.wf (f s).mem = true) :
    Memory.wf (s.underKeys ks f).mem = true := by
  unfold underKeys
  extract_lets
  split <;> exact hf h

theorem dropKeys_wf {p} : Memory.wf (s.dropKeys p).mem = true := h

theorem storeCipher_wf {l c tag whole} : Memory.wf (s.storeCipher l c tag whole).mem = true :=
  (engine_storeCipher _ _ _ _ _).wf h

theorem homeWrite_wf {sp key l mask d} {t} (e : s.homeWrite sp key l mask d = .ok t) : Memory.wf t.mem = true :=
  (engine_homeWrite e).wf h

theorem poisonLine_wf {l} : Memory.wf (s.poisonLine l).mem = true := (engine_poisonLine _ _).wf h

theorem correctError_wf {ch row} : Memory.wf (s.correctError ch row).mem = true := by
  unfold correctError
  extract_lets
  split
  · exact log_wf (setChan_wf h)
  · split
    exact later_wf (snd_wf (free_wf (log_wf (setChan_wf h))) ‹_›)

theorem lineErrors_wf {l} : Memory.wf (s.lineErrors l).mem = true := by
  unfold lineErrors
  dsimp only
  split
  · exact h
  · split
    · refine poisonLine_wf ?_
      split
      · exact correctError_wf (free_wf h)
      · exact free_wf h
    · split
      · exact correctError_wf (free_wf h)
      · exact free_wf h

theorem putLine_wf {core ln} : Memory.wf (s.putLine core ln).mem = true := (engine_putLine _ _ _).wf h

theorem dropLine_wf {core l} : Memory.wf (s.dropLine core l).mem = true := (engine_dropLine _ _ _).wf h

theorem setDir_wf {l cs} : Memory.wf (s.setDir l cs).mem = true := (engine_setDir _ _ _).wf h

theorem mapChannel_wf {dim ch f} : Memory.wf (s.mapChannel dim ch f).mem = true := h

theorem pick_wf {l} : Memory.wf (s.pick l).2.mem = true := (engine_pick _ _).wf h

theorem emit_wf {f} : Memory.wf (s.emit f).mem = true := (engine_emit _ _).wf h

theorem firstSend_wf {x} : Memory.wf (s.firstSend x).1.mem = true := (engine_firstSend _ _).wf h

theorem send_wf {f u} : Memory.wf (s.send f u).2.mem = true := (engine_send _ _ _).wf h

theorem sendMerge_wf {sp key l mask d u} : Memory.wf (s.sendMerge sp key l mask d u).1.mem = true :=
  (engine_sendMerge _ _ _ _ _ _ _).wf h

theorem mergeFailed_wf {core sp l e} : Memory.wf (s.mergeFailed core sp l e).mem = true :=
  (engine_mergeFailed _ _ _ _ _).wf h

theorem mergeLineTo_wf {ln u} : Memory.wf (s.mergeLineTo ln u).1.mem = true := (engine_mergeLineTo _ _ _).wf h

theorem mergeOut_wf {core ln} : Memory.wf (s.mergeOut core ln).mem = true := (engine_mergeOut _ _ _).wf h

theorem evictLine_wf {core ln} : Memory.wf (s.evictLine core ln).mem = true := (engine_evictLine _ _ _).wf h

theorem makeRoom_wf {core l} : Memory.wf (s.makeRoom core l).mem = true := (engine_makeRoom _ _ _).wf h

theorem copyPut_wf {core l m d} : Memory.wf (s.copyPut core l m d).mem = true := by
  unfold copyPut
  split
  · split
    · exact h
    · exact putLine_wf h
  · exact h

theorem recallTo_wf {l dest} : Memory.wf (s.recallTo l dest).mem = true := (engine_recallTo _ _ _).wf h

theorem invalidateOthers_wf {l keep} : Memory.wf (s.invalidateOthers l keep).mem = true :=
  (engine_invalidateOthers _ _ _).wf h

theorem homeLine_wf {sp key l} : Memory.wf (s.homeLine sp key l).1.mem = true := (engine_homeLine _ _ _ _).wf h

theorem homeBytes_wf {sp key a n} : Memory.wf (s.homeBytes sp key a n).1.mem = true :=
  (engine_homeBytes _ _ _ _ _).wf h

theorem homePut_wf {sp key a n v} {t} (e : s.homePut sp key a n v = .ok t) : Memory.wf t.mem = true :=
  (engine_homePut e).wf h

theorem dropFailed_wf {core l} : Memory.wf (s.dropFailed core l).mem = true := h

theorem setGrant_wf {page g} : Memory.wf (s.setGrant page g).mem = true := (engine_setGrant _ _ _).wf h

theorem askGrant_wf {core k l w} : Memory.wf (s.askGrant core k l w).mem = true := by
  unfold askGrant
  extract_lets
  split
  · exact h
  · exact send_wf h

theorem askLine_wf {core k l} : Memory.wf (s.askLine core k l).mem = true := by
  unfold askLine
  extract_lets
  split
  · exact h
  · split
    · exact askGrant_wf h
    · exact send_wf h

theorem recallPage_wf {page keep} : Memory.wf (s.recallPage page keep).mem = true := by
  unfold recallPage
  extract_lets
  refine foldl_wf ?_ h
  intro s a h
  extract_lets
  split
  extract_lets
  split
  · exact putLine_wf (mergeOut_wf h)
  · exact setDir_wf (dropLine_wf (mergeOut_wf h))

theorem startRevoke_wf {page f} : Memory.wf (s.startRevoke page f).mem = true := by
  unfold startRevoke
  dsimp only
  refine foldl_wf (fun h => send_wf h) ?_
  refine setGrant_wf ?_
  split
  · exact recallPage_wf h
  · exact h

theorem afterRevoke_wf {page f} : Memory.wf (s.afterRevoke page f).mem = true := h

theorem revokeFor_wf {page w sp} : Memory.wf (s.revokeFor page w sp).mem = true := by
  unfold revokeFor
  extract_lets
  split
  · exact h
  · split
    · exact afterRevoke_wf (startRevoke_wf h)
    · exact startRevoke_wf h

theorem logAlias_wf {gpa sp} : Memory.wf (s.logAlias gpa sp).mem = true := by
  unfold logAlias
  extract_lets
  split
  · exact h
  · exact log_wf (setChan_wf h)

theorem lineReady_wf {l w sp} : Memory.wf (s.lineReady l w sp).1.mem = true := (engine_lineReady _ _ _ _).wf h

theorem entryReady_wf {sp} : Memory.wf (s.entryReady sp).mem = true := (engine_entryReady _ _).wf h

theorem beginWait_wf {wait} : Memory.wf (s.beginWait wait).mem = true := by
  unfold beginWait
  split
  · exact revokeFor_wf h
  · exact h
  · extract_lets
    split
    · exact h
    · exact send_wf h

theorem useUp_wf : Memory.wf s.useUp.mem = true := by
  unfold useUp
  extract_lets
  split <;> exact h

theorem unlessWaits_wf {t : State} (ht : Memory.wf t.mem = true) : Memory.wf (s.unlessWaits t).mem = true := by
  unfold unlessWaits
  split
  · exact useUp_wf ht
  · exact foldl_wf (fun h => beginWait_wf h) h

theorem settleWaits_wf {again : State → State}
    (hf : ∀ {s : State}, Memory.wf s.mem = true → Memory.wf (again s).mem = true)
    {o : Host.Outcome State Fault Refusal} (ho : nextWf o) :
    nextWf (s.settleWaits again o) := by
  cases o with
  | next t =>
    show Memory.wf _ = true
    split
    · exact unlessWaits_wf h ho
    · exact hf (unlessWaits_wf h ho)
  | fault | refused => trivial

/-! Machine/Silt.lean. -/

theorem siltFull_wf {n blk} : Memory.wf (s.siltFull n blk).mem = true := h

theorem siltWrite_wf {n blk b} : Memory.wf (siltEnd (s.siltWrite n blk b)).mem = true :=
  (engine_siltWrite _ _ _ _).wf h

theorem afterSiltWrite_wf {a n} : Memory.wf (s.afterSiltWrite a n).mem = true := (engine_afterSiltWrite _ _ _).wf h

theorem siltPut_wf {a n v} : Memory.wf (siltEnd (s.siltPut a n v)).mem = true := (engine_siltPut _ _ _ _).wf h

theorem siltCipher_wf {l c tag} : Memory.wf (siltEnd (s.siltCipher l c tag)).mem = true := by
  unfold siltCipher
  extract_lets
  split
  · next hp =>
    refine ok_wf (siltPut_wf ?_) hp
    exact h
  · next hp =>
    have h1 := error_wf (siltPut_wf ?_) hp
    · exact h1
    · exact h

theorem siltSet_wf {sp key a n v} : Memory.wf (siltEnd (s.siltSet sp key a n v)).mem = true := by
  unfold siltSet
  extract_lets
  split
  · exact siltPut_wf h
  · split
    · exact h
    · split
      · exact h
      · extract_lets
        exact siltCipher_wf h

/-! Machine/Ops.lean. -/

theorem push_wf {lat w} : Memory.wf (s.push lat w).mem = true := h

theorem wx_wf {lat r d} : Memory.wf (s.wx lat r d).mem = true := h

theorem wq_wf {lat r d} : Memory.wf (s.wq lat r d).mem = true := h

theorem wv_wf {lat n lanes d} : Memory.wf (s.wv lat n lanes d).mem = true := h

theorem wvShared_wf {lat n lanes d} : Memory.wf (s.wvShared lat n lanes d).mem = true := h

theorem wk_wf {lat n d} : Memory.wf (s.wk lat n d).mem = true := h

theorem stall_wf : Memory.wf s.stall.mem = true := h

theorem park_wf : Memory.wf s.park.mem = true := h

theorem trap_wf {cause i0 i1 i2 i3} : Memory.wf (s.trap cause i0 i1 i2 i3).mem = true := takeTrap_wf _ _ h

theorem leaveTo_wf {pc x} : Memory.wf (s.leaveTo pc x).mem = true := h

theorem perform_wf {p} {f : State → State} (hf : ∀ {s : State}, Memory.wf s.mem = true → Memory.wf (f s).mem = true) :
    nextWf (s.perform p f) := by
  unfold perform
  show Memory.wf _ = true
  split
  · exact hf h
  · exact h

theorem retire_wf : Memory.wf s.retire.mem = true := h

theorem homeGet_wf {sp key a n} : Memory.wf (s.homeGet sp key a n).1.mem = true := (engine_homeGet _ _ _ _ _).wf h

theorem walk_wf {va kind last level table} : Memory.wf (s.walk va kind last level table).1.mem = true :=
  (engine_walk _ _ _ _ _ _).wf h

theorem orAD_wf {a w} : Memory.wf (s.orAD a w).mem = true := (engine_orAD _ _ _).wf h

theorem setAD_wf {a e w} : Memory.wf (s.setAD a e w).1.mem = true := (walked_setAD _ _ _ _).engine.wf h

theorem marked_wf {l} : Memory.wf (s.marked l).mem = true := by
  unfold marked
  extract_lets
  refine foldl_wf ?_ h
  intro s a h
  extract_lets
  split
  exact orAD_wf h

theorem translate_wf {core cl sp va kind} : Memory.wf (s.translate core cl sp va kind).1.mem = true :=
  (walked_translate _ _ _ _ _ _).engine.wf h

theorem xlat_wf {va kind} : Memory.wf (s.xlat va kind).1.mem = true := (walked_xlat _ _ _).engine.wf h

/-! Machine/Alu.lean. -/

theorem aluResult_wf {p lat d v} : nextWf (aluResult p lat d v s) := perform_wf h (fun h => wx_wf h)

end Sys2Proof.Machine.State
end

