-- ==== Sys2Proof/Proofs/CanonicalTiles.lean ====
section
/-! Memory stays canonical under the caches, fetching, control transfers, tensors, the Loam and the matrix engine:
one lemma an operation, each from those of the operations that it is made of. -/

namespace Sys2Proof.Machine.State

variable {s : State} (h : Memory.wf s.mem = true)
include h

/-! Machine/Cache.lean. -/

theorem readMiss_wf {core k l} : Memory.wf (s.readMiss core k l).1.mem = true := by
  unfold readMiss
  extract_lets
  split
  · exact recallTo_wf h
  · split
    · exact recallTo_wf h
    · exact setDir_wf (putLine_wf (makeRoom_wf (recallTo_wf h)))

theorem fillLine_wf {core k l} : Memory.wf (s.fillLine core k l).1.mem = true := by
  unfold fillLine
  split
  · split
    · exact h
    · split
      · exact h
      · split
        · exact fst_wf (homeLine_wf h) ‹_›
        · exact putLine_wf (fst_wf (homeLine_wf h) ‹_›)
  · split
    · exact readMiss_wf h
    · split
      · exact fst_wf (homeLine_wf h) ‹_›
      · exact putLine_wf (makeRoom_wf (fst_wf (homeLine_wf h) ‹_›))

theorem dropStream_wf {core l u} : Memory.wf (s.dropStream core l u).1.mem = true := by
  unfold dropStream
  dsimp only
  split
  · exact h
  · split
    · exact dropLine_wf h
    · split
      · refine fst_wf ?_ ‹_›
        refine mergeLineTo_wf ?_
        split
        · exact setDir_wf (dropLine_wf h)
        · exact dropLine_wf h
      · refine fst_wf ?_ ‹_›
        refine mergeLineTo_wf ?_
        split
        · exact setDir_wf (dropLine_wf h)
        · exact dropLine_wf h

theorem readAt_wf {core k p a n} : Memory.wf (s.readAt core k p a n).1.mem = true := by
  unfold readAt
  extract_lets
  split
  · split
    · exact h
    · split
      · exact revokeFor_wf h
      · split <;> exact fst_wf (homeBytes_wf h) ‹_›
  · split
    · split
      · exact h
      · split
        · exact h
        · split
          · exact h
          · split <;> exact fst_wf (fillLine_wf h) ‹_›
    · split
      · exact h
      · split
        · exact revokeFor_wf h
        · split <;> exact fst_wf (fillLine_wf h) ‹_›

theorem storeLine_wf {core p ln a n v u} : Memory.wf (s.storeLine core p ln a n v u).1.mem = true := by
  unfold storeLine
  dsimp only
  split
  · exact h
  · split
    · refine dropStream_wf ?_
      split
      · exact setDir_wf (putLine_wf (makeRoom_wf h))
      · exact putLine_wf (makeRoom_wf h)
    · dsimp only
      split
      · exact setDir_wf (putLine_wf (makeRoom_wf h))
      · exact putLine_wf (makeRoom_wf h)

theorem writeAt_wf {core k p a n v} : Memory.wf (s.writeAt core k p a n v).1.mem = true := by
  unfold writeAt
  extract_lets
  split
  · split
    · exact h
    · split
      · exact revokeFor_wf h
      · split
        · split
          · exact homePut_wf h ‹_›
          · exact h
        · split
          · exact h
          · exact copyPut_wf (homeWrite_wf h ‹_›)
  · split
    · split
      · exact storeLine_wf h
      · split
        · exact h
        · split
          · exact revokeFor_wf h
          · split
            · exact fst_wf (fillLine_wf (invalidateOthers_wf (recallTo_wf h))) ‹_›
            · exact storeLine_wf (fst_wf (fillLine_wf (invalidateOthers_wf (recallTo_wf h))) ‹_›)
    · split
      · exact h
      · exact storeLine_wf h

theorem shareLine_wf {core ln} : Memory.wf (s.shareLine core ln).mem = true := by
  unfold shareLine
  extract_lets
  exact setDir_wf (putLine_wf (makeRoom_wf (recallTo_wf h)))

theorem remoteRead_wf {core k a n} : Memory.wf (s.remoteRead core k a n).1.mem = true := by
  unfold remoteRead
  extract_lets
  split
  · exact dropFailed_wf h
  · split
    · split
      · exact h
      · exact askLine_wf h
    · split
      · split
        · exact h
        · exact shareLine_wf h
      · exact askLine_wf h

theorem remoteWrite_wf {core k p a n v u} : Memory.wf (s.remoteWrite core k p a n v u).1.mem = true := by
  unfold remoteWrite
  extract_lets
  split
  · exact dropFailed_wf h
  · split
    · exact storeLine_wf h
    · split
      · exact storeLine_wf h
      · split
        · exact askGrant_wf h
        · split
          · exact storeLine_wf (invalidateOthers_wf (recallTo_wf h))
          · exact askLine_wf h

theorem atomicRecall_wf {core k l} : Memory.wf (s.atomicRecall core k l).mem = true := by
  unfold atomicRecall
  split
  · exact invalidateOthers_wf (recallTo_wf h)
  · split
    · split
      · exact dropLine_wf (mergeOut_wf h)
      · exact h
    · exact h

theorem atomicAt_wf {core k a n f} : Memory.wf (s.atomicAt core k a n f).1.mem = true := by
  unfold atomicAt
  extract_lets
  split
  · exact h
  · split
    · exact revokeFor_wf h
    · split
      · exact fst_wf (homeBytes_wf (atomicRecall_wf h)) ‹_›
      · have h1 := fst_wf (homeBytes_wf (atomicRecall_wf h)) ‹_›
        split
        · exact h1
        · split
          · exact homeWrite_wf h1 ‹_›
          · exact h1

theorem atomicHome_wf {core k gpa n f} : Memory.wf (s.atomicHome core k gpa n f).1.mem = true := by
  unfold atomicHome
  split
  · exact h
  · exact h
  · split
    · exact h
    · split
      · exact h
      · split
        · exact h
        · split
          · exact ok_wf (siltSet_wf h) ‹_›
          · exact error_wf (siltSet_wf h) ‹_›
  · exact atomicAt_wf h

theorem rangeLine_wf {core l keep discard u} : Memory.wf (s.rangeLine core l keep discard u).1.mem = true := by
  unfold rangeLine
  split
  · exact h
  · extract_lets mask after s1
    have hafter : ∀ {s}, Memory.wf s.mem = true → Memory.wf (after s).mem = true := by
      intro s h
      dsimp only [after]
      split
      · exact putLine_wf h
      · exact dropLine_wf h
    have h1 : Memory.wf s1.mem = true := by
      dsimp only [s1]
      split
      · exact setDir_wf h
      · exact h
    clear_value after s1
    split
    · exact hafter h
    · split
      · exact h
      · split <;> exact hafter (fst_wf (mergeLineTo_wf h1) ‹_›)

theorem ingress_wf {sp key l f} : Memory.wf (s.ingress sp key l f).1.mem = true := by
  unfold ingress
  extract_lets
  split
  · exact h
  · split
    · exact h
    · split
      · exact h
      · exact logFab_wf (setPeer_wf h)

theorem siltLoad_wf {sp key gpa n} : Memory.wf (s.siltLoad sp key gpa n).1.mem = true := by
  unfold siltLoad
  split
  · exact h
  · split <;> exact h

theorem engineGet_wf {sp key a n} : Memory.wf (s.engineGet sp key a n).1.mem = true := by
  unfold engineGet
  split
  · exact h
  · exact h
  · exact siltLoad_wf h
  · exact readAt_wf h

theorem enginePut_wf {sp key a n v u} : Memory.wf (s.enginePut sp key a n v u).1.mem = true := by
  unfold enginePut
  split
  · split <;> exact fst_wf (sendMerge_wf h) ‹_›
  · split
    · exact h
    · exact h
    · split
      · exact h
      · split
        · exact ok_wf (siltSet_wf h) ‹_›
        · exact error_wf (siltSet_wf h) ‹_›
    · exact writeAt_wf h

theorem logWritten_wf {die} : Memory.wf (s.logWritten die).mem = true := h

theorem writeEvents_wf {die rest} : Memory.wf (s.writeEvents die rest).mem = true := by
  induction rest generalizing s with
  | nil =>
    exact h
  | cons a l ih =>
    unfold writeEvents
    extract_lets
    split
    · split
      · exact setDie_wf (fst_wf (enginePut_wf h) ‹_›)
      · exact setDie_wf (fst_wf (enginePut_wf h) ‹_›)
      · exact ih (logWritten_wf (fst_wf (enginePut_wf h) ‹_›))
    · exact ih (setDie_wf h)

theorem flushLogs_wf : Memory.wf s.flushLogs.mem = true := by
  unfold flushLogs
  refine foldl_wf ?_ h
  intro s a h
  extract_lets
  split
  extract_lets
  split
  · exact h
  · exact writeEvents_wf (setDie_wf h)

theorem engineAtomic_wf {cl sp va op x u} : Memory.wf (s.engineAtomic cl sp va op x u).1.mem = true := by
  unfold engineAtomic
  split
  · exact fst_wf (translate_wf h) ‹_›
  · have h1 := fst_wf (translate_wf h) ‹_›
    extract_lets
    split
    · exact atomicHome_wf h1
    · split
      · exact h1
      · exact send_wf h1

theorem execLineReadMiss_wf {core line} : nextWf (execLineReadMiss core line s) := by
  unfold execLineReadMiss
  dsimp only
  show Memory.wf _ = true
  split
  · exact h
  · split
    · exact logAlias_wf h
    · split
      · exact revokeFor_wf h
      · split
        · split
          · exact readMiss_wf (lineErrors_wf h)
          · exact lineErrors_wf h
        · split
          · exact lineErrors_wf h
          · exact readMiss_wf (lineErrors_wf h)

theorem execLineInvalidation_wf {core line} : nextWf (execLineInvalidation core line s) := by
  unfold execLineInvalidation
  show Memory.wf _ = true
  split
  · split
    · exact setDir_wf (dropLine_wf (mergeOut_wf h))
    · exact h
  · exact h

theorem execLineEviction_wf {core line} : nextWf (execLineEviction core line s) := by
  unfold execLineEviction
  show Memory.wf _ = true
  split
  · split
    · exact evictLine_wf h
    · exact h
  · exact h

theorem execByteMaskMerge_wf {line mask data} : nextWf (execByteMaskMerge line mask data s) := by
  unfold execByteMaskMerge
  extract_lets
  show Memory.wf _ = true
  split
  · exact wakeHeld_wf h
  · split
    · exact homeWrite_wf h ‹_›
    · exact h

theorem execHostSnoop_wf {line inv} : nextWf (execHostSnoop line inv s) := by
  unfold execHostSnoop
  show Memory.wf _ = true
  split
  · exact h
  · split
    · exact invalidateOthers_wf (recallTo_wf h)
    · exact recallTo_wf h

/-! Machine/Fetch.lean. -/

theorem reply_wf {f status v tag data len} : Memory.wf (s.reply f status v tag data len).mem = true := by
  unfold reply
  extract_lets
  exact emit_wf (setPeer_wf h)

theorem fetchWord_wf {va} : Memory.wf (s.fetchWord va).1.mem = true := by
  unfold fetchWord
  extract_lets
  split
  · exact fst_wf (xlat_wf h) ‹_›
  · have h1 := fst_wf (xlat_wf h) ‹_›
    extract_lets
    split
    · split
      · exact h1
      · split
        · split <;> exact fst_wf (homeGet_wf h1) ‹_›
        · split
          · exact h1
          · split
            · exact dropFailed_wf h1
            · split
              · exact logAlias_wf h1
              · exact askLine_wf h1
    · split <;> exact fst_wf (homeGet_wf h1) ‹_›

theorem fetchWords_wf {va fuel} : Memory.wf (s.fetchWords va fuel).1.mem = true := by
  induction fuel generalizing s va with
  | zero =>
    exact h
  | succ n ih =>
    unfold fetchWords
    split
    · exact fst_wf (fetchWord_wf h) ‹_›
    · exact fst_wf (fetchWord_wf h) ‹_›
    · split
      · exact fst_wf (ih (fst_wf (fetchWord_wf h) ‹_›)) ‹_›
      · exact ih (fst_wf (fetchWord_wf h) ‹_›)

theorem fetchBundle_wf {pc} : Memory.wf (s.fetchBundle pc).1.mem = true := by
  unfold fetchBundle
  extract_lets
  split
  · exact fst_wf (fetchWord_wf h) ‹_›
  · exact fst_wf (fetchWord_wf h) ‹_›
  · split <;> exact fst_wf (fetchWords_wf (fst_wf (fetchWord_wf h) ‹_›)) ‹_›

theorem bundleEnd_wf {pc} : Memory.wf (s.bundleEnd pc).1.mem = true := by
  unfold bundleEnd
  split <;> exact fst_wf (fetchBundle_wf h) ‹_›

/-! Machine/Control.lean. -/

theorem transferTo_wf {t} : Memory.wf (s.transferTo t).mem = true := by
  unfold transferTo
  extract_lets
  split
  · split
    · exact h
    · split
      · exact trap_wf h
      · split
        exact trap_wf (snd_wf (free_wf h) ‹_›)
  · exact h

theorem endMember_wf {entry} : Memory.wf (s.endMember entry).mem = true := h

theorem callOut_wf {cause i1} : Memory.wf (s.callOut cause i1).mem = true := trap_wf h

theorem haltAt_wf {reason f} : Memory.wf (s.haltAt reason f).mem = true := h

theorem napTick_wf : Memory.wf s.napTick.mem = true := h

theorem execPbr_wf {p b o lit} : nextWf (execPbr p b o lit s) := by
  unfold execPbr
  extract_lets
  exact perform_wf h (fun h => push_wf h)

theorem execCall_wf {p d b} : nextWf (execCall p d b s) := by
  unfold execCall
  refine perform_wf h ?_
  intro s h
  extract_lets
  split
  · exact transferTo_wf h
  · split
    · exact takeTrap_wf _ _ (fst_wf (bundleEnd_wf h) ‹_›)
    · exact stall_wf (fst_wf (bundleEnd_wf h) ‹_›)
    · have h1 := fst_wf (bundleEnd_wf h) ‹_›
      split
      · exact takeTrap_wf _ _ (fst_wf (bundleEnd_wf h1) ‹_›)
      · exact stall_wf (fst_wf (bundleEnd_wf h1) ‹_›)
      · exact transferTo_wf (wx_wf (fst_wf (bundleEnd_wf h1) ‹_›))

theorem execLoop_wf {p b a} : nextWf (execLoop p b a s) := by
  unfold execLoop
  refine perform_wf h ?_
  intro s h
  extract_lets
  split
  · exact transferTo_wf h
  · split
    · exact transferTo_wf (push_wf (wx_wf h))
    · exact push_wf (wx_wf h)

theorem execBrk_wf {p c} : nextWf (execBrk p c s) := by
  unfold execBrk
  refine perform_wf h ?_
  intro s h
  extract_lets
  split
  · exact h
  · exact callOut_wf h

theorem execNapEnd_wf {c} : nextWf (execNapEnd c s) := by
  unfold execNapEnd
  extract_lets
  show Memory.wf _ = true
  split
  · exact napTick_wf (switch_wf h)
  · exact h

theorem execSrd_wf {p d r lit} : nextWf (execSrd p d r lit s) := by
  unfold execSrd
  extract_lets
  refine perform_wf h ?_
  intro s h
  extract_lets
  split
  · exact trap_wf h
  · exact wx_wf h

theorem execSwr_wf {p a r lit} : nextWf (execSwr p a r lit s) := by
  unfold execSwr
  extract_lets
  refine perform_wf h ?_
  intro s h
  extract_lets
  split
  · exact trap_wf h
  · exact push_wf h

theorem execFence_wf {p c e f} : nextWf (execFence p c e f s) := by
  unfold execFence
  refine perform_wf h ?_
  intro s h
  extract_lets
  split
  · exact takeTrap_wf _ _ h
  · exact h

theorem tretForm_wf {p} {resume : State → State}
    (hf : ∀ {s : State}, Memory.wf s.mem = true → Memory.wf (resume s).mem = true) :
    nextWf (tretForm p s resume) := by
  unfold tretForm
  refine perform_wf h ?_
  intro s h
  extract_lets
  split
  · exact trap_wf h
  · split
    · exact endMember_wf h
    · exact hf h

theorem execTretSkip_wf {p} : nextWf (execTretSkip p s) := by
  refine tretForm_wf h ?_
  intro s h
  split
  · next hb => exact takeTrap_wf _ _ (fst_wf (bundleEnd_wf h) hb)
  · next hb => exact stall_wf (fst_wf (bundleEnd_wf h) hb)
  · next hb =>
    extract_lets cx c r
    have hr : Memory.wf r.mem = true := leaveTo_wf (fst_wf (bundleEnd_wf h) hb)
    exact hr

theorem execTretEnd_wf {p} : nextWf (execTretEnd p s) := by
  unfold execTretEnd
  refine perform_wf h ?_
  intro s h
  extract_lets
  split
  · exact trap_wf h
  · exact endMember_wf h

/-! Machine/Tensor.lean. -/

theorem homeRead_wf {sp key a n} : Memory.wf (s.homeRead sp key a n).1.mem = true := (engine_homeRead _ _ _ _ _).wf h

theorem homeStore_wf {sp key a n v} : Memory.wf (s.homeStore sp key a n v).1.mem = true := by
  unfold homeStore
  split
  · exact h
  · exact h
  · split
    · exact ok_wf (siltSet_wf h) ‹_›
    · exact error_wf (siltSet_wf h) ‹_›
  · split
    · exact homePut_wf h ‹_›
    · exact h

theorem readVa_wf {cl sp va n kind} : Memory.wf (s.readVa cl sp va n kind).1.mem = true :=
  (walked_readVa _ _ _ _ _ _).engine.wf h

theorem tensorWord_wf {cl sp t} : Memory.wf (s.tensorWord cl sp t).1.mem = true := by
  unfold tensorWord
  extract_lets
  split
  · exact entryReady_wf h
  · split <;> exact fst_wf (readVa_wf (entryReady_wf h)) ‹_›

theorem tensor_wf {cl sp t} : Memory.wf (s.tensor cl sp t).1.mem = true := (walked_tensor _ _ _ _).engine.wf h

theorem tileHome_wf {cl tn t kind} : Memory.wf (s.tileHome cl tn t kind).1.mem = true := by
  unfold tileHome
  split <;> exact fst_wf (translate_wf h) ‹_›

theorem mapPages_wf {cl sp kind vas pages} : Memory.wf (s.mapPages cl sp kind vas pages).1.mem = true := by
  induction vas generalizing s pages with
  | nil =>
    exact h
  | cons a l ih =>
    unfold mapPages
    split
    · exact ih h
    · split
      · exact fst_wf (translate_wf h) ‹_›
      · exact ih (fst_wf (translate_wf h) ‹_›)

theorem tileRead_wf {sp pg ls va n} : Memory.wf (s.tileRead sp pg ls va n).1.mem = true := by
  unfold tileRead
  extract_lets
  split
  · exact h
  · split <;> exact fst_wf (homeRead_wf h) ‹_›

theorem readElems_wf {sp pg ls tn c rest} : Memory.wf (s.readElems sp pg ls tn c rest).1.mem = true := by
  induction rest generalizing s with
  | nil =>
    exact h
  | cons a l ih =>
    unfold readElems
    split
    · exact fst_wf (tileRead_wf h) ‹_›
    · split <;> exact fst_wf (ih (fst_wf (tileRead_wf h) ‹_›)) ‹_›

theorem fillData_wf {cl tn t v ls} : Memory.wf (s.fillData cl tn t v ls).1.mem = true := by
  unfold fillData
  split
  · exact fst_wf (mapPages_wf h) ‹_›
  · have h1 := fst_wf (mapPages_wf h) ‹_›
    split
    · exact h1
    · split
      · exact fst_wf (readElems_wf h1) ‹_›
      · have h2 := fst_wf (readElems_wf h1) ‹_›
        extract_lets
        split
        · split
          · split <;> exact fst_wf (tileRead_wf h2) ‹_›
          · exact h2
        · split <;> exact h2

theorem tileStore_wf {sp pg va n v} : Memory.wf (s.tileStore sp pg va n v).1.mem = true := by
  unfold tileStore
  extract_lets
  split
  · exact h
  · split <;> exact fst_wf (homeStore_wf h) ‹_›

theorem writeElems_wf {sp pg tn c rest} : Memory.wf (s.writeElems sp pg tn c rest).1.mem = true := by
  induction rest generalizing s with
  | nil =>
    exact h
  | cons a l ih =>
    unfold writeElems
    split
    · exact fst_wf (tileStore_wf h) ‹_›
    · exact ih (fst_wf (tileStore_wf h) ‹_›)

theorem writeSilt_wf {tn t x l} : Memory.wf (s.writeSilt tn t x l).1.mem = true := by
  unfold writeSilt
  extract_lets
  split
  · exact h
  · split
    · exact h
    · split
      · exact h
      · split
        · next hw =>
          have h1 := ok_wf (siltWrite_wf h) hw
          refine afterSiltWrite_wf ?_
          exact h1
        · exact error_wf (siltWrite_wf h) ‹_›

theorem writeMapped_wf {pg tn t b scale} : Memory.wf (s.writeMapped pg tn t b scale).1.mem = true := by
  unfold writeMapped
  split
  · exact h
  · extract_lets l x silt sigma
    have hsigma : ∀ {s}, Memory.wf s.mem = true → Memory.wf (sigma s).1.mem = true := by
      intro s h
      dsimp only [sigma]
      split
      · exact tileStore_wf h
      · exact h
    clear_value sigma
    split
    · split
      · exact h
      · split
        · exact fst_wf (writeSilt_wf (fst_wf (hsigma h) ‹_›)) ‹_›
        · exact writeSilt_wf h
    · split
      · exact h
      · split
        · exact h
        · exact fst_wf (hsigma (fst_wf (writeElems_wf h) ‹_›)) ‹_›

theorem setSlot_wf {cl key x} : Memory.wf (s.setSlot cl key x).mem = true := h

theorem clearSlot_wf {cl key} : Memory.wf (s.clearSlot cl key).mem = true := h

theorem wakeSlice_wf {cl key} : Memory.wf (s.wakeSlice cl key).mem = true := by
  unfold wakeSlice
  split
  · exact later_wf h
  · exact h

theorem pin_wf {cl key} {t} (e : s.pin cl key = some t) : Memory.wf t.mem = true := by
  unfold pin at e
  dsimp only at e
  split at e
  · cases e
  · cases e
    split
    · exact wakeSlice_wf (setSlot_wf h)
    · exact setSlot_wf h

theorem unpin_wf {cl key} : Memory.wf (s.unpin cl key).mem = true := by
  unfold unpin
  extract_lets
  split
  · exact wakeSlice_wf (setSlot_wf h)
  · exact setSlot_wf h

/-! Machine/Loam.lean. -/

theorem flightBound_wf {dests result} : Memory.wf (s.flightBound dests result).mem = true := h

theorem openAccess_wf {sets coreDone} : Memory.wf (s.openAccess sets coreDone).2.mem = true := h

theorem closeAccess_wf {id} : Memory.wf (s.closeAccess id).mem = true := h

theorem reportFail_wf {id sets f} : Memory.wf (s.reportFail id sets f).mem = true := h

theorem closePublish_wf {t v} : Memory.wf (s.closePublish t v).mem = true := h

theorem clockScan_wf {cl slice set v fuel way} : Memory.wf (s.clockScan cl slice set v fuel way).1.mem = true := by
  induction fuel generalizing s way with
  | zero =>
    exact h
  | succ n ih =>
    unfold clockScan
    extract_lets
    split
    · split
      · exact setCluster_wf h
      · exact ih (setSlot_wf h)
    · exact ih h

theorem allocate_wf {cl slice set klass} : Memory.wf (s.allocate cl slice set klass).1.mem = true := by
  unfold allocate
  extract_lets a c gated g w st
  split
  · exact h
  · split
    · split
      · exact later_wf (setCluster_wf h)
      · exact h
    · split
      next s' pick hs' =>
      have h' : Memory.wf s'.mem = true := by
        refine fst_wf ?_ hs'
        split
        · exact h
        · split
          · exact h
          · exact clockScan_wf h
      split
      · exact h'
      · dsimp only
        split
        · exact clearSlot_wf h'
        · exact later_wf (setSlot_wf h')

theorem setVer_wf {t e} : Memory.wf (s.setVer t e).mem = true := h

theorem addHolder_wf {t holder} : Memory.wf (s.addHolder t holder).mem = true := by
  unfold addHolder
  extract_lets
  split
  · exact h
  · exact setVer_wf h

theorem dropHolder_wf {t holder} : Memory.wf (s.dropHolder t holder).mem = true := h

theorem startFilling_wf {r key klass more} : Memory.wf (s.startFilling r key klass more).mem = true := h

theorem queueAlloc_wf {r klass openV} : Memory.wf (s.queueAlloc r klass openV).mem = true := by
  unfold queueAlloc
  extract_lets
  split
  extract_lets
  split
  · refine later_wf (later_wf (setCluster_wf ?_))
    exact h
  · refine later_wf (setCluster_wf ?_)
    exact h

theorem requestTile_wf {r klass} : Memory.wf (s.requestTile r klass).mem = true := by
  unfold requestTile
  split
  · exact h
  · split
    · extract_lets
      exact setSlot_wf h
    · exact queueAlloc_wf h

theorem dropFilling_wf {cl key} : Memory.wf (s.dropFilling cl key).mem = true := by
  unfold dropFilling
  extract_lets
  refine wakeSlice_wf (clearSlot_wf ?_)
  exact h

theorem skipHints_wf {cl key} : Memory.wf (s.skipHints cl key).mem = true := by
  unfold skipHints
  extract_lets
  split
  · exact dropFilling_wf h
  · exact setSlot_wf h

theorem forget_wf {cl gone} : Memory.wf (s.forget cl gone).mem = true := by
  unfold forget
  extract_lets
  refine foldl_wf ?_ (setCluster_wf h)
  intro s a h
  extract_lets
  split
  exact dropFilling_wf h

theorem askOpen_wf {c} : Memory.wf (s.askOpen c).mem = true := by
  unfold askOpen
  extract_lets
  split
  · exact queueAlloc_wf h
  · exact h

theorem grantOpen_wf {c n} : Memory.wf (s.grantOpen c n).mem = true := by
  unfold grantOpen
  extract_lets
  split
  · exact h
  · exact askOpen_wf (setCtx_wf h)

theorem setEntry_wf {cl e x} : Memory.wf (s.setEntry cl e x).mem = true := h

theorem failCtx_wf {c f} : Memory.wf (s.failCtx c f).mem = true := by
  unfold failCtx
  extract_lets
  split
  · exact later_wf (setCtx_wf h)
  · exact h

theorem failUser_wf {r f} : Memory.wf (s.failUser r f).mem = true := by
  unfold failUser
  split
  · split
    · exact failCtx_wf h
    · exact h
  · split
    · exact failCtx_wf h
    · exact h
  · split
    · split
      · exact later_wf (setEntry_wf h)
      · exact h
    · exact h
  · split
    · extract_lets
      exact later_wf (setEntry_wf h)
    · exact h
  · exact h
  · exact h

theorem hitSlot_wf {cl key} : Memory.wf (s.hitSlot cl key).mem = true := h

theorem serveUser_wf {r key} : Memory.wf (s.serveUser r key).mem = true := by
  unfold serveUser
  extract_lets
  split
  · extract_lets
    split
    · split
      · exact later_wf (setCtx_wf (pin_wf (hitSlot_wf h) ‹_›))
      · exact failCtx_wf h
    · exact h
  · split
    · split
      · split
        · exact later_wf (setEntry_wf (hitSlot_wf h))
        · exact h
      · exact h
    · exact h
  · split
    · split
      · split
        · exact h
        · split
          · exact later_wf (setEntry_wf (pin_wf (hitSlot_wf h) ‹_›))
          · exact later_wf (dropAgenda_wf h)
      · exact h
    · exact h
  · exact h
  · exact h
  · exact h

theorem failSlot_wf {cl key f} : Memory.wf (s.failSlot cl key f).mem = true := by
  unfold failSlot
  extract_lets
  exact wakeSlice_wf (foldl_wf (fun h => failUser_wf h) (clearSlot_wf h))

theorem askElsewhere_wf {r klass} : Memory.wf (s.askElsewhere r klass).mem = true := by
  unfold askElsewhere
  split
  · exact h
  · split
    · exact askOpen_wf h
    · exact h
  · exact requestTile_wf h

theorem openSlot_wf {c key b scale} : Memory.wf (s.openSlot c key b scale).mem = true := by
  unfold openSlot
  extract_lets
  split
  · exact wakeSlice_wf (clearSlot_wf h)
  · extract_lets
    exact setCtx_wf (setSlot_wf h)

theorem landSlot_wf {cl key v b scale} : Memory.wf (s.landSlot cl key v b scale).mem = true := by
  unfold landSlot
  dsimp only
  split
  · exact foldl_wf (fun h => askElsewhere_wf h) (wakeSlice_wf (clearSlot_wf h))
  · split
    · split
      · exact openSlot_wf h
      · exact wakeSlice_wf (clearSlot_wf h)
    · refine wakeSlice_wf ?_
      refine foldl_wf (fun h => serveUser_wf h) ?_
      split
      · split
        · exact addHolder_wf (setSlot_wf h)
        · exact setSlot_wf h
      · split
        · exact addHolder_wf (setSlot_wf h)
        · exact setSlot_wf h

theorem homeOf_wf {cl t kind found} : Memory.wf (s.homeOf cl t kind found).1.mem = true := by
  unfold homeOf
  split
  · exact h
  · split <;> exact fst_wf (tileHome_wf h) ‹_›

theorem tileAway_wf {cl t kind} : Memory.wf (s.tileAway cl t kind).1.mem = true := by
  unfold tileAway
  split
  · exact fst_wf (tensor_wf h) ‹_›
  · exact homeOf_wf (fst_wf (tensor_wf h) ‹_›)

theorem slotAway_wf {cl key kind} : Memory.wf (s.slotAway cl key kind).1.mem = true := by
  unfold slotAway
  extract_lets
  split
  · exact homeOf_wf h
  · split
    · exact fst_wf (tensorWord_wf h) ‹_›
    · exact homeOf_wf (setSlot_wf (fst_wf (tensorWord_wf h) ‹_›))

theorem arrivedAt_wf {r key p} : Memory.wf (s.arrivedAt r key p).1.mem = true := by
  unfold arrivedAt
  extract_lets
  split
  · exact h
  · refine foldl_wf ?_ (setSlot_wf h)
    intro s a h
    extract_lets
    split
    · extract_lets
      split
      · exact setCtx_wf h
      · exact h
    · exact h

theorem listRequest_wf {r wait} : Memory.wf (s.listRequest r wait).mem = true := by
  unfold listRequest
  extract_lets
  split
  · exact h
  · exact later_wf h

theorem homeRequest_wf {r wait} : Memory.wf (s.homeRequest r wait).mem = true := by
  unfold homeRequest
  split
  · exact h
  · split
    · exact failSlot_wf (fst_wf (slotAway_wf h) ‹_›)
    · extract_lets
      split
      split
      · exact failSlot_wf (fst_wf (slotAway_wf h) ‹_›)
      · exact send_wf (setSlot_wf (fst_wf (slotAway_wf h) ‹_›))
    · have h1 := fst_wf (slotAway_wf h) ‹_›
      split
      extract_lets
      split
      · extract_lets
        split
        · exact landSlot_wf (fst_wf (arrivedAt_wf h1) ‹_›)
        · exact foldl_wf (fun h => serveUser_wf h) (wakeSlice_wf (clearSlot_wf (fst_wf (arrivedAt_wf h1) ‹_›)))
      · exact later_wf (setSlot_wf (fst_wf (arrivedAt_wf h1) ‹_›))
      · exact later_wf (fst_wf (arrivedAt_wf h1) ‹_›)
      · exact failSlot_wf (fst_wf (arrivedAt_wf h1) ‹_›)
      · exact failSlot_wf (fst_wf (arrivedAt_wf h1) ‹_›)
      · split
        · exact skipHints_wf (fst_wf (arrivedAt_wf h1) ‹_›)
        · exact listRequest_wf (skipHints_wf (fst_wf (arrivedAt_wf h1) ‹_›))

theorem serveAwaiting_wf {t} : Memory.wf (s.serveAwaiting t).mem = true := by
  unfold serveAwaiting
  extract_lets
  refine foldl_wf ?_ h
  intro s a h
  extract_lets
  split
  split
  · exact send_wf h
  · exact homeRequest_wf h

theorem publishHome_wf {t v owner} : Memory.wf (s.publishHome t v owner).mem = true := by
  unfold publishHome
  extract_lets
  exact serveAwaiting_wf (setVer_wf h)

theorem abandonHome_wf {t v} : Memory.wf (s.abandonHome t v).mem = true := by
  unfold abandonHome
  extract_lets
  split
  · exact setVer_wf h
  · exact h

theorem mergedHome_wf {t v} : Memory.wf (s.mergedHome t v).mem = true := h

theorem endWriteback_wf {cl key st} : Memory.wf (s.endWriteback cl key st).mem = true := by
  unfold endWriteback
  dsimp only
  refine wakeSlice_wf ?_
  split
  · exact closeAccess_wf (setSlot_wf h)
  · exact setSlot_wf h

theorem failWriteback_wf {cl key f} : Memory.wf (s.failWriteback cl key f).mem = true := by
  unfold failWriteback
  dsimp only
  split
  · exact endWriteback_wf h
  · refine endWriteback_wf ?_
    split
    · exact reportFail_wf (log_wf h)
    · exact log_wf h

theorem failMerge_wf {cl key f} : Memory.wf (s.failMerge cl key f).mem = true := by
  unfold failMerge
  dsimp only
  refine failWriteback_wf ?_
  split
  · exact send_wf h
  · exact h

theorem finishMerge_wf {cl key tn pg} : Memory.wf (s.finishMerge cl key tn pg).mem = true := by
  unfold finishMerge
  extract_lets
  split
  · split
    exact failMerge_wf h
  · split
    · exact later_wf (revokeFor_wf h)
    · split
      · exact failMerge_wf (fst_wf (writeMapped_wf h) ‹_›)
      · split
        · exact send_wf (fst_wf (writeMapped_wf h) ‹_›)
        · exact endWriteback_wf (mergedHome_wf (fst_wf (writeMapped_wf h) ‹_›))

theorem sendMerges_wf {cl key tn pg} : Memory.wf (s.sendMerges cl key tn pg).mem = true := by
  unfold sendMerges
  extract_lets x l s1 s2
  have h2 : Memory.wf s2.mem = true := by
    refine foldl_wf ?_ (setSlot_wf h)
    intro s m h
    split
    extract_lets
    split <;> exact setSlot_wf (fst_wf (sendMerge_wf h) ‹_›)
  clear_value s2
  split
  · exact failMerge_wf h
  · exact failMerge_wf h
  · split
    · exact finishMerge_wf h2
    · exact h2

theorem mergeSlot_wf {cl key} : Memory.wf (s.mergeSlot cl key).mem = true := by
  unfold mergeSlot
  extract_lets
  split
  · exact h
  · split
    · exact later_wf h
    · split
      · exact failWriteback_wf (fst_wf (slotAway_wf h) ‹_›)
      · have h1 := fst_wf (slotAway_wf h) ‹_›
        extract_lets
        split
        · exact endWriteback_wf h1
        · split
          · exact failWriteback_wf (fst_wf (mapPages_wf h1) ‹_›)
          · have h2 := fst_wf (mapPages_wf h1) ‹_›
            split
            · exact finishMerge_wf h2
            · split
              · exact later_wf h2
              · split
                · split
                  · exact later_wf (revokeFor_wf h2)
                  · exact sendMerges_wf h2
                · extract_lets
                  split
                  · exact failWriteback_wf h2
                  · exact send_wf (setSlot_wf h2)

theorem withPages_wf {cl key} {go : State → Tensor → Table Xlat → State}
    (hf : ∀ {s : State} {tn pg}, Memory.wf s.mem = true → Memory.wf (go s tn pg).mem = true) :
    Memory.wf (s.withPages cl key go).mem = true := by
  unfold withPages
  extract_lets
  split
  · exact failMerge_wf (fst_wf (slotAway_wf h) ‹_›)
  · split
    · exact failMerge_wf (fst_wf (mapPages_wf (fst_wf (slotAway_wf h) ‹_›)) ‹_›)
    · exact hf (fst_wf (mapPages_wf (fst_wf (slotAway_wf h) ‹_›)) ‹_›)

theorem putEnded_wf {cl key l status} : Memory.wf (s.putEnded cl key l status).mem = true := by
  unfold putEnded
  extract_lets
  split
  · exact h
  · extract_lets
    split
    · exact withPages_wf (setSlot_wf h) (fun h => finishMerge_wf h)
    · exact setSlot_wf h

theorem twbAnswer_wf {cl key part status v} : Memory.wf (s.twbAnswer cl key part status v).mem = true := by
  unfold twbAnswer
  extract_lets
  split
  · exact h
  · split
    · exact failWriteback_wf h
    · split
      · exact later_wf h
      · split
        · exact endWriteback_wf h
        · split
          · exact withPages_wf h (fun h => sendMerges_wf h)
          · split
            · exact send_wf (fst_wf (slotAway_wf h) ‹_›)
            · exact endWriteback_wf (fst_wf (slotAway_wf h) ‹_›)
            · exact failWriteback_wf (fst_wf (slotAway_wf h) ‹_›)

theorem askLines_wf {cl key sp l} : Memory.wf (s.askLines cl key sp l).mem = true := by
  unfold askLines
  refine foldl_wf ?_ h
  intro s a h
  extract_lets
  split
  extract_lets
  split
  · exact setSlot_wf h
  · split
    · exact h
    · exact send_wf h

theorem fillSlot_wf {cl key tn} : Memory.wf (s.fillSlot cl key tn).mem = true := by
  unfold fillSlot
  extract_lets
  split
  · exact failSlot_wf (fst_wf (fillData_wf h) ‹_›)
  · exact landSlot_wf (fst_wf (fillData_wf h) ‹_›)

theorem refill_wf {cl key} : Memory.wf (s.refill cl key).mem = true := by
  unfold refill
  extract_lets
  split
  · exact later_wf (setSlot_wf h)
  · exact wakeSlice_wf (clearSlot_wf h)

theorem fillStep_wf {cl key r} : Memory.wf (s.fillStep cl key r).mem = true := by
  unfold fillStep
  split
  · exact failSlot_wf (fst_wf (slotAway_wf h) ‹_›)
  · next ha =>
    have h1 := fst_wf (slotAway_wf h) ha
    extract_lets
    split
    · exact refill_wf h1
    · split
      · exact later_wf h1
      · split
        · exact failSlot_wf (fst_wf (mapPages_wf h1) ‹_›)
        · next hp =>
          have h2 := fst_wf (mapPages_wf h1) hp
          split
          · exact later_wf (revokeFor_wf h2)
          · extract_lets all need s3
            have h3 : Memory.wf s3.mem = true := by
              dsimp only [s3]
              split
              · exact askLines_wf h2
              · exact h2
            clear_value s3
            split
            · split
              exact failSlot_wf h3
            · split
              · exact h3
              · split
                · exact send_wf h3
                · exact fillSlot_wf h3

theorem fillLineArrived_wf {cl key l d} : Memory.wf (s.fillLineArrived cl key l d).mem = true := by
  unfold fillLineArrived
  extract_lets
  split
  · exact h
  · split
    · exact setSlot_wf h
    · exact later_wf (setSlot_wf h)

theorem setAllocWay_wf {cl id w} : Memory.wf (s.setAllocWay cl id w).mem = true := h

theorem joinAlloc_wf {cl a} {t} (e : s.joinAlloc cl a = some t) : Memory.wf t.mem = true := by
  unfold joinAlloc at e
  dsimp only at e
  split at e
  · cases e
  · split at e
    · cases e
      exact requestTile_wf (setCluster_wf h)
    · obtain ⟨_, _, rfl⟩ := Option.map_eq_some_iff.1 e
      exact serveUser_wf (setCluster_wf h)

theorem takeWay_wf {cl a w} : Memory.wf (s.takeWay cl a w).mem = true := by
  unfold takeWay
  extract_lets
  split
  · split
    · split
      · split
        · exact startFilling_wf (setCluster_wf h)
        · exact openSlot_wf (setCluster_wf h)
      · exact setCluster_wf h
    · exact setCluster_wf h
  · split
    exact startFilling_wf (setCluster_wf (setCluster_wf h))

theorem tryAlloc_wf {cl a} : Memory.wf (s.tryAlloc cl a).mem = true := by
  unfold tryAlloc
  dsimp only
  split
  · exact h
  · split
    · exact joinAlloc_wf h ‹_›
    · split
      · split
        · exact takeWay_wf (fst_wf (allocate_wf h) ‹_›)
        · exact setAllocWay_wf (fst_wf (allocate_wf h) ‹_›)
        · exact setAllocWay_wf (fst_wf (allocate_wf h) ‹_›)
      · split
        · exact h
        · split
          · exact takeWay_wf (clearSlot_wf h)
          · split
            · exact takeWay_wf (fst_wf (allocate_wf h) ‹_›)
            · exact setAllocWay_wf (fst_wf (allocate_wf h) ‹_›)
            · exact setAllocWay_wf (fst_wf (allocate_wf h) ‹_›)

theorem execTileFill_wf {cl slot} : nextWf (execTileFill cl slot s) := by
  unfold execTileFill
  extract_lets
  show Memory.wf _ = true
  split
  · exact h
  · split
    · exact wakeSlice_wf (clearSlot_wf h)
    · split
      · exact later_wf h
      · exact underKeys_wf h (fun h => fillStep_wf h)

theorem execTileForward_wf {r holder v} : nextWf (execTileForward r holder v s) := by
  unfold execTileForward
  show Memory.wf _ = true
  split
  · exact h
  · split
    · split
      · exact send_wf (fst_wf (slotAway_wf h) ‹_›)
      · exact failSlot_wf (fst_wf (slotAway_wf h) ‹_›)
    · split
      · extract_lets
        split
        · split
          · exact later_wf (mergeSlot_wf h)
          · exact later_wf (dropHolder_wf (mergeSlot_wf h))
        · exact landSlot_wf h
      · exact later_wf (dropHolder_wf h)

theorem execAllocationTimeout_wf {cl id} : nextWf (execAllocationTimeout cl id s) := by
  unfold execAllocationTimeout
  extract_lets
  show Memory.wf _ = true
  split
  · exact h
  · extract_lets
    split
    · exact joinAlloc_wf h ‹_›
    · split
      · exact failCtx_wf (wakeSlice_wf (setCluster_wf h))
      · exact wakeSlice_wf (setCluster_wf h)

theorem execSnewAtHome_wf {c tile n next} : nextWf (execSnewAtHome c tile n next s) := by
  unfold execSnewAtHome
  extract_lets
  show Memory.wf _ = true
  split
  · exact h
  · split
    · exact setCtx_wf (fst_wf (tileAway_wf h) ‹_›)
    · split
      · exact setCtx_wf (fst_wf (tileAway_wf h) ‹_›)
      · exact send_wf (fst_wf (tileAway_wf h) ‹_›)
    · extract_lets
      split
      · exact setCtx_wf (fst_wf (tileAway_wf h) ‹_›)
      · exact grantOpen_wf (setVer_wf (fst_wf (tileAway_wf h) ‹_›))

theorem execPublishAtHome_wf {tile v cl} : nextWf (execPublishAtHome tile v cl s) := by
  unfold execPublishAtHome
  show Memory.wf _ = true
  split
  · exact send_wf (fst_wf (tileAway_wf h) ‹_›)
  · exact closePublish_wf (publishHome_wf (fst_wf (tileAway_wf h) ‹_›))

theorem execAbandonAtHome_wf {tile v} : nextWf (execAbandonAtHome tile v s) := by
  unfold execAbandonAtHome
  show Memory.wf _ = true
  split
  · exact send_wf (fst_wf (tileAway_wf h) ‹_›)
  · exact abandonHome_wf (fst_wf (tileAway_wf h) ‹_›)

theorem execVersionWaitTimeout_wf {u} : nextWf (execVersionWaitTimeout u s) := by
  unfold execVersionWaitTimeout
  show Memory.wf _ = true
  split
  · extract_lets
    split
    · split
      · exact h
      · exact later_wf (setCtx_wf h)
    · exact h
  · split
    · split
      · split
        · exact h
        · split
          · exact later_wf (setEntry_wf h)
          · exact later_wf h
      · exact h
    · exact h
  · exact h

theorem execParkedTaskResume_wf {c} : nextWf (execParkedTaskResume c s) := by
  unfold execParkedTaskResume
  extract_lets
  show Memory.wf _ = true
  split
  · exact setCtx_wf h
  · exact h

theorem execItineraryEntry_wf {cl id} : nextWf (execItineraryEntry cl id s) := by
  unfold execItineraryEntry
  extract_lets c stop
  have hstop : ∀ {s}, Memory.wf s.mem = true → Memory.wf (stop s).mem = true := fun h => setCluster_wf h
  clear_value stop
  show Memory.wf _ = true
  split
  · exact h
  · split
    · exact later_wf h
    · split
      · exact hstop (fst_wf (readVa_wf h) ‹_›)
      · next hv =>
        have h1 := fst_wf (readVa_wf h) hv
        extract_lets t want s2
        have h2 : Memory.wf s2.mem = true := by
          dsimp only [s2]
          split
          · split
            · exact requestTile_wf (fst_wf (tensor_wf h1) ‹_›)
            · exact fst_wf (tensor_wf h1) ‹_›
          · exact fst_wf (tensor_wf h1) ‹_›
        clear_value s2
        split
        · exact hstop h2
        · exact later_wf (setCluster_wf h2)

/-! Machine/Tile.lean. -/

theorem tileRef_wf {w a b} : Memory.wf (s.tileRef w a b).1.mem = true := by
  unfold tileRef
  extract_lets
  split
  · exact fst_wf (tensor_wf h) ‹_›
  · exact fst_wf (tensor_wf h) ‹_›
  · split <;> exact fst_wf (tensor_wf h) ‹_›

theorem seek_error_wf {tile want who num drop}
    (hf : ∀ {s : State}, Memory.wf s.mem = true → Memory.wf (drop s).mem = true) {t}
    (e : s.seek tile want who num drop = .error t) :
    Memory.wf t.mem = true := by
  unfold seek at e
  dsimp only at e
  split at e
  · cases e
    exact takeTrap_wf _ _ (hf h)
  · split at e
    · cases e
      exact park_wf h
    · cases e
    · split at e
      · cases e
      · cases e
        refine park_wf (later_wf (requestTile_wf ?_))
        exact h

theorem seek_ok_wf {tile want who num drop t r} (e : s.seek tile want who num drop = .ok (t, r)) :
    Memory.wf t.mem = true := by
  unfold seek at e
  dsimp only at e
  split at e
  · cases e
  · split at e
    · cases e
    · cases e
      exact h
    · split at e
      · cases e
        exact h
      · cases e

theorem releaseStream_wf {w} : Memory.wf (s.releaseStream w).mem = true := by
  unfold releaseStream
  extract_lets
  split
  · exact h
  · split
    · exact later_wf (wakeSlice_wf (clearSlot_wf h))
    · split
      · exact unpin_wf h
      · exact h

theorem touch_wf {key hint} : Memory.wf (s.touch key hint).mem = true := h

theorem bindRead_wf {w tn tile key hint pinned} {t r} (e : s.bindRead w tn tile key hint pinned = some (t, r)) :
    Memory.wf t.mem = true := by
  unfold bindRead at e
  dsimp only at e
  split at e
  · cases e
  · next hp =>
    cases e
    refine touch_wf ?_
    split at hp
    · cases hp
      exact releaseStream_wf h
    · exact pin_wf (releaseStream_wf h) hp

theorem setTaskEntry_wf {e} : Memory.wf (s.setTaskEntry e).mem = true := h

theorem holdSpin_wf {tile} {t} (e : s.holdSpin tile = some t) : Memory.wf t.mem = true := by
  unfold holdSpin at e
  obtain ⟨_, _, e⟩ := Option.bind_eq_some_iff.1 e
  obtain ⟨_, _, rfl⟩ := Option.map_eq_some_iff.1 e
  exact setTaskEntry_wf h

theorem unholdSpin_wf {t} : Memory.wf (unholdSpin t s).mem = true := by
  unfold unholdSpin
  split
  · exact h
  · split
    · exact h
    · exact setTaskEntry_wf h

theorem addSpin_wf {key pinned} {t} (e : s.addSpin key pinned = .ok t) : Memory.wf t.mem = true := by
  unfold addSpin at e
  dsimp only at e
  split at e
  · cases e
  · next u hp =>
    have hu : Memory.wf u.mem = true := by
      split at hp
      · cases hp
        exact h
      · exact pin_wf h hp
    split at e
    · cases e
    · split at e <;> cases e
      exact setTaskEntry_wf hu

theorem dropSpin_wf {i k} : Memory.wf (s.dropSpin i k).mem = true := by
  unfold dropSpin
  split
  · exact h
  · split
    · exact h
    · extract_lets
      split
      · exact unpin_wf (setTaskEntry_wf h)
      · exact setTaskEntry_wf h

theorem execSbind_wf {p w a b r hint} : nextWf (execSbind p w a b r hint s) := by
  refine perform_wf h ?_
  intro s h
  split
  · exact trap_wf h
  · split
    · next ht => exact takeTrap_wf _ _ (fst_wf (tileRef_wf h) ht)
    · next ht =>
      have h1 := fst_wf (tileRef_wf h) ht
      split
      · next hs => exact seek_error_wf h1 id hs
      · next hs =>
        have h2 := seek_ok_wf h1 hs
        split
        · exact trap_wf h2
        · exact flightBound_wf (bindRead_wf h2 ‹_›)

theorem execSprobe_wf {p w a b hint q f} : nextWf (execSprobe p w a b hint q f s) := by
  unfold execSprobe
  dsimp only
  refine perform_wf h ?_
  intro s h
  split
  · exact trap_wf h
  · split
    · exact takeTrap_wf _ _ (fst_wf (tileRef_wf h) ‹_›)
    · have h1 := fst_wf (tileRef_wf h) ‹_›
      split
      · split
        · exact trap_wf h1
        · exact flightBound_wf (bindRead_wf h1 ‹_›)
      · refine flightBound_wf ?_
        split
        · exact requestTile_wf h1
        · exact h1

theorem execSnew_wf {p w a b c x} : nextWf (execSnew p w a b c x s) := by
  refine perform_wf h ?_
  intro s h
  split
  · exact trap_wf h
  · split
    · next ht => exact takeTrap_wf _ _ (fst_wf (tileRef_wf h) ht)
    · next ht =>
      have h1 := fst_wf (tileRef_wf h) ht
      split
      · extract_lets cx s2 g
        have h2 : Memory.wf s2.mem = true := h1
        clear_value s2
        split
        · exact takeTrap_wf _ _ (later_wf h2)
        · exact takeTrap_wf _ _ h2
      · extract_lets away
        split
        · split
          · extract_lets s2
            have h2 : Memory.wf s2.mem = true := touch_wf (releaseStream_wf h1)
            refine push_wf ?_
            exact h2
          · exact stall_wf h1
        · split
          · exact stall_wf h1
          · refine stall_wf (later_wf ?_)
            exact h1

theorem execSpub_wf {p w} : nextWf (execSpub p w s) := by
  unfold execSpub
  refine perform_wf h ?_
  intro s h
  extract_lets
  split
  · exact trap_wf h
  · split
    · exact stall_wf h
    · split
      next hn =>
      have h1 := snd_wf (newId_wf (setSlot_wf h)) hn
      refine later_wf (push_wf ?_)
      exact h1

theorem execSpin_wf {p w} : nextWf (execSpin p w s) := by
  unfold execSpin
  refine perform_wf h ?_
  intro s h
  extract_lets
  split
  · exact trap_wf h
  · split
    · exact trap_wf h
    · exact addSpin_wf h ‹_›

theorem execSpinRef_wf {p a b r hint} : nextWf (execSpinRef p a b r hint s) := by
  refine perform_wf h ?_
  intro s h
  split
  · next ht => exact takeTrap_wf _ _ (fst_wf (tileRef_wf h) ht)
  · next ht =>
    have h1 := fst_wf (tileRef_wf h) ht
    split
    · exact trap_wf h1
    · extract_lets waiting
      split
      · next s2 hs =>
        have h2 := seek_error_wf h1 (fun h => unholdSpin_wf h) hs
        split
        · cases hh : s2.holdSpin _ with
          | none => exact h2
          | some s3 => exact holdSpin_wf h2 hh
        · exact h2
      · next hs =>
        have h2 := seek_ok_wf h1 hs
        split
        · refine trap_wf ?_
          split
          · exact unholdSpin_wf h2
          · exact h2
        · next ha =>
          have h3 := addSpin_wf h2 ha
          refine touch_wf ?_
          split
          · exact unholdSpin_wf h3
          · exact h3

theorem execSunpin_wf {p w} : nextWf (execSunpin p w s) := by
  unfold execSunpin
  refine perform_wf h ?_
  intro s h
  extract_lets
  split
  · exact trap_wf h
  · split
    · exact dropSpin_wf h
    · exact h

theorem execSunpinRef_wf {p a b} : nextWf (execSunpinRef p a b s) := by
  unfold execSunpinRef
  refine perform_wf h ?_
  intro s h
  extract_lets
  split
  · exact takeTrap_wf _ _ (fst_wf (tileRef_wf h) ‹_›)
  · extract_lets
    split
    · exact dropSpin_wf (fst_wf (tileRef_wf h) ‹_›)
    · exact fst_wf (tileRef_wf h) ‹_›

theorem execSseek_wf {p w a i lit} : nextWf (execSseek p w a i lit s) := by
  unfold execSseek
  refine perform_wf h ?_
  intro s h
  extract_lets
  split
  · exact trap_wf h
  · exact push_wf h

theorem execSinfo_wf {p d w t} : nextWf (execSinfo p d w t s) := by
  unfold execSinfo
  extract_lets
  refine perform_wf h ?_
  intro s h
  extract_lets
  split
  · exact trap_wf h
  · exact flightBound_wf h

theorem execSedge_wf {p w a b} : nextWf (execSedge p w a b s) := by
  unfold execSedge
  refine perform_wf h ?_
  intro s h
  extract_lets
  split
  · exact trap_wf h
  · exact push_wf h

theorem execTldv_wf {p v w k hint} : nextWf (execTldv p v w k hint s) := by
  unfold execTldv
  refine perform_wf h ?_
  intro s h
  extract_lets
  split
  · exact trap_wf h
  · split
    · exact stall_wf h
    · exact push_wf (wvShared_wf h)

theorem execTstv_wf {p v w k hint} : nextWf (execTstv p v w k hint s) := by
  unfold execTstv
  refine perform_wf h ?_
  intro s h
  extract_lets
  split
  · exact trap_wf h
  · split
    · exact trap_wf h
    · split
      · exact stall_wf h
      · split
        extract_lets
        refine push_wf ?_
        exact h

theorem execTldx_wf {p v w k a} : nextWf (execTldx p v w k a s) := by
  unfold execTldx
  refine perform_wf h ?_
  intro s h
  extract_lets
  split
  · exact trap_wf h
  · split
    · exact stall_wf h
    · exact flightBound_wf h

theorem execTwb_wf {p w} : nextWf (execTwb p w s) := by
  unfold execTwb
  refine perform_wf h ?_
  intro s h
  extract_lets
  split
  · exact trap_wf h
  · split
    · exact trap_wf h
    · split
      · exact stall_wf h
      · split
        · exact h
        · split
          exact later_wf (setSlot_wf (snd_wf (openAccess_wf h) ‹_›))

theorem execTpref_wf {p a i lit} : nextWf (execTpref p a i lit s) := by
  unfold execTpref
  refine perform_wf h ?_
  intro s h
  extract_lets
  split
  · exact takeTrap_wf _ _ h
  · refine later_wf (setCluster_wf ?_)
    exact h

theorem moveOpen_wf {cl old new} : Memory.wf (s.moveOpen cl old new).mem = true := h

theorem flushSlot_wf {cl n key} : Memory.wf (s.flushSlot cl n key).1.mem = true := by
  unfold flushSlot
  extract_lets
  split
  · exact h
  · split
    · exact h
    · refine foldl_wf ?_ (dropFilling_wf h)
      intro s a h
      exact askElsewhere_wf h
  · split
    · exact clearSlot_wf h
    · exact h
  · split
    · exact later_wf (setSlot_wf h)
    · exact h
  · split
    · exact moveOpen_wf h
    · exact h
  · exact h

theorem wakeSlices_wf {cl} : Memory.wf (s.wakeSlices cl).mem = true := foldl_wf (fun h => wakeSlice_wf h) h

theorem endConv_wf : Memory.wf s.endConv.mem = true := by
  unfold endConv
  extract_lets
  exact wakeSlices_wf (setCluster_wf h)

theorem convTurn_wf : Memory.wf s.convTurn.1.mem = true := h

theorem execWayconv_wf {p d i lit} : nextWf (execWayconv p d i lit s) := by
  refine perform_wf h ?_
  intro s h
  split
  · exact trap_wf h
  · extract_lets n
    split
    next s1 mine h1 =>
    replace h1 := fst_wf (convTurn_wf h) h1
    extract_lets c s2 keys
    have h2 : Memory.wf s2.mem = true := by
      dsimp only [s2]
      split
      · exact h1
      · exact later_wf (setCluster_wf h1)
    clear_value s2
    split
    · exact stall_wf h1
    · split
      · exact wx_wf (endConv_wf h1)
      · split
        next s3 stuck h3 =>
        replace h3 : Memory.wf s3.mem = true := by
          refine fst_wf ?_ h3
          refine foldl_fst_wf ?_ ?_
          · exact fun hp => flushSlot_wf hp
          · exact h2
        extract_lets c3 ways c'
        split
        · exact trap_wf (endConv_wf h3)
        · split
          · exact wx_wf (endConv_wf (setCluster_wf h3))
          · exact stall_wf h3

theorem execWayrest_wf {p d i lit} : nextWf (execWayrest p d i lit s) := by
  unfold execWayrest
  extract_lets
  refine perform_wf h ?_
  intro s h
  extract_lets
  split
  · exact trap_wf h
  · split
    extract_lets
    split
    · exact stall_wf (fst_wf (convTurn_wf h) ‹_›)
    · have h1 := fst_wf (convTurn_wf h) ‹_›
      split
      · exact stall_wf h1
      · split
        · exact trap_wf (endConv_wf h1)
        · split
          · exact wx_wf (endConv_wf h1)
          · exact wx_wf (endConv_wf (setCluster_wf h1))

theorem execWayconvPinTimeout_wf {cl} : nextWf (execWayconvPinTimeout cl s) := by
  unfold execWayconvPinTimeout
  extract_lets
  show Memory.wf _ = true
  split
  · split
    · exact h
    · split
      · exact setCluster_wf h
      · exact later_wf h
  · exact h

theorem execWayGate_wf {cl slice way} : nextWf (execWayGate cl slice way s) := by
  unfold execWayGate
  extract_lets keys c busy flush s1 c1
  have h1 : Memory.wf s1.mem = true := by
    refine foldl_wf ?_ h
    intro s k h
    dsimp only [flush]
    split
    · split
      · exact clearSlot_wf (mergeSlot_wf (setSlot_wf h))
      · exact mergeSlot_wf (setSlot_wf h)
    · split
      · exact clearSlot_wf h
      · exact h
  show Memory.wf _ = true
  split
  · exact h
  · split
    · exact setCluster_wf h1
    · exact h1

theorem execWayWake_wf {cl slice way} : nextWf (execWayWake cl slice way s) := by
  unfold execWayWake
  extract_lets
  exact wakeSlice_wf (setCluster_wf h)

theorem scratchWrite_wf {cl o n v} : Memory.wf (s.scratchWrite cl o n v).mem = true :=
  (engine_scratchWrite _ _ _ _ _).wf h

theorem scratchPut_wf {cl o n v} : Memory.wf (s.scratchPut cl o n v).mem = true :=
  foldl_wf (fun h => later_wf h) (scratchWrite_wf h)

theorem execLds_wf {p d a z sx o lit} : nextWf (execLds p d a z sx o lit s) := by
  unfold execLds
  extract_lets
  refine perform_wf h ?_
  intro s h
  extract_lets
  split
  · exact takeTrap_wf _ _ h
  · split
    · exact stall_wf h
    · exact flightBound_wf h

theorem execSts_wf {p d a z o lit} : nextWf (execSts p d a z o lit s) := by
  unfold execSts
  extract_lets
  refine perform_wf h ?_
  intro s h
  extract_lets
  split
  · exact takeTrap_wf _ _ h
  · split
    · exact stall_wf h
    · exact scratchPut_wf h

/-! Machine/Matrix.lean. -/

theorem matrixTrap_wf {reason i1 i2} : Memory.wf (s.matrixTrap reason i1 i2).mem = true := trap_wf h

theorem matrixWord_wf {p op reads} {f : State → State}
    (hf : ∀ {s : State}, Memory.wf s.mem = true → Memory.wf (f s).mem = true) :
    nextWf (s.matrixWord p op reads f) := by
  unfold matrixWord
  refine perform_wf h ?_
  intro s h
  extract_lets
  split
  · exact trap_wf h
  · split
    · exact matrixTrap_wf h
    · exact hf h

theorem setAcc_wf {a t} : Memory.wf (s.setAcc a t).mem = true := h

theorem execMpass_wf {p a wA wB o ka kb} : nextWf (execMpass p a wA wB o ka kb s) := by
  refine matrixWord_wf h ?_
  intro s h
  extract_lets rA rB sl la lb t k f late ps
  split
  · exact matrixTrap_wf h
  · split
    · exact trap_wf h
    · split
      · exact trap_wf h
      · split
        · exact stall_wf h
        · split
          · exact matrixTrap_wf h
          · split
            · exact matrixTrap_wf h
            · split
              · exact matrixTrap_wf h
              · split
                · exact matrixTrap_wf h
                · exact h

theorem execMop_wf {p o} : nextWf (execMop p o s) := by
  unfold execMop
  refine matrixWord_wf h ?_
  intro s h
  extract_lets
  split
  · split
    · exact h
    · exact push_wf h
  · exact push_wf h

theorem execMgath_wf {p v w k} : nextWf (execMgath p v w k s) := by
  refine matrixWord_wf h ?_
  intro s h
  extract_lets r live
  split
  · exact trap_wf h
  · split
    · exact matrixTrap_wf h
    · split
      · next ht => exact takeTrap_wf _ _ (fst_wf (tensor_wf h) ht)
      · next ht => exact trap_wf (fst_wf (tensor_wf h) ht)
      · next ht =>
        have h1 := fst_wf (tensor_wf h) ht
        split
        · exact takeTrap_wf _ _ h1
        · split
          · exact stall_wf h1
          · split
            · exact stall_wf h1
            · extract_lets s2
              have h2 : Memory.wf s2.mem = true := push_wf h1
              exact h2

theorem execMinit_wf {p a sel i x} : nextWf (execMinit p a sel i x s) := by
  unfold execMinit
  extract_lets
  refine matrixWord_wf h ?_
  intro s h
  extract_lets
  split
  · exact matrixTrap_wf h
  · split
    · exact matrixTrap_wf h
    · exact setAcc_wf h

theorem execMrd_wf {p a row t v k} : nextWf (execMrd p a row t v k s) := by
  unfold execMrd
  refine matrixWord_wf h ?_
  intro s h
  extract_lets
  split
  · exact matrixTrap_wf h
  · split
    · split
      extract_lets
      refine wvShared_wf ?_
      exact h
    · refine wvShared_wf ?_
      exact h

theorem execMwr_wf {p a row t v k} : nextWf (execMwr p a row t v k s) := by
  unfold execMwr
  extract_lets
  refine matrixWord_wf h ?_
  intro s h
  extract_lets
  split
  · exact matrixTrap_wf h
  · split
    · exact matrixTrap_wf h
    · exact setAcc_wf h

theorem execMst_wf {p a w q} : nextWf (execMst p a w q s) := by
  unfold execMst
  refine matrixWord_wf h ?_
  intro s h
  extract_lets
  split
  · exact matrixTrap_wf h
  · split
    · exact trap_wf h
    · split
      · exact trap_wf h
      · split
        · exact matrixTrap_wf h
        · extract_lets
          split
          · exact stall_wf h
          · split
            extract_lets
            refine later_wf ?_
            exact h

theorem execMstComplete_wf {c} : nextWf (execMstComplete c s) := by
  unfold execMstComplete
  extract_lets
  exact setCtx_wf h

theorem execMpassLands_wf {c} : nextWf (execMpassLands c s) := by
  unfold execMpassLands
  extract_lets
  exact setCtx_wf h

end Sys2Proof.Machine.State
end

