-- ==== Sys2Proof/Proofs/CanonicalTasks.lean ====
section
/-! Memory stays canonical under saved members, tokens, barriers, task queues and graphs:
one lemma an operation, each from those of the operations that it is made of. -/

namespace Sys2Proof.Machine.State

variable {s : State} (h : Memory.wf s.mem = true)
include h

/-! Machine/Save.lean. -/

theorem putHolder_wf {holder x} : Memory.wf (s.putHolder holder x).mem = true := by
  unfold putHolder
  split
  · exact setCtx_wf h
  · split
    · exact h
    · split
      · exact h
      · extract_lets
        split
        · exact writeRecord_wf _ _ _ (setEntry_wf h)
        · exact later_wf (writeRecord_wf _ _ _ (setEntry_wf h))

theorem endFlight_wf {id r} : Memory.wf (s.endFlight id r).mem = true := by
  unfold endFlight
  split
  · exact closeAccess_wf h
  · exact closeAccess_wf (putHolder_wf h)

theorem haltCtx_wf {c reason} : Memory.wf (s.haltCtx c reason).mem = true := by
  unfold haltCtx
  extract_lets
  exact switch_wf (haltAt_wf (switch_wf h))

theorem resumeCtx_wf {c} : Memory.wf (s.resumeCtx c).mem = true := by
  unfold resumeCtx
  extract_lets
  split
  · exact h
  · exact setCtx_wf h

theorem dbgWrite_wf {c v} : Memory.wf (s.dbgWrite c v).mem = true := by
  unfold dbgWrite
  extract_lets
  split
  · exact resumeCtx_wf (setCtx_wf h)
  · exact setCtx_wf h

theorem windowWrite_wf {c o n v} : Memory.wf (s.windowWrite c o n v).mem = true := by
  unfold windowWrite
  extract_lets
  split
  · exact h
  · split
    · exact h
    · exact setCtx_wf h

theorem execDbgctlHaltreq_wf {c} : nextWf (execDbgctlHaltreq c s) := by
  unfold execDbgctlHaltreq
  extract_lets
  show Memory.wf _ = true
  split
  · exact h
  · exact setCtx_wf h

theorem execDbgctlStep_wf {c} : nextWf (execDbgctlStep c s) := by
  unfold execDbgctlStep
  extract_lets
  show Memory.wf _ = true
  split
  · exact resumeCtx_wf (setCtx_wf h)
  · exact h

theorem execDebugHalt_wf {c reason} : nextWf (execDebugHalt c reason s) := by
  unfold execDebugHalt
  extract_lets
  show Memory.wf _ = true
  split
  · exact h
  · split
    · exact setCtx_wf h
    · exact haltCtx_wf h

/-! Machine/Token.lean. -/

theorem mapNode_wf {b f} : Memory.wf (s.mapNode b f).mem = true := h

theorem tellPeer_wf {f cause v} : Memory.wf (s.tellPeer f cause v).mem = true := by
  unfold tellPeer
  extract_lets
  exact send_wf h

theorem tokenTaken_wf {u v} : Memory.wf (s.tokenTaken u v).mem = true := by
  unfold tokenTaken
  split
  · split
    · exact endFlight_wf h
    · exact h
  · exact later_wf (mapNode_wf h)
  · exact tellPeer_wf h

theorem tokenFailed_wf {u cause} : Memory.wf (s.tokenFailed u cause).mem = true := by
  unfold tokenFailed
  split
  · extract_lets
    exact endFlight_wf h
  · exact later_wf (mapNode_wf h)
  · exact tellPeer_wf h

theorem tokenTry_wf {w} : Memory.wf (s.tokenTry w).1.mem = true := by
  unfold tokenTry
  extract_lets
  split <;> exact fst_wf (atomicHome_wf h) ‹_›

theorem tokenServe_wf {gpa fuel} : Memory.wf (s.tokenServe gpa fuel).mem = true := by
  induction fuel generalizing s with
  | zero => exact h
  | succ n ih =>
    unfold tokenServe
    split
    · exact h
    · split
      · exact fst_wf (tokenTry_wf h) ‹_›
      · exact later_wf (fst_wf (tokenTry_wf h) ‹_›)
      · exact later_wf (fst_wf (tokenTry_wf h) ‹_›)
      · next hr =>
        have h1 := fst_wf (tokenTry_wf h) hr
        extract_lets src s1 s2
        have h2 : Memory.wf s1.mem = true := h1
        refine ih ?_
        dsimp only [s2]
        split
        · exact tokenTaken_wf h2
        · exact tokenFailed_wf h2
        · exact h2
        · exact h2

theorem tokenAdd_wf {core k gpa n} : Memory.wf (s.tokenAdd core k gpa n).1.mem = true := by
  unfold tokenAdd
  split
  · refine tokenServe_wf ?_
    extract_lets
    split
    · exact log_wf (fst_wf (atomicHome_wf h) ‹_›)
    · exact fst_wf (atomicHome_wf h) ‹_›
  · exact fst_wf (atomicHome_wf h) ‹_›

theorem askToken_wf {w u} : Memory.wf (s.askToken w u).mem = true := by
  unfold askToken
  extract_lets
  refine send_wf ?_
  exact h

theorem tokenArrive_wf {w wait} : Memory.wf (s.tokenArrive w wait).mem = true := by
  unfold tokenArrive
  split
  · exact tokenTaken_wf (fst_wf (tokenTry_wf h) ‹_›)
  · exact tokenFailed_wf (fst_wf (tokenTry_wf h) ‹_›)
  · next hr =>
    have h1 := fst_wf (tokenTry_wf h) hr
    refine later_wf ?_
    exact h1
  · next hr =>
    have h1 := fst_wf (tokenTry_wf h) hr
    refine later_wf ?_
    exact h1
  · next hr =>
    have h1 := fst_wf (tokenTry_wf h) hr
    extract_lets
    split
    · refine later_wf ?_
      exact h1
    · refine later_wf ?_
      exact h1

theorem writeFailed_wf {kind c access va header cause sets logIt lane} :
    Memory.wf (s.writeFailed kind c access va header cause sets logIt lane).mem = true := by
  unfold writeFailed
  dsimp only
  refine closeAccess_wf ?_
  refine reportFail_wf ?_
  split
  · exact logCtx_wf h
  · exact h

theorem tokenWord_wf {va} : Memory.wf (s.tokenWord va).1.mem = true := by
  unfold tokenWord
  split
  · exact fst_wf (xlat_wf h) ‹_›
  · split
    · exact fst_wf (xlat_wf h) ‹_›
    · split <;> exact fst_wf (xlat_wf h) ‹_›

theorem execToksig_wf {p a b} : nextWf (execToksig p a b s) := by
  unfold execToksig
  refine perform_wf h ?_
  intro s h
  extract_lets
  split
  · exact takeTrap_wf _ _ h
  · split
    · exact trap_wf h
    · split
      · exact takeTrap_wf _ _ (fst_wf (tokenWord_wf h) ‹_›)
      · have h1 := fst_wf (tokenWord_wf h) ‹_›
        split
        · exact stall_wf h1
        · split
          · split
            exact send_wf (snd_wf (openAccess_wf h1) ‹_›)
          · split
            · exact stall_wf (fst_wf (tokenAdd_wf h1) ‹_›)
            · exact stall_wf (fst_wf (tokenAdd_wf h1) ‹_›)
            · split
              exact writeFailed_wf (snd_wf (openAccess_wf (fst_wf (tokenAdd_wf h1) ‹_›)) ‹_›)
            · exact fst_wf (tokenAdd_wf h1) ‹_›

theorem execTokenWaitRetry_wf {id wait} : nextWf (execTokenWaitRetry id wait s) := by
  unfold execTokenWaitRetry
  extract_lets
  show Memory.wf _ = true
  split
  · exact h
  · refine tokenArrive_wf ?_
    exact h

theorem execTokenReexamine_wf {gpa} : nextWf (execTokenReexamine gpa s) := by
  unfold execTokenReexamine
  extract_lets
  show Memory.wf _ = true
  split
  · exact later_wf (tokenServe_wf h)
  · exact tokenServe_wf h

/-! Machine/Barrier.lean. -/

theorem noteBarrier_wf {cl off} : Memory.wf (s.noteBarrier cl off).mem = true := h

theorem setBarrier_wf {cl off b} : Memory.wf (s.setBarrier cl off b).mem = true := h

theorem endWait_wf {cl w v} : Memory.wf (s.endWait cl w v).mem = true := by
  unfold endWait
  extract_lets
  split
  · exact endFlight_wf (setCluster_wf h)
  · exact setCluster_wf h

theorem releaseWaiters_wf {cl off v all} : Memory.wf (s.releaseWaiters cl off v all).mem = true :=
  foldl_wf (fun h => endWait_wf h) h

theorem barrierTest_wf {cl off} : Memory.wf (s.barrierTest cl off).mem = true := by
  unfold barrierTest
  extract_lets
  split
  · exact releaseWaiters_wf (setBarrier_wf h)
  · exact h

theorem barrierFault_wf {cl off cause copy overflow} :
    Memory.wf (s.barrierFault cl off cause copy overflow).mem = true := by
  unfold barrierFault
  extract_lets
  exact releaseWaiters_wf (setBarrier_wf h)

theorem barrierOverflow_wf {cl off} : Memory.wf (s.barrierOverflow cl off).mem = true := barrierFault_wf h

theorem barrierAdd_wf {cl off n} : Memory.wf (s.barrierAdd cl off n).mem = true := by
  unfold barrierAdd
  extract_lets
  split
  · exact h
  · split
    · exact barrierOverflow_wf h
    · exact barrierTest_wf (setBarrier_wf h)

theorem barrierPay_wf {cl off n} : Memory.wf (s.barrierPay cl off n).mem = true := by
  unfold barrierPay
  extract_lets
  split
  · exact h
  · split
    · exact barrierOverflow_wf h
    · exact barrierTest_wf (setBarrier_wf h)

theorem barrierArrive_wf {cl off} : Memory.wf (s.barrierArrive cl off).mem = true := by
  unfold barrierArrive
  extract_lets
  split
  · exact barrierOverflow_wf h
  · exact barrierTest_wf (setBarrier_wf h)

theorem onBarrier_wf {a w} {f : State → Nat → State}
    (hf : ∀ {s : State} {n}, Memory.wf s.mem = true → Memory.wf (f s n).mem = true) :
    Memory.wf (s.onBarrier a w f).mem = true := by
  unfold onBarrier
  extract_lets
  split
  · exact takeTrap_wf _ _ h
  · exact hf h

theorem setCopy_wf {cl j} : Memory.wf (s.setCopy cl j).mem = true := h

theorem endCopy_wf {cl id} : Memory.wf (s.endCopy cl id).mem = true := h

theorem stopCopy_wf {cl id} : Memory.wf (s.stopCopy cl id).mem = true := by
  unfold stopCopy
  split
  · exact h
  · split
    · exact endCopy_wf (barrierFault_wf (log_wf h))
    · exact h

theorem failCopy_wf {cl id cause addr} : Memory.wf (s.failCopy cl id cause addr).mem = true := by
  unfold failCopy
  split
  · exact h
  · exact stopCopy_wf (setCopy_wf h)

theorem unitFailed_wf {cl id k cause addr} : Memory.wf (s.unitFailed cl id k cause addr).mem = true := by
  unfold unitFailed
  split
  · exact h
  · exact failCopy_wf (setCopy_wf h)

theorem landCopy_wf {cl id k n} : Memory.wf (s.landCopy cl id k n).mem = true := by
  unfold landCopy
  split
  · exact h
  · extract_lets
    split
    · exact endCopy_wf (barrierPay_wf (setCopy_wf h))
    · exact stopCopy_wf (barrierPay_wf (setCopy_wf h))

theorem copyLine_wf {cl id l va key f} : Memory.wf (s.copyLine cl id l va key f).mem = true := by
  unfold copyLine
  split
  · exact h
  · split
    · exact setCopy_wf (fst_wf (ingress_wf h) ‹_›)
    · exact failCopy_wf (fst_wf (ingress_wf h) ‹_›)

theorem execBinit_wf {p a b} : nextWf (execBinit p a b s) := by
  unfold execBinit
  refine perform_wf h ?_
  intro s h
  refine onBarrier_wf h ?_
  intro s a h
  extract_lets
  split
  · exact trap_wf h
  · exact scratchPut_wf (noteBarrier_wf h)

theorem execBarrive_wf {p a} : nextWf (execBarrive p a s) := by
  unfold execBarrive
  refine perform_wf h ?_
  intro s h
  refine onBarrier_wf h ?_
  intro s a h
  extract_lets
  split
  · exact stall_wf h
  · exact barrierArrive_wf h

theorem execBwait_wf {p q a b} : nextWf (execBwait p q a b s) := by
  unfold execBwait
  refine perform_wf h ?_
  intro s h
  refine onBarrier_wf h ?_
  intro s a h
  extract_lets
  split
  · exact flightBound_wf h
  · split
    next ho =>
    have h1 := snd_wf (openAccess_wf h) ho
    extract_lets cx s1 c tabled s2
    have h2 : Memory.wf s2.mem = true := by
      refine setCluster_wf ?_
      exact h1
    split
    · exact h2
    · exact later_wf h2

theorem execBtest_wf {p d a high} : nextWf (execBtest p d a high s) := by
  unfold execBtest
  refine perform_wf h ?_
  intro s h
  refine onBarrier_wf h ?_
  intro s a h
  extract_lets
  exact wx_wf h

theorem execBreset_wf {p a} : nextWf (execBreset p a s) := by
  unfold execBreset
  refine perform_wf h ?_
  intro s h
  refine onBarrier_wf h ?_
  intro s a h
  extract_lets
  split
  · exact stall_wf h
  · exact releaseWaiters_wf (setBarrier_wf h)

theorem execBwaitPoll_wf {c id} : nextWf (execBwaitPoll c id s) := by
  unfold execBwaitPoll
  extract_lets
  show Memory.wf _ = true
  split
  · exact h
  · split
    · split
      · extract_lets
        split
        · exact endWait_wf h
        · split
          · exact h
          · exact later_wf (setCluster_wf h)
      · exact h
    · exact h

/-! Machine/Lantern.lean. -/

theorem readMaps_wf {cl d m fuel} : Memory.wf (s.readMaps cl d m fuel).1.mem = true := by
  induction fuel generalizing s m with
  | zero =>
    exact h
  | succ n ih =>
    unfold readMaps
    extract_lets
    split
    · exact fst_wf (readVa_wf h) ‹_›
    · have h1 := fst_wf (readVa_wf h) ‹_›
      extract_lets
      split
      · exact h1
      · split
        · exact fst_wf (ih h1) ‹_›
        · exact ih h1

theorem mapInputs_wf {cl d m rest} : Memory.wf (s.mapInputs cl d m rest).1.mem = true := by
  induction rest generalizing s m with
  | nil =>
    exact h
  | cons a l ih =>
    unfold mapInputs
    extract_lets
    split
    · exact fst_wf (tensorWord_wf h) ‹_›
    · exact fst_wf (tensorWord_wf h) ‹_›
    · have h1 := fst_wf (tensorWord_wf h) ‹_›
      split
      · exact h1
      · split
        · exact h1
        · split
          · exact fst_wf (ih h1) ‹_›
          · exact ih h1

theorem evaluate_wf {cl k} : Memory.wf (s.evaluate cl k).mem = true := by
  unfold evaluate
  split
  · exact h
  · split
    · exact setEntry_wf h
    · split
      · exact setEntry_wf (fst_wf (readMaps_wf h) ‹_›)
      · split <;> exact setEntry_wf (fst_wf (mapInputs_wf (fst_wf (readMaps_wf h) ‹_›)) ‹_›)

theorem requestInput_wf {cl k m} : Memory.wf (s.requestInput cl k m).mem = true := by
  unfold requestInput
  split
  · exact h
  · split
    · exact h
    · extract_lets
      split
      · exact h
      · split
        · extract_lets
          exact later_wf (setEntry_wf (hitSlot_wf h))
        · exact later_wf (requestTile_wf (setEntry_wf h))

theorem sendInputs_wf {cl} : Memory.wf (s.sendInputs cl).mem = true :=
  foldl_wf (fun h => foldl_wf (fun h => requestInput_wf h) h) h

theorem pinAll_wf {cl keys} {t} (e : s.pinAll cl keys = some t) : Memory.wf t.mem = true := by
  induction keys generalizing s with
  | nil =>
    unfold pinAll at e
    cases e
    exact h
  | cons a l ih =>
    unfold pinAll at e
    obtain ⟨_, _, e⟩ := Option.bind_eq_some_iff.1 e
    exact ih (pin_wf h ‹_›) e

theorem forgetEntry_wf {cl k} : Memory.wf (s.forgetEntry cl k).mem = true := forget_wf h

theorem readyCheck_wf {cl k} : Memory.wf (s.readyCheck cl k).mem = true := by
  unfold readyCheck
  dsimp only
  split
  · exact h
  · split
    · exact h
    · split
      · split
        · exact later_wf (setEntry_wf (forgetEntry_wf h))
        · exact later_wf (later_wf (setEntry_wf (forgetEntry_wf h)))
      · split
        · split
          · split
            · exact later_wf (setEntry_wf h)
            · exact later_wf (later_wf (setEntry_wf h))
          · exact later_wf (setEntry_wf h)
        · split
          · exact h
          · split
            · exact sendInputs_wf (setEntry_wf h)
            · split
              · split
                · split
                  · exact later_wf (setEntry_wf (pinAll_wf h ‹_›))
                  · exact later_wf (later_wf (setEntry_wf (pinAll_wf h ‹_›)))
                · exact later_wf (setEntry_wf (pinAll_wf h ‹_›))
              · exact later_wf h

theorem accept_wf {cl k d addr g} : Memory.wf (s.accept cl k d addr g).mem = true := by
  unfold accept
  extract_lets
  exact readyCheck_wf (sendInputs_wf (evaluate_wf (setEntry_wf h)))

theorem bindInputs_wf {cl i inputs w} {t r} (e : s.bindInputs cl i inputs w = some (t, r)) :
    Memory.wf t.mem = true := by
  induction inputs generalizing s i w with
  | nil =>
    cases e
    exact h
  | cons x rest ih =>
    unfold bindInputs at e
    split at e
    · split at e
      · exact ih (pin_wf h ‹_›) e
      · cases e
        exact pin_wf h ‹_›
    · cases e
    · exact ih h e

theorem unreserve_wf {id l} : Memory.wf (s.unreserve id l).mem = true := by
  unfold unreserve
  refine foldl_wf ?_ h
  intro s a h
  extract_lets
  split
  · exact setCtx_wf h
  · exact h

theorem trapAt_wf {c f} : Memory.wf (s.trapAt c f).mem = true := by
  unfold trapAt
  dsimp only
  refine switch_wf ?_
  refine takeTrap_wf _ _ ?_
  refine switch_wf ?_
  split
  · exact unpin_wf h
  · exact h

theorem dispatchFresh_wf {cl k entry} {t} (e : s.dispatchFresh cl k entry = some t) : Memory.wf t.mem = true := by
  unfold dispatchFresh at e
  dsimp only at e
  split at e
  · cases e
  · obtain ⟨_, _, e⟩ := Option.bind_eq_some_iff.1 e
    obtain ⟨_, _, e⟩ := Option.bind_eq_some_iff.1 e
    obtain ⟨⟨u, w⟩, hu, rfl⟩ := Option.map_eq_some_iff.1 e
    have hu' := bindInputs_wf h hu
    dsimp only
    split
    · exact trapAt_wf (unreserve_wf (setEntry_wf (setCtx_wf (setCluster_wf hu'))))
    · exact unreserve_wf (setEntry_wf (setCtx_wf (setCluster_wf hu')))

theorem withdraw_wf {c} : Memory.wf (s.withdraw c).mem = true := by
  unfold withdraw
  extract_lets x cl mine s1 c0 s2 s3 s4 here s5 y cz conv
  have h1 : Memory.wf s1.mem = true := by
    dsimp only [s1]
    split
    · exact unpin_wf h
    · exact h
  have h3 : Memory.wf s3.mem = true := h1
  have h4 : Memory.wf s4.mem = true := by
    dsimp only [s4]
    split
    · split
      · refine later_wf ?_
        split
        · exact wakeSlice_wf (clearSlot_wf h3)
        · exact h3
      · split
        · exact wakeSlice_wf (clearSlot_wf h3)
        · exact h3
    · exact h3
  have h5 : Memory.wf s5.mem = true := by
    dsimp only [s5]
    split
    · exact switch_wf (unholdSpin_wf (switch_wf h4))
    · exact h4
  exact wakeSlices_wf (setCluster_wf (setCtx_wf h5))

theorem withdrawWaits_wf {c} : Memory.wf (s.withdrawWaits c).mem = true := by
  unfold withdrawWaits
  extract_lets
  refine foldl_wf ?_ h
  intro s a h
  extract_lets
  split
  · extract_lets
    split
    · exact h
    · exact send_wf h
  · exact setCluster_wf h
  · exact h

theorem freeContext_wf {c} : Memory.wf (s.freeContext c).mem = true := by
  unfold freeContext
  extract_lets
  exact setCtx_wf h

theorem saveMember_wf {cl k c record} : Memory.wf (s.saveMember cl k c record).mem = true := by
  unfold saveMember
  extract_lets
  split
  · exact withdrawWaits_wf (withdraw_wf h)
  · extract_lets
    refine freeContext_wf ?_
    refine dropAgenda_wf ?_
    refine foldl_wf ?_ (writeRecord_wf _ _ _ (setCluster_wf (setEntry_wf (withdrawWaits_wf (withdraw_wf h)))))
    intro s a h
    exact unpin_wf h

theorem retainTask_wf {cl k} : Memory.wf (s.retainTask cl k).mem = true := by
  unfold retainTask
  split
  · exact h
  · extract_lets
    exact foldl_wf (fun h => unpin_wf h) (setEntry_wf h)

theorem logPreempted_wf {cl k} : Memory.wf (s.logPreempted cl k).mem = true := by
  unfold logPreempted
  split
  · exact h
  · extract_lets
    exact log_wf h

theorem reacquire_wf {cl k} : Memory.wf (s.reacquire cl k).mem = true := by
  unfold reacquire
  split
  · exact h
  · refine foldl_wf ?_ h
    intro s a h
    extract_lets
    split
    · exact h
    · extract_lets
      split
      · exact h
      · split
        · exact serveUser_wf h
        · exact requestTile_wf h

theorem repin_wf {cl k} : Memory.wf (s.repin cl k).mem = true := by
  unfold repin
  split
  · exact h
  · refine foldl_wf ?_ h
    intro s a h
    extract_lets
    split
    · exact h
    · split
      · exact h
      · split
        · exact serveUser_wf h
        · exact h

theorem handMerge_wf {c core ln} : Memory.wf (s.handMerge c core ln).mem = true := by
  unfold handMerge
  split
  · exact h
  · split
    split
    · exact mergeFailed_wf (fst_wf (mergeLineTo_wf (snd_wf (newId_wf h) ‹_›)) ‹_›)
    · extract_lets
      split
      · exact fst_wf (mergeLineTo_wf (snd_wf (newId_wf h) ‹_›)) ‹_›
      · exact setCtx_wf (fst_wf (mergeLineTo_wf (snd_wf (newId_wf h) ‹_›)) ‹_›)

theorem handOver_wf {c sp old new} : Memory.wf (s.handOver c sp old new).mem = true := by
  unfold handOver
  extract_lets
  split
  · exact h
  · refine foldl_wf ?_ ?_
    · intro s a h
      extract_lets
      split
      · exact dropLine_wf (handMerge_wf h)
      · exact h
    · refine foldl_wf ?_ h
      intro s a h
      extract_lets
      split
      · exact putLine_wf (handMerge_wf h)
      · exact h

theorem restoreMember_wf {cl k idx c y rt} : Memory.wf (s.restoreMember cl k idx c y rt).mem = true := by
  unfold restoreMember
  extract_lets a x1 dbg x3 x4 x5 s1 cz s2 s3 s4
  have h2 : Memory.wf s2.mem = true := setCluster_wf (handOver_wf (setCtx_wf h))
  have h3 : Memory.wf s3.mem = true := by
    dsimp only [s3]
    split
    · exact setEntry_wf h2
    · exact h2
  have h4 : Memory.wf s4.mem = true := by
    dsimp only [s4]
    split
    · exact later_wf h3
    · exact h3
  clear_value s4
  refine foldl_wf ?_ h4
  intro s f h
  split
  · extract_lets here s5 s6
    have h5 : Memory.wf s5.mem = true := switch_wf h
    clear_value s5
    refine switch_wf ?_
    dsimp only [s6]
    split
    · split
      · exact tokenArrive_wf (fst_wf (xlat_wf h5) ‹_›)
      · exact askToken_wf (fst_wf (xlat_wf h5) ‹_›)
    · exact endFlight_wf (fst_wf (xlat_wf h5) ‹_›)
  · exact later_wf (setCluster_wf h)
  · exact h

theorem dispatchSaved_wf {cl k entry} {t} (e : s.dispatchSaved cl k entry = some t) : Memory.wf t.mem = true := by
  unfold dispatchSaved at e
  dsimp only at e
  split at e
  · cases e
  · obtain ⟨_, _, e⟩ := Option.bind_eq_some_iff.1 e
    obtain ⟨_, _, rfl⟩ := Option.map_eq_some_iff.1 e
    split
    · split
      · refine trapAt_wf ?_
        refine unreserve_wf ?_
        refine foldl_wf ?_ (dropAgenda_wf (setEntry_wf (pinAll_wf h ‹_›)))
        intro s a h
        extract_lets
        split
        · exact restoreMember_wf h
        · exact h
      · refine unreserve_wf ?_
        refine foldl_wf ?_ (dropAgenda_wf (setEntry_wf (pinAll_wf h ‹_›)))
        intro s a h
        extract_lets
        split
        · exact restoreMember_wf h
        · exact h
    · refine unreserve_wf ?_
      refine foldl_wf ?_ (dropAgenda_wf (setEntry_wf (pinAll_wf h ‹_›)))
      intro s a h
      extract_lets
      split
      · exact restoreMember_wf h
      · exact h

theorem dispatchOne_wf {cl} : Memory.wf (s.dispatchOne cl).mem = true := by
  unfold dispatchOne
  extract_lets try_ s0 go
  clear_value s0
  have hgo : ∀ {s : State}, Memory.wf s.mem = true → Memory.wf (go s).mem = true := by
    intro s h
    dsimp only [go]
    split
    · exact later_wf h
    · exact h
  have htry : ∀ {k e t}, try_ k e = some t → Memory.wf t.mem = true := by
    intro k e t ht
    dsimp only [try_] at ht
    split at ht
    · exact dispatchFresh_wf h ht
    · exact dispatchSaved_wf h ht
  split
  · exact later_wf h
  · split
    · next hs =>
      obtain ⟨_, _, hs⟩ := List.exists_of_findSome?_eq_some hs
      exact later_wf (hgo (setCluster_wf (htry hs)))
    · refine hgo ?_
      split
      · exact later_wf h
      · exact h

theorem failInstance_wf {b reason} : Memory.wf (s.failInstance b reason).mem = true := by
  unfold failInstance
  extract_lets
  split
  · exact h
  · exact later_wf (log_wf (setDie_wf h))

theorem countFailed_wf {cl sp va id g cause} : Memory.wf (s.countFailed cl sp va id g cause).mem = true := by
  unfold countFailed
  extract_lets
  split
  · exact failInstance_wf (log_wf h)
  · exact log_wf h

theorem countDone_wf {cl sp va id g} : Memory.wf (s.countDone cl sp va id g).1.mem = true := by
  unfold countDone
  split
  · exact h
  · split
    · exact countFailed_wf h
    · split
      · exact fst_wf (engineAtomic_wf h) ‹_›
      · exact countFailed_wf (fst_wf (engineAtomic_wf h) ‹_›)
      · exact fst_wf (engineAtomic_wf h) ‹_›

theorem freeEntryOf_wf {cl k} : Memory.wf (s.freeEntryOf cl k).mem = true := by
  unfold freeEntryOf
  dsimp only
  split
  · exact h
  · refine setCluster_wf ?_
    refine foldl_wf ?_ ?_
    · intro s a h
      refine foldl_wf ?_ h
      intro s a h
      split
      · exact unpin_wf h
      · exact h
    · refine foldl_wf ?_ (forgetEntry_wf h)
      intro s a h
      split
      · exact unpin_wf h
      · exact h

theorem endContext_wf {c} : Memory.wf (s.endContext c).mem = true := by
  unfold endContext
  extract_lets
  refine freeContext_wf ?_
  refine switch_wf ?_
  refine dropAgenda_wf ?_
  refine foldl_wf ?_ ?_
  · intro s a h
    extract_lets
    split
    exact logCtx_wf h
  · refine foldl_wf ?_ (switch_wf (withdrawWaits_wf (withdraw_wf h)))
    intro s a h
    exact releaseStream_wf h

theorem abandonTask_wf {cl k} : Memory.wf (s.abandonTask cl k).mem = true := by
  unfold abandonTask
  split
  · exact h
  · exact later_wf (freeEntryOf_wf (foldl_wf (fun h => endContext_wf h) h))

theorem execLanternAccept_wf {cl desc addr graph} : nextWf (execLanternAccept cl desc addr graph s) := by
  unfold execLanternAccept
  extract_lets
  show Memory.wf _ = true
  split
  · exact log_wf (entryReady_wf h)
  · split
    · exact later_wf (entryReady_wf h)
    · exact accept_wf (entryReady_wf h)

theorem execClassAgeing_wf {cl entry} : nextWf (execClassAgeing cl entry s) := by
  unfold execClassAgeing
  show Memory.wf _ = true
  split
  · split
    · exact setEntry_wf h
    · exact h
  · exact h

theorem execClass0PreemptDecision_wf {cl entry} : nextWf (execClass0PreemptDecision cl entry s) := by
  unfold execClass0PreemptDecision
  dsimp only
  show Memory.wf _ = true
  split
  · exact h
  · split
    · exact h
    · split
      · exact h
      · split
        · exact h
        · exact foldl_wf (fun h => later_wf h) (setEntry_wf h)

theorem execMemberEnd_wf {c} : nextWf (execMemberEnd c s) := by
  unfold execMemberEnd
  extract_lets
  show Memory.wf _ = true
  split
  · exact h
  · split
    · exact later_wf h
    · split
      · exact endContext_wf h
      · extract_lets
        split
        · exact endContext_wf h
        · split
          · exact later_wf (readyCheck_wf (sendInputs_wf (evaluate_wf (setEntry_wf (endContext_wf h)))))
          · split
            · exact later_wf (setEntry_wf (endContext_wf h))
            · split
              · exact later_wf (fst_wf (countDone_wf h) ‹_›)
              · exact later_wf (freeEntryOf_wf (endContext_wf (fst_wf (countDone_wf h) ‹_›)))

theorem execPreemption_wf {cl entry} : nextWf (execPreemption cl entry s) := by
  unfold execPreemption
  dsimp only
  show Memory.wf _ = true
  split
  · exact h
  · split
    · exact h
    · split
      · exact h
      · split
        · exact later_wf h
        · refine later_wf ?_
          refine later_wf ?_
          refine dropAgenda_wf ?_
          refine logPreempted_wf ?_
          split
          · exact setEntry_wf (retainTask_wf (foldl_wf (fun h => saveMember_wf h) h))
          · exact retainTask_wf (foldl_wf (fun h => saveMember_wf h) h)

theorem execSaveRecordComplete_wf {cl entry} : nextWf (execSaveRecordComplete cl entry s) := by
  unfold execSaveRecordComplete
  show Memory.wf _ = true
  split
  · exact h
  · extract_lets
    split
    · exact h
    · split
      · exact later_wf h
      · split
        · refine foldl_wf ?_ h
          intro s a h
          exact writeRecord_wf _ _ _ h
        · refine later_wf ?_
          refine reacquire_wf ?_
          refine foldl_wf ?_ h
          intro s a h
          exact writeRecord_wf _ _ _ h

theorem execTaskResume_wf {cl entry} : nextWf (execTaskResume cl entry s) := by
  unfold execTaskResume
  dsimp only
  show Memory.wf _ = true
  split
  · exact h
  · split
    · exact h
    · split
      · split
        · exact later_wf h
        · refine dispatchOne_wf ?_
          split
          · exact setEntry_wf h
          · exact later_wf (setEntry_wf h)
      · exact repin_wf h

theorem execSpawn_wf {p b c a} : nextWf (execSpawn p b c a s) := by
  unfold execSpawn
  extract_lets
  refine perform_wf h ?_
  intro s h
  extract_lets
  split
  · exact trap_wf h
  · split
    · exact trap_wf h
    · split
      · exact trap_wf h
      · split
        · exact stall_wf h
        · extract_lets
          exact setTaskEntry_wf (setCtx_wf (bindInputs_wf h ‹_›))

/-! Machine/Beacon.lean. -/

theorem readNode_wf {b sp} : Memory.wf (s.readNode b sp).1.mem = true := by
  unfold readNode
  split <;> exact fst_wf (readVa_wf h) ‹_›

theorem setInst_wf {die i} : Memory.wf (s.setInst die i).mem = true := h

theorem setLevel_wf {b l} : Memory.wf (s.setLevel b l).mem = true := by
  unfold setLevel
  split
  · exact setInst_wf h
  · exact h

theorem wakeNode_wf {b} : Memory.wf (s.wakeNode b).mem = true := by
  unfold wakeNode
  split
  · exact h
  · split
    · exact failInstance_wf (fst_wf (readNode_wf h) ‹_›)
    · split <;> exact later_wf (fst_wf (readNode_wf h) ‹_›)

theorem readyNode_wf {b} : Memory.wf (s.readyNode b).mem = true := by
  unfold readyNode
  split
  · split
    · exact h
    · split
      · exact failInstance_wf (fst_wf (readNode_wf h) ‹_›)
      · have h1 := fst_wf (readNode_wf h) ‹_›
        split
        · exact h1
        · split
          · exact failInstance_wf h1
          · exact wakeNode_wf (mapNode_wf h1)
  · exact h

theorem arrive_wf {b count} : Memory.wf (s.arrive b count).mem = true := by
  unfold arrive
  extract_lets
  split
  · exact h
  · extract_lets
    split
    · exact failInstance_wf h
    · split
      · extract_lets
        exact readyNode_wf (mapNode_wf h)
      · split
        · exact later_wf (setLevel_wf h)
        · exact readyNode_wf (setLevel_wf h)

theorem admitNodes_wf {die} : Memory.wf (s.admitNodes die).mem = true := by
  unfold admitNodes
  refine foldl_wf ?_ h
  intro s a h
  extract_lets
  split
  · split
    · exact readyNode_wf (mapNode_wf h)
    · exact h
  · exact h

theorem openLevel_wf {b body} : Memory.wf (s.openLevel b body).mem = true := by
  unfold openLevel
  split
  · extract_lets
    split
    · exact failInstance_wf h
    · exact arrive_wf (setInst_wf h)
  · exact h

theorem startInstance_wf {die sp klass node done} :
    Memory.wf (s.startInstance die sp klass node done).1.mem = true := by
  unfold startInstance
  extract_lets
  split
  · exact h
  · exact arrive_wf (setDie_wf (newId_wf h))

theorem readList_wf {b sp a fuel} : Memory.wf (s.readList b sp a fuel).1.mem = true := by
  induction fuel generalizing s a with
  | zero =>
    exact h
  | succ n ih =>
    unfold readList
    split
    · exact fst_wf (readVa_wf h) ‹_›
    · split
      · exact fst_wf (ih (fst_wf (readVa_wf h) ‹_›)) ‹_›
      · exact ih (fst_wf (readVa_wf h) ‹_›)

theorem endCheck_wf {b} : Memory.wf (s.endCheck b).mem = true := by
  unfold endCheck
  split
  · split
    · split
      · exact later_wf h
      · exact h
    · exact h
  · exact h

theorem finishTo_wf {b succ} : Memory.wf (s.finishTo b succ).mem = true := by
  unfold finishTo
  extract_lets
  refine endCheck_wf ?_
  refine foldl_wf ?_ (admitNodes_wf (mapNode_wf h))
  intro s a h
  extract_lets
  split
  · exact h
  · exact arrive_wf h

theorem finishAll_wf {b sp n} : Memory.wf (s.finishAll b sp n).mem = true := by
  unfold finishAll
  split
  · exact failInstance_wf (fst_wf (readList_wf h) ‹_›)
  · exact finishTo_wf (fst_wf (readList_wf h) ‹_›)

theorem freeInstance_wf {die id} : Memory.wf (s.freeInstance die id).mem = true := by
  unfold freeInstance
  extract_lets
  exact admitNodes_wf (setDie_wf h)

theorem doneAtomic_wf {die i op x again} : Memory.wf (s.doneAtomic die i op x again).mem = true := by
  unfold doneAtomic
  extract_lets
  split
  · exact h
  · split
    · exact freeInstance_wf h
    · split
      · exact later_wf (fst_wf (engineAtomic_wf h) ‹_›)
      · exact fst_wf (engineAtomic_wf h) ‹_›
      · exact freeInstance_wf (fst_wf (engineAtomic_wf h) ‹_›)
      · exact freeInstance_wf (log_wf (fst_wf (engineAtomic_wf h) ‹_›))

theorem endLevel_wf {b i l} : Memory.wf (s.endLevel b i l).mem = true := by
  unfold endLevel
  extract_lets
  split
  · exact doneAtomic_wf h
  · split
    · exact failInstance_wf (fst_wf (readNode_wf (admitNodes_wf (setInst_wf h))) ‹_›)
    · have h1 := fst_wf (readNode_wf (admitNodes_wf (setInst_wf h))) ‹_›
      split
      · exact later_wf h1
      · exact finishAll_wf h1

theorem affinity_wf {cl d} : Memory.wf (s.affinity cl d).1.mem = true := by
  unfold affinity
  split
  · have h1 := fst_wf (readMaps_wf h) ‹_›
    split
    · split
      · split <;> exact fst_wf (tileHome_wf (fst_wf (mapInputs_wf h1) ‹_›)) ‹_›
      · exact fst_wf (mapInputs_wf h1) ‹_›
    · exact fst_wf (mapInputs_wf h1) ‹_›
  · exact fst_wf (readMaps_wf h) ‹_›

theorem place_wf {die cmask byHome d} : Memory.wf (s.place die cmask byHome d).1.mem = true := by
  unfold place
  extract_lets
  split
  refine fst_wf ?_ ‹_›
  split
  · exact affinity_wf h
  · exact h

theorem handDescriptor_wf {cl d addr g} {t} (e : s.handDescriptor cl d addr g = some t) : Memory.wf t.mem = true := by
  unfold handDescriptor at e
  dsimp only at e
  split at e
  · cases e
  · cases e
    split
    · exact accept_wf (entryReady_wf h)
    · exact log_wf (entryReady_wf h)

theorem addWatch_wf {die w} : Memory.wf (s.addWatch die w).mem = true := h

theorem launchCounter_wf {b i n} : Memory.wf (s.launchCounter b i n).1.mem = true := by
  unfold launchCounter
  split
  · exact fst_wf (translate_wf h) ‹_›
  · have h1 := fst_wf (translate_wf h) ‹_›
    extract_lets
    split
    · split
      · exact h1
      · split
        · exact enginePut_wf h1
        · exact send_wf h1
    · split
      · exact addWatch_wf (fst_wf (enginePut_wf h1) ‹_›)
      · exact enginePut_wf h1

theorem nodeAction_wf {b type} {f : State → Instance → LiveNode → BitVec 512 → State}
    (hf : ∀ {s : State} {i x n}, Memory.wf s.mem = true → Memory.wf (f s i x n).mem = true) :
    Memory.wf (s.nodeAction b type f).mem = true := by
  unfold nodeAction
  split
  · split
    · exact h
    · split
      · exact failInstance_wf (fst_wf (readNode_wf h) ‹_›)
      · split
        · exact hf (fst_wf (readNode_wf h) ‹_›)
        · exact fst_wf (readNode_wf h) ‹_›
  · exact h

theorem watchCounter_wf {b} : Memory.wf (s.watchCounter b).mem = true := by
  unfold watchCounter
  refine nodeAction_wf h ?_
  intro s a b c h
  extract_lets
  split
  · exact failInstance_wf (fst_wf (translate_wf h) ‹_›)
  · exact send_wf (fst_wf (translate_wf h) ‹_›)

theorem condition_wf {b i x n} : Memory.wf (s.condition b i x n).1.mem = true := by
  unfold condition
  split
  · exact mapNode_wf h
  · exact h
  · split
    · exact fst_wf (translate_wf h) ‹_›
    · have h1 := fst_wf (translate_wf h) ‹_›
      extract_lets
      split
      · exact engineGet_wf h1
      · split
        · exact h1
        · exact mapNode_wf (send_wf h1)

theorem dropExpansion_wf {b} : Memory.wf (s.dropExpansion b).mem = true := h

theorem putExpansion_wf {x} : Memory.wf (s.putExpansion x).mem = true := h

theorem expand_wf {x} : Memory.wf (s.expand x).mem = true := by
  unfold expand
  extract_lets
  split
  · exact failInstance_wf (dropExpansion_wf (fst_wf (readNode_wf h) ‹_›))
  · have h1 := fst_wf (readNode_wf h) ‹_›
    split
    · exact dropExpansion_wf h1
    · split
      · exact failInstance_wf (dropExpansion_wf (fst_wf (readVa_wf h1) ‹_›))
      · extract_lets
        split
        split
        · exact later_wf (fst_wf (place_wf (fst_wf (readVa_wf h1) ‹_›)) ‹_›)
        · exact later_wf (putExpansion_wf (handDescriptor_wf (fst_wf (place_wf (fst_wf (readVa_wf h1) ‹_›)) ‹_›) ‹_›))

theorem queueRead_wf {a} : Memory.wf (s.queueRead a).1.mem = true := by
  unfold queueRead
  split <;> exact fst_wf (homeGet_wf h) ‹_›

theorem queueHead_wf {n} : Memory.wf (s.queueHead n).1.mem = true := queueRead_wf h

theorem cTask_wf {e} : Memory.wf (s.cTask e).1.mem = true := by
  unfold cTask
  split
  · exact queueRead_wf h
  · exact h

theorem kickQueue_wf {n} : Memory.wf (s.kickQueue n).mem = true := by
  unfold kickQueue
  extract_lets
  split
  · exact h
  · split
    split <;> exact later_wf (fst_wf (queueHead_wf (setQueue_wf h)) ‹_›)

theorem nextEntry_wf {n} : Memory.wf (s.nextEntry n).mem = true := by
  unfold nextEntry
  extract_lets
  exact kickQueue_wf (setQueue_wf h)

theorem rejectEntry_wf {n e} : Memory.wf (s.rejectEntry n e).mem = true := by
  unfold rejectEntry
  extract_lets
  exact nextEntry_wf (setQueue_wf (log_wf h))

theorem command_wf {n mine} {f : State → CmdQueue → BitVec 512 → BitVec 512 → State × Bool}
    (hf : ∀ {s : State} {q e d}, Memory.wf s.mem = true → Memory.wf (f s q e d).1.mem = true) :
    Memory.wf (s.command n mine f).mem = true := by
  -- Comparing the two sides of `unfold command`, the kernel would reduce `queueHead`: unfold the function instead.
  have e : @command = @command := rfl
  conv at e => rhs; delta command
  change (s.command n mine f).memoryCanonical
  rw [e]
  beta_reduce
  extract_lets q
  split
  next s1 e h1 =>
  split
  next s2 d h2 =>
  extract_lets s3
  have h3 : Memory.wf s3.mem = true := entryReady_wf (entryReady_wf (fst_wf (cTask_wf (fst_wf
      (queueHead_wf h) h1)) h2))
  split
  · exact h3
  · split
    · exact rejectEntry_wf h3
    · split
      · exact nextEntry_wf (fst_wf (hf h3) ‹_›)
      · exact later_wf (setQueue_wf (fst_wf (hf h3) ‹_›))

theorem execLaunchNode_wf {b} : nextWf (execLaunchNode b s) := by
  unfold execLaunchNode
  show Memory.wf _ = true
  split
  · exact expand_wf h
  · refine nodeAction_wf h ?_
    intro s i x n h
    have hc : Memory.wf (if x.cond.isSome then (s, Perf.done 0) else s.launchCounter b i n).1.mem = true := by
      split
      · exact h
      · exact launchCounter_wf h
    split
    · exact h
    · split
      · exact failInstance_wf (fst_wf hc ‹_›)
      · exact later_wf (fst_wf hc ‹_›)
      · exact mapNode_wf (fst_wf hc ‹_›)
      · exact later_wf (putExpansion_wf (mapNode_wf (fst_wf hc ‹_›)))

theorem execIfNode_wf {b} : nextWf (execIfNode b s) := by
  unfold execIfNode
  show Memory.wf _ = true
  refine nodeAction_wf h ?_
  intro s a b c h
  extract_lets
  split
  · exact h
  · split
    · exact failInstance_wf (fst_wf (condition_wf h) ‹_›)
    · exact finishTo_wf (fst_wf (condition_wf h) ‹_›)
    · exact later_wf (fst_wf (condition_wf h) ‹_›)

theorem execWhileNode_wf {b} : nextWf (execWhileNode b s) := by
  unfold execWhileNode
  show Memory.wf _ = true
  refine nodeAction_wf h ?_
  intro s a b c h
  extract_lets
  split
  · exact h
  · split
    · exact failInstance_wf (fst_wf (condition_wf h) ‹_›)
    · exact finishAll_wf (fst_wf (condition_wf h) ‹_›)
    · have h1 := fst_wf (condition_wf h) ‹_›
      split
      · split
        · exact failInstance_wf h1
        · exact openLevel_wf (mapNode_wf h1)
      · split
        · exact failInstance_wf h1
        · exact openLevel_wf (mapNode_wf h1)
    · exact later_wf (fst_wf (condition_wf h) ‹_›)

theorem execSwitchNode_wf {b} : nextWf (execSwitchNode b s) := by
  unfold execSwitchNode
  show Memory.wf _ = true
  refine nodeAction_wf h ?_
  intro s a b c h
  extract_lets
  split
  · exact h
  · split
    · exact failInstance_wf (fst_wf (condition_wf h) ‹_›)
    · split
      · exact failInstance_wf (fst_wf (readVa_wf (fst_wf (condition_wf h) ‹_›)) ‹_›)
      · exact finishTo_wf (fst_wf (readVa_wf (fst_wf (condition_wf h) ‹_›)) ‹_›)
    · exact later_wf (fst_wf (condition_wf h) ‹_›)

theorem execSignalNode_wf {b} : nextWf (execSignalNode b s) := by
  unfold execSignalNode
  show Memory.wf _ = true
  refine nodeAction_wf h ?_
  intro s a b c h
  extract_lets
  split
  · exact h
  · split
    · exact finishAll_wf h
    · split
      · exact failInstance_wf h
      · split
        · exact h
        · split
          · exact failInstance_wf (fst_wf (translate_wf h) ‹_›)
          · have h1 := fst_wf (translate_wf h) ‹_›
            extract_lets
            split
            · exact failInstance_wf h1
            · split
              · exact mapNode_wf (send_wf h1)
              · split
                · exact later_wf (fst_wf (tokenAdd_wf h1) ‹_›)
                · exact later_wf (fst_wf (tokenAdd_wf h1) ‹_›)
                · exact failInstance_wf (fst_wf (tokenAdd_wf h1) ‹_›)
                · exact finishAll_wf (fst_wf (tokenAdd_wf h1) ‹_›)

theorem execWaitNode_wf {b} : nextWf (execWaitNode b s) := by
  unfold execWaitNode
  show Memory.wf _ = true
  refine nodeAction_wf h ?_
  intro s a b c h
  extract_lets
  split
  · exact h
  · split
    · exact finishAll_wf h
    · split
      · exact failInstance_wf h
      · split
        · exact h
        · split
          · exact failInstance_wf (fst_wf (translate_wf h) ‹_›)
          · have h1 := fst_wf (translate_wf h) ‹_›
            extract_lets
            split
            extract_lets
            split
            · exact failInstance_wf (snd_wf (newId_wf (mapNode_wf h1)) ‹_›)
            · split
              · exact tokenArrive_wf (snd_wf (newId_wf (mapNode_wf h1)) ‹_›)
              · exact askToken_wf (snd_wf (newId_wf (mapNode_wf h1)) ‹_›)

theorem execCallNode_wf {b} : nextWf (execCallNode b s) := by
  unfold execCallNode
  show Memory.wf _ = true
  refine nodeAction_wf h ?_
  intro s a b c h
  extract_lets
  split
  · exact h
  · exact openLevel_wf (mapNode_wf h)

theorem execEndNode_wf {b} : nextWf (execEndNode b s) := by
  unfold execEndNode
  show Memory.wf _ = true
  refine nodeAction_wf h ?_
  intro s a b c h
  extract_lets
  split
  · exact mapNode_wf h
  · extract_lets
    split
    · split
      · exact endLevel_wf (setLevel_wf (mapNode_wf h))
      · exact setLevel_wf (mapNode_wf h)
    · exact setLevel_wf (mapNode_wf h)

theorem execLaunchWatchMet_wf {b} : nextWf (execLaunchWatchMet b s) := by
  unfold execLaunchWatchMet
  extract_lets
  show Memory.wf _ = true
  split
  · split
    · exact h
    · exact send_wf h
  · refine nodeAction_wf h ?_
    intro s a b c h
    extract_lets
    split
    · exact h
    · exact finishAll_wf h

theorem execLiveNodeTimeout_wf {b} : nextWf (execLiveNodeTimeout b s) := by
  unfold execLiveNodeTimeout
  extract_lets
  show Memory.wf _ = true
  split
  · exact h
  · split
    · split
      · exact later_wf (admitNodes_wf h)
      · exact doneAtomic_wf (admitNodes_wf h)
    · split
      · split
        · exact failInstance_wf (admitNodes_wf h)
        · exact admitNodes_wf h
      · exact admitNodes_wf h

theorem execQtailDoorbell_wf {q tail} : nextWf (execQtailDoorbell q tail s) := by
  unfold execQtailDoorbell
  extract_lets
  show Memory.wf _ = true
  split
  · exact kickQueue_wf (setQueue_wf h)
  · exact setQueue_wf h

theorem execCmdTask_wf {q} : nextWf (execCmdTask q s) := by
  unfold execCmdTask
  show Memory.wf _ = true
  refine command_wf h ?_
  intro s a b c h
  extract_lets
  split
  split
  · exact handDescriptor_wf (fst_wf (place_wf h) ‹_›) ‹_›
  · exact fst_wf (place_wf h) ‹_›

theorem execCmdSignal_wf {q} : nextWf (execCmdSignal q s) := by
  unfold execCmdSignal
  show Memory.wf _ = true
  refine command_wf h ?_
  intro s a b c h
  extract_lets
  split
  · exact log_wf (fst_wf (translate_wf h) ‹_›)
  · have h1 := fst_wf (translate_wf h) ‹_›
    extract_lets
    split
    · exact log_wf h1
    · split
      · exact send_wf h1
      · split
        · exact fst_wf (tokenAdd_wf h1) ‹_›
        · exact fst_wf (tokenAdd_wf h1) ‹_›
        · exact log_wf (fst_wf (tokenAdd_wf h1) ‹_›)
        · exact fst_wf (tokenAdd_wf h1) ‹_›

theorem execGstart_wf {p a b} : nextWf (execGstart p a b s) := by
  unfold execGstart
  refine perform_wf h ?_
  intro s h
  extract_lets
  split
  · exact takeTrap_wf _ _ h
  · split
    · exact takeTrap_wf _ _ h
    · split
      · exact stall_wf h
      · split
        · exact fst_wf (startInstance_wf h) ‹_›
        · exact stall_wf (fst_wf (startInstance_wf h) ‹_›)

end Sys2Proof.Machine.State
end

