-- ==== Sys2Proof/Proofs/CanonicalDevice.lean ====
section
/-! Memory stays canonical under leases, guests, transactions and the registers:
one lemma an operation, each from those of the operations that it is made of. -/

namespace Sys2Proof.Machine.State

variable {s : State} (h : Memory.wf s.mem = true)
include h

/-! Machine/Lease.lean. -/

theorem setLease_wf {l} : Memory.wf (s.setLease l).mem = true := h

theorem dropLease_wf {id} : Memory.wf (s.dropLease id).mem = true := h

theorem returnChannels_wf {l} : Memory.wf (s.returnChannels l).mem = true := h

theorem leaseEnds_wf {l st reason} : Memory.wf (s.leaseEnds l st reason).mem = true := by
  unfold leaseEnds
  extract_lets
  exact later_wf (setLease_wf (returnChannels_wf h))

theorem endLease_wf {l} : Memory.wf (s.endLease l).mem = true := h

theorem releaseLease_wf {l} : Memory.wf (s.releaseLease l).mem = true := by
  unfold releaseLease
  split
  · exact leaseEnds_wf h
  · exact setLease_wf h
  · exact setLease_wf h
  · exact endLease_wf h
  · exact endLease_wf h
  · exact dropLease_wf h
  · exact dropLease_wf h
  · exact h
  · exact h

theorem leasesDead_wf {d} : Memory.wf (s.leasesDead d).mem = true := foldl_wf (fun h => leaseEnds_wf h) h

theorem leaseNotice_wf {l} : Memory.wf (s.leaseNotice l).mem = true := h

theorem revokeLeases_wf {dim n rest} : Memory.wf (s.revokeLeases dim n rest).mem = true := by
  induction rest generalizing s n with
  | nil =>
    exact h
  | cons a l ih =>
    unfold revokeLeases
    split
    · exact h
    · exact ih (leaseNotice_wf h)

theorem revokeToward_wf {l} : Memory.wf (s.revokeToward l).mem = true := by
  unfold revokeToward
  extract_lets
  split
  exact revokeLeases_wf (snd_wf (free_wf h) ‹_›)

theorem serveLeases_wf {dim blocked rest} : Memory.wf (s.serveLeases dim blocked rest).mem = true := by
  induction rest generalizing s blocked with
  | nil => exact h
  | cons l rest ih =>
    unfold serveLeases
    split
    · exact ih h
    · extract_lets slot have_ s1
      split
      · extract_lets take s2 s3
        refine ih ?_
        exact h
      · refine ih ?_
        dsimp only [s1]
        split
        · exact revokeLeases_wf h
        · exact h

theorem execLeaseReq_wf {p d a b c} : nextWf (execLeaseReq p d a b c s) := by
  unfold execLeaseReq
  refine perform_wf h ?_
  intro s h
  extract_lets
  split
  · exact trap_wf h
  · extract_lets
    split
    · exact trap_wf h
    · split
      · exact trap_wf h
      · split
        · exact trap_wf h
        · split
          · exact flightBound_wf h
          · refine flightBound_wf (later_wf (later_wf ?_))
            exact h

theorem execLeaseRel_wf {p a} : nextWf (execLeaseRel p a s) := by
  unfold execLeaseRel
  refine perform_wf h ?_
  intro s h
  extract_lets
  split
  · split
    · exact releaseLease_wf h
    · exact h
  · exact h

theorem execLeaseQry_wf {p d a} : nextWf (execLeaseQry p d a s) := by
  unfold execLeaseQry
  refine perform_wf h ?_
  intro s h
  extract_lets
  exact flightBound_wf h

theorem execLeaseReserveReply_wf {id ok} : nextWf (execLeaseReserveReply id ok s) := by
  unfold execLeaseReserveReply
  show Memory.wf _ = true
  split
  · extract_lets
    split
    · exact h
    · split
      · exact leaseEnds_wf h
      · split
        · exact later_wf (setLease_wf h)
        · split
          · exact leaseEnds_wf h
          · split
            · exact revokeToward_wf (later_wf (setLease_wf (returnChannels_wf h)))
            · exact later_wf (setLease_wf (returnChannels_wf h))
  · exact h

theorem execLeaseTuned_wf {id} : nextWf (execLeaseTuned id s) := by
  unfold execLeaseTuned
  show Memory.wf _ = true
  split
  · extract_lets
    split
    · exact h
    · split
      · exact endLease_wf (setLease_wf h)
      · exact later_wf (later_wf (setLease_wf h))
  · exact h

theorem execLeaseTermExpiry_wf {id} : nextWf (execLeaseTermExpiry id s) := by
  unfold execLeaseTermExpiry
  show Memory.wf _ = true
  split
  · split
    · exact endLease_wf h
    · exact h
  · exact h

theorem execLeaseNoticeExpiry_wf {id} : nextWf (execLeaseNoticeExpiry id s) := by
  unfold execLeaseNoticeExpiry
  show Memory.wf _ = true
  split
  · split
    · exact endLease_wf h
    · exact h
  · exact h

theorem execLeaseDrained_wf {id} : nextWf (execLeaseDrained id s) := by
  unfold execLeaseDrained
  show Memory.wf _ = true
  split
  · split
    · exact leaseEnds_wf h
    · exact h
  · exact h

theorem execLeaseQueueExpiry_wf {id} : nextWf (execLeaseQueueExpiry id s) := by
  unfold execLeaseQueueExpiry
  show Memory.wf _ = true
  split
  · split
    · exact leaseEnds_wf h
    · exact h
  · exact h

theorem execLeaseEntryTimeout_wf {id} : nextWf (execLeaseEntryTimeout id s) := by
  unfold execLeaseEntryTimeout
  show Memory.wf _ = true
  split
  · split
    · exact dropLease_wf h
    · exact h
  · exact h

/-! Machine/Mooring.lean. -/

theorem guestXlat_wf {sp va kind} : Memory.wf (s.guestXlat sp va kind).1.mem = true := by
  unfold guestXlat
  extract_lets
  split
  · split
    · split
      · split
        · exact fst_wf (walk_wf (entryReady_wf h)) ‹_›
        · exact setAD_wf (fst_wf (walk_wf (entryReady_wf h)) ‹_›)
      · exact fst_wf (walk_wf (entryReady_wf h)) ‹_›
    · split <;> exact h
  · split
    · exact entryReady_wf h
    · split
      · exact fst_wf (walk_wf (entryReady_wf h)) ‹_›
      · extract_lets
        split
        · exact fst_wf (walk_wf (entryReady_wf h)) ‹_›
        · exact setAD_wf (fst_wf (walk_wf (entryReady_wf h)) ‹_›)

theorem guestRefused_wf {q sp cause d0} : Memory.wf (s.guestRefused q sp cause d0).mem = true := h

theorem writeCompletion_wf {e} : Memory.wf (s.writeCompletion e).1.mem = true := by
  unfold writeCompletion
  extract_lets
  split
  · exact h
  · split
    · exact guestRefused_wf (fst_wf (guestXlat_wf h) ‹_›)
    · split
      · exact guestRefused_wf (fst_wf (enginePut_wf (fst_wf (guestXlat_wf h) ‹_›)) ‹_›)
      · exact enginePut_wf (fst_wf (guestXlat_wf h) ‹_›)

theorem creditTokens_wf {e} : Memory.wf (s.creditTokens e).1.mem = true := by
  unfold creditTokens
  extract_lets
  split
  · exact guestRefused_wf (fst_wf (guestXlat_wf h) ‹_›)
  · have h1 := fst_wf (guestXlat_wf h) ‹_›
    extract_lets
    split
    · exact guestRefused_wf h1
    · split
      · exact send_wf h1
      · split
        · exact fst_wf (tokenAdd_wf h1) ‹_›
        · exact guestRefused_wf (fst_wf (tokenAdd_wf h1) ‹_›)
        · exact fst_wf (tokenAdd_wf h1) ‹_›

theorem creditBarrier_wf {e} : Memory.wf (s.creditBarrier e).mem = true := by
  unfold creditBarrier
  extract_lets
  split
  · exact guestRefused_wf h
  · split
    · exact barrierPay_wf h
    · exact barrierFault_wf h

theorem endCredit_wf {e} : Memory.wf (s.endCredit e).1.mem = true := by
  unfold endCredit
  dsimp only
  split
  · dsimp only
    split
    · exact log_wf (creditBarrier_wf h)
    · exact creditBarrier_wf h
  · split
    · dsimp only
      split
      · exact log_wf (fst_wf (creditTokens_wf h) ‹_›)
      · exact fst_wf (creditTokens_wf h) ‹_›
    · exact fst_wf (creditTokens_wf h) ‹_›
  · dsimp only
    split
    · exact log_wf h
    · exact h

theorem endStep_wf {e} : Memory.wf (s.endStep e).1.mem = true := by
  unfold endStep
  split
  · split
    · exact endCredit_wf (fst_wf (writeCompletion_wf h) ‹_›)
    · exact fst_wf (writeCompletion_wf h) ‹_›
    · exact fst_wf (writeCompletion_wf h) ‹_›
  · split
    · exact h
    · exact endCredit_wf h
  · exact endCredit_wf h

theorem endPacket_wf {q p status result logIt} : Memory.wf (s.endPacket q p status result logIt).mem = true := by
  unfold endPacket
  split
  · next he =>
    refine fst_wf (endStep_wf ?_) he
    exact h
  · next he =>
    have h1 := fst_wf (endStep_wf ?_) he
    · exact h1
    · exact h

theorem endOn_wf {id} : Memory.wf (endOn id s).mem = true := by
  unfold endOn
  split
  · exact h
  · split
    · next he =>
      have h1 := fst_wf (endStep_wf h) he
      exact h1
    · next he =>
      have h1 := fst_wf (endStep_wf h) he
      exact h1

theorem takeHeld_wf {q idx} {t r} (e : s.takeHeld q idx = some (r, t)) : Memory.wf t.mem = true := by
  unfold takeHeld at e
  obtain ⟨_, _, e⟩ := Option.map_eq_some_iff.1 e
  cases e
  exact setGqueue_wf h

theorem fenceQueue_wf {q} : Memory.wf (s.fenceQueue q).mem = true := by
  unfold fenceQueue
  extract_lets
  refine foldl_wf ?_ (setGqueue_wf h)
  intro s p h
  exact h

theorem fenceGuest_wf : Memory.wf s.fenceGuest.mem = true := by
  unfold fenceGuest
  extract_lets
  split
  · exact h
  · refine log_wf ?_
    refine foldl_wf ?_ ?_
    · intro s a h
      exact fenceQueue_wf h
    · refine setCore_wf ?_
      refine foldl_wf ?_ h
      intro s a h
      extract_lets
      split
      exact setDir_wf h

theorem guestPreempt_wf {sp} : Memory.wf (s.guestPreempt sp).mem = true := h

theorem guestSave_wf {base len} : Memory.wf (s.guestSave base len).mem = true := by
  unfold guestSave
  split
  · exact h
  · refine foldl_wf ?_ h
    intro s l h
    extract_lets lo hi bad
    split
    next d s1 h1 =>
    have w1 : Memory.wf s1.mem = true := by
      refine snd_wf ?_ h1
      refine foldl_snd_wf ?_ ?_
      · exact fun hp => free_wf hp
      · exact h
    split
    next s2 ok h2 =>
    have w2 : Memory.wf s2.mem = true := fst_wf (lineReady_wf w1) h2
    have hb : ∀ s e, Memory.wf s.mem = true → Memory.wf (bad s e).mem = true := fun s e h => guestRefused_wf h
    split
    · exact w2
    · split
      · exact hb _ _ w2
      · split
        · exact homeWrite_wf (invalidateOthers_wf (recallTo_wf w2)) ‹_›
        · exact hb _ _ w2

theorem guestLate_wf {sp} : Memory.wf (s.guestLate sp).mem = true := by
  unfold guestLate
  extract_lets
  exact fenceGuest_wf h

theorem guestResume_wf {sp} : Memory.wf (s.guestResume sp).mem = true := h

theorem execMqpush_wf {p v q} : nextWf (execMqpush p v q s) := by
  unfold execMqpush
  extract_lets
  refine perform_wf h ?_
  intro s h
  extract_lets
  split
  · exact trap_wf h
  · split
    · exact trap_wf h
    · split
      · exact trap_wf h
      · split
        · exact takeTrap_wf _ _ h
        · split
          · exact stall_wf h
          · split
            · split
              · exact trap_wf h
              · exact stall_wf h
              · refine stall_wf (later_wf ?_)
                exact h
            · refine setGqueue_wf ?_
              exact h

theorem execMqstat_wf {p d q} : nextWf (execMqstat p d q s) := by
  unfold execMqstat
  extract_lets
  refine perform_wf h ?_
  intro s h
  extract_lets
  exact flightBound_wf h

theorem execMqpushFullTimeout_wf {c} : nextWf (execMqpushFullTimeout c s) := by
  unfold execMqpushFullTimeout
  extract_lets
  show Memory.wf _ = true
  split
  · split
    · exact setCtx_wf h
    · exact h
  · exact h

theorem execGuestTakePacket_wf {q} : nextWf (execGuestTakePacket q s) := by
  unfold execGuestTakePacket
  extract_lets
  show Memory.wf _ = true
  split
  · exact h
  · exact setGqueue_wf h

theorem execGuestCoherentRequest_wf {q idx space va write data mask} :
    nextWf (execGuestCoherentRequest q idx space va write data mask s) := by
  unfold execGuestCoherentRequest
  extract_lets
  show Memory.wf _ = true
  split
  · exact h
  · split
    · exact guestRefused_wf h
    · split
      · exact guestRefused_wf (fst_wf (guestXlat_wf h) ‹_›)
      · have h1 := fst_wf (guestXlat_wf h) ‹_›
        extract_lets
        split
        · exact guestRefused_wf h1
        · split
          · exact later_wf h1
          · split
            · exact later_wf (revokeFor_wf h1)
            · split
              · exact guestRefused_wf (logAlias_wf h1)
              · split
                · split
                  · exact guestRefused_wf (fst_wf (fillLine_wf (invalidateOthers_wf (recallTo_wf h1))) ‹_›)
                  · exact setDir_wf (putLine_wf (fst_wf (fillLine_wf (invalidateOthers_wf (recallTo_wf h1))) ‹_›))
                · split
                  · exact guestRefused_wf (fst_wf (fillLine_wf h1) ‹_›)
                  · exact fst_wf (fillLine_wf h1) ‹_›

theorem execGuestCompletion_wf {q idx result} : nextWf (execGuestCompletion q idx result s) := by
  unfold execGuestCompletion
  show Memory.wf _ = true
  split
  · exact h
  · split
    · exact h
    · exact endPacket_wf (takeHeld_wf h ‹_›)

theorem execGuestFault_wf {q idx translation detail} : nextWf (execGuestFault q idx translation detail s) := by
  unfold execGuestFault
  show Memory.wf _ = true
  split
  · exact h
  · split
    · exact h
    · exact endPacket_wf (takeHeld_wf h ‹_›)

theorem execGuestStopped_wf {space} : nextWf (execGuestStopped space s) := by
  unfold execGuestStopped
  extract_lets
  show Memory.wf _ = true
  split
  · exact h
  · split
    · exact guestLate_wf h
    · exact h

theorem execGuestSaved_wf {space} : nextWf (execGuestSaved space s) := by
  unfold execGuestSaved
  dsimp only
  show Memory.wf _ = true
  split
  · exact h
  · split
    · exact guestLate_wf h
    · split
      · refine guestSave_wf ?_
        exact h
      · exact h

theorem execGuestPreemptLate_wf {space} : nextWf (execGuestPreemptLate space s) := by
  unfold execGuestPreemptLate
  show Memory.wf _ = true
  split
  · exact h
  · extract_lets
    split
    · exact guestLate_wf h
    · exact h

theorem execGuestLinkFailure_wf {module dead} : nextWf (execGuestLinkFailure module dead s) := by
  unfold execGuestLinkFailure
  extract_lets
  show Memory.wf _ = true
  split
  · exact fenceGuest_wf h
  · exact h

/-! Machine/Txn.lean. -/

theorem laneOver_wf {id i r} : Memory.wf (s.laneOver id i r).mem = true := by
  unfold laneOver
  split
  · split
    · extract_lets
      split
      · split <;> exact endFlight_wf h
      · exact putHolder_wf h
    · exact h
  · exact h

theorem mapLane_wf {id i f} : Memory.wf (s.mapLane id i f).mem = true := by
  unfold mapLane
  split
  · split
    · extract_lets
      exact putHolder_wf h
    · exact h
  · exact h

theorem storeFailed_wf {c access va header cause sets logIt lane} :
    Memory.wf (s.storeFailed c access va header cause sets logIt lane).mem = true :=
  writeFailed_wf h

theorem holdFlag_wf {c access va header g} : Memory.wf (s.holdFlag c access va header g).mem = true := by
  unfold holdFlag
  extract_lets
  exact wakeHeld_wf h

theorem flagCopies_wf {c l} : Memory.wf (s.flagCopies c l).mem = true := by
  unfold flagCopies
  extract_lets
  split
  · split
    · exact invalidateOthers_wf (recallTo_wf h)
    · exact dropLine_wf (mergeOut_wf (invalidateOthers_wf (recallTo_wf h)))
  · exact invalidateOthers_wf (recallTo_wf h)

theorem raiseFlag_wf {c access va header flag} : Memory.wf (s.raiseFlag c access va header flag).mem = true := by
  unfold raiseFlag
  split
  · exact closeAccess_wf h
  · split
    · exact holdFlag_wf h
    · split
      · exact storeFailed_wf h
      · exact send_wf (flagCopies_wf h)

theorem setMcas_wf {m} : Memory.wf (s.setMcas m).mem = true := h

theorem unlockOp_wf {peer op} : Memory.wf (s.unlockOp peer op).mem = true := by
  unfold unlockOp
  extract_lets
  exact wakeHeld_wf h

theorem mcasRead_wf {core sp e} : Memory.wf (s.mcasRead core sp e).1.mem = true := by
  unfold mcasRead
  extract_lets
  split
  · exact h
  · exact h
  · exact h
  · exact homeBytes_wf (atomicRecall_wf h)

theorem mcasWrite_wf {sp key gpa size new} : Memory.wf (s.mcasWrite sp key gpa size new).1.mem = true := by
  unfold mcasWrite
  split
  · exact h
  · exact h
  · split
    · exact ok_wf (siltSet_wf h) ‹_›
    · exact error_wf (siltSet_wf h) ‹_›
  · split
    · exact homeWrite_wf h ‹_›
    · exact h

theorem mcasLog_wf {gpa sp cause} : Memory.wf (s.mcasLog gpa sp cause).mem = true := h

theorem mcasEnd_wf {m} : Memory.wf (s.mcasEnd m).mem = true := by
  unfold mcasEnd
  extract_lets
  split
  · refine endFlight_wf ?_
    exact h
  · split
    · refine endFlight_wf ?_
      exact h
    · exact h

theorem mcasFull_wf {m i} : Memory.wf (s.mcasFull m i).mem = true := by
  unfold mcasFull
  split
  · exact siltFull_wf h
  · exact h

theorem mcasWriteAll_wf {m} : Memory.wf (s.mcasWriteAll m).1.mem = true := by
  unfold mcasWriteAll
  extract_lets go
  have w : Memory.wf go.1.mem = true := by
    refine foldl_fst_wf ?_ h
    intro p i hp
    split
    · split
      · split <;> exact fst_wf (mcasWrite_wf hp) ‹_›
      · exact hp
    · exact hp
  clear_value go
  obtain ⟨s1, _ | ⟨i, c⟩⟩ := go
  · exact w
  · dsimp only
    split
    · exact mcasFull_wf h
    · exact h

theorem mcasDecide_wf {m} : Memory.wf (s.mcasDecide m).mem = true := by
  unfold mcasDecide
  extract_lets want
  split
  next s1 bad h1 =>
  replace h1 : Memory.wf s1.mem = true := by
    refine fst_wf ?_ h1
    split
    · exact mcasWriteAll_wf h
    · exact h
  extract_lets m w s2 asked remote m1 s3 s4
  have h4 : Memory.wf s4.mem = true := by
    refine foldl_wf ?_ (setMcas_wf (unlockOp_wf h1))
    intro s i h
    split
    · exact send_wf h
    · exact h
  split
  · exact mcasEnd_wf h4
  · exact h4

theorem mcasNext_wf {id fuel} : Memory.wf (s.mcasNext id fuel).mem = true := by
  induction fuel generalizing s with
  | zero => exact h
  | succ n ih =>
    unfold mcasNext
    split
    · exact h
    · split
      · exact h
      · split
        · exact mcasDecide_wf h
        · split
          · exact h
          · extract_lets first again l own s0 homes packed f0 f
            have hfirst : ∀ {s m}, Memory.wf s.mem = true → Memory.wf (first s m).1.mem = true := by
              intro s m h
              dsimp only [first]
              split
              · exact later_wf h
              · exact h
            have hagain : ∀ {s}, Memory.wf s.mem = true → Memory.wf (again s).mem = true := fun h => later_wf h
            clear_value first again
            split
            · split
              · exact hagain h
              · split
                · exact hagain (revokeFor_wf h)
                · split
                  next s1 m1 h1 =>
                  have w1 := fst_wf (hfirst h) h1
                  extract_lets lock have_ src s2 m2
                  have w2 : Memory.wf s2.mem = true := w1
                  clear_value s2
                  split
                  next s3 r h3 =>
                  have w3 := fst_wf (mcasRead_wf w2) h3
                  split
                  next s4 m4 h4 =>
                  refine ih (setMcas_wf (fst_wf ?_ h4))
                  split
                  · exact w3
                  · exact mcasLog_wf w3
            · split
              · exact h
              · refine send_wf (setMcas_wf ?_)
                clear_value own
                dsimp only [s0]
                split
                · exact dropLine_wf (mergeOut_wf h)
                · exact h

theorem mlockDone_wf {op i status v} : Memory.wf (s.mlockDone op i status v).mem = true := by
  unfold mlockDone
  dsimp only
  split
  · exact h
  · split
    · exact h
    · split
      · refine mcasDecide_wf ?_
        refine setMcas_wf ?_
        split
        · exact later_wf h
        · exact h
      · refine mcasNext_wf ?_
        refine setMcas_wf ?_
        split
        · exact later_wf h
        · exact h

theorem mcommitDone_wf {op i status} : Memory.wf (s.mcommitDone op i status).mem = true := by
  unfold mcommitDone
  split
  · exact h
  · extract_lets m1 lost va s1 m2 m3 s2
    have h2 : Memory.wf s2.mem = true := by
      refine setMcas_wf ?_
      dsimp only [s1]
      split
      · exact logCtx_wf h
      · exact h
    split
    · exact mcasEnd_wf h2
    · exact h2

theorem mcasLost_wf {d} : Memory.wf (s.mcasLost d).mem = true := by
  unfold mcasLost
  refine foldl_wf ?_ h
  intro s a h
  extract_lets
  split
  · extract_lets
    split
    · exact h
    · exact mcasDecide_wf (setMcas_wf h)
  · exact h

theorem applyLock_wf {k w} : Memory.wf (s.applyLock k w).mem = true := by
  unfold applyLock
  dsimp only
  refine wakeHeld_wf ?_
  split
  · exact foldl_wf (fun h => mcasWrite_wf h) h
  · exact h

theorem grantNext_wf {page} : Memory.wf (s.grantNext page).mem = true := by
  unfold grantNext
  extract_lets
  split
  · exact h
  · split
    · exact h
    · split
      · exact h
      · exact startRevoke_wf (setGrant_wf h)

theorem grantReady_wf {page} : Memory.wf (s.grantReady page).mem = true := by
  unfold grantReady
  extract_lets
  split
  · exact h
  · extract_lets
    split
    · exact h
    · refine wakeHeld_wf ?_
      refine grantNext_wf ?_
      extract_lets
      split
      · exact reply_wf (afterRevoke_wf h)
      · exact afterRevoke_wf h

theorem grantRun_wf {page fuel} : Memory.wf (s.grantRun page fuel).mem = true := by
  induction fuel generalizing s with
  | zero =>
    exact h
  | succ n ih =>
    unfold grantRun
    extract_lets
    split
    · exact ih (grantReady_wf h)
    · exact h

theorem grantAck_wf {page d} : Memory.wf (s.grantAck page d).mem = true := by
  unfold grantAck
  extract_lets
  split
  · exact grantRun_wf (setGrant_wf h)
  · exact h

theorem lineArrived_wf {core l sp key tracked status f} :
    Memory.wf (s.lineArrived core l sp key tracked status f).mem = true := by
  unfold lineArrived
  dsimp only
  split
  · exact setCore_wf h
  · split
    · exact setCore_wf (fst_wf (ingress_wf h) ‹_›)
    · have h1 := fst_wf (ingress_wf h) ‹_›
      split
      · exact h1
      · split
        · split
          · exact h1
          · split
            · exact shareLine_wf h1
            · exact setDir_wf (putLine_wf (makeRoom_wf h1))
        · exact putLine_wf (makeRoom_wf h1)

theorem rmwArrived_wf {sp key l mask d u f tracked} :
    Memory.wf (s.rmwArrived sp key l mask d u f tracked).1.mem = true := by
  unfold rmwArrived
  extract_lets
  split <;> exact send_wf (fst_wf (ingress_wf h) ‹_›)

theorem holderAbsent_wf {r key holder} : Memory.wf (s.holderAbsent r key holder).mem = true := by
  unfold holderAbsent
  split
  · exact failSlot_wf (fst_wf (tileAway_wf h) ‹_›)
  · exact later_wf (dropHolder_wf (fst_wf (tileAway_wf h) ‹_›))
  · split
    split
    · exact failSlot_wf (fst_wf (tileAway_wf h) ‹_›)
    · exact send_wf (fst_wf (tileAway_wf h) ‹_›)

theorem tilePartArrived_wf {r key v part f} : Memory.wf (s.tilePartArrived r key v part f).mem = true := by
  unfold tilePartArrived
  extract_lets
  split
  · exact landSlot_wf h
  · exact send_wf (setSlot_wf h)

theorem tilePartEnds_wf {r v part status f} : Memory.wf (s.tilePartEnds r v part status f).mem = true := by
  unfold tilePartEnds
  split
  · exact h
  · split
    · exact holderAbsent_wf h
    · split
      · exact failSlot_wf h
      · split
        · exact tilePartArrived_wf h
        · exact holderAbsent_wf h

theorem tileAnswer_wf {r status f} : Memory.wf (s.tileAnswer r status f).mem = true := by
  unfold tileAnswer
  extract_lets
  split
  · exact h
  · extract_lets
    split
    · exact failSlot_wf h
    · split
      · exact tilePartArrived_wf h
      · split
        extract_lets
        exact later_wf (setSlot_wf (fst_wf (arrivedAt_wf h) ‹_›))
      · split
        split
        · split
          · exact later_wf (fst_wf (arrivedAt_wf h) ‹_›)
          · exact holderAbsent_wf (fst_wf (arrivedAt_wf h) ‹_›)
        · exact later_wf (fst_wf (arrivedAt_wf h) ‹_›)
      · exact skipHints_wf h
      · exact holderAbsent_wf h
      · split
        · exact fillSlot_wf (fst_wf (slotAway_wf h) ‹_›)
        · exact failSlot_wf (fst_wf (slotAway_wf h) ‹_›)
      · exact refill_wf h
      · split
        · exact skipHints_wf h
        · exact later_wf (skipHints_wf h)

theorem snewAnswer_wf {r status f} : Memory.wf (s.snewAnswer r status f).mem = true := by
  unfold snewAnswer
  extract_lets
  split
  · extract_lets
    split
    · split
      extract_lets
      split
      · exact setCtx_wf h
      · exact h
    · split
      · exact grantOpen_wf h
      · exact later_wf h
  · exact h

theorem finish_wf {x u status f} : Memory.wf (s.finish x u status f).mem = true := by
  unfold finish
  extract_lets v
  split
  · exact h
  · split
    · exact h
    · exact guestRefused_wf h
  · split
    · split
      · split
        · split
          · exact laneOver_wf h
          · split
            · exact laneOver_wf h
            · split <;> exact laneOver_wf (fst_wf (ingress_wf h) ‹_›)
        · exact h
      · exact h
    · exact h
  · split
    · exact closeAccess_wf h
    · exact storeFailed_wf h
  · split
    · exact h
    · split
      · exact storeFailed_wf h
      · split
        · exact h
        · exact raiseFlag_wf h
  · exact lineArrived_wf h
  · split
    · exact h
    · exact mergeFailed_wf h
  · refine closeAccess_wf ?_
    split
    · exact h
    · exact mergeFailed_wf h
  · exact logWritten_wf h
  · dsimp only
    split
    · exact h
    · exact ingress_wf h
  · split
    next s1 e he =>
    have h1 : Memory.wf s1.mem = true := by
      refine fst_wf ?_ he
      split
      · exact rmwArrived_wf h
      · exact h
    split
    · exact h1
    · split
      · exact storeFailed_wf h1
      · exact storeFailed_wf h1
      · exact mergeFailed_wf h1
      · exact closeAccess_wf (mergeFailed_wf h1)
      · exact logWritten_wf h1
      · exact unitFailed_wf h1
      · exact putEnded_wf h1
      · exact failInstance_wf h1
      · exact h1
  · exact mlockDone_wf h
  · exact mcommitDone_wf h
  · split
    · exact h
    · split
      · exact applyLock_wf h
      · split
        · exact applyLock_wf h
        · split
          · exact h
          · exact applyLock_wf h
  · split
    · extract_lets g s1
      have h1 : Memory.wf s1.mem = true := setGrant_wf h
      split
      · exact h1
      · exact askLine_wf h1
    · exact setCore_wf h
  · split
    · exact snewAnswer_wf h
    · exact tileAnswer_wf h
  · exact tilePartEnds_wf h
  · exact twbAnswer_wf h
  · split
    · exact fillLineArrived_wf h
    · exact fillLineArrived_wf (ingress_wf h)
  · exact putEnded_wf h
  · split
    · exact failInstance_wf h
    · split
      · exact mapNode_wf h
      · split
        · exact mapNode_wf (fst_wf (ingress_wf h) ‹_›)
        · exact failInstance_wf (fst_wf (ingress_wf h) ‹_›)
  · split
    · exact failInstance_wf h
    · split
      · exact watchCounter_wf h
      · exact later_wf (mapNode_wf h)
  · split
    · exact h
    · refine freeInstance_wf ?_
      split
      · exact h
      · exact log_wf h
  · split
    · exact copyLine_wf h
    · exact failCopy_wf h
  · split
    · exact landCopy_wf h
    · exact unitFailed_wf h
  · split
    · exact closePublish_wf h
    · exact closePublish_wf (mapContexts_wf h)
  · extract_lets w drop
    have hdrop : ∀ {s}, Memory.wf s.mem = true → Memory.wf (drop s).mem = true := fun h => h
    clear_value w drop
    split
    · exact h
    · split
      · split
        · exact h
        · exact hdrop h
      · split
        · exact tokenTaken_wf (hdrop h)
        · split
          · exact h
          · exact tokenFailed_wf (hdrop h)
  · exact wakeNode_wf (mapNode_wf h)
  · split
    · exact h
    · exact countFailed_wf h

theorem endTxn_wf {x status f} : Memory.wf (s.endTxn x status f).mem = true := underKeys_wf h (fun h => finish_wf h)

theorem dropTxn_wf {x} : Memory.wf (s.dropTxn x).mem = true := h

theorem failTxn_wf {x cause} : Memory.wf (s.failTxn x cause).mem = true := by
  unfold failTxn
  dsimp only
  refine endTxn_wf ?_
  split
  · exact setPeer_wf (dropTxn_wf h)
  · exact dropTxn_wf h

theorem failAll_wf {d} : Memory.wf (s.failAll d).mem = true := foldl_wf (fun h => failTxn_wf h) h

theorem failTakes_wf {d} : Memory.wf (s.failTakes d).mem = true := by
  unfold failTakes
  extract_lets
  exact foldl_wf (fun h => tokenFailed_wf h) h

theorem sieveLock_wf {p k} : Memory.wf (s.sieveLock p k).mem = true := by
  unfold sieveLock
  extract_lets
  split
  · exact applyLock_wf h
  · split
    · exact applyLock_wf h
    · refine foldl_wf ?_ h
      intro s a h
      extract_lets
      exact send_wf h

theorem sieve_wf {p} : Memory.wf (s.sieve p).mem = true := by
  unfold sieve
  extract_lets
  refine foldl_wf (fun h => sieveLock_wf h) ?_
  refine foldl_wf ?_ h
  intro s a h
  extract_lets
  split
  · split
    · exact grantRun_wf (grantNext_wf (setGrant_wf h))
    · exact grantAck_wf (setGrant_wf h)
  · split
    · exact setGrant_wf h
    · exact h

theorem floodDeath_wf {dead reporter epoch} : Memory.wf (s.floodDeath dead reporter epoch).mem = true := h

theorem failTiles_wf {d} : Memory.wf (s.failTiles d).mem = true := by
  unfold failTiles
  refine foldl_wf ?_ h
  intro s a h
  extract_lets
  split
  refine foldl_wf ?_ h
  intro s a h
  extract_lets
  split
  split
  · exact h
  · split
    · split
      · exact failSlot_wf (fst_wf (tileAway_wf h) ‹_›)
      · exact fst_wf (tileAway_wf h) ‹_›
    · exact fst_wf (tileAway_wf h) ‹_›

theorem fenceSelf_wf : Memory.wf s.fenceSelf.mem = true := by
  unfold fenceSelf
  extract_lets
  refine foldl_wf ?_ ?_
  · intro s a h
    extract_lets
    split
    · exact h
    · exact failTiles_wf (mcasLost_wf h)
  · refine foldl_wf ?_ ?_
    · intro s a h
      exact failTakes_wf h
    · refine foldl_wf ?_ h
      intro s a h
      exact failTxn_wf h

theorem declareDead_wf {dead reporter epoch} : Memory.wf (s.declareDead dead reporter epoch).mem = true := by
  unfold declareDead
  extract_lets
  split
  · exact h
  · split
    · exact fenceSelf_wf (setPeer_wf (floodDeath_wf (logFab_wf h)))
    · exact wakeHeld_wf (failTiles_wf (sieve_wf (leasesDead_wf (mcasLost_wf (failTakes_wf (failAll_wf (setPeer_wf
        (floodDeath_wf (logFab_wf h)))))))))

/-! Machine/Registers.lean. -/

theorem dropTlb_wf {p} : Memory.wf (s.dropTlb p).mem = true := h

theorem tlbinv_wf {w} : Memory.wf (s.tlbinv w).mem = true := by
  unfold tlbinv
  extract_lets
  split
  · exact dropTlb_wf h
  · split <;> exact dropTlb_wf h

theorem releaseSpace_wf {sp} : Memory.wf (s.releaseSpace sp).mem = true := by
  unfold releaseSpace
  extract_lets
  split
  · exact h
  · split
    · exact h
    · refine dropTlb_wf (foldl_wf (fun h => releaseLease_wf h) ?_)
      refine dropKeys_wf ?_
      exact h

theorem setPresence_wf {v} : Memory.wf (s.setPresence v).mem = true := by
  unfold setPresence
  extract_lets
  split
  · exact h
  · refine foldl_wf ?_ h
    intro s a h
    extract_lets
    split
    · exact h
    · split <;> exact setPeer_wf h

theorem fabctl_wf {w} : Memory.wf (s.fabctl w).mem = true := by
  unfold fabctl
  extract_lets
  split
  · exact h
  · refine foldl_wf ?_ h
    intro s a h
    extract_lets
    split
    · exact setPeer_wf h
    · exact h

theorem setNs_wf {v} : Memory.wf (s.setNs v).mem = true := h

theorem closePorts_wf : Memory.wf s.closePorts.mem = true := foldl_wf (fun h => closePort_wf _ _ _ h) h

theorem setCxlwin_wf {p v} : Memory.wf (s.setCxlwin p v).mem = true := by
  unfold setCxlwin
  extract_lets
  refine foldl_wf (fun h => log_wf h) ?_
  refine foldl_wf ?_ (closePorts_wf h)
  intro s a h
  exact openPort_wf _ _ _ h

theorem setSilt_wf {n i m v} : Memory.wf (s.setSilt n i m v).mem = true := h

theorem devPut_wf {o m v} : Memory.wf (s.devPut o m v).mem = true := by
  unfold devPut
  extract_lets d w sp k new
  split
  · split
    · exact h
    · exact setDevid_wf _ _
  · exact h
  · split
    · exact releaseSpace_wf h
    · exact h
  · exact setNs_wf h
  · exact setPresence_wf h
  · exact setPresence_wf h
  · exact setPresence_wf h
  · exact setPresence_wf h
  · exact tlbinv_wf h
  · exact h
  · exact fabctl_wf h
  · exact setCxlwin_wf h
  · exact setCxlwin_wf h
  · exact setCxlwin_wf h
  · exact setCxlwin_wf h
  · split
    · exact setSilt_wf h
    · exact h

theorem queuePut_wf {q o m v} : Memory.wf (s.queuePut q o m v).mem = true := by
  unfold queuePut
  extract_lets
  split
  · exact setQueue_wf h
  · split
    · exact kickQueue_wf (setQueue_wf h)
    · exact setQueue_wf h
  · split
    · exact h
    · split
      · exact kickQueue_wf (setQueue_wf h)
      · exact setQueue_wf h
  · exact setQueue_wf h
  · exact h

theorem moorPut_wf {o m v} : Memory.wf (s.moorPut o m v).mem = true := by
  unfold moorPut
  dsimp only
  split
  · exact setGqueue_wf h
  · split
    · split
      · refine guestResume_wf ?_
        split
        · exact guestPreempt_wf h
        · exact h
      · split
        · exact guestPreempt_wf h
        · exact h
    · exact h
    · exact h
    · exact h

theorem startReport_wf : Memory.wf s.startReport.mem = true := h

theorem endReport_wf : Memory.wf s.endReport.mem = true := by
  unfold endReport
  extract_lets
  split <;> exact h

theorem blobBytes_wf {a fuel} : Memory.wf (s.blobBytes a fuel).1.mem = true := by
  induction fuel generalizing s a with
  | zero =>
    exact h
  | succ n ih =>
    unfold blobBytes
    split
    · exact fst_wf (homeGet_wf h) ‹_›
    · split
      · exact fst_wf (ih (fst_wf (homeGet_wf h) ‹_›)) ‹_›
      · exact ih (fst_wf (homeGet_wf h) ‹_›)

theorem loadKey_wf {sp slot} : Memory.wf (s.loadKey sp slot).mem = true := by
  change (s.loadKey sp slot).memoryCanonical
  unfold loadKey
  extract_lets st
  -- an unknown function in place of the unwrapping: the kernel would compute it
  obtain ⟨unwrap, hu⟩ : ∃ u, u = keyUnwrap := ⟨_, rfl⟩
  rw [← hu]
  split
  · exact h
  · split
    · exact h
    · split
      · exact h
      · split
        · next hb =>
          have h1 := fst_wf (blobBytes_wf h) hb
          exact h1
        · next hb =>
          have h1 := fst_wf (blobBytes_wf h) hb
          split <;> exact h1

theorem clearKey_wf {sp slot} : Memory.wf (s.clearKey sp slot).mem = true := by
  unfold clearKey
  extract_lets
  split <;> exact h

theorem secPut_wf {o m v} : Memory.wf (s.secPut o m v).mem = true := by
  unfold secPut
  extract_lets
  split
  · split
    · exact startReport_wf h
    · exact h
  · split
    · exact h
    · split
      · split
        · exact clearKey_wf h
        · exact loadKey_wf h
      · exact h

/-! Machine/System.lean. -/

theorem bootImage_wf {img} : Memory.wf (s.bootImage img).mem = true := by
  change (s.bootImage img).memoryCanonical
  unfold bootImage
  extract_lets m sec s1
  have h1 : s1.memoryCanonical := h
  clear_value s1
  split
  · exact h1
  · exact h1

theorem serve_wf {a} {f : State → State} (hf : ∀ {s : State}, Memory.wf s.mem = true → Memory.wf (f s).mem = true) :
    Memory.wf (s.serve a f).mem = true := by
  unfold serve
  extract_lets
  split
  · exact h
  · exact hf h

theorem served_wf {ok} : Memory.wf (s.served ok).mem = true := h

theorem serviceStep_wf : Memory.wf s.serviceStep.mem = true := by
  unfold serviceStep
  dsimp only
  split
  · exact h
  · split
    · exact h
    · exact served_wf h
  · split
    · exact h
    · split
      · exact served_wf h
      · exact served_wf (setCluster_wf (setCore_wf h))
  · exact served_wf h

theorem stageFirmware_wf {len} : Memory.wf (s.stageFirmware len).mem = true := by
  unfold stageFirmware
  extract_lets
  split
  · refine serve_wf h ?_
    intro s h
    extract_lets
    split
    · exact h
    · exact served_wf h
  · split
    · exact h
    · exact bootImage_wf h

theorem preemptWhere_wf {p} : Memory.wf (s.preemptWhere p).mem = true := by
  unfold preemptWhere
  extract_lets
  refine foldl_wf ?_ h
  intro s a h
  extract_lets
  split
  exact later_wf h

theorem fenceDie_wf {d} : Memory.wf (s.fenceDie d).mem = true := by
  unfold fenceDie
  extract_lets
  refine preemptWhere_wf ?_
  exact h

theorem unfenceDie_wf {d} : Memory.wf (s.unfenceDie d).mem = true := by
  unfold unfenceDie
  extract_lets
  exact foldl_wf (fun h => later_wf h) h

theorem setFence_wf {new} : Memory.wf (s.setFence new).mem = true := by
  unfold setFence
  split
  · exact h
  · refine serve_wf h ?_
    intro s h
    refine foldl_wf ?_ h
    intro s a h
    extract_lets
    split
    · exact fenceDie_wf h
    · split
      · exact unfenceDie_wf h
      · exact h

theorem setLaser_wf {dim mod out} : Memory.wf (s.setLaser dim mod out).mem = true := by
  unfold setLaser
  extract_lets
  exact serve_wf h (fun h => h)

theorem leaveFabric_wf : Memory.wf s.leaveFabric.mem = true := serve_wf h (fun h => declareDead_wf h)

theorem joinFabric_wf : Memory.wf s.joinFabric.mem = true := serve_wf h (fun h => h)

theorem spareCore_wf {k} : Memory.wf (s.spareCore k).mem = true :=
  serve_wf h (fun h => preemptWhere_wf (setCore_wf h))

theorem moveOpens_wf {cl dest rest} {t r} (e : s.moveOpens cl dest rest = some (t, r)) : Memory.wf t.mem = true := by
  induction rest generalizing s r with
  | nil =>
    cases e
    exact h
  | cons k l ih =>
    unfold moveOpens at e
    extract_lets x at e
    split at e
    split at e
    · next s1 w ha =>
      obtain ⟨⟨s2, l2⟩, h2, e⟩ := Option.map_eq_some_iff.1 e
      cases e
      exact ih (setVer_wf (clearSlot_wf (setSlot_wf (fst_wf (allocate_wf h) ha)))) h2
    · cases e

theorem unpinEntry_wf {cl e} : Memory.wf (s.unpinEntry cl e).mem = true := by
  unfold unpinEntry
  dsimp only
  refine foldl_wf ?_ ?_
  · intro s a h
    split
    · exact unpin_wf h
    · exact h
  · split
    · exact foldl_wf (fun h => unpin_wf h) h
    · exact h

theorem retainEntry_wf {cl k} : Memory.wf (s.retainEntry cl k).mem = true := by
  unfold retainEntry
  split
  · exact h
  · extract_lets
    split
    · exact later_wf (setEntry_wf (unreserve_wf (unpinEntry_wf h)))
    · exact h

theorem holdEntry_wf {cl k} : Memory.wf (s.holdEntry cl k).mem = true := by
  unfold holdEntry
  split
  · exact h
  · extract_lets
    split
    · exact later_wf (setEntry_wf h)
    · exact retainEntry_wf (setEntry_wf h)

theorem moveEntry_wf {cl k} : Memory.wf (s.moveEntry cl k).mem = true := by
  unfold moveEntry
  dsimp only
  split
  · exact h
  · split
    · exact h
    · split
      · exact h
      · split
        · split
          · exact holdEntry_wf (accept_wf (setCluster_wf (unpinEntry_wf (place_wf h))))
          · exact accept_wf (setCluster_wf (unpinEntry_wf (place_wf h)))
        · split
          · exact h
          · split
            · split
              · exact h
              · split
                · exact foldl_wf (fun h => writeRecord_wf _ _ _ h) (setEntry_wf (setCluster_wf (setCluster_wf
                    (unpinEntry_wf (moveOpens_wf (place_wf h) ‹_›)))))
                · exact later_wf (reacquire_wf (foldl_wf (fun h => writeRecord_wf _ _ _ h) (setEntry_wf (setCluster_wf
                    (setCluster_wf (unpinEntry_wf (moveOpens_wf (place_wf h) ‹_›)))))))
            · exact h

theorem evacuate_wf : Memory.wf s.evacuate.mem = true := by
  unfold evacuate
  extract_lets
  refine foldl_wf ?_ h
  intro s a h
  extract_lets
  split
  exact moveEntry_wf h

theorem unholdEntry_wf {cl k} : Memory.wf (s.unholdEntry cl k).mem = true := by
  unfold unholdEntry
  split
  · exact h
  · extract_lets
    split
    · exact h
    · split
      · exact readyCheck_wf (sendInputs_wf (setEntry_wf h))
      · exact later_wf (setEntry_wf h)
      · split
        · exact setEntry_wf h
        · exact dropAgenda_wf (setEntry_wf h)
      · exact later_wf (setEntry_wf h)

theorem diePut_wf {n o m v} : Memory.wf (s.diePut n o m v).mem = true := by
  unfold diePut
  extract_lets
  split
  · exact setDie_wf h
  · exact setDie_wf h
  · exact setDie_wf h
  · exact setDie_wf h
  · exact setDie_wf h
  · exact h

theorem clusterPut_wf {n o m v} : Memory.wf (s.clusterPut n o m v).mem = true := by
  unfold clusterPut
  extract_lets
  split
  · exact setCluster_wf h
  · split
    · exact setCluster_wf h
    · split
      · split
        · exact holdEntry_wf (setCluster_wf h)
        · exact unholdEntry_wf (setCluster_wf h)
      · split
        · split
          · exact dbgWrite_wf h
          · exact h
        · split
          · split
            · exact windowWrite_wf h
            · split <;> exact windowWrite_wf h
          · exact h

theorem svcPut_wf {o m v} : Memory.wf (s.svcPut o m v).mem = true := by
  unfold svcPut
  dsimp only
  split
  · exact stageFirmware_wf h
  · exact setFence_wf h
  · split
    · exact setLaser_wf h
    · exact h
  · split
    · refine joinFabric_wf ?_
      split
      · exact leaveFabric_wf h
      · exact h
    · split
      · exact leaveFabric_wf h
      · exact h
  · split <;> exact h

theorem regPut_wf {o m v} : Memory.wf (s.regPut o m v).mem = true := by
  unfold regPut
  split
  · exact h
  · split
    · exact svcPut_wf h
    · split
      · exact h
      · split
        · exact devPut_wf h
        · split
          · exact queuePut_wf h
          · split
            · exact moorPut_wf h
            · split
              · exact secPut_wf h
              · split
                · exact diePut_wf h
                · split
                  · exact clusterPut_wf h
                  · exact h

theorem windowPut_wf {o n v} : Memory.wf (s.windowPut o n v).mem = true := by
  unfold windowPut
  extract_lets
  exact regPut_wf h

theorem regSet_wf {o v} : Memory.wf (s.regSet o v).mem = true := regPut_wf h

theorem releaseEnds_wf : Memory.wf s.releaseEnds.mem = true := h

theorem background_wf {u : State} {f : State → State} (hf : f ∈ u.background) : Memory.wf (f s).mem = true := by
  simp only [background, List.mem_append, List.mem_ite_nil_right, List.mem_singleton, List.mem_map] at hf
  obtain (((⟨-, rfl⟩ | ⟨-, rfl⟩) | ⟨-, rfl⟩) | ⟨-, rfl⟩) | ⟨e, -, rfl⟩ := hf
  · exact releaseEnds_wf h
  · exact endReport_wf h
  · exact serviceStep_wf h
  · exact evacuate_wf h
  · exact endOn_wf h

theorem execPresenceWrite_wf {val} : nextWf (execPresenceWrite val s) := by
  unfold execPresenceWrite
  show Memory.wf _ = true
  split
  · exact setPresence_wf h
  · exact h

theorem execDieFence_wf {die} : nextWf (execDieFence die s) := by
  unfold execDieFence
  extract_lets
  exact regPut_wf h

theorem execRegisterWrite_wf {off size val} : nextWf (execRegisterWrite off size val s) := by
  unfold execRegisterWrite
  extract_lets
  exact windowPut_wf h

theorem thermal_wf {n temp} : Memory.wf (s.thermal n temp).mem = true := by
  unfold thermal
  extract_lets
  split
  · exact setDie_wf h
  · refine log_wf ?_
    extract_lets
    split
    · exact setDie_wf h
    · exact fenceDie_wf (setDie_wf h)

theorem execPatrolScrub_wf {ch} : nextWf (execPatrolScrub ch s) := by
  unfold execPatrolScrub
  extract_lets c s1
  have h1 : Memory.wf s1.mem = true := setChan_wf h
  clear_value s1
  split
  next n s2 h2 =>
  replace h2 := snd_wf (free_wf h1) h2
  refine foldl_canonical ?_ h2
  intro s i h
  split
  next v s3 h3 =>
  replace h3 := snd_wf (free_wf h) h3
  extract_lets l
  split
  · exact lineErrors_wf h3
  · exact h3

theorem execRowRepair_wf {ch row last} : nextWf (execRowRepair ch row last s) := by
  unfold execRowRepair
  extract_lets
  show Memory.wf _ = true
  split
  · exact h
  · exact log_wf (setChan_wf h)

omit h in
theorem execDeviceReset_wf : nextWf (execDeviceReset s) := by
  have w : Memory.wf (s.closePorts.setDevid 0).mem = true := setDevid_wf _ _
  unfold execDeviceReset
  extract_lets r s1
  change Memory.wf (if s1.dev.hilmap == s1.dev.hilmapLive then s1.mem else scramble s1.mem) = true
  split
  · exact w
  · exact (wf_scramble _ w).1

end Sys2Proof.Machine.State
end

