-- ==== Sys2Proof/Proofs/CanonicalAccess.lean ====
section
/-! Memory stays canonical under the linear accesses, copies, the fabric and the vector engine:
one lemma an operation, each from those of the operations that it is made of. -/

namespace Sys2Proof.Machine.State

variable {s : State} (h : Memory.wf s.mem = true)
include h

/-! Machine/Linear.lean. -/

theorem dropCopies_wf {k l} : Memory.wf (s.dropCopies k l).mem = true := by
  unfold dropCopies
  split
  · exact invalidateOthers_wf (recallTo_wf h)
  · exact h

theorem remotePut_wf {core k gpa n v u} : Memory.wf (s.remotePut core k gpa n v u).1.mem = true := by
  unfold remotePut
  extract_lets
  split
  · exact h
  · split
    · exact copyPut_wf (send_wf (dropCopies_wf h))
    · split
      · exact copyPut_wf (fst_wf (sendMerge_wf (dropCopies_wf h)) ‹_›)
      · exact fst_wf (sendMerge_wf (dropCopies_wf h)) ‹_›

theorem cacheAccess_wf {k gpa} {go : State → State × Perf}
    (hf : ∀ {s : State}, Memory.wf s.mem = true → Memory.wf (go s).1.mem = true) :
    Memory.wf (s.cacheAccess k gpa go).1.mem = true := by
  unfold cacheAccess
  split
  · exact logAlias_wf h
  · exact hf h

theorem performWrite_wf {core q} : Memory.wf (s.performWrite core q).1.mem = true := by
  unfold performWrite
  extract_lets
  split
  · split
    · exact remotePut_wf h
    · split
      · exact h
      · exact cacheAccess_wf h (fun h => remoteWrite_wf h)
  · split
    · split
      · exact h
      · split
        · exact ok_wf (siltSet_wf h) ‹_›
        · exact error_wf (siltSet_wf h) ‹_›
    · split
      · exact writeAt_wf h
      · exact cacheAccess_wf h (fun h => writeAt_wf h)

theorem unqueue_wf {core id} : Memory.wf (s.unqueue core id).mem = true := h

theorem runWrite_wf {core q} : Memory.wf (s.runWrite core q).1.mem = true := by
  unfold runWrite
  split
  · exact h
  · split
    · exact fst_wf (performWrite_wf h) ‹_›
    · exact closeAccess_wf (unqueue_wf (fst_wf (performWrite_wf h) ‹_›))
    · exact unqueue_wf (fst_wf (performWrite_wf h) ‹_›)
    · exact storeFailed_wf (unqueue_wf (fst_wf (performWrite_wf h) ‹_›))

theorem settleLine_wf {core l id fuel} : Memory.wf (s.settleLine core l id fuel).1.mem = true := by
  induction fuel generalizing s with
  | zero =>
    exact h
  | succ n ih =>
    unfold settleLine
    split
    · exact h
    · split
      · exact ih (fst_wf (runWrite_wf h) ‹_›)
      · exact runWrite_wf h

theorem settle_wf {core l id} : Memory.wf (s.settle core l id).1.mem = true := settleLine_wf h

theorem settleLines_wf {core id rest} : Memory.wf (s.settleLines core id rest).1.mem = true := by
  induction rest generalizing s with
  | nil =>
    exact h
  | cons a l ih =>
    unfold settleLines
    split
    · exact ih (fst_wf (settle_wf h) ‹_›)
    · exact settle_wf h

theorem remoteAccess_wf {core k c id op l} : Memory.wf (s.remoteAccess core k c id op l).1.mem = true := by
  unfold remoteAccess
  dsimp only
  split
  · exact h
  · split
    · refine send_wf ?_
      split
      · exact h
      · split
        · exact dropLine_wf (mergeOut_wf h)
        · exact h
    · split
      · split
        · exact h
        · exact send_wf h
      · exact cacheAccess_wf h (fun h => remoteRead_wf h)

theorem performLane_wf {core sp c id op l} : Memory.wf (s.performLane core sp c id op l).1.mem = true := by
  unfold performLane
  extract_lets
  split
  · exact remoteAccess_wf h
  · split
    · exact atomicHome_wf h
    · split
      · exact siltLoad_wf h
      · split
        · exact readAt_wf h
        · exact cacheAccess_wf h (fun h => readAt_wf h)

theorem alsoOpen_wf {id new sets} : Memory.wf (s.alsoOpen id new sets).mem = true := by
  unfold alsoOpen
  split
  · exact putHolder_wf h
  · exact h

theorem releaseStreamed_wf {core c id l header} : Memory.wf (s.releaseStreamed core c id l header).mem = true := by
  unfold releaseStreamed
  extract_lets
  split
  · exact h
  · split
    · exact dropStream_wf h
    · split
      extract_lets
      split
      · exact closeAccess_wf (fst_wf (dropStream_wf (alsoOpen_wf (snd_wf (newId_wf h) ‹_›))) ‹_›)
      · exact storeFailed_wf (fst_wf (dropStream_wf (alsoOpen_wf (snd_wf (newId_wf h) ‹_›))) ‹_›)
      · exact fst_wf (dropStream_wf (alsoOpen_wf (snd_wf (newId_wf h) ‹_›))) ‹_›

theorem restOfLine_wf {core sp c f op rest} : Memory.wf (s.restOfLine core sp c f op rest).mem = true := by
  induction rest generalizing s with
  | nil =>
    exact h
  | cons a l ih =>
    unfold restOfLine
    split
    · exact ih (laneOver_wf (fst_wf (performLane_wf h) ‹_›))
    · exact ih (laneOver_wf (fst_wf (performLane_wf h) ‹_›))
    · exact h

theorem memStep_wf {c sp f lanes op} : Memory.wf (s.memStep c sp f lanes op).mem = true := by
  unfold memStep
  dsimp only
  split
  · exact h
  · split
    · exact later_wf h
    · split
      · exact later_wf (free_wf h)
      · split
        · exact later_wf (free_wf h)
        · split
          · exact later_wf (fst_wf (settle_wf (free_wf h)) ‹_›)
          · have h1 := fst_wf (settle_wf (free_wf h)) ‹_›
            split
            · exact later_wf (fst_wf (performLane_wf h1) ‹_›)
            · exact later_wf (mapLane_wf (fst_wf (performLane_wf h1) ‹_›))
            · exact later_wf (laneOver_wf (fst_wf (performLane_wf h1) ‹_›))
            · refine later_wf ?_
              refine restOfLine_wf ?_
              refine laneOver_wf ?_
              split
              · exact releaseStreamed_wf (fst_wf (performLane_wf h1) ‹_›)
              · exact fst_wf (performLane_wf h1) ‹_›

theorem laneCheck_wf {va n kind cached window} : Memory.wf (s.laneCheck va n kind cached window).1.mem = true := by
  unfold laneCheck
  extract_lets
  split
  · exact h
  · split
    · exact fst_wf (xlat_wf h) ‹_›
    · have h1 := fst_wf (xlat_wf h) ‹_›
      extract_lets
      split
      · exact h1
      · split
        · exact h1
        · split
          · split <;> exact h1
          · split
            · exact logAlias_wf h1
            · exact h1

theorem lanesCheck_wf {n kind cached rest} : Memory.wf (s.lanesCheck n kind cached rest).1.mem = true := by
  induction rest generalizing s with
  | nil =>
    exact h
  | cons a l ih =>
    unfold lanesCheck
    split
    · exact fst_wf (laneCheck_wf h) ‹_›
    · split
      · exact fst_wf (ih (fst_wf (laneCheck_wf h) ‹_›)) ‹_›
      · exact ih (fst_wf (laneCheck_wf h) ‹_›)

theorem startMem_wf {dests lanes op sets acq rel} :
    Memory.wf (s.startMem dests lanes op sets acq rel).mem = true := by
  unfold startMem
  extract_lets
  split
  · exact flightBound_wf h
  · split
    next ho =>
    have h1 := snd_wf (openAccess_wf h) ho
    extract_lets
    refine later_wf ?_
    exact h1

theorem touchSets_wf {sets} : Memory.wf (s.touchSets sets).mem = true := h

theorem loadWord_wf {d va n sx pol acq} : Memory.wf (s.loadWord d va n sx pol acq).mem = true := by
  unfold loadWord
  split
  · exact takeTrap_wf _ _ (fst_wf (laneCheck_wf h) ‹_›)
  · extract_lets
    split
    · exact flightBound_wf (touchSets_wf (fst_wf (laneCheck_wf h) ‹_›))
    · exact startMem_wf (fst_wf (laneCheck_wf h) ‹_›)

theorem queueWrite_wf {va t n v pol after coreOnly lane} :
    Memory.wf (s.queueWrite va t n v pol after coreOnly lane).mem = true :=
  h

theorem storeWord_wf {x va n pol rel} : Memory.wf (s.storeWord x va n pol rel).mem = true := by
  unfold storeWord
  split
  · exact takeTrap_wf _ _ (fst_wf (laneCheck_wf h) ‹_›)
  · have h1 := fst_wf (laneCheck_wf h) ‹_›
    extract_lets
    split
    · split
      · exact stall_wf h1
      · exact windowPut_wf (touchSets_wf h1)
    · exact queueWrite_wf h1

theorem postAdd_wf {s2 a off} : Memory.wf (s.postAdd s2 a off).mem = true := by
  unfold postAdd
  split
  · exact wx_wf h
  · exact h

theorem vecLoad_wf {v z l} : Memory.wf (s.vecLoad v z l).mem = true := by
  unfold vecLoad
  split
  · exact takeTrap_wf _ _ (fst_wf (lanesCheck_wf h) ‹_›)
  · extract_lets
    exact startMem_wf (fst_wf (lanesCheck_wf h) ‹_›)

theorem vecStore_wf {v z l} : Memory.wf (s.vecStore v z l).mem = true := by
  unfold vecStore
  split
  · exact takeTrap_wf _ _ (fst_wf (lanesCheck_wf h) ‹_›)
  · next hl =>
    have h1 := fst_wf (lanesCheck_wf h) hl
    split
    extract_lets
    refine foldl_wf (fun h => queueWrite_wf h) ?_
    exact h1

theorem atomicWord_wf {d a b n amo r} : Memory.wf (s.atomicWord d a b n amo r).mem = true := by
  unfold atomicWord
  extract_lets
  split
  · exact takeTrap_wf _ _ (fst_wf (laneCheck_wf h) ‹_›)
  · extract_lets
    exact startMem_wf (fst_wf (laneCheck_wf h) ‹_›)

theorem readNow_wf {va n} : Memory.wf (s.readNow va n).1.mem = true := by
  unfold readNow
  split
  · exact fst_wf (laneCheck_wf h) ‹_›
  · next ht =>
    have h1 := fst_wf (laneCheck_wf h) ht
    extract_lets
    split
    · exact h1
    · split
      · exact fst_wf (settle_wf h1) ‹_›
      · next hs =>
        have h2 := fst_wf (settle_wf h1) hs
        extract_lets k own r
        have hr : Memory.wf r.1.mem = true := by
          dsimp only [r]
          split
          · split
            · exact siltLoad_wf h2
            · split <;> exact fst_wf (homeGet_wf h2) ‹_›
          · split
            · exact readAt_wf h2
            · exact remoteRead_wf h2
        clear_value r
        split <;> exact hr

theorem readRecords_wf {va fuel} : Memory.wf (s.readRecords va fuel).1.mem = true := by
  induction fuel generalizing s va with
  | zero =>
    exact h
  | succ n ih =>
    unfold readRecords
    split
    · exact fst_wf (readNow_wf h) ‹_›
    · exact fst_wf (readNow_wf h) ‹_›
    · split
      · exact fst_wf (ih (fst_wf (readNow_wf h) ‹_›)) ‹_›
      · exact ih (fst_wf (readNow_wf h) ‹_›)

theorem mcasEntries_wf {i rest} : Memory.wf (s.mcasEntries i rest).1.mem = true := by
  induction rest generalizing s i with
  | nil =>
    exact h
  | cons a l ih =>
    unfold mcasEntries
    extract_lets
    split
    · exact fst_wf (laneCheck_wf h) ‹_›
    · extract_lets
      split
      · exact fst_wf (ih (fst_wf (laneCheck_wf h) ‹_›)) ‹_›
      · exact ih (fst_wf (laneCheck_wf h) ‹_›)

theorem startMcas_wf {d es} : Memory.wf (s.startMcas d es).mem = true := h

theorem rangePage_wf {va drops} : Memory.wf (s.rangePage va drops).1.mem = true := by
  unfold rangePage
  dsimp only
  split
  · refine fst_wf ?_ ‹_›
    split
    · split
      · exact xlat_wf (fst_wf (xlat_wf h) ‹_›)
      · exact fst_wf (xlat_wf h) ‹_›
    · exact xlat_wf h
  · refine fst_wf ?_ ‹_›
    split
    · split
      · exact xlat_wf (fst_wf (xlat_wf h) ‹_›)
      · exact fst_wf (xlat_wf h) ‹_›
    · exact xlat_wf h

theorem rangePages_wf {p drops fuel} : Memory.wf (s.rangePages p drops fuel).1.mem = true := by
  induction fuel generalizing s p with
  | zero =>
    exact h
  | succ n ih =>
    unfold rangePages
    extract_lets
    split
    · exact fst_wf (rangePage_wf h) ‹_›
    · split
      · exact fst_wf (ih (fst_wf (rangePage_wf h) ‹_›)) ‹_›
      · exact ih (fst_wf (rangePage_wf h) ‹_›)

theorem settleRange_wf {first last fuel} : Memory.wf (s.settleRange first last fuel).1.mem = true := by
  induction fuel generalizing s with
  | zero =>
    exact h
  | succ n ih =>
    unfold settleRange
    extract_lets
    split
    · exact h
    · split
      · exact ih (fst_wf (runWrite_wf h) ‹_›)
      · exact runWrite_wf h

theorem rangeWord_wf {a b keep discard} : Memory.wf (s.rangeWord a b keep discard).mem = true := by
  unfold rangeWord
  extract_lets
  split
  · exact h
  · split
    · exact takeTrap_wf _ _ (fst_wf (rangePages_wf (touchSets_wf h)) ‹_›)
    · have h1 := fst_wf (rangePages_wf (touchSets_wf h)) ‹_›
      split
      · exact stall_wf h1
      · split
        · exact stall_wf (fst_wf (settleRange_wf h1) ‹_›)
        · extract_lets
          split
          · exact stall_wf (fst_wf (settleRange_wf h1) ‹_›)
          · refine foldl_wf ?_ (fst_wf (settleRange_wf h1) ‹_›)
            intro s a h
            extract_lets
            split
            extract_lets
            split
            split
            · exact storeFailed_wf (fst_wf (rangeLine_wf (snd_wf (openAccess_wf h) ‹_›)) ‹_›)
            · exact fst_wf (rangeLine_wf (snd_wf (openAccess_wf h) ‹_›)) ‹_›
            · exact closeAccess_wf (fst_wf (rangeLine_wf (snd_wf (openAccess_wf h) ‹_›)) ‹_›)

theorem flagData_wf {k gpa m v} : Memory.wf (s.flagData k gpa m v).1.mem = true := by
  unfold flagData
  extract_lets lines
  split
  · exact h
  · split
    · exact revokeFor_wf h
    · refine foldl_fst_wf ?_ h
      intro p i hp
      split
      · exact hp
      · extract_lets l s1
        have h1 : Memory.wf s1.mem = true := dropCopies_wf hp
        clear_value s1
        split
        split
        · exact h1
        · next hw =>
          dsimp only
          split
          · exact homeWrite_wf h1 hw
          · exact copyPut_wf (homeWrite_wf h1 hw)

theorem flagSilt_wf {k gpa m v} : Memory.wf (s.flagSilt k gpa m v).1.mem = true := by
  unfold flagSilt
  split
  · exact h
  · refine foldl_fst_wf ?_ h
    intro p i hp
    split
    · exact hp
    · split
      · next hw => exact ok_wf (siltSet_wf hp) hw
      · next hw => exact error_wf (siltSet_wf hp) hw

theorem flagAway_wf {id va t m v flag} : Memory.wf (s.flagAway id va t m v flag).mem = true := by
  unfold flagAway
  dsimp only
  split
  · refine send_wf ?_
    split
    · exact flagCopies_wf (foldl_wf (fun h => copyPut_wf (dropCopies_wf h)) h)
    · exact foldl_wf (fun h => copyPut_wf (dropCopies_wf h)) h
  · refine foldl_wf ?_ (foldl_wf (fun h => copyPut_wf (dropCopies_wf h)) h)
    intro s a h
    split
    · exact fst_wf (sendMerge_wf h) ‹_›
    · split
      · exact storeFailed_wf (fst_wf (sendMerge_wf h) ‹_›)
      · exact fst_wf (sendMerge_wf h) ‹_›

theorem execVamo_wf {p v a i k o} : nextWf (execVamo p v a i k o s) := by
  unfold execVamo
  refine perform_wf h ?_
  intro s h
  extract_lets
  split
  · exact takeTrap_wf _ _ (fst_wf (lanesCheck_wf h) ‹_›)
  · extract_lets
    exact startMem_wf (fst_wf (lanesCheck_wf h) ‹_›)

theorem execMcas_wf {p d a c} : nextWf (execMcas p d a c s) := by
  unfold execMcas
  refine perform_wf h ?_
  intro s h
  extract_lets
  split
  · exact takeTrap_wf _ _ h
  · split
    · exact takeTrap_wf _ _ (fst_wf (readRecords_wf h) ‹_›)
    · exact stall_wf (fst_wf (readRecords_wf h) ‹_›)
    · have h1 := fst_wf (readRecords_wf h) ‹_›
      split
      · exact takeTrap_wf _ _ (fst_wf (mcasEntries_wf h1) ‹_›)
      · have h2 := fst_wf (mcasEntries_wf h1) ‹_›
        extract_lets
        split
        · extract_lets
          exact takeTrap_wf _ _ h2
        · split
          · exact stall_wf h2
          · exact startMcas_wf h2

theorem execTokwait_wf {p d a} : nextWf (execTokwait p d a s) := by
  unfold execTokwait
  refine perform_wf h ?_
  intro s h
  extract_lets
  split
  · exact takeTrap_wf _ _ h
  · split
    · exact takeTrap_wf _ _ (fst_wf (tokenWord_wf h) ‹_›)
    · next hw =>
      have h1 := fst_wf (tokenWord_wf h) hw
      split
      · exact stall_wf h1
      · split
        · exact stall_wf (fst_wf (settle_wf h1) ‹_›)
        · next hs =>
          have h2 := fst_wf (settle_wf h1) hs
          split
          next ho =>
          have h3 := snd_wf (openAccess_wf h2) ho
          extract_lets cx s1 k s2
          have h4 : Memory.wf s1.mem = true := h3
          split
          · exact tokenArrive_wf (atomicRecall_wf h4)
          · exact askToken_wf h4

theorem flagTurn_wf {ls} : Memory.wf (s.flagTurn ls).1.mem = true := by
  unfold flagTurn
  split
  · exact fst_wf (settleLines_wf h) ‹_›
  · exact settleLines_wf h

theorem execRstf_wf {p v k a b} : nextWf (execRstf p v k a b s) := by
  unfold execRstf
  refine perform_wf h ?_
  intro s h
  extract_lets va fa m data
  have hdata : Memory.wf data.1.mem = true := by
    dsimp only [data]
    split
    · exact h
    · split <;> exact fst_wf (laneCheck_wf h) ‹_›
  clear_value data
  split
  · exact takeTrap_wf _ _ h
  · split
    · exact takeTrap_wf _ _ h
    · split
      · exact takeTrap_wf _ _ hdata
      · split
        · exact takeTrap_wf _ _ (fst_wf (laneCheck_wf hdata) ‹_›)
        · next hf =>
          have h1 := fst_wf (laneCheck_wf hdata) hf
          extract_lets
          split
          · exact stall_wf (fst_wf (flagTurn_wf h1) ‹_›)
          · next ht =>
            have h2 := fst_wf (flagTurn_wf h1) ht
            split
            · split
              exact raiseFlag_wf (snd_wf (openAccess_wf h2) ‹_›)
            · split
              · split
                exact flagAway_wf (snd_wf (openAccess_wf h2) ‹_›)
              · extract_lets kind r
                have hr : Memory.wf r.1.mem = true := by
                  dsimp only [r]
                  split
                  · exact flagSilt_wf h2
                  · exact flagData_wf h2
                clear_value r
                split
                · exact stall_wf hr
                · split
                  exact raiseFlag_wf (snd_wf (openAccess_wf hr) ‹_›)
                · split
                  exact storeFailed_wf (snd_wf (openAccess_wf hr) ‹_›)

theorem prefetchLine_wf {k gpa e} : Memory.wf (s.prefetchLine k gpa e).mem = true := by
  unfold prefetchLine
  extract_lets
  split
  · exact h
  · split
    · split
      · exact askGrant_wf h
      · split
        · exact h
        · split
          · exact shareLine_wf h
          · exact askLine_wf h
    · split
      · split
        · exact h
        · split
          · exact putLine_wf (fst_wf (fillLine_wf (invalidateOthers_wf (recallTo_wf h))) ‹_›)
          · exact h
      · split
        · exact fst_wf (readAt_wf h) ‹_›
        · exact h

theorem execPfl_wf {p e a i lit} : nextWf (execPfl p e a i lit s) := by
  unfold execPfl
  refine perform_wf h ?_
  intro s h
  extract_lets
  split
  split
  · exact snd_wf (free_wf h) ‹_›
  · have h1 := snd_wf (free_wf h) ‹_›
    split
    · split
      · exact h1
      · exact prefetchLine_wf h1
    · exact h1

theorem execInterlockedCompletion_wf {c id} : nextWf (execInterlockedCompletion c id s) := by
  unfold execInterlockedCompletion
  show Memory.wf _ = true
  split
  · exact h
  · split
    · exact endFlight_wf h
    · exact memStep_wf h
    · split
      · exact mcasNext_wf (fst_wf (settleLines_wf h) ‹_›)
      · exact later_wf (fst_wf (settleLines_wf h) ‹_›)
    · exact h
    · exact h

theorem execLineWriteMiss_wf {core id} : nextWf (execLineWriteMiss core id s) := by
  unfold execLineWriteMiss
  show Memory.wf _ = true
  split
  · exact h
  · split
    · exact later_wf (fst_wf (settle_wf h) ‹_›)
    · split
      · exact fst_wf (runWrite_wf (fst_wf (settle_wf h) ‹_›)) ‹_›
      · exact later_wf (fst_wf (runWrite_wf (fst_wf (settle_wf h) ‹_›)) ‹_›)

theorem execMcasLockTimeout_wf {m} : nextWf (execMcasLockTimeout m s) := by
  unfold execMcasLockTimeout
  show Memory.wf _ = true
  split
  · exact h
  · extract_lets
    split
    · exact h
    · exact mcasDecide_wf (setMcas_wf h)

theorem execDeferredFailure_wf {_c id f} : nextWf (execDeferredFailure _c id f s) := by
  unfold execDeferredFailure
  show Memory.wf _ = true
  split
  · exact endFlight_wf h
  · exact h

/-! Machine/Copy.lean. -/

theorem copyAway_wf {cl j k va gpa n} : Memory.wf (s.copyAway cl j k va gpa n).1.mem = true := by
  unfold copyAway
  dsimp only
  split
  · exact h
  · split
    · exact h
    · split
      · exact h
      · split
        · split
          · exact recallTo_wf h
          · exact send_wf (recallTo_wf h)
        · split
          · exact h
          · exact send_wf h

theorem copyMem_wf {cl j va n} : Memory.wf (s.copyMem cl j va n).1.mem = true := by
  unfold copyMem
  split
  · exact fst_wf (translate_wf h) ‹_›
  · have h1 := fst_wf (translate_wf h) ‹_›
    extract_lets
    split
    · exact copyAway_wf h1
    · split
      · exact h1
      · split
        · exact revokeFor_wf h1
        · split <;> exact fst_wf (homeRead_wf h1) ‹_›

theorem copyIndex_wf {cl j i} : Memory.wf (s.copyIndex cl j i).1.mem = true := copyMem_wf h

theorem copySource_wf {cl j a} : Memory.wf (s.copySource cl j a).1.mem = true := by
  unfold copySource
  split
  · exact h
  · exact copyMem_wf h

theorem copyByte_wf {cl j o} : Memory.wf (s.copyByte cl j o).1.mem = true := by
  unfold copyByte
  split
  · exact copySource_wf h
  · split
    · extract_lets
      split
      · exact fst_wf (copyIndex_wf h) ‹_›
      · exact copySource_wf (fst_wf (copyIndex_wf h) ‹_›)
    · exact copyIndex_wf h

theorem copyBytes_wf {cl j o fuel} : Memory.wf (s.copyBytes cl j o fuel).1.mem = true := by
  induction fuel generalizing s o with
  | zero =>
    exact h
  | succ n ih =>
    unfold copyBytes
    split
    · split
      · exact fst_wf (ih (fst_wf (copyByte_wf h) ‹_›)) ‹_›
      · exact ih (fst_wf (copyByte_wf h) ‹_›)
    · exact copyByte_wf h

theorem copyOut_wf {cl j k a n v} : Memory.wf (s.copyOut cl j k a n v).mem = true := by
  unfold copyOut
  dsimp only
  split
  · exact failCopy_wf (fst_wf (translate_wf h) ‹_›)
  · have h1 := fst_wf (translate_wf h) ‹_›
    split
    · split
      · exact later_wf h1
      · split
        · exact later_wf (revokeFor_wf h1)
        · split
          · exact later_wf (landCopy_wf (fst_wf (homeStore_wf h1) ‹_›))
          · exact failCopy_wf (fst_wf (homeStore_wf h1) ‹_›)
    · split
      · exact failCopy_wf h1
      · split
        · refine later_wf ?_
          split
          · exact setCopy_wf (fst_wf (sendMerge_wf (dropCopies_wf h1)) ‹_›)
          · exact fst_wf (sendMerge_wf (dropCopies_wf h1)) ‹_›
        · exact failCopy_wf (fst_wf (sendMerge_wf (dropCopies_wf h1)) ‹_›)

theorem copyUnit_wf {cl j k} : Memory.wf (s.copyUnit cl j k).mem = true := by
  unfold copyUnit
  extract_lets again
  have hagain : ∀ {s}, Memory.wf s.mem = true → Memory.wf (again s).mem = true := fun h => later_wf h
  have hfirst : Memory.wf (if j.kind == 2 then s.copyIndex cl j (k / 2) else (s, .ok 0)).1.mem = true := by
    split
    · exact copyIndex_wf h
    · exact h
  clear_value again
  split
  · exact failCopy_wf (fst_wf hfirst ‹_›)
  · exact hagain (fst_wf hfirst ‹_›)
  · next he =>
    have h1 := fst_wf hfirst he
    extract_lets
    split
    · exact failCopy_wf h1
    · split
      split
      · exact failCopy_wf (fst_wf (copyBytes_wf h1) ‹_›)
      · exact hagain (fst_wf (copyBytes_wf h1) ‹_›)
      · next hv =>
        have h2 := fst_wf (copyBytes_wf h1) hv
        split
        · exact later_wf (landCopy_wf h2)
        · split
          · exact later_wf (landCopy_wf (scratchPut_wf h2))
          · exact copyOut_wf h2

theorem execAcopy_wf {p a i lit} : nextWf (execAcopy p a i lit s) := by
  unfold execAcopy
  refine perform_wf h ?_
  intro s h
  extract_lets
  split
  · exact takeTrap_wf _ _ h
  · split
    · exact takeTrap_wf _ _ (fst_wf (readNow_wf h) ‹_›)
    · exact stall_wf (fst_wf (readNow_wf h) ‹_›)
    · have h1 := fst_wf (readNow_wf h) ‹_›
      extract_lets
      split
      · exact trap_wf h1
      · split
        · exact trap_wf h1
        · split
          · exact stall_wf h1
          · split
            extract_lets
            exact later_wf (barrierAdd_wf (setCluster_wf (snd_wf (openAccess_wf h1) ‹_›)))

theorem execCopyUnitLands_wf {cl copy} : nextWf (execCopyUnitLands cl copy s) := by
  unfold execCopyUnitLands
  show Memory.wf _ = true
  split
  · exact h
  · extract_lets
    split
    · exact h
    · split
      · exact later_wf h
      · split
        split
        · exact snd_wf (free_wf h) ‹_›
        · exact copyUnit_wf (snd_wf (free_wf h) ‹_›)

theorem execCopyFault_wf {cl copy cause} : nextWf (execCopyFault cl copy cause s) := by
  unfold execCopyFault
  show Memory.wf _ = true
  split
  · exact h
  · refine failCopy_wf ?_
    exact h

/-! Machine/Fabric.lean. -/

theorem answer_wf {f r} : Memory.wf (s.answer f r).1.mem = true := by
  unfold answer
  split
  · exact reply_wf h
  · exact reply_wf h
  · exact h
  · exact h

theorem takeRd_wf {f} : Memory.wf (s.takeRd f).1.mem = true := by
  unfold takeRd
  extract_lets
  split
  · exact reply_wf h
  · split
    exact answer_wf (fst_wf (engineGet_wf h) ‹_›)

theorem takeRdl_wf {f} : Memory.wf (s.takeRdl f).1.mem = true := by
  unfold takeRdl
  extract_lets l page mode lock give waits s1
  have hgive : ∀ {s d}, Memory.wf s.mem = true → Memory.wf (give s d).1.mem = true := by
    intro s d h
    dsimp only [give]
    refine reply_wf ?_
    split <;> exact h
  have h1 : Memory.wf s1.mem = true := by
    dsimp only [s1]
    split
    · exact invalidateOthers_wf (recallTo_wf h)
    · exact h
  clear_value give s1
  split
  · exact reply_wf h
  · exact reply_wf h
  · split
    · exact hgive (fst_wf (siltLoad_wf h) ‹_›)
    · exact answer_wf (fst_wf (siltLoad_wf h) ‹_›)
  · split
    · exact h
    · split
      · exact revokeFor_wf h
      · split
        · exact reply_wf (fst_wf (homeLine_wf h1) ‹_›)
        · exact hgive (fst_wf (homeLine_wf h1) ‹_›)

theorem takeWr_wf {f} : Memory.wf (s.takeWr f).1.mem = true := by
  unfold takeWr
  extract_lets a n v
  have hput : Memory.wf (if n == 0 then (s, .done 0)
      else s.enginePut f.space (f.key.setWidth 8) a n v .plain).1.mem = true := by
    split
    · exact h
    · exact enginePut_wf h
  split
  · split
    · exact reply_wf (windowPut_wf h)
    · exact reply_wf h
  · split
    · next hint =>
      have h1 := fst_wf hput hint
      refine reply_wf ?_
      split
      · exact h1
      · exact addWatch_wf h1
    · exact answer_wf (fst_wf hput ‹_›)

theorem putCipher_wf {l c tag} {t} (e : s.putCipher l c tag = .ok t) : Memory.wf t.mem = true := by
  unfold putCipher at e
  split at e
  · cases e
    exact storeCipher_wf h
  · cases e

theorem mergeHome_wf {f mask} : Memory.wf (siltEnd (s.mergeHome f mask)).mem = true := by
  unfold mergeHome
  extract_lets l d s1 r
  have h1 : Memory.wf s1.mem = true := invalidateOthers_wf (recallTo_wf h)
  clear_value s1
  split
  · exact h
  · split
    · exact h
    · exact h
    · split
      · split
        · exact siltCipher_wf h
        · exact h
      · split
        · exact h
        · exact siltPut_wf h
    · have hr : ∀ {t}, r = .ok t → Memory.wf t.mem = true := by
        intro t e
        dsimp only [r] at e
        split at e
        · exact homeWrite_wf h1 e
        · split at e
          · exact putCipher_wf h1 e
          · cases e
            exact h1
      clear_value r
      cases r with
      | ok t => exact hr rfl
      | error => exact h1

theorem takeWrm_wf {f} : Memory.wf (s.takeWrm f).1.mem = true := by
  unfold takeWrm
  extract_lets l mine unlock awaited r s1 src s2
  have hr : Memory.wf (siltEnd r).mem = true := mergeHome_wf h
  clear_value r
  have h1 : Memory.wf s1.mem = true := by
    dsimp only [s1]
    split <;> exact hr
  have h2 : Memory.wf s2.mem = true := by
    dsimp only [s2]
    split
    · refine wakeHeld_wf ?_
      exact h1
    · exact h1
  split
  · exact h
  · split <;> split
    · exact revokeFor_wf h
    · exact reply_wf h2
    · exact revokeFor_wf h
    · exact reply_wf h2

theorem takeAmo_wf {f} : Memory.wf (s.takeAmo f).1.mem = true := by
  unfold takeAmo
  extract_lets
  split
  exact answer_wf (fst_wf (atomicHome_wf h) ‹_›)

theorem takeRstf_wf {f} : Memory.wf (s.takeRstf f).1.mem = true := by
  unfold takeRstf
  extract_lets a m v r k g
  have hr : Memory.wf r.1.mem = true := by
    dsimp only [r]
    split
    · split <;> exact h
    · split <;> exact h
    · exact flagSilt_wf h
    · exact flagData_wf h
  clear_value r
  split
  · exact reply_wf hr
  · exact hr
  · split
    · exact reply_wf hr
    · split
      · exact reply_wf (fst_wf (atomicHome_wf hr) ‹_›)
      · exact reply_wf (fst_wf (atomicHome_wf hr) ‹_›)
      · next ha =>
        have h1 := fst_wf (atomicHome_wf hr) ha
        exact h1

theorem takeTok_wf {f} : Memory.wf (s.takeTok f).1.mem = true := by
  unfold takeTok
  extract_lets a id his found src s1 b s2 s3
  split
  · split
    exact answer_wf (fst_wf (tokenAdd_wf h) ‹_›)
  · split
    next hn =>
    have h1 := snd_wf (newId_wf h) hn
    extract_lets
    split
    · exact answer_wf (fst_wf (tokenTry_wf h1) ‹_›)
    · next ht =>
      have h2 := fst_wf (tokenTry_wf h1) ht
      refine reply_wf ?_
      split
      · refine later_wf ?_
        exact h2
      · refine later_wf ?_
        exact h2
  · refine reply_wf ?_
    exact h
  · exact reply_wf (later_wf h)
  · refine reply_wf ?_
    dsimp only [s3]
    split
    · exact h
    · split
      · refine tokenTaken_wf ?_
        exact h
      · refine tokenFailed_wf ?_
        exact h

theorem takeMlock_wf {f} : Memory.wf (s.takeMlock f).1.mem = true := by
  unfold takeMlock
  extract_lets
  split
  · exact h
  · split
    · exact revokeFor_wf h
    · split
      · refine reply_wf (fst_wf (mcasRead_wf ?_) ‹_›)
        exact h
      · refine reply_wf (mcasLog_wf (fst_wf (mcasRead_wf ?_) ‹_›))
        exact h

theorem takeMcommit_wf {f} : Memory.wf (s.takeMcommit f).1.mem = true := by
  unfold takeMcommit
  extract_lets
  split
  · refine reply_wf ?_
    exact h
  · refine reply_wf ?_
    refine wakeHeld_wf ?_
    extract_lets
    split
    · refine mcasWrite_wf ?_
      exact h
    · exact h

theorem takeMquery_wf {f} : Memory.wf (s.takeMquery f).1.mem = true := by
  unfold takeMquery
  extract_lets
  exact reply_wf h

theorem takeGreq_wf {f} : Memory.wf (s.takeGreq f).1.mem = true := by
  unfold takeGreq
  extract_lets
  split
  · exact h
  · split
    · exact setGrant_wf h
    · exact grantRun_wf (startRevoke_wf h)

theorem takeGrev_wf {f} : Memory.wf (s.takeGrev f).1.mem = true := by
  unfold takeGrev
  extract_lets page w s1 g st s2 void fab s3 a0 a
  have h2 : Memory.wf s2.mem = true := setGrant_wf (recallPage_wf h)
  have h3 : Memory.wf s3.mem = true := h2
  clear_value s3
  split
  · exact h
  · exact reply_wf (send_wf h3)

theorem takeGack_wf {f} : Memory.wf (s.takeGack f).1.mem = true := reply_wf (grantAck_wf h)

theorem listDevice_wf {t v d} : Memory.wf (s.listDevice t v d).mem = true := by
  unfold listDevice
  split
  · exact addHolder_wf h
  · exact h

theorem sendPart_wf {f v part x} : Memory.wf (s.sendPart f v part x).mem = true := reply_wf h

theorem heldSlot_wf {cl t v} : Memory.wf (s.heldSlot cl t v).1.mem = true := by
  unfold heldSlot
  split
  · exact h
  · extract_lets
    split
    · exact h
    · exact mergeSlot_wf h

theorem answerTile_wf {f t want fuel} : Memory.wf (s.answerTile f t want fuel).1.mem = true := by
  induction fuel generalizing s with
  | zero =>
    unfold answerTile
    exact reply_wf h
  | succ n ih =>
    unfold answerTile
    extract_lets
    split
    · exact reply_wf (listDevice_wf h)
    · split
      · exact reply_wf (listDevice_wf h)
      · split
        · exact sendPart_wf (listDevice_wf (fst_wf (heldSlot_wf h) ‹_›))
        · exact ih (dropHolder_wf (fst_wf (heldSlot_wf h) ‹_›))
        · exact fst_wf (heldSlot_wf h) ‹_›
    · exact reply_wf h
    · exact reply_wf h
    · exact reply_wf h
    · split <;> refine reply_wf ?_ <;> exact h

theorem askAgain_wf {t} : Memory.wf (s.askAgain t).mem = true := by
  unfold askAgain
  refine foldl_wf ?_ h
  intro s a h
  refine foldl_wf ?_ h
  intro s a h
  extract_lets
  split
  · split
    · exact later_wf h
    · exact h
  · exact h

theorem takeTreq_wf {f} : Memory.wf (s.takeTreq f).1.mem = true := by
  unfold takeTreq
  extract_lets t v extra d want
  split
  · refine answerTile_wf ?_
    split
    · exact dropHolder_wf h
    · exact h
  · split
    · exact reply_wf h
    · exact reply_wf (setVer_wf h)
  · exact reply_wf (publishHome_wf h)
  · exact reply_wf (abandonHome_wf h)
  · generalize hr : List.foldl _ _ _ = r
    have h1 : Memory.wf r.1.mem = true := by
      rw [← hr]
      refine foldl_fst_wf ?_ h
      intro p cl hp
      split
      · exact hp
      · split <;> exact fst_wf (heldSlot_wf hp) ‹_›
    obtain ⟨s1, found, busy⟩ := r
    dsimp only
    split
    · exact sendPart_wf h1
    · split
      · exact h1
      · exact reply_wf h1
  · exact reply_wf h
  · dsimp only
    exact reply_wf (askAgain_wf h)

theorem setIncoming_wf {i keep} : Memory.wf (s.setIncoming i keep).mem = true := h

theorem takeTwb_wf {f} : Memory.wf (s.takeTwb f).1.mem = true := by
  unfold takeTwb
  extract_lets
  split
  · exact reply_wf (setIncoming_wf h)
  · split
    · exact reply_wf (setIncoming_wf h)
    · split
      · exact reply_wf (mergedHome_wf (setIncoming_wf h))
      · split
        · exact reply_wf h
        · split
          · exact reply_wf (setIncoming_wf h)
          · split
            · exact reply_wf (setIncoming_wf h)
            · split
              · exact reply_wf (setIncoming_wf (fst_wf (tensor_wf h) ‹_›))
              · exact reply_wf (setIncoming_wf (fst_wf (tensor_wf h) ‹_›))
              · have h1 := fst_wf (tensor_wf h) ‹_›
                split
                · exact reply_wf (setIncoming_wf (fst_wf (mapPages_wf h1) ‹_›))
                · have h2 := fst_wf (mapPages_wf h1) ‹_›
                  split
                  · exact revokeFor_wf h2
                  · split
                    · exact reply_wf (setIncoming_wf (fst_wf (writeMapped_wf h2) ‹_›))
                    · exact reply_wf (mergedHome_wf (setIncoming_wf (fst_wf (writeMapped_wf h2) ‹_›)))

theorem takeOwn_wf {f} : Memory.wf (s.takeOwn f).1.mem = true := by
  unfold takeOwn
  extract_lets
  split
  · split
    · exact fst_wf (tokenAdd_wf h) ‹_›
    · exact log_wf (fst_wf (tokenAdd_wf h) ‹_›)
    · exact fst_wf (tokenAdd_wf h) ‹_›
  · split
    · split
      · exact h
      · split
        · exact h
        · exact h
        · split
          · exact ok_wf (mergeHome_wf h) ‹_›
          · exact error_wf (mergeHome_wf h) ‹_›
        · split
          · exact revokeFor_wf h
          · split
            · exact homeWrite_wf (invalidateOthers_wf (recallTo_wf h)) ‹_›
            · exact h
    · split
      · exact closeAccess_wf (fst_wf (atomicHome_wf h) ‹_›)
      · exact storeFailed_wf (fst_wf (atomicHome_wf h) ‹_›)
      · exact fst_wf (atomicHome_wf h) ‹_›

theorem takeFlit_wf {f} : Memory.wf (s.takeFlit f).1.mem = true := by
  unfold takeFlit
  split
  · exact takeRd_wf h
  · exact takeRdl_wf h
  · exact takeWr_wf h
  · exact takeWrm_wf h
  · exact takeAmo_wf h
  · exact takeRstf_wf h
  · exact takeGreq_wf h
  · exact takeGrev_wf h
  · exact takeGack_wf h
  · exact takeMlock_wf h
  · exact reply_wf h
  · exact takeMcommit_wf h
  · exact takeMquery_wf h
  · exact takeTreq_wf h
  · exact takeTwb_wf h
  · exact takeTok_wf h
  · exact h

theorem hold_wf {f} : Memory.wf (s.hold f).mem = true := h

theorem performFlit_wf {f} : Memory.wf (s.performFlit f).mem = true := by
  unfold performFlit
  extract_lets
  split
  · exact hold_wf h
  · split
    · exact fst_wf (takeFlit_wf h) ‹_›
    · exact hold_wf (fst_wf (takeFlit_wf h) ‹_›)

theorem pumpList_wf {l : List Flit} : Memory.wf (pumpList l s).mem = true := by
  induction l generalizing s with
  | nil => exact h
  | cons f r ih =>
    unfold pumpList
    extract_lets
    split
    · exact ih (hold_wf h)
    · split
      · refine ih ?_
        refine fst_wf ?_ ‹_›
        split
        · exact takeOwn_wf h
        · exact takeFlit_wf h
      · refine ih ?_
        refine hold_wf ?_
        refine fst_wf ?_ ‹_›
        split
        · exact takeOwn_wf h
        · exact takeFlit_wf h

theorem pump_wf : Memory.wf s.pump.mem = true := by
  unfold pump
  extract_lets
  refine wakeAfter_wf (pumpList_wf ?_)
  exact h

theorem takeEarly_wf {d fuel} : Memory.wf (s.takeEarly d fuel).mem = true := by
  induction fuel generalizing s with
  | zero =>
    exact h
  | succ n ih =>
    unfold takeEarly
    extract_lets
    split
    · exact h
    · extract_lets
      exact ih (performFlit_wf (setPeer_wf h))

theorem answerAgain_wf {c} : Memory.wf (s.answerAgain c).mem = true := by
  unfold answerAgain
  extract_lets
  exact emit_wf (setPeer_wf h)

theorem landFlit_wf {f} : Memory.wf (s.landFlit f).mem = true := by
  unfold landFlit
  extract_lets
  split
  · exact answerAgain_wf h
  · split
    · exact h
    · split
      · split
        · exact h
        · exact performFlit_wf h
      · split
        · exact takeEarly_wf (performFlit_wf (setPeer_wf h))
        · split
          · exact setPeer_wf h
          · exact h

theorem credit_wf {f} : Memory.wf (s.credit f).mem = true := by
  unfold credit
  split
  · exact snd_wf (pick_wf h) ‹_›
  · next hp =>
    have h1 := snd_wf (pick_wf h) hp
    refine setPeer_wf ?_
    exact h1

theorem receive_wf {f} {take : State → State}
    (hf : ∀ {s : State}, Memory.wf s.mem = true → Memory.wf (take s).mem = true) :
    Memory.wf (s.receive f take).mem = true := by
  unfold receive
  extract_lets
  split
  · exact h
  · split
    · exact credit_wf h
    · split
      · exact emit_wf (credit_wf h)
      · exact pump_wf (hf (credit_wf h))

theorem transact_wf {f type ord} : Memory.wf (s.transact f type ord).mem = true := by
  unfold transact
  extract_lets
  exact receive_wf h (fun h => landFlit_wf h)

theorem complete_wf {f} : Memory.wf (s.complete f).mem = true := by
  unfold complete
  extract_lets
  split
  · split
    · exact setPeer_wf h
    · exact h
  · exact endTxn_wf (dropTxn_wf h)

theorem linkEvent_wf {d e} : Memory.wf (s.linkEvent d e).mem = true := h

theorem spareChannel_wf {dim ch} : Memory.wf (s.spareChannel dim ch).mem = true := by
  unfold spareChannel
  extract_lets c s1 s2 inLease heir s3
  have h1 : Memory.wf s1.mem = true := by
    dsimp only [s1]
    clear_value c
    split
    · exact linkEvent_wf h
    · exact h
  have h2 : Memory.wf s2.mem = true := mapChannel_wf h1
  have hin : ∀ {s : State} {f}, Memory.wf s.mem = true → Memory.wf (inLease s f).mem = true := fun h => h
  clear_value inLease
  split
  · refine hin ?_
    clear_value heir
    dsimp only [s3]
    split
    · split
      · exact mapChannel_wf h2
      · exact h2
    · exact h2
  · split
    · exact h2
    · exact hin (mapChannel_wf h2)

theorem retrain_wf {peer dim ch} : Memory.wf (s.retrain peer dim ch).mem = true := h

theorem heartbeat_wf {peer dim ch} : Memory.wf (s.heartbeat peer dim ch).mem = true := by
  unfold heartbeat
  extract_lets
  split <;> exact h

theorem silence_wf {peer} : Memory.wf (s.silence peer).mem = true := by
  unfold silence
  split
  · exact h
  · exact declareDead_wf (linkEvent_wf h)

theorem watchLinks_wf : Memory.wf s.watchLinks.mem = true := by
  unfold watchLinks
  extract_lets
  split
  · exact h
  · refine foldl_wf (fun h => silence_wf h) ?_
    refine foldl_wf ?_ h
    intro s a h
    refine foldl_wf ?_ h
    intro s a h
    extract_lets
    split
    split
    · exact heartbeat_wf h
    · exact h

theorem execHb_wf {f} : nextWf (execHb f s) := by
  unfold execHb
  extract_lets
  show Memory.wf _ = true
  split
  · exact setPeer_wf h
  · exact h

theorem execFlitBadType_wf {f dim ch} : nextWf (execFlitBadType f dim ch s) := by
  unfold execFlitBadType
  extract_lets
  exact linkEvent_wf (setPeer_wf h)

theorem execTransactionResend_wf {id} : nextWf (execTransactionResend id s) := by
  unfold execTransactionResend
  show Memory.wf _ = true
  split
  · exact pump_wf h
  · extract_lets first x1 src s1 s2 s3
    split
    · split
      · exact failTxn_wf h
      · split
        · exact later_wf h
        · split
          · exact fst_wf (firstSend_wf h) ‹_›
          · exact later_wf (fst_wf (firstSend_wf h) ‹_›)
    · have h1 : Memory.wf s1.mem = true := h
      have h2 : Memory.wf s2.mem = true := emit_wf h1
      have h3 : Memory.wf s3.mem = true := by
        dsimp only [s3]
        split
        · split
          · exact h2
          · exact linkEvent_wf h2
        · exact h2
      split
      · exact h
      · split
        · exact later_wf h3
        · exact h3

theorem execFabricTimeout_wf {id} : nextWf (execFabricTimeout id s) := by
  unfold execFabricTimeout
  show Memory.wf _ = true
  split
  · exact h
  · split
    · exact failTxn_wf h
    · exact h

theorem execFlitReplay_wf {peer dim ch} : nextWf (execFlitReplay peer dim ch s) := by
  unfold execFlitReplay
  dsimp only
  show Memory.wf _ = true
  split
  · exact retrain_wf (mapChannel_wf (pick_wf (linkEvent_wf h)))
  · exact mapChannel_wf (pick_wf (linkEvent_wf h))

theorem execRetrainComplete_wf {peer dim ch ok} : nextWf (execRetrainComplete peer dim ch ok s) := by
  unfold execRetrainComplete
  extract_lets
  show Memory.wf _ = true
  split
  · exact h
  · split
    · exact mapChannel_wf h
    · split
      · exact linkEvent_wf (mapChannel_wf h)
      · exact mapChannel_wf h

theorem execChannelSpare_wf {dim ch} : nextWf (execChannelSpare dim ch s) := by
  unfold execChannelSpare
  extract_lets
  show Memory.wf _ = true
  split
  · exact h
  · exact spareChannel_wf h

theorem execDeathNotice_wf {dead reporter epoch} : nextWf (execDeathNotice dead reporter epoch s) := by
  unfold execDeathNotice
  show Memory.wf _ = true
  split
  · exact pump_wf (declareDead_wf h)
  · exact h

theorem execJoinNotice_wf {dev epoch} : nextWf (execJoinNotice dev epoch s) := by
  unfold execJoinNotice
  extract_lets
  show Memory.wf _ = true
  split <;> exact h

/-! Machine/Contexts.lean. -/

theorem execAgeOverride_wf {core} : nextWf (execAgeOverride core s) := by
  unfold execAgeOverride
  extract_lets
  show Memory.wf _ = true
  split
  · exact h
  · exact setCore_wf h

theorem execExposedResultLands_wf {c} : nextWf (execExposedResultLands c s) := by
  unfold execExposedResultLands
  extract_lets
  exact setCtx_wf h

theorem execTrapEntry_wf {c f} : nextWf (execTrapEntry c f s) := by
  unfold execTrapEntry
  show Memory.wf _ = true
  split
  · exact trapAt_wf (withdraw_wf h)
  · exact h

/-! Machine/Vector.lean. -/

theorem vun_wf {lat k d a f} : nextWf (vun lat k d a f s) := h

theorem execVcvt_wf {k d a m src t} : nextWf (execVcvt k d a m src t s) := by
  unfold execVcvt
  extract_lets
  split
  · refine wv_wf ?_
    exact h
  · exact vun_wf h

end Sys2Proof.Machine.State
end

