-- ==== Sys2Proof/Proofs/CanonicalStep.lean ====
section
/-! Memory stays canonical under the instructions, the issue of a bundle and a step:
one lemma an operation, each from those of the operations that it is made of. -/

namespace Sys2Proof.Machine.State

variable {s : State} (h : Memory.wf s.mem = true)
include h

/-! Machine/Dispatch.lean. -/

theorem exec_wf {i : Instr} : nextWf (exec i s) := by
  unfold exec
  cases i with
  | emptyBundle | vadd | vsub | vmul | vfma | vfms | vmin | vmax | vabs | vneg | vabd | vadds | vsubs | vmulh
    | vshl | vshr | vsar | vand | vor | vxor | vandn | vpopc | vclz | vceq | vcne | vclt | vcle | vsel | vmov
    | vimm | viota | vrnd | vexp2 | vlog2 | vrcp | vrsq | vredsum | vredmin | vredmax | vscan | vperm
    | vslide | vtopk | vbset | vkand | vkor | vkxor | vkandn | vkpop | vkfirst | vshli | vshri | vsari
    | channelRetrain | flitAgeDiscard | mgpreRequest | mgpreResume | powerLimitExceeded | powerBelowLimit => exact h
  | add | sub | and | or | xor | andn | shl | shr | sar | rol | minI | maxI | minN | maxN | mul | mulhI
    | mulhN | divI | divN | remI | remN | clz | ctz | popc | brev | bswap | sel | adds | extI | extN | ins
    | addi | andi | ori | xori | shli | shri | sari | li | lih => exact aluResult_wf h
  | cmp | cmpi | qlog | vany | vall => exact perform_wf h (fun h => wq_wf h)
  | pbr => exact execPbr_wf h
  | pbx => exact perform_wf h (fun h => push_wf h)
  | br => exact perform_wf h (fun h => transferTo_wf h)
  | call => exact execCall_wf h
  | loop => exact execLoop_wf h
  | tend => exact perform_wf h (fun h => endMember_wf h)
  | trap | sys => exact perform_wf h (fun h => callOut_wf h)
  | brk => exact execBrk_wf h
  | nap => exact perform_wf h (fun h => h)
  | srd => exact execSrd_wf h
  | swr => exact execSwr_wf h
  | fence => exact execFence_wf h
  | tret => exact tretForm_wf h (fun h => leaveTo_wf h)
  | tretSkip => exact execTretSkip_wf h
  | tretEnd => exact execTretEnd_wf h
  | tretTo => exact tretForm_wf h (fun h => h)
  | xtovBc | xtovIns => exact perform_wf h (fun h => wvShared_wf h)
  | vtox | vtoxR | ktox => exact perform_wf h (fun h => wx_wf h)
  | xtok => exact perform_wf h (fun h => wk_wf h)
  | spawn => exact execSpawn_wf h
  | binit => exact execBinit_wf h
  | barrive => exact execBarrive_wf h
  | bexpect => exact perform_wf h (fun h => onBarrier_wf h (fun h => barrierAdd_wf h))
  | bwait => exact execBwait_wf h
  | btest => exact execBtest_wf h
  | breset => exact execBreset_wf h
  | toksig => exact execToksig_wf h
  | tokwait => exact execTokwait_wf h
  | gstart => exact execGstart_wf h
  | leaseReq => exact execLeaseReq_wf h
  | leaseRel => exact execLeaseRel_wf h
  | leaseQry => exact execLeaseQry_wf h
  | mqpush => exact execMqpush_wf h
  | mqstat => exact execMqstat_wf h
  | sbind => exact execSbind_wf h
  | sprobe => exact execSprobe_wf h
  | snew => exact execSnew_wf h
  | spub => exact execSpub_wf h
  | srel => exact perform_wf h (fun h => push_wf (releaseStream_wf h))
  | spin => exact execSpin_wf h
  | spinRef => exact execSpinRef_wf h
  | sunpin => exact execSunpin_wf h
  | sunpinRef => exact execSunpinRef_wf h
  | sseek => exact execSseek_wf h
  | sinfo => exact execSinfo_wf h
  | sedge => exact execSedge_wf h
  | tldv => exact execTldv_wf h
  | tstv => exact execTstv_wf h
  | tldx => exact execTldx_wf h
  | twb => exact execTwb_wf h
  | tpref => exact execTpref_wf h
  | wayconv => exact execWayconv_wf h
  | wayrest => exact execWayrest_wf h
  | lds => exact execLds_wf h
  | sts => exact execSts_wf h
  | ld => exact perform_wf h (fun h => loadWord_wf h)
  | ldp => exact perform_wf h (fun h => postAdd_wf (loadWord_wf h))
  | st => exact perform_wf h (fun h => storeWord_wf h)
  | stp => exact perform_wf h (fun h => postAdd_wf (storeWord_wf h))
  | vld | vgld => exact perform_wf h (fun h => vecLoad_wf h)
  | vst | vsst => exact perform_wf h (fun h => vecStore_wf h)
  | amo | cas => exact perform_wf h (fun h => atomicWord_wf h)
  | vamo => exact execVamo_wf h
  | mcas => exact execMcas_wf h
  | rwb | rinv | rwbinv => exact perform_wf h (fun h => rangeWord_wf h)
  | rstf => exact execRstf_wf h
  | acopy => exact execAcopy_wf h
  | pfl => exact execPfl_wf h
  | vcvt => exact execVcvt_wf h
  | mpass => exact execMpass_wf h
  | mop => exact execMop_wf h
  | mgath => exact execMgath_wf h
  | minit => exact execMinit_wf h
  | mrd => exact execMrd_wf h
  | mwr => exact execMwr_wf h
  | mst => exact execMst_wf h
  | mqpushFullTimeout => exact execMqpushFullTimeout_wf h
  | mcasLockTimeout => exact execMcasLockTimeout_wf h
  | mstComplete => exact execMstComplete_wf h
  | interlockedCompletion => exact execInterlockedCompletion_wf h
  | lanternAccept => exact execLanternAccept_wf h
  | inputArrival => exact readyCheck_wf (sendInputs_wf h)
  | taskDispatch => exact dispatchOne_wf h
  | classAgeing => exact execClassAgeing_wf h
  | class0PreemptDecision => exact execClass0PreemptDecision_wf h
  | versionWaitTimeout => exact execVersionWaitTimeout_wf h
  | parkedTaskResume => exact execParkedTaskResume_wf h
  | memberEnd => exact execMemberEnd_wf h
  | preemption => exact execPreemption_wf h
  | saveRecordComplete => exact execSaveRecordComplete_wf h
  | taskResume => exact execTaskResume_wf h
  | loamAllocation => exact foldl_wf (fun h => tryAlloc_wf h) h
  | allocationTimeout => exact execAllocationTimeout_wf h
  | homeTileRequest | awaitListRetry => exact homeRequest_wf h
  | tileFill => exact execTileFill_wf h
  | tileForward => exact execTileForward_wf h
  | snewAtHome => exact execSnewAtHome_wf h
  | publishAtHome => exact execPublishAtHome_wf h
  | abandonAtHome => exact execAbandonAtHome_wf h
  | tileWritebackMerge => exact underKeys_wf h (fun h => mergeSlot_wf h)
  | wayconvPinTimeout => exact execWayconvPinTimeout_wf h
  | wayWake => exact execWayWake_wf h
  | itineraryEntry => exact execItineraryEntry_wf h
  | lineWriteMiss => exact execLineWriteMiss_wf h
  | copyUnitLands => exact execCopyUnitLands_wf h
  | bwaitPoll => exact execBwaitPoll_wf h
  | launchNode => exact execLaunchNode_wf h
  | ifNode => exact execIfNode_wf h
  | whileNode => exact execWhileNode_wf h
  | switchNode => exact execSwitchNode_wf h
  | signalNode => exact execSignalNode_wf h
  | waitNode => exact execWaitNode_wf h
  | callNode => exact execCallNode_wf h
  | endNode => exact execEndNode_wf h
  | launchWatchMet => exact execLaunchWatchMet_wf h
  | liveNodeTimeout => exact execLiveNodeTimeout_wf h
  | cmdStart => exact command_wf h (fun h => startInstance_wf h)
  | cmdTask => exact execCmdTask_wf h
  | cmdSignal => exact execCmdSignal_wf h
  | tokenWaitRetry => exact execTokenWaitRetry_wf h
  | tokenReexamine => exact execTokenReexamine_wf h
  | transactionResend => exact execTransactionResend_wf h
  | fabricTimeout => exact execFabricTimeout_wf h
  | leaseHeadGrant => exact serveLeases_wf h
  | leaseTuned => exact execLeaseTuned_wf h
  | leaseTermExpiry => exact execLeaseTermExpiry_wf h
  | leaseNoticeExpiry => exact execLeaseNoticeExpiry_wf h
  | leaseDrained => exact execLeaseDrained_wf h
  | leaseQueueExpiry => exact execLeaseQueueExpiry_wf h
  | leaseEntryTimeout => exact execLeaseEntryTimeout_wf h
  | guestPreemptLate => exact execGuestPreemptLate_wf h
  | napEnd => exact execNapEnd_wf h
  | mpassLands => exact execMpassLands_wf h
  | ageOverride => exact execAgeOverride_wf h
  | exposedResultLands => exact execExposedResultLands_wf h
  | deferredFailure => exact execDeferredFailure_wf h
  | trapEntry => exact execTrapEntry_wf h
  | wayGate => exact execWayGate_wf h
  | lineReadMiss => exact execLineReadMiss_wf h
  | lineInvalidation => exact execLineInvalidation_wf h
  | lineEviction => exact execLineEviction_wf h
  | byteMaskMerge => exact execByteMaskMerge_wf h
  | copyFault => exact execCopyFault_wf h
  | qtailDoorbell => exact execQtailDoorbell_wf h
  | dbgctlHaltreq => exact execDbgctlHaltreq_wf h
  | dbgctlResume => exact resumeCtx_wf h
  | dbgctlStep => exact execDbgctlStep_wf h
  | debugHalt => exact execDebugHalt_wf h
  | debugWindowWrite => exact windowWrite_wf h
  | tlbinvAll | tlbinvSpace | tlbinvPage | cxlwinWrite | spaceRelease | nsset | prectlRequest
    | prectlWithdraw | fabricEnable | lightvesselEnable | attestRequest | keyLoad | keyClear | firmwareStage
    | fabricLeave | fabricJoin => exact regSet_wf h
  | flitReplay => exact execFlitReplay_wf h
  | channelSpare => exact execChannelSpare_wf h
  | rd | rdl | wr | wrm | fabricAmo | fabricRstf | greq | grev | gack | mlock | mdec | mcommit | mquery
    | treq | twbTxn | tok => exact transact_wf h
  | cpl => exact receive_wf h (fun h => complete_wf h)
  | hb => exact execHb_wf h
  | flitBadType => exact execFlitBadType_wf h
  | heartbeatDue => exact heartbeat_wf h
  | linkSilence => exact silence_wf h
  | deathNotice => exact execDeathNotice_wf h
  | joinNotice => exact execJoinNotice_wf h
  | leaseReserveReply => exact execLeaseReserveReply_wf h
  | guestTakePacket => exact execGuestTakePacket_wf h
  | guestCoherentRequest => exact execGuestCoherentRequest_wf h
  | guestCompletion => exact execGuestCompletion_wf h
  | guestFault => exact execGuestFault_wf h
  | guestStopped => exact execGuestStopped_wf h
  | guestSaved => exact execGuestSaved_wf h
  | guestPowerOverrun => exact fenceGuest_wf h
  | patrolScrub => exact execPatrolScrub_wf h
  | rowRepair => exact execRowRepair_wf h
  | presenceWrite => exact execPresenceWrite_wf h
  | attestReady => exact endReport_wf h
  | deviceReset => exact execDeviceReset_wf
  | dieFence => exact execDieFence_wf h
  | dieUnfence => exact regPut_wf h
  | laserOut | laserIn => exact setLaser_wf h
  | spareCore => exact spareCore_wf h
  | thermalThrottle | thermalFence | thermalRecovery => exact thermal_wf h
  | registerWrite => exact execRegisterWrite_wf h
  | guestLinkFailure => exact execGuestLinkFailure_wf h
  | retrainComplete => exact execRetrainComplete_wf h
  | hostSnoop => exact execHostSnoop_wf h

/-! Machine/Issue.lean. -/

theorem deferredTrap_wf {n f} : Memory.wf (s.deferredTrap n f).mem = true := by
  unfold deferredTrap
  extract_lets s1 issue s2 cx
  have h1 : Memory.wf s1.mem = true := withdraw_wf h
  clear_value s1
  refine takeTrap_wf _ _ ?_
  exact h1

theorem trapWord_wf {n} {w : State → Host.Outcome State Fault Refusal}
    (hw : ∀ {s : State}, Memory.wf s.mem = true → nextWf (w s)) {f} :
    nextWf (s.trapWord n w f) := by
  unfold trapWord
  extract_lets own base
  have hb : Memory.wf base.mem = true := by
    dsimp only [base]
    split
    · exact h
    · exact withdraw_wf h
  split
  · split
    · exact next_wf (hw hb) ‹_›
    · exact takeTrap_wf _ _ (withdraw_wf h)
  · exact hw hb

theorem wordIn_wf {n i} : nextWf (wordIn n i s) := by
  unfold wordIn
  have hx : nextWf (exec i { s with issue := { s.issue with slot := n, verdict := .done } }) := by
    refine exec_wf ?_
    exact h
  split
  · next he =>
    have h1 := next_wf hx he
    show Memory.wf _ = true
    split
    · exact h1
    · exact stall_wf h1
  · exact hx

theorem runWord_wf {cur : State} (hc : Memory.wf cur.mem = true) {n i} : nextWf (s.runWord n i cur) := by
  unfold runWord
  extract_lets w old
  have hw : ∀ {s : State}, Memory.wf s.mem = true → nextWf (w s) := fun h => wordIn_wf h
  clear_value w
  split
  · next t ht =>
    have h1 : Memory.wf t.mem = true := next_wf (hw hc) ht
    split
    case h_4 => exact trapWord_wf (marked_wf h) hw
    case h_5 => exact hw (marked_wf h)
    case h_6 | h_7 =>
      split
      · exact h1
      · split
        · next hu =>
          split
          · exact next_wf (hw h) hu
          · split
            next kept own _ =>
            have h3 : nextWf (w { cur with cx := { cur.cx with opens := kept } }) := by
              refine hw ?_
              exact hc
            split
            · next v hv =>
              have h4 : Memory.wf v.mem = true := next_wf h3 hv
              split
              · exact h4
              · exact stall_wf h
            · exact h3
        · exact hw h
    all_goals exact h1
  · exact hw hc

theorem runWords_wf {l} {cur : State} (hc : Memory.wf cur.mem = true) : nextWf (s.runWords l cur) := by
  induction l generalizing cur with
  | nil => exact hc
  | cons x r ih =>
    unfold runWords
    split
    · next t ht =>
      have h1 : Memory.wf t.mem = true := next_wf (runWord_wf h hc) ht
      split
      · exact ih h1
      · exact h1
    · exact runWord_wf h hc

theorem checkWord_wf {n i} {cur : State} (hc : Memory.wf cur.mem = true) : nextWf (s.checkWord n i cur) := by
  unfold checkWord
  split
  · next u hu =>
    split
    · exact hc
    · exact next_wf (runWord_wf h h) hu
  · exact runWord_wf h h

theorem heldBack_wf {acq ws} {o : Host.Outcome State Fault Refusal} (ho : nextWf o) :
    nextWf (s.heldBack acq ws o) := by
  unfold heldBack
  split
  · split
    · exact h
    · exact ho
  · exact ho

theorem firstPass_wf {acq l} {cur : State} (hc : Memory.wf cur.mem = true) : nextWf (s.firstPass acq l cur) := by
  induction l generalizing acq cur with
  | nil => exact hc
  | cons x r ih =>
    have hx : nextWf (if s.leaves x.2 then s.checkWord x.1 x.2 cur else s.runWord x.1 x.2 cur) := by
      split
      · exact checkWord_wf h hc
      · exact runWord_wf h hc
    unfold firstPass
    split
    · next t ht =>
      have h1 : Memory.wf t.mem = true := next_wf hx ht
      split
      · extract_lets o
        split
        · exact heldBack_wf hc (ih h1)
        · exact ih h1
      · exact h1
    · exact hx

theorem orDeferred_wf {ops} {o : Host.Outcome State Fault Refusal} (ho : nextWf o) : nextWf (s.orDeferred ops o) := by
  unfold orDeferred
  split
  · split
    · exact ho
    · exact deferredTrap_wf (marked_wf h)
  · exact ho

theorem parksFirst_wf {ops} {t} (e : s.parksFirst ops = some t) : Memory.wf t.mem = true := by
  obtain ⟨x, -, e⟩ := List.exists_of_findSome?_eq_some e
  dsimp only at e
  split at e
  · split at e
    · next u hu =>
      have h1 : Memory.wf u.mem = true := next_wf (wordIn_wf h) hu
      split at e
      · cases e
        exact h1
      · cases e
    · cases e
  · cases e

theorem runBundle_wf {ops} : nextWf (s.runBundle ops) := by
  unfold runBundle
  extract_lets last
  refine orDeferred_wf h ?_
  split
  · next hu => exact parksFirst_wf h hu
  · split
    · next t ht =>
      have h1 : Memory.wf t.mem = true := next_wf (firstPass_wf h h) ht
      split
      · exact h1
      · split
        · exact runWords_wf h h1
        · exact h1
    · exact firstPass_wf h h

theorem judged_wf {v} : Memory.wf (s.judged v).mem = true := h

theorem stepped_wf : Memory.wf s.stepped.mem = true := by
  unfold stepped
  split
  · exact haltAt_wf h
  · exact h

theorem emptyIssue_wf : Memory.wf s.emptyIssue.mem = true := h

theorem vectorFault_wf {cause} : Memory.wf (s.vectorFault cause).mem = true := by
  unfold vectorFault
  extract_lets
  refine judged_wf ?_
  extract_lets
  split
  · exact abandonTask_wf (logCtx_wf h)
  · exact endContext_wf (logCtx_wf h)

theorem issueBundle_wf {b} : nextWf (s.issueBundle b) := by
  unfold issueBundle
  extract_lets
  split
  · exact stepped_wf (retire_wf h)
  · split
    · exact stall_wf h
    · split
      · exact emptyIssue_wf h
      · split
        · split
          · exact next_wf (runBundle_wf h) ‹_›
          · split
            · split
              · exact stall_wf h
              · split
                · exact stepped_wf (retire_wf (next_wf (runBundle_wf h) ‹_›))
                · exact next_wf (runBundle_wf h) ‹_›
            · split
              · exact stall_wf h
              · split
                · exact stepped_wf (retire_wf (next_wf (runBundle_wf h) ‹_›))
                · exact next_wf (runBundle_wf h) ‹_›
        · exact runBundle_wf h

theorem issueLate_wf {l} : nextWf (s.issueLate l) := by
  unfold issueLate
  extract_lets cx s0
  have h0 : Memory.wf s0.mem = true := h
  have hr : nextWf (s0.orDeferred l.words (s0.runWords l.words s0)) := orDeferred_wf h0 (runWords_wf h0 h0)
  clear_value s0
  split
  · refine stall_wf ?_
    exact h
  · split
    · next t ht =>
      have h1 : Memory.wf t.mem = true := next_wf hr ht
      split
      · exact stepped_wf (retire_wf h1)
      · exact h1
      · exact h1
      · exact h1
    · exact hr

theorem fetchIssue_wf : nextWf s.fetchIssue := by
  unfold fetchIssue
  split
  · exact stall_wf (fst_wf (fetchBundle_wf h) ‹_›)
  · next hf =>
    have h1 := fst_wf (fetchBundle_wf h) hf
    show Memory.wf _ = true
    split
    · exact vectorFault_wf h1
    · exact takeTrap_wf _ _ (withdraw_wf h1)
  · next hf =>
    have h1 := fst_wf (fetchBundle_wf h) hf
    extract_lets src s1
    have h2 : Memory.wf s1.mem = true := h1
    clear_value s1
    split
    · exact trap_wf (withdraw_wf h2)
    · refine issueBundle_wf ?_
      exact h2

theorem haltOrTrap_wf : nextWf s.haltOrTrap := by
  unfold haltOrTrap
  extract_lets
  split
  · exact judged_wf (haltAt_wf h)
  · split
    · show Memory.wf _ = true
      split
      · exact next_wf (fetchIssue_wf h) ‹_›
      · exact judged_wf (haltAt_wf h)
    · exact judged_wf (haltAt_wf h)

theorem attempt_wf : nextWf s.attempt := by
  unfold attempt
  extract_lets
  split
  · exact haltOrTrap_wf h
  · split
    · exact stall_wf h
    · split
      · split
        · refine issueLate_wf ?_
          exact h
        · exact h
      · split
        · exact emptyIssue_wf h
        · split
          · exact stall_wf h
          · exact fetchIssue_wf h

theorem readiness_wf {c} : Memory.wf (s.readiness c).1.mem = true := by
  unfold readiness
  extract_lets
  split
  · extract_lets
    split
    · exact unlessWaits_wf h (next_wf (attempt_wf (switch_wf h)) ‹_›)
    · split
      · exact switch_wf (useUp_wf (next_wf (attempt_wf (switch_wf h)) ‹_›))
      · exact switch_wf (useUp_wf (next_wf (attempt_wf (switch_wf h)) ‹_›))
      · exact switch_wf (useUp_wf (next_wf (attempt_wf (switch_wf h)) ‹_›))
      · exact h
  · exact h

theorem selectCore_wf {core rdy} : Memory.wf (s.selectCore core rdy).1.mem = true := by
  unfold selectCore
  dsimp only
  split
  · exact h
  · exact setCore_wf h

theorem lookAt_wf {l rdy} : Memory.wf (lookAt l s rdy).1.mem = true := by
  induction l generalizing s rdy with
  | nil => exact h
  | cons c r ih =>
    unfold lookAt
    split <;> exact ih (fst_wf (readiness_wf h) ‹_›)

theorem selectAll_wf {rdy l cs} : Memory.wf (selectAll rdy l s cs).1.mem = true := by
  induction l generalizing s cs with
  | nil => exact h
  | cons k r ih =>
    unfold selectAll
    split
    exact ih (fst_wf (selectCore_wf h) ‹_›)

theorem countWaits_wf {occ rdy chosen} : Memory.wf (s.countWaits occ rdy chosen).mem = true := by
  unfold countWaits
  refine foldl_wf ?_ h
  intro s a h
  extract_lets
  exact setCtx_wf h

theorem heldDies_wf {l} : Memory.wf (heldDies l s).2.mem = true := by
  induction l generalizing s with
  | nil => exact h
  | cons d r ih =>
    unfold heldDies
    split
    · split
      split
      exact snd_wf (ih (snd_wf (free_wf h) ‹_›)) ‹_›
    · exact ih h

theorem napCtx_wf {c} : Memory.wf (s.napCtx c).mem = true := by
  unfold napCtx
  extract_lets
  exact switch_wf (napTick_wf (switch_wf h))

theorem newCycle_wf : Memory.wf s.newCycle.mem = true := by
  unfold newCycle
  extract_lets s1 s2 s3 occ
  have h1 : Memory.wf s1.mem = true := flushLogs_wf h
  have h2 : Memory.wf s2.mem = true := h1
  have h3 : Memory.wf s3.mem = true := watchLinks_wf h2
  split
  next held s4 h4 =>
  extract_lets may napping s5
  have h5 : Memory.wf s5.mem = true := foldl_wf (fun h => napCtx_wf h) (snd_wf (heldDies_wf h3) h4)
  split
  next s6 rdy h6 =>
  split
  next s7 chosen h7 =>
  exact countWaits_wf (fst_wf (selectAll_wf (fst_wf (lookAt_wf h5) h6)) h7)

/-! Machine/Step.lean. -/

theorem runTurn_wf {c} : nextWf (s.runTurn c) := by
  unfold runTurn
  extract_lets
  split
  · exact trivial
  · split
    · exact settleWaits_wf (switch_wf h) (fun h => stall_wf h) (attempt_wf (switch_wf h))
    · exact switch_wf h

theorem engineStep_wf : nextWf s.engineStep := by
  unfold engineStep
  extract_lets due back n
  split
  · exact newCycle_wf h
  · split
    next v s1 h1 =>
    replace h1 : Memory.wf s1.mem = true := snd_wf (free_wf h) h1
    extract_lets k
    split
    · split
      · next a rest _ =>
        extract_lets s2
        have h2 : Memory.wf s2.mem = true := h1
        exact settleWaits_wf h2 (fun h => later_wf h) (exec_wf h2)
      · exact newCycle_wf h1
    · split
      · next f hf =>
        exact settleWaits_wf h1 (fun h => h) (background_wf h1 (List.mem_of_getElem? hf))
      · exact newCycle_wf h1

theorem step_wf : nextWf (step s) := by
  unfold step
  split
  · refine settleWaits_wf ?_ (fun h => later_wf h) (exec_wf ?_)
    · exact h
    · exact h
  · split
    · exact engineStep_wf h
    · refine runTurn_wf ?_
      exact h
    · split
      next v s1 hv =>
      have h1 : Memory.wf s1.mem = true := snd_wf (free_wf h) hv
      split
      · refine runTurn_wf ?_
        exact h1
      · refine runTurn_wf ?_
        exact h1

end Sys2Proof.Machine.State
end

