-- ==== Sys2Proof/Proofs/Scope.lean ====
section
namespace Sys2Proof.Machine

/-- Settles O10: whichever of its arms a step takes, the operations that it is made of keep memory canonical. -/
theorem stepKeepsMemoryCanonical : Obligations.StepKeepsMemoryCanonical := by
  unfold Obligations.StepKeepsMemoryCanonical
  intro s t h e
  exact State.next_wf (State.step_wf h) e

end Sys2Proof.Machine
end

