-- ==== Sys2Proof/Proofs/ServiceEvents.lean ====
section
/-! The service block and the environment (R14, R431, R437 to R439): what starting an action does, what asking tasks to leave
does, what each service action makes of the state, and what power and temperature make of a die. -/

namespace Sys2Proof.Machine

/-! The bits of DIEFENCE. -/

/-- Writing 1 to one bit of DIEFENCE sets that bit. -/
theorem maskIn_set_bit : ∀ (f : BitVec 4) (d : BitVec 2),
    (maskIn (f.setWidth 64) (1#64 <<< d.toNat) (1#64 <<< d.toNat)).setWidth 4 = f ||| (1#4 <<< d.toNat) := by decide

/-- Writing 0 to one bit of DIEFENCE clears that bit. -/
theorem maskIn_clear_bit : ∀ (f : BitVec 4) (d : BitVec 2),
    (maskIn (f.setWidth 64) (1#64 <<< d.toNat) 0).setWidth 4 = f &&& ~~~(1#4 <<< d.toNat) := by decide

theorem getLsbD_bit (d i : Nat) (hd : d < 4) : (1#4 <<< d).getLsbD i = decide (i = d) := by
  rw [BitVec.getLsbD_shiftLeft, BitVec.getLsbD_one, Bool.eq_iff_iff]
  simp only [Bool.and_eq_true, Bool.not_eq_true', decide_eq_true_eq, decide_eq_false_iff_not]
  omega

theorem getLsbD_set_bit (f : BitVec 4) (d i : Nat) (hd : d < 4) :
    (f ||| (1#4 <<< d)).getLsbD i = (f.getLsbD i || decide (i = d)) := by
  rw [BitVec.getLsbD_or, getLsbD_bit d i hd]

theorem getLsbD_clear_bit (f : BitVec 4) (d i : Nat) (hd : d < 4) :
    (f &&& ~~~(1#4 <<< d)).getLsbD i = (f.getLsbD i && decide (i ≠ d)) := by
  rw [BitVec.getLsbD_and, BitVec.getLsbD_not, getLsbD_bit d i hd]
  by_cases hi : i < 4
  · simp [hi]
  · simp [BitVec.getLsbD_of_ge f i (by omega)]

theorem set_bit_of_set (f : BitVec 4) (d : Nat) (hd : d < 4) (h : f.getLsbD d = true) : f ||| (1#4 <<< d) = f := by
  refine BitVec.eq_of_getLsbD_eq fun i _ => ?_
  rw [getLsbD_set_bit f d i hd]
  by_cases e : i = d
  · simp [e, h]
  · simp [e]

/-- A fold of steps that each leave the start as it is. -/
theorem foldl_eq_of_fixed {α β : Type} {f : α → β → α} {a : α} : ∀ {l : List β}, (∀ b ∈ l, f a b = a) → l.foldl f a = a
  | [], _ => rfl
  | b :: l, h => by
    rw [List.foldl_cons, h b List.mem_cons_self]
    exact foldl_eq_of_fixed fun c hc => h c (List.mem_cons_of_mem b hc)

namespace State

/-! Starting an action. -/

/-- An action has been started: ACTION names it and SVCSTAT says that it runs. -/
def started (s : State) (a : Nat) : State :=
  { s with svc := { s.svc with action := a, svcstat := BitVec.ofNat 16 (1 + 256 * a) } }
/-- An action has been refused, and SVCSTAT says so. -/
def refusedAction (s : State) (a : Nat) : State :=
  { s with svc := { s.svc with svcstat := BitVec.ofNat 16 (2 + 256 * a) } }

theorem serve_idle {s : State} (h : s.svc.action = 0) (a : Nat) (f : State → State) : s.serve a f = f (s.started a) := by
  simp [serve, started, h]
theorem serve_busy {s : State} (h : s.svc.action ≠ 0) (a : Nat) (f : State → State) : s.serve a f = s.refusedAction a := by
  simp [serve, refusedAction, h]

/-! Asking tasks to leave: only the agenda changes. -/

theorem foldl_later {α : Type} (g : α → Instr) : ∀ (l : List α) (s : State),
    l.foldl (fun s a => s.later 0 (g a)) s = { s with agenda := s.agenda ++ l.map fun a => (s.cycle, g a) }
  | [], s => by simp
  | a :: l, s => by
    rw [List.foldl_cons, foldl_later g l]
    simp [later]

/-- The running tasks that a pre-emption asks to leave, as cluster and entry. -/
def asked (s : State) (p : Nat → Entry → Bool) : List (Nat × Nat) :=
  s.clusters.flatMap fun (n, c) => (c.entries.filter fun (_, e) => e.state == .running && p n e).map fun (k, _) => (n, k)

theorem preemptWhere_eq (s : State) (p : Nat → Entry → Bool) :
    s.preemptWhere p = { s with agenda := s.agenda ++ (s.asked p).map fun a => (s.cycle, .preemption a.1 a.2) } :=
  foldl_later (fun a : Nat × Nat => .preemption a.1 a.2) (s.asked p) s

@[simp] theorem preemptWhere_svc (s : State) (p : Nat → Entry → Bool) : (s.preemptWhere p).svc = s.svc := by rw [preemptWhere_eq]
@[simp] theorem preemptWhere_dies (s : State) (p : Nat → Entry → Bool) : (s.preemptWhere p).dies = s.dies := by rw [preemptWhere_eq]
@[simp] theorem preemptWhere_cores (s : State) (p : Nat → Entry → Bool) : (s.preemptWhere p).cores = s.cores := by
  rw [preemptWhere_eq]
@[simp] theorem preemptWhere_mem (s : State) (p : Nat → Entry → Bool) : (s.preemptWhere p).mem = s.mem := by rw [preemptWhere_eq]
@[simp] theorem preemptWhere_cycle (s : State) (p : Nat → Entry → Bool) : (s.preemptWhere p).cycle = s.cycle := by
  rw [preemptWhere_eq]

theorem mem_asked {s : State} {p : Nat → Entry → Bool} {n : Nat} {c : Cluster} {k : Nat} {e : Entry} (hc : (n, c) ∈ s.clusters)
    (he : (k, e) ∈ c.entries) (run : e.state = .running) (hp : p n e = true) : (n, k) ∈ s.asked p := by
  refine List.mem_flatMap.2 ⟨(n, c), hc, List.mem_map.2 ⟨(k, e), List.mem_filter.2 ⟨he, ?_⟩, rfl⟩⟩
  simp [run, hp]

/-- A running task that the condition picks is asked to leave in the present cycle. -/
theorem preemptWhere_asks {s : State} {p : Nat → Entry → Bool} {n : Nat} {c : Cluster} {k : Nat} {e : Entry}
    (hc : (n, c) ∈ s.clusters) (he : (k, e) ∈ c.entries) (run : e.state = .running) (hp : p n e = true) :
    (s.cycle, .preemption n k) ∈ (s.preemptWhere p).agenda := by
  rw [preemptWhere_eq]
  exact List.mem_append_right _ (List.mem_map.2 ⟨(n, k), mem_asked hc he run hp, rfl⟩)

/-! Fencing a die and lifting the fence (R439). -/

@[simp] theorem fenceDie_svc (s : State) (d : Nat) :
    (s.fenceDie d).svc = { s.svc with diefence := s.svc.diefence ||| (1#4 <<< d) } := preemptWhere_svc ..
@[simp] theorem fenceDie_dies (s : State) (d : Nat) : (s.fenceDie d).dies = s.dies := preemptWhere_dies ..
@[simp] theorem fenceDie_mem (s : State) (d : Nat) : (s.fenceDie d).mem = s.mem := preemptWhere_mem ..
@[simp] theorem fenceDie_cycle (s : State) (d : Nat) : (s.fenceDie d).cycle = s.cycle := preemptWhere_cycle ..

theorem fenceDie_asks {s : State} {d n : Nat} {c : Cluster} {k : Nat} {e : Entry} (hc : (n, c) ∈ s.clusters)
    (he : (k, e) ∈ c.entries) (run : e.state = .running) (hn : n / 16 = d) :
    (s.cycle, .preemption n k) ∈ (s.fenceDie d).agenda :=
  preemptWhere_asks (s := { s with svc := { s.svc with diefence := s.svc.diefence ||| (1#4 <<< d) } }) hc he run (by simp [hn])

/-- A die's fence has been lifted, and nothing else is done yet. -/
def fenceLifted (s : State) (d : Nat) : State := { s with svc := { s.svc with diefence := s.svc.diefence &&& ~~~(1#4 <<< d) } }

theorem unfenceDie_eq (s : State) (d : Nat) : s.unfenceDie d = { s.fenceLifted d with
    agenda := s.agenda ++ (List.range 16).map fun n => (s.cycle, .taskDispatch (16 * d + n)) } := by
  unfold unfenceDie
  generalize List.range 16 = clusters
  exact foldl_later (fun n => .taskDispatch (16 * d + n)) clusters (s.fenceLifted d)

@[simp] theorem unfenceDie_svc (s : State) (d : Nat) :
    (s.unfenceDie d).svc = { s.svc with diefence := s.svc.diefence &&& ~~~(1#4 <<< d) } := by
  rw [unfenceDie_eq]
  rfl
theorem unfenceDie_dispatches (s : State) (d : Nat) {n : Nat} (hn : n < 16) :
    (s.cycle, .taskDispatch (16 * d + n)) ∈ (s.unfenceDie d).agenda := by
  rw [unfenceDie_eq]
  exact List.mem_append_right _ (List.mem_map.2 ⟨n, List.mem_range.2 hn, rfl⟩)

/-- What a write of DIEFENCE does for one die. -/
def fenceBit (new : BitVec 4) (s : State) (d : Nat) : State :=
  if new.getLsbD d && !s.svc.diefence.getLsbD d then s.fenceDie d
  else if !new.getLsbD d && s.svc.diefence.getLsbD d then s.unfenceDie d else s

theorem fenceBit_same {new : BitVec 4} {s : State} {d : Nat} (h : new.getLsbD d = s.svc.diefence.getLsbD d) :
    fenceBit new s d = s := by
  simp [fenceBit, h]
theorem fenceBit_set {new : BitVec 4} {s : State} {d : Nat} (h : new.getLsbD d = true) (old : s.svc.diefence.getLsbD d = false) :
    fenceBit new s d = s.fenceDie d := by
  simp [fenceBit, h, old]
theorem fenceBit_clear {new : BitVec 4} {s : State} {d : Nat} (h : new.getLsbD d = false) (old : s.svc.diefence.getLsbD d = true) :
    fenceBit new s d = s.unfenceDie d := by
  simp [fenceBit, h, old]

/-- A write that changes the bit of one die only does what it does for that die. -/
theorem foldl_fenceBit_one {new : BitVec 4} {s : State} {d : Nat} (hd : d < 4)
    (others : ∀ i, i ≠ d → new.getLsbD i = s.svc.diefence.getLsbD i) (after : (fenceBit new s d).svc.diefence = new) :
    (List.range 4).foldl (fenceBit new) s = fenceBit new s d := by
  obtain ⟨before, rest, split, notBefore⟩ := List.eq_append_cons_of_mem (List.mem_range.2 hd)
  have first : before.foldl (fenceBit new) s = s :=
    foldl_eq_of_fixed fun i hi => fenceBit_same (others i fun e => notBefore (e ▸ hi))
  have last : rest.foldl (fenceBit new) (fenceBit new s d) = fenceBit new s d :=
    foldl_eq_of_fixed fun i _ => fenceBit_same (by rw [after])
  rw [split, List.foldl_append, first, List.foldl_cons, last]

theorem setFence_changed {s : State} {new : BitVec 4} (h : new ≠ s.svc.diefence) :
    s.setFence new = s.serve 1 fun s => (List.range 4).foldl (fenceBit new) s := by
  have hb : ¬ (new == s.svc.diefence) = true := by simpa using h
  exact if_neg hb

theorem set_bit_ne {s : State} {d : Nat} (hd : d < 4) (old : s.svc.diefence.getLsbD d = false) :
    s.svc.diefence ||| (1#4 <<< d) ≠ s.svc.diefence := by
  intro e
  have := getLsbD_set_bit s.svc.diefence d d hd
  simp [e, old] at this
theorem clear_bit_ne {s : State} {d : Nat} (hd : d < 4) (old : s.svc.diefence.getLsbD d = true) :
    s.svc.diefence &&& ~~~(1#4 <<< d) ≠ s.svc.diefence := by
  intro e
  have := getLsbD_clear_bit s.svc.diefence d d hd
  simp [e, old] at this

theorem setFence_set {s : State} {d : Nat} (hd : d < 4) (idle : s.svc.action = 0) (old : s.svc.diefence.getLsbD d = false) :
    s.setFence (s.svc.diefence ||| (1#4 <<< d)) = (s.started 1).fenceDie d := by
  have step : fenceBit (s.svc.diefence ||| (1#4 <<< d)) (s.started 1) d = (s.started 1).fenceDie d :=
    fenceBit_set (by simp [getLsbD_set_bit _ d d hd]) old
  rw [setFence_changed (set_bit_ne hd old), serve_idle idle, foldl_fenceBit_one hd, step]
  · intro i hi
    simp [getLsbD_set_bit _ d i hd, hi, started]
  · rw [step, fenceDie_svc]
    rfl

theorem setFence_clear {s : State} {d : Nat} (hd : d < 4) (idle : s.svc.action = 0) (old : s.svc.diefence.getLsbD d = true) :
    s.setFence (s.svc.diefence &&& ~~~(1#4 <<< d)) = (s.started 1).unfenceDie d := by
  have step : fenceBit (s.svc.diefence &&& ~~~(1#4 <<< d)) (s.started 1) d = (s.started 1).unfenceDie d :=
    fenceBit_clear (by simp [getLsbD_clear_bit _ d d hd]) old
  rw [setFence_changed (clear_bit_ne hd old), serve_idle idle, foldl_fenceBit_one hd, step]
  · intro i hi
    simp [getLsbD_clear_bit _ d i hd, hi, started]
  · rw [step, unfenceDie_svc]
    rfl

/-! Leaving the fabric with nothing under way toward another device (R387, R439). -/

theorem mcasLost_none {s : State} (h : s.homes.mcas = []) (d : BitVec 8) : s.mcasLost d = s := by
  simp [mcasLost, h]

theorem failTiles_none {s : State} (h : ∀ c ∈ s.clusters, ∀ x ∈ c.2.loam, x.2.state ≠ .filling) (d : BitVec 8) :
    s.failTiles d = s := by
  refine foldl_eq_of_fixed fun c hc => foldl_eq_of_fixed fun x hx => ?_
  have : (x.2.state != .filling) = true := by simpa using h c hc x hx
  simp [this]

/-- Every link of the device is fenced, and nothing else is done yet. -/
def linksFenced (s : State) : State := { s with fab := { s.fab with fencedSelf := true } }

theorem fenceSelf_quiet {s : State} (txns : s.fab.txns = []) (tokens : s.homes.tokens = []) (mcas : s.homes.mcas = [])
    (fills : ∀ c ∈ s.clusters, ∀ x ∈ c.2.loam, x.2.state ≠ .filling) : s.fenceSelf = s.linksFenced := by
  unfold fenceSelf
  extract_lets fab fenced ended failed
  have noTxns : fenced.fab.txns = [] := txns
  have noTokens : fenced.homes.tokens = [] := tokens
  have endedNone : ended = s.linksFenced := by
    simp only [ended, noTxns, List.foldl_nil]
    rfl
  have failedNone : failed = s.linksFenced := by
    simp only [failed, endedNone]
    exact congrArg (fun l => List.foldl _ _ (List.filter _ l)) noTokens
  rw [failedNone]
  refine foldl_eq_of_fixed fun d _ => ?_
  have lost : s.linksFenced.mcasLost d = s.linksFenced := mcasLost_none (s := s.linksFenced) mcas d
  have tiles : s.linksFenced.failTiles d = s.linksFenced := failTiles_none (s := s.linksFenced) fills d
  rw [lost, tiles, ite_self]

/-- The own death notice is flooded and the links are fenced. -/
theorem declareDead_own {s : State} (reporter : BitVec 8) (epoch : BitVec 32) (txns : s.fab.txns = [])
    (tokens : s.homes.tokens = []) (mcas : s.homes.mcas = [])
    (fills : ∀ c ∈ s.clusters, ∀ x ∈ c.2.loam, x.2.state ≠ .filling) (alive : (s.peer s.dev.devid.toNat).deadEpoch = none) :
    (s.declareDead s.dev.devid reporter epoch).fab.fencedSelf = true ∧
      (s.declareDead s.dev.devid reporter epoch).svc = s.svc ∧
      (s.declareDead s.dev.devid reporter epoch).fab.notices = s.fab.notices ++ [(s.dev.devid, reporter, epoch)] := by
  have notYet : ¬ (s.peer s.dev.devid.toNat).deadEpoch.isSome = true := by simp [alive]
  unfold declareDead
  dsimp only
  rw [if_neg notYet, if_pos (by simp [floodDeath, logFab, log]), fenceSelf_quiet]
  · exact ⟨rfl, rfl, rfl⟩
  · exact txns
  · exact tokens
  · exact mcas
  · exact fills

theorem leaveFabric_idle {s : State} (idle : s.svc.action = 0) :
    s.leaveFabric = (s.started 3).declareDead s.dev.devid s.dev.devid s.svc.epoch := serve_idle idle ..

/-! A failed core (R14). -/

/-- The core is marked as failed, and its tasks are asked to leave. -/
theorem spareCore_idle {s : State} (idle : s.svc.action = 0) (k : Nat) : s.spareCore k =
    ((s.started 6).setCore k { s.core k with failed := true }).preemptWhere fun _ e => e.members.any (· / 4 == k) :=
  serve_idle idle ..

theorem core_preemptWhere (s : State) (p : Nat → Entry → Bool) (k : Nat) : (s.preemptWhere p).core k = s.core k := by
  unfold core
  rw [preemptWhere_cores]

end State

/-! Power and temperature (R437, R438). -/

/-- A die at a measured junction temperature. -/
def Die.measured (d : Die) (temp : BitVec 8) : Die :=
  { d with temp := temp, throttled := decide (105 ≤ temp.toNat) || (d.throttled && decide (100 ≤ temp.toNat)) }

namespace State

theorem thermal_unfenced {s : State} {n : Nat} {c : BitVec 8} (h : c.toNat < 115 ∨ 115 ≤ (s.die n).temp.toNat) :
    s.thermal n c = s.setDie n ((s.die n).measured c) := if_pos (by simpa using h)

/-- When a die reaches 115 °C it is fenced, if it is not yet, and the cause is logged. -/
theorem thermal_fenced {s : State} {n : Nat} {c : BitVec 8} (hot : 115 ≤ c.toNat) (before : (s.die n).temp.toNat < 115) :
    s.thermal n c = (if s.svc.diefence.getLsbD n then s.setDie n ((s.die n).measured c)
      else (s.setDie n ((s.die n).measured c)).fenceDie n).log n 8 n 0 0xB5 (c.setWidth 64) 0 0 :=
  if_neg (by simp; omega)

theorem die_log (s : State) (n kind index : Nat) (sp : BitVec 6) (cause : BitVec 8) (d0 d1 : Dbl) (count : BitVec 32) :
    (s.log n kind index sp cause d0 d1 count).die n =
      { s.die n with events := (s.die n).events ++ [⟨s.cycle, kind, index, sp, cause, d0, d1, count⟩] } := die_setDie ..

theorem die_fenceDie (s : State) (d n : Nat) : (s.fenceDie d).die n = s.die n := by
  unfold die
  rw [fenceDie_dies]

/-- The die that a measurement has fenced: as measured, with the entry of the cause in its log. -/
theorem thermal_die_fenced {s : State} {n : Nat} {c : BitVec 8} (hot : 115 ≤ c.toNat) (before : (s.die n).temp.toNat < 115) :
    (s.thermal n c).die n = { (s.die n).measured c with
      events := (s.die n).events ++ [⟨s.cycle, 8, n, 0, 0xB5, c.setWidth 64, 0, 0⟩] } := by
  rw [thermal_fenced hot before, die_log]
  split
  · rw [die_setDie]
    rfl
  · rw [die_fenceDie, fenceDie_cycle, die_setDie]
    rfl

/-- Whether it fences the die or not, a measurement leaves it as measured but for its log. -/
theorem thermal_die (s : State) (n : Nat) (c : BitVec 8) :
    ∃ l, (s.thermal n c).die n = { (s.die n).measured c with events := l } := by
  by_cases quiet : c.toNat < 115 ∨ 115 ≤ (s.die n).temp.toNat
  · rw [thermal_unfenced quiet, die_setDie]
    exact ⟨_, rfl⟩
  · exact ⟨_, thermal_die_fenced (by omega) (by omega)⟩

theorem thermal_mem (s : State) (n : Nat) (c : BitVec 8) : (s.thermal n c).mem = s.mem := by
  by_cases quiet : c.toNat < 115 ∨ 115 ≤ (s.die n).temp.toNat
  · rw [thermal_unfenced quiet, setDie_mem]
  · rw [thermal_fenced (by omega) (by omega), log, setDie_mem]
    split
    · rw [setDie_mem]
    · rw [fenceDie_mem, setDie_mem]

theorem powerLimit_throttled {s : State} {n : Nat} (h : (s.die n).throttled = true) : s.powerLimit n = 100 := by
  simp [powerLimit, h]
theorem powerLimit_unthrottled {s : State} {n : Nat} (h : (s.die n).throttled = false) :
    s.powerLimit n = max 100 (min 520 ((s.die n).pwrlim.toNat % 1024)) := by
  simp [powerLimit, h]

/-- From 105 °C a die's limit is 100 W. -/
theorem thermal_hot (s : State) (n : Nat) {c : BitVec 8} (hot : 105 ≤ c.toNat) :
    ((s.thermal n c).die n).temp = c ∧ (s.thermal n c).powerLimit n = 100 := by
  obtain ⟨l, h⟩ := thermal_die s n c
  refine ⟨by rw [h]; rfl, powerLimit_throttled ?_⟩
  simp [h, Die.measured, hot]

/-- Below 100 °C a die's limit is again the one that its register sets. -/
theorem thermal_cool (s : State) (n : Nat) {c : BitVec 8} (cool : c.toNat < 100) :
    ((s.thermal n c).die n).temp = c ∧
      (s.thermal n c).powerLimit n = max 100 (min 520 ((s.die n).pwrlim.toNat % 1024)) := by
  obtain ⟨l, h⟩ := thermal_die s n c
  refine ⟨by rw [h]; rfl, ?_⟩
  rw [powerLimit_unthrottled, h]
  · rfl
  · have below : ¬ 105 ≤ c.toNat := by omega
    have lifted : ¬ 100 ≤ c.toNat := by omega
    simp [h, Die.measured, below, lifted]

theorem thermal_fence_diefence {s : State} {n : Nat} {c : BitVec 8} (hn : n < 4) (hot : 115 ≤ c.toNat)
    (before : (s.die n).temp.toNat < 115) : (s.thermal n c).svc.diefence = s.svc.diefence ||| (1#4 <<< n) := by
  rw [thermal_fenced hot before]
  by_cases already : s.svc.diefence.getLsbD n = true
  · rw [if_pos already, set_bit_of_set _ _ hn already]
    rfl
  · rw [if_neg already]
    exact congrArg Service.diefence (fenceDie_svc ..)

/-! The registers of the service block. -/

theorem regPut_service (s : State) {o : Nat} (h : o < 0x8000000) (m v : Dbl) : s.regPut (serviceBlock + o) m v = s.svcPut o m v := by
  unfold regPut
  rw [if_neg (by simp only [serviceBlock]; omega), if_pos (by simp; omega), Nat.add_sub_cancel_left]

end State

/-! What the events do, through the service block's registers (R431). -/

theorem exec_dieFence_sets (s : State) (d : BitVec 2) :
    exec (.dieFence d) s = .next (s.setFence (s.svc.diefence ||| (1#4 <<< d.toNat))) := by
  rw [exec_dieFence, execDieFence, State.regPut_service s (by decide), ← maskIn_set_bit]
  rfl
theorem exec_dieUnfence_clears (s : State) (d : BitVec 2) :
    exec (.dieUnfence d) s = .next (s.setFence (s.svc.diefence &&& ~~~(1#4 <<< d.toNat))) := by
  rw [exec_dieUnfence, execDieUnfence, State.regPut_service s (by decide), ← maskIn_clear_bit]
  rfl
theorem exec_fabricLeave_leaves (s : State) : exec .fabricLeave s = .next s.leaveFabric := by
  rw [exec_fabricLeave, execFabricLeave, State.regSet, State.regPut_service s (by decide)]
  rfl
theorem exec_fabricJoin_joins (s : State) : exec .fabricJoin s = .next s.joinFabric := by
  rw [exec_fabricJoin, execFabricJoin, State.regSet, State.regPut_service s (by decide)]
  rfl
theorem exec_firmwareStage_stages (s : State) (len : Dbl) : exec (.firmwareStage len) s = .next (s.stageFirmware len.toNat) := by
  rw [exec_firmwareStage, execFirmwareStage, State.regSet, State.regPut_service s (by decide)]
  rw [State.svcPut, BitVec.and_allOnes]
theorem exec_spareCore_spares (s : State) {k : Nat} (h : k < 1024) : exec (.spareCore k) s = .next (s.spareCore k) := by
  rw [exec_spareCore, execSpareCore, Nat.mod_eq_of_lt h]

/-! O60, clause by clause. -/

section Idle
variable {s : State} (idle : s.svc.action = 0)
include idle

theorem dieFence_idle {d : BitVec 2} (unfenced : s.svc.diefence.getLsbD d.toNat = false) :
    ∃ t, exec (.dieFence d) s = .next t ∧ t.svc.diefence = s.svc.diefence ||| (1#4 <<< d.toNat) ∧
      t.svc.action = 1 ∧ t.svc.svcstat = 0x101 ∧ ∀ n c k e, (n, c) ∈ s.clusters → (k, e) ∈ c.entries → e.state = .running →
        n / 16 = d.toNat → (s.cycle, .preemption n k) ∈ t.agenda := by
  have svc := State.fenceDie_svc (s.started 1) d.toNat
  refine ⟨(s.started 1).fenceDie d.toNat, ?_, congrArg Service.diefence svc, congrArg Service.action svc,
    congrArg Service.svcstat svc, ?_⟩
  · rw [exec_dieFence_sets, State.setFence_set d.isLt idle unfenced]
  · intro n c k e hc he run hn
    exact State.fenceDie_asks (s := s.started 1) hc he run hn

theorem dieUnfence_idle {d : BitVec 2} (fenced : s.svc.diefence.getLsbD d.toNat = true) :
    ∃ t, exec (.dieUnfence d) s = .next t ∧ t.svc.diefence = s.svc.diefence &&& ~~~(1#4 <<< d.toNat) ∧ t.svc.action = 1 ∧
      ∀ n, n < 16 → (s.cycle, .taskDispatch (16 * d.toNat + n)) ∈ t.agenda := by
  have svc := State.unfenceDie_svc (s.started 1) d.toNat
  refine ⟨(s.started 1).unfenceDie d.toNat, ?_, congrArg Service.diefence svc, congrArg Service.action svc, ?_⟩
  · rw [exec_dieUnfence_clears, State.setFence_clear d.isLt idle fenced]
  · exact fun n hn => State.unfenceDie_dispatches (s.started 1) d.toNat hn

theorem laser_idle (dim mod : Bool) :
    exec (.laserOut dim mod) s = .next { s with svc := { s.svc with
        action := 2, svcstat := 0x201, lasers := s.svc.lasers &&& ~~~(1#4 <<< (2 * dim.toNat + mod.toNat)) } } ∧
      exec (.laserIn dim mod) s = .next { s with svc := { s.svc with
        action := 2, svcstat := 0x201, lasers := s.svc.lasers ||| (1#4 <<< (2 * dim.toNat + mod.toNat)) } } := by
  rw [exec_laserOut, exec_laserIn, execLaserOut, execLaserIn, State.setLaser, State.setLaser, State.serve_idle idle,
    State.serve_idle idle]
  exact ⟨rfl, rfl⟩

theorem fabricLeave_idle (txns : s.fab.txns = []) (tokens : s.homes.tokens = []) (mcas : s.homes.mcas = [])
    (fills : ∀ c ∈ s.clusters, ∀ x ∈ c.2.loam, x.2.state ≠ .filling) (alive : (s.peer s.dev.devid.toNat).deadEpoch = none) :
    ∃ t, exec .fabricLeave s = .next t ∧ t.fab.fencedSelf = true ∧ t.svc.action = 3 ∧
      t.fab.notices = s.fab.notices ++ [(s.dev.devid, s.dev.devid, s.svc.epoch)] := by
  obtain ⟨links, svc, notices⟩ :=
    State.declareDead_own (s := s.started 3) s.dev.devid s.svc.epoch txns tokens mcas fills alive
  refine ⟨(s.started 3).declareDead s.dev.devid s.dev.devid s.svc.epoch, ?_, links, congrArg Service.action svc, notices⟩
  rw [exec_fabricLeave_leaves, State.leaveFabric_idle idle]

theorem fabricJoin_idle :
    ∃ t, exec .fabricJoin s = .next t ∧ t.svc.epoch = s.svc.epoch + 1 ∧ t.fab.fencedSelf = false ∧ t.svc.action = 4 ∧
      t.fab.joins = s.fab.joins ++ [(s.dev.devid, s.svc.epoch + 1)] := by
  rw [exec_fabricJoin_joins, State.joinFabric, State.serve_idle idle]
  exact ⟨_, rfl, rfl, rfl, rfl, rfl⟩

theorem spareCore_marks {k : Nat} (h : k < 1024) :
    ∃ t, exec (.spareCore k) s = .next t ∧ (t.core k).failed = true ∧ t.svc.action = 6 ∧
      ∀ n c j e, (n, c) ∈ s.clusters → (j, e) ∈ c.entries → e.state = .running → (∃ m ∈ e.members, m / 4 = k) →
        (s.cycle, .preemption n j) ∈ t.agenda := by
  refine ⟨_, by rw [exec_spareCore_spares s h, State.spareCore_idle idle], ?_, ?_, ?_⟩
  · rw [State.core_preemptWhere, State.core_setCore]
  · rw [State.preemptWhere_svc]
    rfl
  · rintro n c j e hc he run ⟨m, hm, on⟩
    refine State.preemptWhere_asks (s := (s.started 6).setCore k { s.core k with failed := true }) hc he run ?_
    exact List.any_eq_true.2 ⟨m, hm, by simpa using on⟩

end Idle

section Busy
variable {s : State} (busy : s.svc.action ≠ 0)
include busy

theorem dieFence_busy {d : BitVec 2} (unfenced : s.svc.diefence.getLsbD d.toNat = false) :
    exec (.dieFence d) s = .next (s.refusedAction 1) := by
  rw [exec_dieFence_sets, State.setFence_changed (State.set_bit_ne d.isLt unfenced), State.serve_busy busy]

theorem dieUnfence_busy {d : BitVec 2} (fenced : s.svc.diefence.getLsbD d.toNat = true) :
    exec (.dieUnfence d) s = .next (s.refusedAction 1) := by
  rw [exec_dieUnfence_clears, State.setFence_changed (State.clear_bit_ne d.isLt fenced), State.serve_busy busy]

theorem laser_busy (dim mod : Bool) :
    exec (.laserOut dim mod) s = .next (s.refusedAction 2) ∧ exec (.laserIn dim mod) s = .next (s.refusedAction 2) := by
  rw [exec_laserOut, exec_laserIn, execLaserOut, execLaserIn, State.setLaser, State.setLaser, State.serve_busy busy,
    State.serve_busy busy]
  exact ⟨rfl, rfl⟩

theorem fabricLeave_busy : exec .fabricLeave s = .next (s.refusedAction 3) := by
  rw [exec_fabricLeave_leaves, State.leaveFabric, State.serve_busy busy]

theorem fabricJoin_busy : exec .fabricJoin s = .next (s.refusedAction 4) := by
  rw [exec_fabricJoin_joins, State.joinFabric, State.serve_busy busy]

theorem spareCore_busy (k : Nat) : exec (.spareCore k) s = .next (s.refusedAction 6) := by
  rw [exec_spareCore, execSpareCore, State.spareCore, State.serve_busy busy]

theorem firmwareStage_busy (booted : s.booted = true) (len : Dbl) :
    exec (.firmwareStage len) s = .next (s.refusedAction 5) := by
  rw [exec_firmwareStage_stages, State.stageFirmware]
  dsimp only
  rw [if_pos booted, State.serve_busy busy]

end Busy

theorem powerLimitExceeded_withholds {s : State} {d : BitVec 2} {w : BitVec 16} (above : s.powerLimit d.toNat < w.toNat) :
    exec (.powerLimitExceeded d w) s = .next (s.setDie d.toNat { s.die d.toNat with pwravg := w, withheld := true }) := by
  rw [exec_powerLimitExceeded, execPowerLimitExceeded]
  simp only [above, decide_true, Bool.or_true]

theorem powerBelowLimit_lifts {s : State} {d : BitVec 2} {w : BitVec 16} (below : w.toNat < s.powerLimit d.toNat) :
    exec (.powerBelowLimit d w) s = .next (s.setDie d.toNat { s.die d.toNat with pwravg := w, withheld := false }) := by
  rw [exec_powerBelowLimit, execPowerBelowLimit]
  simp only [below, decide_true, Bool.not_true, Bool.and_false]

/-- THERMAL_FENCE and THERMAL_THROTTLE each report a measured temperature. -/
theorem exec_thermal (s : State) (d : BitVec 2) (c : BitVec 8) {i : Instr}
    (hi : i ∈ ([.thermalFence d c, .thermalThrottle d c] : List Instr)) : exec i s = .next (s.thermal d.toNat c) := by
  obtain rfl | rfl : i = .thermalFence d c ∨ i = .thermalThrottle d c := by simpa using hi
  · exact exec_thermalFence s
  · exact exec_thermalThrottle s

/-- Settles O60: an action that is started does what its name says to the service block and to the agenda, one that is refused
changes SVCSTAT alone, and each measurement of a die is judged against its limits. -/
theorem serviceEvents : Obligations.ServiceEvents := by
  unfold Obligations.ServiceEvents
  refine ⟨fun s idle => ⟨fun d => ⟨dieFence_idle idle, dieUnfence_idle idle⟩, laser_idle idle, fabricLeave_idle idle,
      fabricJoin_idle idle, fun k => spareCore_marks idle⟩,
    fun s busy => ⟨fun d => ⟨dieFence_busy busy, dieUnfence_busy busy⟩, laser_busy busy, fabricLeave_busy busy,
      fabricJoin_busy busy, spareCore_busy busy, firmwareStage_busy busy⟩,
    fun s d w c => ⟨powerLimitExceeded_withholds, powerBelowLimit_lifts, fun hot => ?_, fun cool => ?_, fun hot before i hi => ?_⟩⟩
  · obtain ⟨temp, limit⟩ := s.thermal_hot d.toNat hot
    exact ⟨_, exec_thermalThrottle s, temp, limit, s.thermal_mem d.toNat c⟩
  · obtain ⟨temp, limit⟩ := s.thermal_cool d.toNat cool
    exact ⟨_, exec_thermalRecovery s, temp, limit, s.thermal_mem d.toNat c⟩
  · obtain ⟨temp, limit⟩ := s.thermal_hot d.toNat (c := c) (by omega)
    exact ⟨_, ⟨s.cycle, 8, d.toNat, 0, 0xB5, c.setWidth 64, 0, 0⟩, exec_thermal s d c hi, temp, limit,
      State.thermal_fence_diefence d.isLt hot before, by rw [State.thermal_die_fenced hot before], rfl, rfl⟩

end Sys2Proof.Machine
end

