-- ==== Sys2Proof/Proofs/VectorReductions.lean ====
section
/-! Reductions and scans on integer lanes (R68, R69, R150, R151). A lane keeps an integer modulo 2^width, so that one step of a
sum on lanes is addition seen through `intLane t`; the tree and the scan then add integers, where the order does not matter. -/

namespace Sys2Proof.Machine

/-! Integers in lanes: a lane and its integer are the same modulo 2^width (R46, R47). -/

theorem isFloat_of_isInt {t : ElemType} (h : t.isInt = true) : t.isFloat = false := by
  cases t with
  | i8 | n8 | i16 | n16 | i32 | n32 => rfl
  | bf | f32 | d8 => exact absurd h (by decide)

theorem elemType_width_le (t : ElemType) : ElemType_width t ≤ 32 := by
  cases t <;> decide

/-- Reading a lane as an integer keeps the bits of the type's width. -/
theorem ofInt_laneInt (t : ElemType) (c : BitVec 32) :
    BitVec.ofInt (ElemType_width t) (laneInt t c) = c.setWidth (ElemType_width t) := by
  unfold laneInt
  split
  · exact BitVec.ofInt_toInt
  · rw [BitVec.ofInt_natCast, BitVec.ofNat_toNat, BitVec.setWidth_eq]

/-- Writing an integer to a lane keeps its bits of the type's width. -/
theorem setWidth_intLane (t : ElemType) (i : Int) :
    (intLane t i).setWidth (ElemType_width t) = BitVec.ofInt (ElemType_width t) i := by
  have hw := elemType_width_le t
  simp only [intLane]
  split
  · ext j hj
    simp [BitVec.getElem_signExtend, hj, Nat.lt_of_lt_of_le hj hw]
  · rw [BitVec.setWidth_setWidth_of_le _ hw, BitVec.setWidth_eq]

/-- A lane's container depends on its integer modulo 2^width only. -/
theorem intLane_congr {t : ElemType} {i j : Int}
    (h : BitVec.ofInt (ElemType_width t) i = BitVec.ofInt (ElemType_width t) j) : intLane t i = intLane t j := by
  simp only [intLane, h]

@[simp] theorem intLane_zero (t : ElemType) : intLane t 0 = 0 := by
  cases t <;> rfl

/-- One step of an integer sum on lanes is the lane of the integers' sum. -/
theorem redOp_sum_intLane {t : ElemType} (ht : t.isFloat = false) (i j : Int) :
    redOp t 0 (intLane t i) (intLane t j) = intLane t (i + j) := by
  simp only [redOp, ht]
  apply intLane_congr
  rw [BitVec.ofInt_add, ofInt_laneInt, ofInt_laneInt, setWidth_intLane, setWidth_intLane, BitVec.ofInt_add]

/-- What a lane adds to an integer sum: its integer when it is active, 0 when it is not (R70). -/
def activeInt (t : ElemType) (v : VReg) (m : BitVec 64) (i : Nat) : Int :=
  if m.getLsbD i then laneInt t (lane v i) else 0

theorem redLanes_sum {t : ElemType} (ht : t.isFloat = false) (v : VReg) (m : BitVec 64) :
    redLanes t 0 v m = (List.range 64).map fun i => intLane t (activeInt t v m i) := by
  apply List.map_congr_left
  intro i _
  unfold activeInt
  split
  · simp [ht]
  · exact (intLane_zero t).symm

/-! The tree of R68 on integers. -/

/-- One level of the tree: neighbours added. -/
def pairSums : List Int → List Int
  | a :: b :: r => (a + b) :: pairSums r
  | l => l

theorem sum_pairSums : ∀ l : List Int, (pairSums l).sum = l.sum
  | [] | [_] => rfl
  | a :: b :: r => by simp only [pairSums, List.sum_cons, sum_pairSums r, Int.add_assoc]

theorem length_pairSums : ∀ l : List Int, (pairSums l).length = (l.length + 1) / 2
  | [] | [_] => by simp [pairSums]
  | a :: b :: r => by
    simp only [pairSums, List.length_cons, length_pairSums r]
    omega

/-! The scan of R69 on integers. -/

/-- The sum of the first n values. -/
def prefixSum (v : Nat → Int) (n : Nat) : Int := ((List.range n).map v).sum

/-- The sum of the h values that end with value i, or of all up to i when there are fewer. -/
def windowSum (v : Nat → Int) (h i : Nat) : Int := prefixSum v (i + 1) - prefixSum v (i + 1 - h)

theorem windowSum_one (v : Nat → Int) (i : Nat) : windowSum v 1 i = v i := by
  simp [windowSum, prefixSum, List.sum_range_succ]

/-- A window that reaches back to value 0 is the prefix. -/
theorem windowSum_of_lt (v : Nat → Int) {h i : Nat} (hi : i < h) : windowSum v h i = prefixSum v (i + 1) := by
  simp [windowSum, Nat.sub_eq_zero_of_le hi, prefixSum]

/-- A window and the one of the same width before it make the window of twice that width. -/
theorem windowSum_add_windowSum (v : Nat → Int) (h i : Nat) :
    windowSum v h i + windowSum v h (i + h) = windowSum v (2 * h) (i + h) := by
  have e1 : i + h + 1 - h = i + 1 := by omega
  have e2 : i + h + 1 - 2 * h = i + 1 - h := by omega
  simp only [windowSum, e1, e2]
  omega

section Steps
/-! Both, on lanes whose step is addition seen through `g`. -/
variable {f : BitVec 32 → BitVec 32 → BitVec 32} {g : Int → BitVec 32} (hom : ∀ i j, f (g i) (g j) = g (i + j))
include hom

theorem treeLevel_map : ∀ l : List Int, treeLevel f (l.map g) = (pairSums l).map g
  | [] | [_] => rfl
  | a :: b :: r => by simp only [List.map_cons, treeLevel, pairSums, hom, treeLevel_map r]

/-- n levels bring at most 2^n lanes down to their sum. -/
theorem iterate_treeLevel_map (zero : g 0 = 0) : ∀ (n : Nat) (l : List Int), l.length ≤ 2 ^ n →
    ((treeLevel f)^[n] (l.map g)).headD 0 = g l.sum
  | 0, [], _ => zero.symm
  | 0, [a], _ => by simp
  | n + 1, l, h => by
    have hl : (pairSums l).length ≤ 2 ^ n := by
      rw [length_pairSums]
      omega
    rw [Function.iterate_succ_apply, treeLevel_map hom, iterate_treeLevel_map zero n _ hl, sum_pairSums]

theorem treeReduce_map (zero : g 0 = 0) {l : List Int} (h : l.length ≤ 64) : treeReduce f (l.map g) = g l.sum := by
  rw [treeReduce, List.foldl_const]
  exact iterate_treeLevel_map hom zero 6 l h

/-- A step of the scan at distance h doubles the windows of width h. -/
theorem scanStep_windowSum (v : Nat → Int) (n h : Nat) :
    scanStep f h ((List.range n).map fun i => g (windowSum v h i)) = (List.range n).map fun i => g (windowSum v (2 * h) i) := by
  apply List.ext_getElem
  · simp only [scanStep, List.length_append, List.length_take, List.length_zipWith, List.length_drop, List.length_map,
      List.length_range]
    omega
  · intro i _ hi
    have hin : i < n := by simpa using hi
    by_cases hlt : i < h
    · simp [scanStep, hlt, hin, windowSum_of_lt v hlt, windowSum_of_lt v (show i < 2 * h by omega)]
    · obtain ⟨j, rfl⟩ : ∃ j, i = j + h := ⟨i - h, by omega⟩
      have hhn : min h n = h := by omega
      simp [scanStep, hhn, hom, Nat.add_comm h j, windowSum_add_windowSum]

theorem foldl_scanStep_windowSum (v : Nat → Int) (n m : Nat) :
    (List.range m).foldl (fun a j => scanStep f (2 ^ j) a) ((List.range n).map fun i => g (v i)) =
      (List.range n).map fun i => g (windowSum v (2 ^ m) i) := by
  induction m with
  | zero => simp [windowSum_one]
  | succ m ih => rw [List.range_succ, List.foldl_append, ih, List.foldl_cons, List.foldl_nil, scanStep_windowSum hom, Nat.pow_succ']

theorem scanAll_map (v : Nat → Int) :
    scanAll f ((List.range 64).map fun i => g (v i)) = (List.range 64).map fun i => g (prefixSum v (i + 1)) := by
  rw [scanAll, foldl_scanStep_windowSum hom]
  apply List.map_congr_left
  intro i hi
  rw [windowSum_of_lt v (by simpa using hi)]

end Steps

/-! The integer sum and its scan as instructions. -/

theorem exec_vredsum_int {t : ElemType} (ht : t.isFloat = false) (k : BitVec 4) (d a : BitVec 6) (s : State) :
    exec (.vredsum k d a t) s =
      .next (s.wv 6 d (BitVec.allOnes 64) (mkVReg fun _ => intLane t (prefixSum (activeInt t (s.rv a) (s.rk k)) 64))) := by
  have htree := treeReduce_map (redOp_sum_intLane ht) (intLane_zero t)
    (l := (List.range 64).map (activeInt t (s.rv a) (s.rk k))) (by simp)
  rw [List.map_map] at htree
  rw [exec_vredsum, execVredsum, vreduce, redLanes_sum ht, prefixSum, ← htree]
  rfl

theorem exec_vscan_int {t : ElemType} (ht : t.isFloat = false) (k : BitVec 4) (d a : BitVec 6) (s : State) :
    exec (.vscan k d a 0 t) s =
      .next (s.wv 6 d (s.rk k) (mkVReg fun i => intLane t (prefixSum (activeInt t (s.rv a) (s.rk k)) (i + 1)))) := by
  have hscan := scanAll_map (redOp_sum_intLane ht) (activeInt t (s.rv a) (s.rk k))
  rw [exec_vscan, execVscan, mkVReg, ← hscan, ← redLanes_sum ht]
  rfl

/-- Settles O35: the tree and the scan are the model's own words, and on integers `redOp t 0` is addition modulo 2^width, under
which both come to plain sums. -/
theorem vectorReductions : Obligations.VectorReductions := by
  unfold Obligations.VectorReductions
  intro k d a t s
  refine ⟨exec_vredsum s, exec_vredmin s, exec_vredmax s, fun _ _ => exec_vscan s, fun ht => ?_⟩
  exact ⟨exec_vredsum_int (isFloat_of_isInt ht) k d a s, exec_vscan_int (isFloat_of_isInt ht) k d a s⟩

end Sys2Proof.Machine
end

