-- ==== Sys2Proof/Proofs/Encoding.lean ====
section
/-! Decode and encode agree (R81 to R91). Every row of an opcode map reads a word's fields and nothing else, so the encoder, which
joins the same fields, gives the word back; the other direction is PerInstr's lemma for each constructor. -/

namespace Sys2Proof.Laws.Encoding

theorem decodeWord_encode (i : Instr) : Statement i := by
  cases i with
  | add => apply add | sub => apply sub | and => apply and | or => apply or | xor => apply xor | andn => apply andn
  | shl => apply shl | shr => apply shr | sar => apply sar | rol => apply rol | minI => apply minI | maxI => apply maxI
  | minN => apply minN | maxN => apply maxN | mul => apply mul | mulhI => apply mulhI | mulhN => apply mulhN
  | divI => apply divI | divN => apply divN | remI => apply remI | remN => apply remN | clz => apply clz | ctz => apply ctz
  | popc => apply popc | brev => apply brev | bswap => apply bswap | sel => apply sel | adds => apply adds
  | extI => apply extI | extN => apply extN | ins => apply ins | cmp => apply cmp | addi => apply addi | andi => apply andi
  | ori => apply ori | xori => apply xori | shli => apply shli | shri => apply shri | sari => apply sari | cmpi => apply cmpi
  | li => apply li | lih => apply lih | qlog => apply qlog | pbr => apply pbr | pbx => apply pbx | br => apply br
  | call => apply call | loop => apply loop | vany => apply vany | vall => apply vall | tend => apply tend
  | trap => apply trap | brk => apply brk | nap => apply nap | srd => apply srd | swr => apply swr | fence => apply fence
  | tret => apply tret | tretSkip => apply tretSkip | tretEnd => apply tretEnd | tretTo => apply tretTo | sys => apply sys
  | xtovBc => apply xtovBc | xtovIns => apply xtovIns | vtox => apply vtox | vtoxR => apply vtoxR | ktox => apply ktox
  | xtok => apply xtok | spawn => apply spawn | binit => apply binit | barrive => apply barrive | bexpect => apply bexpect
  | bwait => apply bwait | btest => apply btest | breset => apply breset | toksig => apply toksig | tokwait => apply tokwait
  | gstart => apply gstart | leaseReq => apply leaseReq | leaseRel => apply leaseRel | leaseQry => apply leaseQry
  | mqpush => apply mqpush | mqstat => apply mqstat | sbind => apply sbind | sprobe => apply sprobe | snew => apply snew
  | spub => apply spub | srel => apply srel | spin => apply spin | spinRef => apply spinRef | sunpin => apply sunpin
  | sunpinRef => apply sunpinRef | sseek => apply sseek | sinfo => apply sinfo | sedge => apply sedge | tldv => apply tldv
  | tstv => apply tstv | tldx => apply tldx | twb => apply twb | tpref => apply tpref | wayconv => apply wayconv
  | wayrest => apply wayrest | lds => apply lds | sts => apply sts | ld => apply ld | ldp => apply ldp | st => apply st
  | stp => apply stp | vld => apply vld | vgld => apply vgld | vst => apply vst | vsst => apply vsst | amo => apply amo
  | cas => apply cas | vamo => apply vamo | mcas => apply mcas | rwb => apply rwb | rinv => apply rinv
  | rwbinv => apply rwbinv | rstf => apply rstf | acopy => apply acopy | pfl => apply pfl | vadd => apply vadd
  | vsub => apply vsub | vmul => apply vmul | vfma => apply vfma | vfms => apply vfms | vmin => apply vmin
  | vmax => apply vmax | vabs => apply vabs | vneg => apply vneg | vabd => apply vabd | vadds => apply vadds
  | vsubs => apply vsubs | vmulh => apply vmulh | vshl => apply vshl | vshr => apply vshr | vsar => apply vsar
  | vand => apply vand | vor => apply vor | vxor => apply vxor | vandn => apply vandn | vpopc => apply vpopc
  | vclz => apply vclz | vceq => apply vceq | vcne => apply vcne | vclt => apply vclt | vcle => apply vcle
  | vsel => apply vsel | vmov => apply vmov | vimm => apply vimm | viota => apply viota | vcvt => apply vcvt
  | vrnd => apply vrnd | vexp2 => apply vexp2 | vlog2 => apply vlog2 | vrcp => apply vrcp | vrsq => apply vrsq
  | vredsum => apply vredsum | vredmin => apply vredmin | vredmax => apply vredmax | vscan => apply vscan
  | vperm => apply vperm | vslide => apply vslide | vtopk => apply vtopk | vbset => apply vbset | vkand => apply vkand
  | vkor => apply vkor | vkxor => apply vkxor | vkandn => apply vkandn | vkpop => apply vkpop | vkfirst => apply vkfirst
  | vshli => apply vshli | vshri => apply vshri | vsari => apply vsari | mpass => apply mpass | mop => apply mop
  | mgath => apply mgath | minit => apply minit | mrd => apply mrd | mwr => apply mwr | mst => apply mst
  | _ => exact fun _ h => absurd h List.not_mem_nil

end Sys2Proof.Laws.Encoding

namespace Sys2Proof

/-- A header-only bundle is the header that the encoder wrote. -/
theorem decodeBundle_emptyBundle (d : Bool) (c : BitVec 2) :
    decodeBundle (encode (.emptyBundle d c)) [] = .ok ⟨encode (.emptyBundle d c), c, d, 0, [0, 0, 0, 0], []⟩ := by
  revert d c
  decide

/-- Settles O2: word by word, and the eight header-only bundles by evaluation. -/
theorem decodeOfEncode : Obligations.DecodeOfEncode := by
  unfold Obligations.DecodeOfEncode
  exact ⟨fun i sl hs hw => Laws.Encoding.decodeWord_encode i sl hs hw, decodeBundle_emptyBundle⟩

end Sys2Proof
end

