-- ==== Sys2Proof/Proofs/ReadsExactly.lean ====
section
/-! A word that decodes loses no bit (R81, R86 to R91): each row's fields cover the 32 bits, and each field that the instruction
does not keep is one that the row requires to be fixed. -/

set_option linter.unusedSimpArgs false

namespace Sys2Proof

/-- Joining the fields that a word is cut into gives the word back. -/
theorem pack_unpack : ∀ (l : List (Nat × Nat)) (n : Nat), n < 2 ^ packBits l →
    unpack (l.map Prod.fst) n = l.map (fun p => p.2 % 2 ^ p.1) → pack l = n
  | [], n, hn, _ => by simp [packBits] at hn; simp [pack, hn]
  | (w, v) :: r, n, hn, h => by
    simp only [List.map_cons, unpack, List.cons.injEq] at h
    obtain ⟨hv, hr⟩ := h
    have hd : n / 2 ^ w < 2 ^ packBits r := by
      rw [Nat.div_lt_iff_lt_mul (Nat.two_pow_pos w), ← Nat.pow_add, Nat.add_comm]; exact hn
    rw [pack, pack_unpack r _ hd hr, ← hv, Nat.mod_add_div]

/-- The same for the fields of a 32-bit word. -/
theorem pack_of_unpack {n : Nat} (l : List (Nat × Nat)) (hb : packBits l = 32) (hn : n < 2 ^ 32)
    (hf : unpack (l.map Prod.fst) n = l.map fun p => p.2 % 2 ^ p.1) : pack l = n :=
  pack_unpack l n (hb ▸ hn) hf

/-- What a row reads in a slot it reads exactly: encoding the instruction gives the word back, the slot has the instruction, and
the literal is the one it was given or none (R81, R86 to R91). -/
def ReadsExactly (sl : Slot) (r : Row) : Prop :=
  ∀ (lit : Option Word) (n : Nat), n < 2 ^ 32 → ∀ i : Instr, r.2 lit n = some i →
    encodeNat i = n ∧ sl ∈ i.slots ∧ (i.literal = lit ∨ i.literal = none)

theorem bit_toNat (n : Nat) : (n % 2 == 1).toNat = n % 2 := by
  rcases Nat.mod_two_eq_zero_or_one n with h | h <;> simp [h]
theorem elemCode_mod (t : ElemType) : t.code % 16 = t.code := by cases t <;> rfl
theorem rmodeCode_mod (t : RMode) : t.code % 4 = t.code := by cases t <;> rfl
theorem cellOpCode_mod (t : CellOp) : t.code % 4 = t.code := by cases t <;> rfl
theorem atomicCode_mod (t : AtomicOp) : t.code % 16 = t.code := by cases t <;> rfl
theorem policyCode_mod (t : Policy) : t.code % 4 = t.code := by cases t <;> rfl

theorem elemOf?_eq_some_iff {n : Nat} {t : ElemType} : elemOf? n = some t ↔ n = t.code := by
  constructor
  · unfold elemOf?
    split <;> rintro ⟨⟩ <;> rfl
  · rintro rfl
    cases t <;> rfl
theorem rmodeOf?_eq_some_iff {n : Nat} {t : RMode} : rmodeOf? n = some t ↔ n = t.code := by
  constructor
  · unfold rmodeOf?
    split <;> rintro ⟨⟩ <;> rfl
  · rintro rfl
    cases t <;> rfl
theorem cellOpOf?_eq_some_iff {n : Nat} {t : CellOp} : cellOpOf? n = some t ↔ n = t.code := by
  constructor
  · unfold cellOpOf?
    split <;> rintro ⟨⟩ <;> rfl
  · rintro rfl
    cases t <;> rfl
theorem atomicOf?_eq_some_iff {n : Nat} {t : AtomicOp} : atomicOf? n = some t ↔ n = t.code := by
  constructor
  · unfold atomicOf?
    split <;> rintro ⟨⟩ <;> rfl
  · rintro rfl
    cases t <;> rfl
theorem policyOf?_eq_some_iff {n : Nat} {t : Policy} : policyOf? n = some t ↔ n = t.code := by
  constructor
  · unfold policyOf?
    split <;> rintro ⟨⟩ <;> rfl
  · rintro rfl
    cases t <;> rfl

/-! The opcode maps, row by row: a row that reads the word has met its guard, which fixes the unused fields, and the instruction
holds the others. -/

theorem rowsC_readExactly (op : Nat) : ∀ r ∈ rowsC op, ReadsExactly .c r := by
  unfold rowsC
  split
  all_goals
    intro r hr
    fin_cases hr
  all_goals
    intro lit n hn i
    simp only [rowAdd, rowSub, rowAnd, rowOr, rowXor, rowAndn, rowShl, rowShr, rowSar, rowRol, rowMinI, rowMaxI, rowMinN, rowMaxN,
      rowMul, rowMulhI, rowMulhN, rowDivI, rowDivN, rowRemI, rowRemN, rowClz, rowCtz, rowPopc, rowBrev, rowBswap, rowSel,
      rowAdds, rowExtI, rowExtN, rowIns, rowCmp, rowAddi, rowAndi, rowOri, rowXori, rowShli, rowShri, rowSari, rowCmpi,
      rowLi, rowLih, rowQlog, rowPbr, rowPbx, rowBr, rowCall, rowLoop, rowVany, rowVall, rowTend, rowTrap, rowBrk,
      rowNap, unpack, Nat.reducePow, Option.ite_none_right_eq_some, Bool.and_eq_true, beq_iff_eq,
      Option.bind_eq_some_iff, Option.some.injEq, elemOf?_eq_some_iff, rmodeOf?_eq_some_iff, cellOpOf?_eq_some_iff,
      atomicOf?_eq_some_iff, policyOf?_eq_some_iff, forall_exists_index, and_imp]
    intros
    rename_i h
    subst h
    delta encodeNat Instr.slots Instr.literal
    refine ⟨pack_of_unpack _ rfl hn ?_, by simp, by simp⟩
    simp [unpack, bit_toNat, elemCode_mod, rmodeCode_mod, cellOpCode_mod, atomicCode_mod, policyCode_mod, *]

theorem rowsS_readExactly (op : Nat) : ∀ r ∈ rowsS op, ReadsExactly .s r := by
  unfold rowsS
  split
  all_goals
    intro r hr
    fin_cases hr
  all_goals
    intro lit n hn i
    simp only [rowAdd, rowSub, rowAnd, rowOr, rowXor, rowAndn, rowShl, rowShr, rowSar, rowRol, rowMinI, rowMaxI, rowMinN, rowMaxN,
      rowMul, rowMulhI, rowMulhN, rowDivI, rowDivN, rowRemI, rowRemN, rowClz, rowCtz, rowPopc, rowBrev, rowBswap, rowSel,
      rowAdds, rowExtI, rowExtN, rowIns, rowCmp, rowAddi, rowAndi, rowOri, rowXori, rowShli, rowShri, rowSari, rowCmpi,
      rowLi, rowLih, rowQlog, rowSrd, rowSwr, rowFence, rowTret, rowTretSkip, rowTretEnd, rowTretTo, rowSys, unpack,
      Nat.reducePow, Option.ite_none_right_eq_some, Bool.and_eq_true, beq_iff_eq, Option.bind_eq_some_iff,
      Option.some.injEq, elemOf?_eq_some_iff, rmodeOf?_eq_some_iff, cellOpOf?_eq_some_iff, atomicOf?_eq_some_iff,
      policyOf?_eq_some_iff, forall_exists_index, and_imp]
    intros
    rename_i h
    subst h
    delta encodeNat Instr.slots Instr.literal
    refine ⟨pack_of_unpack _ rfl hn ?_, by simp, by simp⟩
    simp [unpack, bit_toNat, elemCode_mod, rmodeCode_mod, cellOpCode_mod, atomicCode_mod, policyCode_mod, *]

theorem rowsX_readExactly (op : Nat) : ∀ r ∈ rowsX op, ReadsExactly .x r := by
  unfold rowsX
  split
  all_goals
    intro r hr
    fin_cases hr
  all_goals
    intro lit n hn i
    simp only [rowXtovBc, rowXtovIns, rowVtox, rowVtoxR, rowKtox, rowXtok, rowSpawn, rowBinit, rowBarrive, rowBexpect, rowBwait,
      rowBtest, rowBreset, rowToksig, rowTokwait, rowGstart, rowLeaseReq, rowLeaseRel, rowLeaseQry, rowMqpush, rowMqstat,
      unpack, Nat.reducePow, Option.ite_none_right_eq_some, Bool.and_eq_true, beq_iff_eq, Option.bind_eq_some_iff,
      Option.some.injEq, elemOf?_eq_some_iff, rmodeOf?_eq_some_iff, cellOpOf?_eq_some_iff, atomicOf?_eq_some_iff,
      policyOf?_eq_some_iff, forall_exists_index, and_imp]
    intros
    rename_i h
    subst h
    delta encodeNat Instr.slots Instr.literal
    refine ⟨pack_of_unpack _ rfl hn ?_, by simp, by simp⟩
    simp [unpack, bit_toNat, elemCode_mod, rmodeCode_mod, cellOpCode_mod, atomicCode_mod, policyCode_mod, *]

theorem rowsT_readExactly (op : Nat) : ∀ r ∈ rowsT op, ReadsExactly .t r := by
  unfold rowsT
  split
  all_goals
    intro r hr
    fin_cases hr
  all_goals
    intro lit n hn i
    simp only [rowSbind, rowSprobe, rowSnew, rowSpub, rowSrel, rowSpin, rowSpinRef, rowSunpin, rowSunpinRef, rowSseek, rowSinfo,
      rowSedge, rowTldv, rowTstv, rowTldx, rowTwb, rowTpref, rowWayconv, rowWayrest, rowLds, rowSts, rowLd, rowLdp,
      rowSt, rowStp, rowVld, rowVgld, rowVst, rowVsst, rowAmo, rowCas, rowVamo, rowMcas, rowRwb, rowRinv, rowRwbinv,
      rowRstf, rowAcopy, rowPfl, unpack, Nat.reducePow, Option.ite_none_right_eq_some, Bool.and_eq_true, beq_iff_eq,
      Option.bind_eq_some_iff, Option.some.injEq, elemOf?_eq_some_iff, rmodeOf?_eq_some_iff, cellOpOf?_eq_some_iff,
      atomicOf?_eq_some_iff, policyOf?_eq_some_iff, forall_exists_index, and_imp]
    intros
    rename_i h
    subst h
    delta encodeNat Instr.slots Instr.literal
    refine ⟨pack_of_unpack _ rfl hn ?_, by simp, by simp⟩
    simp [unpack, bit_toNat, elemCode_mod, rmodeCode_mod, cellOpCode_mod, atomicCode_mod, policyCode_mod, *]

theorem rowsV_readExactly {sl : Slot} (hs : sl = .v0 ∨ sl = .v1) (op : Nat) : ∀ r ∈ rowsV op, ReadsExactly sl r := by
  unfold rowsV
  split
  all_goals
    intro r hr
    fin_cases hr
  all_goals
    intro lit n hn i
    simp only [rowVadd, rowVsub, rowVmul, rowVfma, rowVfms, rowVmin, rowVmax, rowVabs, rowVneg, rowVabd, rowVadds, rowVsubs,
      rowVmulh, rowVshl, rowVshr, rowVsar, rowVand, rowVor, rowVxor, rowVandn, rowVpopc, rowVclz, rowVceq, rowVcne,
      rowVclt, rowVcle, rowVsel, rowVmov, rowVimm, rowViota, rowVcvt, rowVrnd, rowVexp2, rowVlog2, rowVrcp, rowVrsq,
      rowVredsum, rowVredmin, rowVredmax, rowVscan, rowVperm, rowVslide, rowVtopk, rowVbset, rowVkand, rowVkor, rowVkxor,
      rowVkandn, rowVkpop, rowVkfirst, rowVshli, rowVshri, rowVsari, unpack, Nat.reducePow,
      Option.ite_none_right_eq_some, Bool.and_eq_true, beq_iff_eq, Option.bind_eq_some_iff, Option.some.injEq,
      elemOf?_eq_some_iff, rmodeOf?_eq_some_iff, cellOpOf?_eq_some_iff, atomicOf?_eq_some_iff, policyOf?_eq_some_iff,
      forall_exists_index, and_imp]
    intros
    rename_i h
    subst h
    delta encodeNat Instr.slots Instr.literal
    refine ⟨pack_of_unpack _ rfl hn ?_, by rcases hs with rfl | rfl <;> simp, by simp⟩
    simp [unpack, bit_toNat, elemCode_mod, rmodeCode_mod, cellOpCode_mod, atomicCode_mod, policyCode_mod, *]

theorem rowsM_readExactly (op : Nat) : ∀ r ∈ rowsM op, ReadsExactly .m r := by
  unfold rowsM
  split
  all_goals
    intro r hr
    fin_cases hr
  all_goals
    intro lit n hn i
    simp only [rowMpass, rowMop, rowMgath, rowMinit, rowMrd, rowMwr, rowMst, unpack, Nat.reducePow, Option.ite_none_right_eq_some,
      Bool.and_eq_true, beq_iff_eq, Option.bind_eq_some_iff, Option.some.injEq, elemOf?_eq_some_iff,
      rmodeOf?_eq_some_iff, cellOpOf?_eq_some_iff, atomicOf?_eq_some_iff, policyOf?_eq_some_iff, forall_exists_index,
      and_imp]
    intros
    rename_i h
    subst h
    delta encodeNat Instr.slots Instr.literal
    refine ⟨pack_of_unpack _ rfl hn ?_, by simp, by simp⟩
    simp [unpack, bit_toNat, elemCode_mod, rmodeCode_mod, cellOpCode_mod, atomicCode_mod, policyCode_mod, *]

theorem rowsOf_readExactly (sl : Slot) (op : Nat) : ∀ r ∈ rowsOf sl op, ReadsExactly sl r := by
  cases sl with
  | c => exact rowsC_readExactly op
  | s => exact rowsS_readExactly op
  | x => exact rowsX_readExactly op
  | t => exact rowsT_readExactly op
  | v0 => exact rowsV_readExactly (.inl rfl) op
  | v1 => exact rowsV_readExactly (.inr rfl) op
  | m => exact rowsM_readExactly op

theorem exists_row_of_firstRow {lit : Option Word} {n k : Nat} {i : Instr} : ∀ {rs : List Row}, firstRow rs lit n = some (k, i) →
    (∃ r ∈ rs, r.2 lit n = some i) ∧ i.wf = true
  | (m, f) :: rs, h => by
    unfold firstRow at h
    split at h
    · next j hj =>
      split at h
      · next hw =>
        obtain ⟨rfl, rfl⟩ : m = k ∧ j = i := by simpa using h
        exact ⟨⟨_, List.mem_cons_self, hj⟩, hw⟩
      · obtain ⟨⟨r, hr, hi⟩, hw⟩ := exists_row_of_firstRow h
        exact ⟨⟨r, List.mem_cons_of_mem _ hr, hi⟩, hw⟩
    · obtain ⟨⟨r, hr, hi⟩, hw⟩ := exists_row_of_firstRow h
      exact ⟨⟨r, List.mem_cons_of_mem _ hr, hi⟩, hw⟩

theorem exists_row_of_decodeWord {sl : Slot} {lit : Option Word} {wd : Word} {i : Instr} (h : decodeWord sl lit wd = .ok i) :
    (∃ r ∈ rowsOf sl (wd.toNat / 2 ^ 26), r.2 lit wd.toNat = some i) ∧ i.wf = true := by
  unfold decodeWord at h
  split at h
  · cases h
  · split at h
    · next hf =>
      cases h
      exact exists_row_of_firstRow hf
    · cases h

/-- Settles O3: the row that read the word reads it exactly. -/
theorem encodeOfDecode : Obligations.EncodeOfDecode := by
  unfold Obligations.EncodeOfDecode
  intro sl lit wd i h
  obtain ⟨⟨r, hr, hi⟩, hw⟩ := exists_row_of_decodeWord h
  obtain ⟨he, hs, hl⟩ := rowsOf_readExactly sl _ r hr lit wd.toNat wd.isLt i hi
  exact ⟨by rw [encode, he, BitVec.ofNat_toNat, BitVec.setWidth_eq], hs, hw, hl⟩

end Sys2Proof
end

