-- ==== Sys2Proof/Proofs/Landing.lean ====
section
/-! Which results land at a bundle time, and in which order (R96, R97): the shared path lands the first write that is due on it,
and every other due write lands. -/

namespace Sys2Proof.Machine

/-- Land a list of results, one after the other. -/
def landAll (l : List Pending) (c : Context) : Context := l.foldl (fun x p => x.land p.write) c

section Due
variable (t : Nat)

@[simp] theorem landDue_nil (took : Bool) (c : Context) : landDue t took [] c = (c, []) := rfl

theorem landDue_cons_lands {took : Bool} {p : Pending} (r : List Pending) (c : Context) (hd : p.due ≤ t)
    (hs : (p.shared && took) = false) : landDue t took (p :: r) c = landDue t (took || p.shared) r (c.land p.write) := by
  rw [landDue, if_pos (by simp [hd, hs])]

theorem landDue_cons_stays {took : Bool} {p : Pending} (r : List Pending) (c : Context)
    (h : t < p.due ∨ (p.shared && took) = true) :
    landDue t took (p :: r) c = ((landDue t took r c).1, p :: (landDue t took r c).2) := by
  rw [landDue, if_neg]
  rcases h with h | h
  · simp [h]
  · simp [h]

/-- Once the shared path has landed one, only writes of the other paths land. -/
theorem landDue_taken (c : Context) (l : List Pending) :
    (landDue t true l c).1 = landAll (l.filter fun p => !p.shared && decide (p.due ≤ t)) c := by
  induction l generalizing c with
  | nil => rfl
  | cons p r ih =>
    by_cases hl : p.shared = false ∧ p.due ≤ t
    · rw [landDue_cons_lands t r c hl.2 (by simp [hl.1]), Bool.true_or, ih]
      simp [hl, landAll]
    · rw [landDue_cons_stays t r c (by by_cases hs : p.shared <;> simp_all)]
      rw [ih, List.filter_cons_of_neg (by simpa using hl)]

/-- Before a shared write is due, every due write lands. -/
theorem landDue_append (a r : List Pending) (c : Context) (h : ∀ p ∈ a, p.shared = true → t < p.due) :
    (landDue t false (a ++ r) c).1 = (landDue t false r (landAll (a.filter fun p => decide (p.due ≤ t)) c)).1 := by
  induction a generalizing c with
  | nil => rfl
  | cons p a ih =>
    have ha := fun c => ih c fun q hq => h q (List.mem_cons_of_mem _ hq)
    by_cases hd : p.due ≤ t
    · have hs : p.shared = false := by
        by_contra hs
        exact absurd (h p List.mem_cons_self (by simpa using hs)) (by omega)
      rw [List.cons_append, landDue_cons_lands t _ c hd (by simp), hs, Bool.or_false, ha]
      simp [hd, landAll]
    · rw [List.cons_append, landDue_cons_stays t _ c (.inl (by omega)), ha, List.filter_cons_of_neg (by simpa using hd)]

/-- No due write of another path is left. -/
theorem landDue_unshared_left (took : Bool) (l : List Pending) (c : Context) :
    ((landDue t took l c).2.filter fun p => !p.shared && decide (p.due ≤ t)) = [] := by
  induction l generalizing took c with
  | nil => rfl
  | cons p r ih =>
    by_cases hl : p.due ≤ t ∧ (p.shared && took) = false
    · rw [landDue_cons_lands t r c hl.1 hl.2, ih]
    · rw [landDue_cons_stays t r c (by by_cases hd : p.due ≤ t <;> simp_all), List.filter_cons_of_neg (by grind), ih]

/-- What is not due stays. -/
theorem landDue_undue_left (took : Bool) (l : List Pending) (c : Context) :
    ((landDue t took l c).2.filter fun p => decide (t < p.due)) = l.filter fun p => decide (t < p.due) := by
  induction l generalizing took c with
  | nil => rfl
  | cons p r ih =>
    by_cases hl : p.due ≤ t ∧ (p.shared && took) = false
    · rw [landDue_cons_lands t r c hl.1 hl.2, ih, List.filter_cons_of_neg (by simpa using hl.1)]
    · rw [landDue_cons_stays t r c (by by_cases hd : p.due ≤ t <;> simp_all)]
      simp [List.filter_cons, ih]

/-- Of the due writes of the shared path the first lands, unless the path has landed one. -/
theorem landDue_shared_left (took : Bool) (l : List Pending) (c : Context) :
    ((landDue t took l c).2.filter fun p => p.shared && decide (p.due ≤ t)) =
      (l.filter fun p => p.shared && decide (p.due ≤ t)).drop (if took then 0 else 1) := by
  induction l generalizing took c with
  | nil => simp
  | cons p r ih =>
    by_cases hl : p.due ≤ t ∧ (p.shared && took) = false
    · rw [landDue_cons_lands t r c hl.1 hl.2, ih]
      by_cases hs : p.shared
      · obtain rfl : took = false := by simpa [hs] using hl.2
        simp [hs, hl.1]
      · simp [hs]
    · rw [landDue_cons_stays t r c (by by_cases hd : p.due ≤ t <;> simp_all)]
      by_cases hd : p.due ≤ t
      · obtain ⟨hs, rfl⟩ : p.shared = true ∧ took = true := by simpa [hd] using hl
        simp [hs, hd, ih]
      · simp [hd, ih]

end Due

theorem landAt_eq (c : Context) (t : Nat) :
    c.landAt t = { (landDue t false c.pending { c with pending := [] }).1 with pending := (c.landAt t).pending } := rfl

theorem landAt_pending (c : Context) (t : Nat) :
    (c.landAt t).pending = (landDue t false c.pending { c with pending := [] }).2 := rfl

/-- Settles O13: the writes before the first shared one that is due, that one, and those of the other paths after it. -/
theorem sharedPathLandsOne : Obligations.SharedPathLandsOne := by
  unfold Obligations.SharedPathLandsOne
  refine fun c t => ⟨fun a b q hp hs hd ha => ?_, fun h => ?_, ?_, ?_, ?_⟩
  · rw [landAt_eq c t, hp, landDue_append t _ _ _ ha, landDue_cons_lands t _ _ hd (by simp), hs, Bool.or_true, landDue_taken]
    simp only [landAll, List.foldl_append, List.foldl_cons]
  · have hl := landDue_append t c.pending [] { c with pending := [] } h
    rw [List.append_nil, landDue_nil] at hl
    rw [landAt_eq c t, hl]
    rfl
  · exact landAt_pending c t ▸ landDue_unshared_left t _ _ _
  · exact landAt_pending c t ▸ landDue_undue_left t _ _ _
  · exact landAt_pending c t ▸ landDue_shared_left t _ _ _

/-! Two writes of one register at one bundle time (R96). -/

/-- The context in which two writes of the other paths have landed, the second after the first. -/
def Context.landTwo (c : Context) (w₁ w₂ : Write) : Context :=
  { (({ c with pending := [] } : Context).land w₁).land w₂ with pending := [] }

theorem landAt_two (c : Context) (t : Nat) (w₁ w₂ : Write) :
    ({ c with pending := [⟨t, false, w₁⟩, ⟨t, false, w₂⟩] } : Context).landAt t = c.landTwo w₁ w₂ := by
  simp [Context.landAt, landDue, Context.landTwo]

theorem land_x_zero (c : Context) (d : Dbl) : c.land (.x 0 d) = c := rfl
theorem land_q_zero (c : Context) (d : Bool) : c.land (.q 0 d) = c := rfl
theorem land_k_zero (c : Context) (d : BitVec 64) : c.land (.k 0 d) = c := rfl

theorem land_x (c : Context) {r : BitVec 5} (hr : r ≠ 0) (d : Dbl) : c.land (.x r d) = { c with x := c.x.set r.toNat d } :=
  if_neg (by simpa using hr)
theorem land_q (c : Context) {r : BitVec 3} (hr : r ≠ 0) (d : Bool) :
    c.land (.q r d) = { c with q := (c.q &&& ~~~(1#8 <<< r.toNat)) ||| (if d then 1#8 <<< r.toNat else 0) } :=
  if_neg (by simpa using hr)
theorem land_k (c : Context) {r : BitVec 4} (hr : r ≠ 0) (d : BitVec 64) :
    c.land (.k r d) = { c with k := c.k.set r.toNat d } :=
  if_neg (by simpa using hr)

theorem landTwo_getX (c : Context) {r : BitVec 5} (hr : r ≠ 0) (d e : Dbl) (r' : BitVec 5) :
    (c.landTwo (.x r d) (.x r e)).getX r' = if r' = r then e else c.getX r' := by
  have ht : r.toNat = r'.toNat ↔ r' = r := by rw [eq_comm, BitVec.toNat_inj]
  simp only [Context.landTwo, land_x _ hr, Context.getX, Vector.set_set, Vector.getElem_set, ht]
  by_cases h : r' = r
  · rw [h, if_neg (by simpa using hr), if_pos rfl, if_pos rfl]
  · simp only [h, if_false]

/-- One bit of the predicate register file after a write of another or of the same bit. -/
theorem bitWrite_getLsbD (q : BitVec 8) (r r' : BitVec 3) (d : Bool) :
    ((q &&& ~~~(1#8 <<< r.toNat)) ||| (if d then 1#8 <<< r.toNat else 0)).getLsbD r'.toNat =
      if r' = r then d else q.getLsbD r'.toNat := by
  have hr : r'.toNat < 8 := r'.isLt
  have ht : r' = r ↔ r'.toNat = r.toNat := BitVec.toNat_inj.symm
  have hone : (1#8 <<< r.toNat).getLsbD r'.toNat = decide (r' = r) := by
    rw [BitVec.getLsbD_shiftLeft, BitVec.getLsbD_one]
    simp only [ht]
    by_cases h : r'.toNat = r.toNat
    · simp [h]; omega
    · simp [h]; omega
  have hwrite : (if d then 1#8 <<< r.toNat else 0).getLsbD r'.toNat = (d && decide (r' = r)) := by
    cases d
    · simp
    · simpa using hone
  rw [BitVec.getLsbD_or, BitVec.getLsbD_and, BitVec.getLsbD_not, hone, hwrite]
  by_cases h : r' = r
  · simp [h]
  · simp [h, hr]

theorem landTwo_getQ (c : Context) {r : BitVec 3} (hr : r ≠ 0) (d e : Bool) (r' : BitVec 3) :
    (c.landTwo (.q r d) (.q r e)).getQ r' = if r' = r then e else c.getQ r' := by
  simp only [Context.landTwo, land_q _ hr, Context.getQ, bitWrite_getLsbD]
  by_cases h : r' = r
  · rw [h, if_pos rfl, if_pos rfl, beq_false_of_ne hr, Bool.false_or]
  · simp only [h, if_false]

/-- Settles O12: the later write is landed on the earlier one. -/
theorem writesLandInProgramOrder : Obligations.WritesLandInProgramOrder := by
  unfold Obligations.WritesLandInProgramOrder
  intro c t _
  simp only [landAt_two]
  refine ⟨fun d e => ⟨land_x_zero c d, land_q_zero c e, land_k_zero c d⟩, fun r d e hr => ?_, fun r d e hr => ?_,
    fun r d e => ?_, fun r d e => ?_, fun r d e hr => ?_, fun r d e => ?_⟩
  · exact ⟨by rw [landTwo_getX c hr, if_pos rfl], fun r' h => by rw [landTwo_getX c hr, if_neg h]⟩
  · exact ⟨by rw [landTwo_getQ c hr, if_pos rfl], fun r' h => by rw [landTwo_getQ c hr, if_neg h]⟩
  · simp [Context.landTwo, Context.land, Context.getB]
  · simp [Context.landTwo, Context.land]
  · simp [Context.landTwo, land_k _ hr]
  · simp [Context.landTwo, Context.land, Context.getW]

end Sys2Proof.Machine
end

