-- ==== Sys2Proof/Proofs/ScalarWords.lean ====
section
/-! The scalar-class words: a false predicate makes them inert (R82, R98), the immediate forms (R112, R113) and the crossings
(R157). -/

namespace Sys2Proof.Machine

/-! False predicates. -/

/-- Every word with a predicate is performed under it. -/
theorem exec_of_not_holds {i : Instr} {p : Pred} {s : State} (hi : i.pred = some p) (h : s.holds p = false) :
    exec i s = .next s := by
  cases i
  all_goals cases hi
  all_goals
    apply State.perform_false
    exact h

/-- Settles O20. -/
theorem falsePredicateInert : Obligations.FalsePredicateInert := by
  unfold Obligations.FalsePredicateInert
  exact fun _ _ _ => exec_of_not_holds

/-! Immediates. -/

/-- The immediate or the literal in its place, as the integer it is (R76). -/
theorem immS_eq {w : Nat} (i : BitVec w) (l : Option Word) : immS i l = BitVec.ofInt 64 (immInt i l) := by
  cases l with
  | none => rfl
  | some l => rfl

theorem aluResult_of_holds {p : Pred} {s : State} (h : s.holds p = true) (lat : Nat) (d : BitVec 5) (v : State → Dbl) :
    aluResult p lat d v s = .next (s.push lat (.x d (v s))) := s.perform_true p _ h

theorem add_ofInt (x : Dbl) (m : Int) : x + BitVec.ofInt 64 m = BitVec.ofInt 64 (x.toInt + m) := by
  rw [BitVec.ofInt_add, BitVec.ofInt_toInt]

theorem shiftLeft_eq_ofNat (x : Dbl) (n : Nat) : x <<< n = BitVec.ofNat 64 (x.toNat * 2 ^ n) := by
  rw [← BitVec.toNat_inj, BitVec.toNat_shiftLeft, BitVec.toNat_ofNat, Nat.shiftLeft_eq]

theorem ushiftRight_eq_ofNat (x : Dbl) (n : Nat) : x >>> n = BitVec.ofNat 64 (x.toNat / 2 ^ n) := by
  rw [← Nat.shiftRight_eq_div_pow, ← BitVec.toNat_ushiftRight, BitVec.ofNat_toNat, BitVec.setWidth_eq]

theorem sshiftRight_eq_ofInt (x : Dbl) (n : Nat) : x.sshiftRight n = BitVec.ofInt 64 (x.toInt / 2 ^ n) := by
  rw [BitVec.sshiftRight, Int.shiftRight_eq_div_pow]
  rfl

/-- The low half of v above the low half of x. -/
theorem joinHalves_eq_ofNat (v x : Dbl) :
    (v <<< 32) ||| (x &&& 0xFFFFFFFF) = BitVec.ofNat 64 (v.toNat % 2 ^ 32 * 2 ^ 32 + x.toNat % 2 ^ 32) := by
  have hv : v <<< 32 = BitVec.ofNat 64 (v.toNat % 2 ^ 32 * 2 ^ 32) := by
    rw [shiftLeft_eq_ofNat, ← BitVec.toNat_inj, BitVec.toNat_ofNat, BitVec.toNat_ofNat]
    omega
  have hx : x &&& 0xFFFFFFFF = BitVec.ofNat 64 (x.toNat % 2 ^ 32) := by
    rw [← BitVec.toNat_inj, BitVec.toNat_and, BitVec.toNat_ofNat]
    exact (Nat.and_two_pow_sub_one_eq_mod x.toNat 32).trans (by omega)
  rw [hv, hx, ← BitVec.ofNat_or, Nat.mul_comm, Nat.two_pow_add_eq_or_of_lt (Nat.mod_lt _ (by decide))]

/-- Settles O17. -/
theorem scalarImmediates : Obligations.ScalarImmediates := by
  unfold Obligations.ScalarImmediates
  intro p d a i l s h
  simp only [exec_addi, exec_andi, exec_ori, exec_xori, exec_shli, exec_shri, exec_sari, exec_li, exec_lih, execAddi, execAndi,
    execOri, execXori, execShli, execShri, execSari, execLi, execLih, aluResult_of_holds h, immS_eq, shiftAmt]
  refine ⟨?_, trivial, trivial, trivial, ?_, ?_, ?_, trivial, ?_⟩
  · rw [add_ofInt]
  · rw [shiftLeft_eq_ofNat]
  · rw [ushiftRight_eq_ofNat]
  · rw [sshiftRight_eq_ofInt]
  · rw [joinHalves_eq_ofNat]

/-! Crossings. -/

/-- A container keeps an integer modulo the width of its type, so the low 32 bits of a scalar tell it (R46). -/
theorem intLane_toInt_setWidth (t : ElemType) (x : Dbl) : intLane t (x.setWidth 32).toInt = intLane t (x.toNat : Int) := by
  have hw := elemType_width_le t
  apply intLane_congr
  calc BitVec.ofInt (ElemType_width t) (x.setWidth 32).toInt
      = (x.setWidth 32).setWidth (ElemType_width t) := BitVec.signExtend_eq_setWidth_of_le _ hw
    _ = x.setWidth (ElemType_width t) := BitVec.setWidth_setWidth_of_le _ hw
    _ = BitVec.ofInt (ElemType_width t) (x.toNat : Int) := by rw [BitVec.ofInt_natCast, BitVec.ofNat_toNat]

theorem castLane_eq (t : ElemType) (x : Dbl) : castLane t x =
    if t = .bf ∨ t = .d8 then (x.setWidth 16).setWidth 32 else if t = .f32 then x.setWidth 32 else intLane t (x.toNat : Int) := by
  cases t with
  | bf | d8 | f32 => rfl
  | i8 | n8 | i16 | n16 | i32 | n32 =>
    simp [castLane, ← intLane_toInt_setWidth]

theorem widenLane_eq (t : ElemType) (c : BitVec 32) : widenLane t c =
    if t = .bf ∨ t = .d8 then (c.setWidth 16).setWidth 64 else if t = .f32 then c.setWidth 64
    else BitVec.ofInt 64 (laneInt t c) := by
  cases t
  all_goals rfl

theorem ofNat_two_pow (n : Nat) : 1#64 <<< n = BitVec.ofNat 64 (2 ^ n) := by
  rw [shiftLeft_eq_ofNat, BitVec.toNat_ofNat, Nat.one_mod, Nat.one_mul]

/-- Settles O39. -/
theorem crossings : Obligations.Crossings := by
  unfold Obligations.Crossings
  intro p v x k s h
  simp only [exec_xtovBc, exec_xtovIns, exec_vtox, exec_vtoxR, exec_ktox, exec_xtok, execXtovBc, execXtovIns, execVtox, execVtoxR,
    execKtox, execXtok, s.perform_true p _ h, castLane_eq, widenLane_eq, ofNat_two_pow]
  exact ⟨fun t => ⟨rfl, fun _ => rfl, fun _ => rfl, fun _ => rfl⟩, rfl, rfl⟩

end Sys2Proof.Machine
end

