-- ==== Sys2Proof/Proofs/Refusals.lean ====
section
/-! The checks of R81 on a bundle. A good header and its words are a `Layout`: which slots are present, which of them hold literals,
and the word of each. The decoder's list of present slots is read off the layout, and each of its checks is a search over slots. -/

namespace Sys2Proof

/-! The header's fields (R75). -/

theorem readHeader_check (h : Word) : (readHeader h).check = (h.extractLsb' 29 3).toNat := by
  simp [readHeader, unpack, Nat.div_div_eq_div_mul, Nat.shiftRight_eq_div_pow]

theorem readHeader_ports (h : Word) :
    (readHeader h).ports = (List.range 4).map fun p => (h.extractLsb' (17 + 3 * p) 3).toNat := by
  simp [readHeader, unpack, Nat.div_div_eq_div_mul, Nat.shiftRight_eq_div_pow, List.range_succ]

theorem readHeader_present (h : Word) {n : Nat} (hn : n < 7) : (readHeader h).present.testBit n = h.getLsbD n := by
  simp only [readHeader, unpack, Nat.testBit_mod_two_pow, hn, decide_true, Bool.true_and]
  rfl

theorem readHeader_lit (h : Word) {n : Nat} (hn : n < 7) : (readHeader h).lit.testBit n = h.getLsbD (7 + n) := by
  simp only [readHeader, unpack, Nat.testBit_mod_two_pow, hn, decide_true, Bool.true_and, Nat.testBit_div_two_pow]
  rw [Nat.add_comm]
  rfl

/-- What makes a header bad (R81 order 1). -/
theorem headerBad_iff (h : Word) : headerBad (readHeader h) = true ↔
    h.extractLsb' 29 3 ≠ 5 ∨ (∃ n < 7, h.getLsbD (7 + n) = true ∧ h.getLsbD n = false) ∨
      ∃ p < 4, h.extractLsb' (17 + 3 * p) 3 = 6 ∨ h.extractLsb' (17 + 3 * p) 3 = 7 := by
  have hcheck : (readHeader h).check != 5 ↔ h.extractLsb' 29 3 ≠ 5 := by
    rw [readHeader_check, bne_iff_ne, ne_eq, ne_eq, ← BitVec.toNat_inj]
    rfl
  have hlit : ((List.range 7).any fun n => (readHeader h).lit.testBit n && !(readHeader h).present.testBit n) = true ↔
      ∃ n < 7, h.getLsbD (7 + n) = true ∧ h.getLsbD n = false := by
    simp only [List.any_eq_true, List.mem_range, Bool.and_eq_true, Bool.not_eq_true']
    refine exists_congr fun n => and_congr_right fun hn => ?_
    rw [readHeader_lit h hn, readHeader_present h hn]
  have hports : ((readHeader h).ports.any fun p => p == 6 || p == 7) = true ↔
      ∃ p < 4, h.extractLsb' (17 + 3 * p) 3 = 6 ∨ h.extractLsb' (17 + 3 * p) 3 = 7 := by
    simp only [readHeader_ports, List.any_map, List.any_eq_true, List.mem_range, Function.comp_apply, Bool.or_eq_true,
      beq_iff_eq, ← BitVec.toNat_inj]
    rfl
  rw [headerBad, Bool.or_eq_true, Bool.or_eq_true, hcheck, hlit, hports, or_assoc]

/-! Layouts. -/

/-- The slots of a bundle with a good header: which are present, which of these hold a literal, and their words (R72, R76). -/
structure Layout where
  present : Nat → Bool
  lit : Nat → Bool
  word : Nat → Word

/-- The slot of an index (R74). -/
def slotAt (n : Nat) : Slot := ([.c, .s, .x, .t, .v0, .v1, .m] : List Slot).getD n .c

/-- The slots from index k up, as the decoder lists them. -/
theorem slotList_drop : ∀ k < 7, slotList.drop k = (k, slotAt k) :: slotList.drop (k + 1) := by decide

/-- A statement of every index up to the seventh, from the last slot down. -/
theorem slot_induction {p : Nat → Prop} (h7 : p 7) (step : ∀ k < 7, p (k + 1) → p k) {k : Nat} (hk : k ≤ 7) : p k :=
  Nat.decreasingInduction (fun k hk ih => step k (by omega) ih) h7 hk

namespace Layout

variable (l : Layout)

/-- The slot holds an operation word. -/
def op (n : Nat) : Bool := l.present n && !l.lit n
/-- How many words stand below the slot's. -/
def rank (n : Nat) : Nat := ((List.range n).filter l.present).length
/-- The nearest lower operation word (R76). -/
def own (m : Nat) : Option Nat := ((List.range m).filter l.op).getLast?
/-- The literal that an operation word owns. -/
def literal (n : Nat) : Option Word := ((List.range 7).find? fun m => l.lit m && l.own m == some n).map l.word
/-- What an operation word reads as, with its literal. -/
def read (n : Nat) : WordRead := decodeWord (slotAt n) (l.literal n) (l.word n)
/-- Only present slots hold literals. -/
def good : Prop := ∀ n < 7, l.lit n = true → l.present n = true
/-- A literal without an owner, of an owner that owns none, or an owner's second; a reserved opcode is not examined. -/
def orphan (m : Nat) : Prop :=
  l.lit m = true ∧ (l.own m = none ∨ ∃ n, l.own m = some n ∧ l.read n ≠ .opcode ∧
    (ownsLiteral (slotAt n) ((l.word n).toNat / 2 ^ 26) = false ∨ ∃ k < m, l.lit k = true ∧ l.own k = some n))
/-- The decoder's entry of a present slot. -/
def entry (n : Nat) : RawSlot := (n, slotAt n, l.lit n, l.word n)
/-- The decoder's entries of the present slots from index k up. -/
def entries (k : Nat) : List RawSlot := ((List.range' k (7 - k)).filter l.present).map l.entry

theorem rank_succ (n : Nat) : l.rank (n + 1) = l.rank n + if l.present n then 1 else 0 := by
  unfold rank
  rw [List.range_succ, List.filter_append, List.length_append]
  cases h : l.present n <;> simp [h]

theorem rank_mono {m n : Nat} (h : m ≤ n) : l.rank m ≤ l.rank n := by
  induction n, h using Nat.le_induction with
  | base => exact le_rfl
  | succ n _ ih => rw [rank_succ]; omega

theorem own_succ (n : Nat) : l.own (n + 1) = if l.op n then some n else l.own n := by
  unfold own
  rw [List.range_succ, List.filter_append]
  cases h : l.op n <;> simp [h]

/-- The owner is an operation word below, with none between. -/
theorem own_eq_some {m n : Nat} :
    l.own m = some n ↔ n < m ∧ l.op n = true ∧ ∀ j, n < j → j < m → l.op j = false := by
  induction m with
  | zero => simp [own]
  | succ m ih =>
    rw [own_succ]
    by_cases h : l.op m = true
    · rw [if_pos h, Option.some.injEq]
      constructor
      · rintro rfl
        exact ⟨by omega, h, fun j _ _ => by omega⟩
      · rintro ⟨hn, _, hj⟩
        by_contra hne
        exact absurd h (by simp [hj m (by omega) (by omega)])
    · rw [if_neg h, ih]
      constructor
      · rintro ⟨hn, hop, hj⟩
        refine ⟨by omega, hop, fun j h1 h2 => ?_⟩
        rcases Nat.lt_succ_iff_lt_or_eq.1 h2 with h2 | rfl
        · exact hj j h1 h2
        · simpa using h
      · rintro ⟨hn, hop, hj⟩
        have : n ≠ m := by rintro rfl; exact h hop
        exact ⟨by omega, hop, fun j h1 h2 => hj j h1 (by omega)⟩

theorem entries_end : l.entries 7 = [] := rfl

theorem entries_of_present {k : Nat} (hk : k < 7) (h : l.present k = true) : l.entries k = l.entry k :: l.entries (k + 1) := by
  unfold entries
  rw [show 7 - k = (7 - (k + 1)) + 1 by omega, List.range'_succ, List.filter_cons_of_pos h, List.map_cons]

theorem entries_of_absent {k : Nat} (hk : k < 7) (h : l.present k = false) : l.entries k = l.entries (k + 1) := by
  unfold entries
  rw [show 7 - k = (7 - (k + 1)) + 1 by omega, List.range'_succ, List.filter_cons_of_neg (by simp [h])]

/-- The decoder gives each present slot its word. -/
theorem assignWords_drop {hd : Header} {ws : List Word} (hp : ∀ n < 7, hd.present.testBit n = l.present n)
    (hl : ∀ n < 7, hd.lit.testBit n = l.lit n) (hw : ∀ n, l.word n = ws.getD (l.rank n) 0) (hlen : ws.length = l.rank 7)
    {k : Nat} (hk : k ≤ 7) : assignWords hd (slotList.drop k) (ws.drop (l.rank k)) = l.entries k := by
  refine slot_induction (p := fun k => assignWords hd (slotList.drop k) (ws.drop (l.rank k)) = l.entries k) rfl
    (fun k hk ih => ?_) hk
  rw [slotList_drop k hk]
  rw [rank_succ] at ih
  by_cases h : l.present k = true
  · have hr : l.rank k < ws.length := by
      have := l.rank_mono (show k + 1 ≤ 7 by omega)
      rw [rank_succ, if_pos h] at this
      omega
    rw [if_pos h] at ih
    rw [List.drop_eq_getElem_cons hr, assignWords, if_pos (by rw [hp k hk, h]), ih, l.entries_of_present hk h, entry, hl k hk,
      hw k, List.getD_eq_getElem _ _ hr]
  · rw [Bool.not_eq_true] at h
    rw [h] at ih
    rw [l.entries_of_absent hk h, ← ih]
    simp only [Bool.false_eq_true, if_false, Nat.add_zero]
    generalize ws.drop (l.rank k) = w
    cases w with
    | nil => cases hs : slotList.drop (k + 1) <;> rfl
    | cons w r => rw [assignWords, if_neg (by simp [hp k hk, h])]

/-! Order 2: literals. -/

theorem read_eq_opcode_iff {n : Nat} : l.read n = .opcode ↔ rowsOf (slotAt n) ((l.word n).toNat / 2 ^ 26) = [] := by
  unfold read decodeWord
  split
  · next h => exact iff_of_true rfl h
  · next h =>
    refine ⟨fun he => ?_, fun he => absurd he h⟩
    split at he <;> cases he

theorem beqEmpty_iff (rs : List Row) : literalBad.beqEmpty rs = true ↔ rs = [] := by
  cases rs <;> simp [literalBad.beqEmpty]

/-- The decoder's note of the owner, at index k: the owner's word and whether it owns a literal below k. -/
def Tracks (k : Nat) (st : Option (Slot × Word × Bool)) : Prop :=
  (l.own k = none ∧ st = none) ∨ ∃ n tk, l.own k = some n ∧ st = some (slotAt n, l.word n, tk) ∧
    (l.read n ≠ .opcode → (tk = true ↔ ∃ j < k, l.lit j = true ∧ l.own j = some n))

theorem tracks_zero : l.Tracks 0 none := .inl ⟨rfl, rfl⟩

theorem tracks_succ_of_op {k : Nat} (h : l.op k = true) : l.Tracks (k + 1) (some (slotAt k, l.word k, false)) := by
  refine .inr ⟨k, false, by rw [own_succ, if_pos h], rfl, fun _ => ?_⟩
  simp only [Bool.false_eq_true, false_iff]
  rintro ⟨j, hj, _, ho⟩
  have := (l.own_eq_some.1 ho).1
  omega

theorem tracks_succ_of_absent {k : Nat} {st : Option (Slot × Word × Bool)} (hop : l.op k = false) (hlit : l.lit k = false)
    (h : l.Tracks k st) : l.Tracks (k + 1) st := by
  have ho : l.own (k + 1) = l.own k := by rw [own_succ, if_neg (by simp [hop])]
  rcases h with ⟨hn, hst⟩ | ⟨n, tk, hn, hst, ht⟩
  · exact .inl ⟨ho.trans hn, hst⟩
  · refine .inr ⟨n, tk, ho.trans hn, hst, fun hr => (ht hr).trans ?_⟩
    constructor
    · rintro ⟨j, hj, h⟩
      exact ⟨j, by omega, h⟩
    · rintro ⟨j, hj, h, ho⟩
      have : j ≠ k := by rintro rfl; simp [hlit] at h
      exact ⟨j, by omega, h, ho⟩

/-- The decoder names an orphan, and lets the literals pass when there is none. -/
theorem literalBad_entries (hg : l.good) {k : Nat} (hk : k ≤ 7) : ∀ {st : Option (Slot × Word × Bool)}, l.Tracks k st →
    (∃ m < 7, literalBad (l.entries k) st = some m ∧ l.orphan m) ∨
      (literalBad (l.entries k) st = none ∧ ∀ m, k ≤ m → m < 7 → ¬ l.orphan m) := by
  refine slot_induction (p := fun k => ∀ {st : Option (Slot × Word × Bool)}, l.Tracks k st →
    (∃ m < 7, literalBad (l.entries k) st = some m ∧ l.orphan m) ∨
      (literalBad (l.entries k) st = none ∧ ∀ m, k ≤ m → m < 7 → ¬ l.orphan m))
    (fun _ => .inr ⟨rfl, fun m _ _ => by omega⟩) (fun k hk ih st ht => ?_) hk
  -- what the rest of the slots show, when this one is no orphan
  have next : ∀ {st' : Option (Slot × Word × Bool)}, l.Tracks (k + 1) st' → ¬ l.orphan k →
      (∃ m < 7, literalBad (l.entries (k + 1)) st' = some m ∧ l.orphan m) ∨
        (literalBad (l.entries (k + 1)) st' = none ∧ ∀ m, k ≤ m → m < 7 → ¬ l.orphan m) := fun h' ho =>
    (ih h').imp_right fun ⟨hn, hm⟩ => ⟨hn, fun m h1 h2 => (Nat.eq_or_lt_of_le h1).elim (fun e => e ▸ ho) fun h => hm m h h2⟩
  cases hlit : l.lit k with
  | false =>
    have hno : ¬ l.orphan k := fun ho => absurd ho.1 (by simp [hlit])
    cases hp : l.present k with
    | false =>
      rw [l.entries_of_absent hk hp]
      exact next (l.tracks_succ_of_absent (by simp [op, hp]) hlit ht) hno
    | true =>
      rw [l.entries_of_present hk hp, entry, hlit, literalBad]
      exact next (l.tracks_succ_of_op (by simp [op, hp, hlit])) hno
  | true =>
    have ho : l.own (k + 1) = l.own k := by rw [own_succ, if_neg (by simp [op, hlit])]
    rw [l.entries_of_present hk (hg k hk hlit), entry, hlit]
    rcases ht with ⟨hn, rfl⟩ | ⟨n, tk, hn, rfl, htk⟩
    · exact .inl ⟨k, hk, rfl, hlit, .inl hn⟩
    · rw [literalBad]
      by_cases hr : l.read n = .opcode
      · rw [if_pos ((beqEmpty_iff _).2 (l.read_eq_opcode_iff.1 hr))]
        refine next (.inr ⟨n, tk, ho.trans hn, rfl, fun h => absurd hr h⟩) ?_
        rintro ⟨-, h | ⟨n', hn', hr', -⟩⟩
        · simp [hn] at h
        · obtain rfl : n = n' := by simpa [hn] using hn'
          exact hr' hr
      · rw [if_neg fun h => hr (l.read_eq_opcode_iff.2 ((beqEmpty_iff _).1 h))]
        have hbad : (tk || !ownsLiteral (slotAt n) ((l.word n).toNat / 2 ^ 26)) = true ↔ l.orphan k := by
          simp only [orphan, hlit, hn, true_and, Option.some.injEq, reduceCtorEq, false_or, Bool.or_eq_true, htk hr,
            Bool.not_eq_true', exists_eq_left', hr, ne_eq, not_false_eq_true]
          exact or_comm
        by_cases hb : (tk || !ownsLiteral (slotAt n) ((l.word n).toNat / 2 ^ 26)) = true
        · rw [if_pos hb]
          exact .inl ⟨k, hk, rfl, hbad.1 hb⟩
        · rw [if_neg hb]
          exact next (.inr ⟨n, true, ho.trans hn, rfl, fun _ => ⟨fun _ => ⟨k, by omega, hlit, hn⟩, fun _ => rfl⟩⟩)
            (mt hbad.2 hb)

/-! Orders 3 and 4: operation words with their literals. -/

theorem own_of_gap {n k : Nat} (hnk : n < k) (hop : l.op n = true) (hgap : ∀ j, n < j → j < k → l.present j = false) :
    l.own k = some n :=
  l.own_eq_some.2 ⟨hnk, hop, fun j h1 h2 => by simp [op, hgap j h1 h2]⟩

/-- The literal after an operation word is the first that it owns. -/
theorem literalOf_entries {n : Nat} (hop : l.op n = true) (hg : l.good) {k : Nat} (hk : k ≤ 7) :
    n < k → (∀ j, n < j → j < k → l.present j = false) →
      literalOf (l.entries k) = ((List.range' k (7 - k)).find? fun m => l.lit m && l.own m == some n).map l.word := by
  refine slot_induction (p := fun k => n < k → (∀ j, n < j → j < k → l.present j = false) →
      literalOf (l.entries k) = ((List.range' k (7 - k)).find? fun m => l.lit m && l.own m == some n).map l.word)
    (fun _ _ => rfl) (fun k hk ih hnk hgap => ?_) hk
  rw [show 7 - k = (7 - (k + 1)) + 1 by omega, List.range'_succ]
  cases hp : l.present k with
  | false =>
    have hlit : l.lit k = false := by
      by_contra h
      exact absurd (hg k hk (by simpa using h)) (by simp [hp])
    rw [l.entries_of_absent hk hp, List.find?_cons_of_neg (by simp [hlit])]
    exact ih (by omega) fun j h1 h2 => (Nat.lt_succ_iff_lt_or_eq.1 h2).elim (hgap j h1) fun e => e ▸ hp
  | true =>
    rw [l.entries_of_present hk hp, entry]
    cases hlit : l.lit k with
    | true =>
      rw [List.find?_cons_of_pos (by simp [hlit, l.own_of_gap hnk hop hgap])]
      rfl
    | false =>
      rw [List.find?_cons_of_neg (by simp [hlit]), List.find?_eq_none.2]
      · rfl
      · intro m hm
        have hkm : k < m := by
          rw [List.mem_range'_1] at hm
          omega
        suffices l.own m ≠ some n by simp [this]
        intro ho
        simpa [op, hp, hlit] using (l.own_eq_some.1 ho).2.2 k hnk hkm

theorem literal_eq {n : Nat} (hn : n < 7) (hop : l.op n = true) (hg : l.good) : literalOf (l.entries (n + 1)) = l.literal n := by
  rw [l.literalOf_entries hop hg (by omega) (by omega) fun j _ _ => by omega, literal]
  congr 1
  have hr : List.range 7 = List.range (n + 1) ++ List.range' (n + 1) (7 - (n + 1)) := by
    have h := List.range'_append_1 (s := 0) (m := n + 1) (n := 7 - (n + 1))
    rw [Nat.zero_add, show n + 1 + (7 - (n + 1)) = 7 by omega] at h
    rw [List.range_eq_range', List.range_eq_range', h]
  suffices hnone : (List.range (n + 1)).find? (fun m => l.lit m && l.own m == some n) = none by
    rw [hr, List.find?_append, hnone, Option.none_or]
  rw [List.find?_eq_none]
  intro m hm
  suffices l.own m ≠ some n by simp [this]
  intro ho
  have := (l.own_eq_some.1 ho).1
  have := List.mem_range.1 hm
  omega

/-- The decoder's operation words are those of the layout with the literals they own. -/
theorem operations_entries (hg : l.good) {k : Nat} (hk : k ≤ 7) : operations (l.entries k) =
    ((List.range' k (7 - k)).filter l.op).map fun n => (n, slotAt n, l.literal n, l.word n) := by
  refine slot_induction (p := fun k => operations (l.entries k) =
    ((List.range' k (7 - k)).filter l.op).map fun n => (n, slotAt n, l.literal n, l.word n)) rfl (fun k hk ih => ?_) hk
  rw [show 7 - k = (7 - (k + 1)) + 1 by omega, List.range'_succ]
  cases hp : l.present k with
  | false =>
    rw [l.entries_of_absent hk hp, ih, List.filter_cons_of_neg (by simp [op, hp])]
  | true =>
    rw [l.entries_of_present hk hp, entry]
    cases hlit : l.lit k with
    | true => rw [operations, ih, List.filter_cons_of_neg (by simp [op, hlit])]
    | false =>
      have hop : l.op k = true := by simp [op, hp, hlit]
      rw [operations, ih, l.literal_eq hk hop hg, List.filter_cons_of_pos hop, List.map_cons]

/-- The operation words of the bundle, as the decoder lists them. -/
def operationWords : List (Nat × Slot × Option Word × Word) :=
  ((List.range 7).filter l.op).map fun n => (n, slotAt n, l.literal n, l.word n)

theorem firstRead_operations (k : WordRead) (ns : List Nat) :
    firstRead k (ns.map fun n => (n, slotAt n, l.literal n, l.word n)) = ns.find? fun n => l.read n == k := by
  induction ns with
  | nil => rfl
  | cons n ns ih =>
    rw [List.map_cons, firstRead, ih, List.find?_cons, ← read]
    cases l.read n == k <;> rfl

theorem firstRead_eq_some {k : WordRead} {n : Nat} (hn : n < 7) (hop : l.op n = true) (hr : l.read n = k)
    (hb : ∀ m < n, l.op m = true → l.read m ≠ k) : firstRead k l.operationWords = some n := by
  rw [operationWords, firstRead_operations, List.find?_filter, List.find?_range_eq_some]
  exact ⟨by simp [hop, hr], List.mem_range.2 hn, fun m hm => by simpa [imp_iff_not_or] using hb m hm⟩

theorem firstRead_eq_none {k : WordRead} (h : ∀ n < 7, l.op n = true → l.read n ≠ k) :
    firstRead k l.operationWords = none := by
  rw [operationWords, firstRead_operations, List.find?_eq_none]
  intro n hn
  obtain ⟨hn, hop⟩ := List.mem_filter.1 hn
  simpa using h n (List.mem_range.1 hn) hop

/-! Order 5: ports. -/

/-- A port given to an absent or literal slot, or a slot with fewer ports than its word reads. -/
def short (given : Slot → Nat) (n : Nat) : Prop :=
  (l.op n = false ∧ 0 < given (slotAt n)) ∨ (l.op n = true ∧ ∃ i, l.read n = .ok i ∧ given (slotAt n) < i.vreads)

theorem readOps_find?_of_mem {n : Nat} {i : Instr} (hi : l.read n = .ok i) : ∀ {ns : List Nat}, n ∈ ns →
    (readOps (ns.map fun n => (n, slotAt n, l.literal n, l.word n))).find? (fun o => o.1 == n) = some (n, slotAt n, i)
  | m :: ns, h => by
    rw [List.map_cons, readOps, ← read]
    by_cases hm : m = n
    · simp [hm, hi]
    · have ih := readOps_find?_of_mem hi ((List.mem_cons.1 h).resolve_left (Ne.symm hm))
      cases l.read m with
      | ok j => simp [hm, ih]
      | opcode | operand => exact ih

theorem readOps_find?_of_not_mem {n : Nat} : ∀ {ns : List Nat}, n ∉ ns →
    (readOps (ns.map fun n => (n, slotAt n, l.literal n, l.word n))).find? (fun o => o.1 == n) = none
  | [], _ => rfl
  | m :: ns, h => by
    obtain ⟨hm, hns⟩ := not_or.1 (mt List.mem_cons.2 h)
    have ih := readOps_find?_of_not_mem hns
    rw [List.map_cons, readOps, ← read]
    cases l.read m with
    | ok j => simp [Ne.symm hm, ih]
    | opcode | operand => exact ih

theorem mem_slotList_iff {x : Nat × Slot} : x ∈ slotList ↔ x.1 < 7 ∧ x.2 = slotAt x.1 := by
  have hm : slotList = (List.range 7).map fun n => (n, slotAt n) := rfl
  rw [hm, List.mem_map]
  constructor
  · rintro ⟨n, hn, rfl⟩
    exact ⟨List.mem_range.1 hn, rfl⟩
  · rintro ⟨hn, hs⟩
    exact ⟨x.1, List.mem_range.2 hn, by rw [← hs]⟩

/-- The decoder's test of a slot's ports. -/
def portsWrong (hd : Header) (ops : List (Nat × Slot × Instr)) (x : Nat × Slot) : Bool :=
  match ops.find? (fun o => o.1 == x.1) with
  | some (_, _, i) => decide ((hd.ports.filter (· == portCode x.2)).length < i.vreads)
  | none => decide (0 < (hd.ports.filter (· == portCode x.2)).length)

theorem portsBad_eq (hd : Header) (ops : List (Nat × Slot × Instr)) :
    portsBad hd ops = (slotList.find? (portsWrong hd ops)).map Prod.fst := rfl

theorem portsWrong_iff {hd : Header} {given : Slot → Nat}
    (hgiven : ∀ sl, (hd.ports.filter (· == portCode sl)).length = given sl)
    (hok : ∀ n < 7, l.op n = true → ∃ i, l.read n = .ok i) {n : Nat} (hn : n < 7) :
    portsWrong hd (readOps l.operationWords) (n, slotAt n) = true ↔ l.short given n := by
  unfold portsWrong operationWords
  cases hop : l.op n with
  | true =>
    obtain ⟨i, hi⟩ := hok n hn hop
    rw [l.readOps_find?_of_mem hi (List.mem_filter.2 ⟨List.mem_range.2 hn, hop⟩)]
    simp [short, hop, hi, hgiven]
  | false =>
    rw [l.readOps_find?_of_not_mem (by simp [hop])]
    simp [short, hop, hgiven]

/-- The decoder names a slot with a port too many or too few, when there is one. -/
theorem portsBad_of_short {hd : Header} {given : Slot → Nat}
    (hgiven : ∀ sl, (hd.ports.filter (· == portCode sl)).length = given sl)
    (hok : ∀ n < 7, l.op n = true → ∃ i, l.read n = .ok i) (h : ∃ n < 7, l.short given n) :
    ∃ n < 7, l.short given n ∧ portsBad hd (readOps l.operationWords) = some n := by
  obtain ⟨n, hn, hs⟩ := h
  have hsome := List.find?_isSome.2 ⟨(n, slotAt n), mem_slotList_iff.2 ⟨hn, rfl⟩, (l.portsWrong_iff hgiven hok hn).2 hs⟩
  obtain ⟨⟨m, sl⟩, hx⟩ := Option.isSome_iff_exists.1 hsome
  obtain ⟨hlt, hsl⟩ := mem_slotList_iff.1 (List.mem_of_find?_eq_some hx)
  obtain rfl : sl = slotAt m := hsl
  exact ⟨m, hlt, (l.portsWrong_iff hgiven hok hlt).1 (List.find?_some hx), by rw [portsBad_eq, hx]; rfl⟩

end Layout

/-! The bundle. -/

/-- The layout of a header and its words. -/
def layoutOf (h : Word) (ws : List Word) : Layout where
  present n := h.getLsbD n
  lit n := h.getLsbD (7 + n)
  word n := ws.getD ((List.range n).filter fun m => h.getLsbD m).length 0

/-- How many ports the header gives a slot (R75). -/
def portsGiven (h : Word) (sl : Slot) : Nat :=
  ((List.range 4).filter fun p => (h.extractLsb' (17 + 3 * p) 3).toNat == portCode sl).length

section Good
variable {h : Word} {ws : List Word} (hcheck : h.extractLsb' 29 3 = 5)
  (hlit : ∀ n < 7, h.getLsbD (7 + n) = true → h.getLsbD n = true)
  (hport : ∀ p < 4, h.extractLsb' (17 + 3 * p) 3 ≠ 6 ∧ h.extractLsb' (17 + 3 * p) 3 ≠ 7)
  (hlen : ws.length = ((List.range 7).filter fun n => h.getLsbD n).length)

include hcheck hlit hport in
theorem headerBad_of_good : headerBad (readHeader h) = false := by
  rw [← Bool.not_eq_true, headerBad_iff]
  rintro (hc | ⟨n, hn, h1, h0⟩ | ⟨p, hp, h6 | h7⟩)
  · exact hc hcheck
  · exact absurd (hlit n hn h1) (by simp [h0])
  · exact (hport p hp).1 h6
  · exact (hport p hp).2 h7

include hlen in
theorem assignWords_of_good : assignWords (readHeader h) slotList ws = (layoutOf h ws).entries 0 :=
  (layoutOf h ws).assignWords_drop (fun _ hn => readHeader_present h hn) (fun _ hn => readHeader_lit h hn) (fun _ => rfl)
    hlen (Nat.zero_le 7)

include hcheck hlit hport hlen

/-- Order 2: an orphan is refused. -/
theorem decodeBundle_of_orphan (ho : ∃ m < 7, (layoutOf h ws).orphan m) :
    ∃ m < 7, (layoutOf h ws).orphan m ∧ decodeBundle h ws = .error (.bundleLiteral m) := by
  obtain ⟨m, hm, hom⟩ := ho
  rcases (layoutOf h ws).literalBad_entries hlit (Nat.zero_le 7) (layoutOf h ws).tracks_zero with
    ⟨m', hm', hb, ho'⟩ | ⟨-, hno⟩
  · refine ⟨m', hm', ho', ?_⟩
    simp only [decodeBundle, headerBad_of_good hcheck hlit hport, assignWords_of_good hlen, hb]
    rfl
  · exact absurd hom (hno m (Nat.zero_le m) hm)

/-- Without orphans the decoder goes on to the operation words. -/
theorem decodeBundle_of_no_orphan (hno : ∀ m < 7, ¬ (layoutOf h ws).orphan m) : decodeBundle h ws =
    match firstRead .opcode (layoutOf h ws).operationWords with
    | some n => .error (.reservedOpcode n)
    | none => match firstRead .operand (layoutOf h ws).operationWords with
      | some n => .error (.reservedOperand n)
      | none => match portsBad (readHeader h) (readOps (layoutOf h ws).operationWords) with
        | some n => .error (.bundlePorts n)
        | none => .ok ⟨h, (readHeader h).scope, (readHeader h).drain, (readHeader h).present, (readHeader h).ports,
            readOps (layoutOf h ws).operationWords⟩ := by
  have hops : operations ((layoutOf h ws).entries 0) = (layoutOf h ws).operationWords :=
    (layoutOf h ws).operations_entries hlit (Nat.zero_le 7)
  rcases (layoutOf h ws).literalBad_entries hlit (Nat.zero_le 7) (layoutOf h ws).tracks_zero with
    ⟨m, hm, -, ho⟩ | ⟨hb, -⟩
  · exact absurd ho (hno m hm)
  · simp only [decodeBundle, headerBad_of_good hcheck hlit hport, assignWords_of_good hlen, hb, hops]
    rfl

/-- Order 3: the first reserved opcode. -/
theorem decodeBundle_of_opcode (hno : ∀ m < 7, ¬ (layoutOf h ws).orphan m) {n : Nat} (hn : n < 7)
    (hop : (layoutOf h ws).op n = true) (hr : (layoutOf h ws).read n = .opcode)
    (hb : ∀ m < n, (layoutOf h ws).op m = true → (layoutOf h ws).read m ≠ .opcode) :
    decodeBundle h ws = .error (.reservedOpcode n) := by
  rw [decodeBundle_of_no_orphan hcheck hlit hport hlen hno, (layoutOf h ws).firstRead_eq_some hn hop hr hb]

/-- Order 4: the first reserved operand. -/
theorem decodeBundle_of_operand (hno : ∀ m < 7, ¬ (layoutOf h ws).orphan m)
    (hopc : ∀ n < 7, (layoutOf h ws).op n = true → (layoutOf h ws).read n ≠ .opcode) {n : Nat} (hn : n < 7)
    (hop : (layoutOf h ws).op n = true) (hr : (layoutOf h ws).read n = .operand)
    (hb : ∀ m < n, (layoutOf h ws).op m = true → (layoutOf h ws).read m ≠ .operand) :
    decodeBundle h ws = .error (.reservedOperand n) := by
  rw [decodeBundle_of_no_orphan hcheck hlit hport hlen hno, (layoutOf h ws).firstRead_eq_none hopc,
    (layoutOf h ws).firstRead_eq_some hn hop hr hb]

/-- Order 5: ports. -/
theorem decodeBundle_of_short (hno : ∀ m < 7, ¬ (layoutOf h ws).orphan m)
    (hopc : ∀ n < 7, (layoutOf h ws).op n = true → (layoutOf h ws).read n ≠ .opcode)
    (hopd : ∀ n < 7, (layoutOf h ws).op n = true → (layoutOf h ws).read n ≠ .operand)
    (hs : ∃ n < 7, (layoutOf h ws).short (portsGiven h) n) :
    ∃ n < 7, (layoutOf h ws).short (portsGiven h) n ∧ decodeBundle h ws = .error (.bundlePorts n) := by
  have hgiven : ∀ sl, ((readHeader h).ports.filter (· == portCode sl)).length = portsGiven h sl := fun sl => by
    rw [readHeader_ports, List.filter_map, List.length_map]
    rfl
  have hok : ∀ n < 7, (layoutOf h ws).op n = true → ∃ i, (layoutOf h ws).read n = .ok i := fun n hn hop => by
    cases hr : (layoutOf h ws).read n with
    | ok i => exact ⟨i, rfl⟩
    | opcode => exact absurd hr (hopc n hn hop)
    | operand => exact absurd hr (hopd n hn hop)
  obtain ⟨n, hn, hsn, hb⟩ := (layoutOf h ws).portsBad_of_short hgiven hok hs
  refine ⟨n, hn, hsn, ?_⟩
  rw [decodeBundle_of_no_orphan hcheck hlit hport hlen hno, (layoutOf h ws).firstRead_eq_none hopc,
    (layoutOf h ws).firstRead_eq_none hopd, hb]

end Good

/-! One operation word. -/

/-- The header of a bundle of one operation word, without literals and ports. -/
def loneHeader (n : Nat) : Word := BitVec.ofNat 32 (5 * 2 ^ 29 + 2 ^ n)

/-- Its words are the one word of its slot. -/
theorem lone_words {n : Nat} {sl : Slot} (h : (n, sl) ∈ slotList) (wd : Word) :
    headerBad (readHeader (loneHeader n)) = false ∧
      assignWords (readHeader (loneHeader n)) slotList [wd] = [(n, sl, false, wd)] := by
  simp only [slotList, List.mem_cons, Prod.mk.injEq, List.not_mem_nil, or_false] at h
  rcases h with ⟨rfl, rfl⟩ | ⟨rfl, rfl⟩ | ⟨rfl, rfl⟩ | ⟨rfl, rfl⟩ | ⟨rfl, rfl⟩ | ⟨rfl, rfl⟩ | ⟨rfl, rfl⟩
  all_goals exact ⟨rfl, rfl⟩

theorem decodeBundle_lone_opcode {n : Nat} {sl : Slot} (h : (n, sl) ∈ slotList) {wd : Word}
    (hr : decodeWord sl none wd = .opcode) : decodeBundle (loneHeader n) [wd] = .error (.reservedOpcode n) := by
  simp [decodeBundle, lone_words h wd, literalBad, operations, literalOf, firstRead, hr]

theorem decodeBundle_lone_operand {n : Nat} {sl : Slot} (h : (n, sl) ∈ slotList) {wd : Word}
    (hr : decodeWord sl none wd = .operand) : decodeBundle (loneHeader n) [wd] = .error (.reservedOperand n) := by
  simp [decodeBundle, lone_words h wd, literalBad, operations, literalOf, firstRead, hr]

end Sys2Proof

namespace Sys2Proof.Machine.State

/-- A bundle that the decoder refuses is withdrawn and traps (R81). -/
theorem fetchIssue_of_error {s u : State} {h : Word} {ws : List Word} {e : DecodeError}
    (hf : s.fetchBundle s.issue.pc = (u, .ok (h, ws))) (hd : decodeBundle h ws = .error e) :
    ∃ v : State, s.fetchIssue = .next (v.takeTrap ⟨e.causeSlot.1, h.setWidth 64, BitVec.ofNat 64 e.causeSlot.2, 0, 0⟩) := by
  rw [fetchIssue, hf]
  simp only [hd]
  exact ⟨_, rfl⟩

end Sys2Proof.Machine.State

namespace Sys2Proof

/-- Settles O4: each order of R81 is a search over the slots of the bundle's layout. -/
theorem reservedEncodingsRefused : Obligations.ReservedEncodingsRefused := by
  unfold Obligations.ReservedEncodingsRefused
  refine ⟨fun h ws hbad => ⟨?_, rfl⟩, fun n sl wd hn => ?_, fun h ws hcheck hlit hport hlen => ⟨fun ho => ?_, fun hno => ?_⟩,
    fun s u h ws e hf hd => ?_⟩
  · simp only [decodeBundle, (headerBad_iff h).2 hbad]
    rfl
  · exact ⟨fun ho => ⟨decodeBundle_lone_opcode hn ho, rfl⟩, fun ho => ⟨decodeBundle_lone_operand hn ho, rfl⟩⟩
  · obtain ⟨m, hm, hom, hd⟩ := decodeBundle_of_orphan hcheck hlit hport hlen ho
    exact ⟨m, hm, hom, hd, rfl⟩
  · refine ⟨fun n hn hop hr hb => decodeBundle_of_opcode hcheck hlit hport hlen hno hn hop hr hb, fun hopc => ⟨fun n hn hop hr hb =>
      decodeBundle_of_operand hcheck hlit hport hlen hno hopc hn hop hr hb, fun hopd hs => ?_⟩⟩
    obtain ⟨n, hn, hsn, hd⟩ := decodeBundle_of_short hcheck hlit hport hlen hno hopc hopd hs
    exact ⟨n, hn, hsn, hd, rfl⟩
  · obtain ⟨v, hv⟩ := Machine.State.fetchIssue_of_error hf hd
    exact ⟨_, hv, v.takeTrap_tcause _, v.takeTrap_tinfo0 _, v.takeTrap_tinfo1 _, v.takeTrap_mode _⟩

end Sys2Proof
end

