-- ==== Sys2Proof/Proofs/StepRuns.lean ====
section
/-! What a step does (R72, R95, R105): a bundle of one operation word, down from the choice of its context to the word itself, and
an event from outside. -/

namespace Sys2Proof.Machine

namespace State

/-! What becomes of an outcome that waits for nothing. -/

theorem settleWaits_of_waits_nil {s0 t : State} {again : State → State} (h : t.waits = []) :
    s0.settleWaits again (.next t) = .next t.useUp := by
  simp [settleWaits, unlessWaits, h]

theorem settleWaits_of_waits {s0 t : State} {again : State → State} (h : t.waits ≠ []) :
    s0.settleWaits again (.next t) = .next (again (t.waits.foldl beginWait s0)) := by
  simp [settleWaits, unlessWaits, h]

theorem haltAt_waits (s : State) (r : BitVec 4) (f : Context → Context) : (s.haltAt r f).waits = s.waits := rfl

theorem stepped_waits (s : State) : s.stepped.waits = s.waits := by
  unfold stepped
  split
  · exact haltAt_waits s 3 id
  · rfl

theorem retire_waits (s : State) : s.retire.waits = s.waits := rfl

/-! One operation word. -/

section Word
variable {w t : State} {n : Nat} {i : Instr}
  (hexec : exec i { w with issue := { w.issue with slot := n, verdict := .done } } = .next t)
  (hdone : t.issue.verdict = .done) (hwaits : t.waits = [])
include hexec hwaits

theorem wordIn_of_exec : wordIn n i w = .next t := by
  simp [wordIn, hexec, hwaits]

include hdone

theorem runWord_of_exec : w.runWord n i w = .next t := by
  simp [runWord, wordIn_of_exec hexec hwaits, hdone]

theorem parksFirst_of_exec : w.parksFirst [(n, i)] = none := by
  simp [parksFirst, wordIn_of_exec hexec hwaits, hdone, hwaits]

theorem firstPass_of_exec (hleaves : w.leaves i = false) : w.firstPass [] [(n, i)] w = .next t := by
  simp [firstPass, hleaves, runWord_of_exec hexec hdone hwaits, hdone, lateWord]

/-- A bundle of one word that has its effect comes to that effect. -/
theorem runBundle_of_exec (hleaves : w.leaves i = false) (hdef : w.deferredAt i = none) : w.runBundle [(n, i)] = .next t := by
  simp [runBundle, hleaves, parksFirst_of_exec hexec hdone hwaits, firstPass_of_exec hexec hdone hwaits hleaves, orDeferred,
    deferredOf, hdef]

end Word

/-- What lets a lone word's bundle issue: no interlock, no fence, no matrix hold, no return from a trap, nothing deferred. -/
structure Unheld (w : State) (i : Instr) : Prop where
  interlocked : w.interlocked [i] = false
  fenced : w.fenced [i] = false
  matrixHeld : w.matrixHeld i = false
  leaves : w.leaves i = false
  deferredAt : w.deferredAt i = none

theorem issueBundle_of_exec {w t : State} {b : Bundle} {n : Nat} {sl : Slot} {i : Instr} (hops : b.ops = [(n, sl, i)])
    (hp : b.present ≠ 0) (hun : w.Unheld i)
    (hexec : exec i { w with issue := { w.issue with slot := n, verdict := .done } } = .next t)
    (hdone : t.issue.verdict = .done) (hwaits : t.waits = []) (hset : w.fencedSets t.issue.touched = false) :
    w.issueBundle b = .next t.retire.stepped := by
  simp [issueBundle, hops, hp, hun.interlocked, hun.fenced, hun.matrixHeld,
    runBundle_of_exec hexec hdone hwaits hun.leaves hun.deferredAt, hwaits, hdone, hset]

theorem issueBundle_of_empty {w t : State} {b : Bundle} (hp : b.present = 0)
    (hexec : exec (.emptyBundle b.drain b.scope) w = .next t) : w.issueBundle b = .next t.stepped := by
  simp [issueBundle, hp, hexec]

/-! From the choice of a context to its bundle. -/

/-- The state in which a fetched and decoded bundle is issued. -/
def issuing (u : State) (h : Word) (ws : List Word) (b : Bundle) : State :=
  { u with issue := { u.issue with header := h, len := 4 * (1 + ws.length), slot := 0, scope := b.scope, drain := b.drain } }

theorem fetchIssue_of_decode {s u : State} {h : Word} {ws : List Word} {b : Bundle}
    (hf : s.fetchBundle s.issue.pc = (u, .ok (h, ws))) (hd : decodeBundle h ws = .ok b) :
    s.fetchIssue = (u.issuing h ws b).issueBundle b := by
  rw [fetchIssue, hf]
  simp only [hd]
  rfl

/-- A context that is asked for nothing else presents its next bundle. -/
theorem attempt_eq_fetchIssue {s : State} (hh : s.cx.dbg.haltReq = false) (hl : s.cx.late = none) (hd : s.cx.draining = false)
    (ho : (s.cx.opens.any fun o => s.cx.handing.contains o.id) = false) :
    s.attempt = ({ s with
      issue := { pc := s.cx.pc &&& ~~~3#56, slot := 7 },
      cx := { s.cx with barriers := s.cx.barriers.filter s.barrierHolds, draining := false } } : State).fetchIssue := by
  unfold attempt
  rw [if_neg (by simp [hh]), if_neg (Bool.eq_false_iff.1 ho), if_neg (by simp [hl]), if_neg (by simp [hd]), if_neg (by simp [hd])]

theorem attempt_eq_presented {s : State} {c : Nat} (hh : (s.presented c).cx.dbg.haltReq = false)
    (hl : (s.presented c).cx.late = none) (hd : (({ s with turn := [] } : State).switch c).cx.draining = false)
    (ho : ((s.presented c).cx.opens.any fun o => (s.presented c).cx.handing.contains o.id) = false) :
    (({ s with turn := [] } : State).switch c).attempt = (s.presented c).fetchIssue :=
  attempt_eq_fetchIssue (s := ({ s with turn := [] } : State).switch c) hh hl hd ho

theorem runTurn_of_attempt {s t : State} {c : Nat} (hc : c < 4096) (he : (s.switch c).eligible c = true)
    (ha : (s.switch c).attempt = .next t) (hw : t.waits = []) : s.runTurn c = .next t.useUp := by
  simp only [runTurn, if_neg (Nat.not_le.2 hc), he, if_true, ha]
  exact settleWaits_of_waits_nil hw

end State

theorem step_of_turn {s : State} {c : Nat} (hi : s.inputs = []) (ht : s.turn = [c]) :
    step s = ({ s with turn := [] } : State).runTurn c := by
  simp [step, hi, ht]

theorem step_of_input {s : State} {i : Instr} {r : List Instr} (h : s.inputs = i :: r) : step s =
    ({ s with inputs := r } : State).settleWaits (fun s => s.later 16 i) (exec i { s with inputs := r }) := by
  simp [step, h]

/-- Settles O5: the choice of the context, the fetch, the decoding and the word, one after the other. -/
theorem stepRunsDecoded : Obligations.StepRunsDecoded := by
  unfold Obligations.StepRunsDecoded
  refine ⟨fun s u t c h ws b hin hturn hc hel hh hl hd ho hf hdec => ?_, fun s i r hin => ⟨?_, ?_, ?_, ?_⟩⟩
  · have hrun {t' : State} (hb : (u.issuing h ws b).issueBundle b = .next t') (hw : t'.waits = []) : step s = .next t'.useUp := by
      rw [step_of_turn hin hturn]
      exact State.runTurn_of_attempt hc hel
        ((State.attempt_eq_presented hh hl hd ho).trans ((State.fetchIssue_of_decode hf hdec).trans hb)) hw
    refine ⟨fun n sl i hops hp => ?_, fun _ hp => ?_⟩
    · intro _ _ h1 h2 h3 h4 h5 hexec hdone hwaits hset
      exact hrun (State.issueBundle_of_exec hops hp ⟨h1, h2, h3, h4, h5⟩ hexec hdone hwaits hset)
        (by rw [State.stepped_waits, State.retire_waits, hwaits])
    · intro _ hexec hwaits
      exact hrun (State.issueBundle_of_empty hp hexec) (by rw [State.stepped_waits, hwaits])
  · intro t he hw
    rw [step_of_input hin, he, State.settleWaits_of_waits_nil hw]
  · intro t he hw
    rw [step_of_input hin, he, State.settleWaits_of_waits hw]
  · intro f he
    rw [step_of_input hin, he]
    rfl
  · intro f he
    rw [step_of_input hin, he]
    rfl

end Sys2Proof.Machine
end

