-- ==== Sys2Proof/Proofs/LineHomes.lean ====
section
/-! Lines at their homes: what a merge leaves alone wherever the home is, what it writes at a home of this device, and what an
error of a read changes. -/

namespace Sys2Proof.Machine.State

/-! What a merge leaves alone. -/

/-- From s to t bytes of lines may have gone home: the line caches, the lists of their holders and the locks are as before, and no
line is newly poisoned. -/
structure Merged (s t : State) : Prop where
  cores : t.cores = s.cores
  dir : t.homes.lineDir = s.homes.lineDir
  locks : t.homes.locks = s.homes.locks
  poison : ∀ l ∈ t.homes.poison, l ∈ s.homes.poison

theorem Merged.refl (s : State) : Merged s s := ⟨rfl, rfl, rfl, fun _ h => h⟩
theorem Merged.trans {s t u : State} (a : Merged s t) (b : Merged t u) : Merged s u :=
  ⟨b.cores.trans a.cores, b.dir.trans a.dir, b.locks.trans a.locks, fun l h => a.poison l (b.poison l h)⟩
theorem Merged.fold {α : Type} (f : State → α → State) (h : ∀ s a, Merged s (f s a)) : ∀ (l : List α) (s : State),
    Merged s (l.foldl f s)
  | [], s => .refl s
  | a :: r, s => (h s a).trans (Merged.fold f h r (f s a))

theorem merged_later (s : State) (d : Nat) (i : Instr) : Merged s (s.later d i) := ⟨rfl, rfl, rfl, fun _ h => h⟩
theorem merged_free (s : State) : Merged s s.free.2 := ⟨rfl, rfl, rfl, fun _ h => h⟩
theorem merged_fab (s : State) (f : Fabric) : Merged s { s with fab := f } := ⟨rfl, rfl, rfl, fun _ h => h⟩
theorem merged_setDie (s : State) (n : Nat) (d : Die) : Merged s (s.setDie n d) := ⟨rfl, rfl, rfl, fun _ h => h⟩
theorem merged_mem (s : State) (m : List Host.Cell) : Merged s { s with mem := m } := ⟨rfl, rfl, rfl, fun _ h => h⟩
theorem merged_dev (s : State) (d : DevRegs) : Merged s { s with dev := d } := ⟨rfl, rfl, rfl, fun _ h => h⟩

theorem merged_meetWatches (s : State) (read : Watch → Option Nat) : Merged s (s.meetWatches read) := by
  unfold meetWatches
  exact Merged.fold _ (fun s a => (merged_setDie s _ _).trans (merged_later _ _ _)) _ s
theorem merged_afterHomeWrite (s : State) (l : Nat) (m : BitVec 128) : Merged s (s.afterHomeWrite l m) :=
  (merged_meetWatches s _).trans (merged_dev _ _)
theorem merged_wakeTokens (s : State) (l : Nat) : Merged s (s.wakeTokens l) :=
  Merged.fold _ (fun s (t : TokenWait) => merged_later s 0 (.tokenReexamine t.gpa)) _ s
theorem merged_unpoison (s : State) (l : Nat) (whole : Bool) : Merged s (s.unpoison l whole) := by
  unfold unpoison
  split
  · exact ⟨rfl, rfl, rfl, fun _ h => (List.mem_filter.1 h).1⟩
  · exact .refl s
/-- What follows the bytes of a write at home. -/
theorem merged_afterBytes (s : State) (l : Nat) (whole : Bool) (m : BitVec 128) :
    Merged s (((s.unpoison l whole).afterHomeWrite l m).wakeTokens l) :=
  (merged_unpoison s l whole).trans ((merged_afterHomeWrite _ l m).trans (merged_wakeTokens _ l))
theorem merged_storeCipher (s : State) (l : Nat) (c : BitVec 1024) (tag : BitVec 64) (whole : Bool) :
    Merged s (s.storeCipher l c tag whole) := by
  unfold storeCipher
  refine Merged.trans ?_ (merged_afterBytes _ _ _ _)
  exact ⟨rfl, rfl, rfl, fun _ h => h⟩
theorem merged_homeWrite {s t : State} {sp : BitVec 6} {key : BitVec 8} {l : Nat} {m : BitVec 128} {d : BitVec 1024}
    (h : s.homeWrite sp key l m d = .ok t) : Merged s t := by
  unfold homeWrite at h
  dsimp only at h
  split at h
  · cases h
  · split at h
    · injection h with h
      subst h
      exact (merged_mem s _).trans (merged_afterBytes _ _ _ _)
    · split at h
      · cases h
      · split at h
        · cases h
        · injection h with h
          subst h
          exact merged_storeCipher _ _ _ _ _

theorem merged_pick (s : State) (l : List Nat) : Merged s (s.pick l).2 := by
  unfold pick
  split
  · exact .refl s
  · exact merged_free s
theorem merged_emit (s : State) (f : Flit) : Merged s (s.emit f) := by
  unfold emit
  have route := merged_pick s ((s.nextHops f).map BitVec.toNat)
  generalize s.pick ((s.nextHops f).map BitVec.toNat) = r at route
  obtain ⟨o, u⟩ := r
  cases o with
  | none => exact route
  | some n => exact route.trans ((merged_pick u _).trans ((merged_fab _ _).trans (merged_fab _ _)))
theorem merged_firstSend (s : State) (x : Txn) : Merged s (s.firstSend x).1 := by
  unfold firstSend
  dsimp only
  split
  · exact .refl s
  · refine Merged.trans ?_ ((merged_later _ _ _).trans (merged_later _ _ _))
    exact (merged_fab s _).trans ((merged_fab _ _).trans (merged_emit _ _))
theorem merged_send (s : State) (f : Flit) (u : TxnUse) : Merged s (s.send f u).2 := by
  unfold send
  extract_lets id x queued fb t
  have listed : Merged s t := merged_fab s _
  have sent := merged_firstSend t x
  split
  · exact listed.trans (merged_later _ _ _)
  · split
    next h =>
      rw [h] at sent
      exact listed.trans sent
    next h =>
      rw [h] at sent
      exact (listed.trans sent).trans (merged_later _ _ _)
theorem merged_sendMerge (s : State) (sp : BitVec 6) (key : BitVec 8) (l : Nat) (m : BitVec 128) (d : BitVec 1024) (u : TxnUse) :
    Merged s (s.sendMerge sp key l m d u).1 := by
  unfold sendMerge
  dsimp only
  split
  · exact .refl s
  · split
    · exact merged_send _ _ _
    · split
      · exact .refl s
      · split <;> exact merged_send _ _ _
theorem merged_mergeTo (s : State) (sp : BitVec 6) (key : BitVec 8) (l : Nat) (m : BitVec 128) (d : BitVec 1024) (u : TxnUse) :
    Merged s (s.mergeTo sp key l m d u).1 := by
  unfold mergeTo
  split
  · split
    next h => exact merged_homeWrite h
    next => exact .refl s
  · exact merged_sendMerge _ _ _ _ _ _ _
theorem merged_mergeLineTo (s : State) (ln : Line) (u : TxnUse) : Merged s (s.mergeLineTo ln u).1 :=
  (merged_mergeTo s ln.space ln.key ln.line (outMask ln) ln.data u).trans (merged_fab _ _)
theorem merged_mergeFailed (s : State) (c : Nat) (sp : BitVec 6) (l : Nat) (e : BitVec 8) :
    Merged s (s.mergeFailed c sp l e) := by
  unfold mergeFailed
  split <;> exact merged_setDie _ _ _
theorem merged_mergeOut (s : State) (c : Nat) (ln : Line) : Merged s (s.mergeOut c ln) := by
  have sent := merged_mergeLineTo s ln (.merge c ln.space ln.line)
  unfold mergeOut
  split
  · exact .refl s
  · split
    next h =>
      rw [h] at sent
      exact sent
    next h =>
      rw [h] at sent
      exact sent.trans (merged_mergeFailed _ _ _ _ _)

/-! What a merge writes at a home of this device. -/

theorem foldl_mem {α : Type} (f : State → α → State) (h : ∀ s a, (f s a).mem = s.mem) : ∀ (l : List α) (s : State),
    (l.foldl f s).mem = s.mem
  | [], _ => rfl
  | a :: r, s => (foldl_mem f h r (f s a)).trans (h s a)
theorem wakeTokens_mem (s : State) (l : Nat) : (s.wakeTokens l).mem = s.mem := by
  unfold wakeTokens
  rw [foldl_mem]
  exact fun _ _ => rfl
theorem meetWatches_mem (s : State) (read : Watch → Option Nat) : (s.meetWatches read).mem = s.mem := by
  unfold meetWatches
  dsimp only
  rw [foldl_mem]
  exact fun _ _ => rfl
theorem afterHomeWrite_mem (s : State) (l : Nat) (m : BitVec 128) : (s.afterHomeWrite l m).mem = s.mem := meetWatches_mem s _
theorem unpoison_mem (s : State) (l : Nat) (whole : Bool) : (s.unpoison l whole).mem = s.mem := by
  unfold unpoison
  split <;> rfl

/-- A write of an unencrypted line at its home stores the bytes of its mask. -/
theorem homeWrite_plain (s : State) (sp : BitVec 6) (l : Nat) (m : BitVec 128) (d : BitVec 1024)
    (hb : s.backed (localOf (128 * l)) = true) :
    ∃ t, s.homeWrite sp 0 l m d = .ok t ∧ t.mem = cellsMask s.mem (128 * l) 128 m.toNat d.toNat := by
  refine ⟨_, by simp only [homeWrite, hb]; rfl, ?_⟩
  rw [wakeTokens_mem, afterHomeWrite_mem, unpoison_mem]

/-- A line with nothing to send home is left as it is. -/
theorem mergeOut_of_clean (s : State) (c : Nat) (ln : Line) (h : outMask ln = 0) : s.mergeOut c ln = s := by
  simp [mergeOut, h]

/-- The dirty content of an unencrypted line of this device reaches memory. -/
theorem mergeOut_mem (s : State) (c : Nat) (ln : Line) (own : s.ownDevice (128 * ln.line) = true)
    (hb : s.backed (localOf (128 * ln.line)) = true) (key : ln.key = 0) (dirty : outMask ln ≠ 0) :
    (s.mergeOut c ln).mem = cellsMask s.mem (128 * ln.line) 128 (outMask ln).toNat ln.data.toNat := by
  obtain ⟨t, ht, hm⟩ := s.homeWrite_plain ln.space ln.line (outMask ln) ln.data hb
  simp only [mergeOut, mergeLineTo, mergeTo, own, key, ht, beq_false_of_ne dirty, if_true]
  exact hm

/-- The masked bytes of a line after a write of the line, and every other byte. -/
theorem byte_lineMask (s t : State) (l : Nat) (m : BitVec 128) (d : BitVec 1024) (wf : Memory.wf s.mem = true)
    (h : t.mem = cellsMask s.mem (128 * l) 128 m.toNat d.toNat) :
    (∀ i, i < 128 → t.byte (128 * l + i) = if m.getLsbD i then d.extractLsb' (8 * i) 8 else s.byte (128 * l + i)) ∧
      ∀ q, q / 128 ≠ l → t.byte q = s.byte q := by
  refine ⟨fun i hi => ?_, fun q hq => ?_⟩
  · have inside : 128 * l + i - 128 * l = i := by omega
    rw [byte, h, cellRead_cellsMask _ _ _ _ _ _ wf, inside]
    refine ite_congr (propext ⟨fun c => c.2.2, fun c => ⟨by omega, by omega, c⟩⟩) (fun _ => ?_) fun _ => rfl
    apply BitVec.eq_of_toNat_eq
    rw [BitVec.extractLsb'_toNat, BitVec.toNat_ofNat, Nat.shiftRight_eq_div_pow]
  · rw [byte, h, cellRead_cellsMask _ _ _ _ _ _ wf, if_neg (by omega)]
    rfl

/-- A masked write of a whole line is a write of its bytes. -/
theorem cellsMask_allOnes : ∀ (n a v : Nat) (m : List Host.Cell), cellsMask m a n (2 ^ n - 1) v = cellsWrite m a n v
  | 0, _, _, _ => rfl
  | n + 1, a, v, m => by
    have pos := Nat.two_pow_pos n
    have odd : (2 ^ (n + 1) - 1) % 2 = 1 := by omega
    have half : (2 ^ (n + 1) - 1) / 2 = 2 ^ n - 1 := by omega
    unfold cellsMask cellsWrite
    rw [odd, half, cellsMask_allOnes n]
    rfl

/-- A line that has been written whole reads as what was written. -/
theorem bytes_lineMask (s t : State) (l : Nat) (d : BitVec 1024) (wf : Memory.wf s.mem = true)
    (h : t.mem = cellsMask s.mem (128 * l) 128 (BitVec.allOnes 128).toNat d.toNat) : t.bytes (128 * l) 128 = d.toNat := by
  have ones : (BitVec.allOnes 128).toNat = 2 ^ 128 - 1 := BitVec.toNat_allOnes
  have fits : d.toNat % (2 ^ 8) ^ 128 = d.toNat := by
    rw [← Nat.pow_mul]
    exact Nat.mod_eq_of_lt d.isLt
  rw [bytes, h, ones, cellsMask_allOnes, cellsRead_cellsWrite _ _ _ _ wf]
  exact fits

/-! What an error of a read changes. -/

/-- From s to t reads have met errors: channels' counts and rows, poison, logs, the agenda and the free values may have changed, and
no scrub has been noted. -/
def Erred (s t : State) : Prop := ∃ n p d a k,
  t = { s with homes := { s.homes with counts := n, poison := p }, dies := d, agenda := a, tick := k } ∧
    ∀ c, (t.chan c).scrubbed = (s.chan c).scrubbed

theorem Erred.refl (s : State) : Erred s s := ⟨_, _, _, _, _, rfl, fun _ => rfl⟩
theorem Erred.trans {s t u : State} (a : Erred s t) (b : Erred t u) : Erred s u := by
  obtain ⟨_, _, _, _, _, rfl, ha⟩ := a
  obtain ⟨_, _, _, _, _, rfl, hb⟩ := b
  exact ⟨_, _, _, _, _, rfl, fun c => (hb c).trans (ha c)⟩
theorem Erred.fold {α : Type} (f : State → α → State) (h : ∀ s a, Erred s (f s a)) : ∀ (l : List α) (s : State),
    Erred s (l.foldl f s)
  | [], s => .refl s
  | a :: r, s => (h s a).trans (Erred.fold f h r (f s a))

theorem erred_setChan (s : State) (n : Nat) (c : ChanCount) (h : c.scrubbed = (s.chan n).scrubbed) : Erred s (s.setChan n c) := by
  refine ⟨_, _, _, _, _, rfl, fun m => ?_⟩
  by_cases hm : n = m
  · rw [← hm, chan_setChan, h]
  · rw [chan_setChan_other _ hm]
theorem erred_log (s : State) (die kind index : Nat) (sp : BitVec 6) (cause : BitVec 8) (d0 d1 : Dbl) (n : BitVec 32) :
    Erred s (s.log die kind index sp cause d0 d1 n) := ⟨_, _, _, _, _, rfl, fun _ => rfl⟩
theorem erred_free (s : State) : Erred s s.free.2 := ⟨_, _, _, _, _, rfl, fun _ => rfl⟩
theorem erred_later (s : State) (d : Nat) (i : Instr) : Erred s (s.later d i) := ⟨_, _, _, _, _, rfl, fun _ => rfl⟩
theorem erred_poison (s : State) (p : List Nat) : Erred s { s with homes := { s.homes with poison := p } } :=
  ⟨_, _, _, _, _, rfl, fun _ => rfl⟩
theorem erred_correctError (s : State) (ch row : Nat) : Erred s (s.correctError ch row) := by
  unfold correctError
  extract_lets c n rows t
  have logged : Erred s t := by
    refine Erred.trans ?_ (erred_log _ _ _ _ _ _ _ _ _)
    exact erred_setChan s ch _ rfl
  split
  · exact logged
  · exact logged.trans ((erred_free t).trans (erred_later _ _ _))
theorem erred_poisonLine (s : State) (l : Nat) : Erred s (s.poisonLine l) := by
  unfold poisonLine
  refine Erred.trans (Erred.trans ?_ (erred_poison _ _)) (erred_log _ _ _ _ _ _ _ _ _)
  exact erred_setChan s _ _ rfl
/-- What the errors of one read of a line change. -/
theorem erred_lineErrors (s : State) (l : Nat) : Erred s (s.lineErrors l) := by
  unfold lineErrors
  extract_lets a w
  split
  · exact .refl s
  · dsimp only
    refine (erred_free s).trans ?_
    have first (t : State) (b : Bool) (ch row : Nat) : Erred t (if b = true then t.correctError ch row else t) := by
      split
      · exact erred_correctError _ _ _
      · exact .refl t
    split
    · exact (first _ _ _ _).trans (erred_poisonLine _ _)
    · exact first _ _ _ _

end Sys2Proof.Machine.State
end

