-- ==== Sys2Proof/Proofs/LineEvents.lean ====
section
/-! The events of lines (R239 to R242, R410): what each leaves in the line cache, in the home's list and in memory. -/

namespace Sys2Proof.Machine
namespace State

/-! Line caches and the lists of their holders. -/

theorem lineOf_line {s : State} {core l : Nat} {ln : Line} (h : s.lineOf core l = some ln) : ln.line = l := by
  have found := List.find?_some h
  simpa using found
@[simp] theorem lineOf_putLine_same (s : State) (core : Nat) (ln : Line) : (s.putLine core ln).lineOf core ln.line = some ln := by
  simp [putLine, lineOf]
@[simp] theorem lineOf_dropLine_same (s : State) (core l : Nat) : (s.dropLine core l).lineOf core l = none := by
  simp [dropLine, lineOf]
@[simp] theorem lineOf_setDir (s : State) (core l m : Nat) (cs : List Nat) : (s.setDir m cs).lineOf core l = s.lineOf core l := rfl
@[simp] theorem setLines_setDir (s : State) (core l m : Nat) (cs : List Nat) : (s.setDir m cs).setLines core l = s.setLines core l := rfl
@[simp] theorem dirCores_setDir_same (s : State) (l : Nat) (cs : List Nat) : (s.setDir l cs).dirCores l = cs := by
  cases cs with
  | nil => exact tget_tdel_same _ _ _
  | cons c r => exact tget_tset_same _ _ _ _

/-- A line put into a set takes at most one way more. -/
theorem setLines_putLine_le (s : State) (core l : Nat) (ln : Line) :
    ((s.putLine core ln).setLines core l).length ≤ (s.setLines core l).length + 1 := by
  have fewer : ((s.core core).lines.filter (·.line != ln.line)).filter (fun x => x.line % 64 == l % 64) |>.Sublist
      ((s.core core).lines.filter fun x => x.line % 64 == l % 64) := List.filter_sublist.filter _
  unfold putLine setLines
  rw [core_setCore, List.filter_cons]
  have bound := fewer.length_le
  split
  · rw [List.length_cons]
    omega
  · omega
/-- A line that leaves its set frees a way. -/
theorem setLines_dropLine_lt {s : State} {core l : Nat} {ln : Line} (h : ln ∈ s.setLines core l) :
    ((s.dropLine core ln.line).setLines core l).length < (s.setLines core l).length := by
  have drop : (s.dropLine core ln.line).setLines core l = (s.setLines core l).filter (·.line != ln.line) := by
    unfold dropLine setLines
    rw [core_setCore, List.filter_comm]
  rw [drop]
  exact List.length_filter_lt_length_iff_exists.2 ⟨ln, h, by simp⟩

theorem Merged.core {s t : State} (m : Merged s t) (n : Nat) : t.core n = s.core n := by
  unfold State.core
  rw [m.cores]
theorem Merged.lineOf {s t : State} (m : Merged s t) (n l : Nat) : t.lineOf n l = s.lineOf n l := by
  unfold State.lineOf
  rw [m.core]
theorem Merged.setLines {s t : State} (m : Merged s t) (n l : Nat) : t.setLines n l = s.setLines n l := by
  unfold State.setLines
  rw [m.core]
theorem Merged.dirCores {s t : State} (m : Merged s t) (l : Nat) : t.dirCores l = s.dirCores l := by
  unfold State.dirCores
  rw [m.dir]

/-! Making room. -/

/-- Making room poisons no line. -/
theorem evictLine_poison (s : State) (core : Nat) (ln : Line) : ∀ l ∈ (s.evictLine core ln).homes.poison, l ∈ s.homes.poison := by
  unfold evictLine
  extract_lets t
  have merged : ∀ l ∈ t.homes.poison, l ∈ s.homes.poison := (merged_mergeOut s core ln).poison
  split
  · exact merged
  · exact merged
theorem makeRoom_poison (s : State) (core l : Nat) : ∀ m ∈ (s.makeRoom core l).homes.poison, m ∈ s.homes.poison := by
  unfold makeRoom
  split
  · exact fun _ h => h
  · dsimp only
    split
    · exact evictLine_poison _ core _
    · exact fun _ h => h

/-- An evicted line frees a way of its set. -/
theorem setLines_evictLine_lt {s : State} {core l : Nat} {ln : Line} (h : ln ∈ s.setLines core l) :
    ((s.evictLine core ln).setLines core l).length < (s.setLines core l).length := by
  have merged := merged_mergeOut s core ln
  rw [← merged.setLines] at h ⊢
  unfold evictLine
  extract_lets t
  have freed : (t.setLines core l).length < ((s.mergeOut core ln).setLines core l).length := setLines_dropLine_lt h
  split
  · exact freed
  · exact freed
/-- A set of 8 lines without a held merge has a way free once room is made. -/
theorem setLines_makeRoom_lt {s : State} {core l : Nat} (guest : core ≠ guestCore) (absent : s.lineOf core l = none)
    (ways : (s.setLines core l).length ≤ 8) (free : ∀ x ∈ s.setLines core l, s.mergeHeld x = false) :
    ((s.makeRoom core l).setLines core l).length < 8 := by
  by_cases room : (s.setLines core l).length < 8
  · rw [makeRoom_of_room s core l room]
    exact room
  · have all : (s.setLines core l).filter (fun ln => !s.mergeHeld ln) = s.setLines core l :=
      List.filter_eq_self.2 fun x hx => by simp [free x hx]
    have full : (s.setLines core l).length = 8 := by omega
    have bound : s.free.1.toNat % max 1 (s.setLines core l).length < (s.setLines core l).length := by
      rw [full]
      exact Nat.mod_lt _ (by decide)
    have chosen := List.getElem?_eq_getElem bound
    have evicted : s.makeRoom core l = s.free.2.evictLine core ((s.setLines core l)[s.free.1.toNat % max 1 (s.setLines core l).length]) := by
      unfold makeRoom
      rw [all, if_neg (by simp [guest, absent, room])]
      dsimp only
      rw [chosen]
    rw [evicted, ← full]
    exact setLines_evictLine_lt (s := s.free.2) (List.getElem_mem bound)

/-! A read miss of a line that nobody holds. -/

theorem recallTo_of_unheld {s : State} {l : Nat} (h : s.dirCores l = []) (st : Mesi) : s.recallTo l st = s := by
  simp [recallTo, h]
/-- No grant stands in the way of a write, so none stands in the way of a read either. -/
theorem grant_none_of_not_blocks {s : State} {page : Nat} (h : s.grantBlocks page true = false) :
    (s.grantOf page).state = .none ∧ s.grantBlocks page false = false := by
  unfold grantBlocks at h ⊢
  cases hs : (s.grantOf page).state <;> simp_all

/-- An unencrypted line at its home reads as its bytes, unless it is poisoned (R421). -/
theorem homePlain_plain (s : State) (sp : BitVec 6) (l : Nat) :
    s.homePlain sp 0 l = if s.homes.poison.contains l = true then .error 0x26 else .ok (s.lineRaw l) := rfl

/-- The line that a read miss of a line without holders brings in (R239, R377). -/
def freshLine (s : State) (sp : BitVec 6) (l : Nat) : Line := ⟨l, true, .e, BitVec.allOnes 128, 0, s.lineRaw l, sp, 0⟩

/-- A read miss of an unencrypted line that nobody holds: a poisoned one is refused, another is granted exclusive. -/
theorem readMiss_of_unheld {s : State} {l : Nat} (core : Nat) (sp : BitVec 6) (unheld : s.dirCores l = [])
    (cache : cacheable (localOf (128 * l)) = true) (hb : s.backed (localOf (128 * l)) = true)
    (grant : (s.grantOf (l / 512)).state = .none) :
    s.readMiss core ⟨sp, 0, true⟩ l = if s.homes.poison.contains l = true then (s, .error 0x26)
      else (((s.makeRoom core l).putLine core (s.freshLine sp l)).setDir l [core], .ok (s.freshLine sp l)) := by
  have guard : (!cacheable (localOf (128 * l)) || !s.backed (localOf (128 * l))) = false := by simp [cache, hb]
  have plain := s.homePlain_plain sp l
  unfold readMiss freshLine
  by_cases bad : s.homes.poison.contains l = true
  · rw [if_pos bad] at plain ⊢
    simp only [recallTo_of_unheld unheld, guard, plain]
    rfl
  · rw [if_neg bad] at plain ⊢
    simp only [recallTo_of_unheld unheld, guard, plain, unheld, grant]
    rfl

/-- The event of a read miss of a line that nobody holds reads the line at its home, where its read may meet errors. -/
theorem exec_lineReadMiss_of_unheld {s : State} {core line : Nat} (own : s.ownDevice (128 * line) = true)
    (absent : s.lineOf core line = none) (unlocked : s.lineLocked line = false) (unheld : s.dirCores line = [])
    (cache : cacheable (localOf (128 * line)) = true) (room : s.roomHeld core line = false)
    (sameT : s.aliased (line / 512) true = false) (grant : s.grantBlocks (line / 512) false = false)
    (tags : ∀ n tag, (n, tag) ∈ s.homes.tags → n ≠ line) :
    exec (.lineReadMiss core line) s = .next ((s.lineErrors line).readMiss core ⟨0, 0, true⟩ line).1 := by
  obtain ⟨_, _, _, _, _, shape, -⟩ := erred_lineErrors s line
  have plain : (s.lineErrors line).homes.tags.any (·.1 == line) = false := by
    rw [shape]
    exact List.any_eq_false.2 fun p hp => by simpa using tags p.1 p.2 hp
  rw [exec_lineReadMiss]
  simp [execLineReadMiss, absent, own, cache, unlocked, room, sameT, grant, unheld, plain]

/-- A read miss of a line that nobody holds fills it exclusive from its home, unless the read poisons it. -/
theorem lineReadMiss_fills {s : State} {core line : Nat} (own : s.ownDevice (128 * line) = true)
    (hb : s.backed (localOf (128 * line)) = true) (absent : s.lineOf core line = none) (unlocked : s.lineLocked line = false)
    (unheld : s.dirCores line = []) (cache : cacheable (localOf (128 * line)) = true) (room : s.roomHeld core line = false)
    (sameT : s.aliased (line / 512) true = false) (grant : s.grantBlocks (line / 512) true = false)
    (tags : ∀ n tag, (n, tag) ∈ s.homes.tags → n ≠ line) :
    ∃ t, exec (.lineReadMiss core line) s = .next t ∧
      (line ∈ t.homes.poison → t.lineOf core line = none ∧ t.mem = s.mem) ∧
      (line ∉ t.homes.poison → ∃ ln, t.lineOf core line = some ln ∧
        ln.tracked = true ∧ ln.mesi = .e ∧ ln.data = s.lineRaw line ∧ t.dirCores line = [core]) ∧
      ((s.setLines core line).length < 8 → t.mem = s.mem) ∧
      ((s.setLines core line).length ≤ 8 → core ≠ guestCore → (∀ x ∈ s.setLines core line, s.mergeHeld x = false) →
        (t.setLines core line).length ≤ 8) := by
  obtain ⟨none, free⟩ := grant_none_of_not_blocks grant
  refine ⟨_, exec_lineReadMiss_of_unheld own absent unlocked unheld cache room sameT free tags, ?_⟩
  obtain ⟨n, p, d, a, k, shape, -⟩ := erred_lineErrors s line
  generalize s.lineErrors line = e at shape
  have miss := readMiss_of_unheld (s := e) (l := line) core 0 (by rw [shape]; exact unheld) cache
    (by rw [shape]; exact hb) (by rw [shape]; exact none)
  have mem : e.mem = s.mem := by rw [shape]
  have sets : e.setLines core line = s.setLines core line := by rw [shape]; rfl
  have held : e.mergeHeld = s.mergeHeld := by rw [shape]; rfl
  have gone : e.lineOf core line = .none := by rw [shape]; exact absent
  have raw : e.lineRaw line = s.lineRaw line := by rw [shape]; rfl
  rw [miss]
  by_cases bad : e.homes.poison.contains line = true
  · rw [if_pos bad]
    have bad' : line ∈ e.homes.poison := by simpa using bad
    exact ⟨fun _ => ⟨gone, mem⟩, fun c => absurd bad' c, fun _ => mem, fun ways _ _ => by rw [sets]; exact ways⟩
  · rw [if_neg bad]
    have good : line ∉ e.homes.poison := by simpa using bad
    refine ⟨fun c => absurd (makeRoom_poison e core line line c) good, fun _ => ⟨e.freshLine 0 line, ?_, rfl, rfl, raw, ?_⟩,
      fun few => ?_, fun ways guest merges => ?_⟩
    · exact lineOf_putLine_same _ core (e.freshLine 0 line)
    · exact dirCores_setDir_same _ _ _
    · rw [makeRoom_of_room e core line (by rw [sets]; exact few)]
      exact mem
    · rw [← sets] at ways merges
      rw [← held] at merges
      have made := setLines_makeRoom_lt guest gone ways merges
      have put := setLines_putLine_le (e.makeRoom core line) core line (e.freshLine 0 line)
      rw [setLines_setDir]
      omega

/-! A tracked line leaves a core: invalidation, eviction, and a host's snoop. -/

theorem outMask_of_modified {ln : Line} (tracked : ln.tracked = true) (m : ln.mesi = .m) : outMask ln = BitVec.allOnes 128 := by
  simp [outMask, tracked, m]
theorem outMask_of_clean {ln : Line} (tracked : ln.tracked = true) (m : ln.mesi ≠ .m) : outMask ln = 0 := by
  simp [outMask, tracked, m]
/-- An unencrypted M line of this device goes home whole. -/
theorem mergeOut_modified_mem {s : State} {line : Nat} {ln : Line} (core : Nat) (own : s.ownDevice (128 * line) = true)
    (hb : s.backed (localOf (128 * line)) = true) (at_ : ln.line = line) (tracked : ln.tracked = true) (key : ln.key = 0)
    (m : ln.mesi = .m) :
    (s.mergeOut core ln).mem = cellsMask s.mem (128 * line) 128 (BitVec.allOnes 128).toNat ln.data.toNat := by
  subst at_
  have mask := outMask_of_modified tracked m
  rw [mergeOut_mem s core ln own hb key (by rw [mask]; decide), mask]

/-- An invalidated line has left the core and the home's list, with its bytes written back if it was in M (R240). -/
theorem exec_lineInvalidation_of_held {s : State} {core line : Nat} {ln : Line} (held : s.lineOf core line = some ln)
    (tracked : ln.tracked = true) :
    exec (.lineInvalidation core line) s =
      .next (((s.mergeOut core ln).dropLine core line).setDir line ((s.dirCores line).filter (· != core))) := by
  rw [exec_lineInvalidation]
  simp [execLineInvalidation, held, tracked]

theorem lineInvalidation_clean {s : State} {core line : Nat} {ln : Line} (held : s.lineOf core line = some ln)
    (tracked : ln.tracked = true) (m : ln.mesi ≠ .m) :
    ∃ t, exec (.lineInvalidation core line) s = .next t ∧ t.lineOf core line = none ∧ core ∉ t.dirCores line ∧ t.mem = s.mem := by
  refine ⟨_, exec_lineInvalidation_of_held held tracked, lineOf_dropLine_same _ _ _, ?_, ?_⟩
  · simp
  · rw [mergeOut_of_clean s core ln (outMask_of_clean tracked m)]
    rfl

/-- The recall of the one M copy of a line writes it back and leaves it shared. -/
theorem recallTo_of_one_modified {s : State} {core line : Nat} {ln : Line} (held : s.lineOf core line = some ln)
    (tracked : ln.tracked = true) (m : ln.mesi = .m) (only : s.dirCores line = [core]) :
    s.recallTo line .s = (s.mergeOut core ln).putLine core { ln with mesi := .s } := by
  simp [recallTo, only, held, tracked, m]
/-- The invalidation of the one copy of a line, which memory agrees with, drops it. -/
theorem invalidateOthers_of_one_clean {s : State} {core line : Nat} {ln : Line} (held : s.lineOf core line = some ln)
    (tracked : ln.tracked = true) (m : ln.mesi ≠ .m) (only : s.dirCores line = [core]) :
    s.invalidateOthers line none = (s.dropLine core line).setDir line [] := by
  simp [invalidateOthers, only, held, tracked, mergeOut_of_clean s core ln (outMask_of_clean tracked m)]

section Modified

variable {s : State} {core line : Nat} {ln : Line} (wf : Memory.wf s.mem = true) (own : s.ownDevice (128 * line) = true)
  (hb : s.backed (localOf (128 * line)) = true) (held : s.lineOf core line = some ln) (tracked : ln.tracked = true)
  (key : ln.key = 0) (m : ln.mesi = .m)
include wf own hb held tracked key m

theorem lineInvalidation_modified :
    ∃ t, exec (.lineInvalidation core line) s = .next t ∧ t.lineOf core line = none ∧ core ∉ t.dirCores line ∧
      t.bytes (128 * line) 128 = ln.data.toNat := by
  have mem := mergeOut_modified_mem core own hb (lineOf_line held) tracked key m
  refine ⟨_, exec_lineInvalidation_of_held held tracked, lineOf_dropLine_same _ _ _, ?_, bytes_lineMask s _ line ln.data wf mem⟩
  simp

/-- An M line evicted for an allocation that waits (R239, R296). -/
theorem lineEviction_modified (full : 8 ≤ (s.setLines core line).length) (wanted : s.allocWanted core line = true) :
    ∃ t, exec (.lineEviction core line) s = .next t ∧ t.lineOf core line = none ∧ core ∉ t.dirCores line ∧
      t.bytes (128 * line) 128 = ln.data.toNat ∧ ∀ q, q / 128 ≠ line → t.byte q = s.byte q := by
  have at_ := lineOf_line held
  have mem := mergeOut_modified_mem core own hb at_ tracked key m
  have unheld : s.mergeHeld ln = false := by simp [mergeHeld, tracked]
  refine ⟨((s.mergeOut core ln).dropLine core line).setDir line ((((s.mergeOut core ln).dropLine core line).dirCores line).filter
    (· != core)), ?_, lineOf_dropLine_same _ _ _, ?_, bytes_lineMask s _ line ln.data wf mem,
    (byte_lineMask s _ line _ ln.data wf mem).2⟩
  · rw [exec_lineEviction]
    simp [execLineEviction, held, full, wanted, unheld, evictLine, tracked, m, at_]
  · simp

theorem hostSnoop_shares (host : windowOf (localOf (128 * line)) = .host) (only : s.dirCores line = [core]) :
    ∃ t, exec (.hostSnoop line false) s = .next t ∧ t.bytes (128 * line) 128 = ln.data.toNat ∧
      t.lineOf core line = some { ln with mesi := .s } := by
  have at_ := lineOf_line held
  have mem := mergeOut_modified_mem core own hb at_ tracked key m
  refine ⟨(s.mergeOut core ln).putLine core { ln with mesi := .s }, ?_, bytes_lineMask s _ line ln.data wf mem, ?_⟩
  · rw [exec_hostSnoop]
    simp [execHostSnoop, host, recallTo_of_one_modified held tracked m only]
  · subst at_
    exact lineOf_putLine_same _ core { ln with mesi := .s }

theorem hostSnoop_drops (host : windowOf (localOf (128 * line)) = .host) (only : s.dirCores line = [core]) :
    ∃ t, exec (.hostSnoop line true) s = .next t ∧ t.bytes (128 * line) 128 = ln.data.toNat ∧ t.lineOf core line = none ∧
      t.dirCores line = [] := by
  have at_ := lineOf_line held
  have mem := mergeOut_modified_mem core own hb at_ tracked key m
  have shared : ((s.mergeOut core ln).putLine core { ln with mesi := .s }).lineOf core line = some { ln with mesi := .s } := by
    subst at_
    exact lineOf_putLine_same _ core { ln with mesi := .s }
  have listed : ((s.mergeOut core ln).putLine core { ln with mesi := .s }).dirCores line = [core] :=
    ((merged_mergeOut s core ln).dirCores line).trans only
  refine ⟨(((s.mergeOut core ln).putLine core { ln with mesi := .s }).dropLine core line).setDir line [], ?_,
    bytes_lineMask s _ line ln.data wf mem, lineOf_dropLine_same _ _ _, dirCores_setDir_same _ _ _⟩
  have dropped := invalidateOthers_of_one_clean shared tracked (by simp) listed
  rw [exec_hostSnoop]
  simp only [execHostSnoop, host, recallTo_of_one_modified held tracked m only, dropped]
  rfl

end Modified

/-- With no access that waits for its set a line is not evicted. -/
theorem lineEviction_unwanted {s : State} {core line : Nat} (unwanted : s.allocWanted core line = false) :
    exec (.lineEviction core line) s = .next s := by
  rw [exec_lineEviction]
  unfold execLineEviction
  split
  · simp [unwanted]
  · rfl

/-! A merge of masked bytes at home (R242). -/

theorem byteMaskMerge_unlocked {s : State} {line : Nat} (wf : Memory.wf s.mem = true) (hb : s.backed (localOf (128 * line)) = true)
    (unlocked : s.lineLocked line = false) (mask : BitVec 128) (data : BitVec 1024) :
    ∃ t, exec (.byteMaskMerge line mask data) s = .next t ∧
      (∀ i, i < 128 → t.byte (128 * line + i) = if mask.getLsbD i then data.extractLsb' (8 * i) 8 else s.byte (128 * line + i)) ∧
      ∀ q, q / 128 ≠ line → t.byte q = s.byte q := by
  obtain ⟨t, written, mem⟩ := s.homeWrite_plain 0 line mask data hb
  refine ⟨t, ?_, byte_lineMask s t line mask data wf mem⟩
  rw [exec_byteMaskMerge]
  simp only [execByteMaskMerge, unlocked, written]
  rfl

/-- A merge of a locked line is held until the line is unlocked (R258). -/
theorem byteMaskMerge_locked {s : State} {line : Nat} (locked : s.lineLocked line = true) (mask : BitVec 128) (data : BitVec 1024) :
    ∃ t f, exec (.byteMaskMerge line mask data) s = .next t ∧ t.mem = s.mem ∧ t.homes.held = s.homes.held ++ [f] ∧
      f.inl = mask.setWidth 256 ∧ f.data = data.setWidth 2048 := by
  have woken (u : State) : u.wakeHeld.mem = u.mem ∧ u.wakeHeld.homes = u.homes := by
    unfold wakeHeld wakeAfter
    split <;> exact ⟨rfl, rfl⟩
  let f : Flit := { s.flitTo 0x04 true (128 * line) with space := 0, inl := mask.setWidth 256, data := data.setWidth 2048 }
  let u : State := { s with homes := { s.homes with held := s.homes.held ++ [f] } }
  refine ⟨u.wakeHeld, f, ?_, (woken u).1, congrArg Homes.held (woken u).2, rfl, rfl⟩
  rw [exec_byteMaskMerge]
  simp only [execByteMaskMerge, locked, if_true]
  rfl

end State
end Sys2Proof.Machine
end

