-- ==== Sys2Proof/Proofs/ContextEvents.lean ====
section
/-! The events of translations, of a channel's scrub and rows, and of contexts (R93, R106, R331, R332, R350, R420, R422). -/

namespace Sys2Proof.Machine

/-- A table with every value changed, where the default is left as it is. -/
theorem tget_map {α : Type} (f : α → α) (d : α) (hd : f d = d) (n : Nat) : ∀ t : Table α,
    tget d (t.map fun (k, v) => (k, f v)) n = f (tget d t n)
  | [] => hd.symm
  | (k, v) :: r => by
    simp only [List.map_cons, tget]
    split
    · rfl
    · exact tget_map f d hd n r
theorem tget_tdel_other {α : Type} (d : α) {n m : Nat} (h : n ≠ m) : ∀ t : Table α, tget d (tdel t n) m = tget d t m
  | [] => rfl
  | (k, v) :: r => by
    have rest := tget_tdel_other d h r
    unfold tdel at rest ⊢
    by_cases hk : k = n
    · have other : (k == m) = false := beq_false_of_ne (hk ▸ h)
      simp [hk, h, tget, rest]
    · simp [hk, tget, rest]

namespace State

/-! TLBINV (R350). -/

/-- Each TLB keeps what TLBINV does not name. -/
theorem dropTlb_tlbs (s : State) (p : TlbEntry → Bool) :
    (∀ n, ((s.dropTlb p).core n).tlb = (s.core n).tlb.filter (fun e => !p e) ∧
      ((s.dropTlb p).cluster n).tlb = (s.cluster n).tlb.filter fun e => !p e) ∧
    (s.dropTlb p).moor.tlb = s.moor.tlb.filter (fun e => !p e) ∧ (s.dropTlb p).mem = s.mem := by
  refine ⟨fun n => ⟨?_, ?_⟩, rfl, rfl⟩
  · exact congrArg Core.tlb (tget_map (fun c : Core => { c with tlb := c.tlb.filter fun e => !p e }) {} rfl n s.cores)
  · exact congrArg Cluster.tlb (tget_map (fun c : Cluster => { c with tlb := c.tlb.filter fun e => !p e }) {} rfl n s.clusters)

/-- After start-up a write of the register TLBINV is the invalidation it asks for. -/
theorem regSet_tlbinv {s : State} (booted : s.booted = true) (v : Dbl) : s.regSet (devBlock + 0x40) v = s.tlbinv v := by
  have whole : s.regSet (devBlock + 0x40) v = s.tlbinv (v &&& BitVec.allOnes 64) := by
    simp only [regSet, regPut, booted]
    rfl
  rw [whole, BitVec.and_allOnes]

/-- The fields of the word that names a space. -/
theorem tlbinvSpace_word (sp : BitVec 6) :
    let w : Dbl := (1#64 <<< 62) ||| (sp.setWidth 64 <<< 56)
    w.getLsbD 63 = false ∧ w.getLsbD 62 = true ∧ w.extractLsb' 56 6 = sp := by
  revert sp
  decide
/-- The fields of the word that names a page of a space. -/
theorem tlbinvPage_word (sp : BitVec 6) (page : BitVec 40) :
    let w : Dbl := (sp.setWidth 64 <<< 56) ||| (page.setWidth 64 <<< 16)
    w.getLsbD 63 = false ∧ w.getLsbD 62 = false ∧ w.extractLsb' 56 6 = sp ∧ w.toNat % 2 ^ 56 / 2 ^ 16 * 2 ^ 16 = page.toNat * 65536 := by
  intro w
  have space : w.extractLsb' 56 6 = sp := by
    ext i hi
    have past : page.getLsbD (56 + i - 16) = false := BitVec.getLsbD_of_ge page _ (by omega)
    have inside : 56 + i < 64 ∧ i < 64 := by omega
    simp [w, ← BitVec.getLsbD_eq_getElem, hi, past, inside]
  have frame : w.extractLsb' 16 40 = page := by
    ext i hi
    have inside : 16 + i < 64 ∧ i < 64 ∧ 16 + i < 56 := by omega
    simp [w, ← BitVec.getLsbD_eq_getElem, hi, inside]
  have number := congrArg BitVec.toNat frame
  rw [BitVec.extractLsb'_toNat, Nat.shiftRight_eq_div_pow] at number
  exact ⟨by simp [w], by simp [w], space, by omega⟩

theorem tlbinvAll_next {s : State} (booted : s.booted = true) : exec .tlbinvAll s = .next (s.dropTlb fun _ => true) := by
  rw [exec_tlbinvAll, execTlbinvAll, regSet_tlbinv booted]
  rfl
theorem tlbinvSpace_next {s : State} (booted : s.booted = true) (sp : BitVec 6) :
    exec (.tlbinvSpace sp) s = .next (s.dropTlb fun e => e.space == sp) := by
  obtain ⟨all, one, space⟩ := tlbinvSpace_word sp
  rw [exec_tlbinvSpace, execTlbinvSpace, regSet_tlbinv booted, tlbinv, all, one, space]
  rfl
theorem tlbinvPage_next {s : State} (booted : s.booted = true) (sp : BitVec 6) (page : BitVec 40) :
    exec (.tlbinvPage sp page) s = .next (s.dropTlb fun e => e.space == sp && e.base == page.toNat * 65536 / 2 ^ e.size) := by
  obtain ⟨all, one, space, base⟩ := tlbinvPage_word sp page
  rw [exec_tlbinvPage, execTlbinvPage, regSet_tlbinv booted, tlbinv, all, one, space, base]
  rfl

/-! A channel's scrub and the repair of its rows (R420, R422). -/

theorem patrolScrub_notes (s : State) (ch : BitVec 8) :
    ∃ t, exec (.patrolScrub ch) s = .next t ∧ (t.chan ch.toNat).scrubbed = s.cycle ∧ t.cx = s.cx := by
  rw [exec_patrolScrub]
  unfold execPatrolScrub
  extract_lets c u
  refine ⟨_, rfl, ?_⟩
  have noted : (u.chan ch.toNat).scrubbed = s.cycle := congrArg ChanCount.scrubbed (chan_setChan s _ _)
  have read (n : Nat) : Erred u ((List.range n).foldl (fun s _ =>
      let (v, s) := s.free
      let l := (s.devBase + v.toNat % 2 ^ 39) / 128
      if windowOf (localOf (128 * l)) == .hbm && s.channelOf (localOf (128 * l)) == ch.toNat then s.lineErrors l else s) u.free.2) := by
    refine (erred_free u).trans (Erred.fold _ (fun t _ => ?_) _ _)
    refine (erred_free t).trans ?_
    dsimp only
    split
    · exact erred_lineErrors _ _
    · exact .refl _
  obtain ⟨_, _, _, _, _, shape, scrubbed⟩ := read (u.free.1.toNat % 65536)
  exact ⟨(scrubbed _).trans noted, (congrArg State.cx shape :)⟩

theorem rowRepair_early {s : State} {ch : BitVec 8} {row : Nat} (few : s.rowErrors ch.toNat row < 16) (last : Bool) :
    exec (.rowRepair ch row last) s = .next s := by
  rw [exec_rowRepair]
  simp [execRowRepair, few]
/-- A row of 16 errors is repaired and counts none. -/
theorem rowRepair_due {s : State} {ch : BitVec 8} {row : Nat} (many : 16 ≤ s.rowErrors ch.toNat row) (last : Bool) :
    ∃ t, exec (.rowRepair ch row last) s = .next t ∧ row ∈ (t.chan ch.toNat).repaired ∧ t.rowErrors ch.toNat row = 0 ∧
      t.mem = s.mem ∧ t.homes.poison = s.homes.poison := by
  let c : ChanCount := { s.chan ch.toNat with
    repaired := row :: (s.chan ch.toNat).repaired, rows := (s.chan ch.toNat).rows.filter fun (r, _) => r != row }
  let t : State := (s.setChan ch.toNat c).log (ch.toNat / 64) 1 ch.toNat 0 0xB4 (BitVec.ofNat 64 row) (if last then 1 else 0) 0
  have chan : t.chan ch.toNat = c := chan_setChan s _ c
  refine ⟨t, ?_, ?_, ?_, rfl, rfl⟩
  · rw [exec_rowRepair]
    simp only [execRowRepair, if_neg (Nat.not_lt.2 many)]
    rfl
  · rw [chan]
    exact List.mem_cons_self
  · unfold rowErrors
    rw [chan, List.length_eq_zero_iff, List.filter_eq_nil_iff]
    intro p hp
    have other := (List.mem_filter.1 hp).2
    simp_all

/-! The choice of a context that has waited (R106). -/

theorem ageOverride_next {s : State} {core c : Nat} (first : (s.core core).lastOverride = false)
    (aged : s.aged (s.occupiedCtxs.filter fun c => c / 4 == core) = some c) :
    exec (.ageOverride core) s = .next (s.setCore core { s.core core with override := some c }) := by
  rw [exec_ageOverride]
  simp [execAgeOverride, first, aged]

/-- An override names the primary of the next selection: a ready context of the core is chosen first. -/
theorem selectCore_override {s : State} {core c : Nat} {rdy : List Ready} (named : (s.core core).override = some c)
    (mine : c / 4 = core) (ready : ∃ r ∈ rdy, r.c = c) :
    ∃ t rest, s.selectCore core rdy = (t, c :: rest) ∧ (t.core core).lastOverride = true ∧ (t.core core).override = none ∧
      rest.length ≤ 1 := by
  obtain ⟨r, hr, hrc⟩ := ready
  unfold selectCore
  extract_lets l k asked old
  have listed : r ∈ l := List.mem_filter.2 ⟨hr, by simp [hrc, mine]⟩
  have any : l.any (fun r => r.c == c) = true := List.any_eq_true.2 ⟨r, listed, by simp [hrc]⟩
  clear_value l
  cases l with
  | nil => cases listed
  | cons first others =>
    have found : ((first :: others).find? fun r => r.c == c).isSome = true := by rwa [List.find?_isSome, ← List.any_eq_true]
    obtain ⟨y, hy⟩ := Option.isSome_iff_exists.1 found
    have named' : y.c = c := by simpa using List.find?_some hy
    have taken : asked = some c := by simp only [asked, k, named, Option.filter_some, any, if_true]
    have chosen : old = some c := by
      simp only [old, taken]
      rfl
    have one (o : Option Nat) : o.toList.length ≤ 1 := by cases o <;> simp
    refine ⟨s.setCore core { s.core core with lastOverride := true, override := none },
      (((first :: others).find? fun r => mergeable r y).map Ready.c).toList, ?_, ?_, ?_, one _⟩
    · simp only [chosen, Option.bind_some, hy, Option.getD_some, named']
      rfl
    · rw [core_setCore]
    · rw [core_setCore]

/-! Results that land, operations that fail, and traps at entry (R93, R331, R332). -/

theorem exposedResultLands_next {s : State} {c due : Nat} {w : Write} (one : (s.ctx c).pending = [⟨due, false, w⟩])
    (hd : due ≤ (s.ctx c).btime) :
    exec (.exposedResultLands c) s = .next (s.setCtx c { (s.ctx c).land w with pending := [] }) := by
  rw [exec_exposedResultLands]
  simp [execExposedResultLands, one, landDue, hd]

theorem deferredFailure_unassigned {s : State} {f : FaultInfo} (bad : unassigned f.cause = true) (c id : Nat) :
    exec (.deferredFailure c id f) s = .next s := by
  rw [exec_deferredFailure]
  simp [execDeferredFailure, bad]
theorem trapEntry_unassigned {s : State} {f : FaultInfo} (bad : unassigned f.cause = true) (c : Nat) :
    exec (.trapEntry c f) s = .next s := by
  rw [exec_trapEntry]
  simp [execTrapEntry, bad]

/-- The one operation in flight of the context in `cx` is found there. -/
theorem findFlight_here {s : State} {g : Flight} (one : s.cx.flights = [g]) :
    s.findFlight g.id = some (.ctx s.here, g, s.cx) := by
  simp [findFlight, flightIn, one]

theorem deferredFailure_defers {s : State} {f : FaultInfo} {g : Flight} (one : s.cx.flights = [g])
    (good : unassigned f.cause = false) :
    ∃ t, exec (.deferredFailure s.here g.id f) s = .next t ∧ t.cx.flights = [] ∧
      (∀ r ∈ g.dests, (r, { f with i3 := g.header.setWidth 64 }) ∈ t.cx.deferred) ∧ t.cx.x = s.cx.x ∧ t.mem = s.mem := by
  have put : s.setCtx s.here (Flight.failed g f s.cx) = { s with cx := Flight.failed g f s.cx } := by simp [setCtx]
  refine ⟨(s.setCtx s.here (Flight.failed g f s.cx)).closeAccess g.id, ?_, ?_, fun r hr => ?_, ?_, ?_⟩
  · rw [exec_deferredFailure]
    simp [execDeferredFailure, endFlight, findFlight_here one, good, putHolder]
  · rw [put]
    simp [closeAccess, mapContexts, Flight.failed, one]
  · rw [put]
    exact List.mem_append_right _ (List.mem_map_of_mem hr)
  · rw [put]
    rfl
  · rw [put]
    rfl

/-! A trap at entry. -/

/-- The context in `cx` after a switch, and what each context is. -/
theorem switch_here (s : State) (c : Nat) : (s.switch c).here = c := by
  unfold switch
  split
  next h => simpa using Eq.symm (by simpa using h)
  next => rfl
theorem switch_cx (s : State) (c : Nat) : (s.switch c).cx = s.ctx c := by
  unfold switch ctx
  split <;> rfl
theorem ctx_here (s : State) : s.ctx s.here = s.cx := by simp [ctx]
theorem ctx_switch (s : State) (d c : Nat) : (s.switch d).ctx c = s.ctx c := by
  by_cases hd : d = s.here
  · simp [switch, hd]
  · by_cases hc : c = d
    · subst hc
      have there := ctx_here (s.switch c)
      rw [switch_here] at there
      rw [there, switch_cx]
    · have moved : s.switch d = { s with here := d, cx := tget {} s.others d, others := tset (tdel s.others d) s.here s.cx } := by
        simp [switch, hd]
      rw [moved]
      by_cases hs : c = s.here
      · subst hs
        simp [ctx, hc]
      · simp [ctx, hc, hs, tget_tset_other _ (Ne.symm hs), tget_tdel_other _ (Ne.symm hc)]

/-- From s to t nothing that a space's entry is read from has changed: memory, the homes, the line caches and the device's
registers. -/
structure SameEntries (s t : State) : Prop where
  mem : t.mem = s.mem
  homes : t.homes = s.homes
  cores : t.cores = s.cores
  dev : t.dev = s.dev

theorem SameEntries.refl (s : State) : SameEntries s s := ⟨rfl, rfl, rfl, rfl⟩
theorem SameEntries.trans {s t u : State} (a : SameEntries s t) (b : SameEntries t u) : SameEntries s u :=
  ⟨b.mem.trans a.mem, b.homes.trans a.homes, b.cores.trans a.cores, b.dev.trans a.dev⟩
theorem SameEntries.trapVec {s t : State} (h : SameEntries s t) (sp : BitVec 6) : t.trapVec sp = s.trapVec sp := by
  obtain ⟨mem, homes, cores, dev⟩ := h
  cases s
  cases t
  dsimp only at mem homes cores dev
  subst mem homes cores dev
  rfl

theorem SameEntries.fold {α : Type} (f : State → α → State) (h : ∀ s a, SameEntries s (f s a)) : ∀ (l : List α) (s : State),
    SameEntries s (l.foldl f s)
  | [], s => .refl s
  | a :: r, s => (h s a).trans (SameEntries.fold f h r (f s a))

theorem sameEntries_setCtx (s : State) (c : Nat) (x : Context) : SameEntries s (s.setCtx c x) := by
  unfold setCtx
  split <;> exact ⟨rfl, rfl, rfl, rfl⟩
theorem sameEntries_setCluster (s : State) (n : Nat) (c : Cluster) : SameEntries s (s.setCluster n c) := ⟨rfl, rfl, rfl, rfl⟩
theorem sameEntries_switch (s : State) (c : Nat) : SameEntries s (s.switch c) := by
  unfold switch
  split <;> exact ⟨rfl, rfl, rfl, rfl⟩
theorem wakeSlice_same (s : State) (cl key : Nat) : SameEntries s (s.wakeSlice cl key) ∧ ∀ c, (s.wakeSlice cl key).ctx c = s.ctx c := by
  unfold wakeSlice
  split
  · exact ⟨⟨rfl, rfl, rfl, rfl⟩, fun _ => rfl⟩
  · exact ⟨.refl s, fun _ => rfl⟩
theorem wakeSlices_same (s : State) (cl : Nat) : SameEntries s (s.wakeSlices cl) ∧ ∀ c, (s.wakeSlices cl).ctx c = s.ctx c := by
  unfold wakeSlices
  generalize List.range 16 = l
  induction l generalizing s with
  | nil => exact ⟨.refl s, fun _ => rfl⟩
  | cons a r ih =>
    have first := wakeSlice_same s cl (128 * a)
    have rest := ih (s.wakeSlice cl (128 * a))
    exact ⟨first.1.trans rest.1, fun c => (rest.2 c).trans (first.2 c)⟩
theorem unpin_same (s : State) (cl key : Nat) : SameEntries s (s.unpin cl key) ∧ ∀ c, (s.unpin cl key).ctx c = s.ctx c := by
  unfold unpin
  extract_lets x t
  have slot : SameEntries s t ∧ ∀ c, t.ctx c = s.ctx c := ⟨⟨rfl, rfl, rfl, rfl⟩, fun _ => rfl⟩
  split
  · have woken := wakeSlice_same t cl key
    exact ⟨slot.1.trans woken.1, fun c => (woken.2 c).trans (slot.2 c)⟩
  · exact slot

/-- A context that waits for nothing: nothing parked, opening or served. -/
def Context.withdrawn (x : Context) : Context :=
  { x with parked := none, push := none, served := none, timedOut := false, fault := none, opening := none, waitSince := none }

/-- What a word without a tile had taken is given back. -/
theorem withdraw_same {s : State} {c : Nat} (parked : (s.ctx c).parked = none) (opening : (s.ctx c).opening = none) :
    SameEntries s (s.withdraw c) ∧ (s.withdraw c).ctx c = Context.withdrawn (s.ctx c) := by
  have unpinned : ∀ o : Option Nat, SameEntries s (match o with | some k => s.unpin (c / 64) k | none => s) ∧
      ∀ d, (match o with | some k => s.unpin (c / 64) k | none => s : State).ctx d = s.ctx d
    | some k => unpin_same s (c / 64) k
    | none => ⟨.refl s, fun _ => rfl⟩
  obtain ⟨same, kept⟩ := unpinned (s.ctx c).served
  unfold withdraw
  extract_lets x cl mine u c0 s1 s2 s3 here y z cz conv
  have idle : y = s2 := by simp only [y, s3, x, parked, opening]
  have same_y : SameEntries s y := by
    rw [idle]
    exact same.trans ⟨rfl, rfl, rfl, rfl⟩
  have kept_y : y.ctx c = s.ctx c := by
    rw [idle]
    exact kept c
  clear_value y
  refine ⟨same_y.trans (SameEntries.trans ?_ (wakeSlices_same _ cl).1), ((wakeSlices_same _ cl).2 c).trans ?_⟩
  · refine SameEntries.trans ?_ (sameEntries_setCluster _ cl _)
    exact sameEntries_setCtx y c _
  · refine (ctx_setCtx y c _).trans ?_
    rw [← kept_y]
    rfl

/-- A trap at entry takes a context in task mode to its vector (R28, R331). -/
theorem trapEntry_traps {s : State} {c : Nat} {f : FaultInfo} (occ : (s.ctx c).occ = .occupied) (good : unassigned f.cause = false)
    (parked : (s.ctx c).parked = none) (opening : (s.ctx c).opening = none) (task : (s.ctx c).mode = .task) :
    ∃ t, exec (.trapEntry c f) s = .next t ∧ (t.ctx c).mode = .supervisor ∧ (t.ctx c).pc = s.trapVec (s.ctx c).id.space ∧
      (t.ctx c).trap.tcause = f.cause.setWidth 64 ∧ (t.ctx c).trap.tinfo0 = f.i0 ∧ (t.ctx c).trap.tinfo1 = f.i1 ∧
      (t.ctx c).trap.tpc = ((s.ctx c).pc).setWidth 64 := by
  obtain ⟨same, idle⟩ := withdraw_same parked opening
  generalize hu : s.withdraw c = u at same idle
  let v : State := { u.switch c with issue := { (u.switch c).issue with pc := (u.switch c).cx.pc, slot := 0 } }
  have next : exec (.trapEntry c f) s = .next ((v.takeTrap (v.atSlot f)).switch u.here) := by
    have served : (u.ctx c).served = none := by rw [idle]; rfl
    rw [exec_trapEntry]
    simp only [execTrapEntry, occ, good, hu, trapAt, served]
    rfl
  have cx : v.cx = Context.withdrawn (s.ctx c) := (switch_cx u c).trans idle
  have here : (v.takeTrap (v.atSlot f)).here = c := (takeTrap_here _ _).trans (switch_here u c)
  have final : ((v.takeTrap (v.atSlot f)).switch u.here).ctx c = (v.takeTrap (v.atSlot f)).cx := by
    rw [ctx_switch, ← ctx_here, here]
  have vec : v.trapVec = s.trapVec := funext (same.trans ((sameEntries_switch u c).trans ⟨rfl, rfl, rfl, rfl⟩)).trapVec
  obtain ⟨cause, i0, i1⟩ : (v.atSlot f).cause = f.cause ∧ (v.atSlot f).i0 = f.i0 ∧ (v.atSlot f).i1 = f.i1 := by
    unfold atSlot
    split <;> exact ⟨rfl, rfl, rfl⟩
  refine ⟨_, next, ?_⟩
  rw [final, takeTrap_mode, takeTrap_pc, takeTrap_tcause, takeTrap_tinfo0, takeTrap_tinfo1, takeTrap_tpc, cause, i0, i1]
  refine ⟨rfl, ?_, rfl, rfl, rfl, ?_⟩
  · have mode : v.cx.mode = .task := by rw [cx]; exact task
    rw [trapTarget, mode, vec, cx]
    rfl
  · have pc : v.issue.pc = (s.ctx c).pc := (congrArg Context.pc cx :)
    rw [pc]

/-- Settles O58: line by line, from what each event does. -/
theorem lineAndContextEvents : Obligations.LineAndContextEvents := by
  unfold Obligations.LineAndContextEvents
  refine ⟨fun core line s own hb wf => ⟨?_, ?_, ?_⟩, fun s booted => ⟨?_, ?_, ?_⟩, fun ch row last s => ?_, ?_, ?_, ?_, ?_, ?_⟩
  · -- a read miss
    intro absent unlocked unheld _ cache room sameT grant tags
    exact lineReadMiss_fills own hb absent unlocked unheld cache room sameT grant tags
  · -- a tracked line leaves
    intro ln held tracked key
    refine ⟨lineInvalidation_clean held tracked, fun m => ⟨?_, ?_, lineEviction_unwanted, fun host only => ⟨?_, ?_⟩⟩⟩
    · exact lineInvalidation_modified wf own hb held tracked key m
    · exact lineEviction_modified wf own hb held tracked key m
    · exact hostSnoop_shares wf own hb held tracked key m host only
    · exact hostSnoop_drops wf own hb held tracked key m host only
  · -- a merge
    exact fun mask data => ⟨fun unlocked => byteMaskMerge_unlocked wf hb unlocked mask data,
      fun locked => byteMaskMerge_locked locked mask data⟩
  · obtain ⟨tlbs, moor, mem⟩ := s.dropTlb_tlbs fun _ => true
    refine ⟨_, tlbinvAll_next booted, fun n => ?_, ?_, mem⟩
    · rw [(tlbs n).1, (tlbs n).2]
      simp
    · rw [moor]
      simp
  · intro sp
    obtain ⟨tlbs, moor, mem⟩ := s.dropTlb_tlbs fun e => e.space == sp
    refine ⟨_, tlbinvSpace_next booted sp, fun n e => ?_, fun e => ?_, mem⟩
    · rw [(tlbs n).1, (tlbs n).2]
      simp
    · rw [moor]
      simp
  · intro sp page
    obtain ⟨tlbs, moor, mem⟩ := s.dropTlb_tlbs fun e => e.space == sp && e.base == page.toNat * 65536 / 2 ^ e.size
    refine ⟨_, tlbinvPage_next booted sp page, fun n e => ?_, fun e => ?_, mem⟩
    · rw [(tlbs n).1, (tlbs n).2]
      simp [imp_iff_not_or]
    · rw [moor]
      simp [imp_iff_not_or]
  · exact ⟨patrolScrub_notes s ch, fun few => rowRepair_early few last, fun many => rowRepair_due many last⟩
  · intro core c s first aged
    refine ⟨ageOverride_next first aged, fun rdy ready => selectCore_override ?_ ?_ ready⟩
    · rw [core_setCore]
    · have listed := List.mem_of_find?_eq_some aged
      simpa using (List.mem_filter.1 listed).2
  · exact fun c due w s one hd => exposedResultLands_next one hd
  · exact fun f s bad => ⟨deferredFailure_unassigned bad, trapEntry_unassigned bad⟩
  · exact fun f g s one good => deferredFailure_defers one good
  · exact fun c f s occ good parked opening task => trapEntry_traps occ good parked opening task

end State
end Sys2Proof.Machine
end

