-- ==== Sys2Proof/Proofs/ScalarLoads.lean ====
section
/-! A scalar load of a line that stands at its home and nowhere else (R243, R247): what its access reads, and the event that
completes it. -/

namespace Sys2Proof.Machine

/-! Bytes within a line. -/

/-- The bytes from o on, as a number. -/
theorem cellsRead_div (m : List Host.Cell) : ∀ (o k a : Nat), cellsRead m a (o + k) / 256 ^ o = cellsRead m (a + o) k
  | 0, k, a => by simp
  | o + 1, k, a => by
    have first := (cellRead m a).isLt
    have split : o + 1 + k = o + k + 1 := by omega
    have rest : ((cellRead m a).toNat + 256 * cellsRead m (a + 1) (o + k)) / 256 = cellsRead m (a + 1) (o + k) := by omega
    rw [split, cellsRead, Nat.pow_succ', ← Nat.div_div_eq_div_mul, rest, cellsRead_div m o k (a + 1)]
    congr 1
    omega
/-- The lowest n bytes, as a number. -/
theorem cellsRead_mod (m : List Host.Cell) : ∀ (n k a : Nat), cellsRead m a (n + k) % 256 ^ n = cellsRead m a n
  | 0, k, a => by simp [cellsRead, Nat.mod_one]
  | n + 1, k, a => by
    have first := (cellRead m a).isLt
    have split : n + 1 + k = n + k + 1 := by omega
    have rest : ((cellRead m a).toNat + 256 * cellsRead m (a + 1) (n + k)) / 256 = cellsRead m (a + 1) (n + k) := by omega
    have low : ((cellRead m a).toNat + 256 * cellsRead m (a + 1) (n + k)) % 256 = (cellRead m a).toNat := by omega
    rw [split, cellsRead, Nat.pow_succ', Nat.mod_mul, rest, low, cellsRead_mod m n k (a + 1), cellsRead]
theorem cellsRead_lt (m : List Host.Cell) (n a : Nat) : cellsRead m a n < 256 ^ n := by
  rw [← cellsRead_mod m n 0 a]
  exact Nat.mod_lt _ (Nat.pow_pos (by decide))
/-- The n bytes at o of k bytes. -/
theorem cellsRead_part (m : List Host.Cell) {o n k : Nat} (fits : o + n ≤ k) (a : Nat) :
    cellsRead m a k / 2 ^ (8 * o) % 2 ^ (8 * n) = cellsRead m (a + o) n := by
  obtain ⟨r, rfl⟩ := Nat.exists_eq_add_of_le fits
  rw [Nat.pow_mul 2 8 o, Nat.pow_mul 2 8 n, Nat.add_assoc]
  exact (congrArg (· % 256 ^ n) (cellsRead_div m o (n + r) a)).trans (cellsRead_mod m n r (a + o))

/-- A number of n bytes extended to 64 bits is its two's complement value, or the number itself. -/
theorem extendTo64_eq (sx : Bool) {n v : Nat} (hn : 0 < n) (hv : v < 2 ^ (8 * n)) :
    extendTo64 sx n v = if sx then BitVec.ofInt 64 ((v : Int).bmod (2 ^ (8 * n))) else BitVec.ofNat 64 v := by
  have half : 2 ^ (8 * n) = 2 * 2 ^ (8 * n - 1) := by
    rw [← Nat.pow_succ']
    congr 1
    omega
  have pos := Nat.two_pow_pos (8 * n - 1)
  unfold extendTo64
  dsimp only
  rw [Nat.mod_eq_of_lt hv, half]
  rw [half] at hv
  generalize 2 ^ (8 * n - 1) = p at hv pos ⊢
  have small : ((v : Int) % (2 * p : Nat)) = v := Int.emod_eq_of_lt (by omega) (by omega)
  have middle : ((2 * p : Nat) + 1 : Int) / 2 = p := by omega
  have signed : (v : Int).bmod (2 * p) = if v < p then (v : Int) else v - (2 * p : Nat) := by
    unfold Int.bmod
    dsimp only
    rw [small, middle]
    split <;> split <;> omega
  rw [signed]
  cases sx with
  | false => rfl
  | true =>
    by_cases low : v < p
    · simp [Nat.div_eq_of_lt low, low]
    · have one : v / p = 1 := Nat.div_eq_of_lt_le (by omega) (by omega)
      simp [one, low]

namespace State

theorem bytes_lt (s : State) (a n : Nat) : s.bytes a n < 2 ^ (8 * n) := by
  rw [Nat.pow_mul]
  exact cellsRead_lt s.mem n a
/-- The bytes of a line at its home are those of memory. -/
theorem lineRaw_bytes (s : State) {a n : Nat} (fits : a % 128 + n ≤ 128) :
    (s.lineRaw (a / 128)).toNat / 2 ^ (8 * (a % 128)) % 2 ^ (8 * n) = s.bytes a n := by
  have whole : (s.lineRaw (a / 128)).toNat = s.bytes (128 * (a / 128)) 128 := by
    unfold lineRaw
    rw [BitVec.toNat_ofNat]
    exact Nat.mod_eq_of_lt (s.bytes_lt _ 128)
  rw [whole]
  unfold bytes
  rw [cellsRead_part s.mem fits, Nat.div_add_mod]

theorem windowOf_hbm {a : Nat} : windowOf a = .hbm ↔ a < 0x8000000000 := by
  unfold windowOf
  constructor
  · intro h
    by_contra big
    rw [if_neg big] at h
    split_ifs at h
  · exact fun h => if_pos h

/-! The access of a quiet line. -/

/-- From s to t only lines have come into caches or left them. -/
def Filled (s t : State) : Prop := ∃ cs hs, t = { s with cores := cs, homes := hs }

/-- The line that fills a core's cache: exclusive from a tracked page, clean from another. -/
def quietFill (s : State) (sp : BitVec 6) (tracked : Bool) (l : Nat) : Line :=
  if tracked then s.freshLine sp l else ⟨l, false, .i, BitVec.allOnes 128, 0, s.lineRaw l, sp, 0⟩

theorem outMask_quietFill (s : State) (sp : BitVec 6) (tracked : Bool) (l : Nat) : outMask (quietFill s sp tracked l) = 0 := by
  cases tracked <;> rfl
theorem data_quietFill (s : State) (sp : BitVec 6) (tracked : Bool) (l : Nat) : (quietFill s sp tracked l).data = s.lineRaw l := by
  cases tracked <;> rfl

section Quiet

variable {s : State} {x : Xlat} (quiet : s.quietLine x)
include quiet

theorem quietLine.grant : (s.grantOf (x.gpa / 128 / 512)).state = .none ∧ s.grantBlocks (x.gpa / 128 / 512) false = false := by
  obtain ⟨_, _, _, _, _, _, grant, _, _⟩ := quiet
  rw [Nat.div_div_eq_div_mul]
  exact grant_none_of_not_blocks grant
theorem quietLine.cacheable : cacheable (localOf (128 * (x.gpa / 128))) = true := by
  obtain ⟨_, window, _⟩ := quiet
  have below := windowOf_hbm.1 window
  have line : windowOf (localOf (128 * (x.gpa / 128))) = .hbm := by
    rw [windowOf_hbm]
    unfold localOf at below ⊢
    omega
  unfold State.cacheable
  rw [line]

theorem quietLine.homeLine (sp : BitVec 6) : s.homeLine sp 0 (x.gpa / 128) = (s, .ok (s.lineRaw (x.gpa / 128))) := by
  obtain ⟨_, _, hb, _, clean, _, _, unheld, _⟩ := quiet
  have plain := s.homePlain_plain sp (x.gpa / 128)
  rw [if_neg (by simpa using clean)] at plain
  unfold State.homeLine
  simp only [recallTo_of_unheld unheld, hb, plain, if_true]

theorem quietLine.fillLine (core : Nat) (sp : BitVec 6) (tracked : Bool) : ∃ t,
    s.fillLine core ⟨sp, 0, tracked⟩ (x.gpa / 128) = (t, .ok (quietFill s sp tracked (x.gpa / 128))) ∧ Filled s t ∧
      t.lineOf core (x.gpa / 128) = some (quietFill s sp tracked (x.gpa / 128)) := by
  have grant := quiet.grant
  have cache := quiet.cacheable
  have home := quiet.homeLine sp
  obtain ⟨_, _, hb, _, clean, _, _, unheld, absent⟩ := quiet
  obtain ⟨absent, room⟩ := absent core
  unfold State.fillLine
  rw [absent]
  cases tracked with
  | true =>
    have miss := readMiss_of_unheld core sp unheld cache hb grant.1
    rw [if_neg (by simpa using clean), makeRoom_of_room s core _ room] at miss
    exact ⟨_, miss, ⟨_, _, rfl⟩, lineOf_putLine_same s core (s.freshLine sp (x.gpa / 128))⟩
  | false =>
    refine ⟨_, ?_, ⟨_, _, rfl⟩, lineOf_putLine_same s core (quietFill s sp false (x.gpa / 128))⟩
    simp only [home, makeRoom_of_room s core _ room]
    rfl

/-- A read of the line under any policy gives memory's bytes, and what it leaves in the core's cache is clean. -/
theorem quietLine.readAt (core : Nat) (sp : BitVec 6) (tracked : Bool) (p : Policy) {n : Nat} (fits : x.gpa % 128 + n ≤ 128) :
    ∃ t, s.readAt core ⟨sp, 0, tracked⟩ p x.gpa n = (t, .done (s.bytes x.gpa n)) ∧ Filled s t ∧
      ∀ ln, t.lineOf core (x.gpa / 128) = some ln → outMask ln = 0 := by
  have free := quiet.grant.2
  have home := quiet.homeLine sp
  have bytes := s.lineRaw_bytes fits
  obtain ⟨t, fill, filled, there⟩ := quiet.fillLine core sp tracked
  obtain ⟨_, _, _, _, _, unlocked, _, _, absent⟩ := quiet
  obtain ⟨absent, few⟩ := absent core
  unfold State.readAt
  cases p with
  | b =>
    refine ⟨s, ?_, ⟨_, _, rfl⟩, fun ln held => by cases absent.symm.trans held⟩
    simp only [unlocked, free, homeBytes, home, Except.map, bytes]
    rfl
  | _ =>
    have room : s.roomHeld core (x.gpa / 128) = false := by simp [roomHeld, few]
    refine ⟨t, ?_, filled, fun ln held => ?_⟩
    · simp only [absent, unlocked, room, free, fill, lineBytes, data_quietFill, bytes, Bool.and_false]
      rfl
    · rw [← Option.some.inj (there.symm.trans held)]
      exact outMask_quietFill s sp tracked _

/-- A load's access of the line. -/
theorem quietLine.performLane (core c id : Nat) (sp : BitVec 6) {op : MemOp} {l : Lane} (gpa : l.gpa = x.gpa) (leaf : l.leaf = x.leaf)
    (load : op.amo = none ∧ op.cas = false) (sameT : op.policy ≠ .b → s.aliased (x.gpa / 65536) (x.leaf.getLsbD 4) = false)
    (fits : x.gpa % 128 + op.size ≤ 128) :
    ∃ t, s.performLane core sp c id op l = (t, .done (s.bytes x.gpa op.size)) ∧ Filled s t ∧
      ∀ ln, t.lineOf core (x.gpa / 128) = some ln → outMask ln = 0 := by
  obtain ⟨t, read, filled, clean⟩ := quiet.readAt core sp (x.leaf.getLsbD 4) op.policy fits
  obtain ⟨own, window, _, key, _⟩ := quiet
  refine ⟨t, ?_, filled, clean⟩
  unfold State.performLane cacheAccess
  rw [gpa, leaf, key, load.1, load.2, own, window]
  by_cases b : op.policy = .b
  · rw [b] at read ⊢
    simp only [read]
    rfl
  · simp only [beq_false_of_ne b, sameT b, read]
    rfl

end Quiet

/-- A line of an `.s` read with nothing to send home is dropped. -/
theorem releaseStreamed_of_clean (s : State) (core c id : Nat) (l : Lane) (header : BitVec 56)
    (clean : ∀ ln, s.lineOf core (l.gpa / 128) = some ln → outMask ln = 0) :
    ∃ cs, s.releaseStreamed core c id l header = { s with cores := cs } := by
  unfold releaseStreamed
  cases held : s.lineOf core (l.gpa / 128) with
  | none => exact ⟨s.cores, rfl⟩
  | some ln =>
    have empty := clean ln held
    have there : s.lineOf core ln.line = some ln := by
      rw [lineOf_line held]
      exact held
    have dropped : (s.dropStream core ln.line .plain).1 = s.dropLine core ln.line := by
      simp only [dropStream, there, empty]
      rfl
    refine ⟨(s.dropLine core ln.line).cores, ?_⟩
    simp only [empty, dropped]
    rfl

/-! The event that performs the access of a load and completes it. -/

/-- The one operation of the context in `cx` ends with its results there. -/
theorem endFlight_here {s : State} {f : Flight} (one : s.cx.flights = [f]) (w : List Write) :
    s.endFlight f.id (.ok w) = ({ s with cx := Flight.ended f w s.cx } : State).closeAccess f.id := by
  have put : s.setCtx s.here (Flight.ended f w s.cx) = { s with cx := Flight.ended f w s.cx } := by simp [setCtx]
  unfold endFlight
  rw [findFlight_here one]
  dsimp only [putHolder]
  rw [put]

/-- The last lane of an operation of which none has failed ends it. -/
theorem laneOver_last {s : State} {f : Flight} {l : Lane} {op : MemOp} (one : s.cx.flights = [f]) (kind : f.kind = .mem [l] op)
    (fine : op.fail = none) (v : Nat) :
    s.laneOver f.id l.i (.ok v) = s.endFlight f.id (.ok (f.result ++ laneWrites f op l.i v)) := by
  unfold laneOver
  rw [findFlight_here one]
  simp only [kind, fine]
  simp

/-- A new operation has no older access to follow where the state before it had none. -/
theorem olderFlight_of_new {s : State} {id l : Nat} {f : Flight} {cx : Context} (i : Issue) (a : List (Nat × Instr)) (k : Nat)
    (alone : s.cx.flights = []) (copies : (s.cluster s.hereCluster).copies = []) (old : s.olderFlight s.here id l = false)
    (one : cx.flights = [f]) (new : f.id = id) :
    ({ s with cx := cx, issue := i, agenda := a, tick := k } : State).olderFlight s.here id l = false := by
  have held : ({ s with cx := cx, issue := i, agenda := a, tick := k } : State).flightsOf s.here = f :: s.flightsOf s.here := by
    simp [flightsOf, ctx, one, alone]
  unfold olderFlight at old ⊢
  rw [held]
  simp only [Bool.or_eq_false_iff] at old ⊢
  obtain ⟨⟨flights, stores⟩, _⟩ := old
  refine ⟨⟨?_, stores⟩, List.any_eq_false.2 fun j hj => ?_⟩
  · simpa [new] using flights
  · have listed : j ∈ (s.cluster s.hereCluster).copies := hj
    rw [copies] at listed
    cases listed

/-- With nothing in the core's queue no write has to be performed first. -/
theorem settle_of_empty {s : State} {core : Nat} (empty : (s.core core).queue = []) (l id : Nat) : s.settle core l id = (s, true) := by
  simp [settle, settleLine, empty]

/-- A load of one access starts as the one operation in flight. -/
theorem startMem_one (s : State) (dests : List Reg) (l : Lane) (op : MemOp) (sets : BitVec 5) : ∃ os bs i a b hd,
    s.startMem dests [l] op sets false false =
      { s with
        cx := { s.cx with
          opens := os, barriers := bs,
          flights := s.cx.flights ++ [⟨s.tick, .mem [l] { op with after := [], coreOnly := b }, dests, [], hd⟩] },
        issue := i, agenda := a, tick := s.tick + 1 } :=
  ⟨_, _, _, _, _, _, rfl⟩

/-- The event of a load's one access, when nothing stands before it and the access gives a value: the load is over. -/
theorem memStep_of_done {s t : State} {f : Flight} {l : Lane} {op : MemOp} {c v : Nat} {sp : BitVec 6} (unsent : l.sent = false)
    (after : op.after = []) (load : op.amo = none ∧ op.cas = false) (empty : (s.core (c / 4)).queue = [])
    (old : s.free.2.olderFlight c f.id (l.gpa / 128) = false)
    (performed : s.free.2.performLane (c / 4) sp c f.id op l = (t, .done v)) :
    s.memStep c sp f [l] op = ((if op.policy == .s then t.releaseStreamed (c / 4) c f.id l f.header else t).laneOver f.id l.i
      (.ok v)).later 0 (.interlockedCompletion c f.id) := by
  have settled := settle_of_empty (s := s.free.2) (core := c / 4) empty (l.gpa / 128) f.id
  have picked : pickLane [l] s.free.1 = some l := by simp [pickLane, unsent, Nat.mod_one]
  have follows : s.released op.after op.coreOnly = true := by simp [released, after]
  have drawn : s.free = (s.free.1, s.free.2) := rfl
  unfold memStep
  rw [drawn]
  simp only [List.all_cons, List.all_nil, unsent, follows, picked, old, settled, performed, load.1, load.2]
  simp [restOfLine]

/-- A load's one access of a quiet line gives the bytes of memory, and ends the load with them. -/
theorem memStep_quiet {s : State} {x : Xlat} {f : Flight} {l : Lane} {op : MemOp} (quiet : s.quietLine x)
    (one : s.cx.flights = [f]) (kind : f.kind = .mem [l] op) (unsent : l.sent = false) (after : op.after = [])
    (fine : op.fail = none) (load : op.amo = none ∧ op.cas = false) (gpa : l.gpa = x.gpa) (leaf : l.leaf = x.leaf)
    (sameT : op.policy ≠ .b → s.aliased (x.gpa / 65536) (x.leaf.getLsbD 4) = false) (fits : x.gpa % 128 + op.size ≤ 128)
    (empty : (s.core s.hereCore).queue = []) (old : s.free.2.olderFlight s.here f.id (x.gpa / 128) = false) (sp : BitVec 6) :
    ∃ t, Filled { s with tick := s.tick + 1 } t ∧ s.memStep s.here sp f [l] op =
      (({ t with cx := Flight.ended f (f.result ++ laneWrites f op l.i (s.bytes x.gpa op.size)) s.cx } : State).closeAccess f.id).later 0
        (.interlockedCompletion s.here f.id) := by
  have quiet' : s.free.2.quietLine x := quiet
  obtain ⟨t, performed, filled, clean⟩ := quiet'.performLane (s.here / 4) s.here f.id sp gpa leaf load sameT fits
  rw [← gpa] at old clean
  have streamed : Filled s.free.2 (if op.policy == .s then t.releaseStreamed (s.here / 4) s.here f.id l f.header else t) := by
    obtain ⟨cs, hs, rfl⟩ := filled
    split
    · obtain ⟨ds, dropped⟩ := releaseStreamed_of_clean _ (s.here / 4) s.here f.id l f.header clean
      exact ⟨ds, hs, dropped⟩
    · exact ⟨cs, hs, rfl⟩
  rw [memStep_of_done unsent after load empty old performed]
  generalize (if op.policy == .s then t.releaseStreamed (s.here / 4) s.here f.id l f.header else t) = r at streamed ⊢
  have cx : r.cx = s.cx := by
    obtain ⟨_, _, rfl⟩ := streamed
    rfl
  have one' : r.cx.flights = [f] := by rw [cx, one]
  refine ⟨r, streamed, ?_⟩
  rw [laneOver_last one' kind fine, endFlight_here one', cx]
  rfl

/-! The load. -/

/-- An access that passes its check meets no copy under the other T value when a line cache is asked (R348). -/
theorem not_aliased_of_laneCheck {s u : State} {va : Dbl} {n : Nat} {kind : Access} {cached window : Bool} {x : Xlat}
    (pass : s.laneCheck va n kind cached window = (u, .ok x)) (hbm : windowOf (localOf x.gpa) = .hbm) (hc : cached = true) :
    u.aliased (x.gpa / 65536) (x.leaf.getLsbD 4) = false := by
  unfold laneCheck at pass
  dsimp only at pass
  split at pass
  · cases pass
  · split at pass
    · cases pass
    · split at pass
      · cases pass
      · split at pass
        · cases pass
        · split at pass
          · -- the control window, which is not HBM
            rename_i control
            split at pass
            · cases pass
              rw [hbm] at control
              cases control
            · cases pass
          · split at pass
            · cases pass
            · rename_i clear
              cases pass
              simpa [hc, hbm] using clear

/-- The one operation of a context ends with a value for xd. -/
theorem ended_load {c : Context} {f : Flight} {d : BitVec 5} (one : c.flights = [f]) (hd : d ≠ 0) (v : Dbl) :
    (Flight.ended f [.x d v] c).flights = [] ∧ (Flight.ended f [.x d v] c).getX d = v := by
  have landed : Flight.ended f [.x d v] c = { c with flights := c.flights.filter (·.id != f.id), x := c.x.set d.toNat v } :=
    land_x _ hd v
  rw [landed]
  exact ⟨by simp [one], by simp [Context.getX, show ¬d = 0#5 from hd]⟩

/-- The event that completes a load of a quiet line: xd takes the bytes of memory, extended, and no byte changes. -/
theorem load_completes {s u : State} {d : BitVec 5} {va : Dbl} {n : Nat} {sx : Bool} {l : Policy} {x : Xlat}
    (pass : s.laneCheck va n .read (l != .b) true = (u, .ok x)) (quiet : u.quietLine x) (fits : x.gpa % 128 + n ≤ 128) (hn : 0 < n)
    (alone : u.cx.flights = []) (empty : (u.core u.hereCore).queue = []) (copies : (u.cluster u.hereCluster).copies = [])
    (old : u.olderFlight u.here u.tick (x.gpa / 128) = false) (hd : d ≠ 0) :
    ∃ w, exec (.interlockedCompletion u.here u.tick) (s.loadWord d va n sx l false) = .next w ∧ w.cx.flights = [] ∧ w.sameBytes u ∧
      w.rx d = if sx then BitVec.ofInt 64 ((u.bytes x.gpa n : Int).bmod (2 ^ (8 * n))) else BitVec.ofNat 64 (u.bytes x.gpa n) := by
  obtain ⟨_, hbm, _⟩ := id quiet
  have sameT : l ≠ .b → u.aliased (x.gpa / 65536) (x.leaf.getLsbD 4) = false := fun b =>
    not_aliased_of_laneCheck pass hbm (by simpa using b)
  let lane : Lane := { i := 0, va := va, gpa := x.gpa, leaf := x.leaf }
  have starts : s.loadWord d va n sx l false = u.startMem [.x d] [lane] { size := n, sext := sx, policy := l } 1 false false := by
    unfold loadWord
    rw [pass]
    simp only [hbm]
    rfl
  obtain ⟨os, bs, i, a, b, header, shape⟩ := u.startMem_one [.x d] lane { size := n, sext := sx, policy := l } 1
  let f : Flight := ⟨u.tick, .mem [lane] { size := n, sext := sx, policy := l, after := [], coreOnly := b }, [.x d], [], header⟩
  let v : State := { u with
    cx := { u.cx with opens := os, barriers := bs, flights := [f] }, issue := i, agenda := a, tick := u.tick + 1 }
  have started : s.loadWord d va n sx l false = v := by rw [starts, shape, alone]; rfl
  have old' : v.free.2.olderFlight v.here f.id (x.gpa / 128) = false :=
    olderFlight_of_new (s := u) (cx := v.cx) i a (u.tick + 2) alone copies old rfl rfl
  obtain ⟨t, filled, done⟩ := memStep_quiet (s := v) (f := f) (l := lane) quiet rfl rfl rfl rfl rfl ⟨rfl, rfl⟩ rfl rfl sameT fits empty
    old' v.cx.id.space
  have next : exec (.interlockedCompletion u.here u.tick) v = .next (v.memStep v.here v.cx.id.space f [lane]
      { size := n, sext := sx, policy := l, after := [], coreOnly := b }) := by
    rw [exec_interlockedCompletion]
    unfold execInterlockedCompletion
    rw [findFlight_here (s := v) (g := f) rfl]
  obtain ⟨flights, value⟩ := ended_load (c := v.cx) (f := f) rfl hd (extendTo64 sx n (u.bytes x.gpa n))
  obtain ⟨cs, hs, rfl⟩ := filled
  rw [started]
  refine ⟨_, next, ?_⟩
  rw [done, ← extendTo64_eq sx hn (u.bytes_lt x.gpa n)]
  exact ⟨flights, fun _ => rfl, value⟩

/-- Settles O46: the load starts an operation whose one access the event performs. -/
theorem loadsReadMemory : Obligations.LoadsReadMemory := by
  unfold Obligations.LoadsReadMemory
  intro p d a z sx l f s u x n va holds pass quiet aligned alone empty copies old hd
  have sizes : n = 1 ∨ n = 2 ∨ n = 4 ∨ n = 8 := by
    have z4 := z.isLt
    have cases4 : z.toNat = 0 ∨ z.toNat = 1 ∨ z.toNat = 2 ∨ z.toNat = 3 := by omega
    obtain h | h | h | h := cases4 <;> simp [n, h]
  have fits : x.gpa % 128 + n ≤ 128 := by
    obtain h | h | h | h := sizes <;> rw [h] at aligned ⊢ <;> omega
  have hn : 0 < n := by omega
  obtain ⟨w, next, rest⟩ := load_completes (d := d) (sx := sx) pass quiet fits hn alone empty copies old hd
  refine ⟨s.loadWord d va n sx l false, w, ?_, next, rest⟩
  rw [exec_ld, execLd, perform_true s p _ holds]
  rfl

end State
end Sys2Proof.Machine
end

