-- ==== Sys2Proof/Proofs/VectorArithmetic.lean ====
section
/-! Vector arithmetic (R140 to R142, R148): on integer lanes the exact integer wrapped or clamped, on float lanes the exact value
rounded once. -/

namespace Sys2Proof.Machine

/-! The two readings of a two-source word. -/

theorem vbin_int {t : ElemType} (ht : t.isFloat = false) (lat : Nat) (k : BitVec 4) (d a b : BitVec 6) (fi : Int → Int → Int)
    (ff : Val → Val → Val) (s : State) : vbin lat k d a b t fi ff s = .next (s.wv lat d (s.rk k) (mkVReg fun i =>
      intLane t (fi (laneInt t (lane (s.rv a) i)) (laneInt t (lane (s.rv b) i))))) := by
  simp [vbin, vword, ht]

theorem vbin_float {t : ElemType} (ht : t.isFloat = true) (lat : Nat) (k : BitVec 4) (d a b : BitVec 6) (fi : Int → Int → Int)
    (ff : Val → Val → Val) (s : State) : vbin lat k d a b t fi ff s = .next (s.wv lat d (s.rk k) (mkVReg fun i =>
      floatLane t .rne (ff (laneVal t (lane (s.rv a) i)) (laneVal t (lane (s.rv b) i))))) := by
  simp [vbin, vword, ht]

/-! Integers that fit a type. -/

/-- The saturating range of R46 as a clamp between the type's bounds. -/
theorem sat_eq_clamp (w : Nat) (signed : Bool) (i : Int) : sat w signed i =
    max (if signed then -(2 ^ (w - 1)) else 0) (min (if signed then 2 ^ (w - 1) - 1 else 2 ^ w - 1) i) := by
  cases signed
  all_goals rfl

theorem elemType_width_pos (t : ElemType) : 0 < ElemType_width t := by
  cases t <;> decide

/-- Two integers of one type are less than 2^width apart. -/
theorem natAbs_laneInt_sub_lt (t : ElemType) (c e : BitVec 32) :
    (laneInt t c - laneInt t e).natAbs < 2 ^ ElemType_width t := by
  have double : 2 ^ ElemType_width t = 2 * 2 ^ (ElemType_width t - 1) := by
    rw [← Nat.pow_succ', Nat.succ_eq_add_one, Nat.sub_add_cancel (elemType_width_pos t)]
  unfold laneInt
  dsimp only
  generalize c.setWidth (ElemType_width t) = x
  generalize e.setWidth (ElemType_width t) = y
  cases t.isSigned with
  | true =>
    have := x.toInt_lt; have := x.le_toInt; have := y.toInt_lt; have := y.le_toInt
    norm_cast at *
    simp only [if_true]
    omega
  | false =>
    have := x.isLt; have := y.isLt
    simp only [Bool.false_eq_true, if_false]
    omega

theorem unsignedOf_spec (t : ElemType) : (unsignedOf t).isSigned = false ∧ ElemType_width (unsignedOf t) = ElemType_width t := by
  cases t
  all_goals exact ⟨rfl, rfl⟩

/-- A natural number that fits an unsigned type is its container. -/
theorem intLane_natCast {t : ElemType} (ht : t.isSigned = false) {n : Nat} (h : n < 2 ^ ElemType_width t) :
    intLane t n = BitVec.ofNat 32 n := by
  simp only [intLane, ht, Bool.false_eq_true, if_false]
  rw [BitVec.ofInt_natCast, ← BitVec.toNat_inj, BitVec.toNat_setWidth, BitVec.toNat_ofNat, BitVec.toNat_ofNat, Nat.mod_eq_of_lt h]

/-- The distance of two lanes, written as the unsigned type (R140). -/
theorem intLane_unsignedOf_distance (t : ElemType) (c e : BitVec 32) :
    intLane (unsignedOf t) (laneInt t c - laneInt t e).natAbs = BitVec.ofNat 32 (laneInt t c - laneInt t e).natAbs := by
  obtain ⟨unsigned, width⟩ := unsignedOf_spec t
  exact intLane_natCast unsigned (width ▸ natAbs_laneInt_sub_lt t c e)

/-! Counting bits. -/

theorem popN_eq_length_filter (v : Nat) : ∀ n, popN v n = ((List.range n).filter v.testBit).length
  | 0 => rfl
  | n + 1 => by
    rw [List.range_succ, List.filter_append, List.length_append, popN, popN_eq_length_filter v n, Nat.add_comm]
    cases h : v.testBit n with
    | true => simp [h]
    | false => simp [h]

theorem clzN_le (v : Nat) : ∀ n, clzN v n ≤ n
  | 0 => Nat.le_refl 0
  | n + 1 => by
    have := clzN_le v n
    rw [clzN]
    split
    all_goals omega

/-- The counted bits are zeros. -/
theorem testBit_of_lt_clzN (v : Nat) : ∀ {n m : Nat}, m < clzN v n → v.testBit (n - 1 - m) = false
  | n + 1, m, h => by
    rw [clzN] at h
    split at h
    next => exact absurd h (Nat.not_lt_zero m)
    next top =>
      cases m with
      | zero => exact Bool.not_eq_true _ ▸ top
      | succ m => exact (show n + 1 - 1 - (m + 1) = n - 1 - m by omega) ▸ testBit_of_lt_clzN v (Nat.lt_of_succ_lt_succ h)

/-- The bit after the counted ones is a one. -/
theorem testBit_clzN (v : Nat) : ∀ {n : Nat}, clzN v n < n → v.testBit (n - 1 - clzN v n) = true
  | n + 1, h => by
    rw [clzN] at h ⊢
    split
    next top => exact top
    next top =>
      rw [if_neg top] at h
      exact (show n + 1 - 1 - (clzN v n + 1) = n - 1 - clzN v n by omega) ▸ testBit_clzN v (Nat.lt_of_succ_lt_succ h)

/-- Settles O31: each word is `vbin` or `vun` on integers, or counts bits. -/
theorem vectorIntegers : Obligations.VectorIntegers := by
  unfold Obligations.VectorIntegers
  intro k d a b t s ht
  have hf := isFloat_of_isInt ht
  simp only [exec_vadd, exec_vsub, exec_vmul, exec_vmin, exec_vmax, exec_vabs, exec_vneg, exec_vadds, exec_vsubs, exec_vmulh,
    exec_vabd, exec_vpopc, exec_vclz, execVadd, execVsub, execVmul, execVmin, execVmax, execVabs, execVneg, execVadds, execVsubs,
    execVmulh, execVabd, execVpopc, execVclz, vun, vword, vbin_int hf, hf, Bool.false_eq_true, if_false, sat_eq_clamp,
    intLane_unsignedOf_distance, popN_eq_length_filter]
  refine ⟨trivial, trivial, trivial, trivial, trivial, trivial, trivial, trivial, trivial, ?_, trivial, rfl, ?_⟩
  · have high : ∀ z : Int, z.fdiv (2 ^ ElemType_width t) = z / 2 ^ ElemType_width t :=
      fun z => Int.fdiv_eq_ediv_of_nonneg z (by positivity)
    simp only [high]
  · exact ⟨fun i => clzN (lane (s.rv a) i).toNat (ElemType_width t), rfl, fun i _ =>
      ⟨clzN_le _ _, fun _ => testBit_of_lt_clzN _, testBit_clzN _⟩⟩

/-- Settles O32: each word is `vbin` or `vun` on values, or is given by its value. -/
theorem vectorFloats : Obligations.VectorFloats := by
  unfold Obligations.VectorFloats
  intro k d a b t s ht
  simp only [exec_vadd, exec_vsub, exec_vmul, exec_vfma, exec_vfms, exec_vmin, exec_vmax, exec_vabs, exec_vneg, exec_vabd,
    exec_vrnd, execVadd, execVsub, execVmul, execVfma, execVfms, execVmin, execVmax, execVabs, execVneg, execVabd, execVrnd, vun,
    vword, vbin_float ht, ht, if_true]
  exact ⟨trivial, trivial, trivial, trivial, trivial, trivial, trivial, trivial, trivial, trivial, fun _ => trivial⟩

end Sys2Proof.Machine
end

