-- ==== Sys2Proof/Proofs/VectorBitWords.lean ====
section
/-! Shifts, logic, moves, compares and mask words (R142 to R146, R153, R155): containers and masks bit by bit. -/

namespace Sys2Proof.Machine

/-! The shifts of R142 as integers. -/

/-- Past the width, a right shift with sign fill leaves the sign only. -/
theorem sshiftRight_min_width {w : Nat} (x : BitVec w) (n : Nat) : x.sshiftRight (min n w) = x.sshiftRight n := by
  by_cases h : n ≤ w
  · rw [Nat.min_eq_left h]
  · ext i hi
    rw [Nat.min_eq_right (by omega), BitVec.getElem_sshiftRight, BitVec.getElem_sshiftRight, dif_neg (by omega), dif_neg (by omega)]

theorem shiftLane_left (t : ElemType) (c : BitVec 32) (n : Nat) : shiftLane t 0 c n = intLane t ((c.toNat * 2 ^ n : Nat) : Int) := by
  have shifted : (if n < ElemType_width t then c.setWidth (ElemType_width t) <<< n else 0) =
      BitVec.ofInt (ElemType_width t) ((c.toNat * 2 ^ n : Nat) : Int) := by
    have drop : (if n < ElemType_width t then c.setWidth (ElemType_width t) <<< n else 0) = c.setWidth (ElemType_width t) <<< n :=
      ite_eq_left_iff.2 fun h => (BitVec.shiftLeft_eq_zero (Nat.le_of_not_lt h)).symm
    rw [drop, BitVec.ofInt_natCast, ← BitVec.toNat_inj, BitVec.toNat_shiftLeft, BitVec.toNat_setWidth, BitVec.toNat_ofNat,
      Nat.shiftLeft_eq, Nat.mod_mul_mod]
  simp only [shiftLane, intLane, shifted]

theorem shiftLane_right (t : ElemType) (c : BitVec 32) (n : Nat) :
    shiftLane t 1 c n = intLane t ((c.toNat % 2 ^ ElemType_width t / 2 ^ n : Nat) : Int) := by
  have shifted : (if n < ElemType_width t then c.setWidth (ElemType_width t) >>> n else 0) =
      BitVec.ofInt (ElemType_width t) ((c.toNat % 2 ^ ElemType_width t / 2 ^ n : Nat) : Int) := by
    have drop : (if n < ElemType_width t then c.setWidth (ElemType_width t) >>> n else 0) = c.setWidth (ElemType_width t) >>> n :=
      ite_eq_left_iff.2 fun h => (BitVec.ushiftRight_eq_zero (Nat.le_of_not_lt h)).symm
    have small : c.toNat % 2 ^ ElemType_width t / 2 ^ n < 2 ^ ElemType_width t :=
      Nat.lt_of_le_of_lt (Nat.div_le_self _ _) (Nat.mod_lt _ (Nat.two_pow_pos _))
    rw [drop, BitVec.ofInt_natCast, ← BitVec.toNat_inj, BitVec.toNat_ushiftRight, BitVec.toNat_setWidth, BitVec.toNat_ofNat,
      Nat.shiftRight_eq_div_pow, Nat.mod_eq_of_lt small]
  simp only [shiftLane, intLane, shifted]

theorem shiftLane_arith (t : ElemType) (c : BitVec 32) (n : Nat) :
    shiftLane t 2 c n = intLane t ((c.toNat : Int).bmod (2 ^ ElemType_width t) / 2 ^ n) := by
  have shifted : (c.setWidth (ElemType_width t)).sshiftRight (min n (ElemType_width t)) =
      BitVec.ofInt (ElemType_width t) ((c.toNat : Int).bmod (2 ^ ElemType_width t) / 2 ^ n) := by
    rw [sshiftRight_min_width, BitVec.sshiftRight, Int.shiftRight_eq_div_pow, BitVec.toInt_setWidth]
    norm_cast
  simp only [shiftLane, intLane, shifted]

/-! The immediates of vector words. -/

theorem immAmount_eq (i : BitVec 6) (l : Option Word) : immAmount i l = immNat i l := by
  cases l
  all_goals rfl

theorem immLane_eq (i : BitVec 6) (l : Option Word) : immLane i l = immInt i l := by
  cases l
  all_goals rfl

theorem one_shiftLeft_lane (n : Nat) : 1#32 <<< n = BitVec.ofNat 32 (2 ^ n) := by
  rw [← BitVec.toNat_inj, BitVec.toNat_shiftLeft, BitVec.toNat_ofNat, Nat.shiftLeft_eq, BitVec.toNat_ofNat, Nat.one_mod, Nat.one_mul]

/-- Settles O33: the shifts by their integers, the other words as they are. -/
theorem vectorBits : Obligations.VectorBits := by
  unfold Obligations.VectorBits
  intro k d a b t s
  simp only [exec_vshl, exec_vshr, exec_vsar, exec_vshli, exec_vshri, exec_vsari, exec_viota, exec_vand, exec_vor, exec_vxor,
    exec_vandn, exec_vmov, exec_vbset, exec_vimm, exec_vsel, execVshl, execVshr, execVsar, execVshli, execVshri, execVsari,
    execViota, execVand, execVor, execVxor, execVandn, execVmov, execVbset, execVimm, execVsel, vbit, vun, vword, shiftLane_left,
    shiftLane_right, shiftLane_arith, immAmount_eq, immLane_eq, one_shiftLeft_lane, id, immContainer]
  exact ⟨fun _ => ⟨trivial, trivial, trivial, fun _ _ => ⟨trivial, trivial, trivial, trivial⟩⟩, trivial, trivial, trivial, trivial,
    trivial, trivial, fun _ _ => trivial, fun _ _ => trivial, trivial⟩

/-! Compares and masks. -/

/-- A compare's mask holds the result of each active lane (R137, R144). -/
theorem vcmp_mask (k e : BitVec 4) (a b : BitVec 6) (t : ElemType) (fi : Int → Int → Bool) (ff : Val → Val → Bool) (s : State) :
    ∃ m, vcmp k e a b t fi ff s = .next (s.wk 2 e m) ∧ ∀ i < 64, m.getLsbD i = ((s.rk k).getLsbD i &&
      if t.isFloat then ff (laneVal t (lane (s.rv a) i)) (laneVal t (lane (s.rv b) i))
      else fi (laneInt t (lane (s.rv a) i)) (laneInt t (lane (s.rv b) i))) :=
  ⟨_, rfl, fun i hi => by rw [BitVec.getLsbD_and, mkMask_getLsbD _ _ hi]⟩

theorem brevN_lt : ∀ v n, brevN v n < 2 ^ n
  | _, 0 => Nat.one_pos
  | v, n + 1 => by
    have low := brevN_lt (v / 2) n
    have top : v % 2 * 2 ^ n ≤ 1 * 2 ^ n := Nat.mul_le_mul_right _ (by omega)
    rw [brevN, Nat.pow_succ]
    omega

theorem testBit_brevN : ∀ (v : Nat) {n i : Nat}, i < n → (brevN v n).testBit (n - 1 - i) = v.testBit i
  | v, n + 1, 0, _ => by
    rw [brevN, Nat.add_comm, Nat.mul_comm, Nat.testBit_two_pow_mul_add _ (brevN_lt _ _), if_neg (by omega)]
    simp
  | v, n + 1, i + 1, h => by
    rw [brevN, Nat.add_comm, Nat.mul_comm, Nat.testBit_two_pow_mul_add _ (brevN_lt _ _), if_pos (by omega), Nat.testBit_add_one,
      ← testBit_brevN (v / 2) (Nat.lt_of_succ_lt_succ h)]
    congr 1
    omega

/-- Leading zeros of the reversed bits lead to the lowest one. -/
theorem clzN_brevN (v n : Nat) : clzN (brevN v n) n = ((List.range n).find? v.testBit).getD n := by
  have zero : ∀ j < clzN (brevN v n) n, v.testBit j = false := fun j hj => by
    rw [← testBit_brevN v (Nat.lt_of_lt_of_le hj (clzN_le _ _))]
    exact testBit_of_lt_clzN _ hj
  have one : clzN (brevN v n) n < n → v.testBit (clzN (brevN v n) n) = true := fun h => by
    rw [← testBit_brevN v h]
    exact testBit_clzN _ h
  have bound := clzN_le (brevN v n) n
  cases found : (List.range n).find? v.testBit with
  | none =>
    rw [List.find?_range_eq_none] at found
    rw [Option.getD_none]
    by_contra ne
    have lt : clzN (brevN v n) n < n := by omega
    simpa [one lt] using found _ lt
  | some i =>
    obtain ⟨set, listed, clear⟩ := List.find?_range_eq_some.1 found
    have lt := List.mem_range.1 listed
    rw [Option.getD_some]
    rcases Nat.lt_trichotomy (clzN (brevN v n) n) i with h | h | h
    · simpa [one (by omega)] using clear _ h
    · exact h
    · simp [zero i h] at set

theorem popN_toNat {w : Nat} (m : BitVec w) : popN m.toNat w = ((List.range w).filter m.getLsbD).length :=
  popN_eq_length_filter m.toNat w

theorem firstBit_eq (m : BitVec 64) : firstBit m = ((List.range 64).find? m.getLsbD).getD 64 := clzN_brevN m.toNat 64

/-- Settles O34: each compare is a `vcmp`, and the counts are those of the mask's number. -/
theorem vectorMasks : Obligations.VectorMasks := by
  unfold Obligations.VectorMasks
  constructor
  · intro k e a b t s _
    have differs (x y : Int) : (x != y) = decide (x ≠ y) := decide_not.symm
    simp only [differs, exec_vceq, exec_vcne, exec_vclt, exec_vcle, execVceq, execVcne, execVclt, execVcle]
    exact ⟨vcmp_mask k e a b t _ _ s, vcmp_mask k e a b t _ _ s, vcmp_mask k e a b t _ _ s, vcmp_mask k e a b t _ _ s⟩
  · intro e a b d s
    simp only [exec_vkand, exec_vkor, exec_vkxor, exec_vkandn, exec_vkpop, exec_vkfirst, execVkand, execVkor, execVkxor, execVkandn,
      execVkpop, execVkfirst, firstBit_eq, popN_toNat]
    exact ⟨trivial, trivial, trivial, trivial, trivial, trivial⟩

end Sys2Proof.Machine
end

