-- ==== Sys2Proof/Proofs/VectorConversions.lean ====
section
/-! Conversions and functions of lanes (R147, R149, R54 to R59). -/

namespace Sys2Proof.Machine

/-! The lanes of a conversion to d8: the i-th active lane takes the i-th code. -/

theorem toD8List_length (sigma : Int) : ∀ (l : List Val) (g : BitVec 64), (toD8List sigma l g).1.length = l.length
  | [], _ => rfl
  | v :: r, g => congrArg (· + 1) (toD8List_length sigma r (toD8 v sigma g).2)

/-- Among distinct lanes, each finds the container at its own place. -/
theorem laneOf_zip : ∀ (is : List Nat) (cs : List (BitVec 32)) (n : Nat) (h : n < is.length), is.Nodup →
    laneOf (is.zip cs) is[n] = cs.getD n 0
  | _ :: _, [], _, _, _ => rfl
  | i :: is, c :: cs, 0, _, _ => by simp [laneOf]
  | i :: is, c :: cs, n + 1, h, distinct => by
    obtain ⟨fresh, rest⟩ := List.nodup_cons.1 distinct
    have hn : n < is.length := Nat.lt_of_succ_lt_succ h
    have other : i ≠ is[n] := fun e => fresh (e ▸ List.getElem_mem hn)
    have tail := laneOf_zip is cs n hn rest
    simpa [laneOf, other] using tail

/-- The active lanes, in ascending order. -/
def activeLanes (m : BitVec 64) : List Nat := (List.range 64).filter m.getLsbD

theorem activeLanes_nodup (m : BitVec 64) : (activeLanes m).Nodup := List.nodup_range.filter _

theorem lt_of_mem_activeLanes {m : BitVec 64} {i : Nat} (h : i ∈ activeLanes m) : i < 64 :=
  List.mem_range.1 (List.mem_filter.1 h).1

theorem activeVals_fst (t : ElemType) (v : VReg) (m : BitVec 64) : (activeVals t v m).map Prod.fst = activeLanes m := by
  rw [activeVals, List.map_map]
  exact List.map_id _

theorem activeVals_snd (t : ElemType) (v : VReg) (m : BitVec 64) :
    (activeVals t v m).map Prod.snd = (activeLanes m).map fun i => laneVal t (lane v i) := by
  rw [activeVals, List.map_map]
  rfl

/-- The register that a conversion to d8 writes has each code, with the group's σ, in the lane that it came from. -/
theorem lane_d8Lanes (m : BitVec 64) (sigma : Int) {codes : List (BitVec 8)} (len : codes.length = (activeLanes m).length)
    (n : Nat) (h : n < (activeLanes m).length) :
    lane (mkVReg (laneOf ((activeLanes m).zip (codes.map fun c => d8Lane c sigma)))) (activeLanes m)[n] =
      d8Lane (codes.getD n 0) sigma := by
  have hn : n < codes.length := len ▸ h
  rw [lane_mkVReg _ _ (lt_of_mem_activeLanes (List.getElem_mem h)), laneOf_zip _ _ n h (activeLanes_nodup m)]
  simp [hn]

/-- Settles O36: `cvtLane` to a type other than d8, one scale group to d8. -/
theorem vectorConversions : Obligations.VectorConversions := by
  unfold Obligations.VectorConversions
  intro k d a m src t s
  constructor
  · intro ht
    simp only [exec_vcvt, execVcvt, beq_iff_eq, ht, if_false, vun, vword, cvtLane, convLane]
  · rintro rfl
    dsimp only
    refine ⟨_, ?_, lane_d8Lanes (s.rk k) _ ((toD8List_length _ _ _).trans (List.length_map _))⟩
    simp only [exec_vcvt, execVcvt, activeVals_fst, activeVals_snd]
    rfl

/-! The functions of R149. -/

/-- A reciprocal is the fraction turned over, its sign kept. -/
theorem bfRcp_fin {n : Int} (hn : n ≠ 0) (e : Nat) :
    bfRcp (.fin (decide (n < 0)) ⟨n, e⟩) = rndBits fbBf .rne (.fin (decide (n < 0)) ⟨n.sign * e, n.natAbs⟩) := by
  rcases Int.lt_or_gt_of_ne hn with neg | pos
  · simp [bfRcp, Frac.isZero, hn, neg, Int.sign_eq_neg_one_of_neg neg]
  · simp [bfRcp, Frac.isZero, hn, Int.not_lt.2 (Int.le_of_lt pos), Int.sign_eq_one_of_pos pos]

theorem bfLog2_negative {q : Frac} (h : q.n < 0) : bfLog2 (.fin true q) = rndBits fbBf .rne .nan := by
  simp [bfLog2, Frac.isZero, h, Int.ne_of_lt h]

theorem bfRsq_negative {q : Frac} (h : q.n < 0) : bfRsq (.fin true q) = rndBits fbBf .rne .nan := by
  simp [bfRsq, Frac.isZero, Int.ne_of_lt h]

/-- Settles O37: the table's operands one by one, and the exact reciprocal. -/
theorem vectorFunctions : Obligations.VectorFunctions := by
  unfold Obligations.VectorFunctions
  constructor
  · intro k d a s
    exact ⟨exec_vexp2 s, exec_vlog2 s, exec_vrcp s, exec_vrsq s⟩
  · refine ⟨?_, ?_, ?_, ?_, ?_, ?_, ?_⟩
    · intro f hf
      simp only [List.mem_cons, List.not_mem_nil, or_false] at hf
      rcases hf with rfl | rfl | rfl | rfl
      all_goals rfl
    · decide
    · decide
    · decide
    · decide
    · exact fun q neg _ => ⟨bfLog2_negative neg, bfRsq_negative neg⟩
    · exact fun n e hn _ => bfRcp_fin hn e

end Sys2Proof.Machine
end

