-- ==== Sys2Proof/Proofs/VectorPermutes.lean ====
section
/-! Permutes and the merge of `vtopk` (R152, R154). The order of R154 is the strict order of a rank in a linear order, so that
insertion keeps a list of candidates sorted. -/

namespace Sys2Proof.Machine

/-! Values whose fractions have a positive denominator, as all that lanes hold. -/

/-- A finite value is a fraction with a positive denominator. -/
def Val.Proper : Val → Prop
  | .fin _ q => 0 < q.d
  | _ => True

theorem Frac.scale2_den_pos {q : Frac} (h : 0 < q.d) (e : Int) : 0 < (q.scale2 e).d := by
  cases e with
  | ofNat k => exact h
  | negSucc k => exact Nat.mul_pos h (Nat.two_pow_pos _)

theorem Frac.scale10_den_pos {q : Frac} (h : 0 < q.d) (e : Int) : 0 < (q.scale10 e).d := by
  cases e with
  | ofNat k => exact h
  | negSucc k => exact Nat.mul_pos h (Nat.pow_pos (by decide))

theorem floatVal_proper (fb bits : Nat) : (floatVal fb bits).Proper := by
  unfold floatVal
  dsimp only
  split
  · split
    all_goals trivial
  · exact Frac.scale2_den_pos Nat.one_pos _

theorem d8Val_proper (byte : Nat) (sigma : Int) : (d8Val byte sigma).Proper := by
  unfold d8Val
  dsimp only
  split
  · split
    · trivial
    · exact Nat.one_pos
  · have magnitude : 0 < ((d8Mag (byte % 128)).scale10 sigma).d :=
      Frac.scale10_den_pos (Frac.scale10_den_pos (Nat.two_pow_pos _) _) _
    split
    all_goals exact magnitude

theorem laneVal_proper (t : ElemType) (c : BitVec 32) : (laneVal t c).Proper := by
  cases t with
  | bf | f32 => exact floatVal_proper _ _
  | d8 => exact d8Val_proper _ _
  | i8 | n8 | i16 | n16 | i32 | n32 => exact Nat.one_pos

/-! The order of values as the order of a rank: NaN, −∞, the numbers, +∞. -/

/-- A fraction as a rational number. -/
def Frac.toRat (q : Frac) : ℚ := q.n / q.d

def Val.rank : Val → ℕ ×ₗ ℚ
  | .nan => toLex (0, 0)
  | .inf true => toLex (1, 0)
  | .fin _ q => toLex (2, q.toRat)
  | .inf false => toLex (3, 0)

theorem Frac.lt_eq_decide {p q : Frac} (hp : 0 < p.d) (hq : 0 < q.d) : p.lt q = decide (p.toRat < q.toRat) := by
  have hp' : (0 : ℚ) < p.d := by exact_mod_cast hp
  have hq' : (0 : ℚ) < q.d := by exact_mod_cast hq
  rw [Frac.lt, decide_eq_decide, Frac.toRat, Frac.toRat, div_lt_div_iff₀ hp' hq']
  exact_mod_cast Iff.rfl

theorem Frac.le_eq_decide {p q : Frac} (hp : 0 < p.d) (hq : 0 < q.d) : p.le q = decide (p.toRat ≤ q.toRat) := by
  have hp' : (0 : ℚ) < p.d := by exact_mod_cast hp
  have hq' : (0 : ℚ) < q.d := by exact_mod_cast hq
  rw [Frac.le, decide_eq_decide, Frac.toRat, Frac.toRat, div_le_div_iff₀ hp' hq']
  exact_mod_cast Iff.rfl

theorem Frac.le_and_le_eq_decide {p q : Frac} (hp : 0 < p.d) (hq : 0 < q.d) :
    (p.le q && q.le p) = decide (p.toRat = q.toRat) := by
  rw [Frac.le_eq_decide hp hq, Frac.le_eq_decide hq hp, ← Bool.decide_and, decide_eq_decide]
  exact le_antisymm_iff.symm

/-- A NaN ranks below every other value. -/
theorem Val.rank_nan_lt {x : Val} (hx : x.isNan = false) : Val.nan.rank < x.rank := by
  rcases x with _ | (_ | _) | ⟨_, q⟩
  all_goals simp_all [Val.isNan, Val.rank, Prod.Lex.toLex_lt_toLex]

theorem Val.lt_eq_decide {x y : Val} (px : x.Proper) (py : y.Proper) (hx : x.isNan = false) (hy : y.isNan = false) :
    x.lt y = decide (x.rank < y.rank) := by
  rcases x with _ | (_ | _) | ⟨_, p⟩
  all_goals rcases y with _ | (_ | _) | ⟨_, q⟩
  all_goals simp_all [Val.isNan, Val.lt, Val.rank, Val.Proper, Prod.Lex.toLex_lt_toLex, Frac.lt_eq_decide]

theorem Val.eq_eq_decide {x y : Val} (px : x.Proper) (py : y.Proper) (hx : x.isNan = false) (hy : y.isNan = false) :
    x.eq y = decide (x.rank = y.rank) := by
  rcases x with _ | (_ | _) | ⟨_, p⟩
  all_goals rcases y with _ | (_ | _) | ⟨_, q⟩
  all_goals simp_all [Val.isNan, Val.eq, Val.rank, Val.Proper, Frac.le_and_le_eq_decide]

theorem Val.eq_nan_of_isNan {x : Val} (h : x.isNan = true) : x = .nan := by
  cases x with
  | nan => rfl
  | inf _ | fin _ _ => cases h

/-! Candidates. -/

/-- What R154 orders candidates by: score, higher first and NaN last; id; vd before va; lane. -/
def candRank (t : ElemType) (c : Cand) : (ℕ ×ₗ ℚ)ᵒᵈ ×ₗ ℕ ×ₗ Bool ×ₗ ℕ :=
  toLex (OrderDual.toDual (laneVal t c.score).rank, toLex (c.id.toNat, toLex (c.fromA, c.lane)))

/-- The scores decide, the higher rank first, unless their ranks are equal. -/
theorem better_of_score (t : ElemType) (p q : Cand) : better t p q =
    if (laneVal t p.score).rank = (laneVal t q.score).rank then
      if p.id != q.id then p.id.ult q.id else if p.fromA != q.fromA then q.fromA else p.lane < q.lane
    else decide ((laneVal t q.score).rank < (laneVal t p.score).rank) := by
  have px := laneVal_proper t p.score
  have py := laneVal_proper t q.score
  unfold better
  dsimp only
  generalize laneVal t p.score = x at px
  generalize laneVal t q.score = y at py
  cases hx : x.isNan with
  | true =>
    obtain rfl := Val.eq_nan_of_isNan hx
    cases hy : y.isNan with
    | true =>
      obtain rfl := Val.eq_nan_of_isNan hy
      rfl
    | false =>
      have less := Val.rank_nan_lt hy
      simp [less.ne, less.not_gt]
  | false =>
    cases hy : y.isNan with
    | true =>
      obtain rfl := Val.eq_nan_of_isNan hy
      have less := Val.rank_nan_lt hx
      simp [less.ne', less]
    | false => simp [Val.eq_eq_decide px py hx hy, Val.lt_eq_decide py px hy hx]

/-- The order of R154 is that of the ranks. -/
theorem better_iff_candRank_lt (t : ElemType) (p q : Cand) : better t p q = true ↔ candRank t p < candRank t q := by
  rw [better_of_score]
  simp only [candRank, Prod.Lex.toLex_lt_toLex, OrderDual.toDual_lt_toDual, OrderDual.toDual_inj, BitVec.toNat_inj]
  by_cases score : (laneVal t p.score).rank = (laneVal t q.score).rank
  · by_cases sameId : p.id = q.id
    · cases p.fromA
      all_goals cases q.fromA
      all_goals simp [score, sameId]
    · simp [score, sameId, BitVec.ult]
  · simp [score]

theorem better_eq_false_iff (t : ElemType) (p q : Cand) : better t q p = false ↔ candRank t p ≤ candRank t q := by
  rw [← Bool.not_eq_true, better_iff_candRank_lt, not_lt]

/-! Sorting by insertion. -/

theorem candInsert_perm (t : ElemType) (c : Cand) : ∀ l : List Cand, (candInsert t c l).Perm (c :: l)
  | [] => .refl _
  | q :: r => by
    rw [candInsert]
    split
    · exact .refl _
    · exact ((candInsert_perm t c r).cons q).trans (.swap c q r)

theorem candSort_perm (t : ElemType) : ∀ l : List Cand, (candSort t l).Perm l
  | [] => .refl _
  | c :: r => (candInsert_perm t c _).trans ((candSort_perm t r).cons c)

/-- Insertion keeps a list in order of rank. -/
theorem candInsert_sorted (t : ElemType) (c : Cand) : ∀ l : List Cand,
    l.Pairwise (candRank t · ≤ candRank t ·) → (candInsert t c l).Pairwise (candRank t · ≤ candRank t ·)
  | [], _ => List.pairwise_singleton _ _
  | q :: r, h => by
    obtain ⟨first, rest⟩ := List.pairwise_cons.1 h
    rw [candInsert]
    split
    next before =>
      have lt := (better_iff_candRank_lt t c q).1 before
      refine List.pairwise_cons.2 ⟨fun x hx => ?_, h⟩
      rcases List.mem_cons.1 hx with rfl | later
      · exact lt.le
      · exact lt.le.trans (first x later)
    next after =>
      have le := (better_eq_false_iff t q c).1 (Bool.eq_false_of_not_eq_true after)
      refine List.pairwise_cons.2 ⟨fun x hx => ?_, candInsert_sorted t c r rest⟩
      rcases List.mem_cons.1 ((candInsert_perm t c r).subset hx) with rfl | later
      · exact le
      · exact first x later

theorem candSort_sorted (t : ElemType) : ∀ l : List Cand, (candSort t l).Pairwise (candRank t · ≤ candRank t ·)
  | [] => .nil
  | c :: r => candInsert_sorted t c _ (candSort_sorted t r)

/-- Settles O38: `vtopk` takes the first 64 of the sorted candidates, of which vd alone gives 64. -/
theorem vectorPermutes : Obligations.VectorPermutes := by
  unfold Obligations.VectorPermutes
  intro k d a b t s
  refine ⟨exec_vperm s, fun m l => ?_, fun _ => ?_⟩
  · simp only [exec_vslide, execVslide, vword, immLane_eq, Bool.and_eq_true, decide_eq_true_eq]
  · intro pair cands
    have sorted := candSort_sorted t cands
    refine ⟨(candSort t cands).take 64, (candSort t cands).drop 64, ?_, ?_, ?_, exec_vtopk s⟩
    · rw [List.take_append_drop]
      exact candSort_perm t cands
    · rw [List.length_take, (candSort_perm t cands).length_eq]
      exact Nat.min_eq_left (by simp [cands])
    · rw [List.take_append_drop]
      exact sorted.imp fun {x y} h => (better_eq_false_iff t x y).2 h

end Sys2Proof.Machine
end

