-- ==== Sys2Proof/Proofs/BitFields.lean ====
section
/-! Bit fields of a word: cut from a number, replaced by a number, and replaced one after the other in a row of fields of one
width. Elements of accumulator tiles and of slots, and the fields of barrier objects, are such fields. -/

namespace Sys2Proof.Machine

/-- A field cut from the word of a number. -/
theorem extractLsb'_ofNat {w lo n : Nat} (x : Nat) (fits : lo + n ≤ w) :
    (BitVec.ofNat w x).extractLsb' lo n = BitVec.ofNat n (x / 2 ^ lo) := by
  apply BitVec.eq_of_getLsbD_eq
  intro i hi
  have inside : lo + i < w := by omega
  simp only [BitVec.getLsbD_extractLsb', BitVec.getLsbD_ofNat, Nat.testBit_div_two_pow, hi, inside, Nat.add_comm i lo,
    decide_true, Bool.true_and]

/-- Bits lo to lo + n − 1 of a word replaced by the n low bits of a number. -/
def replaceBits {w : Nat} (b : BitVec w) (lo n v : Nat) : BitVec w :=
  (b &&& ~~~BitVec.ofNat w ((2 ^ n - 1) * 2 ^ lo)) ||| BitVec.ofNat w (v % 2 ^ n * 2 ^ lo)

theorem bPut_eq_replaceBits (b : BitVec 128) (lo n v : Nat) : bPut b lo n v = replaceBits b lo n v := rfl
theorem putElem_eq_replaceBits (b : Block) (o n v : Nat) : putElem b o n v = replaceBits b (8 * o) n v := rfl

theorem getLsbD_replaceBits {w : Nat} (b : BitVec w) (lo n v : Nat) {i : Nat} (hi : i < w) :
    (replaceBits b lo n v).getLsbD i = if lo ≤ i ∧ i < lo + n then v.testBit (i - lo) else b.getLsbD i := by
  simp only [replaceBits, BitVec.getLsbD_or, BitVec.getLsbD_and, BitVec.getLsbD_not, BitVec.getLsbD_ofNat, hi, decide_true,
    Bool.true_and, Nat.testBit_mul_two_pow, Nat.testBit_two_pow_sub_one, Nat.testBit_mod_two_pow]
  by_cases above : lo ≤ i
  · by_cases below : i < lo + n
    · have inside : i - lo < n := by omega
      simp [above, below, inside]
    · have outside : ¬ i - lo < n := by omega
      simp [above, below, outside]
  · simp [above]

/-- The field that was replaced holds the number. -/
theorem extractLsb'_replaceBits_same {w lo n : Nat} (b : BitVec w) (v : Nat) (fits : lo + n ≤ w) :
    (replaceBits b lo n v).extractLsb' lo n = BitVec.ofNat n v := by
  apply BitVec.eq_of_getLsbD_eq
  intro i hi
  rw [BitVec.getLsbD_extractLsb', getLsbD_replaceBits b lo n v (by omega), if_pos (by omega), BitVec.getLsbD_ofNat,
    Nat.add_sub_cancel_left]
/-- A field beside it is as it was. -/
theorem extractLsb'_replaceBits_beside {w lo n o m : Nat} (b : BitVec w) (v : Nat) (fits : o + m ≤ w)
    (beside : o + m ≤ lo ∨ lo + n ≤ o) : (replaceBits b lo n v).extractLsb' o m = b.extractLsb' o m := by
  apply BitVec.eq_of_getLsbD_eq
  intro i hi
  rw [BitVec.getLsbD_extractLsb', BitVec.getLsbD_extractLsb', getLsbD_replaceBits b lo n v (by omega), if_neg (by omega)]

/-- Fields of one width replaced one after the other, field k by `f k`: those of the list hold their numbers, the others are as
they were. -/
theorem extractLsb'_foldl_replaceBits {w n : Nat} (f : Nat → Nat) {k : Nat} (fits : n * k + n ≤ w) (l : List Nat) (b : BitVec w) :
    (l.foldl (fun d k => replaceBits d (n * k) n (f k)) b).extractLsb' (n * k) n =
      if k ∈ l then BitVec.ofNat n (f k) else b.extractLsb' (n * k) n := by
  induction l generalizing b with
  | nil => rfl
  | cons m l ih =>
    rw [List.foldl_cons, ih]
    by_cases later : k ∈ l
    · rw [if_pos later, if_pos (List.mem_cons_of_mem m later)]
    · rw [if_neg later]
      by_cases same : k = m
      · subst same
        rw [if_pos List.mem_cons_self, extractLsb'_replaceBits_same b _ fits]
      · have apart : n * k + n ≤ n * m ∨ n * m + n ≤ n * k := by
          rcases Nat.lt_or_gt_of_ne same with h | h
          · exact .inl (Nat.mul_succ n k ▸ Nat.mul_le_mul_left n h)
          · exact .inr (Nat.mul_succ n m ▸ Nat.mul_le_mul_left n h)
        rw [if_neg (by simp [same, later]), extractLsb'_replaceBits_beside b _ fits apart]

end Sys2Proof.Machine
end

