-- ==== Sys2Proof/Proofs/MatrixPasses.lean ====
section
/-! Passes of the matrix engine (R63 to R66, R164 to R167): what a step gives each cell, and how a lone pass runs and lands. -/

namespace Sys2Proof.Machine

/-! The elements of a tile. -/

/-- Digit n of the packed elements is element n. -/
theorem packAcc_digit : ∀ (l : List (BitVec 40)) (n : Nat), BitVec.ofNat 40 (packAcc l / 2 ^ (40 * n)) = l[n]?.getD 0
  | [], n => by simp [packAcc]
  | e :: r, 0 => by
    apply BitVec.eq_of_toNat_eq
    simpa [packAcc, Nat.add_mul_mod_self_left] using e.isLt
  | e :: r, n + 1 => by
    have rest : packAcc (e :: r) / 2 ^ 40 = packAcc r := by
      rw [packAcc, Nat.add_mul_div_left _ _ (Nat.two_pow_pos 40), Nat.div_eq_of_lt e.isLt, Nat.zero_add]
    rw [Nat.mul_succ, Nat.add_comm, Nat.pow_add, ← Nat.div_div_eq_div_mul, rest, packAcc_digit r n, List.getElem?_cons_succ]

theorem accElem_packAcc (l : List (BitVec 40)) {i j : Nat} (hi : i < 64) (hj : j < 64) :
    accElem (BitVec.ofNat 163840 (packAcc l)) i j = l[64 * i + j]?.getD 0 := by
  rw [accElem, extractLsb'_ofNat _ (by omega), packAcc_digit]

/-- A step of a pass is a step of every cell. -/
theorem accElem_advance (p : Pass) (a b : Latch) {i j : Nat} (hi : i < 64) (hj : j < 64) :
    accElem (p.advance a b).cells i j = (cellStep p a b i j).1 := by
  have row : (64 * i + j) / 64 = i := by omega
  have col : (64 * i + j) % 64 = j := by omega
  have inside : 64 * i + j < 4096 := by omega
  have cells : (p.advance a b).cells = BitVec.ofNat 163840 (packAcc
    (((List.range 4096).map fun n => cellStep p a b (n / 64) (n % 64)).map Prod.fst)) := rfl
  rw [cells, accElem_packAcc _ hi hj, List.getElem?_map, List.getElem?_map, List.getElem?_range inside]
  simp only [Option.map_some, Option.getD_some, row, col]

/-! Values that are integers, whatever sign their zero has. -/

/-- The value is the number i. -/
def Val.IsInt (v : Val) (i : Int) : Prop := ∃ s, v = .fin s ⟨i, 1⟩

theorem Val.isInt_ofInt (i : Int) : (Val.ofInt i).IsInt i := ⟨_, rfl⟩
theorem Val.isInt_mk (s : Bool) (i : Int) : (Val.mk s ⟨i, 1⟩).IsInt i := ⟨_, rfl⟩

section
variable {v u : Val} {i j : Int}

theorem Val.IsInt.add (hv : v.IsInt i) (hu : u.IsInt j) : (v.add u).IsInt (i + j) := by
  obtain ⟨s, rfl⟩ := hv
  obtain ⟨r, rfl⟩ := hu
  exact Val.isInt_mk _ _
theorem Val.IsInt.mul (hv : v.IsInt i) (hu : u.IsInt j) : (v.mul u).IsInt (i * j) := by
  obtain ⟨s, rfl⟩ := hv
  obtain ⟨r, rfl⟩ := hu
  exact Val.isInt_mk _ _
theorem Val.IsInt.absSub (hv : v.IsInt i) (hu : u.IsInt j) : (v.sub u).abs.IsInt (i - j).natAbs := by
  obtain ⟨s, rfl⟩ := hv
  obtain ⟨r, rfl⟩ := hu
  exact ⟨false, rfl⟩
theorem Val.IsInt.max (hv : v.IsInt i) (hu : u.IsInt j) : (v.max u).IsInt (Max.max i j) := by
  obtain ⟨s, rfl⟩ := hv
  obtain ⟨r, rfl⟩ := hu
  simp only [Val.max, Val.isNan, Val.lt, Frac.lt, Int.natCast_one, Int.mul_one, Bool.or_self, Bool.false_eq_true, if_false,
    decide_eq_true_eq, Val.sign]
  rcases Int.lt_trichotomy i j with h | rfl | h
  · rw [if_neg (by omega), if_pos h, Int.max_eq_right (by omega)]
    exact ⟨r, rfl⟩
  · simp only [Int.lt_irrefl, if_false, Int.max_self]
    cases s with
    | true => exact ⟨r, rfl⟩
    | false => exact ⟨false, rfl⟩
  · rw [if_pos h, Int.max_eq_left (by omega)]
    exact ⟨s, rfl⟩
theorem Val.IsInt.min (hv : v.IsInt i) (hu : u.IsInt j) : (v.min u).IsInt (Min.min i j) := by
  obtain ⟨s, rfl⟩ := hv
  obtain ⟨r, rfl⟩ := hu
  simp only [Val.min, Val.isNan, Val.lt, Frac.lt, Int.natCast_one, Int.mul_one, Bool.or_self, Bool.false_eq_true, if_false,
    decide_eq_true_eq, Val.sign]
  rcases Int.lt_trichotomy i j with h | rfl | h
  · rw [if_pos h, Int.min_eq_left (by omega)]
    exact ⟨s, rfl⟩
  · simp only [Int.lt_irrefl, if_false, Int.min_self]
    cases s with
    | true => exact ⟨true, rfl⟩
    | false => exact ⟨r, rfl⟩
  · rw [if_neg (by omega), if_pos h, Int.min_eq_right (by omega)]
    exact ⟨r, rfl⟩

end

/-! The cells of an integer pass (R63 to R65). -/

/-- A term of an operation on integers, and an accumulator with a term combined (R64). -/
def intTerm : CellOp → Int → Int → Int
  | .mac, x, y => x * y
  | .ada, x, y => (x - y).natAbs
  | .mxp, x, y | .mnp, x, y => x + y
def intCombine : CellOp → Int → Int → Int
  | .mac, acc, t | .ada, acc, t => acc + t
  | .mxp, acc, t => max acc t
  | .mnp, acc, t => min acc t

theorem cellTerm_isInt (op : CellOp) {u v : Val} {x y : Int} (hu : u.IsInt x) (hv : v.IsInt y) :
    (cellTerm op u v).IsInt (intTerm op x y) := by
  cases op with
  | mac => exact hu.mul hv
  | ada => exact hu.absSub hv
  | mxp | mnp => exact hu.add hv
theorem cellCombine_isInt (op : CellOp) {u v : Val} {x y : Int} (hu : u.IsInt x) (hv : v.IsInt y) :
    (cellCombine op u v).IsInt (intCombine op x y) := by
  cases op with
  | mac | ada => exact hu.add hv
  | mxp => exact hu.max hv
  | mnp => exact hu.min hv

/-- Combining the terms of the present indices, an absent one's being the identity, leaves out the absent ones. `keep` drops the
infinite identities. -/
theorem foldl_terms_isInt (op : CellOp) {keep : Val → Bool} (number : ∀ s q, keep (.fin s q) = true)
    (infinite : ∀ s, keep (.inf s) = false) (here : Nat → Bool) {u v : Nat → Val} {x y : Nat → Int} (hu : ∀ k, (u k).IsInt (x k))
    (hv : ∀ k, (v k).IsInt (y k)) (ks : List Nat) {acc : Val} {old : Int} (h : acc.IsInt old) :
    (((ks.map fun k => if here k then cellTerm op (u k) (v k) else identityTerm op).filter keep).foldl (cellCombine op) acc).IsInt
      (((ks.filter here).map fun k => intTerm op (x k) (y k)).foldl (intCombine op) old) := by
  induction ks generalizing acc old with
  | nil => exact h
  | cons k ks ih =>
    cases present : here k with
    | true =>
      have term := cellTerm_isInt op (hu k) (hv k)
      obtain ⟨s, e⟩ := id term
      have kept : keep (cellTerm op (u k) (v k)) = true := e ▸ number _ _
      simp only [List.map_cons, present, if_true, List.filter_cons_of_pos kept, List.filter_cons_of_pos present, List.foldl_cons]
      exact ih (cellCombine_isInt op h term)
    | false =>
      have skipped : ¬ here k = true := by simp [present]
      simp only [List.map_cons, present, Bool.false_eq_true, if_false, List.filter_cons_of_neg skipped]
      cases op with
      | mac | ada =>
        rw [List.filter_cons_of_pos (by exact number _ _), List.foldl_cons]
        exact ih (Int.add_zero old ▸ h.add ⟨false, rfl⟩)
      | mxp | mnp =>
        rw [List.filter_cons_of_neg (by simp [identityTerm, infinite])]
        exact ih h

/-- An integer is rounded into an i40 element by clamping it (R63). -/
theorem accRound_i40 {v : Val} {i : Int} (h : v.IsInt i) :
    (accRound .i40 v).1 = BitVec.ofInt 40 (max (-2 ^ 39) (min (2 ^ 39 - 1) i)) := by
  obtain ⟨s, rfl⟩ := h
  simp [accRound, satSigned]

/-- An element is an integer that needs no clamping. -/
theorem ofInt_clamp_toInt (b : BitVec 40) : BitVec.ofInt 40 (max (-2 ^ 39) (min (2 ^ 39 - 1) b.toInt)) = b := by
  have low := b.le_toInt
  have high := b.toInt_lt
  have fits : max (-2 ^ 39) (min (2 ^ 39 - 1) b.toInt) = b.toInt := by omega
  rw [fits, BitVec.ofInt_toInt]

/-- Both latches have the cell's row and column and the K index. -/
def cellHas (a b : Latch) (i j k : Nat) : Bool := a.mask.getLsbD i && b.mask.getLsbD j && a.kmask.getLsbD k && b.kmask.getLsbD k

/-- A step of an i40 cell: the exact result of the present terms, clamped. -/
theorem cellStep_i40 {p : Pass} (kind : p.kind = .i40) (a b : Latch) (i j : Nat) {x y : Nat → Int}
    (hx : ∀ k, (latchVal a p.fmt i k).IsInt (x k)) (hy : ∀ k, (latchVal b p.fmt j k).IsInt (y k)) :
    (cellStep p a b i j).1 = BitVec.ofInt 40 (max (-2 ^ 39) (min (2 ^ 39 - 1)
      ((((stepKs p.fmt p.step).filter (cellHas a b i j)).map fun k => intTerm p.op (x k) (y k)).foldl (intCombine p.op)
        (accElem p.cells i j).toInt))) := by
  unfold cellStep
  simp only [kind]
  cases any : (stepKs p.fmt p.step).any (cellHas a b i j) with
  | false =>
    have empty : (stepKs p.fmt p.step).filter (cellHas a b i j) = [] := by simpa [List.filter_eq_nil_iff] using any
    have absent : ((stepKs p.fmt p.step).any fun k =>
      a.mask.getLsbD i && b.mask.getLsbD j && a.kmask.getLsbD k && b.kmask.getLsbD k) = false := any
    rw [empty, List.map_nil, List.foldl_nil, ofInt_clamp_toInt]
    simp [absent]
  | true =>
    have present : ((stepKs p.fmt p.step).any fun k =>
      a.mask.getLsbD i && b.mask.getLsbD j && a.kmask.getLsbD k && b.kmask.getLsbD k) = true := any
    have nonempty : (stepKs p.fmt p.step).isEmpty = false := by
      cases e : stepKs p.fmt p.step with
      | nil => simp [e] at any
      | cons => rfl
    rw [nonempty, present]
    exact accRound_i40 (foldl_terms_isInt p.op (fun _ _ => rfl) (fun _ => rfl) (cellHas a b i j) hx hy _ (Val.isInt_ofInt _))

/-! The cells of a float pass (R64 to R66). -/

/-- A step of an f40 cell: the exact result of all its terms, rounded once; with no index to take it is as it was. -/
theorem cellStep_f40 {p : Pass} (kind : p.kind = .f40) (a b : Latch) (i j : Nat) :
    (cellStep p a b i j).1 = if (stepKs p.fmt p.step).isEmpty then accElem p.cells i j
      else BitVec.ofNat 40 (rndBits fbF40 .rne (((stepKs p.fmt p.step).map fun k =>
        if cellHas a b i j k then cellTerm p.op (latchVal a p.fmt i k) (latchVal b p.fmt j k) else identityTerm p.op).foldl
          (cellCombine p.op) (floatVal fbF40 (accElem p.cells i j).toNat))) := by
  unfold cellStep
  simp only [kind]
  split
  · rfl
  · have other : (AccKind.f40 == AccKind.i40) = false := rfl
    simp only [other, Bool.and_false, Bool.false_eq_true, if_false]
    rfl

/-! A lone pass in a context with no result on its way (R165, R167). -/

/-- A pass after n steps from the latches. -/
def Pass.after (p : Pass) (a b : Latch) (n : Nat) : Pass := (fun p : Pass => p.advance a b)^[n] p

theorem Pass.after_succ (p : Pass) (a b : Latch) (n : Nat) : p.after a b (n + 1) = (p.after a b n).advance a b :=
  Function.iterate_succ_apply' _ _ _

/-- The pass p is q but for its cells and what n steps more have made of SAT. -/
structure Pass.Stepped (q : Pass) (n : Nat) (p : Pass) : Prop where
  tile : p.tile = q.tile
  kind : p.kind = q.kind
  landsAt : p.landsAt = q.landsAt
  suspended : p.suspended = q.suspended
  landed : p.landed = q.landed
  shadow : p.shadow = q.shadow
  step : p.step = q.step + n

theorem Pass.stepped_after (q : Pass) (a b : Latch) (n : Nat) : q.Stepped n (q.after a b n) := by
  induction n with
  | zero => exact ⟨rfl, rfl, rfl, rfl, rfl, rfl, rfl⟩
  | succ n ih =>
    rw [Pass.after_succ]
    exact ⟨ih.tile, ih.kind, ih.landsAt, ih.suspended, ih.landed, ih.shadow, congrArg (· + 1) ih.step⟩

theorem landAt_of_pending_nil {c : Context} (quiet : c.pending = []) (t : Nat) : c.landAt t = c := by
  rw [landAt_eq, landAt_pending, quiet, landDue_nil, ← quiet]

theorem advanceN_succ (c : Context) (n : Nat) : c.advanceN (n + 1) = (c.advanceN n).advance := by
  induction n generalizing c with
  | zero => rfl
  | succ n ih => exact ih c.advance

/-- The step that one bundle time gives a running pass. -/
def Context.passStep (c : Context) (p : Pass) : Pass := if p.step < 32 then p.advance (p.shadow.getD c.latchA) c.latchB else p

/-- The context at bundle time t with p its only pass. -/
def Context.lonePass (c : Context) (t : Nat) (p : Pass) : Context := { c with btime := t, passes := [p] }

@[simp] theorem lonePass_acc (c : Context) (t : Nat) (p : Pass) : (c.lonePass t p).acc = c.acc := rfl
@[simp] theorem lonePass_passes (c : Context) (t : Nat) (p : Pass) : (c.lonePass t p).passes = [p] := rfl
theorem lonePass_self {c : Context} {q : Pass} (lone : c.passes = [q]) : c.lonePass c.btime q = c := by
  rw [Context.lonePass, ← lone]

section Lone
variable {c : Context} {t : Nat} {p : Pass} (quiet : c.pending = []) (running : p.suspended = false)
include quiet running

/-- A bundle time of a lone pass: its step, and then what becomes of it. -/
theorem advance_lonePass : (c.lonePass t p).advance = (c.lonePass (t + 1) (c.passStep p)).landPassesAt (t + 1) := by
  have steps : (c.lonePass t p).matrixSteps = c.lonePass t (c.passStep p) := by
    simp only [Context.matrixSteps, lonePass_passes, List.map_cons, List.map_nil, running, Bool.not_false, Bool.true_and,
      decide_eq_true_eq]
    rfl
  have held : (c.lonePass (t + 1) (c.passStep p)).pending = [] := quiet
  unfold Context.advance
  rw [steps]
  exact congrArg (Context.landPassesAt · (t + 1)) (landAt_of_pending_nil held (t + 1))

variable (up : (c.passStep p).landed = false)
include up

/-- Before its landing time a lone pass only makes its step. -/
theorem advance_lonePass_before (early : t + 1 < (c.passStep p).landsAt) :
    (c.lonePass t p).advance = c.lonePass (t + 1) (c.passStep p) := by
  rw [advance_lonePass quiet running]
  simp [Context.landPassesAt, landPasses, up, Nat.not_le_of_lt early, Context.lonePass]

/-- At its landing time a lone pass that has made its steps writes its tile. -/
theorem advance_lonePass_lands (done : (c.passStep p).step = 32) (due : (c.passStep p).landsAt = t + 1) :
    (c.lonePass t p).advance.acc =
      c.acc.set (c.passStep p).tile.toNat ⟨(c.passStep p).cells, (c.passStep p).kind⟩ := by
  rw [advance_lonePass quiet running]
  simp [Context.landPassesAt, landPasses, up, done, due]

end Lone

section Issued
/-! From the issue of a lone pass on. -/
variable {c : Context} {q : Pass} (lone : c.passes = [q]) (quiet : c.pending = []) (first : q.step = 0) (running : q.suspended = false)
  (up : q.landed = false) (due : q.landsAt = c.btime + 38)

/-- The pass n bundle times after its issue. -/
def Context.passAt (c : Context) (q : Pass) (n : Nat) : Pass := q.after (q.shadow.getD c.latchA) c.latchB (min n 32)

theorem stepped_passAt (c : Context) (q : Pass) (n : Nat) : q.Stepped (min n 32) (c.passAt q n) := q.stepped_after _ _ _

include first in
theorem passStep_passAt (n : Nat) : c.passStep (c.passAt q n) = c.passAt q (n + 1) := by
  have now := stepped_passAt c q n
  rw [Context.passStep, now.shadow, now.step, first]
  unfold Context.passAt
  split
  next more =>
    have more' : min (n + 1) 32 = min n 32 + 1 := by omega
    rw [more', Pass.after_succ]
  next all =>
    have all' : min (n + 1) 32 = min n 32 := by omega
    rw [all']

include lone quiet first running up due

/-- Through bundle time 37 only the pass's steps happen. -/
theorem advanceN_lone {n : Nat} (early : n ≤ 37) : c.advanceN n = c.lonePass (c.btime + n) (c.passAt q n) := by
  induction n with
  | zero => exact (lonePass_self lone).symm
  | succ n ih =>
    have now := stepped_passAt c q n
    have next := passStep_passAt first (c := c) n
    have after := stepped_passAt c q (n + 1)
    rw [← next] at after
    have later : c.btime + n + 1 < (c.passStep (c.passAt q n)).landsAt := by
      rw [after.landsAt, due]
      omega
    rw [advanceN_succ, ih (by omega), advance_lonePass_before quiet (now.suspended.trans running) (after.landed.trans up) later,
      next, Nat.add_assoc]

/-- At bundle time 38 the tile has the cells that the 32 steps left. -/
theorem advanceN_lone_lands : (c.advanceN 38).acc = c.acc.set q.tile.toNat ⟨(c.passAt q 38).cells, q.kind⟩ := by
  have now := stepped_passAt c q 37
  have next := passStep_passAt first (c := c) 37
  have after := stepped_passAt c q 38
  rw [← next] at after
  have done : (c.passStep (c.passAt q 37)).step = 32 := by
    rw [after.step, first]
    rfl
  have cells : (c.passStep (c.passAt q 37)).cells = (c.passAt q 38).cells := congrArg Pass.cells next
  rw [advanceN_succ, advanceN_lone lone quiet first running up due (Nat.le_refl 37), advance_lonePass_lands quiet
    (now.suspended.trans running) (after.landed.trans up) done (after.landsAt.trans due)]
  simp only [after.tile, after.kind, cells]

end Issued

/-! The obligation. -/

/-- The operations of R64 written out: a sum for `mac` and `ada`, an extreme for `mxp` and `mnp`. -/
theorem foldl_intCombine (op : CellOp) (old : Int) (x y : Nat → Int) (ks : List Nat) :
    (ks.map fun k => intTerm op (x k) (y k)).foldl (intCombine op) old = match op with
      | .mac => old + (ks.map fun k => x k * y k).sum
      | .ada => old + (ks.map fun k => ((x k - y k).natAbs : Int)).sum
      | .mxp => (ks.map fun k => x k + y k).foldl max old
      | .mnp => (ks.map fun k => x k + y k).foldl min old := by
  have sum (l : List Int) (z : Int) : l.foldl (· + ·) z = z + l.sum := by
    induction l generalizing z with
    | nil => simp
    | cons t l ih => rw [List.foldl_cons, ih, List.sum_cons, Int.add_assoc]
  cases op with
  | mac | ada => exact sum _ _
  | mxp | mnp => rfl

/-- The K elements of an i8 latch are integers (R162). -/
theorem latchVal_i8 {fmt : BitVec 2} (h : fmt = 0) (l : Latch) (i k : Nat) :
    (latchVal l fmt i k).IsInt (l.data.extractLsb' (8 * (64 * i + k)) 8).toInt := by
  subst h
  exact Val.isInt_ofInt _

theorem fmt_float {fmt : BitVec 2} (h : 1 ≤ fmt.toNat) : fmt = 1 ∨ fmt = 2 ∨ fmt = 3 := by
  decide +revert

/-- The value of a K element of a float latch (R162). -/
theorem latchVal_float {fmt : BitVec 2} (h : 1 ≤ fmt.toNat) (l : Latch) (i k : Nat) : latchVal l fmt i k =
    if fmt = 1 then d8Val (l.data.extractLsb' (8 * (64 * i + k)) 8).toNat (l.scale.extractLsb' (8 * i) 8).toInt
    else if fmt = 2 then floatVal fbBf (l.data.extractLsb' (8 * (64 * i + 2 * k)) 16).toNat
    else floatVal fbF32 (l.data.extractLsb' (8 * (64 * i + 4 * k)) 32).toNat := by
  rcases fmt_float h with rfl | rfl | rfl
  all_goals rfl

/-- The K indices of a step of a float pass: none at an odd step of an f32 pass (R164). -/
theorem stepKs_float {fmt : BitVec 2} (h : 1 ≤ fmt.toNat) (st : Nat) : stepKs fmt st =
    if fmt = 3 ∧ st % 2 = 1 then [] else if fmt = 1 then [2 * st, 2 * st + 1] else if fmt = 2 then [st] else [st / 2] := by
  rcases fmt_float h with rfl | rfl | rfl
  · rfl
  · rfl
  · rcases Nat.mod_two_eq_zero_or_one st with even | odd
    · simp [stepKs, even]
    · simp [stepKs, odd]

/-- Settles O41: a lone pass is followed bundle time by bundle time, and a step's cells are those of `cellStep_i40` and
`cellStep_f40`. -/
theorem passLandsAfter38 : Obligations.PassLandsAfter38 := by
  unfold Obligations.PassLandsAfter38
  refine ⟨fun c q lone quiet first running up due => ⟨fun n early => ?_, ?_⟩, fun q a b => ⟨rfl, fun i hi j hj => ⟨?_, ?_⟩⟩⟩
  · rw [advanceN_lone lone quiet first running up due early]
    refine ⟨rfl, ?_⟩
    rw [lonePass_passes, List.map_singleton, (stepped_passAt c q n).step, first, Nat.zero_add]
  · rw [List.foldl_const, List.length_range]
    exact advanceN_lone_lands lone quiet first running up due
  · intro fmt kind
    rw [accElem_advance q a b hi hj, cellStep_i40 kind a b i j (latchVal_i8 fmt a i) (latchVal_i8 fmt b j), foldl_intCombine, fmt]
    rfl
  · intro fmt kind
    rw [accElem_advance q a b hi hj, cellStep_f40 kind a b i j, stepKs_float fmt]
    simp only [latchVal_float fmt]
    by_cases idle : q.fmt = 3 ∧ q.step % 2 = 1
    · rw [if_pos idle, if_pos idle]
      rfl
    · have busy : (if q.fmt = 1 then [2 * q.step, 2 * q.step + 1] else if q.fmt = 2 then [q.step] else [q.step / 2]).isEmpty = false := by
        split
        · rfl
        · split
          all_goals rfl
      rw [if_neg idle, if_neg idle, busy, if_neg Bool.false_ne_true]
      cases q.op with
      | mac | ada | mxp | mnp => rfl

end Sys2Proof.Machine
end

