-- ==== Sys2Proof/Proofs/MatrixWords.lean ====
section
/-! The matrix words (R160, R170 to R176) on the owner's accumulators, latches and passes. -/

namespace Sys2Proof.Machine

/-! What lets a matrix word have its effect (R160, R161, R169). -/

/-- A performed matrix word of the owner has its effect: one that only reads a tile always, another while no pass stands suspended
in supervisor mode. -/
theorem matrixWord_owner {s : State} {p : Pred} (holds : s.holds p = true) (own : s.cx.id.mown = true) (op : Nat) {reads : Bool}
    (go : reads = true ∨ s.cx.mode = .task ∨ s.cx.passes.any Pass.suspended = false) (f : State → State) :
    s.matrixWord p op reads f = .next (f s) := by
  unfold State.matrixWord
  rw [State.perform_true s p _ holds]
  have free : (!reads && s.cx.mode == .supervisor && s.cx.passes.any Pass.suspended) = false := by
    rcases go with h | h | h
    · simp [h]
    · simp [h]
    · simp [h]
  simp [own, free]

theorem claimed_iff {s : State} {a : BitVec 2} : s.claimed a = true ↔ a.toNat < s.cx.id.nacc := decide_eq_true_iff
theorem kindFits_iff {k l : AccKind} : kindFits k l = true ↔ k = .none ∨ k = l := by
  simp [kindFits]

/-! Elements of accumulator tiles and of slots. -/

theorem accElem_of_all {e : BitVec 40} {i j : Nat} (hi : i < 64) (hj : j < 64) :
    accElem (BitVec.ofNat 163840 (packAcc (List.replicate 4096 e))) i j = e := by
  have inside : 64 * i + j < 4096 := by omega
  rw [accElem_packAcc _ hi hj, List.getElem?_replicate, if_pos inside, Option.getD_some]

theorem putAcc_eq_replaceBits (d : BitVec 163840) (row j : Nat) (v : BitVec 40) :
    putAcc d row j v = replaceBits d (40 * (64 * row + j)) 40 v.toNat := by
  apply BitVec.eq_of_getLsbD_eq
  intro i hi
  rw [getLsbD_replaceBits _ _ _ _ hi]
  simp only [putAcc, BitVec.getLsbD_or, BitVec.getLsbD_and, BitVec.getLsbD_not, BitVec.getLsbD_shiftLeft, BitVec.getLsbD_setWidth,
    BitVec.getLsbD_allOnes, hi, decide_true, Bool.true_and, BitVec.testBit_toNat]
  by_cases above : 40 * (64 * row + j) ≤ i
  · have inside : i - 40 * (64 * row + j) < 163840 := by omega
    by_cases below : i < 40 * (64 * row + j) + 40
    · have field : i - 40 * (64 * row + j) < 40 := by omega
      simp [above, below, inside, field, Nat.not_lt.2 above]
    · have outside : 40 ≤ i - 40 * (64 * row + j) := by omega
      simp [above, below, outside]
  · simp [above, Nat.lt_of_not_le above]

/-- The row that `mwr` writes: element by element the value given, and every other element as before. -/
theorem accElem_foldl_putAcc (d : BitVec 163840) {row : Nat} (hrow : row < 64) (f : Nat → BitVec 40) {l : List Nat}
    (hl : ∀ j ∈ l, j < 64) {r c : Nat} (hr : r < 64) (hc : c < 64) :
    accElem (l.foldl (fun d j => putAcc d row j (f j)) d) r c = if r = row ∧ c ∈ l then f c else accElem d r c := by
  have fields : l.foldl (fun d j => putAcc d row j (f j)) d =
      (l.map (64 * row + ·)).foldl (fun d k => replaceBits d (40 * k) 40 (f (k % 64)).toNat) d := by
    rw [List.foldl_map]
    apply List.foldl_ext
    intro d j hj
    have col : (64 * row + j) % 64 = j := by have := hl j hj; omega
    rw [putAcc_eq_replaceBits, col]
  have col : (64 * r + c) % 64 = c := by omega
  rw [fields, accElem, extractLsb'_foldl_replaceBits (fun k => (f (k % 64)).toNat) (by omega), col, BitVec.ofNat_toNat,
    BitVec.setWidth_eq]
  refine if_congr ⟨fun h => ?_, fun h => ?_⟩ rfl rfl
  · obtain ⟨j, hj, e⟩ := List.mem_map.1 h
    have := hl j hj
    obtain rfl : j = c := by omega
    exact ⟨by omega, hj⟩
  · obtain ⟨rfl, hc⟩ := h
    exact List.mem_map_of_mem hc

/-- An element's row and column from its number. -/
theorem cell_row {cols j : Nat} (hj : j < cols) (i : Nat) : (i * cols + j) / cols = i := by
  rw [Nat.mul_comm, Nat.mul_add_div (by omega), Nat.div_eq_of_lt hj, Nat.add_zero]
theorem cell_col {cols j : Nat} (hj : j < cols) (i : Nat) : (i * cols + j) % cols = j := by
  rw [Nat.mul_comm, Nat.mul_add_mod, Nat.mod_eq_of_lt hj]

theorem width_eq_esize (t : ElemType) : 8 * esize t = ElemType_width t := by
  cases t <;> rfl

/-- The elements that `mst` writes: those of the list get their values, the others stand as they were. -/
theorem slotElem_foldl_putElem (b : Block) (t : ElemType) {cols n : Nat} (fits : n * esize t ≤ 4096) (p : Nat → Bool)
    (f : Nat → Nat → Nat) {i j : Nat} (hj : j < cols) (inside : i * cols + j < n) :
    slotElem ((((List.range n).filter p).map fun k => (k / cols, k % cols)).foldl (fun d x =>
      putElem d ((x.1 * cols + x.2) * esize t) (ElemType_width t) (f x.1 x.2)) b) cols t i j =
      if p (i * cols + j) = true then f i j % 2 ^ ElemType_width t else slotElem b cols t i j := by
  have bits (k : Nat) : 8 * (k * esize t) = ElemType_width t * k := by
    rw [← width_eq_esize, Nat.mul_assoc, Nat.mul_comm k]
  have fields : (((List.range n).filter p).map fun k => (k / cols, k % cols)).foldl (fun d x =>
      putElem d ((x.1 * cols + x.2) * esize t) (ElemType_width t) (f x.1 x.2)) b =
      ((List.range n).filter p).foldl (fun d k =>
        replaceBits d (ElemType_width t * k) (ElemType_width t) (f (k / cols) (k % cols))) b := by
    rw [List.foldl_map]
    simp only [Nat.div_add_mod', putElem_eq_replaceBits, bits]
  have room : ElemType_width t * (i * cols + j) + ElemType_width t ≤ 32768 := by
    have le : (i * cols + j + 1) * esize t ≤ n * esize t := Nat.mul_le_mul_right _ inside
    rw [← bits, ← width_eq_esize]
    rw [Nat.add_mul] at le
    omega
  rw [fields, slotElem, slotElem, blockElem, blockElem, width_eq_esize, bits,
    extractLsb'_foldl_replaceBits (fun k => f (k / cols) (k % cols)) room, cell_row hj, cell_col hj]
  simp only [List.mem_filter, List.mem_range, inside, true_and]
  split
  · exact BitVec.toNat_ofNat _ _
  · rfl

/-! The words of tiles: `minit`, `mwr`, `mrd` (R174, R175). -/

theorem initBits_eq (sel : BitVec 2) (i : Bool) (x : Dbl) : initBits sel i x =
    if sel = 0 then 0
    else if sel = 1 then (if i then BitVec.ofInt 40 (-2 ^ 39) else 0xFF80000000)
    else if sel = 2 then (if i then BitVec.ofInt 40 (2 ^ 39 - 1) else 0x7F80000000)
    else x.setWidth 40 := by
  have four : sel = 0 ∨ sel = 1 ∨ sel = 2 ∨ sel = 3 := by decide +revert
  rcases four with rfl | rfl | rfl | rfl
  all_goals rfl

/-- Converting a list of values gives a code for each. -/
theorem length_toD8List (sg : Int) : ∀ (l : List Val) (g : BitVec 64), (toD8List sg l g).1.length = l.length
  | [], _ => rfl
  | v :: r, g => congrArg (· + 1) (length_toD8List sg r (toD8 v sg g).2)

/-- In a list of distinct keys with their values the value of the n-th key is found. -/
theorem find?_zip_key {α : Type} {ks : List Nat} (distinct : ks.Nodup) {vs : List α} {n : Nat} (hk : n < ks.length)
    (hv : n < vs.length) : (ks.zip vs).find? (·.1 == ks[n]) = some (ks[n], vs[n]) := by
  have hz : n < (ks.zip vs).length := by
    rw [List.length_zip]
    omega
  refine List.find?_eq_some_iff_getElem.2 ⟨by simp, n, hz, List.getElem_zip, fun m hm => ?_⟩
  have other : ks[m]'(by omega) ≠ ks[n] := fun e => absurd (distinct.getElem_inj_iff.1 e) (by omega)
  simpa [List.getElem_zip] using other

/-! What an `mgath` reads, after its tensor's descriptor has been read (R172, R173). -/

/-- Two states with the same contexts, slots and task entries. -/
structure SameTiles (s u : State) : Prop where
  here : u.here = s.here
  cx : u.cx = s.cx
  others : u.others = s.others
  slot : u.slot = s.slot
  entry : u.entry = s.entry

theorem State.Walked.sameTiles {s u : State} (w : State.Walked s u) : SameTiles s u := by
  obtain ⟨e, _⟩ := w
  refine ⟨e.here, e.cx, e.others, ?_, ?_⟩
  · funext cl k
    exact congrArg (tget {} · k) (e.tiles cl).1
  · funext cl k
    exact congrArg (fun t : Table Entry => (t.find? (·.1 == k)).map Prod.snd) (e.tiles cl).2

/-- The state in which gathered rows are on their way to the A latch. -/
def State.gathered (s : State) (rows : Latch) : State :=
  let t := s.push 12 (.latchA rows)
  { t with cx := { t.cx with mat := { t.cx.mat with mgathAt := some s.cx.btime } } }

theorem gathered_cx (s : State) (rows : Latch) : (s.gathered rows).cx = { s.cx with
    pending := s.cx.pending ++ [⟨s.cx.btime + 12, false, .latchA rows⟩]
    mat := { s.cx.mat with mgathAt := some s.cx.btime } } := rfl

section Gather
variable {s u : State} (same : SameTiles s u)
include same

theorem SameTiles.hereCluster : u.hereCluster = s.hereCluster := by
  rw [State.hereCluster, same.here, State.hereCluster]

theorem SameTiles.pinnedTile (t : TileId) : u.pinnedTile t = s.pinnedTile t := by
  simp only [State.pinnedTile, State.taskPins, State.taskEntry, same.hereCluster, same.here, same.cx, same.others, same.slot,
    same.entry]

theorem SameTiles.gatherRows (w : BitVec 512) (ext0 : Nat) (v : VReg) (lanes : List Nat) :
    u.gatherRows w ext0 v lanes = s.gatherRows w ext0 v lanes := by
  induction lanes with
  | nil => rfl
  | cons i rest ih => simp only [State.gatherRows, ih, same.pinnedTile, same.cx]

theorem SameTiles.gatherLatch (w : BitVec 512) (l : List (Nat × Nat × Nat)) : u.gatherLatch w l = s.gatherLatch w l := by
  simp only [State.gatherLatch, same.hereCluster, same.slot]

theorem SameTiles.gatherStall (cycle : u.cycle = s.cycle) (l : List (Nat × Nat × Nat)) : u.gatherStall l = s.gatherStall l := by
  simp only [State.gatherStall, same.cx, cycle]

end Gather

/-! What an `mst` writes (R176). -/

/-- The elements of a stream's region inside its edge masks, row by row. -/
def mstCells (r : BitVec 512) : List (Nat × Nat) :=
  ((List.range (wRows r * wCols r)).map fun n => (n / wCols r, n % wCols r)).filter fun x => inEdge r x.1 x.2
/-- What the slot of a stream holds after an `mst` of the values of a tile, and the generator after it. -/
def mstResult (r : BitVec 512) (val : Nat → Nat → Val) (x : LoamSlot) (gen : BitVec 64) : LoamSlot × BitVec 64 :=
  if wType r = .d8 then mstD8 (wSmode r) ((mstCells r).map fun c => (c.1, c.2, val c.1 c.2)) x gen
  else ({ x with data := (mstCells r).foldl (fun d c => putElem d ((c.1 * wCols r + c.2) * esize (wType r)) (ElemType_width (wType r))
    (convLane (wType r) .rne (val c.1 c.2)).toNat) x.data }, gen)
/-- The state after an `mst` of that result. -/
def State.stored (s : State) (r : BitVec 512) (x : LoamSlot × BitVec 64) : State :=
  ({ s.setSlot s.hereCluster (wSlot r) x.1 with cx := { s.cx with
      stoch := x.2, mat := { s.cx.mat with storing := s.cx.mat.storing ++ [wSlot r] } } } : State).later 32 (.mstComplete s.here)

theorem mstResult_gen (r : BitVec 512) (val : Nat → Nat → Val) (x : LoamSlot) (gen : BitVec 64) : (mstResult r val x gen).2 =
    if wType r = .d8 then (mstD8 (wSmode r) ((mstCells r).map fun c => (c.1, c.2, val c.1 c.2)) x gen).2 else gen := by
  unfold mstResult
  split
  · rfl
  · rfl

theorem stored_cx (s : State) (r : BitVec 512) (x : LoamSlot × BitVec 64) : (s.stored r x).cx = { s.cx with
    stoch := x.2, mat := { s.cx.mat with storing := s.cx.mat.storing ++ [wSlot r] } } := rfl

theorem stored_slot (s : State) (r : BitVec 512) (x : LoamSlot × BitVec 64) :
    (s.stored r x).slot s.hereCluster (wSlot r) = x.1 := by
  have cluster : (s.stored r x).cluster s.hereCluster = (s.setSlot s.hereCluster (wSlot r) x.1).cluster s.hereCluster := rfl
  rw [State.slot, cluster, State.setSlot, State.cluster_setCluster]
  exact tget_tset_same _ _ _ _

theorem slotElem_mstResult (r : BitVec 512) (val : Nat → Nat → Val) (x : LoamSlot) (gen : BitVec 64) (number : wType r ≠ .d8)
    (fits : wRows r * wCols r * esize (wType r) ≤ 4096) {i j : Nat} (hi : i < wRows r) (hj : j < wCols r) :
    slotElem (mstResult r val x gen).1.data (wCols r) (wType r) i j =
      if inEdge r i j then (convLane (wType r) .rne (val i j)).toNat % 2 ^ ElemType_width (wType r)
      else slotElem x.data (wCols r) (wType r) i j := by
  have inside : i * wCols r + j < wRows r * wCols r := by
    have le : (i + 1) * wCols r ≤ wRows r * wCols r := Nat.mul_le_mul_right _ hi
    rw [Nat.add_mul] at le
    omega
  rw [mstResult, if_neg number, mstCells, List.filter_map]
  refine (slotElem_foldl_putElem x.data (wType r) fits _ (fun i j => (convLane (wType r) .rne (val i j)).toNat) hj inside).trans ?_
  simp only [Function.comp_apply, cell_row hj, cell_col hj]

/-- A check of a latch that an `mpass` loads passes when the latch is kept, or when its fault is not there. -/
theorem loads_eq_false {keep bad : Bool} (h : keep = false → bad = false) : (!keep && bad) = false := by
  cases keep with
  | true => rfl
  | false => exact h rfl

section Words
variable {s : State} {p : Pred} (holds : s.holds p = true) (own : s.cx.id.mown = true) {a : BitVec 2}
include holds own

section Tiles
variable (claimed : a.toNat < s.cx.id.nacc)
include claimed

theorem exec_mrd_lanes (row : BitVec 6) {t : ElemType} (v : BitVec 6) (k : BitVec 4) (ht : t ≠ .d8) :
    exec (.mrd p a row t v k) s = .next (s.pushShared 4 (.v (physV v s.cx.vrot) (s.rk k) (mkVReg fun j =>
      convLane t .rne (accVal s.cx.acc[a.toNat].kind (accElem s.cx.acc[a.toNat].data row.toNat j))))) := by
  rw [exec_mrd, execMrd, matrixWord_owner holds own 4 (.inl rfl)]
  simp only [claimed_iff.2 claimed, beq_false_of_ne ht]
  rfl

/-- `mrd` to d8: the active lanes have their codes, drawn in order, under the σ that their values choose. -/
theorem exec_mrd_d8 (row v : BitVec 6) (k : BitVec 4) :
    let val := fun c => accVal s.cx.acc[a.toNat].kind (accElem s.cx.acc[a.toNat].data row.toNat c)
    let act := (List.range 64).filter (s.rk k).getLsbD
    let sg := chooseSigma (act.map val)
    let r := toD8List sg (act.map val) s.cx.stoch
    ∃ y, exec (.mrd p a row .d8 v k) s = .next (({ s with cx := { s.cx with stoch := r.2 } } : State).pushShared 4
        (.v (physV v s.cx.vrot) (s.rk k) y)) ∧
      ∀ n (h : n < act.length), lane y act[n] = d8Lane (r.1.getD n 0) sg := by
  intro val act sg r
  refine ⟨mkVReg fun j => (((act.zip (r.1.map fun c => d8Lane c sg)).find? (·.1 == j)).map Prod.snd).getD 0, ?_, fun n h => ?_⟩
  · rw [exec_mrd, execMrd, matrixWord_owner holds own 4 (.inl rfl)]
    simp only [claimed_iff.2 claimed]
    rfl
  · have distinct : act.Nodup := List.nodup_range.filter _
    have small : act[n] < 64 := List.mem_range.1 (List.mem_of_mem_filter (List.getElem_mem h))
    have codes : n < r.1.length := by
      rw [length_toD8List, List.length_map]
      exact h
    rw [lane_mkVReg _ _ small, find?_zip_key distinct h (by simpa using codes), List.getD_eq_getElem _ _ codes]
    simp

/-- `mst` puts the region's elements into the open tile of its stream. -/
theorem exec_mst_stores (w : BitVec 4) (q : BitVec 2) {r0 c0 : Nat} (bound : wBound (s.rw w) = true)
    (isOpen : s.isOpen (s.rw w) = true) (idle : s.storing (s.rw w) = false)
    (region : mstRegion (wRows (s.rw w)) (wCols (s.rw w)) q.toNat = some (r0, c0)) :
    exec (.mst p a w q) s = .next (s.stored (s.rw w) (mstResult (s.rw w)
      (fun i j => accVal s.cx.acc[a.toNat].kind (accElem s.cx.acc[a.toNat].data (r0 + i) (c0 + j)))
      (s.slot s.hereCluster (wSlot (s.rw w))) s.cx.stoch)) := by
  rw [exec_mst, execMst, matrixWord_owner holds own 6 (.inl rfl)]
  simp only [claimed_iff.2 claimed, bound, isOpen, region, idle, mstResult]
  by_cases d8 : wType (s.rw w) = .d8
  · simp only [d8, if_true]
    rfl
  · simp only [d8, beq_false_of_ne d8, if_false, List.foldl_map]
    rfl

end Tiles

section Free
variable (free : s.cx.mode = .task ∨ s.cx.passes.any Pass.suspended = false)
include free

section Tiles
variable (claimed : a.toNat < s.cx.id.nacc)
include claimed

/-- `minit` gives every element its value, on a tile of its kind or of none. -/
theorem exec_minit_fits (sel : BitVec 2) (i : Bool) (x : BitVec 5)
    (fits : s.cx.acc[a.toNat].kind = .none ∨ s.cx.acc[a.toNat].kind = if i then .i40 else .f40) :
    exec (.minit p a sel i x) s = .next (s.setAcc a
      ⟨BitVec.ofNat 163840 (packAcc (List.replicate 4096 (initBits sel i (s.rx x)))), if i then .i40 else .f40⟩) := by
  rw [exec_minit, execMinit, matrixWord_owner holds own 3 (.inr free)]
  simp only [claimed_iff.2 claimed, kindFits_iff.2 fits]
  rfl

theorem exec_minit_other (sel : BitVec 2) (i : Bool) (x : BitVec 5) (kinded : s.cx.acc[a.toNat].kind ≠ .none)
    (other : s.cx.acc[a.toNat].kind ≠ if i then .i40 else .f40) :
    exec (.minit p a sel i x) s = .next (s.takeTrap ⟨0x0B, 4, a.setWidth 64, 0, 0⟩) := by
  have misfit : kindFits s.cx.acc[a.toNat].kind (if i then .i40 else .f40) = false :=
    Bool.eq_false_iff.2 fun h => (kindFits_iff.1 h).elim kinded other
  rw [exec_minit, execMinit, matrixWord_owner holds own 3 (.inr free)]
  simp only [claimed_iff.2 claimed, misfit]
  rfl

/-- `mwr` writes the active elements of its row. -/
theorem exec_mwr_fits (row : BitVec 6) (t : ElemType) (v : BitVec 6) (k : BitVec 4)
    (fits : s.cx.acc[a.toNat].kind = .none ∨ s.cx.acc[a.toNat].kind = if t.isInt then .i40 else .f40) :
    exec (.mwr p a row t v k) s = .next (s.setAcc a ⟨((List.range 64).filter (s.rk k).getLsbD).foldl
      (fun d j => putAcc d row.toNat j (accOf t (lane (s.rv v) j))) s.cx.acc[a.toNat].data, if t.isInt then .i40 else .f40⟩) := by
  rw [exec_mwr, execMwr, matrixWord_owner holds own 5 (.inr free)]
  simp only [claimed_iff.2 claimed, kindFits_iff.2 fits]
  rfl

end Tiles

/-! The words of passes: `mpass`, `mop` (R170, R171). -/

/-- An `mpass` with operands it accepts loads or keeps each latch and appends its pass. -/
theorem exec_mpass_issues (claimed : a.toNat < s.cx.id.nacc) (wA wB : BitVec 4) (o : CellOp) (ka kb : Bool) {la lb : Latch}
    (loadedA : la = if ka then s.cx.latchA else loadA (s.slot s.hereCluster (wSlot (s.rw wA))) (s.rw wA))
    (loadedB : lb = if kb then s.cx.latchB else loadB (s.slot s.hereCluster (wSlot (s.rw wB))) (s.rw wB))
    (okA : ka = false → wBound (s.rw wA) = true ∧ s.storing (s.rw wA) = false ∧ wRows (s.rw wA) = 64 ∧
      (wType (s.rw wA) = .d8 → wSmode (s.rw wA) = false))
    (okB : kb = false → wBound (s.rw wB) = true ∧ s.storing (s.rw wB) = false ∧ wCols (s.rw wB) = 64 ∧
      (wType (s.rw wB) = .d8 → wSmode (s.rw wB) = true))
    (same : la.fmt = lb.fmt) (low : 1 ≤ la.fmt.toNat) (high : la.fmt.toNat ≤ 4)
    (fits : (s.startTile a).kind = .none ∨ (s.startTile a).kind = passKind la.fmt) :
    exec (.mpass p a wA wB o ka kb) s = .next { s with cx := { s.cx with
      latchA := la, latchB := lb,
      passes := s.cx.passes ++ [⟨a, o, BitVec.ofNat 2 (la.fmt.toNat - 1), 0, s.cx.btime + 38, s.cx.btime,
        (s.startTile a).data, passKind la.fmt, false, false, false,
        if ka && s.cx.mat.mgathAt.elim false (fun g => decide (s.cx.btime < g + 12)) then some s.cx.latchA else none⟩] } } := by
  have boundA : (!ka && !wBound (s.rw wA)) = false := loads_eq_false fun h => by simp [(okA h).1]
  have boundB : (!kb && !wBound (s.rw wB)) = false := loads_eq_false fun h => by simp [(okB h).1]
  have storedA : (!ka && s.storing (s.rw wA)) = false := loads_eq_false fun h => (okA h).2.1
  have storedB : (!kb && s.storing (s.rw wB)) = false := loads_eq_false fun h => (okB h).2.1
  have shapeA : (!ka && (wRows (s.rw wA) != 64 || (wType (s.rw wA) == .d8 && wSmode (s.rw wA)))) = false :=
    loads_eq_false fun h => by
      obtain ⟨_, _, rows, smode⟩ := okA h
      simpa [rows] using smode
  have shapeB : (!kb && (wCols (s.rw wB) != 64 || (wType (s.rw wB) == .d8 && !wSmode (s.rw wB)))) = false :=
    loads_eq_false fun h => by
      obtain ⟨_, _, cols, smode⟩ := okB h
      simpa [cols] using smode
  have known : (la.fmt != lb.fmt || la.fmt == 0 || 5 ≤ la.fmt) = false := by
    have loaded : la.fmt ≠ 0 := by bv_omega
    have below : ¬ 5 ≤ la.fmt := by bv_omega
    simpa [← same] using And.intro loaded below
  have code : (la.fmt - 1).setWidth 2 = BitVec.ofNat 2 (la.fmt.toNat - 1) := by bv_omega
  have shadow : (if ka && s.cx.mat.mgathAt.elim false (fun g => decide (s.cx.btime < g + 12)) then some la else none) =
      if ka && s.cx.mat.mgathAt.elim false (fun g => decide (s.cx.btime < g + 12)) then some s.cx.latchA else none := by
    cases ka with
    | true =>
      have kept : la = s.cx.latchA := loadedA
      rw [kept]
    | false => rfl
  rw [exec_mpass, execMpass, matrixWord_owner holds own 0 (.inr free)]
  simp only [claimed_iff.2 claimed, boundA, boundB, storedA, storedB, shapeA, shapeB, ← loadedA, ← loadedB, known,
    kindFits_iff.2 fits, code, shadow]
  rfl

theorem exec_mop_running (o : CellOp) {q : Pass} {l : List Pass} (last : s.cx.passes = l ++ [q]) (left : q.step < 32)
    (running : q.suspended = false) :
    exec (.mop p o) s = .next { s with cx := { s.cx with passes := l ++ [{ q with op := o }] } } := by
  rw [exec_mop, execMop, matrixWord_owner holds own 1 (.inr free)]
  simp [last, left, running]

theorem exec_mop_done (o : CellOp) (done : ∀ (q : Pass) (l : List Pass), s.cx.passes = l ++ [q] → 32 ≤ q.step) :
    exec (.mop p o) s = .next (s.push 1 .mopx) := by
  rw [exec_mop, execMop, matrixWord_owner holds own 1 (.inr free)]
  cases last : s.cx.passes.getLast? with
  | none => rfl
  | some q =>
    obtain ⟨l, e⟩ := List.getLast?_eq_some_iff.1 last
    simp [Nat.not_lt.2 (done q l e)]

/-! The gathered operand: `mgath` (R172). -/

/-- An `mgath` whose lanes all find their rows, with no bank conflict left, delivers the rows to the A latch after 12. -/
theorem exec_mgath_delivers (v : BitVec 6) (w k : BitVec 4) {tn : Tensor} {l : List (Nat × Nat × Nat)}
    (bound : wBound (s.rw w) = true) (rows : wRows (s.rw w) = 64)
    (tensor : (s.tensor s.hereCluster s.cx.id.space (wTensor (s.rw w))).2 = .ok (some tn))
    (found : s.gatherRows (s.rw w) tn.ext0 (s.rv v)
      ((List.range 64).filter fun i => (s.rk k).getLsbD i && (wEdgeR (s.rw w)).getLsbD i) = .ok l)
    (idle : ∀ x ∈ l, x.2.1 ∉ s.cx.mat.storing) (ready : s.gatherStall l = none) :
    ∃ t, exec (.mgath p v w k) s = .next t ∧ t.issue.verdict = s.issue.verdict ∧
      t.cx = { s.cx with
        pending := s.cx.pending ++ [⟨s.cx.btime + 12, false, .latchA (s.gatherLatch (s.rw w) l)⟩]
        mat := { s.cx.mat with mgathAt := some s.cx.btime } } := by
  have walked := State.walked_tensor s s.hereCluster s.cx.id.space (wTensor (s.rw w))
  rw [exec_mgath, execMgath, matrixWord_owner holds own 2 (.inr free)]
  simp only [bound, rows]
  revert walked tensor
  generalize s.tensor s.hereCluster s.cx.id.space (wTensor (s.rw w)) = r
  obtain ⟨u, o⟩ := r
  rintro (rfl : o = _) walked
  have same : SameTiles s u := walked.sameTiles
  obtain ⟨engine, m, marks⟩ := walked
  have read : u.gatherRows (s.rw w) tn.ext0 (u.rv v)
      ((List.range 64).filter fun i => (s.rk k).getLsbD i && (wEdgeR (s.rw w)).getLsbD i) = .ok l := by
    rw [same.gatherRows, State.rv, same.cx]
    exact found
  have unstored : (l.any fun (_, k, _) => u.cx.mat.storing.contains k) = false := by
    simpa [same.cx] using idle
  have unhindered : u.gatherStall l = none := (same.gatherStall engine.cycle l).trans ready
  simp only [read, unstored, unhindered]
  refine ⟨u.gathered (u.gatherLatch (s.rw w) l), rfl, ?_, ?_⟩
  · have kept := congrArg Issue.verdict marks
    exact kept
  · rw [same.gatherLatch, gathered_cx, same.cx]

end Free
end Words

/-- Settles O40: each word is given by its own lemma above. -/
theorem matrixWords : Obligations.MatrixWords := by
  unfold Obligations.MatrixWords
  intro p a s holds own tile val
  refine ⟨fun claimed => ⟨fun row t v k ht => exec_mrd_lanes holds own claimed row v k ht,
    fun row v k => exec_mrd_d8 holds own claimed row v k, ?_⟩, fun free => ⟨fun claimed => ⟨?_, ?_, ?_⟩, ?_, ?_, ?_⟩, fun _ => rfl⟩
  · intro w q r0 c0 r t old cells d8 bound isOpen idle region
    refine ⟨_, exec_mst_stores holds own claimed w q bound isOpen idle region, List.mem_append_right _ List.mem_cons_self, ?_, rfl,
      fun ht => ?_, fun ht fits i hi j hj => ?_⟩
    · rw [stored_cx, mstResult_gen]
      rfl
    · rw [stored_slot, mstResult, if_pos ht]
      rfl
    · rw [stored_slot]
      exact slotElem_mstResult r _ old _ ht fits hi hj
  · intro sel i x kind
    refine ⟨fun fits => ⟨_, exec_minit_fits holds own free claimed sel i x fits, rfl, fun r hr c hc => ?_⟩, fun kinded other =>
      exec_minit_other holds own free claimed sel i x kinded other⟩
    rw [accElem_of_all hr hc, initBits_eq]
  · intro row t v k kind fits
    refine ⟨_, exec_mwr_fits holds own free claimed row t v k fits, rfl, fun r hr c hc => ?_⟩
    rw [accElem_foldl_putAcc _ row.isLt (fun j => accOf t (lane (s.rv v) j))
      (fun j hj => List.mem_range.1 (List.mem_of_mem_filter hj)) hr hc]
    simp only [List.mem_filter, List.mem_range, hc, true_and]
    rfl
  · intro wA wB o ka kb rA rB la lb okA okB same low high fits
    exact exec_mpass_issues holds own free claimed wA wB o ka kb rfl rfl okA okB same low high fits
  · exact fun o q l last left running => exec_mop_running holds own free o last left running
  · exact fun o done => exec_mop_done holds own free o done
  · intro v w k tn l r bound rows tensor found idle ready
    exact exec_mgath_delivers holds own free v w k bound rows tensor found idle ready

end Sys2Proof.Machine
end

