-- ==== Sys2Proof/Proofs/MatrixAndBarrierEvents.lean ====
section
/-! Events of the copy unit, of barrier waiters and of the matrix engine (R176, R178, R262, R266, R268), with one copy, one waiter
or one pass there. -/

namespace Sys2Proof.Machine

/-! Bytes of scratch. -/

/-- Bytes outside those written read as before. -/
theorem cellsRead_cellsWrite_outside {m : List Host.Cell} (wf : Memory.wf m = true) {b n : Nat} (v : Nat) :
    ∀ (k a : Nat), (a + k ≤ b ∨ b + n ≤ a) → cellsRead (cellsWrite m b n v) a k = cellsRead m a k
  | 0, _, _ => rfl
  | k + 1, a, beside => by
    rw [cellsRead, cellsRead, cellRead_cellsWrite_outside a n b v m wf (by omega),
      cellsRead_cellsWrite_outside wf v k (a + 1) (by omega)]

/-! The fields of a barrier object (R263). -/

theorem bPending_bPut (b : BitVec 128) {v : Nat} (hv : v < 2 ^ 48) : bPending (bPut b 0 48 v) = v := by
  rw [bPut_eq_replaceBits, bPending, extractLsb'_replaceBits_same b v (by decide), BitVec.toNat_ofNat, Nat.mod_eq_of_lt hv]

/-- An object after a fault of a copy: FAULT, FCAUSE if it was 0, and one more in FCOUNT (R266). -/
def faulted (b : BitVec 128) (cause : Nat) : BitVec 128 :=
  let b := bPut b 49 1 1
  let b := if bFcause b == 0 then bPut b 96 8 cause else b
  bPut b 104 24 (min (bFcount b + 1) (2 ^ 24 - 1))

theorem bFault_bPut_beside (b : BitVec 128) {lo n : Nat} (v : Nat) (above : 49 < lo) : bFault (bPut b lo n v) = bFault b := by
  rw [bPut_eq_replaceBits, bFault, getLsbD_replaceBits b lo n v (by decide), if_neg (by omega), bFault]

theorem bFault_faulted (b : BitVec 128) (cause : Nat) : bFault (faulted b cause) = true := by
  have set : bFault (bPut b 49 1 1) = true := by
    rw [bPut_eq_replaceBits, bFault, getLsbD_replaceBits b 49 1 1 (by decide), if_pos (by decide)]
    rfl
  unfold faulted
  dsimp only
  rw [bFault_bPut_beside _ _ (by decide)]
  split
  · rw [bFault_bPut_beside _ _ (by decide), set]
  · exact set

theorem bFcause_bPut_beside (b : BitVec 128) {lo n : Nat} (v : Nat) (beside : lo + n ≤ 96 ∨ 104 ≤ lo) :
    bFcause (bPut b lo n v) = bFcause b := by
  rw [bPut_eq_replaceBits, bFcause, extractLsb'_replaceBits_beside b v (by decide) (by omega), bFcause]

/-- The first fault counts. -/
theorem bFcause_faulted {b : BitVec 128} (first : bFcause b = 0) {cause : Nat} (hc : cause < 256) :
    bFcause (faulted b cause) = cause := by
  have kept : bFcause (bPut b 49 1 1) = 0 := (bFcause_bPut_beside b 1 (by decide)).trans first
  unfold faulted
  dsimp only
  rw [bFcause_bPut_beside _ _ (by decide), if_pos (by rw [kept]; rfl), bPut_eq_replaceBits, bFcause,
    extractLsb'_replaceBits_same _ cause (by decide), BitVec.toNat_ofNat]
  exact Nat.mod_eq_of_lt hc

namespace State

/-! What closing an access and writing a copy's record leave of a cluster. -/

theorem cluster_mapContexts (s : State) (f : Context → Context) (n : Nat) :
    ∃ es, (s.mapContexts f).cluster n = { s.cluster n with entries := es } := by
  unfold mapContexts cluster
  dsimp only
  induction s.clusters with
  | nil => exact ⟨_, rfl⟩
  | cons x r ih =>
    obtain ⟨k, c⟩ := x
    rw [List.map_cons, tget, tget]
    split
    · exact ⟨_, rfl⟩
    · exact ih

section Close
variable (s : State) (id n : Nat)

theorem closeAccess_cluster : ∃ es, (s.closeAccess id).cluster n = { s.cluster n with entries := es } := s.cluster_mapContexts _ n
theorem closeAccess_scratch : ((s.closeAccess id).cluster n).scratch = (s.cluster n).scratch := by
  obtain ⟨es, h⟩ := s.closeAccess_cluster id n
  rw [h]
theorem closeAccess_copies : ((s.closeAccess id).cluster n).copies = (s.cluster n).copies := by
  obtain ⟨es, h⟩ := s.closeAccess_cluster id n
  rw [h]
theorem closeAccess_waiters : ((s.closeAccess id).cluster n).waiters = (s.cluster n).waiters := by
  obtain ⟨es, h⟩ := s.closeAccess_cluster id n
  rw [h]

end Close

section Objects
variable (s : State) (cl off : Nat)

/-- An object is what its bytes of scratch hold. -/
theorem barrier_congr {t : State} (same : (t.cluster cl).scratch = (s.cluster cl).scratch) : t.barrier cl off = s.barrier cl off := by
  unfold barrier scratchRead
  rw [same]

theorem setBarrier_cluster (b : BitVec 128) : ∃ seen, (s.setBarrier cl off b).cluster cl =
    { s.cluster cl with barBefore := seen, scratch := cellsWrite (s.cluster cl).scratch off 16 b.toNat } := by
  unfold setBarrier noteBarrier scratchWrite
  simp only [cluster_setCluster]
  exact ⟨_, rfl⟩
theorem setBarrier_scratch (b : BitVec 128) :
    ((s.setBarrier cl off b).cluster cl).scratch = cellsWrite (s.cluster cl).scratch off 16 b.toNat := by
  obtain ⟨seen, h⟩ := s.setBarrier_cluster cl off b
  rw [h]
theorem setBarrier_copies (b : BitVec 128) : ((s.setBarrier cl off b).cluster cl).copies = (s.cluster cl).copies := by
  obtain ⟨seen, h⟩ := s.setBarrier_cluster cl off b
  rw [h]
theorem setBarrier_waiters (b : BitVec 128) : ((s.setBarrier cl off b).cluster cl).waiters = (s.cluster cl).waiters := by
  obtain ⟨seen, h⟩ := s.setBarrier_cluster cl off b
  rw [h]

variable {s cl}

theorem barrier_setBarrier (wf : Memory.wf (s.cluster cl).scratch = true) (b : BitVec 128) :
    (s.setBarrier cl off b).barrier cl off = b := by
  rw [barrier, scratchRead, setBarrier_scratch, cellsRead_cellsWrite 16 off b.toNat _ wf]
  have whole : b.toNat % 256 ^ 16 = b.toNat := Nat.mod_eq_of_lt b.isLt
  rw [whole, BitVec.ofNat_toNat, BitVec.setWidth_eq]

theorem releaseWaiters_none (quiet : (s.cluster cl).waiters = []) (v all : Bool) : s.releaseWaiters cl off v all = s := by
  simp [releaseWaiters, quiet]

/-- Fewer bytes than PENDING are paid without turning the phase. -/
theorem barrierPay_below (wf : Memory.wf (s.cluster cl).scratch = true) {n : Nat} (pos : 0 < n)
    (below : n < bPending (s.barrier cl off)) :
    s.barrierPay cl off n = s.setBarrier cl off (bPut (s.barrier cl off) 0 48 (bPending (s.barrier cl off) - n)) := by
  have small : bPending (s.barrier cl off) < 2 ^ 48 := BitVec.isLt _
  have rest : (bPending (s.barrier cl off) - n == 0) = false := by
    rw [beq_eq_false_iff_ne]
    omega
  have nonzero : (n == 0) = false := by
    rw [beq_eq_false_iff_ne]
    omega
  unfold barrierPay
  simp only [nonzero, Bool.false_eq_true, if_false, if_neg (Nat.not_lt.2 below.le)]
  rw [barrierTest, barrier_setBarrier off wf, bPending_bPut _ (by omega), rest]
  simp

/-- A fault of a copy marks its object (R266). -/
theorem barrierFault_copy (quiet : (s.cluster cl).waiters = []) (cause : Nat) :
    s.barrierFault cl off cause true false = s.setBarrier cl off (faulted (s.barrier cl off) cause) := by
  unfold barrierFault
  rw [releaseWaiters_none off (by rw [setBarrier_waiters]; exact quiet)]
  rfl

end Objects

/-! The one copy of a unit. -/

section Copies
variable {s : State} {cl : Nat} {j : CopyJob} (one : (s.cluster cl).copies = [j])
include one

theorem copyOf_one : s.copyOf cl j.id = some j := by
  simp [copyOf, one]

theorem setCopy_one {k : CopyJob} (same : k.id = j.id) :
    s.setCopy cl k = s.setCluster cl { s.cluster cl with copies := [k] } := by
  simp [setCopy, one, same]

theorem setCopy_copies {k : CopyJob} (same : k.id = j.id) : ((s.setCopy cl k).cluster cl).copies = [k] := by
  rw [setCopy_one one same, cluster_setCluster]

omit one in
theorem setCopy_scratch (k : CopyJob) : ((s.setCopy cl k).cluster cl).scratch = (s.cluster cl).scratch := by
  rw [setCopy, cluster_setCluster]
omit one in
theorem setCopy_waiters (k : CopyJob) : ((s.setCopy cl k).cluster cl).waiters = (s.cluster cl).waiters := by
  rw [setCopy, cluster_setCluster]

/-- The end of the copy takes it out of the unit. -/
theorem endCopy_copies : ((s.endCopy cl j.id).cluster cl).copies = [] := by
  rw [endCopy, closeAccess_copies, cluster_setCluster]
  simp [one]
omit one in
theorem endCopy_scratch (id : Nat) : ((s.endCopy cl id).cluster cl).scratch = (s.cluster cl).scratch := by
  rw [endCopy, closeAccess_scratch, cluster_setCluster]

/-- The landing of the copy's only unit ends it. -/
theorem landCopy_last (units : j.units = 1) (landed : j.landed = []) (k n : Nat) : s.landCopy cl j.id k n =
    ((s.setCopy cl { j with landed := [k], sent := j.sent.filter (· != k), lines := [] }).barrierPay cl j.bar n).endCopy cl j.id := by
  rw [landCopy, copyOf_one one]
  simp [landed, units]

/-- It pays the unit's bytes into the object, when that does not turn the phase. -/
theorem landCopy_pays (wf : Memory.wf (s.cluster cl).scratch = true) (units : j.units = 1) (landed : j.landed = []) (k : Nat) {n : Nat}
    (pos : 0 < n) (below : n < bPending (s.barrier cl j.bar)) : ∃ o, bPending o = bPending (s.barrier cl j.bar) - n ∧
      ((s.landCopy cl j.id k n).cluster cl).copies = [] ∧ (s.landCopy cl j.id k n).mem = s.mem ∧
      ((s.landCopy cl j.id k n).cluster cl).scratch = cellsWrite (s.cluster cl).scratch j.bar 16 o.toNat ∧
      (s.landCopy cl j.id k n).barrier cl j.bar = o := by
  rw [landCopy_last one units landed]
  generalize told : ({ j with landed := [k], sent := j.sent.filter (· != k), lines := [] } : CopyJob) = j1
  have same : j1.id = j.id := by rw [← told]
  have scratch : ((s.setCopy cl j1).cluster cl).scratch = (s.cluster cl).scratch := setCopy_scratch j1
  have object : (s.setCopy cl j1).barrier cl j.bar = s.barrier cl j.bar := barrier_congr s cl j.bar scratch
  have wf1 : Memory.wf ((s.setCopy cl j1).cluster cl).scratch = true := by
    rw [scratch]
    exact wf
  have copies : ((s.setCopy cl j1).cluster cl).copies = [j1] := setCopy_copies one same
  have small : bPending (s.barrier cl j.bar) < 2 ^ 48 := BitVec.isLt _
  have below1 : n < bPending ((s.setCopy cl j1).barrier cl j.bar) := by
    rw [object]
    exact below
  rw [barrierPay_below j.bar wf1 pos below1, object]
  generalize paid : bPut (s.barrier cl j.bar) 0 48 (bPending (s.barrier cl j.bar) - n) = o
  refine ⟨o, ?_, ?_, ?_, ?_, ?_⟩
  · rw [← paid, bPending_bPut _ (by omega)]
  · rw [← same]
    exact endCopy_copies ((setBarrier_copies _ _ _ _).trans copies)
  · rfl
  · rw [endCopy_scratch, setBarrier_scratch, scratch]
  · rw [barrier_congr _ cl j.bar (endCopy_scratch j.id), barrier_setBarrier j.bar wf1]

/-- With no unit on its way a copy that has met a fault stops: the object is marked and the copy ended. -/
theorem stopCopy_stops (quiet : (s.cluster cl).waiters = []) (sent : j.sent = []) {cause : BitVec 8} {addr : Dbl}
    (fault : j.fault = some (cause, addr)) : s.stopCopy cl j.id =
      ((s.log (cl / 16) 6 (cl % 16) j.space cause addr 0 0).setBarrier cl j.bar
        (faulted (s.barrier cl j.bar) cause.toNat)).endCopy cl j.id := by
  rw [stopCopy, copyOf_one one]
  simp only [fault, sent]
  exact congrArg (State.endCopy · cl j.id)
    (barrierFault_copy (s := s.log (cl / 16) 6 (cl % 16) j.space cause addr 0 0) j.bar quiet cause.toNat)

theorem stopCopy_marks (quiet : (s.cluster cl).waiters = []) (wf : Memory.wf (s.cluster cl).scratch = true) (sent : j.sent = [])
    {cause : BitVec 8} {addr : Dbl} (fault : j.fault = some (cause, addr)) : ((s.stopCopy cl j.id).cluster cl).copies = [] ∧
      (s.stopCopy cl j.id).barrier cl j.bar = faulted (s.barrier cl j.bar) cause.toNat := by
  rw [stopCopy_stops one quiet sent fault]
  constructor
  · exact endCopy_copies ((setBarrier_copies _ _ _ _).trans one)
  · rw [barrier_congr _ cl j.bar (endCopy_scratch j.id)]
    exact barrier_setBarrier (s := s.log (cl / 16) 6 (cl % 16) j.space cause addr 0 0) j.bar wf _

/-- While units are on their way it does not. -/
theorem stopCopy_waits (sent : j.sent ≠ []) : s.stopCopy cl j.id = s := by
  obtain ⟨k, r, e⟩ := List.exists_cons_of_ne_nil sent
  rw [stopCopy, copyOf_one one]
  simp only [e]
  cases j.fault with
  | none => rfl
  | some f => rfl

/-- The copy with a fault that it has met: the first one counts. -/
def failing (j : CopyJob) (cause : BitVec 8) (addr : Dbl) : CopyJob := { j with fault := some (j.fault.getD (cause, addr)) }

theorem failCopy_one (cause : BitVec 8) (addr : Dbl) :
    s.failCopy cl j.id cause addr = (s.setCopy cl (failing j cause addr)).stopCopy cl j.id := by
  have first : (j.fault <|> some (cause, addr)) = some (j.fault.getD (cause, addr)) := by
    cases j.fault with
    | none => rfl
    | some f => rfl
  rw [failCopy, copyOf_one one]
  simp only [first]
  rfl

end Copies

/-! The bytes of a copy from scratch. -/

/-- A copy from scratch that does not gather reads its source's bytes. -/
theorem copyBytes_scratch (s : State) (cl : Nat) {j : CopyJob} (kind : j.kind = 0) (src : j.srcS = true) : ∀ (n o : Nat),
    s.copyBytes cl j o n = (s, .ok (cellsRead (s.cluster cl).scratch (j.base + (j.src + o)) n))
  | 0, _ => rfl
  | n + 1, o => by
    have byte : s.copyByte cl j o = (s, .ok (cellRead (s.cluster cl).scratch (j.base + (j.src + o))).toNat) := by
      simp [copyByte, kind, copySource, src, scratchRead, cellsRead]
    rw [copyBytes, byte]
    simp only [copyBytes_scratch s cl kind src n (o + 1)]
    rfl

/-- A direct copy of one unit to scratch has all its bytes there. -/
theorem unit_whole {j : CopyJob} (kind : j.kind = 0) (dst : j.dstS = true) (one : j.units = 1) (e : Nat) :
    j.unit 0 e = (j.base + j.dst, 0, j.len) := by
  have bytes : j.unitBytes = 64 := by simp [CopyJob.unitBytes, dst]
  have total : j.total = j.len := by simp [CopyJob.total, kind]
  have base : j.dstBase = j.base + j.dst := by simp [CopyJob.dstBase, dst]
  have units : (j.base + j.dst + j.len - 1) / 64 - (j.base + j.dst) / 64 + 1 = 1 := by
    simpa [CopyJob.units, kind, bytes, total, base] using one
  have first : ((j.base + j.dst) / 64 + 0) * 64 ≤ j.base + j.dst := by omega
  have last : j.base + j.dst + j.len ≤ ((j.base + j.dst) / 64 + 0) * 64 + 64 := by omega
  simp only [CopyJob.unit, kind, bytes, total, base, Nat.max_eq_left first, Nat.min_eq_left last, Nat.sub_self,
    Nat.add_sub_cancel_left]
  rfl

/-- With no waiter a write of scratch is only that. -/
theorem scratchPut_quiet {s : State} {cl : Nat} (quiet : (s.cluster cl).waiters = []) (o n v : Nat) :
    s.scratchPut cl o n v = s.scratchWrite cl o n v := by
  simp [scratchPut, quiet]

theorem scratchWrite_cluster (s : State) (cl o n v : Nat) : (s.scratchWrite cl o n v).cluster cl =
    { s.cluster cl with scratch := cellsWrite (s.cluster cl).scratch o n v } := cluster_setCluster _ _ _

/-- The move of such a copy's only unit. -/
theorem copyUnit_scratch {s : State} {cl : Nat} {j : CopyJob} (quiet : (s.cluster cl).waiters = []) (kind : j.kind = 0)
    (src : j.srcS = true) (dst : j.dstS = true) (units : j.units = 1) (pos : 0 < j.len) : s.copyUnit cl j 0 =
      ((s.scratchWrite cl (j.base + j.dst) j.len (cellsRead (s.cluster cl).scratch (j.base + j.src) j.len)).landCopy
        cl j.id 0 j.len).later 0 (.copyUnitLands cl j.id) := by
  have nonzero : (j.len == 0) = false := by
    rw [beq_eq_false_iff_ne]
    omega
  simp [copyUnit, kind, unit_whole kind dst units, copyBytes_scratch s cl kind src, nonzero, dst, scratchPut_quiet quiet]

end State

/-! The events. -/

/-- The landing of a copy's only unit moves that unit. -/
theorem copyUnitLands_moves {cl : Nat} {j : CopyJob} {s : State} (one : (s.cluster cl).copies = [j]) (units : j.units = 1)
    (after : j.after = []) (landed : j.landed = []) (sent : j.sent = []) (sound : j.fault = none) :
    exec (.copyUnitLands cl j.id) s = .next (s.free.2.copyUnit cl j 0) := by
  rw [exec_copyUnitLands, execCopyUnitLands, State.copyOf_one one]
  simp [sound, after, State.released, units, landed, sent, Nat.mod_one]

/-- The landing of a copy's only unit from scratch to scratch. -/
theorem copyUnitLands_scratch {cl : Nat} {j : CopyJob} {s : State} (one : (s.cluster cl).copies = [j])
    (quiet : (s.cluster cl).waiters = []) (wf : Memory.wf (s.cluster cl).scratch = true) (kind : j.kind = 0) (src : j.srcS = true)
    (dst : j.dstS = true) (units : j.units = 1) (pos : 0 < j.len) (after : j.after = []) (landed : j.landed = []) (sent : j.sent = [])
    (sound : j.fault = none) (apart : j.bar + 16 ≤ j.base + j.dst ∨ j.base + j.dst + j.len ≤ j.bar)
    (below : j.len < bPending (s.barrier cl j.bar)) :
    ∃ t, exec (.copyUnitLands cl j.id) s = .next t ∧ (t.cluster cl).copies = [] ∧ t.mem = s.mem ∧
      cellsRead (t.cluster cl).scratch (j.base + j.dst) j.len = cellsRead (s.cluster cl).scratch (j.base + j.src) j.len ∧
      bPending (t.barrier cl j.bar) = bPending (s.barrier cl j.bar) - j.len := by
  let v := cellsRead (s.cluster cl).scratch (j.base + j.src) j.len
  have read : v < 256 ^ j.len := cellsRead_lt _ _ _
  let u := s.free.2.scratchWrite cl (j.base + j.dst) j.len v
  have cluster : u.cluster cl = { s.cluster cl with scratch := cellsWrite (s.cluster cl).scratch (j.base + j.dst) j.len v } :=
    State.scratchWrite_cluster _ _ _ _ _
  have wf' : Memory.wf (u.cluster cl).scratch = true := cluster ▸ Memory.wf_cellsWrite _ _ _ _ wf
  have object : u.barrier cl j.bar = s.barrier cl j.bar := by
    rw [State.barrier, State.scratchRead, cluster]
    exact congrArg (BitVec.ofNat 128) (cellsRead_cellsWrite_outside wf v 16 j.bar apart)
  obtain ⟨o, pending, copies, mem, scratch, object'⟩ :=
    State.landCopy_pays (s := u) (cluster ▸ one) wf' units landed 0 pos (object.symm ▸ below)
  refine ⟨(u.landCopy cl j.id 0 j.len).later 0 (.copyUnitLands cl j.id), ?_, copies, mem, ?_, ?_⟩
  · rw [copyUnitLands_moves one units after landed sent sound]
    exact congrArg _ (State.copyUnit_scratch (s := s.free.2) quiet kind src dst units pos)
  · refine (congrArg (cellsRead · (j.base + j.dst) j.len) scratch).trans ?_
    rw [cellsRead_cellsWrite_outside wf' _ _ _ (by omega), cluster, cellsRead_cellsWrite _ _ _ _ wf, Nat.mod_eq_of_lt read]
  · rw [← object, ← pending]
    exact congrArg bPending object'

theorem copyFault_unassigned {cause : BitVec 8} (bad : State.unassigned cause = true) (cl id : Nat) (s : State) :
    exec (.copyFault cl id cause) s = .next s := by
  rw [exec_copyFault, execCopyFault]
  simp [bad]

section Fault
variable {cl : Nat} {j : CopyJob} {s : State} {cause : BitVec 8} (one : (s.cluster cl).copies = [j])
  (good : State.unassigned cause = false)
include one good

theorem copyFault_fails : exec (.copyFault cl j.id cause) s =
    .next ((s.free.2.setCopy cl (State.failing j cause s.free.1)).stopCopy cl j.id) := by
  rw [exec_copyFault, execCopyFault]
  simp only [good, Bool.false_eq_true, if_false]
  exact congrArg _ (State.failCopy_one (s := s.free.2) one cause s.free.1)

/-- A copy with no unit on its way stops at the fault, and its object is marked. -/
theorem copyFault_stops (quiet : (s.cluster cl).waiters = []) (wf : Memory.wf (s.cluster cl).scratch = true) (sent : j.sent = [])
    (sound : j.fault = none) : ∃ t, exec (.copyFault cl j.id cause) s = .next t ∧ (t.cluster cl).copies = [] ∧
      t.barrier cl j.bar = faulted (s.barrier cl j.bar) cause.toNat := by
  let k := State.failing j cause s.free.1
  let u := s.free.2.setCopy cl k
  have copies : (u.cluster cl).copies = [k] := State.setCopy_copies (s := s.free.2) one rfl
  have scratch : (u.cluster cl).scratch = (s.cluster cl).scratch := State.setCopy_scratch (s := s.free.2) k
  have waiters : (u.cluster cl).waiters = [] := (State.setCopy_waiters (s := s.free.2) k).trans quiet
  have fault : k.fault = some (cause, s.free.1) := by simp [k, State.failing, sound]
  have wf' : Memory.wf (u.cluster cl).scratch = true := by
    rw [scratch]
    exact wf
  obtain ⟨gone, marked⟩ := State.stopCopy_marks copies waiters wf' sent fault
  exact ⟨_, copyFault_fails one good, gone, marked.trans (congrArg (faulted · _) (State.barrier_congr s cl j.bar scratch))⟩

/-- With units on their way the copy keeps the fault. -/
theorem copyFault_waits (sent : j.sent ≠ []) : ∃ t f, exec (.copyFault cl j.id cause) s = .next t ∧
    (t.cluster cl).copies = [{ j with fault := some f }] ∧ (j.fault = none → f.1 = cause) ∧ (j.fault ≠ none → j.fault = some f) ∧
      t.barrier cl j.bar = s.barrier cl j.bar := by
  let k := State.failing j cause s.free.1
  have copies : ((s.free.2.setCopy cl k).cluster cl).copies = [k] := State.setCopy_copies (s := s.free.2) one rfl
  have stays := State.stopCopy_waits copies sent
  refine ⟨_, j.fault.getD (cause, s.free.1), (copyFault_fails one good).trans (congrArg _ stays), copies, fun h => ?_, fun h => ?_, ?_⟩
  · rw [h]
    rfl
  · obtain ⟨f, e⟩ := Option.ne_none_iff_exists'.1 h
    rw [e]
    rfl
  · exact State.barrier_congr s.free.2 cl j.bar (State.setCopy_scratch k)

end Fault

namespace State

/-- The only waiter ends with the value given. -/
theorem endWait_one {s : State} {cl : Nat} {w : BarWait} {f : Flight} {q : BitVec 3} (one : (s.cluster cl).waiters = [w])
    (flight : s.cx.flights = [f]) (same : w.flight = f.id) (dests : f.dests = [.q q]) (v : Bool) : s.endWait cl w v =
      ({ s.setCluster cl { s.cluster cl with waiters := [] } with cx := Flight.ended f [.q q v] s.cx } : State).closeAccess f.id := by
  have gone : (s.cluster cl).waiters.filter (fun x => x.flight != f.id) = [] := by simp [one, same]
  have there : (s.setCluster cl { s.cluster cl with waiters := [] }).cx.flights = [f] := flight
  unfold endWait
  simp only [same, gone]
  rw [findFlight_here there]
  simp only [dests]
  exact endFlight_here there _

theorem ended_flights {c : Context} {f : Flight} (one : c.flights = [f]) (q : BitVec 3) (v : Bool) :
    (Flight.ended f [.q q v] c).flights = [] := by
  have kept := (landed_land { c with flights := c.flights.filter (·.id != f.id) } (.q q v)).flights
  refine kept.trans ?_
  simp [one]

theorem ended_getQ (f : Flight) (c : Context) {q : BitVec 3} (hq : q ≠ 0) (v : Bool) : (Flight.ended f [.q q v] c).getQ q = v := by
  unfold Flight.ended Context.getQ
  rw [List.foldl_cons, List.foldl_nil, land_q _ hq, bitWrite_getLsbD, if_pos rfl, beq_false_of_ne hq, Bool.false_or]

end State

/-- A waiter whose object's phase has turned ends with qd true unless the object is faulted. -/
theorem bwaitPoll_ends {q : BitVec 3} {off : Nat} {phase tabled : Bool} {f : Flight} {s : State} {k : Nat}
    (one : (s.cluster s.hereCluster).waiters = [⟨s.here, f.id, off, tabled, k⟩]) (flight : s.cx.flights = [f])
    (kind : f.kind = .barrier off phase) (dests : f.dests = [.q q]) (turned : bPhase (s.barrier s.hereCluster off) ≠ phase) :
    ∃ t, exec (.bwaitPoll s.here f.id) s = .next t ∧ (t.cluster s.hereCluster).waiters = [] ∧ t.cx.flights = [] ∧
      (q ≠ 0 → t.rq q = !bFault (s.barrier s.hereCluster off)) := by
  have here : s.here / 64 = s.hereCluster := rfl
  have found : (s.cluster s.hereCluster).waiters.find? (fun w => w.flight == f.id) = some ⟨s.here, f.id, off, tabled, k⟩ := by
    simp [one]
  have ends : State.waitOver (s.barrier s.hereCluster off) phase = true := by simp [State.waitOver, turned]
  have run : exec (.bwaitPoll s.here f.id) s =
      .next (s.endWait s.hereCluster ⟨s.here, f.id, off, tabled, k⟩ (!bFault (s.barrier s.hereCluster off))) := by
    rw [exec_bwaitPoll, execBwaitPoll, here]
    simp only [found, State.findFlight_here flight, kind, ends, if_true]
  rw [State.endWait_one one flight rfl dests] at run
  refine ⟨_, run, ?_, State.ended_flights flight q _, fun hq => State.ended_getQ f s.cx hq _⟩
  rw [State.closeAccess_waiters]
  exact congrArg Cluster.waiters (State.cluster_setCluster s _ _)

theorem mstComplete_drops (c : Nat) (s : State) : ∃ t, exec (.mstComplete c) s = .next t ∧
    (t.ctx c).mat.storing = (s.ctx c).mat.storing.drop 1 ∧ t.mem = s.mem :=
  ⟨_, exec_mstComplete s, by rw [State.ctx_setCtx], State.setCtx_mem _ _ _⟩

theorem mpassLands_writes {c : Nat} {s : State} {q : Pass} (lone : (s.ctx c).passes = [q]) (done : q.step = 32)
    (up : q.landed = false) (due : q.landsAt = (s.ctx c).btime) :
    ∃ t, exec (.mpassLands c) s = .next t ∧ (t.ctx c).acc = (s.ctx c).acc.set q.tile.toNat ⟨q.cells, q.kind⟩ := by
  refine ⟨_, exec_mpassLands s, ?_⟩
  rw [State.ctx_setCtx]
  simp [Context.landPassesAt, lone, landPasses, up, done, due]

/-- Settles O51: each event is given by its own lemma above. -/
theorem matrixAndBarrierEvents : Obligations.MatrixAndBarrierEvents := by
  unfold Obligations.MatrixAndBarrierEvents
  refine ⟨⟨?_, ?_, ?_⟩, fun c s => ⟨mstComplete_drops c s, fun q lone done up due => mpassLands_writes lone done up due⟩⟩
  · intro cl j s m o one quiet wf kind src dst units pos after landed sent sound apart below
    exact copyUnitLands_scratch one quiet wf kind src dst units pos after landed sent sound apart below
  · refine fun cl j cause s => ⟨fun bad => copyFault_unassigned bad cl j.id s, fun one quiet wf good => ⟨fun sent sound => ?_,
      fun sent => copyFault_waits one good sent⟩⟩
    obtain ⟨t, run, gone, marked⟩ := copyFault_stops one good quiet wf sent sound
    exact ⟨t, run, gone, marked ▸ bFault_faulted _ _, fun first => marked ▸ bFcause_faulted first cause.isLt⟩
  · intro q off phase tabled f s k cl o one flight kind dests turned
    exact bwaitPoll_ends one flight kind dests turned

end Sys2Proof.Machine
end

