-- ==== Sys2Proof/Proofs/LoamSlots.lean ====
section
/-! Laws of Loam's slots, of the wakes of a slice's queue and of the version directory: what each gives back and what it leaves as
it is. -/

namespace Sys2Proof.Machine

theorem tset_tset {α : Type} (n : Nat) (v w : α) : ∀ t : Table α, tset (tset t n v) n w = tset t n w
  | [] => by simp [tset]
  | (k, x) :: r => by
    obtain below | rfl | above := Nat.lt_trichotomy n k
    · simp [tset, below]
    · simp [tset]
    · simp [tset, Nat.not_lt.2 above.le, above.ne', tset_tset n v w r]

namespace State

@[simp] theorem setCluster_setCluster (s : State) (n : Nat) (c d : Cluster) :
    (s.setCluster n c).setCluster n d = s.setCluster n d := by
  simp [setCluster, tset_tset]
@[simp] theorem setCluster_hereCluster (s : State) (n : Nat) (c : Cluster) : (s.setCluster n c).hereCluster = s.hereCluster := rfl
@[simp] theorem setCtx_cluster (s : State) (c : Nat) (x : Context) (n : Nat) : (s.setCtx c x).cluster n = s.cluster n := by
  rw [cluster, setCtx_clusters, cluster]
@[simp] theorem later_cluster (s : State) (delay : Nat) (i : Instr) (n : Nat) : (s.later delay i).cluster n = s.cluster n := rfl

/-! Slots. -/

@[simp] theorem slot_setSlot (s : State) (cl key : Nat) (x : LoamSlot) : (s.setSlot cl key x).slot cl key = x := by
  simp [slot, setSlot]
/-- In a Loam without slots every slot is INVALID. -/
theorem slot_of_loam_nil {s : State} {cl : Nat} (empty : (s.cluster cl).loam = []) (key : Nat) : s.slot cl key = {} := by
  simp [slot, empty, tget]

/-- The pins and the contents of slots are no context's. -/
theorem slot_mapContexts (s : State) (f : Context → Context) (cl key : Nat) : (s.mapContexts f).slot cl key = s.slot cl key := by
  obtain ⟨es, h⟩ := s.cluster_mapContexts f cl
  rw [slot, h, slot]

/-! Waking a slice's queue. -/

/-- Waking a slice's queue only puts an action on the agenda. -/
theorem wakeSlice_agenda (s : State) (cl key : Nat) : ∃ a, s.wakeSlice cl key = { s with agenda := s.agenda ++ a } := by
  unfold wakeSlice
  split
  · exact ⟨_, rfl⟩
  · exact ⟨[], by rw [List.append_nil]⟩
theorem wakeSlices_agenda (s : State) (cl : Nat) : ∃ a, s.wakeSlices cl = { s with agenda := s.agenda ++ a } := by
  unfold wakeSlices
  generalize List.range 16 = l
  induction l generalizing s with
  | nil => exact ⟨[], by rw [List.append_nil, List.foldl_nil]⟩
  | cons sl r ih =>
    obtain ⟨a, first⟩ := s.wakeSlice_agenda cl (128 * sl)
    obtain ⟨b, rest⟩ := ih (s.wakeSlice cl (128 * sl))
    exact ⟨a ++ b, by rw [List.foldl_cons, rest, first, List.append_assoc]⟩

section Woken
variable (s : State) (cl key : Nat)
@[simp] theorem wakeSlice_cluster (n : Nat) : (s.wakeSlice cl key).cluster n = s.cluster n := by
  obtain ⟨a, h⟩ := s.wakeSlice_agenda cl key
  rw [h]
  rfl
@[simp] theorem wakeSlice_slot (n k : Nat) : (s.wakeSlice cl key).slot n k = s.slot n k := by rw [slot, wakeSlice_cluster, slot]
@[simp] theorem wakeSlice_ctx (c : Nat) : (s.wakeSlice cl key).ctx c = s.ctx c := (s.wakeSlice_same cl key).2 c
@[simp] theorem wakeSlice_homes : (s.wakeSlice cl key).homes = s.homes := (s.wakeSlice_same cl key).1.homes
@[simp] theorem wakeSlice_mem : (s.wakeSlice cl key).mem = s.mem := (s.wakeSlice_same cl key).1.mem
@[simp] theorem wakeSlice_cycle : (s.wakeSlice cl key).cycle = s.cycle := by
  obtain ⟨a, h⟩ := s.wakeSlice_agenda cl key
  rw [h]
end Woken

/-! The version directory. -/

@[simp] theorem verOf_setVer (s : State) (t : TileId) (e : VerEntry) : (s.setVer t e).verOf t = e := by
  simp [verOf, setVer]
theorem verOf_congr {s t : State} (same : t.homes = s.homes) (tile : TileId) : t.verOf tile = s.verOf tile := by
  rw [verOf, same, verOf]

theorem mergedHome_m (s : State) (t : TileId) (v : BitVec 32) : ((s.mergedHome t v).verOf t).m = v := by
  unfold mergedHome
  dsimp only
  rw [verOf_setVer]
  split <;> rfl

/-! The end of a write-back: the slot in its new state, memory and the homes as they were. -/

section Writeback
variable (s : State) (cl key : Nat) (st : SlotState)

theorem endWriteback_slot : ((s.endWriteback cl key st).slot cl key).state = st := by
  unfold endWriteback
  dsimp only
  rw [wakeSlice_slot]
  split
  · rw [closeAccess, slot_mapContexts, slot_setSlot]
  · rw [slot_setSlot]
theorem endWriteback_mem : (s.endWriteback cl key st).mem = s.mem := by
  unfold endWriteback
  dsimp only
  rw [wakeSlice_mem]
  split <;> rfl
theorem endWriteback_homes : (s.endWriteback cl key st).homes = s.homes := by
  unfold endWriteback
  dsimp only
  rw [wakeSlice_homes]
  split <;> rfl
end Writeback

end State

end Sys2Proof.Machine
end

