-- ==== Sys2Proof/Proofs/ScratchWords.lean ====
section
/-! The way words and the accesses of scratch (R207, R208, R228 to R230). -/

namespace Sys2Proof.Machine

/-- Bytes that were dropped from an offset on read 0. -/
theorem cellRead_filter_below (m : List Host.Cell) {off x : Nat} (above : off ≤ x) : cellRead (m.filter (·.1 < off)) x = 0 := by
  induction m with
  | nil => rfl
  | cons c r ih =>
    obtain ⟨k, b⟩ := c
    by_cases kept : k < off
    · have beside : (k == x) = false := by simp; omega
      simp [kept, cellRead, beside, ih]
    · simp [kept, ih]

namespace State

/-! The queue of way words. -/

/-- The context's way word alone is in the queue of its cluster. -/
def queuedAlone (s : State) : State :=
  s.setCluster s.hereCluster { s.cluster s.hereCluster with convQueue := [s.here] }
/-- A conversion to n ways has been started. -/
def convStarted (s : State) (n : Nat) : State :=
  (s.setCluster s.hereCluster { s.cluster s.hereCluster with conv := some ⟨s.here, n, s.cycle, false⟩ }).later 65536
    (.wayconvPinTimeout s.hereCluster)

/-- The ways up to n are converted: they are awake, and their scratch reads 0. -/
def convDone (s : State) (n : Nat) : State :=
  let c := s.cluster s.hereCluster
  let ways := (List.range 16).flatMap fun sl => (List.range (n - c.converted)).map fun w => 16 * sl + (16 - n + w)
  s.setCluster s.hereCluster (clearScratch { c with
    converted := n, gated := c.gated.filter (!ways.contains ·), waking := c.waking.filter (!ways.contains ·) }
      (c.converted * 524288))
/-- n ways are converted, and scratch above them reads 0. -/
def restored (s : State) (n : Nat) : State :=
  s.setCluster s.hereCluster (clearScratch { s.cluster s.hereCluster with converted := n } (n * 524288))

theorem queuedAlone_cluster (s : State) : s.queuedAlone.cluster s.queuedAlone.hereCluster =
    { s.cluster s.hereCluster with convQueue := [s.here] } := cluster_setCluster _ _ _
/-- With no other way word waiting it is this one's turn. -/
theorem convTurn_alone {s : State} (alone : (s.cluster s.hereCluster).convQueue = []) : s.convTurn = (s.queuedAlone, true) := by
  simp [convTurn, alone, queuedAlone]

/-- The end of a way word takes it out of the queue, and puts actions on the agenda. -/
theorem endConv_shape (s : State) : ∃ a, s.endConv = { s.setCluster s.hereCluster { s.cluster s.hereCluster with
    conv := none, convQueue := (s.cluster s.hereCluster).convQueue.filter (· != s.here) } with agenda := a } := by
  obtain ⟨a, h⟩ := wakeSlices_agenda (s.setCluster s.hereCluster { s.cluster s.hereCluster with
    conv := none, convQueue := (s.cluster s.hereCluster).convQueue.filter (· != s.here) }) s.hereCluster
  exact ⟨_, h⟩
theorem endConv_cluster (s : State) : s.endConv.cluster s.hereCluster =
    { s.cluster s.hereCluster with conv := none, convQueue := (s.cluster s.hereCluster).convQueue.filter (· != s.here) } := by
  obtain ⟨a, h⟩ := s.endConv_shape
  rw [h]
  exact cluster_setCluster _ _ _
@[simp] theorem endConv_cx (s : State) : s.endConv.cx = s.cx := by
  obtain ⟨a, h⟩ := s.endConv_shape
  rw [h]
  rfl
@[simp] theorem endConv_here (s : State) : s.endConv.here = s.here := by
  obtain ⟨a, h⟩ := s.endConv_shape
  rw [h]
  rfl

theorem wx_pending (s : State) (lat : Nat) (d : BitVec 5) (v : Dbl) :
    (s.wx lat d v).cx.pending = s.cx.pending ++ [⟨s.cx.btime + lat, false, .x d v⟩] := rfl
/-- The word's result changes no cluster. -/
theorem wx_endConv_cluster (s : State) (lat : Nat) (d : BitVec 5) (v : Dbl) :
    (s.endConv.wx lat d v).cluster (s.endConv.wx lat d v).hereCluster = { s.cluster s.hereCluster with
      conv := none, convQueue := (s.cluster s.hereCluster).convQueue.filter (· != s.here) } := by
  have here : (s.endConv.wx lat d v).hereCluster = s.hereCluster := by rw [hereCluster, wx_here, endConv_here, hereCluster]
  rw [here, cluster, wx_clusters]
  exact s.endConv_cluster

theorem flushSlot_invalid {s : State} {cl key : Nat} (invalid : (s.slot cl key).state = .invalid) (n : Nat) :
    s.flushSlot cl n key = (s, false) := by
  simp [flushSlot, invalid]

/-- Where nothing of scratch is in use no copy runs, as each names its barrier. -/
theorem copies_nil_of_scratchUses_nil {s : State} {cl : Nat} (unused : s.scratchUses cl = []) : (s.cluster cl).copies = [] := by
  simp only [scratchUses, List.append_eq_nil_iff, List.flatMap_eq_nil_iff] at unused
  obtain ⟨-, named⟩ := unused
  exact List.eq_nil_iff_forall_not_mem.2 fun j hj => by simpa using named j hj

theorem scratchUses_queuedAlone {s : State} (unused : s.scratchUses s.hereCluster = []) :
    s.queuedAlone.scratchUses s.hereCluster = [] := by
  have copies := copies_nil_of_scratchUses_nil unused
  have turn : s.queuedAlone.cluster s.hereCluster = _ := s.queuedAlone_cluster
  have guest : s.queuedAlone.guestCredits s.hereCluster = s.guestCredits s.hereCluster := rfl
  simpa [scratchUses, turn, guest, copies] using unused

end State

section WayWords
variable {p : Pred} {d : BitVec 5} {i : BitVec 12} {s : State} (holds : s.holds p = true) (mode : s.cx.mode = .supervisor)
  (alone : (s.cluster s.hereCluster).convQueue = [])
include holds mode alone

section Convert
variable (idle : (s.cluster s.hereCluster).conv = none) (more : (s.cluster s.hereCluster).converted < i.toNat)
  (empty : (s.cluster s.hereCluster).loam = [])
include idle more empty

/-- `wayconv` in a Loam without slots, step by step: it takes its turn, starts the conversion, finds nothing to flush and
ends it (R207). -/
theorem exec_wayconv_empty : exec (.wayconv p d i none) s =
      .next (((s.queuedAlone.convStarted i.toNat).convDone i.toNat).endConv.wx 1 d (BitVec.ofNat 64 i.toNat)) := by
  have turn := s.queuedAlone_cluster
  generalize hu : s.queuedAlone.convStarted i.toNat = u
  have started : u.cluster u.hereCluster = { s.cluster s.hereCluster with
      convQueue := [s.here], conv := some ⟨s.here, i.toNat, s.cycle, false⟩ } := by
    rw [← hu]
    exact (State.cluster_setCluster _ _ _).trans (by rw [turn]; rfl)
  have invalid (k : Nat) : (u.slot u.hereCluster k).state = .invalid :=
    congrArg LoamSlot.state (State.slot_of_loam_nil (by rw [started]; exact empty) k)
  rw [exec_wayconv, execWayconv, State.perform_true _ _ _ holds, mode, State.convTurn_alone alone]
  refine congrArg Host.Outcome.next ?_
  rw [if_neg (by decide)]
  extract_lets n
  change ite ((!true) = true) _ _ = _
  rw [if_neg (by decide)]
  extract_lets +onlyGivenNames c
  have same : c = { s.cluster s.hereCluster with convQueue := [s.here] } := turn
  rw [if_neg (by rw [same]; exact Nat.not_le.2 more)]
  extract_lets +onlyGivenNames v keys
  have begun : v = u := (if_neg (by rw [same, idle]; decide)).trans hu
  rw [begun, foldl_eq_of_fixed (fun k _ => by simp [State.flushSlot_invalid (invalid k)])]
  change ite ((false || (u.cluster u.hereCluster).conv.elim false WayConv.failed) = true) _ _ = _
  rw [if_neg (by rw [started]; exact Bool.false_ne_true), if_pos (by simp [invalid])]
  rfl

theorem wayconv_converts : ∃ t, exec (.wayconv p d i none) s = .next t ∧
      (t.cluster t.hereCluster).converted = i.toNat ∧ (t.cluster t.hereCluster).conv = none ∧
      t.cx.pending = s.cx.pending ++ [⟨s.cx.btime + 1, false, .x d (BitVec.ofNat 64 i.toNat)⟩] := by
  refine ⟨_, exec_wayconv_empty holds mode alone idle more empty, ?_, ?_, ?_⟩
  · rw [State.wx_endConv_cluster]
    exact congrArg Cluster.converted (State.cluster_setCluster _ _ _)
  · rw [State.wx_endConv_cluster]
  · rw [State.wx_pending, State.endConv_cx]
    rfl

end Convert

section Restore
variable (fewer : i.toNat < (s.cluster s.hereCluster).converted) (unused : s.scratchUses s.hereCluster = [])
include fewer unused

/-- `wayrest` with nothing of scratch in use, step by step: it takes its turn and gives the ways back (R208). -/
theorem exec_wayrest_unused : exec (.wayrest p d i none) s =
      .next ((s.queuedAlone.restored i.toNat).endConv.wx 1 d (BitVec.ofNat 64 i.toNat)) := by
  have turn := s.queuedAlone_cluster
  have copies := State.copies_nil_of_scratchUses_nil unused
  have uses : s.queuedAlone.scratchUses s.queuedAlone.hereCluster = [] := State.scratchUses_queuedAlone unused
  rw [exec_wayrest, execWayrest, State.perform_true _ _ _ holds, mode, State.convTurn_alone alone]
  refine congrArg Host.Outcome.next ?_
  rw [if_neg (by decide)]
  change ite ((!true) = true) _ _ = _
  rw [if_neg (by decide)]
  extract_lets c
  rw [if_neg (by simp [c, turn, copies]), uses]
  change ite (c.converted ≤ i.toNat) _ _ = _
  rw [if_neg (by simp only [c, turn]; exact Nat.not_le.2 fewer)]
  rfl

theorem wayrest_restores :
    ∃ t, exec (.wayrest p d i none) s = .next t ∧ (t.cluster t.hereCluster).converted = i.toNat ∧
      (∀ x, i.toNat * 524288 ≤ x → cellRead (t.cluster t.hereCluster).scratch x = 0) ∧
      t.cx.pending = s.cx.pending ++ [⟨s.cx.btime + 1, false, .x d (BitVec.ofNat 64 i.toNat)⟩] := by
  refine ⟨_, exec_wayrest_unused holds mode alone fewer unused, ?_, ?_, ?_⟩
  · rw [State.wx_endConv_cluster]
    exact congrArg Cluster.converted (State.cluster_setCluster _ _ _)
  · intro x above
    rw [State.wx_endConv_cluster, State.restored, State.setCluster_hereCluster, State.cluster_setCluster]
    exact cellRead_filter_below _ above
  · rw [State.wx_pending, State.endConv_cx]
    rfl

end Restore
end WayWords

namespace State

/-! Accesses of the window. -/

section Access
variable {s : State} {o : Dbl} {n : Nat}

/-- The slot, the kind of access and the level in TINFO2 of a failed access of scratch. -/
def scratchDetail (s : State) (w : Bool) : Dbl := BitVec.ofNat 64 (s.issue.slot % 8 + if w then 0xF10 else 0xF00)

theorem scratchFault_misaligned (off : o.toNat % n ≠ 0) (w : Bool) :
    s.scratchFault o n w = some ⟨0x24, 0, o, s.scratchDetail w, 0⟩ := by
  cases w <;> simp [scratchFault, memFault, off, memoryCause, scratchDetail, Nat.add_assoc]

theorem scratchFault_outside (aligned : o.toNat % n = 0) (outside : s.scratchLimit < o.toNat + n) (w : Bool) :
    s.scratchFault o n w = some ⟨0x2B, 0, o, s.scratchDetail w, 0⟩ := by
  cases w <;> simp [scratchFault, memFault, aligned, outside, memoryCause, scratchDetail, Nat.add_assoc]

theorem scratchFault_inside (aligned : o.toNat % n = 0) (inside : o.toNat + n ≤ s.scratchLimit) (w : Bool) :
    s.scratchFault o n w = none := by
  simp [scratchFault, aligned, Nat.not_lt.2 inside]

/-- A write of scratch may wake waiters too: they are asked by the agenda. -/
theorem scratchPut_shape (s : State) (cl o n v : Nat) :
    ∃ a, s.scratchPut cl o n v = { s.scratchWrite cl o n v with agenda := a } :=
  ⟨_, foldl_later (fun w : BarWait => .bwaitPoll w.ctx w.flight) _ _⟩

end Access
end State

section Words
variable {p : Pred} {d a : BitVec 5} {z : BitVec 2} {o : BitVec 9} {l : Option Word} {s : State}

theorem exec_lds_fault (holds : s.holds p = true) {sx : Bool} {f : FaultInfo}
    (fault : s.scratchFault (s.rx a + immU o l) (2 ^ z.toNat) false = some f) :
    exec (.lds p d a z sx o l) s = .next (s.takeTrap f) := by
  rw [exec_lds, execLds, State.perform_true _ _ _ holds]
  simp only [fault]

theorem exec_sts_fault (holds : s.holds p = true) {f : FaultInfo}
    (fault : s.scratchFault (s.rx a + immU o l) (2 ^ z.toNat) true = some f) :
    exec (.sts p d a z o l) s = .next (s.takeTrap f) := by
  rw [exec_sts, execSts, State.perform_true _ _ _ holds]
  simp only [fault]

theorem exec_lds_inside (holds : s.holds p = true) {off : Dbl} (at_ : s.rx a + immU o l = off)
    (aligned : off.toNat % 2 ^ z.toNat = 0) (inside : off.toNat + 2 ^ z.toNat ≤ s.scratchLimit)
    (free : s.scratchBusy (s.scratchAt off.toNat) (2 ^ z.toNat) false = false) (sx : Bool) :
    exec (.lds p d a z sx o l) s = .next (s.flightBound [.x d] [.x d (
      let v := cellsRead (s.cluster s.hereCluster).scratch (s.scratchAt off.toNat) (2 ^ z.toNat)
      if sx then BitVec.ofInt 64 ((v : Int).bmod (2 ^ (8 * 2 ^ z.toNat))) else BitVec.ofNat 64 v)]) := by
  have small := cellsRead_lt (s.cluster s.hereCluster).scratch (2 ^ z.toNat) (s.scratchAt off.toNat)
  rw [show 256 = 2 ^ 8 from rfl, ← Nat.pow_mul] at small
  rw [exec_lds, execLds, State.perform_true _ _ _ holds]
  simp only [at_, State.scratchFault_inside aligned inside, free, State.scratchRead]
  rw [if_neg Bool.false_ne_true, extendTo64_eq sx (Nat.two_pow_pos _) small]

theorem exec_sts_inside (holds : s.holds p = true) {off : Dbl} (at_ : s.rx a + immU o l = off)
    (aligned : off.toNat % 2 ^ z.toNat = 0) (inside : off.toNat + 2 ^ z.toNat ≤ s.scratchLimit)
    (free : s.scratchBusy (s.scratchAt off.toNat) (2 ^ z.toNat) true = false) :
    exec (.sts p d a z o l) s =
      .next (s.scratchPut s.hereCluster (s.scratchAt off.toNat) (2 ^ z.toNat) (s.rx d).toNat) := by
  rw [exec_sts, execSts, State.perform_true _ _ _ holds]
  simp only [at_, State.scratchFault_inside aligned inside, free]
  rw [if_neg Bool.false_ne_true]

theorem sts_stores (holds : s.holds p = true) {off : Dbl} (at_ : s.rx a + immU o l = off)
    (aligned : off.toNat % 2 ^ z.toNat = 0) (inside : off.toNat + 2 ^ z.toNat ≤ s.scratchLimit)
    (free : s.scratchBusy (s.scratchAt off.toNat) (2 ^ z.toNat) true = false) :
    ∃ t, exec (.sts p d a z o l) s = .next t ∧ (t.cluster t.hereCluster).scratch =
      cellsWrite (s.cluster s.hereCluster).scratch (s.scratchAt off.toNat) (2 ^ z.toNat) (s.rx d).toNat ∧
      t.mem = s.mem ∧ t.cx = s.cx := by
  obtain ⟨agenda, put⟩ := s.scratchPut_shape s.hereCluster (s.scratchAt off.toNat) (2 ^ z.toNat) (s.rx d).toNat
  refine ⟨_, (exec_sts_inside holds at_ aligned inside free).trans (congrArg Host.Outcome.next put), ?_, rfl, rfl⟩
  exact congrArg Cluster.scratch (State.scratchWrite_cluster _ _ _ _ _)

end Words

/-- Settles O44: the way words by their turn in the queue of the cluster, the accesses by the check of the window. -/
theorem scratchWords : Obligations.ScratchWords := by
  unfold Obligations.ScratchWords
  intro p s holds
  refine ⟨?_, ?_⟩
  · intro d i mode alone idle n c
    exact ⟨fun more _ empty => wayconv_converts holds mode alone idle more empty,
      fun fewer unused => wayrest_restores holds mode alone fewer unused⟩
  · intro d a z o l off n at_ m
    have address : s.rx a + immU o l = off := by cases l <;> rfl
    refine ⟨fun aligned inside => ⟨fun free => ⟨?_, ?_⟩, ?_⟩, ?_, ?_⟩
    · exact exec_lds_inside holds address aligned inside free false
    · exact exec_lds_inside holds address aligned inside free true
    · exact fun free => sts_stores holds address aligned inside free
    · intro sx off
      exact ⟨exec_lds_fault holds (by rw [address]; exact State.scratchFault_misaligned off false),
        exec_sts_fault holds (by rw [address]; exact State.scratchFault_misaligned off true)⟩
    · intro sx aligned outside
      exact ⟨exec_lds_fault holds (by rw [address]; exact State.scratchFault_outside aligned outside false),
        exec_sts_fault holds (by rw [address]; exact State.scratchFault_outside aligned outside true)⟩
end Sys2Proof.Machine
end

