-- ==== Sys2Proof/Proofs/LoamEvents.lean ====
section
/-! Loam's events (R191 to R198, R203 to R209, R216), event by event. -/

namespace Sys2Proof.Machine

namespace State

/-! Queued allocations (R192, R204). -/

section Queue
variable {s u : State} {cl : Nat} {a : AllocWait} {l : List AllocWait}

/-- A queue of one slice in which no request is a hint is served in its order. -/
theorem allocOrder_eq_queue {slice : Nat} (queue : (s.cluster cl).allocs = l)
    (all : ∀ b ∈ l, b.slice = slice ∧ onlyHint b.req.user = false) : s.allocOrder cl slice = l := by
  have here : l.filter (·.slice == slice) = l := List.filter_eq_self.2 fun b hb => by simp [(all b hb).1]
  have wanted : l.filter (fun b => !onlyHint b.req.user) = l := List.filter_eq_self.2 fun b hb => by simp [(all b hb).2]
  have hints : l.filter (fun b => onlyHint b.req.user) = [] := List.filter_eq_nil_iff.2 fun b hb => by simp [(all b hb).2]
  simp [allocOrder, queue, here, wanted, hints]

/-- The first in order rides with no other that has no way either. -/
theorem ridesWith_first (order : s.allocOrder cl a.slice = a :: l) (none_ : ∀ b ∈ a :: l, b.way = none) :
    s.ridesWith cl a = false := by
  have first : (a :: l).takeWhile (fun b => b.id != a.id) = [] := by simp
  have noWay : (a :: l).any (fun b => sameAlloc b a && b.way.isSome) = false :=
    List.any_eq_false.2 fun b hb => by simp [none_ b hb]
  unfold ridesWith
  dsimp only
  rw [order, first, noWay]
  simp

theorem joinAlloc_none (closed : a.openV = false) (unasked : s.fillingFor a.req = none)
    (miss : s.localHit cl a.req.tile a.req.want = none) : s.joinAlloc cl a = none := by
  simp [joinAlloc, closed, unasked, miss]

theorem tryAlloc_got {w : Nat} (queued : a ∈ (s.cluster cl).allocs) (first : s.ridesWith cl a = false)
    (apart : s.joinAlloc cl a = none) (way : a.way = none) (got : s.allocate cl a.slice a.set a.klass = (u, .got w)) :
    s.tryAlloc cl a = u.takeWay cl a w := by
  have there : (s.cluster cl).allocs.any (·.id == a.id) = true := List.any_eq_true.2 ⟨a, queued, by simp⟩
  simp [tryAlloc, there, first, apart, way, got]

theorem tryAlloc_unqueued (empty : (s.cluster cl).allocs = []) (a : AllocWait) : s.tryAlloc cl a = s := by
  simp [tryAlloc, empty]

/-- The queue of the cluster is empty. -/
def unqueued (s : State) (cl : Nat) : State := s.setCluster cl { s.cluster cl with allocs := [] }

/-- An allocation with a way takes all that are equal to it along. -/
theorem takeWay_equals (w : Nat) (closed : a.openV = false) (queue : (s.cluster cl).allocs = a :: l)
    (equal : ∀ b ∈ l, sameAlloc a b = true ∧ b.id ≠ a.id) : s.takeWay cl a w =
      (s.unqueued cl).startFilling a.req (128 * a.slice + 8 * w + a.set) a.klass (l.map AllocWait.req) := by
  have others : (a :: l).filter (·.id != a.id) = l := by
    rw [List.filter_cons_of_neg (by simp)]
    exact List.filter_eq_self.2 fun b hb => by simp [(equal b hb).2]
  have all : l.partition (sameAlloc a) = (l, []) := by
    rw [List.partition_eq_filter_filter]
    exact Prod.ext (List.filter_eq_self.2 fun b hb => (equal b hb).1)
      (List.filter_eq_nil_iff.2 fun b hb => by simp [(equal b hb).1])
  unfold takeWay
  simp only [queue, others, closed, cluster_setCluster, all, setCluster_setCluster]
  rfl

theorem startFilling_slot (s : State) (r : TileReq) (key : Nat) (klass : BitVec 2) (more : List TileReq) :
    (s.startFilling r key klass more).slot r.cluster key =
      { state := .filling, tile := r.tile, klass := klass, users := r :: more } := slot_setSlot _ _ _ _
theorem startFilling_allocs (s : State) (r : TileReq) (key : Nat) (klass : BitVec 2) (more : List TileReq) :
    ((s.startFilling r key klass more).cluster r.cluster).allocs = (s.cluster r.cluster).allocs := by
  unfold startFilling setSlot
  rw [later_cluster, cluster_setCluster]

theorem failCtx_parked {c : Nat} {r : TileReq} (parked : (s.ctx c).parked = some r) (f : FaultInfo) :
    s.failCtx c f = (s.setCtx c { s.ctx c with fault := some f }).later 0 (.parkedTaskResume c) := by
  simp [failCtx, parked]
end Queue

end State

/-- The first of the queue takes the way, and the equal requests behind it with it, so that nothing is left to serve (R192). -/
theorem loamAllocation_takes {s u : State} {cl w : Nat} {a : AllocWait} {l : List AllocWait}
    (queue : (s.cluster cl).allocs = a :: l) (closed : a.openV = false) (way : a.way = none) (mine : a.req.cluster = cl)
    (wanted : State.onlyHint a.req.user = false)
    (equal : ∀ b ∈ l, State.sameAlloc a b = true ∧ b.id ≠ a.id ∧ b.slice = a.slice ∧ b.way = none ∧
      State.onlyHint b.req.user = false)
    (unasked : s.fillingFor a.req = none) (miss : s.localHit cl a.req.tile a.req.want = none)
    (got : s.allocate cl a.slice a.set a.klass = (u, .got w)) (kept : (u.cluster cl).allocs = (s.cluster cl).allocs) :
    ∃ t, exec (.loamAllocation cl a.slice) s = .next t ∧ (u.cycle, .homeTileRequest a.req) ∈ t.agenda ∧
      (t.cluster cl).allocs = [] ∧ t.slot cl (128 * a.slice + 8 * w + a.set) =
        { state := .filling, tile := a.req.tile, klass := a.klass, users := a.req :: l.map AllocWait.req } := by
  have order : s.allocOrder cl a.slice = a :: l :=
    State.allocOrder_eq_queue queue (List.forall_mem_cons.2 ⟨⟨rfl, wanted⟩, fun b hb => by
      obtain ⟨-, -, slice, -, hint⟩ := equal b hb
      exact ⟨slice, hint⟩⟩)
  have first : s.ridesWith cl a = false :=
    State.ridesWith_first order (List.forall_mem_cons.2 ⟨way, fun b hb => by
      obtain ⟨-, -, -, none_, -⟩ := equal b hb
      exact none_⟩)
  have takes := (State.tryAlloc_got (by rw [queue]; exact List.mem_cons_self) first (State.joinAlloc_none closed unasked miss)
    way got).trans (State.takeWay_equals w closed (kept.trans queue) fun b hb => by
      obtain ⟨same, other, -⟩ := equal b hb
      exact ⟨same, other⟩)
  have empty : ((u.unqueued cl).cluster cl).allocs = [] := congrArg Cluster.allocs (State.cluster_setCluster _ _ _)
  subst mine
  generalize hv : (u.unqueued a.req.cluster).startFilling a.req (128 * a.slice + 8 * w + a.set) a.klass
    (l.map AllocWait.req) = v at takes
  have gone : (v.cluster a.req.cluster).allocs = [] := by rw [← hv, State.startFilling_allocs, empty]
  have run : exec (.loamAllocation a.req.cluster a.slice) s = .next v := by
    rw [exec_loamAllocation, execLoamAllocation, order, List.foldl_cons, takes,
      foldl_eq_of_fixed fun b _ => State.tryAlloc_unqueued gone b]
  refine ⟨v, run, ?_, gone, ?_⟩
  · rw [← hv]
    exact List.mem_append_right _ List.mem_cons_self
  · rw [← hv, State.startFilling_slot]

theorem allocationTimeout_fails {s : State} {cl c : Nat} {a : AllocWait}
    (queued : (s.cluster cl).allocs.find? (·.id == a.id) = some a) (closed : a.openV = false) (user : a.req.user = .ctx c)
    (parked : (s.ctx c).parked = some a.req) (unasked : s.fillingFor a.req = none)
    (miss : s.localHit cl a.req.tile a.req.want = none) :
    ∃ t, exec (.allocationTimeout cl a.id) s = .next t ∧ (t.ctx c).fault = some { cause := 0x46, i0 := 2 } ∧
      (s.cycle, .parkedTaskResume c) ∈ t.agenda ∧ a ∉ (t.cluster cl).allocs := by
  let out := (s.cluster cl).allocs.filter (·.id != a.id)
  let v := (s.setCluster cl { s.cluster cl with allocs := out }).wakeSlice cl (128 * a.slice)
  have still : (v.ctx c).parked = some a.req := (congrArg Context.parked (State.wakeSlice_ctx _ _ _ c)).trans parked
  have run : exec (.allocationTimeout cl a.id) s = .next (v.failCtx c { cause := 0x46, i0 := 2 }) := by
    rw [exec_allocationTimeout, execAllocationTimeout]
    simp only [queued, State.joinAlloc_none closed unasked miss, user]
    rfl
  rw [State.failCtx_parked still] at run
  refine ⟨_, run, ?_, ?_, ?_⟩
  · exact congrArg Context.fault (State.ctx_setCtx _ _ _)
  · exact List.mem_append_right _ (List.mem_singleton.2 (by simp [v]))
  · have left : (v.cluster cl).allocs = out := by rw [State.wakeSlice_cluster, State.cluster_setCluster]
    rw [State.later_cluster, State.setCtx_cluster, left]
    simp [out]

/-! Requests at the home. -/

namespace State
/-- A request for the latest version is one for at least P once it has come to the home, where P is p (R193, R214). -/
def homeForm (r : TileReq) (p : BitVec 32) : TileReq := if r.want = .latest then { r with want := .atLeast p } else r

section HomeForm
variable (r : TileReq) (p : BitVec 32)
@[simp] theorem homeForm_tile : (homeForm r p).tile = r.tile := by unfold homeForm; split <;> rfl
@[simp] theorem homeForm_cluster : (homeForm r p).cluster = r.cluster := by unfold homeForm; split <;> rfl
theorem arrivedAt_req (s : State) (key : Nat) : (s.arrivedAt r key p).2 = homeForm r p := by
  by_cases latest : r.want = .latest <;> simp [arrivedAt, homeForm, latest]
end HomeForm

section Home
variable {s u v : State} {r : TileReq} {key : Nat} {tn : Tensor} {p : BitVec 32} (filling : s.fillingFor r = some key)
  (here : s.slotAway r.cluster key .fill = (u, .ok (none, tn))) (now : (u.verOf r.tile).p = p)
  (arrived : u.arrivedAt r key p = (v, homeForm r p))
include filling here now arrived

theorem homeRequest_fill {n : BitVec 32} (fill : v.resolve r.tile (homeForm r p).want r.cluster = .fill n) (wait : Nat) :
    s.homeRequest r wait =
      (v.setSlot r.cluster key { v.slot r.cluster key with version := n }).later 0 (.tileFill r.cluster key) := by
  unfold homeRequest
  simp only [filling, here, now, arrived, homeForm_tile, homeForm_cluster, fill]

section Await
variable (await : v.resolve r.tile (homeForm r p).want r.cluster = .await)
include await

theorem homeRequest_idle (idle : ((v.skipHints r.cluster key).slot r.cluster key).users = []) (wait : Nat) :
    s.homeRequest r wait = v.skipHints r.cluster key := by
  unfold homeRequest
  simp only [filling, here, now, arrived, homeForm_tile, homeForm_cluster, await, idle]
  rfl

theorem homeRequest_full (wanted : ((v.skipHints r.cluster key).slot r.cluster key).users ≠ [])
    (full : 64 ≤ ((v.skipHints r.cluster key).homes.awaiting.filter
      (·.1 == (v.skipHints r.cluster key).tileChannel r.cluster r.tile)).length) (wait : Nat) :
    s.homeRequest r wait =
      (v.skipHints r.cluster key).later wait (.awaitListRetry (homeForm r p) (min 16384 (2 * wait))) := by
  unfold homeRequest
  simp only [filling, here, now, arrived, homeForm_tile, homeForm_cluster, await]
  rw [if_neg (by simpa using wanted), listRequest, homeForm_tile, homeForm_cluster]
  exact if_neg (Nat.not_lt.2 full)
end Await
end Home

/-! Fills. -/

theorem underKeys_nil (s : State) (f : State → State) : s.underKeys [] f = f s := rfl

/-- A fill at its home, whose version memory still holds and whose lines are all of this device, is performed (R199). -/
theorem fillStep_lands {s u v z : State} {cl key : Nat} {r : TileReq} {tn : Tensor} {pg : Table Xlat} {x : LoamSlot} {b : Block}
    {sc : BitVec 128} (here : s.slotAway cl key .fill = (u, .ok (none, tn))) (slot : u.slot cl key = x)
    (current : (u.verOf x.tile).m = x.version) (quiet : u.merging x.tile = false)
    (mapped_ : u.mapPages cl x.tile.space .fill (tileVas tn x.tile.coord) [] = (v, .ok pg)) (kept : v.slot cl key = x)
    (free : v.tileBlocked pg tn x.tile false = none) (near : v.awayLines pg (tileVas tn x.tile.coord) = [])
    (sound : x.lineFail = none) (data : v.fillData cl tn x.tile x.version x.lines = (z, .ok (b, sc))) :
    s.fillStep cl key r = z.landSlot cl key x.version b sc := by
  unfold fillStep
  simp [here, slot, current, quiet, mapped_, free, near, sound, askLines, kept, fillSlot, data]
end State

theorem tileFill_steps {s z : State} {cl key : Nat} {r : TileReq} {rest : List TileReq} (state : (s.slot cl key).state = .filling)
    (users : (s.slot cl key).users = r :: rest) (keys : (s.slot cl key).keys = []) (first : s.yields (s.slot cl key) cl = false)
    (step : s.fillStep cl key r = z) : exec (.tileFill cl key) s = .next z := by
  rw [exec_tileFill, execTileFill]
  simp [state, users, keys, first, State.underKeys_nil, step]

/-! Forwards. -/

section Forward
variable {s : State} {r : TileReq} {key holder : Nat} {v : BitVec 32} (filling : s.fillingFor r = some key) (near : holder < 1000)
include filling near

theorem tileForward_copies {j : Nat} (held : s.localHit holder r.tile (.exactly v) = some j)
    (stays : State.evicting (s.slot holder j) = false) : exec (.tileForward r holder v) s =
      .next (s.landSlot r.cluster key v (s.slot holder j).data (s.slot holder j).scale) := by
  rw [exec_tileForward, execTileForward]
  simp [filling, Nat.not_le.2 near, held, stays]

theorem tileForward_waits {j : Nat} (held : s.localHit holder r.tile (.exactly v) = some j)
    (leaves : State.evicting (s.slot holder j) = true) (still : State.evicting ((s.mergeSlot holder j).slot holder j) = true) :
    exec (.tileForward r holder v) s = .next ((s.mergeSlot holder j).later 1 (.tileForward r holder v)) := by
  rw [exec_tileForward, execTileForward]
  simp [filling, Nat.not_le.2 near, held, leaves, still]

theorem tileForward_absent (absent : s.localHit holder r.tile (.exactly v) = none) :
    exec (.tileForward r holder v) s = .next ((s.dropHolder r.tile holder).later 0 (.homeTileRequest r)) := by
  rw [exec_tileForward, execTileForward]
  simp [filling, Nat.not_le.2 near, absent]
end Forward

/-! `snew` at the home. -/

theorem snewAtHome_withdrawn {s : State} {c : Nat} {tile : TileId}
    (other : ∀ o, (s.ctx c).opening = some o → o.tile ≠ tile ∨ o.granted ≠ none) (n : BitVec 32) (b : Bool) :
    exec (.snewAtHome c tile n b) s = .next s := by
  have none_ : ((s.ctx c).opening.any fun o => o.tile == tile && o.granted.isNone) = false := by
    cases asks : (s.ctx c).opening with
    | none => rfl
    | some o =>
      obtain h | h := other o asks
      · simp [h]
      · simp [Option.ne_none_iff_isSome.1 h]
  rw [exec_snewAtHome, execSnewAtHome]
  simp [none_]

section Snew
variable {s u : State} {c : Nat} {tile : TileId} {tn : Tensor} {o : Opening} (asks : (s.ctx c).opening = some o)
  (same : o.tile = tile) (waits : o.granted = none) (here : s.tileAway (c / 64) tile = (u, .ok (none, tn)))
include asks same waits here

theorem snewAtHome_grants {n v : BitVec 32} {b : Bool} (grants : u.snewHome tile n b = .ok v) : exec (.snewAtHome c tile n b) s =
    .next ((u.setVer tile { u.verOf tile with openV := some (v, c / 64) }).grantOpen c v) := by
  rw [exec_snewAtHome, execSnewAtHome]
  simp [asks, same, waits, here, grants]

theorem snewAtHome_conflicts {n : BitVec 32} {b : Bool} {f : FaultInfo} (conflict : u.snewHome tile n b = .error f) :
    exec (.snewAtHome c tile n b) s = .next (u.setCtx c { s.ctx c with opening := none, fault := some f }) := by
  rw [exec_snewAtHome, execSnewAtHome]
  simp [asks, same, waits, here, conflict]
end Snew

namespace State
section SnewHome
variable {s : State} {t : TileId} {n : BitVec 32}
theorem snewHome_next (closed : (s.verOf t).openV = none) (more : (s.verOf t).p ≠ BitVec.allOnes 32) :
    s.snewHome t n true = .ok ((s.verOf t).p + 1) := by
  have least : ((s.verOf t).p == BitVec.allOnes 32) = false := beq_false_of_ne more
  simp only [snewHome, closed, least]
  rfl
theorem snewHome_above (closed : (s.verOf t).openV = none) (above : (s.verOf t).p.toNat < n.toNat) :
    s.snewHome t n false = .ok n := by
  simp [snewHome, closed, above]
theorem snewHome_published (below : n.toNat ≤ (s.verOf t).p.toNat) :
    s.snewHome t n false = .error { cause := 0x42, i1 := n.setWidth 64, i2 := (s.verOf t).p.setWidth 64 } := by
  simp [snewHome, Nat.not_lt.2 below]
end SnewHome

/-! Publishes and abandons. -/

/-- With nothing awaited a publish serves nobody. -/
theorem serveAwaiting_nil {s : State} (empty : s.homes.awaiting = []) (t : TileId) : s.serveAwaiting t = s := by
  simp only [serveAwaiting, empty, List.filter_nil, List.foldl_nil]
  rw [← empty]

end State

theorem publishAtHome_publishes {s u : State} {cl : Nat} {tile : TileId} {tn : Tensor}
    (here : s.tileAway cl tile = (u, .ok (none, tn))) (empty : u.homes.awaiting = []) (v : BitVec 32) : ∃ t, exec (.publishAtHome tile v cl) s = .next t ∧ t.mem = u.mem ∧
      (∀ o ∈ t.cx.opens, o.pub ≠ some (tile, v)) ∧
      t.verOf tile = { p := v, m := (u.verOf tile).m, openV := none, owner := some cl, holders := [], lostPeer := false } := by
  have run : exec (.publishAtHome tile v cl) s = .next ((u.publishHome tile v cl).closePublish tile v) := by
    rw [exec_publishAtHome, execPublishAtHome]
    simp only [here]
  rw [State.publishHome, State.serveAwaiting_nil (by exact empty)] at run
  refine ⟨_, run, rfl, ?_, ?_⟩
  · intro o left
    have kept := (List.mem_filter.1 left).2
    simpa using kept
  · exact State.verOf_setVer u tile _

theorem abandonAtHome_frees {s u : State} {tile : TileId} {v : BitVec 32} {h : Nat} {tn : Tensor}
    (here : s.tileAway 0 tile = (u, .ok (none, tn))) (opened : (u.verOf tile).openV = some (v, h)) :
    exec (.abandonAtHome tile v) s = .next (u.setVer tile { u.verOf tile with openV := none }) := by
  rw [exec_abandonAtHome, execAbandonAtHome]
  simp [here, State.abandonHome, opened]

/-! Write-backs. -/

namespace State

/-- No part of the slot's write-back is on its way to a home on another device. -/
theorem any_tileWrite_eq_false {l : List Txn} {cl key : Nat} (unsent : ∀ f ∈ l, f.use_ ≠ .tileWrite cl key) :
    (l.any fun y => match y.use_ with | .tileWrite c k => c == cl && k == key | _ => false) = false :=
  List.any_eq_false.2 fun f hf h => by
    split at h
    · next c k e =>
      obtain ⟨rfl, rfl⟩ : c = cl ∧ k = key := by simpa using h
      exact unsent f hf e
    · exact Bool.false_ne_true h

section Merge
variable {s u v w z : State} {cl key : Nat} {tn : Tensor} {pg : Table Xlat} {x : LoamSlot}

theorem finishMerge_here (slot : w.slot cl key = x) (sound : x.lineFail = none) (free : w.tileBlocked pg tn x.tile true = none)
    (written : w.writeMapped pg tn x.tile x.data x.scale = (z, none)) (near : x.home = none) :
    w.finishMerge cl key tn pg = (z.mergedHome x.tile x.version).endWriteback cl key .clean := by
  unfold finishMerge
  simp only [slot, sound, free, written, near]

/-- With no line of another device to merge the write-back goes on at once. -/
theorem sendMerges_here (slot : v.slot cl key = x) (near : v.awayMerges pg tn x.tile x.data x.scale = [])
    (writable : (tileVas tn x.tile.coord).findSome? (v.unwritable pg) = none) :
    v.sendMerges cl key tn pg = (v.setSlot cl key { x with puts := some 0 }).finishMerge cl key tn pg := by
  unfold sendMerges
  simp [slot, near, writable]

section Started
variable (state : (s.slot cl key).state = .writeback) (puts : (s.slot cl key).puts = none)
  (unsent : ∀ f ∈ s.fab.txns, f.use_ ≠ .tileWrite cl key)
  (published : s.publishing (s.slot cl key).tile (some (s.slot cl key).version) = false)
  (here : s.slotAway cl key .writeback = (u, .ok (none, tn))) (slot : u.slot cl key = x)
include state puts unsent published here slot

theorem mergeSlot_discards (old : x.version.toNat ≤ (u.verOf x.tile).m.toNat) :
    s.mergeSlot cl key = u.endWriteback cl key .clean := by
  unfold mergeSlot
  extract_lets y sent
  have no : sent = false := any_tileWrite_eq_false unsent
  rw [if_neg (by simp [no, y, state, puts]), if_neg (by simp [y, published])]
  simp only [here, slot]
  rw [if_pos (by simp [old])]

theorem mergeSlot_sends (new : (u.verOf x.tile).m.toNat < x.version.toNat)
    (mapped_ : u.mapPages cl x.tile.space .writeback (tileVas tn x.tile.coord) [] = (v, .ok pg)) (fresh : x.puts = none)
    (quiet : v.merging x.tile = false) (unfilled : v.fillGoing x.tile = false) (free : v.tileBlocked pg tn x.tile true = none) :
    s.mergeSlot cl key = v.sendMerges cl key tn pg := by
  unfold mergeSlot
  extract_lets y sent
  have no : sent = false := any_tileWrite_eq_false unsent
  rw [if_neg (by simp [no, y, state, puts]), if_neg (by simp [y, published])]
  simp only [here, slot]
  rw [if_neg (by simp [Nat.not_le.2 new])]
  simp only [mapped_]
  rw [if_neg (by simp [fresh]), if_neg (by simp [quiet, unfilled])]
  simp only [free]
end Started
end Merge

end State

theorem tileWritebackMerge_next {s : State} {cl key : Nat} (keys : (s.slot cl key).keys = []) :
    exec (.tileWritebackMerge cl key) s = .next (s.mergeSlot cl key) := by
  rw [exec_tileWritebackMerge, execTileWritebackMerge, keys, State.underKeys_nil]

/-! Conversions, gated ways. -/

theorem wayconvPinTimeout_pinned {s : State} {cl : Nat} {v : WayConv} (runs : (s.cluster cl).conv = some v)
    (late : 65536 ≤ s.cycle - v.since) (pinned : ∃ k ∈ State.waySlots (s.cluster cl).converted v.n, (s.slot cl k).pins ≠ 0) :
    exec (.wayconvPinTimeout cl) s =
      .next (s.setCluster cl { s.cluster cl with conv := some { v with failed := true } }) := by
  have some_ : ((State.waySlots (s.cluster cl).converted v.n).any fun k => (s.slot cl k).pins != 0) = true := by
    simpa using pinned
  rw [exec_wayconvPinTimeout, execWayconvPinTimeout]
  simp [runs, Nat.not_lt.2 late, some_]

theorem wayconvPinTimeout_free {s : State} {cl : Nat} {v : WayConv} (runs : (s.cluster cl).conv = some v)
    (late : 65536 ≤ s.cycle - v.since) (free : ∀ k ∈ State.waySlots (s.cluster cl).converted v.n, (s.slot cl k).pins = 0) :
    exec (.wayconvPinTimeout cl) s = .next (s.later 64 (.wayconvPinTimeout cl)) := by
  have none_ : ((State.waySlots (s.cluster cl).converted v.n).any fun k => (s.slot cl k).pins != 0) = false := by
    simpa using free
  rw [exec_wayconvPinTimeout, execWayconvPinTimeout]
  simp [runs, Nat.not_lt.2 late, none_]

theorem wayGate_gates {s : State} {cl slice way : Nat} (inside : slice < 16) (loams : way < 16 - (s.cluster cl).converted)
    (awake : 16 * slice + way ∉ (s.cluster cl).gated)
    (empty : ∀ set < 8, (s.slot cl (128 * slice + 8 * way + set)).state = .invalid ∧
      (s.slot cl (128 * slice + 8 * way + set)).pins = 0) :
    exec (.wayGate cl slice way) s =
      .next (s.setCluster cl { s.cluster cl with gated := (16 * slice + way) :: (s.cluster cl).gated }) := by
  have all : ∀ k ∈ (List.range 8).map fun set => 128 * slice + 8 * way + set,
      (s.slot cl k).state = .invalid ∧ (s.slot cl k).pins = 0 := List.forall_mem_map.2 fun set h => empty set (List.mem_range.1 h)
  rw [exec_wayGate, execWayGate]
  generalize ((List.range 8).map fun set => 128 * slice + 8 * way + set) = keys at all
  dsimp only
  rw [if_neg, foldl_eq_of_fixed fun k hk => by simp [(all k hk).1], if_pos (by simpa using fun k hk => (all k hk).1)]
  have used : ∀ k ∈ keys, ((s.slot cl k).pins = 0 ∧ (s.slot cl k).state ≠ .openV) ∧ (s.slot cl k).state ≠ .filling :=
    fun k hk => by simp [all k hk]
  simpa [inside, awake] using ⟨by omega, used⟩

theorem wayWake_wakes (s : State) (cl slice way : Nat) : ∃ t, exec (.wayWake cl slice way) s = .next t ∧
    16 * slice + way ∉ (t.cluster cl).gated ∧ 16 * slice + way ∉ (t.cluster cl).waking ∧ t.mem = s.mem := by
  let c : Cluster := { s.cluster cl with
    gated := (s.cluster cl).gated.filter (· != 16 * slice + way), waking := (s.cluster cl).waking.filter (· != 16 * slice + way) }
  have left : ((s.setCluster cl c).wakeSlice cl (128 * slice)).cluster cl = c := by
    rw [State.wakeSlice_cluster, State.cluster_setCluster]
  refine ⟨_, exec_wayWake s, ?_, ?_, State.wakeSlice_mem _ _ _⟩
  · exact left ▸ fun there => by simpa using (List.mem_filter.1 there).2
  · exact left ▸ fun there => by simpa using (List.mem_filter.1 there).2

/-! Itineraries. -/

/-- The tile that an itinerary's entry names (R227). -/
def entryTile (it : Itinerary) (v : Nat) : TileId := ⟨it.space, BitVec.ofNat 20 (v / 2 ^ 96), BitVec.ofNat 64 v⟩
/-- The version that the entry asks for. -/
def entryWant (v : Nat) : Want := if (v / 2 ^ 116) % 2 == 1 then .atLeast (BitVec.ofNat 32 (v / 2 ^ 64)) else .latest
/-- The entry's tile is asked for. -/
def entryAsked (s : State) (cl : Nat) (it : Itinerary) (v : Nat) : State :=
  s.requestTile ⟨entryTile it v, entryWant v, .prefetch cl it.id, cl⟩ it.klass
/-- The itinerary goes on to its next entry (R205). -/
def entryPassed (s : State) (cl : Nat) (it : Itinerary) : State :=
  (s.setCluster cl { s.cluster cl with itineraries := (s.cluster cl).itineraries.map fun (i : Itinerary) =>
    if i.id == it.id then { i with va := i.va + 16 } else i }).later 0 (.itineraryEntry cl it.id)

section Itinerary
variable {s u u2 : State} {cl v : Nat} {it : Itinerary} {tn : Tensor}
variable (found : (s.cluster cl).itineraries.find? (·.id == it.id) = some it) (room : s.walking cl it.id < 16)
  (read : s.readVa cl it.space it.va 16 .read = (u, .ok v))
  (tensor : u.tensor cl it.space (entryTile it v).tensor = (u2, .ok (some tn)))
  (inside : tn.coordOk (entryTile it v).coord = true)
  (miss : u2.localHit cl (entryTile it v) (entryWant v) = none)
include found room read tensor inside miss

theorem itineraryEntry_last (last : (v / 2 ^ 117) % 2 = 1) : exec (.itineraryEntry cl it.id) s =
    .next ((entryAsked u2 cl it v).setCluster cl { (entryAsked u2 cl it v).cluster cl with
      itineraries := ((entryAsked u2 cl it v).cluster cl).itineraries.filter (·.id != it.id) }) := by
  simp only [entryTile, entryWant] at tensor inside miss
  rw [exec_itineraryEntry, execItineraryEntry]
  simp only [found, Nat.not_le.2 room, read, tensor, inside, miss, last]
  rfl

theorem itineraryEntry_more (more : (v / 2 ^ 117) % 2 = 0) : exec (.itineraryEntry cl it.id) s =
    .next (entryPassed (entryAsked u2 cl it v) cl it) := by
  simp only [entryTile, entryWant] at tensor inside miss
  rw [exec_itineraryEntry, execItineraryEntry]
  simp only [found, Nat.not_le.2 room, read, tensor, inside, miss, more]
  rfl
end Itinerary

/-- Settles O54: each event is given by its own lemma above. -/
theorem loamEvents : Obligations.LoamEvents := by
  unfold Obligations.LoamEvents
  intro cl s u
  refine ⟨?alloc, ?timeout, ?home, ?fill, ?forward, ?withdrawn, ?snew, ?publish, ?abandon, ?writeback, ?conv, ?ways, ?itin⟩
  case alloc =>
    rintro _ w a l queue rfl closed way mine wanted equal unasked miss got kept
    exact loamAllocation_takes queue closed way mine wanted equal unasked miss got kept
  case timeout =>
    exact fun c a queued closed user parked unasked miss => allocationTimeout_fails queued closed user parked unasked miss
  case home =>
    intro r key wait tn filling here p v q x
    have arrived : u.arrivedAt r key p = (v, State.homeForm r p) := Prod.ext rfl (State.arrivedAt_req r p u key)
    refine ⟨fun n fill => ⟨?_, ?_⟩, fun await => ⟨fun idle => ?_, fun wanted full => ?_⟩⟩
    · exact congrArg Host.Outcome.next (State.homeRequest_fill filling here rfl arrived fill 256)
    · exact congrArg Host.Outcome.next (State.homeRequest_fill filling here rfl arrived fill wait)
    · exact congrArg Host.Outcome.next (State.homeRequest_idle filling here rfl arrived await idle wait)
    · exact congrArg Host.Outcome.next (State.homeRequest_full filling here rfl arrived await wanted full wait)
  case fill =>
    intro slot r rest tn v z pg b sc x0 x y vas state users keys first here current quiet mapped_ free kept near sound data
    have step : s.fillStep cl slot r = z.landSlot cl slot y.version b sc :=
      kept ▸ State.fillStep_lands here rfl current quiet mapped_ kept (kept ▸ free) near (kept ▸ sound) (kept ▸ data)
    exact tileFill_steps state users keys first step
  case forward =>
    exact fun r key holder v filling near => ⟨fun j held => ⟨tileForward_copies filling near held,
      tileForward_waits filling near held⟩, tileForward_absent filling near⟩
  case withdrawn => exact fun c tile n b other => snewAtHome_withdrawn other n b
  case snew =>
    intro c tile n tn o asks same waits here e
    exact ⟨fun closed more => snewAtHome_grants asks same waits here (State.snewHome_next closed more),
      fun closed above => snewAtHome_grants asks same waits here (State.snewHome_above closed above),
      fun below => snewAtHome_conflicts asks same waits here (State.snewHome_published below)⟩
  case publish => exact fun tile v tn here empty => publishAtHome_publishes here empty v
  case abandon => exact fun tile v h tn here opened => abandonAtHome_frees here opened
  case writeback =>
    intro slot tn v z pg x0 x y vas w state puts keys unsent published here
    have run := tileWritebackMerge_next keys
    refine ⟨fun old => ?_, fun new mapped_ fresh quiet unfilled kept sound near free free' merges writable written => ?_⟩
    · rw [run, State.mergeSlot_discards state puts unsent published here rfl old]
    · have marked : w = v.setSlot cl slot { x with puts := some 0 } := by rw [← kept]
      have finish : w.finishMerge cl slot tn pg = (z.mergedHome x.tile x.version).endWriteback cl slot .clean :=
        State.finishMerge_here (x := { x with puts := some 0 }) (by rw [marked, State.slot_setSlot]) sound free' written near
      rw [State.mergeSlot_sends state puts unsent published here rfl new mapped_ fresh quiet unfilled free,
        State.sendMerges_here kept merges writable, ← marked, finish] at run
      refine ⟨_, run, State.endWriteback_mem _ _ _ _, State.endWriteback_slot _ _ _ _, ?_⟩
      rw [State.verOf_congr (State.endWriteback_homes _ _ _ _), State.mergedHome_m]
  case conv => exact fun v runs late => ⟨wayconvPinTimeout_pinned runs late, wayconvPinTimeout_free runs late⟩
  case ways => exact fun slice way => ⟨wayGate_gates, wayWake_wakes s cl slice way⟩
  case itin =>
    intro it v u2 tn t want w found room read tensor inside miss
    refine ⟨itineraryEntry_last found room read tensor inside miss, fun more =>
      ⟨_, itineraryEntry_more found room read tensor inside miss more, ?_, ?_⟩⟩
    · exact List.mem_append_right _ (List.mem_singleton.2 rfl)
    · exact congrArg Cluster.itineraries (State.cluster_setCluster _ _ _)
end Sys2Proof.Machine
end

