-- ==== Sys2Proof/Proofs/SlotChanges.lean ====
section
/-! What the operations on one Loam slot, on a stream's binding and on the spin table change (R201, R202, R213, R218, R219). -/

namespace Sys2Proof.Machine

/-- What was stored in a table under a key is found there. -/
theorem find?_tset_same {α : Type} (n : Nat) (v : α) : ∀ t : Table α, (tset t n v).find? (·.1 == n) = some (n, v)
  | [] => by simp [tset]
  | (k, u) :: r => by
    obtain below | rfl | above := Nat.lt_trichotomy n k
    · simp [tset, below]
    · simp [tset]
    · simp [tset, Nat.not_lt.2 above.le, above.ne', above.ne, find?_tset_same n v r]

namespace State

/-- From s to t slot `key` of a cluster has come to hold x; no other slot of that cluster, no task entry and nothing of the context
in `cx` has changed. -/
structure SlotPut (s t : State) (cl key : Nat) (x : LoamSlot) : Prop where
  here : t.here = s.here
  cx : t.cx = s.cx
  entry : t.entry = s.entry
  slot : t.slot cl key = x
  other : ∀ k, k ≠ key → t.slot cl k = s.slot cl k

section Slots
variable {s t u : State} {cl key : Nat} {x y : LoamSlot}

theorem SlotPut.hereCluster (h : SlotPut s t cl key x) : t.hereCluster = s.hereCluster := by
  rw [State.hereCluster, h.here, State.hereCluster]

theorem SlotPut.taskEntry (h : SlotPut s t cl key x) : t.taskEntry = s.taskEntry := by
  rw [State.taskEntry, h.entry, h.hereCluster, h.cx, State.taskEntry]

theorem SlotPut.trans (h : SlotPut s t cl key x) (g : SlotPut t u cl key y) : SlotPut s u cl key y where
  here := g.here.trans h.here
  cx := g.cx.trans h.cx
  entry := g.entry.trans h.entry
  slot := g.slot
  other k apart := (g.other k apart).trans (h.other k apart)

theorem SlotPut.later (h : SlotPut s t cl key x) (delay : Nat) (i : Instr) : SlotPut s (t.later delay i) cl key x :=
  ⟨h.here, h.cx, h.entry, h.slot, h.other⟩

theorem SlotPut.wakeSlice (h : SlotPut s t cl key x) (k : Nat) : SlotPut s (t.wakeSlice cl k) cl key x := by
  obtain ⟨a, woken⟩ := t.wakeSlice_agenda cl k
  rw [woken]
  exact ⟨h.here, h.cx, h.entry, h.slot, h.other⟩

/-- A cluster that differs in its slots only has the same task entries. -/
theorem entry_setLoam (s : State) (cl : Nat) (l : Table LoamSlot) :
    (s.setCluster cl { s.cluster cl with loam := l }).entry = s.entry := by
  funext c e
  by_cases here : cl = c
  · subst here
    rw [State.entry, cluster_setCluster, State.entry]
  · rw [State.entry, cluster_setCluster_other s here, State.entry]

theorem setSlot_put (s : State) (cl key : Nat) (x : LoamSlot) : SlotPut s (s.setSlot cl key x) cl key x where
  here := rfl
  cx := rfl
  entry := s.entry_setLoam cl _
  slot := s.slot_setSlot cl key x
  other k apart := by
    rw [State.slot, setSlot, cluster_setCluster]
    exact tget_tset_other _ apart.symm _ _

theorem clearSlot_put (s : State) (cl key : Nat) : SlotPut s (s.clearSlot cl key) cl key {} where
  here := rfl
  cx := rfl
  entry := s.entry_setLoam cl _
  slot := by
    rw [State.slot, clearSlot, cluster_setCluster]
    exact tget_tdel_same _ _ _
  other k apart := by
    rw [State.slot, clearSlot, cluster_setCluster]
    exact tget_tdel_other _ apart.symm _

theorem unpin_put (s : State) (cl key : Nat) :
    SlotPut s (s.unpin cl key) cl key { s.slot cl key with pins := (s.slot cl key).pins - 1 } := by
  unfold unpin
  dsimp only
  split
  · exact (s.setSlot_put cl key _).wakeSlice key
  · exact s.setSlot_put cl key _

theorem pin_put (room : (s.slot cl key).pins < 255) :
    ∃ t, s.pin cl key = some t ∧ SlotPut s t cl key { s.slot cl key with pins := (s.slot cl key).pins + 1 } := by
  unfold pin
  dsimp only
  rw [if_neg (by simpa using room.ne)]
  refine ⟨_, rfl, ?_⟩
  split
  · exact (s.setSlot_put cl key _).wakeSlice key
  · exact s.setSlot_put cl key _

/-- A slot that a hit has refreshed (R202, R213). -/
def touched (x : LoamSlot) (h : BitVec 2) : LoamSlot := { x with clock := 3, hint := if h = 0 then x.hint else h }

theorem touch_put (s : State) (key : Nat) (h : BitVec 2) :
    SlotPut s (s.touch key h) s.hereCluster key (touched (s.slot s.hereCluster key) h) := by
  simpa only [touch, touched, beq_iff_eq] using s.setSlot_put s.hereCluster key (touched (s.slot s.hereCluster key) h)

end Slots

/-! Releasing the binding of a stream (R218). -/

section Streams
variable {s : State} {w : BitVec 512}

theorem releaseStream_unbound (unbound : wBound w = false) : s.releaseStream w = s := by
  simp [releaseStream, unbound]

theorem isOpen_bound (opened : s.isOpen w = true) : wBound w = true := by
  unfold isOpen at opened
  simp only [Bool.and_eq_true] at opened
  exact opened.1.1

theorem isOpen_state (opened : s.isOpen w = true) : (s.slot s.hereCluster (wSlot w)).state = .openV := by
  unfold isOpen at opened
  simp only [Bool.and_eq_true, beq_iff_eq] at opened
  exact opened.1.2

theorem isOpen_eq_false (closed : (s.slot s.hereCluster (wSlot w)).state ≠ .openV) : s.isOpen w = false :=
  Bool.eq_false_iff.2 fun opened => closed (isOpen_state opened)

/-- An OPEN version is given up: its slot is empty. -/
theorem releaseStream_open (opened : s.isOpen w = true) :
    SlotPut s (s.releaseStream w) s.hereCluster (wSlot w) {} := by
  simp only [releaseStream, isOpen_bound opened, opened]
  exact ((s.clearSlot_put _ _).wakeSlice _).later _ _

/-- A binding for reading gives its pin back. -/
theorem releaseStream_read (bound : wBound w = true) (closed : s.isOpen w = false)
    (held : s.slotOfStream w (s.slot s.hereCluster (wSlot w)) = true) : SlotPut s (s.releaseStream w) s.hereCluster (wSlot w)
      { s.slot s.hereCluster (wSlot w) with pins := (s.slot s.hereCluster (wSlot w)).pins - 1 } := by
  simp only [releaseStream, bound, closed, held]
  exact s.unpin_put _ _

/-- A stream whose slot has come to hold another version has no pin to give back (R33). -/
theorem releaseStream_lost (closed : s.isOpen w = false)
    (lost : s.slotOfStream w (s.slot s.hereCluster (wSlot w)) = false) : s.releaseStream w = s := by
  simp [releaseStream, closed, lost]

/-- Whatever a stream is bound to, its release changes at most that slot. -/
theorem releaseStream_put (s : State) (w : BitVec 512) :
    s.releaseStream w = s ∨ wBound w = true ∧ ∃ x, SlotPut s (s.releaseStream w) s.hereCluster (wSlot w) x := by
  cases bound : wBound w with
  | false => exact .inl (releaseStream_unbound bound)
  | true =>
    cases opened : s.isOpen w with
    | true => exact .inr ⟨rfl, _, releaseStream_open opened⟩
    | false =>
      cases held : s.slotOfStream w (s.slot s.hereCluster (wSlot w)) with
      | true => exact .inr ⟨rfl, _, releaseStream_read bound opened held⟩
      | false => exact .inl (releaseStream_lost opened held)

@[simp] theorem releaseStream_here (s : State) (w : BitVec 512) : (s.releaseStream w).here = s.here := by
  obtain same | ⟨-, x, put⟩ := s.releaseStream_put w
  · rw [same]
  · exact put.here
@[simp] theorem releaseStream_hereCluster (s : State) (w : BitVec 512) : (s.releaseStream w).hereCluster = s.hereCluster := by
  rw [hereCluster, releaseStream_here, hereCluster]
@[simp] theorem releaseStream_cx (s : State) (w : BitVec 512) : (s.releaseStream w).cx = s.cx := by
  obtain same | ⟨-, x, put⟩ := s.releaseStream_put w
  · rw [same]
  · exact put.cx
theorem releaseStream_slot_other {key : Nat} (apart : wBound w = true → wSlot w ≠ key) :
    (s.releaseStream w).slot s.hereCluster key = s.slot s.hereCluster key := by
  obtain same | ⟨bound, x, put⟩ := s.releaseStream_put w
  · rw [same]
  · exact put.other key (apart bound).symm

/-- A bind for reading on a slot that the stream is not bound to and that has room for a pin (R213). -/
theorem bindRead_put {r : BitVec 4} {tn : Tensor} {tile : TileId} {key : Nat} {x : LoamSlot} (slot : s.slot s.hereCluster key = x)
    (room : x.pins < 255) (apart : wBound (s.rw r) = true → wSlot (s.rw r) ≠ key) (h : BitVec 2) :
    ∃ t, s.bindRead r tn tile key h false = some (t, bindStream tn tile x.version key 1) ∧
      SlotPut (s.releaseStream (s.rw r)) t s.hereCluster key (touched { x with pins := x.pins + 1 } h) := by
  have kept : (s.releaseStream (s.rw r)).slot s.hereCluster key = x := (releaseStream_slot_other apart).trans slot
  obtain ⟨t, pinned, put⟩ := pin_put (s := s.releaseStream (s.rw r)) (cl := s.hereCluster) (key := key) (by rw [kept]; exact room)
  rw [kept] at put
  have touch := t.touch_put key h
  rw [put.hereCluster, releaseStream_hereCluster, put.slot] at touch
  exact ⟨_, by simp [bindRead, pinned, slot], put.trans touch⟩

/-- What a bind for reading leaves: the slot pinned and refreshed, the context as it was, and the slot of an earlier binding with a
pin less. -/
theorem bindRead_hit {r : BitVec 4} {tn : Tensor} {tile : TileId} {key : Nat} {x : LoamSlot} (closed : s.isOpen (s.rw r) = false)
    (slot : s.slot s.hereCluster key = x) (room : x.pins < 255) (apart : wBound (s.rw r) = true → wSlot (s.rw r) ≠ key)
    (h : BitVec 2) : ∃ t, s.bindRead r tn tile key h false = some (t, bindStream tn tile x.version key 1) ∧
      t.slot s.hereCluster key = touched { x with pins := x.pins + 1 } h ∧ t.cx = s.cx ∧
      (wBound (s.rw r) = true → s.slotOfStream (s.rw r) (s.slot s.hereCluster (wSlot (s.rw r))) = true →
        (t.slot s.hereCluster (wSlot (s.rw r))).pins = (s.slot s.hereCluster (wSlot (s.rw r))).pins - 1) := by
  obtain ⟨t, bind, put⟩ := bindRead_put (tn := tn) (tile := tile) slot room apart h
  refine ⟨t, bind, put.slot, put.cx.trans (s.releaseStream_cx _), fun bound held => ?_⟩
  rw [put.other _ (apart bound), (releaseStream_read bound closed held).slot]

/-! Lookup (R192, R214). -/

/-- The context waits for no tile any more. -/
def sought (s : State) : State :=
  { s with cx := { s.cx with parked := none, served := none, timedOut := false, waitSince := none } }

theorem localHit_latest (s : State) (cl : Nat) (t : TileId) : s.localHit cl t .latest = none := by
  simp [localHit]

section Seek
variable {t : TileId} {want : Want} (sound : s.cx.fault = none) (idle : s.cx.parked = none)
include sound idle

theorem seek_hit {key : Nat} (hit : s.localHit s.hereCluster t want = some key) (who num : Dbl) (drop : State → State) :
    s.seek t want who num drop = .ok (s.sought, key, false) := by
  simp [seek, sound, idle, hit, sought]

theorem seek_miss (miss : s.localHit s.hereCluster t want = none) (who num : Dbl) (drop : State → State) :
    ∃ v, s.seek t want who num drop = .error v ∧ v.issue.verdict = .park := by
  simp only [seek, sound, idle, miss]
  exact ⟨_, rfl, rfl⟩

end Seek

/-! The spin table (R219). -/

theorem entry_setEntry (s : State) (cl k : Nat) (e : Entry) : (s.setEntry cl k e).entry cl k = some e := by
  rw [entry, setEntry, cluster_setCluster, find?_tset_same]
  rfl
@[simp] theorem slot_setEntry (s : State) (cl k : Nat) (e : Entry) (n key : Nat) : (s.setEntry cl k e).slot n key = s.slot n key := by
  by_cases here : cl = n
  · subst here
    rw [slot, setEntry, cluster_setCluster, slot]
  · rw [slot, setEntry, cluster_setCluster_other s here, slot]
theorem taskEntry_setTaskEntry (s : State) (e : Entry) : (s.setTaskEntry e).taskEntry = some e := s.entry_setEntry _ _ e
@[simp] theorem slot_setTaskEntry (s : State) (e : Entry) (n key : Nat) : (s.setTaskEntry e).slot n key = s.slot n key :=
  s.slot_setEntry _ _ e n key

/-- The first spin of a task: the slot gets a pin, and the table one entry. -/
theorem addSpin_first {key : Nat} {x : LoamSlot} {e : Entry} (slot : s.slot s.hereCluster key = x) (room : x.pins < 255)
    (entry : s.taskEntry = some e) (empty : e.spins = []) : ∃ t, s.addSpin key false =
      .ok (t.setTaskEntry { e with spins := [⟨x.tile, x.version, [key], 0⟩] }) ∧
      SlotPut s t s.hereCluster key { x with pins := x.pins + 1 } := by
  obtain ⟨t, pinned, put⟩ := pin_put (s := s) (cl := s.hereCluster) (key := key) (slot.symm ▸ room)
  rw [slot] at put
  refine ⟨t, ?_, put⟩
  simp only [addSpin, Bool.false_eq_true, if_false, pinned, slot, put.taskEntry, entry, empty]
  rfl

/-- A spin on a slot that still holds the entry's version: the count loses it, and the slot a pin. -/
theorem dropSpin_held {key : Nat} {x : LoamSlot} {e : Entry} {l : List Nat} {h : Nat} (slot : s.slot s.hereCluster key = x)
    (entry : s.taskEntry = some e) (spins : e.spins = [⟨x.tile, x.version, l, h⟩]) (pins : x.pins ≠ 0) :
    SlotPut (s.setTaskEntry { e with spins := [⟨x.tile, x.version, l.erase key, h⟩] }) (s.dropSpin 0 key) s.hereCluster key
      { x with pins := x.pins - 1 } := by
  have put := (s.setTaskEntry { e with spins := [⟨x.tile, x.version, l.erase key, h⟩] }).unpin_put s.hereCluster key
  rw [slot_setTaskEntry, slot] at put
  have there : (s.setTaskEntry { e with spins := [⟨x.tile, x.version, l.erase key, h⟩] }).slot s.hereCluster key = x := by
    rw [slot_setTaskEntry, slot]
  have dropped : s.dropSpin 0 key =
      (s.setTaskEntry { e with spins := [⟨x.tile, x.version, l.erase key, h⟩] }).unpin s.hereCluster key := by
    simp only [dropSpin, entry, spins, List.getElem?_cons_zero, List.set_cons_zero]
    have cl : (s.setTaskEntry { e with spins := [⟨x.tile, x.version, l.erase key, h⟩] }).hereCluster = s.hereCluster := rfl
    rw [cl, there, if_pos (by simp [pins])]
  rw [dropped]
  exact put

end Streams
end State

end Sys2Proof.Machine
end

