-- ==== Sys2Proof/Proofs/StreamWords.lean ====
section
/-! The stream words of the T slot (R213 to R222). -/

namespace Sys2Proof.Machine

/-- An immediate or its literal as the integer that a word adds. -/
theorem toInt_immS (i : BitVec 12) (l : Option Word) : (immS i l).toInt = immInt i l := by
  cases l with
  | none => exact BitVec.toInt_signExtend_of_le (by decide)
  | some l => exact BitVec.toInt_signExtend_of_le (by decide)

/-- A word with its results bound is one more operation in flight. -/
theorem State.flightBound_flights (s : State) (dests : List Reg) (result : List Write) :
    (s.flightBound dests result).cx.flights = s.cx.flights ++ [⟨s.tick, .bound, dests, result, s.issue.pc⟩] := rfl

section Words
variable {p : Pred} {w : BitVec 4} {a b : BitVec 5} {s : State} (holds : s.holds p = true)
include holds

/-! Words by reference: the reference is read, and leads to u with its descriptor, tile and version. -/

section Reference
variable {u : State} {tn : Tensor} {t : TileId} {n : BitVec 32} (closed : s.isOpen (s.rw w) = false)
  (ref : s.tileRef w a b = (u, .ok (tn, t, n)))
include closed ref

theorem exec_sbind_hit {v : State} {bound : BitVec 512} {key : Nat} {h : BitVec 2} (sound : u.cx.fault = none)
    (idle : u.cx.parked = none) (hit : u.localHit u.hereCluster t (.atLeast n) = some key)
    (bind : u.sought.bindRead w tn t key h false = some (v, bound)) :
    exec (.sbind p w a b 1 h) s = .next (v.flightBound [.w w] [.w w bound]) := by
  have found := State.seek_hit sound idle hit
  rw [exec_sbind, execSbind, State.perform_true _ _ _ holds]
  simp only [closed, ref]
  exact congrArg Host.Outcome.next (by simp [State.wantOf, found, bind])

theorem sbind_binds {key : Nat} {x : LoamSlot} (closed' : u.isOpen (u.rw w) = false) (sound : u.cx.fault = none)
    (idle : u.cx.parked = none) (hit : u.localHit u.hereCluster t (.atLeast n) = some key) (slot : u.slot u.hereCluster key = x)
    (room : x.pins < 255) (apart : wBound (u.rw w) = true → wSlot (u.rw w) ≠ key) (h : BitVec 2) :
    ∃ v f, exec (.sbind p w a b 1 h) s = .next v ∧
      v.slot u.hereCluster key = State.touched { x with pins := x.pins + 1 } h ∧
      v.cx.flights = u.cx.flights ++ [f] ∧ f.kind = .bound ∧ f.dests = [.w w] ∧
      f.result = [.w w (bindStream tn t x.version key 1)] ∧ v.cx.parked = none ∧
      (wBound (u.rw w) = true → u.slotOfStream (u.rw w) (u.slot u.hereCluster (wSlot (u.rw w))) = true →
        (v.slot u.hereCluster (wSlot (u.rw w))).pins = (u.slot u.hereCluster (wSlot (u.rw w))).pins - 1) := by
  obtain ⟨v, bind, pinned, kept, unpinned⟩ := State.bindRead_hit (s := u.sought) (tn := tn) (tile := t) closed' slot room apart h
  refine ⟨_, ⟨v.tick, .bound, [.w w], [.w w (bindStream tn t x.version key 1)], v.issue.pc⟩,
    exec_sbind_hit holds closed ref sound idle hit bind, pinned, ?_, rfl, rfl, rfl, ?_, unpinned⟩
  · rw [State.flightBound_flights, kept]
    rfl
  · exact congrArg Context.parked kept

theorem sbind_parks {r : BitVec 2} (h : BitVec 2) (sound : u.cx.fault = none) (idle : u.cx.parked = none)
    (miss : u.localHit u.hereCluster t (State.wantOf r n) = none) :
    ∃ v, exec (.sbind p w a b r h) s = .next v ∧ v.issue.verdict = .park := by
  obtain ⟨v, sought, parks⟩ := State.seek_miss sound idle miss (State.wNum w) (State.wNum w) id
  refine ⟨v, ?_, parks⟩
  rw [exec_sbind, execSbind, State.perform_true _ _ _ holds]
  simp only [closed, ref, sought]
  rfl

theorem exec_sprobe_hit {v : State} {bound : BitVec 512} {key : Nat} {h : BitVec 2}
    (hit : u.localHit u.hereCluster t (.atLeast n) = some key)
    (bind : u.bindRead w tn t key h false = some (v, bound)) (q : BitVec 3) (g : Bool) :
    exec (.sprobe p w a b h q g) s = .next (v.flightBound [.w w, .q q] [.w w bound, .q q true]) := by
  rw [exec_sprobe, execSprobe, State.perform_true _ _ _ holds]
  simp only [closed, ref, hit, bind]
  rfl

theorem sprobe_binds {key : Nat} {x : LoamSlot} (closed' : u.isOpen (u.rw w) = false)
    (hit : u.localHit u.hereCluster t (.atLeast n) = some key) (slot : u.slot u.hereCluster key = x)
    (room : x.pins < 255) (apart : wBound (u.rw w) = true → wSlot (u.rw w) ≠ key) (h : BitVec 2) (q : BitVec 3) (g : Bool) :
    ∃ v f, exec (.sprobe p w a b h q g) s = .next v ∧
      v.slot u.hereCluster key = State.touched { x with pins := x.pins + 1 } h ∧
      v.cx.flights = u.cx.flights ++ [f] ∧ f.kind = .bound ∧
      f.result = [.w w (bindStream tn t x.version key 1), .q q true] := by
  obtain ⟨v, bind, pinned, kept, -⟩ := State.bindRead_hit (tn := tn) (tile := t) closed' slot room apart h
  refine ⟨_, ⟨v.tick, .bound, [.w w, .q q], [.w w (bindStream tn t x.version key 1), .q q true], v.issue.pc⟩,
    exec_sprobe_hit holds closed ref hit bind q g, pinned, ?_, rfl, rfl⟩
  rw [State.flightBound_flights, kept]

theorem exec_sprobe_miss (miss : u.localHit u.hereCluster t (.atLeast n) = none) (h : BitVec 2) (q : BitVec 3) :
    exec (.sprobe p w a b h q false) s = .next (u.flightBound [.w w, .q q] [.q q false]) := by
  rw [exec_sprobe, execSprobe, State.perform_true _ _ _ holds]
  simp only [closed, ref, miss]
  rfl

/-- With no publish or abandon of the tile on its way the version is asked for. -/
theorem exec_snew_asks (c x : Bool) (sound : u.cx.fault = none) (first : u.cx.opening = none) (agenda : u.agenda = [])
    (txns : u.fab.txns = []) : exec (.snew p w a b c x) s =
      .next ((({ u with cx := { u.cx with opening := some ⟨t, c, none, none⟩ } } : State).later 0 (.snewAtHome u.here t n x)).stall) := by
  rw [exec_snew, execSnew, State.perform_true _ _ _ holds]
  simp only [closed, ref, sound, first, State.publishing, agenda, txns]
  rfl

/-- Once the slot is OPEN the stream is bound to it for reading and writing. -/
theorem snew_binds (c x : Bool) {o : Opening} {key : Nat} (sound : u.cx.fault = none) (opening : u.cx.opening = some o)
    (granted : o.slot = some key) : ∃ v, exec (.snew p w a b c x) s = .next v ∧ v.cx.opening = none ∧
      v.cx.pending = u.cx.pending ++ [⟨u.cx.btime + 1, false, .w w (bindStream tn t (u.slot u.hereCluster key).version key 2)⟩] := by
  have same : ((u.releaseStream (u.rw w)).touch key 0).cx = u.cx := u.releaseStream_cx _
  refine ⟨(({ (u.releaseStream (u.rw w)).touch key 0 with
    cx := { ((u.releaseStream (u.rw w)).touch key 0).cx with opening := none } } : State).push 1
      (.w w (bindStream tn t (u.slot u.hereCluster key).version key 2))), ?_, rfl, by rw [← same]; rfl⟩
  rw [exec_snew, execSnew, State.perform_true _ _ _ holds]
  simp only [closed, ref, sound, opening, granted]
  rfl

end Reference

/-! Words that take the stream as it is: `spub`, `srel` (R217, R218). -/

theorem spub_publishes {x : LoamSlot} (opened : s.isOpen (s.rw w) = true) (slot : s.slot s.hereCluster (wSlot (s.rw w)) = x)
    (idle : s.storing (s.rw w) = false) (none_ : s.cx.opens = []) (quiet : s.coreQueued s.here = []) :
    ∃ v, exec (.spub p w) s = .next v ∧ v.slot s.hereCluster (wSlot (s.rw w)) = { x with state := .dirty } ∧
      v.cx.opens = [⟨s.tick, 4, false, some (x.tile, x.version)⟩] ∧
      (s.cycle, .publishAtHome x.tile x.version s.hereCluster) ∈ v.agenda ∧
      v.cx.pending = s.cx.pending ++ [⟨s.cx.btime + 1, false, .w w (wPut (s.rw w) 258 2 1)⟩] := by
  have settled : s.settled s.issue.scope = true := by simp [State.settled, none_, quiet]
  rw [exec_spub, execSpub, State.perform_true _ _ _ holds]
  simp only [opened, idle, settled, slot]
  refine ⟨_, rfl, s.slot_setSlot _ _ _, ?_, List.mem_append_right _ List.mem_cons_self, rfl⟩
  exact congrArg (· ++ [(⟨s.tick, 4, false, some (x.tile, x.version)⟩ : OpenAccess)]) none_

theorem exec_srel_next : exec (.srel p w) s = .next ((s.releaseStream (s.rw w)).push 1 (.w w 0)) := by
  rw [exec_srel, execSrel, State.perform_true _ _ _ holds]

theorem srel_releases : ∃ v, exec (.srel p w) s = .next v ∧ v.cx.pending = s.cx.pending ++ [⟨s.cx.btime + 1, false, .w w 0⟩] ∧
    (wBound (s.rw w) = true → s.slotOfStream (s.rw w) (s.slot s.hereCluster (wSlot (s.rw w))) = true →
      (s.slot s.hereCluster (wSlot (s.rw w))).state ≠ .openV → (v.slot s.hereCluster (wSlot (s.rw w))).pins =
        (s.slot s.hereCluster (wSlot (s.rw w))).pins - 1) ∧
    (s.isOpen (s.rw w) = true → v.slot s.hereCluster (wSlot (s.rw w)) = {}) := by
  have kept := s.releaseStream_cx (s.rw w)
  refine ⟨_, exec_srel_next holds, ?_, fun bound held closed => ?_, fun opened => (State.releaseStream_open opened).slot⟩
  · exact congrArg (fun c : Context => c.pending ++ [⟨c.btime + 1, false, .w w 0⟩]) kept
  · exact congrArg LoamSlot.pins (State.releaseStream_read bound (State.isOpen_eq_false closed) held).slot

/-! Spins (R219). -/

theorem spin_pins {e : Entry} {x : LoamSlot} (bound : wBound (s.rw w) = true)
    (slot : s.slot s.hereCluster (wSlot (s.rw w)) = x) (entry : s.taskEntry = some e) (room : x.pins < 255) (empty : e.spins = []) :
    ∃ v e', exec (.spin p w) s = .next v ∧ v.slot s.hereCluster (wSlot (s.rw w)) = { x with pins := x.pins + 1 } ∧
      v.taskEntry = some e' ∧ e'.spins = [⟨x.tile, x.version, [wSlot (s.rw w)], 0⟩] := by
  obtain ⟨t, added, put⟩ := State.addSpin_first slot room entry empty
  refine ⟨_, { e with spins := [⟨x.tile, x.version, [wSlot (s.rw w)], 0⟩] }, ?_, (t.slot_setTaskEntry _ _ _).trans put.slot,
    t.taskEntry_setTaskEntry _, rfl⟩
  rw [exec_spin, execSpin, State.perform_true _ _ _ holds]
  simp only [bound, added]
  rfl

theorem sunpin_unpins {e : Entry} {x : LoamSlot} {l : List Nat} {h : Nat} (bound : wBound (s.rw w) = true)
    (slot : s.slot s.hereCluster (wSlot (s.rw w)) = x) (entry : s.taskEntry = some e) (mem : wSlot (s.rw w) ∈ l)
    (spins : e.spins = [⟨x.tile, x.version, l, h⟩]) (pins : x.pins ≠ 0) : ∃ v e', exec (.sunpin p w) s = .next v ∧
      (v.slot s.hereCluster (wSlot (s.rw w))).pins = x.pins - 1 ∧ v.taskEntry = some e' ∧
      e'.spins = [⟨x.tile, x.version, l.erase (wSlot (s.rw w)), h⟩] := by
  have put := State.dropSpin_held slot entry spins pins
  refine ⟨_, _, ?_, congrArg LoamSlot.pins put.slot, put.taskEntry.trans (s.taskEntry_setTaskEntry _), rfl⟩
  rw [exec_sunpin, execSunpin, State.perform_true _ _ _ holds]
  simp [bound, slot, entry, spins, mem]

/-- A spin by reference on a local hit. -/
theorem spinRef_pins {tn : Tensor} {t : TileId} {n : BitVec 32} {e : Entry} {x : LoamSlot} {key : Nat} (sound : s.cx.fault = none)
    (idle : s.cx.parked = none) (ref : s.tileRef 0 a b = (s, .ok (tn, t, n))) (slot : s.slot s.hereCluster key = x)
    (entry : s.taskEntry = some e) (h : BitVec 2) (hit : s.localHit s.hereCluster t (.atLeast n) = some key) (room : x.pins < 255)
    (empty : e.spins = []) : ∃ v e', exec (.spinRef p a b 1 h) s = .next v ∧ (v.slot s.hereCluster key).pins = x.pins + 1 ∧
      v.taskEntry = some e' ∧ e'.spins = [⟨x.tile, x.version, [key], 0⟩] := by
  have found := State.seek_hit sound idle hit
  obtain ⟨v, added, put⟩ := State.addSpin_first (s := s.sought) slot room entry empty
  have touch := (v.setTaskEntry { e with spins := [⟨x.tile, x.version, [key], 0⟩] }).touch_put key h
  have cl : (v.setTaskEntry { e with spins := [⟨x.tile, x.version, [key], 0⟩] }).hereCluster = s.hereCluster := put.hereCluster
  have pinned : v.slot s.hereCluster key = { x with pins := x.pins + 1 } := put.slot
  rw [cl, State.slot_setTaskEntry, pinned] at touch
  refine ⟨_, _, ?_, congrArg LoamSlot.pins touch.slot, touch.taskEntry.trans (v.taskEntry_setTaskEntry _), rfl⟩
  have first : State.spinIndex [] t = some 0 := rfl
  rw [exec_spinRef, execSpinRef, State.perform_true _ _ _ holds]
  simp only [ref]
  simp [entry, empty, first, State.wantOf, found, idle, added]

/-- A spin by reference is taken back from the newest version of the tile that the task has spins on. -/
theorem sunpinRef_unpins {tn : Tensor} {t : TileId} {n : BitVec 32} {e : Entry} {x : LoamSlot} {key : Nat} {l : List Nat} {h : Nat}
    (ref : s.tileRef 0 a b = (s, .ok (tn, t, n))) (slot : s.slot s.hereCluster key = x) (tile : x.tile = t)
    (entry : s.taskEntry = some e) (spins : e.spins = [⟨x.tile, x.version, key :: l, h⟩]) (pins : x.pins ≠ 0) :
    ∃ v e', exec (.sunpinRef p a b) s = .next v ∧ (v.slot s.hereCluster key).pins = x.pins - 1 ∧ v.taskEntry = some e' ∧
      e'.spins = [⟨x.tile, x.version, l, h⟩] := by
  have put := State.dropSpin_held slot entry spins pins
  refine ⟨_, _, ?_, congrArg LoamSlot.pins put.slot, put.taskEntry.trans (s.taskEntry_setTaskEntry _), by simp⟩
  rw [exec_sunpinRef, execSunpinRef, State.perform_true _ _ _ holds]
  simp only [ref]
  simp [entry, spins, tile]

/-! Cursor, edges and status (R220 to R222). -/

theorem exec_sseek_bound (bound : wBound (s.rw w) = true) (i : BitVec 12) (l : Option Word) :
    exec (.sseek p w a i l) s = .next (s.push 1 (.w w
      (wPut (s.rw w) 250 6 (((s.rx a).toInt + immInt i l) % (wGroups (s.rw w) : Int)).toNat))) := by
  rw [exec_sseek, execSseek, State.perform_true _ _ _ holds]
  simp only [bound, toInt_immS]
  rfl

theorem exec_sedge_bound (bound : wBound (s.rw w) = true) : exec (.sedge p w a b) s = .next (s.push 1 (.w w
    (wPut (wPut (s.rw w) 384 64 (wEdgeR (s.rw w) &&& s.rx a).toNat) 448 64 (wEdgeC (s.rw w) &&& s.rx b).toNat))) := by
  rw [exec_sedge, execSedge, State.perform_true _ _ _ holds]
  simp only [bound]
  rfl

theorem exec_sinfo_stream (d : BitVec 5) {k : BitVec 4} (low : k.toNat < 8) :
    exec (.sinfo p d w k) s = .next (s.flightBound [.x d] [.x d ((s.rw w).extractLsb' (64 * k.toNat) 64)]) := by
  rw [exec_sinfo, execSinfo, State.perform_true _ _ _ holds]
  simp [low, Nat.not_le.2 low]

theorem exec_sinfo_scale (d : BitVec 5) {k : Nat} (hk : k < 2) (bound : wBound (s.rw w) = true) :
    exec (.sinfo p d w (BitVec.ofNat 4 (11 + k))) s = .next (s.flightBound [.x d]
      [.x d ((s.slot s.hereCluster (wSlot (s.rw w))).scale.extractLsb' (64 * k) 64)]) := by
  have index : (BitVec.ofNat 4 (11 + k)).toNat = 11 + k := by
    rw [BitVec.toNat_ofNat]
    omega
  have notStream : ¬ 11 + k < 8 := by omega
  have notTag : ¬ 11 + k < 11 := by omega
  rw [exec_sinfo, execSinfo, State.perform_true _ _ _ holds]
  simp [index, bound, notStream, notTag]

end Words

/-- Settles O42: word by word, each on what its reference or its stream names. A state that a reference leads to has the same
context, and so the same streams. -/
theorem streamWords : Obligations.StreamWords := by
  unfold Obligations.StreamWords
  intro p w a b s u tn t n holds r cl
  refine ⟨fun closed closed' sound idle ref cx here => ?reference, fun x opened slot waits none_ quiet => ?spub, ?srel,
    fun e x bound slot entry => ⟨fun room empty => ?spin, fun l h mem spins pins => ?sunpin⟩,
    fun e x key sound idle ref slot tile entry => ⟨fun h hit room empty => ?spinRef, fun l h spins pins => ?sunpinRef⟩,
    fun bound => ⟨fun i l => ?sseek, ?sedge⟩, fun d k low => ?stream, fun d k hk bound => ?scale⟩
  case reference =>
    have sameStream : r = u.rw w := by simp only [r, State.rw, cx]
    have sameCluster : cl = u.hereCluster := by simp only [cl, State.hereCluster, here]
    have sameTile (x : LoamSlot) : s.slotOfStream r x = u.slotOfStream r x := by simp only [State.slotOfStream, cx]
    have streamClosed : s.isOpen (s.rw w) = false := closed
    simp only [sameTile, ← cx] at sound idle ⊢
    clear_value r cl
    subst sameStream sameCluster
    refine ⟨fun h key x hit slot room apart => ⟨?_, fun q g => ?_⟩, fun miss => ⟨fun h => ?_, fun h => ?_, fun h q => ?_⟩,
      fun c x first agenda txns => ?_, fun c x o key opening granted => ?_⟩
    · exact sbind_binds holds streamClosed ref closed' sound idle hit slot room apart h
    · exact sprobe_binds holds streamClosed ref closed' hit slot room apart h q g
    · exact sbind_parks (r := 1) holds streamClosed ref h sound idle miss
    · exact sbind_parks (r := 0) holds streamClosed ref h sound idle (u.localHit_latest _ t)
    · exact ⟨_, _, exec_sprobe_miss holds streamClosed ref miss h q, u.flightBound_flights _ _, rfl⟩
    · exact exec_snew_asks holds streamClosed ref c x sound first agenda txns
    · exact snew_binds holds streamClosed ref c x sound opening granted
  case spub => exact spub_publishes holds opened slot waits none_ quiet
  case srel => exact srel_releases holds
  case spin => exact spin_pins holds bound slot entry room empty
  case sunpin => exact sunpin_unpins holds bound slot entry mem spins pins
  case spinRef =>
    subst tile
    exact spinRef_pins holds sound idle ref slot entry h hit room empty
  case sunpinRef =>
    subst tile
    exact sunpinRef_unpins holds ref slot rfl entry spins pins
  case sseek => exact exec_sseek_bound holds bound i l
  case sedge => exact exec_sedge_bound holds bound
  case stream => exact exec_sinfo_stream holds d low
  case scale => exact exec_sinfo_scale holds d hk bound

end Sys2Proof.Machine
end

