-- ==== Sys2Proof/Proofs/TileMemoryWords.lean ====
section
/-! The words that move the elements of a tile (R223 to R225), and those that write a tile back or prefetch tiles (R226, R227). -/

namespace Sys2Proof.Machine

/-! What a `tstv` writes. -/

/-- Elements written one after the other, element e by `f e`: those of the list hold their values, the others are as they were. -/
theorem slotElem_foldl_elements (b : Block) (t : ElemType) (f : Nat → Nat) (l : List Nat) {cols i j : Nat}
    (room : (i * cols + j + 1) * esize t ≤ 4096) :
    slotElem (l.foldl (fun d e => putElem d (e * esize t) (ElemType_width t) (f e)) b) cols t i j =
      if i * cols + j ∈ l then f (i * cols + j) % 2 ^ ElemType_width t else slotElem b cols t i j := by
  have bits (e : Nat) : 8 * (e * esize t) = ElemType_width t * e := by
    rw [← width_eq_esize, Nat.mul_assoc, Nat.mul_comm e]
  have fits : ElemType_width t * (i * cols + j) + ElemType_width t ≤ 32768 := by
    rw [← bits, ← width_eq_esize]
    rw [Nat.add_mul] at room
    omega
  rw [slotElem, slotElem, blockElem, blockElem, width_eq_esize]
  simp only [putElem_eq_replaceBits, bits]
  rw [extractLsb'_foldl_replaceBits f fits]
  split
  · exact BitVec.toNat_ofNat _ _
  · rfl

/-- A slot's contents with the active elements of a group inside the edge masks replaced (R224). -/
def groupPut (r : BitVec 512) (g : Nat) (m : BitVec 64) (v : VReg) (b : Block) : Block :=
  (groupStores r g m v).foldl (fun d (i, j, c) => putElem d ((i * wCols r + j) * esize (wType r)) (ElemType_width (wType r)) c.toNat) b

/-- The lanes of a group that a store takes: the active ones inside the edge masks. -/
def groupTakes (r : BitVec 512) (g : Nat) (m : BitVec 64) (i : Nat) : Bool :=
  m.getLsbD i && inEdge r ((64 * g + i) / wCols r) ((64 * g + i) % wCols r)

/-- The elements of the group by their numbers in the tile. -/
theorem groupPut_eq (r : BitVec 512) (g : Nat) (m : BitVec 64) (v : VReg) (b : Block) : groupPut r g m v b =
    (((List.range 64).filter (groupTakes r g m)).map (64 * g + ·)).foldl (fun d e =>
      putElem d (e * esize (wType r)) (ElemType_width (wType r)) (lane v (e - 64 * g)).toNat) b := by
  simp only [groupPut, groupStores, List.foldl_map, Nat.div_add_mod', Nat.add_sub_cancel_left]
  rfl

theorem slotElem_groupPut (r : BitVec 512) (g : Nat) (m : BitVec 64) (v : VReg) (b : Block)
    (fits : wRows r * wCols r * esize (wType r) ≤ 4096) {i j : Nat} (hi : i < wRows r) (hj : j < wCols r) :
    slotElem (groupPut r g m v b) (wCols r) (wType r) i j =
      if 64 * g ≤ i * wCols r + j ∧ i * wCols r + j < 64 * g + 64 ∧ m.getLsbD (i * wCols r + j - 64 * g) = true ∧
        inEdge r i j = true
      then (lane v (i * wCols r + j - 64 * g)).toNat % 2 ^ ElemType_width (wType r)
      else slotElem b (wCols r) (wType r) i j := by
  have inside : i * wCols r + j + 1 ≤ wRows r * wCols r := by
    have le : (i + 1) * wCols r ≤ wRows r * wCols r := Nat.mul_le_mul_right _ hi
    rw [Nat.add_mul] at le
    omega
  have room := (Nat.mul_le_mul_right (esize (wType r)) inside).trans fits
  rw [groupPut_eq, slotElem_foldl_elements b _ (fun e => (lane v (e - 64 * g)).toNat) _ room]
  refine if_congr ?_ rfl rfl
  simp only [List.mem_map, List.mem_filter, List.mem_range, groupTakes, Bool.and_eq_true]
  constructor
  · rintro ⟨n, ⟨small, active, edge⟩, number⟩
    rw [number, cell_row hj, cell_col hj] at edge
    have lane : i * wCols r + j - 64 * g = n := by omega
    exact ⟨by omega, by omega, lane ▸ active, edge⟩
  · rintro ⟨low, high, active, edge⟩
    have number : 64 * g + (i * wCols r + j - 64 * g) = i * wCols r + j := by omega
    refine ⟨i * wCols r + j - 64 * g, ⟨by omega, active, ?_⟩, number⟩
    rw [number, cell_row hj, cell_col hj]
    exact edge

section Words
variable {p : Pred} {w k : BitVec 4} {v : BitVec 6} {s : State} (holds : s.holds p = true)
include holds

section Stream
variable (bound : wBound (s.rw w) = true) (idle : s.storing (s.rw w) = false)
include bound idle

/-- Without a recent store of a group its elements take 5 bundle times. -/
theorem exec_tldv_idle (h : Bool) (fresh : s.cx.tstvs = []) : exec (.tldv p v w k h) s =
    .next ((s.wvShared 5 v (s.rk k) (groupLanes (s.slot s.hereCluster (wSlot (s.rw w))) (s.rw w) (wCursor (s.rw w)))).push 1
      (.w w (cursorPast (s.rw w) h))) := by
  rw [exec_tldv, execTldv, State.perform_true _ _ _ holds]
  simp only [bound, idle, fresh]
  rfl

theorem exec_tldx_idle (a : BitVec 5) : exec (.tldx p v w k a) s = .next (s.flightBound [.v (physV v s.cx.vrot)]
    [.v (physV v s.cx.vrot) (s.rk k) (columnLanes (s.slot s.hereCluster (wSlot (s.rw w))) (s.rw w)
      ((s.rx a).toNat % wCols (s.rw w)))]) := by
  rw [exec_tldx, execTldx, State.perform_true _ _ _ holds]
  simp only [bound, idle]
  rfl

theorem tstv_stores (h : Bool) (opened : s.isOpen (s.rw w) = true) (number : wType (s.rw w) ≠ .d8) :
    ∃ t, exec (.tstv p v w k h) s = .next t ∧ t.mem = s.mem ∧
      t.cx.pending = s.cx.pending ++ [⟨s.cx.btime + 1, false, .w w (cursorPast (s.rw w) h)⟩] ∧
      (t.slot t.hereCluster (wSlot (s.rw w))).data = groupPut (s.rw w) (wCursor (s.rw w)) (s.rk k) (s.rv v)
        (s.slot s.hereCluster (wSlot (s.rw w))).data := by
  rw [exec_tstv, execTstv, State.perform_true _ _ _ holds]
  simp only [bound, opened, idle, beq_false_of_ne number]
  exact ⟨_, rfl, rfl, rfl, congrArg LoamSlot.data (s.slot_setSlot _ _ _)⟩

theorem exec_twb_clean (clean : (s.slot s.hereCluster (wSlot (s.rw w))).state = .clean) : exec (.twb p w) s = .next s := by
  have closed : s.isOpen (s.rw w) = false := State.isOpen_eq_false (by rw [clean]; decide)
  rw [exec_twb, execTwb, State.perform_true _ _ _ holds]
  simp only [bound, closed, idle, clean]
  rfl

theorem twb_starts (dirty : (s.slot s.hereCluster (wSlot (s.rw w))).state = .dirty) : ∃ t, exec (.twb p w) s = .next t ∧
    (t.slot t.hereCluster (wSlot (s.rw w))).state = .writeback ∧ t.cx.opens = s.cx.opens ++ [⟨s.tick, 4, false, none⟩] ∧
    (s.cycle, .tileWritebackMerge s.hereCluster (wSlot (s.rw w))) ∈ t.agenda := by
  have closed : s.isOpen (s.rw w) = false := State.isOpen_eq_false (by rw [dirty]; decide)
  rw [exec_twb, execTwb, State.perform_true _ _ _ holds]
  simp only [bound, closed, idle, dirty]
  exact ⟨_, rfl, congrArg LoamSlot.state ((s.openAccess 4 false).2.slot_setSlot _ _ _), rfl,
    List.mem_append_right _ List.mem_cons_self⟩

end Stream

theorem tpref_starts {a : BitVec 5} {i : BitVec 12} {l : Option Word} {va : Dbl} (at_ : s.rx a + immS i l = va)
    (aligned : va.toNat % 16 = 0) (first : (s.cluster s.hereCluster).itineraries = []) : ∃ t, exec (.tpref p a i l) s = .next t ∧
      (t.cluster t.hereCluster).itineraries = [⟨s.tick + 1, va, s.cx.id.space, s.cx.id.klass⟩] ∧
      (s.cycle, .itineraryEntry s.hereCluster (s.tick + 1)) ∈ t.agenda := by
  rw [exec_tpref, execTpref, State.perform_true _ _ _ holds]
  simp only [at_, aligned, first]
  exact ⟨_, rfl, congrArg Cluster.itineraries (State.cluster_setCluster _ _ _), List.mem_append_right _ List.mem_cons_self⟩

end Words

/-- Settles O43: each word by its own lemma, and what `tstv` leaves by the elements of the group that it puts into the slot. -/
theorem tileMemoryWords : Obligations.TileMemoryWords := by
  unfold Obligations.TileMemoryWords
  intro p w k v s holds r x g past
  refine ⟨fun bound idle => ⟨fun h fresh => ?tldv, fun a => ?tldx, fun h opened number fits => ?tstv, fun clean => ?clean,
    fun dirty => ?dirty⟩, fun a i l => ?tpref⟩
  case tldv => exact exec_tldv_idle holds bound idle h fresh
  case tldx =>
    rw [exec_tldx_idle holds bound idle, columnLanes]
    simp only [Bool.and_eq_true, decide_eq_true_eq]
    rfl
  case tstv =>
    obtain ⟨t, next, mem, pending, data⟩ := tstv_stores holds bound idle h opened number
    refine ⟨t, next, mem, pending, fun i hi j hj => ?_⟩
    rw [data]
    exact slotElem_groupPut r g (s.rk k) (s.rv v) x.data fits hi hj
  case clean => exact exec_twb_clean holds bound idle clean
  case dirty => exact twb_starts holds bound idle dirty
  case tpref =>
    intro va aligned first
    have address : s.rx a + immS i l = va := by rw [immS_eq]
    exact tpref_starts holds address aligned first

end Sys2Proof.Machine
end

