-- ==== Sys2Proof/Proofs/BarrierWords.lean ====
section
/-! The barrier words (R263 to R270): what each leaves of the fields of its object. -/

namespace Sys2Proof.Machine

/-! The fields of a barrier object after one of them is replaced (R263). -/

section Fields
variable (b : BitVec 128) {lo n : Nat} (v : Nat)

theorem bPending_bPut_beside (beside : 48 ≤ lo) : bPending (bPut b lo n v) = bPending b := by
  rw [bPut_eq_replaceBits, bPending, extractLsb'_replaceBits_beside b v (by decide) (by omega), bPending]
theorem bExpected_bPut_beside (beside : lo + n ≤ 64 ∨ 80 ≤ lo) : bExpected (bPut b lo n v) = bExpected b := by
  rw [bPut_eq_replaceBits, bExpected, extractLsb'_replaceBits_beside b v (by decide) (by omega), bExpected]
theorem bArrived_bPut_beside (beside : lo + n ≤ 80 ∨ 96 ≤ lo) : bArrived (bPut b lo n v) = bArrived b := by
  rw [bPut_eq_replaceBits, bArrived, extractLsb'_replaceBits_beside b v (by decide) (by omega), bArrived]
theorem bPhase_bPut_beside (beside : lo + n ≤ 48 ∨ 49 ≤ lo) : bPhase (bPut b lo n v) = bPhase b := by
  rw [bPut_eq_replaceBits, bPhase, getLsbD_replaceBits b lo n v (by decide), if_neg (by omega), bPhase]
theorem bFault_bPut_below (below : lo + n ≤ 49) : bFault (bPut b lo n v) = bFault b := by
  rw [bPut_eq_replaceBits, bFault, getLsbD_replaceBits b lo n v (by decide), if_neg (by omega), bFault]

theorem bArrived_bPut {v : Nat} (hv : v < 2 ^ 16) : bArrived (bPut b 80 16 v) = v := by
  rw [bPut_eq_replaceBits, bArrived, extractLsb'_replaceBits_same b v (by decide), BitVec.toNat_ofNat, Nat.mod_eq_of_lt hv]
theorem bPhase_bPut : bPhase (bPut b 48 1 v) = v.testBit 0 := by
  rw [bPut_eq_replaceBits, bPhase, getLsbD_replaceBits b 48 1 v (by decide), if_pos (by decide)]
theorem bFault_bPut (v : Nat) : bFault (bPut b 49 2 v) = v.testBit 0 := by
  rw [bPut_eq_replaceBits, bFault, getLsbD_replaceBits b 49 2 v (by decide), if_pos (by decide)]

end Fields

/-- The object with its phase turned and no arrival counted (R265). -/
def turned (b : BitVec 128) : BitVec 128 := bPut (bPut b 48 1 (if bPhase b then 0 else 1)) 80 16 0
/-- The object after `breset` (R270). -/
def cleared (b : BitVec 128) : BitVec 128 := bPut (bPut (bPut (bPut b 0 48 0) 49 2 0) 80 16 0) 96 32 0
/-- The object after `binit` (R263). -/
def initialObject (expected : Nat) (scope : BitVec 2) : BitVec 128 := BitVec.ofNat 128 (expected * 2 ^ 64 + scope.toNat * 2 ^ 51)

theorem turned_fields (b : BitVec 128) : bExpected (turned b) = bExpected b ∧ bPending (turned b) = bPending b ∧
    bArrived (turned b) = 0 ∧ bPhase (turned b) = !bPhase b := by
  refine ⟨?_, ?_, bArrived_bPut _ (by decide), ?_⟩
  · rw [turned, bExpected_bPut_beside _ _ (by decide), bExpected_bPut_beside _ _ (by decide)]
  · rw [turned, bPending_bPut_beside _ _ (by decide), bPending_bPut_beside _ _ (by decide)]
  · rw [turned, bPhase_bPut_beside _ _ (by decide), bPhase_bPut]
    cases bPhase b <;> rfl

theorem cleared_fields (b : BitVec 128) : bPending (cleared b) = 0 ∧ bArrived (cleared b) = 0 ∧ bFault (cleared b) = false ∧
    bPhase (cleared b) = bPhase b ∧ bExpected (cleared b) = bExpected b := by
  refine ⟨?_, ?_, ?_, ?_, ?_⟩
  · rw [cleared, bPending_bPut_beside _ _ (by decide), bPending_bPut_beside _ _ (by decide), bPending_bPut_beside _ _ (by decide),
      bPending_bPut _ (by decide)]
  · rw [cleared, bArrived_bPut_beside _ _ (by decide), bArrived_bPut _ (by decide)]
  · rw [cleared, bFault_bPut_beside _ _ (by decide), bFault_bPut_beside _ _ (by decide), bFault_bPut]
    rfl
  · rw [cleared, bPhase_bPut_beside _ _ (by decide), bPhase_bPut_beside _ _ (by decide), bPhase_bPut_beside _ _ (by decide),
      bPhase_bPut_beside _ _ (by decide)]
  · rw [cleared, bExpected_bPut_beside _ _ (by decide), bExpected_bPut_beside _ _ (by decide), bExpected_bPut_beside _ _ (by decide),
      bExpected_bPut_beside _ _ (by decide)]

theorem initialObject_fields {n : Nat} (small : n ≤ 65535) (scope : BitVec 2) : bExpected (initialObject n scope) = n ∧
    bPending (initialObject n scope) = 0 ∧ bArrived (initialObject n scope) = 0 ∧ bPhase (initialObject n scope) = false ∧
    bFault (initialObject n scope) = false := by
  have two := scope.isLt
  unfold initialObject bExpected bPending bArrived bPhase bFault
  generalize scope.toNat = k at two
  rw [extractLsb'_ofNat _ (by decide), extractLsb'_ofNat _ (by decide), extractLsb'_ofNat _ (by decide)]
  simp only [BitVec.toNat_ofNat, BitVec.getLsbD_ofNat, Nat.testBit_eq_decide_div_mod_eq]
  refine ⟨?_, ?_, ?_, ?_, ?_⟩
  · omega
  · omega
  · omega
  · have even : (n * 2 ^ 64 + k * 2 ^ 51) / 2 ^ 48 % 2 = 0 := by omega
    rw [even]
    rfl
  · have even : (n * 2 ^ 64 + k * 2 ^ 51) / 2 ^ 49 % 2 = 0 := by omega
    rw [even]
    rfl

namespace State

/-! Events of an object that no waiter is listed at (R265, R270). -/

section Events
variable {s : State} {cl : Nat} (off : Nat) (wf : Memory.wf (s.cluster cl).scratch = true)
include wf

theorem setBarrier_scratch_wf (b : BitVec 128) : Memory.wf ((s.setBarrier cl off b).cluster cl).scratch = true := by
  rw [setBarrier_scratch]
  exact Memory.wf_cellsWrite 16 off b.toNat _ wf

/-- Something of the phase is still to come: the test changes nothing. -/
theorem barrierTest_waits {b : BitVec 128} (rest : ¬(bPending b = 0 ∧ bArrived b = bExpected b)) :
    (s.setBarrier cl off b).barrierTest cl off = s.setBarrier cl off b := by
  unfold barrierTest
  rw [barrier_setBarrier off wf]
  refine if_neg fun h => rest ?_
  simp only [Bool.and_eq_true, beq_iff_eq] at h
  exact ⟨h.1.2, h.2⟩

/-- The phase is complete: the test turns it. -/
theorem barrierTest_turns {b : BitVec 128} (quiet : (s.cluster cl).waiters = []) (sound : bFault b = false) (paid : bPending b = 0)
    (all : bArrived b = bExpected b) :
    (s.setBarrier cl off b).barrierTest cl off = (s.setBarrier cl off b).setBarrier cl off (turned b) := by
  unfold barrierTest
  rw [barrier_setBarrier off wf]
  dsimp only
  rw [releaseWaiters_none off (by rw [setBarrier_waiters, setBarrier_waiters]; exact quiet), if_pos (by simp [sound, paid, all])]
  rfl

/-- An arrival on an object that waits for one: it is counted, and the last of a paid phase turns the phase (R265). -/
theorem barrierArrive_fields (quiet : (s.cluster cl).waiters = []) (sound : bFault (s.barrier cl off) = false)
    (waits : bArrived (s.barrier cl off) < bExpected (s.barrier cl off)) :
    let o := s.barrier cl off
    let t := s.barrierArrive cl off
    let o' := t.barrier cl off
    (∃ cs, t = { s with clusters := cs }) ∧ bExpected o' = bExpected o ∧ bPending o' = bPending o ∧
      (bArrived o + 1 = bExpected o ∧ bPending o = 0 → bArrived o' = 0 ∧ bPhase o' = !bPhase o) ∧
      (¬(bArrived o + 1 = bExpected o ∧ bPending o = 0) → bArrived o' = bArrived o + 1 ∧ bPhase o' = bPhase o) := by
  intro o
  have small : bExpected o < 2 ^ 16 := BitVec.isLt _
  have waits : bArrived o < bExpected o := waits
  have counted : s.barrierArrive cl off = (s.setBarrier cl off (bPut o 80 16 (bArrived o + 1))).barrierTest cl off :=
    if_neg (Nat.not_lt.2 waits)
  have pending : bPending (bPut o 80 16 (bArrived o + 1)) = bPending o := bPending_bPut_beside o _ (by decide)
  have expected : bExpected (bPut o 80 16 (bArrived o + 1)) = bExpected o := bExpected_bPut_beside o _ (by decide)
  have arrived : bArrived (bPut o 80 16 (bArrived o + 1)) = bArrived o + 1 := bArrived_bPut o (by omega)
  have phase : bPhase (bPut o 80 16 (bArrived o + 1)) = bPhase o := bPhase_bPut_beside o _ (by decide)
  rw [counted]
  by_cases last : bArrived o + 1 = bExpected o ∧ bPending o = 0
  · have fault : bFault (bPut o 80 16 (bArrived o + 1)) = false := (bFault_bPut_beside o _ (by decide)).trans sound
    obtain ⟨e, p, a, f⟩ := turned_fields (bPut o 80 16 (bArrived o + 1))
    rw [barrierTest_turns off wf quiet fault (by rw [pending]; exact last.2) (by rw [arrived, expected]; exact last.1)]
    dsimp only
    rw [barrier_setBarrier off (setBarrier_scratch_wf off wf _)]
    exact ⟨⟨_, rfl⟩, e.trans expected, p.trans pending, fun _ => ⟨a, by rw [f, phase]⟩, fun h => absurd last h⟩
  · rw [barrierTest_waits off wf (by rw [pending, arrived, expected]; exact fun h => last ⟨h.2, h.1⟩)]
    dsimp only
    rw [barrier_setBarrier off wf]
    exact ⟨⟨_, rfl⟩, expected, pending, fun h => absurd h last, fun _ => ⟨arrived, phase⟩⟩

/-- Bytes added to PENDING leave the phase open. -/
theorem barrierAdd_adds {n : Nat} (pos : 0 < n) (fits : bPending (s.barrier cl off) + n < 2 ^ 48) :
    s.barrierAdd cl off n = s.setBarrier cl off (bPut (s.barrier cl off) 0 48 (bPending (s.barrier cl off) + n)) := by
  have open_ := barrierTest_waits off wf (b := bPut (s.barrier cl off) 0 48 (bPending (s.barrier cl off) + n))
    (by rw [bPending_bPut _ fits]; omega)
  unfold barrierAdd
  rw [if_neg (by simpa using pos.ne'), if_neg (by omega), open_]

end Events

/-- A word on an object whose offset is aligned and inside the window (R264). -/
theorem onBarrier_inside {s : State} {a : BitVec 5} (aligned : (s.rx a).toNat % 16 = 0)
    (inside : (s.rx a).toNat + 16 ≤ s.scratchLimit) (w : Bool) (f : State → Nat → State) :
    s.onBarrier a w f = f s (s.scratchAt (s.rx a).toNat) := by
  unfold onBarrier
  simp only [scratchFault_inside aligned inside]

/-- What a `btest` samples: what was noted of the object in this cycle, or the object (R269). -/
theorem barrierSeen_eq (s : State) (cl off : Nat) : s.barrierSeen cl off =
    ((s.cluster cl).barBefore.find? fun x => x.1 == off && x.2.1 == s.cycle).elim (s.barrier cl off) (·.2.2) := by
  have noted : ((s.cluster cl).barBefore.find? fun (o, t, _) => o == off && t == s.cycle) =
    (s.cluster cl).barBefore.find? fun x => x.1 == off && x.2.1 == s.cycle := rfl
  unfold barrierSeen
  rw [noted]
  generalize (s.cluster cl).barBefore.find? _ = found
  cases found <;> rfl

theorem settled_of_nothing {s : State} (opens : s.cx.opens = []) (queued : s.coreQueued s.here = []) (scope : BitVec 2) :
    s.settled scope = true := by
  simp [settled, opens, queued]

end State

/-! The words. -/

/-- The object that a word has written is the one read back, and neither the context nor memory has changed. -/
theorem setBarrier_leaves {s : State} (wf : Memory.wf (s.cluster s.hereCluster).scratch = true) {i : Instr} {off : Nat} {o : BitVec 128}
    (next : exec i s = .next (s.setBarrier s.hereCluster off o)) :
    ∃ t, exec i s = .next t ∧ t.cx = s.cx ∧ t.mem = s.mem ∧ t.barrier t.hereCluster off = o :=
  ⟨_, next, rfl, rfl, State.barrier_setBarrier off wf o⟩

section Words
variable {p : Pred} {a b : BitVec 5} {s : State} (holds : s.holds p = true) (aligned : (s.rx a).toNat % 16 = 0)
  (inside : (s.rx a).toNat + 16 ≤ s.scratchLimit)
include holds aligned inside

theorem binit_clears (wf : Memory.wf (s.cluster s.hereCluster).scratch = true) (least : 1 ≤ (s.rx b).toNat)
    (most : (s.rx b).toNat ≤ 65535) : ∃ t, exec (.binit p a b) s = .next t ∧ t.mem = s.mem ∧ t.cx = s.cx ∧
      t.barrier t.hereCluster (s.scratchAt (s.rx a).toNat) = initialObject (s.rx b).toNat s.issue.scope := by
  have two := s.issue.scope.isLt
  have range : ((s.rx b).toNat == 0 || decide (65535 < (s.rx b).toNat)) = false := by simp; omega
  have whole : (initialObject (s.rx b).toNat s.issue.scope).toNat = (s.rx b).toNat * 2 ^ 64 + s.issue.scope.toNat * 2 ^ 51 :=
    (BitVec.toNat_ofNat _ _).trans (Nat.mod_eq_of_lt (by omega))
  obtain ⟨agenda, put⟩ := (s.noteBarrier s.hereCluster (s.scratchAt (s.rx a).toNat)).scratchPut_shape s.hereCluster
    (s.scratchAt (s.rx a).toNat) 16 (initialObject (s.rx b).toNat s.issue.scope).toNat
  refine ⟨{ s.setBarrier s.hereCluster (s.scratchAt (s.rx a).toNat) (initialObject (s.rx b).toNat s.issue.scope) with agenda := agenda },
    ?_, rfl, rfl, State.barrier_setBarrier (s := s) _ wf _⟩
  rw [exec_binit, execBinit, State.perform_true _ _ _ holds, State.onBarrier_inside aligned inside]
  dsimp only
  rw [range, ← whole]
  exact congrArg Host.Outcome.next put

theorem exec_barrive_settled (opens : s.cx.opens = []) (queued : s.coreQueued s.here = []) :
    exec (.barrive p a) s = .next (s.barrierArrive s.hereCluster (s.scratchAt (s.rx a).toNat)) := by
  rw [exec_barrive, execBarrive, State.perform_true _ _ _ holds, State.onBarrier_inside aligned inside]
  simp [State.settled_of_nothing opens queued]

theorem exec_bexpect_inside :
    exec (.bexpect p a b) s = .next (s.barrierAdd s.hereCluster (s.scratchAt (s.rx a).toNat) (s.rx b).toNat) := by
  rw [exec_bexpect, execBexpect, State.perform_true _ _ _ holds, State.onBarrier_inside aligned inside]

/-- The phase that a `bwait` waits for has passed, or the object is faulted. -/
theorem exec_bwait_over (q : BitVec 3) (ended : bPhase (s.barrier s.hereCluster (s.scratchAt (s.rx a).toNat)) ≠ (s.rx b).getLsbD 0 ∨
      bFault (s.barrier s.hereCluster (s.scratchAt (s.rx a).toNat)) = true) :
    exec (.bwait p q a b) s =
      .next (s.flightBound [.q q] [.q q (!bFault (s.barrier s.hereCluster (s.scratchAt (s.rx a).toNat)))]) := by
  have ends : State.waitOver (s.barrier s.hereCluster (s.scratchAt (s.rx a).toNat)) ((s.rx b).getLsbD 0) = true := by
    simpa [State.waitOver] using ended
  rw [exec_bwait, execBwait, State.perform_true _ _ _ holds, State.onBarrier_inside aligned inside]
  simp only [ends, if_true]

/-- A `bwait` that joins the waiters of its object (R264, R268). -/
theorem bwait_joins (q : BitVec 3) (phase : bPhase (s.barrier s.hereCluster (s.scratchAt (s.rx a).toNat)) = (s.rx b).getLsbD 0)
    (sound : bFault (s.barrier s.hereCluster (s.scratchAt (s.rx a).toNat)) = false) : ∃ t w, exec (.bwait p q a b) s = .next t ∧
      t.cx.flights = s.cx.flights ++
        [⟨s.tick, .barrier (s.scratchAt (s.rx a).toNat) ((s.rx b).getLsbD 0), [.q q], [], s.issue.pc⟩] ∧
      (t.cluster s.hereCluster).waiters = (s.cluster s.hereCluster).waiters ++ [w] ∧ w.ctx = s.here ∧ w.flight = s.tick ∧
      w.off = s.scratchAt (s.rx a).toNat := by
  have waits : State.waitOver (s.barrier s.hereCluster (s.scratchAt (s.rx a).toNat)) ((s.rx b).getLsbD 0) = false := by
    simp [State.waitOver, phase, sound]
  rw [exec_bwait, execBwait, State.perform_true _ _ _ holds, State.onBarrier_inside aligned inside]
  simp only [waits, Bool.false_eq_true, if_false]
  let tabled := ((s.cluster s.hereCluster).waiters.filter fun (w : BarWait) => w.tabled).length < 64
  refine ⟨_, (⟨s.here, s.tick, s.scratchAt (s.rx a).toNat, tabled, 64⟩ : BarWait), rfl, ?_, ?_, rfl, rfl, rfl⟩
  · split <;> rfl
  · split <;> exact congrArg Cluster.waiters (State.cluster_setCluster _ _ _)

theorem exec_btest_inside (d : BitVec 5) (h : Bool) : exec (.btest p d a h) s =
    .next (s.push 1 (.x d (if h then (s.barrierSeen s.hereCluster (s.scratchAt (s.rx a).toNat)).extractLsb' 64 64
      else (s.barrierSeen s.hereCluster (s.scratchAt (s.rx a).toNat)).extractLsb' 0 64))) := by
  rw [exec_btest, execBtest, State.perform_true _ _ _ holds, State.onBarrier_inside aligned inside]
  rfl

theorem exec_breset_free (copies : (s.cluster s.hereCluster).copies = []) (waiters : (s.cluster s.hereCluster).waiters = []) :
    exec (.breset p a) s = .next (s.setBarrier s.hereCluster (s.scratchAt (s.rx a).toNat)
      (cleared (s.barrier s.hereCluster (s.scratchAt (s.rx a).toNat)))) := by
  rw [exec_breset, execBreset, State.perform_true _ _ _ holds, State.onBarrier_inside aligned inside]
  simp only [copies, List.any_nil, Bool.false_eq_true, if_false]
  rw [State.releaseWaiters_none _ (by rw [State.setBarrier_waiters]; exact waiters)]
  rfl

end Words

/-- Settles O50: each word by its own lemma, with the fields of the object it leaves. -/
theorem barrierWords : Obligations.BarrierWords := by
  unfold Obligations.BarrierWords
  intro p a b s holds cl off o n obj aligned inside wf
  have add := exec_bexpect_inside (b := b) holds aligned inside
  refine ⟨fun least most => ?binit, fun opens queued sound waits quiet => ?barrive, fun zero => ?none, fun pos fits => ?bexpect,
    fun q => exec_bwait_over holds aligned inside q, fun q => bwait_joins holds aligned inside q,
    fun d => ?btest,
    fun copies waiters => ?breset⟩
  case binit =>
    obtain ⟨t, next, mem, cx, object⟩ := binit_clears holds aligned inside wf least most
    refine ⟨t, next, mem, cx, ?_⟩
    simp only [obj, off, object]
    exact initialObject_fields most s.issue.scope
  case barrive =>
    have next := exec_barrive_settled holds aligned inside opens queued
    obtain ⟨⟨cs, shape⟩, fields⟩ := State.barrierArrive_fields off wf quiet sound waits
    have here : (s.barrierArrive cl off).hereCluster = cl := by rw [shape]; rfl
    refine ⟨s.barrierArrive cl off, next, by rw [shape], by rw [shape], ?_⟩
    simp only [obj, here]
    exact fields
  case none =>
    rw [add, State.barrierAdd]
    exact congrArg Host.Outcome.next (if_pos (beq_iff_eq.2 zero))
  case bexpect =>
    rw [State.barrierAdd_adds off wf pos fits] at add
    obtain ⟨t, next, cx, mem, object⟩ := setBarrier_leaves wf add
    refine ⟨t, next, cx, mem, ?_⟩
    simp only [obj, off, object]
    exact ⟨bPending_bPut o fits, bArrived_bPut_beside o _ (by decide), bPhase_bPut_beside o _ (by decide)⟩
  case btest =>
    intro seen
    have sampled : s.barrierSeen cl off = seen := by
      rw [State.barrierSeen_eq]
      dsimp only [seen, o]
      generalize (s.cluster cl).barBefore.find? _ = noted
      cases noted <;> rfl
    rw [← sampled]
    exact ⟨exec_btest_inside holds aligned inside d false, exec_btest_inside holds aligned inside d true⟩
  case breset =>
    obtain ⟨t, next, cx, mem, object⟩ := setBarrier_leaves wf (exec_breset_free holds aligned inside copies waiters)
    refine ⟨t, next, cx, mem, ?_⟩
    simp only [obj, off, object]
    exact cleared_fields o

end Sys2Proof.Machine
end

