-- ==== Sys2Proof/Proofs/LineBytes.lean ====
section
/-! Bytes of lines: byte masks, values placed in a line, and what memory holds after a masked write of a line. -/

namespace Sys2Proof.Machine

/-! Byte masks and lines, bit by bit and byte by byte. -/

/-- Every bit of byte i of the spread mask is bit i of the mask. -/
theorem testBit_spreadMask : ∀ n m i : Nat, (spreadMask n m).testBit i = (decide (i / 8 < n) && m.testBit (i / 8))
  | 0, _, i => by simp [spreadMask]
  | n + 1, m, i => by
    have low : (if m % 2 == 1 then 255 else 0) < 2 ^ 8 := by split <;> decide
    have shape : spreadMask (n + 1) m = 2 ^ 8 * spreadMask n (m / 2) + (if m % 2 == 1 then 255 else 0) := Nat.add_comm _ _
    rw [shape, Nat.testBit_two_pow_mul_add _ low]
    by_cases first : i < 8
    · have zero : i / 8 = 0 := Nat.div_eq_of_lt first
      rw [if_pos first, zero, Nat.testBit_zero]
      by_cases odd : m % 2 = 1
      · have ones : (255 : Nat).testBit i = decide (i < 8) := Nat.testBit_two_pow_sub_one 8 i
        simp [odd, ones, first]
      · simp [odd]
    · have next : (i - 8) / 8 + 1 = i / 8 := by omega
      rw [if_neg first, testBit_spreadMask n, ← next, Nat.testBit_succ]
      simp

theorem getLsbD_mergeLine (mask : BitVec 128) (old new : BitVec 1024) {i : Nat} (hi : i < 1024) :
    (mergeLine mask old new).getLsbD i = if mask.getLsbD (i / 8) then new.getLsbD i else old.getLsbD i := by
  have byte : i / 8 < 128 := by omega
  unfold mergeLine
  simp only [BitVec.getLsbD_or, BitVec.getLsbD_and, BitVec.getLsbD_not, BitVec.getLsbD_ofNat, testBit_spreadMask, hi, byte,
    decide_true, Bool.true_and, BitVec.testBit_toNat]
  cases mask.getLsbD (i / 8) <;> simp

theorem extractLsb'_mergeLine (mask : BitVec 128) (old new : BitVec 1024) {i : Nat} (hi : i < 128) :
    (mergeLine mask old new).extractLsb' (8 * i) 8 = if mask.getLsbD i then new.extractLsb' (8 * i) 8 else old.extractLsb' (8 * i) 8 := by
  apply BitVec.eq_of_getLsbD_eq
  intro j hj
  have inside : 8 * i + j < 1024 := by omega
  have byte : (8 * i + j) / 8 = i := by omega
  rw [BitVec.getLsbD_extractLsb', getLsbD_mergeLine mask old new inside, byte]
  cases mask.getLsbD i <;> simp

theorem getLsbD_byteMask (o n : Nat) {i : Nat} (hi : i < 128) : (byteMask o n).getLsbD i = decide (o ≤ i ∧ i < o + n) := by
  rw [byteMask, BitVec.getLsbD_ofNat, Nat.testBit_mul_two_pow, Nat.testBit_two_pow_sub_one, decide_eq_true hi, Bool.true_and,
    ← Bool.decide_and]
  exact decide_eq_decide.2 (by omega)

theorem byteMask_ne_zero {o n : Nat} (pos : 0 < n) (fits : o + n ≤ 128) : byteMask o n ≠ 0 := by
  intro h
  have bit := getLsbD_byteMask o n (i := o) (by omega)
  simp [h, pos] at bit

/-- Byte i of a value placed at byte o of a line. -/
theorem extractLsb'_lineValue {o i : Nat} (v : Nat) (above : o ≤ i) (hi : i < 128) :
    (lineValue o v).extractLsb' (8 * i) 8 = BitVec.ofNat 8 (v / 2 ^ (8 * (i - o))) := by
  have split : 2 ^ (8 * i) = 2 ^ (8 * (i - o)) * 2 ^ (8 * o) := by
    rw [← Nat.pow_add]
    congr 1
    omega
  rw [lineValue, extractLsb'_ofNat _ (by omega), split, Nat.mul_div_mul_right _ _ (Nat.two_pow_pos _)]

/-- The bytes of a line after a store: the value's where it is stored, the old ones elsewhere. -/
theorem extractLsb'_lineStore (d : BitVec 1024) {o n v i : Nat} (hv : v < 2 ^ (8 * n)) (hi : i < 128) :
    (lineStore d o n v).extractLsb' (8 * i) 8 =
      if o ≤ i ∧ i < o + n then BitVec.ofNat 8 (v / 2 ^ (8 * (i - o))) else d.extractLsb' (8 * i) 8 := by
  rw [lineStore, extractLsb'_mergeLine _ _ _ hi, getLsbD_byteMask o n hi, Nat.mod_eq_of_lt hv]
  by_cases inside : o ≤ i ∧ i < o + n
  · rw [if_pos (decide_eq_true inside), if_pos inside, extractLsb'_lineValue v inside.1 hi]
  · rw [if_neg (by simpa using inside), if_neg inside]

/-- What has been stored in a line is read back. -/
theorem lineBytes_lineStore (d : BitVec 1024) {o n v : Nat} (hv : v < 2 ^ (8 * n)) (fits : o + n ≤ 128) :
    lineBytes (lineStore d o n v) o n = v := by
  have field : lineBytes (lineStore d o n v) o n = ((lineStore d o n v).extractLsb' (8 * o) (8 * n)).toNat := by
    rw [lineBytes, BitVec.extractLsb'_toNat, Nat.shiftRight_eq_div_pow]
  have same : (lineStore d o n v).extractLsb' (8 * o) (8 * n) = BitVec.ofNat (8 * n) v := by
    apply BitVec.eq_of_getLsbD_eq
    intro j hj
    have inside : 8 * o + j < 1024 := by omega
    have byte : o ≤ (8 * o + j) / 8 ∧ (8 * o + j) / 8 < o + n := by omega
    rw [BitVec.getLsbD_extractLsb', lineStore, getLsbD_mergeLine _ _ _ inside, getLsbD_byteMask o n (by omega),
      if_pos (decide_eq_true byte), lineValue, Nat.mod_eq_of_lt hv, BitVec.getLsbD_ofNat, BitVec.getLsbD_ofNat,
      Nat.testBit_mul_two_pow, Nat.add_sub_cancel_left]
    simp [inside, hj]
  rw [field, same, BitVec.toNat_ofNat, Nat.mod_eq_of_lt hv]

/-- Byte i of a line as its home holds it. -/
theorem State.extractLsb'_lineRaw (s : State) (l : Nat) {i : Nat} (hi : i < 128) :
    (s.lineRaw l).extractLsb' (8 * i) 8 = s.byte (128 * l + i) := by
  have one := cellsRead_part s.mem (o := i) (n := 1) (k := 128) (by omega) (128 * l)
  rw [State.lineRaw, extractLsb'_ofNat _ (by omega)]
  apply BitVec.eq_of_toNat_eq
  rw [BitVec.toNat_ofNat]
  exact one.trans (by simp [cellsRead, State.byte])

/-! Memory after a write of a few bytes. -/

/-- Bytes that are those of a number make up the number. -/
theorem cellsRead_of_bytes (m : List Host.Cell) : ∀ (n a v : Nat),
    (∀ k < n, cellRead m (a + k) = BitVec.ofNat 8 (v / 2 ^ (8 * k))) → cellsRead m a n = v % 2 ^ (8 * n)
  | 0, _, _, _ => by simp [cellsRead, Nat.mod_one]
  | n + 1, a, v, h => by
    have first := h 0 (by omega)
    have rest := cellsRead_of_bytes m n (a + 1) (v / 256) fun k hk => by
      rw [Nat.add_assoc, Nat.add_comm 1 k, h (k + 1) (by omega), div_byte_div_pow]
    have split : 2 ^ (8 * (n + 1)) = 256 * 2 ^ (8 * n) := by rw [Nat.mul_succ, Nat.pow_add, Nat.mul_comm]
    rw [cellsRead, rest, split, Nat.mod_mul]
    rw [Nat.add_zero, Nat.mul_zero, Nat.pow_zero, Nat.div_one] at first
    rw [first, BitVec.toNat_ofNat]

namespace State

/-- The bytes of t are those of s, with the n low bytes of a value written at a. -/
def Wrote (s t : State) (a n v : Nat) : Prop :=
  ∀ q, t.byte q = if a ≤ q ∧ q < a + n then BitVec.ofNat 8 (v / 2 ^ (8 * (q - a))) else s.byte q

section Wrote
variable {s t : State} {a n v : Nat}

theorem Wrote.inside (w : Wrote s t a n v) (hv : v < 2 ^ (8 * n)) : t.bytes a n = v := by
  have read := cellsRead_of_bytes t.mem n a v fun k hk => by
    have at_ : t.byte (a + k) = _ := w (a + k)
    rw [if_pos (by omega), Nat.add_sub_cancel_left] at at_
    exact at_
  rw [bytes, read, Nat.mod_eq_of_lt hv]
theorem Wrote.outside (w : Wrote s t a n v) {q : Nat} (beside : q < a ∨ a + n ≤ q) : t.byte q = s.byte q := by
  rw [w q, if_neg (by omega)]

/-- A masked write of a line whose bytes are the value's in the range, and otherwise as they were. -/
theorem wrote_of_lineMask (wf : Memory.wf s.mem = true) (fits : a % 128 + n ≤ 128) {m : BitVec 128} {d : BitVec 1024}
    (mem : t.mem = cellsMask s.mem (128 * (a / 128)) 128 m.toNat d.toNat)
    (bytes : ∀ i < 128, (if m.getLsbD i then d.extractLsb' (8 * i) 8 else s.byte (128 * (a / 128) + i)) =
      if a % 128 ≤ i ∧ i < a % 128 + n then BitVec.ofNat 8 (v / 2 ^ (8 * (i - a % 128))) else s.byte (128 * (a / 128) + i)) :
    Wrote s t a n v := by
  obtain ⟨line, rest⟩ := byte_lineMask s t (a / 128) m d wf mem
  intro q
  by_cases here : q / 128 = a / 128
  · have place : q = 128 * (a / 128) + q % 128 := by omega
    have range : (a ≤ q ∧ q < a + n) ↔ (a % 128 ≤ q % 128 ∧ q % 128 < a % 128 + n) := by omega
    have index : q - a = q % 128 - a % 128 := by omega
    have at_ := (line (q % 128) (by omega)).trans (bytes (q % 128) (by omega))
    rw [← place] at at_
    rw [at_, index]
    exact ite_congr (propext range.symm) (fun _ => rfl) fun _ => rfl
  · rw [rest q here, if_neg (by omega)]

/-- The bytes of a value written under their mask (R243). -/
theorem wrote_of_byteMask (wf : Memory.wf s.mem = true) (fits : a % 128 + n ≤ 128)
    (mem : t.mem = cellsMask s.mem (128 * (a / 128)) 128 (byteMask (a % 128) n).toNat (lineValue (a % 128) v).toNat) :
    Wrote s t a n v := by
  refine wrote_of_lineMask wf fits mem fun i hi => ?_
  rw [getLsbD_byteMask _ _ hi]
  by_cases inside : a % 128 ≤ i ∧ i < a % 128 + n
  · rw [if_pos (decide_eq_true inside), if_pos inside, extractLsb'_lineValue v inside.1 hi]
  · rw [if_neg (by simpa using inside), if_neg inside]
/-- A line that a value has been stored in, written under the value's mask. -/
theorem wrote_of_lineStore (wf : Memory.wf s.mem = true) (fits : a % 128 + n ≤ 128) (hv : v < 2 ^ (8 * n)) (d : BitVec 1024)
    (mem : t.mem = cellsMask s.mem (128 * (a / 128)) 128 (byteMask (a % 128) n).toNat (lineStore d (a % 128) n v).toNat) :
    Wrote s t a n v := by
  refine wrote_of_lineMask wf fits mem fun i hi => ?_
  rw [getLsbD_byteMask _ _ hi, extractLsb'_lineStore d hv hi]
  by_cases inside : a % 128 ≤ i ∧ i < a % 128 + n
  · rw [if_pos (decide_eq_true inside), if_pos inside, if_pos inside]
  · rw [if_neg (by simpa using inside), if_neg inside]
/-- The line of the home with a value stored in it, written whole. -/
theorem wrote_of_lineRaw (wf : Memory.wf s.mem = true) (fits : a % 128 + n ≤ 128) (hv : v < 2 ^ (8 * n))
    (mem : t.mem = cellsMask s.mem (128 * (a / 128)) 128 (BitVec.allOnes 128).toNat
      (lineStore (s.lineRaw (a / 128)) (a % 128) n v).toNat) : Wrote s t a n v := by
  refine wrote_of_lineMask wf fits mem fun i hi => ?_
  rw [BitVec.getLsbD_allOnes, if_pos (decide_eq_true hi), extractLsb'_lineStore _ hv hi, extractLsb'_lineRaw s _ hi]

end Wrote
end State
end Sys2Proof.Machine
end

