-- ==== Sys2Proof/Proofs/ScalarStores.lean ====
section
/-! A scalar store to a line that stands at its home and nowhere else (R239, R243, R276): how it joins the core's write queue, and
what the event that performs it leaves in memory and in the core's line. -/

namespace Sys2Proof.Machine

/-! Tables. -/

/-- An entry of a table after a store is the stored one or was there. -/
theorem mem_tset {α : Type} {n : Nat} {v : α} {p : Nat × α} : ∀ {t : Table α}, p ∈ tset t n v → p = (n, v) ∨ p ∈ t
  | [], h => .inl (List.mem_singleton.1 h)
  | (k, u) :: r, h => by
    unfold tset at h
    split at h
    · exact (List.mem_cons.1 h).imp_right id
    · split at h
      · exact (List.mem_cons.1 h).imp_right (List.mem_cons_of_mem _)
      · obtain h | h := List.mem_cons.1 h
        · exact .inr (h ▸ List.mem_cons_self)
        · exact (mem_tset h).imp_right (List.mem_cons_of_mem _)
/-- What a table gives for a key is an entry of it, or the default. -/
theorem tget_eq_or_mem {α : Type} (d : α) (n : Nat) : ∀ t : Table α, tget d t n = d ∨ (n, tget d t n) ∈ t
  | [] => .inl rfl
  | (k, u) :: r => by
    unfold tget
    split
    next h => exact .inr (by rw [eq_of_beq h]; exact List.mem_cons_self)
    next => exact (tget_eq_or_mem d n r).imp_right (List.mem_cons_of_mem _)

namespace State

/-! Joining the write queue. -/

/-- The access that a store puts into its core's write queue (R276). -/
def newWrite (s : State) (va : Dbl) (t : Xlat) (n v : Nat) (pol : Policy) (after : List Nat) (coreOnly : Bool) (lane : Nat) : QueuedWrite :=
  ⟨s.tick, s.here, va, t.gpa, t.leaf, n, v % 2 ^ (8 * n), pol, s.cx.id.space, after, coreOnly, s.issue.pc, lane⟩
/-- The state with a write at the end of the queue of its context's core. -/
def enqueued (s : State) (q : QueuedWrite) : State :=
  s.setCore s.hereCore { s.core s.hereCore with queue := (s.core s.hereCore).queue ++ [q] }

/-- A store lists its access, queues it and asks for the event that performs it. -/
theorem queueWrite_shape (s : State) (va : Dbl) (t : Xlat) (n v : Nat) (pol : Policy) (after : List Nat) (coreOnly : Bool) (lane : Nat) :
    ∃ opens touched, s.queueWrite va t n v pol after coreOnly lane =
      { s.enqueued (s.newWrite va t n v pol after coreOnly lane) with
        cx := { s.cx with opens := opens }, issue := { s.issue with touched := touched },
        agenda := s.agenda ++ [(s.cycle, .lineWriteMiss s.hereCore s.tick)], tick := s.tick + 1 } :=
  ⟨_, _, rfl⟩

/-- A queued write changes no line of a core. -/
theorem enqueued_lines (s : State) (q : QueuedWrite) (n : Nat) : ((s.enqueued q).core n).lines = (s.core n).lines := by
  by_cases h : s.hereCore = n
  · rw [← h, enqueued, core_setCore]
  · rw [enqueued, core_setCore_other _ h]
/-- The alias detector looks at lines alone. -/
theorem not_aliased_enqueued {s : State} {page : Nat} {tracked : Bool} (clear : s.aliased page tracked = false) (q : QueuedWrite) :
    (s.enqueued q).aliased page tracked = false := by
  unfold aliased at clear ⊢
  rw [Bool.or_eq_false_iff] at clear ⊢
  obtain ⟨lines, asked⟩ := clear
  refine ⟨List.any_eq_false.2 fun p hp => ?_, asked⟩
  rw [List.any_eq_false] at lines
  obtain rfl | old := mem_tset hp
  · obtain default | listed := tget_eq_or_mem ({} : Core) s.hereCore s.cores
    · have none : (s.core s.hereCore).lines = [] := congrArg Core.lines default
      simp [none]
    · exact lines _ listed
  · exact lines p old

/-! A line that stands at its home, when something beside it changes. -/

/-- A quiet line stays quiet while the device's registers, Silt, the homes and the lines of the cores are as they were. -/
theorem quietLine.congr {s t : State} {x : Xlat} (quiet : s.quietLine x) (dev : t.dev = s.dev) (silt : t.silt = s.silt)
    (homes : t.homes = s.homes) (lines : ∀ n, (t.core n).lines = (s.core n).lines) : t.quietLine x := by
  unfold quietLine ownDevice backed pooledBacked siltRegion lineLocked grantBlocks grantOf dirCores lineOf setLines at quiet ⊢
  simp only [dev, silt, homes, lines]
  exact quiet
theorem quietLine.unlisted {s : State} {x : Xlat} (quiet : s.quietLine x) : (s.setDir (x.gpa / 128) []).quietLine x := by
  obtain ⟨own, window, hb, key, clean, unlocked, grant, _, absent⟩ := quiet
  exact ⟨own, window, hb, key, clean, unlocked, grant, dirCores_setDir_same _ _ _, absent⟩

/-! Stores into a core's line. -/

/-- The line with a value stored in it (R239, R241). -/
def storedLine (ln : Line) (a n v : Nat) : Line :=
  if ln.tracked then { ln with data := lineStore ln.data (a % 128) n v, mesi := .m }
  else { ln with
    mesi := .i, data := lineStore ln.data (a % 128) n v, valid := ln.valid ||| byteMask (a % 128) n,
    dirty := ln.dirty ||| byteMask (a % 128) n }

section Stored
variable (ln : Line) (a n v : Nat)

@[simp] theorem storedLine_line : (storedLine ln a n v).line = ln.line := by unfold storedLine; split <;> rfl
@[simp] theorem storedLine_key : (storedLine ln a n v).key = ln.key := by unfold storedLine; split <;> rfl
@[simp] theorem storedLine_data : (storedLine ln a n v).data = lineStore ln.data (a % 128) n v := by unfold storedLine; split <;> rfl
theorem outMask_storedLine : outMask (storedLine ln a n v) = if ln.tracked then BitVec.allOnes 128 else ln.dirty ||| byteMask (a % 128) n := by
  unfold storedLine outMask
  cases ln.tracked <;> simp

end Stored

@[simp] theorem queue_putLine (s : State) (core : Nat) (ln : Line) : ((s.putLine core ln).core core).queue = (s.core core).queue := by
  simp [putLine]
@[simp] theorem queue_dropLine (s : State) (core l : Nat) : ((s.dropLine core l).core core).queue = (s.core core).queue := by
  simp [dropLine]
@[simp] theorem core_setDir (s : State) (l : Nat) (cs : List Nat) (n : Nat) : (s.setDir l cs).core n = s.core n := rfl

/-! A merge at a home of this device. -/

/-- A step that keeps a part of the state keeps it when repeated. -/
theorem foldl_keeps {α β : Type} (g : State → β) (f : State → α → State) (h : ∀ s a, g (f s a) = g s) : ∀ (l : List α) (s : State),
    g (l.foldl f s) = g s
  | [], _ => rfl
  | a :: r, s => (foldl_keeps g f h r (f s a)).trans (h s a)
theorem afterBytes_devid (s : State) (l : Nat) (whole : Bool) (m : BitVec 128) :
    (((s.unpoison l whole).afterHomeWrite l m).wakeTokens l).dev.devid = s.dev.devid := by
  have woken (t : State) : (t.wakeTokens l).dev.devid = t.dev.devid := by
    refine foldl_keeps (fun t : State => t.dev.devid) _ ?_ _ t
    exact fun _ _ => rfl
  have met (t : State) (read : Watch → Option Nat) : (t.meetWatches read).dev.devid = t.dev.devid := by
    refine foldl_keeps (fun t : State => t.dev.devid) _ ?_ _ t
    exact fun _ _ => rfl
  rw [woken]
  refine (met _ _).trans ?_
  unfold unpoison
  split <;> rfl

/-- A write of an unencrypted line at its home on this device: the bytes of its mask, and nothing of what a cache holds. -/
theorem homeWrite_own (s : State) (sp : BitVec 6) (l : Nat) (m : BitVec 128) (d : BitVec 1024) (hb : s.backed (localOf (128 * l)) = true) :
    ∃ t, s.homeWrite sp 0 l m d = .ok t ∧ t.mem = cellsMask s.mem (128 * l) 128 m.toNat d.toNat ∧ t.dev.devid = s.dev.devid ∧
      Merged s t := by
  obtain ⟨t, written, mem⟩ := s.homeWrite_plain sp l m d hb
  refine ⟨t, written, mem, ?_, merged_homeWrite written⟩
  simp only [homeWrite, hb] at written
  rw [← Except.ok.inj written]
  exact afterBytes_devid _ _ _ _

/-- A line's dirty content at its home on this device. -/
theorem mergeLineTo_own {s : State} {ln : Line} (own : s.ownDevice (128 * ln.line) = true)
    (hb : s.backed (localOf (128 * ln.line)) = true) (key : ln.key = 0) (u : TxnUse) :
    ∃ t, s.mergeLineTo ln u = (t, none) ∧ t.mem = cellsMask s.mem (128 * ln.line) 128 (outMask ln).toNat ln.data.toNat ∧
      t.dev.devid = s.dev.devid ∧ Merged s t := by
  obtain ⟨t, written, mem, devid, merged⟩ := s.homeWrite_own ln.space ln.line (outMask ln) ln.data hb
  have home : s.mergeTo ln.space ln.key ln.line (outMask ln) ln.data u = (t, none) := by
    simp only [mergeTo, own, key, written, if_true]
  unfold mergeLineTo
  rw [home]
  exact ⟨_, rfl, mem, devid, merged.trans (merged_fab t _)⟩

/-- A line of this device that `.s` does not retain goes home (R243). -/
theorem dropStream_own {s : State} {core l : Nat} {ln : Line} (held : s.lineOf core l = some ln) (own : s.ownDevice (128 * l) = true)
    (hb : s.backed (localOf (128 * l)) = true) (key : ln.key = 0) (dirty : outMask ln ≠ 0) (u : TxnUse) :
    ∃ t, s.dropStream core l u = (t, .done 0) ∧ t.mem = cellsMask s.mem (128 * l) 128 (outMask ln).toNat ln.data.toNat ∧
      (t.core core).queue = (s.core core).queue := by
  obtain rfl := lineOf_line held
  unfold dropStream
  simp only [held, beq_false_of_ne dirty, Bool.false_eq_true, if_false]
  have left : ∀ r : State, r.mem = s.mem → r.dev = s.dev → r.silt = s.silt → (r.core core).queue = (s.core core).queue →
      ∃ t, (match r.mergeLineTo ln u with
        | (s, none) => (s, if s.ownDevice (128 * ln.line) = true then Perf.done 0 else Perf.sent)
        | (s, some e) => (s, Perf.fail e)) = (t, .done 0) ∧
        t.mem = cellsMask s.mem (128 * ln.line) 128 (outMask ln).toNat ln.data.toNat ∧ (t.core core).queue = (s.core core).queue := by
    intro r mem dev silt queue
    have own' : r.ownDevice (128 * ln.line) = true := by rw [ownDevice, dev]; exact own
    have hb' : r.backed (localOf (128 * ln.line)) = true := by
      unfold backed pooledBacked siltRegion at hb ⊢
      rw [dev, silt]
      exact hb
    obtain ⟨t, merged, bytes, devid, rest⟩ := mergeLineTo_own own' hb' key u
    have here : t.ownDevice (128 * ln.line) = true := by rw [ownDevice, devid]; exact own'
    refine ⟨t, ?_, by rw [← mem]; exact bytes, (congrArg Core.queue (rest.core core)).trans queue⟩
    simp only [merged, here, if_true]
  cases ln.tracked with
  | false => exact left (s.dropLine core ln.line) rfl rfl rfl (queue_dropLine s core ln.line)
  | true => exact left ((s.dropLine core ln.line).setDir ln.line _) rfl rfl rfl (queue_dropLine s core ln.line)

/-- A store into a line of this device that is there, or has room to come. -/
theorem storeLine_own {s : State} {core l a n v : Nat} {ln : Line} (at_ : ln.line = l) (room : s.roomHeld core l = false)
    (made : s.makeRoom core l = s) (own : s.ownDevice (128 * l) = true) (hb : s.backed (localOf (128 * l)) = true) (key : ln.key = 0)
    (pos : 0 < n) (fits : a % 128 + n ≤ 128) (p : Policy) (u : TxnUse) :
    ∃ t, s.storeLine core p ln a n v u = (t, .done 0) ∧ (t.core core).queue = (s.core core).queue ∧
      (p = .s → t.mem = cellsMask s.mem (128 * l) 128 (outMask (storedLine ln a n v)).toNat (lineStore ln.data (a % 128) n v).toNat) ∧
      (p ≠ .s → t.mem = s.mem ∧ t.lineOf core l = some (storedLine ln a n v)) := by
  subst at_
  have dirty : outMask (storedLine ln a n v) ≠ 0 := by
    rw [outMask_storedLine]
    split
    · decide
    · intro none
      exact byteMask_ne_zero pos fits (BitVec.or_eq_zero_iff.1 none).2
  have put : ∃ r, s.storeLine core p ln a n v u = (if p == .s then r.dropStream core ln.line u else (r, .done 0)) ∧
      r.mem = s.mem ∧ r.dev = s.dev ∧ r.silt = s.silt ∧ (r.core core).queue = (s.core core).queue ∧
      r.lineOf core ln.line = some (storedLine ln a n v) := by
    unfold storeLine storedLine
    simp only [room, made, Bool.false_eq_true, if_false]
    refine ⟨_, rfl, ?_⟩
    split
    · exact ⟨rfl, rfl, rfl, queue_putLine _ _ _, lineOf_putLine_same s core { ln with data := _, mesi := .m }⟩
    · exact ⟨rfl, rfl, rfl, queue_putLine _ _ _, lineOf_putLine_same s core { ln with mesi := .i, data := _, valid := _, dirty := _ }⟩
  obtain ⟨r, shape, mem, dev, silt, queue, held⟩ := put
  rw [shape]
  by_cases stream : p = .s
  · have own' : r.ownDevice (128 * ln.line) = true := by rw [ownDevice, dev]; exact own
    have hb' : r.backed (localOf (128 * ln.line)) = true := by
      unfold backed pooledBacked siltRegion at hb ⊢
      rw [dev, silt]
      exact hb
    obtain ⟨t, dropped, bytes, kept⟩ := dropStream_own held own' hb' (by rw [storedLine_key, key]) dirty u
    rw [mem, storedLine_data] at bytes
    exact ⟨t, by rw [stream]; exact dropped, kept.trans queue, fun _ => bytes, fun h => absurd stream h⟩
  · exact ⟨r, by rw [beq_false_of_ne stream]; rfl, queue, fun h => absurd h stream, fun _ => ⟨mem, held⟩⟩

/-! The write of a store on a quiet line. -/

section Quiet
variable {s : State} {x : Xlat} (quiet : s.quietLine x)
include quiet

theorem quietLine.grant_write : s.grantBlocks (x.gpa / 128 / 512) true = false := by
  obtain ⟨_, _, _, _, _, _, grant, _⟩ := quiet
  rw [Nat.div_div_eq_div_mul]
  exact grant
theorem quietLine.ownLine : s.ownDevice (128 * (x.gpa / 128)) = true := by
  obtain ⟨own, _⟩ := quiet
  unfold ownDevice devOf at own ⊢
  have same : 128 * (x.gpa / 128) / 2 ^ 52 = x.gpa / 2 ^ 52 := by omega
  rw [same]
  exact own
theorem quietLine.room (core : Nat) : s.roomHeld core (x.gpa / 128) = false ∧ s.makeRoom core (x.gpa / 128) = s := by
  obtain ⟨_, _, _, _, _, _, _, _, absent⟩ := quiet
  have few := (absent core).2
  refine ⟨?_, makeRoom_of_room s core _ few⟩
  simp [roomHeld, Nat.not_le.2 few]
theorem quietLine.invalidated (keep : Option Nat) :
    (s.recallTo (x.gpa / 128) .s).invalidateOthers (x.gpa / 128) keep = s.setDir (x.gpa / 128) [] := by
  obtain ⟨_, _, _, _, _, _, _, unheld, _⟩ := quiet
  simp [recallTo_of_unheld unheld, invalidateOthers, unheld]
/-- A fill of a tracked line brings it in exclusive. -/
theorem quietLine.fillLine_tracked (core : Nat) (sp : BitVec 6) : s.fillLine core ⟨sp, 0, true⟩ (x.gpa / 128) =
    ((s.putLine core (s.freshLine sp (x.gpa / 128))).setDir (x.gpa / 128) [core], .ok (s.freshLine sp (x.gpa / 128))) := by
  have grant := quiet.grant
  have cache := quiet.cacheable
  obtain ⟨_, _, hb, _, clean, _, _, unheld, absent⟩ := quiet
  obtain ⟨absent, few⟩ := absent core
  have miss := readMiss_of_unheld core sp unheld cache hb grant.1
  rw [if_neg (by simpa using clean), makeRoom_of_room s core _ few] at miss
  unfold State.fillLine
  rw [absent]
  exact miss

/-- A write that asks the core's line cache: under policy s its bytes go home, and otherwise they stay in the line. -/
theorem quietLine.writeAt_cached (wf : Memory.wf s.mem = true) (core : Nat) (sp : BitVec 6) (tracked : Bool) {p : Policy} (cached : p ≠ .b)
    {n v : Nat} (pos : 0 < n) (fits : x.gpa % 128 + n ≤ 128) (hv : v < 2 ^ (8 * n)) :
    ∃ t, s.writeAt core ⟨sp, 0, tracked⟩ p x.gpa n v = (t, .done 0) ∧ (t.core core).queue = (s.core core).queue ∧
      (p = .s → Wrote s t x.gpa n v) ∧
      (p ≠ .s → t.mem = s.mem ∧ ∃ ln, t.lineOf core (x.gpa / 128) = some ln ∧ lineBytes ln.data (x.gpa % 128) n = v) := by
  have free := quiet.grant_write
  have invalidated := quiet.invalidated
  have own := quiet.ownLine
  have fill := quiet.unlisted.fillLine_tracked core sp
  obtain ⟨room, made⟩ := quiet.room core
  obtain ⟨_, _, hb, _, _, unlocked, _, _, absent⟩ := quiet
  obtain ⟨absent, _⟩ := absent core
  have value : v % 2 ^ (8 * n) = v := Nat.mod_eq_of_lt hv
  have stored (ln : Line) : lineBytes (storedLine ln x.gpa n v).data (x.gpa % 128) n = v := by
    rw [storedLine_data, lineBytes_lineStore _ hv fits]
  unfold State.writeAt
  dsimp only
  rw [value]
  cases tracked with
  | true =>
    let r := ((s.setDir (x.gpa / 128) []).putLine core (s.freshLine sp (x.gpa / 128))).setDir (x.gpa / 128) [core]
    have held : r.lineOf core (x.gpa / 128) = some (s.freshLine sp (x.gpa / 128)) := lineOf_putLine_same _ core (s.freshLine sp _)
    obtain ⟨t, store, queue, streamed, kept⟩ := storeLine_own (s := r) (core := core) (l := x.gpa / 128) (a := x.gpa) (n := n) (v := v)
      (ln := s.freshLine sp (x.gpa / 128)) rfl (by simp [roomHeld, held]) (by simp [makeRoom, held]) own hb rfl pos fits p .plain
    refine ⟨t, ?_, queue.trans (queue_putLine _ core (s.freshLine sp _)), fun h => ?_, fun h => ?_⟩
    · simp only [beq_false_of_ne cached, ownedLine, absent, unlocked, room, free, invalidated, fill]
      exact store
    · exact wrote_of_lineRaw wf fits hv (streamed h)
    · exact ⟨(kept h).1, _, (kept h).2, stored _⟩
  | false =>
    obtain ⟨t, store, queue, streamed, kept⟩ := storeLine_own (core := core) (l := x.gpa / 128) (a := x.gpa) (n := n) (v := v)
      (ln := ⟨x.gpa / 128, false, .i, 0, 0, 0, sp, 0⟩) rfl room made own hb rfl pos fits p .plain
    refine ⟨t, ?_, queue, fun h => wrote_of_lineStore wf fits hv 0 ?_, fun h => ⟨(kept h).1, _, (kept h).2, stored _⟩⟩
    · simp only [beq_false_of_ne cached, unlocked, looseLine, absent, Bool.and_false]
      exact store
    · have mem := streamed h
      rw [outMask_storedLine] at mem
      simpa using mem

/-- A write that goes to the home at once. -/
theorem quietLine.writeAt_home (wf : Memory.wf s.mem = true) (core : Nat) (sp : BitVec 6) (tracked : Bool) {n v : Nat}
    (fits : x.gpa % 128 + n ≤ 128) (hv : v < 2 ^ (8 * n)) : ∃ t, s.writeAt core ⟨sp, 0, tracked⟩ .b x.gpa n v = (t, .done 0) ∧
      (t.core core).queue = (s.core core).queue ∧ Wrote s t x.gpa n v := by
  have free := quiet.grant_write
  have invalidated := quiet.invalidated
  obtain ⟨_, _, hb, _, _, unlocked, _, _, absent⟩ := quiet
  obtain ⟨absent, _⟩ := absent core
  have value : v % 2 ^ (8 * n) = v := Nat.mod_eq_of_lt hv
  unfold State.writeAt
  dsimp only
  rw [value]
  cases tracked with
  | true =>
    obtain ⟨t, written, mem, _, merged⟩ :=
      (s.setDir (x.gpa / 128) []).homeWrite_own sp (x.gpa / 128) (byteMask (x.gpa % 128) n) (lineValue (x.gpa % 128) v) hb
    refine ⟨t, ?_, congrArg Core.queue (merged.core core), wrote_of_byteMask wf fits mem⟩
    simp only [unlocked, free, homePut, invalidated, value, written]
    rfl
  | false =>
    obtain ⟨t, written, mem, _, merged⟩ :=
      s.homeWrite_own sp (x.gpa / 128) (byteMask (x.gpa % 128) n) (lineValue (x.gpa % 128) v) hb
    have noCopy : t.copyPut core (x.gpa / 128) (byteMask (x.gpa % 128) n) (lineValue (x.gpa % 128) v) = t := by
      simp [copyPut, merged.lineOf, absent]
    refine ⟨t, ?_, congrArg Core.queue (merged.core core), wrote_of_byteMask wf fits mem⟩
    simp only [unlocked, free, written, noCopy]
    rfl

/-- What a write of the line leaves: its bytes at home, or in the core's line under policy c. -/
theorem quietLine.writeAt (wf : Memory.wf s.mem = true) (core : Nat) (sp : BitVec 6) (tracked : Bool) (p : Policy) {n v : Nat}
    (pos : 0 < n) (fits : x.gpa % 128 + n ≤ 128) (hv : v < 2 ^ (8 * n)) :
    ∃ t, s.writeAt core ⟨sp, 0, tracked⟩ p x.gpa n v = (t, .done 0) ∧ (t.core core).queue = (s.core core).queue ∧
      (p ≠ .c → Wrote s t x.gpa n v) ∧
      (p = .c → t.mem = s.mem ∧ ∃ ln, t.lineOf core (x.gpa / 128) = some ln ∧ lineBytes ln.data (x.gpa % 128) n = v) := by
  cases p with
  | b =>
    obtain ⟨t, written, queue, home⟩ := quiet.writeAt_home wf core sp tracked fits hv
    exact ⟨t, written, queue, fun _ => home, fun h => absurd h (by decide)⟩
  | c =>
    obtain ⟨t, stored, queue, _, cached⟩ := quiet.writeAt_cached wf core sp tracked (p := .c) (by decide) pos fits hv
    exact ⟨t, stored, queue, fun h => absurd rfl h, fun _ => cached (by decide)⟩
  | s =>
    obtain ⟨t, stored, queue, streamed, _⟩ := quiet.writeAt_cached wf core sp tracked (p := .s) (by decide) pos fits hv
    exact ⟨t, stored, queue, fun _ => streamed rfl, fun h => absurd h (by decide)⟩

end Quiet

/-! The event that performs a write from the queue. -/

/-- The one write of a core's queue, with nothing to wait for, is performed and leaves the queue. -/
theorem lineWriteMiss_lone {s t : State} {core v : Nat} {q : QueuedWrite} (lone : (s.core core).queue = [q]) (after : q.after = [])
    (old : s.olderFlight q.ctx q.id (q.gpa / 128) = false) (performed : s.performWrite core q = (t, .done v)) :
    exec (.lineWriteMiss core q.id) s = .next ((t.unqueue core q.id).closeAccess q.id) := by
  have settled : s.settle core (q.gpa / 128) q.id = (s, true) := by simp [settle, settleLine, lone]
  have follows : s.released q.after q.coreOnly = true := by simp [released, after]
  have found : ((s.core core).queue.find? fun (p : QueuedWrite) => p.id == q.id) = some q := by simp [lone]
  have ran : s.runWrite core q = ((t.unqueue core q.id).closeAccess q.id, true) := by
    simp only [runWrite, follows, old, performed]
    rfl
  rw [exec_lineWriteMiss]
  unfold execLineWriteMiss
  simp only [found, settled, ran]

theorem queue_unqueue (s : State) (core id : Nat) :
    ((s.unqueue core id).core core).queue = (s.core core).queue.filter fun (q : QueuedWrite) => q.id != id := by
  rw [unqueue, core_setCore]
theorem lineOf_unqueue (s : State) (core id l : Nat) : (s.unqueue core id).lineOf core l = s.lineOf core l := by
  unfold lineOf unqueue
  rw [core_setCore]

/-- A queued write of a quiet line puts its value where its policy says, and leaves the queue as it was. -/
theorem quietLine.performWrite {s : State} {x : Xlat} (quiet : s.quietLine x) (wf : Memory.wf s.mem = true) (core : Nat)
    {q : QueuedWrite} (gpa : q.gpa = x.gpa) (leaf : q.leaf = x.leaf) (pos : 0 < q.size) (fits : x.gpa % 128 + q.size ≤ 128)
    (hv : q.value < 2 ^ (8 * q.size)) (sameT : q.policy ≠ .b → s.aliased (x.gpa / 65536) (x.leaf.getLsbD 4) = false) :
    ∃ t, s.performWrite core q = (t, .done 0) ∧ (t.core core).queue = (s.core core).queue ∧
      (q.policy ≠ .c → Wrote s t x.gpa q.size q.value) ∧
      (q.policy = .c → t.mem = s.mem ∧
        ∃ ln, t.lineOf core (x.gpa / 128) = some ln ∧ lineBytes ln.data (x.gpa % 128) q.size = q.value) := by
  obtain ⟨t, written, rest⟩ := quiet.writeAt wf core q.space (x.leaf.getLsbD 4) q.policy pos fits hv
  obtain ⟨own, window, _, key, _⟩ := quiet
  refine ⟨t, ?_, rest⟩
  unfold State.performWrite cacheAccess
  rw [gpa, leaf, key, own, window]
  by_cases b : q.policy = .b
  · rw [b] at written ⊢
    exact written
  · simp only [beq_false_of_ne b, sameT b]
    exact written

/-! The store. -/

/-- A store whose access passes its check and does not name the control window of this device joins the write queue. -/
theorem storeWord_queues {s u : State} {v va : Dbl} {n : Nat} {pol : Policy} {x : Xlat} (rel : Bool)
    (pass : s.laneCheck va n .write (pol != .b) true = (u, .ok x))
    (memory : windowOf (localOf x.gpa) ≠ .control ∨ u.ownDevice x.gpa = false) :
    s.storeWord v va n pol rel = u.queueWrite va x n v.toNat pol
      (if rel then u.earlier (u.issue.scope == 0 && u.ownDevice x.gpa) else []) (u.issue.scope == 0 && u.ownDevice x.gpa) := by
  have plain : (windowOf (localOf x.gpa) == .control && u.ownDevice x.gpa) = false := by
    obtain window | away := memory
    · simp [window]
    · simp [away]
  unfold storeWord
  rw [pass]
  simp only [plain, Bool.false_eq_true, if_false]

/-- A new write has no older access of its line to follow where the state before it had none. -/
theorem olderFlight_enqueued {s : State} {l : Nat} (old : s.olderFlight s.here s.tick l = false)
    (copies : (s.cluster s.hereCluster).copies = []) (q : QueuedWrite) (opens : List OpenAccess) (i : Issue) (a : List (Nat × Instr)) (k : Nat) :
    ({ s.enqueued q with cx := { s.cx with opens := opens }, issue := i, agenda := a, tick := k } : State).olderFlight s.here s.tick l
      = false := by
  have held : ({ s.enqueued q with cx := { s.cx with opens := opens }, issue := i, agenda := a, tick := k } : State).flightsOf s.here =
      s.flightsOf s.here := by
    simp [flightsOf, ctx, enqueued]
  unfold olderFlight at old ⊢
  rw [held]
  simp only [Bool.or_eq_false_iff] at old ⊢
  obtain ⟨before, _⟩ := old
  refine ⟨before, List.any_eq_false.2 fun j hj => ?_⟩
  have listed : j ∈ (s.cluster s.hereCluster).copies := hj
  rw [copies] at listed
  cases listed

/-- The event of a store to a quiet line: its bytes stand at home, or under policy c in the core's line. -/
theorem store_performed {s u : State} {v va : Dbl} {n : Nat} {l : Policy} {x : Xlat}
    (pass : s.laneCheck va n .write (l != .b) true = (u, .ok x)) (quiet : u.quietLine x) (pos : 0 < n) (fits : x.gpa % 128 + n ≤ 128)
    (empty : (u.core u.hereCore).queue = []) (copies : (u.cluster u.hereCluster).copies = [])
    (old : u.olderFlight u.here u.tick (x.gpa / 128) = false) (wf : Memory.wf u.mem = true) :
    let y := v.toNat % 2 ^ (8 * n)
    ∃ w, exec (.lineWriteMiss u.hereCore u.tick) (s.storeWord v va n l false) = .next w ∧ (w.core u.hereCore).queue = [] ∧
      (l ≠ .c → Wrote u w x.gpa n y) ∧
      (l = .c → w.mem = u.mem ∧ ∃ ln, w.lineOf u.hereCore (x.gpa / 128) = some ln ∧ lineBytes ln.data (x.gpa % 128) n = y) := by
  intro y
  obtain ⟨_, hbm, _⟩ := id quiet
  have starts := storeWord_queues (v := v) false pass (.inl (by rw [hbm]; decide))
  obtain ⟨opens, touched, shape⟩ := u.queueWrite_shape va x n v.toNat l [] (u.issue.scope == 0 && u.ownDevice x.gpa) 0
  let q := u.newWrite va x n v.toNat l [] (u.issue.scope == 0 && u.ownDevice x.gpa) 0
  rw [starts]
  simp only [Bool.false_eq_true, if_false, shape]
  generalize ({ u.issue with touched := touched } : Issue) = i
  generalize u.agenda ++ [(u.cycle, .lineWriteMiss u.hereCore u.tick)] = a
  let r : State := { u.enqueued q with cx := { u.cx with opens := opens }, issue := i, agenda := a, tick := u.tick + 1 }
  have quiet' : r.quietLine x := quiet.congr rfl rfl rfl (u.enqueued_lines q)
  have sameT : l ≠ .b → r.aliased (x.gpa / 65536) (x.leaf.getLsbD 4) = false := fun b =>
    not_aliased_enqueued (not_aliased_of_laneCheck pass hbm (by simpa using b)) q
  have lone : (r.core u.hereCore).queue = [q] := by
    have queue : (r.core u.hereCore).queue = (u.core u.hereCore).queue ++ [q] := congrArg Core.queue (core_setCore _ _ _)
    rw [queue, empty]
    rfl
  have old' := olderFlight_enqueued old copies q opens i a (u.tick + 1)
  obtain ⟨t, performed, queue, home, cached⟩ := quiet'.performWrite wf u.hereCore (q := q) rfl rfl pos fits
    (Nat.mod_lt _ (Nat.two_pow_pos _)) sameT
  refine ⟨_, lineWriteMiss_lone (s := r) lone rfl old' performed, ?_, home, fun c => ?_⟩
  · show ((t.unqueue u.hereCore q.id).core u.hereCore).queue = []
    rw [queue_unqueue, queue, lone]
    simp
  · obtain ⟨mem, ln, held, stored⟩ := cached c
    exact ⟨mem, ln, (lineOf_unqueue t u.hereCore q.id _).trans held, stored⟩

/-- The size of a scalar access. -/
theorem access_size (z : BitVec 2) : 2 ^ z.toNat = 1 ∨ 2 ^ z.toNat = 2 ∨ 2 ^ z.toNat = 4 ∨ 2 ^ z.toNat = 8 := by
  have small := z.isLt
  have exponent : z.toNat = 0 ∨ z.toNat = 1 ∨ z.toNat = 2 ∨ z.toNat = 3 := by omega
  obtain h | h | h | h := exponent <;> simp [h]
/-- An aligned access of up to 8 bytes lies within its line. -/
theorem fits_of_aligned {a n : Nat} (size : n = 1 ∨ n = 2 ∨ n = 4 ∨ n = 8) (aligned : a % n = 0) : a % 128 + n ≤ 128 := by
  obtain h | h | h | h := size <;> rw [h] at aligned ⊢ <;> omega

/-- Settles O47: the store queues its access, and the event that performs it writes its bytes. -/
theorem storesWriteMemory : Obligations.StoresWriteMemory := by
  unfold Obligations.StoresWriteMemory
  intro p d a z l f s u x n va y holds pass quiet aligned empty copies old wf
  have size : n = 1 ∨ n = 2 ∨ n = 4 ∨ n = 8 := access_size z
  have fits := fits_of_aligned size aligned
  obtain ⟨w, next, queue, home, cached⟩ := store_performed (v := s.rx d) pass quiet (by omega) fits empty copies old wf
  have hv : y < 2 ^ (8 * n) := Nat.mod_lt _ (Nat.two_pow_pos _)
  refine ⟨s.storeWord (s.rx d) va n l false, w, ?_, next, queue, fun h => ⟨(home h).inside hv, fun q => (home h).outside⟩, fun h => ?_⟩
  · rw [exec_st, execSt, perform_true s p _ holds]
    rfl
  · obtain ⟨mem, held⟩ := cached h
    exact ⟨fun q => by rw [byte, byte, mem], held⟩

end State
end Sys2Proof.Machine
end

