-- ==== Sys2Proof/Proofs/AccessChecks.lean ====
section
/-! What the checks of an access at its issue leave alone (R245, R252, R347): every context, and every core's write queue. -/

namespace Sys2Proof.Machine.State

/-! The write queues. -/

/-- From s to t the write queue of every core is as it was. -/
def SameQueues (s t : State) : Prop := ∀ n, (t.core n).queue = (s.core n).queue

section SameQueues

theorem SameQueues.refl (s : State) : SameQueues s s := fun _ => rfl
theorem SameQueues.trans {s t u : State} (a : SameQueues s t) (b : SameQueues t u) : SameQueues s u := fun n => (b n).trans (a n)
theorem SameQueues.fold {α : Type} (f : State → α → State) (h : ∀ s a, SameQueues s (f s a)) : ∀ (l : List α) (s : State),
    SameQueues s (l.foldl f s)
  | [], s => .refl s
  | a :: r, s => (h s a).trans (SameQueues.fold f h r (f s a))
theorem SameQueues.of_cores {s t : State} (h : t.cores = s.cores) : SameQueues s t := fun n => by unfold core; rw [h]
theorem Merged.queues {s t : State} (m : Merged s t) : SameQueues s t := .of_cores m.cores

theorem sameQueues_setCore (s : State) (n : Nat) (c : Core) (h : c.queue = (s.core n).queue) : SameQueues s (s.setCore n c) := by
  intro m
  by_cases same : n = m
  · rw [← same, core_setCore, h]
  · rw [core_setCore_other _ same]
theorem sameQueues_putLine (s : State) (core : Nat) (ln : Line) : SameQueues s (s.putLine core ln) := sameQueues_setCore s core _ rfl
theorem sameQueues_dropLine (s : State) (core l : Nat) : SameQueues s (s.dropLine core l) := sameQueues_setCore s core _ rfl
theorem sameQueues_setDir (s : State) (l : Nat) (cs : List Nat) : SameQueues s (s.setDir l cs) := .refl s
theorem sameQueues_mergeOut (s : State) (c : Nat) (ln : Line) : SameQueues s (s.mergeOut c ln) := (merged_mergeOut s c ln).queues

theorem sameQueues_recallTo (s : State) (l : Nat) (st : Mesi) : SameQueues s (s.recallTo l st) := by
  unfold recallTo
  refine .fold _ (fun s c => ?_) _ s
  split
  · split
    · dsimp only
      split
      · exact (sameQueues_mergeOut _ _ _).trans (sameQueues_dropLine _ _ _)
      · exact (sameQueues_mergeOut _ _ _).trans (sameQueues_putLine _ _ _)
    · exact .refl s
  · exact .refl s
theorem sameQueues_invalidateOthers (s : State) (l : Nat) (keep : Option Nat) : SameQueues s (s.invalidateOthers l keep) := by
  unfold invalidateOthers
  refine .trans (.fold _ (fun s c => ?_) _ s) (sameQueues_setDir _ _ _)
  split
  · exact .refl s
  · split
    · split
      · exact (sameQueues_mergeOut _ _ _).trans (sameQueues_dropLine _ _ _)
      · exact .refl s
    · exact .refl s
theorem sameQueues_homeBytes (s : State) (sp : BitVec 6) (key : BitVec 8) (a n : Nat) : SameQueues s (s.homeBytes sp key a n).1 := by
  unfold homeBytes homeLine
  dsimp only
  split <;> exact sameQueues_recallTo _ _ _
theorem sameQueues_homePut {s t : State} {sp : BitVec 6} {key : BitVec 8} {a n v : Nat} (h : s.homePut sp key a n v = .ok t) :
    SameQueues s t :=
  (sameQueues_recallTo _ _ _).trans ((sameQueues_invalidateOthers _ _ _).trans (merged_homeWrite h).queues)

/-! Reads and writes of tables. -/

theorem sameQueues_lineReady (s : State) (l : Nat) (w : Bool) (sp : BitVec 6) : SameQueues s (s.lineReady l w sp).1 := by
  unfold lineReady
  split
  · exact .refl s
  · split <;> exact .refl s
theorem sameQueues_awayLine (s : State) (sp : BitVec 6) (key : BitVec 8) (l : Nat) : SameQueues s (s.awayLine sp key l).1 := by
  unfold awayLine
  split
  · exact .refl s
  · dsimp only
    split <;> exact .refl s
theorem sameQueues_homeGet (s : State) (sp : BitVec 6) (key : BitVec 8) (a n : Nat) : SameQueues s (s.homeGet sp key a n).1 := by
  unfold homeGet
  split
  · exact sameQueues_awayLine _ _ _ _
  · split
    · exact .refl s
    · exact .refl s
    · split <;> exact .refl s
    · have ready := sameQueues_lineReady s (a / 128) false sp
      generalize s.lineReady (a / 128) false sp = r at ready
      obtain ⟨u, _ | _⟩ := r
      · exact ready
      · exact ready.trans (sameQueues_homeBytes _ _ _ _ _)
theorem sameQueues_siltLow (s : State) (n blk : Nat) : SameQueues s (s.siltLow n blk) := by
  unfold siltLow
  extract_lets
  split <;> exact .refl s
theorem sameQueues_siltWrite (s : State) (n blk : Nat) (b : Block) : SameQueues s (siltEnd (s.siltWrite n blk b)) := by
  unfold siltWrite
  extract_lets r d k0 ns raw k got
  clear_value got ns raw k
  cases got with
  | none => exact .refl s
  | some g =>
    refine SameQueues.trans ?_ (sameQueues_siltLow _ n blk)
    refine SameQueues.trans (SameQueues.trans ?_ (sameQueues_siltLow _ n blk)) (.refl _)
    exact .refl s
theorem sameQueues_siltPut (s : State) (a n v : Nat) : SameQueues s (siltEnd (s.siltPut a n v)) := by
  unfold siltPut
  extract_lets off
  split
  · exact .refl s
  · rename_i r blk _
    split
    · exact .refl s
    · rename_i b _
      have wrote := sameQueues_siltWrite s r blk
      generalize ((b &&& ~~~_) ||| _ : Block) = c
      have wrote := wrote c
      generalize s.siltWrite r blk c = o at wrote
      cases o with
      | error p => exact wrote
      | ok t =>
        exact wrote.trans ((merged_meetWatches t _).queues.trans (Merged.fold _ (fun s l => merged_wakeTokens s l) _ _).queues)
theorem sameQueues_orAD (s : State) (a : Nat) (w : Bool) : SameQueues s (s.orAD a w) := by
  unfold orAD
  extract_lets bits
  split
  · have ready := sameQueues_lineReady s (a / 128) true 0
    generalize s.lineReady (a / 128) true 0 = r at ready
    obtain ⟨u, _ | _⟩ := r
    · exact ready
    · refine ready.trans ?_
      dsimp only
      split
      · split
        · exact .refl u
        · rename_i old _
          have put := sameQueues_siltPut u a 8 (old.lor bits)
          generalize u.siltPut a 8 (old.lor bits) = o at put
          cases o <;> exact put
      · have read := sameQueues_homeBytes u 0 0 a 8
        generalize u.homeBytes 0 0 a 8 = r at read
        obtain ⟨t, e | old⟩ := r
        · exact read
        · refine read.trans ?_
          dsimp only
          cases put : t.homePut 0 0 a 8 (old.lor bits) with
          | ok v => exact sameQueues_homePut put
          | error e => exact .refl t
  · exact (merged_send _ _ _).queues
theorem sameQueues_setAD (s : State) (a : Nat) (e : Dbl) (w : Bool) : SameQueues s (s.setAD a e w).1 := by
  unfold setAD
  generalize e ||| 0x40 ||| (if w then 0x80 else 0) = e'
  dsimp only
  by_cases done : (e' == e) = true
  · rw [if_pos done]
    exact .refl s
  · rw [if_neg done]
    exact sameQueues_orAD s a w
theorem sameQueues_tlbStore (s : State) (core : Option Nat) (cl : Nat) (e : TlbEntry) : SameQueues s (s.tlbStore core cl e) := by
  unfold tlbStore
  cases core with
  | none => exact .refl s
  | some n => exact sameQueues_setCore s n _ rfl

/-! Translation (R346, R347). -/

theorem sameQueues_entryReady (s : State) (sp : BitVec 6) : SameQueues s (s.entryReady sp) := by
  unfold entryReady
  split
  · exact sameQueues_lineReady _ _ _ _
  · exact .refl s
theorem sameQueues_walk (va : Dbl) (kind : Access) : ∀ (level : Nat) (s : State) (last : Dbl) (table : Nat),
    SameQueues s (s.walk va kind last level table).1
  | 0, s, last, table => by
    have read := sameQueues_homeGet s 0 0 (table + 8 * (va.toNat / 2 ^ 16 % 1024)) 8
    unfold walk tableRead
    dsimp only
    generalize s.homeGet 0 0 (table + 8 * (va.toNat / 2 ^ 16 % 1024)) 8 = r at read
    obtain ⟨u, e | v⟩ := r
    · exact read
    · dsimp only
      split
      · exact read
      · split
        · exact read
        · split <;> exact read
  | n + 1, s, last, table => by
    have read := sameQueues_homeGet s 0 0 (table + 8 * (va.toNat / 2 ^ leafBits (n + 1) % 1024)) 8
    unfold walk tableRead
    dsimp only
    generalize s.homeGet 0 0 (table + 8 * (va.toNat / 2 ^ leafBits (n + 1) % 1024)) 8 = r at read
    obtain ⟨u, e | v⟩ := r
    · exact read
    · dsimp only
      split
      · exact read
      · split
        · split
          · exact read.trans (sameQueues_walk va kind n _ _ _)
          · exact read
        · split <;> exact read
theorem sameQueues_translateHit (s : State) (core : Option Nat) (cl : Nat) (sp : BitVec 6) (va : Dbl) (kind : Access)
    (e : TlbEntry) : SameQueues s (s.translateHit core cl sp va kind e).1 := by
  have walks (pt : Nat) := (sameQueues_entryReady s sp).trans (sameQueues_walk va kind 3 (s.entryReady sp) 0 pt)
  unfold translateHit
  cases s.leafCheck sp va kind 15 e.leaf with
  | some f => exact .refl s
  | none =>
    refine .trans ?_ (sameQueues_tlbStore _ _ _ _)
    cases (writes kind && !e.leaf.getLsbD 7) with
    | false => exact .refl s
    | true =>
      have walk := walks (s.ptRoot (s.spaceEntry sp))
      generalize (s.entryReady sp).walk va kind 0 3 (s.ptRoot (s.spaceEntry sp)) = r at walk
      obtain ⟨u, f | x⟩ := r
      · exact walk
      · exact walk.trans (sameQueues_setAD _ _ _ _)
theorem sameQueues_walked (s : State) (core : Option Nat) (cl : Nat) (sp : BitVec 6) (va : Dbl) (kind : Access) (level a : Nat)
    (e : Dbl) : SameQueues s (s.walked core cl sp va kind level a e).1 := by
  unfold walked
  cases s.leafCheck sp va kind level e with
  | some f => exact .refl s
  | none => exact (sameQueues_setAD _ _ _ _).trans (sameQueues_tlbStore _ _ _ _)
theorem sameQueues_translateMiss (s : State) (core : Option Nat) (cl : Nat) (sp : BitVec 6) (va : Dbl) (kind : Access) :
    SameQueues s (s.translateMiss core cl sp va kind).1 := by
  have ready := sameQueues_entryReady s sp
  unfold translateMiss
  dsimp only
  generalize s.entryReady sp = u at ready
  cases !u.rootOk sp with
  | true => exact ready
  | false =>
    have walk := ready.trans (sameQueues_walk va kind 3 u 0 (u.ptRoot (u.spaceEntry sp)))
    generalize u.walk va kind 0 3 (u.ptRoot (u.spaceEntry sp)) = r at walk
    obtain ⟨t, f | x⟩ := r
    · exact walk
    · exact walk.trans (sameQueues_walked _ _ _ _ _ _ _ _ _)
theorem sameQueues_xlat (s : State) (va : Dbl) (kind : Access) : SameQueues s (s.xlat va kind).1 := by
  unfold xlat translate
  split
  · exact sameQueues_translateHit _ _ _ _ _ _ _
  · exact sameQueues_translateMiss _ _ _ _ _ _

end SameQueues

/-! The checks of an access. -/

/-- From s to t accesses have been checked: no context but the marks of the bundle in issue, and no write queue, has changed. -/
structure Checked (s t : State) : Prop where
  walked : Walked s t
  queues : SameQueues s t

theorem Checked.refl (s : State) : Checked s s := ⟨.refl s, .refl s⟩
theorem Checked.trans {s t u : State} (a : Checked s t) (b : Checked t u) : Checked s u :=
  ⟨a.walked.trans b.walked, a.queues.trans b.queues⟩
theorem Checked.here {s t : State} (c : Checked s t) : t.here = s.here := c.walked.engine.here
theorem Checked.cx {s t : State} (c : Checked s t) : t.cx = s.cx := c.walked.engine.cx
theorem Checked.verdict {s t : State} (c : Checked s t) : t.issue.verdict = s.issue.verdict := by
  obtain ⟨m, h⟩ := c.walked.marks
  rw [h]
theorem Checked.rx {s t : State} (c : Checked s t) (r : BitVec 5) : t.rx r = s.rx r := by unfold State.rx; rw [c.cx]
theorem Checked.rv {s t : State} (c : Checked s t) (r : BitVec 6) : t.rv r = s.rv r := by unfold State.rv; rw [c.cx]
theorem Checked.queue {s t : State} (c : Checked s t) : (t.core t.hereCore).queue = (s.core s.hereCore).queue := by
  rw [hereCore, c.here]
  exact c.queues _

theorem checked_laneCheck (s : State) (va : Dbl) (n : Nat) (kind : Access) (cached window : Bool) :
    Checked s (s.laneCheck va n kind cached window).1 := by
  have translated : Checked s (s.xlat va kind).1 := ⟨walked_xlat s va kind, sameQueues_xlat s va kind⟩
  unfold laneCheck
  dsimp only
  split
  · exact .refl s
  · generalize s.xlat va kind = r at translated
    obtain ⟨u, f | t⟩ := r
    · exact translated
    · dsimp only
      split
      · exact translated
      · split
        · exact translated
        · split
          · split <;> exact translated
          · split
            · refine translated.trans ?_
              unfold logAlias
              split
              · exact .refl u
              · exact ⟨((engine_setChan u _ _).trans (engine_log _ _ _ _ _ _ _ _ _)).walked, .refl u⟩
            · exact translated
theorem checked_lanesCheck (n : Nat) (kind : Access) (cached : Bool) : ∀ (l : List (Nat × Dbl)) (s : State),
    Checked s (s.lanesCheck n kind cached l).1
  | [], s => .refl s
  | (i, va) :: r, s => by
    have first := checked_laneCheck s va n kind cached false
    unfold lanesCheck
    generalize s.laneCheck va n kind cached false = q at first
    obtain ⟨u, f | t⟩ := q
    · exact first
    · have rest := first.trans (checked_lanesCheck n kind cached r u)
      dsimp only at first rest ⊢
      generalize u.lanesCheck n kind cached r = q at rest
      obtain ⟨v, f | l⟩ := q <;> exact rest

end Sys2Proof.Machine.State
end

