-- ==== Sys2Proof/Proofs/Atomics.lean ====
section
/-! An atomic on a line that stands at its home and nowhere else (R253 to R255): the value it writes, and the event that performs and
completes it. -/

namespace Sys2Proof.Machine

/-! The values of R254 as numbers. -/

section Values
variable {n : Nat} (size : n = 4 ∨ n = 8)
include size

/-- The low bytes of an operand. -/
theorem operand_toNat (b : Dbl) : (b.setWidth 64 &&& BitVec.ofNat 64 (2 ^ (8 * n) - 1)).toNat = b.toNat % 2 ^ (8 * n) := by
  have mask : (2 ^ (8 * n) - 1) % 2 ^ 64 = 2 ^ (8 * n) - 1 := by obtain rfl | rfl := size <;> rfl
  rw [BitVec.setWidth_eq, BitVec.toNat_and, BitVec.toNat_ofNat, mask, Nat.and_two_pow_sub_one_eq_mod]

theorem atomicNew_swap (old : Nat) (b : Dbl) : atomicNew .swap n old b = b.toNat % 2 ^ (8 * n) := operand_toNat size b
theorem atomicNew_minN (old : Nat) (b : Dbl) : atomicNew .minN n old b = min old (b.toNat % 2 ^ (8 * n)) :=
  congrArg (min old) (operand_toNat size b)
theorem atomicNew_maxN (old : Nat) (b : Dbl) : atomicNew .maxN n old b = max old (b.toNat % 2 ^ (8 * n)) :=
  congrArg (max old) (operand_toNat size b)

/-- The signed value of the low bytes of a register. -/
theorem signed_eq {v : Dbl} (low : v.toNat < 2 ^ (8 * n)) :
    (if n == 4 then (v.setWidth 32).toInt else v.toInt) = (v.toNat : Int).bmod (2 ^ (8 * n)) := by
  obtain rfl | rfl := size
  · have same : (v.setWidth 32).toNat = v.toNat := by
      rw [BitVec.toNat_setWidth]
      exact Nat.mod_eq_of_lt low
    rw [if_pos (beq_self_eq_true 4), BitVec.toInt_eq_toNat_bmod, same]
  · rw [if_neg (by decide), BitVec.toInt_eq_toNat_bmod]

variable {old : Nat} (small : old < 2 ^ (8 * n))
include small

theorem old_toNat : (BitVec.ofNat 64 old).toNat = old := by
  rw [BitVec.toNat_ofNat]
  refine Nat.mod_eq_of_lt (Nat.lt_of_lt_of_le small (Nat.pow_le_pow_right (by decide) ?_))
  omega

variable (b : Dbl)

theorem atomicNew_add : atomicNew .add n old b = (old + b.toNat % 2 ^ (8 * n)) % 2 ^ (8 * n) := by
  have divides : 2 ^ (8 * n) ∣ 2 ^ 64 := Nat.pow_dvd_pow 2 (by omega)
  unfold atomicNew
  dsimp only
  rw [BitVec.toNat_add, operand_toNat size, old_toNat size small, Nat.mod_mod_of_dvd _ divides]
theorem atomicNew_and : atomicNew .and n old b = old.land (b.toNat % 2 ^ (8 * n)) := by
  unfold atomicNew
  dsimp only
  rw [BitVec.toNat_and, operand_toNat size, old_toNat size small]
  rfl
theorem atomicNew_or : atomicNew .or n old b = old.lor (b.toNat % 2 ^ (8 * n)) := by
  unfold atomicNew
  dsimp only
  rw [BitVec.toNat_or, operand_toNat size, old_toNat size small]
  rfl
theorem atomicNew_xor : atomicNew .xor n old b = old.xor (b.toNat % 2 ^ (8 * n)) := by
  unfold atomicNew
  dsimp only
  rw [BitVec.toNat_xor, operand_toNat size, old_toNat size small]
  rfl
theorem atomicNew_minI : atomicNew .minI n old b =
    if ((b.toNat % 2 ^ (8 * n) : Nat) : Int).bmod (2 ^ (8 * n)) < (old : Int).bmod (2 ^ (8 * n)) then b.toNat % 2 ^ (8 * n) else old := by
  have low : b.toNat % 2 ^ (8 * n) < 2 ^ (8 * n) := Nat.mod_lt _ (Nat.two_pow_pos _)
  have x := signed_eq size (by rw [operand_toNat size b]; exact low)
  have o := signed_eq size (by rw [old_toNat size small]; exact small)
  unfold atomicNew
  dsimp only
  simp only [x, o, operand_toNat size, old_toNat size small]
theorem atomicNew_maxI : atomicNew .maxI n old b =
    if (old : Int).bmod (2 ^ (8 * n)) < ((b.toNat % 2 ^ (8 * n) : Nat) : Int).bmod (2 ^ (8 * n)) then b.toNat % 2 ^ (8 * n) else old := by
  have low : b.toNat % 2 ^ (8 * n) < 2 ^ (8 * n) := Nat.mod_lt _ (Nat.two_pow_pos _)
  have x := signed_eq size (by rw [operand_toNat size b]; exact low)
  have o := signed_eq size (by rw [old_toNat size small]; exact small)
  unfold atomicNew
  dsimp only
  simp only [x, o, operand_toNat size, old_toNat size small]

end Values

namespace State

/-! The access of an atomic on a quiet line. -/

/-- A state that another's writes leave as it was, from a state with the same bytes. -/
theorem Wrote.of_mem {r s t : State} {a n v : Nat} (w : Wrote r t a n v) (mem : r.mem = s.mem) : Wrote s t a n v := by
  intro q
  rw [w q, byte, byte, mem]

section Quiet
variable {s : State} {x : Xlat} (quiet : s.quietLine x)
include quiet

/-- No copy of the line has to come home before an atomic: at most the home's empty list is noted. -/
theorem quietLine.atomicRecall (core : Nat) (sp : BitVec 6) (tracked : Bool) : ∃ r, s.atomicRecall (some core) ⟨sp, 0, tracked⟩
    (x.gpa / 128) = r ∧ r.quietLine x ∧ r.mem = s.mem ∧ r.cx = s.cx ∧ r.here = s.here := by
  have invalidated := quiet.invalidated none
  obtain ⟨_, _, _, _, _, _, _, _, absent⟩ := id quiet
  unfold State.atomicRecall
  cases tracked with
  | true => exact ⟨_, invalidated, quiet.unlisted, rfl, rfl, rfl⟩
  | false =>
    refine ⟨s, ?_, quiet, rfl, rfl, rfl⟩
    simp only [(absent core).1]
    rfl

/-- An atomic access takes the bytes at home and leaves there what its operation gives for them. -/
theorem quietLine.atomicAt (wf : Memory.wf s.mem = true) (core : Nat) (sp : BitVec 6) (tracked : Bool) {n : Nat}
    (fits : x.gpa % 128 + n ≤ 128) (f : Nat → Option Nat) :
    ∃ t, s.atomicAt (some core) ⟨sp, 0, tracked⟩ x.gpa n f = (t, .done (s.bytes x.gpa n)) ∧ t.cx = s.cx ∧ t.here = s.here ∧
      (∀ v, f (s.bytes x.gpa n) = some v → Wrote s t x.gpa n (v % 2 ^ (8 * n))) ∧ (f (s.bytes x.gpa n) = none → t.mem = s.mem) := by
  have free := quiet.grant_write
  obtain ⟨r, recalled, quiet', mem, cx, here⟩ := quiet.atomicRecall core sp tracked
  obtain ⟨_, _, _, _, _, unlocked, _⟩ := quiet
  have line := quiet'.homeLine sp
  have value := r.lineRaw_bytes fits
  obtain ⟨_, _, hb, _⟩ := quiet'
  have same : r.bytes x.gpa n = s.bytes x.gpa n := by rw [bytes, bytes, mem]
  have read : r.homeBytes sp 0 x.gpa n = (r, .ok (s.bytes x.gpa n)) := by
    unfold homeBytes
    rw [line, ← same, ← value]
    rfl
  unfold State.atomicAt
  simp only [unlocked, free, recalled, read]
  cases new : f (s.bytes x.gpa n) with
  | none => exact ⟨r, rfl, cx, here, (fun _ h => nomatch h), fun _ => mem⟩
  | some v =>
    obtain ⟨t, written, bytes⟩ := r.homeWrite_plain sp (x.gpa / 128) (byteMask (x.gpa % 128) n)
      (lineValue (x.gpa % 128) (v % 2 ^ (8 * n))) hb
    have engine := engine_homeWrite written
    refine ⟨t, ?_, engine.cx.trans cx, engine.here.trans here, fun w h => ?_, (fun h => nomatch h)⟩
    · simp only [written]
      rfl
    · cases h
      exact (wrote_of_byteMask (by rw [mem]; exact wf) fits bytes).of_mem mem

end Quiet

/-! The event that performs the access of an atomic and completes it. -/

/-- The event of an atomic's one access, when nothing stands before it and the access gives a value. -/
theorem memStep_of_atomic {s t : State} {f : Flight} {l : Lane} {op : MemOp} {c v : Nat} {sp : BitVec 6} (unsent : l.sent = false)
    (after : op.after = []) (atomic : (op.amo.isSome || op.cas) = true) (empty : (s.core (c / 4)).queue = [])
    (old : s.free.2.olderFlight c f.id (l.gpa / 128) = false)
    (performed : s.free.2.performLane (c / 4) sp c f.id op l = (t, .done v)) :
    s.memStep c sp f [l] op = (t.laneOver f.id l.i (.ok v)).later 0 (.interlockedCompletion c f.id) := by
  have settled := settle_of_empty (s := s.free.2) (core := c / 4) empty (l.gpa / 128) f.id
  have picked : pickLane [l] s.free.1 = some l := by simp [pickLane, unsent, Nat.mod_one]
  have follows : s.released op.after op.coreOnly = true := by simp [released, after]
  have drawn : s.free = (s.free.1, s.free.2) := rfl
  have isLoad : (op.amo.isNone && !op.cas) = false := by
    cases amo : op.amo with
    | none => simpa [amo] using atomic
    | some o => rfl
  have stays : (op.policy == .s && op.amo.isNone && !op.cas) = false := by rw [Bool.and_assoc, isLoad, Bool.and_false]
  unfold memStep
  rw [drawn]
  simp only [List.all_cons, List.all_nil, unsent, follows, picked, old, settled, performed, atomic, stays]
  simp [restOfLine]

/-- What an atomic writes for an old value (R254, R255): with no operation it is a `cas`. -/
def atomicResult (amo : Option AtomicOp) (n : Nat) (expected operand : Dbl) (old : Nat) : Option Nat :=
  match amo with
  | some o => some (atomicNew o n old operand)
  | none => if old = expected.toNat % 2 ^ (8 * n) then some (operand.toNat % 2 ^ (8 * n)) else none

/-- The event that completes an atomic on a quiet line: xd takes the old bytes, sign-extended, and the new ones stand at home. -/
theorem atomic_completes {s u : State} {d a b : BitVec 5} {n : Nat} (amo : Option AtomicOp) {x : Xlat}
    (pass : s.laneCheck (s.rx a) n .atomic false false = (u, .ok x)) (quiet : u.quietLine x) (fits : x.gpa % 128 + n ≤ 128) (hn : 0 < n)
    (alone : u.cx.flights = []) (empty : (u.core u.hereCore).queue = []) (copies : (u.cluster u.hereCluster).copies = [])
    (old : u.olderFlight u.here u.tick (x.gpa / 128) = false) (hd : d ≠ 0) (wf : Memory.wf u.mem = true) :
    ∃ w, exec (.interlockedCompletion u.here u.tick) (s.atomicWord d a b n amo 0) = .next w ∧
      w.rx d = BitVec.ofInt 64 ((u.bytes x.gpa n : Int).bmod (2 ^ (8 * n))) ∧
      (∀ v, atomicResult amo n (s.rx d) (s.rx b) (u.bytes x.gpa n) = some v → Wrote u w x.gpa n (v % 2 ^ (8 * n))) ∧
      (atomicResult amo n (s.rx d) (s.rx b) (u.bytes x.gpa n) = none → w.mem = u.mem) := by
  let l : Lane := { i := 0, va := s.rx a, gpa := x.gpa, leaf := x.leaf, operand := s.rx b, expected := s.rx d }
  let op : MemOp := { size := n, sext := true, policy := .b, amo := amo, cas := amo.isNone }
  have checked : Checked s u := by
    have checked := s.checked_laneCheck (s.rx a) n .atomic false false
    rw [pass] at checked
    exact checked
  have starts : s.atomicWord d a b n amo 0 = u.startMem [.x d] [l] op 3 false false := by
    unfold atomicWord
    simp only [pass, checked.rx]
    rfl
  obtain ⟨os, bs, i, agenda, c, header, shape⟩ := u.startMem_one [.x d] l op 3
  let op1 : MemOp := { op with after := [], coreOnly := c }
  let f : Flight := ⟨u.tick, .mem [l] op1, [.x d], [], header⟩
  let v : State := { u with
    cx := { u.cx with opens := os, barriers := bs, flights := [f] }, issue := i, agenda := agenda, tick := u.tick + 1 }
  have started : s.atomicWord d a b n amo 0 = v := by rw [starts, shape, alone]; rfl
  have old' : v.free.2.olderFlight v.here f.id (x.gpa / 128) = false :=
    olderFlight_of_new (s := u) (cx := v.cx) i agenda (u.tick + 2) alone copies old rfl rfl
  have isAtomic : (op1.amo.isSome || op1.cas) = true := by cases amo <;> rfl
  have quiet' : v.free.2.quietLine x := quiet
  obtain ⟨t, access, cx, here, wrote, same⟩ := quiet'.atomicAt wf (v.here / 4) v.cx.id.space (x.leaf.getLsbD 4) fits (amoNew op1 l)
  have performed : v.free.2.performLane (v.here / 4) v.cx.id.space v.here f.id op1 l = (t, .done (u.bytes x.gpa n)) := by
    obtain ⟨own, window, _, key, _⟩ := quiet'
    unfold performLane atomicHome
    simp only [l, own, key, isAtomic, window]
    exact access
  have one : t.cx.flights = [f] := by rw [cx]; rfl
  have next : exec (.interlockedCompletion u.here u.tick) v = .next (v.memStep v.here v.cx.id.space f [l] op1) := by
    rw [exec_interlockedCompletion]
    unfold execInterlockedCompletion
    rw [findFlight_here (s := v) (g := f) rfl]
  have result (old : Nat) : amoNew op1 l old = atomicResult amo n (s.rx d) (s.rx b) old := by
    cases amo with
    | some o => rfl
    | none => simp [amoNew, atomicResult, op1, op, l]
  obtain ⟨_, value⟩ := ended_load (c := v.cx) (f := f) rfl hd (extendTo64 true n (u.bytes x.gpa n))
  rw [result] at wrote same
  have step : v.memStep v.here v.cx.id.space f [l] op1 = _ := memStep_of_atomic (s := v) rfl rfl isAtomic empty old' performed
  rw [laneOver_last one rfl rfl, endFlight_here one, cx] at step
  rw [started]
  refine ⟨_, next, ?_⟩
  rw [step]
  exact ⟨value.trans (extendTo64_eq true hn (u.bytes_lt x.gpa n)), wrote, same⟩

/-- Settles O48: the event of the atomic's one access, with the values of its operation as numbers. -/
theorem atomicsReadModifyWrite : Obligations.AtomicsReadModifyWrite := by
  unfold Obligations.AtomicsReadModifyWrite
  intro p d a b z s u x n m old y si holds pass quiet aligned alone empty copies older hd wf ends
  have size : n = 4 ∨ n = 8 := by cases z with | false => exact .inl rfl | true => exact .inr rfl
  have fits := fits_of_aligned (by omega) aligned
  have small : old < 2 ^ (8 * n) := u.bytes_lt x.gpa n
  have low : y < 2 ^ (8 * n) := Nat.mod_lt _ (Nat.two_pow_pos _)
  have complete (amo : Option AtomicOp) :=
    atomic_completes (b := b) amo pass quiet fits (by omega) alone empty copies older hd wf
  have ending (o : AtomicOp) (new : Nat) (gives : atomicNew o n old (s.rx b) = new) (bound : new < 2 ^ (8 * n)) :
      ends (.amo p d a b o z 0) new := by
    obtain ⟨w, next, value, wrote, _⟩ := complete (some o)
    have wrote := wrote new (congrArg some gives)
    rw [Nat.mod_eq_of_lt bound] at wrote
    refine ⟨_, w, ?_, next, value, wrote.inside bound, fun q => wrote.outside⟩
    rw [exec_amo, execAmo, perform_true s p _ holds]
  have lesser (c : Prop) [Decidable c] : (if c then y else old) < 2 ^ (8 * n) := by split <;> assumption
  refine ⟨ending _ _ (atomicNew_swap size _ _) low, ending _ _ (atomicNew_add size small _) (Nat.mod_lt _ (Nat.two_pow_pos _)),
    ending _ _ (atomicNew_and size small _) (Nat.lt_of_le_of_lt Nat.and_le_left small),
    ending _ _ (atomicNew_or size small _) (Nat.or_lt_two_pow small low), ending _ _ (atomicNew_xor size small _) (Nat.xor_lt_two_pow small low),
    ending _ _ (atomicNew_minN size _ _) (by omega), ending _ _ (atomicNew_maxN size _ _) (by omega),
    ending _ _ (atomicNew_minI size small _) (lesser _), ending _ _ (atomicNew_maxI size small _) (lesser _), ?_⟩
  obtain ⟨w, next, value, wrote, kept⟩ := complete none
  by_cases equal : old = (s.rx d).toNat % m
  · have wrote := wrote y (if_pos equal)
    rw [Nat.mod_eq_of_lt low] at wrote
    refine ⟨_, w, ?_, next, value, ?_, fun q => wrote.outside⟩
    · rw [exec_cas, execCas, perform_true s p _ holds]
    · rw [if_pos equal]
      exact wrote.inside low
  · have mem := kept (if_neg equal)
    refine ⟨_, w, ?_, next, value, ?_, fun q _ => by rw [byte, byte, mem]⟩
    · rw [exec_cas, execCas, perform_true s p _ holds]
    · rw [if_neg equal, bytes, mem]
      rfl

end State
end Sys2Proof.Machine
end

