-- ==== Sys2Proof/Proofs/LinearIssue.lean ====
section
/-! Loads, stores and atomics at their issue (R247 to R256, R276, R280): what a word starts or queues once its checks have passed. -/

namespace Sys2Proof.Machine

/-- A signed offset, scaled or literal (R246). -/
theorem immScaled_eq (f : BitVec 6) (z : Nat) (lit : Option Word) :
    immScaled f (2 ^ z) lit = BitVec.ofInt 64 (match lit with | some v => v.toInt | none => f.toInt * 2 ^ z) := by
  cases lit with
  | some v => rfl
  | none => simp [immScaled]

namespace State

/-! What has started, and what is queued. -/

/-- From s, checked into u, a load or an atomic has started: t has its operation in flight, the event that performs its accesses,
and the waiting points of `held`. -/
def Starts (s u t : State) (dests : List Reg) (lanes : List Lane) (size : Nat) (after : List Nat) (held : List Barrier) : Prop :=
  ∃ f op, t.cx.flights = s.cx.flights ++ [f] ∧ f.id = u.tick ∧ f.kind = .mem lanes op ∧ f.dests = dests ∧ op.size = size ∧
    op.after = after ∧ t.cx.barriers = s.cx.barriers ++ held ∧ t.mem = u.mem ∧ t.cx.x = s.cx.x ∧
    (u.cycle, .interlockedCompletion u.here u.tick) ∈ t.agenda
/-- From s, checked into u, a store has queued its accesses in t, in order. -/
def Queues (s u t : State) (l : List (Dbl × Nat × Nat × Nat)) (after : List Nat) (core : Bool) : Prop :=
  ∃ w, (t.core u.hereCore).queue = (u.core u.hereCore).queue ++ w ∧ w.map (fun q => (q.va, q.gpa, q.size, q.value)) = l ∧
    (∀ q ∈ w, q.after = after ∧ q.coreOnly = core) ∧ t.mem = u.mem ∧ t.cx.x = s.cx.x
/-- An access at this device, of a bundle at core scope (R280). -/
def near (u : State) (gpa : Nat) : Bool := u.issue.scope == 0 && u.ownDevice gpa
/-- What an acquire holds back (R280). -/
def acquired (u : State) (o near : Bool) : List Barrier := if o then [⟨31, [u.tick], near⟩] else []
/-- What a release follows (R276, R280). -/
def followed (u : State) (o near : Bool) : List Nat := if o then u.earlier near else []

/-- From u to t the word has neither ended nor delivered anything yet, in the same bundle. -/
structure Undelivered (u t : State) : Prop where
  verdict : t.issue.verdict = u.issue.verdict
  pending : t.cx.pending = u.cx.pending
  btime : t.cx.btime = u.cx.btime
/-- From u to t one operation more is in flight, on these destinations; nothing is said of its kind. -/
structure Busy (u t : State) (dests : List Reg) : Prop where
  undelivered : Undelivered u t
  flight : ∃ f, t.cx.flights = u.cx.flights ++ [f] ∧ f.dests = dests

theorem Undelivered.trans {s t u : State} (a : Undelivered s t) (b : Undelivered t u) : Undelivered s u :=
  ⟨b.verdict.trans a.verdict, b.pending.trans a.pending, b.btime.trans a.btime⟩
theorem Checked.undelivered {s u : State} (checked : Checked s u) : Undelivered s u :=
  ⟨checked.verdict, by rw [checked.cx], by rw [checked.cx]⟩

/-! Starting an operation. -/

/-- A load or an atomic with an access is one operation in flight, one access listed, and one event. -/
theorem startMem_shape (u : State) (dests : List Reg) {lanes : List Lane} (op : MemOp) (sets : BitVec 5) (acq rel : Bool)
    (some : lanes ≠ []) :
    let near := u.issue.scope == 0 && lanes.all fun l => u.ownDevice l.gpa
    ∃ opens touched, u.startMem dests lanes op sets acq rel = { u with
      cx := { u.cx with
        opens := opens, barriers := u.cx.barriers ++ u.acquired acq near,
        flights := u.cx.flights ++
          [⟨u.tick, .mem lanes { op with after := u.followed rel near, coreOnly := near }, dests, [], u.issue.pc⟩] },
      issue := { u.issue with touched := touched }, agenda := u.agenda ++ [(u.cycle, .interlockedCompletion u.here u.tick)],
      tick := u.tick + 1 } := by
  intro near
  have scope : (u.issue.scope == 0 && !!(lanes.map Lane.gpa).all u.ownDevice) = near := by
    simp [near, List.all_map, Function.comp_def]
  have filled : lanes.isEmpty = false := List.isEmpty_eq_false_iff.2 some
  unfold startMem
  simp only [filled, scope, Bool.false_eq_true, if_false]
  exact ⟨_, _, rfl⟩
theorem startMem_starts {s u : State} (checked : Checked s u) (dests : List Reg) {lanes : List Lane} (op : MemOp) (sets : BitVec 5)
    (acq rel : Bool) (some : lanes ≠ []) :
    let near := u.issue.scope == 0 && lanes.all fun l => u.ownDevice l.gpa
    Starts s u (u.startMem dests lanes op sets acq rel) dests lanes op.size (u.followed rel near) (u.acquired acq near) := by
  intro near
  obtain ⟨opens, touched, shape⟩ := u.startMem_shape dests op sets acq rel some
  rw [shape]
  unfold Starts
  rw [← checked.cx]
  exact ⟨_, _, rfl, rfl, rfl, rfl, rfl, rfl, rfl, rfl, rfl, List.mem_append_right _ (List.mem_singleton_self _)⟩
theorem busy_flightBound (u : State) (dests : List Reg) (result : List Write) : Busy u (u.flightBound dests result) dests :=
  ⟨⟨rfl, rfl, rfl⟩, _, rfl, rfl⟩
theorem busy_startMem (u : State) (dests : List Reg) (lanes : List Lane) (op : MemOp) (sets : BitVec 5) (acq rel : Bool) :
    Busy u (u.startMem dests lanes op sets acq rel) dests := by
  by_cases none : lanes = []
  · subst none
    exact busy_flightBound u dests []
  · obtain ⟨opens, touched, shape⟩ := u.startMem_shape dests op sets acq rel none
    rw [shape]
    exact ⟨⟨rfl, rfl, rfl⟩, _, rfl, rfl⟩

/-! Queueing writes. -/

/-- From u to t these writes, and no other, have been queued, of one bundle of the context. -/
structure Stored (u t : State) (l : List (Dbl × Nat × Nat × Nat)) (after : List Nat) (core : Bool) : Prop where
  undelivered : Undelivered u t
  here : t.here = u.here
  mem : t.mem = u.mem
  regs : t.cx.x = u.cx.x
  queue : ∃ w, (t.core u.hereCore).queue = (u.core u.hereCore).queue ++ w ∧ w.map (fun q => (q.va, q.gpa, q.size, q.value)) = l ∧
    ∀ q ∈ w, q.after = after ∧ q.coreOnly = core

theorem Stored.none (u : State) (after : List Nat) (core : Bool) : Stored u u [] after core :=
  ⟨⟨rfl, rfl, rfl⟩, rfl, rfl, rfl, [], (List.append_nil _).symm, rfl, fun _ h => absurd h List.not_mem_nil⟩
theorem Stored.append {u t v : State} {l m : List (Dbl × Nat × Nat × Nat)} {after : List Nat} {core : Bool}
    (a : Stored u t l after core) (b : Stored t v m after core) : Stored u v (l ++ m) after core := by
  obtain ⟨w, queue, first, all⟩ := a.queue
  obtain ⟨x, queue', rest, all'⟩ := b.queue
  have same : t.hereCore = u.hereCore := congrArg (· / 4) a.here
  rw [same, queue, List.append_assoc] at queue'
  refine ⟨a.undelivered.trans b.undelivered, b.here.trans a.here, b.mem.trans a.mem, b.regs.trans a.regs,
    w ++ x, queue', by rw [List.map_append, first, rest], fun q hq => ?_⟩
  obtain hq | hq := List.mem_append.1 hq
  · exact all q hq
  · exact all' q hq
theorem Stored.length {u t : State} {l : List (Dbl × Nat × Nat × Nat)} {after : List Nat} {core : Bool} (a : Stored u t l after core) :
    (t.core u.hereCore).queue.length = (u.core u.hereCore).queue.length + l.length := by
  obtain ⟨w, queue, entries, _⟩ := a.queue
  rw [queue, List.length_append, ← entries, List.length_map]
theorem Stored.queues {s u t : State} {l : List (Dbl × Nat × Nat × Nat)} {after : List Nat} {core : Bool} (checked : Checked s u)
    (a : Stored u t l after core) : Queues s u t l after core := by
  obtain ⟨w, queue, entries, all⟩ := a.queue
  exact ⟨w, queue, entries, all, a.mem, by rw [a.regs, checked.cx]⟩
/-- The queue after a store whose checks passed, counted from before the checks. -/
theorem Stored.length_checked {s u t : State} {l : List (Dbl × Nat × Nat × Nat)} {after : List Nat} {core : Bool}
    (a : Stored u t l after core) (checked : Checked s u) :
    (t.core s.hereCore).queue.length = (s.core s.hereCore).queue.length + l.length := by
  have same : u.hereCore = s.hereCore := congrArg (· / 4) checked.here
  have counted := a.length
  rw [checked.queue, same] at counted
  exact counted

theorem stored_queueWrite (u : State) (va : Dbl) (x : Xlat) (n v : Nat) (pol : Policy) (after : List Nat) (core : Bool) (lane : Nat) :
    Stored u (u.queueWrite va x n v pol after core lane) [(va, x.gpa, n, v % 2 ^ (8 * n))] after core := by
  obtain ⟨opens, touched, shape⟩ := u.queueWrite_shape va x n v pol after core lane
  rw [shape]
  refine ⟨⟨rfl, rfl, rfl⟩, rfl, rfl, rfl, [u.newWrite va x n v pol after core lane], ?_, rfl, fun q hq => ?_⟩
  · exact congrArg Core.queue (core_setCore u u.hereCore _)
  · rw [List.mem_singleton.1 hq]
    exact ⟨rfl, rfl⟩
/-- The accesses of a vector store, queued one after another. -/
theorem stored_foldl (n : Nat) : ∀ (vals : List (Nat × Nat × Dbl × Xlat)) (u : State),
    Stored u (vals.foldl (fun s (i, y, va, t) => s.queueWrite va t n y .c [] false i) u)
      (vals.map fun (_, y, va, t) => (va, t.gpa, n, y % 2 ^ (8 * n))) [] false
  | [], u => .none u [] false
  | (i, y, va, t) :: r, u => (stored_queueWrite u va t n y .c [] false i).append (stored_foldl n r _)

/-! Scalar words. -/

section Scalar
variable {s u : State} {va : Dbl} {n : Nat} {x : Xlat}

theorem Checked.of_lane {kind : Access} {cached window : Bool} (pass : s.laneCheck va n kind cached window = (u, .ok x)) :
    Checked s u := by
  have checked := s.checked_laneCheck va n kind cached window
  rw [pass] at checked
  exact checked

theorem loadWord_starts (d : BitVec 5) (sx : Bool) (pol : Policy) (acq : Bool)
    (pass : s.laneCheck va n .read (pol != .b) true = (u, .ok x)) (memory : windowOf (localOf x.gpa) ≠ .control ∨ u.ownDevice x.gpa = false) :
    Busy u (s.loadWord d va n sx pol acq) [.x d] ∧
      Starts s u (s.loadWord d va n sx pol acq) [.x d] [{ i := 0, va := va, gpa := x.gpa, leaf := x.leaf }] n []
        (u.acquired acq (u.near x.gpa)) := by
  have plain : (windowOf (localOf x.gpa) == .control && u.ownDevice x.gpa) = false := by
    obtain window | away := memory
    · simp [window]
    · simp [away]
  have starts : s.loadWord d va n sx pol acq =
      u.startMem [.x d] [{ i := 0, va := va, gpa := x.gpa, leaf := x.leaf }] { size := n, sext := sx, policy := pol } 1 acq false := by
    unfold loadWord
    rw [pass]
    simp only [plain, Bool.false_eq_true, if_false]
  rw [starts]
  have one := startMem_starts (.of_lane pass) [.x d] (lanes := [{ i := 0, va := va, gpa := x.gpa, leaf := x.leaf }])
    { size := n, sext := sx, policy := pol } 1 acq false (List.cons_ne_nil _ _)
  simp only [List.all_cons, List.all_nil, Bool.and_true] at one
  exact ⟨busy_startMem _ _ _ _ _ _ _, one⟩
theorem busy_loadWord (d : BitVec 5) (sx : Bool) (pol : Policy) (acq : Bool)
    (pass : s.laneCheck va n .read (pol != .b) true = (u, .ok x)) : Busy u (s.loadWord d va n sx pol acq) [.x d] := by
  unfold loadWord
  rw [pass]
  dsimp only
  split
  · exact ⟨⟨rfl, rfl, rfl⟩, _, rfl, rfl⟩
  · exact busy_startMem _ _ _ _ _ _ _
theorem stored_storeWord (v : Dbl) (pol : Policy) (rel : Bool) (pass : s.laneCheck va n .write (pol != .b) true = (u, .ok x))
    (memory : windowOf (localOf x.gpa) ≠ .control ∨ u.ownDevice x.gpa = false) :
    Stored u (s.storeWord v va n pol rel) [(va, x.gpa, n, v.toNat % 2 ^ (8 * n))] (u.followed rel (u.near x.gpa)) (u.near x.gpa) := by
  rw [storeWord_queues rel pass memory]
  exact stored_queueWrite _ _ _ _ _ _ _ _ _
theorem atomicWord_starts {a : BitVec 5} (d b : BitVec 5) (amo : Option AtomicOp) (r : BitVec 2)
    (pass : s.laneCheck (s.rx a) n .atomic false false = (u, .ok x)) :
    Starts s u (s.atomicWord d a b n amo r) [.x d]
      [{ i := 0, va := s.rx a, gpa := x.gpa, leaf := x.leaf, operand := s.rx b, expected := s.rx d }] n
      (u.followed (r.getLsbD 1) (u.near x.gpa)) (u.acquired (r.getLsbD 0) (u.near x.gpa)) := by
  have checked := Checked.of_lane pass
  have one := startMem_starts checked [.x d]
    (lanes := [{ i := 0, va := s.rx a, gpa := x.gpa, leaf := x.leaf, operand := s.rx b, expected := s.rx d }])
    { size := n, sext := true, policy := .b, amo := amo, cas := amo.isNone } 3 (r.getLsbD 0) (r.getLsbD 1) (List.cons_ne_nil _ _)
  simp only [List.all_cons, List.all_nil, Bool.and_true] at one
  unfold atomicWord
  simp only [pass, checked.rx]
  exact one

end Scalar

/-! The post-increment (R247). -/

/-- A word that has not trapped or stalled delivers its post-increment with latency 1. -/
theorem Undelivered.postAdd {s t : State} (u : Undelivered s t) (done : s.issue.verdict = .done) (a : BitVec 5) (off : Dbl) :
    t.postAdd s a off = t.wx 1 a (s.rx a + off) ∧
      (t.wx 1 a (s.rx a + off)).cx.pending = s.cx.pending ++ [⟨s.cx.btime + 1, false, .x a (s.rx a + off)⟩] := by
  constructor
  · unfold State.postAdd
    rw [u.verdict, done]
    rfl
  · rw [← u.pending, ← u.btime]
    rfl

end State
end Sys2Proof.Machine
end

