-- ==== Sys2Proof/Proofs/LinearWords.lean ====
section
/-! The linear memory words at their issue: vector accesses, then each word from what it starts or queues (O45). -/

namespace Sys2Proof.Machine
namespace State

/-! Vector accesses (R249 to R252). -/

theorem vecBytes_eq : ∀ z : BitVec 2, vecBytes z = if z.toNat = 0 then 4 else if z.toNat = 1 then 2 else 1 := by decide
theorem stridedLanes_eq (s : State) (k : BitVec 4) (a b : BitVec 5) : s.stridedLanes k a b =
    ((List.range 64).filter (s.rk k).getLsbD).map fun i => (i, s.rx a + BitVec.ofNat 64 (i * (s.rx b).toNat)) := by
  have stride (i : Nat) : BitVec.ofNat 64 i * s.rx b = BitVec.ofNat 64 (i * (s.rx b).toNat) := by
    rw [BitVec.ofNat_mul, BitVec.ofNat_toNat, BitVec.setWidth_eq]
  unfold stridedLanes
  simp only [stride]
theorem lanesCheck_length {n : Nat} {kind : Access} {cached : Bool} : ∀ {l : List (Nat × Dbl)} {s u : State}
    {m : List (Nat × Dbl × Xlat)}, s.lanesCheck n kind cached l = (u, .ok m) → m.length = l.length
  | [], _, _, _, h => by cases h; rfl
  | (i, va) :: r, s, u, m, h => by
    unfold lanesCheck at h
    split at h
    · cases h
    · split at h
      · rename_i rest
        cases h
        rw [List.length_cons, List.length_cons, lanesCheck_length rest]
      · rename_i failed
        exact absurd h (failed _ _)
theorem Checked.of_lanes {s u : State} {n : Nat} {kind : Access} {cached : Bool} {l : List (Nat × Dbl)} {m : List (Nat × Dbl × Xlat)}
    (pass : s.lanesCheck n kind cached l = (u, .ok m)) : Checked s u := by
  have checked := checked_lanesCheck n kind cached l s
  rw [pass] at checked
  exact checked

/-- The values of a store that is not d8: the low bits of the lanes. -/
theorem storeValues_plain {z : BitVec 2} (plain : z ≠ 3) (v : VReg) : ∀ (l : List (Nat × Dbl × Xlat)) (g : BitVec 64),
    (storeValues z v l g).1 = l.map fun (i, va, t) => (i, (lane v i).toNat, va, t)
  | [], _ => rfl
  | (i, va, t) :: r, g => by
    have other : (z == 3) = false := beq_false_of_ne plain
    unfold storeValues
    simp only [other, Bool.false_eq_true, if_false, List.map_cons, storeValues_plain plain v r g]
theorem storeValues_length (z : BitVec 2) (v : VReg) : ∀ (l : List (Nat × Dbl × Xlat)) (g : BitVec 64),
    (storeValues z v l g).1.length = l.length
  | [], _ => rfl
  | (i, va, t) :: r, g => by
    unfold storeValues
    exact congrArg (· + 1) (storeValues_length z v r _)

/-- What a vector store queues: the bytes of `storeValues` for d8, the low bits of the lanes otherwise. -/
theorem storeValues_sent (z : BitVec 2) (v : VReg) (l : List (Nat × Dbl × Xlat)) (g : BitVec 64) :
    (storeValues z v l g).1.map (fun (_, y, va, t) => (va, t.gpa, vecBytes z, y % 2 ^ (8 * vecBytes z))) =
      if z = 3 then (storeValues 3 v l g).1.map fun (_, y, va, t) => (va, t.gpa, vecBytes z, y % 256)
      else l.map fun (i, va, t) => (va, t.gpa, vecBytes z, (lane v i).toNat % 2 ^ (8 * vecBytes z)) := by
  by_cases d8 : z = 3
  · subst d8
    rw [if_pos rfl]
    rfl
  · rw [if_neg d8, storeValues_plain d8, List.map_map]
    rfl

section Vector
variable {s u : State} {z : BitVec 2} {l : List (Nat × Dbl)} {m : List (Nat × Dbl × Xlat)}

/-- A vector load whose lanes passed is one operation on its register. -/
theorem vecLoad_eq (v : BitVec 6) (pass : s.lanesCheck (vecBytes z) .read true l = (u, .ok m)) :
    s.vecLoad v z l = u.startMem [.v (physV v s.cx.vrot)]
      (m.map fun (i, va, t) => ({ i := i, va := va, gpa := t.gpa, leaf := t.leaf } : Lane))
      { size := vecBytes z, sext := z == 3 } 1 false false := by
  rw [← (Checked.of_lanes pass).cx]
  unfold vecLoad
  generalize s.lanesCheck (vecBytes z) .read true l = q at pass ⊢
  subst pass
  rfl
theorem vecLoad_starts (v : BitVec 6) (pass : s.lanesCheck (vecBytes z) .read true l = (u, .ok m)) (some : m ≠ []) :
    Starts s u (s.vecLoad v z l) [.v (physV v s.cx.vrot)]
      (m.map fun (i, va, t) => ({ i := i, va := va, gpa := t.gpa, leaf := t.leaf } : Lane)) (vecBytes z) [] [] := by
  rw [vecLoad_eq v pass]
  exact startMem_starts (.of_lanes pass) _ _ _ false false (mt List.map_eq_nil_iff.1 some)
theorem stored_vecStore (v : BitVec 6) (pass : s.lanesCheck (vecBytes z) .write true l = (u, .ok m)) :
    Stored u (s.vecStore v z l) ((storeValues z (s.rv v) m s.cx.stoch).1.map fun (_, y, va, t) =>
      (va, t.gpa, vecBytes z, y % 2 ^ (8 * vecBytes z))) [] false := by
  have checked := Checked.of_lanes pass
  rw [← checked.rv, ← checked.cx]
  unfold vecStore
  rw [pass]
  dsimp only
  obtain ⟨⟨verdict, pending, btime⟩, here, mem, regs, queue⟩ := stored_foldl (vecBytes z) (storeValues z (u.rv v) m u.cx.stoch).1
    { u with cx := { u.cx with stoch := (storeValues z (u.rv v) m u.cx.stoch).2 } }
  exact ⟨⟨verdict, pending, btime⟩, here, mem, regs, queue⟩

end Vector

/-! The words. -/

section Words
variable {p : Pred} {s u : State} (holds : s.holds p = true)
include holds

section Scalar
variable (d a b : BitVec 5) (z : BitVec 2) (sx o : Bool) (l : Policy) (f : BitVec 6) (lit : Option Word)

theorem exec_ld_holds : exec (.ld p d a z sx l o f lit) s =
    .next (s.loadWord d (s.rx a + BitVec.ofInt 64 (match lit with | some v => v.toInt | none => f.toInt * 2 ^ z.toNat)) (2 ^ z.toNat)
      sx l o) := by
  rw [exec_ld, execLd, perform_true s p _ holds, immScaled_eq]
theorem exec_ldp_holds : exec (.ldp p d a z sx l o f lit) s = .next ((s.loadWord d (s.rx a) (2 ^ z.toNat) sx l o).postAdd s a
      (BitVec.ofInt 64 (match lit with | some v => v.toInt | none => f.toInt * 2 ^ z.toNat))) := by
  rw [exec_ldp, execLdp, perform_true s p _ holds, immScaled_eq]
theorem exec_st_holds : exec (.st p d a z l o f lit) s = .next (s.storeWord (s.rx d)
      (s.rx a + BitVec.ofInt 64 (match lit with | some v => v.toInt | none => f.toInt * 2 ^ z.toNat)) (2 ^ z.toNat) l o) := by
  rw [exec_st, execSt, perform_true s p _ holds, immScaled_eq]
theorem exec_stp_holds : exec (.stp p d a z l o f lit) s = .next ((s.storeWord (s.rx d) (s.rx a) (2 ^ z.toNat) l o).postAdd s a
      (BitVec.ofInt 64 (match lit with | some v => v.toInt | none => f.toInt * 2 ^ z.toNat))) := by
  rw [exec_stp, execStp, perform_true s p _ holds, immScaled_eq]

end Scalar

section Vector
variable (v : BitVec 6) (k : BitVec 4) (a b : BitVec 5) (z : BitVec 2)

theorem exec_vld_holds : exec (.vld p v k a b z) s = .next (s.vecLoad v z (((List.range 64).filter (s.rk k).getLsbD).map fun i =>
    (i, s.rx a + BitVec.ofNat 64 (i * (s.rx b).toNat)))) := by
  rw [exec_vld, execVld, perform_true s p _ holds, stridedLanes_eq]
theorem exec_vgld_holds : exec (.vgld p v k a b z) s = .next (s.vecLoad v z (((List.range 64).filter (s.rk k).getLsbD).map fun i =>
    (i, s.rx a + (lane (s.rv (b.setWidth 6)) i).signExtend 64))) := by
  rw [exec_vgld, execVgld, perform_true s p _ holds]
  rfl
theorem exec_vst_holds : exec (.vst p v k a b z) s = .next (s.vecStore v z (((List.range 64).filter (s.rk k).getLsbD).map fun i =>
    (i, s.rx a + BitVec.ofNat 64 (i * (s.rx b).toNat)))) := by
  rw [exec_vst, execVst, perform_true s p _ holds, stridedLanes_eq]
theorem exec_vsst_holds : exec (.vsst p v k a b z) s = .next (s.vecStore v z (((List.range 64).filter (s.rk k).getLsbD).map fun i =>
    (i, s.rx a + (lane (s.rv (b.setWidth 6)) i).signExtend 64))) := by
  rw [exec_vsst, execVsst, perform_true s p _ holds]
  rfl

end Vector

/-- `vamo` whose lanes passed is one operation on its register (R256). -/
theorem exec_vamo_of_pass (v a b : BitVec 5) (k : BitVec 3) (o : AtomicOp) {l : List (Nat × Dbl × Xlat)}
    (pass : s.lanesCheck 4 .atomic false (((List.range 64).filter (s.rk (k.setWidth 4)).getLsbD).map fun i =>
      (i, s.rx a + (lane (s.rv (b.setWidth 6)) i).signExtend 64)) = (u, .ok l)) :
    exec (.vamo p v a b k o) s = .next (u.startMem [.v (v.setWidth 6)] (l.map fun (i, va, t) =>
      ({ i := i, va := va, gpa := t.gpa, leaf := t.leaf, operand := (lane (s.rv (v.setWidth 6)) i).setWidth 64 } : Lane))
      { size := 4, sext := true, policy := .b, amo := some o } 3 false false) := by
  have indexed : s.lanesCheck 4 .atomic false (s.indexedLanes (s.rk (k.setWidth 4)) a b) = (u, .ok l) := pass
  rw [exec_vamo, execVamo, perform_true s p _ holds]
  rw [← (Checked.of_lanes pass).rv]
  generalize s.lanesCheck 4 .atomic false (s.indexedLanes (s.rk (k.setWidth 4)) a b) = q at indexed ⊢
  subst indexed
  rfl

end Words

/-! O45. -/

theorem passed_eq {α : Type} {q : State × Except FaultInfo α} {x : α} (pass : q.2 = .ok x) : q = (q.1, .ok x) := Prod.ext rfl pass

/-- Settles O45: the checks leave the context and the queues alone, and what follows them starts one operation or queues the
writes. -/
theorem linearWordsIssue : Obligations.LinearWordsIssue := by
  unfold Obligations.LinearWordsIssue
  intro p d a b s u holds done started queued near acquire release
  refine ⟨?scalar, ?vector, ?atomic, ?vamo, ?complete⟩
  case scalar =>
    intro z sx o l f lit x off n memory
    have keeps {t : State} (checked : Checked s u) (undelivered : Undelivered u t) : Undelivered s t :=
      checked.undelivered.trans undelivered
    refine ⟨fun pass => ?_, fun pass => ?_, fun pass => ?_, fun pass => ?_⟩
    · obtain ⟨busy, starts⟩ := loadWord_starts d sx l o pass memory
      exact ⟨_, exec_ld_holds holds d a z sx o l f lit, (keeps (.of_lane pass) busy.undelivered).pending, starts⟩
    · obtain ⟨busy, starts⟩ := loadWord_starts d sx l o pass memory
      obtain ⟨added, pending⟩ := (keeps (.of_lane pass) busy.undelivered).postAdd done a off
      exact ⟨_, (exec_ldp_holds holds d a z sx o l f lit).trans (congrArg _ added), pending, starts⟩
    · have stored := stored_storeWord (s.rx d) l o pass memory
      exact ⟨_, exec_st_holds holds d a z o l f lit, (keeps (.of_lane pass) stored.undelivered).pending, stored.queues (.of_lane pass)⟩
    · have stored := stored_storeWord (s.rx d) l o pass memory
      obtain ⟨added, pending⟩ := (keeps (.of_lane pass) stored.undelivered).postAdd done a off
      have queues := stored.queues (.of_lane pass)
      exact ⟨_, (exec_stp_holds holds d a z o l f lit).trans (congrArg _ added), pending, queues⟩
  case vector =>
    intro v k z l some n act strided indexed lanes stores
    have bytes : n = vecBytes z := (vecBytes_eq z).symm
    clear_value n
    subst bytes
    have sent := storeValues_sent z (s.rv v) l s.cx.stoch
    refine ⟨fun pass => ?_, fun pass => ?_, fun pass => ?_, fun pass => ?_⟩
    · exact ⟨_, exec_vld_holds holds v k a b z, vecLoad_starts v pass some⟩
    · exact ⟨_, exec_vgld_holds holds v k a b z, vecLoad_starts v pass some⟩
    · have stored := stored_vecStore v pass
      rw [sent] at stored
      exact ⟨_, exec_vst_holds holds v k a b z, stored.queues (.of_lanes pass)⟩
    · have stored := stored_vecStore v pass
      rw [sent] at stored
      exact ⟨_, exec_vsst_holds holds v k a b z, stored.queues (.of_lanes pass)⟩
  case atomic =>
    intro z r x pass lane0 begun
    have starts (amo : Option AtomicOp) := atomicWord_starts d b amo r pass
    refine ⟨fun o => ⟨_, ?_, starts (some o)⟩, _, ?_, starts none⟩
    · rw [exec_amo, execAmo, perform_true s p _ holds]
    · rw [exec_cas, execCas, perform_true s p _ holds]
  case vamo =>
    intro v k o l some pass
    exact ⟨_, exec_vamo_of_pass holds v a b k o pass,
      startMem_starts (.of_lanes pass) _ _ _ false false (mt List.map_eq_nil_iff.1 some)⟩
  case complete =>
    intro passes pass busy
    have one {u t : State} {i : Instr} {r : Reg} (next : exec i s = .next t) (checked : Checked s u) (b : Busy u t [r]) : busy i r := by
      obtain ⟨f, flights, dests⟩ := b.flight
      exact ⟨t, next, (checked.undelivered.trans b.undelivered).verdict.trans done, f, by rw [flights, checked.cx], dests⟩
    refine ⟨?scalar, ?vector, ?vamo⟩
    case scalar =>
      intro z sx o l f lit off
      refine ⟨fun passed => ?_, fun passed => ?_, fun x passed memory => ?_, fun x passed memory => ?_⟩
      · obtain ⟨x, passed⟩ := passed
        have passed := passed_eq passed
        exact one (exec_ld_holds holds d a z sx o l f lit) (.of_lane passed) (busy_loadWord d sx l o passed)
      · obtain ⟨x, passed⟩ := passed
        have passed := passed_eq passed
        have b := busy_loadWord d sx l o passed
        obtain ⟨added, pending⟩ := ((Checked.of_lane passed).undelivered.trans b.undelivered).postAdd done a off
        have next := (exec_ldp_holds holds d a z sx o l f lit).trans (congrArg _ added)
        obtain ⟨f, flights, dests⟩ := b.flight
        exact ⟨⟨_, next, ((Checked.of_lane passed).undelivered.trans b.undelivered).verdict.trans done, f,
          flights.trans (by rw [(Checked.of_lane passed).cx]), dests⟩, _, next, pending⟩
      · have passed := passed_eq passed
        have put := stored_storeWord (s.rx d) l o passed (.inl memory)
        exact ⟨_, exec_st_holds holds d a z o l f lit, ((Checked.of_lane passed).undelivered.trans put.undelivered).verdict.trans done,
          put.length_checked (.of_lane passed)⟩
      · have passed := passed_eq passed
        have put := stored_storeWord (s.rx d) l o passed (.inl memory)
        have kept := (Checked.of_lane passed).undelivered.trans put.undelivered
        obtain ⟨added, pending⟩ := kept.postAdd done a off
        exact ⟨_, (exec_stp_holds holds d a z o l f lit).trans (congrArg _ added), kept.verdict.trans done, pending,
          put.length_checked (.of_lane passed)⟩
    case vector =>
      intro v k z n act strided indexed stored
      have bytes : n = vecBytes z := (vecBytes_eq z).symm
      clear_value n
      subst bytes
      have load {i : Instr} {l : List (Nat × Dbl)} (next : exec i s = .next (s.vecLoad v z l)) :
          pass (vecBytes z) .read true l → busy i (.v (physV v s.cx.vrot)) := by
        rintro ⟨m, passed⟩
        have passed := passed_eq passed
        exact one next (.of_lanes passed) (by rw [vecLoad_eq v passed]; exact busy_startMem _ _ _ _ _ _ _)
      have store {i : Instr} {l : List (Nat × Dbl)} (next : exec i s = .next (s.vecStore v z l)) (count : l.length = act.length) :
          pass (vecBytes z) .write true l → stored i := by
        rintro ⟨m, passed⟩
        have passed := passed_eq passed
        have put := stored_vecStore v passed
        refine ⟨_, next, ((Checked.of_lanes passed).undelivered.trans put.undelivered).verdict.trans done,
          (put.length_checked (.of_lanes passed)).trans ?_⟩
        rw [List.length_map, storeValues_length, lanesCheck_length passed, count]
      exact ⟨load (exec_vld_holds holds v k a b z), load (exec_vgld_holds holds v k a b z),
        store (exec_vst_holds holds v k a b z) (List.length_map _), store (exec_vsst_holds holds v k a b z) (List.length_map _)⟩
    case vamo =>
      intro v k o passed
      obtain ⟨m, passed⟩ := passed
      have passed := passed_eq passed
      exact one (exec_vamo_of_pass holds v a b k o passed) (.of_lanes passed) (busy_startMem _ _ _ _ _ _ _)

end State
end Sys2Proof.Machine
end

