-- ==== Sys2Proof/Proofs/LeaseEvents.lean ====
section
/-! The lease table and its events (R364 to R373): what a lease's entry is after a change, and each event from it. -/

namespace Sys2Proof.Machine
namespace State

/-! The table. -/

theorem leaseOf_id {s : State} {id : Nat} {l : Lease} (held : s.leaseOf id = some l) : l.id = id :=
  eq_of_beq (List.find?_some (p := fun m : Lease => m.id == id) held)
/-- An entry that is set replaces those of its id, and no other. -/
theorem leaseOf_setLease (s : State) (l : Lease) (id : Nat) :
    (s.setLease l).leaseOf id = (s.leaseOf id).map fun m => if m.id == l.id then l else m := by
  unfold leaseOf setLease
  rw [List.find?_map]
  have same : (fun m : Lease => m.id == id) ∘ (fun m : Lease => if m.id == l.id then l else m) = fun m : Lease => m.id == id := by
    funext m
    by_cases h : m.id = l.id
    · simp [h]
    · simp [h]
  rw [same]
theorem leaseOf_setLease_same {s : State} {l m : Lease} {id : Nat} (held : s.leaseOf id = some m) (same : l.id = m.id) :
    (s.setLease l).leaseOf id = some l := by
  rw [leaseOf_setLease, held, Option.map_some, same, beq_self_eq_true, if_pos rfl]
theorem leaseOf_dropLease (s : State) (id : Nat) : (s.dropLease id).leaseOf id = none := by
  unfold leaseOf dropLease
  rw [List.find?_eq_none]
  intro m hm
  simpa using (List.mem_filter.1 hm).2

@[simp] theorem channels_setChannels (s : State) (dim : Bool) (t : Table Channel) : (s.setChannels dim t).channels dim = t := by
  cases dim <;> rfl
theorem leases_setChannels (s : State) (dim : Bool) (t : Table Channel) : (s.setChannels dim t).fab.leases = s.fab.leases := by
  cases dim <;> rfl
theorem grants_setChannels (s : State) (dim : Bool) (t : Table Channel) : (s.setChannels dim t).fab.grants = s.fab.grants := by
  cases dim <;> rfl
theorem leaseOf_returnChannels (s : State) (l : Lease) (id : Nat) : (s.returnChannels l).leaseOf id = s.leaseOf id := by
  unfold leaseOf returnChannels
  exact congrArg _ (leases_setChannels s _ _)
theorem returnChannels_cycle (s : State) (l : Lease) : (s.returnChannels l).cycle = s.cycle := by
  unfold returnChannels
  rw [later_cycle]
  rfl
theorem channels_returnChannels (s : State) (l : Lease) : (s.returnChannels l).channels (s.leaseDim l) =
    (s.channels (s.leaseDim l)).map fun (n, c) => (n, if c.lease == l.id then { c with serves := c.home, lease := 0 } else c) :=
  channels_setChannels s (s.leaseDim l) _

/-- A lease that is over: its entry, and when the entry goes. -/
theorem leaseEnds_leaseOf {s : State} {l : Lease} {id : Nat} (held : s.leaseOf id = some l) (st : LeaseState) (reason : BitVec 4) :
    (s.leaseEnds l st reason).leaseOf id = some { l with state := st, reason := reason, channels := [], since := s.cycle } :=
  leaseOf_setLease_same (l := { l with state := st, reason := reason, channels := [], since := s.cycle })
    ((leaseOf_returnChannels s l id).trans held) rfl
theorem leaseEnds_agenda (s : State) (l : Lease) (st : LeaseState) (reason : BitVec 4) :
    (s.cycle + 14000000, .leaseEntryTimeout (BitVec.ofNat 8 l.id)) ∈ (s.leaseEnds l st reason).agenda :=
  List.mem_append_right _ (List.mem_singleton_self _)
/-- No channel is of a lease that is over (R364). -/
theorem leaseEnds_channels (s : State) {l : Lease} (st : LeaseState) (reason : BitVec 4) (named : l.id ≠ 0) {n : Nat} {c : Channel}
    (hc : (n, c) ∈ (s.leaseEnds l st reason).channels (s.leaseDim l)) : c.lease ≠ l.id := by
  have table : (s.leaseEnds l st reason).channels (s.leaseDim l) = (s.returnChannels l).channels (s.leaseDim l) := rfl
  rw [table, channels_returnChannels] at hc
  obtain ⟨⟨m, d⟩, -, eq⟩ := List.mem_map.1 hc
  cases eq
  by_cases leased : (d.lease == l.id) = true
  · simp only [leased, if_true]
    exact Ne.symm named
  · simp only [leased]
    simpa using leased

/-! The events. -/

section Events
variable {s : State} {id : BitVec 8} {l : Lease} (held : s.leaseOf id.toNat = some l)
include held

theorem ofNat_leaseOf_id : BitVec.ofNat 8 l.id = id := by rw [leaseOf_id held, BitVec.ofNat_toNat, BitVec.setWidth_eq]
theorem endLease_of_held : s.endLease l = (s.setLease { l with state := .ending }).later 2800 (.leaseDrained id) := by
  unfold endLease
  rw [ofNat_leaseOf_id held]

theorem leaseHeadGrant_takes {dim : Bool} {cs : List Nat} (head : s.leaseQueue dim = [l])
    (takes : s.takeChannels dim (s.peerSlot dim l.dest) [] l.want = some cs) :
    ∃ t, exec (.leaseHeadGrant dim) s = .next t ∧
      t.leaseOf id.toNat = some { l with state := .negotiate, channels := cs, granted := s.fab.grants + 1 } ∧
      ∀ n c, (n, c) ∈ t.channels dim → n ∈ cs → c.lease = l.id ∧ c.serves = s.peerSlot dim l.dest := by
  let u := s.setChannels dim ((s.channels dim).map fun (n, c) =>
    (n, if cs.contains n then ({ c with serves := s.peerSlot dim l.dest, lease := l.id } : Channel) else c))
  let v : State := { u with fab := { u.fab with grants := u.fab.grants + 1 } }
  have served : exec (.leaseHeadGrant dim) s = .next (v.setLease { l with state := .negotiate, channels := cs, granted := u.fab.grants + 1 }) := by
    rw [exec_leaseHeadGrant, execLeaseHeadGrant, head]
    simp only [serveLeases, takes, List.contains_nil, Bool.false_eq_true, if_false]
    rfl
  have count : u.fab.grants = s.fab.grants := grants_setChannels s dim _
  have entry : v.leaseOf id.toNat = some l := by
    unfold leaseOf
    exact (congrArg _ (leases_setChannels s dim _)).trans held
  rw [count] at served
  have set := leaseOf_setLease_same (l := { l with state := .negotiate, channels := cs, granted := s.fab.grants + 1 }) entry rfl
  refine ⟨_, served, set, fun n c hc taken => ?_⟩
  have table : ∀ m : Lease, (v.setLease m).channels dim = u.channels dim := fun m => by cases dim <;> rfl
  rw [table, channels_setChannels] at hc
  obtain ⟨⟨k, d⟩, -, eq⟩ := List.mem_map.1 hc
  cases eq
  have mine : cs.contains n = true := List.contains_iff_mem.2 taken
  simp only [mine, if_true]
  exact ⟨trivial, trivial⟩

/-- A reply while the destination's channels are all taken (R369). -/
theorem leaseReserveReply_full (asked : l.state = .negotiate)
    (full : 16 < s.serving (s.leaseDim l) (s.peerSlot (s.leaseDim l) l.dest)) (ok : Bool) :
    exec (.leaseReserveReply id ok) s = .next (s.leaseEnds l .refused 2) := by
  rw [exec_leaseReserveReply, execLeaseReserveReply]
  simp [held, asked, full]
/-- A reply while it has room. -/
theorem leaseReserveReply_room (asked : l.state = .negotiate)
    (room : s.serving (s.leaseDim l) (s.peerSlot (s.leaseDim l) l.dest) ≤ 16) (ok : Bool) :
    exec (.leaseReserveReply id ok) s = .next (if ok then (s.setLease { l with state := .tuning }).later 2800 (.leaseTuned id)
      else if l.doomed then s.leaseEnds l .ended 0
      else
        let s1 := ((s.returnChannels l).setLease { l with state := .queued, channels := [] }).later
          (1400 * l.term - (s.cycle - l.since)) (.leaseQueueExpiry id)
        if l.klass == 0 then s1.revokeToward l else s1) := by
  have space := Nat.not_lt.2 room
  rw [exec_leaseReserveReply, execLeaseReserveReply]
  simp [held, asked, space]
theorem leaseTuned_active (tuning : l.state = .tuning) (kept : l.doomed = false) : exec (.leaseTuned id) s =
    .next (((s.setLease { l with state := .active, activeAt := s.cycle }).later (1400 * l.term) (.leaseTermExpiry id)).later
      0 (.leaseHeadGrant (s.leaseDim l))) := by
  rw [exec_leaseTuned, execLeaseTuned]
  simp [held, tuning, kept]
theorem leaseTermExpiry_ends (active : l.state = .active) (term : s.leaseRemain l = 0) :
    exec (.leaseTermExpiry id) s = .next (s.endLease l) := by
  rw [exec_leaseTermExpiry, execLeaseTermExpiry]
  simp [held, active, term]
theorem leaseNoticeExpiry_eq (notice : l.state = .notice) : exec (.leaseNoticeExpiry id) s =
    .next (if 14000 ≤ s.cycle - l.since then s.endLease l else s) := by
  rw [exec_leaseNoticeExpiry, execLeaseNoticeExpiry]
  simp [held, notice]
theorem leaseDrained_ends (ending : l.state = .ending) : exec (.leaseDrained id) s = .next (s.leaseEnds l .ended 0) := by
  rw [exec_leaseDrained, execLeaseDrained]
  simp [held, ending]
theorem leaseQueueExpiry_ends (queued : l.state = .queued) (term : 1400 * l.term ≤ s.cycle - l.since) :
    exec (.leaseQueueExpiry id) s = .next (s.leaseEnds l .refused 6) := by
  rw [exec_leaseQueueExpiry, execLeaseQueueExpiry]
  simp [held, queued, term]
theorem leaseEntryTimeout_frees (ends : leaseOver l = true) (kept : 14000000 ≤ s.cycle - l.since) :
    exec (.leaseEntryTimeout id) s = .next (s.dropLease l.id) := by
  rw [exec_leaseEntryTimeout, execLeaseEntryTimeout]
  simp [held, ends, kept]

end Events

/-! Revocation (R371). -/

theorem leaseOf_leaseNotice (s : State) (l : Lease) (id : Nat) :
    (s.leaseNotice l).leaseOf id = (s.setLease { l with state := .notice, since := s.cycle }).leaseOf id := rfl
/-- Notices leave the entries of other leases alone. -/
theorem leaseOf_revokeLeases {id : Nat} (dim : Bool) : ∀ (ls : List Lease) (s : State) (n : Nat), (∀ m ∈ ls, m.id ≠ id) →
    (s.revokeLeases dim n ls).leaseOf id = s.leaseOf id
  | [], _, _, _ => rfl
  | m :: r, s, n, others => by
    unfold revokeLeases
    split
    · rfl
    · rw [leaseOf_revokeLeases dim r _ _ fun k hk => others k (List.mem_cons_of_mem m hk), leaseOf_leaseNotice, leaseOf_setLease]
      cases entry : s.leaseOf id with
      | none => rfl
      | some k =>
        have other : (k.id == m.id) = false := by
          rw [leaseOf_id entry]
          exact beq_false_of_ne (others m List.mem_cons_self).symm
        simp only [Option.map_some, other, Bool.false_eq_true, if_false]
theorem mem_revocable {s : State} {dim : Bool} {m : Lease} (h : m ∈ s.revocable dim) :
    m ∈ s.fab.leases ∧ m.state = .active := by
  unfold revocable at h
  rw [List.mem_mergeSort, List.mem_filter] at h
  simp only [Bool.and_eq_true, beq_iff_eq] at h
  exact ⟨h.1, h.2.1.1⟩
/-- A request that negotiation has put back in the queue, whose class-0 revocation leaves its entry alone. -/
theorem revokeToward_own {s : State} {l : Lease} (alone : ∀ m ∈ s.fab.leases, m.id = l.id → m.state ≠ .active) :
    (s.revokeToward l).leaseOf l.id = s.leaseOf l.id := by
  unfold revokeToward
  refine leaseOf_revokeLeases _ _ s.free.2 _ fun m hm same => ?_
  obtain ⟨listed, active⟩ := mem_revocable (s := s.free.2) (List.mem_filter.1 hm).1
  exact alone m listed same active
/-- The one lease toward the destination that may be revoked has its notice. -/
theorem revokeToward_one {s : State} {l q m : Lease} (table : s.fab.leases = [q, m]) (queued : q.state ≠ .active) (other : q.id ≠ m.id)
    (active : m.state = .active) (low : m.klass ≠ 0) (dest : m.dest = l.dest) :
    (s.revokeToward l).leaseOf m.id = some { m with state := .notice, since := s.cycle } := by
  have dim : s.free.2.leaseDim m = s.leaseDim l := by
    unfold leaseDim
    rw [dest]
    rfl
  have one : (s.free.2.revocable (s.leaseDim l)).filter (fun k : Lease => k.dest == l.dest) = [m] := by
    have leases : s.free.2.fab.leases = [q, m] := table
    have unfit : (q.state == .active) = false := beq_false_of_ne queued
    have fits : (m.klass != 0) = true := bne_iff_ne.2 low
    unfold revocable
    simp only [leases, List.filter_cons, unfit, active, fits, dim, Bool.false_and, beq_self_eq_true, Bool.and_self, List.filter_nil,
      Bool.false_eq_true, if_false, if_true, List.mergeSort_singleton, dest]
  have entry : s.free.2.leaseOf m.id = some m := by
    unfold leaseOf
    simp [table, other]
  unfold revokeToward
  dsimp only
  have wanted : (1 + s.free.1.toNat % l.want == 0) = false := beq_false_of_ne (by omega)
  have drawn : s.free = (s.free.1, s.free.2) := rfl
  rw [drawn]
  simp only [one, revokeLeases, wanted, Bool.false_eq_true, if_false]
  rw [leaseOf_leaseNotice]
  exact leaseOf_setLease_same (l := { m with state := .notice, since := s.cycle }) entry rfl

/-- A reply without channels puts the request back in the queue; one of class 0 revokes the one lease that it may (R369, R371). -/
theorem leaseReserveReply_queues {s : State} {id : BitVec 8} {l : Lease} (held : s.leaseOf id.toNat = some l) (asked : l.state = .negotiate)
    (room : s.serving (s.leaseDim l) (s.peerSlot (s.leaseDim l) l.dest) ≤ 16) (kept : l.doomed = false) :
    ∃ t, exec (.leaseReserveReply id false) s = .next t ∧ t.leaseOf id.toNat = some { l with state := .queued, channels := [] } ∧
      (l.klass = 0 → ∀ m : Lease, s.fab.leases = [l, m] → m.id ≠ l.id → m.state = .active → m.klass ≠ 0 → m.dest = l.dest →
        t.leaseOf m.id = some { m with state := .notice, since := s.cycle }) := by
  let q : Lease := { l with state := .queued, channels := [] }
  let s1 := ((s.returnChannels l).setLease q).later (1400 * l.term - (s.cycle - l.since)) (.leaseQueueExpiry id)
  have back : exec (.leaseReserveReply id false) s = .next (if l.klass == 0 then s1.revokeToward l else s1) := by
    rw [leaseReserveReply_room held asked room, if_neg Bool.false_ne_true, if_neg (by rw [kept]; exact Bool.false_ne_true)]
  have entry : s1.leaseOf id.toNat = some q := leaseOf_setLease_same (l := q) ((leaseOf_returnChannels s l _).trans held) rfl
  have table : s1.fab.leases = s.fab.leases.map fun m : Lease => if m.id == l.id then q else m :=
    congrArg (List.map _) (leases_setChannels s _ _)
  have cycle : s1.cycle = s.cycle := returnChannels_cycle s l
  clear_value s1
  refine ⟨_, back, ?_, ?_⟩
  · split
    · have own := revokeToward_own (s := s1) (l := l) fun m listed same => by
        rw [table] at listed
        obtain ⟨k, -, eq⟩ := List.mem_map.1 listed
        by_cases mine : (k.id == l.id) = true
        · rw [if_pos mine] at eq
          rw [← eq]
          exact fun h => nomatch h
        · rw [if_neg mine] at eq
          rw [eq] at mine
          exact absurd (beq_iff_eq.2 same) mine
      rw [leaseOf_id held] at own
      exact own.trans entry
    · exact entry
  · intro class0 m two other active low dest
    rw [if_pos (beq_iff_eq.2 class0)]
    have pair : s1.fab.leases = [q, m] := by
      rw [table, two]
      simp [other]
    have noticed := revokeToward_one pair (l := l) (fun h => nomatch h) (Ne.symm other) active low dest
    rw [cycle] at noticed
    exact noticed

end State
end Sys2Proof.Machine
end

