-- ==== Sys2Proof/Proofs/Veiled.lean ====
section
/-! What an access of memory neither reads nor writes: the fence sets that the bundle in issue has touched (R275), and the Mooring
port. Each operation of the homes, of the fabric and of translation answers the same when these differ, and leaves them. -/

namespace Sys2Proof.Machine
namespace State

/-- The state with sets touched in the bundle, and another Mooring port. -/
def veil (s : State) (k : BitVec 5) (m : Mooring) : State :=
  { s with issue := { s.issue with touched := s.issue.touched ||| k }, moor := m }
/-- Another state with the same answer. -/
def veiled {α : Type} (k : BitVec 5) (m : Mooring) (r : State × α) : State × α := (r.1.veil k m, r.2)

section Veil
variable (s : State) (k : BitVec 5) (m : Mooring)

theorem veil_foldl {α : Type} {f : State → α → State} (h : ∀ s a, f (s.veil k m) a = (f s a).veil k m) : ∀ (l : List α) (s : State),
    l.foldl f (s.veil k m) = (l.foldl f s).veil k m
  | [], _ => rfl
  | a :: r, s => by rw [List.foldl_cons, List.foldl_cons, h, veil_foldl h r]
theorem veil_self : s.veil 0 s.moor = s := by
  have touched : s.issue.touched ||| 0 = s.issue.touched := BitVec.or_zero
  unfold veil
  rw [touched]
/-- An operation that a veil passes leaves the port as it was. -/
theorem moor_of_veil {f : State → State} (h : ∀ s m, f (s.veil 0 m) = (f s).veil 0 m) (s : State) : (f s).moor = s.moor := by
  have kept := h s s.moor
  rw [veil_self] at kept
  rw [kept]
  rfl

/-! Writes at a home of this device. -/

theorem veil_meetWatches (read : Watch → Option Nat) : (s.veil k m).meetWatches read = (s.meetWatches read).veil k m := by
  unfold meetWatches
  exact veil_foldl k m (fun _ _ => rfl) _ s
theorem veil_wakeTokens (l : Nat) : (s.veil k m).wakeTokens l = (s.wakeTokens l).veil k m := by
  unfold wakeTokens
  exact veil_foldl k m (fun _ _ => rfl) _ s
theorem veil_afterHomeWrite (l : Nat) (mask : BitVec 128) : (s.veil k m).afterHomeWrite l mask = (s.afterHomeWrite l mask).veil k m := by
  have met := s.veil_meetWatches k m fun w => if w.gpa / 128 == l then s.watchValue w else none
  unfold afterHomeWrite
  exact congrArg (fun t : State => ({ t with dev := { t.dev with released := t.dev.released.filter fun sp =>
    !(t.entryAt sp / 128 == l && mask.extractLsb' (t.entryAt sp % 128) 64 != 0) } } : State)) met
theorem veil_unpoison (l : Nat) (whole : Bool) : (s.veil k m).unpoison l whole = (s.unpoison l whole).veil k m := by
  cases whole <;> rfl
theorem veil_afterBytes (l : Nat) (whole : Bool) (mask : BitVec 128) : (((s.veil k m).unpoison l whole).afterHomeWrite l mask).wakeTokens l =
    (((s.unpoison l whole).afterHomeWrite l mask).wakeTokens l).veil k m := by
  rw [veil_unpoison, veil_afterHomeWrite, veil_wakeTokens]
theorem veil_storeCipher (l : Nat) (c : BitVec 1024) (tag : BitVec 64) (whole : Bool) :
    (s.veil k m).storeCipher l c tag whole = (s.storeCipher l c tag whole).veil k m := by
  have move (x : List Host.Cell) (h : Homes) :
      ({ s.veil k m with mem := x, homes := h } : State) = ({ s with mem := x, homes := h } : State).veil k m := rfl
  have mem : (s.veil k m).mem = s.mem := rfl
  unfold storeCipher
  simp only [mem]
  generalize cellsMask s.mem (128 * l) 128 (2 ^ 128 - 1) c.toNat = x
  exact (congrArg (fun t : State => ((t.unpoison l whole).afterHomeWrite l (BitVec.allOnes 128)).wakeTokens l) (move x _)).trans
    (veil_afterBytes _ k m l whole _)
theorem veil_homeWrite (sp : BitVec 6) (key : BitVec 8) (l : Nat) (mask : BitVec 128) (d : BitVec 1024) :
    (s.veil k m).homeWrite sp key l mask d = (s.homeWrite sp key l mask d).map fun t => t.veil k m := by
  have backed : (s.veil k m).backed (localOf (128 * l)) = s.backed (localOf (128 * l)) := rfl
  have slot : (s.veil k m).keySlot sp key = s.keySlot sp key := rfl
  have plain : (s.veil k m).homePlain sp key l = s.homePlain sp key l := rfl
  unfold homeWrite
  simp only [backed, slot, plain, veil_storeCipher]
  split
  · rfl
  · split
    · have move : ({ s.veil k m with mem := cellsMask s.mem (128 * l) 128 mask.toNat d.toNat } : State) =
        ({ s with mem := cellsMask s.mem (128 * l) 128 mask.toNat d.toNat } : State).veil k m := rfl
      refine congrArg Except.ok ((congrArg (fun t : State =>
        ((t.unpoison l (mask == BitVec.allOnes 128)).afterHomeWrite l mask).wakeTokens l) move).trans ?_)
      exact veil_afterBytes _ k m l _ mask
    · split
      · rfl
      · split <;> rfl

/-! Sending over the fabric. -/

theorem veil_pick (l : List Nat) : (s.veil k m).pick l = ((s.pick l).1, (s.pick l).2.veil k m) := by
  unfold pick
  split <;> rfl
theorem veil_emit (f : Flit) : (s.veil k m).emit f = (s.emit f).veil k m := by
  have hops : (s.veil k m).nextHops f = s.nextHops f := rfl
  unfold emit
  rw [hops, veil_pick]
  generalize s.pick ((s.nextHops f).map BitVec.toNat) = r
  obtain ⟨_ | n, u⟩ := r
  · rfl
  · have links : (u.veil k m).linkChannels ((u.peerDim (BitVec.ofNat 8 n)).getD false) (BitVec.ofNat 8 n) =
        u.linkChannels ((u.peerDim (BitVec.ofNat 8 n)).getD false) (BitVec.ofNat 8 n) := rfl
    have dim : (u.veil k m).peerDim (BitVec.ofNat 8 n) = u.peerDim (BitVec.ofNat 8 n) := rfl
    dsimp only
    rw [dim, links, veil_pick]
    rfl
theorem veil_freeTag (d : Nat) (tag : BitVec 12) (n : Nat) : (s.veil k m).freeTag d tag n = s.freeTag d tag n := by
  induction n generalizing tag with
  | zero => rfl
  | succ n ih =>
    have busy : (s.veil k m).tagBusy d tag = s.tagBusy d tag := rfl
    unfold freeTag
    rw [ih, busy]
theorem veil_class0 (u : TxnUse) : (s.veil k m).class0 u = s.class0 u := by
  induction u with
  | rmw _ _ _ _ _ u ih => exact ih
  | _ => rfl
/-- The flit of a transaction's first copy. -/
def firstFlit (s : State) (x : Txn) (tag : BitVec 12) : Flit :=
  { x.flit with tag := tag, seq := if x.flit.ord then (s.peer x.flit.dst.toNat).sendSeq else 0, cz := s.class0 x.use_ }
/-- The state in which a transaction's first copy goes on the fabric. -/
def firstSent (s : State) (x : Txn) (tag : BitVec 12) : State :=
  let p := s.peer x.flit.dst.toNat
  let x1 : Txn := { x with flit := s.firstFlit x tag, firstSend := s.cycle, lastSend := s.cycle, sends := 1 }
  let t := s.setPeer x.flit.dst.toNat { p with tagNext := tag + 1, sendSeq := if x.flit.ord then p.sendSeq + 1 else p.sendSeq }
  { t with fab := { t.fab with txns := t.fab.txns.map fun (y : Txn) => if y.id == x.id then x1 else y } }
theorem firstSend_eq (x : Txn) : s.firstSend x = match s.freeTag x.flit.dst.toNat (s.peer x.flit.dst.toNat).tagNext 4096 with
    | none => (s, false)
    | some tag => ((((s.firstSent x tag).emit (s.firstFlit x tag)).later 70000 (.transactionResend x.id)).later 280000
        (.fabricTimeout x.id), true) := rfl
theorem veil_firstFlit (x : Txn) (tag : BitVec 12) : (s.veil k m).firstFlit x tag = s.firstFlit x tag := by
  unfold firstFlit
  rw [veil_class0]
  rfl
theorem veil_firstSent (x : Txn) (tag : BitVec 12) : (s.veil k m).firstSent x tag = (s.firstSent x tag).veil k m := by
  unfold firstSent
  rw [veil_firstFlit]
  rfl
theorem veil_firstSend (x : Txn) : (s.veil k m).firstSend x = veiled k m (s.firstSend x) := by
  have peer : (s.veil k m).peer x.flit.dst.toNat = s.peer x.flit.dst.toNat := rfl
  rw [firstSend_eq, firstSend_eq, peer, veil_freeTag]
  cases s.freeTag x.flit.dst.toNat (s.peer x.flit.dst.toNat).tagNext 4096 with
  | none => rfl
  | some tag =>
    dsimp only
    rw [veil_firstFlit, veil_firstSent, veil_emit]
    rfl
/-- A transaction as it is listed when it is asked for, and the state that lists it. -/
def newTxn (s : State) (f : Flit) (u : TxnUse) : Txn :=
  ⟨s.fab.nextTxn, { f with src := s.dev.devid, cz := s.class0 u }, u, s.cycle, s.cycle, 0, none, []⟩
def listing (s : State) (x : Txn) : State :=
  { s with fab := { s.fab with nextTxn := s.fab.nextTxn + 1, txns := s.fab.txns ++ [x] } }
theorem send_eq (f : Flit) (u : TxnUse) : s.send f u =
    let wait := ((s.listing (s.newTxn f u)).later 64 (.transactionResend s.fab.nextTxn))
    if s.fab.txns.any fun y => y.sends == 0 && y.flit.dst == f.dst then (s.fab.nextTxn, wait)
    else match (s.listing (s.newTxn f u)).firstSend (s.newTxn f u) with
      | (t, true) => (s.fab.nextTxn, t)
      | (t, false) => (s.fab.nextTxn, t.later 64 (.transactionResend s.fab.nextTxn)) := rfl
theorem veil_send (f : Flit) (u : TxnUse) : (s.veil k m).send f u = ((s.send f u).1, (s.send f u).2.veil k m) := by
  have txn : (s.veil k m).newTxn f u = s.newTxn f u := by
    unfold newTxn
    rw [veil_class0]
    rfl
  have listed : (s.veil k m).listing (s.newTxn f u) = (s.listing (s.newTxn f u)).veil k m := rfl
  have queued : (s.veil k m).fab = s.fab := rfl
  rw [send_eq, send_eq, txn, listed, queued, veil_firstSend]
  dsimp only
  split
  · rfl
  · generalize (s.listing (s.newTxn f u)).firstSend (s.newTxn f u) = r
    obtain ⟨t, _ | _⟩ := r <;> rfl

/-! Lines going home. -/

theorem veil_sendMerge (sp : BitVec 6) (key : BitVec 8) (l : Nat) (mask : BitVec 128) (d : BitVec 1024) (u : TxnUse) :
    (s.veil k m).sendMerge sp key l mask d u = veiled k m (s.sendMerge sp key l mask d u) := by
  have lost (n : BitVec 8) : (s.veil k m).deviceLost n = s.deviceLost n := rfl
  have slot : (s.veil k m).keySlot sp key = s.keySlot sp key := rfl
  have flit (t : BitVec 8) (o : Bool) (a : Nat) : (s.veil k m).flitTo t o a = s.flitTo t o a := rfl
  unfold sendMerge
  simp only [lost, slot, flit, veil_send]
  split
  · rfl
  · split
    · rfl
    · split
      · rfl
      · split <;> rfl
theorem veil_mergeTo (sp : BitVec 6) (key : BitVec 8) (l : Nat) (mask : BitVec 128) (d : BitVec 1024) (u : TxnUse) :
    (s.veil k m).mergeTo sp key l mask d u = veiled k m (s.mergeTo sp key l mask d u) := by
  have own : (s.veil k m).ownDevice (128 * l) = s.ownDevice (128 * l) := rfl
  unfold mergeTo
  rw [own, veil_homeWrite, veil_sendMerge]
  split
  · cases s.homeWrite sp key l mask d <;> rfl
  · rfl
theorem veil_mergeLineTo (ln : Line) (u : TxnUse) : (s.veil k m).mergeLineTo ln u = veiled k m (s.mergeLineTo ln u) := by
  unfold mergeLineTo
  rw [veil_mergeTo]
  rfl
theorem veil_mergeFailed (c : Nat) (sp : BitVec 6) (l : Nat) (e : BitVec 8) :
    (s.veil k m).mergeFailed c sp l e = (s.mergeFailed c sp l e).veil k m := by
  unfold mergeFailed
  split <;> rfl
theorem veil_mergeOut (c : Nat) (ln : Line) : (s.veil k m).mergeOut c ln = (s.mergeOut c ln).veil k m := by
  unfold mergeOut
  rw [veil_mergeLineTo]
  split
  · rfl
  · generalize s.mergeLineTo ln (.merge c ln.space ln.line) = r
    obtain ⟨t, _ | e⟩ := r
    · rfl
    · exact veil_mergeFailed t k m c ln.space ln.line e
theorem veil_recallTo (l : Nat) (dest : Mesi) : (s.veil k m).recallTo l dest = (s.recallTo l dest).veil k m := by
  unfold recallTo
  refine veil_foldl k m (fun t c => ?_) _ s
  have line : (t.veil k m).lineOf c l = t.lineOf c l := rfl
  rw [line]
  cases t.lineOf c l with
  | none => rfl
  | some ln =>
    dsimp only
    rw [veil_mergeOut]
    split
    · split <;> rfl
    · rfl
theorem veil_invalidateOthers (l : Nat) (keep : Option Nat) :
    (s.veil k m).invalidateOthers l keep = (s.invalidateOthers l keep).veil k m := by
  have cores : (s.veil k m).dirCores l = s.dirCores l := rfl
  unfold invalidateOthers
  rw [cores, veil_foldl k m (fun t c => ?_) _ s]
  · rfl
  · have line : (t.veil k m).lineOf c l = t.lineOf c l := rfl
    rw [line]
    split
    · rfl
    · cases t.lineOf c l with
      | none => rfl
      | some ln =>
        dsimp only
        rw [veil_mergeOut]
        split <;> rfl

/-! Reads and writes of an engine at a home. -/

theorem veil_homeLine (sp : BitVec 6) (key : BitVec 8) (l : Nat) :
    (s.veil k m).homeLine sp key l = veiled k m (s.homeLine sp key l) := by
  unfold homeLine
  rw [veil_recallTo]
  generalize s.recallTo l .s = t
  have backed : (t.veil k m).backed (localOf (128 * l)) = t.backed (localOf (128 * l)) := rfl
  have plain : (t.veil k m).homePlain sp key l = t.homePlain sp key l := rfl
  dsimp only
  rw [backed, plain]
  split <;> rfl
theorem veil_homeBytes (sp : BitVec 6) (key : BitVec 8) (a n : Nat) :
    (s.veil k m).homeBytes sp key a n = veiled k m (s.homeBytes sp key a n) := by
  unfold homeBytes
  rw [veil_homeLine]
  rfl
theorem veil_homePut (sp : BitVec 6) (key : BitVec 8) (a n v : Nat) :
    (s.veil k m).homePut sp key a n v = (s.homePut sp key a n v).map fun t => t.veil k m := by
  unfold homePut
  dsimp only
  rw [veil_recallTo, veil_invalidateOthers, veil_homeWrite]
theorem veil_lineReady (l : Nat) (w : Bool) (sp : BitVec 6) : (s.veil k m).lineReady l w sp = veiled k m (s.lineReady l w sp) := by
  have locked : (s.veil k m).lineLocked l = s.lineLocked l := rfl
  have grant : (s.veil k m).grantBlocks (l / 512) w = s.grantBlocks (l / 512) w := rfl
  unfold lineReady
  rw [locked, grant]
  split
  · rfl
  · split <;> rfl

theorem veil_entryReady (sp : BitVec 6) : (s.veil k m).entryReady sp = (s.entryReady sp).veil k m := by
  have own : (s.veil k m).ownDevice ((s.veil k m).entryAt sp) = s.ownDevice (s.entryAt sp) := rfl
  have entry : (s.veil k m).entryAt sp = s.entryAt sp := rfl
  unfold entryReady
  rw [own, entry, veil_lineReady]
  split <;> rfl
theorem veil_awayLine (sp : BitVec 6) (key : BitVec 8) (l : Nat) :
    (s.veil k m).awayLine sp key l = veiled k m (s.awayLine sp key l) := by
  have lost : (s.veil k m).deviceLost (devOf (128 * l)) = s.deviceLost (devOf (128 * l)) := rfl
  have fab : (s.veil k m).fab = s.fab := rfl
  have cycle : (s.veil k m).cycle = s.cycle := rfl
  unfold awayLine
  rw [lost]
  split
  · rfl
  · dsimp only
    rw [fab, cycle]
    split <;> rfl
theorem veil_homeGet (sp : BitVec 6) (key : BitVec 8) (a n : Nat) : (s.veil k m).homeGet sp key a n = veiled k m (s.homeGet sp key a n) := by
  have own : (s.veil k m).ownDevice a = s.ownDevice a := rfl
  have locked : (s.veil k m).lineLocked (a / 128) = s.lineLocked (a / 128) := rfl
  have ready := s.veil_lineReady k m (a / 128) false sp
  unfold homeGet
  rw [own, locked, veil_awayLine, ready]
  split
  · rfl
  · split
    · rfl
    · rfl
    · split <;> rfl
    · generalize s.lineReady (a / 128) false sp = r
      obtain ⟨t, _ | _⟩ := r
      · rfl
      · exact veil_homeBytes t k m sp key a n

/-! Silt. -/

theorem veil_siltLow (n blk : Nat) : (s.veil k m).siltLow n blk = (s.siltLow n blk).veil k m := by
  have silt : (s.veil k m).silt = s.silt := rfl
  unfold siltLow
  rw [silt]
  dsimp only
  split <;> rfl
theorem veil_afterSiltWrite (a n : Nat) : (s.veil k m).afterSiltWrite a n = (s.afterSiltWrite a n).veil k m := by
  have met := s.veil_meetWatches k m fun w => if w.gpa / 4096 == a / 4096 then (s.siltGet w.space w.key w.gpa 8).toOption else none
  unfold afterSiltWrite
  exact (congrArg (fun t : State => ((List.range ((a % 128 + n + 127) / 128)).map (a / 128 + ·)).foldl wakeTokens t) met).trans
    (veil_foldl k m (fun t l => t.veil_wakeTokens k m l) _ _)
/-- What a replacement of a block comes to, veiled. -/
def veiledEnd (k : BitVec 5) (m : Mooring) : Except (BitVec 8 × State) State → Except (BitVec 8 × State) State
  | .ok t => .ok (t.veil k m)
  | .error (e, t) => .error (e, t.veil k m)
theorem veil_siltWrite (n blk : Nat) (b : Block) : (s.veil k m).siltWrite n blk b = veiledEnd k m (s.siltWrite n blk b) := by
  have silt : (s.veil k m).silt = s.silt := rfl
  unfold siltWrite
  rw [silt]
  extract_lets r d k0 ns raw c got
  clear_value got ns raw c
  split
  · rfl
  · extract_lets base cells entry mem fp fo fresh taken low slot last base' cells' mem' fp' fo' fresh' taken' low' slot' last'
    have start : taken = taken'.veil k m := rfl
    have logged : low = low'.veil k m := (congrArg (fun t : State => t.siltLow n blk) start).trans (taken'.veil_siltLow k m n blk)
    clear_value low low'
    subst logged
    have put : last = last'.veil k m := rfl
    exact congrArg Except.ok ((congrArg (fun t : State => t.siltLow n blk) put).trans (last'.veil_siltLow k m n blk))
theorem veil_siltPut (a n v : Nat) : (s.veil k m).siltPut a n v = veiledEnd k m (s.siltPut a n v) := by
  have region (o : Nat) : (s.veil k m).siltRegion o = s.siltRegion o := rfl
  have read (r blk : Nat) : (s.veil k m).siltRead r blk = s.siltRead r blk := rfl
  unfold siltPut
  dsimp only
  rw [region]
  split
  · rfl
  · rw [read]
    split
    · rfl
    · rw [veil_siltWrite]
      generalize s.siltWrite _ _ _ = o
      obtain ⟨e, t⟩ | t := o
      · rfl
      · exact congrArg Except.ok (veil_afterSiltWrite t k m a n)

/-! Translation. -/

theorem veil_orAD (a : Nat) (w : Bool) : (s.veil k m).orAD a w = (s.orAD a w).veil k m := by
  have own : (s.veil k m).ownDevice a = s.ownDevice a := rfl
  have flit (t : BitVec 8) (o : Bool) : (s.veil k m).flitTo t o a = s.flitTo t o a := rfl
  unfold orAD
  dsimp only
  rw [own, veil_lineReady]
  split
  · generalize s.lineReady (a / 128) true 0 = r
    obtain ⟨t, _ | _⟩ := r
    · rfl
    · have bytes : (t.veil k m).siltBytes a 8 = t.siltBytes a 8 := rfl
      dsimp only [veiled]
      rw [bytes, veil_homeBytes]
      split
      · cases t.siltBytes a 8 with
        | error e => rfl
        | ok old =>
          dsimp only
          rw [veil_siltPut]
          generalize t.siltPut a 8 _ = o
          obtain ⟨e, u⟩ | u := o <;> rfl
      · generalize t.homeBytes 0 0 a 8 = r
        obtain ⟨u, e | old⟩ := r
        · rfl
        · dsimp only [veiled]
          rw [veil_homePut]
          generalize u.homePut 0 0 a 8 _ = o
          cases o <;> rfl
  · rw [flit, veil_send]
theorem veil_setAD (a : Nat) (e : Dbl) (w : Bool) : (s.veil k m).setAD a e w = veiled k m (s.setAD a e w) := by
  unfold setAD
  generalize e ||| 0x40 ||| (if w then 0x80 else 0) = e'
  dsimp only
  rw [veil_orAD]
  cases e' == e <;> rfl
theorem veil_tlbStore (core : Option Nat) (cl : Nat) (e : TlbEntry) : (s.veil k m).tlbStore core cl e = (s.tlbStore core cl e).veil k m := by
  cases core <;> rfl
theorem veil_walk (va : Dbl) (kind : Access) : ∀ (level : Nat) (s : State) (last : Dbl) (table : Nat),
    (s.veil k m).walk va kind last level table = veiled k m (s.walk va kind last level table)
  | 0, s, last, table => by
    unfold walk tableRead
    dsimp only
    rw [veil_homeGet]
    generalize s.homeGet 0 0 (table + 8 * (va.toNat / 2 ^ 16 % 1024)) 8 = r
    obtain ⟨u, e | v⟩ := r
    · rfl
    · dsimp only [veiled]
      split
      · rfl
      · split
        · rfl
        · split <;> rfl
  | n + 1, s, last, table => by
    unfold walk tableRead
    dsimp only
    rw [veil_homeGet]
    generalize s.homeGet 0 0 (table + 8 * (va.toNat / 2 ^ leafBits (n + 1) % 1024)) 8 = r
    obtain ⟨u, e | v⟩ := r
    · rfl
    · dsimp only [veiled]
      split
      · rfl
      · split
        · split
          · exact veil_walk va kind n u _ _
          · rfl
        · split <;> rfl
theorem veil_walked (core : Option Nat) (cl : Nat) (sp : BitVec 6) (va : Dbl) (kind : Access) (level a : Nat) (e : Dbl) :
    (s.veil k m).walked core cl sp va kind level a e = veiled k m (s.walked core cl sp va kind level a e) := by
  have check : (s.veil k m).leafCheck sp va kind level e = s.leafCheck sp va kind level e := rfl
  unfold walked
  rw [check, veil_setAD]
  cases s.leafCheck sp va kind level e with
  | some f => rfl
  | none =>
    dsimp only [veiled]
    rw [veil_tlbStore]
theorem veil_translateHit (core : Option Nat) (cl : Nat) (sp : BitVec 6) (va : Dbl) (kind : Access) (e : TlbEntry) :
    (s.veil k m).translateHit core cl sp va kind e = veiled k m (s.translateHit core cl sp va kind e) := by
  have check : (s.veil k m).leafCheck sp va kind 15 e.leaf = s.leafCheck sp va kind 15 e.leaf := rfl
  have root : (s.veil k m).ptRoot ((s.veil k m).spaceEntry sp) = s.ptRoot (s.spaceEntry sp) := rfl
  unfold translateHit
  rw [check]
  cases s.leafCheck sp va kind 15 e.leaf with
  | some f => rfl
  | none =>
    dsimp only
    rw [veil_entryReady, root, veil_walk]
    generalize (s.entryReady sp).walk va kind 0 3 (s.ptRoot (s.spaceEntry sp)) = r
    split
    · obtain ⟨u, f | ⟨level, a, x⟩⟩ := r
      · exact congrArg (·, _) (veil_tlbStore u k m _ _ _)
      · dsimp only [veiled]
        rw [veil_setAD]
        exact congrArg (·, _) (veil_tlbStore _ k m _ _ _)
    · exact congrArg (·, _) (veil_tlbStore s k m _ _ _)
theorem veil_translateMiss (core : Option Nat) (cl : Nat) (sp : BitVec 6) (va : Dbl) (kind : Access) :
    (s.veil k m).translateMiss core cl sp va kind = veiled k m (s.translateMiss core cl sp va kind) := by
  unfold translateMiss
  dsimp only
  rw [veil_entryReady]
  generalize s.entryReady sp = t
  have ok : (t.veil k m).rootOk sp = t.rootOk sp := rfl
  have root : (t.veil k m).ptRoot ((t.veil k m).spaceEntry sp) = t.ptRoot (t.spaceEntry sp) := rfl
  rw [ok, root, veil_walk]
  split
  · rfl
  · generalize t.walk va kind 0 3 (t.ptRoot (t.spaceEntry sp)) = r
    obtain ⟨u, f | ⟨level, a, x⟩⟩ := r
    · rfl
    · exact veil_walked u k m core cl sp va kind level a x
theorem veil_translate (core : Option Nat) (cl : Nat) (sp : BitVec 6) (va : Dbl) (kind : Access) :
    (s.veil k m).translate core cl sp va kind = veiled k m (s.translate core cl sp va kind) := by
  have hit : (s.veil k m).tlbHit core cl sp va = s.tlbHit core cl sp va := rfl
  unfold translate
  rw [hit]
  split
  · exact veil_translateHit s k m _ _ _ _ _ _
  · exact veil_translateMiss s k m _ _ _ _ _
theorem veil_xlat (va : Dbl) (kind : Access) : (s.veil k m).xlat va kind = veiled k m (s.xlat va kind) :=
  veil_translate s k m (some s.hereCore) s.hereCluster s.cx.id.space va kind
theorem veil_rangePage (va : Dbl) (drops : Bool) : (s.veil k m).rangePage va drops = veiled k m (s.rangePage va drops) := by
  unfold rangePage
  rw [veil_xlat]
  generalize s.xlat va .read = r
  obtain ⟨u, f | t⟩ := r
  · dsimp only [veiled]
    rw [veil_xlat]
    cases f.cause == 0x21 with
    | false => rfl
    | true =>
      generalize u.xlat va .fetch = r
      obtain ⟨w, f | t⟩ := r <;> rfl
  · rfl
theorem veil_rangePages (drops : Bool) : ∀ (n : Nat) (s : State) (p : Nat),
    (s.veil k m).rangePages p drops n = veiled k m (s.rangePages p drops n)
  | 0, _, _ => rfl
  | n + 1, s, p => by
    unfold rangePages
    dsimp only
    rw [veil_rangePage]
    generalize s.rangePage _ drops = r
    obtain ⟨u, _ | f | t⟩ := r
    case fault => rfl
    all_goals
      dsimp only [veiled]
      rw [veil_rangePages drops n u]
      generalize u.rangePages (p + 1) drops n = q
      obtain ⟨w, f | l⟩ := q <;> rfl

/-! What older accesses have still to do (R279). -/

theorem veil_homeRead (sp : BitVec 6) (key : BitVec 8) (a n : Nat) :
    (s.veil k m).homeRead sp key a n = veiled k m (s.homeRead sp key a n) := by
  unfold homeRead
  rw [veil_homeBytes]
  split <;> rfl
theorem veil_indexAt (cl : Nat) (j : CopyJob) (i : Nat) : (s.veil k m).indexAt cl j i = s.indexAt cl j i := by
  unfold indexAt
  rw [veil_translate]
  generalize s.translate none cl j.space _ _ = q
  obtain ⟨u, f | t⟩ := q
  · rfl
  · dsimp only [veiled]
    rw [veil_homeRead]
    rfl
theorem veil_copyRanges (cl : Nat) (j : CopyJob) (write scratch : Bool) :
    (s.veil k m).copyRanges cl j write scratch = s.copyRanges cl j write scratch := by
  have side (off : Nat) (indexed : Bool) : (s.veil k m).copySide cl j off indexed scratch = s.copySide cl j off indexed scratch := by
    have indexes : (s.veil k m).indexAt cl j = s.indexAt cl j := funext (veil_indexAt s k m cl j)
    unfold copySide
    rw [indexes]
  unfold copyRanges
  simp only [side]
theorem veil_copyLines (cl : Nat) (j : CopyJob) (write : Bool) : (s.veil k m).copyLines cl j write = s.copyLines cl j write := by
  unfold copyLines
  rw [veil_copyRanges]
  refine congrArg _ (funext fun rs => ?_)
  dsimp only
  refine congrArg (fun ls : List (Option (Option Nat)) => if ls.all Option.isSome then some (ls.filterMap Option.join) else none)
    (congrArg rs.flatMap (funext fun r => congrArg (List.map · _) (funext fun i => ?_)))
  rw [veil_translate]
  generalize s.translate none cl j.space _ _ = q
  obtain ⟨u, f | t⟩ := q <;> rfl
theorem veil_olderFlight (c id l : Nat) : (s.veil k m).olderFlight c id l = s.olderFlight c id l := by
  unfold olderFlight
  simp only [veil_copyLines]
  rfl

end Veil
end State
end Sys2Proof.Machine
end

