-- ==== Sys2Proof/Proofs/GuestFencing.lean ====
section
/-! The Mooring guest's queues, and what fencing the guest does to them (R395, R402). -/

namespace Sys2Proof.Machine
namespace State

/-! One queue. -/

/-- The end of a fenced guest's packet begins (R402). -/
def fenceEnd (q : BitVec 3) (s : State) (p : GuestPacket) : State :=
  { s with tick := s.tick + 1, moor := { s.moor with ends := s.moor.ends ++ [s.endOf q p 0x90 0 false] } }
/-- A packet of a queue is being ended with GUEST_FENCED. -/
def Ending (t : State) (q : BitVec 3) (p : GuestPacket) : Prop :=
  ∃ e ∈ t.moor.ends, e.queue = q ∧ e.packet = p ∧ e.status = 0x90 ∧ e.stage = 0
/-- From s to t the port has begun ends, and all else but its queues stands. -/
structure EndsBegun (s t : State) : Prop where
  fenced : t.moor.fenced = s.moor.fenced
  late : t.moor.statLate = s.moor.statLate
  space : t.moor.statSpace = s.moor.statSpace
  cores : t.cores = s.cores
  ends : ∀ e ∈ s.moor.ends, e ∈ t.moor.ends

theorem EndsBegun.refl (s : State) : EndsBegun s s := ⟨rfl, rfl, rfl, rfl, fun _ h => h⟩
theorem EndsBegun.trans {s t u : State} (a : EndsBegun s t) (b : EndsBegun t u) : EndsBegun s u :=
  ⟨b.fenced.trans a.fenced, b.late.trans a.late, b.space.trans a.space, b.cores.trans a.cores, fun e h => b.ends e (a.ends e h)⟩
theorem EndsBegun.ending {s t : State} (a : EndsBegun s t) {q : BitVec 3} {p : GuestPacket} (h : Ending s q p) : Ending t q p := by
  obtain ⟨e, begun, rest⟩ := h
  exact ⟨e, a.ends e begun, rest⟩

theorem endsBegun_fenceEnd (q : BitVec 3) (s : State) (p : GuestPacket) : EndsBegun s (fenceEnd q s p) :=
  ⟨rfl, rfl, rfl, rfl, fun _ h => List.mem_append_left _ h⟩
theorem fenceEnd_ends (q : BitVec 3) : ∀ (l : List GuestPacket) (s : State),
    EndsBegun s (l.foldl (fenceEnd q) s) ∧ ∀ p ∈ l, Ending (l.foldl (fenceEnd q) s) q p
  | [], s => ⟨.refl s, fun _ h => absurd h List.not_mem_nil⟩
  | p :: r, s => by
    obtain ⟨begun, all⟩ := fenceEnd_ends q r (fenceEnd q s p)
    refine ⟨(endsBegun_fenceEnd q s p).trans begun, fun x hx => ?_⟩
    obtain rfl | later := List.mem_cons.1 hx
    · exact begun.ending ⟨_, List.mem_append_right _ (List.mem_singleton_self _), rfl, rfl, rfl, rfl⟩
    · exact all x later
/-- The queue is off, marked fenced and holds nothing. -/
def Closed (g : GuestQueue) : Prop := g.held = [] ∧ g.ctl.getLsbD 0 = false ∧ g.ctl.getLsbD 8 = true

theorem closed_ctl (c : Dbl) : ((c &&& ~~~1#64) ||| 0x100).getLsbD 0 = false ∧ ((c &&& ~~~1#64) ||| 0x100).getLsbD 8 = true := by
  simp
theorem fenceQueue_closes (s : State) (q : BitVec 3) : EndsBegun s (s.fenceQueue q) ∧ Closed ((s.fenceQueue q).gqueue q.toNat) ∧
    (∀ n, n ≠ q.toNat → (s.fenceQueue q).gqueue n = s.gqueue n) ∧ ∀ x ∈ (s.gqueue q.toNat).held, Ending (s.fenceQueue q) q x.2 := by
  let g := s.gqueue q.toNat
  let all := g.held.map Prod.snd ++ (List.range (mqCount g)).map fun i => tget {} g.packets ((g.head.toNat + i) % 256)
  let g1 : GuestQueue := { g with ctl := (g.ctl &&& ~~~1#64) ||| 0x100, held := [], packets := [], head := g.tail }
  have shape : s.fenceQueue q = all.foldl (fenceEnd q) (s.setGqueue q.toNat g1) := rfl
  have queues (n : Nat) : (all.foldl (fenceEnd q) (s.setGqueue q.toNat g1)).gqueue n = (s.setGqueue q.toNat g1).gqueue n :=
    foldl_keeps (fun t : State => t.gqueue n) (fenceEnd q) (fun _ _ => rfl) all _
  obtain ⟨begun, ended⟩ := fenceEnd_ends q all (s.setGqueue q.toNat g1)
  rw [shape]
  refine ⟨EndsBegun.trans (t := s.setGqueue q.toNat g1) ⟨rfl, rfl, rfl, rfl, fun _ h => h⟩ begun, ?_, fun n other => ?_, fun x hx => ?_⟩
  · rw [queues, gqueue_setGqueue]
    exact ⟨rfl, closed_ctl g.ctl⟩
  · rw [queues, gqueue_setGqueue_other s (Ne.symm other)]
  · exact ended x.2 (List.mem_append_left _ (List.mem_map_of_mem hx))

/-! The guest. -/

/-- From s to t these queues, and no other, have been closed, and each packet that they held is being ended. -/
structure QueuesClosed (l : List Nat) (s t : State) : Prop where
  begun : EndsBegun s t
  others : ∀ n ∉ l, t.gqueue n = s.gqueue n
  closed : ∀ q : BitVec 3, q.toNat ∈ l → Closed (t.gqueue q.toNat) ∧ ∀ x ∈ (s.gqueue q.toNat).held, Ending t q x.2

/-- Fencing queue after queue closes each of them. -/
theorem fenceQueues_close : ∀ (l : List Nat) (s : State), l.Nodup → (∀ n ∈ l, n < 8) →
    QueuesClosed l s (l.foldl (fun s n => s.fenceQueue (BitVec.ofNat 3 n)) s)
  | [], s, _, _ => ⟨.refl s, fun _ _ => rfl, fun _ h => absurd h List.not_mem_nil⟩
  | n :: r, s, once, low => by
    obtain ⟨fresh, once⟩ := List.nodup_cons.1 once
    have number : (BitVec.ofNat 3 n).toNat = n := by
      rw [BitVec.toNat_ofNat]
      exact Nat.mod_eq_of_lt (low n List.mem_cons_self)
    obtain ⟨begun, closed, others, ended⟩ := s.fenceQueue_closes (BitVec.ofNat 3 n)
    obtain ⟨begun', kept, all⟩ := fenceQueues_close r (s.fenceQueue (BitVec.ofNat 3 n)) once fun m hm => low m (List.mem_cons_of_mem n hm)
    rw [number] at closed others ended
    refine ⟨begun.trans begun', fun m hm => ?_, fun q hq => ?_⟩
    · obtain ⟨first, rest⟩ := not_or.1 (mt List.mem_cons.2 hm)
      exact (kept m rest).trans (others m first)
    · obtain first | rest := List.mem_cons.1 hq
      · have named : BitVec.ofNat 3 n = q := BitVec.eq_of_toNat_eq (number.trans first.symm)
        refine ⟨?_, fun x hx => begun'.ending ?_⟩
        · rw [first]
          exact (congrArg Closed (kept n fresh)).mpr closed
        · rw [first] at hx
          exact named ▸ ended x hx
      · obtain ⟨closed', ended'⟩ := all q rest
        refine ⟨closed', fun x hx => ended' x ?_⟩
        rw [others q.toNat fun same => fresh (same ▸ rest)]
        exact hx
/-- The guest has been fenced from s to t: it has no line, its queues are closed, and each packet it held is being ended. -/
def GuestFenced (s t : State) : Prop := t.moor.fenced = true ∧ (t.core guestCore).lines = [] ∧
  ∀ n : BitVec 3, (t.gqueue n.toNat).held = [] ∧ (t.gqueue n.toNat).ctl.getLsbD 0 = false ∧ (t.gqueue n.toNat).ctl.getLsbD 8 = true ∧
    ∀ x ∈ (s.gqueue n.toNat).held, ∃ e ∈ t.moor.ends, e.queue = n ∧ e.packet = x.2 ∧ e.status = 0x90 ∧ e.stage = 0

theorem fenceGuest_fences {s : State} (open_ : s.moor.fenced = false) :
    GuestFenced s s.fenceGuest ∧ s.fenceGuest.moor.statLate = s.moor.statLate := by
  let s1 : State := { s with moor := { s.moor with fenced := true } }
  let s2 := (s1.homes.lineDir.filter fun (_, cs) => cs.contains guestCore).foldl (fun s (l, cs) => s.setDir l (cs.filter (· != guestCore))) s1
  have moor : s2.moor = s1.moor := by
    refine foldl_keeps State.moor _ ?_ _ s1
    exact fun _ _ => rfl
  let s3 := s2.setCore guestCore {}
  let t := (List.range 8).foldl (fun s n => s.fenceQueue (BitVec.ofNat 3 n)) s3
  have shape : s.fenceGuest = t.log 0 7 0 0 0x90 0 0 0 := by
    unfold fenceGuest
    rw [if_neg (by rw [open_]; exact Bool.false_ne_true)]
  clear_value s2
  obtain ⟨begun, -, all⟩ : QueuesClosed (List.range 8) s3 t := fenceQueues_close _ s3 List.nodup_range fun n hn => List.mem_range.1 hn
  have queue (n : Nat) : s3.gqueue n = s.gqueue n := by
    have queues : s2.gqueue n = s1.gqueue n := congrArg (fun m : Mooring => tget ({} : GuestQueue) m.queues n) moor
    exact queues
  have lines : t.core guestCore = {} := by
    have cores : t.core guestCore = s3.core guestCore := congrArg (fun c => tget ({} : Core) c guestCore) begun.cores
    rw [cores, core_setCore]
  have port : s3.moor = s1.moor := moor
  have marked : t.moor.fenced = true := by
    rw [begun.fenced, port]
  have late : t.moor.statLate = s.moor.statLate := by
    rw [begun.late, port]
  rw [shape]
  clear_value t
  refine ⟨⟨marked, congrArg Core.lines lines, fun n => ?_⟩, late⟩
  obtain ⟨⟨held, off, marked⟩, ended⟩ := all n (List.mem_range.2 n.isLt)
  rw [queue] at ended
  exact ⟨held, off, marked, ended⟩
/-- A message that came too late fences the guest, and says so for the space that the state register names. -/
theorem guestLate_fences {s : State} (open_ : s.moor.fenced = false) (sp : BitVec 6) :
    GuestFenced s (s.guestLate sp) ∧ (s.moor.statSpace = sp → (s.guestLate sp).moor.statLate = true) := by
  let u : State := { s with moor := { s.moor with statLate := s.moor.statLate || s.moor.statSpace == sp } }
  obtain ⟨fenced, late⟩ := fenceGuest_fences (s := u) open_
  refine ⟨fenced, fun named => late.trans ?_⟩
  rw [← beq_iff_eq] at named
  exact (congrArg (s.moor.statLate || ·) named).trans (Bool.or_true _)

end State
end Sys2Proof.Machine
end

