-- ==== Sys2Proof/Proofs/GuestSaves.lean ====
section
/-! The state that the guest writes into its save area (R401): the port stands, and no byte outside the area changes where no core
holds a line. -/

namespace Sys2Proof.Machine
namespace State

/-! The parts of a line's write. -/

/-- A word of the guest's state is drawn. -/
def drawWord (p : BitVec 1024 × State) (i : Nat) : BitVec 1024 × State :=
  (p.1 ||| (p.2.free.1.setWidth 1024 <<< (64 * i)), p.2.free.2)
theorem drawWord_tick : ∀ (l : List Nat) (d : BitVec 1024) (s : State), ∃ e k, l.foldl drawWord (d, s) = (e, { s with tick := k })
  | [], d, s => ⟨d, s.tick, rfl⟩
  | i :: r, d, s => by
    obtain ⟨e, k, rest⟩ := drawWord_tick r (drawWord (d, s) i).1 s.free.2
    exact ⟨e, k, rest⟩
/-- One line of the save area is written. -/
def saveLine (base len : Nat) (s : State) (l : Nat) : State :=
  let lo := max base (128 * l)
  let hi := min (base + len) (128 * l + 128)
  let r := (List.range 16).foldl drawWord (0, s)
  let q := r.2.lineReady l true 0
  let bad := fun (s : State) (e : BitVec 8) => s.guestRefused 0 0 e (BitVec.ofNat 64 lo)
  if !q.2 then q.1
  else if !q.1.ownDevice (128 * l) || !q.1.backed (localOf (128 * l)) then bad q.1 0x2D
  else match ((q.1.recallTo l .s).invalidateOthers l none).homeWrite 0 0 l (byteMask (lo % 128) (hi - lo)) r.1 with
    | .ok t => t
    | .error e => bad q.1 e
theorem guestSave_eq (s : State) (base len : Nat) : s.guestSave base len = if len == 0 then s
    else ((List.range ((base + len - 1) / 128 - base / 128 + 1)).map fun i => base / 128 + i).foldl (saveLine base len) s := rfl

theorem moor_homeWrite {s t : State} {sp : BitVec 6} {key : BitVec 8} {l : Nat} {mask : BitVec 128} {d : BitVec 1024}
    (h : s.homeWrite sp key l mask d = .ok t) : t.moor = s.moor := by
  have kept := s.veil_homeWrite 0 s.moor sp key l mask d
  rw [veil_self, h] at kept
  have same : t = t.veil 0 s.moor := Except.ok.inj kept
  rw [same]
  rfl
theorem moor_lineReady (s : State) (l : Nat) (w : Bool) (sp : BitVec 6) : (s.lineReady l w sp).1.moor = s.moor := by
  unfold lineReady
  split
  · rfl
  · split <;> rfl
theorem moor_saveLine (base len : Nat) (s : State) (l : Nat) : (saveLine base len s l).moor = s.moor := by
  obtain ⟨e, k, drawn⟩ := drawWord_tick (List.range 16) 0 s
  have ready := moor_lineReady { s with tick := k } l true 0
  unfold saveLine
  rw [drawn]
  dsimp only
  generalize lineReady { s with tick := k } l true 0 = q at ready
  split
  · exact ready
  · split
    · exact ready
    · split
      next h =>
        have recalled := moor_of_veil (f := fun s => s.recallTo l .s) (fun s m => s.veil_recallTo 0 m l .s) q.1
        have invalidated := moor_of_veil (f := fun s => s.invalidateOthers l none) (fun s m => s.veil_invalidateOthers 0 m l none) (q.1.recallTo l .s)
        exact (moor_homeWrite h).trans (invalidated.trans (recalled.trans ready))
      next => exact ready
theorem moor_guestSave (s : State) (base len : Nat) : (s.guestSave base len).moor = s.moor := by
  rw [guestSave_eq]
  split
  · rfl
  · exact foldl_keeps State.moor _ (moor_saveLine base len) _ s

/-! The bytes. -/

/-- No core holds a line. -/
def NoLines (s : State) : Prop := ∀ n, (s.core n).lines = []

theorem NoLines.lineOf {s : State} (none : NoLines s) (c l : Nat) : s.lineOf c l = .none := by
  unfold State.lineOf
  rw [none c]
  rfl
theorem NoLines.recallTo {s : State} (none : NoLines s) (l : Nat) (st : Mesi) : s.recallTo l st = s := by
  unfold State.recallTo
  refine List.foldl_fixed' (fun c => ?_) _
  rw [none.lineOf c l]
theorem NoLines.invalidateOthers {s : State} (none : NoLines s) (l : Nat) : s.invalidateOthers l .none = s.setDir l [] := by
  unfold State.invalidateOthers
  dsimp only
  rw [List.foldl_fixed' (fun c => ?_) _]
  · simp
  · rw [none.lineOf c l]
    rfl

/-- From s to t a piece of the save area has been written. -/
structure AreaWritten (base len : Nat) (s t : State) : Prop where
  wf : Memory.wf t.mem = true
  none : NoLines t
  outside : ∀ a, a < base ∨ base + len ≤ a → t.byte a = s.byte a

theorem areaWritten_refl {base len : Nat} {s : State} (wf : Memory.wf s.mem = true) (none : NoLines s) : AreaWritten base len s s :=
  ⟨wf, none, fun _ _ => rfl⟩
theorem AreaWritten.trans {base len : Nat} {s t u : State} (a : AreaWritten base len s t) (b : AreaWritten base len t u) :
    AreaWritten base len s u :=
  ⟨b.wf, b.none, fun x h => (b.outside x h).trans (a.outside x h)⟩
/-- A step of the save that changes neither memory nor the line caches. -/
theorem areaWritten_of_same {base len : Nat} {s t : State} (wf : Memory.wf s.mem = true) (none : NoLines s) (mem : t.mem = s.mem)
    (cores : t.cores = s.cores) : AreaWritten base len s t :=
  ⟨by rw [mem]; exact wf, fun n => by unfold core; rw [cores]; exact none n, fun a _ => by rw [byte, mem]; rfl⟩
/-- A line of the area is written at its home: the bytes of the area in it, and no other. -/
theorem areaWritten_homeWrite (base len l : Nat) (d : BitVec 1024) {s : State} (wf : Memory.wf s.mem = true) (none : NoLines s)
    (backed : s.backed (localOf (128 * l)) = true) : ∃ t, ((s.recallTo l .s).invalidateOthers l .none).homeWrite 0 0 l
      (byteMask (max base (128 * l) % 128) (min (base + len) (128 * l + 128) - max base (128 * l))) d = .ok t ∧ AreaWritten base len s t := by
  generalize mask_ : byteMask _ _ = mask
  obtain ⟨t, written, mem, -, merged⟩ := (s.setDir l []).homeWrite_own 0 l mask d backed
  refine ⟨t, by rw [none.recallTo, none.invalidateOthers]; exact written, ?_, fun n => ?_, fun a beside => ?_⟩
  · rw [mem]
    exact Memory.wf_cellsMask _ _ _ _ _ wf
  · rw [merged.core]
    exact none n
  · obtain ⟨inside, outside⟩ := byte_lineMask s t l mask d wf mem
    by_cases line : a / 128 = l
    · have at_ : a = 128 * l + a % 128 := by omega
      rw [at_, inside _ (Nat.mod_lt _ (by decide)), ← mask_, getLsbD_byteMask _ _ (Nat.mod_lt _ (by decide)), if_neg]
      simp only [decide_eq_true_eq]
      omega
    · exact outside a line
theorem areaWritten_saveLine (base len : Nat) {s : State} (l : Nat) (wf : Memory.wf s.mem = true) (none : NoLines s) :
    AreaWritten base len s (saveLine base len s l) := by
  obtain ⟨e, k, drawn⟩ := drawWord_tick (List.range 16) 0 s
  let u : State := { s with tick := k }
  have ready : (u.lineReady l true 0).1.mem = s.mem ∧ (u.lineReady l true 0).1.cores = s.cores := by
    unfold lineReady
    split
    · exact ⟨rfl, rfl⟩
    · split <;> exact ⟨rfl, rfl⟩
  unfold saveLine
  rw [drawn]
  dsimp only
  generalize lineReady { s with tick := k } l true 0 = q at ready
  obtain ⟨mem, cores⟩ := ready
  split
  · exact areaWritten_of_same wf none mem cores
  · split
    · exact areaWritten_of_same wf none mem cores
    next blocked =>
      simp only [Bool.or_eq_true, Bool.not_eq_true', not_or, Bool.not_eq_false] at blocked
      obtain ⟨-, backed⟩ := blocked
      have same : AreaWritten base len s q.1 := areaWritten_of_same wf none mem cores
      obtain ⟨t, written, area⟩ := areaWritten_homeWrite base len l e same.wf same.none backed
      rw [written]
      exact same.trans area
theorem areaWritten_guestSave (base len : Nat) {s : State} (wf : Memory.wf s.mem = true) (none : NoLines s) :
    AreaWritten base len s (s.guestSave base len) := by
  have all : ∀ (ls : List Nat) (s : State), Memory.wf s.mem = true → NoLines s →
      AreaWritten base len s (ls.foldl (saveLine base len) s) := by
    intro ls
    induction ls with
    | nil => exact fun s wf none => areaWritten_refl wf none
    | cons l r ih =>
      intro s wf none
      have first := areaWritten_saveLine base len l wf none
      exact first.trans (ih _ first.wf first.none)
  rw [guestSave_eq]
  split
  · exact areaWritten_refl wf none
  · exact all _ s wf none

end State
end Sys2Proof.Machine
end

