-- ==== Sys2Proof/Proofs/GuestEnds.lean ====
section
/-! The end of a guest's packet (R399, R400): its completion record, its credit, and what is left to do when one must wait. -/

namespace Sys2Proof.Machine
namespace State

/-! The record and the tokens, where they lie in a line that stands at its home. -/

/-- A write of an unencrypted line at its home changes nothing that the home keeps but the poison. -/
theorem homes_homeWrite {s t : State} {sp : BitVec 6} {l : Nat} {mask : BitVec 128} {d : BitVec 1024} (h : s.homeWrite sp 0 l mask d = .ok t) :
    ∃ poison, t.homes = { s.homes with poison } := by
  unfold homeWrite at h
  dsimp only at h
  split at h
  · cases h
  · rw [if_pos (beq_self_eq_true _)] at h
    cases h
    have woken (u : State) : (u.wakeTokens l).homes = u.homes := by
      refine foldl_keeps State.homes _ ?_ _ u
      exact fun _ _ => rfl
    have met (u : State) : (u.afterHomeWrite l mask).homes = u.homes := by
      refine foldl_keeps State.homes _ ?_ _ u
      exact fun _ _ => rfl
    rw [woken, met]
    unfold unpoison
    split
    · exact ⟨_, rfl⟩
    · exact ⟨s.homes.poison, rfl⟩
theorem tokens_homeWrite {s t : State} {sp : BitVec 6} {l : Nat} {mask : BitVec 128} {d : BitVec 1024} (h : s.homeWrite sp 0 l mask d = .ok t) :
    t.homes.tokens = s.homes.tokens := by
  obtain ⟨poison, homes⟩ := homes_homeWrite h
  rw [homes]

section Quiet
variable {s : State} {x : Xlat} (quiet : s.quietLine x) (wf : Memory.wf s.mem = true)
include quiet

theorem quietLine.tokens_atomicAt {core : Nat} {sp : BitVec 6} {tracked : Bool} {n : Nat} {f : Nat → Option Nat} {t : State} {r : Perf}
    (h : s.atomicAt (some core) ⟨sp, 0, tracked⟩ x.gpa n f = (t, r)) : t.homes.tokens = s.homes.tokens := by
  have free := quiet.grant_write
  have unlocked : s.lineLocked (x.gpa / 128) = false := by
    obtain ⟨_, _, _, _, _, unlocked, _⟩ := quiet
    exact unlocked
  have recalled : (s.atomicRecall (some core) ⟨sp, 0, tracked⟩ (x.gpa / 128)).homes.tokens = s.homes.tokens := by
    have invalidated := quiet.invalidated none
    obtain ⟨_, _, _, _, _, _, _, _, absent⟩ := quiet
    unfold State.atomicRecall
    cases tracked with
    | true =>
      rw [if_pos rfl, invalidated]
      rfl
    | false => simp only [(absent core).1, Bool.false_eq_true, if_false]
  obtain ⟨v, value, standing, _, _, _⟩ := quiet.atomicRecall core sp tracked
  rw [value] at recalled
  have line := standing.homeLine sp
  unfold State.atomicAt homeBytes at h
  simp only [unlocked, free, value, line, Except.map, Bool.false_eq_true, if_false] at h
  rw [← recalled]
  split at h
  · cases h
    rfl
  · split at h
    next written =>
      cases h
      exact tokens_homeWrite written
    next =>
      cases h
      rfl
/-- An atomic of no core's: no core holds the line, so that it finds what one of core 0 does. -/
theorem quietLine.atomicAt_none (sp : BitVec 6) (tracked : Bool) (n : Nat) (f : Nat → Option Nat) :
    s.atomicAt none ⟨sp, 0, tracked⟩ x.gpa n f = s.atomicAt (some 0) ⟨sp, 0, tracked⟩ x.gpa n f := by
  obtain ⟨_, _, _, _, _, _, _, _, absent⟩ := quiet
  have same : s.atomicRecall none ⟨sp, 0, tracked⟩ (x.gpa / 128) = s.atomicRecall (some 0) ⟨sp, 0, tracked⟩ (x.gpa / 128) := by
    unfold State.atomicRecall
    simp only [(absent 0).1]
  unfold State.atomicAt
  dsimp only
  rw [same]

include wf

/-- Tokens are added to an open word without waiters, up to the greatest count (R318). -/
theorem quietLine.tokenAdd (sp : BitVec 6) (tracked : Bool) (n : Nat) (aligned : x.gpa % 8 = 0) (waiters : s.homes.tokens = [])
    (open_ : s.bytes x.gpa 8 < 2 ^ 63) :
    ∃ t, s.tokenAdd none ⟨sp, 0, tracked⟩ x.gpa n = (t, .done (s.bytes x.gpa 8)) ∧
      Wrote s t x.gpa 8 (min (s.bytes x.gpa 8 + n) (2 ^ 63 - 1)) := by
  let f := fun old => if tokenClosed old then none else some (min (old + n) (2 ^ 63 - 1))
  have unclosed : tokenClosed (s.bytes x.gpa 8) = false := decide_eq_false (Nat.not_le.2 open_)
  have new : f (s.bytes x.gpa 8) = some (min (s.bytes x.gpa 8 + n) (2 ^ 63 - 1)) := if_neg (by rw [unclosed]; exact Bool.false_ne_true)
  obtain ⟨t, access, -, -, wrote, -⟩ := quiet.atomicAt wf 0 sp tracked (n := 8) (by omega) f
  have wrote := wrote _ new
  have tokens : t.homes.tokens = [] := (quiet.tokens_atomicAt access).trans waiters
  rw [← quiet.atomicAt_none] at access
  rw [Nat.mod_eq_of_lt (by omega)] at wrote
  have window : windowOf (localOf x.gpa) = .hbm := by
    obtain ⟨_, window, _⟩ := quiet
    exact window
  have home : s.atomicHome none ⟨sp, 0, tracked⟩ x.gpa 8 f = (t, .done (s.bytes x.gpa 8)) := by
    unfold atomicHome
    rw [window]
    exact access
  have served (u : State) (none : u.homes.tokens = []) : u.tokenServe x.gpa 64 = u := by
    unfold tokenServe
    rw [none]
    rfl
  unfold State.tokenAdd
  simp only [f] at home
  rw [home]
  dsimp only
  split
  · exact ⟨_, congrArg (·, _) (served _ tokens), wrote⟩
  · exact ⟨_, congrArg (·, _) (served _ tokens), wrote⟩

end Quiet

/-! The steps of an end. -/

section Steps
variable {u : State} {q : BitVec 3} {pk : GuestPacket} {st : BitVec 8} {result : Dbl} {logIt : Bool}

/-- The state in which the port begins an end: the end has its number. -/
def begun (u : State) : State := { u with tick := u.tick + 1 }
/-- The log entry of a fault, the last step of an end (R399). -/
def endLogged (v : State) (e : GuestEnd) : State :=
  if e.logIt then v.log 0 7 e.queue.toNat (pkSpace e.packet.bits) e.status e.result 0 0 else v

theorem endPacket_sent {v : State} (wrote : u.begun.writeCompletion (u.endOf q pk st result logIt) = (v, .sent)) :
    u.endPacket q pk st result logIt =
      { v with moor := { v.moor with ends := v.moor.ends ++ [{ u.endOf q pk st result logIt with stage := 1 }] } } := by
  have step : u.begun.endStep (u.endOf q pk st result logIt) = (v, some { u.endOf q pk st result logIt with stage := 1 }) := by
    unfold endStep
    simp only [wrote]
    rfl
  unfold endPacket
  rw [← begun, step]
theorem endPacket_wait {v : State} (wrote : u.begun.writeCompletion (u.endOf q pk st result logIt) = (v, .wait)) :
    u.endPacket q pk st result logIt = { v with moor := { v.moor with ends := v.moor.ends ++ [u.endOf q pk st result logIt] } } := by
  have step : u.begun.endStep (u.endOf q pk st result logIt) = (v, some (u.endOf q pk st result logIt)) := by
    unfold endStep
    simp only [wrote]
    rfl
  unfold endPacket
  rw [← begun, step]
/-- An end whose record is written, and whose credit leaves nothing to wait for. -/
theorem endPacket_done {v w : State} {r : Nat} (wrote : u.begun.writeCompletion (u.endOf q pk st result logIt) = (v, .done r))
    (credit : v.endCredit (u.endOf q pk st result logIt) = (w, none)) : u.endPacket q pk st result logIt = w := by
  have step : u.begun.endStep (u.endOf q pk st result logIt) = (w, none) := by
    unfold endStep
    simp only [wrote]
    exact credit
  unfold endPacket
  rw [← begun, step]

theorem endCredit_none {v : State} {e : GuestEnd} (kind : pkKind e.packet.bits = 0) : v.endCredit e = (v.endLogged e, none) := by
  unfold endCredit
  rw [kind]
  rfl
theorem endCredit_barrier {v : State} {e : GuestEnd} (kind : pkKind e.packet.bits = 1) :
    v.endCredit e = ((v.creditBarrier e).endLogged e, none) := by
  unfold endCredit
  rw [kind]
  rfl
theorem endCredit_tokens {v t : State} {e : GuestEnd} (kind : pkKind e.packet.bits = 2) (added : v.creditTokens e = (t, true)) :
    v.endCredit e = (t.endLogged e, none) := by
  unfold endCredit
  rw [kind]
  simp only [added]
  rfl
theorem endLogged_mem (v : State) (e : GuestEnd) : (v.endLogged e).mem = v.mem := by
  unfold endLogged
  split <;> rfl

theorem recordOf_lt (e : GuestEnd) : recordOf e < 2 ^ (8 * 16) := by
  have tag := (pkTag e.packet.bits).isLt
  have status := e.status.isLt
  have queue := e.queue.isLt
  have result := e.result.isLt
  unfold recordOf
  omega
/-- The completion record, where its address lies in a line that stands at its home (R399). -/
theorem writeCompletion_writes {w v : State} {e : GuestEnd} {x : Xlat} (asked : pkCaddr e.packet.bits ≠ 0)
    (translated : w.guestXlat (pkSpace e.packet.bits) (pkCaddr e.packet.bits) .write = (v, .ok x)) (quiet : v.quietLine x)
    (fits : x.gpa % 128 + 16 ≤ 128) (wf : Memory.wf v.mem = true) :
    ∃ t, w.writeCompletion e = (t, .done 0) ∧ Wrote v t x.gpa 16 (recordOf e) := by
  obtain ⟨t, written, -, wrote⟩ := quiet.writeAt_home wf guestCore (pkSpace e.packet.bits) true fits (recordOf_lt e)
  obtain ⟨own, window, _, key, _⟩ := quiet
  have put (c : TxnUse) : v.enginePut (pkSpace e.packet.bits) 0 x.gpa 16 (recordOf e) c = (t, .done 0) := by
    unfold enginePut
    rw [own, window]
    exact written
  refine ⟨t, ?_, wrote⟩
  unfold writeCompletion
  simp only [beq_false_of_ne asked, translated, key, put, Bool.false_eq_true, if_false]
theorem writeCompletion_unasked {w : State} {e : GuestEnd} (unasked : pkCaddr e.packet.bits = 0) : w.writeCompletion e = (w, .done 0) := by
  unfold writeCompletion
  dsimp only
  rw [if_pos (beq_iff_eq.2 unasked)]
/-- The tokens of a packet, where their word lies in a line that stands at its home (R400). -/
theorem creditTokens_adds {v y : State} {e : GuestEnd} {x : Xlat}
    (translated : v.guestXlat (pkSpace e.packet.bits) (pkCredit e.packet.bits) .atomic = (y, .ok x)) (quiet : y.quietLine x)
    (aligned : x.gpa % 8 = 0) (wf : Memory.wf y.mem = true) (waiters : y.homes.tokens = []) (open_ : y.bytes x.gpa 8 < 2 ^ 63) :
    ∃ t, v.creditTokens e = (t, true) ∧ Wrote y t x.gpa 8 (min (y.bytes x.gpa 8 + max 1 (pkCamt e.packet.bits)) (2 ^ 63 - 1)) := by
  obtain ⟨t, added, wrote⟩ := quiet.tokenAdd wf (pkSpace e.packet.bits) (x.leaf.getLsbD 4) (max 1 (pkCamt e.packet.bits)) aligned waiters open_
  obtain ⟨own, _, _, key, _⟩ := quiet
  have here : y.remoteLost x.gpa = false := by
    unfold remoteLost
    rw [own]
    rfl
  have page : y.pageOf (pkSpace e.packet.bits) x.leaf = ⟨pkSpace e.packet.bits, 0, x.leaf.getLsbD 4⟩ := by
    unfold pageOf
    rw [key]
  refine ⟨t, ?_, wrote⟩
  unfold creditTokens
  simp only [translated, here, own, page, added, Bool.not_true, Bool.false_eq_true, if_false]

end Steps

end State
end Sys2Proof.Machine
end

