-- ==== Sys2Proof/Proofs/HeldTimers.lean ====
section
/-! The timers of held operations (R258, R397): an `mcas` that cannot lock its lines in time gives up. -/

namespace Sys2Proof.Machine
namespace State

/-! The end of an operation, and what it leaves at the homes. -/

theorem homes_putHolder (s : State) (h : Holder) (x : Context) : (s.putHolder h x).homes = s.homes := by
  cases h with
  | ctx c => exact setCtx_homes s c x
  | saved cl k i =>
    unfold putHolder
    dsimp only
    split
    · rfl
    · split
      · rfl
      · split <;> rfl
theorem homes_endFlight (s : State) (id : Nat) (r : Except FaultInfo (List Write)) : (s.endFlight id r).homes = s.homes := by
  unfold endFlight
  split
  · rfl
  · exact homes_putHolder s _ _
/-- Looking again at the accesses that wait puts at most an engine action on the agenda. -/
theorem wakeHeld_eq (s : State) : ∃ agenda, s.wakeHeld = { s with agenda } := by
  unfold wakeHeld wakeAfter
  split
  · exact ⟨s.agenda, rfl⟩
  · exact ⟨_, rfl⟩
theorem unlockOp_eq (s : State) (id : Nat) : ∃ agenda, s.unlockOp none id =
    { s with agenda, homes := { s.homes with locks := s.homes.locks.filter fun k => !(k.op == id && k.peer == none) } } := by
  obtain ⟨agenda, woken⟩ := wakeHeld_eq
    { s with homes := { s.homes with locks := s.homes.locks.filter fun k => !(k.op == id && k.peer == none) } }
  exact ⟨agenda, woken⟩
theorem unlockOp_unlocks (s : State) (id : Nat) : ∀ k ∈ (s.unlockOp none id).homes.locks, ¬ (k.op = id ∧ k.peer = none) := by
  obtain ⟨agenda, unlocked⟩ := unlockOp_eq s id
  rw [unlocked]
  rintro k kept ⟨named, own⟩
  have other := (List.mem_filter.1 kept).2
  simp [named, own] at other
/-- The one operation of the running context fails: its destinations are deferred (R332). -/
theorem endFlight_defers {s : State} {f : FaultInfo} {g : Flight} (one : s.cx.flights = [g]) (good : unassigned f.cause = false) :
    (s.endFlight g.id (.error f)).cx.flights = [] ∧
      (∀ r ∈ g.dests, (r, { f with i3 := g.header.setWidth 64 }) ∈ (s.endFlight g.id (.error f)).cx.deferred) ∧
      (s.endFlight g.id (.error f)).cx.x = s.cx.x := by
  obtain ⟨t, next, flights, deferred, x, -⟩ := deferredFailure_defers one good
  have same : exec (.deferredFailure s.here g.id f) s = .next (s.endFlight g.id (.error f)) := by
    rw [exec_deferredFailure, execDeferredFailure, findFlight_here one, good]
    rfl
  rw [same] at next
  cases next
  exact ⟨flights, deferred, x⟩

/-! The timeout of an `mcas` (R258). -/

section Timeout
variable {s : State} {op : McasOp}

/-- The operation as it gives up: MCAS_ABORT, and no other device is told. -/
def gaveUp (op : McasOp) : McasOp := { op with failure := some (0, ⟨0x83, 0, 0, 0, 0⟩), decided := some false, waiting := [] }

theorem mcasOf_setMcas (s : State) (m : McasOp) (id : Nat) :
    (s.setMcas m).mcasOf id = (s.mcasOf id).map fun n => if n.id == m.id then m else n := by
  unfold mcasOf setMcas
  rw [List.find?_map]
  have same : (fun n : McasOp => n.id == id) ∘ (fun n : McasOp => if n.id == m.id then m else n) = fun n : McasOp => n.id == id := by
    funext n
    by_cases h : n.id = m.id
    · simp [h]
    · simp [h]
  rw [same]

/-- The decision of a failed `mcas` of this device's lines: its locks go back, and it ends. -/
theorem mcasDecide_failed (t : State) (f : Nat × FaultInfo) (own : ∀ e ∈ op.entries, t.ownDevice e.gpa = true) :
    t.mcasDecide { op with failure := some f } =
      ((t.unlockOp none op.id).setMcas { op with failure := some f, decided := some false, waiting := [] }).mcasEnd
        { op with failure := some f, decided := some false, waiting := [] } := by
  unfold mcasDecide
  simp only [Option.isNone_some, Bool.false_and, Bool.false_eq_true, if_false]
  generalize remote_eq : List.filter _ (List.range op.entries.length) = remote
  have nobody : remote = [] := by
    rw [← remote_eq]
    refine List.filter_eq_nil_iff.2 fun i _ => ?_
    cases at_ : op.entries[i]? with
    | none => exact Bool.false_ne_true
    | some e =>
      have here : (t.unlockOp none op.id).ownDevice e.gpa = true := by
        obtain ⟨agenda, unlocked⟩ := unlockOp_eq t op.id
        rw [unlocked]
        exact own e (List.mem_of_getElem? at_)
      simp [here]
  subst nobody
  rfl
/-- An undecided `mcas` of this device's lines gives its locks back and ends. -/
theorem mcasLockTimeout_gives_up (held : s.mcasOf op.id = some op) (undecided : op.decided = none) (late : 2800 ≤ s.cycle - op.started)
    (own : ∀ e ∈ op.entries, s.ownDevice e.gpa = true) :
    exec (.mcasLockTimeout op.id) s = .next
      ((((s.setMcas { op with failure := some (0, ⟨0x83, 0, 0, 0, 0⟩) }).unlockOp none op.id).setMcas (gaveUp op)).mcasEnd (gaveUp op)) := by
  have waiting : ¬ (op.decided.isSome || decide (s.cycle - op.started < 2800)) = true := by
    rw [undecided, decide_eq_false (Nat.not_lt.2 late)]
    exact Bool.false_ne_true
  rw [exec_mcasLockTimeout, execMcasLockTimeout, held]
  dsimp only
  rw [if_neg waiting]
  exact congrArg Host.Outcome.next (mcasDecide_failed (s.setMcas _) _ own)

/-- What the end of an `mcas` that gave up leaves: no operation, no lock of its own, and its destination deferred. -/
theorem mcasEnd_gaveUp (u : State) : u.mcasEnd (gaveUp op) =
    ({ u with homes := { u.homes with mcas := u.homes.mcas.filter fun n => n.id != op.id } } : State).endFlight op.flight
      (.error ⟨0x83, 0, 0, 0, 0⟩) := rfl
theorem mcasEnd_gaveUp_forgets (u : State) :
    (u.mcasEnd (gaveUp op)).mcasOf op.id = none ∧ (u.mcasEnd (gaveUp op)).homes.locks = u.homes.locks := by
  rw [mcasEnd_gaveUp, mcasOf, homes_endFlight]
  refine ⟨List.find?_eq_none.2 fun n kept => ?_, rfl⟩
  simpa using (List.mem_filter.1 kept).2
theorem mcasEnd_gaveUp_defers {u : State} {g : Flight} (same : u.cx = s.cx) (one : s.cx.flights = [g]) (named : g.id = op.flight) :
    (u.mcasEnd (gaveUp op)).cx.flights = [] ∧ (u.mcasEnd (gaveUp op)).cx.x = s.cx.x ∧
      ∀ r ∈ g.dests, (r, ⟨0x83, 0, 0, 0, g.header.setWidth 64⟩) ∈ (u.mcasEnd (gaveUp op)).cx.deferred := by
  rw [mcasEnd_gaveUp, ← named, ← same]
  obtain ⟨flights, deferred, x⟩ := endFlight_defers (s := { u with homes := { u.homes with mcas := u.homes.mcas.filter fun n => n.id != op.id } })
    (f := ⟨0x83, 0, 0, 0, 0⟩) (same.symm ▸ one) rfl
  exact ⟨flights, x, deferred⟩
/-- The operation that timed out has no lock left, is over, and has its destination deferred (R258, R332). -/
theorem mcasLockTimeout_ends (held : s.mcasOf op.id = some op) (undecided : op.decided = none) (late : 2800 ≤ s.cycle - op.started)
    (own : ∀ e ∈ op.entries, s.ownDevice e.gpa = true) : ∃ t, exec (.mcasLockTimeout op.id) s = .next t ∧ t.mcasOf op.id = none ∧
      (∀ k ∈ t.homes.locks, ¬ (k.op = op.id ∧ k.peer = none)) ∧
      (∀ g : Flight, s.cx.flights = [g] → g.id = op.flight → t.cx.flights = [] ∧ t.cx.x = s.cx.x ∧
        ∀ r ∈ g.dests, (r, ⟨0x83, 0, 0, 0, g.header.setWidth 64⟩) ∈ t.cx.deferred) := by
  refine ⟨_, mcasLockTimeout_gives_up held undecided late own, (mcasEnd_gaveUp_forgets _).1, ?_, fun g one named => ?_⟩
  · rw [(mcasEnd_gaveUp_forgets _).2]
    exact unlockOp_unlocks _ op.id
  · obtain ⟨agenda, unlocked⟩ := unlockOp_eq (s.setMcas { op with failure := some (0, ⟨0x83, 0, 0, 0, 0⟩) }) op.id
    rw [unlocked]
    exact mcasEnd_gaveUp_defers rfl one named

end Timeout

end State
end Sys2Proof.Machine
end

