-- ==== Sys2Proof/Proofs/GuestEvents.lean ====
section
/-! The guest's messages (R395, R398 to R402): what each of them does while the guest is not fenced. -/

namespace Sys2Proof.Machine
namespace State

/-! Its packets. -/

theorem guestTakePacket_takes {s : State} {q : BitVec 3} (open_ : s.moor.fenced = false)
    (some_ : ((s.gqueue q.toNat).tail - (s.gqueue q.toNat).head).toNat ≠ 0)
    (free : ∀ x ∈ s.moor.pre, x.space ≠ pkSpace (tget {} (s.gqueue q.toNat).packets ((s.gqueue q.toNat).head.toNat % 256)).bits) :
    exec (.guestTakePacket q) s = .next (s.setGqueue q.toNat { s.gqueue q.toNat with
      head := (s.gqueue q.toNat).head + 1
      packets := tdel (s.gqueue q.toNat).packets ((s.gqueue q.toNat).head.toNat % 256)
      held := (s.gqueue q.toNat).held ++ [((s.gqueue q.toNat).head.toNat % 256,
        tget {} (s.gqueue q.toNat).packets ((s.gqueue q.toNat).head.toNat % 256))] }) := by
  have count : (mqCount (s.gqueue q.toNat) == 0) = false := beq_eq_false_iff_ne.2 some_
  have calm : (s.moor.pre.any fun x =>
      x.space == pkSpace (tget {} (s.gqueue q.toNat).packets ((s.gqueue q.toNat).head.toNat % 256)).bits) = false :=
    List.any_eq_false.2 fun x hx same => free x hx (beq_iff_eq.1 same)
  rw [exec_guestTakePacket, execGuestTakePacket]
  dsimp only
  rw [open_, count, calm]
  rfl
/-- The packet that a message names is taken from those that the guest holds. -/
theorem takeHeld_of_held {s : State} {q : BitVec 3} {idx : BitVec 8} {pk : GuestPacket}
    (mine : (s.gqueue q.toNat).held.find? (·.1 == idx.toNat) = some (idx.toNat, pk)) :
    s.takeHeld q idx = some (pk, s.setGqueue q.toNat { s.gqueue q.toNat with held := (s.gqueue q.toNat).held.erase (idx.toNat, pk) }) := by
  rw [takeHeld]
  dsimp only
  rw [mine]
  rfl
theorem guestCompletion_ends {s u : State} {q : BitVec 3} {idx : BitVec 8} {pk : GuestPacket} (open_ : s.moor.fenced = false)
    (taken : s.takeHeld q idx = some (pk, u)) (result : Dbl) :
    exec (.guestCompletion q idx result) s = .next (u.endPacket q pk 0 result false) := by
  rw [exec_guestCompletion, execGuestCompletion, open_, taken]
  rfl
theorem guestFault_ends {s u : State} {q : BitVec 3} {idx : BitVec 8} {pk : GuestPacket} (open_ : s.moor.fenced = false)
    (taken : s.takeHeld q idx = some (pk, u)) (translation : Bool) (result : Dbl) :
    exec (.guestFault q idx translation result) s = .next (u.endPacket q pk (if translation then 0x92 else 0x91) result true) := by
  rw [exec_guestFault, execGuestFault, open_, taken]
  rfl
theorem creditBarrier_eq (v : State) (e : GuestEnd) : v.creditBarrier e =
    if v.windowHeld e.packet ((pkCredit e.packet.bits).extractLsb' 32 8).toNat ((pkCredit e.packet.bits).extractLsb' 0 32).toNat = false then
      v.guestRefused e.queue (pkSpace e.packet.bits) 0x93 (pkCredit e.packet.bits)
    else if e.status = 0 then
      v.barrierPay ((pkCredit e.packet.bits).extractLsb' 32 8).toNat ((pkCredit e.packet.bits).extractLsb' 0 32).toNat (pkCamt e.packet.bits)
    else v.barrierFault ((pkCredit e.packet.bits).extractLsb' 32 8).toNat ((pkCredit e.packet.bits).extractLsb' 0 32).toNat e.status.toNat
      true false := by
  unfold creditBarrier
  dsimp only
  simp only [Bool.not_eq_true', beq_iff_eq]

/-! Its requests for lines (R398). -/

section Request
variable {s u : State} {q : BitVec 3} {idx : BitVec 8} {pk : GuestPacket} {va : Dbl} {data : BitVec 1024} {mask : BitVec 128} {w : Bool}
  {x : Xlat}

/-- A request that has passed the checks, at its line. -/
def coherentAccess (u : State) (q : BitVec 3) (sp : BitVec 6) (va : Dbl) (w : Bool) (data : BitVec 1024) (mask : BitVec 128) (x : Xlat)
    (again : Instr) : State :=
  let l := x.gpa / 128
  if u.lineLocked l then u.later 16 again
  else if u.grantBlocks (l / 512) w && !(if w then (u.ownedLine guestCore l).isSome else (u.lineOf guestCore l).isSome) then
    (u.revokeFor (l / 512) w sp).later 16 again
  else if u.aliased (l / 512) true then (u.logAlias x.gpa sp).guestRefused q sp 0x25 va
  else if w then
    match ((u.recallTo l .s).invalidateOthers l (some guestCore)).fillLine guestCore ⟨sp, 0, true⟩ l with
    | (v, .error e) => v.guestRefused q sp e va
    | (v, .ok ln) => (v.putLine guestCore { ln with data := mergeLine mask ln.data data, mesi := .m }).setDir l [guestCore]
  else match u.fillLine guestCore ⟨sp, 0, true⟩ l with
    | (v, .error e) => v.guestRefused q sp e va
    | (v, .ok _) => v

theorem guestCoherentRequest_eq (open_ : s.moor.fenced = false)
    (mine : (s.gqueue q.toNat).held.find? (·.1 == idx.toNat) = some (idx.toNat, pk))
    (translated : s.guestXlat (pkSpace pk.bits) va (if w then .write else .read) = (u, .ok x)) (allowed : u.guestExcluded x = false) :
    exec (.guestCoherentRequest q idx (pkSpace pk.bits) va w data mask) s =
      .next (u.coherentAccess q (pkSpace pk.bits) va w data mask x (.guestCoherentRequest q idx (pkSpace pk.bits) va w data mask)) := by
  have held : ((s.gqueue q.toNat).held.any fun (k, p) => k == idx.toNat && pkSpace p.bits == pkSpace pk.bits) = true :=
    List.any_eq_true.2 ⟨_, List.mem_of_find?_eq_some mine, by simp⟩
  rw [exec_guestCoherentRequest, execGuestCoherentRequest]
  dsimp only
  rw [open_, held, translated]
  dsimp only
  rw [allowed]
  rfl

variable {again : Instr} {sp : BitVec 6} {v : State} {ln : Line}

theorem coherentAccess_locked (locked : u.lineLocked (x.gpa / 128) = true) :
    u.coherentAccess q sp va w data mask x again = u.later 16 again := by
  unfold coherentAccess
  dsimp only
  rw [if_pos locked]

variable (unlocked : u.lineLocked (x.gpa / 128) = false) (open_ : u.grantBlocks (x.gpa / 128 / 512) w = false)
include unlocked open_

theorem coherentAccess_aliased (alias_ : u.aliased (x.gpa / 128 / 512) true = true) :
    u.coherentAccess q sp va w data mask x again = (u.logAlias x.gpa sp).guestRefused q sp 0x25 va := by
  unfold coherentAccess
  dsimp only
  rw [unlocked, open_, alias_]
  rfl
theorem coherentAccess_reads (sole : u.aliased (x.gpa / 128 / 512) true = false) (read : w = false)
    (filled : u.fillLine guestCore ⟨sp, 0, true⟩ (x.gpa / 128) = (v, .ok ln)) : u.coherentAccess q sp va w data mask x again = v := by
  subst read
  unfold coherentAccess
  dsimp only
  rw [unlocked, open_, sole, filled]
  rfl
theorem coherentAccess_writes (sole : u.aliased (x.gpa / 128 / 512) true = false) (write : w = true)
    (filled : ((u.recallTo (x.gpa / 128) .s).invalidateOthers (x.gpa / 128) (some guestCore)).fillLine guestCore ⟨sp, 0, true⟩ (x.gpa / 128) =
      (v, .ok ln)) : u.coherentAccess q sp va w data mask x again =
        (v.putLine guestCore { ln with data := mergeLine mask ln.data data, mesi := .m }).setDir (x.gpa / 128) [guestCore] := by
  subst write
  unfold coherentAccess
  dsimp only
  rw [unlocked, open_, sole, filled]
  rfl

end Request

/-! Its pre-emption (R401) and its links (R393). -/

section Preempted
variable {s : State} (sp : BitVec 6)

/-- A pre-emption of the space that the guest has answered. -/
def markStopped (x : GuestPre) : GuestPre := if x.space == sp then { x with stopped := true } else x
def markSaved (x : GuestPre) : GuestPre := if x.space == sp then { x with saved := true } else x

theorem markStopped_stopped (l : List GuestPre) : ∀ x ∈ l.map (markStopped sp), x.space = sp → x.stopped = true := by
  intro x marked named
  obtain ⟨y, -, rfl⟩ := List.mem_map.1 marked
  have space : (markStopped sp y).space = y.space := by
    unfold markStopped
    split <;> rfl
  rw [space] at named
  unfold markStopped
  rw [if_pos (beq_iff_eq.2 named)]
theorem markSaved_saved (l : List GuestPre) : ∀ x ∈ l.map (markSaved sp), x.space = sp → x.saved = true := by
  intro x marked named
  obtain ⟨y, -, rfl⟩ := List.mem_map.1 marked
  have space : (markSaved sp y).space = y.space := by
    unfold markSaved
    split <;> rfl
  rw [space] at named
  unfold markSaved
  rw [if_pos (beq_iff_eq.2 named)]

variable (open_ : s.moor.fenced = false)
include open_

theorem guestStopped_intime (intime : ∀ x ∈ s.moor.pre, x.space = sp → x.stopped = false → s.cycle ≤ x.at_ + 2800) :
    exec (.guestStopped sp) s = .next { s with moor := { s.moor with
      pre := s.moor.pre.map (markStopped sp), statStopped := s.moor.statStopped || s.moor.statSpace == sp } } := by
  have calm : ¬ (s.moor.pre.any fun x => x.space == sp && !x.stopped && decide (x.at_ + 2800 < s.cycle)) = true := by
    simp only [List.any_eq_true, Bool.and_eq_true, beq_iff_eq, Bool.not_eq_true', decide_eq_true_eq]
    rintro ⟨x, hx, ⟨named, running⟩, late⟩
    exact Nat.not_lt.2 (intime x hx named running) late
  rw [exec_guestStopped, execGuestStopped]
  dsimp only
  rw [open_, if_neg Bool.false_ne_true, if_neg calm]
  rfl
theorem guestStopped_late (late : ∃ x ∈ s.moor.pre, x.space = sp ∧ x.stopped = false ∧ x.at_ + 2800 < s.cycle) :
    exec (.guestStopped sp) s = .next (s.guestLate sp) := by
  have found : (s.moor.pre.any fun x => x.space == sp && !x.stopped && decide (x.at_ + 2800 < s.cycle)) = true := by
    obtain ⟨x, hx, named, running, past⟩ := late
    exact List.any_eq_true.2 ⟨x, hx, by simp [named, running, past]⟩
  rw [exec_guestStopped, execGuestStopped]
  rw [open_, if_neg Bool.false_ne_true, if_pos found]

variable {x : GuestPre} (mine : (s.moor.pre.find? fun y => y.space == sp && !y.saved) = some x)
include mine

theorem guestSaved_intime (intime : s.cycle ≤ x.at_ + 28000) : exec (.guestSaved sp) s = .next
    (guestSave { s with moor := { s.moor with pre := s.moor.pre.map (markSaved sp), statSaved := s.moor.statSaved || s.moor.statSpace == sp } }
      x.base.toNat x.len.toNat) := by
  rw [exec_guestSaved, execGuestSaved]
  dsimp only
  rw [open_, if_neg Bool.false_ne_true, mine, if_neg (by simpa using intime)]
  rfl
theorem guestSaved_late (late : x.at_ + 28000 < s.cycle) : exec (.guestSaved sp) s = .next (s.guestLate sp) := by
  rw [exec_guestSaved, execGuestSaved]
  dsimp only
  rw [open_, if_neg Bool.false_ne_true, mine, if_pos (by simpa using late)]

end Preempted

theorem guestPreemptLate_late {s : State} {sp : BitVec 6} {x : GuestPre} (mine : (s.moor.pre.find? fun y => y.space == sp) = some x)
    (late : (2800 < s.cycle - x.at_ ∧ x.stopped = false) ∨ (28000 < s.cycle - x.at_ ∧ x.saved = false)) :
    exec (.guestPreemptLate sp) s = .next (s.guestLate sp) := by
  rw [exec_guestPreemptLate, execGuestPreemptLate, mine]
  dsimp only
  rw [if_pos (by simpa using late)]
theorem guestLinkFailure_eq (s : State) (m : BitVec 3) (dead : Bool) : exec (.guestLinkFailure m dead) s = .next
    (if dead || s.moor.modules &&& ~~~(1#8 <<< m.toNat) == 0 then
      fenceGuest { s with moor := { s.moor with modules := s.moor.modules &&& ~~~(1#8 <<< m.toNat) } }
    else { s with moor := { s.moor with modules := s.moor.modules &&& ~~~(1#8 <<< m.toNat) } }) := rfl

/-! The messages as a whole. -/

theorem mqpushFullTimeout_late {c at_ : Nat} {late : Bool} {s : State} (pushing : (s.ctx c).push = some (at_, late))
    (full : 4096 ≤ s.cycle - at_) :
    exec (.mqpushFullTimeout c) s = .next (s.setCtx c { s.ctx c with push := some (at_, true) }) := by
  rw [exec_mqpushFullTimeout, execMqpushFullTimeout]
  dsimp only
  rw [pushing]
  dsimp only
  rw [if_pos full]
/-- What a request for a line does, case by case (R348, R378, R398). -/
theorem coherentRequest_cases {s u : State} {q : BitVec 3} {sp : BitVec 6} {va : Dbl} {w : Bool} {data : BitVec 1024} {mask : BitVec 128}
    {x : Xlat} {i again : Instr} (does : exec i s = .next (u.coherentAccess q sp va w data mask x again)) :
    (u.lineLocked (x.gpa / 128) = true → exec i s = .next (u.later 16 again)) ∧
    (u.lineLocked (x.gpa / 128) = false → u.grantBlocks (x.gpa / 128 / 512) w = false →
      (u.aliased (x.gpa / 128 / 512) true = true → exec i s = .next ((u.logAlias x.gpa sp).guestRefused q sp 0x25 va)) ∧
      (u.aliased (x.gpa / 128 / 512) true = false →
        (∀ (v : State) (ln : Line), w = false → u.fillLine guestCore ⟨sp, 0, true⟩ (x.gpa / 128) = (v, .ok ln) → exec i s = .next v) ∧
        (∀ (v : State) (ln : Line), w = true →
          ((u.recallTo (x.gpa / 128) .s).invalidateOthers (x.gpa / 128) (some guestCore)).fillLine guestCore ⟨sp, 0, true⟩ (x.gpa / 128) =
            (v, .ok ln) →
          ∃ t ln', exec i s = .next t ∧ t.lineOf guestCore ln.line = some ln' ∧ ln'.mesi = .m ∧ ln'.data = mergeLine mask ln.data data ∧
            t.dirCores (x.gpa / 128) = [guestCore]))) := by
  refine ⟨fun locked => ?_, fun unlocked open_ => ⟨fun alias_ => ?_, fun sole =>
    ⟨fun v ln read filled => ?_, fun v ln write filled => ?_⟩⟩⟩
  · rw [does, coherentAccess_locked locked]
  · rw [does, coherentAccess_aliased unlocked open_ alias_]
  · rw [does, coherentAccess_reads unlocked open_ sole read filled]
  · refine ⟨(v.putLine guestCore { ln with data := mergeLine mask ln.data data, mesi := .m }).setDir (x.gpa / 128) [guestCore],
      { ln with data := mergeLine mask ln.data data, mesi := .m }, ?_, ?_, rfl, rfl, dirCores_setDir_same _ _ _⟩
    · rw [does, coherentAccess_writes unlocked open_ sole write filled]
    · rw [lineOf_setDir]
      exact lineOf_putLine_same v guestCore { ln with data := mergeLine mask ln.data data, mesi := .m }
/-- What the end of a packet does, case by case (R399, R400). -/
theorem endPacket_cases (u : State) (q : BitVec 3) (pk : GuestPacket) (st : BitVec 8) (result : Dbl) (logIt : Bool) :
    let w := u.begun; let e := u.endOf q pk st result logIt; let b := pk.bits
    (∀ v : State, w.writeCompletion e = (v, .sent) →
      u.endPacket q pk st result logIt = { v with moor := { v.moor with ends := v.moor.ends ++ [{ e with stage := 1 }] } }) ∧
    (∀ v : State, w.writeCompletion e = (v, .wait) →
      u.endPacket q pk st result logIt = { v with moor := { v.moor with ends := v.moor.ends ++ [e] } }) ∧
    (∀ (v : State) (x : Xlat), pkCaddr b ≠ 0 → w.guestXlat (pkSpace b) (pkCaddr b) .write = (v, .ok x) → v.quietLine x →
      x.gpa % 128 + 16 ≤ 128 → Memory.wf v.mem = true → ∃ t, w.writeCompletion e = (t, .done 0) ∧
      t.bytes x.gpa 16 = (pkTag b).toNat + 2 ^ 32 * st.toNat + 2 ^ 40 * q.toNat + 2 ^ 64 * result.toNat ∧
      ∀ n, n < x.gpa ∨ x.gpa + 16 ≤ n → t.byte n = v.byte n) ∧
    (pkCaddr b = 0 → w.writeCompletion e = (w, .done 0)) ∧
    (∀ (v : State) (r : Nat), w.writeCompletion e = (v, .done r) →
      (pkKind b = 0 → u.endPacket q pk st result logIt = v.endLogged e) ∧
      (pkKind b = 1 → u.endPacket q pk st result logIt = (v.creditBarrier e).endLogged e) ∧
      (∀ (y : State) (x : Xlat), pkKind b = 2 → v.guestXlat (pkSpace b) (pkCredit b) .atomic = (y, .ok x) → y.quietLine x →
        x.gpa % 8 = 0 → Memory.wf y.mem = true → y.homes.tokens = [] → y.bytes x.gpa 8 < 2 ^ 63 →
        (u.endPacket q pk st result logIt).bytes x.gpa 8 = min (y.bytes x.gpa 8 + max 1 (pkCamt b)) (2 ^ 63 - 1) ∧
        ∀ n, n < x.gpa ∨ x.gpa + 8 ≤ n → (u.endPacket q pk st result logIt).byte n = y.byte n)) := by
  intro w e b
  refine ⟨fun v wrote => endPacket_sent wrote, fun v wrote => endPacket_wait wrote,
    fun v x asked translated quiet fits wf => ?_, fun unasked => writeCompletion_unasked unasked,
    fun v r wrote => ⟨fun kind => ?_, fun kind => ?_, fun y x kind translated quiet aligned wf waiters open_ => ?_⟩⟩
  · obtain ⟨t, done, wrote⟩ := writeCompletion_writes (e := e) asked translated quiet fits wf
    exact ⟨t, done, wrote.inside (recordOf_lt e), fun n => wrote.outside⟩
  · exact endPacket_done wrote (endCredit_none kind)
  · exact endPacket_done wrote (endCredit_barrier kind)
  · obtain ⟨t, added, adds⟩ := creditTokens_adds (e := e) translated quiet aligned wf waiters open_
    have ended : u.endPacket q pk st result logIt = t.endLogged e := endPacket_done wrote (endCredit_tokens kind added)
    have mem := endLogged_mem t e
    rw [← ended] at mem
    unfold State.bytes State.byte
    rw [mem]
    exact ⟨adds.inside (Nat.lt_of_le_of_lt (Nat.min_le_right _ _) (by decide)), fun n => adds.outside⟩
/-- A guest that has its state saved in time says so, and writes its save area alone (R401). -/
theorem guestSaved_saves {s : State} (sp : BitVec 6) {x : GuestPre} (open_ : s.moor.fenced = false)
    (mine : (s.moor.pre.find? fun y => y.space == sp && !y.saved) = some x) (intime : s.cycle ≤ x.at_ + 28000) :
    ∃ t, exec (.guestSaved sp) s = .next t ∧ (∀ x ∈ t.moor.pre, x.space = sp → x.saved = true) ∧
      (s.moor.statSpace = sp → t.moor.statSaved = true) ∧
      (Memory.wf s.mem = true → (∀ n, (s.core n).lines = []) →
        ∀ a, a < x.base.toNat ∨ x.base.toNat + x.len.toNat ≤ a → t.byte a = s.byte a) := by
  have saves := guestSaved_intime sp open_ mine intime
  let u : State := { s with moor := { s.moor with
    pre := s.moor.pre.map (markSaved sp), statSaved := s.moor.statSaved || s.moor.statSpace == sp } }
  have moor := moor_guestSave u x.base.toNat x.len.toNat
  refine ⟨_, saves, ?_, fun named => ?_, fun wf none => ?_⟩
  · rw [moor]
    exact markSaved_saved sp _
  · rw [moor]
    exact (congrArg (s.moor.statSaved || ·) (beq_iff_eq.2 named)).trans (Bool.or_true _)
  · exact (areaWritten_guestSave (s := u) x.base.toNat x.len.toNat wf none).outside
theorem mgpreRequest_notes (s : State) (sp : BitVec 6) : ∃ t, exec (.mgpreRequest sp) s = .next t ∧
    t.moor.pre.head? = some ⟨sp, s.cycle, false, false, s.moor.saveBase, s.moor.saveLen⟩ ∧ t.moor.statSpace = sp ∧
    (s.cycle + 2801, .guestPreemptLate sp) ∈ t.agenda ∧ (s.cycle + 28001, .guestPreemptLate sp) ∈ t.agenda :=
  ⟨_, exec_mgpreRequest s, rfl, rfl, List.mem_append_left _ (List.mem_append_right _ (List.mem_singleton_self _)),
    List.mem_append_right _ (List.mem_singleton_self _)⟩
theorem mgpreResume_resumes (s : State) (sp : BitVec 6) :
    ∃ t, exec (.mgpreResume sp) s = .next t ∧ (∀ x ∈ t.moor.pre, x.space ≠ sp) ∧ t.mem = s.mem := by
  refine ⟨_, exec_mgpreResume s, fun x kept => ?_, rfl⟩
  simpa using (List.mem_filter.1 kept).2
theorem guestLinkFailure_dead {s : State} (open_ : s.moor.fenced = false) (m : BitVec 3) :
    ∃ t, exec (.guestLinkFailure m true) s = .next t ∧ GuestFenced s t :=
  ⟨_, (guestLinkFailure_eq s m true).trans (congrArg Host.Outcome.next (if_pos rfl)),
    (fenceGuest_fences (s := { s with moor := { s.moor with modules := s.moor.modules &&& ~~~(1#8 <<< m.toNat) } }) open_).1⟩
theorem guestLinkFailure_left {s : State} (open_ : s.moor.fenced = false) (m : BitVec 3)
    (left : s.moor.modules &&& ~~~(1#8 <<< m.toNat) ≠ 0) : ∃ t, exec (.guestLinkFailure m false) s = .next t ∧
      t.moor.modules.getLsbD m.toNat = false ∧ t.moor.fenced = false ∧ t.mem = s.mem := by
  refine ⟨_, (guestLinkFailure_eq s m false).trans (congrArg Host.Outcome.next (if_neg (by simpa using left))), ?_, open_, rfl⟩
  simp

end State
end Sys2Proof.Machine
end

