-- ==== Sys2Proof/Proofs/LeasesAndMooring.lean ====
section
/-! The lease events, the guest's messages and the timers of held operations, together (O57). -/

namespace Sys2Proof.Machine
namespace State

/-- Settles O57: each event has its own lemma, and the clauses are put together from them. -/
theorem leaseAndMooringEvents : Obligations.LeaseAndMooringEvents := by
  unfold Obligations.LeaseAndMooringEvents
  refine ⟨?leases, ?guest, ?push, ?lock⟩
  case leases =>
    intro id l s held ends
    have finished (st : LeaseState) (reason : BitVec 4) : (s.leaseEnds l st reason).leaseOf id.toNat = ends st reason :=
      leaseEnds_leaseOf held st reason
    have ending : s.endLease l = (s.setLease { l with state := .ending }).later 2800 (.leaseDrained id) := endLease_of_held held
    refine ⟨fun dim cs head takes => ?_, fun asked => ⟨fun full ok => ?_, fun room => ?_⟩, fun tuning kept => ?_,
      fun active term => ?_, fun notice => ?_, fun state => ?_, fun queued term => ?_, fun state kept => ?_⟩
    · exact leaseHeadGrant_takes held head takes
    · exact ⟨_, leaseReserveReply_full held asked full ok, finished .refused 2⟩
    · have reply := leaseReserveReply_room held asked room
      refine ⟨reply true, fun doomed => ⟨_, ?_, finished .ended 0⟩, leaseReserveReply_queues held asked room⟩
      rw [reply false, if_neg Bool.false_ne_true, if_pos doomed]
    · exact leaseTuned_active held tuning kept
    · rw [leaseTermExpiry_ends held active term, ending]
    · refine ⟨fun late => ?_, fun early => ?_⟩
      · rw [leaseNoticeExpiry_eq held notice, if_pos late, ending]
      · rw [leaseNoticeExpiry_eq held notice, if_neg (Nat.not_le.2 early)]
    · have timeout := leaseEnds_agenda s l .ended 0
      rw [ofNat_leaseOf_id held] at timeout
      exact ⟨_, leaseDrained_ends held state, finished .ended 0, timeout, fun _ named n c => leaseEnds_channels s .ended 0 named⟩
    · exact ⟨_, leaseQueueExpiry_ends held queued term, finished .refused 6⟩
    · have gone := leaseOf_dropLease s l.id
      rw [leaseOf_id held] at gone
      exact ⟨_, leaseEntryTimeout_frees held state kept, by rw [leaseOf_id held]; exact gone⟩
  case guest =>
    intro q s open_ g k p fences
    have late (sp : BitVec 6) : fences (s.guestLate sp) ∧ (s.moor.statSpace = sp → (s.guestLate sp).moor.statLate = true) :=
      guestLate_fences open_ sp
    refine ⟨fun some_ free => ?_, fun idx pk mine => ⟨fun va data mask w u x translated allowed => ?_, fun result => ?_,
      fun u st result logIt => ?_⟩, fun sp => ⟨fun intime => ?_, fun past => ?_, fun x mine => ⟨fun intime => ?_, fun past => ?_⟩, ?_, ?_,
      fun x mine past => ?_⟩, ?_, fun m => ⟨?_, fun left => ?_⟩⟩
    · exact ⟨_, guestTakePacket_takes open_ some_ free, gqueue_setGqueue _ _ _, rfl⟩
    · exact coherentRequest_cases (guestCoherentRequest_eq open_ mine translated allowed)
    · have taken := takeHeld_of_held mine
      exact ⟨_, taken, guestCompletion_ends open_ taken result, fun translation => guestFault_ends open_ taken translation result⟩
    · obtain ⟨sent, wait, record, unasked, done⟩ := endPacket_cases u q pk st result logIt
      refine ⟨sent, wait, record, unasked, fun v r wrote => ?_⟩
      obtain ⟨uncredited, barrier, tokens⟩ := done v r wrote
      refine ⟨uncredited, fun kind => ?_, tokens⟩
      rw [barrier kind, creditBarrier_eq]
      rfl
    · refine ⟨_, guestStopped_intime sp open_ intime, markStopped_stopped sp _, fun named => ?_, rfl⟩
      exact (congrArg (s.moor.statStopped || ·) (beq_iff_eq.2 named)).trans (Bool.or_true _)
    · exact ⟨_, guestStopped_late sp open_ past, late sp⟩
    · exact guestSaved_saves sp open_ mine intime
    · exact ⟨_, guestSaved_late sp open_ mine past, late sp⟩
    · exact mgpreRequest_notes s sp
    · exact mgpreResume_resumes s sp
    · exact ⟨_, guestPreemptLate_late mine past, late sp⟩
    · exact ⟨_, exec_guestPowerOverrun s, (fenceGuest_fences open_).1⟩
    · exact guestLinkFailure_dead open_ m
    · exact guestLinkFailure_left open_ m left
  case push =>
    intro c at_ late s pushing full
    exact mqpushFullTimeout_late pushing full
  case lock =>
    intro op s held undecided late own
    exact mcasLockTimeout_ends held undecided late own

end State
end Sys2Proof.Machine
end

