-- ==== Sys2Proof/Proofs/HandOffWords.lean ====
section
/-! The words that hand work over: `mcas` and `acopy` (R258, R262). -/

namespace Sys2Proof.Machine

namespace State

/-- The copy unit takes a copy on, and its bytes are added to the object's PENDING (R262). -/
def takeCopy (s : State) (cl : Nat) (j : CopyJob) : State :=
  ((s.setCluster cl { s.cluster cl with copies := (s.cluster cl).copies ++ [j] }).barrierAdd cl j.bar j.total).later 0
    (.copyUnitLands cl j.id)

theorem takeCopy_takes {s : State} {cl : Nat} {j : CopyJob} (idle : (s.cluster cl).copies = [])
    (wf : Memory.wf (s.cluster cl).scratch = true) (some_ : 0 < j.total) (fits : bPending (s.barrier cl j.bar) + j.total < 2 ^ 48) :
    ((s.takeCopy cl j).cluster cl).copies = [j] ∧
    bPending ((s.takeCopy cl j).barrier cl j.bar) = bPending (s.barrier cl j.bar) + j.total ∧
    (s.cycle, .copyUnitLands cl j.id) ∈ (s.takeCopy cl j).agenda ∧ (s.takeCopy cl j).mem = s.mem ∧ (s.takeCopy cl j).here = s.here := by
  let v := s.setCluster cl { s.cluster cl with copies := (s.cluster cl).copies ++ [j] }
  have held : v.cluster cl = { s.cluster cl with copies := (s.cluster cl).copies ++ [j] } := cluster_setCluster s cl _
  have same : v.barrier cl j.bar = s.barrier cl j.bar := by
    rw [barrier, scratchRead, held]
    rfl
  have wf' : Memory.wf (v.cluster cl).scratch = true := by
    rw [held]
    exact wf
  have added := barrierAdd_adds j.bar wf' some_ (by rw [same]; exact fits)
  have paid : bPending (bPut (v.barrier cl j.bar) 0 48 (bPending (v.barrier cl j.bar) + j.total)) =
      bPending (s.barrier cl j.bar) + j.total := by
    rw [same]
    exact bPending_bPut _ fits
  have shape : s.takeCopy cl j = (v.setBarrier cl j.bar (bPut (v.barrier cl j.bar) 0 48 (bPending (v.barrier cl j.bar) + j.total))).later 0
      (.copyUnitLands cl j.id) := congrArg (State.later · 0 (.copyUnitLands cl j.id)) added
  have object := barrier_setBarrier j.bar wf' (bPut (v.barrier cl j.bar) 0 48 (bPending (v.barrier cl j.bar) + j.total))
  have copies := v.setBarrier_copies cl j.bar (bPut (v.barrier cl j.bar) 0 48 (bPending (v.barrier cl j.bar) + j.total))
  rw [held, idle] at copies
  rw [shape]
  refine ⟨copies, ?_, List.mem_append_right _ (List.mem_singleton_self _), rfl, rfl⟩
  exact (congrArg bPending object).trans paid

end State

section
variable {p : Pred} {a : BitVec 5} {s : State} (holds : s.holds p = true)
include holds

/-- An `mcas` whose entries pass every check, with nothing before it outstanding, is accepted (R258 steps 1 and 2). -/
theorem exec_mcas_accepted {u v : State} (d : BitVec 5) {c : BitVec 3} {ws : List (BitVec 256)} {es : List McasEntry}
    (aligned : (s.rx a).toNat % 32 = 0) (read : s.readRecords (s.rx a) (c.toNat + 1) = (u, .ok (some ws)))
    (entries : u.mcasEntries 0 ws = (v, .ok es)) (good : State.mcasBad ws es = none) (opens : v.cx.opens = [])
    (queued : v.coreQueued v.here = []) : exec (.mcas p d a c) s = .next (v.startMcas d es) := by
  rw [exec_mcas, execMcas, State.perform_true _ _ _ holds]
  dsimp only
  rw [if_neg (by simpa using aligned), read]
  dsimp only
  rw [entries]
  dsimp only
  rw [good]
  simp only [State.settled_of_nothing opens queued, Bool.not_true, Bool.false_eq_true, if_false]

/-- An `acopy` whose descriptor is good opens an access and hands its copy to the copy unit (R262). -/
theorem exec_acopy_accepted {u : State} {i : BitVec 12} {l : Option Word} {dsc : Nat} {j : CopyJob}
    (job : j = ⟨u.tick, u.here, BitVec.ofNat 256 dsc, u.cx.id.space, u.scratchAt 0, u.scratchLimit,
      u.scratchAt 0 + 16 * ((BitVec.ofNat 256 dsc).extractLsb' 234 22).toNat, u.earlier false, [], [], [], none⟩)
    (aligned : (s.rx a + immS i l).toNat % 32 = 0) (read : s.readNow (s.rx a + immS i l) 32 = (u, .ok (some dsc)))
    (good : State.copyBad j (16 * ((BitVec.ofNat 256 dsc).extractLsb' 234 22).toNat) u.scratchLimit = none)
    (whole : bFault (u.barrier u.hereCluster j.bar) = false) (idle : (u.cluster u.hereCluster).copies = []) :
    exec (.acopy p a i l) s = .next ((u.openAccess (u.copySets u.hereCluster j) false).2.takeCopy u.hereCluster j) := by
  subst job
  rw [exec_acopy, execAcopy, State.perform_true _ _ _ holds]
  dsimp only
  rw [if_neg (by simpa using aligned), read]
  dsimp only
  rw [good]
  dsimp only
  rw [whole, idle]
  rfl

end

end Sys2Proof.Machine
end

