-- ==== Sys2Proof/Proofs/Prefetch.lean ====
section
/-! `pfl` (R260): a prefetch touches no context, and of a line that stands at its home it brings in what memory holds. -/

namespace Sys2Proof.Machine
namespace State

/-! A fill of a core's line is an engine's work. -/

theorem engine_askGrant (s : State) (core : Nat) (k : PageKind) (l : Nat) (w : Bool) : Engine s (s.askGrant core k l w) := by
  unfold askGrant
  split
  · exact .refl s
  · exact engine_send _ _ _
theorem engine_askLine (s : State) (core : Nat) (k : PageKind) (l : Nat) : Engine s (s.askLine core k l) := by
  unfold askLine
  dsimp only
  split
  · exact .refl s
  · split
    · exact engine_askGrant _ _ _ _ _
    · exact engine_send _ _ _
theorem engine_shareLine (s : State) (core : Nat) (ln : Line) : Engine s (s.shareLine core ln) :=
  (((engine_recallTo _ _ _).trans (engine_makeRoom _ _ _)).trans (engine_putLine _ _ _)).trans (engine_setDir _ _ _)
theorem engine_readMiss (s : State) (core : Nat) (k : PageKind) (l : Nat) : Engine s (s.readMiss core k l).1 := by
  unfold readMiss
  dsimp only
  split
  · exact engine_recallTo _ _ _
  · split
    · exact engine_recallTo _ _ _
    · exact (((engine_recallTo _ _ _).trans (engine_makeRoom _ _ _)).trans (engine_putLine _ _ _)).trans (engine_setDir _ _ _)
theorem engine_fillLine (s : State) (core : Nat) (k : PageKind) (l : Nat) : Engine s (s.fillLine core k l).1 := by
  have home := engine_homeLine s k.space k.key l
  unfold fillLine
  split
  · split
    · exact .refl s
    · split
      · exact .refl s
      · split
        · next h => rwa [h] at home
        · next h =>
          rw [h] at home
          exact home.trans (engine_putLine _ _ _)
  · split
    · exact engine_readMiss _ _ _ _
    · split
      · next h => rwa [h] at home
      · next h =>
        rw [h] at home
        exact (home.trans (engine_makeRoom _ _ _)).trans (engine_putLine _ _ _)
/-- A read through the cache that is performed at once. -/
theorem engine_readAt_done {s t : State} {core : Nat} {k : PageKind} {a n v : Nat} (read : s.readAt core k .c a n = (t, .done v)) :
    Engine s t := by
  have fill := engine_fillLine s core k (a / 128)
  have ofFill (h : (match s.fillLine core k (a / 128) with
      | (s, .error e) => (s, Perf.fail e)
      | (s, .ok ln) => (s, .done (lineBytes ln.data (a % 128) n))) = (t, .done v)) : Engine s t := by
    split at h
    · cases h
    · next filled =>
      cases h
      rwa [filled] at fill
  unfold readAt at read
  dsimp only at read
  rw [if_neg (by decide)] at read
  split at read
  · rw [if_neg (by simp)] at read
    split at read
    · cases read
      exact .refl s
    · split at read
      · cases read
      · exact ofFill read
  · split at read
    · cases read
    · split at read
      · cases read
      · exact ofFill read

theorem engine_prefetchLine (s : State) (k : PageKind) (gpa : Nat) (e : Bool) : Engine s (s.prefetchLine k gpa e) := by
  unfold prefetchLine
  dsimp only
  split
  · exact .refl s
  split
  · split
    · exact engine_askGrant _ _ _ _ _
    · split
      · exact .refl s
      · split
        · exact engine_shareLine _ _ _
        · exact engine_askLine _ _ _ _
  split
  · split
    · exact .refl s
    · split
      · next filled =>
        have fill := engine_fillLine ((s.recallTo (gpa / 128) .s).invalidateOthers (gpa / 128) (some s.hereCore)) s.hereCore k (gpa / 128)
        rw [filled] at fill
        exact (((engine_recallTo _ _ _).trans (engine_invalidateOthers _ _ _)).trans fill).trans (engine_putLine _ _ _)
      · exact .refl s
  · split
    · next read => exact engine_readAt_done read
    · exact .refl s

/-! A line that stands at its home. -/

section Quiet
variable {s : State} {x : Xlat} (quiet : s.quietLine x)
include quiet

/-- From s to t the core has taken the line in, as memory holds it. -/
def Fetched (s t : State) (l : Nat) (e : Bool) : Prop :=
  t.mem = s.mem ∧ ∃ ln, t.lineOf s.hereCore l = some ln ∧ ln.data = s.lineRaw l ∧ (e = true → ln.tracked = true → ln.mesi = .e)

theorem quietLine.prefetchLine (sp : BitVec 6) (tracked e : Bool) :
    Fetched s (s.prefetchLine ⟨sp, 0, tracked⟩ x.gpa e) (x.gpa / 128) e := by
  have free := quiet.grant_write
  have room := quiet.room s.hereCore
  have open_ := quiet.grant.2
  obtain ⟨t, fill, filled, there⟩ := quiet.fillLine s.hereCore sp tracked
  have mem : t.mem = s.mem := by
    obtain ⟨_, _, rfl⟩ := filled
    rfl
  have whole := quiet.unlisted.fillLine_tracked s.hereCore sp
  have invalidated := quiet.invalidated (some s.hereCore)
  obtain ⟨own, window, _, _, _, unlocked, _, _, absent⟩ := quiet
  have absent := (absent s.hereCore).1
  have unowned : s.ownedLine s.hereCore (x.gpa / 128) = none := by
    unfold ownedLine
    rw [absent]
  by_cases exclusive : (e && tracked) = true
  · obtain ⟨rfl, rfl⟩ := Bool.and_eq_true_iff.1 exclusive
    unfold State.prefetchLine
    dsimp only
    simp only [window, own, unowned, unlocked, room.1, free, invalidated, whole]
    exact ⟨rfl, _, lineOf_putLine_same _ _ { s.freshLine sp (x.gpa / 128) with mesi := .e }, rfl, fun _ _ => rfl⟩
  · have read : s.readAt s.hereCore ⟨sp, 0, tracked⟩ .c x.gpa 128 =
        (t, .done (lineBytes (s.lineRaw (x.gpa / 128)) (x.gpa % 128) 128)) := by
      unfold State.readAt
      simp only [absent, unlocked, room.1, open_, fill, data_quietFill, Bool.and_false]
      rfl
    have became : s.prefetchLine ⟨sp, 0, tracked⟩ x.gpa e = t := by
      unfold State.prefetchLine
      dsimp only
      simp only [window, own, exclusive, read]
      rfl
    rw [became]
    refine ⟨mem, _, there, data_quietFill _ _ _ _, fun asked held => ?_⟩
    subst asked
    cases tracked with
    | true => exact absurd rfl exclusive
    | false => cases held

end Quiet
end State

/-! The word. -/

/-- What a prefetch that is not dropped does with the check of its line. -/
def fetchOf (s : State) (e : Bool) (va : Dbl) : State :=
  match s.laneCheck va 128 .read true false with
  | (_, .ok t) => if e && !t.leaf.getLsbD 2 then s else s.prefetchLine ⟨s.cx.id.space, t.leaf.extractLsb' 8 8, t.leaf.getLsbD 4⟩ t.gpa e
  | (_, .error _) => s

section
variable {p : Pred} {a : BitVec 5} {s : State} (holds : s.holds p = true)
include holds

theorem exec_pfl_eq (e : Bool) (i : BitVec 12) (l : Option Word) : exec (.pfl p e a i l) s =
    .next (if s.free.1.getLsbD 0 then fetchOf s.free.2 e ((s.rx a + immS i l) &&& ~~~127#64) else s.free.2) := by
  rw [exec_pfl, execPfl, State.perform_true _ _ _ holds]
  dsimp only
  cases s.free.1.getLsbD 0 <;> rfl

end

theorem engine_fetchOf (s : State) (e : Bool) (va : Dbl) : State.Engine s (fetchOf s e va) := by
  unfold fetchOf
  split
  · split
    · exact .refl s
    · exact State.engine_prefetchLine _ _ _ _
  · exact .refl s
theorem fetchOf_faulting {s : State} {e : Bool} {va : Dbl} {f : FaultInfo} (faults : (s.laneCheck va 128 .read true false).2 = .error f) :
    fetchOf s e va = s := by
  unfold fetchOf
  split
  · next h =>
    rw [h] at faults
    cases faults
  · rfl
theorem fetchOf_quiet {s v : State} {e : Bool} {va : Dbl} {x : State.Xlat} (checked : s.laneCheck va 128 .read true false = (v, .ok x))
    (quiet : s.quietLine x) (writable : e = true → x.leaf.getLsbD 2 = true) : State.Fetched s (fetchOf s e va) (x.gpa / 128) e := by
  have fetched := quiet.prefetchLine s.cx.id.space (x.leaf.getLsbD 4) e
  obtain ⟨_, _, _, key, _⟩ := quiet
  unfold fetchOf
  rw [checked]
  dsimp only
  rw [if_neg (by cases e <;> simp_all), key]
  exact fetched

end Sys2Proof.Machine
end

