-- ==== Sys2Proof/Proofs/RangeWords.lean ====
section
/-! The range words on an untracked line of this device with dirty bytes (R259). -/

namespace Sys2Proof.Machine
namespace State

/-- The bytes of a line's mask are the line's, and no other byte has changed. -/
def LineMerged (s t : State) (ln : Line) : Prop :=
  (∀ i < 128, t.byte (128 * ln.line + i) = if ln.dirty.getLsbD i then ln.data.extractLsb' (8 * i) 8 else s.byte (128 * ln.line + i)) ∧
    ∀ q, q / 128 ≠ ln.line → t.byte q = s.byte q

section Line
variable {s : State} {core : Nat} {ln : Line} (held : s.lineOf core ln.line = some ln) (untracked : ln.tracked = false)
include held untracked

/-- `rinv` drops the line and its dirty bytes. -/
theorem rangeLine_discards (use : TxnUse) : s.rangeLine core ln.line false true use = (s.dropLine core ln.line, .done 0) := by
  unfold rangeLine
  simp only [held, untracked]
  rfl

variable (invalid : ln.mesi = .i) (key : ln.key = 0) (dirty : ln.dirty ≠ 0) (unlocked : s.lineLocked ln.line = false)
  (own : s.ownDevice (128 * ln.line) = true) (hb : s.backed (localOf (128 * ln.line)) = true) (wf : Memory.wf s.mem = true)
include invalid key dirty unlocked own hb wf

/-- `rwb` and `rwbinv` write the dirty bytes home; `rwb` keeps the line clean, `rwbinv` drops it. -/
theorem rangeLine_merges (keep : Bool) (use : TxnUse) : ∃ t, s.rangeLine core ln.line keep false use = (t, .done 0) ∧
    LineMerged s t ln ∧ t.lineOf core ln.line = if keep then some { ln with dirty := 0 } else none := by
  obtain ⟨t, merged, mem, devid, _⟩ := mergeLineTo_own own hb key use
  have mask : outMask ln = ln.dirty := if_neg (by rw [untracked]; exact Bool.false_ne_true)
  have here : t.ownDevice (128 * ln.line) = true := by
    rw [ownDevice, devid]
    exact own
  have unheld : s.mergeHeld ln = false := by simp [mergeHeld, unlocked]
  have stays : (ln.tracked && !keep) = false := by
    rw [untracked]
    rfl
  have clean : ({ ln with mesi := if ln.mesi == .m then .e else ln.mesi, dirty := 0 } : Line) = { ln with dirty := 0 } := by
    rw [invalid]
    rfl
  rw [mask] at mem
  have bytes (r : State) (same : r.mem = t.mem) : LineMerged s r ln := byte_lineMask s r ln.line ln.dirty ln.data wf (same.trans mem)
  unfold rangeLine
  simp only [held, Bool.false_and, Bool.false_eq_true, if_false, mask, beq_false_of_ne dirty, unheld, stays, merged, here, clean]
  cases keep with
  | true => exact ⟨_, rfl, bytes (t.putLine core _) rfl, lineOf_putLine_same t core { ln with dirty := 0 }⟩
  | false => exact ⟨_, rfl, bytes (t.dropLine core _) rfl, lineOf_dropLine_same t core ln.line⟩

end Line

section Word

theorem settleRange_of_empty {w : State} (empty : (w.core w.hereCore).queue = []) (first last n : Nat) :
    w.settleRange first last (n + 1) = (w, true) := by
  unfold settleRange
  rw [empty]
  rfl

variable {s u : State} {a b : BitVec 5} {keep discard : Bool} {l m : Nat} {pages : List (Nat × Nat)}

/-- A range word on one line of this device that nothing holds up: an access that is over at once (R259, R275). -/
theorem rangeWord_one (some_ : (s.rx b).toNat ≠ 0)
    (mapped : s.rangePages ((s.rx a).toNat / 128 / 512) (!keep)
      (((s.rx a).toNat + (s.rx b).toNat - 1) / 128 / 512 - (s.rx a).toNat / 128 / 512 + 1) = (u, .ok pages))
    (empty : (u.core u.hereCore).queue = []) (none_ : ∀ l, u.olderFlight u.here u.tick l = false)
    (one : u.rangeLines ((s.rx a).toNat / 128) (((s.rx a).toNat + (s.rx b).toNat - 1) / 128) pages = [(l, m)])
    (own : u.ownDevice (128 * l) = true) (unlocked : u.lineLocked l = false) {P : State → Prop}
    (done : ∀ use, ∃ t, ((u.veil 2 s.moor).openAccess 2 false).2.rangeLine u.hereCore l keep discard use = (t, .done 0) ∧ P t) :
    ∃ t, s.rangeWord a b keep discard = t.closeAccess u.tick ∧ P t := by
  obtain ⟨t, performed, holds⟩ := done (.store u.here u.tick (BitVec.ofNat 64 (128 * m)) u.issue.pc)
  have mapped' := s.veil_rangePages 2 s.moor (!keep) (((s.rx a).toNat + (s.rx b).toNat - 1) / 128 / 512 - (s.rx a).toNat / 128 / 512 + 1)
    ((s.rx a).toNat / 128 / 512)
  rw [mapped] at mapped'
  have older' := (u.veil_olderFlight 2 s.moor u.here u.tick l).trans (none_ l)
  -- the word has noted a write by the time it translates: `w` is `u` with that note
  obtain ⟨w, mapped, empty, older, one, unlocked, own, performed, tick⟩ : ∃ w : State,
      (s.touchSets 2).rangePages ((s.rx a).toNat / 128 / 512) (!keep)
        (((s.rx a).toNat + (s.rx b).toNat - 1) / 128 / 512 - (s.rx a).toNat / 128 / 512 + 1) = (w, .ok pages) ∧
      (w.core w.hereCore).queue = [] ∧ w.olderFlight w.here w.tick l = false ∧
      w.rangeLines ((s.rx a).toNat / 128) (((s.rx a).toNat + (s.rx b).toNat - 1) / 128) pages = [(l, m)] ∧
      w.lineLocked l = false ∧ w.ownDevice (128 * l) = true ∧
      (w.openAccess 2 false).2.rangeLine w.hereCore l keep discard (.store w.here w.tick (BitVec.ofNat 64 (128 * m)) w.issue.pc) =
        (t, .done 0) ∧ w.tick = u.tick :=
    ⟨u.veil 2 s.moor, mapped', empty, older', one, unlocked, own, performed, rfl⟩
  have unheld (ln : Line) (held : w.lineOf w.hereCore l = some ln) : w.mergeHeld ln = false := by
    obtain rfl := lineOf_line held
    simp [mergeHeld, unlocked]
  refine ⟨t, ?_, holds⟩
  unfold rangeWord
  dsimp only
  rw [if_neg (by simpa using some_), mapped]
  dsimp only
  rw [settleRange_of_empty empty, one, if_neg (by simp [older])]
  dsimp only
  rw [one, if_neg, List.foldl_cons, List.foldl_nil]
  · dsimp only
    rw [own, ← tick]
    have performed' : (w.openAccess 2 false).2.rangeLine (w.openAccess 2 false).2.hereCore l keep discard
        (.store (w.openAccess 2 false).2.here (w.openAccess 2 false).1 (BitVec.ofNat 64 (128 * m)) (w.openAccess 2 false).2.issue.pc) =
          (t, .done 0) := performed
    simp only [if_true, performed']
    rfl
  · rw [List.any_cons, List.any_nil, Bool.or_false]
    dsimp only
    split
    · next ln held => simp [unheld ln held]
    · simp

end Word
end State
end Sys2Proof.Machine
end

