-- ==== Sys2Proof/Proofs/FlaggedStores.lean ====
section
/-! `rstf` on two lines that stand at their home on this device (R376): its data is written, and the flag's addition is asked for. -/

namespace Sys2Proof.Machine

/-- Equal bytes make equal values. -/
theorem cellsRead_congr {m m' : List Host.Cell} : ∀ (n a : Nat), (∀ k < n, cellRead m (a + k) = cellRead m' (a + k)) →
    cellsRead m a n = cellsRead m' a n
  | 0, _, _ => rfl
  | n + 1, a, same => by
    have rest := cellsRead_congr (m := m) (m' := m') n (a + 1) fun k hk => by
      rw [Nat.add_assoc, Nat.add_comm 1 k]
      exact same (k + 1) (by omega)
    have first : cellRead m a = cellRead m' a := same 0 (by omega)
    rw [cellsRead, cellsRead, rest, first]

namespace State

/-! The byte masks of the two lines. -/

/-- The number that has four bits for each of the lanes from 32 h on, below n, that the mask picks. -/
def laneMask (m : BitVec 64) (h n : Nat) : Nat :=
  (List.range n).foldl (fun n i => if m.getLsbD (32 * h + i) then n + 15 * 2 ^ (4 * i) else n) 0

theorem laneMask_succ (m : BitVec 64) (h n : Nat) :
    laneMask m h (n + 1) = 2 ^ (4 * n) * (if m.getLsbD (32 * h + n) then 15 else 0) + laneMask m h n := by
  unfold laneMask
  rw [List.range_succ, List.foldl_append, List.foldl_cons, List.foldl_nil]
  split
  · rw [Nat.mul_comm 15, Nat.add_comm]
  · rw [Nat.mul_zero, Nat.zero_add]
theorem laneMask_lt (m : BitVec 64) (h n : Nat) : laneMask m h n < 2 ^ (4 * n) := by
  induction n with
  | zero => exact Nat.one_pos
  | succ n ih =>
    have wide : 2 ^ (4 * (n + 1)) = 2 ^ (4 * n) * 16 := by rw [Nat.mul_succ, Nat.pow_add]
    rw [laneMask_succ, wide]
    split <;> omega
theorem testBit_laneMask (m : BitVec 64) (h n : Nat) {j k : Nat} (hj : j < n) (hk : k < 4) :
    (laneMask m h n).testBit (4 * j + k) = m.getLsbD (32 * h + j) := by
  induction n with
  | zero => omega
  | succ n ih =>
    rw [laneMask_succ, Nat.testBit_two_pow_mul_add _ (laneMask_lt m h n)]
    by_cases last : j = n
    · subst last
      rw [if_neg (by omega), Nat.add_sub_cancel_left]
      cases m.getLsbD (32 * h + j) with
      | true =>
        have ones : ∀ k < 4, (15 : Nat).testBit k = true := by decide
        exact ones k hk
      | false => exact Nat.zero_testBit k
    · rw [if_pos (by omega), ih (by omega)]
theorem flagHalf_mask (m : BitVec 64) (v : VReg) (h : Nat) {j k : Nat} (hj : j < 32) (hk : k < 4) :
    (flagHalf m v h).1.getLsbD (4 * j + k) = m.getLsbD (32 * h + j) := by
  have mask : (flagHalf m v h).1 = BitVec.ofNat 128 (laneMask m h 32) := rfl
  rw [mask, BitVec.getLsbD_ofNat, testBit_laneMask m h 32 hj hk, decide_eq_true (by omega), Bool.true_and]
theorem flagHalf_data (m : BitVec 64) (v : VReg) (h : Nat) {j k : Nat} (hj : j < 32) (hk : k < 4) :
    (flagHalf m v h).2.extractLsb' (8 * (4 * j + k)) 8 = BitVec.ofNat 8 ((lane v (32 * h + j)).toNat / 2 ^ (8 * k)) := by
  refine BitVec.eq_of_getLsbD_eq fun i hi => ?_
  have half : (flagHalf m v h).2 = v.extractLsb' (1024 * h) 1024 := rfl
  have inLine : 8 * (4 * j + k) + i < 1024 := by omega
  have inLane : 8 * k + i < 32 := by omega
  rw [half, BitVec.getLsbD_ofNat, Nat.testBit_div_two_pow, BitVec.testBit_toNat, lane]
  simp only [BitVec.getLsbD_extractLsb', hi, inLine, Nat.add_comm i, inLane, decide_true, Bool.true_and]
  exact congrArg v.getLsbD (by omega)

/-! The two lines are written one after the other. -/

/-- No core holds the line, and it is HBM of this device. -/
structure Bare (s : State) (l : Nat) : Prop where
  unlisted : s.dirCores l = []
  absent : ∀ c, s.lineOf c l = none
  backed : s.backed (localOf (128 * l)) = true
  window : windowOf (localOf (128 * l)) = .hbm

theorem quietLine.bare {s : State} {x : Xlat} (quiet : s.quietLine x) : s.Bare (x.gpa / 128) := by
  obtain ⟨_, window, backed, _, _, _, _, unlisted, absent⟩ := quiet
  have below := windowOf_hbm.1 window
  refine ⟨unlisted, fun c => (absent c).1, backed, ?_⟩
  rw [windowOf_hbm]
  unfold localOf at below ⊢
  omega
/-- What a write at home of another line keeps of a bare line. -/
theorem Bare.keep {s t : State} {l : Nat} (bare : s.Bare l) (dir : t.dirCores l = []) (cores : t.cores = s.cores) : t.Bare l := by
  obtain ⟨_, absent, backed, window⟩ := bare
  refine ⟨dir, fun c => ?_, ?_, window⟩
  · unfold lineOf core
    rw [cores]
    exact absent c
  · unfold State.backed at backed ⊢
    rw [window] at backed ⊢
    exact backed

/-- The lines at L + h for h in the list have the bytes that the mask picks of the register's halves, and all else is as it was. -/
structure HalvesWritten (m : BitVec 64) (v : VReg) (L : Nat) (ls : List Nat) (s t : State) : Prop where
  wf : Memory.wf t.mem = true
  held : t.homes.held = s.homes.held
  devid : t.dev.devid = s.dev.devid
  inside : ∀ h i, i < 128 → t.byte (128 * (L + h) + i) =
    if h ∈ ls ∧ (flagHalf m v h).1.getLsbD i = true then (flagHalf m v h).2.extractLsb' (8 * i) 8 else s.byte (128 * (L + h) + i)
  below : ∀ q < 128 * L, t.byte q = s.byte q

/-- One of the lines of `flagData`. -/
def flagStep (k : PageKind) (gpa : Nat) (m : BitVec 64) (v : VReg) (r : State × Except (BitVec 8) Bool) (h : Nat) :
    State × Except (BitVec 8) Bool :=
  match r with
  | (s, .error e) => (s, .error e)
  | (s, .ok _) =>
    let l := gpa / 128 + h
    let (mask, d) := flagHalf m v h
    let s := s.dropCopies k l
    match s.homeWrite k.space k.key l mask d with
    | .error e => (s, .error e)
    | .ok s => (if k.tracked then s else s.copyPut s.hereCore l mask d, .ok true)

section Step
variable {s : State} {sp : BitVec 6} {tracked : Bool} {gpa h : Nat} {m : BitVec 64} {v : VReg} (wf : Memory.wf s.mem = true)
  (bare : s.Bare (gpa / 128 + h))
include wf bare

theorem flagStep_writes : ∃ t, flagStep ⟨sp, 0, tracked⟩ gpa m v (s, .ok true) h = (t, .ok true) ∧
    HalvesWritten m v (gpa / 128) [h] s t ∧ ∀ l, s.Bare l → t.Bare l := by
  obtain ⟨unlisted, absent, backed, window⟩ := bare
  generalize drop_ : s.dropCopies ⟨sp, 0, tracked⟩ (gpa / 128 + h) = r
  have dropped : r = s ∨ r = s.setDir (gpa / 128 + h) [] := by
    rw [← drop_]
    unfold dropCopies
    cases tracked with
    | false => exact .inl rfl
    | true =>
      refine .inr ?_
      simp [recallTo_of_unheld unlisted, invalidateOthers, unlisted]
  have same : r.mem = s.mem ∧ r.cores = s.cores ∧ r.homes.held = s.homes.held ∧ r.dev = s.dev ∧ r.silt = s.silt := by
    obtain rfl | rfl := dropped <;> exact ⟨rfl, rfl, rfl, rfl, rfl⟩
  have listed (l : Nat) (none_ : s.dirCores l = []) : r.dirCores l = [] := by
    obtain rfl | rfl := dropped
    · exact none_
    · by_cases here : gpa / 128 + h = l
      · rw [here]
        exact dirCores_setDir_same s l []
      · exact (tget_tdel_other [] here s.homes.lineDir).trans none_
  obtain ⟨mem, cores, held, dev, silt⟩ := same
  have ready : r.Bare (gpa / 128 + h) := Bare.keep ⟨unlisted, absent, backed, window⟩ (listed _ unlisted) cores
  obtain ⟨t, written, bytes, devid, merged⟩ := r.homeWrite_own sp (gpa / 128 + h) (flagHalf m v h).1 (flagHalf m v h).2 ready.backed
  obtain ⟨poison, homes⟩ := homes_homeWrite written
  have kept (l : Nat) (clear_ : s.Bare l) : t.Bare l :=
    clear_.keep ((congrArg (fun d : Table (List Nat) => tget [] d l) merged.dir).trans (listed l clear_.unlisted))
      (merged.cores.trans cores)
  have put : t.copyPut t.hereCore (gpa / 128 + h) (flagHalf m v h).1 (flagHalf m v h).2 = t := by
    unfold copyPut
    rw [(kept _ ⟨unlisted, absent, backed, window⟩).absent]
  obtain ⟨line, others⟩ := byte_lineMask s t (gpa / 128 + h) (flagHalf m v h).1 (flagHalf m v h).2 wf (by rw [← mem]; exact bytes)
  refine ⟨t, ?_, ⟨?_, ?_, devid.trans (congrArg DevRegs.devid dev), fun n i hi => ?_, fun q low => others q (by omega)⟩, kept⟩
  · unfold flagStep
    dsimp only
    rw [drop_, written]
    dsimp only
    rw [put, ite_self]
  · rw [bytes, mem]
    exact Memory.wf_cellsMask _ _ _ _ _ wf
  · rw [homes]
    exact held
  · by_cases here : n = h
    · subst here
      rw [line i hi]
      simp
    · rw [others _ (by omega), if_neg (by simp [here])]

end Step

theorem HalvesWritten.nil {m : BitVec 64} {v : VReg} {L : Nat} {s : State} (wf : Memory.wf s.mem = true) : HalvesWritten m v L [] s s :=
  ⟨wf, rfl, rfl, fun h i _ => by rw [if_neg fun c => absurd c.1 List.not_mem_nil], fun _ _ => rfl⟩
theorem HalvesWritten.cons {m : BitVec 64} {v : VReg} {L h : Nat} {ls : List Nat} {s t u : State} (first : HalvesWritten m v L [h] s t)
    (rest : HalvesWritten m v L ls t u) : HalvesWritten m v L (h :: ls) s u := by
  refine ⟨rest.wf, rest.held.trans first.held, rest.devid.trans first.devid, fun n i hi => ?_, fun q low =>
    (rest.below q low).trans (first.below q low)⟩
  rw [rest.inside n i hi, first.inside n i hi]
  by_cases bit : (flagHalf m v n).1.getLsbD i = true
  · by_cases later : n ∈ ls <;> simp [bit, later]
  · simp [bit]
theorem flagSteps_write {sp : BitVec 6} {tracked : Bool} {gpa : Nat} {m : BitVec 64} {v : VReg} : ∀ (ls : List Nat) (s : State),
    Memory.wf s.mem = true → (∀ h ∈ ls, s.Bare (gpa / 128 + h)) →
    ∃ t, ls.foldl (flagStep ⟨sp, 0, tracked⟩ gpa m v) (s, .ok true) = (t, .ok true) ∧ HalvesWritten m v (gpa / 128) ls s t
  | [], s, wf, _ => ⟨s, rfl, .nil wf⟩
  | h :: ls, s, wf, bare => by
    obtain ⟨t, step, first, kept⟩ := flagStep_writes (sp := sp) (tracked := tracked) (m := m) (v := v) wf (bare h List.mem_cons_self)
    obtain ⟨u, steps, rest⟩ := flagSteps_write (sp := sp) (tracked := tracked) (m := m) (v := v) ls t first.wf fun n hn =>
      kept _ (bare n (List.mem_cons_of_mem h hn))
    exact ⟨u, by rw [List.foldl_cons, step, steps], first.cons rest⟩

/-- The lines that have a byte to write. -/
def flagLines (m : BitVec 64) (v : VReg) : List Nat := [0, 1].filter fun h => (flagHalf m v h).1 != 0

theorem flagLines_lt {m : BitVec 64} {v : VReg} {h : Nat} (listed : h ∈ flagLines m v) : h < 2 := by
  have two := (List.mem_filter.1 listed).1
  simp only [List.mem_cons, List.not_mem_nil, or_false] at two
  omega
theorem mem_flagLines {m : BitVec 64} {v : VReg} {h i : Nat} (two : h < 2) (bit : (flagHalf m v h).1.getLsbD i = true) :
    h ∈ flagLines m v := by
  refine List.mem_filter.2 ⟨by simp only [List.mem_cons, List.not_mem_nil, or_false]; omega, bne_iff_ne.2 fun none_ => ?_⟩
  simp [none_] at bit

section Lanes
variable {m : BitVec 64} {v : VReg} {a : Nat} {s t : State} (written : HalvesWritten m v (a / 128) (flagLines m v) s t)
  (aligned : a % 256 = 0)
include written aligned

theorem HalvesWritten.lane_bytes {i : Nat} (hi : i < 64) :
    t.bytes (a + 4 * i) 4 = if m.getLsbD i then (lane v i).toNat else s.bytes (a + 4 * i) 4 := by
  have at_ (k : Nat) : a + 4 * i + k = 128 * (a / 128 + i / 32) + (4 * (i % 32) + k) := by omega
  have lane_ : 32 * (i / 32) + i % 32 = i := by omega
  have byte_ (k : Nat) (hk : k < 4) : t.byte (a + 4 * i + k) =
      if m.getLsbD i then BitVec.ofNat 8 ((lane v i).toNat / 2 ^ (8 * k)) else s.byte (a + 4 * i + k) := by
    have mask := flagHalf_mask m v (i / 32) (j := i % 32) (by omega) hk
    have data := flagHalf_data m v (i / 32) (j := i % 32) (by omega) hk
    rw [lane_] at mask data
    rw [at_, written.inside _ _ (by omega), data, ← mask]
    by_cases bit : (flagHalf m v (i / 32)).1.getLsbD (4 * (i % 32) + k) = true
    · rw [if_pos ⟨mem_flagLines (by omega) bit, bit⟩, if_pos bit]
    · rw [if_neg fun c => bit c.2, if_neg bit]
  cases picked : m.getLsbD i with
  | true =>
    simp only [picked, if_true] at byte_ ⊢
    exact (cellsRead_of_bytes t.mem 4 (a + 4 * i) _ byte_).trans (Nat.mod_eq_of_lt (lane v i).isLt)
  | false =>
    simp only [picked, Bool.false_eq_true, if_false] at byte_ ⊢
    exact cellsRead_congr 4 (a + 4 * i) byte_
theorem HalvesWritten.beside {q : Nat} (beside : q < a ∨ a + 256 ≤ q) : t.byte q = s.byte q := by
  obtain low | high := beside
  · exact written.below q (by omega)
  · have at_ : q = 128 * (a / 128 + (q / 128 - a / 128)) + q % 128 := by omega
    rw [at_, written.inside _ _ (by omega), if_neg fun c => absurd (flagLines_lt c.1) (by omega)]

end Lanes

section Data
variable {s : State} {x : Xlat} (low : s.quietLine x) (high : s.quietLine { x with gpa := x.gpa + 128 }) (aligned : x.gpa % 256 = 0)
include low high aligned

/-- With neither line locked nor granted away the lanes that the mask picks are written at once. -/
theorem flagData_writes (wf : Memory.wf s.mem = true) (sp : BitVec 6) (tracked : Bool) (m : BitVec 64) (v : VReg) :
    ∃ t, s.flagData ⟨sp, 0, tracked⟩ x.gpa m v = (t, .ok true) ∧ HalvesWritten m v (x.gpa / 128) (flagLines m v) s t := by
  have second : (x.gpa + 128) / 128 = x.gpa / 128 + 1 := by omega
  have lines (h : Nat) (two : h < 2) : s.Bare (x.gpa / 128 + h) ∧ s.lineLocked (x.gpa / 128 + h) = false := by
    obtain rfl | rfl : h = 0 ∨ h = 1 := by omega
    · obtain ⟨_, _, _, _, _, unlocked, _⟩ := id low
      exact ⟨low.bare, unlocked⟩
    · obtain ⟨_, _, _, _, _, unlocked, _⟩ := id high
      rw [← second]
      exact ⟨high.bare, unlocked⟩
  obtain ⟨t, steps, written⟩ := flagSteps_write (sp := sp) (tracked := tracked) (m := m) (v := v) (flagLines m v) s wf fun h listed =>
    (lines h (flagLines_lt listed)).1
  obtain ⟨_, _, _, _, _, _, open_, _⟩ := low
  have unlocked : ((flagLines m v).any fun h => s.lineLocked (x.gpa / 128 + h)) = false :=
    List.any_eq_false.2 fun h listed => by rw [(lines h (flagLines_lt listed)).2]; exact Bool.false_ne_true
  have shape : s.flagData ⟨sp, 0, tracked⟩ x.gpa m v = if (flagLines m v).any fun h => s.lineLocked (x.gpa / 128 + h) then (s, .ok false)
      else if !(flagLines m v).isEmpty && s.grantBlocks (x.gpa / 65536) true then (s.revokeFor (x.gpa / 65536) true sp, .ok false)
      else (flagLines m v).foldl (flagStep ⟨sp, 0, tracked⟩ x.gpa m v) (s, .ok true) := rfl
  refine ⟨t, ?_, written⟩
  rw [shape, unlocked, open_, Bool.and_false, if_neg Bool.false_ne_true, if_neg Bool.false_ne_true, steps]

end Data

/-! The flag, and the turn of the word. -/

theorem settleLines_of_empty {s : State} {core : Nat} (empty : (s.core core).queue = []) (id : Nat) : ∀ ls : List Nat,
    s.settleLines core id ls = (s, true)
  | [] => rfl
  | l :: ls => by
    unfold settleLines
    rw [settle_of_empty empty]
    exact settleLines_of_empty empty id ls
theorem flagTurn_of_nothing {s : State} (empty : (s.core s.hereCore).queue = []) (none_ : ∀ l, s.olderFlight s.here s.tick l = false)
    (ls : List Nat) : s.flagTurn ls = (s, true) := by
  unfold flagTurn
  rw [settleLines_of_empty empty]
  simp [none_]
/-- The addition to a flag of this device is kept at its home. -/
theorem raiseFlag_holds {s : State} {g : Flit} (own : s.ownDevice g.gpa.toNat = true) (c access : Nat) (va : Dbl) (header : BitVec 56) :
    ∃ h agenda, s.raiseFlag c access va header (some g) = { s with agenda, homes := { s.homes with held := s.homes.held ++ [h] } } ∧
      h.gpa = g.gpa ∧ h.type = g.type := by
  let h : Flit := { g with
    src := s.dev.devid, tag := 0, aux := BitVec.ofNat 64 access,
    data := BitVec.ofNat 2048 (va.toNat + 2 ^ 64 * header.toNat + 2 ^ 128 * c) }
  obtain ⟨agenda, woken⟩ := wakeHeld_eq { s with homes := { s.homes with held := s.homes.held ++ [h] } }
  refine ⟨h, agenda, ?_, rfl, rfl⟩
  rw [← woken]
  exact if_pos own

end State

section
variable {p : Pred} {v : BitVec 6} {k : BitVec 4} {a b : BitVec 5} {s u w : State} {x y : State.Xlat} (holds : s.holds p = true)
include holds

/-- An `rstf` whose checks pass, whose turn it is and whose data is written (R376): an access that its flag ends. -/
theorem exec_rstf_raises {t : State} (aligned : (s.rx a).toNat % 256 = 0) (flagged : (s.rx b).toNat % 8 = 0) (some_ : s.rk k ≠ 0)
    (data : s.laneCheck (s.rx a) 4 .write false false = (u, .ok x)) (flag : u.laneCheck (s.rx b) 8 .atomic false false = (w, .ok y))
    (cx : w.cx = s.cx) (empty : (w.core w.hereCore).queue = []) (none_ : ∀ l, w.olderFlight w.here w.tick l = false)
    (own : w.ownDevice x.gpa = true) (window : windowOf (localOf x.gpa) = .hbm)
    (written : w.flagData ⟨w.cx.id.space, x.leaf.extractLsb' 8 8, x.leaf.getLsbD 4⟩ x.gpa (s.rk k) (s.rv v) = (t, .ok true)) :
    exec (.rstf p v k a b) s = .next ((t.openAccess 16 false).2.raiseFlag t.here t.tick (s.rx b) w.issue.pc (some (w.flagFlit y))) := by
  have reads : w.rv v = s.rv v := by
    unfold State.rv
    rw [cx]
  rw [exec_rstf, execRstf, State.perform_true _ _ _ holds]
  dsimp only
  rw [if_neg (by simpa using aligned), if_neg (by simpa using flagged), if_neg (by simpa using some_), data]
  dsimp only
  rw [flag]
  dsimp only
  rw [State.flagTurn_of_nothing empty none_]
  dsimp only
  rw [own, window, reads]
  simp only [written]
  rfl

end
end Sys2Proof.Machine
end

