-- ==== Sys2Proof/Proofs/RangeAndHandOff.lean ====
section
/-! The range words and the words that hand work over, together (O49). -/

namespace Sys2Proof.Machine

section
variable {p : Pred} {a b : BitVec 5} {s u : State} (holds : s.holds p = true)
include holds

/-- A flagged store of this device's lines, its flag on this device too. -/
theorem rstf_hands {v : BitVec 6} {k : BitVec 4} {x y : State.Xlat} {w : State} (aligned : (s.rx a).toNat % 256 = 0)
    (flagged : (s.rx b).toNat % 8 = 0) (some_ : s.rk k ≠ 0) (data : s.laneCheck (s.rx a) 4 .write false false = (u, .ok x))
    (flag : u.laneCheck (s.rx b) 8 .atomic false false = (w, .ok y)) (cx : w.cx = s.cx) (low : w.quietLine x)
    (high : w.quietLine { x with gpa := x.gpa + 128 }) (block : x.gpa % 256 = 0) (own : w.ownDevice y.gpa = true) (small : y.gpa < 2 ^ 60)
    (empty : (w.core w.hereCore).queue = []) (none_ : ∀ l, w.olderFlight w.here w.tick l = false) (wf : Memory.wf w.mem = true) :
    ∃ t g, exec (.rstf p v k a b) s = .next t ∧ t.homes.held = w.homes.held ++ [g] ∧ g.gpa.toNat = y.gpa ∧ g.type = 5 ∧
      (∀ i < 64, t.bytes (x.gpa + 4 * i) 4 = if (s.rk k).getLsbD i then (lane (s.rv v) i).toNat else w.bytes (x.gpa + 4 * i) 4) ∧
      ∀ q, q < x.gpa ∨ x.gpa + 256 ≤ q → t.byte q = w.byte q := by
  obtain ⟨r, put, written⟩ := State.flagData_writes low high block wf w.cx.id.space (x.leaf.getLsbD 4) (s.rk k) (s.rv v)
  obtain ⟨home, window, _, key, _⟩ := low
  have at_ : (w.flagFlit y).gpa.toNat = y.gpa := Nat.mod_eq_of_lt small
  have here : (r.openAccess 16 false).2.ownDevice (w.flagFlit y).gpa.toNat = true := by
    rw [at_]
    exact (congrArg (devOf y.gpa == ·) written.devid).trans own
  obtain ⟨g, agenda, raised, gpa, type⟩ := State.raiseFlag_holds here r.here r.tick (s.rx b) w.issue.pc
  refine ⟨_, g, exec_rstf_raises holds aligned flagged some_ data flag cx empty none_ home window (by rw [key]; exact put), ?_,
    (congrArg BitVec.toNat gpa).trans at_, type, ?_⟩
  · rw [raised]
    exact congrArg (· ++ [g]) written.held
  · rw [raised]
    exact ⟨fun i hi => written.lane_bytes block hi, fun q => written.beside block⟩

end

/-- Settles O49: the words that start work by what they put where it waits, the range words and `rstf` by the bytes of their lines. -/
theorem rangeAndHandOffWords : Obligations.RangeAndHandOffWords := by
  unfold Obligations.RangeAndHandOffWords
  intro p a b s u holds
  refine ⟨?mcas, ?range, ?rstf, ?pfl, ?acopy⟩
  case mcas =>
    intro d c ws es v aligned read entries good opens queued
    exact ⟨_, _, exec_mcas_accepted holds d aligned read entries good opens queued, rfl, rfl, rfl, rfl, rfl, rfl, rfl⟩
  case range =>
    intro ln pages m first last count some_ empty none_ one held untracked invalid key dirty unlocked own hb wf at_ merged
    have merges (keep : Bool) (mapped : s.rangePages (first / 512) (!keep) count = (u, .ok pages)) :
        ∃ t, s.rangeWord a b keep false = t.closeAccess u.tick ∧ State.LineMerged u t ln ∧
          t.lineOf u.hereCore ln.line = if keep then some { ln with dirty := 0 } else none :=
      State.rangeWord_one some_ mapped empty none_ one own unlocked fun use =>
        State.rangeLine_merges (s := ((u.veil 2 s.moor).openAccess 2 false).2) held untracked invalid key dirty unlocked own hb wf keep use
    refine ⟨fun mapped => ?_, fun mapped => ⟨?_, ?_⟩⟩
    · obtain ⟨t, word, bytes, line⟩ := merges true mapped
      refine ⟨t.closeAccess u.tick, ?_, bytes, line⟩
      rw [exec_rwb, execRwb, State.perform_true _ _ _ holds, word]
    · obtain ⟨t, word, bytes, line⟩ := merges false mapped
      refine ⟨t.closeAccess u.tick, ?_, bytes, line⟩
      rw [exec_rwbinv, execRwbinv, State.perform_true _ _ _ holds, word]
    · obtain ⟨t, word, bytes, line⟩ := State.rangeWord_one (P := fun t => t.sameBytes u ∧ t.lineOf u.hereCore ln.line = none)
        (discard := true) some_ mapped empty none_ one own unlocked fun use =>
          ⟨_, State.rangeLine_discards (s := ((u.veil 2 s.moor).openAccess 2 false).2) held untracked use, fun _ => rfl,
            State.lineOf_dropLine_same _ _ _⟩
      refine ⟨t.closeAccess u.tick, ?_, bytes, line⟩
      rw [exec_rinv, execRinv, State.perform_true _ _ _ holds, word]
  case rstf =>
    intro v k x y w aligned flagged some_ data flag cx low high block own small empty none_ wf
    exact rstf_hands holds aligned flagged some_ data flag cx low high block own small empty none_ wf
  case pfl =>
    intro e i l va s1
    have word := exec_pfl_eq (a := a) holds e i l
    rw [immS_eq] at word
    have engine : State.Engine s1 (if s.free.1.getLsbD 0 then fetchOf s1 e va else s1) := by
      split
      · exact engine_fetchOf s1 e va
      · exact .refl s1
    refine ⟨_, word, engine.cx, congrArg Issue.verdict engine.issue, fun ⟨f, faults⟩ => ?_, fun v x checked quiet writable => ?_⟩
    · rw [fetchOf_faulting faults, ite_self]
    · by_cases fetch : s.free.1.getLsbD 0 = true
      · obtain ⟨mem, ln, held, data, exclusive⟩ := fetchOf_quiet checked quiet writable
        rw [if_pos fetch]
        refine .inr ⟨fun q => congrArg (cellRead · q) mem.symm, ln, held, fun k hk => ?_, exclusive⟩
        rw [data]
        exact State.extractLsb'_lineRaw s1 _ hk
      · exact .inl (if_neg fetch)
  case acopy =>
    intro i l dsc va desc base bar j o aligned read good whole wf idle some_ fits
    have at_ : va = s.rx a + immS i l := congrArg (s.rx a + ·) (immS_eq i l).symm
    have offset : bar - base = 16 * (desc.extractLsb' 234 22).toNat := Nat.add_sub_cancel_left _ _
    rw [at_] at aligned read
    rw [offset] at good
    let v := (u.openAccess (u.copySets u.hereCluster j) false).2
    obtain ⟨copies, pending, lands, mem, here⟩ := State.takeCopy_takes (s := v) idle wf some_ fits
    have cluster : (v.takeCopy u.hereCluster j).hereCluster = u.hereCluster := congrArg (· / 64) here
    have word : exec (.acopy p a i l) s = .next (v.takeCopy u.hereCluster j) :=
      exec_acopy_accepted holds rfl aligned read good whole idle
    refine ⟨v.takeCopy u.hereCluster j, word, ?_, ?_, lands, mem⟩
    · rw [cluster]
      exact copies
    · rw [cluster]
      exact pending

end Sys2Proof.Machine
end
